-- ==== Sys2Proof/Word.lean ====
section
/-! DEFINITION. The word types of the machine and the association table in which State holds what is
kept by number (a register file, a page of blocks, a directory). -/

namespace Sys2Proof

/-- A byte. -/
abbrev Byte := BitVec 8
/-- A 32-bit register (R9, R106). -/
abbrev Word := BitVec 32
/-- A 64-bit operand, address or counter (R9, R122). -/
abbrev DWord := BitVec 64
/-- One bit for each of a crew's 32 lanes (R24). -/
abbrev Mask := BitVec 32

/-- Values kept by number, in rising order of the number. -/
abbrev Table (α : Type) := List (Nat × α)

namespace Table

/-- The value kept under `k`. -/
def find {α : Type} (t : Table α) (k : Nat) : Option α :=
  match t with
  | [] => none
  | (j, a) :: r => if j = k then some a else find r k

/-- The value kept under `k`, or `d`. -/
def getD {α : Type} (t : Table α) (k : Nat) (d : α) : α :=
  match t with
  | [] => d
  | (j, a) :: r => if j = k then a else getD r k d

/-- Keeps `a` under `k`. -/
def put {α : Type} (t : Table α) (k : Nat) (a : α) : Table α :=
  match t with
  | [] => [(k, a)]
  | (j, b) :: r =>
    if k = j then (k, a) :: r
    else if k < j then (k, a) :: (j, b) :: r
    else (j, b) :: put r k a

/-- Keeps nothing under `k`. -/
def drop {α : Type} (t : Table α) (k : Nat) : Table α :=
  match t with
  | [] => []
  | (j, b) :: r => if j = k then drop r k else (j, b) :: drop r k

/-- The numbers of `t` rise strictly, all above `lo`. -/
def risingFrom {α : Type} (lo : Nat) (t : Table α) : Bool :=
  match t with
  | [] => true
  | (j, _) :: r => decide (lo ≤ j) && risingFrom (j + 1) r

end Table
end Sys2Proof
end

