-- ==== Sys2Proof/Config.lean ====
section
/-! DEFINITION. What one implementation fixes, and the free values: what the spec leaves open is an opaque
constant applied to a counter of State or to the operands. -/

namespace Sys2Proof.Config

/-! ## Sizes the spec fixes -/

/-- R26, R16: crew slots of a partition. -/
def crewSlots : Nat := 128
/-- R16: vector register bytes of a partition. -/
def vectorBytes : Nat := 512 * 1024
/-- R47. -/
def stashBytes : Nat := 2 * 1024 * 1024
/-- R63: 512 GiB. -/
def deviceBytes : Nat := 512 * 2 ^ 30
/-- R188. -/
def originEntries : Nat := 512
/-- R75. -/
def tlbEntries : Nat := 4096
/-- R75. -/
def walksInFlight : Nat := 256
/-- R78. -/
def requestSlots : Nat := 8
/-- R28, R175. -/
def stackDepth : Nat := 32
/-- R251. -/
def matrixQueue : Nat := 16
/-- R42. -/
def starvation : Nat := 4096
/-- R27. -/
def fairness : Nat := 64
/-- R247. -/
def probeWait : Nat := 8192
def probeWaitGated : Nat := 65536
/-- R335. -/
def remoteWait : Nat := 65536
/-- R60: lines of the two L1 partitions. -/
def leaseLines : Nat := 192 * 1024 / 128
def readOnlyLines : Nat := 64 * 1024 / 128

/-! ## Free values

Each is an uninterpreted function: nothing in Lean can evaluate it. -/

/-- Which of several possible steps comes next (log 2). -/
opaque pick : Nat → Nat
/-- Clocks that pass with a step (log 2). -/
opaque tick : Nat → Nat
/-- A choice among what a rule leaves unspecified: the TLB entry or L1 line that leaves, the value that remains. -/
opaque choose : Nat → Nat
/-- The approximating functions of FRSQ, FEX2, FLG2, FSIN, FCOS and FTANH (R162), on the operand's pattern. -/
opaque frsq : BitVec 32 → BitVec 32
opaque fex2 : BitVec 32 → BitVec 32
opaque flg2 : BitVec 32 → BitVec 32
opaque fsin : BitVec 32 → BitVec 32
opaque fcos : BitVec 32 → BitVec 32
opaque ftanh : BitVec 32 → BitVec 32
/-- Whether a 128-byte line fits the 2:1 or the 4:3 form (R72). -/
opaque fitsHalf : List (BitVec 8) → Bool
opaque fitsThreeQ : List (BitVec 8) → Bool
/-- Bytes of a dock image or a trap frame that the spec calls opaque (R238, R244). -/
opaque opaqueByte : Nat → BitVec 8
/-- The bytes of a frame's summary of the divergence state (R238): of the other slot's number, PC and mask, the depth of
the divergence stack and the number of points, and the byte's offset. -/
opaque summaryByte : List Nat → Nat → BitVec 8
/-- What a die's hottest sensor reads at a boundary (R339). -/
opaque sensor : Nat → Nat
/-- A word's line is not in the instruction cache of its core (R16 gives its size, and no rule fills it). -/
opaque fetchMisses : Nat → Bool
/-- Whether another module answers a fetch at once (R335). -/
opaque fetchAnswered : Nat → Bool
/-- SHA-384, and the check of an ECDSA P-384 signature: a public key, a digest and a signature (R344 names them, and other
standards define them). -/
opaque sha384 : List (BitVec 8) → List (BitVec 8)
opaque ecdsaP384 : List (BitVec 8) → List (BitVec 8) → List (BitVec 8) → Bool
/-- What is fused into the package: the SHA-384 hash of the public key, and the configuration (R344). -/
opaque fusedKeyHash : List (BitVec 8)
opaque fusedConfig : List (BitVec 8)
/-- The part's certificate chain, its answer to GET_CAPABILITIES, and its signature over a challenge's nonce (R344). -/
opaque certificate : List (BitVec 8)
opaque spdmCapabilities : List (BitVec 8)
opaque spdmSign : BitVec 256 → List (BitVec 8)

end Sys2Proof.Config
end

