-- ==== Sys2Proof/Syntax.lean ====
section
/-! DEFINITION. The syntax of the machine's steps: operands, modifiers and the one inductive Instr, with a
constructor for every row of the opcode table: the instructions of the Bamith set and the steps that
the device, the host and the environment take (95_what_each_step_holds.md). -/

namespace Sys2Proof

/-! ## Operands and modifiers -/

/-- The guard of R123: GN and GP. `⟨false, 7⟩` is the unguarded form. -/
structure Guard where
  neg : Bool
  p : Fin 8
  deriving DecidableEq, Repr

/-- A 9-bit operand field (R124, R125), or the immediate that replaces B (R127).
In capsule mode `v 0` to `v 15` name k0 to k15 (R135). -/
inductive Opnd where
  | v (n : Nat)
  | s (n : Nat)
  | zero | lane | crew | bx | byIdx | bz | rank | core | clk | ones
  | chan (n : Nat) (peek : Bool)
  | imm (x : Word)
  deriving DecidableEq, Repr

/-- TY of R146: the type, and with it the width. -/
inductive IntTy where
  | i32 | n32 | i64 | n64
  deriving DecidableEq, Repr

/-- CMP of R155. -/
inductive ICmp where
  | eq | ne | lt | le | gt | ge
  deriving DecidableEq, Repr

/-- CMP of R160. -/
inductive FCmp where
  | eq | ne | lt | le | gt | ge | num | nan
  deriving DecidableEq, Repr

/-- The format codes of R164. -/
inductive Fmt where
  | f32 | f16 | bf16 | e4m3 | e5m2 | e2m1 | i32 | n32 | i16 | n16 | i8 | n8 | i4 | n4 | i64 | n64
  deriving DecidableEq, Repr

/-- QF of R165: the quad-scaled format. -/
inductive QFmt where
  | qf4 | qi4 | qf8
  deriving DecidableEq, Repr

/-- DQ of R166. -/
inductive DqFmt where
  | f32 | bf16 | f16
  deriving DecidableEq, Repr

/-- The scopes of R80. -/
inductive Scope where
  | dev | crew | blk | flt | sys
  deriving DecidableEq, Repr

/-- SZ of R185. -/
inductive Size where
  | b8 | b16 | b32 | b64 | b128
  deriving DecidableEq, Repr

/-- W of R167. -/
inductive ElW where
  | w8 | w16 | w4
  deriving DecidableEq, Repr

/-- SM of R167. -/
inductive SatMode where
  | trunc | sats | satn
  deriving DecidableEq, Repr

/-- MODE of R180. -/
inductive ShflMode where
  | idx | up | down | xor
  deriving DecidableEq, Repr

/-- MODE of R181 for ALL, ANY and UNI. -/
inductive VoteMode where
  | all | any | uni
  deriving DecidableEq, Repr

/-- Where VOTE leaves its result (R181). -/
inductive VoteDst where
  | ballot (d : Opnd)
  | pred (mode : VoteMode) (pd : Fin 8)
  deriving DecidableEq, Repr

/-- OP of R182. -/
inductive RedOp where
  | add | min | max | and | or | xor
  deriving DecidableEq, Repr

/-- TY of R182. -/
inductive RedTy where
  | i32 | n32 | f32 | i64 | n64
  deriving DecidableEq, Repr

/-- OP of R192. -/
inductive AtomOp where
  | add | min | max | and | or | xor | exch | cas | inc | dec
  deriving DecidableEq, Repr

/-- TY of R192. -/
inductive AtomTy where
  | i32 | n32 | i64 | n64 | f32
  deriving DecidableEq, Repr

/-- SEM of R185 and R192. -/
structure Sem where
  acq : Bool
  rel : Bool
  deriving DecidableEq, Repr

/-- The weight formats of R250. -/
inductive WFmt where
  | e4m3 | e5m2 | bf16 | i4 | e2m1 | lut4
  deriving DecidableEq, Repr

/-- The activation formats of R250. -/
inductive AFmt where
  | e4m3 | e5m2 | bf16 | i4 | e2m1
  deriving DecidableEq, Repr

/-- The special registers of R222. -/
inductive Spr where
  | fstat | tst | tctl
  | chb (n : Fin 16)
  | rrcfg (k : Fin 4)
  | energy | ltag | batch | prio | die | clk64 | ltime | lease
  deriving DecidableEq, Repr

/-- KIND of R315. -/
inductive PopKind where
  | val | mark | gap
  deriving DecidableEq, Repr

/-- SEL of R316. -/
inductive TstatSel where
  | top | next | num
  deriving DecidableEq, Repr

/-- The modifiers of R158. -/
structure FMods where
  na : Bool
  nb : Bool
  nc : Bool
  aa : Bool
  ab : Bool
  deriving DecidableEq, Repr

/-! ## Operand lists of the families -/

/-- R147: two sources of the width TY gives. -/
structure IntOp where
  g : Guard
  d : Opnd
  a : Opnd
  b : Opnd
  ty : IntTy
  sat : Bool
  deriving DecidableEq, Repr

/-- R147: `IABS`. -/
structure IabsOp where
  g : Guard
  d : Opnd
  a : Opnd
  ty : IntTy
  sat : Bool
  deriving DecidableEq, Repr

/-- R147: `IMAD` and `IMADW`. -/
structure Int3Op where
  g : Guard
  d : Opnd
  a : Opnd
  b : Opnd
  c : Opnd
  ty : IntTy
  deriving DecidableEq, Repr

/-- R148. `cin` is the carry-in predicate and its negation, when CIE = 1. -/
structure IaddcOp where
  g : Guard
  d : Opnd
  a : Opnd
  b : Opnd
  cin : Option (Fin 8 × Bool)
  pco : Fin 8
  deriving DecidableEq, Repr

/-- R149. -/
structure LogicOp where
  g : Guard
  d : Opnd
  a : Opnd
  b : Opnd
  w64 : Bool
  deriving DecidableEq, Repr

/-- Three 32-bit sources and one flag: `FSHF` (left), `FDP2` (BF16). -/
structure Op3F where
  g : Guard
  d : Opnd
  a : Opnd
  b : Opnd
  c : Opnd
  flag : Bool
  deriving DecidableEq, Repr

/-- `BFX` (R151). -/
structure BfxOp where
  g : Guard
  d : Opnd
  a : Opnd
  b : Opnd
  sx : Bool
  deriving DecidableEq, Repr

/-- Three sources: `BFI`, `PRMT`, `XDEC`. -/
structure Op3 where
  g : Guard
  d : Opnd
  a : Opnd
  b : Opnd
  c : Opnd
  deriving DecidableEq, Repr

/-- One source: `POPC` and its like, `FCLASS`, `XBMP`. -/
structure Op1 where
  g : Guard
  d : Opnd
  a : Opnd
  deriving DecidableEq, Repr

/-- R154. -/
structure LeaOp where
  g : Guard
  d : Opnd
  a : Opnd
  b : Opnd
  sh : Fin 8
  w64 : Bool
  zx : Bool
  deriving DecidableEq, Repr

/-- R155. `tab` is pq with FN, when FN ≠ 0. -/
structure IsetpOp where
  g : Guard
  pd : Fin 8
  a : Opnd
  b : Opnd
  cmp : ICmp
  ty : IntTy
  tab : Option (Fin 8 × Fin 16)
  deriving DecidableEq, Repr

/-- R156. -/
structure SelOp where
  g : Guard
  d : Opnd
  a : Opnd
  b : Opnd
  ps : Fin 8
  pn : Bool
  deriving DecidableEq, Repr

/-- One source and one flag: `MOV`, `MATCH` (W64). -/
structure Op1F where
  g : Guard
  d : Opnd
  a : Opnd
  flag : Bool
  deriving DecidableEq, Repr

/-- R159, two sources. -/
structure FpOp where
  g : Guard
  d : Opnd
  a : Opnd
  b : Opnd
  m : FMods
  deriving DecidableEq, Repr

/-- R159, `FFMA`. -/
structure Fp3Op where
  g : Guard
  d : Opnd
  a : Opnd
  b : Opnd
  c : Opnd
  m : FMods
  deriving DecidableEq, Repr

/-- R160. -/
structure FsetpOp where
  g : Guard
  pd : Fin 8
  a : Opnd
  b : Opnd
  m : FMods
  cmp : FCmp
  tab : Option (Fin 8 × Fin 16)
  deriving DecidableEq, Repr

/-- R162. -/
structure SfuOp where
  g : Guard
  d : Opnd
  a : Opnd
  na : Bool
  aa : Bool
  deriving DecidableEq, Repr

/-- R163, two sources; `bf` is BF. -/
structure HOp where
  g : Guard
  d : Opnd
  a : Opnd
  b : Opnd
  m : FMods
  bf : Bool
  deriving DecidableEq, Repr

/-- R163, `HFMA2`. -/
structure H3Op where
  g : Guard
  d : Opnd
  a : Opnd
  b : Opnd
  c : Opnd
  m : FMods
  bf : Bool
  deriving DecidableEq, Repr

/-- R163, `HMNMX2`. -/
structure HmOp where
  g : Guard
  d : Opnd
  a : Opnd
  b : Opnd
  m : FMods
  bf : Bool
  max : Bool
  deriving DecidableEq, Repr

/-- R164. -/
structure CvtOp where
  g : Guard
  d : Opnd
  a : Opnd
  df : Fmt
  sf : Fmt
  rz : Bool
  esel : Fin 8
  deriving DecidableEq, Repr

/-- R165. `fix` is the operand that gives the scale, when FIX = 1. -/
structure CvtqOp where
  g : Guard
  d : Opnd
  a : Opnd
  fix : Option Opnd
  qf : QFmt
  deriving DecidableEq, Repr

/-- R166. -/
structure CvtdqOp where
  g : Guard
  d : Opnd
  a : Opnd
  qf : QFmt
  dq : DqFmt
  deriving DecidableEq, Repr

/-- R167, `PACK`. -/
structure PackOp where
  g : Guard
  d : Opnd
  a : Opnd
  b : Opnd
  el : Fin 8
  w : ElW
  sm : SatMode
  deriving DecidableEq, Repr

/-- R167, `UNPK`. -/
structure UnpkOp where
  g : Guard
  d : Opnd
  a : Opnd
  el : Fin 8
  w : ElW
  sx : Bool
  deriving DecidableEq, Repr

/-- R168. `sb` is the first register of the codebook. -/
structure LutxOp where
  g : Guard
  d : Opnd
  a : Opnd
  sb : Nat
  hi : Bool
  f32 : Bool
  deriving DecidableEq, Repr

/-- R169, `IDP4` and `IDP8`. -/
structure IdpOp where
  g : Guard
  d : Opnd
  a : Opnd
  b : Opnd
  c : Opnd
  ua : Bool
  ub : Bool
  sat : Bool
  deriving DecidableEq, Repr

/-- R169, `FDP4`. -/
structure Fdp4Op where
  g : Guard
  d : Opnd
  a : Opnd
  b : Opnd
  c : Opnd
  fa : Bool
  fb : Bool
  deriving DecidableEq, Repr

/-- The paired opcodes of R132. -/
inductive POp where
  | nop | iadd | isub | imul | imin | imax | and | or | xor | andn | shl | shr | sar | rotl | popc | mov
  | fadd | fsub | fmul | fmin | fmax | hadd2 | hmul2 | cvt | lds | sts | orn | iabs | clz | ctz | brev
  | lea | imulhi | fshf | hmnmx2 | fclass | frcp | frsq | fsqrt | fex2 | flg2 | fsin | fcos | ftanh
  | sel | pack | unpk
  deriving DecidableEq, Repr

/-- One half of a paired word (R131): `m` is M[6:0] and `imm` is M[7]. -/
structure Half where
  op : POp
  d : Opnd
  s : Opnd
  imm : Bool
  m : Fin 128
  deriving DecidableEq, Repr

/-- R180. -/
structure ShflOp where
  g : Guard
  d : Opnd
  a : Opnd
  b : Opnd
  mode : ShflMode
  seg : Fin 6
  deriving DecidableEq, Repr

/-- R181. -/
structure VoteOp where
  g : Guard
  dst : VoteDst
  pc : Fin 8
  pn : Bool
  deriving DecidableEq, Repr

/-- R182. -/
structure RedLaneOp where
  g : Guard
  d : Opnd
  a : Opnd
  op : RedOp
  ty : RedTy
  excl : Bool
  deriving DecidableEq, Repr

/-- R183. -/
structure ActmOp where
  g : Guard
  d : Opnd
  guarded : Bool
  deriving DecidableEq, Repr

/-- R185 to R187: `d` is the destination of a load and the data of a store. -/
structure MemOp where
  g : Guard
  d : Opnd
  a : Opnd
  b : Opnd
  sz : Size
  sx : Bool
  buf : Fin 32
  sem : Bool
  scope : Scope
  deriving DecidableEq, Repr

/-- R192, `ATOM`; `RED` has no `d`, no `c` and no acquire. -/
structure AtomOpnds where
  g : Guard
  d : Opnd
  a : Opnd
  b : Opnd
  c : Opnd
  op : AtomOp
  ty : AtomTy
  sem : Sem
  scope : Scope
  deriving DecidableEq, Repr

/-- R192, `RED`. -/
structure RedMemOp where
  g : Guard
  a : Opnd
  b : Opnd
  op : RedOp
  ty : AtomTy
  rel : Bool
  scope : Scope
  deriving DecidableEq, Repr

/-- R194. -/
structure PrefOp where
  g : Guard
  a : Opnd
  b : Opnd
  l2 : Bool
  deriving DecidableEq, Repr

/-- R203. `bar` is the barrier's offset operand, when BAR = 1. -/
structure CpyOp where
  g : Guard
  d : Opnd
  a : Opnd
  b : Opnd
  sz : Fin 3
  bar : Option Opnd
  deriving DecidableEq, Repr

/-- R210, R211. -/
structure SendOp where
  g : Guard
  d : Opnd
  a : Opnd
  b : Opnd
  ring : Fin 4
  deriving DecidableEq, Repr

/-- R262. -/
structure MmaOp where
  g : Guard
  a : Opnd
  tile : Fin 8
  af : AFmt
  zpm : Bool
  kh : Bool
  deriving DecidableEq, Repr

/-- R263. `wc` is log2 of the width. -/
structure MrdOp where
  g : Guard
  d : Opnd
  tile : Fin 8
  col : Fin 64
  wc : Fin 3
  deriving DecidableEq, Repr

/-- R264. `c` is absent with SC = ZPE = 0. -/
structure MstOp where
  g : Guard
  a : Opnd
  b : Opnd
  c : Option Opnd
  tile : Fin 8
  sc : Bool
  zpe : Bool
  ofmt : Fmt
  deriving DecidableEq, Repr

/-- R286. `lbl` is LBL, a signed word offset. -/
structure CapenterOp where
  d : Opnd
  a : Opnd
  b : Opnd
  c : Opnd
  lbl : BitVec 12
  deriving DecidableEq, Repr

/-- R314. -/
structure TrecOp where
  g : Guard
  a : Opnd
  tag : Byte
  h16 : Bool
  deriving DecidableEq, Repr

/-- R315, `TBACK`. -/
structure TbackOp where
  g : Guard
  d : Opnd
  kind : PopKind
  tag : Byte
  peek : Bool
  deriving DecidableEq, Repr

/-- R315, `TBPOP`. -/
structure TbpopOp where
  g : Guard
  pd : Fin 8
  tag : Byte
  peek : Bool
  deriving DecidableEq, Repr

/-! ## What the steps of the device and the host name -/

/-- A program-counter slot (R27): the block's number in State, the crew index, the slot. -/
structure SlotRef where
  blk : Nat
  crew : Nat
  slot : Nat
  deriving DecidableEq, Repr

/-- Port A or port B (R320). -/
inductive Port where
  | a | b
  deriving DecidableEq, Repr

/-- A queue interface: its function and its number, 0 to 63 (R322). -/
structure QiRef where
  port : Port
  q : Nat
  deriving DecidableEq, Repr

/-- A write to BAR2, the notify pages of a function (R320, R323): its offset there and its length in bytes, its data
little-endian. -/
structure NotifyWrite where
  port : Port
  off : Nat
  len : Nat
  pasid : Option Nat
  data : BitVec 512
  deriving DecidableEq, Repr

/-- The registers without a row of their own (R6, R321, R322, R326, R346). -/
inductive RegName where
  | devrdy | fqctl | fqptr | fqack | dkpool
  | evsl (die : Fin 4) | evph (die : Fin 4)
  | rwtb | fabcfg | dbgctl
  | tokbud (die : Fin 4) | tokstat (die : Fin 4)
  | hsem (k : Fin 32)
  | qictl (qi : QiRef) | qiptb (qi : QiRef) | qis2r (qi : QiRef) | qitlb (qi : QiRef)
  | qiirb (qi : QiRef) | qiinv (qi : QiRef)
  | reserved
  /-- a half of a vector of a function's MSI-X table (R328): its address, or its data with its control word -/
  | msix (port : Port) (v : Nat) (ctl : Bool)
  deriving DecidableEq, Repr

/-- What a host's write of 8 bytes names: an offset of BAR0 (R320), or a half of a vector of the function's own MSI-X
table, whose place the spec does not give (R328). -/
inductive RegAddr where
  | bar0 (off : Nat)
  | msix (v : Nat) (ctl : Bool)
  deriving DecidableEq, Repr

/-- A host's CXL.mem access to device memory (R329): a read of `len` bytes, or a write of them. -/
structure HostAccess where
  port : Port
  pa : Nat
  len : Nat
  wr : Option (BitVec 512)
  deriving DecidableEq, Repr

/-- The host snoops of R330. -/
inductive SnoopKind where
  | data | inv | cur
  deriving DecidableEq, Repr

/-- What another module asks of this module's home (R335): a read, a write, or an atomic with its operands. -/
inductive RemoteOp where
  | read (len : Nat)
  | write (len : Nat) (data : BitVec 512)
  | atom (op : AtomOp) (ty : AtomTy) (b c : DWord)
  deriving DecidableEq, Repr

/-- A request of another module at this module's home (R335). -/
structure RemoteReq where
  fromModule : Nat
  pa : Nat
  op : RemoteOp
  deriving DecidableEq, Repr

/-- A node of an installed armature (R212): the launch, the fleet index, the armature's id and the rank. -/
structure ArmRef where
  launch : Nat
  fleet : Nat
  id : Fin 4
  rank : Nat
  deriving DecidableEq, Repr

/-- The UCIe links of R343. -/
inductive UcieLink where
  | d0d1 | d0d2 | d1d3 | d2d3
  deriving DecidableEq, Repr

/-- A firmware image as the system controller finds it: its bytes, its public key and its signature (R344). -/
structure FwImage where
  bytes : List (BitVec 8)
  key : List (BitVec 8)
  sig : List (BitVec 8)
  deriving DecidableEq, Repr

/-- The SPDM requests of R344. -/
structure SpdmReq where
  port : Port
  nonce : BitVec 256
  deriving DecidableEq, Repr

/-! ## The steps -/

/-- Every row of spec/opcode_table.json. -/
inductive Instr where
  -- integer, logic and moves (13_instr_arithmetic.md)
  | iadd (x : IntOp) | isub (x : IntOp) | iaddc (x : IaddcOp)
  | imul (x : IntOp) | imulhi (x : IntOp) | imad (x : Int3Op) | imadw (x : Int3Op)
  | imin (x : IntOp) | imax (x : IntOp) | iabs (x : IabsOp)
  | and (x : LogicOp) | or (x : LogicOp) | xor (x : LogicOp) | andn (x : LogicOp) | orn (x : LogicOp)
  | shl (x : LogicOp) | shr (x : LogicOp) | sar (x : LogicOp) | rotl (x : LogicOp)
  | fshf (x : Op3F) | bfx (x : BfxOp) | bfi (x : Op3)
  | popc (x : Op1) | clz (x : Op1) | ctz (x : Op1) | brev (x : Op1)
  | prmt (x : Op3) | lea (x : LeaOp) | isetp (x : IsetpOp) | sel (x : SelOp) | mov (x : Op1F)
  -- floating point
  | fadd (x : FpOp) | fsub (x : FpOp) | fmul (x : FpOp) | ffma (x : Fp3Op)
  | fmin (x : FpOp) | fmax (x : FpOp) | fsetp (x : FsetpOp) | fclass (x : Op1)
  | frcp (x : SfuOp) | frsq (x : SfuOp) | fsqrt (x : SfuOp) | fex2 (x : SfuOp) | flg2 (x : SfuOp)
  | fsin (x : SfuOp) | fcos (x : SfuOp) | ftanh (x : SfuOp)
  | hadd2 (x : HOp) | hmul2 (x : HOp) | hfma2 (x : H3Op) | hmnmx2 (x : HmOp)
  -- conversions and dot products
  | cvt (x : CvtOp) | cvtq (x : CvtqOp) | cvtdq (x : CvtdqOp)
  | pack (x : PackOp) | unpk (x : UnpkOp) | lutx (x : LutxOp)
  | idp4 (x : IdpOp) | idp8 (x : IdpOp) | fdp4 (x : Fdp4Op) | fdp2 (x : Op3F)
  | pairedWord (h0 h1 : Half)
  -- lanes and control (15_instr_control_memory.md)
  | shfl (x : ShflOp) | vote (x : VoteOp) | matchLanes (x : Op1F)
  | cred (x : RedLaneOp) | cscan (x : RedLaneOp)
  | lser | lsend | actm (x : ActmOp)
  | bra (g : Guard) (off : Word) | braT (g : Guard) (off : Word) (tag : Byte)
  | brx (g : Guard) (a : Opnd) | call (g : Guard) (d : Opnd) (off : Word)
  | callx (g : Guard) (d a : Opnd) | ret (g : Guard) (a : Opnd)
  | join (off : Word) | exit (g : Guard) | trap (g : Guard) (code : BitVec 16)
  | chkpt (n : BitVec 16) | yieldSlot (g : Guard) | sleep (a : Opnd) | nop (g : Guard)
  -- memory and synchronisation
  | ld (x : MemOp) | st (x : MemOp) | lds (x : MemOp) | sts (x : MemOp) | ldro (x : MemOp)
  | ldsp (x : MemOp) (ac : Fin 16)
  | atom (x : AtomOpnds) | red (x : RedMemOp)
  | fence (scope : Scope) | fenceRo | pref (x : PrefOp)
  | cwb (a b : Opnd) (scope : Scope) | cinv (a b : Opnd) (scope : Scope)
  | moor (d a : Opnd) | unmoor (d a : Opnd) (wb : Bool) | mwb (d a b : Opnd) | mqry (x : Op1)
  | binit (a b : Opnd) (c : Option Opnd) | barv (d a b : Opnd) | bpar (pd : Fin 8) (a : Opnd)
  | waitBar (pd : Fin 8) (a b : Opnd) (c : Option Opnd)
  | waitBmp (pd : Fin 8) (a b : Opnd) (c : Option Opnd)
  | waitAc (pd : Fin 8) (n : Fin 16) (c : Option Opnd)
  | waitTl (pd : Fin 8) (a b : Opnd) (c : Option Opnd)
  -- engines and system (17_instr_engines.md)
  | cpy (x : CpyOp) | cpyt (d a : Opnd) | cpyq (d a : Opnd)
  | send (x : SendOp) | mcast (x : SendOp)
  | redpArm (d a : Opnd) (id : Fin 4) | redpContribute (d a : Opnd) (id : Fin 4)
  | remit (g : Guard) (i : Fin 16) (a : Opnd) | radv
  | xdec (x : Op3) | xbmp (x : Op1)
  | movspr (g : Guard) (d : Opnd) (r : Spr) | wrspr (r : Spr) (a : Opnd)
  | tlinc (a b : Opnd) (err : Bool) | gettl (g : Guard) (d a : Opnd) (err : Bool)
  | bkpt (g : Guard) (code : BitVec 12) | resphase (a : Opnd)
  -- matrix unit (21_instr_matrix.md)
  | mldw (a b : Opnd) (wf : WFmt) | mswap (d : Opnd) | mlut (sb : Nat)
  | mzero (g : Guard) (tile : Fin 8) | mma (x : MmaOp) | mrd (x : MrdOp) | mst (x : MstOp)
  | mfence (d : Opnd)
  -- capsules (23_capsule_rules.md)
  | capenter (x : CapenterOp) | capadopt (d a : Opnd) | capstat (d a : Opnd)
  | capstep (lbl : BitVec 12) | capexit | capabort
  -- tape (25_tape_rules.md)
  | tbindNew | tbindAt (a : Opnd) | tbindCh (n : Fin 16) (tag : Byte)
  | trec (x : TrecOp) | tmark (tag : Byte) (a : Opnd)
  | tback (x : TbackOp) | tbpop (x : TbpopOp) | tstat (g : Guard) (d : Opnd) (sel : TstatSel)
  -- issue and waits (03, 15)
  | starvationIssue (r : SlotRef) | fairnessPrecedence (r : SlotRef)
  | divergencePop (blk crew : Nat) | sleepExpiry (r : SlotRef)
  | waitWake (r : SlotRef) | waitTimeout (r : SlotRef)
  -- launches, blocks and slipways (03, 27)
  | submission (w : NotifyWrite) | submissionDecode (qi : QiRef)
  | launchAccept (die : Fin 4) | launchStart (launch : Nat)
  | blockPlace (die : Fin 4) | blockRetire (blk : Nat)
  | stealq (thief : Fin 4) (launch : Nat) | stealg (thief : Fin 4) (launch : Nat)
  | stealn (thief : Fin 4) (launch : Nat)
  | preempt (die : Fin 4)
  | slipwayBatchLaunch (w : Nat) | slipwayFlush (w : Nat) | remitUnpark (r : SlotRef)
  | parkSaveTimeout (blk : Nat) | outsideWaitSave (blk : Nat)
  | blockRestore (blk : Nat) | checkpointWindowExpiry (blk : Nat) | saveComplete (blk : Nat)
  -- faults and the fault queue (19)
  | storeFault (req : Nat) | faultRecordWrite (die : Fin 4)
  | fqackReplay (token : Word) | fqackKill (token : Word) | fqackDock (token : Word)
  | haltComplete (blk : Nat)
  -- network, homes and moorings (05, 19)
  | requestInject (req : Nat) | replySink (req : Nat) | controlMessage (id : Nat)
  | probe (core : Nat) (line : Nat) (inval : Bool)
  | mooringFillLand (core entry line : Nat) | writebackAck (core entry line : Nat)
  | probeTimeout (agent : Nat) (line : Nat)
  | walkComplete (walk : Nat)
  | evslLoad (die : Fin 4) (value : DWord) | evslLoadDone (die : Fin 4)
  | evphWrite (die : Fin 4) (writes : List (Nat × DWord))
  -- engines (17, 21)
  | copyLineLand (copy piece : Nat)
  | sendDelivery (msg rank : Nat) | sendRetry (msg : Nat) | mcastBranchRetry (msg : Nat)
  | armatureInput (id : Nat) | armatureTimeout (n : ArmRef)
  | matrixPassStart (core part : Nat) | matrixPassDone (core part : Nat)
  | mswapPoint (core part : Nat) | tileOpPoint (core part : Nat)
  | mldwDone (core part : Nat) | mstDone (core part : Nat)
  -- capsule messages (23)
  | enter (msg : Nat) | adopt (msg : Nat) | commit (msg : Nat) | closeAck (line : Nat)
  | park (msg : Nat) | reclaim (msg : Nat) | capsuleStore (msg : Nat)
  | conflictRestart (blk crew : Nat)
  | tapeWriteOut (blk crew : Nat)
  -- host side (27)
  | qictlWrite (qi : QiRef) (value : DWord)
  | qiinvFirstStage (qi : QiRef) (pasid : Nat) | qiinvInterface (qi : QiRef)
  | qiinvRevoke (qi : QiRef) (pasid : Nat) | qiinvSecondStage (qi : QiRef) | qiinvDone (qi : QiRef)
  | hsemClaim (k : Fin 32) (port : Port) | hsemRel (k : Fin 32) (port : Port) | portReset (port : Port)
  | hostMemAccess (x : HostAccess) | hostSnoop (port : Port) (pa : Nat) (kind : SnoopKind)
  | remoteTimeout (req : Nat) | flitReplay (flit : Nat)
  -- power, bring-up and management (29)
  | tokenWindow (die : Fin 4) | tokbudWrite (die : Fin 4) (value : DWord)
  | tshiftDecay (die : Fin 4) | thermalTrip (die : Fin 4)
  | powerGood (images : List FwImage) (hbm links ports : List Bool) | opticalTrainTimeout | rstreq
  | getVersion (x : SpdmReq) | getCapabilities (x : SpdmReq) | negotiateAlgorithms (x : SpdmReq)
  | getDigests (x : SpdmReq) | getCertificate (x : SpdmReq) | challenge (x : SpdmReq)
  | getMeasurements (x : SpdmReq)
  | patrolScrub (line : Nat) (uncorrectable : Bool)
  | registerWrite (port : Port) (r : RegAddr) (value : DWord)
  | homeSliceRequest (req : Nat) | crilvonRemoteRequest (x : RemoteReq)
  | ucieLinkFailure (l : UcieLink) | corePowerGating (core : Nat)
  deriving DecidableEq, Repr

end Sys2Proof
end

