-- ==== Sys2Proof/Machine/Operands.lean ====
section
/-! DEFINITION. Operand forms: what each instruction names in its operand fields, how many registers a
name spans, which names a place admits, the guard, and the field values the tables list. -/

namespace Sys2Proof

/-- What an operand place admits (R124 to R126, R140, R171). -/
inductive Role where
  /-- a v register, an s register or a special source -/
  | src
  /-- a crew-uniform operand (R171) -/
  | srcU
  /-- a v register -/
  | srcV
  /-- a v or an s register -/
  | srcVS
  /-- an s register -/
  | srcS
  /-- a v register, an s register or `zero` -/
  | dst
  /-- a v register or `zero` -/
  | dstVZ
  /-- a v register -/
  | dstV
  /-- an s register that receives a status or a number (R126) -/
  | dstS
  /-- the same, or `zero` -/
  | dstSZ
  /-- a v or an s register -/
  | dstVS
  deriving DecidableEq, Repr

/-- One operand place as an instruction fills it: `n` registers, with channels and immediates admitted
by `ch` and `im`. -/
structure Use where
  role : Role
  o : Opnd
  n : Nat
  ch : Bool := false
  im : Bool := false
  deriving DecidableEq, Repr

namespace Machine

/-- The unguarded form (R123). -/
def unguarded : Guard := ⟨false, 7⟩

/-- An operand that is an immediate (R127). -/
def isImm (o : Opnd) : Bool :=
  match o with
  | .imm _ => true
  | _ => false

/-- An s register. -/
def isS (o : Opnd) : Bool :=
  match o with
  | .s _ => true
  | _ => false

/-- An operand that has one value for the whole crew (R141, R171). -/
def isUniform (o : Opnd) : Bool :=
  match o with
  | .v _ => false
  | .lane => false
  | .chan _ _ => false
  | _ => true

/-- A place for results. -/
def Role_isDst (r : Role) : Bool :=
  match r with
  | .dst | .dstVZ | .dstV | .dstS | .dstSZ | .dstVS => true
  | _ => false

def roleV (r : Role) : Bool :=
  match r with
  | .src | .srcV | .srcVS | .dst | .dstVZ | .dstV | .dstVS => true
  | _ => false

def roleS (r : Role) : Bool :=
  match r with
  | .src | .srcU | .srcVS | .srcS | .dst | .dstS | .dstSZ | .dstVS => true
  | _ => false

def roleZero (r : Role) : Bool :=
  match r with
  | .src | .srcU | .dst | .dstVZ | .dstSZ => true
  | _ => false

def roleSpecial (r : Role) : Bool :=
  match r with
  | .src | .srcU => true
  | _ => false

/-- R124, R125, R140: the name is one the place admits, aligned to its span. -/
def useOk (u : Use) : Bool :=
  match u.o with
  | .v k => roleV u.role && decide (k + u.n ≤ 192) && k % u.n == 0
  | .s k => roleS u.role && decide (k + u.n ≤ 48) && k % u.n == 0
  | .zero => roleZero u.role && (Role_isDst u.role || decide (u.n ≠ 4))
  | .lane => u.role == .src && decide (u.n ≠ 4)
  | .chan c pk => u.ch && u.n == 1 && decide (c < 16) && !(Role_isDst u.role && pk)
  | .imm _ => u.im
  | _ => roleSpecial u.role && decide (u.n ≠ 4)

/-! ### Spans and widths -/

/-- Registers of an operand of type `t` (R146). -/
def intRegs (t : IntTy) : Nat :=
  match t with
  | .i32 | .n32 => 1
  | .i64 | .n64 => 2

def intSigned (t : IntTy) : Bool :=
  match t with
  | .i32 | .i64 => true
  | .n32 | .n64 => false

def widthRegs (w64 : Bool) : Nat := if w64 then 2 else 1

def redRegs (t : RedTy) : Nat :=
  match t with
  | .i64 | .n64 => 2
  | _ => 1

def atomRegs (t : AtomTy) : Nat :=
  match t with
  | .i64 | .n64 => 2
  | _ => 1

/-- Registers of a load or store of this size (R185). -/
def sizeRegs (z : Size) : Nat :=
  match z with
  | .b64 => 2
  | .b128 => 4
  | _ => 1

/-- Bytes of an access of this size (R185). -/
def sizeBytes (z : Size) : Nat :=
  match z with
  | .b8 => 1
  | .b16 => 2
  | .b32 => 4
  | .b64 => 8
  | .b128 => 16

/-- Width in bits of a format (R106, R107, R164). -/
def fmtBits (f : Fmt) : Nat :=
  match f with
  | .f32 | .i32 | .n32 => 32
  | .f16 | .bf16 | .i16 | .n16 => 16
  | .e4m3 | .e5m2 | .i8 | .n8 => 8
  | .e2m1 | .i4 | .n4 => 4
  | .i64 | .n64 => 64

def fmtRegs (f : Fmt) : Nat := if fmtBits f = 64 then 2 else 1

def fmtFloat (f : Fmt) : Bool :=
  match f with
  | .f32 | .f16 | .bf16 | .e4m3 | .e5m2 | .e2m1 => true
  | _ => false

/-- An i format. -/
def fmtSigned (f : Fmt) : Bool :=
  match f with
  | .i32 | .i16 | .i8 | .i4 | .i64 => true
  | _ => false

def qRegs (q : QFmt) : Nat :=
  match q with
  | .qf8 => 2
  | _ => 1

def elBits (w : ElW) : Nat :=
  match w with
  | .w8 => 8
  | .w16 => 16
  | .w4 => 4

/-- Registers of a special register (R222). -/
def sprRegs (r : Spr) : Nat :=
  match r with
  | .rrcfg _ | .energy | .clk64 | .ltime => 2
  | _ => 1

def sprReadOnly (r : Spr) : Bool :=
  match r with
  | .energy | .ltag | .batch | .prio | .die | .clk64 | .ltime | .lease => true
  | _ => false

def wf4bit (w : WFmt) : Bool :=
  match w with
  | .i4 | .e2m1 | .lut4 => true
  | _ => false

def af4bit (a : AFmt) : Bool :=
  match a with
  | .i4 | .e2m1 => true
  | _ => false

def tstatRegs (x : TstatSel) : Nat :=
  match x with
  | .next => 1
  | _ => 2

def mrdRegs (wc : Fin 3) : Nat := 2 ^ wc.val

/-! ### The operand places of each instruction -/

def intUses (x : IntOp) (im : Bool) : List Use :=
  let n := intRegs x.ty
  [⟨.dst, x.d, n, true, false⟩, ⟨.src, x.a, n, true, false⟩, ⟨.src, x.b, n, true, im⟩]

def logicUses (x : LogicOp) (bn : Nat) : List Use :=
  let n := widthRegs x.w64
  [⟨.dst, x.d, n, true, false⟩, ⟨.src, x.a, n, true, false⟩, ⟨.src, x.b, bn, true, true⟩]

def uses3 (d a b c : Opnd) (im : Bool) : List Use :=
  [⟨.dst, d, 1, true, false⟩, ⟨.src, a, 1, true, false⟩, ⟨.src, b, 1, true, im⟩, ⟨.src, c, 1, true, false⟩]

def uses2 (d a b : Opnd) (im : Bool) : List Use :=
  [⟨.dst, d, 1, true, false⟩, ⟨.src, a, 1, true, false⟩, ⟨.src, b, 1, true, im⟩]

def uses1 (d a : Opnd) : List Use :=
  [⟨.dst, d, 1, true, false⟩, ⟨.src, a, 1, true, false⟩]

/-- R185 to R187, R191: `an` is the span of A, `r` the role of D. -/
def memUses (x : MemOp) (r : Role) (an : Nat) (ch im : Bool) : List Use :=
  let raw := x.buf.val == 0
  [⟨r, x.d, if raw then sizeRegs x.sz else 1, ch && raw && x.sz == .b32, false⟩,
   ⟨.src, x.a, if raw then an else 1, false, false⟩, ⟨.src, x.b, 1, false, im⟩]

/-- Which paired opcodes only write D (R132). -/
def pairUnary (o : POp) : Bool :=
  match o with
  | .popc | .mov | .cvt | .lds | .iabs | .clz | .ctz | .brev | .fclass | .frcp | .frsq | .fsqrt
  | .fex2 | .flg2 | .fsin | .fcos | .ftanh | .unpk => true
  | _ => false

def halfUses (h : Half) : List Use :=
  match h.op with
  | .nop => []
  | _ =>
    let src := if h.imm then [] else [⟨.src, h.s, 1, true, false⟩]
    ⟨.dstVZ, h.d, 1, true, false⟩ :: src

/-- The operand places of every instruction. -/
def uses (i : Instr) : List Use :=
  match i with
  | .iadd x | .isub x | .imul x | .imulhi x | .imin x | .imax x => intUses x true
  | .iaddc x => [⟨.dstVZ, x.d, 1, true, false⟩, ⟨.src, x.a, 1, true, false⟩, ⟨.src, x.b, 1, true, false⟩]
  | .imad x =>
    let n := intRegs x.ty
    [⟨.dst, x.d, n, true, false⟩, ⟨.src, x.a, n, true, false⟩, ⟨.src, x.b, n, true, false⟩,
     ⟨.src, x.c, n, true, false⟩]
  | .imadw x =>
    [⟨.dst, x.d, 2, false, false⟩, ⟨.src, x.a, 1, true, false⟩, ⟨.src, x.b, 1, true, false⟩,
     ⟨.src, x.c, 2, false, false⟩]
  | .iabs x => [⟨.dst, x.d, intRegs x.ty, true, false⟩, ⟨.src, x.a, intRegs x.ty, true, false⟩]
  | .and x | .or x | .xor x | .andn x | .orn x => logicUses x (widthRegs x.w64)
  | .shl x | .shr x | .sar x | .rotl x => logicUses x 1
  | .fshf x | .fdp2 x => uses3 x.d x.a x.b x.c false
  | .bfx x => uses2 x.d x.a x.b true
  | .bfi x => uses3 x.d x.a x.b x.c false
  | .prmt x =>
    if isImm x.b then uses2 x.d x.a x.b true else uses3 x.d x.a x.b x.c false
  | .popc x | .clz x | .ctz x | .brev x | .fclass x => uses1 x.d x.a
  | .lea x =>
    let n := widthRegs x.w64
    [⟨.dst, x.d, n, true, false⟩, ⟨.src, x.a, n, true, false⟩, ⟨.src, x.b, 1, true, true⟩]
  | .isetp x =>
    let n := intRegs x.ty
    [⟨.src, x.a, n, true, false⟩, ⟨.src, x.b, n, true, true⟩]
  | .sel x => [⟨.dstVZ, x.d, 1, true, false⟩, ⟨.src, x.a, 1, true, false⟩, ⟨.src, x.b, 1, true, false⟩]
  | .mov x =>
    let n := widthRegs x.flag
    [⟨.dst, x.d, n, true, false⟩, ⟨.src, x.a, n, true, true⟩]
  | .fadd x | .fsub x | .fmul x | .fmin x | .fmax x => uses2 x.d x.a x.b true
  | .ffma x => uses3 x.d x.a x.b x.c false
  | .fsetp x => [⟨.src, x.a, 1, true, false⟩, ⟨.src, x.b, 1, true, false⟩]
  | .frcp x | .frsq x | .fsqrt x | .fex2 x | .flg2 x | .fsin x | .fcos x | .ftanh x => uses1 x.d x.a
  | .hadd2 x | .hmul2 x => uses2 x.d x.a x.b true
  | .hfma2 x => uses3 x.d x.a x.b x.c false
  | .hmnmx2 x => uses2 x.d x.a x.b true
  | .cvt x => [⟨.dst, x.d, fmtRegs x.df, true, false⟩, ⟨.src, x.a, fmtRegs x.sf, true, false⟩]
  | .cvtq x =>
    [⟨.dst, x.d, qRegs x.qf, true, false⟩, ⟨.src, x.a, 4, false, false⟩] ++
      (match x.fix with
       | some b => [⟨.src, b, 1, true, false⟩]
       | none => [])
  | .cvtdq x =>
    [⟨.dst, x.d, if x.dq = .f32 then 4 else 2, false, false⟩, ⟨.src, x.a, qRegs x.qf, true, false⟩]
  | .pack x => uses2 x.d x.a x.b false
  | .unpk x => uses1 x.d x.a
  | .lutx x =>
    [⟨.dst, x.d, if x.f32 then 4 else 2, false, false⟩, ⟨.src, x.a, 1, true, false⟩,
     ⟨.srcS, .s x.sb, 1, false, false⟩, ⟨.srcS, .s (x.sb + 7), 1, false, false⟩]
  | .idp4 x | .idp8 x => uses3 x.d x.a x.b x.c false
  | .fdp4 x => uses3 x.d x.a x.b x.c false
  | .pairedWord h0 h1 => halfUses h0 ++ halfUses h1
  | .shfl x => [⟨.dstV, x.d, 1, false, false⟩, ⟨.src, x.a, 1, false, false⟩, ⟨.src, x.b, 1, false, true⟩]
  | .vote x =>
    (match x.dst with
     | .ballot d => [⟨.dstV, d, 1, false, false⟩]
     | .pred _ _ => [])
  | .matchLanes x => [⟨.dstV, x.d, 1, false, false⟩, ⟨.src, x.a, widthRegs x.flag, false, false⟩]
  | .cred x | .cscan x =>
    [⟨.dstV, x.d, redRegs x.ty, false, false⟩, ⟨.src, x.a, redRegs x.ty, false, false⟩]
  | .lser | .lsend | .bra _ _ | .braT _ _ _ | .join _ | .exit _ | .trap _ _ | .chkpt _ | .yieldSlot _
  | .nop _ => []
  | .actm x => [⟨.dst, x.d, 1, false, false⟩]
  | .brx _ a => [⟨.src, a, 1, false, false⟩]
  | .call _ d _ => [⟨.dst, d, 2, false, false⟩]
  | .callx _ d a => [⟨.dst, d, 2, false, false⟩, ⟨.src, a, 2, false, false⟩]
  | .ret _ a => [⟨.src, a, 2, false, false⟩]
  | .sleep a => [⟨.srcU, a, 1, false, true⟩]
  | .ld x => memUses x .dst 2 true true
  | .st x => memUses x .src 2 false true
  | .lds x => memUses x .dst 1 true true
  | .sts x => memUses x .src 1 false true
  | .ldro x => memUses x .dst 2 false true
  | .ldsp x _ => memUses x .dst 2 false false
  | .atom x =>
    let n := atomRegs x.ty
    [⟨.dst, x.d, n, false, false⟩, ⟨.src, x.a, 2, false, false⟩, ⟨.src, x.b, n, false, false⟩] ++
      (if x.op = .cas then [⟨.src, x.c, n, false, false⟩] else [])
  | .red x => [⟨.src, x.a, 2, false, false⟩, ⟨.src, x.b, atomRegs x.ty, false, false⟩]
  | .fence _ | .fenceRo => []
  | .pref x => [⟨.src, x.a, 2, false, false⟩, ⟨.src, x.b, 1, false, true⟩]
  | .cwb a b _ | .cinv a b _ => [⟨.srcU, a, 2, false, false⟩, ⟨.srcU, b, 1, false, true⟩]
  | .moor d a => [⟨.dst, d, 1, false, false⟩, ⟨.srcU, a, 2, false, false⟩]
  | .unmoor d a _ => [⟨.dst, d, 1, false, false⟩, ⟨.srcU, a, 1, false, true⟩]
  | .mwb d a b => [⟨.dst, d, 1, false, false⟩, ⟨.srcU, a, 1, false, false⟩, ⟨.srcU, b, 1, false, true⟩]
  | .mqry x => [⟨.dst, x.d, 1, false, false⟩, ⟨.src, x.a, 1, false, false⟩]
  | .binit a b c =>
    [⟨.srcU, a, 1, false, false⟩, ⟨.srcU, b, 1, false, true⟩] ++
      (match c with
       | some o => [⟨.srcU, o, 1, false, false⟩]
       | none => [])
  | .barv d a b => [⟨.dst, d, 1, false, false⟩, ⟨.srcU, a, 1, false, false⟩, ⟨.srcU, b, 1, false, true⟩]
  | .bpar _ a => [⟨.srcU, a, 1, false, false⟩]
  | .waitBar _ a b c =>
    [⟨.srcU, a, 1, false, false⟩, ⟨.srcU, b, 1, false, true⟩] ++
      (match c with
       | some o => [⟨.srcU, o, 1, false, false⟩]
       | none => [])
  | .waitBmp _ a b c =>
    [⟨.srcU, a, 2, false, false⟩, ⟨.srcU, b, 1, false, false⟩] ++
      (match c with
       | some o => [⟨.srcU, o, 1, false, false⟩]
       | none => [])
  | .waitAc _ _ c =>
    (match c with
     | some o => [⟨.srcU, o, 1, false, false⟩]
     | none => [])
  | .waitTl _ a b c =>
    [⟨.srcU, a, 1, false, false⟩, ⟨.srcU, b, 2, false, false⟩] ++
      (match c with
       | some o => [⟨.srcU, o, 1, false, false⟩]
       | none => [])
  | .cpy x =>
    [⟨.dstSZ, x.d, 2, false, false⟩, ⟨.srcVS, x.a, 2, false, false⟩, ⟨.srcVS, x.b, 2, false, false⟩] ++
      (match x.bar with
       | some o => [⟨.srcU, o, 1, false, false⟩]
       | none => [])
  | .cpyt d a | .cpyq d a => [⟨.dstSZ, d, 2, false, false⟩, ⟨.srcU, a, 1, false, false⟩]
  | .send x | .mcast x =>
    [⟨.dstSZ, x.d, 1, false, false⟩, ⟨.srcU, x.a, 1, false, false⟩, ⟨.srcV, x.b, 1, false, false⟩]
  | .redpArm d a _ => [⟨.dstS, d, 1, false, false⟩, ⟨.srcU, a, 1, false, false⟩]
  | .redpContribute d a _ => [⟨.dstS, d, 1, false, false⟩, ⟨.srcV, a, 1, false, false⟩]
  | .remit _ _ a => [⟨.srcV, a, 1, false, false⟩]
  | .radv => []
  | .xdec x =>
    [⟨.dstVZ, x.d, 1, false, false⟩, ⟨.srcV, x.a, 1, false, false⟩, ⟨.srcU, x.b, 1, false, false⟩,
     ⟨.srcU, x.c, 1, false, false⟩]
  | .xbmp x => [⟨.dstVZ, x.d, 1, false, false⟩, ⟨.src, x.a, 1, false, false⟩]
  | .movspr _ d r => [⟨.dst, d, sprRegs r, false, false⟩]
  | .wrspr r a => [⟨.srcU, a, sprRegs r, false, false⟩]
  | .tlinc a b _ => [⟨.srcU, a, 1, false, false⟩, ⟨.srcS, b, 2, false, false⟩]
  | .gettl _ d a err => [⟨.dst, d, if err then 1 else 2, false, false⟩, ⟨.srcU, a, 1, false, false⟩]
  | .bkpt _ _ => []
  | .resphase a => [⟨.srcU, a, 1, false, false⟩]
  | .mldw a b _ => [⟨.srcU, a, 1, false, false⟩, ⟨.srcU, b, 1, false, false⟩]
  | .mswap d => [⟨.dstSZ, d, 1, false, false⟩]
  | .mlut sb => [⟨.srcS, .s sb, 1, false, false⟩, ⟨.srcS, .s (sb + 7), 1, false, false⟩]
  | .mzero _ _ => []
  | .mma x => [⟨.srcVS, x.a, 1, false, false⟩]
  | .mrd x => [⟨.dstV, x.d, mrdRegs x.wc, false, false⟩]
  | .mst x =>
    [⟨.srcU, x.a, 1, false, false⟩, ⟨.srcU, x.b, 1, false, false⟩] ++
      (match x.c with
       | some o => [⟨.srcU, o, 1, false, false⟩]
       | none => [])
  | .mfence d => [⟨.dstSZ, d, 2, false, false⟩]
  | .capenter x =>
    [⟨.dstV, x.d, 1, false, false⟩, ⟨.srcVS, x.a, 2, false, false⟩, ⟨.srcVS, x.b, 2, false, false⟩,
     ⟨.srcV, x.c, 4, false, false⟩]
  | .capadopt d a => [⟨.dstV, d, 1, false, false⟩, ⟨.srcVS, a, 2, false, false⟩]
  | .capstat d a => [⟨.dstV, d, 4, false, false⟩, ⟨.srcVS, a, 2, false, false⟩]
  | .capstep _ | .capexit | .capabort => []
  | .tbindNew => []
  | .tbindAt a => [⟨.srcU, a, 2, false, false⟩]
  | .tbindCh _ _ => []
  | .trec x => [⟨.src, x.a, 1, false, false⟩]
  | .tmark _ a => [⟨.srcU, a, 1, false, false⟩]
  | .tback x => [⟨if x.kind = .val then .dstV else .dstVS, x.d, 1, false, false⟩]
  | .tbpop _ => []
  | .tstat _ d sel => [⟨.dst, d, tstatRegs sel, false, false⟩]
  | _ => []

/-- The guard of an instruction; the unguarded form where it is required. -/
def guardOf (i : Instr) : Guard :=
  match i with
  | .iadd x | .isub x | .imul x | .imulhi x | .imin x | .imax x => x.g
  | .iaddc x => x.g
  | .imad x | .imadw x => x.g
  | .iabs x => x.g
  | .and x | .or x | .xor x | .andn x | .orn x | .shl x | .shr x | .sar x | .rotl x => x.g
  | .fshf x | .fdp2 x => x.g
  | .bfx x => x.g
  | .bfi x | .prmt x | .xdec x => x.g
  | .popc x | .clz x | .ctz x | .brev x | .fclass x | .xbmp x | .mqry x => x.g
  | .lea x => x.g
  | .isetp x => x.g
  | .sel x => x.g
  | .mov x | .matchLanes x => x.g
  | .fadd x | .fsub x | .fmul x | .fmin x | .fmax x => x.g
  | .ffma x => x.g
  | .fsetp x => x.g
  | .frcp x | .frsq x | .fsqrt x | .fex2 x | .flg2 x | .fsin x | .fcos x | .ftanh x => x.g
  | .hadd2 x | .hmul2 x => x.g
  | .hfma2 x => x.g
  | .hmnmx2 x => x.g
  | .cvt x => x.g
  | .cvtq x => x.g
  | .cvtdq x => x.g
  | .pack x => x.g
  | .unpk x => x.g
  | .lutx x => x.g
  | .idp4 x | .idp8 x => x.g
  | .fdp4 x => x.g
  | .shfl x => x.g
  | .vote x => x.g
  | .cred x | .cscan x => x.g
  | .actm x => x.g
  | .bra g _ | .braT g _ _ | .brx g _ | .call g _ _ | .callx g _ _ | .ret g _ | .exit g | .trap g _
  | .yieldSlot g | .nop g => g
  | .ld x | .st x | .lds x | .sts x | .ldro x | .ldsp x _ => x.g
  | .atom x => x.g
  | .red x => x.g
  | .pref x => x.g
  | .cpy x => x.g
  | .send x | .mcast x => x.g
  | .remit g _ _ | .movspr g _ _ | .gettl g _ _ _ | .bkpt g _ | .mzero g _ | .tstat g _ _ => g
  | .mma x => x.g
  | .mrd x => x.g
  | .mst x => x.g
  | .trec x => x.g
  | .tback x => x.g
  | .tbpop x => x.g
  | _ => unguarded

/-- R126, R141: a scalar operation is unguarded and takes no per-lane source. A `MOVSPR` to an s register, which has no source, is
taken as one (R223; DEDUCED, log 90). -/
def scalarOk (i : Instr) : Bool :=
  let us := uses i
  if us.any (fun u => (u.role == .dst || u.role == .dstVS) && isS u.o) then
    guardOf i == unguarded &&
      us.all (fun u => Role_isDst u.role || isUniform u.o)
  else true

/-! ### The field values that the tables list -/

/-- No modifier of R158 is set. -/
def plainMods (m : FMods) : Bool := !m.na && !m.nb && !m.nc && !m.aa && !m.ab

def memFieldsOk (x : MemOp) : Bool :=
  (!x.sx || x.sz == .b8 || x.sz == .b16) &&
  (x.buf.val == 0 || (x.sz == .b8 && !x.sx)) &&
  (x.sem || x.scope == .dev) &&
  (!isImm x.b || (x.buf.val == 0 && !x.sem && !x.sx && (x.sz == .b32 || x.sz == .b64)))

def tabOk (tab : Option (Fin 8 × Fin 16)) : Bool :=
  match tab with
  | none => true
  | some (_, fn) => fn.val != 0

/-- The paired opcodes whose row of R132 gives an immediate. -/
def pairHasImm (o : POp) : Bool :=
  match o with
  | .iadd | .isub | .imul | .imin | .imax | .and | .or | .xor | .andn | .shl | .shr | .sar | .rotl
  | .mov | .orn => true
  | _ => false

/-- M[6:0] holds only what R131 and R132 assign. -/
def pairMOk (h : Half) : Bool :=
  let m := h.m.val
  match h.op with
  | .lds | .sts => true
  | .imin | .imax => if h.imm then true else decide (m < 2)
  | .iadd | .isub | .imul | .and | .or | .xor | .andn | .orn | .mov | .shl | .shr | .sar | .rotl =>
    h.imm || m == 0
  | .cvt | .imulhi | .hmnmx2 => decide (m < 2)
  | .lea => decide (m < 4)
  | .fshf => decide (m < 32)
  | .sel => decide (m < 8)
  | .pack => decide (m < 8) && (decide (m < 4) || decide (m % 4 < 2))
  | .unpk => decide (m < 16) && (m / 4 % 2 == 0 || decide (m % 4 < 2))
  | _ => m == 0

/-- R131: the fields of one half. A D field names v0 to v127 or a channel. -/
def halfOk (h : Half) : Bool :=
  match h.op with
  | .nop => h == ⟨.nop, .v 0, .v 0, false, 0⟩
  | _ =>
    (match h.d with
     | .v k => decide (k < 128)
     | .chan c pk => decide (c < 16) && !pk
     | _ => false) &&
    (if h.imm then pairHasImm h.op && h.s == .v 0
     else useOk ⟨.src, h.s, 1, true, false⟩) &&
    pairMOk h

/-- The restrictions on fields and modifiers that each instruction's tables give. -/
def fieldsOk (i : Instr) : Bool :=
  match i with
  | .iadd x | .isub x => !isImm x.b || x.ty == .i32
  | .imul x | .imulhi x | .imin x | .imax x =>
    !x.sat && (!isImm x.b || x.ty == .i32 || x.ty == .n32)
  | .imadw x => x.ty == .i32 || x.ty == .n32
  | .iabs x => x.ty == .i32 || x.ty == .i64
  | .and x | .or x | .xor x | .andn x | .orn x | .shl x | .shr x | .sar x | .rotl x =>
    !isImm x.b || !x.w64
  | .prmt x => !isImm x.b || x.c == .v 0
  | .lea x => (!x.zx || x.w64) && (!isImm x.b || (x.sh.val == 0 && !x.zx))
  | .isetp x =>
    tabOk x.tab &&
      (!isImm x.b || (x.ty == .i32 && x.tab == none && (x.cmp == .eq || x.cmp == .ne)))
  | .fadd x | .fsub x | .fmul x | .fmin x | .fmax x =>
    !x.m.nc && (!isImm x.b || plainMods x.m)
  | .fsetp x => !x.m.nc && tabOk x.tab
  | .hadd2 x | .hmul2 x => !x.m.nc && (!isImm x.b || (plainMods x.m && !x.bf))
  | .hmnmx2 x => !x.m.nc && (!isImm x.b || (plainMods x.m && !x.bf))
  | .cvt x =>
    (!x.rz || (fmtFloat x.sf && !fmtFloat x.df)) &&
      decide (x.esel.val < (if fmtBits x.sf ≥ 32 then 1 else 32 / fmtBits x.sf))
  | .pack x => decide (x.el.val < 32 / elBits x.w)
  | .unpk x => decide (x.el.val < 32 / elBits x.w)
  | .pairedWord h0 h1 => halfOk h0 && halfOk h1
  | .shfl x => !isImm x.b || (x.mode == .idx && x.seg.val == 0)
  | .cred x => !x.excl && !(x.ty == .f32 && (x.op == .and || x.op == .or || x.op == .xor))
  | .cscan x => !(x.ty == .f32 && (x.op == .and || x.op == .or || x.op == .xor))
  | .vote x =>
    (match x.dst with
     | .ballot _ => true
     | .pred _ _ => true)
  | .actm x => !isS x.d || x.g == unguarded
  | .sleep _ => true
  | .ld x => memFieldsOk x
  | .st x => memFieldsOk x && !x.sx
  | .lds x => memFieldsOk x && x.buf.val == 0 && !x.sem
  | .sts x => memFieldsOk x && x.buf.val == 0 && !x.sem && !x.sx
  | .ldro x => memFieldsOk x && !x.sem
  | .ldsp x _ => memFieldsOk x
  | .atom x =>
    !(x.ty == .f32 && (x.op == .and || x.op == .or || x.op == .xor || x.op == .cas || x.op == .inc
        || x.op == .dec)) &&
      !((x.op == .inc || x.op == .dec) && (x.ty == .i32 || x.ty == .i64)) &&
      (x.sem.acq || x.sem.rel || x.scope == .dev) && (x.op == .cas || x.c == .v 0)
  | .red x =>
    !(x.ty == .f32 && (x.op == .and || x.op == .or || x.op == .xor)) && (x.rel || x.scope == .dev)
  | .pref x => !isImm x.b || !x.l2
  | .cwb _ b sc | .cinv _ b sc => !isImm b || sc == .dev
  | .binit _ b c => !isImm b || c == none
  | .waitBar _ _ b c => !isImm b || c == none
  | .wrspr r _ => !sprReadOnly r
  | .mma x => !(x.kh && af4bit x.af)
  | .mrd x => x.col.val % mrdRegs x.wc == 0
  | .mst x =>
    (match x.c with
     | none => !x.sc && !x.zpe
     | some _ => x.sc || x.zpe) &&
      (match x.ofmt with
       | .f32 | .f16 | .bf16 | .e4m3 | .e5m2 | .i32 | .i8 | .n8 => true
       | _ => false)
  | .tback x => x.kind != .gap || x.tag == 0
  | _ => true

end Machine
end Sys2Proof
end

