-- ==== Sys2Proof/Machine/State.lean ====
section
/-! DEFINITION. The state of the module: crews, blocks, launches, cores, homes, engines, dies, the host side and
one store of bytes for every memory; the reasons a step can stop; and the state after reset. -/

namespace Sys2Proof.Machine

/-! ## Memory -/

/-- Bytes by key, keys rising, no byte listed that an unlisted key reads as (zero). The key of a byte of device
memory is its physical address; the keys of the other places follow it (Place.key in Ops). -/
abbrev Memory := List Host.Cell

/-- What a byte that nothing has written reads as (DESIGN CHOICE, log 4). -/
def Memory.unlisted : BitVec 8 := 0

/-- The canonical form, for keys at and above `lo`. -/
def Memory.wfFrom (lo : Nat) (m : Memory) : Bool :=
  match m with
  | [] => true
  | (k, b) :: r => decide (lo ≤ k) && b != Memory.unlisted && Memory.wfFrom (k + 1) r

/-- The canonical form of R44's address spaces as the model holds them. -/
def Memory.wf (m : Memory) : Bool := Memory.wfFrom 0 m

/-- A place that holds bytes: device memory at a 52-bit address, a host's memory, a remote module's device
memory, the stash of a core (R44 to R47, R63, R330, R334). -/
inductive Place where
  | dev (a : Nat)
  | host (port : Port) (a : Nat)
  | remote (module : Nat) (a : Nat)
  | stash (core : Nat) (a : Nat)
  deriving DecidableEq, Repr

/-! ## Causes (R227) -/

/-- Cause of a trap, fault or event. -/
inductive Cause where
  | trap | illop | illpair | capfault | tdiv | tovf | tgap | barmis | divovf
  | addrf | pagef | accf | bufrec | cpydesc | poison | cpyf
  | launchref | qref | agdead | late | dockbad | bkpth | poolfull
  deriving DecidableEq, Repr

/-- A launch context (R319). -/
structure Ctx where
  qi : QiRef
  pasid : Nat
  deriving DecidableEq, Repr

/-! ## Crews (03) -/

/-- What a `WAIT` waits on (R199). -/
inductive WaitObj where
  /-- a barrier object and a phase -/
  | bar (core off : Nat) (phase : Word)
  /-- a bitmap word and a mask -/
  | bmp (va : DWord) (bits : Word)
  | ac (n : Nat)
  | copies (n : Nat)
  | batches (n : Nat)
  | tape (n : Nat)
  | launch (i n : Nat)
  deriving DecidableEq, Repr

/-- Why a slot is WAITING for something that lets its word issue again (R29). -/
inductive Retry where
  /-- an empty channel (R125) -/
  | chanEmpty (n : Nat)
  /-- a full local queue (R208) -/
  | chanFull (n : Nat)
  /-- no room in the core's staging buffer for some bytes (R16, R309) -/
  | staging (n : Nat)
  /-- a register whose result has not landed (R136) -/
  | reg (code : Nat)
  /-- a mooring line in FILL or WBK (R52); `wr` for a write -/
  | fill (core entry line : Nat) (wr : Bool)
  /-- a mooring entry whose lines are being written back (R50, R54) -/
  | drop (core entry : Nat)
  /-- the store-origin table is full (R188) -/
  | origin
  /-- an arrival counter is full (R189) -/
  | counter (n : Nat)
  /-- 64 unfinished copies (R201) -/
  | copies
  /-- 8 unacknowledged messages (R201) -/
  | messages
  /-- the matrix queue is full (R251) -/
  | matrix
  /-- earlier accesses of the lanes not yet performed and acknowledged (R88) -/
  | drain (lanes : Mask)
  /-- no request slot free, or no link, towards a slice (R78, R332) -/
  | slots (slice : Nat)
  /-- an armature two rounds behind (R214) -/
  | armature (id : Nat)
  /-- the older path of the crew goes first (R302) -/
  | age
  /-- a line held BUSY (R65) -/
  | line (n : Nat)
  /-- a line under another step's version (R278) -/
  | version (n : Nat)
  /-- the crew's other path awaits a record's home (R279, R280) -/
  | capsule
  /-- an open delivery slot (R291) -/
  | delivery (va : DWord)
  /-- an earlier `MST` of the slot has not completed (R116) -/
  | fstat
  deriving DecidableEq, Repr

/-- What a WAITING slot waits for. -/
inductive Cond where
  | retry (r : Retry)
  /-- a walk, for an access of the given KIND at the address by a word with the given active lanes (R75, R233) -/
  | walk (id kind : Nat) (addr : DWord) (act : Mask)
  | sleep (till : Nat)
  | object (o : WaitObj) (pd : Fin 8) (deadline : Option Nat)
  | merge
  /-- the answer of a record's home (R279) -/
  | capsule
  /-- 64 clocks before a restart (R280) -/
  | conflict (till : Nat)
  /-- a remote module's answer (R335) -/
  | remote (id : Nat)
  /-- stopped for a save, a halt or a checkpoint (R178, R225, R242) -/
  | stopped (chkpt : Option Nat)
  deriving DecidableEq, Repr

/-- R29. ISSUING holds only inside a step. -/
inductive SlotSt where
  | free
  | ready
  | waiting (c : Cond)
  /-- `REMIT` of the registers from `reg` finds the slipway full with lanes left to emit (R39, R217) -/
  | parked (slipway reg : Nat) (left : Mask)
  | retired
  deriving DecidableEq, Repr

/-- An `LSER` region (R184). -/
structure Region where
  left : Mask
  saved : Mask
  start : DWord
  deriving DecidableEq, Repr

/-- A BR record that waits for its reconvergence point (R301). -/
structure BrRec where
  mask : Mask
  taken : Mask
  tag : Byte
  num : Nat
  /-- the number of points of the crew when it was attached: that of its own (R301, R311) -/
  depth : Nat
  deriving DecidableEq, Repr

/-- A program-counter slot (R27, R29, R42, R302). -/
structure Slot where
  pc : DWord
  mask : Mask
  st : SlotSt
  region : Option Region
  age : Nat
  readyAt : Nat
  favoured : Bool
  starved : Bool
  yieldTill : Nat
  /-- BR records of a popped point, to be written before the next word issues (R301) -/
  due : List BrRec
  /-- lines of the range of a `CWB` or `CINV` that are done (R195) -/
  prog : Nat
  /-- the lanes of the `REMIT` at the PC that have no slot yet, once it has emitted some (R217) -/
  emit : Option Mask
  deriving DecidableEq, Repr

/-- A spilled path (R28). -/
structure Spill where
  pc : DWord
  mask : Mask
  depth : Nat
  age : Nat
  region : Option Region
  due : List BrRec
  /-- the lanes of the `REMIT` at the PC that have no slot yet (R217) -/
  emit : Option Mask
  deriving DecidableEq, Repr

/-- A reconvergence point (R175). -/
structure Join where
  pc : DWord
  cover : Mask
  recs : List BrRec
  deriving DecidableEq, Repr

/-- A channel's binding and local queue (R208, R305). -/
structure Chan where
  kind : Fin 5
  ring : Fin 4
  tag : Byte
  queue : List (List Word)
  deriving DecidableEq, Repr

/-- An arrival counter and the registers pending on it (R189). -/
structure Arrival where
  iss : Nat
  arr : Nat
  regs : List Nat
  deriving DecidableEq, Repr

/-- A timeline of an engine context (R95); `tws` holds the greatest write time of an operation that has completed
(R62). -/
structure Timeline where
  issued : Nat
  done : List Nat
  value : Nat
  tws : Table Nat
  deriving DecidableEq, Repr

/-- A crew's matrix batches (R255). -/
structure Batches where
  openNo : Nat
  pending : Table Nat
  value : Nat
  /-- the greatest write time of a batch's stores (R62) -/
  tws : Table Nat
  deriving DecidableEq, Repr

/-- What a crew's tape is bound to (R296, R313). -/
inductive Binding where
  /-- before the first tape instruction -/
  | unread
  | unbound
  | own (stream : Nat)
  | at
  deriving DecidableEq, Repr

/-- A tape descriptor as read (R295). -/
structure TapeDesc where
  base : Nat
  nstream : Nat
  policy : Nat
  flist : Nat
  flcap : Nat
  tops : Nat
  deriving DecidableEq, Repr

/-- Attributes of a translation (R70, R325). -/
structure Attr where
  rd : Bool
  wr : Bool
  ex : Bool
  ord : Nat
  cmp : Bool
  rcls : Nat
  hc : Bool
  deriving DecidableEq, Repr

/-- A TLB entry: a page of 2^bits bytes (R75). -/
structure Tlb where
  ctx : Ctx
  va : Nat
  bits : Nat
  pa : Nat
  attr : Attr
  deriving DecidableEq, Repr

/-- A staged record: where it begins, its words, the number of its operation, and the pieces of memory it is to be
written to, as translated when it was staged: address, length and attributes (R309). -/
structure Staged where
  va : Nat
  words : List Word
  num : Option Nat
  pas : List (Nat × Nat × Attr)
  /-- its place among the staged records of all crews (R309) -/
  order : Nat
  /-- its bytes that are not yet in memory, ascending -/
  left : List Nat
  deriving DecidableEq, Repr

/-- The tape state of a crew (R296, R301, R309, R311). -/
structure Tape where
  bind : Binding
  desc : TapeDesc
  top : Nat
  tl : Timeline
  staged : List Staged
  /-- translations of the segment pages that records have been staged into (R309) -/
  pages : List Tlb
  deriving DecidableEq, Repr

/-- Handler mode (R238). -/
structure Handler where
  slot : Nat
  cause : Cause
  lanes : Mask
  cap : Bool
  cont : DWord
  dreg : Nat
  /-- the region of the slot (R184) -/
  region : Option Region
  /-- the records due at the slot, other than those of the point that trapped (R301) -/
  due : List BrRec
  deriving DecidableEq, Repr

/-- A capsule holding (R272 to R283). -/
structure Holding where
  lane : Nat
  slot : Nat
  /-- the record's line and its virtual address -/
  line : Nat
  va : DWord
  gen : Word
  step : Nat
  exec : Nat
  cont : DWord
  dreg : Nat
  preds : List Mask
  count : Nat
  lines : List Nat
  ckpt : List Word
  resume : DWord
  displaced : Bool
  parked : Bool
  /-- after a CONFLICT: the clock at which the step restarts (R280) -/
  resting : Option Nat
  /-- of the record's page (R67, R73) -/
  attr : Attr
  deriving DecidableEq, Repr

/-- Who performs an access (R80): a crew, an engine or a slice of the module, or a party beyond it. -/
inductive Party where
  | crew (launch fleet blk crew : Nat)
  | device
  | outside
  deriving DecidableEq, Repr

/-- A write that an acquire can synchronise with (R89): who released it, at which scope, the write time that an
acquire of it raises T to, and whether a read of the byte's present value reads it or an atomic that follows it. -/
structure Mark where
  party : Party
  scope : Scope
  tw : Nat
  cur : Bool
  deriving DecidableEq, Repr

/-- A line read ahead for a crew (R90): what later loads may still give, and the marks of its bytes by offset. -/
structure Glimpse where
  data : List Byte
  marks : List (Nat × List Mark)
  deriving DecidableEq, Repr

/-- A crew (R9, R26 to R29). Registers are kept by number: v(n) of lane L under 32n + L. -/
structure Crew where
  v : Table Word
  s : Table Word
  p : Table Mask
  k : Table Word
  slot0 : Slot
  slot1 : Slot
  exited : Mask
  spills : List Spill
  joins : List Join
  fstat : Word
  /-- the bits of `fstat` that a load or an `MST` set in this clock (R116) -/
  fstatNew : Word
  tst : Word
  tctl : Word
  chans : Table Chan
  acs : Table Arrival
  /-- registers whose result has not landed -/
  pending : List Nat
  /-- T is the clock plus `tBase` less `tLag`, the clocks that a save took out of it (R62) -/
  tBase : Nat
  tLag : Nat
  /-- read-only lines numbered below it miss: the number at the last `FENCE.ro` (R61) -/
  roMark : Nat
  /-- leased lines numbered below it miss: the number when the crew came to this core (R104) -/
  leaseMark : Nat
  /-- T at the last fence of a lane and scope, under 8 × lane + scope (R89) -/
  fences : Table Nat
  /-- the greatest write time that a lane has read of writes which a fence of a scope would acquire, under
  8 × lane + scope (R89) -/
  seen : Table Nat
  /-- lines read ahead, by line number (R90) -/
  glimpses : Table Glimpse
  copies : Timeline
  batches : Batches
  tape : Tape
  handler : Option Handler
  holding : Option Holding
  crewSlot : Nat
  deriving DecidableEq, Repr

/-! ## Blocks, launches, slipways (03, 27) -/

/-- A kernel descriptor (R32). -/
structure Kernel where
  addr : Nat
  entry : DWord
  crews : Nat
  fleet : Nat
  vregs : Nat
  sregs : Nat
  tiles : Nat
  node : Bool
  plan : Nat
  planAddr : Nat
  stash : Nat
  handler : DWord
  livemap : Nat
  tape : Nat
  slips : Nat
  energy : Nat
  deriving DecidableEq, Repr

/-- A receiver ring (R209); `tws` holds T of the sender of each element held, the head's first (R210). -/
structure Ring where
  cfg : DWord
  head : Nat
  count : Nat
  tws : List Nat
  deriving DecidableEq, Repr

/-- The batch of a successor block (R218, R219). -/
structure Batch where
  slipway : Nat
  first : Nat
  n : Nat
  pops : Nat
  freed : Nat
  acquired : Bool
  seq : Nat
  deriving DecidableEq, Repr

/-- R30. -/
inductive BlkSt where
  | pending | running | saving | saved | restoring | halted | retired
  deriving DecidableEq, Repr

/-- A mooring record (R48). -/
structure MoorRec where
  gbase : Nat
  lbase : Nat
  extent : Nat
  rows : Nat
  stride : Nat
  epr : Nat
  esize : Nat
  foff : Nat
  fsize : Nat
  flags : Nat
  deriving DecidableEq, Repr

/-- The breakpoint for which a block halts (R225). -/
structure Halt where
  pc : DWord
  code : Nat
  mask : Mask
  crew : Nat
  info : Nat
  deriving DecidableEq, Repr

/-- A fault record before PH is set and it is written (R233). -/
structure FRec where
  cause : Cause
  flags : Nat
  agent : Nat
  ltag : Word
  pc : DWord
  addr : DWord
  token : Nat
  mask : Mask
  bx : Nat
  byIdx : Nat
  bz : Nat
  crew : Nat
  info : Nat
  code : Nat
  pasid : Nat
  aux : DWord
  sect : DWord
  deriving DecidableEq, Repr

/-- A weight plane (R248): its bytes by offset, its format and its codebook. -/
structure Plane where
  data : Table Byte
  wf : WFmt
  codebook : Table (BitVec 16)
  deriving DecidableEq, Repr

/-- What an `MST` has taken at its point: tile values by row × 64 + column, row sums, scales and zero points. -/
structure TileCopy where
  vals : List Word
  asum : List Word
  scale : List Word
  zp : List Word
  deriving DecidableEq, Repr

/-- An operation in a matrix unit's queue (R251 to R264); `tile` is the unit's own tile. -/
inductive MatOp where
  /-- a pass: the row and the local offset of each active row -/
  | pass (tile : Nat) (af : AFmt) (zpm kh : Bool) (rows : List (Nat × Nat)) (t0 : Nat) (begun : Bool)
  | load (off stride : Nat) (wf : WFmt)
  | lut (codebook : Table (BitVec 16))
  | swap (dreg : Option Nat)
  | zero (tile : Nat)
  | read (tile col width dreg : Nat) (mask : Mask)
  | store (tile off stride : Nat) (vec : Nat) (sc zpe : Bool) (ofmt : Fmt) (mask : Mask) (copy : Option TileCopy)
  /-- an `MFENCE`, or an `MMA` with no active lane: a queue entry and a place in its batch (R266, R268) -/
  | nothing
  deriving DecidableEq, Repr

/-- A queue entry: who issued it, and the batch and number of each instruction it serves. -/
structure MatEntry where
  blk : Nat
  crew : Nat
  slot : Nat
  parts : List (Nat × Nat)
  op : MatOp
  deriving DecidableEq, Repr

/-- A matrix unit (R248): tile values by tile × 2048 + row × 64 + column, ASUM by tile × 32 + row. -/
structure MatUnit where
  active : Plane
  shadow : Plane
  pgen : Word
  tiles : Table Word
  asum : Table Word
  queue : List MatEntry
  activeTag : WFmt
  shadowTag : WFmt
  deriving DecidableEq, Repr

/-- A block (R24, R25, R30). -/
structure Block where
  launch : Nat
  kern : Kernel
  lin : Nat
  bx : Nat
  byIdx : Nat
  bz : Nat
  fleet : Nat
  rank : Nat
  core : Nat
  base : Nat
  st : BlkSt
  crews : Table Crew
  rings : Table Ring
  batch : Option Batch
  placedAt : Nat
  /-- since when a crew has been PARKED (R39) -/
  parkedSince : Option Nat
  /-- since when both conditions of R40 have held -/
  outsideSince : Option Nat
  /-- end of the checkpoint window (R240) -/
  chkptTill : Option Nat
  /-- CAUSES of R244, object and value waited on -/
  causes : Nat
  object : DWord
  value : DWord
  /-- records to post when the save completes, and tokens awaiting acknowledgement -/
  recs : List FRec
  tokens : List Nat
  /-- pool slot of the dock image (R243), and the clock at which it was written -/
  image : Option Nat
  savedAt : Nat
  /-- clock at which it became placeable (R36) -/
  placeable : Option Nat
  /-- owned mooring entries at the save: index and record (R59) -/
  snapshot : List (Nat × MoorRec)
  /-- next round of each armature (R213) -/
  rounds : Table Nat
  /-- the breakpoint that stops the block, from its `BKPT` until the halt ends -/
  halting : Option Halt
  /-- the matrix units of a saved block, by partition (R267) -/
  units : Table MatUnit
  deriving DecidableEq, Repr

/-- A run of stripes, 4 apart (R35, R37). -/
structure Stripes where
  first : Nat
  count : Nat
  deriving DecidableEq, Repr

/-- What one die has of a grid: whole stripes not begun, and the fleets left of the stripe begun. -/
structure Share where
  runs : List Stripes
  begun : List Nat
  refusals : Nat
  /-- the dies still to be asked, the present one first -/
  asking : List Nat
  /-- the present one has not been asked: two requests to it are unanswered (R79) -/
  unasked : Bool
  deriving DecidableEq, Repr

/-- R31, R33. -/
inductive LaunchSt where
  | offered | waiting | running | done
  deriving DecidableEq, Repr

/-- A launch record and the state of its grid (R31 to R37). -/
structure Launch where
  kernAddr : Nat
  args : DWord
  gx : Nat
  gy : Nat
  gz : Nat
  waitIdx : Nat
  sigIdx : Nat
  prio : Nat
  flags : Nat
  waitVal : Nat
  sigVal : Nat
  bufs : Nat
  cap : Nat
  ltag : Word
  badRec : Bool
  kern : Kernel
  ctx : Ctx
  die : Nat
  st : LaunchSt
  order : Nat
  startAt : Nat
  shares : Table Share
  retired : Nat
  error : Bool
  tokens : Nat
  /-- the account as updated at the last boundary of each die (R341) -/
  energy : Table Nat
  /-- the slipway that feeds a successor block, with its batch -/
  feeds : Option Batch
  /-- the slipways of the kernel's table, by entry (R39) -/
  slips : List Nat
  /-- the write time that its satisfied wait has acquired (R33, R62) -/
  tw : Nat
  /-- the greatest T of its retired crews and of their engines, which its completion releases (R33) -/
  relTw : Nat
  deriving DecidableEq, Repr

/-- A slipway's descriptor and control state (R39). -/
structure Slipway where
  addr : Nat
  ctx : Ctx
  base : Nat
  cap : Nat
  size : Nat
  k : Nat
  flush : Nat
  prio : Nat
  kern : Kernel
  args : DWord
  bufs : Nat
  ltag : Word
  port : Port
  reserved : Nat
  written : Nat
  assigned : Nat
  freed : Nat
  /-- the records whose ring slots have been freed -/
  gone : List Nat
  /-- clocks at which the unconsumed records were written -/
  times : List Nat
  seq : Nat
  /-- launches that name the descriptor -/
  users : List Nat
  final : Bool
  /-- T of the `REMIT` of each record held, by record number (R218) -/
  tws : Table Nat
  deriving DecidableEq, Repr

/-! ## Cores (05, 21) -/

/-- R52. -/
inductive LineSt where
  | inv | fill | shr | own | drt | wbk | snp
  deriving DecidableEq, Repr

/-- A probe's effect kept with a line in FILL (R56). -/
inductive Kept where
  | none | share | inval
  deriving DecidableEq, Repr

/-- Who performs a step, and who waits at a home: a slot's word, or a step of the device or the host (the model's
own, log 1). -/
inductive Actor where
  | none
  | slot (r : SlotRef)
  | event (i : Instr)
  deriving DecidableEq, Repr

/-- A home line that contributes to a stash line: the attributes of its page and the core's membership generation
there, as at the fill (R67, R73, R247). -/
structure HomeInfo where
  line : Nat
  attr : Attr
  gen : Nat
  deriving DecidableEq, Repr

/-- A moored stash line. -/
structure MLine where
  st : LineSt
  kept : Kept
  /-- after a write-back: INV, else OWN -/
  toInv : Bool
  /-- the mapped bytes: stash byte and physical address as translated at the fill (R49, R53) -/
  map : List (Nat × Nat)
  homes : List HomeInfo
  /-- the reads that wait for its fill (R56) -/
  readers : List Actor
  deriving DecidableEq, Repr

/-- A mooring entry (R50). -/
structure Mooring where
  mrec : MoorRec
  /-- absolute stash base -/
  base : Nat
  owner : Option Nat
  ctx : Ctx
  order : Nat
  lines : Table MLine
  deriving DecidableEq, Repr

/-- A line of the lease partition (R60, R62): its number, and the marks of its bytes by offset, as at its fill. -/
structure LeaseLine where
  data : List Byte
  stamp : Nat
  w : Nat
  order : Nat
  marks : List (Nat × List Mark)
  deriving DecidableEq, Repr

/-- A line of the read-only partition (R61). -/
structure RoLine where
  data : List Byte
  filledAt : Nat
  deriving DecidableEq, Repr

/-- A core (R16). -/
structure Core where
  ctx : Option Ctx
  moorings : Table Mooring
  leases : Table LeaseLine
  readOnly : Table RoLine
  tlb : List Tlb
  units : Table MatUnit
  gated : Bool
  dead : Bool
  deriving DecidableEq, Repr

/-! ## Homes (05, 19, 23) -/

/-- R65. -/
inductive DirSt where
  | unc | shd | own | ownp | busy | pois
  deriving DecidableEq, Repr

/-- The four stored forms (R72). -/
inductive Form where
  | raw | zero | half | threeQ
  deriving DecidableEq, Repr

/-- The state of a host line at its home under CXL.cache (R330). -/
inductive CxlSt where
  | invalid | shared | exclusive | modified
  deriving DecidableEq, Repr

/-- A 128-byte line at its home: directory entry, logical times, L2 way, stored form (R62, R65, R67, R68, R72). -/
structure Line where
  st : DirSt
  /-- the state before BUSY -/
  prior : DirSt
  ovf : Bool
  ptrs : List Nat
  coarse : BitVec 9
  w : Nat
  le : Nat
  resident : Bool
  rcls : Nat
  cmp : Bool
  fillOrder : Nat
  /-- held newer than HBM4 -/
  dirty : Bool
  form : Form
  /-- probes sent without answer, with the agent and the clock of the last one (R247) -/
  probes : Nat
  probed : Option Nat
  probedAt : Nat
  /-- requests held while it is BUSY, in order of arrival (R65) -/
  queue : List Actor
  /-- the number of its pin (R68) -/
  pinOrder : Nat
  cxl : CxlSt
  deriving DecidableEq, Repr

/-- The stores of a capsule step kept at a home (R278). -/
structure Version where
  line : Nat
  record : Nat
  gen : Word
  step : Nat
  exec : Nat
  bytes : List (Nat × Byte)
  /-- of the page it was stored through (R73) -/
  attr : Attr
  deriving DecidableEq, Repr

/-- The lane that asks for a record: its slot, the register of D, and the record's virtual address. -/
structure Asker where
  lane : Nat
  slot : Nat
  dreg : Nat
  va : DWord
  /-- of the record's page (R67, R73) -/
  attr : Attr
  deriving DecidableEq, Repr

/-- Capsule messages (R279 to R282). -/
inductive CapKind where
  /-- with the delivery slot, and the attributes of its page -/
  | enter (who : Asker) (slotPa : Nat) (entry : DWord) (ks : List Word) (slotVa : DWord) (slotAttr : Attr)
  | adopt (who : Asker)
  /-- STEP 0, EXIT 1, ABORT 2 -/
  | commit (kind : Fin 3) (ks : List Word) (ra : DWord)
  /-- with its store-origin entry (R188) -/
  | store (line : Nat) (bytes : List (Nat × Byte)) (attr : Attr) (entry : Nat)
  | park
  | reclaim (newId : Nat)
  deriving DecidableEq, Repr

/-- A capsule message in flight to the record's home. -/
structure CapMsg where
  record : Nat
  blk : Nat
  crew : Nat
  gen : Word
  step : Nat
  exec : Nat
  kind : CapKind
  /-- of the page through which the crew reaches the record (R67, R73) -/
  attr : Attr
  deriving DecidableEq, Repr

/-- What the record's home keeps beside the record (R279); `tw` is the write time of the last commit or close that it
accepted (R101). -/
structure CapHome where
  slot : Option Nat
  /-- of the pages of the slot, and of the record at the last message that wrote it (R67, R73) -/
  slotAttr : Attr
  attr : Attr
  tw : Nat
  /-- a close whose slot write awaits its acknowledgement: block, crew and status -/
  closing : Option (Nat × Nat × Nat)
  deriving DecidableEq, Repr

/-! ## Traffic and engines (05, 17) -/

/-- R77, R78: a request waits, is injected, and is answered. -/
inductive ReqSt where
  /-- its page is not translated: the walk it waits for (R75) -/
  | walking (walk : Nat)
  | waiting | injected | answered | faulted
  deriving DecidableEq, Repr

/-- A buffer record (R190). -/
structure BufRec where
  base : Nat
  extent : Nat
  menc : Fmt
  rfmt : Fmt
  ilv : Nat
  smode : Nat
  scale : Nat
  zp : Nat
  stride : Nat
  bmode : Nat
  deriving DecidableEq, Repr

/-- A piece of a lane's access that is read at once: the lane, its offset in the lane's bytes, its addresses, its
length and the attributes of its page. -/
structure Piece where
  lane : Nat
  /-- the lanes that the access belongs to: all of them for an s destination -/
  lanes : Mask
  off : Nat
  va : Nat
  pa : Nat
  n : Nat
  attr : Attr
  deriving DecidableEq, Repr

/-- How a load's bytes fill its destination: the operand, its registers, bytes of a lane, sign extension, the
buffer record, and the lanes (R185, R191). -/
structure LoadForm where
  d : Opnd
  regs : Nat
  n : Nat
  sx : Bool
  buf : Option BufRec
  mask : Mask
  deriving DecidableEq, Repr

/-- A lane's reduction that is still to be performed (R192): its addresses and width, its page, and the operation. -/
structure RedPiece where
  lane : Nat
  va : Nat
  pa : Nat
  n : Nat
  attr : Attr
  op : AtomOp
  ty : AtomTy
  val : Nat
  deriving DecidableEq, Repr

/-- What a request does. -/
inductive ReqKind where
  /-- the stored bytes of one line that are still to be performed, by physical address, in groups that are performed
  each at once (R81); by virtual address while the page is not translated. `va` is the lowest byte's virtual address -/
  | store (va : Nat) (groups : List (List (Nat × Byte))) (attr : Attr) (tw : Nat)
  /-- a load: the pieces still to be read, the bytes read by lane and offset, how they fill the destination, the
  arrival counter of a split-phase load, and the scope of an acquire -/
  | load (pieces : List Piece) (bytes : List (Nat × Nat × Byte)) (form : LoadForm) (ac : Option Nat)
      (acq : Option Scope)
  /-- the lanes of a reduction that are still to be performed, and the greatest write time so far -/
  | red (lanes : List RedPiece) (tw : Nat)
  deriving DecidableEq, Repr

/-- A release that a store carries (R89): the lanes, the scope, and T when it was ordered. -/
structure Release where
  lanes : Mask
  scope : Scope
  tw : Nat
  deriving DecidableEq, Repr

/-- A request of a core (R78, R188, R230). -/
structure Req where
  kind : ReqKind
  st : ReqSt
  /-- the lanes that store each byte, by its offset in the line (R82) -/
  lanes : List (Nat × Mask)
  /-- its bytes stand under virtual addresses -/
  virt : Bool
  /-- lanes that have since performed an acquire (R85) -/
  fenced : Mask
  rels : List Release
  /-- the index of its block among those resident on the core (R230) -/
  bi : Nat
  core : Nat
  dest : Nat
  blk : Nat
  crew : Nat
  slot : Nat
  pc : DWord
  mask : Mask
  /-- its store's fault has a record already (R231) -/
  told : Bool
  gen : Nat
  /-- the store-origin entry (R188, R230) -/
  entry : Nat
  /-- cause, code and address of a fault met -/
  cause : Option (Cause × Nat × Nat)
  /-- its injection was refused for want of tokens (R338) -/
  refused : Bool
  /-- the bytes read at its home, which the reply carries (R337) -/
  carried : Nat
  /-- a home slice takes part; all bytes of another lie in stashes (R92) -/
  homed : Bool
  /-- the global bytes that moored stash bytes among them map -/
  mapsTo : List (Nat × Nat)
  deriving DecidableEq, Repr

/-- A walk in flight (R75). -/
structure Walk where
  die : Nat
  ctx : Ctx
  va : Nat
  /-- the engines' steps that wait for it -/
  engs : List Actor
  /-- the launch whose access began it (R341) -/
  launch : Option Nat
  deriving DecidableEq, Repr

/-- A tile descriptor as read (R204). -/
structure TileDesc where
  src : Nat
  dst : Nat
  rows : Nat
  cols : Nat
  sstride : Nat
  dstride : Nat
  sfmt : Fmt
  dfmt : Fmt
  xpose : Bool
  sparse : Bool
  cksrc : Bool
  ckdst : Bool
  bmp : Bool
  rop : Nat
  bar : Option Nat
  bmpAddr : Nat
  aux : Nat
  recoff : Option Nat
  quant : Option QFmt
  deriving DecidableEq, Repr

/-- What a copy operation moves (R203, R205, R207). -/
inductive CopyWork where
  /-- destination and source of each lane, the size of an element and the barrier's local offset -/
  | lanes (es : List (Nat × Nat)) (n : Nat) (bar : Option Nat)
  | tile (d : TileDesc)
  deriving DecidableEq, Repr

/-- Missing sectors of a 2 KiB destination window, or the bitmap word of a chunk (R206, R235): the window's base,
the sectors by number (address / 32), the lowest one's page and KIND, the chunk, and the token once posted. -/
structure CopyFault where
  window : Nat
  sectors : List Nat
  page : Nat
  kind : Nat
  chunk : Option Nat
  token : Nat
  posted : Bool
  deriving DecidableEq, Repr

/-- A copy operation in flight (R202): what has landed, its faults, its flags as the record holds
them, the bytes its sums cover by address, the chunks whose bits are set, and whether its record is written. -/
structure Copy where
  blk : Nat
  crew : Nat
  num : Nat
  pc : DWord
  mask : Mask
  slot : Nat
  work : CopyWork
  /-- the pieces of elements that have landed: 2i, and 2i + 1 for what lies in a second sector -/
  landed : List Nat
  faults : List CopyFault
  flags : Nat
  srcSum : Table Byte
  dstSum : Table Byte
  chunks : List Nat
  recorded : Bool
  ended : Bool
  /-- the block-transfer engine of the die that performs it (R11) -/
  engine : Nat
  /-- the greatest write time of what has landed in each chunk of the destination (R62, R98) -/
  tws : Table Nat
  /-- T of the issuing crew at its issue, and the greatest write time of what has landed (R96) -/
  tw : Nat
  /-- elements read from a strongly ordered page and not landed, with what they read (R202) -/
  held : Table (List Byte)
  /-- the bytes of a sparse mask that have been read (R205) -/
  maskRead : List Byte
  deriving DecidableEq, Repr

/-- A message in flight (R210, R211): the ranks still to be delivered, those not delivered for good, and those
that wait to be tried again, each with the clock from which; `tw` is the sender's T. -/
structure Msg where
  blk : Nat
  crew : Nat
  dreg : Option Nat
  elem : List Word
  ring : Fin 4
  left : List Nat
  failed : Nat
  mcast : Bool
  status : Nat
  retry : List (Nat × Nat)
  tw : Nat
  deriving DecidableEq, Repr

/-- An input of an armature on its way to a node or held there (R214). -/
structure ArmInput where
  launch : Nat
  fleet : Nat
  id : Nat
  rank : Nat
  /-- the child it comes from; none for the node's own contribution -/
  child : Option Nat
  round : Nat
  vals : List Word
  missing : Nat
  flags : Nat
  /-- the greatest T of its contributors (R96, R213) -/
  tw : Nat
  deriving DecidableEq, Repr

/-- A node of an armature. -/
structure ArmNode where
  round : Nat
  held : List ArmInput
  timer : Option Nat
  deriving DecidableEq, Repr

/-- An installed armature (R212). -/
structure Arm where
  launch : Nat
  fleet : Nat
  id : Nat
  nrank : Nat
  root : Nat
  op : Nat
  ty : Nat
  timeout : Nat
  resoff : Nat
  baroff : Option Nat
  parent : List Nat
  nodes : Table ArmNode
  late : Nat
  deriving DecidableEq, Repr

/-! ## Dies, host side and module (27, 29) -/

/-- Control messages in flight (R37, R79). -/
inductive CtrlMsg where
  | stealq (thief victim launch : Nat)
  | stealg (thief launch : Nat) (granted : List Stripes)
  | stealn (thief launch : Nat)
  deriving DecidableEq, Repr

/-- A die (R11, R67, R338 to R340). -/
structure Die where
  evsl : DWord
  evph : DWord
  schedule : Option (List Word)
  /-- the image that a load is reading (R67) -/
  loading : Option Nat
  tokbud : DWord
  tokbudNext : Option DWord
  eff : Nat
  tshift : Nat
  temp : Nat
  thrw : Nat
  /-- the clock of the last claim taken by its turn, and that turn (R338) -/
  claimAt : Nat
  claimRank : Nat
  /-- tokens at the window's start, and those left of them -/
  opened : Nat
  left : Nat
  deficit : Nat
  throttled : Bool
  wasThrottled : Bool
  placed : Nat
  /-- the number of the window that is open -/
  window : Nat
  coolSince : Option Nat
  hotSteps : Nat
  /-- records waiting in the quay island (R232) -/
  waiting : List FRec
  deriving DecidableEq, Repr

/-- A submission that awaits decode (R323). -/
structure Submission where
  data : BitVec 512
  pasid : Nat
  off : Nat
  /-- its place in the order of arrival -/
  order : Nat
  deriving DecidableEq, Repr

/-- A queue interface (R322, R323, R326). -/
structure Qi where
  ctl : DWord
  ptb : DWord
  s2r : DWord
  tlb : DWord
  irb : DWord
  inv : DWord
  queue : List Submission
  deriving DecidableEq, Repr

/-- A CXL.cache request of the device (R330). -/
inductive CxlReq where
  | rdShared | rdOwn | rdCurr | wrCur | dirtyEvict | cleanEvict
  deriving DecidableEq, Repr

/-- The algorithms that the system controller uses (R344). -/
inductive SpdmAlgorithm where
  | ecdsaP384 | sha384
  deriving DecidableEq, Repr

/-- The system controller's answers to the requests of SPDM 1.3 (R344). -/
inductive SpdmAnswer where
  | version (major minor : Nat)
  | capabilities (body : List Byte)
  | algorithms (asymmetric hash : SpdmAlgorithm)
  | digests (chains : List (List Byte))
  | certificate (chain : List Byte)
  | challenge (signature : List Byte)
  | measurements (indexed : List (Nat × List Byte))
  deriving DecidableEq, Repr

/-- What leaves the module towards a host (R328, R329, R330, R331, R344). -/
inductive Output where
  | msix (port : Port) (addr : DWord) (data : Word)
  /-- a request for a host line, with the data of a write -/
  | cxl (port : Port) (req : CxlReq) (pa : Nat) (data : List Byte)
  /-- a back-invalidate snoop of a device line -/
  | backInv (port : Port) (line : Nat) (inval : Bool)
  | memRead (port : Port) (pa : Nat) (data : List Byte) (poisoned : Bool)
  | snoop (port : Port) (pa : Nat) (data : Option (List Byte)) (poisoned : Bool)
  | spdm (port : Port) (answer : SpdmAnswer)
  | remote (module : Nat) (pa : Nat) (data : List Byte) (poisoned : Bool)
  deriving DecidableEq, Repr

/-- A request to another module awaiting its answer (R335): a store's request, or the access of a waiting slot or of an
engine's step; the clock at which its current time-out began. -/
structure Remote where
  timeouts : Nat
  since : Nat
  req : Option Nat
  who : Actor
  kind : Nat
  addr : DWord
  act : Mask
  /-- the hops on which the request holds a slot (R333) -/
  hops : List (Nat × Nat)
  /-- a fibre group leads to the module (R346) -/
  routed : Bool
  deriving DecidableEq, Repr

/-- A vector of a function's MSI-X table (R328). -/
structure MsixVec where
  addr : DWord
  data : Word
  masked : Bool
  deriving DecidableEq, Repr

/-- The registers of the whole module and the fault queue's own state (R232, R243, R343, R346); `msix` holds the vectors
of port A by number, and those of port B under 2,048 more (R328); `semTill` is the clock from which a semaphore write of
port A may come after the last one of port B (R321). -/
structure Regs where
  fqctl : DWord
  fqptr : DWord
  fqack : DWord
  passes : Nat
  nextToken : Nat
  dkpool : DWord
  poolUsed : List Nat
  devrdy : DWord
  rwtb : DWord
  fabcfg : DWord
  dbgctl : DWord
  hsems : Table DWord
  msix : Table MsixVec
  semTill : Nat
  deriving DecidableEq, Repr

/-- A token that awaits acknowledgement, and what it acknowledges (R232). -/
inductive TokenOf where
  | block (blk : Nat)
  | copy (copy : Nat)
  | halt (blk : Nat) (saved : Bool)
  deriving DecidableEq, Repr

/-- The greatest write times that a barrier object's contributors have released: in the phase under way, and in those
complete (R96). -/
structure BarSync where
  now : Nat
  past : Nat
  deriving DecidableEq, Repr

/-- A walk that has ended for an engine, until its step takes note (R75): the page found, or why none was. -/
structure WalkEnd where
  who : Actor
  ctx : Ctx
  va : Nat
  page : Option Tlb
  cause : Cause
  code : Nat
  deriving DecidableEq, Repr

/-- A request to another module that has ended for an access, until its step takes note (R335): answered, or given up. -/
structure RemoteEnd where
  who : Actor
  va : Nat
  ok : Bool
  deriving DecidableEq, Repr

/-- The state of the module. -/
structure State where
  /-- the slot whose word issues (the model's own, log 1) -/
  cur : SlotRef
  /-- who performs the step (the model's own, log 1) -/
  actor : Actor
  /-- steps of the device and the host that are to come (the model's own, log 1) -/
  agenda : List Instr
  /-- counter of free values (the model's own, log 2) -/
  free : Nat
  /-- clocks since reset -/
  clock : Nat
  mem : Memory
  blocks : Table Block
  launches : Table Launch
  slipways : Table Slipway
  cores : Table Core
  dies : Table Die
  lines : Table Line
  /-- greatest W or LE evicted by each slice (R62) -/
  floors : Table Nat
  versions : List Version
  capHomes : Table CapHome
  capMsgs : Table CapMsg
  reqs : Table Req
  walks : Table Walk
  walkEnds : List WalkEnd
  /-- writes that acquires synchronise with, by key of the byte (R89) -/
  marks : Table (List Mark)
  /-- what barrier objects have acquired, by key of the object (R96) -/
  bars : Table BarSync
  /-- the write time of the chunk of a bitmap bit, under 32 × key of the word + bit (R98) -/
  bits : Table Nat
  copies : Table Copy
  msgs : Table Msg
  armInputs : Table ArmInput
  arms : List Arm
  ctrl : Table CtrlMsg
  /-- membership generations: of agent a at slice g under 512 × g + a (R247) -/
  gens : Table Nat
  tokens : Table TokenOf
  qis : Table Qi
  regs : Regs
  remotes : Table Remote
  remoteEnds : List RemoteEnd
  linksDown : List UcieLink
  /-- lines held M or O at an abrupt reset (R331) -/
  lostLines : List Nat
  /-- between an abrupt fatal reset and the next power good -/
  down : Bool
  /-- the firmware images that the bring-up found (R343, R344) -/
  images : List FwImage
  /-- which stacks, links and ports train, as the bring-up finds them (R343) -/
  trains : List (List Bool)
  /-- ports that have failed to train (R343) -/
  deadPorts : List Port
  outputs : List Output
  /-- the next number of a table above -/
  nextId : Nat
  deriving DecidableEq, Repr

/-! ## Reasons to stop -/

/-- Why the machine stops. -/
inductive Fault where
  /-- A byte outside the device memory: raised by a HOST_MEM_ACCESS or a CRILVON_REMOTE_REQUEST whose bytes lie at or
  beyond its end (R12; DESIGN CHOICE, log 95). Safe: the spec gives no such byte. -/
  | noSuchByte
  deriving DecidableEq, Repr

/-- Why a step has no meaning. -/
inductive Refusal where
  /-- An arm not written yet. Safe. -/
  | notModelled (mnemonic : String)
  /-- A word's meaning was asked for while no slot of a running block issues: raised by every instruction of the
  Bamith set. Safe: the spec gives an instruction an effect only when a slot issues it. -/
  | noIssuingSlot
  deriving DecidableEq, Repr

/-! ## Reset -/

def Kernel.none : Kernel := ⟨0, 0, 0, 0, 0, 0, 0, false, 0, 0, 0, 0, 0, 0, 0, 0⟩

def Plane.reset : Plane := ⟨[], .e4m3, []⟩

/-- R249. -/
def MatUnit.reset : MatUnit := ⟨Plane.reset, Plane.reset, 0, [], [], [], .e4m3, .e4m3⟩

def Core.reset : Core := ⟨none, [], [], [], [], [], false, false⟩

/-- R65, R72: a line with no copy outside its home, not in L2, stored RAW (log 22). -/
def Line.reset : Line := ⟨.unc, .unc, false, [], 0, 0, 0, false, 0, false, 0, false, .raw, 0, none, 0, [], 0, .invalid⟩

/-- R67, R339: BUDGET 34,048 and THR 6,144. -/
def Die.reset : Die :=
  { evsl := 0, evph := 0, schedule := none, loading := none,
    tokbud := BitVec.ofNat 64 (34048 + 6144 * 2 ^ 24), tokbudNext := none, eff := 34048, tshift := 0, temp := 0,
    thrw := 0, claimAt := 0, claimRank := 0,
    opened := 34048, left := 34048, deficit := 0, throttled := false, wasThrottled := false, placed := 0, window := 0,
    coolSince := none, hotSteps := 0, waiting := [] }

/-- R322: LEASE is 8. -/
def Qi.reset : Qi := ⟨BitVec.ofNat 64 (8 * 2 ^ 4), 0, 0, 0, 0, 0, []⟩

def Regs.reset : Regs := ⟨0, 0, 0, 0, 1, 0, [], 0, 0, 0, 0, [], [], 0⟩

/-- A vector at reset: masked (PRESUMED from MSI-X, log 81). -/
def MsixVec.reset : MsixVec := ⟨0, 0, true⟩

/-- The module right after reset: no launch, no block, nothing written. -/
def State.reset : State :=
  { cur := ⟨0, 0, 0⟩, actor := .none, agenda := [], free := 0, clock := 0, mem := [], blocks := [], launches := [],
    slipways := [], cores := [], dies := [], lines := [], floors := [], versions := [], capHomes := [],
    capMsgs := [], reqs := [], walks := [], walkEnds := [], marks := [], bars := [], bits := [], copies := [], msgs := [], armInputs := [], arms := [], ctrl := [],
    gens := [], tokens := [], qis := [], regs := Regs.reset, remotes := [], remoteEnds := [], linksDown := [],
    lostLines := [], down := false, images := [], trains := [], deadPorts := [], outputs := [], nextId := 1 }

end Sys2Proof.Machine
end

