-- ==== Sys2Proof/Machine/Ops.lean ====
section
/-! DEFINITION. The named operations over memory, registers, slots and blocks; what an instruction does when it
waits, traps or faults; the merge of paths; taking an exception and returning from one. -/

namespace Sys2Proof.Machine

/-! ## Bytes -/

/-- The number whose little-endian bytes are given (R4). -/
def leNat (bs : List Byte) : Nat :=
  match bs with
  | [] => 0
  | b :: r => b.toNat + 256 * leNat r

/-- The `n` little-endian bytes of a number (R4). -/
def leBytes (n x : Nat) : List Byte :=
  match n with
  | 0 => []
  | k + 1 => BitVec.ofNat 8 x :: leBytes k (x / 256)

/-- Bit k of a number. -/
def nbit (x k : Nat) : Bool := x / 2 ^ k % 2 == 1

/-- Bits [k + w - 1 : k] of a number. -/
def nfield (x k w : Nat) : Nat := x / 2 ^ k % 2 ^ w

/-! ## Memory -/

/-- The byte under a key. -/
def Memory_get (m : Memory) (k : Nat) : Byte :=
  match m with
  | [] => Memory.unlisted
  | (j, b) :: r => if j = k then b else if k < j then Memory.unlisted else Memory_get r k

/-- Writes one byte and keeps the canonical form. -/
def Memory_set (m : Memory) (k : Nat) (b : Byte) : Memory :=
  match m with
  | [] => if b = Memory.unlisted then [] else [(k, b)]
  | (j, c) :: r =>
    if k < j then (if b = Memory.unlisted then (j, c) :: r else (k, b) :: (j, c) :: r)
    else if k = j then (if b = Memory.unlisted then r else (k, b) :: r)
    else (j, c) :: Memory_set r k b

/-- Writes bytes at consecutive keys. -/
def Memory_write (m : Memory) (k : Nat) (bs : List Byte) : Memory :=
  match bs with
  | [] => m
  | b :: r => Memory_write (Memory_set m k b) (k + 1) r

/-- Reads `n` bytes at consecutive keys. -/
def Memory_read (m : Memory) (k n : Nat) : List Byte :=
  match n with
  | 0 => []
  | j + 1 => Memory_get m k :: Memory_read m (k + 1) j

/-- The key of a byte's place. The ranges of distinct places do not meet. -/
def placeKey (p : Place) : Nat :=
  match p with
  | .dev a => a
  | .host .a a => 2 ^ 64 + a
  | .host .b a => 2 * 2 ^ 64 + a
  | .remote m a => (16 + m) * 2 ^ 64 + a
  | .stash c a => (8192 + c) * 2 ^ 64 + a

def byteAt (s : State) (p : Place) : Byte := Memory_get s.mem (placeKey p)

def readPlace (s : State) (p : Place) (n : Nat) : List Byte := Memory_read s.mem (placeKey p) n

def writePlace (s : State) (p : Place) (bs : List Byte) : State :=
  { s with mem := Memory_write s.mem (placeKey p) bs }

/-- A little-endian number of `n` bytes at a place. -/
def numAt (s : State) (p : Place) (n : Nat) : Nat := leNat (readPlace s p n)

/-- A device physical address. -/
def devAt (s : State) (pa n : Nat) : Nat := numAt s (.dev pa) n

/-! ## Parts of the state -/

def blockOf (s : State) (b : Nat) : Option Block := s.blocks.find b

def coreOf (s : State) (c : Nat) : Core := s.cores.getD c Core.reset

def setCore (s : State) (c : Nat) (x : Core) : State := { s with cores := s.cores.put c x }

def dieOf (s : State) (d : Nat) : Die := s.dies.getD d Die.reset

def setDie (s : State) (d : Nat) (x : Die) : State := { s with dies := s.dies.put d x }

def lineOf (s : State) (l : Nat) : Line :=
  s.lines.getD l Line.reset

def setLine (s : State) (l : Nat) (x : Line) : State := { s with lines := s.lines.put l x }

def setBlock (s : State) (b : Nat) (x : Block) : State := { s with blocks := s.blocks.put b x }

def updBlock (s : State) (b : Nat) (f : Block → Block) : State :=
  match s.blocks.find b with
  | some x => setBlock s b (f x)
  | none => s

def updLaunch (s : State) (l : Nat) (f : Launch → Launch) : State :=
  match s.launches.find l with
  | some x => { s with launches := s.launches.put l (f x) }
  | none => s

/-- READY (R343). -/
def moduleReady (s : State) : Bool := nbit s.regs.devrdy.toNat 4

/-- The port has not failed to train (R343). -/
def portUp (s : State) (p : Port) : Bool := !s.deadPorts.contains p

/-- The module is READY, and the port by which it is reached is in use. -/
def portReady (s : State) (p : Port) : Bool := moduleReady s && portUp s p

/-- BUDGET as it is taken (R339). -/
def budgetOf (tokbud : DWord) : Nat := min 34048 (max 4096 (nfield tokbud.toNat 0 20))

/-- THR as it is taken. -/
def thrOf (tokbud : DWord) : Nat := min (budgetOf tokbud) (nfield tokbud.toNat 24 20)

/-- The dies of a route, ends included (R13). -/
def routeDies (a b : Nat) : List Nat :=
  if a = b then [a]
  else if a = 0 ∧ b = 3 then [0, 1, 3]
  else if a = 3 ∧ b = 0 then [3, 1, 0]
  else if a = 1 ∧ b = 2 then [1, 0, 2]
  else if a = 2 ∧ b = 1 then [2, 0, 1]
  else [a, b]

/-- The dies on which a packet is injected between two dies: onto the crossbar or the mesh of its own, and, where it leaves
it, once more by each quay island of its route, the last of which injects it at its end (R13, R78, R337). -/
def packetDies (a b : Nat) : List Nat := if a = b then [a] else a :: routeDies a b

/-- A die's window has tokens for a request: THR of them remain, and none has been refused (R338). -/
def tokensFor (s : State) (die : Nat) : Bool :=
  let d := dieOf s die
  decide (thrOf d.tokbud ≤ d.left) && !d.throttled

/-- Every injection of a request from one die to another is granted. -/
def tokensTo (s : State) (a b : Nat) : Bool := (packetDies a b).all (tokensFor s)

/-- A request that its die's window cannot grant throttles the die (R338). -/
def throttle (s : State) (die : Nat) : State :=
  if tokensFor s die then s else setDie s die { dieOf s die with throttled := true }

/-- The first injection of a request's way that is refused throttles its die. -/
def throttleTo (s : State) (a b : Nat) : State :=
  match (packetDies a b).find? fun d => !tokensFor s d with
  | some d => throttle s d
  | none => s

/-! R338: claims of one clock are taken in this order: replies and control claims (rank 0), matrix claims in partition order,
request injections in router order. -/

/-- The rank of a matrix claim of a core's partition. -/
def matrixRank (core part : Nat) : Nat := 1 + core % 48 * 8 + part

/-- The rank of an injection by a core's router, in the order y, then x, of its place in the mesh (which order of routers
R338 means is not stated: DESIGN CHOICE, log 41). -/
def requestRank (core : Nat) : Nat :=
  let i := core % 24
  385 + 12 * (i / 6) + i % 6 + core % 48 / 24 * 6

/-- A claim of a rank comes in this clock: none that comes after it has been taken in it. Else it falls in a later clock. -/
def claimTurn (s : State) (die rank : Nat) : Bool :=
  let d := dieOf s die
  d.claimAt != s.clock || decide (d.claimRank ≤ rank)

/-- A claim of a rank has been taken. -/
def claimed (s : State) (die rank : Nat) : State :=
  setDie s die { dieOf s die with claimAt := s.clock, claimRank := rank }

/-- Tokens are charged to a launch. -/
def chargeLaunch (s : State) (launch n : Nat) : State := updLaunch s launch fun l => { l with tokens := l.tokens + n }

/-- Tokens are drawn; what the window lacks is carried as a deficit (R338). They are charged to a launch, if one causes
the traffic (R341). -/
def drawTokens (n : Nat) (launch : Option Nat) (s : State) (die : Nat) : State :=
  let d := dieOf s die
  let s1 := setDie s die { d with left := d.left - n, deficit := d.deficit + (n - d.left) }
  match launch with
  | some l => chargeLaunch s1 l n
  | none => s1

/-- A packet of `n` times 128 bytes or part draws its tokens at each injection from one die to another (R337). -/
def drawPacket (s : State) (a b n : Nat) (launch : Option Nat) : State := (packetDies a b).foldl (drawTokens n launch) s

/-- The tokens of a packet of some bytes: at least one (R337). -/
def packetTokens (bytes : Nat) : Nat := max 1 ((bytes + 127) / 128)

/-- `n` requests of at most 128 bytes from one die to another, each with its reply (R337). -/
def exchanges (s : State) (asker home n : Nat) (launch : Option Nat) : State :=
  drawPacket (drawPacket s asker home n launch) home asker n launch

/-- A request of at most 128 bytes from one die to another, and its reply (R337). -/
def exchange (s : State) (asker home : Nat) (launch : Option Nat) : State := exchanges s asker home 1 launch

/-- The launch of a request's block. -/
def reqLaunch (s : State) (r : Req) : Nat :=
  match s.blocks.find r.blk with
  | some x => x.launch
  | none => 0

def blockLaunch (s : State) (b : Nat) : Option Nat := (s.blocks.find b).map (·.launch)

/-- R341: the launch for which the step works, whose word or request it is. -/
def workLaunch (s : State) : Option Nat :=
  match s.actor with
  | .slot r => blockLaunch s r.blk
  | .event (.homeSliceRequest q) => (s.reqs.find q).map (reqLaunch s)
  | .event (.copyLineLand c _) => (s.copies.find c).bind fun x => blockLaunch s x.blk
  | .event (.tapeWriteOut b _) => blockLaunch s b
  | .event (.saveComplete b) => blockLaunch s b
  | .event (.blockRestore b) => blockLaunch s b
  | _ => none

def crewOf (s : State) (b c : Nat) : Option Crew := (s.blocks.find b).bind fun x => x.crews.find c

def setCrew (s : State) (b c : Nat) (y : Crew) : State :=
  updBlock s b fun x => { x with crews := x.crews.put c y }

def updCrew (s : State) (b c : Nat) (f : Crew → Crew) : State :=
  updBlock s b fun x =>
    match x.crews.find c with
    | some y => { x with crews := x.crews.put c (f y) }
    | none => x

def slotOf (y : Crew) (k : Nat) : Slot := if k = 0 then y.slot0 else y.slot1

def setSlot (y : Crew) (k : Nat) (t : Slot) : Crew :=
  if k = 0 then { y with slot0 := t } else { y with slot1 := t }

def updSlot (s : State) (b c k : Nat) (f : Slot → Slot) : State :=
  updCrew s b c fun y => setSlot y k (f (slotOf y k))

def launchOf (s : State) (l : Nat) : Option Launch := s.launches.find l

/-- R14: the die of a core. -/
def dieOfCore (c : Nat) : Nat := c / 48

/-- R14: the cluster id of a core. -/
def clusterOf (c : Nat) : Nat := c / 24

/-- Adds a step that is to come. -/
def later (s : State) (e : Instr) : State := { s with agenda := s.agenda ++ [e] }

/-- A step joins the agenda unless it already stands there. -/
def laterOnce (s : State) (e : Instr) : State := if s.agenda.contains e then s else later s e

/-- A new number for a table. -/
def freshId (s : State) : Nat × State := (s.nextId, { s with nextId := s.nextId + 1 })

/-- A free choice below `n` (n > 0), and the counter moved on. -/
def freeChoice (s : State) (n : Nat) : Nat × State :=
  (Config.choose s.free % n, { s with free := s.free + 1 })

/-! ## Lanes and masks -/

/-- The lanes of a mask, in ascending order. -/
def lanesOf (m : Mask) : List Nat := (List.range 32).filter fun l => m.getLsbD l

/-- The mask with lane l alone. -/
def laneBit (l : Nat) : Mask := BitVec.ofNat 32 (2 ^ l)

/-- The mask of the lanes for which `f` holds. -/
def maskOf (f : Nat → Bool) : Mask :=
  BitVec.ofNat 32 ((List.range 32).foldl (fun a l => if f l then a + 2 ^ l else a) 0)

/-- The number of lanes of a mask. -/
def popMask (m : Mask) : Nat := (lanesOf m).length

/-- The lowest lane of a mask. -/
def lowLane (m : Mask) : Nat := (lanesOf m).headD 0

/-! ## Predicates and registers -/

/-- Predicate n of lane l; p7 reads true (R9). -/
def readP (y : Crew) (n l : Nat) : Bool :=
  if n = 7 then true else (y.p.getD n 0).getLsbD l

/-- The lanes for which predicate n reads true. -/
def predMask (y : Crew) (n : Nat) : Mask := if n = 7 then BitVec.allOnes 32 else y.p.getD n 0

/-- Writes predicate n in the lanes of `m`; a write to p7 is discarded (R140). -/
def writeP (y : Crew) (n : Nat) (m vals : Mask) : Crew :=
  if n = 7 then y
  else { y with p := y.p.put n ((y.p.getD n 0 &&& ~~~m) ||| (vals &&& m)) }

/-- R123: the lanes of `m` for which the guard reads true. -/
def guardMask (y : Crew) (g : Guard) (m : Mask) : Mask :=
  m &&& (if g.neg then ~~~(predMask y g.p.val) else predMask y g.p.val)

def vKey (n l : Nat) : Nat := 32 * n + l

def readV (y : Crew) (n l : Nat) : Word := y.v.getD (vKey n l) 0

def writeV (y : Crew) (n l : Nat) (x : Word) : Crew := { y with v := y.v.put (vKey n l) x }

def readS (y : Crew) (n : Nat) : Word := y.s.getD n 0

def writeS (y : Crew) (n : Nat) (x : Word) : Crew := { y with s := y.s.put n x }

def readK (y : Crew) (n : Nat) : Word := y.k.getD n 0

def writeK (y : Crew) (n : Nat) (x : Word) : Crew := { y with k := y.k.put n x }

/-- R272: the lanes `m` of this crew are in capsule mode. A handler runs outside it (R238, R284). -/
def inCapsule (y : Crew) (m : Mask) : Bool :=
  match y.holding, y.handler with
  | some h, none => m.getLsbD h.lane
  | some h, some hd => !hd.cap && m.getLsbD h.lane
  | none, _ => false

/-- R189: the code of a register in the pending lists. -/
def regCode (o : Opnd) : Option Nat :=
  match o with
  | .v n => some n
  | .s n => some (192 + n)
  | _ => none

/-! ## The slot that issues -/

/-- The block, crew and slot whose word issues. -/
structure Here where
  b : Nat
  blk : Block
  c : Nat
  crew : Crew
  k : Nat
  /-- the lanes active for the word (R123, R237): those of a trap's or a precise fault's MASK -/
  act : Mask
  deriving DecidableEq, Repr

/-- Where `r` names a slot of a crew of a block. -/
def hereAt (s : State) (r : SlotRef) : Option Here :=
  match s.blocks.find r.blk with
  | none => none
  | some blk =>
    match blk.crews.find r.crew with
    | none => none
    | some crew => some ⟨r.blk, blk, r.crew, crew, r.slot, (slotOf crew r.slot).mask⟩

/-- The issuing slot. -/
def here (s : State) : Option Here := hereAt s s.cur

def hSlot (h : Here) : Slot := slotOf h.crew h.k

def hMask (h : Here) : Mask := (hSlot h).mask

def hPc (h : Here) : DWord := (hSlot h).pc

def hRef (h : Here) : SlotRef := ⟨h.b, h.c, h.k⟩

def launchHere (s : State) (h : Here) : Option Launch := s.launches.find h.blk.launch

def flagsOf (s : State) (b : Block) : Nat :=
  match s.launches.find b.launch with
  | some l => l.flags
  | none => 0

def ctxOf (s : State) (b : Block) : Ctx :=
  match s.launches.find b.launch with
  | some l => l.ctx
  | none => ⟨⟨.a, 0⟩, 0⟩

def ltagOf (s : State) (b : Block) : Word :=
  match s.launches.find b.launch with
  | some l => l.ltag
  | none => 0

/-! ## Fault records (R232, R233) -/

/-- R227. -/
def causeCode (c : Cause) : Nat :=
  match c with
  | .trap => 0x01
  | .illop => 0x02
  | .illpair => 0x03
  | .capfault => 0x04
  | .tdiv => 0x05
  | .tovf => 0x06
  | .tgap => 0x07
  | .barmis => 0x08
  | .divovf => 0x09
  | .addrf => 0x10
  | .pagef => 0x11
  | .accf => 0x12
  | .bufrec => 0x13
  | .cpydesc => 0x14
  | .poison => 0x15
  | .cpyf => 0x18
  | .launchref => 0x20
  | .qref => 0x21
  | .agdead => 0x22
  | .late => 0x23
  | .dockbad => 0x24
  | .bkpth => 0x25
  | .poolfull => 0x26

/-- An event's record, fields zero but those given. -/
def eventRec (cause : Cause) (agent : Nat) (ltag : Word) (addr : DWord) (code pasid : Nat) : FRec :=
  ⟨cause, 0, agent, ltag, 0, addr, 0, 0, 0, 0, 0, 0, 0, code, pasid, 0, 0⟩

/-- A record of a block. FLAGS: PRECISE 2, STORE 4, EXITED 8, ACKREQ 16, SAVED 32, ENDED 64. -/
def blockRec (s : State) (blk : Block) (cause : Cause) (flags : Nat) (pc : DWord) (addr : DWord) (mask : Mask)
    (crew info code : Nat) (aux sect : DWord) : FRec :=
  ⟨cause, flags, blk.core, ltagOf s blk, pc, addr, 0, mask, blk.bx, blk.byIdx, blk.bz, crew, info, code,
    (ctxOf s blk).pasid, aux, sect⟩

/-- Causes whose CODE the spec states (R227, R228, R31, R323; for `CPYF` the example of 20_program_faults.md). -/
def codeStated (c : Cause) : Bool :=
  c == .trap || c == .capfault || c == .tdiv || c == .tovf || c == .tgap || c == .pagef || c == .accf
    || c == .launchref || c == .qref || c == .bkpth || c == .cpyf

/-- The CODE of a frame or record; of a cause for which the spec states none it is free, but for the 0xFFFF of handler
mode (R238). -/
def openCode (s : State) (cause : Cause) (code : Nat) : Nat × State :=
  if codeStated cause || code == 0xFFFF then (code, s) else freeChoice s (2 ^ 16)

/-- R232: a record joins those waiting in the quay island of the die where it arose. -/
def postRec (s : State) (die : Nat) (r : FRec) : State :=
  let (code, s1) := openCode s r.cause r.code
  later (setDie s1 die { dieOf s1 die with waiting := (dieOf s1 die).waiting ++ [{ r with code := code }] })
    (.faultRecordWrite (Fin.ofNat 4 die))

/-- A record that waits for an acknowledgement takes a token, unique within the power-on period. -/
def postAck (s : State) (die : Nat) (r : FRec) (t : TokenOf) : Nat × State :=
  let n := s.regs.nextToken
  let s1 := { s with
    regs := { s.regs with nextToken := n + 1 }
    tokens := s.tokens.put n t }
  (n, postRec s1 die { r with token := n, flags := r.flags ||| 16 })

/-! ## Stopping and saving a block (R234, R242) -/

/-- The blocks of one fleet. -/
def fleetOf (s : State) (launch fleet : Nat) : List Nat :=
  (s.blocks.filter fun e => e.2.launch == launch && e.2.fleet == fleet && e.2.st != .retired).map (·.1)

/-- The record of a breakpoint (R225). -/
def haltRec (s : State) (x : Block) (h : Halt) (flags : Nat) : FRec :=
  blockRec s x .bkpth flags h.pc 0 h.mask h.crew h.info h.code 0 0

/-- What a breakpoint adds to a save: a block that is saved while it halts posts its record with SAVED (R225). -/
def haltedRecs (s : State) (x : Block) : List FRec :=
  match x.halting, x.st with
  | some h, .running => [haltRec s x h (16 + 32)]
  | _, _ => []

/-- A HALTED block saved for its own store's fault also waits for the acknowledgement of its `BKPTH` record (DESIGN CHOICE,
log 76). -/
def haltTokens (s : State) (b : Nat) (x : Block) : List Nat :=
  if x.st = .halted then
    (s.tokens.filter fun e =>
      match e.2 with
      | .halt k false => k == b
      | _ => false).map (·.1)
  else []

/-- R30, R240, R242 step 1: a block of the fleet that holds its core begins its save with the cause given. -/
def beginSaveOne (s : State) (b : Nat) (cause : Nat) : State :=
  match s.blocks.find b with
  | none => s
  | some x =>
    let x1 := { x with
      causes := x.causes ||| cause
      recs := x.recs ++ haltedRecs s x
      tokens := x.tokens ++ haltTokens s b x }
    if x.st = .running ∨ x.st = .halted ∨ x.st = .restoring then
      later (setBlock s b { x1 with st := .saving, chkptTill := none }) (.saveComplete b)
    else setBlock s b x1

/-- Another block of the fleet is saved: a HALTED one only takes note of the cause, and its save begins when its halt
ends (R246; DEDUCED, log 76). -/
def joinSave (s : State) (b : Nat) (cause : Nat) : State :=
  match s.blocks.find b with
  | none => s
  | some x => if x.st = .halted then setBlock s b { x with causes := x.causes ||| cause } else beginSaveOne s b cause

/-- A block is saved together with every other block of its fleet (R40, R234). -/
def beginSave (s : State) (b : Nat) (cause : Nat) : State :=
  match s.blocks.find b with
  | none => s
  | some x =>
    (fleetOf s x.launch x.fleet).foldl (fun s b' => if b' = b then beginSaveOne s b' cause else joinSave s b' cause) s

/-- The message that carries what a lane of the block does at a record's home. -/
def sendCap (s : State) (rec b c : Nat) (h : Holding) (k : CapKind) : Nat × State :=
  let (n, s1) := freshId s
  (n, { s1 with capMsgs := s1.capMsgs.put n ⟨rec, b, c, h.gen, h.step, h.exec, k, h.attr⟩ })

/-- R281: a park notice for the holding of one crew. -/
def parkCrew (s : State) (b c : Nat) : State :=
  match crewOf s b c with
  | none => s
  | some y =>
    match y.holding with
    | none => s
    | some h =>
      if h.parked || h.displaced then s
      else
        let (n, s1) := sendCap s h.line b c h .park
        later (setCrew s1 b c { y with holding := some { h with parked := true } }) (.park n)

/-- R281: park notices for every holding of a block. -/
def parkBlock (s : State) (b : Nat) : State :=
  match s.blocks.find b with
  | none => s
  | some x => (x.crews.map (·.1)).foldl (fun s c => parkCrew s b c) s

/-! ## Ending a grid with error (R239) -/

/-- A record that waited for its block's save, whose grid has ended meanwhile: no record is lost (R232), and it has
neither SAVED nor ACKREQ, but ENDED (DEDUCED, log 18). -/
def endedRec (r : FRec) : FRec :=
  { r with flags := r.flags % 16 + 64 }

/-- The records of a block whose save the end of its grid cuts short are posted, in their order. -/
def postEnded (s : State) (b : Nat) : State :=
  match s.blocks.find b with
  | none => s
  | some x => x.recs.foldl (fun s r => postRec s (dieOfCore x.core) (endedRec r)) (setBlock s b { x with recs := [] })

/-- A block of an ended grid stops: it parks what it holds and is to retire; a saved one is discarded in that step. -/
def stopBlock (s : State) (b : Nat) : State := later (parkBlock (postEnded s b) b) (.blockRetire b)

/-- The copy was issued by a block of the launch. -/
def copyOfLaunch (s : State) (launch : Nat) (c : Copy) : Bool :=
  match s.blocks.find c.blk with
  | some x => x.launch == launch
  | none => false

/-- Copies of an ended grid run on; their faults no longer wait for an acknowledgement. -/
def endCopies (s : State) (launch : Nat) : State :=
  let mine := s.copies.filter fun e => copyOfLaunch s launch e.2
  mine.foldl (fun s e => later s (.copyLineLand e.1 0))
    { s with copies := s.copies.map fun e =>
        if copyOfLaunch s launch e.2 then (e.1, { e.2 with ended := true }) else e }

/-- The blocks of a launch. -/
def blocksOfLaunch (s : State) (launch : Nat) : List Nat :=
  (s.blocks.filter fun e => e.2.launch == launch && e.2.st != .retired).map (·.1)

/-- R239: the grid places no further block and its blocks stop. -/
def endGrid (s : State) (launch : Nat) : State :=
  match s.launches.find launch with
  | none => s
  | some l =>
    if l.error then s
    else
      let s1 := { s with launches := s.launches.put launch { l with error := true } }
      let s2 := (blocksOfLaunch s1 launch).foldl stopBlock (endCopies s1 launch)
      later s2 (.launchStart launch)

/-! ## Merge of paths (R27, R175) -/

/-- An empty slot. -/
def emptySlot : Slot := ⟨0, 0, .free, none, 0, 0, false, false, 0, [], 0, none⟩

/-- The slot waits at the innermost point, or has just reached it. -/
def atPoint (t : Slot) (j : Join) : Bool :=
  t.pc == j.pc && t.mask &&& j.cover != 0 && (t.st == .ready || t.st == .waiting .merge)

/-- The lanes of a `REMIT` that have no slot yet. -/
def unslotted (t : Slot) : Mask :=
  match t.st with
  | .parked _ _ left => left
  | _ => t.emit.getD t.mask

/-- A `REMIT` of the slot has emitted some lanes. -/
def emitting (t : Slot) : Bool :=
  match t.st with
  | .parked _ _ _ => true
  | _ => t.emit.isSome

/-- The lanes of slot 1 join those of slot 0 at a point; the merge takes the older age (R302). -/
def mergeSlots (y : Crew) : Crew :=
  { y with
    slot0 := { y.slot0 with
      mask := y.slot0.mask ||| y.slot1.mask
      age := min y.slot0.age y.slot1.age
      due := y.slot0.due ++ y.slot1.due
      emit := if emitting y.slot0 || emitting y.slot1 then some (unslotted y.slot0 ||| unslotted y.slot1) else none }
    slot1 := emptySlot }

/-- The slot whose lanes cover the point, if one does. -/
def poppingSlot (y : Crew) (j : Join) : Option Nat :=
  let live := j.cover &&& ~~~y.exited
  if atPoint y.slot0 j && y.slot0.mask &&& live == live then some 0
  else if atPoint y.slot1 j && y.slot1.mask &&& live == live then some 1
  else none

/-- A slot at the point waits there. -/
def waitAtPoint (t : Slot) (j : Join) : Slot := if atPoint t j then { t with st := .waiting .merge } else t

/-- R27, R175: slots at the innermost point wait and merge; a point whose cover has arrived, or has exited, is
popped, its BR records falling due before the next word. -/
def settleN (fuel : Nat) (y : Crew) : Crew :=
  match fuel with
  | 0 => y
  | n + 1 =>
    match y.joins with
    | [] => y
    | j :: r =>
      let y1 := if atPoint y.slot0 j && atPoint y.slot1 j then mergeSlots y else y
      match poppingSlot y1 j with
      | some k =>
        let t := slotOf y1 k
        settleN n { setSlot y1 k { t with st := .ready, due := t.due ++ j.recs } with joins := r }
      | none =>
        if j.cover &&& ~~~y1.exited == 0 then settleN n { y1 with joins := r }
        else { y1 with slot0 := waitAtPoint y1.slot0 j, slot1 := waitAtPoint y1.slot1 j }

/-- The crew after its paths have merged; in handler mode nothing merges (R238). -/
def settle (y : Crew) : Crew :=
  match y.handler with
  | some _ => y
  | none => settleN (y.joins.length + 1) y

/-- A DIVERGENCE_POP is to come when a slot is free and a path is spilled (R27). -/
def popLater (s : State) (b c : Nat) : State :=
  match crewOf s b c with
  | none => s
  | some y =>
    if y.handler.isNone && !y.spills.isEmpty && (y.slot0.mask == 0 || y.slot1.mask == 0) then
      later s (.divergencePop b c)
    else s

/-- Stores the crew after an instruction, its paths merged. -/
def putCrew (s : State) (b c : Nat) (y : Crew) : State := popLater (setCrew s b c (settle y)) b c

/-- The slot after its word has issued and moved to `pc`. -/
def movedSlot (s : State) (t : Slot) (pc : DWord) : Slot :=
  { t with pc := pc, st := .ready, readyAt := s.clock, favoured := false, starved := false, prog := 0, emit := none }

/-- The issuing slot continues at `pc`. -/
def jumpTo (s : State) (h : Here) (pc : DWord) : State :=
  match crewOf s h.b h.c with
  | none => s
  | some y => putCrew s h.b h.c (setSlot y h.k (movedSlot s (slotOf y h.k) pc))

/-- The issuing slot continues at the next word. -/
def nextWord (s : State) (h : Here) : State := jumpTo s h (hPc h + 8)

/-! ## Waiting -/

/-- The issuing slot becomes WAITING; its word has not been performed. -/
def waitSlot (s : State) (h : Here) (c : Cond) : State :=
  updSlot s h.b h.c h.k fun t => { t with st := .waiting c, favoured := false, starved := false }

/-! ## Taking a program trap (R237, R238) -/

/-- The capsule record that the lanes hold, when they are in capsule mode. -/
def capRecord (y : Crew) (m : Mask) : Option DWord :=
  match y.holding with
  | some h => if m.getLsbD h.lane then some h.va else none
  | none => none

/-- R238: what the summary in a frame records of a crew that traps in slot k. -/
def summaryOf (y : Crew) (k : Nat) : List Nat :=
  let o := slotOf y (1 - k)
  [1 - k, o.pc.toNat, o.mask.toNat, y.spills.length, y.joins.length]

/-- R238: the 128 bytes of a trap frame. -/
def frameBytes (cause : Cause) (slot : Nat) (cap : Bool) (code : Nat) (mask : Mask) (pc at10 : DWord) (y : Crew) :
    List Byte :=
  leBytes 1 (causeCode cause) ++ leBytes 1 (slot + (if cap then 16 else 0)) ++ leBytes 2 code
    ++ leBytes 4 mask.toNat ++ leBytes 8 pc.toNat ++ leBytes 8 at10.toNat ++ leBytes 40 0
    ++ (List.range 64).map (Config.summaryByte (summaryOf y slot))

/-- R238: the local offset of crew c's frame. -/
def frameOff (blk : Block) (c : Nat) : Nat := blk.kern.stash - 128 * (blk.kern.crews - c)

/-- R284: the versions of the current step are discarded and the record is parked. -/
def trapCapsule (s : State) (h : Here) : State :=
  if inCapsule h.crew (hMask h) then parkCrew s h.b h.c else s

/-- The grid is ended with error, and one record is posted with ENDED set (R237, R239). -/
def endWithRecord (s : State) (h : Here) (cause : Cause) (code : Nat) (mask : Mask) (at10 : DWord) : State :=
  let cap := inCapsule h.crew (hMask h)
  let info := h.k % 2 + (if cap then 16 else 0)
  let aux := if cap then (capRecord h.crew (hMask h)).getD 0 else 0
  let r := blockRec s h.blk cause (2 + 64) (hPc h) at10 mask h.c info code aux 0
  endGrid (postRec s (dieOfCore h.blk.core) r) h.blk.launch

/-- R28: a path as it stands on the divergence stack. -/
def spillPath (y : Crew) (t : Slot) (m : Mask) : Spill :=
  ⟨t.pc, m, (y.joins.filter fun j => j.cover &&& m != 0).length, t.age, t.region, t.due,
    if emitting t then some (unslotted t &&& m) else none⟩

/-- R28: the 16 bytes of an entry. -/
def spillBytes (p : Spill) : List Byte :=
  leBytes 8 p.pc.toNat ++ leBytes 4 p.mask.toNat ++ leBytes 2 p.depth ++ leBytes 2 0

/-- R28: the entry goes onto the stack of crew c, above the bytes of stash that the kernel requests (log 73). -/
def storeSpill (s : State) (blk : Block) (c depth : Nat) (p : Spill) : State :=
  writePlace s (.stash blk.core (blk.base + blk.kern.stash + 512 * c + 16 * depth)) (spillBytes p)

/-- The lanes that trap enter the handler; the others of the slot are spilled at the trapping word. -/
def enterHandler (s : State) (h : Here) (cause : Cause) (m : Mask) : State :=
  let cap := inCapsule h.crew m
  let t := hSlot h
  let rest := t.mask &&& ~~~m
  let cont := match h.crew.holding with
    | some x => x.cont
    | none => 0
  let dreg := match h.crew.holding with
    | some x => x.dreg
    | none => 0
  let s1 := if rest = 0 then s else storeSpill s h.blk h.c h.crew.spills.length (spillPath h.crew t rest)
  updCrew s1 h.b h.c fun y =>
    { setSlot y h.k { movedSlot s t h.blk.kern.handler with mask := m, region := none, due := [] } with
      handler := some ⟨h.k, cause, m, cap, cont, dreg, t.region, if rest = 0 then t.due else []⟩
      spills := if rest = 0 then y.spills
        else spillPath y t rest :: y.spills }

/-- R28: a trap that would spill the slot's other lanes where the stack is full is a `DIVOVF` of the whole slot
(log 73). -/
def spillsOver (h : Here) (m : Mask) : Bool := hMask h &&& ~~~m != 0 && decide (Config.stackDepth ≤ h.crew.spills.length)

/-- The handler's entry: the frame is written, the lanes continue at the handler's address. -/
def handlerTrap (s : State) (h : Here) (cause : Cause) (code : Nat) (at10 : DWord) (m : Mask) : State :=
  let (code', s1) := openCode s cause code
  enterHandler (writePlace s1 (.stash h.blk.core (h.blk.base + frameOff h.blk h.c))
    (frameBytes cause h.k (inCapsule h.crew m) code' m (hPc h) at10 h.crew)) h cause m

/-- Takes a program trap at the issuing slot: the frame is written and the lanes enter the handler, or the grid
ends with error; in handler mode with the cause of the trap that the handler serves (DEDUCED, log 96). `at10` is what frame
offset 0x10 holds for the tape's causes. -/
def takeTrapMask (s : State) (h : Here) (cause : Cause) (code : Nat) (at10 : DWord) (m : Mask) : State :=
  let cap := inCapsule h.crew m
  let at10' := if cap then (capRecord h.crew m).getD 0 else at10
  let s1 := trapCapsule s h
  match h.crew.handler with
  | some hd => endWithRecord s1 h hd.cause 0xFFFF m at10'
  | none =>
    if nbit (flagsOf s h.blk) 3 then
      if spillsOver h m then handlerTrap s1 h .divovf 0 0 (hMask h) else handlerTrap s1 h cause code at10' m
    else endWithRecord s1 h cause code m at10'

/-- A trap for every lane that is active for the word. -/
def takeTrap (s : State) (h : Here) (cause : Cause) (code : Nat) (at10 : DWord) : State :=
  takeTrapMask s h cause code at10 h.act

/-! ## Taking a precise fault (R229, R234) -/

/-- INFO KIND of a record (R233). -/
def infoOf (k kind : Nat) (cap : Bool) : Nat := k % 2 + 2 * kind + (if cap then 16 else 0)

/-- Stops the faulting slot before its word, saves the block and its fleet, and keeps the record to post. -/
def takeFault (s : State) (h : Here) (cause : Cause) (code : Nat) (addr : DWord) (kind : Nat) : State :=
  let cap := inCapsule h.crew (hMask h)
  let sect := if cap then (capRecord h.crew (hMask h)).getD 0 else 0
  let r := blockRec s h.blk cause (2 + 16 + 32) (hPc h) addr h.act h.c (infoOf h.k kind cap) code 0 sect
  let s1 := updBlock s h.b fun x => { x with recs := x.recs ++ [r] }
  beginSave s1 h.b 8

/-- A store fault met at its own instruction: reported without PRECISE (R190, R229, R247). -/
def takeStoreFault (s : State) (h : Here) (cause : Cause) (code : Nat) (addr : DWord) : State :=
  let r := blockRec s h.blk cause (4 + 16 + 32) (hPc h) addr h.act h.c (infoOf h.k 1 false) code 0 0
  beginSave (updBlock s h.b fun x => { x with recs := x.recs ++ [r] }) h.b 8

/-! ## Returning from the handler (R238, R284) -/

/-- The k registers' lane leaves capsule mode: predicates restored, status written to the entering D (R272). -/
def leaveCapsule (y : Crew) (status : Nat) : Crew :=
  match y.holding with
  | none => y
  | some h =>
    let k := if y.slot0.mask.getLsbD h.lane then 0 else 1
    let m := laneBit h.lane
    let y1 := (List.range 7).foldl (fun y n => writeP y n m (h.preds.getD n 0)) y
    let y2 := writeV y1 h.dreg h.lane (BitVec.ofNat 32 status)
    { setSlot y2 k { slotOf y2 k with pc := h.cont } with holding := none }

/-- Handler mode ends: the held slot and the spilled paths go on. -/
def endHandler (s : State) (b c : Nat) : State :=
  match crewOf s b c with
  | none => s
  | some y => putCrew s b c { y with handler := none }

/-- R284: at a `RET` the lanes that trapped in capsule mode continue at their continuation with TRAPPED. -/
def returnFromHandler (s : State) (h : Here) (hd : Handler) (target : DWord) : State :=
  let s1 :=
    if hd.cap then
      updCrew s h.b h.c fun y =>
        match y.holding with
        | some _ => leaveCapsule y 7
        | none => y
    else updSlot s h.b h.c h.k fun t => { t with pc := target }
  endHandler (updSlot s1 h.b h.c h.k fun t => { movedSlot s1 t t.pc with region := hd.region, due := hd.due }) h.b h.c

/-! ## The monad of a word's effects

`ok` gives a value and the state so far; `error` gives the state in which the word waits, traps or faults. -/

abbrev Exec := StateT State (Except State)

def finish (m : Exec Unit) (s : State) : Host.Outcome State Fault Refusal :=
  match m.run s with
  | .ok (_, t) => .next t
  | .error t => .next t

/-- The word ends here with this state. -/
def stopWith {α : Type} (f : State → State) : Exec α := fun s => .error (f s)

def modifyE (f : State → State) : Exec Unit := fun s => .ok ((), f s)

def getE : Exec State := fun s => .ok (s, s)

def waitE {α : Type} (h : Here) (c : Cond) : Exec α := stopWith fun s => waitSlot s h c

def trapE {α : Type} (h : Here) (cause : Cause) (code : Nat := 0) (at10 : DWord := 0) : Exec α :=
  stopWith fun s => takeTrap s h cause code at10

def faultE {α : Type} (h : Here) (cause : Cause) (code : Nat) (addr : DWord) (kind : Nat) : Exec α :=
  stopWith fun s => takeFault s h cause code addr kind

/-- The crew as it stands after the effects so far. -/
def crewE (h : Here) : Exec Crew := fun s => .ok ((crewOf s h.b h.c).getD h.crew, s)

def updCrewE (h : Here) (f : Crew → Crew) : Exec Unit := modifyE fun s => updCrew s h.b h.c f

end Sys2Proof.Machine
end

