-- ==== Sys2Proof/Machine/Flags.lean ====
section
/-! DEFINITION. FSTAT and the other status words: which bits an operation sets, and how software clears
them (R116, R308). -/

namespace Sys2Proof.Machine

/-- The bits that an operation sets in FSTAT: INV 0, OVF 1, SAT 2, NANZ 3 (R116). -/
abbrev FlagSet := Nat

def flagNone : FlagSet := 0
def flagInv : FlagSet := 1
def flagOvf : FlagSet := 2
def flagSat : FlagSet := 4
def flagNanz : FlagSet := 8

/-- The OR of two sets. -/
def flagOr (a b : FlagSet) : FlagSet := a ||| b

/-- R116: the bits are sticky; bits [31:4] are reserved. -/
def setFstat (y : Crew) (f : FlagSet) : Crew :=
  { y with fstat := y.fstat ||| (BitVec.ofNat 32 (f % 16)) }

/-- W1C: bits that are 1 in the value written are cleared (R6). -/
def clearOnes (old wr mask : Word) : Word := old &&& ~~~(wr &&& mask)

/-- R116: bits that a load or an `MST` sets as it completes, beside the words that issue. -/
def setFstatLate (y : Crew) (f : FlagSet) : Crew :=
  { setFstat y f with fstatNew := y.fstatNew ||| BitVec.ofNat 32 (f % 16) }

/-- R116: a write to FSTAT; a bit set in the same clock stays set. -/
def writeFstat (y : Crew) (x : Word) : Crew := { y with fstat := clearOnes y.fstat (x &&& ~~~y.fstatNew) 15 }

/-! TST (R308): MASKDIFF 0, GAPW 1, CHAINED 2, EMPTY 3, BOUND 4, OWN 5. -/

def tstMaskdiff : Word := 1
def tstGapw : Word := 2
def tstChained : Word := 4

/-- The tape is bound. -/
def tapeBound (t : Tape) : Bool :=
  match t.bind with
  | .own _ => true
  | .at => true
  | _ => false

/-- R296: a stream is empty exactly when its top is the base of its segment. -/
def tapeEmpty (t : Tape) : Bool := !tapeBound t || t.top % 65536 == 0

def tapeOwn (t : Tape) : Bool :=
  match t.bind with
  | .own _ => true
  | _ => false

/-- R308: TST as read. -/
def readTst (y : Crew) : Word :=
  (y.tst &&& 7) ||| (if tapeEmpty y.tape then 8 else 0) ||| (if tapeBound y.tape then 16 else 0)
    ||| (if tapeOwn y.tape then 32 else 0)

def setTst (y : Crew) (bits : Word) : Crew := { y with tst := y.tst ||| bits }

def writeTst (y : Crew) (x : Word) : Crew := { y with tst := clearOnes y.tst x 7 }

/-- R308: DIVTRAP 0, NOREC 1. -/
def writeTctl (y : Crew) (x : Word) : Crew := { y with tctl := x &&& 3 }

def tctlDivtrap (y : Crew) : Bool := y.tctl.getLsbD 0
def tctlNorec (y : Crew) : Bool := y.tctl.getLsbD 1

end Sys2Proof.Machine
end

