-- ==== Sys2Proof/Machine/Float.lean ====
section
/-! DEFINITION. Number formats, rounding and exact sums (09_numbers_rules.md). A finite number is a sign, a natural
significand and a power of two, so every operation is exact until its one rounding. -/

namespace Sys2Proof.Machine

/-! ## Values -/

/-- The value of a floating-point pattern. -/
inductive FV where
  | nan
  | inf (neg : Bool)
  | fin (neg : Bool) (m : Nat) (e : Int)
  deriving DecidableEq, Repr

/-- A floating-point format (R107, R108): mantissa bits, exponent bits, bias, greatest finite pattern, and the
patterns of infinity and of the canonical NaN. -/
structure FF where
  mb : Nat
  eb : Nat
  bias : Nat
  maxPat : Nat
  infPat : Option Nat
  nanPat : Option Nat
  deriving DecidableEq, Repr

def ffF32 : FF := ⟨23, 8, 127, 0x7F7FFFFF, some 0x7F800000, some 0x7FC00000⟩
def ffF16 : FF := ⟨10, 5, 15, 0x7BFF, some 0x7C00, some 0x7E00⟩
def ffBf16 : FF := ⟨7, 8, 127, 0x7F7F, some 0x7F80, some 0x7FC0⟩
def ffE4m3 : FF := ⟨3, 4, 7, 0x7E, none, some 0x7F⟩
def ffE5m2 : FF := ⟨2, 5, 15, 0x7B, some 0x7C, some 0x7E⟩
def ffE2m1 : FF := ⟨1, 2, 1, 0x7, none, none⟩

/-- The weight of the least bit of a subnormal: 2^(1 - bias - M). -/
def ffMin (f : FF) : Int := 1 - (f.bias : Int) - (f.mb : Int)

/-- The sign bit's weight. -/
def ffSign (f : FF) : Nat := 2 ^ (f.mb + f.eb)

/-- The value of a pattern (R107). -/
def fvOf (f : FF) (x : Nat) : FV :=
  let neg := x / ffSign f % 2 == 1
  let p := x % ffSign f
  let ex := p / 2 ^ f.mb
  let man := p % 2 ^ f.mb
  if p ≤ f.maxPat then
    if ex = 0 then .fin neg man (ffMin f)
    else .fin neg (2 ^ f.mb + man) (ffMin f + (ex : Int) - 1)
  else if f.infPat = some p then .inf neg
  else .nan

def isNanV (v : FV) : Bool := v == .nan

def isInfV (v : FV) : Bool :=
  match v with
  | .inf _ => true
  | _ => false

def isZeroV (v : FV) : Bool :=
  match v with
  | .fin _ m _ => m == 0
  | _ => false

def negV (v : FV) : Bool :=
  match v with
  | .nan => false
  | .inf n => n
  | .fin n _ _ => n

/-! ## Exact arithmetic on signed dyadic numbers -/

/-- m × 2^e. -/
structure Dy where
  m : Int
  e : Int
  deriving DecidableEq, Repr

def dyOf (neg : Bool) (m : Nat) (e : Int) : Dy := ⟨if neg then -(m : Int) else m, e⟩

def dyAdd (a b : Dy) : Dy :=
  if a.e ≤ b.e then ⟨a.m + b.m * 2 ^ (b.e - a.e).toNat, a.e⟩
  else ⟨a.m * 2 ^ (a.e - b.e).toNat + b.m, b.e⟩

def dyMul (a b : Dy) : Dy := ⟨a.m * b.m, a.e + b.e⟩

def dySub (a b : Dy) : Dy := dyAdd a ⟨-b.m, b.e⟩

def dyLt (a b : Dy) : Bool := decide ((dySub a b).m < 0)

def dyEq (a b : Dy) : Bool := decide ((dySub a b).m = 0)

def dyOfV (v : FV) : Dy :=
  match v with
  | .fin n m e => dyOf n m e
  | _ => ⟨0, 0⟩

/-! ## Rounding -/

/-- n / d to the nearest integer, ties to even. -/
def rneDiv (n d : Nat) : Nat :=
  let q := n / d
  let r := n % d
  if 2 * r < d then q else if d < 2 * r then q + 1 else if q % 2 = 0 then q else q + 1

/-- The exponent of the leading bit of n / d, for n, d > 0. -/
def leadExp (n d : Nat) : Int :=
  let k : Int := (Nat.log2 n : Int) - (Nat.log2 d : Int)
  if 0 ≤ k then (if d * 2 ^ k.toNat ≤ n then k else k - 1)
  else (if d ≤ n * 2 ^ (-k).toNat then k else k - 1)

/-- n / d × 2^e in quanta of 2^q, nearest with ties to even. -/
def quantise (n d : Nat) (e q : Int) : Nat :=
  if q ≤ e then rneDiv (n * 2 ^ (e - q).toNat) d else rneDiv n (d * 2 ^ (q - e).toNat)

/-- The pattern of n / d × 2^e rounded once to the format's precision and subnormal spacing, with no upper limit
on the exponent: patterns rise with the values (R112). -/
def roundPat (f : FF) (n d : Nat) (e : Int) : Nat :=
  if n = 0 then 0
  else
    let q := max (leadExp n d + e - (f.mb : Int)) (ffMin f)
    (q - ffMin f).toNat * 2 ^ f.mb + quantise n d e q

def signPat (f : FF) (neg : Bool) (p : Nat) : Nat := if neg then ffSign f + p else p

def nanOf (f : FF) : Nat := f.nanPat.getD 0

/-- R114: an arithmetic result; beyond the largest finite value it is an infinity and sets OVF. -/
def roundArith (f : FF) (neg : Bool) (n d : Nat) (e : Int) : Nat × FlagSet :=
  let p := roundPat f n d e
  if p ≤ f.maxPat then (signPat f neg p, flagNone)
  else (signPat f neg (f.infPat.getD f.maxPat), flagOvf)

/-- cvt_narrow on a finite magnitude (R112). -/
def narrowFin (f : FF) (neg : Bool) (n d : Nat) (e : Int) : Nat × FlagSet :=
  let p := roundPat f n d e
  if p ≤ f.maxPat then (signPat f neg p, flagNone) else (signPat f neg f.maxPat, flagSat)

/-- cvt_narrow to a floating-point format (R112). -/
def cvtNarrow (f : FF) (v : FV) : Nat × FlagSet :=
  match v with
  | .nan =>
    (match f.nanPat with
     | some p => (p, flagNone)
     | none => (0, flagNanz))
  | .inf neg => (signPat f neg f.maxPat, flagSat)
  | .fin neg m e => narrowFin f neg m 1 e

/-! ## Sums of products (R114, R118) -/

/-- The product of two values that are not NaN; none when it is 0 × ∞. -/
def mulV (a b : FV) : Option FV :=
  match a, b with
  | .fin n m e, .fin n' m' e' => some (.fin (n != n') (m * m') (e + e'))
  | .inf n, .fin n' m _ => if m = 0 then none else some (.inf (n != n'))
  | .fin n m _, .inf n' => if m = 0 then none else some (.inf (n != n'))
  | .inf n, .inf n' => some (.inf (n != n'))
  | _, _ => some .nan

/-- The exact sum of finite terms. -/
def sumDy (ts : List FV) : Dy := ts.foldl (fun a v => dyAdd a (dyOfV v)) ⟨0, 0⟩

/-- All terms are −0. -/
def allNegZero (ts : List FV) : Bool := ts.all fun v => isZeroV v && negV v

/-- The rounded sum of terms without NaN: infinities of both signs are invalid, an exact zero is +0 unless every
term is −0. -/
def sumRound (f : FF) (ts : List FV) : Nat × FlagSet :=
  let pinf := ts.any fun v => isInfV v && !negV v
  let ninf := ts.any fun v => isInfV v && negV v
  if pinf && ninf then (nanOf f, flagInv)
  else if pinf then (f.infPat.getD f.maxPat, flagNone)
  else if ninf then (signPat f true (f.infPat.getD f.maxPat), flagNone)
  else
    let x := sumDy ts
    if x.m = 0 then (signPat f (allNegZero ts) 0, flagNone)
    else roundArith f (decide (x.m < 0)) x.m.natAbs 1 x.e

/-- Σ a × b over the pairs, plus the addends, rounded once (R118). A NaN operand gives the canonical NaN without
INV; 0 × ∞ and ∞ − ∞ give it with INV. -/
def fpSum (f : FF) (ps : List (FV × FV)) (cs : List FV) : Nat × FlagSet :=
  if (ps.any fun p => isNanV p.1 || isNanV p.2) || cs.any isNanV then (nanOf f, flagNone)
  else if ps.any fun p => (mulV p.1 p.2).isNone then (nanOf f, flagInv)
  else sumRound f ((ps.filterMap fun p => mulV p.1 p.2) ++ cs)

/-! ## Operand modifiers (R158) -/

/-- Absolute value clears the sign bit, negation then inverts it. -/
def fmodPat (f : FF) (neg ab : Bool) (x : Nat) : Nat :=
  let x1 := if ab then x % ffSign f else x
  if neg then (if x1 / ffSign f % 2 = 1 then x1 - ffSign f else x1 + ffSign f) else x1

/-! ## The operations of R159 -/

inductive FOp where
  | add | sub | mul | min | max
  deriving DecidableEq, Repr

def flipV (v : FV) : FV :=
  match v with
  | .nan => .nan
  | .inf n => .inf (!n)
  | .fin n m e => .fin (!n) m e

/-- a < b, with −0 < +0; neither is NaN. -/
def ltZero (a b : FV) : Bool :=
  match a, b with
  | .inf n, .inf n' => n && !n'
  | .inf n, _ => n
  | _, .inf n' => !n'
  | _, _ =>
    if isZeroV a && isZeroV b then negV a && !negV b else dyLt (dyOfV a) (dyOfV b)

/-- The smaller or larger of two patterns (R159). -/
def fpMinMax (f : FF) (mx : Bool) (a b : Nat) : Nat × FlagSet :=
  let va := fvOf f a
  let vb := fvOf f b
  if isNanV va || isNanV vb then (nanOf f, flagNone)
  else if mx then (if ltZero va vb then (b, flagNone) else (a, flagNone))
  else (if ltZero vb va then (b, flagNone) else (a, flagNone))

def fpBin (f : FF) (o : FOp) (a b : Nat) : Nat × FlagSet :=
  let va := fvOf f a
  let vb := fvOf f b
  match o with
  | .add => fpSum f [] [va, vb]
  | .sub => fpSum f [] [va, flipV vb]
  | .mul => fpSum f [(va, vb)] []
  | .min => fpMinMax f false a b
  | .max => fpMinMax f true a b

def fpFma (f : FF) (a b c : Nat) : Nat × FlagSet := fpSum f [(fvOf f a, fvOf f b)] [fvOf f c]

/-! ## Comparison and class (R160, R161) -/

/-- a = b as values, with −0 = +0; neither is NaN. -/
def eqV (a b : FV) : Bool :=
  match a, b with
  | .inf n, .inf n' => n == n'
  | .inf _, _ => false
  | _, .inf _ => false
  | _, _ => dyEq (dyOfV a) (dyOfV b)

/-- a < b as values. -/
def ltV (a b : FV) : Bool :=
  match a, b with
  | .inf n, .inf n' => n && !n'
  | .inf n, _ => n
  | _, .inf n' => !n'
  | _, _ => dyLt (dyOfV a) (dyOfV b)

/-- R160: the comparison and its flags. -/
def fpCmp (c : FCmp) (a b : FV) : Bool × FlagSet :=
  let un := isNanV a || isNanV b
  match c with
  | .eq => (!un && eqV a b, flagNone)
  | .ne => (un || !eqV a b, flagNone)
  | .lt => if un then (false, flagInv) else (ltV a b, flagNone)
  | .le => if un then (false, flagInv) else (ltV a b || eqV a b, flagNone)
  | .gt => if un then (false, flagInv) else (ltV b a, flagNone)
  | .ge => if un then (false, flagInv) else (ltV b a || eqV a b, flagNone)
  | .num => (!un, flagNone)
  | .nan => (un, flagNone)

/-- R161: the bit of the class of an FP32 pattern. -/
def fpClass (x : Word) : Nat :=
  let neg := x.getLsbD 31
  let ex := x.toNat / 2 ^ 23 % 256
  let man := x.toNat % 2 ^ 23
  if ex = 255 then
    if man = 0 then (if neg then 0 else 7) else (if x.getLsbD 22 then 9 else 8)
  else if ex = 0 then
    if man = 0 then (if neg then 3 else 4) else (if neg then 2 else 5)
  else (if neg then 1 else 6)

/-! ## The SFU (R162) -/

/-- floor(√n), by its bits below 2^k. -/
def isqrtN (n k r : Nat) : Nat :=
  match k with
  | 0 => r
  | j + 1 =>
    let t := r + 2 ^ j
    isqrtN n j (if t * t ≤ n then t else r)

def isqrt (n : Nat) : Nat := isqrtN n (Nat.log2 n / 2 + 1) 0

def nan32 : Nat := 0x7FC00000
def inf32 : Nat := 0x7F800000
def sign32 : Nat := 0x80000000
def one32 : Nat := 0x3F800000

/-- 1 / x, correctly rounded. -/
def sfuRcp (x : Nat) : Nat × FlagSet :=
  match fvOf ffF32 x with
  | .nan => (nan32, flagNone)
  | .inf n => (signPat ffF32 n 0, flagNone)
  | .fin n m e =>
    if m = 0 then (signPat ffF32 n inf32, flagNone) else roundArith ffF32 n 1 m (-e)

/-- An even exponent for a root: m × 2^e = m' × 4^h. -/
def evenExp (m : Nat) (e : Int) : Nat × Int := if e % 2 = 0 then (m, e / 2) else (2 * m, (e - 1) / 2)

/-- √x, correctly rounded: 64 further bits of the root and a sticky bit settle the rounding. -/
def sfuSqrt (x : Nat) : Nat × FlagSet :=
  match fvOf ffF32 x with
  | .nan => (nan32, flagNone)
  | .inf n => if n then (nan32, flagInv) else (inf32, flagNone)
  | .fin n m e =>
    if m = 0 then (signPat ffF32 n 0, flagNone)
    else if n then (nan32, flagInv)
    else
      let (m1, h) := evenExp m e
      let t := m1 * 2 ^ 128
      let r := isqrt t
      let st := if r * r = t then 0 else 1
      roundArith ffF32 false (2 * r + st) 1 (h - 65)

/-! An approximating function is a free function of the operand held to its bound: a pattern of `Config` counts where
its value lies within the bound of the true value, and elsewhere the true value, rounded, takes its place (log 11). The
true value is computed in units of 2^-192, with an error that `slack` covers. -/

def fixOne : Int := 2 ^ 192

/-- ln 2 in units of 2^-192. -/
def ln2Fix : Nat := 0xb17217f7d1cf79abc9e3b39803f2f6af40f343267298b62d

/-- 2π in units of 2^-192. -/
def turnFix : Nat := 0x6487ed5110b4611a62633145c06e0e68948127044533e63a0

/-- 1 / 2π in units of 2^-384. -/
def perTurn : Nat := 0x28be60db9391054a7f09d5f47d4d377036d8a5664f10e4107f9458eaf7aef1586dc91b8e909374b801924bba82746487

/-- More than the error of a true value: 2^20 of its units. -/
def slack (t : Dy) : Dy := ⟨2 ^ 20, t.e⟩

/-- v lies within `bd` of t. -/
def near (v t bd : Dy) : Bool := !dyLt bd (dySub v t) && !dyLt bd (dySub t v)

/-- A true value rounded once. -/
def roundDy (t : Dy) : Nat × FlagSet :=
  if t.m = 0 then (0, flagNone) else roundArith ffF32 (decide (t.m < 0)) t.m.natAbs 1 t.e

/-- A value whose last place weighs 2^e lies within the bound and its own rounding, half a last place. -/
def keeps (t : Dy) (bd : Int → Dy) (v : Dy) (e : Int) : Bool := near v t (dyAdd (dyAdd (bd e) ⟨1, e - 1⟩) (slack t))

/-- The pattern of an approximating function held to its bound about the true value t. -/
def heldTo (t : Dy) (bd : Int → Dy) (x : Word) : Nat × FlagSet :=
  match fvOf ffF32 x.toNat with
  | .fin n m e => if keeps t bd (dyOf n m e) e then (x.toNat, flagNone) else roundDy t
  | .inf n => if keeps t bd (dyOf n (2 ^ 24) 104) 104 then (signPat ffF32 n inf32, flagOvf) else roundDy t
  | .nan => roundDy t

/-- A bound of k units in the last place. -/
def ulps (k : Int) (e : Int) : Dy := ⟨k, e⟩

/-- An absolute bound of 2^-k. -/
def absErr (k : Nat) (_e : Int) : Dy := ⟨1, -(k : Int)⟩

/-- 1 / √(m × 2^e). -/
def rsqTrue (m : Nat) (e : Int) : Dy :=
  let (m1, h) := evenExp m e
  ⟨isqrt (2 ^ 256 / m1), -128 - h⟩

/-- FRSQ. -/
def sfuRsq (x : Nat) : Nat × FlagSet :=
  match fvOf ffF32 x with
  | .nan => (nan32, flagNone)
  | .inf n => if n then (nan32, flagInv) else (0, flagNone)
  | .fin n m e =>
    if m = 0 then (signPat ffF32 n inf32, flagNone)
    else if n then (nan32, flagInv)
    else heldTo (rsqTrue m e) (ulps 1) (Config.frsq (BitVec.ofNat 32 x))

/-- floor of m × 2^e with its sign. -/
def floorV (n : Bool) (m : Nat) (e : Int) : Int :=
  let a : Int := dyOf n m e |>.m
  if 0 ≤ e then a * 2 ^ e.toNat else Int.fdiv a (2 ^ (-e).toNat)

/-- m × 2^e with its sign, in units of 2^-192. -/
def fixOf (n : Bool) (m : Nat) (e : Int) : Int := floorV n m (e + 192)

/-- The sum of a term t = y^k / k! and those that follow it. -/
def expTerms (y : Int) (fuel k : Nat) (t : Int) : Int :=
  match fuel with
  | 0 => 0
  | n + 1 => t + expTerms y n (k + 1) (Int.fdiv (t * y) (fixOne * (k + 1)))

/-- e^y for a y below 1 in magnitude. -/
def expFix (y : Int) : Int := expTerms y 60 0 fixOne

/-- 2^x, its integer part k apart; below every multiple of the least subnormal it is 0 to within the slack. -/
def ex2True (n : Bool) (m : Nat) (e k : Int) : Dy :=
  if k < -400 then ⟨0, -192⟩
  else ⟨expFix (Int.fdiv ((fixOf n m e - k * fixOne) * ln2Fix) fixOne), k - 192⟩

/-- FEX2. -/
def sfuEx2 (x : Nat) : Nat × FlagSet :=
  match fvOf ffF32 x with
  | .nan => (nan32, flagNone)
  | .inf n => if n then (0, flagNone) else (inf32, flagNone)
  | .fin n m e =>
    if m = 0 then (one32, flagNone)
    else
      let k := floorV n m e
      if 128 ≤ k then (inf32, flagOvf)
      else heldTo (ex2True n m e k) (ulps 2) (Config.fex2 (BitVec.ofNat 32 x))

/-- The sum of z^k / k and the terms of odd k that follow, p = z^k and q = z². -/
def atanhTerms (q : Int) (fuel k : Nat) (p : Int) : Int :=
  match fuel with
  | 0 => 0
  | n + 1 => Int.fdiv p k + atanhTerms q n (k + 2) (Int.fdiv (p * q) fixOne)

/-- log2 (m × 2^e): the exponent of the leading bit, and the logarithm of the significand. -/
def lg2True (m : Nat) (e : Int) : Dy :=
  let j := Nat.log2 m
  let z := Int.fdiv (((m : Int) - 2 ^ j) * fixOne) ((m : Int) + 2 ^ j)
  let l := 2 * atanhTerms (Int.fdiv (z * z) fixOne) 70 1 z
  ⟨((j : Int) + e) * fixOne + Int.fdiv (l * fixOne) ln2Fix, -192⟩

/-- m × 2^e lies in [0.5, 2]. -/
def nearOne (m : Nat) (e : Int) : Bool := !dyLt ⟨m, e⟩ ⟨1, -1⟩ && !dyLt ⟨1, 1⟩ ⟨m, e⟩

/-- FLG2. -/
def sfuLg2 (x : Nat) : Nat × FlagSet :=
  match fvOf ffF32 x with
  | .nan => (nan32, flagNone)
  | .inf n => if n then (nan32, flagInv) else (inf32, flagNone)
  | .fin n m e =>
    if m = 0 then (signPat ffF32 true inf32, flagNone)
    else if n then (nan32, flagInv)
    else heldTo (lg2True m e) (if nearOne m e then absErr 22 else ulps 2) (Config.flg2 (BitVec.ofNat 32 x))

/-- The angle m × 2^e reduced below 2π. -/
def angleFix (m : Nat) (e : Int) : Int :=
  let t := if 0 ≤ e then m * perTurn * 2 ^ e.toNat else m * perTurn / 2 ^ (-e).toNat
  t % 2 ^ 384 / 2 ^ 192 * turnFix / 2 ^ 192

/-- The sum of a term t of a sine or cosine, the k-th power of the angle, and those that follow; q is its square. -/
def trigTerms (q : Int) (fuel k : Nat) (t : Int) : Int :=
  match fuel with
  | 0 => 0
  | n + 1 => t + trigTerms q n (k + 2) (Int.fdiv (-(t * q)) (fixOne * ((k + 1) * (k + 2))))

def sinTrue (n : Bool) (m : Nat) (e : Int) : Dy :=
  let y := angleFix m e
  let r := trigTerms (Int.fdiv (y * y) fixOne) 50 1 y
  ⟨if n then -r else r, -192⟩

def cosTrue (m : Nat) (e : Int) : Dy :=
  let y := angleFix m e
  ⟨trigTerms (Int.fdiv (y * y) fixOne) 50 0 fixOne, -192⟩

def sfuSin (x : Nat) : Nat × FlagSet :=
  match fvOf ffF32 x with
  | .fin n m e =>
    if m = 0 then (signPat ffF32 n 0, flagNone)
    else heldTo (sinTrue n m e) (absErr 21) (Config.fsin (BitVec.ofNat 32 x))
  | _ => (nan32, flagNone)

def sfuCos (x : Nat) : Nat × FlagSet :=
  match fvOf ffF32 x with
  | .fin _ m e =>
    if m = 0 then (one32, flagNone)
    else heldTo (cosTrue m e) (absErr 21) (Config.fcos (BitVec.ofNat 32 x))
  | _ => (nan32, flagNone)

/-- tanh of a magnitude: (1 − u) / (1 + u) for u = e^(−2y); 1 from 80 on, to within the slack. -/
def tanhTrue (n : Bool) (m : Nat) (e : Int) : Dy :=
  let r : Int :=
    if !dyLt ⟨m, e⟩ ⟨80, 0⟩ then fixOne
    else
      let y := 2 * fixOf false m e
      let j := Int.fdiv y ln2Fix
      let u := Int.fdiv (expFix (j * ln2Fix - y)) (2 ^ j.toNat)
      Int.fdiv ((fixOne - u) * fixOne) (fixOne + u)
  ⟨if n then -r else r, -192⟩

/-- FTANH. -/
def sfuTanh (x : Nat) : Nat × FlagSet :=
  match fvOf ffF32 x with
  | .nan => (nan32, flagNone)
  | .inf n => (signPat ffF32 n one32, flagNone)
  | .fin n m e =>
    if m = 0 then (signPat ffF32 n 0, flagNone)
    else heldTo (tanhTrue n m e) (ulps 2) (Config.ftanh (BitVec.ofNat 32 x))

/-! ## Integers -/

/-- The signed or unsigned integer of the low `w` bits of a pattern (R106). -/
def intOf (signed : Bool) (w x : Nat) : Int :=
  let y := x % 2 ^ w
  if signed && decide (2 ^ (w - 1) ≤ y) then (y : Int) - 2 ^ w else y

def intMin (signed : Bool) (w : Nat) : Int := if signed then -(2 ^ (w - 1)) else 0

def intMax (signed : Bool) (w : Nat) : Int := if signed then 2 ^ (w - 1) - 1 else 2 ^ w - 1

/-- x mod 2^w as a pattern. -/
def wrapTo (w : Nat) (x : Int) : Nat := (x % (2 ^ w : Int)).toNat

/-- The nearest value of the range, and SAT when x lies outside it. -/
def clampTo (signed : Bool) (w : Nat) (x : Int) : Int × FlagSet :=
  if x < intMin signed w then (intMin signed w, flagSat)
  else if intMax signed w < x then (intMax signed w, flagSat)
  else (x, flagNone)

/-- The magnitude n / d × 2^e to an integer, to nearest even or toward zero. -/
def toIntMag (rz : Bool) (n d : Nat) (e : Int) : Nat :=
  let num := if 0 ≤ e then n * 2 ^ e.toNat else n
  let den := if 0 ≤ e then d else d * 2 ^ (-e).toNat
  if rz then num / den else rneDiv num den

/-- cvt_int on a finite magnitude (R113). -/
def intFin (signed : Bool) (w : Nat) (rz neg : Bool) (n d : Nat) (e : Int) : Int × FlagSet :=
  let k : Int := toIntMag rz n d e
  clampTo signed w (if neg then -k else k)

/-- cvt_int (R113). -/
def cvtInt (signed : Bool) (w : Nat) (rz : Bool) (v : FV) : Int × FlagSet :=
  match v with
  | .nan => (0, flagNanz)
  | .inf neg => (if neg then intMin signed w else intMax signed w, flagSat)
  | .fin neg m e => intFin signed w rz neg m 1 e

/-! ## Formats of R164 -/

def ffOf (f : Fmt) : FF :=
  match f with
  | .f16 => ffF16
  | .bf16 => ffBf16
  | .e4m3 => ffE4m3
  | .e5m2 => ffE5m2
  | .e2m1 => ffE2m1
  | _ => ffF32

/-- The value of the low bits of a pattern in a format. -/
def valueIn (f : Fmt) (x : Nat) : FV :=
  if fmtFloat f then fvOf (ffOf f) (x % 2 ^ fmtBits f)
  else
    let k := intOf (fmtSigned f) (fmtBits f) x
    .fin (decide (k < 0)) k.natAbs 0

/-- R112: the conversions of an infinity that are widening. -/
def infWidens (src dst : Fmt) : Bool :=
  match src, dst with
  | .f16, .f32 | .bf16, .f32 | .e5m2, .f32 | .e5m2, .f16 | .e5m2, .bf16 => true
  | a, b => a == b

/-- A value converted into a format: the pattern in the format's width, and the flags (R112, R113). -/
def convertTo (src dst : Fmt) (rz : Bool) (v : FV) : Nat × FlagSet :=
  if fmtFloat dst then
    match v with
    | .inf neg =>
      if infWidens src dst then (signPat (ffOf dst) neg ((ffOf dst).infPat.getD (ffOf dst).maxPat), flagNone)
      else cvtNarrow (ffOf dst) v
    | _ => cvtNarrow (ffOf dst) v
  else
    let (k, fl) := cvtInt (fmtSigned dst) (fmtBits dst) rz v
    (wrapTo (fmtBits dst) k, fl)

/-- A result narrower than 32 bits in its register: sign-extended for i formats, zero above others (R106, R164). -/
def extendFmt (f : Fmt) (x : Nat) : Nat :=
  if fmtSigned f && decide (fmtBits f < 32) then wrapTo 32 (intOf true (fmtBits f) x) else x

/-- Element `k` of width `w` of a packed pattern. -/
def element (w k x : Nat) : Nat := x / 2 ^ (w * k) % 2 ^ w

end Sys2Proof.Machine
end

