-- ==== Sys2Proof/Machine/Translate.lean ====
section
/-! DEFINITION. Address windows, page tables, the two stages of translation and the TLBs
(05_memory_rules.md R44 to R46 and R69 to R76, 27_host_system_rules.md R324, R325, R334). -/

namespace Sys2Proof.Machine

/-! ## Windows (R44) -/

inductive Window where
  | loc (a : Nat)
  | cluster (j o : Nat)
  | global
  | bad
  deriving DecidableEq, Repr

/-- Bits [63:57] equal bit 56. -/
def canonical (va : Nat) : Bool := va / 2 ^ 56 == 0 || va / 2 ^ 56 == 255

def windowOf (va : Nat) : Window :=
  if !canonical va then .bad
  else if va < 0x20_0000 then .loc va
  else if va < 0x200_0000 then .bad
  else if va < 0x500_0000 then
    .cluster ((va - 0x200_0000) / 0x20_0000) ((va - 0x200_0000) % 0x20_0000)
  else if va < 0x1000_0000 then .bad
  else .global

/-- The window of an access of `n` bytes; a straddle names none. -/
def routeOf (va n : Nat) : Window :=
  match windowOf va, windowOf ((va + (n - 1)) % 2 ^ 64) with
  | .loc a, .loc _ => if va + n ≤ 2 ^ 64 then .loc a else .bad
  | .cluster j o, .cluster j' _ => if j = j' then .cluster j o else .bad
  | .global, .global => if va + n ≤ 2 ^ 64 then .global else .bad
  | _, _ => .bad

/-- A memory fault: its cause, CODE and address. -/
structure Xf where
  cause : Cause
  code : Nat
  addr : Nat
  deriving DecidableEq, Repr

/-! ## Contexts (R319, R322, R324) -/

def qiKey (q : QiRef) : Nat :=
  match q.port with
  | .a => q.q
  | .b => 64 + q.q

def qiOf (s : State) (q : QiRef) : Qi := s.qis.getD (qiKey q) Qi.reset

def setQi (s : State) (q : QiRef) (x : Qi) : State := { s with qis := s.qis.put (qiKey q) x }

/-- R62: the lease length of a context. -/
def leaseLen (s : State) (c : Ctx) : Nat := 2 ^ nfield (qiOf s c.qi).ctl.toNat 4 4

/-- The address in bits [51:12] of a register or entry. -/
def frameField (x : Nat) : Nat := nfield x 12 40 * 4096

/-- The process-table entry of a PASID. -/
def procEntry (s : State) (c : Ctx) : Nat := devAt s (frameField (qiOf s c.qi).ptb.toNat + 16 * c.pasid) 16

/-- R323 CODE 4, R324: the entry exists, V is set and the bits that must be zero are zero. -/
def procOk (s : State) (c : Ctx) : Bool :=
  let e := procEntry s c
  decide (c.pasid < 2 ^ nfield (qiOf s c.qi).ptb.toNat 0 5) && nbit e 0 && nfield e 1 11 == 0
    && nfield e 52 76 == 0

/-! ## Remote windows (R334, R335) -/

/-- The bits of a window's entry that must be zero are zero (R7, R334). -/
def windowRecOk (e : Nat) : Bool := nfield e 2 10 == 0 && nfield e 52 12 == 0 && nfield e 76 4 == 0 && nfield e 112 16 == 0

/-- The device address and module that a remote-window address names; none when the table refuses it, or when a bit of
the entry that must be zero is not (R7, R334): R335 names only V, the offset and WR, and what an entry with another bit set
answers is open (DESIGN CHOICE, log 80: as V = 0). -/
def remotePlace (s : State) (pa : Nat) (wr : Bool) : Option Place :=
  let e := devAt s (s.regs.rwtb.toNat / 64 * 64 % 2 ^ 52 + 16 * nfield pa 42 8) 16
  let off := nfield pa 0 42
  if !nbit e 0 || !windowRecOk e || (wr && !nbit e 1) || decide (nfield e (64 + 16) 32 * 4096 ≤ off) then none
  else some (.remote (nfield e 64 12) (frameField e + off))

/-- A remote window's address. -/
def isRemote (pa : Nat) : Bool := pa / 2 ^ 50 == 6

/-- The place of a byte of a device or host line (R63, R330). -/
def linePlace (pa : Nat) : Place :=
  match pa / 2 ^ 50 with
  | 4 => .host .a (pa % 2 ^ 50)
  | 5 => .host .b (pa % 2 ^ 50)
  | _ => .dev pa

/-! ## Routes between dies (R13, R332) -/

/-- R63: the die of a line's home. -/
def homeDie (pa : Nat) : Nat := nfield pa 12 2

/-- R13: the links of the route between two dies. -/
def routeLinks (a b : Nat) : List UcieLink :=
  if a = b then []
  else
    match min a b, max a b with
    | 0, 1 => [.d0d1]
    | 0, 2 => [.d0d2]
    | 1, 3 => [.d1d3]
    | 2, 3 => [.d2d3]
    | 0, _ => [.d0d1, .d1d3]
    | _, _ => [.d0d1, .d0d2]

/-- R332: a link of the route has failed for good. -/
def cutOff (s : State) (a b : Nat) : Bool := (routeLinks a b).any fun l => s.linksDown.contains l

/-! ## Walks (R69 to R71) -/

/-- A line of device memory under poison (R247). -/
def poisoned (s : State) (line : Nat) : Bool := (lineOf s line).st == .pois

/-- A failed walk: CODE of a page fault, a poisoned entry, a table line that its home must first bring up to date, or one
to which no link leads. -/
inductive WalkErr where
  | page (level : Nat)
  | poison (pa : Nat)
  | held (g : Nat)
  | cut (pa : Nat)
  deriving DecidableEq, Repr

/-- One table entry, read by the walker of a die through the line's home (R71, R75): a line that is BUSY or owned is
first asked for. -/
def readEntry (s : State) (die pa level : Nat) : Except WalkErr Nat :=
  let l := lineOf s (pa / 128)
  if cutOff s die (homeDie pa) then .error (.cut pa)
  else if isRemote pa then
    match remotePlace s pa false with
    | some p => .ok (numAt s p 8)
    | none => .error (.page level)
  else if pa < 2 ^ 52 && decide (Config.deviceBytes ≤ pa) then .error (.page level)
  else if poisoned s (pa / 128) then .error (.poison pa)
  else if l.st == .busy || l.st == .own || l.st == .ownp then .error (.held (pa / 128))
  else .ok (numAt s (linePlace pa) 8)

/-- The index of a level in its table. -/
def levelIndex (va level : Nat) : Nat := nfield va (12 + 9 * level) 9

/-- A leaf: its entry, and the size of the page in bits. -/
structure Leaf where
  entry : Nat
  bits : Nat
  deriving DecidableEq, Repr

/-- The size in bits of the page of an entry found as a leaf; none when the entry leads on. -/
def leafBits (level e : Nat) : Option Nat :=
  if level = 0 then some (if nbit e 52 then 16 else 12)
  else if level ≤ 2 && nbit e 11 then some (12 + 9 * level)
  else none

/-- R70: the zero bits of an entry are zero, its ORD is no fault and its frame is aligned. -/
def entryOk (level e : Nat) : Bool :=
  nbit e 0 && nfield e 53 11 == 0 &&
  match leafBits level e with
  | some b =>
    (level != 0 || !nbit e 11) && (level == 0 || !nbit e 52) && nfield e 4 2 != 3
      && frameField e % 2 ^ b == 0
  | none => !nbit e 11 && nfield e 1 10 == 0 && !nbit e 52

/-- R71: HC = 0 with a frame beyond the device, or HC = 1 with top bits 3, is a page fault. -/
def frameOk (e : Nat) : Bool :=
  if nbit e 10 then nfield e 50 2 != 3 else decide (frameField e < Config.deviceBytes)

/-- What a stage asks of a frame: physical frames exist (R71), and no first-stage leaf under a second stage has HC set
(R325). -/
def stageFrameOk (phys : Bool) (e : Nat) : Bool := if phys then frameOk e else !nbit e 10

/-- One stage: `rd` reads the entry at a table address of the stage; `phys` when its frames are physical. -/
def walkStage (rd : Nat → Nat → Except WalkErr Nat) (phys : Bool) (off va : Nat) (levels : List Nat) (table : Nat) :
    Except WalkErr Leaf :=
  match levels with
  | [] => .error (.page off)
  | l :: r =>
    match rd (table + 8 * levelIndex va l) l with
    | .error e => .error e
    | .ok e =>
      if !entryOk l e || !stageFrameOk phys e then .error (.page (off + l))
      else
        match leafBits l e with
        | some b => .ok ⟨e, b⟩
        | none => walkStage rd phys off va r (frameField e)

/-- The address of the access within its page's frame. -/
def leafPa (x : Leaf) (va : Nat) : Nat := frameField x.entry + va % 2 ^ x.bits

/-- The address of a table in memory, a host's with 2^52 added. -/
def tablePa (x : Leaf) (gpa : Nat) : Nat := leafPa x gpa + (if nbit x.entry 10 then 2 ^ 52 else 0)

def stage2 (s : State) (die root gpa : Nat) : Except WalkErr Leaf :=
  walkStage (fun pa l => readEntry s die pa (8 + l)) true 8 gpa [4, 3, 2, 1, 0] root

def attrOf (e : Nat) : Attr :=
  ⟨nbit e 1, nbit e 2, nbit e 3, nfield e 4 2, nbit e 6, nfield e 7 3, nbit e 10⟩

/-- R325: the attributes of both stages combined. -/
def attrMeet (a b : Attr) : Attr :=
  ⟨a.rd && b.rd, a.wr && b.wr, a.ex && b.ex, if a.ord = 1 ∨ b.ord = 1 then 1 else a.ord, a.cmp && b.cmp,
    a.rcls, b.hc⟩

/-- A context's translation of a page, by the walker of a die: its size, frame and attributes. -/
def walkTables (s : State) (die : Nat) (c : Ctx) (va : Nat) : Except WalkErr Tlb :=
  let q := qiOf s c.qi
  let root := frameField (procEntry s c)
  let page (b pa : Nat) (a : Attr) : Tlb := ⟨c, va - va % 2 ^ b, b, pa - pa % 2 ^ b, a⟩
  if nbit q.ctl.toNat 1 then
    let s2 := frameField q.s2r.toNat
    let rd (gpa l : Nat) : Except WalkErr Nat :=
      match stage2 s die s2 gpa with
      | .error e => .error e
      | .ok x => readEntry s die (tablePa x gpa) l
    match walkStage rd false 0 va [4, 3, 2, 1, 0] root with
    | .error e => .error e
    | .ok x =>
      match stage2 s die s2 (leafPa x va) with
      | .error e => .error e
      | .ok y =>
        .ok (page (min x.bits y.bits) (leafPa y (leafPa x va)) (attrMeet (attrOf x.entry) (attrOf y.entry)))
  else
    match walkStage (fun pa l => readEntry s die pa l) true 0 va [4, 3, 2, 1, 0] root with
    | .error e => .error e
    | .ok x => .ok (page x.bits (leafPa x va) (attrOf x.entry))

/-! ### The entries that a walk reads (R75, R76) -/

/-- The table addresses of the entries that a stage reads. -/
def stageReads (rd : Nat → Nat → Except WalkErr Nat) (phys : Bool) (va : Nat) (levels : List Nat) (table : Nat) : List Nat :=
  match levels with
  | [] => []
  | l :: r =>
    let pa := table + 8 * levelIndex va l
    pa ::
      match rd pa l with
      | .error _ => []
      | .ok e =>
        if !entryOk l e || !stageFrameOk phys e || (leafBits l e).isSome then [] else stageReads rd phys va r (frameField e)

/-- The physical addresses of the entries that a walk reads, a second stage's among them. -/
def walkReads (s : State) (die : Nat) (c : Ctx) (va : Nat) : List Nat :=
  let q := qiOf s c.qi
  let root := frameField (procEntry s c)
  if nbit q.ctl.toNat 1 then
    let s2 := frameField q.s2r.toNat
    let below (gpa : Nat) : List Nat :=
      stageReads (fun pa l => readEntry s die pa (8 + l)) true gpa [4, 3, 2, 1, 0] s2
    let rd (gpa l : Nat) : Except WalkErr Nat :=
      match stage2 s die s2 gpa with
      | .error e => .error e
      | .ok x => readEntry s die (tablePa x gpa) l
    (stageReads rd false va [4, 3, 2, 1, 0] root).flatMap (fun gpa =>
      below gpa ++ match stage2 s die s2 gpa with
        | .ok x => [tablePa x gpa]
        | .error _ => []) ++
    match walkStage rd false 0 va [4, 3, 2, 1, 0] root with
    | .ok x => below (leafPa x va)
    | .error _ => []
  else stageReads (fun pa l => readEntry s die pa l) true va [4, 3, 2, 1, 0] root

/-- The fault of a failed walk (R71, R227, R247). -/
def walkFault (e : WalkErr) (va : Nat) : Xf :=
  match e with
  | .page l => ⟨.pagef, l, va⟩
  | .poison _ => ⟨.poison, 0, va⟩
  | .held _ | .cut _ => ⟨.pagef, 0, va⟩

/-! ## TLBs (R75) -/

/-- The entry covers the address. -/
def tlbHit (c : Ctx) (va : Nat) (t : Tlb) : Bool := t.ctx == c && t.va == va - va % 2 ^ t.bits

def tlbFind (s : State) (core : Nat) (c : Ctx) (va : Nat) : Option Tlb := (coreOf s core).tlb.find? (tlbHit c va)

/-- R75: any entry of a full TLB may leave. -/
def tlbInsert (s : State) (core : Nat) (t : Tlb) : State :=
  let x := coreOf s core
  if x.tlb.length < Config.tlbEntries then setCore s core { x with tlb := t :: x.tlb }
  else
    let (k, s1) := freeChoice s x.tlb.length
    setCore s1 core { x with tlb := t :: x.tlb.eraseIdx k }

/-- The physical address of an access, with 2^52 added where HC is set: device and host lines of one number are
distinct lines (R63, R330). -/
def tlbPa (t : Tlb) (va : Nat) : Nat := t.pa + va % 2 ^ t.bits + (if t.attr.hc then 2 ^ 52 else 0)

/-- Why an access has no translation yet. -/
inductive XErr where
  | fault (x : Xf)
  /-- a walk is to find it -/
  | miss
  /-- a table line must first be brought up to date -/
  | held (g : Nat)
  /-- no link leads to a table -/
  | cut (pa : Nat)
  deriving DecidableEq, Repr

/-- The page of an address as it now stands, for a unit that watches it. -/
def peekPage (s : State) (core : Nat) (c : Ctx) (va : Nat) : Option Tlb :=
  match tlbFind s core c va with
  | some t => some t
  | none => (walkTables s (dieOfCore core) c va).toOption

/-- A walk that has ended for the present step. -/
def walkEnd (s : State) (c : Ctx) (va : Nat) : Option WalkEnd :=
  s.walkEnds.find? fun e => e.who == s.actor && e.ctx == c && e.va == va / 4096 * 4096

/-- The step has taken note of the walks and of the requests to other modules that have ended for it. -/
def dropWalkEnd (s : State) : State :=
  { s with
    walkEnds := s.walkEnds.filter fun e => e.who != s.actor
    remoteEnds := s.remoteEnds.filter fun e => e.who != s.actor }

/-- The translation that an engine's access uses: the TLB's of its core, or for a distributor, which has none, a
walk's. -/
def xlate (s : State) (core : Nat) (c : Ctx) (va : Nat) : Except XErr Tlb :=
  if core < 192 then
    match tlbFind s core c va with
    | some t => .ok t
    | none =>
      match walkEnd s c va with
      | some e =>
        (match e.page with
         | some t => .ok t
         | none => .error (.fault ⟨e.cause, e.code, va⟩))
      | none => .error .miss
  else
    match walkTables s (core - 256) c va with
    | .ok t => .ok t
    | .error (.held g) => .error (.held g)
    | .error (.cut pa) => .error (.cut pa)
    | .error e => .error (.fault (walkFault e va))

/-- What an access asks of a page. -/
inductive Right where
  | rd | wr | rw | ex
  deriving DecidableEq, Repr

/-- R71, R228: the right that a page does not give. -/
def rightFault (a : Attr) (r : Right) (va : Nat) : Option Xf :=
  match r with
  | .rd => if a.rd then none else some ⟨.accf, 1, va⟩
  | .wr => if a.wr then none else some ⟨.accf, 1, va⟩
  | .rw => if a.rd && a.wr then none else some ⟨.accf, 1, va⟩
  | .ex => if a.ex then none else some ⟨.accf, 7, va⟩

/-! ## Waiting for a walk -/

/-- The steps of engines that wait for a walk, with the present one. -/
def joinWalk (s : State) (as : List Actor) : List Actor :=
  match s.actor with
  | .event i => if as.contains (.event i) then as else as ++ [.event i]
  | _ => as

/-- Starts a walk, or joins one in flight for the same context and page. -/
def startWalk (s : State) (die : Nat) (c : Ctx) (va : Nat) : Nat × State :=
  match s.walks.find? fun e => e.2.die == die && e.2.ctx == c && e.2.va == va / 4096 * 4096 with
  | some e => (e.1, { s with walks := s.walks.put e.1 { e.2 with engs := joinWalk s e.2.engs } })
  | none =>
    let (n, s1) := freshId s
    (n, later { s1 with walks := s1.walks.put n ⟨die, c, va / 4096 * 4096, joinWalk s [], workLaunch s⟩ } (.walkComplete n))

/-- The page of an address for the issuing word: it waits for a walk on a miss and faults precisely when the
page does not permit the access. -/
def pageE (h : Here) (va : Nat) (r : Right) (kind : Nat) : Exec Tlb := do
  let s ← getE
  let c := ctxOf s h.blk
  match tlbFind s h.blk.core c va with
  | some t =>
    match rightFault t.attr r va with
    | none => pure t
    | some x => faultE h x.cause x.code (BitVec.ofNat 64 x.addr) kind
  | none =>
    stopWith fun s =>
      let (n, s1) := startWalk s (dieOfCore h.blk.core) c va
      waitSlot s1 h (.walk n kind (BitVec.ofNat 64 va) h.act)

end Sys2Proof.Machine
end

