-- ==== Sys2Proof/Machine/Homes.lean ====
section
/-! DEFINITION. Home slices: where a line is homed, its directory entry, L2 residency and eviction, reads and writes
at home, and what probes do to moored stash lines (R48 to R72). -/

namespace Sys2Proof.Machine

/-! ## Where a line is homed (R63, R64) -/

def lineNo (pa : Nat) : Nat := pa / 128

/-- R63: the slice of an address within its die. -/
def sliceIdx (pa : Nat) : Nat :=
  Nat.xor (nfield pa 7 5) (Nat.xor (nfield pa 14 5) (Nat.xor (nfield pa 19 5) (Nat.xor (nfield pa 24 5)
    (Nat.xor (nfield pa 29 5) (Nat.xor (nfield pa 34 5) (Nat.xor (nfield pa 39 5) (Nat.xor (nfield pa 44 5)
      (nfield pa 49 3))))))))

/-- The global slice number. -/
def sliceOf (pa : Nat) : Nat := nfield pa 12 2 * 32 + sliceIdx pa

def setIndex (pa : Nat) : Nat := nfield pa 14 11

/-! ## The directory (R65, R66) -/

/-- The bit of an agent in a coarse vector. -/
def coarseBit (a : Nat) : Nat := if a < 192 then clusterOf a else 8

def coarseOf (as : List Nat) : BitVec 9 := BitVec.ofNat 9 (as.foldl (fun m a => m ||| 2 ^ coarseBit a) 0)

/-- The agents a probe of the entry goes to. -/
def dirAgents (l : Line) : List Nat :=
  if l.ovf then
    ((List.range 8).filter fun k => l.coarse.getLsbD k).flatMap (fun k => (List.range 24).map fun i => 24 * k + i)
      ++ (if l.coarse.getLsbD 8 then [192, 193] else [])
  else l.ptrs

/-- Registers a sharer; a fifth makes the entry coarse. -/
def dirAdd (l : Line) (a : Nat) : Line :=
  if l.ovf then { l with st := .shd, coarse := l.coarse ||| coarseOf [a] }
  else if l.ptrs.contains a then { l with st := .shd }
  else if l.ptrs.length < 4 then { l with st := .shd, ptrs := l.ptrs ++ [a] }
  else { l with st := .shd, ovf := true, ptrs := [], coarse := coarseOf (a :: l.ptrs) }

/-- Registers the single owner. -/
def dirOwn (l : Line) (a : Nat) (pinned : Bool) : Line :=
  { l with st := if pinned then .ownp else .own, ovf := false, ptrs := [a], coarse := 0 }

/-- Drops an agent's registration; a coarse entry keeps its bit. -/
def dirDrop (l : Line) (a : Nat) : Line :=
  if l.ovf then l
  else
    let r := l.ptrs.filter (· != a)
    { l with ptrs := r, st := if r.isEmpty && l.st != .busy && l.st != .pois then .unc else l.st }

def isOwned (l : Line) : Bool := l.st == .own || l.st == .ownp

/-- The directory entry as R65 lays it out. -/
def dirWord (l : Line) : Nat :=
  let st := match l.st with
    | .unc => 0
    | .shd => 1
    | .own => 2
    | .ownp => 3
    | .busy => 4
    | .pois => 5
  if l.ovf then st + 8 + l.coarse.toNat * 2 ^ 7
  else
    st + l.ptrs.length * 2 ^ 4 + l.ptrs.getD 0 0 * 2 ^ 7 + l.ptrs.getD 1 0 * 2 ^ 16 + l.ptrs.getD 2 0 * 2 ^ 25
      + l.ptrs.getD 3 0 * 2 ^ 34

def updLine (s : State) (g : Nat) (f : Line → Line) : State := setLine s g (f (lineOf s g))

/-! ## Order of arrival at a BUSY line (R65) -/

/-- The launch's grid has not been ended. -/
def launchLive (s : State) (l : Nat) : Bool :=
  match s.launches.find l with
  | some x => !x.error
  | none => false

/-- A slot stopped for a save, a halt or a checkpoint. -/
def slotStopped (t : Slot) : Bool :=
  match t.st with
  | .waiting (.stopped _) => true
  | _ => false

/-- R178: the crew has stopped at a checkpoint, for a save or for a halt. -/
def crewStopped (y : Crew) : Bool := slotStopped y.slot0 || slotStopped y.slot1

/-- A slot whose word still waits for the line. -/
def slotHeldBy (s : State) (g : Nat) (r : SlotRef) : Bool :=
  match s.blocks.find r.blk with
  | none => false
  | some b =>
    b.st == .running && b.halting.isNone && launchLive s b.launch &&
    match b.crews.find r.crew with
    | none => false
    | some y => !crewStopped y && (slotOf y r.slot).st == .waiting (.retry (.line g)) &&
      match y.handler with
      | some hd => hd.slot == r.slot
      | none => true

/-- A request held at a line that still waits there. -/
def stillHeld (s : State) (g : Nat) (a : Actor) : Bool :=
  a == s.actor ||
  match a with
  | .none => false
  | .slot r => slotHeldBy s g r
  | .event i => s.agenda.contains i

/-- The request of those held at a line that goes next: the first to arrive. -/
def nextHeld (s : State) (g : Nat) : Option Actor := (lineOf s g).queue.find? (stillHeld s g)

/-- The present request goes before those held at the line: none is, or it is the first. -/
def turnAt (s : State) (g : Nat) : Bool :=
  match nextHeld s g with
  | none => true
  | some a => a == s.actor

/-- A request takes its place among those held at a line. -/
def joinQueue (s : State) (g : Nat) : State :=
  updLine s g fun l =>
    let q := l.queue.filter (stillHeld s g)
    { l with queue := if s.actor == .none || q.contains s.actor then q else q ++ [s.actor] }

/-- A request held at a line goes on. -/
def leaveQueue (s : State) (g : Nat) : State :=
  if (lineOf s g).queue.isEmpty then s
  else updLine s g fun l => { l with queue := l.queue.filter (· != s.actor) }

/-! ## L2 residency (R62, R67, R68, R72, R73) -/

def floorOf (s : State) (pa : Nat) : Nat := s.floors.getD (sliceOf pa) 0

def raiseFloor (s : State) (pa t : Nat) : State :=
  { s with floors := s.floors.put (sliceOf pa) (max (floorOf s pa) t) }

/-- W of a line; the slice's floor when the line is not in L2. -/
def lineW (s : State) (g : Nat) : Nat :=
  let l := lineOf s g
  if l.resident then l.w else floorOf s (128 * g)

/-- LE of a line; the slice's floor when the line is not in L2. -/
def lineLE (s : State) (g : Nat) : Nat :=
  let l := lineOf s g
  if l.resident then l.le else floorOf s (128 * g)

/-- R72: the first stored form that holds the bytes exactly. -/
def storedForm (cmp : Bool) (bs : List Byte) : Form :=
  if !cmp then .raw
  else if bs.all (· == 0) then .zero
  else if Config.fitsHalf bs then .half
  else if Config.fitsThreeQ bs then .threeQ
  else .raw

/-- The classes in victim order (R67): nibbles of the current phase, or the identity. -/
def victimOrder (d : Die) : List Nat :=
  match d.schedule with
  | some ph =>
    if d.loading.isSome then List.range 8
    else
      match ph[nfield d.evph.toNat 0 4]? with
      | some w => (List.range 8).map fun n => nfield w.toNat (4 * n) 4
      | none => List.range 8
  | none => List.range 8

/-- The resident lines of a line's set. -/
def setLines (s : State) (g : Nat) : List (Nat × Line) :=
  s.lines.filter fun e =>
    e.2.resident && sliceOf (128 * e.1) == sliceOf (128 * g) && setIndex (128 * e.1) == setIndex (128 * g)

/-- A line is pinned, also while a probe of it is out (R55, R68). -/
def pinned (l : Line) : Bool := l.st == .ownp || (l.st == .busy && l.prior == .ownp)

def evictable (l : Line) : Bool := l.st != .ownp && l.st != .busy

/-- The earliest filled of some ways. -/
def earliest (es : List (Nat × Line)) : Option (Nat × Line) :=
  es.foldl (fun a e =>
    match a with
    | none => some e
    | some b => if e.2.fillOrder < b.2.fillOrder then some e else some b) none

/-- R68: the way that leaves. -/
def victim (s : State) (g : Nat) : Option Nat :=
  let ws := (setLines s g).filter fun e => evictable e.2
  let order := victimOrder (dieOf s (homeDie (128 * g)))
  match order.find? fun c => ws.any fun e => e.2.rcls == c with
  | none => none
  | some c => (earliest (ws.filter fun e => e.2.rcls == c)).map (·.1)

/-- The address lies in a host's memory (R330). -/
def isHostPa (pa : Nat) : Bool := pa / 2 ^ 50 == 4 || pa / 2 ^ 50 == 5

/-- R330: what the home sends to a host when a host line leaves it. -/
def cxlEvict (s : State) (g : Nat) : State :=
  match linePlace (128 * g), (lineOf s g).cxl with
  | .host p a, .modified =>
    { s with outputs := s.outputs ++ [.cxl p .dirtyEvict a (readPlace s (linePlace (128 * g)) 128)] }
  | .host p a, .shared => { s with outputs := s.outputs ++ [.cxl p .cleanEvict a []] }
  | .host p a, .exclusive => { s with outputs := s.outputs ++ [.cxl p .cleanEvict a []] }
  | _, _ => s

/-- A line leaves L2: its times raise the floor, modified bytes are stored. A host line of which moorings still hold a
copy stays in its state towards the host (R330). -/
def leaveL2 (s : State) (g : Nat) : State :=
  let l := lineOf s g
  let s1 := raiseFloor s (128 * g) (max l.w l.le)
  setLine s1 g { l with
    resident := false
    dirty := false
    cxl := if l.st = .unc then .invalid else l.cxl
    form := if l.dirty then storedForm l.cmp (readPlace s (linePlace (128 * g)) 128) else l.form }

/-- A line is evicted; a host line of which no mooring holds a copy goes back to its host. -/
def evictLine (s : State) (g : Nat) : State := leaveL2 (if (lineOf s g).st = .unc then cxlEvict s g else s) g

/-- A host line that stands in no L2 and of which no mooring holds a copy any more, while the host is shown one. -/
def leftOver (g : Nat) (l : Line) : Bool := isHostPa (128 * g) && !l.resident && l.st == .unc && l.cxl != .invalid

/-- R330: host lines that have left the module's caches go back to their hosts. -/
def sweepCxl (s : State) : State :=
  (s.lines.filter fun e => leftOver e.1 e.2).foldl (fun s e =>
    updLine (cxlEvict s e.1) e.1 fun l => { l with cxl := .invalid }) s

/-- R330: a host line is requested from its host: for reading, or for ownership. -/
def cxlFetch (s : State) (g : Nat) (own : Bool) : State :=
  match linePlace (128 * g) with
  | .host p a =>
    let x := (lineOf s g).cxl
    if x == .exclusive || x == .modified || (x == .shared && !own) then s
    else
      updLine { s with outputs := s.outputs ++ [.cxl p (if own then .rdOwn else .rdShared) a []] } g
        fun l => { l with cxl := if own then .exclusive else .shared }
  | _ => s

/-- The line takes a way of its set. -/
def takeWay (s : State) (g : Nat) (a : Attr) : State :=
  let (n, s1) := freshId s
  let f := floorOf s1 (128 * g)
  cxlFetch (setLine s1 g { lineOf s1 g with
    resident := true, rcls := a.rcls, cmp := a.cmp && !a.hc, fillOrder := n, w := f, le := f }) g false

/-- R330: a host line of a strongly ordered page is never cached: it is read as it is. -/
def cxlCurrent (s : State) (g : Nat) : State :=
  match linePlace (128 * g) with
  | .host p a => { s with outputs := s.outputs ++ [.cxl p .rdCurr a []] }
  | _ => s

/-- Brings a line into L2 under a translation. In a set with no evictable way the line is served without one
(DESIGN CHOICE, log 69). -/
def fillL2 (s : State) (g : Nat) (a : Attr) : State :=
  if (lineOf s g).resident then s
  else if a.hc && a.ord == 1 then cxlCurrent s g
  else if (setLines s g).length < 16 then takeWay s g a
  else
    match victim s g with
    | some v => takeWay (evictLine s v) g a
    | none => s

/-- LE of a line rises (R62); with no way in L2 the slice's floor does. -/
def raiseLE (s : State) (g le : Nat) : State :=
  if (lineOf s g).resident then updLine s g fun l => { l with le := le } else raiseFloor s (128 * g) le

/-! ## Writes at home (R62, R64) -/

def writeBytes (s : State) (bs : List (Nat × Byte)) : State :=
  bs.foldl (fun s b => writePlace s (linePlace b.1) [b.2]) s

/-- R89: plain writes of bytes: reads of them synchronise with no earlier write. -/
def plainMarks (s : State) (keys : List Nat) : State :=
  { s with marks := s.marks.map fun e =>
      if keys.contains e.1 then (e.1, e.2.map fun m => { m with cur := false }) else e }

/-- R89: an atomic writes bytes: a read of it synchronises with every release that precedes it there. -/
def atomicMarks (s : State) (keys : List Nat) : State :=
  { s with marks := s.marks.map fun e =>
      if keys.contains e.1 then (e.1, e.2.map fun m => { m with cur := true }) else e }

/-- One more release of a byte; of one party at one scope the last stands for all. -/
def addMark (ms : List Mark) (m : Mark) : List Mark :=
  m :: ms.filter fun x => !(x.party == m.party && x.scope == m.scope)

/-- R89: the write of bytes is a release. -/
def markBytes (s : State) (keys : List Nat) (m : Mark) : State :=
  keys.foldl (fun s k => { s with marks := s.marks.put k (addMark (s.marks.getD k []) m) }) s

/-- The keys of bytes at home. -/
def paKeys (bs : List (Nat × Byte)) : List Nat := bs.map fun b => placeKey (linePlace b.1)

/-- Takes a write time for the line: above W and LE, at least the writer's T. -/
def takeTw (s : State) (g t : Nat) : Nat × State :=
  let tw := max (max (lineW s g) (lineLE s g) + 1) t
  if (lineOf s g).resident then (tw, updLine s g fun l => { l with w := tw, dirty := true })
  else (tw, raiseFloor s (128 * g) tw)

/-- R330, R93: the home holds a host line in Modified state after it has written it; a write of a strongly ordered page,
which is never cached, is sent to the host as it is. -/
def cxlWritten (s : State) (g : Nat) (so : Bool) : State :=
  match linePlace (128 * g) with
  | .host p a =>
    if so && !(lineOf s g).resident && (lineOf s g).cxl == .invalid then
      { s with outputs := s.outputs ++ [.cxl p .wrCur a (readPlace s (linePlace (128 * g)) 128)] }
    else updLine (cxlFetch s g true) g fun l => { l with cxl := .modified }
  | _ => s

/-- R279: a record that becomes FREE, be it by a plain write, has no kept delivery slot. -/
def recordFreed (s : State) (g : Nat) : State :=
  match s.capHomes.find g with
  | some h =>
    if h.closing.isNone && (byteAt s (linePlace (128 * g))).toNat % 4 == 0 then
      { s with capHomes := s.capHomes.put g { h with slot := none } }
    else s
  | none => s

/-- Bytes of one line placed at its home, without a word on what reads of them synchronise with. -/
def homePut (s : State) (g : Nat) (bs : List (Nat × Byte)) (a : Attr) (t : Nat) (alloc : Bool) : Nat × State :=
  let s1 := if alloc && !(a.hc && a.ord == 1) then fillL2 s g a else s
  let (tw, s2) := takeTw s1 g t
  let s3 := recordFreed (cxlWritten (writeBytes s2 bs) g (a.ord == 1)) g
  if (lineOf s3 g).resident then (tw, s3)
  else
    (tw, updLine s3 g fun l => { l with form := storedForm (a.cmp && !a.hc) (readPlace s3 (linePlace (128 * g)) 128) })

/-- Bytes of one line written at its home. `alloc` brings the line into L2. -/
def homeWrite (s : State) (g : Nat) (bs : List (Nat × Byte)) (a : Attr) (t : Nat) (alloc : Bool) : Nat × State :=
  let (tw, s1) := homePut s g bs a t alloc
  (tw, plainMarks s1 (paKeys bs))

/-- The membership generation of an agent at a slice. -/
def genOf (s : State) (slice a : Nat) : Nat := s.gens.getD (512 * slice + a) 0

/-! ## Moored lines (R49, R52, R55, R56) -/

/-- Bytes of the extent that the mooring maps. -/
def mappedBytes (r : MoorRec) : Nat := r.rows * r.epr * r.fsize

/-- R49: the global address of mapped stash byte `o` of the extent. -/
def moorVa (r : MoorRec) (o : Nat) : Nat :=
  let f := o % r.fsize
  let q := o / r.fsize
  (r.gbase + q / r.epr * r.stride + q % r.epr * r.esize + r.foff + f) % 2 ^ 64

def moorWE (r : MoorRec) : Bool := nbit r.flags 0
def moorRegm (r : MoorRec) : Nat := nfield r.flags 1 2
def moorWbp (r : MoorRec) : Bool := nbit r.flags 3
def moorRof (r : MoorRec) : Bool := nbit r.flags 4

def MLine_reset : MLine := ⟨.inv, .none, false, [], [], []⟩

def mooringOf (s : State) (core e : Nat) : Option Mooring := (coreOf s core).moorings.find e

def mlineOf (s : State) (core e l : Nat) : MLine :=
  match mooringOf s core e with
  | some m => m.lines.getD l MLine_reset
  | none => MLine_reset

def setMLine (s : State) (core e l : Nat) (x : MLine) : State :=
  let c := coreOf s core
  match c.moorings.find e with
  | some m => setCore s core { c with moorings := c.moorings.put e { m with lines := m.lines.put l x } }
  | none => s

/-- The home lines that contribute bytes to a stash line. -/
def mlineHomes (x : MLine) : List Nat := (x.map.map fun p => p.2 / 128).eraseDups

/-- The stash lines of a core that hold bytes of home line `g`: entry and line. -/
def linesHolding (s : State) (core g : Nat) : List (Nat × Nat) :=
  (coreOf s core).moorings.flatMap fun e =>
    (e.2.lines.filter fun l => l.2.st != .inv && l.2.st != .snp && (mlineHomes l.2).contains g).map
      fun l => (e.1, l.1)

/-- R55: the mapped bytes of a stash line, by physical address. -/
def maskedData (s : State) (core : Nat) (x : MLine) : List (Nat × Byte) :=
  x.map.map fun p => (p.2, byteAt s (.stash core p.1))

def plainAttr : Attr := ⟨true, true, false, 0, false, 0, false⟩

/-- What a stash line keeps of a home line that contributes to it. -/
def homeInfo (x : MLine) (g : Nat) : HomeInfo := (x.homes.find? fun i => i.line == g).getD ⟨g, plainAttr, 0⟩

/-- The attributes of the page through which a stash line maps a home line (R67, R73). -/
def homeAttr (x : MLine) (g : Nat) : Attr := (homeInfo x g).attr

/-- R247: a message that carries an older generation is dropped and reported. -/
def postLate (s : State) (pa agent : Nat) : State :=
  postRec s (homeDie pa) (eventRec .late agent 0 (BitVec.ofNat 64 pa) 0 0)

/-- The home merges masked data into its copy; from a core that it has declared dead since the line was filled it takes
none (R247). The stores were performed when they wrote the stash (R92): what reads of the bytes synchronise with
stays. -/
def mergeMasked (s : State) (core : Nat) (x : MLine) : State :=
  (mlineHomes x).foldl (fun s g =>
    if (homeInfo x g).gen = genOf s (sliceOf (128 * g)) core then
      (homePut s g ((maskedData s core x).filter fun p => p.1 / 128 == g) (homeAttr x g) s.clock false).2
    else postLate s (128 * g) core) s

/-- Releases the core's registration at every contributing home that no other of its lines holds (DEDUCED, log 70). -/
def releaseHomes (s : State) (core : Nat) (x : MLine) : State :=
  (mlineHomes x).foldl (fun s g =>
    if (linesHolding s core g).isEmpty then updLine s g fun l => dirDrop l core else s) s

/-- Another of the core's lines holds the home line for writing. -/
def ownsBeside (s : State) (core g : Nat) : Bool :=
  (linesHolding s core g).any fun p =>
    let st := (mlineOf s core p.1 p.2).st
    st == .own || st == .drt || st == .wbk

/-- The core's registration becomes sharer at every contributing home that no other of its lines owns (DEDUCED,
log 70). -/
def shareHomes (s : State) (core : Nat) (x : MLine) : State :=
  (mlineHomes x).foldl (fun s g =>
    if ownsBeside s core g then s
    else updLine s g fun l => if isOwned l && l.ptrs.contains core then { l with st := .shd } else l) s

/-- R56: a stash line goes to INV. -/
def mlineToInv (s : State) (core e l : Nat) : State :=
  let x := mlineOf s core e l
  releaseHomes (setMLine s core e l MLine_reset) core x

/-- R56: a stash line goes to SHR. -/
def mlineToShr (s : State) (core e l : Nat) : State :=
  let x := mlineOf s core e l
  shareHomes (setMLine s core e l { x with st := .shr, toInv := false }) core x

def keptMax (k : Kept) (inval : Bool) : Kept := if inval || k == .inval then .inval else .share

/-- R56: what a probe does to one stash line. -/
def probeLine (s : State) (core e l : Nat) (inval : Bool) : State :=
  let x := mlineOf s core e l
  match x.st with
  | .inv | .snp => s
  | .fill => setMLine s core e l { x with kept := keptMax x.kept inval }
  | .shr =>
    if x.kept != .none then setMLine s core e l { x with kept := keptMax x.kept inval }
    else if inval then mlineToInv s core e l else s
  | .own => if inval then mlineToInv s core e l else mlineToShr s core e l
  | .drt | .wbk =>
    let s1 := mergeMasked s core x
    if inval then mlineToInv s1 core e l else mlineToShr s1 core e l

/-- The port of a host agent. -/
def agentPort (a : Nat) : Port := if a = 192 then .a else .b

/-- A host is sent a back-invalidate snoop (R329). -/
def snoopHost (s : State) (g a : Nat) (inval : Bool) : State :=
  if a < 192 then s else { s with outputs := s.outputs ++ [.backInv (agentPort a) g inval] }

/-- What an agent's answer to a probe does: a core's lines act under R56, a host gives its copy up or shares it. -/
def probeAgent (s : State) (g a : Nat) (inval : Bool) : State :=
  if a < 192 then
    let s1 := (linesHolding s a g).foldl (fun s p => probeLine s a p.1 p.2 inval) s
    if inval then updLine s1 g fun l => dirDrop l a else s1
  else if inval then updLine s g fun l => dirDrop l a
  else updLine s g fun l => if isOwned l then { l with st := .shd } else l

/-! ## Probes that are not answered at once (R13, R21, R247) -/

/-- The die of an agent (R14, R15). -/
def agentDie (a : Nat) : Nat := if a < 192 then dieOfCore a else if a = 192 then 0 else 3

/-- An agent that does not answer the home of a line. -/
def silentTo (s : State) (g a : Nat) : Bool := cutOff s (homeDie (128 * g)) (agentDie a)

/-- A core that is power-gated: a probe wakes it. -/
def gatedAgent (s : State) (a : Nat) : Bool := decide (a < 192) && (coreOf s a).gated

/-- A host that owns a device line may hold it modified: its answer is waited for (R56, R329). -/
def hostOwner (s : State) (g a : Nat) : Bool := decide (192 ≤ a) && isOwned (lineOf s g)

/-- The home of a line has declared an agent dead. -/
def deadTo (s : State) (g a : Nat) : Bool := decide (0 < genOf s (sliceOf (128 * g)) a)

/-! ## Request slots (R78, R332, R333) -/

/-- Quay islands after the first of a route: each holds a slot at the next. -/
def islandHops (ds : List Nat) (last : Nat) : List (Nat × Nat) :=
  match ds with
  | [] => []
  | [d] => [(194 + d, last)]
  | d :: e :: r => (194 + d, 128 + e) :: islandHops (e :: r) last

/-- The hops of a request: the agent that injects and the ingress that it enters. An ingress below 128 is a slice's,
128 + d that of the quay island of die d, 512 + a that of agent a. -/
def hopsTo (agent die die' last : Nat) : List (Nat × Nat) :=
  if die = die' then [(agent, last)] else (agent, 128 + die) :: islandHops (routeDies die die') last

/-- The hops of a request to a slice. -/
def hopsOf (agent die slice : Nat) : List (Nat × Nat) := hopsTo agent die (slice / 32) slice

/-- The hops of a probe by the home of a line, which is agent 256 and its slice's number. -/
def probeHops (g a : Nat) : List (Nat × Nat) :=
  hopsTo (256 + sliceOf (128 * g)) (homeDie (128 * g)) (agentDie a) (512 + a)

/-- The hops of a core's request. -/
def coreHops (core slice : Nat) : List (Nat × Nat) := hopsOf core (dieOfCore core) slice

/-- A capsule message that an instruction has sent and its home has not answered; notices of a save set out in the step in
which they arrive. -/
def capInFlight (k : CapKind) : Bool :=
  match k with
  | .park => false
  | .reclaim _ => false
  | _ => true

/-- The line to whose home a capsule message goes: that of a stored line, else the record's (R278, R279). -/
def capLine (m : CapMsg) : Nat :=
  match m.kind with
  | .store line _ _ _ => line
  | _ => m.record

/-- The hops that requests in flight hold, one entry for each slot: stores and loads on their way, fills and write-backs
of moorings, capsule messages, probes that an agent has not answered, and requests to other modules. -/
def hopsHeld (s : State) : List (Nat × Nat) :=
  (s.reqs.filter fun e => e.2.st == .injected && e.2.homed).flatMap (fun e => coreHops e.2.core e.2.dest)
    ++ s.cores.flatMap (fun c => c.2.moorings.flatMap fun m =>
        (m.2.lines.filter fun l => l.2.st == .fill || l.2.st == .wbk).flatMap fun l =>
          (mlineHomes l.2).flatMap fun g => coreHops c.1 (sliceOf (128 * g)))
    ++ (s.capMsgs.filter fun e => capInFlight e.2.kind).flatMap (fun e =>
        match s.blocks.find e.2.blk with
        | some b => coreHops b.core (sliceOf (128 * capLine e.2))
        | none => [])
    ++ s.lines.flatMap (fun e =>
        match e.2.probed with
        | some a => probeHops e.1 a
        | none => [])
    ++ s.remotes.flatMap fun e => e.2.hops

/-- A slot is free at a hop. -/
def hopFree (s : State) (h : Nat × Nat) : Bool := decide ((hopsHeld s).countP (· == h) < Config.requestSlots)

/-- A core's request to a slice finds a slot free at every hop, and links lead there. -/
def slotTo (s : State) (core slice : Nat) : Bool :=
  !cutOff s (dieOfCore core) (slice / 32) && (coreHops core slice).all (hopFree s)

/-- A core's request that a step makes whole: slots, links and tokens are there (R78, R332, R338). -/
def sendTo (s : State) (core slice : Nat) : Bool := slotTo s core slice && tokensTo s (dieOfCore core) (slice / 32)

/-- A request of an agent of a die finds a slot on every hop to the line's home, links lead there, and its window has a
token (R78, R332, R338). -/
def agentSlot (s : State) (agent die pa : Nat) : Bool :=
  !cutOff s die (homeDie pa) && (hopsOf agent die (sliceOf pa)).all (hopFree s) && tokensTo s die (homeDie pa)

/-- A request that is not sent: where nothing but tokens is missing, the die that refuses it is throttled (R338). -/
def refused (s : State) (agent die slice : Nat) : State :=
  if cutOff s die (slice / 32) || !(hopsOf agent die slice).all (hopFree s) then s else throttleTo s die (slice / 32)

/-- The agent number of a die's quay island (R15). -/
def islandAgent (die : Nat) : Nat := 194 + die

/-- The same for `n` requests that set out together. -/
def slotsTo (s : State) (core slice n : Nat) : Bool :=
  !cutOff s (dieOfCore core) (slice / 32)
    && (coreHops core slice).all fun h => decide ((hopsHeld s).countP (· == h) + n ≤ Config.requestSlots)

/-! ## Probes -/

/-- The agents that a request must probe. -/
def toProbe (s : State) (g : Nat) (l : Line) (who : Option Nat) (inval : Bool) : List Nat :=
  if inval then (dirAgents l).filter fun a => some a != who && !deadTo s g a
  else if isOwned l then l.ptrs.filter fun a => some a != who
  else []

/-- R65, R247: the line is BUSY while a probe is out. A core that wakes answers it; one that does not answer at all is
waited for. -/
def holdBusy (s : State) (g a : Nat) (inval : Bool) : State :=
  let s1 := updLine s g fun l => { l with st := .busy, prior := l.st, probes := 1, probed := some a, probedAt := s.clock }
  if silentTo s g a then later s1 (.probeTimeout a g) else later (snoopHost s1 g a inval) (.probe a g inval)

/-- The state of an entry after all but `who` have given the line up, or the owner has shared it. A coarse entry stays
coarse until a write makes a single owner (R66). -/
def afterProbe (l : Line) (who : Option Nat) (inval : Bool) : Line :=
  if inval then
    match who with
    | some a =>
      if (dirAgents l).contains a then
        if l.ovf then { l with coarse := coarseOf [a] } else { l with ptrs := [a], st := if isOwned l then l.st else .shd }
      else { l with coarse := 0, ptrs := [], st := .unc }
    | none => { l with coarse := 0, ptrs := [], st := .unc }
  else if isOwned l && some (l.ptrs.headD 0) != who then { l with st := .shd }
  else l

/-- Brings the home's copy of line `g` up to date: the owner shares it, or every registered agent but `who` gives
it up. False: the line is BUSY, requests that arrived before are held there, or a probe finds no slot (R78), and the
request waits at the home. -/
def grab (s : State) (g : Nat) (who : Option Nat) (inval : Bool) : Bool × State :=
  let l := lineOf s g
  if l.st = .busy || !turnAt s g then (false, joinQueue s g)
  else if l.st = .pois then (true, leaveQueue s g)
  else
    let as := toProbe s g l who inval
    let die := homeDie (128 * g)
    if as.any fun a => !(probeHops g a).all (hopFree s) then (false, joinQueue s g)
    else if as.any fun a => !tokensTo s die (agentDie a) then
      (false, joinQueue (as.foldl (fun s a => throttleTo s die (agentDie a)) s) g)
    else
    match as.find? fun a => silentTo s g a || gatedAgent s a || hostOwner s g a with
    | some a => (false, joinQueue (holdBusy (exchange s die (agentDie a) (workLaunch s)) g a inval) g)
    | none =>
      let s1 := as.foldl (fun s a => probeAgent (snoopHost (exchange s die (agentDie a) (workLaunch s)) g a inval) g a inval) (leaveQueue s g)
      (true, updLine s1 g fun l => afterProbe l who inval)

/-- The earliest pinned of some ways. -/
def earliestPin (es : List (Nat × Line)) : Option Nat :=
  (es.foldl (fun a e =>
    match a with
    | none => some e
    | some b => if e.2.pinOrder < b.2.pinOrder then some e else some b) (none : Option (Nat × Line))).map (·.1)

/-- R68: a thirteenth pin in a set first probes the owner of the earliest-pinned line to invalidate. -/
def pinRoom (s : State) (g : Nat) : Bool × State :=
  let ps := (setLines s g).filter fun e => pinned e.2 && e.1 != g
  if ps.length < 12 then (true, s)
  else
    match earliestPin ps with
    | some e => grab s e none true
    | none => (true, s)

/-- R49: the record maps the byte at a virtual address. -/
def mapsVa (r : MoorRec) (v : Nat) : Bool :=
  let d := v - r.gbase
  let i := if r.rows = 1 then 0 else d / r.stride
  let q := d - i * r.stride
  decide (r.gbase ≤ v) && decide (i < r.rows) && decide (q / r.esize < r.epr) && decide (r.foff ≤ q % r.esize)
    && decide (q % r.esize < r.foff + r.fsize)

/-- The mooring maps only part of a home line, so ownership pins it (R55). -/
def partialMap (m : Mooring) (x : MLine) (g : Nat) : Bool :=
  match x.map.find? fun p => p.2 / 128 == g with
  | some p =>
    let v := moorVa m.mrec (p.1 - m.base) / 128 * 128
    !(List.range 128).all fun i => mapsVa m.mrec (v + i)
  | none => true

/-- The owner's entry: a new pin takes its number (R68), a host line is held for ownership (R330). -/
def setOwner (s : State) (core g : Nat) (pin : Bool) : State :=
  let (n, s1) := freshId s
  let s2 := cxlFetch s1 g true
  updLine s2 g fun l => { dirOwn l core pin with pinOrder := if l.st = .ownp then l.pinOrder else n }

/-- Makes the core the owner of a home line for a moored stash line. False: the line is BUSY. -/
def ownHome (s : State) (core g : Nat) (m : Mooring) (x : MLine) : Bool × State :=
  let (ok, s1) := grab s g (some core) true
  if !ok then (false, s1)
  else
    let pin := partialMap m x g
    let (ok2, s2) := if pin then pinRoom s1 g else (true, s1)
    if !ok2 then (false, s2) else (true, setOwner (fillL2 s2 g (homeAttr x g)) core g pin)

/-- Makes the core a sharer of a home line. -/
def shareHome (s : State) (core g : Nat) (x : MLine) : Bool × State :=
  let l := lineOf s g
  if isOwned l && l.ptrs.contains core then (true, s)
  else
    let (ok, s1) := grab s g (some core) false
    if !ok then (false, s1) else (true, updLine (fillL2 s1 g (homeAttr x g)) g fun l => dirAdd l core)

/-! ## Entries (R50, R54) -/

/-- The lines of an entry. -/
def entryLines (m : Mooring) : List Nat := m.lines.map (·.1)

/-- Drops an entry: its registrations are released. -/
def dropEntry (s : State) (core e : Nat) : State :=
  match mooringOf s core e with
  | none => s
  | some m =>
    let s1 := (entryLines m).foldl (fun s l => mlineToInv s core e l) s
    let c := coreOf s1 core
    setCore s1 core { c with moorings := c.moorings.drop e }

/-- A core's requests to the homes of some lines, with their replies, draw their tokens (R337). -/
def askHomes (s : State) (core : Nat) (gs : List Nat) : State :=
  gs.foldl (fun s g => exchange s (dieOfCore core) (homeDie (128 * g)) (workLaunch s)) s

/-- The slice of a home of a stash line to which the core's request finds no slot, link or token (R78, R332, R338). -/
def homesBusy (s : State) (core : Nat) (x : MLine) : Option Nat :=
  ((mlineHomes x).find? fun g => !sendTo s core (sliceOf (128 * g))).map fun g => sliceOf (128 * g)

/-- Starts the write-back of a DRT line where request slots are free; the acknowledgement leaves it OWN, or INV. -/
def startWriteBack (s : State) (core e l : Nat) (toInv : Bool) : State :=
  let x := mlineOf s core e l
  if x.st = .drt ∧ (homesBusy s core x).isNone = true then
    later (setMLine (askHomes s core (mlineHomes x)) core e l { x with st := .wbk, toInv := toInv }) (.writebackAck core e l)
  else
    match homesBusy s core x with
    | some k => refused s core (dieOfCore core) k
    | none => s

/-- Lines of an entry whose write-back is in flight. -/
def anyWbk (s : State) (core e : Nat) : Bool :=
  match mooringOf s core e with
  | some m => m.lines.any fun l => l.2.st == .wbk
  | none => false

/-- The entry and line that cover a stash byte. Bytes of the extent that the record does not map, in a line with bytes
that it does, belong to the moored line (DESIGN CHOICE, log 74). -/
def mooringAt (s : State) (core o : Nat) : Option (Nat × Nat) :=
  match (coreOf s core).moorings.find? fun e => decide (e.2.base ≤ o) && decide (o < e.2.base + e.2.mrec.extent)
      && decide (o / 128 * 128 < e.2.base + mappedBytes e.2.mrec) with
  | some e => some (e.1, (o - e.2.base) / 128)
  | none => none

/-! ## Touching a moored line (R52, R53) -/

/-- What a touch comes to. -/
inductive Touch where
  | ok (s : State)
  | wait (r : Retry) (s : State)
  | miss (c : Ctx) (va : Nat)
  | fault (x : Xf)

/-- The mapped stash bytes of line l of an entry, with their global addresses. -/
def lineMap (m : Mooring) (l : Nat) : List (Nat × Nat) :=
  ((List.range 128).filter fun i => decide (128 * l + i < mappedBytes m.mrec)).map
    fun i => (m.base + 128 * l + i, moorVa m.mrec (128 * l + i))

/-- A page of a fill, and the rights it must give. -/
def fillPage (s : State) (core : Nat) (m : Mooring) (va : Nat) : Except Touch (Nat × Attr) :=
  match tlbFind s core m.ctx va with
  | none => .error (.miss m.ctx va)
  | some t =>
    if !t.attr.rd || (moorWE m.mrec && !t.attr.wr) then .error (.fault ⟨.accf, 1, va⟩)
    else if t.attr.ord = 1 ∨ isRemote (tlbPa t va) then .error (.fault ⟨.accf, 6, va⟩)
    else .ok (tlbPa t va, t.attr)

/-- The stash bytes of a fill with their physical addresses and the attributes of their pages. -/
def fillMap (s : State) (core : Nat) (m : Mooring) (ps : List (Nat × Nat)) :
    Except Touch (List (Nat × Nat × Attr)) :=
  match ps with
  | [] => .ok []
  | p :: r =>
    match fillPage s core m p.2 with
    | .error t => .error t
    | .ok pa =>
      match fillMap s core m r with
      | .error t => .error t
      | .ok q => .ok ((p.1, pa) :: q)

/-- The stash line of a fill. -/
def fillLine (s : State) (core : Nat) (mp : List (Nat × Nat × Attr)) (rd : List Actor) : MLine :=
  let gs := (mp.map fun p => p.2.1 / 128).eraseDups
  ⟨.fill, .none, false, mp.map fun p => (p.1, p.2.1), gs.map fun g =>
    ⟨g, ((mp.find? fun p => p.2.1 / 128 == g).map fun p => p.2.2).getD plainAttr, genOf s (sliceOf (128 * g)) core⟩, rd⟩

/-- Registers the core at the homes of a fill. False: a home line is BUSY. -/
def fillHomes (s : State) (core : Nat) (m : Mooring) (x : MLine) (gs : List Nat) : Option Nat × State :=
  match gs with
  | [] => (none, s)
  | g :: r =>
    let (ok, s1) :=
      if moorRof m.mrec then grab s g (some core) false
      else if moorRegm m.mrec = 1 then ownHome s core g m x
      else shareHome s core g x
    if !ok then (some g, s1) else fillHomes s1 core m x r

/-- The lowest mapped global address of line l that lies in home line g. -/
def fillVa (m : Mooring) (l : Nat) (x : MLine) (g : Nat) : Nat :=
  match ((lineMap m l).zip x.map).find? fun q => q.2.2 / 128 == g with
  | some q => q.1.2
  | none => m.mrec.gbase

/-- R53: the first touch of a line in INV. The bytes are read at the homes when the fill is registered there; those of a
snapshot are the newest of the values that R58 allows (DESIGN CHOICE, log 71). -/
def startFill (s : State) (core e l : Nat) (m : Mooring) (wr : Bool) : Touch :=
  match fillMap s core m (lineMap m l) with
  | .error t => t
  | .ok mp =>
    let x := fillLine s core mp (if wr then [] else [s.actor])
    match (mlineHomes x).find? (poisoned s) with
    | some g => .fault ⟨.poison, 0, fillVa m l x g⟩
    | none =>
      match homesBusy s core x with
      | some k => .wait (.slots k) (refused s core (dieOfCore core) k)
      | none =>
      match fillHomes s core m x (mlineHomes x) with
      | (some g, s1) => .wait (.line g) s1
      | (none, s1) =>
        let s2 := x.map.foldl (fun s p => writePlace s (.stash core p.1) [byteAt s (linePlace p.2)]) s1
        .wait (.fill core e l wr)
          (later (setMLine (askHomes s2 core (mlineHomes x)) core e l x) (.mooringFillLand core e l))

/-- SHR to OWN at every contributing home. -/
def upgradeHomes (s : State) (core : Nat) (m : Mooring) (x : MLine) (gs : List Nat) : Option Nat × State :=
  match gs with
  | [] => (none, s)
  | g :: r =>
    let (ok, s1) := ownHome s core g m x
    if !ok then (some g, s1) else upgradeHomes s1 core m x r

/-- A read waits for the fill of a line. -/
def addReader (s : State) (core e l : Nat) : State :=
  let x := mlineOf s core e l
  if x.readers.contains s.actor then s else setMLine s core e l { x with readers := x.readers ++ [s.actor] }

/-- A read that waited for the fill has been served. -/
def dropReader (s : State) (core e l : Nat) : State :=
  let x := mlineOf s core e l
  if x.readers.isEmpty then s else setMLine s core e l { x with readers := x.readers.filter (· != s.actor) }

/-- R52: an access to a moored line. -/
def touchLine (s : State) (core e l va : Nat) (wr : Bool) : Touch :=
  match mooringOf s core e with
  | none => .ok s
  | some m =>
    let x := mlineOf s core e l
    let denied := wr && (!moorWE m.mrec || moorRof m.mrec)
    match x.st with
    | .inv => startFill s core e l m wr
    | .fill => .wait (.fill core e l wr) (if wr then s else addReader s core e l)
    | .shr =>
      if denied then .fault ⟨.accf, 4, va⟩
      else if x.kept != .none && (wr || !x.readers.contains s.actor) then .wait (.fill core e l wr) s
      else if !wr then .ok (dropReader s core e l)
      else
        match homesBusy s core x with
        | some k => .wait (.slots k) (refused s core (dieOfCore core) k)
        | none =>
          match upgradeHomes s core m x (mlineHomes x) with
          | (some g, s1) => .wait (.line g) s1
          | (none, s1) => .ok (setMLine (askHomes s1 core (mlineHomes x)) core e l { x with st := .drt })
    | .own =>
      if denied then .fault ⟨.accf, 4, va⟩
      else if wr then .ok (setMLine s core e l { x with st := .drt })
      else .ok s
    | .drt => .ok s
    | .wbk => if wr then .wait (.fill core e l wr) s else .ok s
    | .snp => if wr then .fault ⟨.accf, 4, va⟩ else .ok s

/-- The moored lines that `n` stash bytes at `o` touch. -/
def touchedLines (s : State) (core o n : Nat) : List (Nat × Nat) :=
  ((List.range n).filterMap fun i => mooringAt s core (o + i)).eraseDups

def touchAll (s : State) (core va : Nat) (wr : Bool) (ls : List (Nat × Nat)) : Touch :=
  match ls with
  | [] => .ok s
  | p :: r =>
    match touchLine s core p.1 p.2 va wr with
    | .ok s1 => touchAll s1 core va wr r
    | t => t

/-- The physical address of the global byte that a stash byte maps (R49, R92); none for private scratch. -/
def mappedPa (s : State) (core o : Nat) : Option Nat :=
  match mooringAt s core o with
  | none => none
  | some p => ((mlineOf s core p.1 p.2).map.find? fun q => q.1 == o).map (·.2)

/-- The physical addresses that `n` stash bytes at `o` map. -/
def mappedPas (s : State) (core o n : Nat) : List Nat := (List.range n).filterMap fun i => mappedPa s core (o + i)

/-- A version of a line under some capsule step (R278). -/
def versioned (s : State) (g : Nat) : Bool := s.versions.any fun v => v.line == g

/-- An access of `n` stash bytes of a core. A write of a byte of a versioned line waits (R101, R278). -/
def touchStash (s : State) (core o n va : Nat) (wr : Bool) : Touch :=
  match touchAll s core va wr (touchedLines s core o n) with
  | .ok s1 =>
    if wr then
      match (mappedPas s1 core o n).find? fun pa => versioned s1 (pa / 128) with
      | some pa => .wait (.version (pa / 128)) s1
      | none => .ok s1
    else .ok s1
  | t => t

/-! ## What a stash store does beside its bytes (R62, R89, R92) -/

/-- The key under which the marks of a stash byte stand: its own, or that of the global byte that it maps. -/
def stashKey (s : State) (core o : Nat) : Nat :=
  match mappedPa s core o with
  | some pa => placeKey (linePlace pa)
  | none => placeKey (.stash core o)

/-- A moored store takes a write time at the homes of its bytes; a host line is then Modified (R62, R92, R330). -/
def mooredTw (s : State) (core o n t : Nat) : Nat × State :=
  ((mappedPas s core o n).map (· / 128)).eraseDups.foldl (fun a g =>
    let (tw, s1) := takeTw a.2 g t
    (max a.1 tw, if (lineOf s1 g).cxl = .exclusive then updLine s1 g fun l => { l with cxl := .modified } else s1)) (t, s)

/-- A plain store of stash bytes, its lines ready. `t` is the writer's T; the result is T as it then is. -/
def stashPut (s : State) (core o : Nat) (bs : List Byte) (t : Nat) : Nat × State :=
  let (tw, s1) := mooredTw s core o bs.length t
  (tw, plainMarks (writePlace s1 (.stash core o) bs) ((List.range bs.length).map fun i => stashKey s1 core (o + i)))

end Sys2Proof.Machine
end

