-- ==== Sys2Proof/Machine/Access.lean ====
section
/-! DEFINITION. Loads and stores of a crew: scopes and what reads synchronise with, the order of a lane's accesses, the
L1 partitions and leases, stores on their way to their homes, the stash windows (R44 to R47, R60 to R62, R80 to R92,
R186 to R192, R278). -/

namespace Sys2Proof.Machine

/-! ## Logical time (R62) -/

/-- T of a crew. -/
def crewT (s : State) (y : Crew) : Nat := s.clock + y.tBase - y.tLag

/-- T := max(T, t). -/
def raiseT (s : State) (b c t : Nat) : State :=
  updCrew s b c fun y => { y with tBase := max (crewT s y) t + y.tLag - s.clock }

/-- T of a crew by number. -/
def timeOf (s : State) (b c : Nat) : Nat :=
  match crewOf s b c with
  | some y => crewT s y
  | none => s.clock

/-! ## Scopes (R80) -/

/-- The scopes in the order in which each contains the one before. -/
def scopeNo (sc : Scope) : Nat :=
  match sc with
  | .crew => 0
  | .blk => 1
  | .flt => 2
  | .dev => 3
  | .sys => 4

/-- The party that a crew is. -/
def partyOf (s : State) (b c : Nat) : Party :=
  match s.blocks.find b with
  | some x => .crew x.launch x.fleet b c
  | none => .device

/-- The number of the smallest scope within which two parties are. -/
def jointScope (a b : Party) : Nat :=
  match a, b with
  | .crew l f k c, .crew l' f' k' c' =>
    if l ≠ l' ∨ f ≠ f' then 3 else if k ≠ k' then 2 else if c ≠ c' then 1 else 0
  | .outside, _ => 4
  | _, .outside => 4
  | _, _ => 3

/-- R80: two parties are within a scope. -/
def within (sc : Scope) (a b : Party) : Bool := decide (jointScope a b ≤ scopeNo sc)

/-! ## What a read synchronises with (R89) -/

/-- The marks of bytes, by key. -/
def marksAt (s : State) (keys : List Nat) : List Mark :=
  if s.marks.isEmpty then [] else keys.flatMap fun k => s.marks.getD k []

/-- The greatest write time that a reader's acquire at a scope acquires. -/
def synced (me : Party) (sc : Scope) (ms : List Mark) : Nat :=
  (ms.filter fun m => m.cur && within m.scope m.party me && within sc m.party me).foldl (fun t m => max t m.tw) 0

/-- The key of a lane and a scope's number. -/
def laneScope (l n : Nat) : Nat := 8 * l + n

/-- What lanes have read of releases, for their later fences. -/
def seeMarks (m : Mask) (me : Party) (ms : List Mark) (y : Crew) : Crew :=
  (ms.filter fun x => x.cur && within x.scope x.party me).foldl (fun y x =>
    { y with seen := (lanesOf m).foldl (fun t l =>
        let k := laneScope l (jointScope x.party me)
        t.put k (max (t.getD k 0) x.tw)) y.seen }) y

/-- The write time that a fence of a scope acquires for its lanes. -/
def fenceSeen (y : Crew) (m : Mask) (sc : Scope) : Nat :=
  ((lanesOf m).flatMap fun l => (List.range (scopeNo sc + 1)).map fun n => y.seen.getD (laneScope l n) 0).foldl max 0

/-- A fence of a scope by lanes at time `t`. -/
def noteFence (m : Mask) (sc : Scope) (t : Nat) (y : Crew) : Crew :=
  { y with fences := (lanesOf m).foldl (fun f l => f.put (laneScope l (scopeNo sc)) t) y.fences }

def scopeOfNo (n : Nat) : Scope :=
  match n with
  | 0 => .crew
  | 1 => .blk
  | 2 => .flt
  | 3 => .dev
  | _ => .sys

/-- The releases that a write of lanes carries: its own at a scope, and those of fences that precede it. -/
def relsOf (y : Crew) (m : Mask) (sem : Option Scope) (t : Nat) : List Release :=
  (match sem with
   | some sc => [⟨m, sc, t⟩]
   | none => []) ++
    (y.fences.filter fun e => m.getLsbD (e.1 / 8)).map fun e => ⟨laneBit (e.1 / 8), scopeOfNo (e.1 % 8), e.2⟩

/-- The releases of the lane whose value remains in a byte are marked there. -/
def markRels (s : State) (me : Party) (key lane tw : Nat) (rs : List Release) : State :=
  (rs.filter fun r => r.lanes.getLsbD lane).foldl (fun s r => markBytes s [key] ⟨me, r.scope, max r.tw tw, true⟩) s

/-! ## Pieces of an access -/

/-- An access cut at 128-byte boundaries, which no page boundary crosses. -/
def segments (va n : Nat) : List (Nat × Nat) :=
  if va % 128 + n ≤ 128 then [(va, n)]
  else [(va, 128 - va % 128), (va + (128 - va % 128), n - (128 - va % 128))]

/-- A piece of an access whose page is known. -/
structure Seg where
  va : Nat
  n : Nat
  pa : Nat
  attr : Attr
  deriving DecidableEq, Repr

/-- The pieces of a global access, translated; a miss waits and a fault is precise. -/
def segsE (h : Here) (va n : Nat) (r : Right) (kind : Nat) : Exec (List Seg) :=
  (segments va n).mapM fun p => do
    let t ← pageE h p.1 r kind
    pure ⟨p.1, p.2, tlbPa t p.1, t.attr⟩

/-- R81: an access that is single-copy atomic. -/
def singleCopy (va n : Nat) : Bool := (n == 1 || n == 2 || n == 4 || n == 8) && va % n == 0

/-! ## Requests on their way (R188, R230) -/

/-- A request that its home has not performed whole. -/
def openReq (r : Req) : Bool :=
  match r.st with
  | .answered => false
  | _ => true

/-- A request of lanes of the crew that has not been answered. -/
def outstanding (s : State) (b c : Nat) (m : Mask) : Bool :=
  s.reqs.any fun e => e.2.blk == b && e.2.crew == c && e.2.mask &&& m != 0

/-- A byte that an access touches: its address, the lanes whose access it is, and the ordering kind of its page; a virtual
address while the page is not known. -/
structure Acc where
  addr : Nat
  lanes : Mask
  ord : Nat
  virt : Bool
  deriving DecidableEq, Repr

/-- The lanes that store a byte. -/
def storeLanes (r : Req) (addr : Nat) : Mask := Table.getD r.lanes (addr % 128) 0

/-! A stash byte stands in a request under an address of its own, above every physical one; a moored one stands for the
global byte that it maps as well (R92). -/

def stashPa (core o : Nat) : Nat := 2 ^ 56 + core * 2 ^ 24 + o

def isStashPa (a : Nat) : Bool := decide (2 ^ 56 ≤ a)

def stashPaCore (a : Nat) : Nat := (a - 2 ^ 56) / 2 ^ 24

def stashPaOff (a : Nat) : Nat := a % 2 ^ 24

/-- The accesses to stash bytes, and those to the global bytes that they map. -/
def withAlias (maps : List (Nat × Nat)) (xs : List Acc) : List Acc :=
  xs ++ xs.filterMap fun x => (Table.find maps x.addr).map fun pa => { x with addr := pa }

/-- The bytes of a request that are not yet performed. -/
def reqAccs (r : Req) : List Acc :=
  withAlias r.mapsTo (match r.kind with
  | .store _ gs a _ => gs.flatten.map fun p => ⟨p.1, storeLanes r p.1, a.ord, r.virt⟩
  | .load ps _ _ _ _ => ps.flatMap fun p => (List.range p.n).map fun i => ⟨p.pa + i, p.lanes, p.attr.ord, false⟩
  | .red ps _ => ps.flatMap fun p => (List.range p.n).map fun i => ⟨p.pa + i, laneBit p.lane, p.attr.ord, false⟩)

def isStoreReq (r : Req) : Bool :=
  match r.kind with
  | .store _ _ _ _ => true
  | .load _ _ _ _ _ | .red _ _ => false

/-- The request is an acquire (R88). -/
def isAcquire (r : Req) : Bool :=
  match r.kind with
  | .load _ _ _ _ (some _) => true
  | _ => false

/-- Two accesses may be to one byte; with an address not yet translated, when their places in a page agree. -/
def sameByte (a b : Acc) : Bool :=
  if (a.virt || b.virt) && !isStashPa a.addr && !isStashPa b.addr then a.addr % 4096 == b.addr % 4096 else a.addr == b.addr

/-- R83, R85: an access of request `e` and a later one are to one byte and keep their order. -/
def byteOrder (e : Req) (a b : Acc) : Bool :=
  sameByte a b && !(a.ord == 2 && b.ord == 2 && e.fenced &&& a.lanes &&& b.lanes == 0)

/-- R84: two accesses are, or may be, both strongly ordered. -/
def soOrder (a b : Acc) : Bool := (a.ord == 1 || a.virt) && (b.ord == 1 || b.virt)

/-- R88: an access of request `e` is ordered before a later access of the same lane. -/
def orderedBefore (e : Req) (a b : Acc) : Bool :=
  a.lanes &&& b.lanes != 0 && (byteOrder e a b || soOrder a b || isAcquire e)

/-- An earlier request of the crew that this one must follow. Parts of one store have no order (R81, R86). -/
def mustFollow (s : State) (n : Nat) (r : Req) : Bool :=
  s.reqs.any fun e =>
    decide (e.1 < n) && e.2.blk == r.blk && e.2.crew == r.crew && openReq e.2
      && !(isStoreReq e.2 && isStoreReq r && e.2.entry == r.entry)
      && (reqAccs e.2).any fun a => (reqAccs r).any fun b => orderedBefore e.2 a b

/-- A store whose byte a later load of the lane reads before it is performed: the byte's address is known. -/
def forwards (e : Req) (a b : Acc) (va : Nat) : Bool :=
  isStoreReq e && e.homed && b.ord != 1 && (if a.virt then a.addr == va else a.addr == b.addr)

/-- An access that is to be performed at once must wait for an earlier request; `va` is the virtual address of its byte
when it is a load, which may read the lane's own store on its way. -/
def mustWait (s : State) (b c : Nat) (va : Option Nat) (x : Acc) : Bool :=
  s.reqs.any fun e =>
    e.2.blk == b && e.2.crew == c && openReq e.2 && (reqAccs e.2).any fun a =>
      a.lanes &&& x.lanes != 0 && (isAcquire e.2 || soOrder a x ||
        (byteOrder e.2 a x && match va with
          | some v => !forwards e.2 a x v
          | none => true))

/-- The accesses of `n` bytes from an address. -/
def accsOf (pa n ord : Nat) (m : Mask) : List Acc := (List.range n).map fun i => ⟨pa + i, m, ord, false⟩

/-- An access other than a load waits until those of its lanes that come before it are performed. -/
def orderE (h : Here) (m : Mask) (xs : List Acc) : Exec Unit := do
  let s ← getE
  if xs.any (mustWait s h.b h.c none) then waitE h (.retry (.drain m))

/-- A load of `n` bytes likewise; it may read its lane's own stores on their way. -/
def orderLoadE (h : Here) (m : Mask) (va pa n ord : Nat) : Exec Unit := do
  let s ← getE
  if (List.range n).any fun i => mustWait s h.b h.c (some (va + i)) ⟨pa + i, m, ord, false⟩ then
    waitE h (.retry (.drain m))

/-- An earlier acquire of the lanes is still to be performed (R88). -/
def acquireOut (s : State) (b c : Nat) (m : Mask) : Bool :=
  s.reqs.any fun e => e.2.blk == b && e.2.crew == c && openReq e.2 && isAcquire e.2 && e.2.mask &&& m != 0

def afterAcquireE (h : Here) (m : Mask) : Exec Unit := do
  let s ← getE
  if acquireOut s h.b h.c m then waitE h (.retry (.drain m))

/-- The last of some bytes at an address, if one is there. -/
def lastAt (bs : List (Nat × Byte)) (a : Nat) : Option Byte :=
  bs.foldl (fun o p => if p.1 = a then some p.2 else o) none

/-- The byte that the lane's own stores on their way leave at an address (R83); on an unordered page only those from
before its last acquire (R85). -/
def ownByte (s : State) (b c : Nat) (m : Mask) (ord pa va : Nat) : Option Byte :=
  s.reqs.foldl (fun o e =>
    match e.2.kind with
    | .store _ gs a _ =>
      if e.2.blk = b ∧ e.2.crew = c ∧ openReq e.2 = true
          ∧ storeLanes e.2 pa &&& m ≠ 0 ∧ ¬(a.ord = 2 ∧ ord = 2 ∧ e.2.fenced &&& m = 0) then
        (match lastAt gs.flatten (if e.2.virt then va else pa) with
         | some x => some x
         | none => o)
      else o
    | _ => o) none

def isRedReq (r : Req) : Bool :=
  match r.kind with
  | .red _ _ => true
  | .load _ _ _ _ _ | .store _ _ _ _ => false

/-- The crew has a store to the line that its home has not yet performed. -/
def pendingLine (s : State) (b c g : Nat) : Bool :=
  s.reqs.any fun e => e.2.blk == b && e.2.crew == c && openReq e.2 && (isStoreReq e.2 || isRedReq e.2)
    && (e.2.virt || (reqAccs e.2).any fun a => a.addr / 128 == g)

/-- R61: a store that the crew issued before its last `FENCE.ro` is not yet performed on the line. -/
def unseenLine (s : State) (b c g : Nat) (mark : Nat) : Bool :=
  pendingLine { s with reqs := s.reqs.filter fun e => decide (e.1 < mark) } b c g

/-- The last byte stored at an address, or the one given. -/
def overlay (bs : List (Nat × Byte)) (pa : Nat) (old : Byte) : Byte := (lastAt bs pa).getD old

/-- The request stands in the pending-store list of a dock image (R231). -/
def onImage (s : State) (r : Req) : Bool :=
  match s.blocks.find r.blk with
  | some x => x.st == .saved
  | none => true

/-- The store-origin entry of a capsule store on its way from a core. -/
def capEntry (s : State) (core : Nat) (m : CapMsg) : Option Nat :=
  match m.kind, s.blocks.find m.blk with
  | .store _ _ _ n, some x => if x.core = core ∧ x.st ≠ .saved then some n else none
  | _, _ => none

/-- Store-origin entries of a core in use. -/
def originsUsed (s : State) (core : Nat) : Nat :=
  (((s.reqs.filter fun e => e.2.core == core && !onImage s e.2 && isStoreReq e.2 && e.2.homed).map fun e => e.2.entry)
    ++ s.capMsgs.filterMap fun e => capEntry s core e.2).eraseDups.length

/-- The executing lane's own version of a line, merged with its stores on their way (R278). -/
def ownVersion (s : State) (b c : Nat) (h : Holding) : List (Nat × Byte) :=
  (s.versions.filter fun v => v.record == h.line && v.gen == h.gen && v.step == h.step && v.exec == h.exec).flatMap
      (fun v => v.bytes)
    ++ s.capMsgs.flatMap fun e =>
      match e.2.kind with
      | .store _ bs _ _ => if e.2.blk = b ∧ e.2.crew = c ∧ e.2.gen = h.gen ∧ e.2.step = h.step then bs else []
      | _ => []

/-! ## Acquires -/

/-- Lines read ahead are forgotten. -/
def forgetLines (gs : List Nat) (y : Crew) : Crew :=
  { y with glimpses := y.glimpses.filter fun e => !gs.contains e.1 }

/-- An acquire by lanes: T rises, the lanes' stores on unordered pages keep their order with later accesses
(R62, R85), and what was read ahead of it no longer serves (R88, R90). -/
def acquireAt (s : State) (b c : Nat) (m : Mask) (t : Nat) : State :=
  let s1 := { s with reqs := s.reqs.map fun e =>
      if e.2.blk = b ∧ e.2.crew = c then (e.1, { e.2 with fenced := e.2.fenced ||| (e.2.mask &&& m) }) else e }
  raiseT (updCrew s1 b c fun y => { y with glimpses := [] }) b c t

/-- How a load reads: plainly, as an acquire at a scope, or by the read-only path. -/
inductive LoadMode where
  | plain | acq (sc : Scope) | ro
  deriving DecidableEq, Repr

/-- What reading marked bytes does to the reader: it acquires at once, or its later fences may. -/
def readMarks (s : State) (b c : Nat) (m : Mask) (md : LoadMode) (ms : List Mark) : State :=
  let me := partyOf s b c
  match md with
  | .ro => s
  | .plain => if ms.isEmpty then s else updCrew s b c (seeMarks m me ms)
  | .acq sc => acquireAt (if ms.isEmpty then s else updCrew s b c (seeMarks m me ms)) b c m (synced me sc ms)

/-! ## Reading a line at its home -/

/-- A request of the issuing word finds a slot on every hop, links and a token, or the word waits (R78, R332, R338). -/
def sendE (h : Here) (pa : Nat) : Exec Unit := do
  let s ← getE
  let slice := sliceOf pa
  if !sendTo s h.blk.core slice then
    modifyE fun s => refused s h.blk.core (dieOfCore h.blk.core) slice
    waitE h (.retry (.slots slice))

/-- The word's request and its reply have drawn their tokens (R337, R341). -/
def sentBy (h : Here) (pa : Nat) (s : State) : State :=
  exchange s (dieOfCore h.blk.core) (homeDie pa) (some h.blk.launch)

/-- A line's newest bytes at home; it waits while the line is BUSY and while no request slot is free or no link leads to
it (R78, R332), and faults on poison. -/
def homeLineE (h : Here) (g va kind : Nat) (a : Attr) : Exec (List Byte) := do
  sendE h (128 * g)
  let s ← getE
  let (ok, s1) := grab s g none false
  modifyE fun _ => s1
  if !ok then waitE h (.retry (.line g))
  else if poisoned s1 g then faultE h .poison 0 (BitVec.ofNat 64 va) kind
  else
    modifyE fun s => fillL2 (sentBy h (128 * g) s) g a
    pure (readPlace s1 (linePlace (128 * g)) 128)

/-! ## The L1 (R60 to R62) -/

def insertLease (s : State) (core g : Nat) (x : LeaseLine) : State :=
  let c := coreOf s core
  if (c.leases.find g).isSome || decide (c.leases.length < Config.leaseLines) then
    setCore s core { c with leases := c.leases.put g x }
  else
    let (k, s1) := freeChoice s c.leases.length
    setCore s1 core { c with leases := Table.put (c.leases.eraseIdx k) g x }

def insertRo (s : State) (core g : Nat) (x : RoLine) : State :=
  let c := coreOf s core
  if (c.readOnly.find g).isSome || decide (c.readOnly.length < Config.readOnlyLines) then
    setCore s core { c with readOnly := c.readOnly.put g x }
  else
    let (k, s1) := freeChoice s c.readOnly.length
    setCore s1 core { c with readOnly := Table.put (c.readOnly.eraseIdx k) g x }

/-- The marks of the 128 bytes from a key on, by offset. -/
def keyMarks (s : State) (k : Nat) : List (Nat × List Mark) :=
  (s.marks.filter fun e => decide (k ≤ e.1 ∧ e.1 < k + 128)).map fun e => (e.1 - k, e.2)

/-- The marks of a line's bytes, by offset. -/
def lineMarks (s : State) (g : Nat) : List (Nat × List Mark) := keyMarks s (placeKey (linePlace (128 * g)))

/-- R90: what was read ahead of `n` bytes at an address: a plain load may still give it (free). -/
def glimpseE (h : Here) (md : LoadMode) (pa n : Nat) : Exec (Option (List Byte × List Mark)) := do
  let y ← crewE h
  match y.glimpses.find (pa / 128) with
  | none => pure none
  | some x =>
    if md ≠ .plain ∨ 128 < pa % 128 + n then pure none
    else fun s =>
      let (k, s1) := freeChoice s 2
      .ok (if k = 0 then none else some ((x.data.drop (pa % 128)).take n,
        (x.marks.filter fun e => decide (pa % 128 ≤ e.1 ∧ e.1 < pa % 128 + n)).flatMap (·.2)), s1)

/-- A line comes into a core's lease partition for a reader at time `t`: its lease runs for the context's length. -/
def leaseFill (s : State) (core g t len : Nat) (d : List Byte) : State :=
  let le := max (lineLE s g) (t + len)
  let (n, s1) := freshId s
  insertLease (raiseLE s1 g le) core g ⟨d, le, lineW s g, n, lineMarks s g⟩

/-- A copy serves a crew while its T is at most the stamp (R62), unless it was filled before the crew came to the core
(R104). -/
def leaseHit (s : State) (core g : Nat) (y : Crew) : Option LeaseLine :=
  match (coreOf s core).leases.find g with
  | some x => if crewT s y ≤ x.stamp ∧ y.leaseMark ≤ x.order then some x else none
  | none => none

/-- The marks of bytes of a leased copy. -/
def copyMarks (x : LeaseLine) (off n : Nat) : List Mark :=
  (x.marks.filter fun e => decide (off ≤ e.1 ∧ e.1 < off + n)).flatMap (·.2)

/-- A line through the lease partition: a copy serves while T is at most its stamp, else it is renewed. -/
def leaseLineE (h : Here) (g va kind : Nat) (a : Attr) : Exec LeaseLine := do
  let s ← getE
  let y ← crewE h
  match leaseHit s h.blk.core g y with
  | some x => pure x
  | none => do
    let d ← homeLineE h g va kind a
    modifyE fun s => leaseFill s h.blk.core g (crewT s y) (leaseLen s (ctxOf s h.blk)) d
    let s ← getE
    pure (((coreOf s h.blk.core).leases.find g).getD ⟨d, 0, 0, 0, []⟩)

/-- A line through the read-only partition (R61). -/
def roLineE (h : Here) (g va kind : Nat) (a : Attr) : Exec (List Byte) := do
  let s ← getE
  let y ← crewE h
  let start := match launchHere s h with
    | some l => l.startAt
    | none => 0
  let hit := match (coreOf s h.blk.core).readOnly.find g with
    | some x => if start ≤ x.filledAt ∧ y.roMark ≤ x.filledAt then some x.data else none
    | none => none
  match hit with
  | some d => pure d
  | none => do
    let d ← homeLineE h g va kind a
    let s ← getE
    let (n, s1) := freshId s
    modifyE fun _ => insertRo s1 h.blk.core g ⟨d, n⟩
    pure d

/-! ## Remote accesses (R333, R335) -/

/-- The route table's entry of the module that a remote window names (R333, R346). -/
def routeEntry (s : State) (pa : Nat) : Nat :=
  match remotePlace s pa false with
  | some (.remote m _) => devAt s (nfield s.regs.fabcfg.toNat 14 38 * 2 ^ 14 + 4 * m) 4
  | _ => 0

/-- R7: the entry's bits that must be zero are zero. Over one in which a bit is not, no request leaves, and none is answered
(DESIGN CHOICE, log 82). -/
def routeOk (s : State) (pa : Nat) : Bool := routeEntry s pa / 2 ^ 7 == 0

/-- The way out of the module: from the quay island of the die where the window's line is homed into the fibre group
that the route table gives (which island a group begins at is not stated: DESIGN CHOICE, log 82). -/
def fibreHop (s : State) (pa : Nat) : Nat × Nat := (194 + homeDie pa, 1024 + routeEntry s pa % 2 ^ 7)

/-- The hops of a core's request to another module. -/
def remoteHops (s : State) (core pa : Nat) : List (Nat × Nat) := coreHops core (sliceOf pa) ++ [fibreHop s pa]

/-- A request to another module waits for a slot on every hop. -/
def remoteSlotsE (h : Here) (pa : Nat) : Exec Unit := do
  sendE h pa
  let s ← getE
  if !(remoteHops s h.blk.core pa).all (hopFree s) then waitE h (.retry (.slots (sliceOf pa)))

/-- The request that an actor has on its way for an address. -/
def remoteOut (s : State) (who : Actor) (va : Nat) : Option Nat :=
  (s.remotes.find? fun e => e.2.who == who && e.2.addr.toNat == va).map (·.1)

/-- How the step's request for an address ended: answered, given up, or not yet at all. One that has not set out may be answered
at once (free). -/
def remoteFate (s : State) (pa va : Nat) : Option Bool × State :=
  match s.remoteEnds.find? fun e => e.who == s.actor && e.va == va with
  | some e => (some e.ok, s)
  | none =>
    if (remoteOut s s.actor va).isSome then (none, s)
    else
      let (k, s1) := freeChoice s 2
      (if k = 0 ∧ routeOk s pa = true then some true else none, s1)

/-- A request to another module runs towards its time-outs: its number. -/
def askRemote (s : State) (req : Option Nat) (kind pa va : Nat) (act : Mask) (hops : List (Nat × Nat)) : Nat × State :=
  match remoteOut s s.actor va with
  | some id => (id, s)
  | none =>
    let (id, s1) := freshId s
    let x : Remote := ⟨0, s1.clock, req, s.actor, kind, BitVec.ofNat 64 va, act, hops, routeOk s pa⟩
    (id, later { s1 with remotes := s1.remotes.put id x } (.remoteTimeout id))

/-- The slot waits for the answer of another module. -/
def awaitRemote (s : State) (h : Here) (kind pa va : Nat) : State :=
  let (id, s1) := askRemote s none kind pa va h.act (remoteHops s h.blk.core pa)
  waitSlot s1 h (.remote id)

/-- The remote module answers the slot, or the request runs towards its time-outs (free). -/
def remoteAnswerE (h : Here) (pa va kind : Nat) : Exec Unit := do
  remoteSlotsE h pa
  let s ← getE
  match remoteFate s pa va with
  | (some true, s1) => modifyE fun _ => sentBy h pa s1
  | (some false, _) => faultE h .poison 0 (BitVec.ofNat 64 va) kind
  | (none, s1) => stopWith fun _ => awaitRemote s1 h kind pa va

/-! ## Loads (R186) -/

/-- What the loading lane's own capsule step has stored in bytes that it reads (R278). -/
def versionBytes (s : State) (h : Here) (y : Crew) : List (Nat × Byte) :=
  match y.holding with
  | some k => if inCapsule h.crew (hMask h) then ownVersion s h.b h.c k else []
  | none => []

/-- Bytes read at home or in a copy, under the lane's own stores. -/
def ownOver (s : State) (h : Here) (m : Mask) (md : LoadMode) (x : Seg) (ver : List (Nat × Byte)) (d : List Byte) :
    List Byte :=
  (List.range x.n).map fun i =>
    let old := d.getD i 0
    if md = .ro then old
    else overlay ver (x.pa + i) ((ownByte s h.b h.c m x.attr.ord (x.pa + i) (x.va + i)).getD old)

/-- The bytes of one piece of a load of the lanes `m`. -/
def loadSegE (h : Here) (m : Mask) (kind : Nat) (md : LoadMode) (x : Seg) : Exec (List Byte) := do
  if md ≠ .ro ∨ x.attr.ord = 1 then orderLoadE h m x.va x.pa x.n x.attr.ord else afterAcquireE h m
  let s ← getE
  let y ← crewE h
  let g := lineNo x.pa
  let off := x.pa % 128
  let keys := (List.range x.n).map fun i => placeKey (linePlace (x.pa + i))
  let ver := if md = .ro then [] else versionBytes s h y
  if isRemote x.pa then
    match remotePlace s x.pa false with
    | none => faultE h .accf 8 (BitVec.ofNat 64 x.va) kind
    | some p => do
      remoteAnswerE h x.pa x.va kind
      let s ← getE
      let d := readPlace s p x.n
      modifyE fun s => readMarks s h.b h.c m md (marksAt s ((List.range x.n).map fun i => placeKey p + i))
      pure (ownOver s h m md x ver d)
  else if x.attr.ord = 1 then do
    let d ← homeLineE h g x.va kind x.attr
    let s ← getE
    modifyE fun s => readMarks s h.b h.c m md (marksAt s keys)
    pure (ownOver s h m md x ver (d.drop off))
  else if md = .ro then do
    if unseenLine s h.b h.c g y.roMark then waitE h (.retry (.drain (BitVec.allOnes 32)))
    let d ← roLineE h g x.va kind x.attr
    pure ((d.drop off).take x.n)
  else do
    match ← glimpseE h md x.pa x.n with
    | some (d, ms) =>
      modifyE fun s => readMarks s h.b h.c m md ms
      pure (ownOver s h m md x ver d)
    | none => do
      let c ← leaseLineE h g x.va kind x.attr
      updCrewE h (forgetLines [g])
      let s ← getE
      modifyE fun s => readMarks s h.b h.c m md (copyMarks c off x.n)
      pure (ownOver s h m md x ver (c.data.drop off))

/-- What a touch of a moored line comes to for the issuing word. -/
def touchE (h : Here) (kind : Nat) (t : State → Touch) : Exec Unit := do
  let s ← getE
  match t s with
  | .ok s1 => modifyE fun _ => s1
  | .wait r s1 => stopWith fun _ => waitSlot s1 h (.retry r)
  | .miss c va =>
    stopWith fun s =>
      let (n, s1) := startWalk s (dieOfCore h.blk.core) c va
      waitSlot s1 h (.walk n kind (BitVec.ofNat 64 va) h.act)
  | .fault x => faultE h x.cause x.code (BitVec.ofNat 64 x.addr) kind

/-- A modified stash line is written back and acknowledged; it becomes OWN. -/
def flushLine (s : State) (core e l : Nat) : State :=
  let x := mlineOf s core e l
  setMLine (mergeMasked s core x) core e l { x with st := if x.toInv then .inv else .own, toInv := false }

/-- The requests of stash lines to their homes find slots, links and tokens, or the word waits (R78, R332, R338). -/
def homesE (h : Here) (core : Nat) (xs : List MLine) : Exec Unit := do
  let s ← getE
  match xs.findSome? (homesBusy s core) with
  | some k => do
    modifyE fun s => refused s core (dieOfCore core) k
    waitE h (.retry (.slots k))
  | none => modifyE fun s => xs.foldl (fun s x => askHomes s core (mlineHomes x)) s

/-- The write-backs of stash lines wait for the versions of their home lines (R278), and for request slots (R78). -/
def flushE (h : Here) (core : Nat) (ls : List (Nat × Nat)) : Exec Unit := do
  let s ← getE
  match (ls.flatMap fun p => mlineHomes (mlineOf s core p.1 p.2)).find? (versioned s) with
  | some g => waitE h (.retry (.version g))
  | none => do
    homesE h core (ls.map fun p => mlineOf s core p.1 p.2)
    modifyE fun s => ls.foldl (fun s p => flushLine s core p.1 p.2) s

/-- R46: the core of index j in the requester's cluster. -/
def clusterCore (core j : Nat) : Nat := clusterOf core * 24 + j

/-- A request to another core of the cluster, over the mesh: its window has tokens, or the word waits (R77, R338). -/
def meshE (h : Here) (core : Nat) : Exec Unit := do
  let s ← getE
  let die := dieOfCore h.blk.core
  if core ≠ h.blk.core ∧ tokensFor s die = false then
    modifyE fun s => throttle s die
    waitE h (.retry (.slots (32 * die)))

/-- A request to another core of the cluster, and its reply, have drawn their tokens (R337, R341). -/
def meshSent (h : Here) (core : Nat) (s : State) : State :=
  if core = h.blk.core then s else exchange s (dieOfCore h.blk.core) (dieOfCore core) (some h.blk.launch)

/-- A core and stash offset of a local or cluster access, its lines touched (R45, R46), in the order of the lanes'
earlier accesses to the global bytes that it maps (R83, R92). -/
def stashE (h : Here) (w : Window) (va n : Nat) (wr : Bool) (m : Mask) : Exec (Nat × Nat) := do
  let kind := if wr then 1 else 0
  let go (core o : Nat) : Exec (Nat × Nat) := do
    touchE h kind fun s => touchStash s core o n va wr
    let s ← getE
    orderE h m (accsOf (stashPa core o) n 0 m ++ (mappedPas s core o n).map fun pa => ⟨pa, m, 0, false⟩)
    afterAcquireE h m
    pure (core, o)
  match w with
  | .loc a =>
    if h.blk.kern.stash < a + n then faultE h .accf 2 (BitVec.ofNat 64 va) kind else go h.blk.core (h.blk.base + a)
  | .cluster j o => do
    meshE h (clusterCore h.blk.core j)
    go (clusterCore h.blk.core j) o
  | _ => faultE h .addrf 0 (BitVec.ofNat 64 va) kind

/-- A stash byte belongs to a mooring with ROF set: reads of it synchronise with nothing (R92, R103). -/
def snapshotByte (s : State) (core o : Nat) : Bool :=
  match mooringAt s core o with
  | some p => (mooringOf s core p.1).any fun m => moorRof m.mrec
  | none => false

/-- The keys of the marks that a read of `n` stash bytes finds. -/
def stashKeys (s : State) (core o n : Nat) : List Nat :=
  ((List.range n).filter fun i => !snapshotByte s core (o + i)).map fun i => stashKey s core (o + i)

/-- The line numbers of stash bytes. -/
def stashLines (core o n : Nat) : List Nat := [stashPa core o / 128, stashPa core (o + n - 1) / 128]

/-- `n` bytes of a stash whose lines are ready. -/
def stashReadE (h : Here) (m : Mask) (md : LoadMode) (n : Nat) (p : Nat × Nat) : Exec (List Byte) := do
  let s ← getE
  let pas := mappedPas s p.1 p.2 n
  let early ← if pas.isEmpty then glimpseE h md (stashPa p.1 p.2) n else pure none
  modifyE (meshSent h p.1)
  match early with
  | some (d, ms) =>
    modifyE fun s => readMarks s h.b h.c m md ms
    pure d
  | none => do
    updCrewE h (forgetLines (stashLines p.1 p.2 n ++ pas.map lineNo))
    let s ← getE
    modifyE fun s => readMarks s h.b h.c m md (marksAt s (stashKeys s p.1 p.2 n))
    pure (readPlace s (.stash p.1 p.2) n)

/-- `n` bytes at a virtual address, for the lanes `m`. -/
def loadBytesE (h : Here) (m : Mask) (va n : Nat) (md : LoadMode) : Exec (List Byte) := do
  match routeOf va n with
  | .bad => faultE h .addrf 0 (BitVec.ofNat 64 va) 0
  | .global => do
    let xs ← segsE h va n .rd 0
    let ds ← xs.mapM (loadSegE h m 0 md)
    pure ds.flatten
  | w => do
    if inCapsule h.crew (hMask h) then trapE h .capfault 9
    let p ← stashE h w va n false m
    stashReadE h m md n p

/-! ## Stores (R186, R229, R230) -/

/-- A store of stash bytes whose lines are ready, by a lane: performed at once, with the releases it carries. -/
def stashStore (s : State) (h : Here) (core o l : Nat) (bs : List Byte) (sem : Option Scope) : State :=
  let me := partyOf s h.b h.c
  let (tw, s1) := stashPut s core o bs (timeOf s h.b h.c)
  let rs := match crewOf s h.b h.c with
    | some y => relsOf y (laneBit l) sem (crewT s y)
    | none => []
  let s1 := updCrew s1 h.b h.c (forgetLines (stashLines core o bs.length ++ (mappedPas s1 core o bs.length).map lineNo))
  raiseT ((List.range bs.length).foldl (fun s i => markRels s me (stashKey s core (o + i)) l tw rs) s1) h.b h.c tw

/-- R230: the index of a block among those resident on its core, by block number (DESIGN CHOICE, log 91). -/
def residentIndex (s : State) (b core : Nat) : Nat :=
  (s.blocks.filter fun e => decide (e.1 < b) && e.2.core == core && e.2.st != .saved && e.2.st != .retired
    && e.2.st != .pending).length % 1024

/-- A request of the issuing word. -/
def newReq (s : State) (h : Here) (k : ReqKind) (st : ReqSt) (dest entry : Nat) (f : Option (Cause × Nat × Nat))
    (m : Mask) (lanes : List (Nat × Mask)) (virt : Bool) (rels : List Release) : Req :=
  { kind := k, st := st, lanes := lanes, virt := virt, fenced := 0, rels := rels, bi := residentIndex s h.b h.blk.core,
    core := h.blk.core, dest := dest, blk := h.b, crew := h.c, slot := h.k, pc := hPc h, mask := m, told := false,
    gen := genOf s dest h.blk.core, entry := entry, cause := f, refused := false, carried := 0, homed := true, mapsTo := [] }

/-- A request takes its place among those to be injected, one of stash bytes among those at work; one that has faulted is to be reported (R231), and one whose
page is not known waits for its walk. -/
def addReq (s : State) (r : Req) : State :=
  let (n, s1) := freshId s
  let s2 := { s1 with reqs := s1.reqs.put n r }
  match r.st with
  | .faulted => later s2 (.storeFault n)
  | .walking _ => s2
  | .injected => later s2 (.homeSliceRequest n)
  | _ => later s2 (.requestInject n)

/-- A line for which a write by a core must wait: a step's version (R278). -/
def lineHeld (s : State) (g : Nat) : Bool := versioned s g

/-- The stored bytes of one virtual line: its groups, and the lanes that store each byte. -/
structure LineStore where
  vg : Nat
  groups : List (List (Nat × Byte))
  lanes : List (Nat × Mask)
  deriving DecidableEq, Repr

/-- The lowest virtual address of a line's stored bytes. -/
def lowestVa (x : LineStore) : Nat := (x.groups.flatten.map (·.1)).foldl min (128 * x.vg + 127)

/-- Why a store through a translation faults (R229, R247, R335). -/
def storeCause (s : State) (t : Tlb) (va : Nat) : Option (Cause × Nat × Nat) :=
  let pa := tlbPa t va
  if !t.attr.wr then some (.accf, 1, va)
  else if isRemote pa then (if (remotePlace s pa true).isNone then some (.accf, 8, va) else none)
  else if poisoned s (lineNo pa) then some (.poison, 0, va)
  else none

/-- A store to one line sets out: translated, or waiting for a walk (R75). Its faults are imprecise (R229). -/
def storeLineE (h : Here) (entry : Nat) (m : Mask) (rels : List Release) (x : LineStore) : Exec Unit :=
  modifyE fun s =>
    let va := lowestVa x
    let c := ctxOf s h.blk
    match tlbFind s h.blk.core c va with
    | none =>
      let (n, s1) := startWalk (updCrew s h.b h.c fun y => { y with glimpses := [] }) (dieOfCore h.blk.core) c va
      addReq s1 (newReq s1 h (.store va x.groups plainAttr 0) (.walking n) 0 entry none m x.lanes true rels)
    | some t =>
      let gs := x.groups.map fun g => g.map fun p => (tlbPa t p.1, p.2)
      let f := storeCause s t va
      addReq (updCrew s h.b h.c (forgetLines [lineNo (tlbPa t va)])) (newReq s h (.store va gs t.attr 0) (if f.isSome then .faulted else .waiting) (sliceOf (tlbPa t va)) entry f
        m x.lanes false rels)

/-- The virtual lines of stored bytes. -/
def vlines (bs : List (Nat × Byte)) : List Nat := (bs.map fun p => p.1 / 128).eraseDups

/-- A lane's store: the lane, its address and its bytes. -/
structure LaneStore where
  lane : Nat
  va : Nat
  bytes : List Byte
  deriving DecidableEq, Repr

/-- The bytes of the lanes' stores, a later lane's over an earlier one's (R81). -/
def mergeLanes (ls : List LaneStore) : Table Byte :=
  ls.foldl (fun t p =>
    ((List.range p.bytes.length).foldl (fun t i => t.put ((p.va + i) % 2 ^ 64) (p.bytes.getD i 0)) t)) []

/-- The lanes that store each byte. -/
def laneMap (ls : List LaneStore) : Table Mask :=
  ls.foldl (fun t p =>
    ((List.range p.bytes.length).foldl (fun t i =>
      let a := (p.va + i) % 2 ^ 64
      t.put a (t.getD a 0 ||| laneBit p.lane)) t)) []

/-- Addresses that are written together join the groups that share one of them. -/
def joinGroup (gs : List (List Nat)) (as : List Nat) : List (List Nat) :=
  let hit := gs.filter fun g => g.any fun a => as.contains a
  gs.filter (fun g => !g.any fun a => as.contains a) ++ [(hit.flatten ++ as).eraseDups]

/-- R81: the addresses that the lanes' stores write each at once: naturally aligned elements, and single bytes. -/
def storeGroups (ls : List LaneStore) : List (List Nat) :=
  ls.foldl (fun gs p =>
    let as := (List.range p.bytes.length).map fun i => (p.va + i) % 2 ^ 64
    if singleCopy p.va p.bytes.length then joinGroup gs as else as.foldl (fun gs a => joinGroup gs [a]) gs) []

/-- The lanes' stores by virtual line. -/
def lineStores (ls : List LaneStore) : List LineStore :=
  let bs := mergeLanes ls
  let gs := storeGroups ls
  let lm := laneMap ls
  (vlines bs).map fun vg =>
    ⟨vg, (gs.filter fun g => g.headD 0 / 128 == vg).map fun g => g.map fun a => (a, bs.getD a 0),
      (lm.filter fun e => e.1 / 128 == vg).map fun e => (e.1 % 128, e.2)⟩

/-- The lanes' stores on global pages: one store-origin entry, one request for each line. -/
def storeGlobalE (h : Here) (m : Mask) (sem : Option Scope) (ls : List LaneStore) : Exec Unit := do
  if ls.isEmpty then pure ()
  else do
    let y ← crewE h
    let s ← getE
    let (n, s1) := freshId s
    modifyE fun _ => s1
    (lineStores ls).forM (storeLineE h n m (relsOf y m sem (crewT s y)))

/-! ### Stores to stashes (R81, R92) -/

/-- A lane's store to a stash whose lines are ready. -/
structure StashStore where
  lane : Nat
  va : Nat
  core : Nat
  off : Nat
  bytes : List Byte
  deriving DecidableEq, Repr

/-- The global bytes that the stash bytes of some stores map. -/
def storeAlias (s : State) (ls : List StashStore) : List (Nat × Nat) :=
  ls.flatMap fun p => (List.range p.bytes.length).filterMap fun i =>
    (mappedPa s p.core (p.off + i)).map fun pa => (stashPa p.core (p.off + i), pa)

/-- The stores are performed in later steps: a request for each line. -/
def stashLater (s : State) (h : Here) (m : Mask) (sem : Option Scope) (ls : List StashStore) : State :=
  let (n, s1) := freshId s
  let rels := match crewOf s h.b h.c with
    | some y => relsOf y m sem (crewT s y)
    | none => []
  let va := (ls.map (·.va)).headD 0
  (lineStores (ls.map fun p => ⟨p.lane, stashPa p.core p.off, p.bytes⟩)).foldl (fun s x =>
    addReq (updCrew s h.b h.c (forgetLines [x.vg]))
      { newReq s h (.store va x.groups plainAttr 0) .injected 0 n none m x.lanes false rels with
        homed := false, mapsTo := storeAlias s1 ls }) s1

/-- The stores of lanes to stashes whose lines are ready: performed when they issue or later (free). -/
def putStashes (h : Here) (m : Mask) (sem : Option Scope) (ls : List StashStore) (s : State) : State :=
  if ls.isEmpty then s
  else
    let (k, s1) := freeChoice (ls.foldl (fun s p => meshSent h p.core s) s) 2
    if k = 1 then stashLater s1 h m sem ls
    else ls.foldl (fun s p => stashStore s h p.core p.off p.lane p.bytes sem) s1

/-- The stores of lanes to a window of stash, every line made ready before any byte is written. -/
def storeStashE (h : Here) (win : LaneStore → Window) (ls : List LaneStore) : Exec (List StashStore) :=
  ls.mapM fun p => do
    let q ← stashE h (win p) p.va p.bytes.length true (laneBit p.lane)
    pure ⟨p.lane, p.va, q.1, q.2, p.bytes⟩

/-- Waits until every earlier access of the lanes is performed and acknowledged (R88). -/
def drainE (h : Here) (m : Mask) : Exec Unit := do
  let s ← getE
  if outstanding s h.b h.c m then waitE h (.retry (.drain m))

/-! ## Stores in capsule mode (R274, R275, R278) -/

/-- One lane's store of a capsule step; `entry` is its store-origin entry. -/
def capStoreE (h : Here) (entry va : Nat) (bs : List Byte) : Exec Unit := do
  let y ← crewE h
  match y.holding with
  | none => pure ()
  | some k => do
    match routeOf va bs.length with
    | .global => do
      let xs ← segsE h va bs.length .wr 1
      let s ← getE
      let bad := xs.any fun x =>
        x.attr.ord != 0 || x.attr.hc || (lineNo x.pa == k.line && x.pa % 128 < 0x60)
      if bad then trapE h .capfault 9
      match xs.find? fun x => poisoned s (lineNo x.pa) with
      | some x => faultE h .poison 0 (BitVec.ofNat 64 x.va) 1
      | none => do
      let gs := ((xs.map fun x => lineNo x.pa).filter fun g => g != k.line && !k.lines.contains g).eraseDups
      if 4 < (k.lines ++ gs).length then trapE h .capfault 7
      if k.displaced then updCrewE h fun y => { y with holding := some { k with lines := k.lines ++ gs } }
      else
      match xs.find? fun x => !slotsTo s h.blk.core (sliceOf x.pa) xs.length with
      | some x => waitE h (.retry (.slots (sliceOf x.pa)))
      | none => do
        xs.forM fun x => sendE h x.pa
        let mut off := 0
        for x in xs do
          let pbs := (List.range x.n).map fun i => (x.pa + i, bs.getD (off + i) 0)
          modifyE fun s =>
            let (n, s1) := sendCap (sentBy h x.pa s) k.line h.b h.c k (.store (lineNo x.pa) pbs x.attr entry)
            later s1 (.capsuleStore n)
          off := off + x.n
        updCrewE h fun y => { y with holding := some { k with lines := k.lines ++ gs } }
    | .bad => faultE h .addrf 0 (BitVec.ofNat 64 va) 1
    | _ => trapE h .capfault 9

/-! ## The lanes of a store -/

/-- All windows are checked before any byte is stored: `ADDRF` is precise. -/
def checkRoutes (ls : List LaneStore) : Option Nat :=
  (ls.find? fun p => routeOf p.va p.bytes.length == .bad).map (·.va)

def isGlobalStore (p : LaneStore) : Bool := routeOf p.va p.bytes.length == .global

/-- The stores of the active lanes, in ascending lane order; with `sem` a release at its scope. -/
def storeLanesE (h : Here) (m : Mask) (sem : Option Scope) (ls : List LaneStore) : Exec Unit := do
  match checkRoutes ls with
  | some va => faultE h .addrf 0 (BitVec.ofNat 64 va) 1
  | none =>
    if inCapsule h.crew (hMask h) then do
      let s ← getE
      let (n, s1) := freshId s
      modifyE fun _ => s1
      ls.forM fun p => capStoreE h n p.va p.bytes
    else do
      afterAcquireE h m
      -- every stash line is ready before any byte is written
      let ps ← storeStashE h (fun p => routeOf p.va p.bytes.length) (ls.filter fun p => !isGlobalStore p)
      storeGlobalE h m sem (ls.filter isGlobalStore)
      modifyE (putStashes h m sem ps)

end Sys2Proof.Machine
end

