-- ==== Sys2Proof/Machine/TapeOps.lean ====
section
/-! DEFINITION. The tape engine: the records of a stream, recording, popping, the staging buffer and its write-out
(25_tape_rules.md R295 to R311). -/

namespace Sys2Proof.Machine

/-! ## Engine accesses to global memory -/

/-- Why an engine's access is not performed: a fault, a line that is BUSY or versioned, a page that is not in the TLB, or
no request slot towards a slice. -/
inductive EngErr where
  | fault (x : Xf)
  /-- the line, and whether the access would invalidate its copies -/
  | busy (g : Nat) (inval : Bool)
  | miss (c : Ctx) (va : Nat)
  | slots (slice : Nat)
  /-- another module has not answered (R335): the hops of the request, and its addresses -/
  | remote (hops : List (Nat × Nat)) (pa va : Nat)
  deriving DecidableEq, Repr

/-- The state in which an access waits for a line: its home has sent the probe that holds it (R65). -/
def heldBy (s : State) (g : Nat) (inval : Bool) : State := if versioned s g then s else (grab s g none inval).2

/-- The die on which an engine stands: a core's, or a distributor's. -/
def engDie (core : Nat) : Nat := if core < 192 then dieOfCore core else core - 256

/-- What an engine's access to a line needs before the line itself: a slot on every hop, and links (R78, R332). -/
def engSlot (s : State) (ag core pa : Nat) : Bool :=
  !cutOff s (engDie core) (homeDie pa) && (hopsOf ag (engDie core) (sliceOf pa)).all (hopFree s)

/-- An engine's request, and its reply, have drawn their tokens (R337, R341). -/
def engSent (s : State) (core pa : Nat) : State := exchange s (engDie core) (homeDie pa) (workLaunch s)

/-- The pieces of an engine's access. -/
def engSegs (s : State) (core : Nat) (c : Ctx) (r : Right) (ps : List (Nat × Nat)) : Except EngErr (List Seg) :=
  match ps with
  | [] => .ok []
  | p :: q =>
    match xlate s core c p.1 with
    | .error (.fault x) => .error (.fault x)
    | .error .miss => .error (.miss c p.1)
    | .error (.held g) => .error (.busy g false)
    | .error (.cut pa) => .error (.slots (sliceOf pa))
    | .ok t =>
      match rightFault t.attr r p.1 with
      | some x => .error (.fault x)
      | none =>
        match engSegs s core c r q with
        | .error x => .error x
        | .ok ys => .ok (⟨p.1, p.2, tlbPa t p.1, t.attr⟩ :: ys)

/-- The global window is the only one that these accesses name. -/
def engRoute (s : State) (core : Nat) (c : Ctx) (r : Right) (va n : Nat) : Except EngErr (List Seg) :=
  match routeOf va n with
  | .global => engSegs s core c r (segments va n)
  | _ => .error (.fault ⟨.addrf, 0, va⟩)

/-- R335: an engine's access to another module: answered, given up after its time-outs with poison, or awaited. -/
def engRemote (s : State) (ag core : Nat) (x : Seg) : Except EngErr State :=
  if !engSlot s ag core x.pa || !hopFree s (fibreHop s x.pa) || !tokensTo s (engDie core) (homeDie x.pa) then
    .error (.slots (sliceOf x.pa))
  else
    match remoteFate s x.pa x.va with
    | (some true, s1) => .ok (engSent s1 core x.pa)
    | (some false, _) => .error (.fault ⟨.poison, 0, x.va⟩)
    | (none, _) => .error (.remote (hopsOf ag (engDie core) (sliceOf x.pa) ++ [fibreHop s x.pa]) x.pa x.va)

def readSeg (s : State) (ag core : Nat) (x : Seg) : Except EngErr (List Byte × State) :=
  if isRemote x.pa then
    match remotePlace s x.pa false with
    | some p =>
      (match engRemote s ag core x with
       | .error e => .error e
       | .ok s1 => .ok (readPlace s1 p x.n, s1))
    | none => .error (.fault ⟨.accf, 8, x.va⟩)
  else if !engSlot s ag core x.pa || !tokensTo s (engDie core) (homeDie x.pa) then .error (.slots (sliceOf x.pa))
  else
    match grab s (lineNo x.pa) none false with
    | (false, _) => .error (.busy (lineNo x.pa) false)
    | (true, s1) =>
      if poisoned s1 (lineNo x.pa) then .error (.fault ⟨.poison, 0, x.va⟩)
      else .ok (readPlace s1 (linePlace x.pa) x.n, engSent s1 core x.pa)

def readSegs (s : State) (ag core : Nat) (xs : List Seg) : Except EngErr (List Byte × State) :=
  match xs with
  | [] => .ok ([], s)
  | x :: r =>
    match readSeg s ag core x with
    | .error e => .error e
    | .ok (a, s1) =>
      match readSegs s1 ag core r with
      | .error e => .error e
      | .ok (b, s2) => .ok (a ++ b, s2)

/-- An engine reads `n` bytes at a global address, at their homes. `ag` is the agent that makes the request. -/
def engRead (s : State) (core : Nat) (c : Ctx) (va n : Nat) (ag : Nat := core) :
    Except EngErr (List Byte × State) :=
  match engRoute s core c .rd va n with
  | .error x => .error x
  | .ok xs => readSegs s ag core xs

/-- Bytes written in another module. -/
def remotePut (s : State) (p : Place) (bs : List Byte) : State :=
  plainMarks (writePlace s p bs) ((List.range bs.length).map fun i => placeKey p + i)

/-- One piece of an engine's write, with its write time; a whole line that a copy lands ends its poison (R247). -/
def writeSeg (s : State) (copy : Bool) (ag core : Nat) (x : Seg) (bs : List Byte) (t : Nat) :
    Except EngErr (Nat × State) :=
  let g := lineNo x.pa
  if isRemote x.pa then
    match remotePlace s x.pa true with
    | some p =>
      (match engRemote s ag core x with
       | .error e => .error e
       | .ok s1 => .ok (0, remotePut s1 p bs))
    | none => .error (.fault ⟨.accf, 8, x.va⟩)
  else if !engSlot s ag core x.pa || !tokensTo s (engDie core) (homeDie x.pa) then .error (.slots (sliceOf x.pa))
  else if versioned s g then .error (.busy g true)
  else
    match grab s g none true with
    | (false, _) => .error (.busy g true)
    | (true, s1) =>
      if poisoned s1 g && !(copy && bs.length == 128) then .error (.fault ⟨.poison, 0, x.va⟩)
      else
        let s2 := engSent (if poisoned s1 g then updLine s1 g fun l => { l with st := .unc, ptrs := [] } else s1) core x.pa
        .ok (homeWrite s2 g ((List.range bs.length).map fun i => (x.pa + i, bs.getD i 0)) x.attr t
          (decide (bs.length < 128)))

/-- The pieces of an engine's write, with the greatest write time. -/
def writeSegs (s : State) (copy : Bool) (ag core : Nat) (xs : List Seg) (bs : List Byte) (t : Nat) :
    Except EngErr (Nat × State) :=
  match xs with
  | [] => .ok (0, s)
  | x :: r =>
    match writeSeg s copy ag core x (bs.take x.n) t with
    | .error e => .error e
    | .ok (a, s1) =>
      match writeSegs s1 copy ag core r (bs.drop x.n) t with
      | .error e => .error e
      | .ok (b, s2) => .ok (max a b, s2)

/-- An engine writes bytes at a global address, at their homes; the greatest write time. -/
def engWrite (s : State) (copy : Bool) (core : Nat) (c : Ctx) (va : Nat) (bs : List Byte) (ag : Nat := core) :
    Except EngErr (Nat × State) :=
  match engRoute s core c .wr va bs.length with
  | .error x => .error x
  | .ok xs => writeSegs s copy ag core xs bs s.clock

/-- The write of an engine that is no copy's. -/
def engPut (s : State) (core : Nat) (c : Ctx) (va : Nat) (bs : List Byte) : Except EngErr (Nat × State) :=
  engWrite s false core c va bs

/-- An engine access made by the issuing word: it waits for a walk, for a slot and while a line is held, and faults
precisely. -/
def engE {α : Type} (h : Here) (kind : Nat) (f : State → Except EngErr (α × State)) : Exec α := do
  let s ← getE
  match f s with
  | .ok (a, s1) => do
    modifyE fun _ => s1
    pure a
  | .error (.busy g i) => do
    modifyE fun s => heldBy s g i
    waitE h (.retry (if versioned s g && i then .version g else .line g))
  | .error (.slots k) => do
    modifyE fun s => throttleTo s (dieOfCore h.blk.core) (k / 32)
    waitE h (.retry (.slots k))
  | .error (.remote _ pa va) => stopWith fun s => awaitRemote s h kind pa va
  | .error (.miss c va) =>
    stopWith fun s =>
      let (n, s1) := startWalk s (dieOfCore h.blk.core) c va
      waitSlot s1 h (.walk n kind (BitVec.ofNat 64 va) h.act)
  | .error (.fault x) =>
    -- R247: a write to a poisoned line is imprecise
    if kind = 1 ∧ x.cause = .poison then stopWith fun s => takeStoreFault s h x.cause x.code (BitVec.ofNat 64 x.addr)
    else faultE h x.cause x.code (BitVec.ofNat 64 x.addr) kind

/-- What an engine's access that is not performed leaves to be tried again: the probe sent, or the walk begun. -/
def engAgain (s : State) (die : Nat) (e : EngErr) : State :=
  match e with
  | .busy g i => heldBy s g i
  | .miss c va => (startWalk s die c va).2
  | .slots k => throttleTo s die (k / 32)
  | .remote hops pa va => (askRemote s none 0 pa va 0 hops).2
  | .fault _ => s

def engReadE (h : Here) (va n : Nat) : Exec (List Byte) :=
  engE h 0 fun s => engRead s h.blk.core (ctxOf s h.blk) va n

/-- An engine's write for the issuing word; the crew's T rises to its write time (R62). -/
def engWriteE (h : Here) (va : Nat) (bs : List Byte) : Exec Unit := do
  let tw ← engE h 1 fun s => engPut s h.blk.core (ctxOf s h.blk) va bs
  modifyE fun s => raiseT s h.b h.c tw

/-! ## Timelines (R95) -/

/-- The counter rises while the next operation is complete. -/
def raiseValue (n : Nat) (done : List Nat) (v : Nat) : Nat :=
  match n with
  | 0 => v
  | k + 1 => if done.contains (v + 1) then raiseValue k done (v + 1) else v

/-- Operation n has written something at time `tw`. -/
def noteTw (t : Timeline) (n tw : Nat) : Timeline :=
  if tw = 0 then t else { t with tws := t.tws.put n (max tw (t.tws.getD n 0)) }

/-- Operation n has completed, its writes at most at `tw`. -/
def tlDone (t : Timeline) (n tw : Nat) : Timeline :=
  let d := n :: t.done
  let v := raiseValue (d.length + 1) d t.value
  { noteTw t n tw with done := d.filter fun k => decide (v < k), value := v }

/-- What a wait for operation n acquires (R95). -/
def twUpTo (ts : Table Nat) (n : Nat) : Nat := (ts.filter fun e => decide (e.1 ≤ n)).foldl (fun a e => max a e.2) 0

/-- Takes the next number. -/
def tlIssue (t : Timeline) : Nat × Timeline := (t.issued + 1, { t with issued := t.issued + 1 })

def updTape (y : Crew) (f : Tape → Tape) : Crew := { y with tape := f y.tape }

/-! ## Records (R298 to R300) -/

/-- A record as popped or compared. -/
structure TRec where
  kind : Nat
  full : Bool
  zsup : Bool
  rep : Bool
  h16 : Bool
  tag : Nat
  len : Nat
  mask : Mask
  /-- the stored value of each lane, or TAKEN, the payload and the address as one number -/
  vals : List Nat
  payload : Nat
  deriving DecidableEq, Repr

def tkVal : Nat := 1
def tkBr : Nat := 2
def tkMark : Nat := 3
def tkGap : Nat := 4
def tkChain : Nat := 5

def trHeader (kind : Nat) (full zsup rep h16 : Bool) (tag len : Nat) : Nat :=
  kind + (if full then 16 else 0) + (if zsup then 32 else 0) + (if rep then 64 else 0) + (if h16 then 128 else 0)
    + tag % 256 * 2 ^ 8 + len * 2 ^ 16

/-- Words that `k` stored values take. -/
def payWords (h16 : Bool) (k : Nat) : Nat := if h16 then (k + 1) / 2 else k

/-- Stored values packed into words. -/
def packVals (h16 : Bool) (vs : List Nat) : List Nat :=
  if !h16 then vs
  else
    match vs with
    | [] => []
    | [a] => [a]
    | a :: b :: r => (a + b * 2 ^ 16) :: packVals h16 r

/-- Value i of a packed payload. -/
def unpackVal (h16 : Bool) (ws : List Nat) (i : Nat) : Nat :=
  if h16 then ws.getD (i / 2) 0 / 2 ^ (16 * (i % 2)) % 2 ^ 16 else ws.getD i 0

/-- The words of a VAL record (R299, R300). -/
def valWords (tag : Nat) (h16 : Bool) (m : Mask) (vals : List Nat) : List Nat :=
  let full := m == BitVec.allOnes 32
  let ls := lanesOf m
  let nz := ls.filter fun l => vals.getD l 0 != 0
  let zs := decide (1 + payWords h16 nz.length < payWords h16 ls.length)
  let len := 2 + (if full then 0 else 1) + (if zs then 1 + payWords h16 nz.length else payWords h16 ls.length)
  let hd := trHeader tkVal full zs false h16 tag len
  let zmap := (maskOf fun l => m.getLsbD l && vals.getD l 0 == 0).toNat
  [hd] ++ (if full then [] else [m.toNat]) ++ (if zs then [zmap] else [])
    ++ packVals h16 ((if zs then nz else ls).map fun l => vals.getD l 0) ++ [hd]

/-- The words of a BR record. -/
def brWords (tag : Nat) (m taken : Mask) : List Nat :=
  let full := m == BitVec.allOnes 32
  let hd := trHeader tkBr full false false false tag (if full then 3 else 4)
  [hd] ++ (if full then [] else [m.toNat]) ++ [taken.toNat, hd]

/-- A REPEAT record. -/
def repWords (kind tag : Nat) (full h16 : Bool) : List Nat :=
  let hd := trHeader kind full false true h16 tag 2
  [hd, hd]

/-- A MARK or GAP record. -/
def oneWords (kind tag x : Nat) : List Nat :=
  let hd := trHeader kind false false false false tag 3
  [hd, x, hd]

/-- A CHAIN record. -/
def chainWords (tag addr : Nat) : List Nat :=
  let hd := trHeader tkChain false false false false tag 4
  [hd, addr % 2 ^ 32, addr / 2 ^ 32 % 2 ^ 32, hd]

/-- R299: the flags a kind allows. -/
def flagsAllowed (kind : Nat) (full zsup rep h16 : Bool) : Bool :=
  if kind = tkVal then true
  else if kind = tkBr then !zsup && !h16
  else decide (kind = tkMark ∨ kind = tkGap ∨ kind = tkChain) && !full && !zsup && !rep && !h16

/-- The record whose words are given; none when it is malformed. -/
def parseRec (ws : List Nat) : Option TRec :=
  let hd := ws.headD 0
  let kind := nfield hd 0 4
  let full := nbit hd 4
  let zsup := nbit hd 5
  let rep := nbit hd 6
  let h16 := nbit hd 7
  let tag := nfield hd 8 8
  let len := nfield hd 16 16
  let mk (m : Mask) (vals : List Nat) (p : Nat) : TRec := ⟨kind, full, zsup, rep, h16, tag, len, m, vals, p⟩
  if ws.length ≠ len ∨ ws.getLastD 0 ≠ hd ∨ !flagsAllowed kind full zsup rep h16 then none
  else if rep then (if len = 2 then some (mk 0 [] 0) else none)
  else if kind = tkVal ∨ kind = tkBr then
    let m : Mask := if full then BitVec.allOnes 32 else BitVec.ofNat 32 (ws.getD 1 0)
    let body := (ws.drop (if full then 1 else 2)).dropLast
    if kind = tkBr then
      if body.length = 1 then some (mk m [body.getD 0 0] 0) else none
    else
      let zm : Mask := if zsup then BitVec.ofNat 32 (body.getD 0 0) else 0
      let pay := if zsup then body.drop 1 else body
      let ls := lanesOf (m &&& ~~~zm)
      if pay.length + (if zsup then 1 else 0) = body.length ∧ pay.length = payWords h16 ls.length
          ∧ (!zsup ∨ 0 < body.length) then
        some (mk m ((List.range 32).map fun l =>
          if ls.contains l then unpackVal h16 pay ((ls.filter fun k => decide (k < l)).length) else 0) 0)
      else none
  else if kind = tkChain then
    (if len = 4 then some (mk 0 [] (ws.getD 1 0 + ws.getD 2 0 * 2 ^ 32)) else none)
  else if len = 3 then some (mk 0 [] (ws.getD 1 0)) else none

/-! ## Reading a stream -/

/-- A staged word. -/
def stagedWord (t : Tape) (va : Nat) : Option Nat :=
  match t.staged.find? fun r => decide (r.va ≤ va ∧ va < r.va + 4 * r.words.length) with
  | some r => some ((r.words.getD ((va - r.va) / 4) 0).toNat)
  | none => none

/-- A word of the crew's stream: staged, or in memory. -/
def tapeWordE (h : Here) (va : Nat) : Exec Nat := do
  let y ← crewE h
  match stagedWord y.tape va with
  | some w => pure w
  | none => do
    let bs ← engReadE h va 4
    pure (leNat bs)

def tapeWordsE (h : Here) (va : Nat) (n : Nat) : Exec (List Nat) :=
  (List.range n).mapM fun i => tapeWordE h (va + 4 * i)

def segBase (top : Nat) : Nat := top / 65536 * 65536

/-- The record whose trailer ends at `top`; none when it is malformed. -/
def recAtE (h : Here) (top : Nat) : Exec (Option TRec) := do
  let tr ← tapeWordE h (top - 4)
  let len := nfield tr 16 16
  if len < 2 ∨ top < segBase (top - 1) + 4 * len then pure none
  else do
    let ws ← tapeWordsE h (top - 4 * len) len
    pure (if ws.getLastD 0 = tr then parseRec ws else none)

/-- The record that a REPEAT stands for, found below it within the stream. -/
def resolveE (h : Here) (fuel : Nat) (top : Nat) (r : TRec) : Exec (Option TRec) := do
  match fuel with
  | 0 => pure none
  | n + 1 =>
    if !r.rep then pure (some r)
    else
      let t := top - 4 * r.len
      if t % 65536 = 0 then pure none
      else do
        match ← recAtE h t with
        | none => pure none
        | some q => resolveE h n t q

/-! ## Binding (R295, R296) -/

def descOf (bs : List Byte) : TapeDesc :=
  let x := leNat bs
  ⟨nfield x 0 64, nfield x 64 32, nfield x 96 8, nfield x 128 64, nfield x 256 32, nfield x 320 64⟩

/-- R295: the limits of a tape descriptor. -/
def descOk (bs : List Byte) : Bool :=
  let x := leNat bs
  let d := descOf bs
  d.base % 65536 == 0 && canonical d.base && decide (d.policy ≤ 2) && nfield x 104 24 == 0 && d.flist % 8 == 0
    && nfield x 288 32 == 0 && d.tops % 8 == 0 && nfield x 384 128 == 0

/-- R296: the number of the crew's own stream. -/
def ownStream (h : Here) : Nat := (if h.blk.kern.node then h.blk.bx else h.blk.lin) * h.blk.kern.crews + h.c

def updTapeE (h : Here) (f : Tape → Tape) : Exec Unit := updCrewE h fun y => updTape y f

/-- The crew's first tape instruction reads the descriptor. -/
def bindFirstE (h : Here) : Exec Unit := do
  let y ← crewE h
  if y.tape.bind = .unread then do
    let bs ← engReadE h h.blk.kern.tape 64
    if h.blk.kern.tape % 64 ≠ 0 ∨ !descOk bs then do
      updTapeE h fun t => { t with bind := .unbound }
      trapE h .tovf 3
    else
      let d := descOf bs
      let i := ownStream h
      updTapeE h fun t =>
        if i < d.nstream then { t with bind := .own i, desc := d, top := (d.base + i * 65536) % 2 ^ 64 }
        else { t with bind := .unbound, desc := d }

/-- A tape instruction that needs a bound tape. -/
def needTapeE (h : Here) : Exec Tape := do
  bindFirstE h
  let y ← crewE h
  if tapeBound y.tape then pure y.tape else trapE h .tovf 4

/-- R32: with the tape flag clear a tape instruction is illegal. -/
def tapeFlagE (h : Here) : Exec Unit := do
  let s ← getE
  if nbit (flagsOf s h.blk) 2 then pure () else trapE h .illop

/-! ## Staging and write-out (R309) -/

def stagedBytes (t : Tape) : Nat := (t.staged.map fun r => 4 * r.words.length).sum

/-- A block's staged bytes. -/
def blockStaged (s : State) (b : Nat) : Nat :=
  match s.blocks.find b with
  | some x => (x.crews.map fun c => stagedBytes c.2.tape).sum
  | none => 0

def wordBytes (ws : List Word) : List Byte := ws.flatMap fun w => leBytes 4 w.toNat

/-- The place and page of each byte of a staged record, under the translation it was staged with. -/
def stagedPas (r : Staged) : List (Nat × Attr) := r.pas.flatMap fun p => (List.range p.2.1).map fun i => (p.1 + i, p.2.2)

/-- Bytes from offset `o` on that are not yet in memory and stand together in one line: at most `n`. -/
def stagedRun (r : Staged) (o n : Nat) : List Nat :=
  match (stagedPas r)[o]? with
  | none => []
  | some p => ((List.range n).map (o + ·)).takeWhile fun k =>
      r.left.contains k && decide (((stagedPas r)[k]?).map (·.1) = some (p.1 + (k - o)) ∧ (p.1 + (k - o)) / 128 = p.1 / 128)

/-- The bytes of a staged record that are written next: any of those left (R102), in a strongly ordered page the first. -/
def stagedPart (s : State) (r : Staged) : List Nat × State :=
  let (i, s1) := freeChoice s r.left.length
  let (n, s2) := freeChoice s1 128
  let so := (stagedPas r).any fun p => p.2.ord == 1
  (stagedRun r (r.left.getD (if so then 0 else i) 0) (n + 1), s2)

/-- The operation that the oldest staged record belongs to: the next that a staged record completes. -/
def stagedOp (t : Tape) : Nat := (t.staged.findSome? (·.num)).getD t.tl.issued

/-- Bytes of the oldest staged record are in memory, at time `tw`; with its last the record leaves the buffer, and the
operation that it completes is done. -/
def partWritten (os : List Nat) (tw : Nat) (t : Tape) : Tape :=
  match t.staged with
  | [] => t
  | r :: q =>
    let tl := noteTw t.tl (stagedOp t) tw
    let left := r.left.filter fun o => !os.contains o
    if !left.isEmpty then { t with staged := { r with left := left } :: q, tl := tl }
    else { t with staged := q, tl := match r.num with
      | some n => tlDone tl n 0
      | none => tl }

/-- The piece of memory that some bytes of a staged record take. -/
def stagedSeg (r : Staged) (os : List Nat) : Seg :=
  let o := os.headD 0
  let p := (stagedPas r).getD o (0, plainAttr)
  ⟨r.va + o, os.length, p.1, p.2⟩

/-- Writes out a part of a crew's oldest staged record (R309). -/
def writeOutPart (s : State) (b c : Nat) : Except EngErr State :=
  match s.blocks.find b, crewOf s b c with
  | some x, some y =>
    (match y.tape.staged with
     | [] => .ok s
     | r :: _ =>
       let (os, s0) := stagedPart s r
       match writeSeg s0 false x.core x.core (stagedSeg r os) (os.map fun o => (wordBytes r.words).getD o 0) s.clock with
       | .error e => .error e
       | .ok (tw, s1) => .ok (updCrew s1 b c fun y => updTape y (partWritten os tw)))
  | _, _ => .ok s

/-- A crew's staged records leave, a part in each step, while the word waits. -/
def writeOutE (h : Here) (c : Nat) : Exec Unit := do
  engE h 1 fun s =>
    match writeOutPart s h.b c with
    | .ok s1 => .ok ((), s1)
    | .error e => .error e
  waitE h (.retry (.staging 0))

/-- The crew of a block whose oldest staged record is the block's oldest. -/
def stagedCrew (x : Block) : Option Nat :=
  (x.crews.foldl (fun (a : Option (Nat × Nat)) e =>
    match e.2.tape.staged with
    | [] => a
    | r :: _ =>
      match a with
      | none => some (e.1, r.order)
      | some b => if r.order < b.2 then some (e.1, r.order) else some b) none).map (·.1)

/-- A write-out that no word makes meets a fault: an imprecise record of the crew's slot that waits for it, and the block is
saved; the record stays staged and is written after the REPLAY (R247; DESIGN CHOICE, log 15). -/
def writeOutFault (s : State) (b c : Nat) (f : Xf) : State :=
  match s.blocks.find b, crewOf s b c with
  | some x, some y =>
    let k := match y.slot0.st with
      | .waiting (.object (.tape _) _ _) => 0
      | _ => if y.slot0.mask = 0 then 1 else 0
    let t := slotOf y k
    let r := blockRec s x f.cause (4 + 16 + 32) t.pc (BitVec.ofNat 64 f.addr) t.mask c (infoOf k 1 false) f.code 0 0
    beginSave (updBlock s b fun x => { x with recs := x.recs ++ [r] }) b 8
  | _, _ => s

/-- One part of a crew's staged records is written out, or tried again later. -/
def writeOutStep (s : State) (b c : Nat) : State :=
  match writeOutPart s b c with
  | .ok s1 => dropWalkEnd s1
  | .error (.fault f) => writeOutFault (dropWalkEnd s) b c f
  | .error e =>
    (match s.blocks.find b with
     | some x => engAgain s (dieOfCore x.core) e
     | none => s)

/-- The bytes staged on a core: its buffer holds 64 KiB (R16). -/
def coreStaged (s : State) (core : Nat) : Nat :=
  ((s.blocks.filter fun e => e.2.core == core && e.2.st != .saved && e.2.st != .retired).map
    fun e => blockStaged s e.1).sum

/-- The core's buffer has room for `n` more bytes. -/
def stagingRoom (s : State) (core n : Nat) : Bool := decide (coreStaged s core + n ≤ 65536)

/-- Room for `n` more staged bytes: the block's oldest records leave at its limit, and a full buffer is waited for. -/
def roomE (h : Here) (n : Nat) : Exec Unit := do
  let s ← getE
  if 32768 < blockStaged s h.b + n then
    match (s.blocks.find h.b).bind stagedCrew with
    | some c => writeOutE h c
    | none => pure ()
  if !stagingRoom s h.blk.core n then waitE h (.retry (.staging n))

/-- A range cut at line boundaries. -/
def cuts (fuel va n : Nat) : List (Nat × Nat) :=
  match fuel with
  | 0 => []
  | k + 1 => if va % 128 + n ≤ 128 then [(va, n)] else (va, 128 - va % 128) :: cuts k (va + (128 - va % 128)) (n - (128 - va % 128))

/-- R309: the translation of a segment page, made when a record is first staged into it. -/
def stagePageE (h : Here) (va : Nat) : Exec Tlb := do
  let y ← crewE h
  match y.tape.pages.find? (tlbHit (ctxOf (← getE) h.blk) va) with
  | some t => pure t
  | none => do
    let t ← pageE h va .wr 1
    updTapeE h fun x => { x with pages := t :: x.pages }
    pure t

/-- Stages words at the top, their pages translated, and moves the top past them. -/
def stageE (h : Here) (ws : List Nat) (num : Option Nat) : Exec Unit := do
  let y ← crewE h
  let va := y.tape.top
  let pas ← (cuts 16384 va (4 * ws.length)).mapM fun p => do
    let t ← stagePageE h p.1
    pure (tlbPa t p.1, p.2, t.attr)
  roomE h (4 * ws.length)
  let s ← getE
  let (n, s1) := freshId s
  modifyE fun _ => s1
  updTapeE h fun t =>
    { t with
      staged := t.staged ++ [⟨va, ws.map (BitVec.ofNat 32), num, pas, n, List.range (4 * ws.length)⟩]
      top := va + 4 * ws.length }

/-! ## Recording (R297, R300, R301, R306) -/

def tapeTrapE {α : Type} (h : Here) (cause : Cause) (code : Nat) : Exec α := do
  let y ← crewE h
  trapE h cause code (BitVec.ofNat 64 y.tape.top)

/-- The operation takes its number n and is complete. -/
def takeComplete (n : Nat) (t : Tape) : Tape := { t with tl := tlDone { t.tl with issued := max t.tl.issued n } n 0 }

/-- R306: a refused operation takes its number and is complete, and the trap is taken. -/
def recTrapE {α : Type} (h : Here) (n : Nat) (cause : Cause) (code : Nat) : Exec α := do
  updTapeE h (takeComplete n)
  tapeTrapE h cause code

def completeE (h : Here) (n : Nat) : Exec Unit := updTapeE h fun t => { t with tl := tlDone t.tl n 0 }

/-- The record below the top, resolved, when there is one. -/
def belowE (h : Here) (top : Nat) : Exec (Option TRec) := do
  if top % 65536 = 0 then pure none
  else
    match ← recAtE h top with
    | none => pure none
    | some r => resolveE h 16384 top r

/-- R300: the record below has the same kind, tag, mask, H16 and values. -/
def repeats (r : TRec) (kind tag : Nat) (h16 : Bool) (m : Mask) (vals : List Nat) : Bool :=
  r.kind == kind && r.tag == tag && r.h16 == h16 && r.mask == m &&
    (if kind = tkBr then r.vals == vals else (lanesOf m).all fun l => r.vals.getD l 0 == vals.getD l 0)

/-- The full form of a record. -/
def fullForm (kind tag : Nat) (h16 : Bool) (m : Mask) (vals : List Nat) : List Nat :=
  if kind = tkVal then valWords tag h16 m vals
  else if kind = tkBr then brWords tag m (BitVec.ofNat 32 (vals.headD 0))
  else oneWords kind tag (vals.headD 0)

/-- R297: the segment that the free list gives next, its first page translated, and FLNEXT moved on. `room` is what the
records need once it is sure that no trap refuses them (R306, R309). -/
def takeSegmentE (h : Here) (d : TapeDesc) (num : Nat) (room : Exec Unit) : Exec Nat := do
  if d.flist = 0 then recTrapE h num .tovf 2
  else do
    let bs ← engReadE h (h.blk.kern.tape + 0x18) 8
    let n := leNat bs
    let next := engWriteE h (h.blk.kern.tape + 0x18) (leBytes 8 (n + 1))
    if d.flcap ≤ n then do
      next
      recTrapE h num .tovf 2
    else do
      let es ← engReadE h (d.flist + 8 * n) 8
      if leNat es % 65536 ≠ 0 then do
        next
        recTrapE h num .tovf 3
      else do
        let _ ← stagePageE h (leNat es)
        room
        next
        pure (leNat es)

/-- Records on the bound tape. `num` is complete once the record is written out. -/
def putRecordE (h : Here) (kind tag : Nat) (h16 : Bool) (m : Mask) (vals : List Nat) (num : Nat) : Exec Unit := do
  let y ← crewE h
  let t := y.tape
  let d := t.desc
  let below ← belowE h t.top
  let isRep := match below with
    | some r => decide (kind = tkVal ∨ kind = tkBr) && repeats r kind tag h16 m vals
    | none => false
  let ws := if isRep then repWords kind tag (m == BitVec.allOnes 32) h16 else fullForm kind tag h16 m vals
  let onGap := match below with
    | some r => d.policy == 2 && r.kind == tkGap
    | none => false
  if onGap then do
    let r := below.getD ⟨0, false, false, false, false, 0, 0, 0, [], 0⟩
    let x := min (r.payload + 1) 0xFFFFFFFF
    match stagedWord t (t.top - 8) with
    | some _ =>
      updTapeE h fun t =>
        { t with staged := t.staged.map fun q =>
            if q.va = t.top - 12 then { q with words := (oneWords tkGap 0 x).map (BitVec.ofNat 32) } else q }
    | none => engWriteE h (t.top - 8) (leBytes 4 x)
    completeE h num
  else if t.top + 4 * ws.length ≤ segBase t.top + 65520 then stageE h ws (some num)
  else
    match d.policy with
    | 0 => do
      let _ ← stagePageE h t.top
      let nb ← takeSegmentE h d num (roomE h (32 + 4 * (fullForm kind tag h16 m vals).length))
      stageE h (chainWords 0 nb) none
      let y1 ← crewE h
      let back := y1.tape.top
      updTapeE h fun t => { t with top := nb }
      stageE h (chainWords 1 back) none
      stageE h (fullForm kind tag h16 m vals) (some num)
      updCrewE h fun y => setTst y tstChained
    | 1 => recTrapE h num .tovf 1
    | _ => do
      stageE h (oneWords tkGap 0 1) none
      updCrewE h fun y => setTst y tstGapw
      completeE h num

/-- A recording operation (R301): `none` records nothing. It takes the next number of the crew's tape timeline. -/
def recordE (h : Here) (x : Option (Nat × Nat × Bool × Mask × List Nat)) : Exec Unit := do
  let y ← crewE h
  let n := y.tape.tl.issued + 1
  match x with
  | none => updTapeE h (takeComplete n)
  | some (kind, tag, h16, m, vals) =>
    if tctlNorec y then updTapeE h (takeComplete n)
    else do
      putRecordE h kind tag h16 m vals n
      updTapeE h fun t => { t with tl := { t.tl with issued := n } }

/-! ## Popping (R303, R304) -/

/-- The top after a pop of the record at `top`, and where the records begin that leave with it. -/
def afterPopE (h : Here) (top : Nat) (r : TRec) : Exec (Nat × List Nat) := do
  let t1 := top - 4 * r.len
  if t1 % 65536 = 16 then do
    let ws ← tapeWordsE h (segBase t1) 4
    match parseRec ws with
    | some q =>
      if q.kind = tkChain ∧ q.tag = 1 then pure (q.payload - 16, [t1, segBase t1, q.payload - 16]) else pure (t1, [t1])
    | none => pure (t1, [t1])
  else pure (t1, [t1])

/-- The records popped leave the stream. -/
def leaveTop (x : Nat × List Nat) (t : Tape) : Tape :=
  { t with top := x.1, staged := t.staged.filter fun a => !x.2.contains a.va }

/-- The number of the operation of a staged record. -/
def stagedNum (t : Tape) (va : Nat) : Option Nat := (t.staged.find? fun r => r.va == va).bind fun r => r.num

/-- A pop or peek of the kind expected by the lanes `m`: the record delivered. -/
def popE (h : Here) (kind tag : Nat) (peek : Bool) (m : Mask) : Exec TRec := do
  let t ← needTapeE h
  let y ← crewE h
  if tapeEmpty t then tapeTrapE h .tdiv 3
  else
    match ← recAtE h t.top with
    | none => tapeTrapE h .tdiv 5
    | some r =>
      if r.kind = tkGap ∧ kind ≠ tkGap then tapeTrapE h .tgap 0
      else if r.kind ≠ kind then tapeTrapE h .tdiv 1
      else if r.tag ≠ tag then tapeTrapE h .tdiv 2
      else
        match ← resolveE h 16384 t.top r with
        | none => tapeTrapE h .tdiv 5
        | some q => do
          if q.kind ≠ r.kind ∨ q.tag ≠ r.tag then tapeTrapE h .tdiv 5
          let differs := decide (kind = tkVal ∨ kind = tkBr) && q.mask != m
          if differs && tctlDivtrap y then tapeTrapE h .tdiv 4
          let out ← (if peek then pure none else do
            let x ← afterPopE h t.top r
            pure (some x) : Exec (Option (Nat × List Nat)))
          if differs then updCrewE h fun y => setTst y tstMaskdiff
          match out with
          | none => pure q
          | some x => do
            match stagedNum t (t.top - 4 * r.len) with
            | some n => completeE h n
            | none => pure ()
            updTapeE h (leaveTop x)
            pure q

/-- The value a lane receives: H16 values are shifted left. -/
def popValue (q : TRec) (l : Nat) : Nat := if q.h16 then q.vals.getD l 0 * 2 ^ 16 else q.vals.getD l 0

/-! ## Attached records (R301) -/

/-- The records that wait for handler mode to end. -/
def handlerDue (y : Crew) : List BrRec :=
  match y.handler with
  | some hd => hd.due
  | none => []

/-- The attached records of a crew. -/
def attachedCount (y : Crew) : Nat :=
  (y.joins.map fun j => j.recs.length).sum + y.slot0.due.length + y.slot1.due.length
    + (y.spills.map fun p => p.due.length).sum + (handlerDue y).length

/-- The records still due at a slot. -/
def setDue (y : Crew) (k : Nat) (d : List BrRec) : Crew := setSlot y k { slotOf y k with due := d }

/-- Attached records that are dropped: their operations are complete (R301, R306). -/
def dropRecs (rs : List BrRec) (y : Crew) : Crew := updTape y fun t => rs.foldl (fun t r => takeComplete r.num t) t

/-- The attached records of the point of the first are dropped; those of another point wait for handler mode to end (R301). -/
def dropDue (d : List BrRec) (y : Crew) : Crew :=
  let n := (d.map (·.depth)).headD 0
  dropRecs (d.filter fun r => r.depth == n)
    { y with handler := y.handler.map fun hd => { hd with due := d.filter fun r => r.depth != n } }

/-- Writes an attached record; where it meets a program trap, which enters the handler, `drop` is done to the crew (R301). -/
def putAttachedE (h : Here) (r : BrRec) (drop : Crew → Crew) : Exec Unit := fun s =>
  match (putRecordE h tkBr r.tag.toNat false r.mask [r.taken.toNat] r.num).run s with
  | .ok r => .ok r
  | .error s1 =>
    let trapped := match crewOf s1 h.b h.c with
      | some y1 => y1.handler != h.crew.handler
      | none => false
    .error (if trapped then updCrew s1 h.b h.c drop else s1)

/-- Writes the first record that has fallen due at the slot, before its word issues. A program trap drops the records of its
point that are not yet written; a wait or a fault keeps them. -/
def writeDueE (h : Here) : Exec Unit := do
  match (hSlot h).due with
  | [] => pure ()
  | r :: q => do
    putAttachedE h r (dropDue (r :: q))
    updCrewE h fun y => setDue y h.k q

end Sys2Proof.Machine
end

