-- ==== Sys2Proof/Machine/Issue.lean ====
section
/-! DEFINITION. What every word shares: the checks at issue, its sources and channels, its destination, and the
frame of an instruction that computes lane by lane (R123 to R136, R139 to R142, R208, R218, R305). -/

namespace Sys2Proof.Machine

/-! ## Registers that a word names -/

/-- The codes of the registers of an operand place: v(n) is n, s(n) is 192 + n; of a channel that is pushed, 256 + n. -/
def useRegs (u : Use) : List Nat :=
  match u.o with
  | .v k => (List.range u.n).map fun i => k + i
  | .s k => (List.range u.n).map fun i => 192 + k + i
  | .chan c _ => if u.role = .dst then [256 + c] else []
  | _ => []

/-- The codes of the registers of a destination (R189). -/
def regCodes (d : Opnd) (n : Nat) : List Nat := useRegs ⟨.dst, d, n, false, false⟩

/-- The registers that a word reads or writes. -/
def wordRegs (i : Instr) : List Nat :=
  (uses i).flatMap useRegs ++
    match i with
    | .lutx x => (List.range 8).map fun j => 192 + x.sb + j
    | .mlut sb => (List.range 8).map fun j => 192 + sb + j
    | _ => []

/-- R126: the registers lie within the kernel's counts. -/
def inCounts (k : Kernel) (u : Use) : Bool :=
  match u.o with
  | .v n => decide (n + u.n ≤ k.vregs)
  | .s n => decide (n + u.n ≤ k.sregs)
  | _ => true

/-! ## Channels (R125, R208) -/

def chanReset : Chan := ⟨0, 0, 0, []⟩

def chanOf (y : Crew) (n : Nat) : Chan := y.chans.getD n chanReset

/-- A channel named as a source. -/
def chanUse (u : Use) : Option (Nat × Bool) :=
  match u.o with
  | .chan c pk => if Role_isDst u.role then none else some (c, pk)
  | _ => none

/-- A channel named as the destination. -/
def chanDst (u : Use) : Option Nat :=
  match u.o with
  | .chan c _ => if Role_isDst u.role then some c else none
  | _ => none

/-- The elements that a channel holds; none when it never waits. -/
def chanCount (blk : Block) (y : Crew) (c : Nat) : Option Nat :=
  let x := chanOf y c
  match x.kind.val with
  | 1 =>
    match blk.rings.find x.ring.val with
    | some r => some r.count
    | none => some 0
  | 4 => some x.queue.length
  | _ => none

/-- What a pop of a channel takes from: its ring, which several channels may share (R209), or its own queue. -/
def popKey (y : Crew) (c : Nat) : Nat := if (chanOf y c).kind.val = 1 then 16 + (chanOf y c).ring.val else c

/-- The first channel whose elements do not suffice, over the sources in order. -/
def chanShort (blk : Block) (y : Crew) (rs : List (Nat × Bool)) (popped : Table Nat) : Option Nat :=
  match rs with
  | [] => none
  | (c, pk) :: r =>
    let k := popped.getD (popKey y c) 0
    match chanCount blk y c with
    | some n => if n ≤ k then some c else chanShort blk y r (if pk then popped else popped.put (popKey y c) (k + 1))
    | none => chanShort blk y r popped

/-- Pops of a channel among the sources. -/
def popsOf (rs : List (Nat × Bool)) (c : Nat) : Nat := (rs.filter fun r => r.1 == c && !r.2).length

/-! ## Capsule mode (R135, R274, R275) -/

/-- R274. -/
def capPermitted (i : Instr) : Bool :=
  match i with
  | .iadd _ | .isub _ | .iaddc _ | .imul _ | .imulhi _ | .imad _ | .imadw _ | .imin _ | .imax _ | .iabs _
  | .and _ | .or _ | .xor _ | .andn _ | .orn _ | .shl _ | .shr _ | .sar _ | .rotl _ | .fshf _ | .bfx _ | .bfi _
  | .popc _ | .clz _ | .ctz _ | .brev _ | .prmt _ | .lea _ | .isetp _ | .sel _ | .mov _
  | .fadd _ | .fsub _ | .fmul _ | .ffma _ | .fmin _ | .fmax _ | .fsetp _ | .fclass _
  | .frcp _ | .frsq _ | .fsqrt _ | .fex2 _ | .flg2 _ | .fsin _ | .fcos _ | .ftanh _
  | .hadd2 _ | .hmul2 _ | .hfma2 _ | .hmnmx2 _
  | .cvt _ | .cvtq _ | .cvtdq _ | .pack _ | .unpk _ | .idp4 _ | .idp8 _ | .fdp4 _ | .fdp2 _
  | .bra _ _ | .brx _ _ | .nop _ | .ldro _ | .capstep _ | .capexit | .capabort => true
  | .ld x | .st x => x.buf.val == 0 && !x.sem
  | .pairedWord h0 h1 => h0.op != .lds && h0.op != .sts && h1.op != .lds && h1.op != .sts
  | _ => false

/-- R135: in capsule mode an operand names k0 to k15 or an immediate. -/
def capOperand (u : Use) : Bool :=
  match u.o with
  | .v k => decide (k + u.n ≤ 16)
  | .imm _ => true
  | _ => false

def holdingCount (y : Crew) : Nat :=
  match y.holding with
  | some h => h.count
  | none => 0

/-! ## The checks at issue (R134) -/

inductive Fate where
  | go
  | trap (c : Cause) (code : Nat)
  | wait (r : Retry)
  deriving DecidableEq, Repr

/-- R189: a register still pending on an arrival counter. -/
def onCounter (y : Crew) (code : Nat) : Bool := y.acs.any fun a => a.2.regs.contains code

/-- R208: a destination channel is a local queue. -/
def pushOk (y : Crew) (c : Nat) : Bool := (chanOf y c).kind.val == 4

/-- R208: a local queue holds 8 elements; the word's own pops make room first. -/
def pushFull (y : Crew) (rs : List (Nat × Bool)) (c : Nat) : Bool :=
  decide (8 ≤ (chanOf y c).queue.length - popsOf rs c)

/-- The checks of registers and channels, outside capsule mode. -/
def operandFate (h : Here) (i : Instr) (m : Mask) : Fate :=
  let us := uses i
  let rs := us.filterMap chanUse
  let ds := us.filterMap chanDst
  if !us.all (inCounts h.blk.kern) then .trap .illop 0
  else if rs.any (fun r => (chanOf h.crew r.1).kind.val == 0) || !ds.all (pushOk h.crew) then .trap .illop 0
  else if (wordRegs i).any (onCounter h.crew) then .trap .barmis 0
  else
    match (wordRegs i).find? fun c => h.crew.pending.contains c with
    | some c => .wait (.reg c)
    | none =>
      if m = 0 then .go
      else
        match chanShort h.blk h.crew rs [] with
        | some c => .wait (.chanEmpty c)
        | none =>
          match ds.find? (pushFull h.crew rs) with
          | some c => .wait (.chanFull c)
          | none => .go

/-- R302: a tape instruction. -/
def isTapeWord (y : Crew) (i : Instr) : Bool :=
  match i with
  | .trec _ | .tmark _ _ | .braT _ _ _ | .tback _ | .tbpop _ => true
  | _ => ((uses i).filterMap chanUse).any fun r => (chanOf y r.1).kind.val == 3

/-- R302: the other slot runs the older path. -/
def olderRuns (y : Crew) (k : Nat) : Bool :=
  let o := slotOf y (1 - k)
  o.mask != 0 && o.st != .waiting .merge && o.st != .retired && decide (o.age < (slotOf y k).age)

/-- R134, steps 4 and 5, and the scoreboard (R136). A 25th word of a step that is not permitted either raises CODE 1
(R274, R275; DESIGN CHOICE, log 94). -/
def wordFate (h : Here) (i : Instr) : Fate :=
  if inCapsule h.crew (hMask h) then
    if !capPermitted i || !(uses i).all capOperand then .trap .capfault 1
    else if 24 ≤ holdingCount h.crew then .trap .capfault 6
    else .go
  else if isTapeWord h.crew i && olderRuns h.crew h.k then .wait .age
  else operandFate h i (guardMask h.crew (guardOf i) (hMask h))

/-- R136, R189: further registers that a word reads or writes, known once it is at work. -/
def regsReadyE (h : Here) (codes : List Nat) : Exec Unit := do
  let y ← crewE h
  if codes.any (onCounter y) then trapE h .barmis
  match codes.find? fun c => y.pending.contains c with
  | some c => waitE h (.retry (.reg c))
  | none => pure ()

/-- R275: one more word of the step has issued. -/
def countWord (h : Here) : Exec Unit :=
  if inCapsule h.crew (hMask h) then
    updCrewE h fun y =>
      match y.holding with
      | some k => { y with holding := some { k with count := k.count + 1 } }
      | none => y
  else pure ()

/-- R173: in a transfer the guard selects the taken lanes and removes none. -/
def isTransfer (i : Instr) : Bool :=
  match i with
  | .bra _ _ | .braT _ _ _ | .brx _ _ | .call _ _ _ | .callx _ _ _ | .ret _ _ | .exit _ => true
  | _ => false

/-- R123: the lanes active for the word. Where the guard leaves none, the checks of whole registers (R134) concern
every lane of the slot (DESIGN CHOICE, log 6). -/
def wordLanes (h : Here) (i : Instr) : Mask :=
  let m := guardMask h.crew (guardOf i) (hMask h)
  if isTransfer i || m == 0 then hMask h else m

/-- What an instruction does when its word issues: the checks, then its effect. -/
def issueWord (i : Instr) (s : State) (body : Here → Exec Unit) : Host.Outcome State Fault Refusal :=
  match here s with
  | none => .refused .noIssuingSlot
  | some h0 =>
    let h := { h0 with act := wordLanes h0 i }
    match wordFate h i with
    | .trap c code => .next (takeTrap s h c code 0)
    | .wait r => .next (waitSlot s h (.retry r))
    | .go => finish (do body h; countWord h) s

/-! ## Reading sources (R124, R136, R142) -/

/-- `n` registers as one number, the first lowest. -/
def regsNum (n : Nat) (f : Nat → Word) : Nat :=
  match n with
  | 0 => 0
  | k + 1 => regsNum k f + (f k).toNat * 2 ^ (32 * k)

/-- The value of an operand of `n` registers in lane l, as held at issue. -/
def srcNum (s : State) (h : Here) (o : Opnd) (n l : Nat) : Nat :=
  match o with
  | .v k =>
    if inCapsule h.crew (hMask h) then regsNum n fun i => readK h.crew (k + i)
    else regsNum n fun i => readV h.crew (k + i) l
  | .s k => regsNum n fun i => readS h.crew (k + i)
  | .zero => 0
  | .lane => l
  | .crew => h.c
  | .bx => h.blk.bx % 2 ^ 32
  | .byIdx => h.blk.byIdx
  | .bz => h.blk.bz
  | .rank => h.blk.rank
  | .core => h.blk.core
  | .clk => s.clock % 2 ^ 32
  | .ones => 2 ^ (32 * n) - 1
  | .chan _ _ => 0
  | .imm x => x.toNat

/-! ### Channel pops -/

def ringBase (cfg : DWord) : Nat := nfield cfg.toNat 7 14 * 128

def ringCap (cfg : DWord) : Nat := 2 ^ nfield cfg.toNat 0 4

/-- An element of 32 words. -/
def elemOf (bs : List Byte) : List Nat := (List.range 32).map fun l => leNat ((bs.drop (4 * l)).take 4)

/-- An acquire that the lanes of a word perform (R62, R85). -/
def acquireE (h : Here) (m : Mask) (t : Nat) : Exec Unit := modifyE fun s => acquireAt s h.b h.c m t

/-- R209: the head of a receiver ring. Its pop acquires what its `SEND` released (R210). -/
def ringPopE (h : Here) (m : Mask) (k : Nat) (peek : Bool) : Exec (List Nat) := do
  let s ← getE
  match (blockOf s h.b).bind fun b => b.rings.find k with
  | none => pure []
  | some r => do
    let o := h.blk.base + ringBase r.cfg + 128 * (r.head % ringCap r.cfg)
    if !peek then do
      acquireE h m (r.tws.headD 0)
      let r' := { r with head := (r.head + 1) % ringCap r.cfg, count := r.count - 1, tws := r.tws.drop 1 }
      modifyE fun s => updBlock s h.b fun b => { b with rings := b.rings.put k r' }
    pure (elemOf (readPlace s (.stash h.blk.core o) 128))

/-- The write time that the first pop of a batch acquires: that of the `REMIT`s of its records (R218). -/
def batchTw (sw : Slipway) (bt : Batch) : Nat :=
  (sw.tws.filter fun e => decide (bt.first ≤ e.1 ∧ e.1 < bt.first + bt.n)).foldl (fun t e => max t e.2) 0

/-- R218: word e mod W of record 32 × (e div W) + L, or 0. -/
def batchPopE (h : Here) (m : Mask) (peek : Bool) : Exec (List Nat) := do
  let s ← getE
  match (blockOf s h.b).bind fun b => b.batch with
  | none => pure []
  | some bt =>
    match s.slipways.find bt.slipway with
    | none => pure []
    | some sw => do
      let w := max (sw.size / 4) 1
      let e := bt.pops
      let vals ← (List.range 32).mapM fun l => do
        let r := 32 * (e / w) + l
        if r < bt.n ∧ bt.freed ≤ r then do
          let bs ← engReadE h (sw.base + (bt.first + r) % sw.cap * sw.size + 4 * (e % w)) 4
          pure (leNat bs)
        else pure 0
      if !peek && !bt.acquired then acquireE h m (batchTw sw bt)
      if !peek then
        modifyE fun s => updBlock s h.b fun b =>
          { b with batch := some { bt with pops := bt.pops + 1, acquired := true } }
      pure vals

/-- R305: a pop of the crew's tape; lanes not in the record read 0. -/
def tapePopChanE (h : Here) (tag : Nat) (peek : Bool) (m : Mask) : Exec (List Nat) := do
  let q ← popE h tkVal tag peek m
  pure ((List.range 32).map fun l => if (q.mask &&& m).getLsbD l then popValue q l else 0)

def queuePopE (h : Here) (c : Nat) (peek : Bool) : Exec (List Nat) := do
  let y ← crewE h
  let x := chanOf y c
  if !peek then updCrewE h fun y => { y with chans := y.chans.put c { x with queue := x.queue.drop 1 } }
  pure ((x.queue.headD []).map fun w => w.toNat)

/-- A pop or peek of a channel for the lanes `m`: the element's 32 values. -/
def chanReadE (h : Here) (c : Nat) (peek : Bool) (m : Mask) : Exec (List Nat) := do
  let y ← crewE h
  let x := chanOf y c
  match x.kind.val with
  | 1 => ringPopE h m x.ring.val peek
  | 2 => batchPopE h m peek
  | 3 => tapePopChanE h x.tag.toNat peek m
  | _ => queuePopE h c peek

/-- A source operand: its value by lane. -/
def readSrcE (h : Here) (m : Mask) (o : Opnd) (n : Nat) : Exec (Nat → Nat) := do
  match o with
  | .chan c pk => do
    let vs ← chanReadE h c pk m
    pure fun l => vs.getD l 0
  | _ => do
    let s ← getE
    pure fun l => srcNum s h o n l

/-- A word that stops while its sources are read has popped nothing. -/
def undoPops (s0 : State) (h : Here) (s1 : State) : State :=
  match blockOf s0 h.b, crewOf s0 h.b h.c with
  | some b0, some y0 =>
    updBlock (updCrew s1 h.b h.c fun y => { y with tape := y0.tape, chans := y0.chans, tst := y0.tst, tBase := y0.tBase }) h.b
      fun b => { b with rings := b0.rings, batch := b0.batch }
  | _, _ => s1

def readListE (h : Here) (m : Mask) (os : List (Opnd × Nat)) : Exec (List (Nat → Nat)) :=
  match os with
  | [] => pure []
  | o :: r => do
    let a ← readSrcE h m o.1 o.2
    let b ← readListE h m r
    pure (a :: b)

/-- A word that stops in `x` has popped nothing. -/
def undoE {α : Type} (h : Here) (x : Exec α) : Exec α := fun s0 =>
  match x.run s0 with
  | .ok r => .ok r
  | .error s1 => .error (undoPops s0 h s1)

def isChanOpnd (o : Opnd) : Bool :=
  match o with
  | .chan _ _ => true
  | _ => false

/-- Sources A, B, C in order. -/
def readSrcsE (h : Here) (m : Mask) (os : List (Opnd × Nat)) : Exec (List (Nat → Nat)) :=
  if os.any fun o => isChanOpnd o.1 then undoE h (readListE h m os) else readListE h m os

/-! ## Writing destinations -/

/-- Register i of a value. -/
def wordOf (x i : Nat) : Word := BitVec.ofNat 32 (x / 2 ^ (32 * i))

def putV (y : Crew) (k n l x : Nat) : Crew := (List.range n).foldl (fun y i => writeV y (k + i) l (wordOf x i)) y

def putS (y : Crew) (k n x : Nat) : Crew := (List.range n).foldl (fun y i => writeS y (k + i) (wordOf x i)) y

def putK (y : Crew) (k n x : Nat) : Crew := (List.range n).foldl (fun y i => writeK y (k + i) (wordOf x i)) y

/-- R123, R141: the destination in the lanes of `m`; an s register once for the crew; `zero` discards. -/
def putDst (y : Crew) (cap : Bool) (d : Opnd) (n : Nat) (m : Mask) (v : Nat → Nat) : Crew :=
  match d with
  | .v k =>
    if cap then putK y k n (v (lowLane m)) else (lanesOf m).foldl (fun y l => putV y k n l (v l)) y
  | .s k => putS y k n (v (lowLane m))
  | _ => y

/-- R125, R208: a push of one element. What it holds in the lanes outside `m` is open (DESIGN CHOICE, log 85: 0, as R210 has
it of `SEND`). -/
def pushChan (y : Crew) (d : Opnd) (m : Mask) (v : Nat → Nat) : Crew :=
  match d with
  | .chan c _ =>
    let x := chanOf y c
    { y with chans := y.chans.put c { x with
        queue := x.queue ++ [(List.range 32).map fun l => if m.getLsbD l then BitVec.ofNat 32 (v l) else 0] } }
  | _ => y

/-- The destination of a word, register or channel. -/
def putResult (y : Crew) (cap : Bool) (d : Opnd) (n : Nat) (m : Mask) (v : Nat → Nat) : Crew :=
  pushChan (putDst y cap d n m v) d m v

/-- The OR of the lanes' flags. -/
def lanesFlags (m : Mask) (f : Nat → FlagSet) : FlagSet := (lanesOf m).foldl (fun a l => flagOr a (f l)) flagNone

def nextE (h : Here) : Exec Unit := modifyE fun s => nextWord s h

/-- The active lanes of a word. -/
def activeMask (h : Here) (g : Guard) : Mask := guardMask h.crew g (hMask h)

/-! ## Instructions that compute lane by lane (R139) -/

/-- Reads its sources, computes each active lane's result and flags from the lane and the source values, writes the destination and FSTAT. -/
def runLanes (h : Here) (g : Guard) (d : Opnd) (dn : Nat) (srcs : List (Opnd × Nat))
    (f : Nat → List Nat → Nat × FlagSet) : Exec Unit := do
  let m := activeMask h g
  if m = 0 then nextE h
  else do
    let vs ← readSrcsE h m srcs
    let r := fun l => f l (vs.map fun v => v l)
    updCrewE h fun y =>
      setFstat (putResult y (inCapsule h.crew (hMask h)) d dn m fun l => (r l).1) (lanesFlags m fun l => (r l).2)
    nextE h

/-- The same for a predicate destination, whose result may read a predicate at issue. -/
def runPred (h : Here) (g : Guard) (pd : Nat) (srcs : List (Opnd × Nat))
    (f : Nat → List Nat → Bool × FlagSet) : Exec Unit := do
  let m := activeMask h g
  if m = 0 then nextE h
  else do
    let vs ← readSrcsE h m srcs
    let r := fun l => f l (vs.map fun v => v l)
    updCrewE h fun y =>
      setFstat (writeP y pd m (maskOf fun l => (r l).1)) (lanesFlags m fun l => (r l).2)
    nextE h

end Sys2Proof.Machine
end

