-- ==== Sys2Proof/Machine/Int.lean ====
section
/-! DEFINITION. Integer, logic, shift, bit-field, permute, compare, select and move instructions
(13_instr_arithmetic.md R146 to R157). -/

namespace Sys2Proof.Machine

/-- Width in bits of a type (R146). -/
def tyBits (t : IntTy) : Nat := 32 * intRegs t

def valTy (t : IntTy) (x : Nat) : Int := intOf (intSigned t) (tyBits t) x

/-- A result wrapped, or clamped with SAT (R147). -/
def satWrap (t : IntTy) (sat : Bool) (x : Int) : Nat × FlagSet :=
  if sat then
    let r := clampTo (intSigned t) (tyBits t) x
    (wrapTo (tyBits t) r.1, r.2)
  else (wrapTo (tyBits t) x, flagNone)

/-- The value of argument i. -/
def arg (vs : List Nat) (i : Nat) : Nat := vs.getD i 0

/-- The instructions of R147 with two sources. -/
def intBody (x : IntOp) (f : Int → Int → Int) (h : Here) : Exec Unit :=
  let n := intRegs x.ty
  runLanes h x.g x.d n [(x.a, n), (x.b, n)] fun _ vs =>
    satWrap x.ty x.sat (f (valTy x.ty (arg vs 0)) (valTy x.ty (arg vs 1)))

def execIadd (x : IntOp) (s : State) : Host.Outcome State Fault Refusal :=
  issueWord (.iadd x) s (intBody x fun a b => a + b)

def execIsub (x : IntOp) (s : State) : Host.Outcome State Fault Refusal :=
  issueWord (.isub x) s (intBody x fun a b => a - b)

def execImul (x : IntOp) (s : State) : Host.Outcome State Fault Refusal :=
  issueWord (.imul x) s (intBody x fun a b => a * b)

/-- The high half of the exact product. -/
def execImulhi (x : IntOp) (s : State) : Host.Outcome State Fault Refusal :=
  issueWord (.imulhi x) s (intBody x fun a b => Int.fdiv (a * b) (2 ^ tyBits x.ty))

def execImin (x : IntOp) (s : State) : Host.Outcome State Fault Refusal :=
  issueWord (.imin x) s (intBody x fun a b => min a b)

def execImax (x : IntOp) (s : State) : Host.Outcome State Fault Refusal :=
  issueWord (.imax x) s (intBody x fun a b => max a b)

/-- The sum and carry-out of `IADDC` (R148). -/
def iaddcSum (y : Crew) (x : IaddcOp) (l a b : Nat) : Nat :=
  let cin := match x.cin with
    | some (p, neg) => if readP y p.val l != neg then 1 else 0
    | none => 0
  a + b + cin

def execIaddc (x : IaddcOp) (s : State) : Host.Outcome State Fault Refusal :=
  issueWord (.iaddc x) s fun h => do
    let m := activeMask h x.g
    if m = 0 then nextE h
    else do
      let vs ← readSrcsE h m [(x.a, 1), (x.b, 1)]
      let sum := fun l => iaddcSum h.crew x l (arg (vs.map fun v => v l) 0) (arg (vs.map fun v => v l) 1)
      updCrewE h fun y =>
        writeP (putResult y (inCapsule h.crew (hMask h)) x.d 1 m fun l => sum l % 2 ^ 32) x.pco.val m
          (maskOf fun l => decide (2 ^ 32 ≤ sum l))
      nextE h

def execImad (x : Int3Op) (s : State) : Host.Outcome State Fault Refusal :=
  let n := intRegs x.ty
  issueWord (.imad x) s fun h => runLanes h x.g x.d n [(x.a, n), (x.b, n), (x.c, n)] fun _ vs =>
    (wrapTo (tyBits x.ty) (valTy x.ty (arg vs 0) * valTy x.ty (arg vs 1) + valTy x.ty (arg vs 2)), flagNone)

def execImadw (x : Int3Op) (s : State) : Host.Outcome State Fault Refusal :=
  issueWord (.imadw x) s fun h => runLanes h x.g x.d 2 [(x.a, 1), (x.b, 1), (x.c, 2)] fun _ vs =>
    (wrapTo 64 (valTy x.ty (arg vs 0) * valTy x.ty (arg vs 1) + (arg vs 2 : Int)), flagNone)

def execIabs (x : IabsOp) (s : State) : Host.Outcome State Fault Refusal :=
  let n := intRegs x.ty
  issueWord (.iabs x) s fun h => runLanes h x.g x.d n [(x.a, n)] fun _ vs =>
    satWrap x.ty x.sat ((valTy x.ty (arg vs 0)).natAbs : Int)

/-! ## Logic and shifts (R149, R150) -/

def logicBits (x : LogicOp) : Nat := if x.w64 then 64 else 32

/-- A bitwise operation of width w. -/
def logicBody (x : LogicOp) (f : Nat → Nat → Nat) (h : Here) : Exec Unit :=
  let n := widthRegs x.w64
  runLanes h x.g x.d n [(x.a, n), (x.b, n)] fun _ vs => (f (arg vs 0) (arg vs 1), flagNone)

/-- The complement of the low w bits. -/
def notBits (w x : Nat) : Nat := 2 ^ w - 1 - x % 2 ^ w

def execAnd (x : LogicOp) (s : State) : Host.Outcome State Fault Refusal :=
  issueWord (.and x) s (logicBody x fun a b => a &&& b)

def execOr (x : LogicOp) (s : State) : Host.Outcome State Fault Refusal :=
  issueWord (.or x) s (logicBody x fun a b => a ||| b)

def execXor (x : LogicOp) (s : State) : Host.Outcome State Fault Refusal :=
  issueWord (.xor x) s (logicBody x fun a b => a ^^^ b)

def execAndn (x : LogicOp) (s : State) : Host.Outcome State Fault Refusal :=
  issueWord (.andn x) s (logicBody x fun a b => a &&& notBits (logicBits x) b)

def execOrn (x : LogicOp) (s : State) : Host.Outcome State Fault Refusal :=
  issueWord (.orn x) s (logicBody x fun a b => a ||| notBits (logicBits x) b)

/-- A shift: B is one register, and the count is taken modulo the width. -/
def shiftBody (x : LogicOp) (f : Nat → Nat → Nat → Nat) (h : Here) : Exec Unit :=
  let n := widthRegs x.w64
  let w := logicBits x
  runLanes h x.g x.d n [(x.a, n), (x.b, 1)] fun _ vs => (f w (arg vs 0) (arg vs 1 % w), flagNone)

def shlNat (w a n : Nat) : Nat := a * 2 ^ n % 2 ^ w
def shrNat (_w a n : Nat) : Nat := a / 2 ^ n
def sarNat (w a n : Nat) : Nat := wrapTo w (Int.fdiv (intOf true w a) (2 ^ n))
def rotlNat (w a n : Nat) : Nat := a * 2 ^ n % 2 ^ w + a / 2 ^ (w - n)

def execShl (x : LogicOp) (s : State) : Host.Outcome State Fault Refusal :=
  issueWord (.shl x) s (shiftBody x shlNat)

def execShr (x : LogicOp) (s : State) : Host.Outcome State Fault Refusal :=
  issueWord (.shr x) s (shiftBody x shrNat)

def execSar (x : LogicOp) (s : State) : Host.Outcome State Fault Refusal :=
  issueWord (.sar x) s (shiftBody x sarNat)

def execRotl (x : LogicOp) (s : State) : Host.Outcome State Fault Refusal :=
  issueWord (.rotl x) s (shiftBody x rotlNat)

/-- R150: B high, A low. -/
def funnel (left : Bool) (a b n : Nat) : Nat :=
  let x := b * 2 ^ 32 + a
  if left then x * 2 ^ n / 2 ^ 32 % 2 ^ 32 else x / 2 ^ n % 2 ^ 32

def execFshf (x : Op3F) (s : State) : Host.Outcome State Fault Refusal :=
  issueWord (.fshf x) s fun h => runLanes h x.g x.d 1 [(x.a, 1), (x.b, 1), (x.c, 1)] fun _ vs =>
    (funnel x.flag (arg vs 0) (arg vs 1) (arg vs 2 % 32), flagNone)

/-! ## Bit fields, permutes and counts (R151 to R153) -/

def fieldPos (b : Nat) : Nat := b % 256

def fieldLen (b : Nat) : Nat := min (b / 256 % 256) 32

/-- R151: the field of A, A extended as SX says. -/
def bfxNat (sx : Bool) (a b : Nat) : Nat :=
  let len := fieldLen b
  let f := (Int.fdiv (intOf sx 32 a) (2 ^ fieldPos b) % (2 ^ len : Int)).toNat
  if len = 0 then 0
  else if sx && f / 2 ^ (len - 1) % 2 == 1 then wrapTo 32 ((f : Int) - 2 ^ len)
  else f

/-- R151: bits [pos + len − 1 : pos] of C replaced by the low bits of A. -/
def bfiNat (a b c : Nat) : Nat :=
  let pos := fieldPos b
  (List.range 32).foldl (fun r j =>
    r + (if pos ≤ j ∧ j < min (pos + fieldLen b) 32 then a / 2 ^ (j - pos) % 2 else c / 2 ^ j % 2) * 2 ^ j) 0

def execBfx (x : BfxOp) (s : State) : Host.Outcome State Fault Refusal :=
  issueWord (.bfx x) s fun h => runLanes h x.g x.d 1 [(x.a, 1), (x.b, 1)] fun _ vs =>
    (bfxNat x.sx (arg vs 0) (arg vs 1), flagNone)

def execBfi (x : Op3) (s : State) : Host.Outcome State Fault Refusal :=
  issueWord (.bfi x) s fun h => runLanes h x.g x.d 1 [(x.a, 1), (x.b, 1), (x.c, 1)] fun _ vs =>
    (bfiNat (arg vs 0) (arg vs 1) (arg vs 2), flagNone)

/-- Byte k of the result of `PRMT` over the pool. -/
def prmtByte (pool sel : Nat) : Nat :=
  let y := pool / 2 ^ (8 * (sel % 8)) % 256
  if sel / 8 % 2 = 1 then (if y / 128 = 1 then 255 else 0) else y

def prmtNat (a b c : Nat) : Nat :=
  let pool := a + c * 2 ^ 32
  (List.range 4).foldl (fun r k => r + prmtByte pool (b / 2 ^ (4 * k) % 16) * 2 ^ (8 * k)) 0

/-- In the immediate form pool bytes 4 to 7 read as zero. -/
def execPrmt (x : Op3) (s : State) : Host.Outcome State Fault Refusal :=
  let cs := if isImm x.b then [] else [(x.c, 1)]
  issueWord (.prmt x) s fun h => runLanes h x.g x.d 1 ([(x.a, 1), (x.b, 1)] ++ cs) fun _ vs =>
    (prmtNat (arg vs 0) (arg vs 1) (arg vs 2), flagNone)

def popcNat (a : Nat) : Nat := ((List.range 32).filter fun k => nbit a k).length
def clzNat (a : Nat) : Nat := if a = 0 then 32 else 31 - Nat.log2 a
def ctzNat (a : Nat) : Nat := ((List.range 32).find? fun k => nbit a k).getD 32
def brevNat (a : Nat) : Nat :=
  (List.range 32).foldl (fun r k => r + (if nbit a (31 - k) then 2 ^ k else 0)) 0

/-- An instruction of one source. -/
def oneBody (x : Op1) (f : Nat → Nat) (h : Here) : Exec Unit :=
  runLanes h x.g x.d 1 [(x.a, 1)] fun _ vs => (f (arg vs 0), flagNone)

def execPopc (x : Op1) (s : State) : Host.Outcome State Fault Refusal := issueWord (.popc x) s (oneBody x popcNat)

def execClz (x : Op1) (s : State) : Host.Outcome State Fault Refusal := issueWord (.clz x) s (oneBody x clzNat)

def execCtz (x : Op1) (s : State) : Host.Outcome State Fault Refusal := issueWord (.ctz x) s (oneBody x ctzNat)

def execBrev (x : Op1) (s : State) : Host.Outcome State Fault Refusal := issueWord (.brev x) s (oneBody x brevNat)

/-! ## Addresses, comparison, selection and moves (R154 to R157) -/

/-- R154: B is sign-extended in the 64-bit form, unless ZX. -/
def leaNat (x : LeaOp) (a b : Nat) : Nat :=
  if x.w64 then wrapTo 64 ((a : Int) + intOf (!x.zx) 32 b * 2 ^ x.sh.val) else (a + b * 2 ^ x.sh.val) % 2 ^ 32

def execLea (x : LeaOp) (s : State) : Host.Outcome State Fault Refusal :=
  let n := widthRegs x.w64
  issueWord (.lea x) s fun h => runLanes h x.g x.d n [(x.a, n), (x.b, 1)] fun _ vs =>
    (leaNat x (arg vs 0) (arg vs 1), flagNone)

def icompare (c : ICmp) (a b : Int) : Bool :=
  match c with
  | .eq => decide (a = b)
  | .ne => decide (a ≠ b)
  | .lt => decide (a < b)
  | .le => decide (a ≤ b)
  | .gt => decide (b < a)
  | .ge => decide (b ≤ a)

/-- R155: the predicate table, bit 2t + q of FN. -/
def predTable (y : Crew) (tab : Option (Fin 8 × Fin 16)) (l : Nat) (t : Bool) : Bool :=
  match tab with
  | none => t
  | some (pq, fn) => nbit fn.val ((if t then 2 else 0) + (if readP y pq.val l then 1 else 0))

def execIsetp (x : IsetpOp) (s : State) : Host.Outcome State Fault Refusal :=
  let n := intRegs x.ty
  issueWord (.isetp x) s fun h => runPred h x.g x.pd.val [(x.a, n), (x.b, n)] fun l vs =>
    (predTable h.crew x.tab l (icompare x.cmp (valTy x.ty (arg vs 0)) (valTy x.ty (arg vs 1))), flagNone)

def execSel (x : SelOp) (s : State) : Host.Outcome State Fault Refusal :=
  issueWord (.sel x) s fun h => runLanes h x.g x.d 1 [(x.a, 1), (x.b, 1)] fun l vs =>
    (if readP h.crew x.ps.val l != x.pn then arg vs 0 else arg vs 1, flagNone)

/-- R157: with W64 the immediate is sign-extended. -/
def movNat (x : Op1F) (a : Nat) : Nat := if x.flag && isImm x.a then wrapTo 64 (intOf true 32 a) else a

def execMov (x : Op1F) (s : State) : Host.Outcome State Fault Refusal :=
  let n := widthRegs x.flag
  issueWord (.mov x) s fun h => runLanes h x.g x.d n [(x.a, n)] fun _ vs => (movNat x (arg vs 0), flagNone)

end Sys2Proof.Machine
end

