-- ==== Sys2Proof/Machine/Fp.lean ====
section
/-! DEFINITION. Floating-point instructions (13_instr_arithmetic.md R158 to R163). -/

namespace Sys2Proof.Machine

/-- R158 on operand A, B or C. -/
def modA (f : FF) (m : FMods) (x : Nat) : Nat := fmodPat f m.na m.aa x
def modB (f : FF) (m : FMods) (x : Nat) : Nat := fmodPat f m.nb m.ab x
def modC (f : FF) (m : FMods) (x : Nat) : Nat := fmodPat f m.nc false x

def fpBody (x : FpOp) (o : FOp) (h : Here) : Exec Unit :=
  runLanes h x.g x.d 1 [(x.a, 1), (x.b, 1)] fun _ vs =>
    fpBin ffF32 o (modA ffF32 x.m (arg vs 0)) (modB ffF32 x.m (arg vs 1))

def execFadd (x : FpOp) (s : State) : Host.Outcome State Fault Refusal := issueWord (.fadd x) s (fpBody x .add)

def execFsub (x : FpOp) (s : State) : Host.Outcome State Fault Refusal := issueWord (.fsub x) s (fpBody x .sub)

def execFmul (x : FpOp) (s : State) : Host.Outcome State Fault Refusal := issueWord (.fmul x) s (fpBody x .mul)

def execFmin (x : FpOp) (s : State) : Host.Outcome State Fault Refusal := issueWord (.fmin x) s (fpBody x .min)

def execFmax (x : FpOp) (s : State) : Host.Outcome State Fault Refusal := issueWord (.fmax x) s (fpBody x .max)

def execFfma (x : Fp3Op) (s : State) : Host.Outcome State Fault Refusal :=
  issueWord (.ffma x) s fun h => runLanes h x.g x.d 1 [(x.a, 1), (x.b, 1), (x.c, 1)] fun _ vs =>
    fpFma ffF32 (modA ffF32 x.m (arg vs 0)) (modB ffF32 x.m (arg vs 1)) (modC ffF32 x.m (arg vs 2))

def execFsetp (x : FsetpOp) (s : State) : Host.Outcome State Fault Refusal :=
  issueWord (.fsetp x) s fun h => runPred h x.g x.pd.val [(x.a, 1), (x.b, 1)] fun l vs =>
    let r := fpCmp x.cmp (fvOf ffF32 (modA ffF32 x.m (arg vs 0))) (fvOf ffF32 (modB ffF32 x.m (arg vs 1)))
    (predTable h.crew x.tab l r.1, r.2)

def execFclass (x : Op1) (s : State) : Host.Outcome State Fault Refusal :=
  issueWord (.fclass x) s (oneBody x fun a => 2 ^ fpClass (BitVec.ofNat 32 a))

/-- R162: the modifiers, then the function. -/
def sfuBody (x : SfuOp) (f : Nat → Nat × FlagSet) (h : Here) : Exec Unit :=
  runLanes h x.g x.d 1 [(x.a, 1)] fun _ vs => f (fmodPat ffF32 x.na x.aa (arg vs 0))

def execFrcp (x : SfuOp) (s : State) : Host.Outcome State Fault Refusal := issueWord (.frcp x) s (sfuBody x sfuRcp)

def execFrsq (x : SfuOp) (s : State) : Host.Outcome State Fault Refusal := issueWord (.frsq x) s (sfuBody x sfuRsq)

def execFsqrt (x : SfuOp) (s : State) : Host.Outcome State Fault Refusal := issueWord (.fsqrt x) s (sfuBody x sfuSqrt)

def execFex2 (x : SfuOp) (s : State) : Host.Outcome State Fault Refusal := issueWord (.fex2 x) s (sfuBody x sfuEx2)

def execFlg2 (x : SfuOp) (s : State) : Host.Outcome State Fault Refusal := issueWord (.flg2 x) s (sfuBody x sfuLg2)

def execFsin (x : SfuOp) (s : State) : Host.Outcome State Fault Refusal := issueWord (.fsin x) s (sfuBody x sfuSin)

def execFcos (x : SfuOp) (s : State) : Host.Outcome State Fault Refusal := issueWord (.fcos x) s (sfuBody x sfuCos)

def execFtanh (x : SfuOp) (s : State) : Host.Outcome State Fault Refusal := issueWord (.ftanh x) s (sfuBody x sfuTanh)

/-! ## Packed 16-bit (R163) -/

def ffHalf (bf : Bool) : FF := if bf then ffBf16 else ffF16

/-- Two elements computed apart and packed; their flags are ORed. -/
def packed2 (f : Nat → Nat × FlagSet) : Nat × FlagSet :=
  let r0 := f 0
  let r1 := f 1
  (r0.1 + r1.1 * 2 ^ 16, flagOr r0.2 r1.2)

def hBody (x : HOp) (o : FOp) (h : Here) : Exec Unit :=
  let f := ffHalf x.bf
  runLanes h x.g x.d 1 [(x.a, 1), (x.b, 1)] fun _ vs =>
    packed2 fun k => fpBin f o (modA f x.m (element 16 k (arg vs 0))) (modB f x.m (element 16 k (arg vs 1)))

def execHadd2 (x : HOp) (s : State) : Host.Outcome State Fault Refusal := issueWord (.hadd2 x) s (hBody x .add)

def execHmul2 (x : HOp) (s : State) : Host.Outcome State Fault Refusal := issueWord (.hmul2 x) s (hBody x .mul)

def execHfma2 (x : H3Op) (s : State) : Host.Outcome State Fault Refusal :=
  let f := ffHalf x.bf
  issueWord (.hfma2 x) s fun h => runLanes h x.g x.d 1 [(x.a, 1), (x.b, 1), (x.c, 1)] fun _ vs =>
    packed2 fun k => fpFma f (modA f x.m (element 16 k (arg vs 0))) (modB f x.m (element 16 k (arg vs 1)))
      (modC f x.m (element 16 k (arg vs 2)))

def execHmnmx2 (x : HmOp) (s : State) : Host.Outcome State Fault Refusal :=
  let f := ffHalf x.bf
  issueWord (.hmnmx2 x) s fun h => runLanes h x.g x.d 1 [(x.a, 1), (x.b, 1)] fun _ vs =>
    packed2 fun k => fpMinMax f x.max (modA f x.m (element 16 k (arg vs 0))) (modB f x.m (element 16 k (arg vs 1)))

end Sys2Proof.Machine
end

