-- ==== Sys2Proof/Machine/Convert.lean ====
section
/-! DEFINITION. Conversions, quad-scaled blocks, packing, codebooks and dot products (09_numbers_rules.md R109 to
R113, 13_instr_arithmetic.md R164 to R169). -/

namespace Sys2Proof.Machine

/-- The element of a source that `CVT` converts: the whole of a 32-bit or 64-bit one. -/
def cvtElement (x : CvtOp) (a : Nat) : Nat :=
  if fmtBits x.sf < 32 then element (fmtBits x.sf) x.esel.val a else a

def execCvt (x : CvtOp) (s : State) : Host.Outcome State Fault Refusal :=
  issueWord (.cvt x) s fun h => runLanes h x.g x.d (fmtRegs x.df) [(x.a, fmtRegs x.sf)] fun _ vs =>
    let r := convertTo x.sf x.df x.rz (valueIn x.sf (cvtElement x (arg vs 0)))
    (extendFmt x.df r.1, r.2)

/-! ## Quad-scaled blocks (R109, R110, R165, R166) -/

def qElem (q : QFmt) : Fmt :=
  match q with
  | .qf4 => .e2m1
  | .qi4 => .i4
  | .qf8 => .e4m3

/-- emax of R165. -/
def qEmax (q : QFmt) : Int :=
  match q with
  | .qf8 => 8
  | _ => 2

def qScaleBit (q : QFmt) : Nat := 4 * fmtBits (qElem q)

/-- Four elements and a scale as a block (R110). -/
def packBlock (q : QFmt) (es : List Nat) (sc : Nat) : Nat :=
  let w := fmtBits (qElem q)
  (List.range 4).foldl (fun r k => r + es.getD k 0 * 2 ^ (w * k)) 0 + sc * 2 ^ qScaleBit q

/-- The magnitude that the scale is chosen from, an infinity counting as the largest finite value. -/
def absNum (v : FV) : Nat × Int :=
  match v with
  | .fin _ m e => (m, e)
  | .inf _ => (2 ^ 24 - 1, 104)
  | .nan => (0, 0)

/-- floor(log2) of the greatest magnitude; none when every value is zero. -/
def maxLog (vs : List FV) : Option Int :=
  vs.foldl (fun a v =>
    let (m, e) := absNum v
    if m = 0 then a
    else
      let k : Int := (Nat.log2 m : Int) + e
      match a with
      | none => some k
      | some j => some (max j k)) none

/-- R165: the chosen scale. -/
def chooseScale (q : QFmt) (vs : List FV) : Nat :=
  match maxLog vs with
  | none => 127
  | some k => (max 0 (min 254 (k - qEmax q + 127))).toNat

/-- x × 2^k. -/
def scaleV (v : FV) (k : Int) : FV :=
  match v with
  | .fin n m e => .fin n m (e + k)
  | _ => v

/-- The block of four FP32 values (R165); `fix` is a given scale. -/
def cvtqBlock (q : QFmt) (fix : Option Nat) (xs : List Nat) : Nat × FlagSet :=
  let vs := xs.map (fvOf ffF32)
  let sc : Nat :=
    if vs.any isNanV then 255
    else match fix with
      | some k => k % 256
      | none => chooseScale q vs
  if sc = 255 then (packBlock q [] 255, flagNone)
  else
    let rs := vs.map fun v => convertTo .f32 (qElem q) false (scaleV v (127 - (sc : Int)))
    (packBlock q (rs.map (·.1)) sc, rs.foldl (fun a r => flagOr a r.2) flagNone)

/-- Register i of a group read as one number. -/
def groupReg (x i : Nat) : Nat := x / 2 ^ (32 * i) % 2 ^ 32

def execCvtq (x : CvtqOp) (s : State) : Host.Outcome State Fault Refusal :=
  let bs := match x.fix with
    | some b => [(b, 1)]
    | none => []
  issueWord (.cvtq x) s fun h => runLanes h x.g x.d (qRegs x.qf) ([(x.a, 4)] ++ bs) fun _ vs =>
    cvtqBlock x.qf (x.fix.map fun _ => arg vs 1) ((List.range 4).map fun i => groupReg (arg vs 0) i)

def dqFmt (d : DqFmt) : Fmt :=
  match d with
  | .f32 => .f32
  | .bf16 => .bf16
  | .f16 => .f16

/-- Element k of a block as a value (R110). -/
def blockValue (q : QFmt) (b k : Nat) : FV :=
  let sc := b / 2 ^ qScaleBit q % 256
  let v := valueIn (qElem q) (element (fmtBits (qElem q)) k b)
  if sc = 255 then .nan else scaleV v ((sc : Int) - 127)

/-- R166: the four values of a block, each in the low bits of `w` bits. -/
def cvtdqValues (q : QFmt) (d : DqFmt) (b : Nat) : List (Nat × FlagSet) :=
  (List.range 4).map fun k => cvtNarrow (ffOf (dqFmt d)) (blockValue q b k)

/-- Values side by side, w bits each. -/
def packBits (w : Nat) (xs : List Nat) : Nat :=
  match xs with
  | [] => 0
  | a :: r => a + packBits w r * 2 ^ w

def execCvtdq (x : CvtdqOp) (s : State) : Host.Outcome State Fault Refusal :=
  let n := if x.dq = .f32 then 4 else 2
  issueWord (.cvtdq x) s fun h => runLanes h x.g x.d n [(x.a, qRegs x.qf)] fun _ vs =>
    let rs := cvtdqValues x.qf x.dq (arg vs 0)
    (packBits (fmtBits (dqFmt x.dq)) (rs.map (·.1)), rs.foldl (fun a r => flagOr a r.2) flagNone)

/-! ## PACK, UNPK and LUTX (R167, R168) -/

/-- The element that `PACK` stores. -/
def packNarrow (w : Nat) (sm : SatMode) (a : Nat) : Nat × FlagSet :=
  match sm with
  | .trunc => (a % 2 ^ w, flagNone)
  | .sats =>
    let r := clampTo true w (intOf true 32 a)
    (wrapTo w r.1, r.2)
  | .satn =>
    let r := clampTo false w (intOf true 32 a)
    (wrapTo w r.1, r.2)

/-- b with element k of width w replaced. -/
def setElement (w k b x : Nat) : Nat := b - element w k b * 2 ^ (w * k) + x * 2 ^ (w * k)

def execPack (x : PackOp) (s : State) : Host.Outcome State Fault Refusal :=
  let w := elBits x.w
  issueWord (.pack x) s fun h => runLanes h x.g x.d 1 [(x.a, 1), (x.b, 1)] fun _ vs =>
    let r := packNarrow w x.sm (arg vs 0)
    (setElement w x.el.val (arg vs 1) r.1, r.2)

def unpkNat (w el : Nat) (sx : Bool) (a : Nat) : Nat := wrapTo 32 (intOf sx w (element w el a))

def execUnpk (x : UnpkOp) (s : State) : Host.Outcome State Fault Refusal :=
  issueWord (.unpk x) s fun h => runLanes h x.g x.d 1 [(x.a, 1)] fun _ vs =>
    (unpkNat (elBits x.w) x.el.val x.sx (arg vs 0), flagNone)

/-- R111: entry c of the codebook at s(b). -/
def codebookEntry (y : Crew) (b c : Nat) : Nat := element 16 (c % 2) (readS y (b + c / 2)).toNat

/-- BF16 widened to FP32, a NaN canonical. -/
def widenBf16 (x : Nat) : Nat := (convertTo .bf16 .f32 false (valueIn .bf16 x)).1

/-- R168: the four results for the codes of A. -/
def lutxNat (y : Crew) (x : LutxOp) (a : Nat) : Nat :=
  let es := (List.range 4).map fun k => codebookEntry y x.sb (element 4 ((if x.hi then 4 else 0) + k) a)
  if x.f32 then packBits 32 (es.map widenBf16) else packBits 16 es

def execLutx (x : LutxOp) (s : State) : Host.Outcome State Fault Refusal :=
  let n := if x.f32 then 4 else 2
  issueWord (.lutx x) s fun h => runLanes h x.g x.d n [(x.a, 1)] fun _ vs =>
    (lutxNat h.crew x (arg vs 0), flagNone)

/-! ## Dot products (R169) -/

/-- Σ a_k × b_k + c over n elements of width w. -/
def idpNat (w n : Nat) (x : IdpOp) (a b c : Nat) : Nat × FlagSet :=
  let sum := (List.range n).foldl (fun r k =>
    r + intOf (!x.ua) w (element w k a) * intOf (!x.ub) w (element w k b)) (intOf true 32 c)
  satWrap .i32 x.sat sum

def idpBody (w n : Nat) (x : IdpOp) (h : Here) : Exec Unit :=
  runLanes h x.g x.d 1 [(x.a, 1), (x.b, 1), (x.c, 1)] fun _ vs => idpNat w n x (arg vs 0) (arg vs 1) (arg vs 2)

def execIdp4 (x : IdpOp) (s : State) : Host.Outcome State Fault Refusal := issueWord (.idp4 x) s (idpBody 8 4 x)

def execIdp8 (x : IdpOp) (s : State) : Host.Outcome State Fault Refusal := issueWord (.idp8 x) s (idpBody 4 8 x)

/-- The exact sum of n products of elements of width w in formats fa and fb, and an FP32 addend. -/
def fdpNat (fa fb : FF) (w n : Nat) (a b c : Nat) : Nat × FlagSet :=
  fpSum ffF32 ((List.range n).map fun k => (fvOf fa (element w k a), fvOf fb (element w k b))) [fvOf ffF32 c]

def ffFp8 (e5 : Bool) : FF := if e5 then ffE5m2 else ffE4m3

def execFdp4 (x : Fdp4Op) (s : State) : Host.Outcome State Fault Refusal :=
  issueWord (.fdp4 x) s fun h => runLanes h x.g x.d 1 [(x.a, 1), (x.b, 1), (x.c, 1)] fun _ vs =>
    fdpNat (ffFp8 x.fa) (ffFp8 x.fb) 8 4 (arg vs 0) (arg vs 1) (arg vs 2)

def execFdp2 (x : Op3F) (s : State) : Host.Outcome State Fault Refusal :=
  issueWord (.fdp2 x) s fun h => runLanes h x.g x.d 1 [(x.a, 1), (x.b, 1), (x.c, 1)] fun _ vs =>
    fdpNat (ffHalf x.flag) (ffHalf x.flag) 16 2 (arg vs 0) (arg vs 1) (arg vs 2)

end Sys2Proof.Machine
end

