-- ==== Sys2Proof/WellFormed.lean ====
section
/-! DEFINITION. Which instructions have a legal encoding: every operand place holds a name it admits, a scalar
operation reads no per-lane source, and every field holds a value its table lists. A breach is the ILLOP of
R123 to R132 and of the fate tables of the instruction chapters. -/

namespace Sys2Proof

/-- A row of the table that is an instruction word, not a step of the device or the host. -/
def Instr.isWord (i : Instr) : Bool :=
  match i with
  | .starvationIssue _ | .fairnessPrecedence _ | .divergencePop _ _ | .sleepExpiry _ | .waitWake _
  | .waitTimeout _ | .submission _ | .submissionDecode _ | .launchAccept _ | .launchStart _
  | .blockPlace _ | .blockRetire _ | .stealq _ _ | .stealg _ _ | .stealn _ _ | .preempt _
  | .slipwayBatchLaunch _ | .slipwayFlush _ | .remitUnpark _ | .parkSaveTimeout _ | .outsideWaitSave _
  | .blockRestore _ | .checkpointWindowExpiry _ | .saveComplete _ | .storeFault _ | .faultRecordWrite _
  | .fqackReplay _ | .fqackKill _ | .fqackDock _ | .haltComplete _ | .requestInject _ | .replySink _
  | .controlMessage _ | .probe _ _ _ | .mooringFillLand _ _ _ | .writebackAck _ _ _ | .probeTimeout _ _
  | .walkComplete _ | .evslLoad _ _ | .evslLoadDone _ | .evphWrite _ _ | .copyLineLand _ _
  | .sendDelivery _ _ | .sendRetry _ | .mcastBranchRetry _ | .armatureInput _ | .armatureTimeout _
  | .matrixPassStart _ _ | .matrixPassDone _ _ | .mswapPoint _ _ | .tileOpPoint _ _ | .mldwDone _ _
  | .mstDone _ _ | .enter _ | .adopt _ | .commit _ | .closeAck _ | .park _ | .reclaim _
  | .capsuleStore _ | .conflictRestart _ _ | .tapeWriteOut _ _ | .qictlWrite _ _
  | .qiinvFirstStage _ _ | .qiinvInterface _ | .qiinvRevoke _ _ | .qiinvSecondStage _ | .qiinvDone _
  | .hsemClaim _ _ | .hsemRel _ _ | .portReset _ | .hostMemAccess _ | .hostSnoop _ _ _
  | .remoteTimeout _ | .flitReplay _ | .tokenWindow _ | .tokbudWrite _ _ | .tshiftDecay _
  | .thermalTrip _ | .powerGood _ _ _ _ | .opticalTrainTimeout | .rstreq | .getVersion _
  | .getCapabilities _ | .negotiateAlgorithms _ | .getDigests _ | .getCertificate _ | .challenge _
  | .getMeasurements _ | .patrolScrub _ _ | .registerWrite _ _ _ | .homeSliceRequest _
  | .crilvonRemoteRequest _ | .ucieLinkFailure _ | .corePowerGating _ => false
  | _ => true

/-- A well-formed instruction. -/
def Instr.wf (i : Instr) : Bool :=
  i.isWord && (Machine.uses i).all Machine.useOk && Machine.scalarOk i && Machine.fieldsOk i

end Sys2Proof
end

