-- ==== Sys2Proof/Decode.lean ====
section
/-! DEFINITION. Decoding: the fields of a word (R123, R127, R131), the opcode map (R129, R132), a decoder total on
every 64-bit word, and the encoder written from the same tables. A word decodes to the instruction whose encoding
it is: any other word is ILLOP (R130), or ILLPAIR when only a rule of R133 fails. -/

namespace Sys2Proof

/-! ## Fields of a word -/

/-- The fields of the full format (R123). -/
structure Raw where
  major : Nat
  gn : Nat
  gp : Nat
  d : Nat
  a : Nat
  b : Nat
  c : Nat
  func : Nat
  deriving DecidableEq, Repr

/-- R123: the word of the fields. -/
def rawWord (r : Raw) : Nat :=
  r.major * 2 ^ 56 + r.gn * 2 ^ 55 + r.gp * 2 ^ 52 + r.d * 2 ^ 43 + r.a * 2 ^ 34 + r.b * 2 ^ 25
    + r.c * 2 ^ 16 + r.func

/-- R123: the fields of a word with bit 63 clear. -/
def rawFields (w : Nat) : Raw :=
  { major := w / 2 ^ 56 % 128, gn := w / 2 ^ 55 % 2, gp := w / 2 ^ 52 % 8, d := w / 2 ^ 43 % 512,
    a := w / 2 ^ 34 % 512, b := w / 2 ^ 25 % 512, c := w / 2 ^ 16 % 512, func := w % 65536 }

/-- R127: I is set. -/
def rawI (r : Raw) : Bool := r.func / 2 ^ 15 % 2 == 1

/-- R127: IMM[31:14] in the place of B and C, IMM[13:0] in FUNC[14:1]. -/
def rawImm (r : Raw) : Word :=
  BitVec.ofNat 32 ((r.b * 512 + r.c) * 2 ^ 14 + r.func / 2 % 2 ^ 14)

/-- R127: IMOD. -/
def rawImod (r : Raw) : Bool := r.func % 2 == 1

/-- Bit k of FUNC. -/
def fbit (r : Raw) (k : Nat) : Bool := r.func / 2 ^ k % 2 == 1

/-- Bits [k + w - 1 : k] of FUNC. -/
def ffld (r : Raw) (k w : Nat) : Nat := r.func / 2 ^ k % 2 ^ w

def ffin (r : Raw) (k : Nat) : Fin 8 := Fin.ofNat 8 (ffld r k 3)

def b2n (b : Bool) : Nat := if b then 1 else 0

/-! ## Operand fields (R124, R125) -/

/-- The operand that a 9-bit field names. -/
def opndOf (n : Nat) : Option Opnd :=
  if n < 192 then some (.v n)
  else if n < 240 then some (.s (n - 192))
  else match n with
    | 240 => some .zero
    | 241 => some .lane
    | 242 => some .crew
    | 243 => some .bx
    | 244 => some .byIdx
    | 245 => some .bz
    | 246 => some .rank
    | 247 => some .core
    | 248 => some .clk
    | 249 => some .ones
    | _ =>
      if 256 ≤ n ∧ n < 288 then some (.chan ((n - 256) % 16) ((n - 256) / 16 == 1)) else none

/-- The field that names an operand. -/
def opndCode (o : Opnd) : Nat :=
  match o with
  | .v n => n
  | .s n => 192 + n
  | .zero => 240
  | .lane => 241
  | .crew => 242
  | .bx => 243
  | .byIdx => 244
  | .bz => 245
  | .rank => 246
  | .core => 247
  | .clk => 248
  | .ones => 249
  | .chan n pk => 256 + 16 * b2n pk + n
  | .imm _ => 0

/-! ## Codes of the modifiers -/

def intTyOf (n : Nat) : IntTy :=
  match n with
  | 0 => .i32
  | 1 => .n32
  | 2 => .i64
  | _ => .n64

def intTyCode (t : IntTy) : Nat :=
  match t with
  | .i32 => 0
  | .n32 => 1
  | .i64 => 2
  | .n64 => 3

def icmpOf (n : Nat) : Option ICmp :=
  match n with
  | 0 => some .eq
  | 1 => some .ne
  | 2 => some .lt
  | 3 => some .le
  | 4 => some .gt
  | 5 => some .ge
  | _ => none

def icmpCode (c : ICmp) : Nat :=
  match c with
  | .eq => 0
  | .ne => 1
  | .lt => 2
  | .le => 3
  | .gt => 4
  | .ge => 5

def fcmpOf (n : Nat) : Option FCmp :=
  match n with
  | 0 => some .eq
  | 1 => some .ne
  | 2 => some .lt
  | 3 => some .le
  | 4 => some .gt
  | 5 => some .ge
  | 6 => some .num
  | 7 => some .nan
  | _ => none

def fcmpCode (c : FCmp) : Nat :=
  match c with
  | .eq => 0
  | .ne => 1
  | .lt => 2
  | .le => 3
  | .gt => 4
  | .ge => 5
  | .num => 6
  | .nan => 7

/-- R164. -/
def fmtOf (n : Nat) : Fmt :=
  match n with
  | 0 => .f32
  | 1 => .f16
  | 2 => .bf16
  | 3 => .e4m3
  | 4 => .e5m2
  | 5 => .e2m1
  | 6 => .i32
  | 7 => .n32
  | 8 => .i16
  | 9 => .n16
  | 10 => .i8
  | 11 => .n8
  | 12 => .i4
  | 13 => .n4
  | 14 => .i64
  | _ => .n64

def fmtCode (f : Fmt) : Nat :=
  match f with
  | .f32 => 0
  | .f16 => 1
  | .bf16 => 2
  | .e4m3 => 3
  | .e5m2 => 4
  | .e2m1 => 5
  | .i32 => 6
  | .n32 => 7
  | .i16 => 8
  | .n16 => 9
  | .i8 => 10
  | .n8 => 11
  | .i4 => 12
  | .n4 => 13
  | .i64 => 14
  | .n64 => 15

def qfmtOf (n : Nat) : Option QFmt :=
  match n with
  | 0 => some .qf4
  | 1 => some .qi4
  | 2 => some .qf8
  | _ => none

def qfmtCode (q : QFmt) : Nat :=
  match q with
  | .qf4 => 0
  | .qi4 => 1
  | .qf8 => 2

def dqOf (n : Nat) : Option DqFmt :=
  match n with
  | 0 => some .f32
  | 1 => some .bf16
  | 2 => some .f16
  | _ => none

def dqCode (q : DqFmt) : Nat :=
  match q with
  | .f32 => 0
  | .bf16 => 1
  | .f16 => 2

/-- R185. -/
def scopeOf (n : Nat) : Option Scope :=
  match n with
  | 0 => some .dev
  | 1 => some .crew
  | 2 => some .blk
  | 3 => some .flt
  | 4 => some .sys
  | _ => none

def scopeCode (s : Scope) : Nat :=
  match s with
  | .dev => 0
  | .crew => 1
  | .blk => 2
  | .flt => 3
  | .sys => 4

def sizeOf' (n : Nat) : Option Size :=
  match n with
  | 0 => some .b8
  | 1 => some .b16
  | 2 => some .b32
  | 3 => some .b64
  | 4 => some .b128
  | _ => none

def sizeCode (z : Size) : Nat :=
  match z with
  | .b8 => 0
  | .b16 => 1
  | .b32 => 2
  | .b64 => 3
  | .b128 => 4

def elwOf (n : Nat) : Option ElW :=
  match n with
  | 0 => some .w8
  | 1 => some .w16
  | 2 => some .w4
  | _ => none

def elwCode (w : ElW) : Nat :=
  match w with
  | .w8 => 0
  | .w16 => 1
  | .w4 => 2

def satOf (n : Nat) : Option SatMode :=
  match n with
  | 0 => some .trunc
  | 1 => some .sats
  | 2 => some .satn
  | _ => none

def satCode (w : SatMode) : Nat :=
  match w with
  | .trunc => 0
  | .sats => 1
  | .satn => 2

def shflOf (n : Nat) : ShflMode :=
  match n with
  | 0 => .idx
  | 1 => .up
  | 2 => .down
  | _ => .xor

def shflCode (m : ShflMode) : Nat :=
  match m with
  | .idx => 0
  | .up => 1
  | .down => 2
  | .xor => 3

def voteOf (n : Nat) : VoteMode :=
  match n with
  | 1 => .all
  | 2 => .any
  | _ => .uni

def voteCode (m : VoteMode) : Nat :=
  match m with
  | .all => 1
  | .any => 2
  | .uni => 3

def redOpOf (n : Nat) : Option RedOp :=
  match n with
  | 0 => some .add
  | 1 => some .min
  | 2 => some .max
  | 3 => some .and
  | 4 => some .or
  | 5 => some .xor
  | _ => none

def redOpCode (o : RedOp) : Nat :=
  match o with
  | .add => 0
  | .min => 1
  | .max => 2
  | .and => 3
  | .or => 4
  | .xor => 5

def redTyOf (n : Nat) : Option RedTy :=
  match n with
  | 0 => some .i32
  | 1 => some .n32
  | 2 => some .f32
  | 3 => some .i64
  | 4 => some .n64
  | _ => none

def redTyCode (t : RedTy) : Nat :=
  match t with
  | .i32 => 0
  | .n32 => 1
  | .f32 => 2
  | .i64 => 3
  | .n64 => 4

def atomOpOf (n : Nat) : Option AtomOp :=
  match n with
  | 0 => some .add
  | 1 => some .min
  | 2 => some .max
  | 3 => some .and
  | 4 => some .or
  | 5 => some .xor
  | 6 => some .exch
  | 7 => some .cas
  | 8 => some .inc
  | 9 => some .dec
  | _ => none

def atomOpCode (o : AtomOp) : Nat :=
  match o with
  | .add => 0
  | .min => 1
  | .max => 2
  | .and => 3
  | .or => 4
  | .xor => 5
  | .exch => 6
  | .cas => 7
  | .inc => 8
  | .dec => 9

def atomTyOf (n : Nat) : Option AtomTy :=
  match n with
  | 0 => some .i32
  | 1 => some .n32
  | 2 => some .i64
  | 3 => some .n64
  | 4 => some .f32
  | _ => none

def atomTyCode (t : AtomTy) : Nat :=
  match t with
  | .i32 => 0
  | .n32 => 1
  | .i64 => 2
  | .n64 => 3
  | .f32 => 4

def wfmtOf (n : Nat) : Option WFmt :=
  match n with
  | 0 => some .e4m3
  | 1 => some .e5m2
  | 2 => some .bf16
  | 3 => some .i4
  | 4 => some .e2m1
  | 5 => some .lut4
  | _ => none

def wfmtCode (f : WFmt) : Nat :=
  match f with
  | .e4m3 => 0
  | .e5m2 => 1
  | .bf16 => 2
  | .i4 => 3
  | .e2m1 => 4
  | .lut4 => 5

def afmtOf (n : Nat) : Option AFmt :=
  match n with
  | 0 => some .e4m3
  | 1 => some .e5m2
  | 2 => some .bf16
  | 3 => some .i4
  | 4 => some .e2m1
  | _ => none

def afmtCode (f : AFmt) : Nat :=
  match f with
  | .e4m3 => 0
  | .e5m2 => 1
  | .bf16 => 2
  | .i4 => 3
  | .e2m1 => 4

/-- R222. -/
def sprOf (n : Nat) : Option Spr :=
  match n with
  | 0x000 => some .fstat
  | 0x001 => some .tst
  | 0x002 => some .tctl
  | 0x030 => some .energy
  | 0x031 => some .ltag
  | 0x032 => some .batch
  | 0x033 => some .prio
  | 0x034 => some .die
  | 0x035 => some .clk64
  | 0x036 => some .ltime
  | 0x037 => some .lease
  | _ =>
    if n / 16 = 1 then some (.chb (Fin.ofNat 16 n))
    else if n / 4 = 8 then some (.rrcfg (Fin.ofNat 4 n)) else none

def sprCode (r : Spr) : Nat :=
  match r with
  | .fstat => 0x000
  | .tst => 0x001
  | .tctl => 0x002
  | .chb n => 0x010 + n.val
  | .rrcfg k => 0x020 + k.val
  | .energy => 0x030
  | .ltag => 0x031
  | .batch => 0x032
  | .prio => 0x033
  | .die => 0x034
  | .clk64 => 0x035
  | .ltime => 0x036
  | .lease => 0x037

def popOf (n : Nat) : Option PopKind :=
  match n with
  | 0 => some .val
  | 1 => some .mark
  | 2 => some .gap
  | _ => none

def popCode (k : PopKind) : Nat :=
  match k with
  | .val => 0
  | .mark => 1
  | .gap => 2

def tselOf (n : Nat) : Option TstatSel :=
  match n with
  | 0 => some .top
  | 1 => some .next
  | 2 => some .num
  | _ => none

def tselCode (k : TstatSel) : Nat :=
  match k with
  | .top => 0
  | .next => 1
  | .num => 2

/-- R132. -/
def popcodeOf (n : Nat) : Option POp :=
  match n with
  | 0x00 => some .nop
  | 0x01 => some .iadd
  | 0x02 => some .isub
  | 0x03 => some .imul
  | 0x04 => some .imin
  | 0x05 => some .imax
  | 0x06 => some .and
  | 0x07 => some .or
  | 0x08 => some .xor
  | 0x09 => some .andn
  | 0x0A => some .shl
  | 0x0B => some .shr
  | 0x0C => some .sar
  | 0x0D => some .rotl
  | 0x0E => some .popc
  | 0x0F => some .mov
  | 0x10 => some .fadd
  | 0x11 => some .fsub
  | 0x12 => some .fmul
  | 0x13 => some .fmin
  | 0x14 => some .fmax
  | 0x15 => some .hadd2
  | 0x16 => some .hmul2
  | 0x17 => some .cvt
  | 0x18 => some .lds
  | 0x19 => some .sts
  | 0x1A => some .orn
  | 0x1B => some .iabs
  | 0x1C => some .clz
  | 0x1D => some .ctz
  | 0x1E => some .brev
  | 0x1F => some .lea
  | 0x20 => some .imulhi
  | 0x21 => some .fshf
  | 0x22 => some .hmnmx2
  | 0x23 => some .fclass
  | 0x24 => some .frcp
  | 0x25 => some .frsq
  | 0x26 => some .fsqrt
  | 0x27 => some .fex2
  | 0x28 => some .flg2
  | 0x29 => some .fsin
  | 0x2A => some .fcos
  | 0x2B => some .ftanh
  | 0x2C => some .sel
  | 0x2D => some .pack
  | 0x2E => some .unpk
  | _ => none

def popcodeCode (o : POp) : Nat :=
  match o with
  | .nop => 0x00
  | .iadd => 0x01
  | .isub => 0x02
  | .imul => 0x03
  | .imin => 0x04
  | .imax => 0x05
  | .and => 0x06
  | .or => 0x07
  | .xor => 0x08
  | .andn => 0x09
  | .shl => 0x0A
  | .shr => 0x0B
  | .sar => 0x0C
  | .rotl => 0x0D
  | .popc => 0x0E
  | .mov => 0x0F
  | .fadd => 0x10
  | .fsub => 0x11
  | .fmul => 0x12
  | .fmin => 0x13
  | .fmax => 0x14
  | .hadd2 => 0x15
  | .hmul2 => 0x16
  | .cvt => 0x17
  | .lds => 0x18
  | .sts => 0x19
  | .orn => 0x1A
  | .iabs => 0x1B
  | .clz => 0x1C
  | .ctz => 0x1D
  | .brev => 0x1E
  | .lea => 0x1F
  | .imulhi => 0x20
  | .fshf => 0x21
  | .hmnmx2 => 0x22
  | .fclass => 0x23
  | .frcp => 0x24
  | .frsq => 0x25
  | .fsqrt => 0x26
  | .fex2 => 0x27
  | .flg2 => 0x28
  | .fsin => 0x29
  | .fcos => 0x2A
  | .ftanh => 0x2B
  | .sel => 0x2C
  | .pack => 0x2D
  | .unpk => 0x2E

/-! ## Encoding -/

/-- A word of the full format. -/
def full (major : Nat) (g : Guard) (d a b c func : Nat) : Raw :=
  ⟨major, b2n g.neg, g.p.val, d, a, b, c, func⟩

/-- A word of the immediate form (R127). -/
def immed (major : Nat) (g : Guard) (d a : Nat) (x : Word) (imod : Bool) : Raw :=
  ⟨major, b2n g.neg, g.p.val, d, a, x.toNat / 2 ^ 14 / 512, x.toNat / 2 ^ 14 % 512,
    2 ^ 15 + x.toNat % 2 ^ 14 * 2 + b2n imod⟩

/-- The immediate form when B is an immediate, else the full format. -/
def bform (major : Nat) (g : Guard) (d a : Nat) (b : Opnd) (c func : Nat) (imod : Bool) : Raw :=
  match b with
  | .imm x => immed major g d a x imod
  | b => full major g d a (opndCode b) c func

/-- An optional operand field: 0x000 when it is absent (R124). -/
def optCode (o : Option Opnd) : Nat :=
  match o with
  | some x => opndCode x
  | none => 0

/-- R158. -/
def modsCode (m : FMods) : Nat :=
  b2n m.na + 2 * b2n m.nb + 4 * b2n m.nc + 8 * b2n m.aa + 16 * b2n m.ab

def modsOf (r : Raw) : FMods := ⟨fbit r 0, fbit r 1, fbit r 2, fbit r 3, fbit r 4⟩

/-- C's predicate of a predicate table (R155). -/
def tabC (tab : Option (Fin 8 × Fin 16)) : Nat :=
  match tab with
  | some (p, _) => p.val
  | none => 0

def tabFn (tab : Option (Fin 8 × Fin 16)) : Nat :=
  match tab with
  | some (_, fn) => fn.val
  | none => 0

/-- R146; IMOD is SAT. -/
def encSat (major : Nat) (x : IntOp) : Raw :=
  bform major x.g (opndCode x.d) (opndCode x.a) x.b 0 (intTyCode x.ty + 4 * b2n x.sat) x.sat

/-- R146; IMOD is n32. -/
def encTy (major : Nat) (x : IntOp) : Raw :=
  bform major x.g (opndCode x.d) (opndCode x.a) x.b 0 (intTyCode x.ty + 4 * b2n x.sat) (x.ty == .n32)

def encInt3 (major : Nat) (x : Int3Op) : Raw :=
  full major x.g (opndCode x.d) (opndCode x.a) (opndCode x.b) (opndCode x.c) (intTyCode x.ty)

def encLogic (major : Nat) (x : LogicOp) : Raw :=
  bform major x.g (opndCode x.d) (opndCode x.a) x.b 0 (2 * b2n x.w64) false

def enc1 (major : Nat) (x : Op1) : Raw :=
  full major x.g (opndCode x.d) (opndCode x.a) 0 0 0

def enc3 (major : Nat) (x : Op3) : Raw :=
  full major x.g (opndCode x.d) (opndCode x.a) (opndCode x.b) (opndCode x.c) 0

def enc3F (major : Nat) (x : Op3F) : Raw :=
  full major x.g (opndCode x.d) (opndCode x.a) (opndCode x.b) (opndCode x.c) (b2n x.flag)

def encFp (major : Nat) (x : FpOp) : Raw :=
  bform major x.g (opndCode x.d) (opndCode x.a) x.b 0 (modsCode x.m) false

def encSfu (major : Nat) (x : SfuOp) : Raw :=
  full major x.g (opndCode x.d) (opndCode x.a) 0 0 (b2n x.na + 8 * b2n x.aa)

def encH (major : Nat) (x : HOp) : Raw :=
  bform major x.g (opndCode x.d) (opndCode x.a) x.b 0 (modsCode x.m + 32 * b2n x.bf) false

def encIdp (major : Nat) (x : IdpOp) : Raw :=
  full major x.g (opndCode x.d) (opndCode x.a) (opndCode x.b) (opndCode x.c)
    (b2n x.ua + 2 * b2n x.ub + 4 * b2n x.sat)

def encRed (major : Nat) (x : RedLaneOp) : Raw :=
  full major x.g (opndCode x.d) (opndCode x.a) 0 0
    (redOpCode x.op + 8 * redTyCode x.ty + 64 * b2n x.excl)

/-- R185. -/
def memFunc (x : MemOp) : Nat :=
  sizeCode x.sz + 8 * b2n x.sx + 16 * x.buf.val + 512 * b2n x.sem + 2048 * scopeCode x.scope

/-- R186: IMOD 0 is b32 and IMOD 1 is b64. -/
def encMem (major : Nat) (x : MemOp) (c : Nat) : Raw :=
  bform major x.g (opndCode x.d) (opndCode x.a) x.b c (memFunc x) (x.sz == .b64)

def encSend (major : Nat) (x : SendOp) : Raw :=
  full major x.g (opndCode x.d) (opndCode x.a) (opndCode x.b) 0 x.ring.val

/-- R199. -/
def encWait (pd : Fin 8) (a : Nat) (b : Opnd) (c : Option Opnd) (func : Nat) : Raw :=
  bform 0x6F Machine.unguarded pd.val a b (optCode c) func false

/-- R131: one half of a paired word. -/
def halfWord (h : Half) : Nat :=
  let d := match h.d with
    | .chan c _ => 128 + c
    | o => opndCode o
  popcodeCode h.op * 2 ^ 25 + d * 2 ^ 17 + opndCode h.s * 2 ^ 8 + b2n h.imm * 2 ^ 7 + h.m.val

/-- The fields of an instruction of the full format. -/
def encRaw (i : Instr) : Raw :=
  let u := Machine.unguarded
  match i with
  | .iadd x => encSat 0x01 x
  | .isub x => encSat 0x02 x
  | .iaddc x =>
    full 0x03 x.g (opndCode x.d) (opndCode x.a) (opndCode x.b) 0
      ((match x.cin with
        | some (p, n) => p.val + 8 * b2n n + 16
        | none => 0) + 32 * x.pco.val)
  | .imul x => encTy 0x04 x
  | .imulhi x => encTy 0x05 x
  | .imad x => encInt3 0x06 x
  | .imadw x => encInt3 0x07 x
  | .imin x => encTy 0x08 x
  | .imax x => encTy 0x09 x
  | .iabs x =>
    full 0x0A x.g (opndCode x.d) (opndCode x.a) 0 0 (intTyCode x.ty + 4 * b2n x.sat)
  | .and x => encLogic 0x0B x
  | .or x => encLogic 0x0C x
  | .xor x => encLogic 0x0D x
  | .andn x => encLogic 0x0E x
  | .orn x => encLogic 0x0F x
  | .shl x => encLogic 0x10 x
  | .shr x => encLogic 0x11 x
  | .sar x => encLogic 0x12 x
  | .rotl x => encLogic 0x13 x
  | .fshf x => enc3F 0x14 x
  | .bfx x => bform 0x15 x.g (opndCode x.d) (opndCode x.a) x.b 0 (b2n x.sx) x.sx
  | .bfi x => enc3 0x16 x
  | .popc x => enc1 0x17 x
  | .clz x => enc1 0x18 x
  | .ctz x => enc1 0x19 x
  | .brev x => enc1 0x1A x
  | .prmt x => bform 0x1B x.g (opndCode x.d) (opndCode x.a) x.b (opndCode x.c) 0 false
  | .lea x =>
    bform 0x1C x.g (opndCode x.d) (opndCode x.a) x.b 0 (x.sh.val + 8 * b2n x.w64 + 16 * b2n x.zx) x.w64
  | .isetp x =>
    bform 0x1D x.g x.pd.val (opndCode x.a) x.b (tabC x.tab)
      (intTyCode x.ty + 4 * icmpCode x.cmp + 64 * tabFn x.tab) (x.cmp == .ne)
  | .sel x =>
    full 0x1E x.g (opndCode x.d) (opndCode x.a) (opndCode x.b) 0 (x.ps.val + 8 * b2n x.pn)
  | .mov x =>
    match x.a with
    | .imm v => immed 0x1F x.g (opndCode x.d) 0 v x.flag
    | a => full 0x1F x.g (opndCode x.d) (opndCode a) 0 0 (2 * b2n x.flag)
  | .fadd x => encFp 0x20 x
  | .fsub x => encFp 0x21 x
  | .fmul x => encFp 0x22 x
  | .ffma x =>
    full 0x23 x.g (opndCode x.d) (opndCode x.a) (opndCode x.b) (opndCode x.c) (modsCode x.m)
  | .fmin x => encFp 0x24 x
  | .fmax x => encFp 0x25 x
  | .fsetp x =>
    full 0x26 x.g x.pd.val (opndCode x.a) (opndCode x.b) (tabC x.tab)
      (modsCode x.m + 32 * fcmpCode x.cmp + 512 * tabFn x.tab)
  | .fclass x => enc1 0x27 x
  | .frcp x => encSfu 0x28 x
  | .frsq x => encSfu 0x29 x
  | .fsqrt x => encSfu 0x2A x
  | .fex2 x => encSfu 0x2B x
  | .flg2 x => encSfu 0x2C x
  | .fsin x => encSfu 0x2D x
  | .fcos x => encSfu 0x2E x
  | .ftanh x => encSfu 0x2F x
  | .hadd2 x => encH 0x30 x
  | .hmul2 x => encH 0x31 x
  | .hfma2 x =>
    full 0x32 x.g (opndCode x.d) (opndCode x.a) (opndCode x.b) (opndCode x.c)
      (modsCode x.m + 32 * b2n x.bf)
  | .hmnmx2 x =>
    bform 0x33 x.g (opndCode x.d) (opndCode x.a) x.b 0
      (modsCode x.m + 32 * b2n x.bf + 64 * b2n x.max) x.max
  | .cvt x =>
    full 0x34 x.g (opndCode x.d) (opndCode x.a) 0 0
      (fmtCode x.sf + 16 * fmtCode x.df + 256 * b2n x.rz + 512 * x.esel.val)
  | .cvtq x =>
    full 0x35 x.g (opndCode x.d) (opndCode x.a) (optCode x.fix) 0
      (qfmtCode x.qf + 4 * b2n x.fix.isSome)
  | .cvtdq x =>
    full 0x36 x.g (opndCode x.d) (opndCode x.a) 0 0 (qfmtCode x.qf + 16 * dqCode x.dq)
  | .pack x =>
    full 0x37 x.g (opndCode x.d) (opndCode x.a) (opndCode x.b) 0
      (x.el.val + 8 * elwCode x.w + 32 * satCode x.sm)
  | .unpk x =>
    full 0x38 x.g (opndCode x.d) (opndCode x.a) 0 0 (x.el.val + 8 * elwCode x.w + 32 * b2n x.sx)
  | .lutx x =>
    full 0x39 x.g (opndCode x.d) (opndCode x.a) (opndCode (.s x.sb)) 0 (b2n x.hi + 2 * b2n x.f32)
  | .idp4 x => encIdp 0x3A x
  | .idp8 x => encIdp 0x3B x
  | .fdp4 x =>
    full 0x3C x.g (opndCode x.d) (opndCode x.a) (opndCode x.b) (opndCode x.c)
      (b2n x.fa + 2 * b2n x.fb)
  | .fdp2 x => enc3F 0x3D x
  | .shfl x =>
    bform 0x40 x.g (opndCode x.d) (opndCode x.a) x.b 0 (shflCode x.mode + 4 * x.seg.val) false
  | .vote x =>
    match x.dst with
    | .ballot d => full 0x41 x.g (opndCode d) 0 0 (x.pc.val + 8 * b2n x.pn) 0
    | .pred m pd => full 0x41 x.g pd.val 0 0 (x.pc.val + 8 * b2n x.pn) (voteCode m)
  | .matchLanes x => full 0x42 x.g (opndCode x.d) (opndCode x.a) 0 0 (b2n x.flag)
  | .cred x => encRed 0x43 x
  | .cscan x => encRed 0x44 x
  | .lser => full 0x45 u 0 0 0 0 0
  | .lsend => full 0x46 u 0 0 0 0 0
  | .actm x => full 0x47 x.g (opndCode x.d) 0 0 0 (b2n x.guarded)
  | .bra g off => immed 0x48 g 0 0 off false
  | .braT g off tag => immed 0x48 g 0 tag.toNat off true
  | .brx g a => full 0x49 g 0 (opndCode a) 0 0 0
  | .call g d off => immed 0x4A g (opndCode d) 0 off false
  | .callx g d a => full 0x4B g (opndCode d) (opndCode a) 0 0 0
  | .ret g a => full 0x4C g 0 (opndCode a) 0 0 0
  | .join off => immed 0x4D u 0 0 off false
  | .exit g => full 0x4E g 0 0 0 0 0
  | .trap g code => immed 0x4F g 0 0 (code.setWidth 32) false
  | .chkpt n => immed 0x50 u 0 0 (n.setWidth 32) false
  | .yieldSlot g => full 0x51 g 0 0 0 0 0
  | .sleep a =>
    match a with
    | .imm x => immed 0x52 u 0 0 x false
    | a => full 0x52 u 0 (opndCode a) 0 0 0
  | .nop g => full 0x53 g 0 0 0 0 0
  | .ld x => encMem 0x54 x 0
  | .st x => encMem 0x55 x 0
  | .lds x => encMem 0x56 x 0
  | .sts x => encMem 0x57 x 0
  | .ldro x => encMem 0x58 x 0
  | .ldsp x ac => encMem 0x59 x ac.val
  | .atom x =>
    full 0x5A x.g (opndCode x.d) (opndCode x.a) (opndCode x.b) (opndCode x.c)
      (atomOpCode x.op + 16 * atomTyCode x.ty + 128 * b2n x.sem.acq + 256 * b2n x.sem.rel
        + 512 * scopeCode x.scope)
  | .red x =>
    full 0x5B x.g 0 (opndCode x.a) (opndCode x.b) 0
      (redOpCode x.op + 16 * atomTyCode x.ty + 256 * b2n x.rel + 512 * scopeCode x.scope)
  | .fence sc => full 0x5C u 0 0 0 0 (512 * scopeCode sc)
  | .fenceRo => full 0x5C u 0 0 0 0 1
  | .pref x => bform 0x5D x.g 0 (opndCode x.a) x.b 0 (b2n x.l2) false
  | .cwb a b sc => bform 0x5E u 0 (opndCode a) b 0 (512 * scopeCode sc) false
  | .cinv a b sc => bform 0x5F u 0 (opndCode a) b 0 (512 * scopeCode sc) false
  | .moor d a => full 0x60 u (opndCode d) (opndCode a) 0 0 0
  | .unmoor d a wb =>
    match a with
    | .imm x => immed 0x61 u (opndCode d) 0 x wb
    | a => full 0x61 u (opndCode d) (opndCode a) 0 0 (b2n wb)
  | .mwb d a b => bform 0x62 u (opndCode d) (opndCode a) b 0 0 false
  | .mqry x => enc1 0x63 x
  | .cpy x =>
    full 0x64 x.g (opndCode x.d) (opndCode x.a) (opndCode x.b) (optCode x.bar)
      (x.sz.val + 4 * b2n x.bar.isSome)
  | .cpyt d a => full 0x65 u (opndCode d) (opndCode a) 0 0 0
  | .cpyq d a => full 0x66 u (opndCode d) (opndCode a) 0 0 0
  | .send x => encSend 0x67 x
  | .mcast x => encSend 0x68 x
  | .redpArm d a id => full 0x69 u (opndCode d) (opndCode a) 0 0 (1 + 4 * id.val)
  | .redpContribute d a id => full 0x69 u (opndCode d) (opndCode a) 0 0 (4 * id.val)
  | .remit g i a => full 0x6A g 0 (opndCode a) 0 0 i.val
  | .radv => full 0x6B u 0 0 0 0 0
  | .binit a b c => bform 0x6C u 0 (opndCode a) b (optCode c) 0 false
  | .barv d a b => bform 0x6D u (opndCode d) (opndCode a) b 0 0 false
  | .bpar pd a => full 0x6E u pd.val (opndCode a) 0 0 0
  | .waitBar pd a b c => encWait pd (opndCode a) b c 0
  | .waitBmp pd a b c => encWait pd (opndCode a) b c 1
  | .waitAc pd n c => full 0x6F u pd.val 0 0 (optCode c) (2 + 4 * n.val)
  | .waitTl pd a b c => encWait pd (opndCode a) b c 3
  | .xdec x => enc3 0x70 x
  | .xbmp x => enc1 0x71 x
  | .mldw a b wf => full 0x72 u 0 (opndCode a) (opndCode b) 0 (wfmtCode wf)
  | .mswap d => full 0x73 u (opndCode d) 0 0 0 0
  | .mlut sb => full 0x73 u 0 0 (opndCode (.s sb)) 0 0x1000
  | .mzero g t => full 0x73 g 0 0 0 0 (0x2000 + t.val)
  | .mma x =>
    full 0x74 x.g 0 (opndCode x.a) 0 0
      (x.tile.val + 8 * afmtCode x.af + 64 * b2n x.zpm + 128 * b2n x.kh)
  | .mrd x => full 0x75 x.g (opndCode x.d) 0 0 0 (x.tile.val + 8 * x.col.val + 512 * x.wc.val)
  | .mst x =>
    full 0x76 x.g 0 (opndCode x.a) (opndCode x.b) (optCode x.c)
      (x.tile.val + 8 * b2n x.sc + 16 * b2n x.zpe + 32 * fmtCode x.ofmt)
  | .mfence d => full 0x77 u (opndCode d) 0 0 0 0
  | .capenter x =>
    full 0x78 u (opndCode x.d) (opndCode x.a) (opndCode x.b) (opndCode x.c) x.lbl.toNat
  | .capadopt d a => full 0x78 u (opndCode d) (opndCode a) 0 0 0x1000
  | .capstat d a => full 0x78 u (opndCode d) (opndCode a) 0 0 0x2000
  | .capstep lbl => full 0x79 u 0 0 0 0 lbl.toNat
  | .capexit => full 0x79 u 0 0 0 0 0x1000
  | .capabort => full 0x79 u 0 0 0 0 0x2000
  | .tbindNew => full 0x7A u 0 0 0 0 0
  | .tbindAt a => full 0x7A u 0 (opndCode a) 0 0 1
  | .tbindCh n tag => full 0x7A u (256 + n.val) 0 0 0 (2 + 4 * tag.toNat)
  | .trec x => full 0x7A x.g 0 (opndCode x.a) 0 0 (0x1000 + x.tag.toNat + 256 * b2n x.h16)
  | .tmark tag a => full 0x7A u 0 (opndCode a) 0 0 (0x2000 + tag.toNat)
  | .tback x =>
    full 0x7B x.g (opndCode x.d) 0 0 0 (x.tag.toNat + 256 * popCode x.kind + 1024 * b2n x.peek)
  | .tbpop x => full 0x7B x.g x.pd.val 0 0 0 (0x1000 + x.tag.toNat + 256 * b2n x.peek)
  | .tstat g d sel => full 0x7B g (opndCode d) 0 0 0 (0x2000 + tselCode sel)
  | .movspr g d r => full 0x7C g (opndCode d) 0 0 0 (sprCode r)
  | .wrspr r a => full 0x7C u 0 (opndCode a) 0 0 (0x1000 + sprCode r)
  | .tlinc a b err => full 0x7D u 0 (opndCode a) (opndCode b) 0 (b2n err)
  | .gettl g d a err => full 0x7D g (opndCode d) (opndCode a) 0 0 (0x1000 + b2n err)
  | .bkpt g code => full 0x7E g 0 0 0 0 code.toNat
  | .resphase a => full 0x7E u 0 (opndCode a) 0 0 0x1000
  | _ => ⟨0, 0, 0, 0, 0, 0, 0, 0⟩

/-- The word of a well-formed instruction. -/
def encode (i : Instr) : DWord :=
  match i with
  | .pairedWord h0 h1 => BitVec.ofNat 64 (2 ^ 63 + halfWord h0 * 2 ^ 32 + halfWord h1 * 2)
  | i => BitVec.ofNat 64 (rawWord (encRaw i))

/-! ## Reading the fields -/

def guardR (r : Raw) : Guard := ⟨r.gn == 1, Fin.ofNat 8 r.gp⟩

/-- B, or the immediate. -/
def bOf (r : Raw) : Option Opnd := if rawI r then some (.imm (rawImm r)) else opndOf r.b

def optOf (n : Nat) : Option (Option Opnd) :=
  if n = 0 then some none else (opndOf n).map some

/-- FN and pq of a predicate table (R155), FN at bit k of FUNC. -/
def tabOf (r : Raw) (k : Nat) : Option (Fin 8 × Fin 16) :=
  if ffld r k 4 = 0 then none else some (Fin.ofNat 8 r.c, Fin.ofNat 16 (ffld r k 4))

def decSat (r : Raw) : Option IntOp := do
  let d ← opndOf r.d
  let a ← opndOf r.a
  let b ← bOf r
  if rawI r then some ⟨guardR r, d, a, b, .i32, rawImod r⟩
  else some ⟨guardR r, d, a, b, intTyOf (ffld r 0 2), fbit r 2⟩

def decTy (r : Raw) : Option IntOp := do
  let d ← opndOf r.d
  let a ← opndOf r.a
  let b ← bOf r
  if rawI r then some ⟨guardR r, d, a, b, if rawImod r then .n32 else .i32, false⟩
  else some ⟨guardR r, d, a, b, intTyOf (ffld r 0 2), fbit r 2⟩

def decInt3 (r : Raw) : Option Int3Op := do
  some ⟨guardR r, ← opndOf r.d, ← opndOf r.a, ← opndOf r.b, ← opndOf r.c, intTyOf (ffld r 0 2)⟩

def decIaddc (r : Raw) : Option IaddcOp := do
  some ⟨guardR r, ← opndOf r.d, ← opndOf r.a, ← opndOf r.b,
    if fbit r 4 then some (ffin r 0, fbit r 3) else none, ffin r 5⟩

def decLogic (r : Raw) : Option LogicOp := do
  some ⟨guardR r, ← opndOf r.d, ← opndOf r.a, ← bOf r, !rawI r && fbit r 1⟩

def dec1 (r : Raw) : Option Op1 := do
  some ⟨guardR r, ← opndOf r.d, ← opndOf r.a⟩

def dec3 (r : Raw) : Option Op3 := do
  some ⟨guardR r, ← opndOf r.d, ← opndOf r.a, ← opndOf r.b, ← opndOf r.c⟩

def dec3F (r : Raw) : Option Op3F := do
  some ⟨guardR r, ← opndOf r.d, ← opndOf r.a, ← opndOf r.b, ← opndOf r.c, fbit r 0⟩

def decFp (r : Raw) : Option FpOp := do
  some ⟨guardR r, ← opndOf r.d, ← opndOf r.a, ← bOf r,
    if rawI r then ⟨false, false, false, false, false⟩ else modsOf r⟩

def decSfu (r : Raw) : Option SfuOp := do
  some ⟨guardR r, ← opndOf r.d, ← opndOf r.a, fbit r 0, fbit r 3⟩

def decH (r : Raw) : Option HOp := do
  some ⟨guardR r, ← opndOf r.d, ← opndOf r.a, ← bOf r,
    if rawI r then ⟨false, false, false, false, false⟩ else modsOf r, !rawI r && fbit r 5⟩

def decIdp (r : Raw) : Option IdpOp := do
  some ⟨guardR r, ← opndOf r.d, ← opndOf r.a, ← opndOf r.b, ← opndOf r.c, fbit r 0, fbit r 1, fbit r 2⟩

def decRed (r : Raw) : Option RedLaneOp := do
  some ⟨guardR r, ← opndOf r.d, ← opndOf r.a, ← redOpOf (ffld r 0 3), ← redTyOf (ffld r 3 3), fbit r 6⟩

def decMem (r : Raw) : Option MemOp := do
  let d ← opndOf r.d
  let a ← opndOf r.a
  let b ← bOf r
  if rawI r then
    some ⟨guardR r, d, a, b, if rawImod r then .b64 else .b32, false, 0, false, .dev⟩
  else
    some ⟨guardR r, d, a, b, ← sizeOf' (ffld r 0 3), fbit r 3, Fin.ofNat 32 (ffld r 4 5), fbit r 9,
      ← scopeOf (ffld r 11 3)⟩

def decSend (r : Raw) : Option SendOp := do
  some ⟨guardR r, ← opndOf r.d, ← opndOf r.a, ← opndOf r.b, Fin.ofNat 4 (ffld r 0 2)⟩

def decWait (r : Raw) : Option Instr := do
  let pd := Fin.ofNat 8 r.d
  if rawI r then
    some (.waitBar pd (← opndOf r.a) (.imm (rawImm r)) none)
  else
    let c ← optOf r.c
    match ffld r 0 2 with
    | 0 => some (.waitBar pd (← opndOf r.a) (← opndOf r.b) c)
    | 1 => some (.waitBmp pd (← opndOf r.a) (← opndOf r.b) c)
    | 2 => some (.waitAc pd (Fin.ofNat 16 (ffld r 2 4)) c)
    | _ => some (.waitTl pd (← opndOf r.a) (← opndOf r.b) c)

/-- R129: the instruction that the fields of a word name, its fields read out. Reserved and unused fields are
not looked at here. -/
def parseRaw (r : Raw) : Option Instr :=
  let g := guardR r
  match r.major with
  | 0x01 => (decSat r).map .iadd
  | 0x02 => (decSat r).map .isub
  | 0x03 => (decIaddc r).map .iaddc
  | 0x04 => (decTy r).map .imul
  | 0x05 => (decTy r).map .imulhi
  | 0x06 => (decInt3 r).map .imad
  | 0x07 => (decInt3 r).map .imadw
  | 0x08 => (decTy r).map .imin
  | 0x09 => (decTy r).map .imax
  | 0x0A => do some (.iabs ⟨g, ← opndOf r.d, ← opndOf r.a, intTyOf (ffld r 0 2), fbit r 2⟩)
  | 0x0B => (decLogic r).map .and
  | 0x0C => (decLogic r).map .or
  | 0x0D => (decLogic r).map .xor
  | 0x0E => (decLogic r).map .andn
  | 0x0F => (decLogic r).map .orn
  | 0x10 => (decLogic r).map .shl
  | 0x11 => (decLogic r).map .shr
  | 0x12 => (decLogic r).map .sar
  | 0x13 => (decLogic r).map .rotl
  | 0x14 => (dec3F r).map .fshf
  | 0x15 => do
    some (.bfx ⟨g, ← opndOf r.d, ← opndOf r.a, ← bOf r, if rawI r then rawImod r else fbit r 0⟩)
  | 0x16 => (dec3 r).map .bfi
  | 0x17 => (dec1 r).map .popc
  | 0x18 => (dec1 r).map .clz
  | 0x19 => (dec1 r).map .ctz
  | 0x1A => (dec1 r).map .brev
  | 0x1B => do
    let c ← if rawI r then some (.v 0) else opndOf r.c
    some (.prmt ⟨g, ← opndOf r.d, ← opndOf r.a, ← bOf r, c⟩)
  | 0x1C => do
    let d ← opndOf r.d
    let a ← opndOf r.a
    let b ← bOf r
    if rawI r then some (.lea ⟨g, d, a, b, 0, rawImod r, false⟩)
    else some (.lea ⟨g, d, a, b, ffin r 0, fbit r 3, fbit r 4⟩)
  | 0x1D => do
    let a ← opndOf r.a
    let b ← bOf r
    let pd := Fin.ofNat 8 r.d
    if rawI r then some (.isetp ⟨g, pd, a, b, if rawImod r then .ne else .eq, .i32, none⟩)
    else some (.isetp ⟨g, pd, a, b, ← icmpOf (ffld r 2 4), intTyOf (ffld r 0 2), tabOf r 6⟩)
  | 0x1E => do
    some (.sel ⟨g, ← opndOf r.d, ← opndOf r.a, ← opndOf r.b, ffin r 0, fbit r 3⟩)
  | 0x1F => do
    let d ← opndOf r.d
    if rawI r then some (.mov ⟨g, d, .imm (rawImm r), rawImod r⟩)
    else some (.mov ⟨g, d, ← opndOf r.a, fbit r 1⟩)
  | 0x20 => (decFp r).map .fadd
  | 0x21 => (decFp r).map .fsub
  | 0x22 => (decFp r).map .fmul
  | 0x23 => do some (.ffma ⟨g, ← opndOf r.d, ← opndOf r.a, ← opndOf r.b, ← opndOf r.c, modsOf r⟩)
  | 0x24 => (decFp r).map .fmin
  | 0x25 => (decFp r).map .fmax
  | 0x26 => do
    some (.fsetp ⟨g, Fin.ofNat 8 r.d, ← opndOf r.a, ← opndOf r.b, modsOf r, ← fcmpOf (ffld r 5 4),
      tabOf r 9⟩)
  | 0x27 => (dec1 r).map .fclass
  | 0x28 => (decSfu r).map .frcp
  | 0x29 => (decSfu r).map .frsq
  | 0x2A => (decSfu r).map .fsqrt
  | 0x2B => (decSfu r).map .fex2
  | 0x2C => (decSfu r).map .flg2
  | 0x2D => (decSfu r).map .fsin
  | 0x2E => (decSfu r).map .fcos
  | 0x2F => (decSfu r).map .ftanh
  | 0x30 => (decH r).map .hadd2
  | 0x31 => (decH r).map .hmul2
  | 0x32 => do
    some (.hfma2 ⟨g, ← opndOf r.d, ← opndOf r.a, ← opndOf r.b, ← opndOf r.c, modsOf r, fbit r 5⟩)
  | 0x33 => do
    let d ← opndOf r.d
    let a ← opndOf r.a
    let b ← bOf r
    if rawI r then
      some (.hmnmx2 ⟨g, d, a, b, ⟨false, false, false, false, false⟩, false, rawImod r⟩)
    else some (.hmnmx2 ⟨g, d, a, b, modsOf r, fbit r 5, fbit r 6⟩)
  | 0x34 => do
    some (.cvt ⟨g, ← opndOf r.d, ← opndOf r.a, fmtOf (ffld r 4 4), fmtOf (ffld r 0 4), fbit r 8,
      ffin r 9⟩)
  | 0x35 => do
    let fix ← if fbit r 2 then (opndOf r.b).map some else some none
    some (.cvtq ⟨g, ← opndOf r.d, ← opndOf r.a, fix, ← qfmtOf (ffld r 0 2)⟩)
  | 0x36 => do
    some (.cvtdq ⟨g, ← opndOf r.d, ← opndOf r.a, ← qfmtOf (ffld r 0 2), ← dqOf (ffld r 4 2)⟩)
  | 0x37 => do
    some (.pack ⟨g, ← opndOf r.d, ← opndOf r.a, ← opndOf r.b, ffin r 0, ← elwOf (ffld r 3 2),
      ← satOf (ffld r 5 2)⟩)
  | 0x38 => do
    some (.unpk ⟨g, ← opndOf r.d, ← opndOf r.a, ffin r 0, ← elwOf (ffld r 3 2), fbit r 5⟩)
  | 0x39 => do
    some (.lutx ⟨g, ← opndOf r.d, ← opndOf r.a, r.b - 192, fbit r 0, fbit r 1⟩)
  | 0x3A => (decIdp r).map .idp4
  | 0x3B => (decIdp r).map .idp8
  | 0x3C => do
    some (.fdp4 ⟨g, ← opndOf r.d, ← opndOf r.a, ← opndOf r.b, ← opndOf r.c, fbit r 0, fbit r 1⟩)
  | 0x3D => (dec3F r).map .fdp2
  | 0x40 => do
    let b ← bOf r
    let d ← opndOf r.d
    let a ← opndOf r.a
    if rawI r then some (.shfl ⟨g, d, a, b, .idx, 0⟩)
    else if ffld r 2 3 < 6 then
      some (.shfl ⟨g, d, a, b, shflOf (ffld r 0 2), Fin.ofNat 6 (ffld r 2 3)⟩)
    else none
  | 0x41 => do
    let p := Fin.ofNat 8 r.c
    let pn := r.c / 8 % 2 == 1
    if ffld r 0 2 = 0 then some (.vote ⟨g, .ballot (← opndOf r.d), p, pn⟩)
    else some (.vote ⟨g, .pred (voteOf (ffld r 0 2)) (Fin.ofNat 8 r.d), p, pn⟩)
  | 0x42 => do some (.matchLanes ⟨g, ← opndOf r.d, ← opndOf r.a, fbit r 0⟩)
  | 0x43 => (decRed r).map .cred
  | 0x44 => (decRed r).map .cscan
  | 0x45 => some .lser
  | 0x46 => some .lsend
  | 0x47 => do some (.actm ⟨g, ← opndOf r.d, fbit r 0⟩)
  | 0x48 =>
    if !rawI r then none
    else if rawImod r then some (.braT g (rawImm r) (BitVec.ofNat 8 r.a))
    else some (.bra g (rawImm r))
  | 0x49 => do some (.brx g (← opndOf r.a))
  | 0x4A => do some (.call g (← opndOf r.d) (rawImm r))
  | 0x4B => do some (.callx g (← opndOf r.d) (← opndOf r.a))
  | 0x4C => do some (.ret g (← opndOf r.a))
  | 0x4D => some (.join (rawImm r))
  | 0x4E => some (.exit g)
  | 0x4F => some (.trap g ((rawImm r).setWidth 16))
  | 0x50 => some (.chkpt ((rawImm r).setWidth 16))
  | 0x51 => some (.yieldSlot g)
  | 0x52 =>
    if rawI r then some (.sleep (.imm (rawImm r))) else do some (.sleep (← opndOf r.a))
  | 0x53 => some (.nop g)
  | 0x54 => (decMem r).map .ld
  | 0x55 => (decMem r).map .st
  | 0x56 => (decMem r).map .lds
  | 0x57 => (decMem r).map .sts
  | 0x58 => (decMem r).map .ldro
  | 0x59 => do
    if rawI r then none else some (.ldsp (← decMem r) (Fin.ofNat 16 r.c))
  | 0x5A => do
    some (.atom ⟨g, ← opndOf r.d, ← opndOf r.a, ← opndOf r.b, ← opndOf r.c, ← atomOpOf (ffld r 0 4),
      ← atomTyOf (ffld r 4 3), ⟨fbit r 7, fbit r 8⟩, ← scopeOf (ffld r 9 3)⟩)
  | 0x5B => do
    some (.red ⟨g, ← opndOf r.a, ← opndOf r.b, ← redOpOf (ffld r 0 4), ← atomTyOf (ffld r 4 3),
      fbit r 8, ← scopeOf (ffld r 9 3)⟩)
  | 0x5C => if fbit r 0 then some .fenceRo else do some (.fence (← scopeOf (ffld r 9 3)))
  | 0x5D => do
    some (.pref ⟨g, ← opndOf r.a, ← bOf r, !rawI r && fbit r 0⟩)
  | 0x5E => do
    let sc ← if rawI r then some .dev else scopeOf (ffld r 9 3)
    some (.cwb (← opndOf r.a) (← bOf r) sc)
  | 0x5F => do
    let sc ← if rawI r then some .dev else scopeOf (ffld r 9 3)
    some (.cinv (← opndOf r.a) (← bOf r) sc)
  | 0x60 => do some (.moor (← opndOf r.d) (← opndOf r.a))
  | 0x61 => do
    let d ← opndOf r.d
    if rawI r then some (.unmoor d (.imm (rawImm r)) (rawImod r))
    else some (.unmoor d (← opndOf r.a) (fbit r 0))
  | 0x62 => do some (.mwb (← opndOf r.d) (← opndOf r.a) (← bOf r))
  | 0x63 => (dec1 r).map .mqry
  | 0x64 => do
    let bar ← if fbit r 2 then (opndOf r.c).map some else some none
    if ffld r 0 2 < 3 then
      some (.cpy ⟨g, ← opndOf r.d, ← opndOf r.a, ← opndOf r.b, Fin.ofNat 3 (ffld r 0 2), bar⟩)
    else none
  | 0x65 => do some (.cpyt (← opndOf r.d) (← opndOf r.a))
  | 0x66 => do some (.cpyq (← opndOf r.d) (← opndOf r.a))
  | 0x67 => (decSend r).map .send
  | 0x68 => (decSend r).map .mcast
  | 0x69 => do
    let id := Fin.ofNat 4 (ffld r 2 2)
    if ffld r 0 2 = 0 then some (.redpContribute (← opndOf r.d) (← opndOf r.a) id)
    else if ffld r 0 2 = 1 then some (.redpArm (← opndOf r.d) (← opndOf r.a) id)
    else none
  | 0x6A => do some (.remit g (Fin.ofNat 16 (ffld r 0 4)) (← opndOf r.a))
  | 0x6B => some .radv
  | 0x6C => do
    let b ← bOf r
    let a ← opndOf r.a
    if rawI r then some (.binit a b none) else some (.binit a b (← optOf r.c))
  | 0x6D => do some (.barv (← opndOf r.d) (← opndOf r.a) (← bOf r))
  | 0x6E => do some (.bpar (Fin.ofNat 8 r.d) (← opndOf r.a))
  | 0x6F => decWait r
  | 0x70 => (dec3 r).map .xdec
  | 0x71 => (dec1 r).map .xbmp
  | 0x72 => do some (.mldw (← opndOf r.a) (← opndOf r.b) (← wfmtOf (ffld r 0 3)))
  | 0x73 =>
    match ffld r 12 4 with
    | 0 => do some (.mswap (← opndOf r.d))
    | 1 => some (.mlut (r.b - 192))
    | 2 => some (.mzero g (ffin r 0))
    | _ => none
  | 0x74 => do some (.mma ⟨g, ← opndOf r.a, ffin r 0, ← afmtOf (ffld r 3 3), fbit r 6, fbit r 7⟩)
  | 0x75 => do
    if ffld r 9 2 < 3 then
      some (.mrd ⟨g, ← opndOf r.d, ffin r 0, Fin.ofNat 64 (ffld r 3 6), Fin.ofNat 3 (ffld r 9 2)⟩)
    else none
  | 0x76 => do
    let c ← optOf r.c
    some (.mst ⟨g, ← opndOf r.a, ← opndOf r.b, c, ffin r 0, fbit r 3, fbit r 4, fmtOf (ffld r 5 4)⟩)
  | 0x77 => do some (.mfence (← opndOf r.d))
  | 0x78 =>
    match ffld r 12 4 with
    | 0 => do
      some (.capenter ⟨← opndOf r.d, ← opndOf r.a, ← opndOf r.b, ← opndOf r.c,
        BitVec.ofNat 12 (ffld r 0 12)⟩)
    | 1 => do some (.capadopt (← opndOf r.d) (← opndOf r.a))
    | 2 => do some (.capstat (← opndOf r.d) (← opndOf r.a))
    | _ => none
  | 0x79 =>
    match ffld r 12 4 with
    | 0 => some (.capstep (BitVec.ofNat 12 (ffld r 0 12)))
    | 1 => some .capexit
    | 2 => some .capabort
    | _ => none
  | 0x7A =>
    match ffld r 12 4 with
    | 0 =>
      match ffld r 0 2 with
      | 0 => some .tbindNew
      | 1 => do some (.tbindAt (← opndOf r.a))
      | 2 => some (.tbindCh (Fin.ofNat 16 r.d) (BitVec.ofNat 8 (ffld r 2 8)))
      | _ => none
    | 1 => do some (.trec ⟨g, ← opndOf r.a, BitVec.ofNat 8 (ffld r 0 8), fbit r 8⟩)
    | 2 => do some (.tmark (BitVec.ofNat 8 (ffld r 0 8)) (← opndOf r.a))
    | _ => none
  | 0x7B =>
    match ffld r 12 4 with
    | 0 => do
      some (.tback ⟨g, ← opndOf r.d, ← popOf (ffld r 8 2), BitVec.ofNat 8 (ffld r 0 8), fbit r 10⟩)
    | 1 => some (.tbpop ⟨g, Fin.ofNat 8 r.d, BitVec.ofNat 8 (ffld r 0 8), fbit r 8⟩)
    | 2 => do some (.tstat g (← opndOf r.d) (← tselOf (ffld r 0 2)))
    | _ => none
  | 0x7C =>
    match ffld r 12 4 with
    | 0 => do some (.movspr g (← opndOf r.d) (← sprOf (ffld r 0 10)))
    | 1 => do some (.wrspr (← sprOf (ffld r 0 10)) (← opndOf r.a))
    | _ => none
  | 0x7D =>
    match ffld r 12 4 with
    | 0 => do some (.tlinc (← opndOf r.a) (← opndOf r.b) (fbit r 0))
    | 1 => do some (.gettl g (← opndOf r.d) (← opndOf r.a) (fbit r 0))
    | _ => none
  | 0x7E =>
    match ffld r 12 4 with
    | 0 => some (.bkpt g (BitVec.ofNat 12 (ffld r 0 12)))
    | 1 => do some (.resphase (← opndOf r.a))
    | _ => none
  | _ => none

/-- R131: the half whose 31 bits are `w`. -/
def halfOf (w : Nat) : Option Half := do
  let op ← popcodeOf (w / 2 ^ 25 % 64)
  let dn := w / 2 ^ 17 % 256
  let d : Opnd := if dn < 128 then .v dn else .chan (dn - 128) false
  some ⟨op, d, ← opndOf (w / 2 ^ 8 % 512), w / 2 ^ 7 % 2 == 1, Fin.ofNat 128 w⟩

/-! ## Pair rules (R133) -/

/-- The register that a half writes, or for `STS` reads, in the place of its destination. -/
def halfDst (h : Half) : Option Opnd :=
  match h.op with
  | .nop => none
  | _ => some h.d

/-- The source operand of a half, when it names one. -/
def halfSrc (h : Half) : Option Opnd :=
  match h.op with
  | .nop => none
  | _ => if h.imm then none else some h.s

/-- Halves that read D as well as S. -/
def halfReads (h : Half) : List Opnd :=
  (halfSrc h).toList ++ (if Machine.pairUnary h.op then [] else (halfDst h).toList)

def isV (o : Opnd) : Bool :=
  match o with
  | .v _ => true
  | _ => false

def isChan (o : Opnd) : Bool :=
  match o with
  | .chan _ _ => true
  | _ => false

def usesChan (h : Half) : Bool := ((halfDst h).toList ++ (halfSrc h).toList).any isChan

def isSfu (o : POp) : Bool :=
  match o with
  | .frcp | .frsq | .fsqrt | .fex2 | .flg2 | .fsin | .fcos | .ftanh => true
  | _ => false

/-- Rule 1: both destinations are v registers of one bank. -/
def pairBank (h0 h1 : Half) : Bool :=
  match halfDst h0, halfDst h1 with
  | some (.v a), some (.v b) => a % 4 == b % 4
  | _, _ => false

/-- Rule 2: `h` reads or writes the destination of `k`. -/
def pairTouches (h k : Half) : Bool :=
  match halfDst k with
  | some d => isV d && ((halfDst h).toList ++ halfReads h).contains d
  | none => false

/-- Whether a rule of R133 is broken. A half-NOP takes part in none. -/
def pairBad (h0 h1 : Half) : Bool :=
  pairBank h0 h1 || pairTouches h0 h1 || pairTouches h1 h0 ||
  (usesChan h0 && usesChan h1) ||
  ((halfSrc h0).toList.any Machine.isS && (halfSrc h1).toList.any Machine.isS) ||
  (isSfu h0.op && isSfu h1.op) ||
  ((halfDst h0).toList.any isChan && h0.op != .mov) ||
  ((halfDst h1).toList.any isChan && h1.op != .mov)

/-! ## The decoder -/

/-- What a word decodes to (R134). -/
inductive Decoded where
  | ok (i : Instr)
  | illop
  | illpair
  deriving DecidableEq, Repr

/-- The instruction that the fields of a word name, before any check. -/
def parse (w : DWord) : Option Instr :=
  let n := w.toNat
  if n / 2 ^ 63 = 0 then parseRaw (rawFields n)
  else do
    some (.pairedWord (← halfOf (n / 2 ^ 32 % 2 ^ 31)) (← halfOf (n / 2 % 2 ^ 31)))

/-- R133, checked on a word whose halves decode. -/
def pairRules (i : Instr) : Bool :=
  match i with
  | .pairedWord h0 h1 => !pairBad h0 h1
  | _ => true

/-- R123 to R133: the fate of a word at decode. A word is legal when the instruction it names is well formed and
is encoded by that word: every reserved and unused field is then zero (R124, R130). -/
def decode (w : DWord) : Decoded :=
  match parse w with
  | none => .illop
  | some i =>
    if i.wf && encode i == w then (if pairRules i then .ok i else .illpair) else .illop

/-- The instruction the decoder reads from the first eight bytes, least significant bit first. -/
def decodeTableWord (nbits w : Nat) : Option Instr :=
  match decode (BitVec.ofNat 64 (w % 2 ^ nbits)) with
  | .ok i => some i
  | _ => none

end Sys2Proof
end

