-- ==== Sys2Proof/Machine/Schedule.lean ====
section
/-! DEFINITION. Which slots may issue and which of them a partition selects (R27, R29, R42), and the fetch of a
word (R122). -/

namespace Sys2Proof.Machine

/-! ## Values at their homes -/

/-- A byte as its home would give it: the owner's modified byte, or the home's (R56). -/
def newestByte (s : State) (pa : Nat) : Byte :=
  let l := lineOf s (pa / 128)
  if isOwned l then
    match (linesHolding s (l.ptrs.headD 0) (pa / 128)).findSome? fun p =>
        (mlineOf s (l.ptrs.headD 0) p.1 p.2).map.find? fun q => q.2 == pa with
    | some q => byteAt s (.stash (l.ptrs.headD 0) q.1)
    | none => byteAt s (linePlace pa)
  else byteAt s (linePlace pa)

/-- The newest number of `n` bytes at a physical address. -/
def newestNat (s : State) (pa n : Nat) : Nat := leNat ((List.range n).map fun i => newestByte s (pa + i))

/-- A stash byte that a moored line in INV maps: its page, and the global byte (R49, R52). -/
def invMapped (s : State) (core o : Nat) : Option (Option Tlb × Nat) :=
  match mooringAt s core o with
  | none => none
  | some p =>
    match mooringOf s core p.1 with
    | none => none
    | some m =>
      if (mlineOf s core p.1 p.2).st != .inv || decide (mappedBytes m.mrec ≤ o - m.base) then none
      else
        let v := moorVa m.mrec (o - m.base)
        some (peekPage s core m.ctx v, v)

/-- A stash byte as a wait sees it: of a moored line in INV the byte that its home would give (R92, R199); none while no
page is known. -/
def watchedByte (s : State) (core o : Nat) : Option Byte :=
  match invMapped s core o with
  | none => some (byteAt s (.stash core o))
  | some (some t, v) => if isRemote (tlbPa t v) then none else some (newestByte s (tlbPa t v))
  | some (none, _) => none

/-- A word of a stash as a wait sees it. -/
def stashWord (s : State) (core o : Nat) : Option Nat := ((List.range 4).mapM fun i => watchedByte s core (o + i)).map leNat

/-- The key under which the marks of a watched stash byte stand. -/
def watchedKey (s : State) (core o : Nat) : Nat :=
  match invMapped s core o with
  | some (some t, v) => placeKey (linePlace (tlbPa t v))
  | _ => stashKey s core o

/-- The newest word at a virtual address of a block; none while it cannot be read. -/
def wordAt (s : State) (blk : Block) (va : Nat) : Option Nat :=
  match routeOf va 4 with
  | .loc a => stashWord s blk.core (blk.base + a)
  | .cluster j o => stashWord s (clusterCore blk.core j) o
  | .global =>
    (match peekPage s blk.core (ctxOf s blk) va with
     | none => none
     | some t =>
       let pa := tlbPa t va
       if !t.attr.rd || (lineOf s (lineNo pa)).st == .busy then none
       else if isRemote pa then (remotePlace s pa false).map fun p => numAt s p 4
       else some (newestNat s pa 4))
  | .bad => none

/-! ## Fetch (R122) -/

/-- What a fetch comes to. -/
inductive Fetched where
  | word (w : DWord)
  | misaligned
  | fault (x : Xf)
  | miss
  | held (g : Nat)
  | slots (slice : Nat)
  /-- the other module has not answered (R335) -/
  | remote (pa : Nat)
  deriving DecidableEq, Repr

/-- A word in a remote window: the other module answers, or the request runs towards its time-outs (free). -/
def fetchRemote (s : State) (h : Here) (pa pc : Nat) : Fetched :=
  match remotePlace s pa false with
  | none => .fault ⟨.accf, 8, pc⟩
  | some p =>
    if !(sendTo s h.blk.core (sliceOf pa) && (remoteHops s h.blk.core pa).all (hopFree s)) then .slots (sliceOf pa)
    else if s.remoteEnds.any (fun e => e.who == s.actor && e.va == pc && e.ok) || (Config.fetchAnswered s.free && routeOk s pa) then .word (BitVec.ofNat 64 (numAt s p 8))
    else .remote pa

def fetchWord (s : State) (h : Here) : Fetched :=
  let pc := (hPc h).toNat
  if pc % 8 ≠ 0 then .misaligned
  else
    match routeOf pc 8 with
    | .global =>
      (match tlbFind s h.blk.core (ctxOf s h.blk) pc with
       | none => .miss
       | some t =>
         match rightFault t.attr .ex pc with
         | some x => .fault x
         | none =>
           let pa := tlbPa t pc
           if isRemote pa then fetchRemote s h pa pc
           else if !sendTo s h.blk.core (sliceOf pa) && Config.fetchMisses s.free then .slots (sliceOf pa)
           else if (lineOf s (lineNo pa)).st = .busy || !turnAt s (lineNo pa) then .held (lineNo pa)
           else if poisoned s (lineNo pa) then .fault ⟨.poison, 0, pc⟩
           else
             .word (BitVec.ofNat 64 (leNat ((List.range 8).map fun i => newestByte s (pa + i)))))
    | _ => .fault ⟨.addrf, 0, pc⟩

/-- The line of a word that is fetched is in the core's instruction cache, or is requested from its home (which, the spec does
not say: free, log 41): then the request and its reply draw their tokens (R337, R341). -/
def fetchPaid (s0 : State) (h : Here) (o : Host.Outcome State Fault Refusal) : Host.Outcome State Fault Refusal :=
  match o, tlbFind s0 h.blk.core (ctxOf s0 h.blk) (hPc h).toNat with
  | .next s, some t =>
    .next (exchanges s (dieOfCore h.blk.core) (homeDie (tlbPa t (hPc h).toNat)) (Config.fetchMisses s0.free).toNat (some h.blk.launch))
  | o, _ => o

/-! ## Waiting slots whose word may issue again -/

/-- Copies of a crew that are not complete (R201). -/
def openCopies (s : State) (b c : Nat) : Nat := (s.copies.filter fun e => e.2.blk == b && e.2.crew == c).length

/-- Messages of a crew that are not acknowledged (R201). -/
def openMsgs (s : State) (b c : Nat) : Nat := (s.msgs.filter fun e => e.2.blk == b && e.2.crew == c).length

/-- The matrix unit of a crew: its partition is the crew index mod 8 (R26). -/
def unitOf (s : State) (core part : Nat) : MatUnit := (coreOf s core).units.getD part MatUnit.reset

/-- The armature of a fleet. -/
def armOf (s : State) (launch fleet id : Nat) : Option Arm :=
  s.arms.find? fun a => a.launch == launch && a.fleet == fleet && a.id == id

/-- R214: a rank may not contribute to round r until its node has finished round r − 2. -/
def armatureOpen (s : State) (blk : Block) (id : Nat) : Bool :=
  match armOf s blk.launch blk.fleet id with
  | some a => decide (blk.rounds.getD id 0 < (a.nodes.getD blk.rank ⟨0, [], none⟩).round + 2)
  | none => true

/-- A slot waits for a record's home, or for the restart of its step (R279, R280). -/
def awaitsHome (t : Slot) : Bool :=
  match t.st with
  | .waiting .capsule => true
  | .waiting (.conflict _) => true
  | _ => false

/-- The matrix instructions that hold a queue entry of a unit (R251, R266). -/
def unitHeld (u : MatUnit) : Nat := ((u.queue.flatMap fun e => e.parts).map fun p => p.2).eraseDups.length

/-- R116: an `MST` of the slot that has not completed. -/
def storeQueued (s : State) (core b c k : Nat) : Bool :=
  (unitOf s core (c % 8)).queue.any fun e => e.blk == b && e.crew == c && e.slot == k &&
    match e.op with
    | .store _ _ _ _ _ _ _ _ _ => true
    | _ => false

/-- R116: a load of the slot that is to set FSTAT has not landed. -/
def loadQueued (s : State) (b c k : Nat) : Bool :=
  s.reqs.any fun e => e.2.blk == b && e.2.crew == c && e.2.slot == k &&
    match e.2.kind with
    | .load _ _ f _ _ => f.buf.isSome
    | .store _ _ _ _ | .red _ _ => false

/-- The request of a waiting slot goes next at a line (R65). -/
def slotTurn (s : State) (g : Nat) (r : SlotRef) : Bool :=
  match nextHeld s g with
  | none => true
  | some a => a == .slot r

/-- The condition of a retry holds. -/
def retryHolds (s : State) (b : Nat) (blk : Block) (c : Nat) (y : Crew) (k : Nat) (r : Retry) : Bool :=
  match r with
  | .chanEmpty n =>
    (match chanCount blk y n with
     | some q => decide (0 < q)
     | none => true)
  | .chanFull n => decide ((chanOf y n).queue.length < 8)
  | .reg code => !y.pending.contains code
  | .fill core e l wr =>
    let x := mlineOf s core e l
    x.st != .fill && !(wr && x.st == .wbk) && (x.kept == .none || (!wr && x.readers.contains (.slot ⟨b, c, k⟩)))
  | .drop core e => !anyWbk s core e
  | .origin => decide (originsUsed s blk.core < Config.originEntries)
  | .counter n => decide ((y.acs.getD n ⟨0, 0, []⟩).iss < 255)
  | .copies => decide (openCopies s b c < 64)
  | .messages => decide (openMsgs s b c < 8)
  | .matrix => decide (unitHeld (unitOf s blk.core (c % 8)) < Config.matrixQueue)
  | .drain m => !outstanding s b c m
  | .staging n => stagingRoom s blk.core n
  | .slots slice => sendTo s blk.core slice
  | .version g => !versioned s g
  | .armature id => armatureOpen s blk id
  | .age => !olderRuns y k
  | .line g => (lineOf s g).st != .busy && slotTurn s g ⟨b, c, k⟩
  | .capsule => !awaitsHome (slotOf y (1 - k))
  | .delivery va => wordAt s blk ((va.toNat + 0x14) % 2 ^ 64) != some 0
  | .fstat => !storeQueued s blk.core b c k && !loadQueued s b c k

/-- A hold or a hazard can stand before the next word of a slot at all. -/
def mayHold (y : Crew) (k : Nat) : Bool := !y.pending.isEmpty || !y.chans.isEmpty || olderRuns y k

/-- The next word of the slot has nothing to wait for at its issue: its registers have landed, its channels do not stop
it, and the order of the crew's paths does not hold it back (R29, R42). -/
def wordGoes (s : State) (b : Nat) (blk : Block) (c : Nat) (y : Crew) (k : Nat) : Bool :=
  if !mayHold y k || !(slotOf y k).due.isEmpty then true
  else
    let h : Here := ⟨b, blk, c, y, k, (slotOf y k).mask⟩
    match fetchWord { s with actor := .slot ⟨b, c, k⟩ } h with
    | .word w =>
      (match decode w with
       | .ok i =>
         (match wordFate h i with
          | .wait _ => false
          | _ => true)
       | _ => true)
    | _ => true

/-- A slot may be selected: it is READY, and its next word is held by nothing. -/
def selectable (s : State) (b : Nat) (blk : Block) (c : Nat) (y : Crew) (k : Nat) : Bool :=
  let t := slotOf y k
  blk.st == .running && blk.halting.isNone && launchLive s blk.launch && t.mask != 0 && !crewStopped y &&
  (match y.handler with
   | some hd => hd.slot == k
   | none => true) &&
  (match t.st with
   | .ready => wordGoes s b blk c y k
   | .waiting (.retry r) => retryHolds s b blk c y k r && wordGoes s b blk c y k
   | _ => false)

/-- Every slot that may be selected. -/
def readySlots (s : State) : List SlotRef :=
  s.blocks.flatMap fun b => b.2.crews.flatMap fun c =>
    ([0, 1].filter fun k => selectable s b.1 b.2 c.1 c.2 k).map fun k => ⟨b.1, c.1, k⟩

/-- A crew of the block is PARKED. -/
def anyParked (b : Block) : Bool :=
  b.crews.any fun e =>
    (match e.2.slot0.st with
     | .parked _ _ _ => true
     | _ => false) ||
    (match e.2.slot1.st with
     | .parked _ _ _ => true
     | _ => false)

/-- The parked clocks of the block end when no crew is parked. -/
def settleParked (s : State) (b : Nat) : State :=
  updBlock s b fun x => if anyParked x then x else { x with parkedSince := none }

/-! ## Selection (R27, R42, R178) -/

/-- What decides between two slots of a partition, the lesser first. -/
def slotKey (s : State) (r : SlotRef) : List Nat :=
  match hereAt s r with
  | none => []
  | some h =>
    let t := hSlot h
    let l := launchHere s h
    let prio := match l with
      | some x => x.prio
      | none => 0
    let order := match l with
      | some x => x.order
      | none => 0
    (if t.starved then [0, t.readyAt] else [1, 0]) ++
      [if s.clock < t.yieldTill then 1 else 0, 7 - prio, h.blk.placedAt, order, h.blk.lin, h.c,
       if t.favoured then 0 else 1, h.k]

def lexLt (a b : List Nat) : Bool :=
  match a, b with
  | x :: r, y :: q => if x < y then true else if y < x then false else lexLt r q
  | [], _ :: _ => true
  | _, _ => false

/-- Two slots share a partition: the same core, and crew indices equal mod 8 (R26). -/
def samePartition (s : State) (a b : SlotRef) : Bool :=
  a.crew % 8 == b.crew % 8 &&
  match blockOf s a.blk, blockOf s b.blk with
  | some x, some y => x.core == y.core
  | _, _ => false

/-- R42: the slot that each partition would issue. -/
def candidates (s : State) : List SlotRef :=
  let rs := readySlots s
  rs.filter fun a => !rs.any fun b => samePartition s a b && lexLt (slotKey s b) (slotKey s a)

/-- R27, R42: marks that fall due with time: a slot that has not issued for 4,096 clocks in which it could be selected, or
for 64 beside another slot of its crew. A slot's `readyAt` moves on with every other clock (passTime). -/
def dueMarks (s : State) : List Instr :=
  (readySlots s).flatMap fun r =>
    match hereAt s r with
    | none => []
    | some h =>
      let t := hSlot h
      let o := slotOf h.crew (1 - h.k)
      (if !t.starved && decide (t.readyAt + Config.starvation ≤ s.clock) then [.starvationIssue r] else []) ++
        (if !t.favoured && o.mask != 0 && decide (t.readyAt + Config.fairness ≤ s.clock) then
          [.fairnessPrecedence r] else [])

/-- The clocks at which such a mark falls due. -/
def markClocks (s : State) : List Nat :=
  (readySlots s).flatMap fun r =>
    match hereAt s r with
    | none => []
    | some h =>
      let t := hSlot h
      (if t.starved then [] else [t.readyAt + Config.starvation]) ++
        (if !t.favoured && (slotOf h.crew (1 - h.k)).mask != 0 then [t.readyAt + Config.fairness] else [])

/-- R27, R42: a slot that has waited its time is selected: it issues in this clock. -/
def urgent (s : State) : Bool :=
  (candidates s).any fun r =>
    match hereAt s r with
    | none => false
    | some h => (hSlot h).starved || (hSlot h).favoured

/-- A fetch that gives no word. -/
def fetchStop (s : State) (h : Here) (f : Fetched) : State :=
  match f with
  | .word _ => s
  | .misaligned => takeTrap s h .illop 0 0
  | .fault x => takeFault s h x.cause x.code (BitVec.ofNat 64 x.addr) 3
  | .miss =>
    let (n, s1) := startWalk s (dieOfCore h.blk.core) (ctxOf s h.blk) (hPc h).toNat
    waitSlot s1 h (.walk n 3 (hPc h) h.act)
  | .held g => waitSlot (joinQueue s g) h (.retry (.line g))
  | .slots k => waitSlot s h (.retry (.slots k))
  | .remote pa => awaitRemote s h 3 pa (hPc h).toNat

/-- R134: the fate of a word that does not decode. -/
def decodeStop (s : State) (h : Here) (d : Decoded) : State :=
  match d with
  | .ok _ => s
  | .illop => takeTrap s h .illop 0 0
  | .illpair => takeTrap s h .illpair 0 0

end Sys2Proof.Machine
end

