-- ==== Sys2Proof/Machine/Objects.lean ====
section
/-! DEFINITION. Completion objects: barrier objects, bitmap words and launch timelines, what a WAIT asks of
each, and the interrupt of a raised timeline (15_instr_control_memory.md R197, R199; 07_consistency_rules.md R95 to
R99; 27_host_system_rules.md R327, R328). -/

namespace Sys2Proof.Machine

/-! ## Barrier objects (R197) -/

/-- The 32 bytes of an object. -/
structure Barrier where
  phase : Nat
  arrt : Nat
  bytt : Nat
  arrc : Nat
  bytc : Nat
  waitm : Nat
  deriving DecidableEq, Repr

def readBar (s : State) (core off : Nat) : Barrier :=
  let x := numAt s (.stash core off) 32
  ⟨nfield x 0 32, nfield x 32 32, nfield x 64 32, nfield x 96 32, nfield x 128 32, nfield x 192 64⟩

/-- R7: offset 0x14 of the object holds zero. An object where it does not is not acted on (log 80). -/
def barOk (s : State) (core off : Nat) : Bool := numAt s (.stash core (off + 0x14)) 4 == 0

def writeBar (s : State) (core off : Nat) (b : Barrier) : State :=
  writePlace s (.stash core off) (leBytes 4 b.phase ++ leBytes 4 b.arrt ++ leBytes 4 b.bytt ++ leBytes 4 b.arrc
    ++ leBytes 4 b.bytc ++ leBytes 4 0 ++ leBytes 8 b.waitm)

/-- How often the loop that ends an update runs: with both targets 0 it does not (log 23). -/
def phasesDone (b : Barrier) : Nat :=
  if b.arrt = 0 then (if b.bytt = 0 then 0 else b.bytc / b.bytt)
  else if b.bytt = 0 then b.arrc / b.arrt
  else min (b.arrc / b.arrt) (b.bytc / b.bytt)

/-- The loop that ends every update. -/
def advance (b : Barrier) : Barrier :=
  let k := phasesDone b
  { b with phase := (b.phase + k) % 2 ^ 32, arrc := b.arrc - k * b.arrt, bytc := b.bytc - k * b.bytt }

/-- The key of an object. -/
def barKey (core off : Nat) : Nat := placeKey (.stash core off)

def barSync (s : State) (core off : Nat) : BarSync := s.bars.getD (barKey core off) ⟨0, 0⟩

/-- What waits on the object acquire after a credit by a contributor at time `t` (R96). -/
def creditSync (b b' : Barrier) (x : BarSync) (t : Nat) : BarSync :=
  if b.phase = b'.phase then ⟨max x.now t, x.past⟩
  else ⟨if b'.arrc = 0 ∧ b'.bytc = 0 then 0 else t, max x.past (max x.now t)⟩

/-- Arrivals and landed bytes credited to an object by a contributor at time `t`. ARRC and BYTC wrap at 2^32 before phases
are counted (DESIGN CHOICE, log 79). -/
def creditBar (s : State) (core off arrivals bytes t : Nat) : State :=
  if !barOk s core off then s
  else
  let b := readBar s core off
  let b' := advance { b with arrc := (b.arrc + arrivals) % 2 ^ 32, bytc := (b.bytc + bytes) % 2 ^ 32 }
  { writeBar s core off b' with bars := s.bars.put (barKey core off) (creditSync b b' (barSync s core off) t) }

/-- The crew's mark in WAITM. -/
def markWait (s : State) (core off c : Nat) (on : Bool) : State :=
  if !barOk s core off then s
  else
  let b := readBar s core off
  let others := if nbit b.waitm c then b.waitm - 2 ^ c else b.waitm
  writeBar s core off { b with waitm := if on then others + 2 ^ c else others }

/-- A cluster-window object lies in the allocation of a block of the same fleet. -/
def fleetHolds (s : State) (h : Here) (core o : Nat) : Bool :=
  s.blocks.any fun e =>
    e.2.launch == h.blk.launch && e.2.fleet == h.blk.fleet && e.2.core == core
      && (e.2.st == .running || e.2.st == .halted || e.2.st == .saving)
      && decide (e.2.base ≤ o) && decide (o + 32 ≤ e.2.base + e.2.kern.stash)

/-- The core and stash offset of the object that an operand names; none is barrier misuse. -/
def barAt (s : State) (h : Here) (v : Nat) : Option (Nat × Nat) :=
  if v % 32 ≠ 0 then none
  else
    match windowOf v with
    | .loc a => if a + 32 ≤ h.blk.kern.stash then some (h.blk.core, h.blk.base + a) else none
    | .cluster j o =>
      let core := clusterCore h.blk.core j
      if fleetHolds s h core o then some (core, o) else none
    | _ => none

/-! ## Launch timelines (R327) -/

def tlCount (s : State) (c : Ctx) : Nat := min (nfield (qiOf s c.qi).ctl.toNat 16 13) 4096

def tlAddr (s : State) (c : Ctx) (i : Nat) : Nat := nfield (qiOf s c.qi).tlb.toNat 6 46 * 64 + 16 * i

def tlValue (s : State) (c : Ctx) (i : Nat) : Nat := newestNat s (tlAddr s c i) 8

def tlWord (s : State) (c : Ctx) (i : Nat) : Nat := newestNat s (tlAddr s c i + 8) 4

/-- R7, R327: the bits of an entry that must be zero are zero. An entry in which one is not is not acted on (log 80). -/
def tlEntryOk (s : State) (c : Ctx) (i : Nat) : Bool :=
  nfield (tlWord s c i) 13 19 == 0 && newestNat s (tlAddr s c i + 12) 4 == 0

def tlErr (s : State) (c : Ctx) (i : Nat) : Bool := nbit (tlWord s c i) 0

def portAgent (p : Port) : Nat :=
  match p with
  | .a => 192
  | .b => 193

/-- The die of a port's quay island (R11, R320). -/
def portDie (p : Port) : Nat :=
  match p with
  | .a => 0
  | .b => 3

/-- R323: a `QREF` record. -/
def qrefRec (qi : QiRef) (ltag : Word) (addr code pasid : Nat) : FRec :=
  eventRec .qref (portAgent qi.port) ltag (BitVec.ofNat 64 addr) code pasid

def postQref (s : State) (qi : QiRef) (ltag : Word) (addr code pasid : Nat) : State :=
  postRec s (portDie qi.port) (qrefRec qi ltag addr code pasid)

/-- What an update of a timeline comes to at its home. -/
inductive TlRes where
  | done (tw : Nat) (s : State)
  /-- a line is held -/
  | wait (g : Nat)
  /-- no request slot, link or token towards a slice (R78, R332, R338) -/
  | slots (slice : Nat)
  /-- a line is under poison -/
  | poison (pa : Nat)

/-- R328: the remap entry of a timeline's interrupt; none beyond the table. -/
def remapAddr (s : State) (c : Ctx) (i : Nat) : Option Nat :=
  let x := nfield (tlWord s c i) 2 11
  let irb := (qiOf s c.qi).irb.toNat
  if 2 ^ nfield irb 0 4 ≤ x then none else some (frameField irb + 16 * x)

/-- A `QREF` with CODE 6. The tag and address of its record are not stated: they are free. -/
def irqRefused (s : State) (c : Ctx) : State :=
  let (t, s1) := freeChoice s (2 ^ 32)
  let (a, s2) := freeChoice s1 (2 ^ 18)
  postQref s2 c.qi (BitVec.ofNat 32 t) a 6 c.pasid

/-- R328: what the raise of a timeline whose entry has IRQ set does. A remap entry with a bit set that must be zero is
refused like one without V (log 80). The home of the timeline asks that of the remap entry (R78). -/
def raiseIrq (s : State) (c : Ctx) (i : Nat) (tw : Nat) : TlRes :=
  if !nbit (tlWord s c i) 1 then .done tw s
  else
    match remapAddr s c i with
    | none => .done tw (irqRefused s c)
    | some e =>
      let pa := tlAddr s c i
      let v := newestNat s e 16
      if !agentSlot s (256 + sliceOf pa) (homeDie pa) e then .slots (sliceOf e)
      else if !nbit v 96 || nfield v 99 29 != 0 then .done tw (irqRefused s c)
      else if !nbit v 97 then
        .done tw { s with outputs := s.outputs ++
          [.msix c.qi.port (BitVec.ofNat 64 (nfield v 0 64)) (BitVec.ofNat 32 (nfield v 64 32))] }
      else if versioned s (lineNo e) then .wait (lineNo e)
      else
        match grab s (lineNo e) none true with
        | (false, _) => .wait (lineNo e)
        | (true, s1) =>
          if poisoned s1 (lineNo e) then .poison e
          else
            .done tw (homeWrite s1 (lineNo e)
              ((leBytes 4 (Nat.lor (nfield v 96 32) 4)).zipIdx.map fun p => (e + 12 + p.2, p.1)) plainAttr s.clock true).2

/-- The key of a timeline. -/
def tlKey (s : State) (c : Ctx) (i : Nat) : Nat := placeKey (.dev (tlAddr s c i))

/-- A timeline update at its home by a party at time `t`: VALUE := max(VALUE, v), and ERR set when asked. It is a release at
a scope, and an atomic (R95). -/
def raiseTl (s : State) (c : Ctx) (i v : Nat) (err : Bool) (t : Nat) (me : Party) (sc : Scope) : TlRes :=
  let pa := tlAddr s c i
  let g := lineNo pa
  if versioned s g then .wait g
  else
    match grab s g none true with
    | (false, _) => .wait g
    | (true, s1) =>
      if poisoned s1 g then .poison pa
      else if !tlEntryOk s1 c i then .done t s1
      else
        let old := numAt s1 (.dev pa) 8
        let w := numAt s1 (.dev (pa + 8)) 4
        let bs := leBytes 8 (max old v) ++ leBytes 4 (if err then Nat.lor w 1 else w)
        let (tw, s2) := homePut s1 g (bs.zipIdx.map fun p => (pa + p.2, p.1)) plainAttr t true
        let s3 := markBytes (atomicMarks s2 [tlKey s c i]) [tlKey s c i] ⟨me, sc, max t tw, true⟩
        if old < v then raiseIrq s3 c i tw else .done tw s3

/-! ## What a WAIT asks (R199) -/

/-- R97. -/
def phaseReached (p q : Nat) : Bool := decide ((p + 2 ^ 32 - q) % 2 ^ 32 < 2 ^ 31)

/-- The condition of a wait by crew c of a block. -/
def waitHolds (s : State) (blk : Block) (y : Crew) (o : WaitObj) : Bool :=
  match o with
  | .bar core off phase => barOk s core off && phaseReached (readBar s core off).phase phase.toNat
  | .bmp va bits =>
    (match wordAt s blk va.toNat with
     | some w => decide (Nat.land w bits.toNat = bits.toNat)
     | none => false)
  | .ac n =>
    let a := y.acs.getD n ⟨0, 0, []⟩
    a.iss == a.arr
  | .copies n => decide (n ≤ y.copies.value)
  | .batches n => decide (n ≤ y.batches.value)
  | .tape n => decide (n ≤ y.tape.tl.value)
  | .launch i n => tlEntryOk s (ctxOf s blk) i && decide (n ≤ tlValue s (ctxOf s blk) i)

/-- The other slot of a crew waits on the same object. -/
def otherWaits (y : Crew) (k : Nat) (core off : Nat) : Bool :=
  match (slotOf y (1 - k)).st with
  | .waiting (.object (.bar core' off' _) _ _) => core' == core && off' == off
  | _ => false

/-- A wait on a barrier object has ended. -/
def unmark (s : State) (h : Here) (o : WaitObj) : State :=
  match o with
  | .bar core off _ => if otherWaits h.crew h.k core off then s else markWait s core off h.c false
  | _ => s

/-- The key of a word at a virtual address of a block. -/
def wordKey (s : State) (blk : Block) (va : Nat) : Option Nat :=
  match routeOf va 4 with
  | .loc a => some (watchedKey s blk.core (blk.base + a))
  | .cluster j o => some (watchedKey s (clusterCore blk.core j) o)
  | .global => (peekPage s blk.core (ctxOf s blk) va).bind fun t =>
      if isRemote (tlbPa t va) then (remotePlace s (tlbPa t va) false).map placeKey
      else some (placeKey (linePlace (tlbPa t va)))
  | .bad => none

/-- The greatest write time of the chunks that some bits of a bitmap word cover (R98). -/
def bitsTw (s : State) (blk : Block) (va : Nat) (bits : Word) : Nat :=
  match wordKey s blk va with
  | some k => (lanesOf bits).foldl (fun t i => max t (s.bits.getD (32 * k + i) 0)) 0
  | none => 0

/-- The write time that a successful wait acquires (R62, R95 to R98); none when it acquires nothing (R99). -/
def waitTw (s : State) (h : Here) (o : WaitObj) : Option Nat :=
  match o with
  | .bar core off _ => some (barSync s core off).past
  | .bmp va bits => some (bitsTw s h.blk va.toNat bits)
  | .ac _ => none
  | .copies n => some (twUpTo h.crew.copies.tws n)
  | .batches n => some (twUpTo h.crew.batches.tws n)
  | .tape n => some (twUpTo h.crew.tape.tl.tws n)
  | .launch i _ => some (synced (partyOf s h.b h.c) .dev (marksAt s [tlKey s (ctxOf s h.blk) i]))

/-- What a success does beside its predicate: the acquire, and an arrival counter's reset (R189, R199). -/
def waitWins (s : State) (h : Here) (o : WaitObj) : State :=
  let s1 := match o with
    | .ac n => updCrew s h.b h.c fun y => { y with acs := y.acs.put n ⟨0, 0, []⟩ }
    | _ => s
  match waitTw s h o with
  | some t => acquireAt s1 h.b h.c (hMask h) t
  | none => s1

/-- The wait of a slot ends: its predicate is written in its active lanes and the next word follows. -/
def endWait (s : State) (h : Here) (o : WaitObj) (pd : Nat) (ok : Bool) : State :=
  let s1 := unmark s h o
  let s2 := if ok then waitWins s1 h o else s1
  let s3 := updCrew s2 h.b h.c fun y => writeP y pd (hMask h) (if ok then BitVec.allOnes 32 else 0)
  nextWord s3 h

end Sys2Proof.Machine
end

