-- ==== Sys2Proof/Machine/EngineMem.lean ====
section
/-! DEFINITION. How an engine beside the crews reads and writes: by window, a global address through the issuing
context's tables, a moored line as a store of the core would touch it (17_instr_engines.md R202). -/

namespace Sys2Proof.Machine

/-- Why an engine's access ends its step: a fault of a KIND, or the state in which it is to be tried again. -/
inductive EngStop where
  | fault (x : Xf) (kind : Nat)
  | again (s : State)

/-- An engine's accesses, with the state so far. -/
abbrev EngM := StateT State (Except EngStop)

def getM : EngM State := fun s => .ok (s, s)

def modifyM (f : State → State) : EngM Unit := fun s => .ok ((), f s)

def faultM {α : Type} (x : Xf) (kind : Nat) : EngM α := fun _ => .error (.fault x kind)

def againM {α : Type} (f : State → State) : EngM α := fun s => .error (.again (f s))

/-- What a touch of a moored line comes to for an engine. -/
def touchM (die kind : Nat) (t : State → Touch) : EngM Unit := fun s =>
  match t s with
  | .ok s1 => .ok ((), s1)
  | .wait _ s1 => .error (.again s1)
  | .miss c va => .error (.again (startWalk s die c va).2)
  | .fault x => .error (.fault x kind)

/-- The core and stash offset of a local or cluster access of a block's engine; none for a global address. -/
def placeM (blk : Block) (va n : Nat) (wr : Bool) (kind : Nat) : EngM (Option (Nat × Nat)) := do
  let die := dieOfCore blk.core
  match routeOf va n with
  | .loc a =>
    if blk.kern.stash < a + n then faultM ⟨.accf, 2, va⟩ kind
    else do
      touchM die kind fun s => touchStash s blk.core (blk.base + a) n va wr
      pure (some (blk.core, blk.base + a))
  | .cluster j o => do
    let c := clusterCore blk.core j
    touchM die kind fun s => touchStash s c o n va wr
    pure (some (c, o))
  | .global => pure none
  | .bad => faultM ⟨.addrf, 0, va⟩ kind

/-- An access of an engine to its global pieces: it faults, or is tried again. -/
def engM {α : Type} (blk : Block) (kind : Nat) (f : State → Except EngErr (α × State)) : EngM α := fun s =>
  match f s with
  | .ok r => .ok r
  | .error (.fault x) => .error (.fault x kind)
  | .error e => .error (.again (engAgain s (dieOfCore blk.core) e))

/-- `n` bytes at an address. `ag` is the agent whose request it is. -/
def readM (blk : Block) (va n kind : Nat) (ag : Nat := blk.core) : EngM (List Byte) := do
  match ← placeM blk va n false kind with
  | some p => do
    let s ← getM
    pure (readPlace s (.stash p.1 p.2) n)
  | none => engM blk kind fun s => engRead s blk.core (ctxOf s blk) va n ag

/-- A piece of a write is ready at its home: a slot is free, no step's version, no probe out. -/
def readySegM (ag : Nat) (blk : Block) (x : Seg) (kind : Nat) : EngM Unit := do
  let s ← getM
  let g := lineNo x.pa
  if isRemote x.pa then
    if (remotePlace s x.pa true).isNone then faultM ⟨.accf, 8, x.va⟩ kind else pure ()
  else if versioned s g || !engSlot s ag blk.core x.pa then againM id
  else if !tokensTo s (engDie blk.core) (homeDie x.pa) then againM fun s => throttleTo s (engDie blk.core) (homeDie x.pa)
  else
    match grab s g none true with
    | (false, s1) => againM fun _ => s1
    | (true, s1) => modifyM fun _ => s1

/-- The pieces of a write that a page permits; none for a stash. -/
def segsM (blk : Block) (va n kind : Nat) : EngM (List Seg) := do
  match ← placeM blk va n true kind with
  | some _ => pure []
  | none => engM blk kind fun s =>
    match engRoute s blk.core (ctxOf s blk) .wr va n with
    | .error e => .error e
    | .ok xs => .ok (xs, s)

/-- A write of `n` bytes can be performed whole. -/
def readyM (blk : Block) (va n kind : Nat) (ag : Nat := blk.core) : EngM Unit := do
  let xs ← segsM blk va n kind
  xs.forM fun x => readySegM ag blk x kind

/-- A write that is ready, with its write time. A poisoned line takes only a whole line that a copy lands (R247). -/
def writeM (blk : Block) (va kind : Nat) (bs : List Byte) (ag : Nat := blk.core) : EngM Nat := do
  match ← placeM blk va bs.length true kind with
  | some p => fun s => .ok (stashPut s p.1 p.2 bs s.clock)
  | none => engM blk kind fun s => engWrite s (kind == 5) blk.core (ctxOf s blk) va bs ag

/-! ## Sums over bytes (R206, R244) -/

/-- One bit of a reflected CRC-32C. -/
def crcBit (c : Nat) : Nat := if c % 2 = 1 then Nat.xor (c / 2) 0x82F63B78 else c / 2

def crcByte (c : Nat) (b : Byte) : Nat :=
  (List.range 8).foldl (fun c _ => crcBit c) (Nat.xor c b.toNat)

/-- CRC-32C: initial value and final XOR 0xFFFF_FFFF. -/
def crc32c (bs : List Byte) : Nat := Nat.xor (bs.foldl crcByte 0xFFFFFFFF) 0xFFFFFFFF

end Sys2Proof.Machine
end

