-- ==== Sys2Proof/Machine/Copies.lean ====
section
/-! DEFINITION. Copy operations: `CPY`, `CPYT`, `CPYQ`, the landing of their lines, their completion and their
faults (17_instr_engines.md R202 to R207, 19_traps_rules.md R235, R236). -/

namespace Sys2Proof.Machine

/-! ## Tile descriptors (R204) -/

/-- The fields of a descriptor's 64 bytes. A pair of 4-bit elements is moved as one byte. -/
def tileOf (x : Nat) (q : Bool) : TileDesc :=
  let sf := fmtOf (nfield x 256 4)
  let df := fmtOf (nfield x 264 4)
  let fl := nfield x 272 8
  let four := !q && fmtBits sf == 4
  let none32 := fun o => if nfield x o 32 = 0xFFFFFFFF then none else some (nfield x o 32)
  { src := nfield x 0 64
    dst := nfield x 64 64
    rows := nfield x 128 32
    cols := if four then nfield x 160 32 / 2 else nfield x 160 32
    sstride := nfield x 192 32
    dstride := nfield x 224 32
    sfmt := if four then .n8 else sf
    dfmt := if four then .n8 else df
    xpose := nbit fl 0
    sparse := nbit fl 1
    cksrc := nbit fl 2
    ckdst := nbit fl 3
    bmp := nbit fl 4
    rop := nfield x 280 8
    bar := none32 288
    bmpAddr := nfield x 320 64
    aux := nfield x 384 64
    recoff := none32 448
    quant := if q then some (match nfield x 480 8 with
      | 0 => .qf4
      | 1 => .qi4
      | _ => .qf8) else none }

def isNib (f : Fmt) : Bool := fmtBits f == 4

/-- Bytes of a quad-scaled block. -/
def blockBytes (q : QFmt) : Nat := (qScaleBit q + 8) / 8

def elemBytes (f : Fmt) : Nat := fmtBits f / 8

/-- Bytes of a destination element. -/
def tileSize (d : TileDesc) : Nat :=
  match d.quant with
  | some q => blockBytes q
  | none => elemBytes d.dfmt

/-- Destination elements of a source row. -/
def tileCols (d : TileDesc) : Nat := if d.quant.isSome then d.cols / 4 else d.cols

/-- The destination address of element i. -/
def tileDst (d : TileDesc) (i : Nat) : Nat :=
  let r := i / tileCols d
  let e := i % tileCols d
  (d.dst + if d.xpose then e * d.dstride + r * tileSize d else r * d.dstride + e * tileSize d) % 2 ^ 64

/-- Bytes from DST to the end of the highest byte written. -/
def tileSpan (d : TileDesc) : Nat :=
  if d.xpose then (tileCols d - 1) * d.dstride + d.rows * tileSize d
  else (d.rows - 1) * d.dstride + tileCols d * tileSize d

/-- Chunks of 512 bytes, 0 to the one that holds the highest byte (R206). -/
def tileChunks (d : TileDesc) : Nat := (tileSpan d - 1) / 512 + 1

/-- R204: the limits of a descriptor that its own block's stash bounds by `p`. A stride that leaves later rows misaligned is
accepted, and with ROWS = 1 an XPOSE whose columns overlap is a format error (DESIGN CHOICE, log 88). -/
def tileOk (x p : Nat) (q : Bool) : Bool :=
  let d := tileOf x q
  let cols := nfield x 160 32
  let sf := fmtOf (nfield x 256 4)
  let df := fmtOf (nfield x 264 4)
  let sbits := if q then 32 else fmtBits sf
  let dbits := fmtBits df
  let one := d.rows == 1
  let rowBytes := tileCols d * tileSize d
  decide (nfield x 256 8 < 16) && decide (nfield x 264 8 < 16)
    && (!q || (nfield x 256 8 == 0 && nfield x 264 8 == 0))
    && decide (1 ≤ d.rows ∧ d.rows ≤ 2 ^ 20) && decide (1 ≤ cols ∧ cols ≤ 2 ^ 20)
    && (sbits != 4 || cols % 2 == 0) && (!q || cols % 4 == 0)
    && d.src % max 1 (sbits / 8) == 0 && (q || d.dst % max 1 (dbits / 8) == 0)
    && (one || (if d.sparse then d.sstride == 0 else decide (cols * sbits / 8 ≤ d.sstride)))
    && (one || decide ((if d.xpose then d.rows * tileSize d else rowBytes) ≤ d.dstride))
    && !(one && d.xpose && decide (1 < tileCols d) && decide (d.dstride < tileSize d))
    && nfield x 277 3 == 0 && decide (d.rop ≤ 3)
    && (match d.bar with
        | some o => o % 32 == 0 && decide (o + 32 ≤ p)
        | none => true)
    && d.bmpAddr % 4 == 0 && (d.bmp == (d.bmpAddr != 0))
    && (!d.bmp || (match windowOf d.bmpAddr with
        | .loc a => decide (a + 4 * ((tileChunks d - 1) / 32 + 1) ≤ p)
        | _ => true))
    && (d.aux == 0 || d.sparse || q) && (!q || d.aux % 4 == 0)
    && (match d.recoff with
        | some o => o % 16 == 0 && decide (o + 16 ≤ p)
        | none => !d.cksrc && !d.ckdst)
    && (if q then decide (nfield x 480 8 ≤ 2) else nfield x 480 8 == 0) && nfield x 488 24 == 0
    && (!(sbits == 4 || (!q && dbits == 4)) || (sf == df && !d.xpose && !d.sparse && d.rop == 0))
    && !(d.rop != 0 && d.sparse) && (!q || (d.rop == 0 && !d.xpose && !d.sparse))
    && decide (d.rows * rowBytes < 2 ^ 32)

/-! ## The elements of a copy -/

def workCount (w : CopyWork) : Nat :=
  match w with
  | .lanes es _ _ => es.length
  | .tile d => d.rows * tileCols d

def workSize (w : CopyWork) : Nat :=
  match w with
  | .lanes _ n _ => n
  | .tile d => tileSize d

def workDst (w : CopyWork) (i : Nat) : Nat :=
  match w with
  | .lanes es _ _ => (es.getD i (0, 0)).1
  | .tile d => tileDst d i

/-- The address and size of the source bytes of a dense element. -/
def workSrc (w : CopyWork) (i : Nat) : Nat × Nat :=
  match w with
  | .lanes es n _ => ((es.getD i (0, 0)).2, n)
  | .tile d =>
    let r := i / tileCols d
    let e := i % tileCols d
    let n := if d.quant.isSome then 16 else elemBytes d.sfmt
    ((d.src + r * d.sstride + e * n) % 2 ^ 64, n)

/-- The residual bytes of a group of four elements (R207). -/
def residualVa (d : TileDesc) (i : Nat) : Nat := (d.aux + 16 * i) % 2 ^ 64

/-- Bytes of the mask of a sparse tile. -/
def maskBytes (d : TileDesc) : Nat := (d.rows * d.cols + 7) / 8

/-- What an element's landing writes: its destination bytes, residual bytes, the source bytes read and the record's
flags; and what was read for it, source and residual bytes, if it was present. -/
structure Landing where
  va : Nat
  bytes : List Byte
  residual : List (Nat × List Byte)
  srcs : List (Nat × Byte)
  flags : FlagSet
  read : Option (List Byte)
  deriving DecidableEq, Repr

def withVa (va : Nat) (bs : List Byte) : List (Nat × Byte) := bs.zipIdx.map fun p => ((va + p.2) % 2 ^ 64, p.1)

/-- Bytes read by a copy's engine: an agent of its own, (core mod 48) div 6 of its die (R202, R78). -/
def engineOf (core : Nat) : Nat := core % 48 / 6

def engineAgent (blk : Block) : Nat := 200 + 8 * dieOfCore blk.core + engineOf blk.core

/-- The bytes of a mask from `n` on, each read once and in ascending order, up to a byte that faults (R205). -/
def maskM (blk : Block) (d : TileDesc) (have' : List Byte) (n : Nat) : EngM (List Byte) := do
  match n with
  | 0 => pure have'
  | k + 1 => fun s =>
    match (readM blk ((d.aux + have'.length) % 2 ^ 64) 1 4 (engineAgent blk)).run s with
    | .ok (bs, s1) => (maskM blk d (have' ++ bs) k).run s1
    | .error (.fault _ _) => .ok (have', s)
    | .error e => .error e

def maskBit (bs : List Byte) (j : Nat) : Bool := (bs.getD (j / 8) 0).getLsbD (j % 8)

/-- The address and size of the source bytes of an element; none for an absent element of a sparse tile. -/
def elemSrc (w : CopyWork) (mask : List Byte) (i : Nat) : Option (Nat × Nat) :=
  match w with
  | .tile d =>
    if !d.sparse then some (workSrc w i)
    else if maskBit mask i then
      let k := ((List.range i).filter (maskBit mask)).length
      some ((d.src + k * elemBytes d.sfmt) % 2 ^ 64, elemBytes d.sfmt)
    else none
  | .lanes _ _ _ => some (workSrc w i)

/-- The mask of a sparse tile is known as far as an element needs it: of an absent one, its own bit; of one that is present,
every byte up to its own, since the bits before it count (R205). True for a present one. -/
def presentM (blk : Block) (c : Copy) (d : TileDesc) (i : Nat) : EngM Bool := do
  if !d.sparse then pure true
  else if i / 8 < c.maskRead.length then pure (maskBit c.maskRead i)
  else do
    let own ← readM blk ((d.aux + i / 8) % 2 ^ 64) 1 4 (engineAgent blk)
    if !maskBit own (i % 8) then pure false
    else do
      let _ ← readM blk ((d.aux + c.maskRead.length) % 2 ^ 64) 1 4 (engineAgent blk)
      -- the byte that stopped the reading of the mask may now be read
      againM id

/-- The source bytes of an element, with their addresses: those read before, or read now. An absent element is none. -/
def elemM (blk : Block) (c : Copy) (i : Nat) : EngM (Option (List Byte) × List (Nat × Byte)) := do
  let here ← match c.work with
    | .tile d => presentM blk c d i
    | .lanes _ _ _ => pure true
  match here, elemSrc c.work c.maskRead i with
  | true, some (va, n) => do
    let bs ← match c.held.find i with
      | some bs => pure (bs.take n)
      | none => readM blk va n 4 (engineAgent blk)
    pure (some bs, withVa va bs)
  | _, _ => pure (none, [])

/-- The residual bytes of a group: those read before, or read now. -/
def residualM (blk : Block) (c : Copy) (d : TileDesc) (i : Nat) : EngM (List Byte) :=
  match c.held.find i with
  | some bs => if bs.length = 32 then pure (bs.drop 16) else readM blk (residualVa d i) 16 4 (engineAgent blk)
  | none => readM blk (residualVa d i) 16 4 (engineAgent blk)

/-- An exact value kept with its sign. -/
def exactV (x : Dy) (negZero : Bool) : FV := .fin (decide (x.m < 0) || (x.m == 0 && negZero)) x.m.natAbs x.e

/-- R205: the exact combination of two values; ∞ − ∞ is invalid and gives NaN. -/
def combineV (rop : Nat) (a b : FV) : FV × FlagSet :=
  if isNanV a || isNanV b then (.nan, flagNone)
  else if rop = 1 then
    if isInfV a && isInfV b && negV a != negV b then (.nan, flagInv)
    else if isInfV a then (a, flagNone)
    else if isInfV b then (b, flagNone)
    else (exactV (sumDy [a, b]) (allNegZero [a, b]), flagNone)
  else if rop = 3 then (if ltZero a b then b else a, flagNone)
  else (if ltZero b a then b else a, flagNone)

/-- The element stored in reduce mode. -/
def reduceNat (d : TileDesc) (old x : Nat) : Nat × FlagSet :=
  let (v, f) := combineV d.rop (valueIn d.dfmt old) (valueIn d.sfmt x)
  let r := if fmtFloat d.dfmt then cvtNarrow (ffOf d.dfmt) v else convertTo .f32 d.dfmt false v
  (r.1, flagOr f r.2)

/-- The element stored without a reduction: bit for bit between equal formats, else converted. -/
def convertNat (d : TileDesc) (x : Nat) : Nat × FlagSet :=
  if d.sfmt = d.dfmt then (x, flagNone) else convertTo d.sfmt d.dfmt false (valueIn d.sfmt x)

/-- R207: a group of four quantised, and the residuals it leaves. The flags are those of the sums of value and
residual and of the block (DEDUCED, log 68). -/
def quantGroup (q : QFmt) (xs rs : List Nat) : Nat × List Nat × FlagSet :=
  let sums := (List.range 4).map fun k => fpBin ffF32 .add (xs.getD k 0) (rs.getD k 0)
  let ys := sums.map (·.1)
  let (b, g) := cvtqBlock q none ys
  let f := sums.foldl (fun a r => flagOr a r.2) g
  let nan := decide (b / 2 ^ qScaleBit q % 256 = 255)
  let left := (List.range 4).map fun k =>
    if nan then 0 else (sumRound ffF32 [fvOf ffF32 (ys.getD k 0), flipV (blockValue q b k)]).1
  (b, left, f)

def groupsOf (bs : List Byte) : List Nat := (List.range 4).map fun k => leNat ((bs.drop (4 * k)).take 4)

/-- A destination that its page permits and its window reaches (R335). -/
def destM (blk : Block) (va n : Nat) : EngM Unit := do
  let xs ← segsM blk va n 5
  let s ← getM
  match xs.find? fun x => isRemote x.pa && (remotePlace s x.pa true).isNone with
  | some x => faultM ⟨.accf, 8, x.va⟩ 5
  | none => pure ()

/-- What the landing of element i writes, every source byte read. -/
def elementM (blk : Block) (c : Copy) (i : Nat) : EngM Landing := do
  let va := workDst c.work i
  let (x, srcs) ← elemM blk c i
  match c.work with
  | .lanes _ _ _ => pure ⟨va, x.getD [], [], [], flagNone, x⟩
  | .tile d =>
    match d.quant with
    | some q => do
      let rs ← if d.aux = 0 then pure [] else residualM blk c d i
      let (b, left, f) := quantGroup q (groupsOf (x.getD [])) (groupsOf rs)
      if d.aux ≠ 0 then destM blk (residualVa d i) 16
      pure ⟨va, leBytes (blockBytes q) b,
        if d.aux = 0 then [] else [(residualVa d i, left.flatMap (leBytes 4))], srcs, f, x.map (· ++ rs)⟩
    | none => do
      let n := elemBytes d.dfmt
      match x with
      | none => pure ⟨va, leBytes n 0, [], srcs, flagNone, none⟩
      | some bs =>
        if d.rop = 0 then
          let r := convertNat d (leNat bs)
          pure ⟨va, leBytes n r.1, [], srcs, r.2, x⟩
        else do
          let old ← readM blk va n 5 (engineAgent blk)
          let r := reduceNat d (leNat old) (leNat bs)
          pure ⟨va, leBytes n r.1, [], srcs, r.2, x⟩

/-! ## Landing (R202, R206, R235) -/

/-- A sector's number. -/
def sectorOf (va : Nat) : Nat := va / 32

def missingSectors (c : Copy) : List Nat := c.faults.flatMap fun f => f.sectors

/-! A destination byte lands by itself (R81, R100): unit 32i + o is byte o of element i. An element in reduce mode, which is
one atomic operation (R205), lands whole: unit 32i. -/

/-- The elements land whole. -/
def wholeElems (w : CopyWork) : Bool :=
  match w with
  | .lanes _ _ _ => false
  | .tile d => d.rop != 0

/-- The units of element i. -/
def elemUnits (w : CopyWork) (i : Nat) : List Nat :=
  if wholeElems w then [32 * i] else (List.range (workSize w)).map fun o => 32 * i + o

def workUnits (w : CopyWork) : List Nat := (List.range (workCount w)).flatMap (elemUnits w)

/-- The element of a unit. -/
def unitElem (u : Nat) : Nat := u / 32

/-- The first byte of a unit within its element, and how many there are. -/
def unitSpan (w : CopyWork) (u : Nat) : Nat × Nat := (u % 32, if wholeElems w then workSize w else 1)

def unitVa (w : CopyWork) (u : Nat) : Nat := (workDst w (unitElem u) + (unitSpan w u).1) % 2 ^ 64

/-- The sector in which a unit begins. -/
def unitSector (w : CopyWork) (u : Nat) : Nat := sectorOf (unitVa w u)

/-- The sectors of a unit. -/
def unitSectors (w : CopyWork) (u : Nat) : List Nat :=
  [unitSector w u, sectorOf (unitVa w u + (unitSpan w u).2 - 1)].eraseDups

/-- A unit lies in one of some sectors. -/
def unitIn (w : CopyWork) (secs : List Nat) (u : Nat) : Bool := (unitSectors w u).any secs.contains

/-- The units still to land. -/
def openUnits (c : Copy) : List Nat :=
  (workUnits c.work).filter fun u => !c.landed.contains u && !unitIn c.work (missingSectors c) u

/-- The destination lines of the units still to land. -/
def openPieces (c : Copy) : List Nat := ((openUnits c).map fun u => unitSector c.work u / 4).eraseDups

/-- What is tried meets a fault of a KIND, or does not. -/
def tryM {α : Type} (m : EngM α) : EngM (Except (Xf × Nat) α) := fun s =>
  match m.run s with
  | .ok (x, s1) => .ok (.ok x, s1)
  | .error (.fault x k) => .ok (.error (x, k), s)
  | .error (.again s1) => .error (.again s1)

/-- What some elements' landings write, or their faults. -/
def elementsM (blk : Block) (c : Copy) (is : List Nat) : EngM (List (Nat × Except (Xf × Nat) Landing)) :=
  is.mapM fun i => do
    let r ← tryM (elementM blk c i)
    pure (i, r)

/-- A unit's part of its element's landing, where its destination takes it. -/
def unitM (blk : Block) (w : CopyWork) (u : Nat) (l : Except (Xf × Nat) Landing) : EngM (Nat × Except (Xf × Nat) Landing) :=
  match l with
  | .error e => pure (u, .error e)
  | .ok l => do
    let (o, n) := unitSpan w u
    let r ← tryM (destM blk (unitVa w u) n)
    pure (u, match r with
      | .ok _ => .ok { l with va := unitVa w u, bytes := (l.bytes.drop o).take n }
      | .error e => .error e)

/-- Written bytes by address, a later element's over an earlier one's. -/
def landedBytes (ls : List Landing) : Table Byte :=
  ls.foldl (fun t l => (withVa l.va l.bytes).foldl (fun t p => t.put p.1 p.2) t) []

/-- Runs of consecutive addresses within one line. -/
def runsOf (t : Table Byte) : List (Nat × List Byte) :=
  t.foldr (fun p rs =>
    match rs with
    | [] => [(p.1, [p.2])]
    | (a, bs) :: r => if p.1 + 1 = a ∧ p.1 / 128 = a / 128 then (p.1, p.2 :: bs) :: r else (p.1, [p.2]) :: rs) []

/-- The line of a global destination is poisoned. -/
def poisonedVa (s : State) (blk : Block) (va : Nat) : Bool :=
  match routeOf va 1 with
  | .global =>
    (match peekPage s blk.core (ctxOf s blk) va with
     | some t => !isRemote (tlbPa t va) && poisoned s (lineNo (tlbPa t va))
     | none => false)
  | _ => false

/-- A fault joins the copy's: a sector of a window, the lowest one's page and KIND remembered. -/
def addFault (fs : List CopyFault) (sec : Nat) (x : Xf) (kind : Nat) : List CopyFault :=
  let w := sec / 64 * 2048
  let pg := x.addr / 4096 * 4096
  if fs.any fun f => f.window == w && f.chunk.isNone && !f.posted then
    fs.map fun f =>
      if f.window = w ∧ f.chunk = none ∧ f.posted = false then
        let low := f.sectors.all fun k => decide (sec < k)
        { f with sectors := f.sectors ++ [sec], page := if low then pg else f.page, kind := if low then kind else f.kind }
      else f
  else fs ++ [⟨w, [sec], pg, kind, none, 0, false⟩]

/-- Flags of the completion record: SAT 0, NANZ 1, INV 2, OVF 3. -/
def recordFlags (f : FlagSet) : Nat :=
  (if nbit f 2 then 1 else 0) + (if nbit f 3 then 2 else 0) + (if nbit f 0 then 4 else 0) + (if nbit f 1 then 8 else 0)

/-- The barrier a copy credits: its stash offset. -/
def workBar (blk : Block) (w : CopyWork) : Option Nat :=
  let o := match w with
    | .lanes _ _ b => b
    | .tile d => d.bar
  o.map fun o => blk.base + o

/-- Landed bytes are credited: a release of all that has landed and of what comes before the copy (R96). -/
def creditLanded (s : State) (blk : Block) (c : Copy) (n : Nat) : State :=
  match workBar blk c.work with
  | some o => creditBar s blk.core o 0 n c.tw
  | none => s

/-- The completion record's 16 bytes. -/
def recordBytes (c : Copy) (d : TileDesc) : List Byte :=
  leBytes 4 (if d.cksrc then crc32c (c.srcSum.map fun p => p.2) else 0)
    ++ leBytes 4 (if d.ckdst then crc32c (c.dstSum.map fun p => p.2) else 0)
    ++ leBytes 4 c.flags ++ leBytes 4 (workCount c.work * workSize c.work)

/-- R206: the record is written once every byte has landed. -/
def writeRecord (s : State) (blk : Block) (c : Copy) : State :=
  match c.work with
  | .lanes _ _ _ => s
  | .tile d =>
    match d.recoff with
    | some o => writePlace s (.stash blk.core (blk.base + o)) (recordBytes c d)
    | none => s

def putSum (on : Bool) (t : Table Byte) (ps : List (Nat × Byte)) : Table Byte :=
  if on then ps.foldl (fun t p => t.put p.1 p.2) t else t

/-- The chunks of 512 bytes that bytes of the destination lie in. -/
def chunksOf (w : CopyWork) (va n : Nat) : List Nat :=
  match w with
  | .lanes _ _ _ => []
  | .tile d => [(va - d.dst) / 512, (va - d.dst + n - 1) / 512].eraseDups

/-- A write of landed bytes at time `t`. -/
def noteWrite (c : Copy) (va n t : Nat) : Copy :=
  { c with
    tw := max c.tw t
    tws := (chunksOf c.work va n).foldl (fun a k => a.put k (max (a.getD k 0) t)) c.tws }

/-- The source bytes kept after some landings: those of the elements with units still to land. -/
def heldAfter (c : Copy) (us : List Nat) (ls : List (Nat × Landing)) : Table (List Byte) :=
  let t := ls.foldl (fun t p =>
    match p.2.read with
    | some bs => t.put (unitElem p.1) bs
    | none => t) c.held
  t.filter fun e => !(elemUnits c.work e.1).all us.contains

/-- The copy after the landings of some units. -/
def afterLanding (c : Copy) (units : List (Nat × Landing)) : Copy :=
  let (cs, cd) := match c.work with
    | .tile d => (d.cksrc, d.ckdst)
    | .lanes _ _ _ => (false, false)
  let us := c.landed ++ units.map (·.1)
  let ls := units.map (·.2)
  { c with
    landed := us
    held := heldAfter c us units
    flags := Nat.lor c.flags (recordFlags (ls.foldl (fun a l => flagOr a l.flags) flagNone))
    srcSum := putSum cs c.srcSum (ls.flatMap fun l => l.srcs)
    dstSum := putSum cd c.dstSum (landedBytes ls) }

def allLanded (c : Copy) : Bool := (workUnits c.work).all fun u => c.landed.contains u

/-- The units of a line that can land, and the copy's faults. -/
structure LineOut where
  lands : List (Nat × Landing)
  faults : List CopyFault

/-- Sectors become missing by a fault. -/
def addFaults (fs : List CopyFault) (secs : List Nat) (x : Xf) (kind : Nat) : List CopyFault :=
  secs.foldl (fun fs k => if fs.any fun f => f.sectors.contains k then fs else addFault fs k x kind) fs

/-- What can land of a line whose units have been tried: a sector is missing when a unit in it faults (R235). -/
def lineOut (w : CopyWork) (fs : List CopyFault) (rs : List (Nat × Except (Xf × Nat) Landing)) : LineOut :=
  let fs1 := rs.foldl (fun fs r =>
    match r.2 with
    | .error (x, k) => addFaults fs (unitSectors w r.1) x k
    | .ok _ => fs) fs
  let missing := fs1.flatMap fun f => f.sectors
  ⟨rs.filterMap fun r =>
    match r.2 with
    | .ok l => if unitIn w missing r.1 then none else some (r.1, l)
    | .error _ => none, fs1⟩

/-- The poisoned lines among those that the units write. -/
def poisonedLines (s : State) (blk : Block) (w : CopyWork) (us : List Nat) : List Nat :=
  ((us.flatMap (unitSectors w)).map (· / 4)).eraseDups.filter fun g => poisonedVa s blk (128 * g)

/-- R247: a poisoned line takes only a whole line; else its sectors are missing. -/
def poisonOut (s : State) (blk : Block) (c : Copy) (o : LineOut) : LineOut :=
  let whole (g : Nat) : Bool := (runsOf (landedBytes (o.lands.map (·.2)))).any fun r => r.1 == 128 * g && r.2.length == 128
  let bad := (poisonedLines s blk c.work (o.lands.map (·.1))).filter fun g => !whole g
  let secs := ((o.lands.flatMap fun p => unitSectors c.work p.1).eraseDups).filter fun k => bad.contains (k / 4)
  let fs := secs.foldl (fun fs k => addFaults fs [k] ⟨.poison, 0, 32 * k⟩ 5) o.faults
  ⟨o.lands.filter fun p => !unitIn c.work secs p.1, fs⟩

/-- The units that land in this step: any of those that can (R100), but all of them where the line is poisoned. -/
def landNow (s : State) (blk : Block) (c : Copy) (ls : List (Nat × Landing)) : List (Nat × Landing) × State :=
  if ls.length ≤ 1 || !(poisonedLines s blk c.work (ls.map (·.1))).isEmpty then (ls, s)
  else
    let (k, s1) := freeChoice s ls.length
    (ls.take (k + 1), s1)

/-- The residual bytes of the elements whose last unit lands. -/
def residualsOf (c : Copy) (ls : List (Nat × Landing)) : List (Nat × List Byte) :=
  ((ls.map fun p => unitElem p.1).eraseDups).flatMap fun i =>
    if (elemUnits c.work i).all fun u => c.landed.contains u || ls.any fun p => p.1 == u then
      ((ls.find? fun p => unitElem p.1 == i).map fun p => p.2.residual).getD []
    else []

/-- Writes runs of landed bytes. -/
def writeRunsM (blk : Block) (c : Copy) (rs : List (Nat × List Byte)) : EngM Copy := do
  match rs with
  | [] => pure c
  | r :: q => do
    let t ← writeM blk r.1 5 r.2 (engineAgent blk)
    writeRunsM blk (noteWrite c r.1 r.2.length t) q

/-- Writes residuals: the copy's completion orders them too (R95, R207). -/
def writeResidualsM (blk : Block) (c : Copy) (rs : List (Nat × List Byte)) : EngM Copy := do
  match rs with
  | [] => pure c
  | r :: q => do
    let t ← writeM blk r.1 5 r.2 (engineAgent blk)
    writeResidualsM blk { c with tw := max c.tw t } q

/-- Lands units of one destination line: any of those in sectors whose bytes translate. -/
def landLineM (blk : Block) (c : Copy) (us : List Nat) : EngM Copy := do
  let es ← elementsM blk c (us.map unitElem).eraseDups
  let rs ← us.mapM fun u => unitM blk c.work u ((Table.find es (unitElem u)).getD (.error (⟨.cpyf, 0, 0⟩, 4)))
  let s ← getM
  let o := poisonOut s blk c (lineOut c.work c.faults rs)
  let (ls, s1) := landNow s blk c o.lands
  modifyM fun _ => s1
  let runs := runsOf (landedBytes (ls.map (·.2)))
  let rest := residualsOf c ls
  (runs ++ rest).forM fun r => readyM blk r.1 r.2.length 5 (engineAgent blk)
  let c0 ← writeResidualsM blk (← writeRunsM blk c runs) rest
  let c1 := { afterLanding c0 ls with faults := o.faults }
  modifyM fun s =>
    let s1 := if allLanded c1 && !c1.recorded then writeRecord s blk c1 else s
    creditLanded s1 blk c1 ((ls.map fun p => (unitSpan c.work p.1).2).sum)
  pure { c1 with recorded := c1.recorded || allLanded c1 }

/-! ## The chunk bitmap (R206) -/

/-- Chunks whose bits are due: every byte landed, or, at completion, every chunk of the copy. -/
def dueChunks (c : Copy) : List Nat :=
  match c.work with
  | .lanes _ _ _ => []
  | .tile d =>
    if !d.bmp then []
    else
      (List.range (tileChunks d)).filter fun k =>
        !c.chunks.contains k && !(c.faults.any fun f => f.chunk == some k) &&
        (let mine := (workUnits c.work).filter fun u => (chunksOf c.work (unitVa c.work u) (unitSpan c.work u).2).contains k
         if mine.isEmpty then allLanded c else mine.all fun u => c.landed.contains u)

/-- Sets one bit of the bitmap by an atomic OR at the word's home, a release of the chunk's bytes (R98): the write's time,
which the copy's completion orders too (R95, R206). -/
def chunkBitM (blk : Block) (c : Copy) (d : TileDesc) (k : Nat) : EngM Nat := do
  let va := (d.bmpAddr + 4 * (k / 32)) % 2 ^ 64
  let bs ← readM blk va 4 5 (engineAgent blk)
  readyM blk va 4 5 (engineAgent blk)
  let tw ← writeM blk va 5 (leBytes 4 (Nat.lor (leNat bs) (2 ^ (k % 32)))) (engineAgent blk)
  modifyM fun s =>
    match wordKey s blk va with
    | none => s
    | some key =>
      let t := max tw (c.tws.getD k 0)
      let keys := (List.range 4).map fun i => key + i
      { markBytes (atomicMarks s keys) keys ⟨.device, .dev, t, true⟩ with
        bits := s.bits.put (32 * key + k % 32) (c.tws.getD k 0) }
  pure tw

def setChunks (blk : Block) (c : Copy) (ks : List Nat) : EngM Copy := do
  match ks, c.work with
  | k :: r, .tile d => do
    let c1 ← fun s =>
      match (chunkBitM blk c d k).run s with
      | .ok (tw, s1) => .ok ({ c with chunks := c.chunks ++ [k], tw := max c.tw tw }, s1)
      | .error (.fault x _) =>
        .ok ({ c with faults := c.faults ++ [⟨(d.dst + 512 * k) / 2048 * 2048, [], x.addr / 4096 * 4096, 5, some k, 0,
          false⟩] }, s)
      | .error (.again s1) => .error (.again s1)
    setChunks blk c1 r
  | _, _ => pure c

/-! ## Copy fault records (R233, R235) -/

/-- A window is ready to be reported: none of its elements is still to land, and no earlier record of the block waits for
its save (R232). -/
def windowReady (blk : Block) (c : Copy) (f : CopyFault) : Bool :=
  !f.posted && blk.recs.isEmpty && (f.chunk.isSome ||
    (openUnits c).all fun u => (unitSectors c.work u).all fun k => decide (k / 64 * 2048 ≠ f.window))

/-- SECT: bit j for sector j of the window. -/
def sectWord (f : CopyFault) : DWord :=
  BitVec.ofNat 64 (f.sectors.foldl (fun a k => Nat.lor a (2 ^ (k % 64))) 0)

def copyRec (s : State) (blk : Block) (c : Copy) (f : CopyFault) : FRec :=
  blockRec s blk .cpyf (if c.ended then 64 else 0) c.pc (BitVec.ofNat 64 f.page) c.mask c.crew
    (infoOf c.slot f.kind false) 0 (BitVec.ofNat 64 f.window) (sectWord f)

def postOne (s : State) (id : Nat) (blk : Block) (c : Copy) (f : CopyFault) : CopyFault × State :=
  let die := dieOfCore blk.core
  if c.ended then ({ f with posted := true }, postRec s die (copyRec s blk c f))
  else
    let (t, s1) := postAck s die (copyRec s blk c f) (.copy id)
    ({ f with posted := true, token := t }, s1)

/-- Posts one record for each window that is ready. -/
def postFaults (s : State) (id : Nat) (blk : Block) (c : Copy) (fs : List CopyFault) : List CopyFault × State :=
  match fs with
  | [] => ([], s)
  | f :: r =>
    let (f1, s1) := if windowReady blk c f then postOne s id blk c f else (f, s)
    let (r1, s2) := postFaults s1 id blk c r
    (f1 :: r1, s2)

/-- The windows of a block's copies that have waited for its save are reported once its records are posted (R232). -/
def postCopies (s : State) (b : Nat) : State :=
  match s.blocks.find b with
  | none => s
  | some blk =>
    (s.copies.filter fun e => e.2.blk == b).foldl (fun s e =>
      let (fs, s1) := postFaults s e.1 blk e.2 e.2.faults
      { s1 with copies := s1.copies.put e.1 { e.2 with faults := fs } }) s

/-! ## One step of a copy -/

/-- Everything that the copy writes has been written. -/
def copyDone (c : Copy) : Bool := allLanded c && c.faults.isEmpty && (dueChunks c).isEmpty

/-- A copy that has landed all it will land: of an ended grid, its faults reported. -/
def copyOver (c : Copy) : Bool := copyDone c || (c.ended && (openPieces c).isEmpty && c.faults.all fun f => f.posted)

/-- R95: the copy's number is done on its crew's copy stream. -/
def finishCopy (s : State) (id : Nat) (c : Copy) : State :=
  let s1 := updCrew { s with copies := s.copies.drop id } c.blk c.crew fun y =>
    if copyDone c then { y with copies := tlDone y.copies c.num c.tw } else y
  later s1 (.blockRetire c.blk)

/-- A page whose accesses are strongly ordered. -/
def soVa (s : State) (blk : Block) (va : Nat) : Bool :=
  match routeOf va 1 with
  | .global =>
    (match peekPage s blk.core (ctxOf s blk) va with
     | some t => t.attr.ord == 1
     | none => false)
  | _ => false

/-- A unit that is to land in its place in ascending order: its destination, its residuals or the bitmap lie in a strongly
ordered page (R202). -/
def soUnit (s : State) (blk : Block) (c : Copy) (u : Nat) : Bool :=
  soVa s blk (unitVa c.work u) ||
  match c.work with
  | .tile d => (d.quant.isSome && d.aux != 0 && soVa s blk (residualVa d (unitElem u))) || (d.bmp && soVa s blk d.bmpAddr)
  | .lanes _ _ _ => false

/-- The lowest of some units by destination. -/
def lowestUnit (c : Copy) (us : List Nat) : Option Nat :=
  us.foldl (fun a u =>
    match a with
    | none => some u
    | some x => if unitVa c.work u < unitVa c.work x then some u else some x) none

/-- The strongly ordered units still to land go in ascending order. -/
def soNext (s : State) (blk : Block) (c : Copy) : Option Nat := lowestUnit c ((openUnits c).filter (soUnit s blk c))

/-- The piece that lands next: any, but of those with strongly ordered units the one whose turn it is. -/
def nextPiece (s : State) (blk : Block) (c : Copy) : Option (Nat × State) :=
  let ps := openPieces c
  if ps.isEmpty then none
  else
    let (k, s1) := freeChoice s ps.length
    let p := ps.getD k 0
    if (openUnits c).any fun u => unitSector c.work u / 4 == p && soUnit s blk c u then
      some (((soNext s blk c).map fun u => unitSector c.work u / 4).getD p, s1)
    else some (p, s1)

/-- The units of a piece that land together: one, when strongly ordered ones are among them. -/
def pieceUnits (s : State) (blk : Block) (c : Copy) (piece : Nat) : List Nat :=
  let us := (openUnits c).filter fun u => unitSector c.work u / 4 == piece
  if us.any (soUnit s blk c) then ((soNext s blk c).toList.filter us.contains) else us

/-- The elements still to be read from a strongly ordered page. -/
def soSources (s : State) (blk : Block) (c : Copy) : List (Nat × Nat) :=
  ((openUnits c).map unitElem).eraseDups.filterMap fun i =>
    if (c.held.find i).isSome then none
    else
      match elemSrc c.work c.maskRead i with
      | some (va, _) => if soVa s blk va then some (va, i) else none
      | none => none

/-- Such an element is among those of some units: of all that are to be read the lowest goes first (R202). -/
def soRead (s : State) (blk : Block) (c : Copy) (us : List Nat) : Option Nat :=
  let xs := soSources s blk c
  if xs.any fun x => us.any fun u => unitElem u == x.2 then
    (xs.foldl (fun (a : Option (Nat × Nat)) x =>
      match a with
      | none => some x
      | some y => if x.1 < y.1 then some x else some y) none).map (·.2)
  else none

/-- The copy's next landing is to come, or the copy is over. -/
def copyNext (s : State) (id : Nat) (blk : Block) (c : Copy) : State :=
  let (fs, s1) := postFaults s id blk c c.faults
  let c1 := { c with faults := fs }
  if copyOver c1 then finishCopy s1 id c1
  else
    let s2 := { s1 with copies := s1.copies.put id c1 }
    match nextPiece s2 blk c1 with
    | some (p, s3) => later s3 (.copyLineLand id p)
    | none => s2

/-- The units of a piece, in any order: where lanes write the same byte, any lane's value remains (R203). -/
def rotated (s : State) (us : List Nat) : List Nat × State :=
  if us.isEmpty then (us, s)
  else
    let (k, s1) := freeChoice s us.length
    (us.rotateLeft k, s1)

/-- The engine goes on while the block holds its core, and after its grid has ended. -/
def engineRuns (blk : Block) : Bool :=
  blk.st == .running || blk.st == .saving || blk.st == .halted || blk.st == .retired

/-- The mask as far as some units need it. -/
def maskForM (blk : Block) (c : Copy) (us : List Nat) : EngM Copy := do
  match c.work with
  | .lanes _ _ _ => pure c
  | .tile d =>
    if !d.sparse then pure c
    else do
      let m ← maskM blk d c.maskRead ((us.map fun u => unitElem u / 8 + 1).foldl max 0 - c.maskRead.length)
      pure { c with maskRead := m }

/-- One element read from a strongly ordered page ahead of its landing; a fault makes the sectors of its units missing. -/
def holdM (blk : Block) (c : Copy) (i : Nat) : EngM Copy := fun s =>
  match (elemM blk c i).run s with
  | .ok ((x, _), s1) => .ok ({ c with held := c.held.put i (x.getD []) }, s1)
  | .error (.fault x k) =>
    let us := (elemUnits c.work i).filter fun u => !c.landed.contains u
    .ok ({ c with faults := us.foldl (fun fs u => addFaults fs (unitSectors c.work u) x k) c.faults }, s)
  | .error e => .error e

/-- One step of a piece: a strongly ordered source read, or the landing of its units; then the chunk bits that fall due. -/
def landPieceM (blk : Block) (c : Copy) (us : List Nat) : EngM Copy := do
  let c0 ← maskForM blk c us
  let s ← getM
  let c1 ← match soRead s blk c0 us with
    | some i => holdM blk c0 i
    | none => if us.isEmpty then pure c0 else landLineM blk c0 us
  setChunks blk c1 (dueChunks c1)

def execCopyLineLand (id piece : Nat) (s : State) : Host.Outcome State Fault Refusal :=
  match s.copies.find id with
  | none => .next s
  | some c =>
    match s.blocks.find c.blk with
    | none => .next s
    | some blk =>
      if !engineRuns blk then .next (later s (.copyLineLand id piece))
      else
        let us := (rotated s (pieceUnits s blk c piece)).1
        let s0 := (rotated s (pieceUnits s blk c piece)).2
        match (landPieceM blk c us).run s0 with
        | .ok (c1, s1) => .next (copyNext (dropWalkEnd s1) id blk c1)
        | .error (.again s1) => .next (later s1 (.copyLineLand id piece))
        | .error (.fault _ _) => .next (later (dropWalkEnd s0) (.copyLineLand id piece))

/-- R236: what has been read of elements with bytes in some sectors is forgotten: the replay reads them again. -/
def forgetHeld (c : Copy) (sectors : List Nat) : Copy :=
  { c with held := c.held.filter fun e => !(elemUnits c.work e.1).any (unitIn c.work sectors) }

/-- R235: the sectors of a token are to be tried again; those of a copy of an ended grid are never written (R239). -/
def replayCopy (s : State) (id token : Nat) : State :=
  match s.copies.find id with
  | none => s
  | some c =>
    if c.ended then s
    else
    let back := (c.faults.filter fun f => f.token == token).flatMap fun f => f.sectors
    let c1 := forgetHeld { c with faults := c.faults.filter fun f => f.token != token } back
    later { s with copies := s.copies.put id c1 } (.copyLineLand id ((openPieces c1).headD 0))

/-! ## CPY (R203) -/

/-- Every address of a list names one window whole. -/
def routesOk (as : List (Nat × Nat)) : Option Nat := (as.find? fun p => routeOf p.1 p.2 == .bad).map (·.1)

/-- The copy takes its number, which D receives. -/
def numberCopy (d : Opnd) (y : Crew) : Crew :=
  putDst { y with copies := (tlIssue y.copies).2 } false d 2 (BitVec.allOnes 32) fun _ => y.copies.issued + 1

/-- Copy n begins: it takes its place among the engine's copies. -/
def startCopy (s : State) (h : Here) (n : Nat) (m : Mask) (w : CopyWork) : State :=
  let (id, s1) := freshId s
  let c : Copy := ⟨h.b, h.c, n, hPc h, m, h.k, w, [], [], 0, [], [], [], false, false, engineOf h.blk.core, [],
    timeOf s h.b h.c, [], []⟩
  match nextPiece s1 h.blk c with
  | some (p, s2) => later { s2 with copies := s2.copies.put id c } (.copyLineLand id p)
  | none => s1

/-- A copy with work begins; one without is complete. -/
def issueCopy (s : State) (h : Here) (d : Opnd) (m : Mask) (w : CopyWork) : State :=
  let n := h.crew.copies.issued + 1
  let s1 := updCrew s h.b h.c (numberCopy d)
  if workCount w = 0 then updCrew s1 h.b h.c fun y => { y with copies := tlDone y.copies n (crewT s1 y) }
  else startCopy s1 h n m w

/-- R201: a crew holds at most 64 unfinished copies. -/
def copyRoomE (h : Here) : Exec Unit := do
  let s ← getE
  if 64 ≤ openCopies s h.b h.c then waitE h (.retry .copies)

/-- A barrier object of the block's own stash. -/
def ownBarE (h : Here) (o : Option Opnd) : Exec (Option Nat) := do
  match o with
  | none => pure none
  | some c => do
    let s ← getE
    let v := srcNum s h c 1 0
    if v % 32 ≠ 0 ∨ h.blk.kern.stash < v + 32 then trapE h .barmis else pure (some v)

def execCpy (x : CpyOp) (s : State) : Host.Outcome State Fault Refusal :=
  issueWord (.cpy x) s fun h => do
    let s ← getE
    let m := activeMask h x.g
    let n := 4 * 2 ^ x.sz.val
    let es := (lanesOf m).map fun l => (srcNum s h x.a 2 l, srcNum s h x.b 2 l)
    copyRoomE h
    let bar ← if m = 0 then pure none else ownBarE h x.bar
    match es.find? fun e => e.1 % n != 0 || routeOf e.1 n == .bad with
    | some e => faultE h .addrf 0 (BitVec.ofNat 64 e.1) 5
    | none =>
      match es.find? fun e => e.2 % n != 0 || routeOf e.2 n == .bad with
      | some e => faultE h .addrf 0 (BitVec.ofNat 64 e.2) 4
      | none => do
        drainE h m
        modifyE fun s => issueCopy s h x.d m (.lanes es n bar)
        nextE h

/-! ## CPYT and CPYQ (R204, R205, R207) -/

/-- The ranges whose windows are checked at the instruction: KIND, address and size of each access. -/
def tileAccesses (d : TileDesc) : List (Nat × Nat × Nat) :=
  let w := CopyWork.tile d
  let is := List.range (workCount w)
  (if d.sparse then (4, d.src, elemBytes d.sfmt) :: (List.range (maskBytes d)).map fun i => (4, (d.aux + i) % 2 ^ 64, 1)
   else is.map fun i => (4, workSrc w i))
    ++ (is.map fun i => (5, workDst w i, workSize w))
    ++ (if d.quant.isSome && d.aux != 0 then is.map fun i => (4, residualVa d i, 16) else [])
    ++ (if d.bmp then (List.range ((tileChunks d - 1) / 32 + 1)).map fun i => (5, (d.bmpAddr + 4 * i) % 2 ^ 64, 4)
        else [])

def tileBody (d a : Opnd) (q : Bool) (h : Here) : Exec Unit := do
  let s ← getE
  let o := srcNum s h a 1 0
  copyRoomE h
  if o % 64 ≠ 0 ∨ h.blk.kern.stash < o + 64 then faultE h .cpydesc 0 (BitVec.ofNat 64 o) 0
  else do
    let p ← stashE h (.loc o) o 64 false (hMask h)
    let s ← getE
    let x := numAt s (.stash p.1 p.2) 64
    if !tileOk x h.blk.kern.stash q then faultE h .cpydesc 0 (BitVec.ofNat 64 o) 0
    else
      let td := tileOf x q
      match (tileAccesses td).find? fun e => routeOf e.2.1 e.2.2 == .bad with
      | some e => faultE h .addrf 0 (BitVec.ofNat 64 e.2.1) e.1
      | none => do
        drainE h (hMask h)
        modifyE fun s => issueCopy s h d (hMask h) (.tile td)
        nextE h

def execCpyt (d a : Opnd) (s : State) : Host.Outcome State Fault Refusal := issueWord (.cpyt d a) s (tileBody d a false)

def execCpyq (d a : Opnd) (s : State) : Host.Outcome State Fault Refusal := issueWord (.cpyq d a) s (tileBody d a true)

end Sys2Proof.Machine
end

