-- ==== Sys2Proof/Machine/Lanes.lean ====
section
/-! DEFINITION. Lane instructions: shuffles, votes, matches, reductions and scans over the lanes of a crew, and the
active mask (15_instr_control_memory.md R179 to R183, R120). -/

namespace Sys2Proof.Machine

/-! ## SHFL (R180) -/

/-- The lane that lane L reads. -/
def shflLane (mode : ShflMode) (w l b : Nat) : Nat :=
  let base := l - l % w
  let i := l % w
  match mode with
  | .idx => base + b % w
  | .up => if b ≤ i then base + (i - b) else l
  | .down => if i + b < w then base + (i + b) else l
  | .xor => base + Nat.xor i (b % w)

def execShfl (x : ShflOp) (s : State) : Host.Outcome State Fault Refusal :=
  issueWord (.shfl x) s fun h => do
    let m := activeMask h x.g
    if m = 0 then nextE h
    else do
      let s ← getE
      let w := 32 / 2 ^ x.seg.val
      updCrewE h fun y => putDst y false x.d 1 m fun l =>
        srcNum s h x.a 1 (shflLane x.mode w l (srcNum s h x.b 1 l))
      nextE h

/-! ## VOTE and MATCH (R181) -/

/-- The lanes of `m` in which the predicate, negated if so written, is true. -/
def voteMask (y : Crew) (x : VoteOp) (m : Mask) : Mask :=
  m &&& (if x.pn then ~~~(predMask y x.pc.val) else predMask y x.pc.val)

def voteResult (mode : VoteMode) (m t : Mask) : Bool :=
  match mode with
  | .all => t == m
  | .any => t != 0
  | .uni => t == m || t == 0

def execVote (x : VoteOp) (s : State) : Host.Outcome State Fault Refusal :=
  issueWord (.vote x) s fun h => do
    let m := activeMask h x.g
    if m = 0 then nextE h
    else do
      let t := voteMask h.crew x m
      updCrewE h fun y =>
        match x.dst with
        | .ballot d => putDst y false d 1 m fun _ => t.toNat
        | .pred mode pd => writeP y pd.val m (if voteResult mode m t then BitVec.allOnes 32 else 0)
      nextE h

def execMatchLanes (x : Op1F) (s : State) : Host.Outcome State Fault Refusal :=
  issueWord (.matchLanes x) s fun h => do
    let m := activeMask h x.g
    if m = 0 then nextE h
    else do
      let s ← getE
      let v := fun l => srcNum s h x.a (widthRegs x.flag) l
      updCrewE h fun y => putDst y false x.d 1 m fun l =>
        (maskOf fun k => m.getLsbD k && v k == v l).toNat
      nextE h

/-! ## CRED and CSCAN (R120, R182) -/

/-- Width and signedness of an integer TY. -/
def redBits (t : RedTy) : Nat := 32 * redRegs t

def redSigned (t : RedTy) : Bool :=
  match t with
  | .i32 | .i64 => true
  | _ => false

/-- One combination, the left operand first. -/
def redComb (op : RedOp) (ty : RedTy) (a b : Nat) : Nat × FlagSet :=
  let w := redBits ty
  if ty = .f32 then
    match op with
    | .add => fpBin ffF32 .add a b
    | .min => fpMinMax ffF32 false a b
    | _ => fpMinMax ffF32 true a b
  else
    let x := intOf (redSigned ty) w a
    let y := intOf (redSigned ty) w b
    match op with
    | .add => (wrapTo w (x + y), flagNone)
    | .min => (wrapTo w (min x y), flagNone)
    | .max => (wrapTo w (max x y), flagNone)
    | .and => (Nat.land a b, flagNone)
    | .or => (Nat.lor a b, flagNone)
    | .xor => (Nat.xor a b, flagNone)

/-- The identity of an exclusive scan. -/
def redIdentity (op : RedOp) (ty : RedTy) : Nat :=
  let w := redBits ty
  match op with
  | .add | .or | .xor => 0
  | .and => 2 ^ w - 1
  | .min => if ty = .f32 then inf32 else wrapTo w (intMax (redSigned ty) w)
  | .max => if ty = .f32 then sign32 + inf32 else wrapTo w (intMin (redSigned ty) w)

/-- A partial result with the flags of its combinations. -/
abbrev Partial := Nat × FlagSet

/-- A node of the tree: an absent member passes the other unchanged. -/
def combNode (f : Nat → Nat → Partial) (a b : Option Partial) : Option Partial :=
  match a, b with
  | some x, some y =>
    let r := f x.1 y.1
    some (r.1, flagOr (flagOr x.2 y.2) r.2)
  | some x, none => some x
  | none, y => y

/-- A level of the tree. -/
def treeLevel (f : Nat → Nat → Partial) (ns : List (Option Partial)) : List (Option Partial) :=
  match ns with
  | a :: b :: r => combNode f a b :: treeLevel f r
  | r => r

/-- R120: the tree of five levels. -/
def treeComb (f : Nat → Nat → Partial) (m : Mask) (v : Nat → Nat) : Option Partial :=
  let leaves := (List.range 32).map fun l => if m.getLsbD l then some (v l, flagNone) else none
  (treeLevel f (treeLevel f (treeLevel f (treeLevel f (treeLevel f leaves))))).headD none

def execCred (x : RedLaneOp) (s : State) : Host.Outcome State Fault Refusal :=
  issueWord (.cred x) s fun h => do
    let m := activeMask h x.g
    if m = 0 then nextE h
    else do
      let s ← getE
      let n := redRegs x.ty
      let r := (treeComb (redComb x.op x.ty) m fun l => srcNum s h x.a n l).getD (0, flagNone)
      updCrewE h fun y => setFstat (putDst y false x.d n m fun _ => r.1) r.2
      nextE h

/-- The sequential combination of the given values, in order. -/
def seqComb (f : Nat → Nat → Partial) (vs : List Nat) : Option Partial :=
  vs.foldl (fun a v => combNode f a (some (v, flagNone))) none

/-- The lanes that contribute to lane L of a scan. -/
def scanLanes (excl : Bool) (m : Mask) (l : Nat) : List Nat :=
  (lanesOf m).filter fun k => if excl then decide (k < l) else decide (k ≤ l)

def execCscan (x : RedLaneOp) (s : State) : Host.Outcome State Fault Refusal :=
  issueWord (.cscan x) s fun h => do
    let m := activeMask h x.g
    if m = 0 then nextE h
    else do
      let s ← getE
      let n := redRegs x.ty
      let r := fun l =>
        (seqComb (redComb x.op x.ty) ((scanLanes x.excl m l).map fun k => srcNum s h x.a n k)).getD
          (redIdentity x.op x.ty, flagNone)
      updCrewE h fun y => setFstat (putDst y false x.d n m fun l => (r l).1) (lanesFlags m fun l => (r l).2)
      nextE h

/-! ## ACTM (R183) -/

def execActm (x : ActmOp) (s : State) : Host.Outcome State Fault Refusal :=
  issueWord (.actm x) s fun h => do
    let m := activeMask h x.g
    if m = 0 then nextE h
    else do
      updCrewE h fun y => putDst y false x.d 1 m fun _ => (if x.guarded then m else hMask h).toNat
      nextE h

end Sys2Proof.Machine
end

