-- ==== Sys2Proof/Machine/Messages.lean ====
section
/-! DEFINITION. Messages between the blocks of a fleet: `SEND`, `MCAST`, their delivery and their retries
(17_instr_engines.md R209 to R211). -/

namespace Sys2Proof.Machine

/-! ## Issue -/

/-- The register of D, pending until the acknowledgement lands. -/
def pendReg (d : Opnd) : Option Nat := regCode d

/-- A message to the ranks given begins. -/
def startMsg (s : State) (h : Here) (x : SendOp) (mcast : Bool) (ranks : List Nat) (m : Mask) : State :=
  let (id, s1) := freshId s
  let elem := (List.range 32).map fun l => if m.getLsbD l then BitVec.ofNat 32 (srcNum s h x.b 1 l) else 0
  let g : Msg := ⟨h.b, h.c, pendReg x.d, elem, x.ring, ranks, 0, mcast, 0, [], timeOf s h.b h.c⟩
  let s2 := updCrew { s1 with msgs := s1.msgs.put id g } h.b h.c fun y =>
    match pendReg x.d with
    | some c => { y with pending := y.pending ++ [c] }
    | none => y
  ranks.foldl (fun s r => later s (.sendDelivery id r)) s2

/-- What both have in common: at most 8 messages of a crew, and a release at fleet scope. With no active lane the element
is 0 in every lane (R210). -/
def sendBody (x : SendOp) (mcast : Bool) (ranks : Nat → List Nat) (h : Here) : Exec Unit := do
  let m := activeMask h x.g
  let s ← getE
  if 8 ≤ openMsgs s h.b h.c then waitE h (.retry .messages)
  else do
    drainE h m
    modifyE fun s => startMsg s h x mcast (ranks (srcNum s h x.a 1 0)) m
    nextE h

def execSend (x : SendOp) (s : State) : Host.Outcome State Fault Refusal :=
  issueWord (.send x) s (sendBody x false fun r => [r])

/-- The ranks of a 24-bit mask. -/
def maskRanks (a : Nat) : List Nat := (List.range 24).filter fun r => nbit a r

/-! ## Delivery -/

/-- The block of a fleet at a rank. -/
def rankBlock (s : State) (launch fleet rank : Nat) : Option (Nat × Block) :=
  let bs := s.blocks.filter fun e => e.2.launch == launch && e.2.fleet == fleet && e.2.rank == rank
  match bs.find? fun e => e.2.st != .retired with
  | some e => some e
  | none => bs.head?

/-- What a delivery comes to. -/
inductive Delivery where
  | done
  | tryAgain
  /-- the status of R210 -/
  | never (status : Nat)
  deriving DecidableEq, Repr

/-- The block holds its core. -/
def onCore (b : Block) : Bool := b.st == .running || b.st == .saving || b.st == .halted

/-- An element arrives at a ring. -/
def deliver (s : State) (src : Block) (rank : Nat) (g : Msg) : Delivery × State :=
  if src.kern.fleet ≤ rank then (.never 1, s)
  else
    match rankBlock s src.launch src.fleet rank with
    | none => (.never 2, s)
    | some (b, x) =>
      let s := exchange s (dieOfCore src.core) (dieOfCore x.core) (some src.launch)
      if x.st = .retired then (.never 2, s)
      else if !onCore x then (.tryAgain, s)
      else
        let r := x.rings.getD g.ring.val ⟨0, 0, 0, []⟩
        if nfield r.cfg.toNat 0 4 = 0 then (.never 2, s)
        else if ringCap r.cfg ≤ r.count then (.tryAgain, s)
        else
          let o := x.base + ringBase r.cfg + 128 * ((r.head + r.count) % ringCap r.cfg)
          let s1 := writePlace s (.stash x.core o) (g.elem.flatMap fun w => leBytes 4 w.toNat)
          (.done, setBlock s1 b { x with rings := x.rings.put g.ring.val { r with count := r.count + 1, tws := r.tws ++ [g.tw] } })

/-- The value of D once every rank is settled. -/
def msgResult (g : Msg) : Nat := if g.mcast then g.failed else g.status

/-- A result lands in a register of a crew that still holds it. -/
def landReg (s : State) (b c : Nat) (code : Option Nat) (x : Nat) : State :=
  match code with
  | none => s
  | some r => updCrew s b c fun y =>
    { (if 192 ≤ r then writeS y (r - 192) (BitVec.ofNat 32 x) else y) with pending := y.pending.filter (· != r) }

/-- The acknowledgement lands when no rank is left. -/
def settleMsg (s : State) (id : Nat) (g : Msg) : State :=
  if g.left.isEmpty then
    later (landReg { s with msgs := s.msgs.drop id } g.blk g.crew g.dreg (msgResult g)) (.blockRetire g.blk)
  else { s with msgs := s.msgs.put id g }

/-- A rank is settled: delivered, or never to be. -/
def rankSettled (g : Msg) (rank : Nat) (status : Nat) : Msg :=
  { g with
    left := g.left.filter (· != rank)
    retry := g.retry.filter fun e => e.1 != rank
    status := status
    failed := if status = 0 then g.failed else Nat.lor g.failed (2 ^ rank) }

/-- The step that sends a message again. -/
def retryStep (g : Msg) (id : Nat) : Instr := if g.mcast then .mcastBranchRetry id else .sendRetry id

/-- R210, R211: a rank that is full or absent for now is tried again after its 64 clocks, and it alone. -/
def rankRetried (s : State) (id : Nat) (g : Msg) (rank : Nat) : State :=
  laterOnce { s with msgs := s.msgs.put id { g with
    retry := (g.retry.filter fun e => e.1 != rank) ++ [(rank, s.clock + 64)] } } (retryStep g id)

def execSendDelivery (msg rank : Nat) (s : State) : Host.Outcome State Fault Refusal :=
  match s.msgs.find msg with
  | none => .next s
  | some g =>
    match s.blocks.find g.blk with
    | none => .next s
    | some src =>
      if !g.left.contains rank then .next s
      else if !tokensFor s (dieOfCore src.core) then
        .next (later (throttle s (dieOfCore src.core)) (.sendDelivery msg rank))
      else
        match deliver s src rank g with
        | (.done, s1) => .next (settleMsg s1 msg (rankSettled g rank 0))
        | (.never k, s1) => .next (settleMsg s1 msg (rankSettled g rank k))
        | (.tryAgain, s1) => .next (rankRetried s1 msg g rank)

/-- The ranks whose 64 clocks have passed are sent to again; a clock of 0 marks one that has been. -/
def retryMsg (s : State) (id : Nat) : State :=
  match s.msgs.find id with
  | none => s
  | some g =>
    let due := g.retry.filter fun e => e.2 != 0 && decide (e.2 ≤ s.clock)
    let s1 := due.foldl (fun s e => later s (.sendDelivery id e.1))
      { s with msgs := s.msgs.put id { g with
          retry := g.retry.map fun e => if due.contains e then (e.1, 0) else e } }
    if g.retry.any fun e => e.2 != 0 && !due.contains e then laterOnce s1 (retryStep g id) else s1

def execSendRetry (msg : Nat) (s : State) : Host.Outcome State Fault Refusal := .next (retryMsg s msg)

def execMcastBranchRetry (msg : Nat) (s : State) : Host.Outcome State Fault Refusal := .next (retryMsg s msg)

/-- A multicast to no rank is acknowledged at once. -/
def emptyMsgE (h : Here) (d : Opnd) : Exec Unit := updCrewE h fun y => putDst y false d 1 (hMask h) fun _ => 0

def execMcast (x : SendOp) (s : State) : Host.Outcome State Fault Refusal :=
  issueWord (.mcast x) s fun h => do
    let s ← getE
    if maskRanks (srcNum s h x.a 1 0) = [] then do
      drainE h (activeMask h x.g)
      emptyMsgE h x.d
      nextE h
    else sendBody x true maskRanks h

end Sys2Proof.Machine
end

