-- ==== Sys2Proof/Machine/Armature.lean ====
section
/-! DEFINITION. Reduction armatures: arming, contributing, the combination at each node, time-outs and the
root's record (17_instr_engines.md R212 to R215, 09_numbers_rules.md R121). -/

namespace Sys2Proof.Machine

/-! ## Descriptors (R212) -/

/-- PARENT[r]. -/
def armParent (x r : Nat) : Nat := nfield x (128 + 8 * r) 8

/-- The rank reached from r by n steps towards the root; none off the tree. -/
def climb (x root n r : Nat) : Option Nat :=
  match n with
  | 0 => some r
  | k + 1 => if r = root then some r else climb x root k (armParent x r)

/-- The parents form one tree: every participating rank reaches the root through participating ranks. -/
def treeOk (x nrank root : Nat) : Bool :=
  (List.range 24).all fun r =>
    if r < nrank ∧ r ≠ root then decide (armParent x r < nrank) && climb x root nrank r == some root
    else armParent x r == 0xFF

/-- The limits of a descriptor, for a fleet of f blocks with p bytes of stash each. -/
def armOk (x f p : Nat) : Bool :=
  let nrank := nfield x 0 8
  let root := nfield x 8 8
  let resoff := nfield x 64 32
  let baroff := nfield x 96 32
  decide (2 ≤ nrank ∧ nrank ≤ f ∧ nrank ≤ 24) && decide (root < nrank) && decide (nfield x 16 2 ≤ 2)
    && nfield x 18 2 == 0 && decide (nfield x 20 3 ≤ 2) && !nbit x 23 && nfield x 24 8 == 0
    && decide (64 ≤ nfield x 32 32 ∧ nfield x 32 32 ≤ 2 ^ 24) && resoff % 16 == 0 && decide (resoff + 144 ≤ p)
    && (baroff == 0xFFFFFFFF || (baroff % 32 == 0 && decide (baroff + 32 ≤ p)))
    && nfield x 320 192 == 0 && treeOk x nrank root

def armOfBytes (x launch fleet id : Nat) : Arm :=
  { launch := launch, fleet := fleet, id := id, nrank := nfield x 0 8, root := nfield x 8 8, op := nfield x 16 2,
    ty := nfield x 20 3, timeout := nfield x 32 32, resoff := nfield x 64 32,
    baroff := if nfield x 96 32 = 0xFFFFFFFF then none else some (nfield x 96 32),
    parent := (List.range 24).map (armParent x), nodes := [], late := 0 }

def armRedOp (a : Arm) : RedOp :=
  match a.op with
  | 0 => .add
  | 1 => .min
  | _ => .max

def armRedTy (a : Arm) : RedTy :=
  match a.ty with
  | 0 => .i32
  | 1 => .n32
  | _ => .f32

/-! ## Parts -/

def sameArm (a b : Arm) : Bool := a.launch == b.launch && a.fleet == b.fleet && a.id == b.id

def putArm (s : State) (a : Arm) : State :=
  { s with arms := a :: s.arms.filter fun b => !sameArm a b }

def nodeOf (a : Arm) (r : Nat) : ArmNode := a.nodes.getD r ⟨0, [], none⟩

def setNode (a : Arm) (r : Nat) (n : ArmNode) : Arm := { a with nodes := a.nodes.put r n }

/-- The children of a node, in ascending rank (R212). -/
def childrenOf (a : Arm) (r : Nat) : List Nat :=
  (List.range a.nrank).filter fun k => k != a.root && a.parent.getD k 0xFF == r

/-- R213: a round of the armature is in flight. -/
def armBusy (s : State) (a : Arm) : Bool :=
  (s.armInputs.any fun e => e.2.launch == a.launch && e.2.fleet == a.fleet && e.2.id == a.id)
    || a.nodes.any fun n => !n.2.held.isEmpty

/-- The ranks of the subtree below a node, itself among them. -/
def subtree (a : Arm) (n r : Nat) : List Nat :=
  match n with
  | 0 => [r]
  | k + 1 => r :: (childrenOf a r).flatMap (subtree a k)

/-! ## Arming (R213) -/

/-- The armature is armed for the fleet: its rounds begin at 0. -/
def beginArm (s : State) (h : Here) (id : Nat) (new : Arm) : State :=
  (fleetOf s h.blk.launch h.blk.fleet).foldl (fun s b =>
    updBlock s b fun y => { y with rounds := y.rounds.put id 0 }) (putArm s new)

/-- R213: the armature of the identifier has a round in flight. -/
def armTaken (s : State) (h : Here) (id : Nat) : Bool :=
  match armOf s h.blk.launch h.blk.fleet id with
  | some old => armBusy s old
  | none => false

/-- R213. A descriptor offset that is not 64-byte aligned answers status 1, FORMAT (DESIGN CHOICE, log 89). -/
def execRedpArm (d a : Opnd) (id : Fin 4) (s : State) : Host.Outcome State Fault Refusal :=
  issueWord (.redpArm d a id) s fun h => do
    let s ← getE
    let o := srcNum s h a 1 0
    let put (x : Nat) : Exec Unit := updCrewE h fun y => putDst y false d 1 (hMask h) fun _ => x
    if o % 64 ≠ 0 then put 1
    else do
      let p ← stashE h (.loc o) o 64 false (hMask h)
      let s ← getE
      let x := numAt s (.stash p.1 p.2) 64
      if !armOk x h.blk.kern.fleet h.blk.kern.stash then put 1
      else if armTaken s h id.val then put 2
      else do
        modifyE fun s => beginArm s h id.val (armOfBytes x h.blk.launch h.blk.fleet id.val)
        put 0
    nextE h

/-! ## Combination at a node (R214) -/

/-- Values combined lane by lane, with the flags of the additions. -/
def combineVals (a : Arm) (xs ys : List Word) : List Word × FlagSet :=
  let rs := (List.range 32).map fun l =>
    redComb (armRedOp a) (armRedTy a) (xs.getD l 0).toNat (ys.getD l 0).toNat
  (rs.map fun r => BitVec.ofNat 32 r.1, rs.foldl (fun f r => flagOr f r.2) flagNone)

/-- Flags of the result record: TIMEOUT 0, OVF 1, INV 2. -/
def armFlags (f : FlagSet) : Nat := (if nbit f 1 then 2 else 0) + (if nbit f 0 then 4 else 0)

/-- The inputs in the fixed order: the node's own, then each child's; each addition rounds once. -/
def combineInputs (a : Arm) (is : List ArmInput) : List Word × Nat :=
  match is with
  | [] => ([], 0)
  | i :: r =>
    r.foldl (fun acc j =>
      let (vs, f) := combineVals a acc.1 j.vals
      (vs, Nat.lor (Nat.lor acc.2 j.flags) (armFlags f))) (i.vals, i.flags)

/-- The input of the node's current round from a child, or its own. -/
def inputFrom (n : ArmNode) (child : Option Nat) : Option ArmInput :=
  n.held.find? fun i => i.round == n.round && i.child == child

/-- Every input of the current round, in order; those absent are none. -/
def roundInputs (a : Arm) (r : Nat) : List (Option Nat × Option ArmInput) :=
  let n := nodeOf a r
  (none, inputFrom n none) :: (childrenOf a r).map fun c => (some c, inputFrom n (some c))

def roundFull (a : Arm) (r : Nat) : Bool := (roundInputs a r).all fun p => p.2.isSome

def bitsOf (rs : List Nat) : Nat := rs.foldl (fun m k => Nat.lor m (2 ^ k)) 0

/-- The missing ranks: those of the inputs received, and every rank of an absent subtree. -/
def missingOf (a : Arm) (r : Nat) : Nat :=
  (roundInputs a r).foldl (fun m p =>
    Nat.lor m (match p with
      | (_, some i) => i.missing
      | (none, none) => 2 ^ r
      | (some c, none) => bitsOf (subtree a a.nrank c))) 0

/-- R215: the root's record and its barrier credit, a release of the contributions, while the root block holds its core. -/
def writeResult (s : State) (a : Arm) (round : Nat) (vals : List Word) (missing flags tw : Nat) : Arm × State :=
  match rankBlock s a.launch a.fleet a.root with
  | none => (a, s)
  | some (_, b) =>
    if !onCore b then (a, s)
    else
      let bs := (vals.flatMap fun w => leBytes 4 w.toNat) ++ leBytes 4 round ++ leBytes 4 missing
        ++ leBytes 4 flags ++ leBytes 4 a.late
      let (t, s1) := stashPut s b.core (b.base + a.resoff) bs tw
      let s2 := match a.baroff with
        | some o => creditBar s1 b.core (b.base + o) 1 0 t
        | none => s1
      ({ a with late := 0 }, s2)

/-- An input sets out for a node. -/
def sendInput (s : State) (i : ArmInput) : State :=
  let (n, s1) := freshId s
  later { s1 with armInputs := s1.armInputs.put n i } (.armatureInput n)

def armRef (a : Arm) (r : Nat) : ArmRef := ⟨a.launch, a.fleet, Fin.ofNat 4 a.id, r⟩

/-- The timer of a node's current round starts when an input of it is held. -/
def startTimer (s : State) (a : Arm) (r : Nat) : Arm × State :=
  let n := nodeOf a r
  if n.timer.isNone && n.held.any fun i => i.round == n.round then
    (setNode a r { n with timer := some (s.clock + a.timeout) }, later s (.armatureTimeout (armRef a r)))
  else (a, s)

/-- A node forwards what it holds of its current round, and its next round becomes current. -/
def forward (s : State) (a : Arm) (r : Nat) (timedOut : Bool) : Arm × State :=
  let n := nodeOf a r
  let (vals, f) := combineInputs a ((roundInputs a r).filterMap fun p => p.2)
  let flags := Nat.lor f (if timedOut then 1 else 0)
  let missing := missingOf a r
  let tw := (roundInputs a r).foldl (fun t p => max t ((p.2.map fun i => i.tw).getD 0)) 0
  let a1 := setNode a r { n with
    round := n.round + 1, held := n.held.filter fun i => decide (n.round < i.round), timer := none }
  let (a2, s1) :=
    if r = a.root then writeResult s a1 n.round vals missing flags tw
    else
      (a1, sendInput s ⟨a.launch, a.fleet, a.id, a.parent.getD r 0, some r, n.round, vals, missing, flags, tw⟩)
  startTimer s1 a2 r

/-- A node forwards every round whose inputs have all arrived. -/
def forwardFull (fuel : Nat) (s : State) (a : Arm) (r : Nat) : Arm × State :=
  match fuel with
  | 0 => (a, s)
  | k + 1 =>
    if roundFull a r then
      let (a1, s1) := forward s a r false
      forwardFull k s1 a1 r
    else (a, s)

/-- The blocks of the fleet may retire when their rounds are over. -/
def roundsOver (s : State) (a : Arm) : State :=
  (fleetOf s a.launch a.fleet).foldl (fun s b => later s (.blockRetire b)) s

/-- An input arrives at its node: late, or held until the round is full. -/
def arrive (s : State) (a : Arm) (i : ArmInput) : State :=
  let n := nodeOf a i.rank
  if i.round < n.round then putArm s { a with late := a.late + 1 }
  else
    let a1 := setNode a i.rank { n with held := n.held ++ [i] }
    let (a2, s1) := startTimer s a1 i.rank
    let (a3, s2) := forwardFull (n.held.length + 2) s1 a2 i.rank
    putArm s2 a3

/-- The die of the router that sends an input on; a block's own contribution leaves no router. -/
def inputDie (s : State) (i : ArmInput) : Option Nat :=
  match i.child with
  | none => none
  | some c => (rankBlock s i.launch i.fleet c).map fun p => dieOfCore p.2.core

/-- The window of its die grants the input (R338). -/
def inputGranted (s : State) (i : ArmInput) : Bool :=
  match inputDie s i with
  | some d => tokensFor s d
  | none => true

def inputRefused (s : State) (i : ArmInput) : State :=
  match inputDie s i with
  | some d => throttle s d
  | none => s

/-- The input, and its reply, have drawn their tokens (R77, R337). -/
def inputSent (s : State) (i : ArmInput) : State :=
  match inputDie s i with
  | some d => exchange s d d (some i.launch)
  | none => s

def execArmatureInput (id : Nat) (s : State) : Host.Outcome State Fault Refusal :=
  match s.armInputs.find id with
  | none => .next s
  | some i =>
    if !inputGranted s i then .next (later (inputRefused s i) (.armatureInput id))
    else
    let s1 := { inputSent s i with armInputs := s.armInputs.drop id }
    match armOf s i.launch i.fleet i.id with
    | none => .next s1
    | some a => .next (roundsOver (arrive s1 a i) a)

/-- The node's time is over: it forwards what it has, and rounds that are complete behind it follow. -/
def timeoutNode (s : State) (a : Arm) (rank : Nat) : State :=
  let (a1, s1) := forward s a rank true
  let (a2, s2) := forwardFull ((nodeOf a1 rank).held.length + 1) s1 a1 rank
  roundsOver (putArm s2 a2) a2

def execArmatureTimeout (n : ArmRef) (s : State) : Host.Outcome State Fault Refusal :=
  match armOf s n.launch n.fleet n.id.val with
  | none => .next s
  | some a =>
    match (nodeOf a n.rank).timer with
    | none => .next s
    | some t =>
      if s.clock < t then .next (later s (.armatureTimeout n))
      else .next (timeoutNode s a n.rank)

/-! ## Contributing (R213) -/

/-- The root block of an armature has retired. -/
def rootRetired (s : State) (a : Arm) : Bool :=
  match rankBlock s a.launch a.fleet a.root with
  | some (_, b) => b.st == .retired
  | none => true

/-- The value that a lane contributes: an inactive one the identity. -/
def contributed (s : State) (h : Here) (a : Opnd) (arm : Arm) (l : Nat) : Word :=
  BitVec.ofNat 32 (if (hMask h).getLsbD l then srcNum s h a 1 l else redIdentity (armRedOp arm) (armRedTy arm))

/-- The block's contribution sets out as its next round's. -/
def contribute (s : State) (h : Here) (id : Nat) (vs : List Word) : State :=
  let round := h.blk.rounds.getD id 0
  sendInput (updBlock s h.b fun b => { b with rounds := b.rounds.put id (round + 1) })
    ⟨h.blk.launch, h.blk.fleet, id, h.blk.rank, none, round, vs, 0, 0, timeOf s h.b h.c⟩

def execRedpContribute (d a : Opnd) (id : Fin 4) (s : State) : Host.Outcome State Fault Refusal :=
  issueWord (.redpContribute d a id) s fun h => do
    let s ← getE
    match armOf s h.blk.launch h.blk.fleet id.val with
    | none => trapE h .barmis
    | some arm =>
      if arm.nrank ≤ h.blk.rank ∨ rootRetired s arm then trapE h .barmis
      else if !armatureOpen s h.blk id.val then waitE h (.retry (.armature id.val))
      else do
        drainE h (hMask h)
        modifyE fun s => contribute s h id.val ((List.range 32).map (contributed s h a arm))
        updCrewE h fun y => putDst y false d 1 (hMask h) fun _ => h.blk.rounds.getD id.val 0
        nextE h

end Sys2Proof.Machine
end

