-- ==== Sys2Proof/Machine/Control.lean ====
section
/-! DEFINITION. Control flow: branches, calls and returns, reconvergence points, exits, traps, checkpoints, regions
and sleeps (15_instr_control_memory.md R173 to R178 and R184, 03_execution_rules.md R27, R28). -/

namespace Sys2Proof.Machine

/-! ## Transfers (R27, R173) -/

/-- R27: lanes `t` go to `target` in the other slot, whose path is spilled; the rest continue at `stay`. A path that is
spilled while it is WAITING or PARKED issues its word again once it is popped (DESIGN CHOICE, log 75). -/
def diverge (s : State) (h : Here) (t : Mask) (target stay : DWord) : State :=
  let (n, s1) := freshId s
  match crewOf s1 h.b h.c with
  | none => s1
  | some y =>
    let a := slotOf y h.k
    let o := slotOf y (1 - h.k)
    let y1 := if o.mask = 0 then y else { y with spills := spillPath y o o.mask :: y.spills }
    let s2 := if o.mask = 0 then s1 else storeSpill s1 h.blk h.c y.spills.length (spillPath y o o.mask)
    let moved : Slot := { emptySlot with pc := target, mask := t, st := .ready, age := n, readyAt := s1.clock }
    let left : Slot := { movedSlot s1 a stay with mask := a.mask &&& ~~~t }
    settleParked (putCrew s2 h.b h.c (setSlot (setSlot y1 (1 - h.k) moved) h.k left)) h.b

/-- What a transfer of lanes `t` needs: in handler mode it may not diverge (R238), and a spill finds room (R28). -/
def transferReadyE (h : Here) (t : Mask) : Exec Unit := do
  let o := slotOf h.crew (1 - h.k)
  if t ≠ 0 ∧ t ≠ hMask h then do
    if h.crew.handler.isSome then trapE h .illop
    if o.mask ≠ 0 ∧ awaitsHome o then waitE h (.retry .capsule)
    if o.mask ≠ 0 ∧ Config.stackDepth ≤ h.crew.spills.length then trapE h .divovf

/-- Moves lanes `t` to `target`; the rest continue at `stay`. -/
def transferE (h : Here) (t : Mask) (target stay : DWord) : Exec Unit :=
  modifyE fun s =>
    if t = 0 then nextWord s h
    else if t = hMask h then jumpTo s h target
    else diverge s h t target stay

/-- PC + sext(offset) × 8. -/
def relTarget (h : Here) (off : Word) : DWord := hPc h + off.signExtend 64 * 8

def nextPc (h : Here) : DWord := hPc h + 8

def execBra (g : Guard) (off : Word) (s : State) : Host.Outcome State Fault Refusal :=
  issueWord (.bra g off) s fun h => do
    let t := activeMask h g
    transferReadyE h t
    transferE h t (relTarget h off) (nextPc h)

/-- R301: the record of a `BRA.t` is attached to the innermost point, or written. -/
def branchRecordE (h : Here) (tag : Byte) (t : Mask) : Exec Unit := do
  let y ← crewE h
  match y.joins with
  | [] => recordE h (some (tkBr, tag.toNat, false, hMask h, [t.toNat]))
  | j :: r =>
    let n := y.tape.tl.issued + 1
    if tctlNorec y then updTapeE h (takeComplete n)
    else if 32 ≤ attachedCount y then recTrapE h n .tovf 5
    else
      updCrewE h fun y =>
        { updTape y fun q => { q with tl := { q.tl with issued := n } } with
          joins := { j with recs := j.recs ++ [⟨hMask h, t, tag, n, y.joins.length⟩] } :: r }

def execBraT (g : Guard) (off : Word) (tag : Byte) (s : State) : Host.Outcome State Fault Refusal :=
  issueWord (.braT g off tag) s fun h => do
    tapeFlagE h
    let _ ← needTapeE h
    let t := activeMask h g
    transferReadyE h t
    branchRecordE h tag t
    transferE h t (relTarget h off) (nextPc h)

/-- Lanes with per-lane targets: those that share the target of the lowest taken lane, and where the rest go on. -/
def sameTarget (t : Mask) (f : Nat → DWord) : Mask := maskOf fun l => t.getLsbD l && f l == f (lowLane t)

/-- R174: the rest execute the instruction again while taken lanes are left. -/
def restPc (h : Here) (t moved : Mask) : DWord := if moved = t then nextPc h else hPc h

def execBrx (g : Guard) (a : Opnd) (s : State) : Host.Outcome State Fault Refusal :=
  issueWord (.brx g a) s fun h => do
    let s ← getE
    let t := activeMask h g
    let f := fun l => relTarget h (BitVec.ofNat 32 (srcNum s h a 1 l))
    let m := sameTarget t f
    transferReadyE h m
    transferE h m (f (lowLane t)) (restPc h t m)

/-- The lanes of a call receive the return address. -/
def linkE (h : Here) (d : Opnd) (m : Mask) : Exec Unit :=
  updCrewE h fun y => if m = 0 then y else putDst y false d 2 m fun _ => (nextPc h).toNat

def execCall (g : Guard) (d : Opnd) (off : Word) (s : State) : Host.Outcome State Fault Refusal :=
  issueWord (.call g d off) s fun h => do
    let t := activeMask h g
    transferReadyE h t
    linkE h d t
    transferE h t (relTarget h off) (nextPc h)

def execCallx (g : Guard) (d a : Opnd) (s : State) : Host.Outcome State Fault Refusal :=
  issueWord (.callx g d a) s fun h => do
    let s ← getE
    let t := activeMask h g
    let f := fun l => BitVec.ofNat 64 (srcNum s h a 2 l)
    let m := sameTarget t f
    transferReadyE h m
    linkE h d m
    transferE h m (f (lowLane t)) (restPc h t m)

/-- R174, R238: a `RET` of every lane of the handler's slot ends handler mode. -/
def execRet (g : Guard) (a : Opnd) (s : State) : Host.Outcome State Fault Refusal :=
  issueWord (.ret g a) s fun h => do
    let s ← getE
    let t := activeMask h g
    let f := fun l => BitVec.ofNat 64 (srcNum s h a 2 l)
    let m := sameTarget t f
    transferReadyE h m
    match h.crew.handler with
    | some hd =>
      if m = hMask h then modifyE fun s => returnFromHandler s h hd (f (lowLane t))
      else transferE h m (f (lowLane t)) (restPc h t m)
    | none => transferE h m (f (lowLane t)) (restPc h t m)

/-! ## Points, regions (R175, R184) -/

/-- In handler mode the word ends the grid with error (R238). -/
def notInHandlerE (h : Here) : Exec Unit := if h.crew.handler.isSome then trapE h .illop else pure ()

def execJoin (off : Word) (s : State) : Host.Outcome State Fault Refusal :=
  issueWord (.join off) s fun h => do
    notInHandlerE h
    if (hSlot h).region.isSome then trapE h .illop
    if Config.stackDepth ≤ h.crew.joins.length then trapE h .divovf
    updCrewE h fun y => { y with joins := ⟨relTarget h off, hMask h, []⟩ :: y.joins }
    nextE h

def execLser (s : State) : Host.Outcome State Fault Refusal :=
  issueWord .lser s fun h => do
    notInHandlerE h
    if (hSlot h).region.isSome then trapE h .illop
    updCrewE h fun y =>
      let t := slotOf y h.k
      setSlot y h.k { t with
        mask := laneBit (lowLane t.mask), region := some ⟨t.mask, t.mask, nextPc h⟩ }
    nextE h

/-- The slot after an `LSEND`: the next lane of the region from its start, or the saved mask at PC + 8. -/
def lsendSlot (t : Slot) (r : Region) : Slot :=
  let left := r.left &&& ~~~t.mask
  if left = 0 then { t with mask := r.saved, region := none, pc := t.pc + 8 }
  else { t with mask := laneBit (lowLane left), region := some { r with left := left }, pc := r.start }

/-- A pass ends once its lane's accesses are performed and acknowledged: those of later passes follow them (R184). -/
def execLsend (s : State) : Host.Outcome State Fault Refusal :=
  issueWord .lsend s fun h =>
    match (hSlot h).region with
    | none => trapE h .illop
    | some r => do
      drainE h (hMask h)
      let t := lsendSlot (hSlot h) r
      updCrewE h fun y => setSlot y h.k { t with pc := hPc h }
      modifyE fun s => jumpTo s h t.pc

/-! ## EXIT (R176, R310) -/

/-- The lanes of a handler's region that have not exited (R184). -/
def regionLanes (y : Crew) : Mask :=
  match y.handler.bind fun hd => hd.region with
  | some r => r.saved &&& ~~~y.exited
  | none => 0

/-- A crew none of whose lanes is left (R29). -/
def crewDone (y : Crew) : Bool :=
  y.slot0.mask == 0 && y.slot1.mask == 0 && y.spills.isEmpty && regionLanes y == 0

/-- The lanes `t` of a slot have ended. -/
def exitLanes (y : Crew) (k : Nat) (t : Mask) : Crew :=
  let a := slotOf y k
  let left := a.mask &&& ~~~t
  { setSlot y k { a with mask := left, st := if left = 0 then .retired else a.st } with exited := y.exited ||| t }

/-- The slot of an `EXIT` that has ended its last lane holds nothing that the crew's merges could meet. -/
def goneSlot (y : Crew) (k : Nat) : Crew :=
  if (slotOf y k).mask = 0 then setSlot y k { emptySlot with st := .retired } else y

/-- The lanes of a region whose lane has exited in a handler go on: the next pass, or, with none left, the lanes that have
passed, at a PC that the spec does not give (free, log 75). -/
def regionRest (s : State) (y : Crew) (k : Nat) (r : Region) : Crew :=
  let left := r.left &&& ~~~y.exited
  let saved := r.saved &&& ~~~y.exited
  let go (m : Mask) (pc : DWord) (x : Option Region) : Crew :=
    setSlot y k { movedSlot s (slotOf y k) pc with mask := m, region := x }
  if left ≠ 0 then go (laneBit (lowLane left)) r.start (some ⟨left, saved, r.start⟩)
  else if saved ≠ 0 then go saved (BitVec.ofNat 64 (8 * Config.choose s.free)) none
  else y

/-- A lane that exits in the handler of a trap in capsule mode holds nothing more (R284). -/
def dropHeld (t : Mask) (y : Crew) : Crew :=
  match y.holding with
  | some x => if t.getLsbD x.lane then { y with holding := none } else y
  | none => y

/-- The slot's last lane has exited: handler mode ends (R238), a region goes on, paths merge. -/
def exitedSlot (s : State) (h : Here) : State :=
  match h.crew.handler with
  | some hd =>
    let s1 := match hd.region with
      | some r => updCrew { s with free := s.free + 1 } h.b h.c fun y => regionRest s (goneSlot y h.k) h.k r
      | none => updCrew s h.b h.c fun y => goneSlot y h.k
    endHandler s1 h.b h.c
  | none => updCrew s h.b h.c fun y => settle (goneSlot y h.k)

/-- R310: a stream's top is written to TOPS when the crew is bound to its own stream. -/
def writeTopE (h : Here) : Exec Unit := do
  let y ← crewE h
  match y.tape.bind with
  | .own i =>
    if y.tape.desc.tops = 0 then pure ()
    else
      storeGlobalE h (hMask h) none [⟨lowLane (hMask h), (y.tape.desc.tops + 8 * i) % 2 ^ 64, leBytes 8 y.tape.top⟩]
  | _ => pure ()

/-- The staged records of a stream that is left are written out, then its top (R309, R310). -/
def leaveStreamE (h : Here) : Exec Unit := do
  let y ← crewE h
  if !y.tape.staged.isEmpty then writeOutE h h.c
  writeTopE h

/-- R301: the attached records of points whose cover an `EXIT` ends, and of points popped before the handler was entered whose
lanes it ends; no slot is left to write them later. -/
def orphanRecs (y : Crew) (k : Nat) (t : Mask) : List BrRec :=
  let z := exitLanes y k t
  (if (slotOf y k).mask &&& ~~~t == 0 then handlerDue y else []) ++
    (z.joins.takeWhile fun j => j.cover &&& ~~~z.exited == 0).flatMap fun j => j.recs

/-- Records are attached no longer. -/
def dropNums (ns : List Nat) (y : Crew) : Crew :=
  { y with
    joins := y.joins.map fun j => { j with recs := j.recs.filter fun r => !ns.contains r.num }
    handler := y.handler.map fun hd => { hd with due := hd.due.filter fun r => !ns.contains r.num } }

/-- Those of a point whose record traps are dropped with it. -/
def orphansE (h : Here) (t : Mask) : Exec Unit :=
  let rs := orphanRecs h.crew h.k t
  rs.forM fun r => do
    let mine := rs.filter fun q => q.depth == r.depth && decide (r.num ≤ q.num)
    putAttachedE h r fun y => dropNums (mine.map (·.num)) (dropRecs mine y)
    updCrewE h (dropNums [r.num])

/-- The crew has retired: its block may follow. -/
def crewRetired (s : State) (h : Here) : State := later s (.blockRetire h.b)

def execExit (g : Guard) (s : State) : Host.Outcome State Fault Refusal :=
  issueWord (.exit g) s fun h => do
    if (hSlot h).region.isSome then trapE h .illop
    let t := activeMask h g
    if t = 0 then nextE h
    else do
      orphansE h t
      if crewDone (exitLanes h.crew h.k t) then leaveStreamE h
      updCrewE h fun y => dropHeld t (exitLanes y h.k t)
      if t = hMask h then modifyE fun s => popLater (exitedSlot s h) h.b h.c
      else nextE h
      let y ← crewE h
      if crewDone y then modifyE fun s => crewRetired s h

/-! ## TRAP, CHKPT, YIELD, SLEEP, NOP (R177, R178) -/

def execTrap (g : Guard) (code : BitVec 16) (s : State) : Host.Outcome State Fault Refusal :=
  issueWord (.trap g code) s fun h => do
    let m := activeMask h g
    if m = 0 then nextE h
    else stopWith fun s => takeTrapMask s h .trap code.toNat 0 m

/-- Every crew of a block has stopped or retired. -/
def allStopped (blk : Block) : Bool := blk.crews.all fun e => crewStopped e.2 || crewDone e.2

/-- R240: the window of a pending checkpoint ends; CAUSES has bits 0 and 4 set. -/
def endWindow (s : State) (b : Nat) : State := beginSaveOne s b 17

/-- The crew stops; once every crew has, the window ends. -/
def stopAtChkpt (s : State) (h : Here) (n : Nat) : State :=
  let s1 := waitSlot s h (.stopped (some n))
  match s1.blocks.find h.b with
  | some x => if allStopped x then endWindow s1 h.b else s1
  | none => s1

def execChkpt (n : BitVec 16) (s : State) : Host.Outcome State Fault Refusal :=
  issueWord (.chkpt n) s fun h =>
    if h.blk.chkptTill.isSome then modifyE fun s => stopAtChkpt s h n.toNat else nextE h

def execYieldSlot (g : Guard) (s : State) : Host.Outcome State Fault Refusal :=
  issueWord (.yieldSlot g) s fun h => do
    if activeMask h g ≠ 0 then
      modifyE fun s => updSlot s h.b h.c h.k fun t => { t with yieldTill := s.clock + 64 }
    nextE h

def execSleep (a : Opnd) (s : State) : Host.Outcome State Fault Refusal :=
  issueWord (.sleep a) s fun h => do
    let s ← getE
    let n := srcNum s h a 1 0
    if n = 0 then nextE h
    else modifyE fun s => later (waitSlot s h (.sleep (s.clock + n))) (.sleepExpiry (hRef h))

def execNop (g : Guard) (s : State) : Host.Outcome State Fault Refusal :=
  issueWord (.nop g) s nextE

end Sys2Proof.Machine
end

