-- ==== Sys2Proof/Machine/CapsuleHome.lean ====
section
/-! DEFINITION. Capsule records at their homes, the versions of a step, and what the homes' answers do to a lane
(23_capsule_rules.md R269 to R271, R276 to R284). -/

namespace Sys2Proof.Machine

/-! ## Records (R269) -/

def capFree : Nat := 0
def capHeld : Nat := 1
def capParked : Nat := 2
def capClosing : Nat := 3

/-- The executor id of a crew's lane. -/
def execId (core crew slotNo lane : Nat) : Nat :=
  2 ^ 23 + core * 2 ^ 15 + crew % 8 * 2 ^ 12 + slotNo % 128 * 2 ^ 5 + lane

/-- The core that an executor id names. -/
def execCore (e : Nat) : Nat := nfield e 15 8

/-- `n` bytes of a record at an offset, as a number. -/
def recNum (s : State) (line off n : Nat) : Nat := numAt s (linePlace (128 * line + off)) n

def recState (s : State) (line : Nat) : Nat := nfield (recNum s line 0 4) 0 2
def recStep (s : State) (line : Nat) : Nat := nfield (recNum s line 0 4) 2 6
def recExec (s : State) (line : Nat) : Nat := nfield (recNum s line 0 4) 8 24
def recGen (s : State) (line : Nat) : Nat := recNum s line 4 4
def recHolder (s : State) (line : Nat) : Nat := nfield (recNum s line 0x18 8) 0 24
def recAdopter (s : State) (line : Nat) : Nat := nfield (recNum s line 0x18 8) 32 24
def recResume (s : State) (line : Nat) : DWord := BitVec.ofNat 64 (recNum s line 8 8)
def recCkpt (s : State) (line : Nat) : List Word :=
  (List.range 16).map fun i => BitVec.ofNat 32 (recNum s line (0x20 + 4 * i) 4)

/-- The bits of IDS that must be zero are zero (R269). -/
def idsOk (s : State) (line : Nat) : Bool :=
  nfield (recNum s line 0x18 8) 24 8 == 0 && nfield (recNum s line 0x18 8) 56 8 == 0

/-- R270: the record's CTL breaks its format; R7: or a bit of it that must be zero is not. -/
def recBad (s : State) (line : Nat) : Bool :=
  !idsOk s line || (recState s line == 0 && (recExec s line != 0 || recStep s line != 0))
    || (recState s line != 0 && !nbit (recExec s line) 23)

def ctlBytes (st step exec gen : Nat) : List Byte := leBytes 4 (st + step * 4 + exec * 256) ++ leBytes 4 gen

def idsBytes (holder adopter : Nat) : List Byte := leBytes 4 holder ++ leBytes 4 adopter

def ckptBytes (ks : List Word) : List Byte := (List.range 16).flatMap fun i => leBytes 4 (ks.getD i 0).toNat

/-- Bytes of a line by physical address. -/
def atLine (line off : Nat) (bs : List Byte) : List (Nat × Byte) := bs.zipIdx.map fun p => (128 * line + off + p.2, p.1)

/-- Every other copy of a line is dropped; false while the line is BUSY. -/
def claimLine (s : State) (g : Nat) : Bool × State := grab s g none true

/-- Claims every line of a list. -/
def claimLines (s : State) (gs : List Nat) : Bool × State :=
  match gs with
  | [] => (true, s)
  | g :: r =>
    match claimLine s g with
    | (true, s1) => claimLines s1 r
    | (false, s1) => (false, s1)

/-- T of a message's crew. -/
def msgT (s : State) (m : CapMsg) : Nat :=
  match crewOf s m.blk m.crew with
  | some y => crewT s y
  | none => s.clock

/-- Lines written at their homes as one write, with one write time. -/
def writeLines (s : State) (gs : List Nat) (at' : Nat → Attr) (bs : List (Nat × Byte)) (t : Nat) : Nat × State :=
  let (tw, s1) := gs.foldl (fun a g =>
    let (k, s') := homeWrite a.2 g (bs.filter fun p => p.1 / 128 == g) (at' g) t true
    (max a.1 k, s')) (t, s)
  (tw, gs.foldl (fun s g =>
    if (lineOf s g).resident then updLine s g fun l => { l with w := tw } else raiseFloor s (128 * g) tw) s1)

/-- Such a write that is a release at device scope of the message's crew (R101). -/
def releaseLines (s : State) (m : CapMsg) (gs : List Nat) (at' : Nat → Attr) (bs : List (Nat × Byte)) : Nat × State :=
  let (tw, s1) := writeLines s gs at' bs (msgT s m)
  (tw, raiseT (markBytes s1 (paKeys bs) ⟨partyOf s m.blk m.crew, .dev, tw, true⟩) m.blk m.crew tw)

/-- Bytes of the record alone. -/
def writeRec (s : State) (m : CapMsg) (off : Nat) (bs : List Byte) : State :=
  let (tw, s1) := writeLines s [m.record] (fun _ => m.attr) (atLine m.record off bs) (msgT s m)
  raiseT s1 m.blk m.crew tw

/-- What the home keeps beside a record. -/
def capHomeOf (s : State) (line : Nat) : CapHome := s.capHomes.getD line ⟨none, plainAttr, plainAttr, 0, none⟩

def setCapHome (s : State) (line : Nat) (x : CapHome) : State := { s with capHomes := s.capHomes.put line x }

/-! ## Versions (R278) -/

def versionOf (m : CapMsg) (v : Version) : Bool :=
  v.record == m.record && v.gen == m.gen && v.step == m.step && v.exec == m.exec

def stepVersions (s : State) (m : CapMsg) : List Version := s.versions.filter (versionOf m)

def dropVersions (s : State) (m : CapMsg) : State := { s with versions := s.versions.filter fun v => !versionOf m v }

/-- Every version of a record. -/
def dropRecordVersions (s : State) (record : Nat) : State :=
  { s with versions := s.versions.filter fun v => v.record != record }

/-- The bytes of a step's versions, in the order stored. -/
def stepBytes (vs : List Version) : List (Nat × Byte) := vs.flatMap fun v => v.bytes

/-! ## The executing lane (R272, R275, R279) -/

/-- k0 to k15 and a fresh step. -/
def loadStep (y : Crew) (h : Holding) (ks : List Word) (gen : Word) (step exec : Nat) (resume : DWord) : Crew :=
  let y1 := (List.range 16).foldl (fun y i => writeK y i (ks.getD i 0)) y
  let y2 := (List.range 7).foldl (fun y n => writeP y n (laneBit h.lane) 0) y1
  { y2 with holding := some { h with
    gen := gen, step := step, exec := exec, count := 0, lines := [], ckpt := ks, resume := resume,
    displaced := false, parked := false, resting := none } }

/-- The lane's path continues at an address, whether it stands in a slot or is spilled. -/
def moveLane (y : Crew) (clock lane : Nat) (pc : DWord) : Crew :=
  let go (t : Slot) : Slot := { t with pc := pc, st := .ready, readyAt := clock, favoured := false, starved := false }
  if y.slot0.mask.getLsbD lane then { y with slot0 := go y.slot0 }
  else if y.slot1.mask.getLsbD lane then { y with slot1 := go y.slot1 }
  else { y with spills := y.spills.map fun p => if p.mask.getLsbD lane then { p with pc := pc } else p }

/-- The stack of crew c holds its entries as they now are (R28): a spilled path whose lane continues elsewhere. -/
def storeSpills (s : State) (b c : Nat) (y : Crew) : State :=
  match s.blocks.find b with
  | none => s
  | some blk => (y.spills.reverse.zipIdx).foldl (fun s p => storeSpill s blk c p.2 p.1) s

/-- The crew whose lane has moved; where its path is spilled, its entry says so. -/
def putMoved (s : State) (b c : Nat) (before after : Crew) : State :=
  if before.spills == after.spills then putCrew s b c after else storeSpills (putCrew s b c after) b c after

/-- The lane leaves capsule mode at its continuation with a status. -/
def exitCapsule (s : State) (b c status : Nat) : State :=
  match crewOf s b c with
  | none => s
  | some y =>
    match y.holding with
    | none => s
    | some h => putMoved s b c y (moveLane (leaveCapsule y status) s.clock h.lane h.cont)

/-- The step begins, or begins again, at its first instruction with the given checkpoint. -/
def beginStep (s : State) (b c : Nat) (ks : List Word) (gen : Word) (step exec : Nat) (resume : DWord) : State :=
  match crewOf s b c with
  | none => s
  | some y =>
    match y.holding with
    | none => s
    | some h =>
      let z := moveLane (loadStep y h ks gen step exec resume) s.clock h.lane resume
      if y.spills == z.spills then setCrew s b c z else storeSpills (setCrew s b c z) b c z

/-- The crew of a message is still there, and its grid has not been ended. -/
def msgLive (s : State) (m : CapMsg) : Bool :=
  match s.blocks.find m.blk with
  | some b => b.st != .retired && launchLive s b.launch && (b.crews.find m.crew).isSome
  | none => false

def dropMsg (s : State) (n : Nat) : State := { s with capMsgs := s.capMsgs.drop n }

/-- The slot that asked, as it stands. -/
def askerHere (s : State) (m : CapMsg) (w : Asker) : Option Here := hereAt s ⟨m.blk, m.crew, w.slot⟩

/-- The asking lane is not given the record: D receives the status, and the next word follows. -/
def answerStatus (s : State) (m : CapMsg) (w : Asker) (status : Nat) : State :=
  match askerHere s m w with
  | none => s
  | some h => nextWord (updCrew s m.blk m.crew fun y => writeV y w.dreg w.lane (BitVec.ofNat 32 status)) h

/-- The asking lane enters capsule mode: an acquire of the record's last accepted commit or close (R101). -/
def enterMode (s : State) (m : CapMsg) (w : Asker) (exec : Nat) (gen : Word) (step : Nat) (ks : List Word)
    (pc : DWord) : State :=
  match askerHere s m w with
  | none => s
  | some h =>
    let ps := (List.range 7).map fun n => h.crew.p.getD n 0
    let hold : Holding :=
      ⟨w.lane, w.slot, m.record, w.va, gen, step, exec, hPc h + 8, w.dreg, ps, 0, [], ks, pc, false, false, none, w.attr⟩
    let s1 := updCrew s m.blk m.crew fun y => { y with holding := some hold }
    acquireAt (beginStep s1 m.blk m.crew ks gen step exec pc) m.blk m.crew (laneBit w.lane) (capHomeOf s m.record).tw

/-- R270: the record is malformed, and the asking instruction traps. -/
def answerTrap (s : State) (m : CapMsg) (w : Asker) : State :=
  match askerHere s m w with
  | none => s
  | some h => takeTrap s h .capfault 5 0

/-- A line is poisoned: a precise fault of the asking instruction. -/
def answerPoison (s : State) (m : CapMsg) (w : Asker) (va : DWord) : State :=
  match askerHere s m w with
  | none => s
  | some h => takeFault s h .poison 0 va 2

/-! ## ENTER and ADOPT (R279) -/

/-- R279: the record is HELD by the lane, its slot cleared, its checkpoint k0 to k15; the lane enters capsule mode. -/
def acceptEnter (s : State) (m : CapMsg) (w : Asker) (slotPa : Nat) (entry : DWord) (ks : List Word) (slotVa : DWord)
    (slotAttr : Attr) : State :=
  let g := lineNo slotPa
  let gen := (recGen s m.record + 1) % 2 ^ 32
  let (_, s1) := writeLines s [g] (fun _ => slotAttr) (atLine g (slotPa % 128) (leBytes 32 0)) (msgT s m)
  let s2 := writeRec s1 m 0
    (ctlBytes capHeld 0 m.exec gen ++ leBytes 8 entry.toNat ++ leBytes 8 slotVa.toNat
      ++ idsBytes m.exec 0 ++ ckptBytes ks)
  let s3 := setCapHome s2 m.record { capHomeOf s2 m.record with
    slot := some slotPa, slotAttr := slotAttr, attr := m.attr, closing := none }
  enterMode s3 m w m.exec (BitVec.ofNat 32 gen) 0 ks entry

def execEnter (msg : Nat) (s : State) : Host.Outcome State Fault Refusal :=
  match s.capMsgs.find msg with
  | none => .next s
  | some m =>
    match m.kind with
    | .enter w slotPa entry ks slotVa sa =>
      if !msgLive s m then .next (dropMsg s msg)
      else
        match claimLines s [m.record, lineNo slotPa] with
        | (false, s1) => .next (later s1 (.enter msg))
        | (true, s1) =>
          let s2 := dropMsg s1 msg
          if poisoned s1 m.record then .next (answerPoison s2 m w w.va)
          else if recBad s1 m.record then .next (answerTrap s2 m w)
          else if recState s1 m.record ≠ capFree then .next (answerStatus s2 m w (recState s1 m.record))
          else if poisoned s1 (lineNo slotPa) then .next (answerPoison s2 m w slotVa)
          else if versioned s1 (lineNo slotPa) then .next (later s1 (.enter msg))
          else .next (acceptEnter s2 m w slotPa entry ks slotVa sa)
    | _ => .next s

/-- The status that an adopter receives for a record not PARKED. -/
def adoptStatus (st : Nat) : Nat := if st = capFree then 4 else st

/-- R279: a PARKED record is HELD by its adopter, which resumes its step. -/
def acceptAdopt (s : State) (m : CapMsg) (w : Asker) : State :=
  let gen := (recGen s m.record + 1) % 2 ^ 32
  let step := recStep s m.record
  let s1 := writeRec s m 0 (ctlBytes capHeld step m.exec gen)
  let s2 := writeRec s1 m 0x18 (idsBytes (recHolder s m.record) m.exec)
  enterMode (setCapHome s2 m.record { capHomeOf s2 m.record with attr := m.attr }) m w m.exec (BitVec.ofNat 32 gen) step (recCkpt s m.record)
    (recResume s m.record)

def execAdopt (msg : Nat) (s : State) : Host.Outcome State Fault Refusal :=
  match s.capMsgs.find msg with
  | none => .next s
  | some m =>
    match m.kind with
    | .adopt w =>
      if !msgLive s m then .next (dropMsg s msg)
      else
        match claimLine s m.record with
        | (false, s1) => .next (later s1 (.adopt msg))
        | (true, s1) =>
          let s2 := dropMsg s1 msg
          if poisoned s1 m.record then .next (answerPoison s2 m w w.va)
          else if recBad s1 m.record then .next (answerTrap s2 m w)
          else if recState s1 m.record ≠ capParked then
            .next (answerStatus s2 m w (adoptStatus (recState s1 m.record)))
          else .next (acceptAdopt s2 m w)
    | _ => .next s

/-! ## COMMIT and the close (R279) -/

/-- The commit's tag is not the record's. -/
def staleTag (s : State) (m : CapMsg) : Bool :=
  recState s m.record != capHeld || recGen s m.record != m.gen.toNat || recStep s m.record != m.step
    || recExec s m.record != m.exec

/-- Stores of the step still on their way: a commit follows them (R88, R281). -/
def commitWaits (s : State) (m : CapMsg) : Bool :=
  s.capMsgs.any fun e =>
    e.2.blk == m.blk && e.2.crew == m.crew &&
    match e.2.kind with
    | .store _ _ _ _ => true
    | _ => false

/-- The delivery slot's bytes at a close. -/
def slotBytes (ks : List Word) (closer done gen : Nat) : List Byte :=
  (List.range 4).flatMap (fun i => leBytes 4 (ks.getD i 0).toNat) ++ leBytes 4 closer ++ leBytes 4 done
    ++ leBytes 4 gen ++ leBytes 4 0

/-- The slot kept from ENTER. -/
def keptSlot (s : State) (line : Nat) : Option Nat := (s.capHomes.find line).bind fun h => h.slot

/-- The record goes to CLOSING and the slot is written, a release at device scope; the acknowledgement is to come. -/
def closeRecord (s : State) (m : CapMsg) (ks : List Word) (done status : Nat) : State :=
  let gen := recGen s m.record
  let s1 := writeRec s m 0 (ctlBytes capClosing (recStep s m.record) m.exec gen)
  let closer := if recHolder s m.record = m.exec then 0 else m.exec
  let (tw, s2) := match keptSlot s m.record with
    | some pa =>
      releaseLines s1 m [lineNo pa] (fun _ => (capHomeOf s m.record).slotAttr) (atLine (lineNo pa) (pa % 128) (slotBytes ks closer done gen))
    | none => (msgT s1 m, s1)
  later (setCapHome s2 m.record { capHomeOf s2 m.record with slot := keptSlot s m.record, attr := m.attr, tw := tw, closing := some (m.blk, m.crew, status) }) (.closeAck m.record)

/-- The attributes of the page that a line of the step was stored through; for the record's own line, of its page. -/
def versionAttr (m : CapMsg) (vs : List Version) (g : Nat) : Attr :=
  ((vs.find? fun v => v.line == g).map fun v => v.attr).getD m.attr

/-- The checkpoint and every version of the step become visible as one write, a release at device scope (R101). -/
def installStep (s : State) (m : CapMsg) (ks : List Word) (ctl : List Byte) : State :=
  let vs := stepVersions s m
  let gs := (m.record :: vs.map fun v => v.line).eraseDups
  let bs := stepBytes vs ++ atLine m.record 0 ctl ++ atLine m.record 0x20 (ckptBytes ks)
  let (tw, s1) := releaseLines s m gs (versionAttr m vs) bs
  setCapHome (dropVersions s1 m) m.record { capHomeOf s1 m.record with tw := tw }

/-- The lines that a commit writes, the delivery slot's among them. -/
def commitLines (s : State) (m : CapMsg) (closes : Bool) : List Nat :=
  (m.record :: ((stepVersions s m).map fun v => v.line) ++
    (if closes then (keptSlot s m.record).toList.map lineNo else [])).eraseDups

/-- Another step's version on a line that the close would write. -/
def slotHeld (s : State) (m : CapMsg) : Bool :=
  match keptSlot s m.record with
  | some pa => s.versions.any fun v => v.line == lineNo pa && !versionOf m v
  | none => false

def commitAccepted (s : State) (m : CapMsg) (kind : Fin 3) (ks : List Word) (ra : DWord) : State :=
  let gen := m.gen.toNat
  match kind with
  | 0 =>
    let s1 := installStep s m ks (ctlBytes capHeld (m.step + 1) m.exec gen ++ leBytes 8 ra.toNat)
    beginStep s1 m.blk m.crew ks m.gen (m.step + 1) m.exec ra
  | 1 => closeRecord (installStep s m ks (ctlBytes capHeld m.step m.exec gen)) m ks 1 0
  | _ => closeRecord (dropVersions s m) m ks 2 6

/-- The crew of a message is in the step that the message names: its lane stands in a slot, or is spilled. -/
def commitHere (s : State) (m : CapMsg) : Option Here :=
  match crewOf s m.blk m.crew with
  | none => none
  | some y =>
    match y.holding with
    | none => none
    | some h =>
      if y.slot0.mask.getLsbD h.lane then hereAt s ⟨m.blk, m.crew, 0⟩
      else if y.slot1.mask.getLsbD h.lane then hereAt s ⟨m.blk, m.crew, 1⟩
      else none

/-- R270: the record is malformed, and the committing instruction traps. -/
def commitTrap (s : State) (m : CapMsg) : State :=
  match commitHere s m with
  | none => s
  | some h => takeTrap (dropVersions s m) h .capfault 5 0

/-- A line of the commit is poisoned: a precise fault of the committing instruction. -/
def commitPoison (s : State) (m : CapMsg) : State :=
  match commitHere s m with
  | none => s
  | some h => takeFault s h .poison 0 ((capRecord h.crew (hMask h)).getD 0) 2

/-- A commit at the record's home, every line of it claimed. -/
def commitAt (s : State) (m : CapMsg) (kind : Fin 3) (ks : List Word) (ra : DWord) : State :=
  if (commitLines s m (decide (kind ≠ 0))).any (poisoned s) then commitPoison s m else commitAccepted s m kind ks ra

def execCommit (msg : Nat) (s : State) : Host.Outcome State Fault Refusal :=
  match s.capMsgs.find msg with
  | none => .next s
  | some m =>
    match m.kind with
    | .commit kind ks ra =>
      if commitWaits s m then .next (later s (.commit msg))
      else
        match claimLine s m.record with
        | (false, s1) => .next (later s1 (.commit msg))
        | (true, s1) =>
          if poisoned s1 m.record then .next (commitPoison (dropMsg s1 msg) m)
          else if recBad s1 m.record then .next (commitTrap (dropMsg s1 msg) m)
          else if staleTag s1 m then .next (exitCapsule (dropVersions (dropMsg s1 msg) m) m.blk m.crew 5)
          else if kind ≠ 0 ∧ slotHeld s1 m then .next (later s1 (.commit msg))
          else
            match claimLines s1 (commitLines s1 m (decide (kind ≠ 0))) with
            | (false, s2) => .next (later s2 (.commit msg))
            | (true, s2) => .next (commitAt (dropMsg s2 msg) m kind ks ra)
    | _ => .next s

/-- The record is FREE; its home keeps the write time of the close, and no slot. -/
def freeRecord (s : State) (line : Nat) : State :=
  let (_, s1) := writeLines s [line] (fun _ => (capHomeOf s line).attr) (atLine line 0 (leBytes 4 capFree)) s.clock
  setCapHome s1 line { capHomeOf s1 line with slot := none, closing := none }

/-- The slot write is acknowledged: the record is FREE, and the closing lane leaves. -/
def execCloseAck (line : Nat) (s : State) : Host.Outcome State Fault Refusal :=
  match s.capHomes.find line with
  | none => .next s
  | some h =>
    match h.closing with
    | none => .next s
    | some (b, c, status) =>
      match claimLine s line with
      | (false, s1) => .next (later s1 (.closeAck line))
      | (true, s1) => .next (laterOnce (exitCapsule (freeRecord s1 line) b c status) (.blockRetire b))

/-! ## PARK and RECLAIM (R281 to R283) -/

/-- The record is HELD by the step that the message names. -/
def ownRecord (s : State) (m : CapMsg) (st : Nat) : Bool :=
  recState s m.record == st && recGen s m.record == m.gen.toNat && recExec s m.record == m.exec

/-- R281: the record is PARKED, and its step's versions are discarded. -/
def parkRecord (s : State) (m : CapMsg) : State :=
  writeRec (dropRecordVersions s m.record) m 0 (ctlBytes capParked (recStep s m.record) m.exec (recGen s m.record))

/-- The home of a message's record is in reach of its crew's core: a slot is free on every hop, links lead there, and
windows have tokens. -/
def noticeSlot (s : State) (m : CapMsg) : Bool :=
  match s.blocks.find m.blk with
  | some b => sendTo s b.core (sliceOf (128 * m.record))
  | none => true

/-- A notice that is not sent. -/
def noticeRefused (s : State) (m : CapMsg) : State :=
  match s.blocks.find m.blk with
  | some b => refused s b.core (dieOfCore b.core) (sliceOf (128 * m.record))
  | none => s

/-- A notice and its reply have drawn their tokens (R337, R341). -/
def noticeSent (s : State) (m : CapMsg) : State :=
  match s.blocks.find m.blk with
  | some b => exchange s (dieOfCore b.core) (homeDie (128 * m.record)) (some b.launch)
  | none => s

/-- A commit of the crew is on its way: its park notice arrives after it (R281, R293). -/
def committing (s : State) (b c : Nat) : Bool :=
  s.capMsgs.any fun e => e.2.blk == b && e.2.crew == c &&
    match e.2.kind with
    | .commit _ _ _ => true
    | _ => false

/-- A park notice of the crew is on its way. -/
def parking (s : State) (b c : Nat) : Bool :=
  s.capMsgs.any fun e => e.2.blk == b && e.2.crew == c && e.2.kind == .park

def execPark (msg : Nat) (s : State) : Host.Outcome State Fault Refusal :=
  match s.capMsgs.find msg with
  | none => .next s
  | some m =>
    match m.kind with
    | .park =>
      if committing s m.blk m.crew || !noticeSlot s m then .next (later (noticeRefused s m) (.park msg))
      else
        (match claimLine s m.record with
         | (false, s1) => .next (later s1 (.park msg))
         | (true, s1) =>
           let s2 := noticeSent (dropMsg s1 msg) m
           .next (if ownRecord s2 m capHeld then parkRecord s2 m else s2))
    | _ => .next s

/-- A reclaim of the block is on its way. -/
def reclaiming (s : State) (b : Nat) : Bool :=
  s.capMsgs.any fun e => e.2.blk == b &&
    match e.2.kind with
    | .reclaim _ => true
    | _ => false

/-- The block runs once each of its reclaims has been answered; it may then also retire. -/
def runIfReady (s : State) (b : Nat) : State :=
  if reclaiming s b then s
  else
    later (updBlock s b fun x =>
      if x.st == .restoring || x.st == .halted then { x with st := .running, halting := none } else x) (.blockRetire b)

/-- A slot of the lane that waited for its record's home, or for a restart, goes on. -/
def unwaited (lane : Nat) (t : Slot) : Slot :=
  if t.mask.getLsbD lane then
    match t.st with
    | .waiting .capsule => { t with st := .ready }
    | .waiting (.conflict _) => { t with st := .ready }
    | _ => t
  else t

/-- R283: the lane is displaced and goes on at its saved PC, also where it awaited a home's answer or a restart. -/
def displace (s : State) (b c : Nat) : State :=
  updCrew s b c fun y =>
    match y.holding with
    | none => y
    | some h =>
      { y with
        holding := some { h with displaced := true, parked := false, resting := none }
        slot0 := unwaited h.lane y.slot0
        slot1 := unwaited h.lane y.slot1 }

/-- R283: the record is HELD again by the lane, under the executor id `n`, which restarts its step. -/
def reclaimRecord (s : State) (m : CapMsg) (n : Nat) : State :=
  let gen := (recGen s m.record + 1) % 2 ^ 32
  let step := recStep s m.record
  let s1 := writeRec s m 0 (ctlBytes capHeld step n gen)
  let held := recHolder s m.record == m.exec
  let s2 := writeRec s1 m 0x18 (idsBytes (if held then n else recHolder s m.record)
    (if held then recAdopter s m.record else n))
  runIfReady (beginStep s2 m.blk m.crew (recCkpt s m.record) (BitVec.ofNat 32 gen) step n (recResume s m.record)) m.blk

def execReclaim (msg : Nat) (s : State) : Host.Outcome State Fault Refusal :=
  match s.capMsgs.find msg with
  | none => .next s
  | some m =>
    match m.kind with
    | .reclaim n =>
      if !msgLive s m then .next (dropMsg s msg)
      else if parking s m.blk m.crew || !noticeSlot s m then .next (later (noticeRefused s m) (.reclaim msg))
      else
      (match claimLine s m.record with
       | (false, s1) => .next (later s1 (.reclaim msg))
       | (true, s1) =>
         let s2 := noticeSent (dropMsg s1 msg) m
         .next (if ownRecord s2 m capParked then reclaimRecord s2 m n else runIfReady (displace s2 m.blk m.crew) m.blk))
    | _ => .next s

/-- Holdings of a block that are to be reclaimed: parked, and not those of a lane that has trapped (R284). -/
def toReclaim (x : Block) : List Nat :=
  (x.crews.filter fun e =>
    match e.2.holding with
    | some h => h.parked && !(match e.2.handler with
        | some hd => hd.cap
        | none => false)
    | none => false).map (·.1)

/-- One reclaim sets out, with the executor id on this core. -/
def sendReclaim (b : Nat) (s : State) (c : Nat) : State :=
  match s.blocks.find b with
  | none => s
  | some x =>
    match x.crews.find c with
    | none => s
    | some y =>
      match y.holding with
      | none => s
      | some h =>
        let (n, s1) := sendCap s h.line b c h (.reclaim (execId x.core c y.crewSlot h.lane))
        later s1 (.reclaim n)

/-- R282: a block leaves a restore or a halt once its parked holdings have been reclaimed. -/
def resumeBlock (s : State) (b : Nat) : State :=
  match s.blocks.find b with
  | none => s
  | some x => runIfReady ((toReclaim x).foldl (sendReclaim b) s) b

/-! ## Capsule stores (R278, R280) -/

/-- The step's stores still in flight are discarded with its versions. -/
def discardStep (s : State) (m : CapMsg) : State :=
  let s1 := dropVersions s m
  { s1 with capMsgs := s1.capMsgs.filter fun e =>
      !(e.2.blk == m.blk && e.2.crew == m.crew &&
        match e.2.kind with
        | .store _ _ _ _ => true
        | .commit _ _ _ => true
        | _ => false) }

/-- The crew's step has been given up: its record is parked, or its lane has trapped in capsule mode (R281, R284). -/
def stepGone (s : State) (m : CapMsg) : Bool :=
  match crewOf s m.blk m.crew with
  | none => true
  | some y =>
    (match y.handler with
     | some hd => hd.cap
     | none => false) ||
    match y.holding with
    | some h => h.parked
    | none => true

/-- CONFLICT: the lane waits 64 clocks, be its path spilled, and restarts its step; of a step that has been given up only
what is left is discarded. -/
def conflict (s : State) (m : CapMsg) : State :=
  if stepGone s m then later (discardStep s m) (.blockRetire m.blk)
  else
  let till := s.clock + 64
  let wait (l : Nat) (t : Slot) : Slot := if t.mask.getLsbD l then { t with st := .waiting (.conflict till) } else t
  later (updCrew (discardStep s m) m.blk m.crew fun y =>
    match y.holding with
    | none => y
    | some h =>
      { y with
        slot0 := wait h.lane y.slot0
        slot1 := wait h.lane y.slot1
        holding := some { h with resting := some till } })
    (.conflictRestart m.blk m.crew)

/-- R280: the step restarts with the checkpoint that the lane last committed or received; a displaced lane stays so. -/
def restartStep (s : State) (b c : Nat) (h : Holding) : State :=
  updCrew (beginStep s b c h.ckpt h.gen h.step h.exec h.resume) b c fun y =>
    { y with holding := y.holding.map fun k => { k with displaced := h.displaced } }

def addVersion (s : State) (m : CapMsg) (line : Nat) (bs : List (Nat × Byte)) (a : Attr) : State :=
  match s.versions.find? fun v => v.line == line && versionOf m v with
  | some _ =>
    { s with versions := s.versions.map fun v =>
        if v.line = line ∧ versionOf m v = true then { v with bytes := v.bytes ++ bs } else v }
  | none => { s with versions := s.versions ++ [⟨line, m.record, m.gen, m.step, m.exec, bs, a⟩] }

/-- Earlier stores of the same lane to the line are on their way: they go first (R278). -/
def earlierStore (s : State) (msg : Nat) (m : CapMsg) (line : Nat) : Bool :=
  s.capMsgs.any fun e => decide (e.1 < msg) && e.2.blk == m.blk && e.2.crew == m.crew &&
    match e.2.kind with
    | .store l _ _ _ => l == line
    | _ => false

def execCapsuleStore (msg : Nat) (s : State) : Host.Outcome State Fault Refusal :=
  match s.capMsgs.find msg with
  | none => .next s
  | some m =>
    match m.kind with
    | .store line bs a _ =>
      if staleTag s m then .next (laterOnce (dropMsg s msg) (.blockRetire m.blk))
      else if earlierStore s msg m line || (lineOf s line).st == .busy then .next (later s (.capsuleStore msg))
      else
        match s.versions.find? fun v => v.line == line && v.record != m.record with
        | some v =>
          if m.record < v.record then .next (later s (.capsuleStore msg)) else .next (conflict s m)
        | none => .next (addVersion (dropMsg s msg) m line bs a)
    | _ => .next s

def execConflictRestart (blk crew : Nat) (s : State) : Host.Outcome State Fault Refusal :=
  match s.blocks.find blk, crewOf s blk crew with
  | some x, some y =>
    (match y.holding with
     | none => .next s
     | some h =>
       match h.resting with
       | some till =>
         if x.st ≠ .running ∨ s.clock < till then .next (later s (.conflictRestart blk crew))
         else .next (restartStep s blk crew h)
       | none => .next s)
  | _, _ => .next s

end Sys2Proof.Machine
end

