-- ==== Sys2Proof/Machine/Moor.lean ====
section
/-! DEFINITION. Mooring instructions: `MOOR`, `UNMOOR`, `MWB` and `MQRY`
(15_instr_control_memory.md R196, 05_memory_rules.md R48 to R54). -/

namespace Sys2Proof.Machine

/-! ## Records (R48) -/

/-- The fields of a record's 32 bytes. -/
def moorRecOf (x : Nat) : MoorRec :=
  ⟨nfield x 0 64, nfield x 64 32, nfield x 96 32, nfield x 128 32, nfield x 160 32, nfield x 192 16, nfield x 208 8,
    nfield x 216 8, nfield x 224 8, nfield x 232 8⟩

/-- R48, R49: the limits of a record, for a block with P bytes of stash. -/
def moorRecOk (r : MoorRec) (x p : Nat) : Bool :=
  windowOf r.gbase == .global && r.lbase % 128 == 0 && decide (r.lbase < 2 ^ 21)
    && r.extent % 128 == 0 && decide (128 ≤ r.extent ∧ r.extent ≤ 2 ^ 21 ∧ r.lbase + r.extent ≤ p)
    && decide (1 ≤ r.rows ∧ r.rows ≤ 1048576) && (r.rows == 1 || decide (r.epr * r.esize ≤ r.stride))
    && decide (1 ≤ r.epr) && decide (1 ≤ r.esize ∧ r.esize ≤ 128) && decide (r.foff + r.fsize ≤ r.esize)
    && decide (1 ≤ r.fsize) && decide (moorRegm r < 2) && !(moorRof r && moorWE r) && nfield r.flags 5 3 == 0
    && nfield x 240 16 == 0 && decide (mappedBytes r ≤ r.extent)

/-! ## The table (R50, R51) -/

/-- Two entries are identical. -/
def moorSame (a : Mooring) (r : MoorRec) (base : Nat) : Bool := a.mrec == r && a.base == base

/-- The stash ranges of an entry and of a record overlap. -/
def moorOverlap (a : Mooring) (base extent : Nat) : Bool :=
  decide (a.base < base + extent) && decide (base < a.base + a.mrec.extent)

/-- The global lines of a footprint. -/
def footprint (r : MoorRec) : List Nat :=
  ((List.range (r.rows * r.epr)).flatMap fun q =>
    let lo := moorVa r (q * r.fsize)
    let hi := moorVa r (q * r.fsize + (r.fsize - 1))
    if lo / 128 = hi / 128 then [lo / 128] else [lo / 128, hi / 128]).eraseDups

/-- Two footprints share a line. -/
def footprintsMeet (a b : MoorRec) : Bool := let fb := footprint b; (footprint a).any fun l => fb.contains l

/-- The lowest free index. -/
def freeIndex (c : Core) : Option Nat := (List.range 64).find? fun i => (c.moorings.find i).isNone

/-- The oldest surviving entry: the one made first (DESIGN CHOICE, log 74). -/
def oldestSurviving (c : Core) : Option Nat :=
  ((c.moorings.filter fun e => e.2.owner.isNone).foldl (fun a e =>
    match a with
    | none => some e
    | some b => if e.2.order < b.2.order then some e else some b) none).map (·.1)

/-- What a `MOOR` comes to. -/
inductive MoorPlan where
  | format
  | reuse (i : Nat)
  | aliased
  | full
  /-- the overlapping entries, and the surviving entry that makes room -/
  | make (lost : List Nat) (room : Option Nat)
  deriving DecidableEq, Repr

/-- R50: the status, decided in the order of its tests. A surviving entry that would be dropped to make room counts in
the ALIAS test (DESIGN CHOICE, log 74). -/
def moorPlan (c : Core) (r : MoorRec) (base : Nat) : MoorPlan :=
  match c.moorings.find? fun e => moorSame e.2 r base with
  | some e => .reuse e.1
  | none =>
    let lost := (c.moorings.filter fun e => moorOverlap e.2 base r.extent).map (·.1)
    if c.moorings.any fun e =>
        !lost.contains e.1 && (moorWE e.2.mrec || moorWE r) && footprintsMeet e.2.mrec r then .aliased
    else if lost.isEmpty && (freeIndex c).isNone then
      match oldestSurviving c with
      | some i => .make [] (some i)
      | none => .full
    else .make lost none

/-! ## Write-back and drop -/

/-- Starts the write-back of every modified line of an entry. -/
def startFlush (s : State) (core e : Nat) : State :=
  match mooringOf s core e with
  | none => s
  | some m => (entryLines m).foldl (fun s l => startWriteBack s core e l false) s

/-- An entry has a modified line, or one whose write-back is in flight. -/
def unflushed (s : State) (core e : Nat) : Bool :=
  match mooringOf s core e with
  | some m => m.lines.any fun l => l.2.st == .drt || l.2.st == .wbk
  | none => false

/-- The lines of some entries that stand registered at homes. -/
def registeredLines (s : State) (core : Nat) (es : List Nat) : List MLine :=
  es.flatMap fun e =>
    match mooringOf s core e with
    | some m => (m.lines.filter fun l => l.2.st != .inv && l.2.st != .snp).map (·.2)
    | none => []

/-- The slice towards which the release of some entries finds no slot, link or token (R78, R332, R338). -/
def releaseBusy (s : State) (core : Nat) (es : List Nat) : Option Nat := (registeredLines s core es).findSome? (homesBusy s core)

/-- An entry that holds nothing to be written back is dropped: the releases of its registrations are requests to its homes. -/
def releaseEntry (s : State) (core e : Nat) : State :=
  dropEntry ((registeredLines s core [e]).foldl (fun s x => askHomes s core (mlineHomes x)) s) core e

/-- The entries of a core that a change drops. -/
def lostEntries (before after : State) (core : Nat) : List Nat :=
  ((coreOf before core).moorings.filter fun e => !(coreOf after core).moorings.any fun k => k.2.order == e.2.order).map (·.1)

/-- Entries can be dropped now: nothing of them is to be written back, and their releases find slots. -/
def readyToDrop (s : State) (core : Nat) (es : List Nat) : Bool :=
  !es.any (unflushed s core) && (releaseBusy s core es).isNone

/-- What goes before a drop: the write-backs of the entries set out, as far as slots and tokens allow (R54, R78). -/
def flushEntries (s : State) (core : Nat) (es : List Nat) : State :=
  let s1 := es.foldl (fun s e => startFlush s core e) s
  match releaseBusy s1 core es with
  | some k => refused s1 core (dieOfCore core) k
  | none => s1

/-- A change of several cores' moorings outside any instruction: `some` state where entries that it drops must first be
written back and acknowledged, or their releases find no slot (R51, R54, R78). -/
def dropsWait (before after : State) (cores : List Nat) : Option State :=
  match cores.filter fun c => !readyToDrop before c (lostEntries before after c) with
  | [] => none
  | cs => some (cs.foldl (fun s c => flushEntries s c (lostEntries before after c)) before)

/-- Entries are dropped: the releases of their registrations are requests to their homes (R54, R78). -/
def dropE (h : Here) (core : Nat) (es : List Nat) : Exec Unit := do
  let s ← getE
  homesE h core (registeredLines s core es)
  modifyE fun s => es.foldl (fun s e => dropEntry s core e) s

/-- Entries are written back, their acknowledgements awaited, and dropped. -/
def flushDropE (h : Here) (core : Nat) (es : List Nat) : Exec Unit := do
  let s ← getE
  match es.find? fun e => unflushed s core e with
  | some e => stopWith fun s => waitSlot (es.foldl (fun s e => startFlush s core e) s) h (.retry (.drop core e))
  | none => dropE h core es

/-- D of a status: once for the crew, or in every active lane. -/
def statusE (h : Here) (d : Opnd) (n x : Nat) : Exec Unit := updCrewE h fun y => putDst y false d n (hMask h) fun _ => x

/-! ## MOOR -/

/-- A new entry, its lines in INV. -/
def makeEntry (s : State) (core i : Nat) (r : MoorRec) (base : Nat) (owner : Option Nat) (c : Ctx) : State :=
  let (n, s1) := freshId s
  let x := coreOf s1 core
  setCore s1 core { x with moorings := x.moorings.put i ⟨r, base, owner, c, n, []⟩ }

def ownEntry (s : State) (core i b : Nat) : State :=
  let x := coreOf s core
  match x.moorings.find i with
  | some m => setCore s core { x with moorings := x.moorings.put i { m with owner := some b } }
  | none => s

def execMoor (d a : Opnd) (s : State) : Host.Outcome State Fault Refusal :=
  issueWord (.moor d a) s fun h => do
    let s ← getE
    let va := srcNum s h a 2 0
    let core := h.blk.core
    if va % 32 ≠ 0 then statusE h d 1 5
    else do
      let bs ← loadBytesE h (hMask h) va 32 .plain
      let x := leNat bs
      let r := moorRecOf x
      let base := h.blk.base + r.lbase
      if !moorRecOk r x h.blk.kern.stash then statusE h d 1 5
      else do
        let s ← getE
        match moorPlan (coreOf s core) r base with
        | .format => statusE h d 1 5
        | .aliased => statusE h d 1 4
        | .full => statusE h d 1 3
        | .reuse i => do
          modifyE fun s => ownEntry s core i h.b
          statusE h d 1 (1 + 8 * i)
        | .make lost room => do
          flushDropE h core (lost ++ room.toList)
          let s ← getE
          match freeIndex (coreOf s core) with
          | none => statusE h d 1 3
          | some i => do
            modifyE fun s => makeEntry s core i r base (some h.b) (ctxOf s h.blk)
            statusE h d 1 ((if lost.isEmpty then 0 else 2) + 8 * i)
    nextE h

/-! ## UNMOOR, MWB, MQRY -/

/-- The entry at an index is owned by the block. -/
def ownsEntry (s : State) (core i b : Nat) : Bool :=
  match mooringOf s core i with
  | some m => decide (i < 64) && m.owner == some b
  | none => false

def execUnmoor (d a : Opnd) (wb : Bool) (s : State) : Host.Outcome State Fault Refusal :=
  issueWord (.unmoor d a wb) s fun h => do
    let s ← getE
    let i := srcNum s h a 1 0
    let core := h.blk.core
    if !ownsEntry s core i h.b then statusE h d 1 1
    else do
      if wb then flushDropE h core [i]
      else if anyWbk s core i then waitE h (.retry (.drop core i))
      else dropE h core [i]
      statusE h d 1 0
    nextE h

/-- Modified lines of the block's entries that overlap the local range. -/
def dirtyLines (s : State) (core b lo hi : Nat) : List (Nat × Nat) :=
  (coreOf s core).moorings.flatMap fun e =>
    if e.2.owner = some b then
      (e.2.lines.filter fun l => l.2.st == .drt && decide (e.2.base + 128 * l.1 < hi)
          && decide (lo < e.2.base + 128 * l.1 + 128)).map fun l => (e.1, l.1)
    else []

def execMwb (d a b : Opnd) (s : State) : Host.Outcome State Fault Refusal :=
  issueWord (.mwb d a b) s fun h => do
    let s ← getE
    let lo := h.blk.base + srcNum s h a 1 0
    let n := srcNum s h b 1 0
    let ls := if n = 0 then [] else dirtyLines s h.blk.core h.b lo (lo + n)
    flushE h h.blk.core ls
    statusE h d 1 ls.length
    nextE h

def mstCode (x : LineSt) : Nat :=
  match x with
  | .inv => 0
  | .fill => 1
  | .shr => 2
  | .own => 3
  | .drt => 4
  | .wbk => 5
  | .snp => 6

/-- R196: what `MQRY` reports of a stash byte. -/
def mqryNat (s : State) (core b o : Nat) : Nat :=
  match mooringAt s core o with
  | none => 0
  | some p =>
    1 + 2 * mstCode (mlineOf s core p.1 p.2).st + 16 * p.1
      + (if ownsEntry s core p.1 b then 1024 else 0)

def execMqry (x : Op1) (s : State) : Host.Outcome State Fault Refusal :=
  issueWord (.mqry x) s fun h => do
    let m := activeMask h x.g
    let s ← getE
    let o := fun l => srcNum s h x.a 1 l
    if m = 0 then nextE h
    else
      match (lanesOf m).find? fun l => decide (h.blk.kern.stash ≤ o l) with
      | some l => faultE h .accf 2 (BitVec.ofNat 64 (o l)) 0
      | none => do
        updCrewE h fun y => putDst y false x.d 1 m fun l => mqryNat s h.blk.core h.b (h.blk.base + o l)
        nextE h

end Sys2Proof.Machine
end

