-- ==== Sys2Proof/Machine/Placed.lean ====
section
/-! DEFINITION. A state in which one slot of one block is about to fetch a given word: what a host's launch and a
placement leave, written at once (log 1). -/

namespace Sys2Proof.Machine

/-- R26, R62, R116, R208, R308: a crew that begins. -/
def beginCrew (entry : DWord) (clock slotNo : Nat) (node : Bool) : Crew :=
  { v := [], s := [], p := [], k := [],
    slot0 := ⟨entry, BitVec.allOnes 32, .ready, none, 0, clock, false, false, 0, [], 0, none⟩,
    slot1 := emptySlot, exited := 0, spills := [], joins := [], fstat := 0, fstatNew := 0, glimpses := [], tst := 0, tctl := 0,
    chans := if node then [(0, ⟨2, 0, 0, []⟩)] else [], acs := [], pending := [], tBase := 0, tLag := 0, roMark := 0,
    leaseMark := 0, fences := [], seen := [], copies := ⟨0, [], 0, []⟩, batches := ⟨1, [], 0, []⟩,
    tape := ⟨.unread, ⟨0, 0, 0, 0, 0, 0⟩, 0, ⟨0, [], 0, []⟩, [], []⟩,
    handler := none, holding := none, crewSlot := slotNo }

/-- A block that begins on a core. -/
def beginBlock (launch : Nat) (k : Kernel) (lin core base clock : Nat) : Block :=
  { launch := launch, kern := k, lin := lin, bx := 0, byIdx := 0, bz := 0, fleet := 0, rank := 0, core := core,
    base := base, st := .running, crews := [], rings := [], batch := none, placedAt := clock,
    parkedSince := none, outsideSince := none, chkptTill := none, causes := 0, object := 0, value := 0, recs := [],
    tokens := [], image := none, savedAt := 0, placeable := none, snapshot := [], rounds := [],
    halting := none, units := [] }

/-- Where the placed word stands. -/
def placedPc : Nat := 0x1000_0000

/-- One crew, every register, 1 MiB of stash. -/
def placedKernel : Kernel :=
  ⟨0, BitVec.ofNat 64 placedPc, 1, 1, 192, 48, 8, false, 0, 0, 0x10_0000, 0, 0, 0, 0, 0⟩

/-- A launch with capsules and tape allowed. -/
def placedLaunch : Launch :=
  { kernAddr := 0, args := 0, gx := 1, gy := 1, gz := 1, waitIdx := 0xFFFF, sigIdx := 0xFFFF, prio := 0, flags := 6,
    waitVal := 0, sigVal := 0, bufs := 0, cap := 0, ltag := 0, badRec := false, kern := placedKernel,
    ctx := ⟨⟨.a, 0⟩, 0⟩, die := 0, st := .running, order := 0, startAt := 0, shares := [], retired := 0,
    error := false, tokens := 0, energy := [], feeds := none, slips := [], tw := 0, relTw := 0 }

/-- The page of the placed word, open to every access. -/
def placedPage : Tlb := ⟨⟨⟨.a, 0⟩, 0⟩, placedPc, 12, placedPc, ⟨true, true, true, 0, false, 0, false⟩⟩

/-- One block of one crew on core 0, its word at its PC, and no other step to come. -/
def placeWord (s : State) (w : DWord) : State :=
  let y := beginCrew (BitVec.ofNat 64 placedPc) s.clock 0 false
  let b := { beginBlock 0 placedKernel 0 0 0 s.clock with crews := [(0, y)] }
  { s with
    agenda := []
    blocks := [(0, b)]
    launches := [(0, placedLaunch)]
    cores := s.cores.put 0 { coreOf s 0 with ctx := some ⟨⟨.a, 0⟩, 0⟩, tlb := [placedPage] }
    lines := s.lines.drop (placedPc / 128)
    mem := Memory_write s.mem (placeKey (.dev placedPc)) (leBytes 8 w.toNat) }

end Sys2Proof.Machine
end

