-- ==== Sys2Proof/Machine/Slipways.lean ====
section
/-! DEFINITION. Graph records: `REMIT` and `RADV`, and the room of a slipway (17_instr_engines.md R216 to R219,
03_execution_rules.md R39). -/

namespace Sys2Proof.Machine

/-! ## Room (R39, R217) -/

/-- The ring slot of record n holds no record. -/
def slotFree (w : Slipway) (n : Nat) : Bool := decide (n < w.cap) || w.gone.contains (n - w.cap)

/-- How many consecutive ring slots are free, up to n. -/
def freeRun (w : Slipway) (at' n : Nat) : Nat :=
  match n with
  | 0 => 0
  | k + 1 => if slotFree w at' then 1 + freeRun w (at' + 1) k else 0

/-- The address of a record. -/
def recordVa (w : Slipway) (n : Nat) : Nat := (w.base + n % w.cap * w.size) % 2 ^ 64

/-- The bytes of one lane's record: W registers from `r`. -/
def recordOf (y : Crew) (w : Slipway) (r l : Nat) : List Byte :=
  (List.range (w.size / 4)).flatMap fun i => leBytes 4 (readV y (r + i) l).toNat

/-! ## Writing records -/

/-- Writes the records of some lanes, in ascending lane order, at consecutive ring slots; the write time of each record,
by its number. -/
def writeRecords (s : State) (blk : Block) (y : Crew) (w : Slipway) (r n : Nat) (ls : List Nat) :
    Except EngErr (Table Nat × State) :=
  match ls with
  | [] => .ok ([], s)
  | l :: q =>
    match engPut s blk.core (ctxOf s blk) (recordVa w n) (recordOf y w r l) with
    | .error e => .error e
    | .ok (tw, s1) =>
      match writeRecords s1 blk y w r (n + 1) q with
      | .error e => .error e
      | .ok (ts, s2) => .ok (Table.put ts n tw, s2)

/-- Records count towards K and the flush time once they are written; what acquires them acquires T of the emitter too
(R218). -/
def slipWritten (s : State) (id t : Nat) (ts : Table Nat) : State :=
  match s.slipways.find id with
  | none => s
  | some w =>
    let w1 := { w with
      reserved := w.reserved + ts.length
      written := w.written + ts.length
      times := w.times ++ List.replicate ts.length s.clock
      tws := ts.foldl (fun a e => a.put e.1 (max t e.2)) w.tws }
    let s1 := later { s with slipways := s.slipways.put id w1 } (.slipwayBatchLaunch id)
    if w.flush = 0 then s1 else later s1 (.slipwayFlush id)

/-- The lanes that find a slot: the first of `left`, as many as there is room for. -/
def emitNow (w : Slipway) (left : Mask) : List Nat :=
  (lanesOf left).take (freeRun w w.reserved (popMask left))

def maskOfLanes (ls : List Nat) : Mask := maskOf fun l => ls.contains l

/-- R217: reserves and writes what there is room for, for a crew at time `t`: the lanes left over and the greatest write
time, or the error of a write. -/
def emit (s : State) (blk : Block) (y : Crew) (t id r : Nat) (left : Mask) :
    Except EngErr ((Mask × Nat) × State) :=
  match s.slipways.find id with
  | none => .ok ((0, 0), s)
  | some w =>
    let ls := emitNow w left
    match writeRecords s blk y w r w.reserved ls with
    | .error e => .error e
    | .ok (ts, s1) =>
      .ok ((left &&& ~~~(maskOfLanes ls), ts.foldl (fun a e => max a e.2) 0), slipWritten s1 id t ts)

/-- R39: the slot is PARKED; the block's count of parked clocks begins if no other crew is. -/
def parkSlot (s : State) (h : Here) (id r : Nat) (left : Mask) : State :=
  let s1 := updSlot s h.b h.c h.k fun t => { t with st := .parked id r left, favoured := false, starved := false }
  let s2 := later s1 (.remitUnpark (hRef h))
  if h.blk.parkedSince.isSome then s2
  else updBlock s2 h.b fun b => { b with parkedSince := some s.clock }

/-- The slipways of the block's launch. -/
def slipsOf (s : State) (h : Here) : List Nat :=
  match launchHere s h with
  | some l => l.slips
  | none => []

def execRemit (g : Guard) (i : Fin 16) (a : Opnd) (s : State) : Host.Outcome State Fault Refusal :=
  issueWord (.remit g i a) s fun h => do
    let s ← getE
    let m := activeMask h g
    match (slipsOf s h)[i.val]?, regCode a with
    | some id, some r =>
      match s.slipways.find id with
      | none => trapE h .illop
      | some w =>
        let n := w.size / 4
        if r % min n 4 ≠ 0 ∨ h.blk.kern.vregs < r + n then trapE h .illop
        else do
          regsReadyE h ((List.range n).map fun i => r + i)
          drainE h m
          let m := m &&& unslotted (hSlot h)
          if m = 0 then nextE h
          else do
            let (left, tw) ← engE h 1 fun s => emit s h.blk h.crew (timeOf s h.b h.c) id r m
            modifyE fun s => raiseT s h.b h.c tw
            if left = 0 then nextE h else modifyE fun s => parkSlot s h id r left
    | _, _ => trapE h .illop

/-- R39: room appears and the parked slot emits again. -/
def execRemitUnpark (r : SlotRef) (s : State) : Host.Outcome State Fault Refusal :=
  match hereAt s r with
  | none => .next s
  | some h =>
    match (hSlot h).st with
    | .parked id reg left =>
      if h.blk.st ≠ .running then .next (later s (.remitUnpark r))
      else
        match s.slipways.find id with
        | none => .next s
        | some w =>
          if (emitNow w left).isEmpty then .next (later s (.remitUnpark r))
          else
            match emit s h.blk h.crew (crewT s h.crew) id reg left with
            | .ok ((rest, tw), s0) =>
              let s1 := raiseT (dropWalkEnd s0) h.b h.c tw
              if rest = 0 then .next (settleParked (nextWord s1 h) h.b)
              else
                .next (later (updSlot s1 h.b h.c h.k fun t => { t with st := .parked id reg rest }) (.remitUnpark r))
            | .error (.fault x) =>
              let h1 := { h with act := left }
              .next (later (if x.cause = .poison then takeStoreFault (dropWalkEnd s) h1 x.cause x.code (BitVec.ofNat 64 x.addr)
                else takeFault (dropWalkEnd s) h1 x.cause x.code (BitVec.ofNat 64 x.addr) 1) (.remitUnpark r))
            | .error e => .next (later (engAgain s (dieOfCore h.blk.core) e) (.remitUnpark r))
    | _ => .next s

/-! ## Freeing (R219) -/

/-- The records of a batch from number a to b are freed. -/
def freeRecords (s : State) (bt : Batch) (a b : Nat) : State :=
  match s.slipways.find bt.slipway with
  | none => s
  | some w =>
    let ns := (List.range (b - a)).map fun i => bt.first + a + i
    { s with slipways := s.slipways.put bt.slipway { w with
        freed := w.freed + ns.length
        gone := w.gone ++ ns
        tws := w.tws.filter fun e => !ns.contains e.1 } }

/-- Records of the batch whose words have all been popped. -/
def poppedRecords (w : Slipway) (bt : Batch) : Nat := min bt.n (32 * (bt.pops / max (w.size / 4) 1))

/-- The records of the block's batch whose words have all been popped are free. -/
def freePopped (s : State) (h : Here) : State :=
  match h.blk.batch with
  | none => s
  | some bt =>
    match s.slipways.find bt.slipway with
    | none => s
    | some w =>
      let k := max bt.freed (poppedRecords w bt)
      updBlock (freeRecords s bt bt.freed k) h.b fun b => { b with batch := some { bt with freed := k } }

def execRadv (s : State) : Host.Outcome State Fault Refusal :=
  issueWord .radv s fun h => do
    if h.c ≠ 0 ∨ !h.blk.kern.node then trapE h .illop
    else do
      modifyE fun s => freePopped s h
      nextE h

end Sys2Proof.Machine
end

