-- ==== Sys2Proof/Machine/Placement.lean ====
section
/-! DEFINITION. Where a block fits and how it begins: the resources of a core, the preference among cores, clusters
and fleets, the tests of energy and window, the moorings that a placement drops
(03_execution_rules.md R26, R36; 05_memory_rules.md R51, R59; 29_power_bringup_rules.md R342). -/

namespace Sys2Proof.Machine

/-! ## What a core has left (R36) -/

/-- The block holds its core's resources. -/
def holdsCore (b : Block) : Bool :=
  b.st == .running || b.st == .saving || b.st == .halted || b.st == .restoring

/-- What a block needs of a core. -/
structure Need where
  crews : Nat
  vregs : Nat
  tiles : Nat
  stash : Nat
  deriving DecidableEq, Repr

def needOf (k : Kernel) : Need := ⟨k.crews, k.vregs, k.tiles, k.stash + 512 * k.crews⟩

/-- The crews of partition p. -/
def crewsOn (crews p : Nat) : Nat := (crews + 7 - p) / 8

/-- The blocks that hold a core, but for those given. -/
def heldOn (s : State) (core : Nat) (but : List Nat) : List Block :=
  (s.blocks.filter fun e => e.2.core == core && holdsCore e.2 && !but.contains e.1).map fun e => e.2

/-- Crew slots, vector register bytes and tiles of partition p in use. -/
def usedCrews (bs : List Block) (p : Nat) : Nat := (bs.map fun b => crewsOn b.kern.crews p).sum
def usedVector (bs : List Block) (p : Nat) : Nat := (bs.map fun b => crewsOn b.kern.crews p * b.kern.vregs * 128).sum
def usedTiles (bs : List Block) (p : Nat) : Nat := (bs.map fun b => crewsOn b.kern.crews p * b.kern.tiles).sum

/-- R248: a block with tiles holds the matrix unit of each partition on which it has crews. -/
def unitTaken (bs : List Block) (p : Nat) : Bool :=
  bs.any fun b => decide (0 < b.kern.tiles) && decide (0 < crewsOn b.kern.crews p)

/-- R36, R248: every partition has room. -/
def partitionsFit (bs : List Block) (n : Need) : Bool :=
  (List.range 8).all fun p =>
    let k := crewsOn n.crews p
    decide (usedCrews bs p + k ≤ Config.crewSlots)
      && decide (usedVector bs p + k * n.vregs * 128 ≤ Config.vectorBytes)
      && decide (usedTiles bs p + k * n.tiles ≤ 8)
      && !(decide (0 < n.tiles) && decide (0 < k) && unitTaken bs p)

/-- Stash bytes that a block holds from its base on. -/
def stashOf (b : Block) : Nat := b.kern.stash + 512 * b.kern.crews

/-- A range of stash is free. -/
def stashFree (bs : List Block) (base n : Nat) : Bool :=
  decide (base + n ≤ Config.stashBytes) &&
    bs.all fun b => decide (base + n ≤ b.base) || decide (b.base + stashOf b ≤ base)

/-- The lowest base at which the bytes fit: the bottom, or the end of an allocation. -/
def lowestBase (bs : List Block) (n : Nat) : Option Nat :=
  ((0 :: bs.map fun b => b.base + stashOf b).filter fun a => stashFree bs a n).min?

/-- R36: the stash base that a block would receive, where the core has room. -/
def fitsOn (s : State) (core : Nat) (n : Need) (but : List Nat) : Option Nat :=
  let bs := heldOn s core but
  if (coreOf s core).dead || !partitionsFit bs n then none else lowestBase bs n.stash

/-! ## Preference (R36) -/

/-- Crews resident on a core. -/
def residentCrews (s : State) (core : Nat) : Nat := ((heldOn s core []).map fun b => b.kern.crews).sum

/-- A surviving mooring of the core is identical to a record at the base that the block would receive. -/
def preferred (s : State) (core base : Nat) (r : Option MoorRec) : Bool :=
  match r with
  | none => false
  | some r => (coreOf s core).moorings.any fun e => e.2.owner.isNone && moorSame e.2 r (base + r.lbase)

/-- A distributor reads through its own translations: it has no TLB. -/
def distCore (die : Nat) : Nat := 256 + die

/-- Entry i of a mooring plan; one that cannot be read, or whose bytes 0x1E and 0x1F are not zero, is identical to no
mooring (R51). An error: the read cannot go now, and is to be made again. -/
def planRead (s : State) (die : Nat) (c : Ctx) (k : Kernel) (i : Nat) : Except EngErr (Option MoorRec) :=
  if k.plan ≤ i then .ok none
  else
    match engRead s (distCore die) c ((k.planAddr + 32 * i) % 2 ^ 64) 32 with
    | .ok (bs, _) => .ok (if nfield (leNat bs) 240 16 = 0 then some (moorRecOf (leNat bs)) else none)
    | .error (.fault _) => .ok none
    | .error e => .error e

/-- Every record of a mooring plan that can be read. -/
def planOf (s : State) (die : Nat) (c : Ctx) (k : Kernel) : Except EngErr (List MoorRec) :=
  ((List.range k.plan).mapM (planRead s die c k)).map fun rs => rs.filterMap id

/-- The plan's first entry, which the preference among cores compares (R36). -/
def planRec (s : State) (die : Nat) (c : Ctx) (k : Kernel) (i : Nat) : Option MoorRec :=
  match planRead s die c k i with
  | .ok r => r
  | .error _ => none

/-- A core with room: the order of preference, the core and the base. -/
structure Room where
  key : List Nat
  core : Nat
  base : Nat
  deriving DecidableEq, Repr

def roomOn (s : State) (n : Need) (r : Option MoorRec) (but : List Nat) (core : Nat) : Option Room :=
  (fitsOn s core n but).map fun b =>
    ⟨[if preferred s core b r then 0 else 1, residentCrews s core, core], core, b⟩

/-- The rooms of a cluster, in ascending core id. -/
def roomsOf (s : State) (n : Need) (r : Option MoorRec) (but : List Nat) (cluster : Nat) : List Room :=
  ((List.range 24).map fun i => 24 * cluster + i).filterMap (roomOn s n r but)

/-- The room that comes first. -/
def bestRoom (rs : List Room) : Option Room :=
  rs.foldl (fun a r =>
    match a with
    | none => some r
    | some b => if lexLt r.key b.key then some r else some b) none

/-- Of a cluster with F rooms, the first F in ascending core id. -/
def clusterRooms (rs : List Room) (f : Nat) : Option (List Room) := if f ≤ rs.length then some (rs.take f) else none

/-- R36: the cores of a fleet on a die, fleet rank by fleet rank. -/
def fleetRooms (s : State) (die : Nat) (k : Kernel) (r : Option MoorRec) (but : List Nat) : Option (List Room) :=
  let a := roomsOf s (needOf k) r but (2 * die)
  let b := roomsOf s (needOf k) r but (2 * die + 1)
  if k.fleet ≤ 1 then (bestRoom (a ++ b)).map fun x => [x]
  else
    match clusterRooms a k.fleet, clusterRooms b k.fleet with
    | some x, some y =>
      (match x.head?, y.head? with
       | some p, some q => if lexLt q.key p.key then some y else some x
       | _, _ => some x)
    | some x, none => some x
    | none, y => y

/-! ## Energy and window (R342) -/

/-- Blocks of a launch that run. -/
def runningOf (s : State) (launch : Nat) : Nat :=
  (s.blocks.filter fun e => e.2.launch == launch && e.2.st == .running).length

/-- The cap test of a die's distributor, for `f` blocks more. -/
def capOk (s : State) (die id : Nat) (l : Launch) (f : Nat) : Bool :=
  let n := runningOf s id
  l.cap == 0 || l.kern.energy == 0 || n == 0 || decide (l.energy.getD die 0 + l.kern.energy * (n + f) ≤ 1000 * l.cap)

/-- The window test, for `f` blocks more. -/
def windowOk (d : Die) (f : Nat) : Bool := !d.wasThrottled || (decide (16 ≤ d.thrw) && decide (d.placed + f ≤ 1))

/-! ## The dock pool (R243) -/

def poolSlots (s : State) : Nat := nfield s.regs.dkpool.toNat 0 12

/-- The lowest free slot. -/
def poolFree (s : State) : Option Nat := (List.range (poolSlots s)).find? fun i => !s.regs.poolUsed.contains i

/-- A pool exists and no slot of it is free. -/
def poolFull (s : State) : Bool := decide (0 < poolSlots s) && (poolFree s).isNone

/-- The base of a slot's image. -/
def imageAddr (s : State) (slot : Nat) : Nat := nfield s.regs.dkpool.toNat 24 28 * 2 ^ 24 + slot * 2 ^ 24

/-! ## What waits for a die (R35, R36) -/

/-- The fleets of a grid. -/
def fleetCount (l : Launch) : Nat := l.gx * l.gy * l.gz / max l.kern.fleet 1

/-- Blocks of the grid. -/
def gridBlocks (l : Launch) : Nat := l.gx * l.gy * l.gz

def shareOf (l : Launch) (die : Nat) : Share := l.shares.getD die ⟨[], [], 0, [], false⟩

/-- The lowest stripe of some runs. -/
def firstStripe (rs : List Stripes) : Option Nat := ((rs.filter fun r => decide (0 < r.count)).map fun r => r.first).min?

/-- The fleets of a stripe. -/
def stripeFleets (l : Launch) (k : Nat) : List Nat :=
  ((List.range 16).map fun i => 16 * k + i).filter fun f => decide (f < fleetCount l)

/-- The next fleet of a die's share. -/
def nextFleet (l : Launch) (die : Nat) : Option Nat :=
  match (shareOf l die).begun with
  | f :: _ => some f
  | [] => (firstStripe (shareOf l die).runs).map fun k => 16 * k

/-- A run without its first stripe, when that is stripe k. -/
def dropStripe (k : Nat) (rs : List Stripes) : List Stripes :=
  (rs.map fun r => if r.first = k ∧ 0 < r.count then ⟨r.first + 4, r.count - 1⟩ else r).filter
    fun r => decide (0 < r.count)

/-- The share once its next fleet is placed. -/
def tookFleet (l : Launch) (die : Nat) : Share :=
  let x := shareOf l die
  match x.begun with
  | _ :: r => { x with begun := r }
  | [] =>
    match firstStripe x.runs with
    | some k => { x with runs := dropStripe k x.runs, begun := (stripeFleets l k).drop 1 }
    | none => x

/-- A launch that has a fleet to place on a die. -/
def pendingOn (l : Launch) (die : Nat) : Bool := l.st == .running && !l.error && (nextFleet l die).isSome

/-- The launches with a fleet pending on a die, in the order of their candidates. -/
def candidateKey (l : Launch) : List Nat := [7 - l.prio, l.order]

def insertCand (e : Nat × Launch) (r : List (Nat × Launch)) : List (Nat × Launch) :=
  match r with
  | [] => [e]
  | x :: q => if lexLt (candidateKey e.2) (candidateKey x.2) then e :: x :: q else x :: insertCand e q

def pendingLaunches (s : State) (die : Nat) : List (Nat × Launch) :=
  (s.launches.filter fun e => pendingOn e.2 die).foldr insertCand []

/-- R36, R243, R342: the cores on which the next fleet of a launch may be placed now. -/
def placeableFleet (s : State) (die id : Nat) (l : Launch) : Option (List Room) :=
  if poolFull s || !capOk s die id l l.kern.fleet || !windowOk (dieOf s die) l.kern.fleet then none
  else fleetRooms s die l.kern (planRec s die l.ctx l.kern 0) []

/-! ## Where a saved block may be restored (R41, R59) -/

/-- The dies in order of preference: the own, the adjacent ones, the diagonal one (R13). -/
def dieOrder (d : Nat) : List Nat := if d = 0 ∨ d = 3 then [d, 1, 2, 3 - d] else [d, 0, 3, 3 - d]

/-- R59: the table can hold every entry of the snapshot. -/
def snapshotFits (s : State) (x : Block) (core : Nat) : Bool :=
  decide (x.snapshot.length + ((coreOf s core).moorings.filter fun e => e.2.owner.isSome).length ≤ 64)

/-- R41: a pending block of higher priority than a pre-empted block's own would fit on the core. -/
def yieldsCore (s : State) (x : Block) (core : Nat) : Bool :=
  let prio := match s.launches.find x.launch with
    | some l => l.prio
    | none => 0
  nbit x.causes 0 && (pendingLaunches s (dieOfCore core)).any fun e =>
    decide (prio < e.2.prio) && (fitsOn s core (needOf e.2.kern) []).isSome

/-- The record that the first preference of R36 compares on a restore. -/
def firstRecord (s : State) (die : Nat) (x : Block) : Option MoorRec :=
  match x.snapshot with
  | (_, r) :: _ => some r
  | [] => planRec s die (ctxOf s x) x.kern 0

/-- The room of a saved block on a core. Its stash base is the lowest that fits, as for a new block (DESIGN CHOICE,
log 76). -/
def restoreOn (s : State) (x : Block) (core : Nat) : Option Room :=
  if snapshotFits s x core && !yieldsCore s x core then
    roomOn s (needOf x.kern) (firstRecord s (dieOfCore core) x) [] core
  else none

/-- The cores of a fleet, index by index, in one cluster. -/
def restoreIn (s : State) (bs : List (Nat × Block)) (cluster : Nat) : Option (List (Nat × Room)) :=
  bs.mapM fun e => (restoreOn s e.2 (24 * cluster + e.2.core % 24)).map fun r => (e.1, r)

/-- The clusters of a die, the one occupied before first. -/
def clusterOrder (old die : Nat) : List Nat :=
  if old = 2 * die + 1 then [2 * die + 1, 2 * die] else [2 * die, 2 * die + 1]

/-- The cores on which a saved fleet is restored: the first die, and cluster, with room. -/
def restoreRooms (s : State) (bs : List (Nat × Block)) : Option (List (Nat × Room)) :=
  match bs with
  | [] => none
  | (b, x) :: r =>
    let gates (die : Nat) : Bool :=
      windowOk (dieOf s die) bs.length &&
        match s.launches.find x.launch with
        | some l => capOk s die x.launch l bs.length
        | none => false
    (dieOrder (dieOfCore x.core)).findSome? fun die =>
      if !gates die then none
      else if r.isEmpty && decide (x.kern.fleet ≤ 1) then
        (bestRoom (((List.range 48).map fun i => 48 * die + i).filterMap (restoreOn s x))).map fun q => [(b, q)]
      else (clusterOrder (clusterOf x.core) die).findSome? (restoreIn s bs)

/-- The members of a saved fleet, once every one of them is placeable. -/
def placeableMembers (s : State) (b : Nat) : Option (List (Nat × Block)) :=
  match s.blocks.find b with
  | none => none
  | some x =>
    let ms := (fleetOf s x.launch x.fleet).filterMap fun k => (s.blocks.find k).map fun y => (k, y)
    if launchLive s x.launch && ms.all (fun e => e.2.st == .saved && e.2.placeable.isSome) then some ms else none

/-- Saved blocks stand before fleets of their launch, in the order in which they became placeable. -/
def savedKey (s : State) (x : Block) : List Nat :=
  (match s.launches.find x.launch with
   | some l => candidateKey l
   | none => [8, 0]) ++ [0, x.placeable.getD 0]

def fleetKey (l : Launch) : List Nat := candidateKey l ++ [1, 0]

/-- A saved block that goes before a fleet of the launch on the die. -/
def savedBefore (s : State) (die : Nat) (l : Launch) : Bool :=
  s.blocks.any fun e =>
    e.2.st == .saved && lexLt (savedKey s e.2) (fleetKey l) &&
    match (placeableMembers s e.1).bind (restoreRooms s) with
    | some ((_, r) :: _) => dieOfCore r.core == die
    | _ => false

/-- A saved block of another fleet that goes before a saved block on the die (R36). -/
def savedFirst (s : State) (die : Nat) (x : Block) : Bool :=
  s.blocks.any fun e =>
    e.2.st == .saved && !(e.2.launch == x.launch && e.2.fleet == x.fleet) && lexLt (savedKey s e.2) (savedKey s x) &&
    match (placeableMembers s e.1).bind (restoreRooms s) with
    | some ((_, r) :: _) => dieOfCore r.core == die
    | _ => false

/-- A fleet that goes before a saved block on the die. -/
def fleetBefore (s : State) (die : Nat) (x : Block) : Bool :=
  (pendingLaunches s die).any fun e =>
    lexLt (fleetKey e.2) (savedKey s x) && (placeableFleet s die e.1 e.2).isSome

/-! ## Moorings of a core that receives a block (R51) -/

/-- Entries are dropped; the step that drops them waits until they have been written back (dropsWait). -/
def dropEntries (s : State) (core : Nat) (es : List Nat) : State := es.foldl (fun s e => releaseEntry s core e) s

/-- R51: a block of another context drops every entry of the outgoing context. -/
def changeContext (s : State) (core : Nat) (c : Ctx) : State :=
  let s1 := dropEntries s core (((coreOf s core).moorings.filter fun e => e.2.ctx != c).map (·.1))
  setCore s1 core { coreOf s1 core with ctx := some c, gated := false }

/-- R51: surviving entries that overlap the allocation stay only if identical to one of the records given. -/
def clearOverlaps (s : State) (core base n : Nat) (rs : List MoorRec) : State :=
  dropEntries s core (((coreOf s core).moorings.filter fun e =>
    e.2.owner.isNone && moorOverlap e.2 base n && !rs.any fun r => moorSame e.2 r (base + r.lbase)).map (·.1))

/-! ## A block begins (R26, R30, R62) -/

/-- The lowest free crew slots of a partition. -/
def freeSlots (bs : List Block) (p : Nat) : List Nat :=
  let used := bs.flatMap fun b => (b.crews.filter fun c => c.1 % 8 == p).map fun c => c.2.crewSlot
  (List.range Config.crewSlots).filter fun i => !used.contains i

/-- The crew slot of each crew of a block placed on a core. -/
def slotNumber (bs : List Block) (c : Nat) : Nat := (freeSlots bs (c % 8)).getD (c / 8) 0

/-- R249: the units that a block holds start anew. -/
def resetUnits (s : State) (core : Nat) (k : Kernel) : State :=
  let x := coreOf s core
  if k.tiles = 0 then s
  else setCore s core { x with units := x.units.filter fun u => crewsOn k.crews u.1 == 0 }

/-- Where a block of a launch stands in its grid. -/
structure Where where
  lin : Nat
  bx : Nat
  byIdx : Nat
  bz : Nat
  fleet : Nat
  rank : Nat
  batch : Option Batch
  deriving DecidableEq, Repr

/-- R33, R62: T begins at the clock; a launch that has waited has acquired the writes that its wait synchronised with. -/
def placedT (s : State) (launch : Nat) : Nat :=
  match s.launches.find launch with
  | some l => l.tw - s.clock
  | none => 0

/-- A block begins on a core. -/
def placeBlock (s : State) (launch : Nat) (k : Kernel) (c : Ctx) (plan : List MoorRec) (w : Where) (r : Room) : State :=
  let (b, s1) := freshId s
  let s2 := clearOverlaps (changeContext s1 r.core c) r.core r.base (k.stash + 512 * k.crews) plan
  let bs := heldOn s2 r.core []
  let crews := (List.range k.crews).map fun n =>
    (n, { beginCrew k.entry s.clock (slotNumber bs n) (k.node && n == 0) with tBase := placedT s launch })
  let blk := { beginBlock launch k w.lin r.core r.base s.clock with
    bx := w.bx, byIdx := w.byIdx, bz := w.bz, fleet := w.fleet, rank := w.rank, batch := w.batch, crews := crews }
  let s3 := resetUnits s2 r.core k
  let die := dieOfCore r.core
  setBlock (setDie s3 die { dieOf s3 die with placed := (dieOf s3 die).placed + 1 }) b blk

/-- The block index of a linear index (R25). -/
def whereOf (l : Launch) (b : Nat) : Where :=
  match l.feeds with
  | some bt => ⟨0, bt.seq, 0, 0, 0, 0, some bt⟩
  | none =>
    ⟨b, b % l.gx, b / l.gx % l.gy, b / l.gx / l.gy, b / l.kern.fleet, b % l.kern.fleet, none⟩

end Sys2Proof.Machine
end

