-- ==== Sys2Proof/Machine/Launches.lean ====
section
/-! DEFINITION. Submissions, launch records and their acceptance, the start and the completion of a grid, placement of
fleets, stealing among dies and the batches of slipways (27_host_system_rules.md R323, 03_execution_rules.md R31 to
R39). -/

namespace Sys2Proof.Machine

/-! ## Submission (R323) -/

/-- R320: page q of BAR2 is that of the function's queue interface q. -/
def notifyQi (w : NotifyWrite) : QiRef := ⟨w.port, w.off / 4096⟩

/-- The tag at packet offset 0x3C; a shorter write carries none, and the record's field is free. -/
def submissionTag (s : State) (w : NotifyWrite) : Word × State :=
  if 64 ≤ w.len then (BitVec.ofNat 32 (nfield w.data.toNat 480 32), s)
  else
    let (k, s1) := freeChoice s (2 ^ 32)
    (BitVec.ofNat 32 k, s1)

/-- The PASID of a refusal; a write without one leaves the field free. -/
def submissionPasid (s : State) (w : NotifyWrite) : Nat × State :=
  match w.pasid with
  | some p => (p, s)
  | none => freeChoice s (2 ^ 20)

/-- The reason for which a submission is refused on arrival. -/
def submissionCode (s : State) (w : NotifyWrite) : Option Nat :=
  if !nbit (qiOf s (notifyQi w)).ctl.toNat 0 then some 1
  else if w.len ≠ 64 ∨ w.off % 64 ≠ 0 then some 2
  else if w.pasid.isNone then some 3
  else if 16 ≤ (qiOf s (notifyQi w)).queue.length then some 5
  else none

def execSubmission (w : NotifyWrite) (s : State) : Host.Outcome State Fault Refusal :=
  if !portReady s w.port || decide (64 * 4096 ≤ w.off) then .next s
  else
    match submissionCode s w with
    | some k =>
      let (tag, s1) := submissionTag s w
      let (p, s2) := submissionPasid s1 w
      .next (postQref s2 (notifyQi w) tag w.off k p)
    | none =>
      let q := qiOf s (notifyQi w)
      let (n, s1) := freshId s
      .next (later (setQi s1 (notifyQi w) { q with queue := q.queue ++ [⟨w.data, w.pasid.getD 0, w.off, n⟩] })
        (.submissionDecode (notifyQi w)))

/-! ## The launch record (R31) -/

/-- The fields of a record; its own limits that R31 tables are checked with its kernel. -/
def launchOfBits (x : Nat) (c : Ctx) (badZero : Bool) : Launch :=
  { kernAddr := nfield x 0 64, args := BitVec.ofNat 64 (nfield x 64 64), gx := nfield x 128 32, gy := nfield x 160 16,
    gz := nfield x 176 16, waitIdx := nfield x 192 16, sigIdx := nfield x 208 16, prio := nfield x 224 8,
    flags := nfield x 232 8, waitVal := nfield x 256 64, sigVal := nfield x 320 64, bufs := nfield x 384 64,
    cap := nfield x 448 32, ltag := BitVec.ofNat 32 (nfield x 480 32), badRec := badZero, kern := Kernel.none, ctx := c,
    die := portDie c.qi.port, st := .offered, order := 0, startAt := 0, shares := [], retired := 0, error := false,
    tokens := 0, energy := [], feeds := none, slips := [], tw := 0, relTw := 0 }

/-- A submission that arrived earlier at an interface of the port awaits its decode: submissions of a port pass to its
distributor in arrival order. -/
def earlierWaits (s : State) (qi : QiRef) (x : Submission) : Bool :=
  s.qis.any fun e => decide (e.1 < 64) == (qi.port == .a) && e.2.queue.any fun y => decide (y.order < x.order)

def execSubmissionDecode (qi : QiRef) (s : State) : Host.Outcome State Fault Refusal :=
  let q := qiOf s qi
  match q.queue with
  | [] => .next s
  | x :: r =>
    if earlierWaits s qi x then .next (later s (.submissionDecode qi))
    else
    let c : Ctx := ⟨qi, x.pasid⟩
    let s1 := setQi s qi { q with queue := r }
    let tag := BitVec.ofNat 32 (nfield x.data.toNat 480 32)
    if !procOk s c then .next (postQref s1 qi tag x.off 4 x.pasid)
    else
      let (n, s2) := freshId s1
      let l := launchOfBits x.data.toNat c (nfield x.data.toNat 240 16 != 0)
      .next (later { s2 with launches := s2.launches.put n l } (.launchAccept (Fin.ofNat 4 l.die)))

/-! ## The kernel descriptor (R32) -/

/-- The fields of a descriptor's 128 bytes. -/
def kernelOfBits (x addr : Nat) : Kernel :=
  ⟨addr, BitVec.ofNat 64 (nfield x 0 64), nfield x 64 8, nfield x 72 8, nfield x 80 8, nfield x 88 8, nfield x 96 8,
    nbit x 104, nfield x 112 16, nfield x 192 64, nfield x 128 32, BitVec.ofNat 64 (nfield x 256 64), nfield x 320 64,
    nfield x 384 64, nfield x 448 64, nfield x 512 32⟩

/-- The limits of the descriptor's own fields. -/
def kernelOk (x : Nat) : Bool :=
  let k := kernelOfBits x 0
  k.entry.toNat % 8 == 0 && decide (1 ≤ k.crews ∧ k.crews ≤ 64) && decide (1 ≤ k.fleet ∧ k.fleet ≤ 24)
    && decide (8 ≤ k.vregs ∧ k.vregs ≤ 192) && k.vregs % 8 == 0 && decide (k.sregs ≤ 48) && decide (k.tiles ≤ 8)
    && nfield x 105 7 == 0 && decide (k.plan ≤ 64) && k.stash % 128 == 0
    && decide (k.stash + 512 * k.crews ≤ Config.stashBytes) && nfield x 160 32 == 0
    && (k.plan != 0 || k.planAddr == 0) && k.planAddr % 32 == 0 && nfield x 544 480 == 0

/-- What the flags of a launch ask of its kernel (R31, R32, R238). -/
def kernelFlagsOk (k : Kernel) (flags : Nat) : Bool :=
  (!nbit flags 2 || k.tape != 0) && (!nbit flags 3 || (k.handler != 0 && decide (128 * k.crews ≤ k.stash)))

/-- R31, R25: the limits of the record beside its kernel. -/
def recordOk (s : State) (l : Launch) (k : Kernel) : Bool :=
  let inTable (i : Nat) : Bool := i == 0xFFFF || decide (i < tlCount s l.ctx)
  !l.badRec && l.args.toNat % 8 == 0 && decide (l.prio ≤ 7) && nfield l.flags 4 4 == 0 && l.bufs % 64 == 0
    && inTable l.waitIdx && inTable l.sigIdx && kernelFlagsOk k l.flags
    && (l.gx * l.gy * l.gz) % max k.fleet 1 == 0

/-! ## Slipway tables (R39) -/

/-- What a read of acceptance comes to. -/
inductive Accepted (α : Type) where
  | ok (x : α)
  /-- CODE and ADDR of the refusal -/
  | refused (code addr : Nat)
  /-- the read is to be made again -/
  | again (e : EngErr)

/-- `n` bytes of a structure, as a number. -/
def readStruct (s : State) (die : Nat) (c : Ctx) (va n : Nat) : Accepted Nat :=
  match engRead s (distCore die) c va n with
  | .ok (bs, _) => .ok (leNat bs)
  | .error (.fault _) => .refused 2 va
  | .error e => .again e

/-- A slipway descriptor's fields. -/
def slipwayOfBits (x addr : Nat) (c : Ctx) (l : Launch) (k : Kernel) : Slipway :=
  { addr := addr, ctx := c, base := nfield x 0 64, cap := nfield x 64 32, size := nfield x 96 16, k := nfield x 112 16,
    flush := nfield x 128 32, prio := nfield x 160 8, kern := k, args := BitVec.ofNat 64 (nfield x 256 64),
    bufs := nfield x 320 64, ltag := l.ltag, port := c.qi.port, reserved := 0, written := 0, assigned := 0, freed := 0,
    gone := [], times := [], seq := 0, users := [], final := false, tws := [] }

/-- The limits of a slipway descriptor. -/
def slipwayOk (x : Nat) : Bool :=
  let cap := nfield x 64 32
  let size := nfield x 96 16
  (List.range 13).any (fun i => cap == 2 ^ (i + 4)) && [8, 16, 32, 64].contains size
    && nfield x 0 64 % (cap * size) == 0 && decide (1 ≤ nfield x 112 16 ∧ nfield x 112 16 ≤ cap)
    && decide (nfield x 160 8 ≤ 7) && nfield x 168 24 == 0 && nfield x 384 128 == 0

/-- A successor's kernel: its descriptor is in order, its NODE flag set, and one block is a whole fleet (R25). -/
def readNode (s : State) (die : Nat) (l : Launch) (addr : Nat) : Accepted Kernel :=
  if addr % 128 ≠ 0 then .refused 1 addr
  else
    match readStruct s die l.ctx addr 128 with
    | .refused c a => .refused c a
    | .again e => .again e
    | .ok x =>
      let k := kernelOfBits x addr
      if kernelOk x && k.node && k.fleet == 1 && kernelFlagsOk k l.flags then .ok k else .refused 1 addr

/-- Entry i of a kernel's table, and those that follow. A refusal names the kernel at fault. -/
def readSlips (s : State) (die : Nat) (l : Launch) (kern table i n : Nat) : Accepted (List Slipway) :=
  match n with
  | 0 => .ok []
  | m + 1 =>
    let va := (table + 8 + 64 * i) % 2 ^ 64
    match readStruct s die l.ctx va 64 with
    | .refused c a => .refused c a
    | .again e => .again e
    | .ok x =>
      if !slipwayOk x then .refused 1 kern
      else
        match readNode s die l (nfield x 192 64) with
        | .refused c a => .refused c a
        | .again e => .again e
        | .ok k =>
          match readSlips s die l kern table (i + 1) m with
          | .ok ws => .ok (slipwayOfBits x va l.ctx l k :: ws)
          | .refused c a => .refused c a
          | .again e => .again e

/-- The slipways that a kernel's table names. -/
def readTable (s : State) (die : Nat) (l : Launch) (k : Kernel) : Accepted (List Slipway) :=
  if k.slips = 0 then .ok []
  else
    match readStruct s die l.ctx k.slips 8 with
    | .refused c a => .refused c a
    | .again e => .again e
    | .ok x =>
      if nfield x 8 56 ≠ 0 ∨ nfield x 0 8 = 0 ∨ 16 < nfield x 0 8 then .refused 1 k.addr
      else readSlips s die l k.addr k.slips 0 (nfield x 0 8)

/-- The slipways of a kernel and of the kernels they feed: a graph node is refused with its parent. -/
def readGraph (s : State) (die : Nat) (l : Launch) (fuel : Nat) (ks : List Kernel) (seen : List Nat)
    (ws : List Slipway) : Accepted (List Slipway) :=
  match fuel, ks with
  | f + 1, k :: r =>
    if seen.contains k.addr then readGraph s die l f r seen ws
    else
      (match readTable s die l k with
       | .refused c a => .refused c a
       | .again e => .again e
       | .ok new => readGraph s die l f (r ++ new.map fun w => w.kern) (k.addr :: seen) (ws ++ new))
  | _, _ => .ok ws

/-- Kernels of one graph that an acceptance reads. -/
def graphFuel : Nat := 4096

/-! ## Acceptance -/

/-- R31: the record of a refused launch. -/
def refuseLaunch (s : State) (id : Nat) (l : Launch) (code addr : Nat) : State :=
  postRec { s with launches := s.launches.drop id } (portDie l.ctx.qi.port)
    (eventRec .launchref (portAgent l.ctx.qi.port) l.ltag (BitVec.ofNat 64 addr) code l.ctx.pasid)

/-- The slipway that a context keeps for a descriptor. -/
def slipwayAt (s : State) (c : Ctx) (addr : Nat) : Option Nat :=
  (s.slipways.find? fun e => e.2.ctx == c && e.2.addr == addr).map (·.1)

/-- Names a launch among a slipway's users; its state is created when no launch of the context names it yet. -/
def useSlipway (launch : Nat) (s : State) (w : Slipway) : State :=
  match slipwayAt s w.ctx w.addr with
  | some i =>
    { s with slipways := s.slipways.map fun e =>
        if e.1 = i ∧ e.2.users.contains launch = false then (e.1, { e.2 with users := e.2.users ++ [launch] }) else e }
  | none =>
    let (n, s1) := freshId s
    { s1 with slipways := s1.slipways.put n { w with users := [launch] } }

/-- The slipways of a kernel's table, entry by entry. -/
def tableSlips (s : State) (c : Ctx) (k : Kernel) : List Nat :=
  if k.slips = 0 then []
  else ((List.range 16).map fun i => slipwayAt s c ((k.slips + 8 + 64 * i) % 2 ^ 64)).takeWhile (·.isSome)
    |>.filterMap id

/-- R35: stripe s belongs to die s mod 4. -/
def firstShares (l : Launch) : Table Share :=
  let n := (fleetCount l + 15) / 16
  (List.range 4).map fun d => (d, ⟨[⟨d, (n + 3 - d) / 4⟩], [], 0, [], false⟩)

/-- The launch begins: its blocks may be placed (R33), `FENCE.ro` and `LDRO` count from here (R61). -/
def beginLaunch (s : State) (id : Nat) : State :=
  let (n, s1) := freshId s
  let s2 := updLaunch s1 id fun l => { l with st := .running, startAt := n }
  later ((List.range 4).foldl (fun s d => laterOnce s (.blockPlace (Fin.ofNat 4 d))) s2) (.launchStart id)

/-- An accepted launch takes its place in order. -/
def acceptLaunch (s : State) (id : Nat) (l : Launch) (k : Kernel) (ws : List Slipway) : State :=
  let (n, s1) := freshId s
  let s2 := ws.foldl (useSlipway id) s1
  let l1 := { l with kern := k, order := n, st := .waiting, slips := tableSlips s2 l.ctx k }
  let s3 := { s2 with launches := s2.launches.put id { l1 with shares := firstShares l1 } }
  if l.waitIdx = 0xFFFF then beginLaunch s3 id else later s3 (.launchStart id)

/-- What the acceptance of a launch comes to. -/
def checkLaunch (s : State) (die : Nat) (l : Launch) : Accepted (Kernel × List Slipway) :=
  if l.kernAddr % 128 ≠ 0 then .refused 1 l.kernAddr
  else
    match readStruct s die l.ctx l.kernAddr 128 with
    | .refused c a => .refused c a
    | .again e => .again e
    | .ok x =>
      let k := kernelOfBits x l.kernAddr
      if !kernelOk x || !recordOk s l k then .refused 1 l.kernAddr
      else
        match readGraph s die l graphFuel [k] [] [] with
        | .ok ws => .ok (k, ws)
        | .refused c a => .refused c a
        | .again e => .again e

/-- The launch that a distributor accepts next. -/
def offered (s : State) (die : Nat) : Option (Nat × Launch) :=
  s.launches.find? fun e => e.2.st == .offered && e.2.die == die

def execLaunchAccept (die : Fin 4) (s : State) : Host.Outcome State Fault Refusal :=
  match offered s die.val with
  | none => .next s
  | some (id, l) =>
    match checkLaunch s die.val l with
    | .ok (k, ws) => .next (acceptLaunch s id l k ws)
    | .refused c a => .next (refuseLaunch s id l c a)
    | .again e => .next (later (engAgain s die.val e) (.launchAccept die))

/-! ## Start and completion (R33, R34) -/

/-- R33: the wait's timeline holds at least the wait value. -/
def startReady (s : State) (l : Launch) : Bool :=
  l.waitIdx == 0xFFFF || (tlEntryOk s l.ctx l.waitIdx && decide (l.waitVal ≤ tlValue s l.ctx l.waitIdx))

/-- R33: the successful comparison is an acquire at device scope. -/
def acquireWait (s : State) (id : Nat) (l : Launch) : State :=
  if l.waitIdx = 0xFFFF then s
  else
    updLaunch s id fun x => { x with tw := synced .device .dev (marksAt s [tlKey s l.ctx l.waitIdx]) }

/-- Blocks of the launch that have neither retired nor been discarded. -/
def liveBlocks (s : State) (id : Nat) : Nat := (blocksOfLaunch s id).length

/-- Every block of the grid has retired, or the ended grid has none left. -/
def gridOver (s : State) (id : Nat) (l : Launch) : Bool :=
  l.st == .running && liveBlocks s id == 0 && (l.error || decide (gridBlocks l ≤ l.retired))

/-- The slipways that the kernel of a slipway names. -/
def slipsBelow (s : State) (w : Slipway) : List Nat := tableSlips s w.ctx w.kern

/-- The slipways that the records of `i` lead to. -/
def slipReach (s : State) (fuel : Nat) (todo seen : List Nat) : List Nat :=
  match fuel, todo with
  | f + 1, i :: r =>
    if seen.contains i then slipReach s f r seen
    else
      (match s.slipways.find i with
       | some w => slipReach s f (r ++ slipsBelow s w) (i :: seen)
       | none => slipReach s f r (i :: seen))
  | _, _ => seen

/-- A launch that names the slipway, or a successor block it fed, has not completed, or a batch of it is to come. -/
def slipLive (s : State) (i : Nat) (w : Slipway) : Bool :=
  w.users.any (fun u =>
    match s.launches.find u with
    | some l => l.st != .done
    | none => false)
    || decide (w.assigned < w.written)
    || s.launches.any fun l => l.2.st != .done && (l.2.slips.contains i ||
        match l.2.feeds with
        | some b => b.slipway == i
        | none => false)

/-- A slipway is forgotten when every launch that names it, and every successor it fed, has completed (R39), and no
slipway above it will launch a block that names it. -/
def forgetSlipways (s : State) : State :=
  { s with slipways := s.slipways.filter fun e =>
      s.slipways.any fun p => slipLive s p.1 p.2 && (slipReach s 4096 [p.1] []).contains e.1 }

/-- Each slipway that the launch may have fed looks for its final batch (R39). -/
def wakeSlipways (s : State) : State := s.slipways.foldl (fun s e => laterOnce s (.slipwayBatchLaunch e.1)) s

/-- The grid is complete. -/
def doneLaunch (s : State) (id : Nat) : State :=
  wakeSlipways (forgetSlipways (updLaunch s id fun l => { l with st := .done }))

/-- A signal timeline under poison is not raised: an event record reports it (DESIGN CHOICE, log 80). -/
def signalPoisoned (s : State) (l : Launch) (pa : Nat) : State :=
  postRec s (homeDie pa) (eventRec .poison (194 + homeDie pa) l.ltag (BitVec.ofNat 64 pa) 0 l.ctx.pasid)

/-- The signal of a completed grid is a request of the quay island of the launch's die, with its reply (R78, R337). -/
def signalSent (s : State) (id : Nat) (l : Launch) : State :=
  exchange s l.die (homeDie (tlAddr s l.ctx l.sigIdx)) (some id)

/-- The grid has completed: its release at device scope, then its signal (R33). -/
def completeGrid (s : State) (id : Nat) (l : Launch) : State :=
  if l.sigIdx = 0xFFFF then doneLaunch s id
  else if !agentSlot s (islandAgent l.die) l.die (tlAddr s l.ctx l.sigIdx) then 
    later (refused s (islandAgent l.die) l.die (sliceOf (tlAddr s l.ctx l.sigIdx))) (.launchStart id)
  else
    match raiseTl s l.ctx l.sigIdx l.sigVal l.error (max s.clock l.relTw) .device .dev with
    | .done _ s1 => doneLaunch (signalSent s1 id l) id
    | .poison pa => doneLaunch (signalPoisoned s l pa) id
    | .slots k => later (refused s (256 + sliceOf (tlAddr s l.ctx l.sigIdx)) (homeDie (tlAddr s l.ctx l.sigIdx)) k) (.launchStart id)
    | .wait g => later (heldBy s g true) (.launchStart id)

def execLaunchStart (launch : Nat) (s : State) : Host.Outcome State Fault Refusal :=
  match s.launches.find launch with
  | none => .next s
  | some l =>
    if l.st = .waiting then
      .next (if startReady s l then beginLaunch (acquireWait s launch l) launch else later s (.launchStart launch))
    else if gridOver s launch l then .next (completeGrid s launch l)
    else .next s

/-! ## Placement (R35, R36) -/

/-- The first candidate fleet of a die that may be placed. -/
def placeCandidate (s : State) (die : Nat) : Option (Nat × Launch × List Room) :=
  (pendingLaunches s die).findSome? fun e => (placeableFleet s die e.1 e.2).map fun rs => (e.1, e.2, rs)

/-- All F blocks of a fleet begin together. -/
def placeFleet (s : State) (die id : Nat) (l : Launch) (plan : List MoorRec) (rs : List Room) : State :=
  match nextFleet l die with
  | none => s
  | some f =>
    let s1 := updLaunch s id fun l => { l with shares := l.shares.put die (tookFleet l die) }
    rs.zipIdx.foldl (fun s p => placeBlock s id l.kern l.ctx plan (whereOf l (f * l.kern.fleet + p.2)) p.1) s1

/-! ## Stealing (R37) -/

/-- R37: no unlaunched stripe, and a cluster with F cores that would each take a block. -/
def isDry (s : State) (die : Nat) (l : Launch) : Bool :=
  l.st == .running && !l.error && l.feeds.isNone && (nextFleet l die).isNone &&
    [2 * die, 2 * die + 1].any fun c => decide (l.kern.fleet ≤ (roomsOf s (needOf l.kern) none [] c).length)

/-- Steal requests of a die to another that await their answer (R79). -/
def unanswered (s : State) (thief victim : Nat) : Nat :=
  (s.launches.filter fun e => !(shareOf e.2 thief).unasked && (shareOf e.2 thief).asking.head? == some victim).length

def setShare (s : State) (id die : Nat) (x : Share) : State :=
  updLaunch s id fun l => { l with shares := l.shares.put die x }

/-- The dies from and to which a message travels: a thief's question to the one that it asks, and that one's answer. -/
def ctrlRoute (s : State) (m : CtrlMsg) : Nat × Nat :=
  let asked (t l : Nat) : Nat :=
    match s.launches.find l with
    | some x => (shareOf x t).asking.headD t
    | none => t
  match m with
  | .stealq t v _ => (t, v)
  | .stealg t l _ => (asked t l, t)
  | .stealn t l => (asked t l, t)

/-- A control message sets out. -/
def sendCtrl (s : State) (m : CtrlMsg) : State :=
  let (n, s1) := freshId (drawPacket s (ctrlRoute s m).1 (ctrlRoute s m).2 1 none)
  later { s1 with ctrl := s1.ctrl.put n m } (.controlMessage n)

/-- The dies that a thief asks, in order. -/
def askOrder (d : Nat) : List Nat := (dieOrder d).drop 1

/-- A dry die asks the first of some dies, or waits while two of its requests to that die are unanswered (R79). -/
def askDies (s : State) (thief id : Nat) (x : Share) (ds : List Nat) : State :=
  match ds with
  | [] => setShare s id thief { x with asking := [], unasked := false }
  | v :: _ =>
    if 2 ≤ unanswered (setShare s id thief { x with asking := [], unasked := false }) thief v then
      setShare s id thief { x with asking := ds, unasked := true }
    else sendCtrl (setShare s id thief { x with asking := ds, unasked := false }) (.stealq thief v id)

/-- A dry die that is not asking begins its sequence, unless it has been refused three times; one that could not ask tries
again. -/
def beginSteal (die : Nat) (s : State) (e : Nat × Launch) : State :=
  let x := shareOf e.2 die
  if x.unasked then askDies s die e.1 x x.asking
  else if x.asking ≠ [] ∨ 3 ≤ x.refusals ∨ !isDry s die e.2 then s
  else askDies s die e.1 x (askOrder die)

/-- A die still has something to do for some grid: a fleet to place, or stripes that may be granted to it. -/
def moreToPlace (s : State) (die : Nat) : Bool :=
  s.launches.any fun e => e.2.st == .running && !e.2.error &&
    ((nextFleet e.2 die).isSome || (shareOf e.2 die).unasked || (e.2.feeds.isNone && decide ((shareOf e.2 die).refusals < 3) &&
      (List.range 4).any fun d => (firstStripe (shareOf e.2 d).runs).isSome))

def execBlockPlace (die : Fin 4) (s : State) : Host.Outcome State Fault Refusal :=
  let again (s : State) : State := if moreToPlace s die.val then laterOnce s (.blockPlace die) else s
  match placeCandidate s die.val with
  | some (id, l, rs) =>
    if savedBefore s die.val l then .next (again s)
    else
      (match planOf s die.val l.ctx l.kern with
       | .error e => .next (again (engAgain s die.val e))
       | .ok plan =>
         let t := placeFleet s die.val id l plan rs
         .next (again ((dropsWait s t (rs.map (·.core))).getD t)))
  | none =>
    let s1 := s.launches.foldl (beginSteal die.val) s
    .next (again (laterOnce s1 (.preempt die)))

/-- The message of a kind on its way for a thief and a grid. -/
def stealMsg (s : State) (p : CtrlMsg → Bool) : Option (Nat × CtrlMsg) := s.ctrl.find? fun e => p e.2

def isStealq (thief launch : Nat) (m : CtrlMsg) : Bool :=
  match m with
  | .stealq t _ l => t == thief && l == launch
  | _ => false

def isStealg (thief launch : Nat) (m : CtrlMsg) : Bool :=
  match m with
  | .stealg t l _ => t == thief && l == launch
  | _ => false

def isStealn (thief launch : Nat) (m : CtrlMsg) : Bool :=
  match m with
  | .stealn t l => t == thief && l == launch
  | _ => false

/-- Stripes of a run at and above stripe t. -/
def runAbove (t : Nat) (r : Stripes) : Stripes :=
  let below := min r.count ((t + 3 - r.first) / 4)
  ⟨r.first + 4 * below, r.count - below⟩

def runBelow (t : Nat) (r : Stripes) : Stripes := ⟨r.first, min r.count ((t + 3 - r.first) / 4)⟩

def stripeCount (rs : List Stripes) : Nat := (rs.map fun r => r.count).sum

/-- The greatest stripe number t at and above which at least k stripes stand. -/
def cutAt (rs : List Stripes) (k fuel lo hi : Nat) : Nat :=
  match fuel with
  | 0 => lo
  | n + 1 =>
    if hi ≤ lo + 1 then lo
    else
      let mid := (lo + hi) / 2
      if k ≤ stripeCount (rs.map (runAbove mid)) then cutAt rs k n mid hi else cutAt rs k n lo mid

/-- The victim's answer: the highest-numbered half of its unlaunched stripes, or nothing. -/
def execStealq (thief : Fin 4) (launch : Nat) (s : State) : Host.Outcome State Fault Refusal :=
  match stealMsg s (isStealq thief.val launch), s.launches.find launch with
  | some (n, .stealq _ victim _), some l =>
    let s1 := { s with ctrl := s.ctrl.drop n }
    let x := shareOf l victim
    let k := stripeCount x.runs / 2
    if k = 0 then .next (sendCtrl s1 (.stealn thief.val launch))
    else
      let t := cutAt x.runs k 70 0 (2 ^ 66)
      let keep := (x.runs.map (runBelow t)).filter fun r => decide (0 < r.count)
      let give := (x.runs.map (runAbove t)).filter fun r => decide (0 < r.count)
      .next (sendCtrl (setShare s1 launch victim { x with runs := keep }) (.stealg thief.val launch give))
  | some (n, _), _ => .next { s with ctrl := s.ctrl.drop n }
  | none, _ => .next s

def execStealg (thief : Fin 4) (launch : Nat) (s : State) : Host.Outcome State Fault Refusal :=
  match stealMsg s (isStealg thief.val launch), s.launches.find launch with
  | some (n, .stealg _ _ give), some l =>
    let x := shareOf l thief.val
    let s1 := setShare { s with ctrl := s.ctrl.drop n } launch thief.val { x with runs := x.runs ++ give, asking := [] }
    .next (laterOnce s1 (.blockPlace thief))
  | some (n, _), _ => .next { s with ctrl := s.ctrl.drop n }
  | none, _ => .next s

def execStealn (thief : Fin 4) (launch : Nat) (s : State) : Host.Outcome State Fault Refusal :=
  match stealMsg s (isStealn thief.val launch), s.launches.find launch with
  | some (n, _), some l =>
    let x := shareOf l thief.val
    let x1 := { x with refusals := x.refusals + 1 }
    let s1 := { s with ctrl := s.ctrl.drop n }
    .next (laterOnce (askDies s1 thief.val launch x1 (if 3 ≤ x1.refusals then [] else x.asking.drop 1)) (.blockPlace thief))
  | some (n, _), none => .next { s with ctrl := s.ctrl.drop n }
  | none, _ => .next s

/-- R79: a control message is sunk at once, and acted on. Over a link that has failed none arrives (R332). -/
def execControlMessage (id : Nat) (s : State) : Host.Outcome State Fault Refusal :=
  if (s.ctrl.find id).any fun m => cutOff s (ctrlRoute s m).1 (ctrlRoute s m).2 then .next (later s (.controlMessage id))
  else
  match s.ctrl.find id with
  | none => .next s
  | some (.stealq t _ l) => .next (later s (.stealq (Fin.ofNat 4 t) l))
  | some (.stealg t l _) => .next (later s (.stealg (Fin.ofNat 4 t) l))
  | some (.stealn t l) => .next (later s (.stealn (Fin.ofNat 4 t) l))

/-! ## Batches (R39, R218) -/

/-- A launch whose kernel names slipway `i` may still emit into it. -/
def emits (s : State) (i : Nat) : Bool :=
  s.launches.any fun e => e.2.st != .done && e.2.slips.contains i &&
    (e.2.st != .running || !gridOver s e.1 e.2)

/-- R39: every emitter block has retired, and no successor that would emit is to come from above. -/
def emittersGone (s : State) (i : Nat) : Bool :=
  let up := (s.slipways.map (·.1)).filter fun j =>
    !(slipReach s 4096 [i] []).contains j && (slipReach s 4096 [j] []).contains i
  (i :: up).all (fun j => !emits s j) &&
    up.all fun j =>
      match s.slipways.find j with
      | some w => decide (w.written ≤ w.assigned)
      | none => true

/-- The flush time of the oldest unconsumed record has passed. -/
def flushDue (s : State) (w : Slipway) : Bool :=
  match w.times with
  | t :: _ => w.flush != 0 && decide (t + w.flush ≤ s.clock)
  | [] => false

/-- The die that keeps a slipway's state: the home of its ring base (R217). -/
def slipDie (s : State) (w : Slipway) : Nat :=
  match xlate s (distCore 0) w.ctx w.base with
  | .ok t => homeDie (tlbPa t w.base)
  | .error _ => 0

/-- A successor block's launch: up to K records, oldest first. -/
def launchBatch (s : State) (i : Nat) (w : Slipway) : State :=
  let n := min w.k (w.written - w.assigned)
  let bt : Batch := ⟨i, w.assigned, n, 0, 0, false, w.seq⟩
  let (id, s1) := freshId s
  let (o, s2) := freshId s1
  let root := (w.users.filterMap fun u => s.launches.find u).head?
  let flags := match root with
    | some l => l.flags
    | none => 0
  let l : Launch :=
    { kernAddr := w.kern.addr, args := w.args, gx := 1, gy := 1, gz := 1, waitIdx := 0xFFFF, sigIdx := 0xFFFF,
      prio := w.prio, flags := flags, waitVal := 0, sigVal := 0, bufs := w.bufs, cap := 0, ltag := w.ltag,
      badRec := false, kern := w.kern, ctx := w.ctx, die := slipDie s w, st := .waiting, order := o, startAt := 0,
      shares := [(slipDie s w, ⟨[], [0], 0, [], false⟩)], retired := 0, error := false, tokens := 0, energy := [],
      feeds := some bt, slips := slipsBelow s w, tw := 0, relTw := 0 }
  let w1 := { w with assigned := w.assigned + n, times := w.times.drop n, seq := w.seq + 1 }
  beginLaunch { s2 with launches := s2.launches.put id l, slipways := s2.slipways.put i w1 } id

/-- Unconsumed records. -/
def unconsumed (w : Slipway) : Nat := w.written - w.assigned

def execSlipwayBatchLaunch (i : Nat) (s : State) : Host.Outcome State Fault Refusal :=
  match s.slipways.find i with
  | none => .next s
  | some w =>
    if w.k ≤ unconsumed w ∨ (0 < unconsumed w ∧ emittersGone s i = true) then
      .next (laterOnce (launchBatch s i w) (.slipwayBatchLaunch i))
    else .next (forgetSlipways s)

def execSlipwayFlush (i : Nat) (s : State) : Host.Outcome State Fault Refusal :=
  match s.slipways.find i with
  | none => .next s
  | some w =>
    if unconsumed w = 0 then .next s
    else if flushDue s w then .next (laterOnce (launchBatch s i w) (.slipwayFlush i))
    else .next (laterOnce s (.slipwayFlush i))

/-! ## Retirement (R30, R219) -/

/-- Every crew of the block has retired. -/
def crewsDone (x : Block) : Bool := x.crews.all fun e => crewDone e.2

/-- Stores of the block that no home has acknowledged; a faulted store of an ended grid is not waited for. -/
def storesOut (s : State) (b : Nat) (ended : Bool) : Bool :=
  s.reqs.any fun e => e.2.blk == b && !(ended && e.2.st == .faulted)

/-- A fault of a store that has no record yet (R231). -/
def faultUntold (s : State) (b : Nat) : Bool := s.reqs.any fun e => e.2.blk == b && e.2.st == .faulted && !e.2.told

/-- Matrix instructions of the block in some queue. -/
def matrixOut (s : State) (core b : Nat) : Bool :=
  (coreOf s core).units.any fun u => u.2.queue.any fun e => e.blk == b

/-- Records of the block still staged. -/
def tapeOut (x : Block) : Bool := x.crews.any fun e => !e.2.tape.staged.isEmpty

/-- A round of an armature of the block's fleet is in flight (R215). -/
def roundOut (s : State) (x : Block) : Bool :=
  s.arms.any fun a => a.launch == x.launch && a.fleet == x.fleet && armBusy s a

/-- A round that the block has contributed to has not ended at the root (R30). -/
def ownRoundOut (s : State) (x : Block) : Bool :=
  s.arms.any fun a => a.launch == x.launch && a.fleet == x.fleet && decide ((nodeOf a a.root).round < x.rounds.getD a.id 0)

/-- Capsule messages of the block other than its park notices, and closes that are not acknowledged. -/
def capsOut (s : State) (b : Nat) : Bool :=
  (s.capMsgs.any fun e => e.2.blk == b &&
    match e.2.kind with
    | .park => false
    | _ => true) ||
  s.capHomes.any fun e =>
    match e.2.closing with
    | some x => x.1 == b
    | none => false

/-- A copy or a message of the block is in flight. -/
def engineOut (s : State) (b : Nat) : Bool :=
  (s.copies.any fun e => e.2.blk == b) || s.msgs.any fun e => e.2.blk == b

/-- R30: the block has nothing left to wait for. -/
def mayRetire (s : State) (b : Nat) (x : Block) : Bool :=
  if !launchLive s x.launch then
    holdsCore x && !storesOut s b true && !faultUntold s b && !matrixOut s x.core b
  else
    x.st == .running && crewsDone x && !storesOut s b false && !engineOut s b && !matrixOut s x.core b && !tapeOut x
      && !ownRoundOut s x && !capsOut s b

/-- R54: the entries of a block with WBP, which are written back before it retires. -/
def wbpEntries (s : State) (b core : Nat) : List Nat :=
  ((coreOf s core).moorings.filter fun e => e.2.owner == some b && moorWbp e.2.mrec).map (·.1)

/-- R54: the entries of a retired block become surviving. -/
def releaseMoorings (s : State) (b core : Nat) : State :=
  let c := coreOf s core
  setCore s core { c with
    moorings := c.moorings.map fun e => if e.2.owner = some b then (e.1, { e.2 with owner := none }) else e }

/-- R239: the surviving entries that a saved block has left on its core are written back and dropped. -/
def dropSnapshot (s : State) (x : Block) : State :=
  dropEntries s x.core (((coreOf s x.core).moorings.filter fun e =>
    e.2.owner.isNone && x.snapshot.any fun r => moorSame e.2 r.2 (x.base + r.2.lbase)).map (·.1))

/-- R239: a saved block of an ended grid is discarded, and its image's slot is free. What its copies have left to land is
never written: their sectors were to be tried again on its restore (R235). -/
def discardSaved (s : State) (b : Nat) (x : Block) : State :=
  let s1 := setBlock (dropSnapshot s x) b { x with st := .retired, image := none }
  { s1 with
    reqs := s1.reqs.filter fun e => e.2.blk != b
    copies := s1.copies.filter fun e => e.2.blk != b
    regs := { s1.regs with
      poolUsed := match x.image with
        | some i => s1.regs.poolUsed.filter (· != i)
        | none => s1.regs.poolUsed } }

/-- What the crews of a block, and their engines, have written by: the greatest T and write time (R33). -/
def blockTw (s : State) (x : Block) : Nat :=
  x.crews.foldl (fun t e =>
    let ts := e.2.copies.tws ++ e.2.batches.tws ++ e.2.tape.tl.tws
    ts.foldl (fun a p => max a p.2) (max t (crewT s e.2))) 0

/-- The rest of a batch is freed when its block retires (R219). -/
def releaseBatch (s : State) (x : Block) : State :=
  match x.batch with
  | none => s
  | some bt => freeRecords s bt bt.freed bt.n

/-- Distributors look again when resources free (R36). -/
def wakeDies (s : State) : State := (List.range 4).foldl (fun s d => laterOnce s (.blockPlace (Fin.ofNat 4 d))) s

/-- The block retires and releases what it holds. -/
def retireBlock (s : State) (b : Nat) (x : Block) : State :=
  let s1 := releaseBatch (releaseMoorings s b x.core) x
  let s2 := setBlock s1 b { x with st := .retired, halting := none }
  let s3 := { s2 with reqs := s2.reqs.filter fun e => !(e.2.blk == b && e.2.st == .faulted) }
  later (wakeSlipways (wakeDies (updLaunch s3 x.launch fun l =>
    { l with retired := l.retired + 1, relTw := max l.relTw (blockTw s x) })))
    (.launchStart x.launch)

def execBlockRetire (b : Nat) (s : State) : Host.Outcome State Fault Refusal :=
  match s.blocks.find b with
  | none => .next s
  | some x =>
    if !launchLive s x.launch ∧ x.st = .saved then
      let t := wakeDies (later (discardSaved s b x) (.launchStart x.launch))
      .next (((dropsWait s t [x.core]).map fun s1 => later s1 (.blockRetire b)).getD t)
    else if mayRetire s b x then
      let es := wbpEntries s b x.core
      if es.any (unflushed s x.core) then .next (later (flushEntries s x.core es) (.blockRetire b))
      else .next (retireBlock s b x)
    else if !launchLive s x.launch ∧ x.st ≠ .retired then .next (later s (.blockRetire b))
    else .next s

end Sys2Proof.Machine
end

