-- ==== Sys2Proof/Machine/MatrixSums.lean ====
section
/-! DEFINITION. The arithmetic of the matrix unit: the weights of a plane, the sum paths of a pass and the epilogue of
a store (21_instr_matrix.md R250, R262, R264; 09_numbers_rules.md R111, R119). -/

namespace Sys2Proof.Machine

/-! ## Shapes (R250) -/

/-- Bytes of a plane row. -/
def planeRow (w : WFmt) : Nat :=
  match w with
  | .bf16 => 128
  | .e4m3 | .e5m2 => 64
  | .i4 | .e2m1 | .lut4 => 32

def planeRows (w : WFmt) : Nat := if wf4bit w then 128 else 64

/-- Bytes of an activation row. -/
def actBytes (a : AFmt) : Nat := if a = .bf16 then 128 else 64

/-- Elements of an activation row. -/
def actLen (a : AFmt) : Nat := if af4bit a then 128 else 64

/-- The combinations that a pass may be. -/
def passLegal (w : WFmt) (a : AFmt) (kh : Bool) : Bool :=
  match w with
  | .e4m3 | .e5m2 => (a == .e4m3 || a == .e5m2) && !kh
  | .bf16 => a == .bf16 && !kh
  | .i4 | .e2m1 | .lut4 => !(kh && af4bit a)

/-- BF16 on either side sums in windows of 8. -/
def windowPath (a : AFmt) : Bool := a == .bf16

def actFmt (a : AFmt) : Fmt :=
  match a with
  | .e4m3 => .e4m3
  | .e5m2 => .e5m2
  | .bf16 => .bf16
  | .i4 => .i4
  | .e2m1 => .e2m1

/-- Element e of packed bytes. -/
def byteElem (bits : Nat) (f : Nat → Byte) (e : Nat) : Nat :=
  if bits = 4 then element 4 (e % 2) (f (e / 2)).toNat
  else if bits = 8 then (f e).toNat
  else (f (2 * e)).toNat + 256 * (f (2 * e + 1)).toNat

/-- Weight (k, j) of a plane. -/
def weightAt (p : Plane) (k j : Nat) : FV :=
  let f := fun i => p.data.getD (planeRow p.wf * k + i) 0
  match p.wf with
  | .e4m3 => valueIn .e4m3 (byteElem 8 f j)
  | .e5m2 => valueIn .e5m2 (byteElem 8 f j)
  | .bf16 => valueIn .bf16 (byteElem 16 f j)
  | .i4 => valueIn .i4 (byteElem 4 f j)
  | .e2m1 => valueIn .e2m1 (byteElem 4 f j)
  | .lut4 => valueIn .bf16 (p.codebook.getD (byteElem 4 f j) 0).toNat

/-- Element k of an activation row. -/
def actAt (a : AFmt) (bs : List Byte) (k : Nat) : FV :=
  valueIn (actFmt a) (byteElem (fmtBits (actFmt a)) (fun i => bs.getD i 0) k)

/-! ## Sum paths (R119) -/

/-- The exact sum rounded once, then added to the accumulator with one rounding. -/
def chunkSum (acc : Nat) (ps : List (FV × FV)) : Nat := (fpBin ffF32 .add acc (fpSum ffF32 ps []).1).1

/-- The exponent of the leading bit of a term. -/
def termExp (v : FV) : Option Int :=
  match v with
  | .fin _ m e => if m = 0 then none else some ((Nat.log2 m : Int) + e)
  | _ => none

def maxExp (ts : List FV) : Option Int :=
  ts.foldl (fun a v =>
    match a, termExp v with
    | none, x => x
    | some k, some j => some (max k j)
    | some k, none => some k) none

/-- A term truncated toward zero to a window that ends at weight 2^q, and whether a bit was dropped. -/
def truncTerm (q : Int) (v : FV) : Int × Bool :=
  match v with
  | .fin n m e =>
    let k : Nat := if q ≤ e then m * 2 ^ (e - q).toNat else m / 2 ^ (q - e).toNat
    let dropped := decide (e < q) && decide (m % 2 ^ (q - e).toNat ≠ 0)
    (if n then -(k : Int) else k, dropped)
  | _ => (0, false)

/-- Finite terms summed in a 48-bit window and rounded once, a dropped bit counting as one below the window. -/
def windowFin (ts : List FV) : Nat :=
  match maxExp ts with
  | none => signPat ffF32 (allNegZero ts) 0
  | some e =>
    let q := e - 43
    let rs := ts.map (truncTerm q)
    let w : Int := rs.foldl (fun a r => a + r.1) 0
    let sticky := rs.any fun r => r.2
    if w = 0 then signPat ffF32 (allNegZero ts) 0
    else (roundArith ffF32 (decide (w < 0)) (w.natAbs * 2 ^ 30 + if sticky then 1 else 0) 1 (q - 30)).1

/-- Eight products and the accumulator; special values follow the exact sum. -/
def windowSum (acc : Nat) (ps : List (FV × FV)) : Nat :=
  let a := fvOf ffF32 acc
  let special := (ps.any fun p => isNanV p.1 || isNanV p.2 || isInfV p.1 || isInfV p.2) || isNanV a || isInfV a
  if special then (fpSum ffF32 ps [a]).1 else windowFin ((ps.filterMap fun p => mulV p.1 p.2) ++ [a])

/-- The new accumulator value of one column: chunks of 64 or 128 products, or groups of 8, in increasing K. -/
def sumPath (a : AFmt) (acc : Nat) (ps : List (FV × FV)) : Nat :=
  let n := if windowPath a then 8 else actLen a
  (List.range (actLen a / n)).foldl (fun acc g =>
    let qs := (ps.drop (n * g)).take n
    if windowPath a then windowSum acc qs else chunkSum acc qs) acc

/-- The row sum after a pass with ZPM. -/
def rowSum (a : AFmt) (asum : Nat) (xs : List FV) : Nat :=
  let n := actLen a
  (List.range (xs.length / n)).foldl (fun r g =>
    (fpBin ffF32 .add r (fpSum ffF32 [] ((xs.drop (n * g)).take n)).1).1) asum

/-- Column j of a row after a pass over an activation row. -/
def passColumn (p : Plane) (a : AFmt) (kh : Bool) (bs : List Byte) (acc j : Nat) : Nat :=
  let kb := if kh then 64 else 0
  sumPath a acc ((List.range (actLen a)).map fun k => (actAt a bs k, weightAt p (kb + k) j))

/-! ## The epilogue of `MST` (R264) -/

/-- The product of two terms of the epilogue: 0 × ∞ is NaN with INV. -/
def timesV (x y : FV) : FV × FlagSet :=
  match mulV x y with
  | some v => (v, flagNone)
  | none => (.nan, flagInv)

/-- The value of an element before it is narrowed. A NaN among the terms used gives NaN; 0 × ∞ and ∞ − ∞ give NaN with
INV. -/
def epilogueV (acc asum scale zp : Nat) (sc zpe : Bool) : FV × FlagSet :=
  let used := [fvOf ffF32 acc] ++ (if zpe then [fvOf ffF32 zp, fvOf ffF32 asum] else [])
    ++ (if sc then [fvOf ffF32 scale] else [])
  if used.any isNanV then (.nan, flagNone)
  else
    let v0 := fvOf ffF32 acc
    let (v1, f1) :=
      if zpe then
        let (t, f) := timesV (fvOf ffF32 zp) (fvOf ffF32 asum)
        let (v, g) := combineV 1 v0 (flipV t)
        (v, flagOr f g)
      else (v0, flagNone)
    if sc then
      let (v, f) := timesV (fvOf ffF32 scale) v1
      (v, flagOr f1 f)
    else (v1, f1)

/-- The output element. An infinity saturates, f32 included. -/
def epilogueNat (ofmt : Fmt) (acc asum scale zp : Nat) (sc zpe : Bool) : Nat × FlagSet :=
  let (v, f) := epilogueV acc asum scale zp sc zpe
  let r := if fmtFloat ofmt then cvtNarrow (ffOf ofmt) v else convertTo .f32 ofmt false v
  (r.1, flagOr f r.2)

end Sys2Proof.Machine
end

