-- ==== Sys2Proof/Machine/Matrix.lean ====
section
/-! DEFINITION. Matrix instructions at issue: their place in unit order, fusion and batches
(21_instr_matrix.md R248 to R266). -/

namespace Sys2Proof.Machine

def partOf (h : Here) : Nat := h.c % 8

def setUnit (s : State) (core part : Nat) (u : MatUnit) : State :=
  let c := coreOf s core
  setCore s core { c with units := c.units.put part u }

/-- R248: the unit's own tile for a crew's tile n. -/
def physTile (h : Here) (n : Nat) : Nat := h.c / 8 * h.blk.kern.tiles + n

/-! ## Checks at issue (R251, R257) -/

/-- The kernel has the tile, or any tile. -/
def tilesE (h : Here) (n : Nat) : Exec Unit := if h.blk.kern.tiles ≤ n then trapE h .illop else pure ()

/-- Room in the unit's queue. -/
def queueE (h : Here) : Exec Unit := do
  let s ← getE
  if Config.matrixQueue ≤ unitHeld (unitOf s h.blk.core (partOf h)) then waitE h (.retry .matrix)

/-- Every byte of a local range is within P and its moored lines are filled (R256, R257). -/
def matRangeE (h : Here) (o n : Nat) (wr : Bool) : Exec Unit := do
  let kind := if wr then 1 else 0
  if h.blk.kern.stash < o + n then faultE h .accf 2 (BitVec.ofNat 64 o) kind
  else touchE h kind fun s => touchStash s h.blk.core (h.blk.base + o) n o wr

/-! ## Batches (R255) -/

/-- Batches n and below have completed while the next is closed and nothing of it is pending. -/
def raiseBatches (fuel : Nat) (b : Batches) : Batches :=
  match fuel with
  | 0 => b
  | k + 1 =>
    if b.value + 1 < b.openNo ∧ b.pending.getD (b.value + 1) 0 = 0 then raiseBatches k { b with value := b.value + 1 }
    else b

def settleBatches (b : Batches) : Batches := raiseBatches b.openNo b

/-- One more part of an instruction of the open batch is in the queue. -/
def openPart (y : Crew) : Crew :=
  let b := y.batches
  { y with batches := { b with pending := b.pending.put b.openNo (b.pending.getD b.openNo 0 + 1) } }

/-- A part of batch n is complete. -/
def closePart (y : Crew) (n : Nat) : Crew :=
  let b := y.batches
  { y with batches := settleBatches { b with pending := b.pending.put n (b.pending.getD n 0 - 1) } }

/-! ## Entering the queue (R251) -/

/-- A new entry at the end of unit order, for instruction number `id`. -/
def enqueue (s : State) (h : Here) (id : Nat) (op : MatOp) (ev : Instr) : State :=
  let u := unitOf s h.blk.core (partOf h)
  let n := match crewOf s h.b h.c with
    | some y => y.batches.openNo
    | none => 1
  let s1 := setUnit s h.blk.core (partOf h) { u with queue := u.queue ++ [⟨h.b, h.c, h.k, [(n, id)], op⟩] }
  later (updCrew s1 h.b h.c openPart) ev

/-- The entry of one instruction, with its number. -/
def enter (s : State) (h : Here) (op : MatOp) (ev : Instr) : State :=
  let (id, s1) := freshId s
  enqueue s1 h id op ev

def enqueueE (h : Here) (op : MatOp) (ev : Instr) : Exec Unit :=
  modifyE fun s => enter s h op ev

/-! ## MLDW, MSWAP, MLUT, MZERO -/

def low5 (x : Nat) : Nat := x / 32 * 32

/-- The decode tags of the weight planes. -/
def retag (s : State) (h : Here) (f : MatUnit → MatUnit) : State :=
  setUnit s h.blk.core (partOf h) (f (unitOf s h.blk.core (partOf h)))

def execMldw (a b : Opnd) (wf : WFmt) (s : State) : Host.Outcome State Fault Refusal :=
  issueWord (.mldw a b wf) s fun h => do
    let s ← getE
    tilesE h 0
    let o := low5 (srcNum s h a 1 0)
    let st := low5 (srcNum s h b 1 0)
    (List.range (planeRows wf)).forM fun k => matRangeE h (o + k * st) (planeRow wf) false
    queueE h
    drainE h (hMask h)
    enqueueE h (.load o st wf) (.mldwDone h.blk.core (partOf h))
    modifyE fun s => retag s h fun u => { u with shadowTag := wf }
    nextE h

/-- A destination whose result lands later is pending. -/
def pendE (h : Here) (cs : List Nat) : Exec Unit := updCrewE h fun y => { y with pending := y.pending ++ cs }

def execMswap (d : Opnd) (s : State) : Host.Outcome State Fault Refusal :=
  issueWord (.mswap d) s fun h => do
    tilesE h 0
    queueE h
    enqueueE h (.swap (regCode d)) (.mswapPoint h.blk.core (partOf h))
    modifyE fun s => retag s h fun u => { u with activeTag := u.shadowTag, shadowTag := u.activeTag }
    pendE h (regCode d).toList
    nextE h

/-- R250: the codebook that the s registers from `sb` give. -/
def codebookOf (y : Crew) (sb : Nat) : Table (BitVec 16) :=
  (List.range 16).map fun i => (i, BitVec.ofNat 16 (codebookEntry y sb i))

def execMlut (sb : Nat) (s : State) : Host.Outcome State Fault Refusal :=
  issueWord (.mlut sb) s fun h => do
    tilesE h 0
    queueE h
    let y ← crewE h
    enqueueE h (.lut (codebookOf y sb)) (.mldwDone h.blk.core (partOf h))
    nextE h

def execMzero (g : Guard) (tile : Fin 8) (s : State) : Host.Outcome State Fault Refusal :=
  issueWord (.mzero g tile) s fun h => do
    tilesE h tile.val
    queueE h
    enqueueE h (.zero (physTile h tile.val)) (.tileOpPoint h.blk.core (partOf h))
    nextE h

/-! ## MMA (R252, R253, R262) -/

/-- A row's offset: its low 6 bits are ignored. -/
def rowOff (x : Nat) : Nat := x / 64 * 64

/-- The entry is a tile operation of the crew on the tile. -/
def isTileOp (e : MatEntry) (b c tile : Nat) : Bool :=
  e.blk == b && e.crew == c &&
  match e.op with
  | .zero t => t == tile
  | .read t _ _ _ _ => t == tile
  | .store t _ _ _ _ _ _ _ none => t == tile
  | _ => false

def isSwap (e : MatEntry) : Bool :=
  match e.op with
  | .swap _ => true
  | _ => false

/-- R253: a pass that a quarter of the crew may join. -/
def joinable (s : State) (h : Here) (tile : Nat) (x : MmaOp) (q : Nat) (e : MatEntry) : Bool :=
  e.blk == h.b && e.crew == h.c &&
  match e.op with
  | .pass t af zpm kh rows t0 begun =>
    t == tile && af == x.af && zpm == x.zpm && kh == x.kh && !begun && decide (s.clock ≤ t0 + 3)
      && !rows.any fun r => r.1 / 8 == q
  | _ => false

/-- The place in the queue of the pass that a quarter joins: no swap and no tile operation of the crew on the tile
stands behind it. Of several passes it joins the first (R253; DESIGN CHOICE, log 92). -/
def joinIndex (s : State) (h : Here) (tile : Nat) (x : MmaOp) (q : Nat) (es : List MatEntry) : Option Nat :=
  (List.range es.length).find? fun i =>
    (match es[i]? with
     | some e => joinable s h tile x q e
     | none => false) &&
    !(es.drop (i + 1)).any fun e => isSwap e || isTileOp e h.b h.c tile

/-- Rows are entered in ascending row number. -/
def mergeRows (as bs : List (Nat × Nat)) : List (Nat × Nat) :=
  (List.range 32).filterMap fun r => (as ++ bs).find? fun p => p.1 == r

/-- An entry with a quarter's rows added. -/
def joinEntry (e : MatEntry) (rows : List (Nat × Nat)) (part : Nat × Nat) : MatEntry :=
  match e.op with
  | .pass t af zpm kh rs t0 begun =>
    { e with parts := if e.parts.contains part then e.parts else e.parts ++ [part],
             op := .pass t af zpm kh (mergeRows rs rows) t0 begun }
  | _ => e

/-- One quarter request takes its place: in a pass not begun, or in a new pass. -/
def quarter (h : Here) (x : MmaOp) (id : Nat) (tile : Nat) (s : State) (q : Nat × List (Nat × Nat)) : State :=
  let part := partOf h
  let u := unitOf s h.blk.core part
  let n := match crewOf s h.b h.c with
    | some y => y.batches.openNo
    | none => 1
  match joinIndex s h tile x q.1 u.queue with
  | some i =>
    (match u.queue[i]? with
     | some e =>
       let s1 := setUnit s h.blk.core part { u with queue := u.queue.set i (joinEntry e q.2 (n, id)) }
       if e.parts.contains (n, id) then s1 else updCrew s1 h.b h.c openPart
     | none => s)
  | none => enqueue s h id (.pass tile x.af x.zpm x.kh q.2 s.clock false) (.matrixPassStart h.blk.core part)

/-- The quarter requests of an `MMA`: those with an active lane. -/
def quartersOf (m : Mask) (off : Nat → Nat) : List (Nat × List (Nat × Nat)) :=
  (List.range 4).filterMap fun q =>
    let ls := (lanesOf m).filter fun l => l / 8 == q
    if ls.isEmpty then none else some (q, ls.map fun l => (l, off l))

/-- The quarter requests take their places, those of all lanes as one pass of 32 rows (R253); with no active lane the instruction has a queue entry and no pass (R268). -/
def enterQuarters (s : State) (h : Here) (x : MmaOp) (m : Mask) (off : Nat → Nat) : State :=
  let (id, s1) := freshId s
  if m = 0 then enqueue s1 h id .nothing (.tileOpPoint h.blk.core (partOf h))
  else if m = BitVec.allOnes 32 then
    enqueue s1 h id (.pass (physTile h x.tile.val) x.af x.zpm x.kh ((lanesOf m).map fun l => (l, off l)) s.clock false)
      (.matrixPassStart h.blk.core (partOf h))
  else (quartersOf m off).foldl (quarter h x id (physTile h x.tile.val)) s1

def execMma (x : MmaOp) (s : State) : Host.Outcome State Fault Refusal :=
  issueWord (.mma x) s fun h => do
    let s ← getE
    tilesE h x.tile.val
    if !passLegal (unitOf s h.blk.core (partOf h)).activeTag x.af x.kh then trapE h .illop
    let m := activeMask h x.g
    let off := fun l => rowOff (srcNum s h x.a 1 l)
    (lanesOf m).forM fun l => matRangeE h (off l) (actBytes x.af) false
    queueE h
    drainE h m
    modifyE fun s => enterQuarters s h x m off
    nextE h

/-! ## MRD, MST, MFENCE -/

def execMrd (x : MrdOp) (s : State) : Host.Outcome State Fault Refusal :=
  issueWord (.mrd x) s fun h => do
    tilesE h x.tile.val
    let m := activeMask h x.g
    queueE h
    let n := mrdRegs x.wc
    let d := (regCode x.d).getD 0
    enqueueE h (.read (physTile h x.tile.val) x.col.val n d m) (.tileOpPoint h.blk.core (partOf h))
    if m ≠ 0 then pendE h (regCodes x.d n)
    nextE h

/-- Bytes of an output row. -/
def outBytes (f : Fmt) : Nat := 64 * elemBytes f

def execMst (x : MstOp) (s : State) : Host.Outcome State Fault Refusal :=
  issueWord (.mst x) s fun h => do
    let s ← getE
    tilesE h x.tile.val
    let m := activeMask h x.g
    let o := low5 (srcNum s h x.a 1 0)
    let st := low5 (srcNum s h x.b 1 0)
    let c := (x.c.map fun k => low5 (srcNum s h k 1 0)).getD 0
    if m ≠ 0 ∧ x.sc then matRangeE h c 256 false
    if m ≠ 0 ∧ x.zpe then matRangeE h (c + 256) 256 false
    (lanesOf m).forM fun l => matRangeE h (o + l * st) (outBytes x.ofmt) true
    queueE h
    drainE h m
    enqueueE h (.store (physTile h x.tile.val) o st c x.sc x.zpe x.ofmt m none) (.tileOpPoint h.blk.core (partOf h))
    nextE h

/-- R255: the open batch is closed, and its number is the result. -/
def closeBatch (d : Opnd) (m : Mask) (y : Crew) : Crew :=
  putDst { y with batches := settleBatches { y.batches with openNo := y.batches.openNo + 1 } } false d 2 m
    fun _ => y.batches.openNo

def execMfence (d : Opnd) (s : State) : Host.Outcome State Fault Refusal :=
  issueWord (.mfence d) s fun h => do
    tilesE h 0
    queueE h
    enqueueE h .nothing (.tileOpPoint h.blk.core (partOf h))
    updCrewE h (closeBatch d (hMask h))
    nextE h

end Sys2Proof.Machine
end

