-- ==== Sys2Proof/Machine/DockImage.lean ====
section
/-! DEFINITION. The dock image: its layout, what a checkpoint leaves out, its check and what a restore reads from it
(19_traps_rules.md R241, R244, R245; 21_instr_matrix.md R267; 25_tape_rules.md R311). -/

namespace Sys2Proof.Machine

/-! ## What a checkpoint saves (R241) -/

/-- The checkpoint at which a crew has stopped. -/
def chkptOf (y : Crew) : Option Nat :=
  match y.slot0.st, y.slot1.st with
  | .waiting (.stopped (some n)), _ => some n
  | _, .waiting (.stopped (some n)) => some n
  | _, _ => none

/-- A livemap entry, 32 bytes as a number; none where the crew saves whole. -/
def liveEntry (s : State) (x : Block) (n : Nat) : Accepted (Option Nat) :=
  let die := dieOfCore x.core
  let c := ctxOf s x
  match readStruct s die c x.kern.livemap 8 with
  | .again g => .again g
  | .refused _ _ => .ok none
  | .ok h =>
    if nfield h 16 48 ≠ 0 ∨ nfield h 0 16 ≤ n then .ok none
    else
      match readStruct s die c ((x.kern.livemap + 8 + 32 * n) % 2 ^ 64) 32 with
      | .again g => .again g
      | .refused _ _ => .ok none
      | .ok e => .ok (if nbit e 255 then none else some e)

/-- Registers still pending on an arrival counter. -/
def pendingCodes (y : Crew) : List Nat := y.acs.flatMap fun a => a.2.regs

/-- Only the live registers of an entry, and those pending, are kept; the rest read zero. -/
def keepLive (y : Crew) (e : Nat) : Crew :=
  let pend := pendingCodes y
  { y with
    v := y.v.filter fun r => nbit e (r.1 / 32) || pend.contains (r.1 / 32)
    s := y.s.filter fun r => nbit e (192 + r.1) || pend.contains (192 + r.1)
    p := y.p.filter fun r => nbit e (248 + r.1) }

/-- The tiles of crew c that an entry does not mark live read +0. -/
def dropTiles (k : Kernel) (c e : Nat) (u : MatUnit) : MatUnit :=
  let dead (t : Nat) : Bool := (List.range k.tiles).any fun n => t == c / 8 * k.tiles + n && !nbit e (240 + n)
  { u with
    tiles := u.tiles.filter fun p => !dead (p.1 / 2048)
    asum := u.asum.filter fun p => !dead (p.1 / 32) }

/-- What a save keeps of the crews stopped at checkpoints. -/
def applyLive (s : State) (x : Block) (cs : List (Nat × Crew)) : Accepted Block :=
  match cs with
  | [] => .ok x
  | (c, y) :: r =>
    match chkptOf y with
    | none => applyLive s x r
    | some n =>
      match liveEntry s x n with
      | .again g => .again g
      | .refused a b => .refused a b
      | .ok none => applyLive s x r
      | .ok (some e) =>
        applyLive s { x with
          crews := x.crews.put c (keepLive y e)
          units := match x.units.find (c % 8) with
            | some u => x.units.put (c % 8) (dropTiles x.kern c e u)
            | none => x.units } r

/-! ## Sections (R244) -/

/-- Bytes padded to a 128-byte boundary. -/
def padLine (bs : List Byte) : List Byte := bs ++ leBytes ((128 - bs.length % 128) % 128) 0

/-- Bytes whose content the spec leaves open. -/
def openBytes (seed n : Nat) : List Byte := (List.range n).map fun i => Config.opaqueByte (seed + i)

/-- Acknowledgements that the block awaits. -/
def acksOut (x : Block) : Nat := x.tokens.length + (x.recs.filter fun r => nbit r.flags 4).length

/-- The pending-store list: of a store that has faulted, an entry for each line not yet performed (R231). -/
def pendingStores (s : State) (b : Nat) : List (Nat × Req) :=
  s.reqs.filter fun e => e.2.blk == b && e.2.st == .faulted && isStoreReq e.2 && e.2.homed

/-- EXITED: every lane of the store's mask has executed `EXIT` since. -/
def storeExited (x : Block) (r : Req) : Bool :=
  match x.crews.find r.crew with
  | some y => r.mask &&& ~~~y.exited == 0
  | none => true

/-- The bytes of a store request, by offset in its line. -/
def storeOffsets (r : Req) : List (Nat × Byte) :=
  match r.kind with
  | .store _ gs _ _ => gs.flatten.map fun p => (p.1 % 128, p.2)
  | .load _ _ _ _ _ | .red _ _ => []

/-- The virtual address of the line that a request stores to. -/
def storeLineVa (r : Req) : Nat :=
  match r.kind with
  | .store va _ _ _ => va / 128 * 128
  | .load _ _ _ _ _ | .red _ _ => 0

/-- The 576 bytes of an entry of the pending-store list: a header with the fields of R230, the line's address and the
mask of its bytes, then the data. The order of the header's fields is the model's (DESIGN CHOICE, log 39). -/
def storeBytes (s : State) (x : Block) (r : Req) : List Byte :=
  let bs := storeOffsets r
  let mask := (bs.map fun p => 2 ^ p.1).foldl Nat.lor 0
  leBytes 8 r.pc.toNat ++ leBytes 4 (ltagOf s x).toNat ++ leBytes 2 r.bi ++ leBytes 1 r.crew
    ++ leBytes 1 (r.slot + (if storeExited x r then 2 else 0)) ++ leBytes 4 r.mask.toNat ++ leBytes 4 0
    ++ leBytes 8 (storeLineVa r) ++ leBytes 16 mask ++ leBytes 16 0
    ++ ((List.range 128).map fun i => overlay bs i 0) ++ leBytes 384 0

/-- The header, with the CRC given. -/
def imageHeader (s : State) (b : Nat) (x : Block) (crc : Nat) : List Byte :=
  leBytes 4 1 ++ leBytes 4 (ltagOf s x).toNat ++ leBytes 8 x.kern.addr ++ leBytes 4 (ctxOf s x).pasid ++ leBytes 4 x.core
    ++ leBytes 4 x.bx ++ leBytes 2 x.byIdx ++ leBytes 2 x.bz ++ leBytes 1 x.rank ++ leBytes 1 x.kern.crews
    ++ leBytes 2 (pendingStores s b).length ++ leBytes 4 x.causes ++ leBytes 8 x.object.toNat ++ leBytes 8 x.value.toNat
    ++ leBytes 4 (acksOut x) ++ leBytes 4 crc ++ leBytes 192 0

/-- The vector registers of a crew. -/
def vectorBytes (k : Kernel) (y : Crew) : List Byte :=
  (List.range k.vregs).flatMap fun n => (List.range 32).flatMap fun l => leBytes 4 (readV y n l).toNat

/-- A weight plane, raw. -/
def planeBytes (p : Plane) : List Byte := (List.range 8192).map fun i => p.data.getD i 0

def bookBytes (p : Plane) : List Byte := (List.range 16).flatMap fun i => leBytes 2 (p.codebook.getD i 0).toNat

/-- R250: the code of a weight format. -/
def wfCode (f : WFmt) : Nat :=
  match f with
  | .e4m3 => 0
  | .e5m2 => 1
  | .bf16 => 2
  | .i4 => 3
  | .e2m1 => 4
  | .lut4 => 5

def wfOf (n : Nat) : WFmt :=
  match n with
  | 1 => .e5m2
  | 2 => .bf16
  | 3 => .i4
  | 4 => .e2m1
  | 5 => .lut4
  | _ => .e4m3

/-- R267: the section of crew c's tile n. -/
def tileSection (k : Kernel) (u : MatUnit) (c n : Nat) : List Byte :=
  let t := c / 8 * k.tiles + n
  let vals := (List.range 2048).flatMap fun i => leBytes 4 (u.tiles.getD (2048 * t + i) 0).toNat
  let sums := (List.range 32).flatMap fun i => leBytes 4 (u.asum.getD (32 * t + i) 0).toNat
  let head := vals ++ sums ++ leBytes 8064 0
  if n = 0 ∧ c < 8 then
    head ++ planeBytes u.active ++ planeBytes u.shadow ++ bookBytes u.active ++ bookBytes u.shadow
      ++ leBytes 1 (wfCode u.active.wf) ++ leBytes 1 (wfCode u.shadow.wf) ++ leBytes 2 0 ++ leBytes 4 u.pgen.toNat
      ++ leBytes 32696 0
  else head ++ leBytes 49152 0

/-- A crew's record: the opaque control block, its vector registers and its tiles. -/
def crewSection (x : Block) (seed c : Nat) (y : Crew) : List Byte :=
  openBytes (seed + 32768 * c) 32768 ++ vectorBytes x.kern y
    ++ (List.range x.kern.tiles).flatMap fun n => tileSection x.kern (x.units.getD (c % 8) MatUnit.reset) c n

/-- R28: a crew's divergence stack: its live entries as the stash holds them. -/
def stackBytes (s : State) (x : Block) (c : Nat) (y : Crew) : List Byte :=
  (readPlace s (.stash x.core (x.base + x.kern.stash + 512 * c)) (16 * y.spills.length) ++ leBytes 512 0).take 512

/-- R48: the 32 bytes of a mooring record. -/
def moorBytes (r : MoorRec) : List Byte :=
  leBytes 8 r.gbase ++ leBytes 4 r.lbase ++ leBytes 4 r.extent ++ leBytes 4 r.rows ++ leBytes 4 r.stride ++ leBytes 2 r.epr
    ++ leBytes 1 r.esize ++ leBytes 1 r.foff ++ leBytes 1 r.fsize ++ leBytes 1 r.flags ++ leBytes 2 0

/-- The mooring snapshot: a record and its index in each 40 bytes. -/
def snapshotBytes (x : Block) : List Byte :=
  ((x.snapshot.flatMap fun e => moorBytes e.2 ++ leBytes 8 e.1) ++ leBytes 2560 0).take 2560

/-- The attached records of a crew: those of its points, then those that have fallen due. -/
def attachedRecs (y : Crew) : List BrRec :=
  y.joins.reverse.flatMap (·.recs) ++ y.slot0.due ++ y.slot1.due ++ y.spills.flatMap (·.due) ++ handlerDue y

/-- STREAM: the crew's stream; bit 31 is set when it was bound by `TBIND.at`. -/
def streamWord (x : Block) (c : Nat) (y : Crew) : Nat :=
  match y.tape.bind with
  | .own i => i
  | .at => ((if x.kern.node then x.bx else x.lin) * x.kern.crews + c) % 2 ^ 31 + 2 ^ 31
  | _ => 0xFFFFFFFF

/-- R311: the tape state of a crew. -/
def tapeBytes (x : Block) (c : Nat) (y : Crew) : List Byte :=
  let recs := (attachedRecs y).flatMap fun p =>
    leBytes 4 p.mask.toNat ++ leBytes 4 p.taken.toNat ++ leBytes 1 p.tag.toNat ++ leBytes 1 p.depth ++ leBytes 2 0
  leBytes 8 y.tape.top ++ leBytes 8 y.tape.tl.issued ++ leBytes 8 y.tape.tl.value ++ leBytes 4 (readTst y).toNat
    ++ leBytes 4 y.tctl.toNat ++ leBytes 4 (streamWord x c y) ++ leBytes 4 (stagedBytes y.tape)
    ++ (List.range 16).flatMap (fun n => leBytes 1 ((y.chans.getD n ⟨0, 0, 0, []⟩).tag).toNat)
    ++ leBytes 1 (attachedCount y) ++ leBytes 7 0 ++ (recs ++ leBytes 384 0).take 384 ++ leBytes 64 0

/-- The tape context of the block. -/
def tapeSection (x : Block) : List Byte :=
  let states := x.crews.flatMap fun e => tapeBytes x e.1 e.2
  let staged := x.crews.flatMap fun e => e.2.tape.staged.flatMap fun r => wordBytes r.words
  (states ++ leBytes 32768 0).take 32768 ++ (staged ++ leBytes 32768 0).take 32768

/-- R212: the descriptor of an installed armature. -/
def armBytes (a : Arm) : List Byte :=
  leBytes 1 a.nrank ++ leBytes 1 a.root ++ leBytes 1 (a.op + 16 * a.ty) ++ leBytes 1 0 ++ leBytes 4 a.timeout
    ++ leBytes 4 a.resoff ++ leBytes 4 (a.baroff.getD 0xFFFFFFFF)
    ++ (List.range 24).flatMap (fun r => leBytes 1 (a.parent.getD r 0xFF)) ++ leBytes 24 0

/-- The round counters of an armature: LATE, and the low 16 bits of each node's round (DESIGN CHOICE, log 39). -/
def roundBytes (a : Arm) : List Byte :=
  leBytes 4 a.late ++ (List.range 24).flatMap (fun r => leBytes 2 (nodeOf a r).round) ++ leBytes 12 0

/-- The four descriptors and their round counters, in the rank-0 block of a fleet; zeros where none is installed. -/
def armSection (s : State) (x : Block) : List Byte :=
  let part (f : Arm → List Byte) : List Byte := (List.range 4).flatMap fun id =>
    match armOf s x.launch x.fleet id with
    | some a => f a
    | none => leBytes 64 0
  if x.rank = 0 then part armBytes ++ part roundBytes else leBytes 512 0

/-- Everything after the header. -/
def imageBody (s : State) (b : Nat) (x : Block) : List Byte :=
  let seed := s.free
  (x.crews.flatMap fun e => crewSection x seed e.1 e.2)
    ++ padLine (readPlace s (.stash x.core x.base) x.kern.stash)
    ++ padLine (x.crews.flatMap fun e => stackBytes s x e.1 e.2)
    ++ padLine (snapshotBytes x)
    ++ padLine ((pendingStores s b).flatMap fun e => storeBytes s x e.2)
    ++ tapeSection x ++ armSection s x

/-- The image, its CRC computed with the CRC field as zero. -/
def imageBytes (s : State) (b : Nat) (x : Block) : List Byte :=
  let body := imageBody s b x
  imageHeader s b x (crc32c (imageHeader s b x 0 ++ body)) ++ body

/-! ## Reading an image (R245) -/

/-- The size of the image of a block. -/
def imageSize (s : State) (b : Nat) (x : Block) : Nat := 256 + (imageBody s b x).length

/-- The image stands whole: FORMAT and CRC, and the header's zero field (R7). -/
def imageOk (bs : List Byte) : Bool :=
  let crc := leNat ((bs.drop 0x3C).take 4)
  leNat (bs.take 4) == 1 && crc == crc32c (bs.take 0x3C ++ leBytes 4 0 ++ bs.drop 0x40)
    && ((bs.drop 0x40).take 192).all (· == 0)

/-- The offset of crew c's record. -/
def crewOffset (k : Kernel) (c : Nat) : Nat := 256 + c * (32768 + k.vregs * 128 + k.tiles * 65536)

/-- A little-endian number of the image. -/
def imageNat (bs : List Byte) (off n : Nat) : Nat := leNat ((bs.drop off).take n)

/-- The vector registers of crew c, as the image holds them. -/
def readVectors (k : Kernel) (bs : List Byte) (c : Nat) (y : Crew) : Crew :=
  (List.range k.vregs).foldl (fun y n =>
    (List.range 32).foldl (fun y l =>
      writeV y n l (BitVec.ofNat 32 (imageNat bs (crewOffset k c + 32768 + 128 * n + 4 * l) 4))) y) y

/-- A plane, as the image holds it. -/
def readPlane (bs : List Byte) (off book wf : Nat) : Plane :=
  ⟨((List.range 8192).map fun i => (i, BitVec.ofNat 8 (imageNat bs (off + i) 1))).filter fun p => p.2 != 0,
    wfOf (imageNat bs wf 1), (List.range 16).map fun i => (i, BitVec.ofNat 16 (imageNat bs (book + 2 * i) 2))⟩

/-- The tiles of one crew, as the image holds them. -/
def readTiles (k : Kernel) (bs : List Byte) (c : Nat) (u : MatUnit) : MatUnit :=
  (List.range k.tiles).foldl (fun u n =>
    let o := crewOffset k c + 32768 + 128 * k.vregs + 65536 * n
    let t := c / 8 * k.tiles + n
    { u with
      tiles := (List.range 2048).foldl (fun ts i =>
        ts.put (2048 * t + i) (BitVec.ofNat 32 (imageNat bs (o + 4 * i) 4))) u.tiles
      asum := (List.range 32).foldl (fun ts i =>
        ts.put (32 * t + i) (BitVec.ofNat 32 (imageNat bs (o + 0x2000 + 4 * i) 4))) u.asum }) u

/-- The unit of partition p, as the image holds it: planes and generation from crew p's first section. -/
def readUnit (k : Kernel) (bs : List Byte) (p : Nat) : MatUnit :=
  let o := crewOffset k p + 32768 + 128 * k.vregs
  let a := readPlane bs (o + 0x4000) (o + 0x8000) (o + 0x8040)
  let b := readPlane bs (o + 0x6000) (o + 0x8020) (o + 0x8041)
  let u : MatUnit := { MatUnit.reset with
    active := a, shadow := b, pgen := BitVec.ofNat 32 (imageNat bs (o + 0x8044) 4), activeTag := a.wf, shadowTag := b.wf }
  ((List.range k.crews).filter fun c => c % 8 == p).foldl (fun u c => readTiles k bs c u) u

/-- The offsets of the sections after the crew records. -/
def stashOffset (k : Kernel) : Nat := crewOffset k k.crews

def stackOffset (k : Kernel) : Nat := stashOffset k + k.stash

def snapshotOffset (k : Kernel) : Nat := stackOffset k + 512 * k.crews

def storesOffset (k : Kernel) : Nat := snapshotOffset k + 2560

def tapeOffset (k : Kernel) (stores : Nat) : Nat := storesOffset k + (576 * stores + 127) / 128 * 128

def armOffset (k : Kernel) (stores : Nat) : Nat := tapeOffset k stores + 65536

/-- The spilled paths of crew c, as the image holds them. -/
def readStack (k : Kernel) (bs : List Byte) (c : Nat) (y : Crew) : Crew :=
  let o := stackOffset k + 512 * c
  { y with spills := (y.spills.reverse.zipIdx.map fun p =>
      { p.1 with
        pc := BitVec.ofNat 64 (imageNat bs (o + 16 * p.2) 8)
        mask := BitVec.ofNat 32 (imageNat bs (o + 16 * p.2 + 8) 4)
        depth := imageNat bs (o + 16 * p.2 + 12) 2 }).reverse }

/-- The snapshot's entries, as the image holds them. -/
def readSnapshot (bs : List Byte) (x : Block) : List (Nat × MoorRec) :=
  let o := snapshotOffset x.kern
  (List.range x.snapshot.length).map fun i =>
    (imageNat bs (o + 40 * i + 32) 8, moorRecOf (imageNat bs (o + 40 * i) 32))

/-- A pending store whose data are those of the entry at an offset. -/
def readStore (bs : List Byte) (o : Nat) (r : Req) : Req :=
  match r.kind with
  | .store va gs a tw =>
    { r with kind := .store va (gs.map fun g => g.map fun p =>
        (p.1, BitVec.ofNat 8 (imageNat bs (o + 64 + p.1 % 128) 1))) a tw }
  | .load _ _ _ _ _ | .red _ _ => r

/-- The pending stores of a block, as the image holds them. -/
def readStores (k : Kernel) (bs : List Byte) (rs : List (Nat × Req)) : List (Nat × Req) :=
  rs.zipIdx.map fun p => (p.1.1, readStore bs (storesOffset k + 576 * p.2) p.1.2)

/-- Staged records whose words stand in the image from an offset on. -/
def readStaged (bs : List Byte) (o : Nat) (rs : List Staged) : List Staged :=
  match rs with
  | [] => []
  | r :: q =>
    { r with words := (List.range r.words.length).map fun i => BitVec.ofNat 32 (imageNat bs (o + 4 * i) 4) }
      :: readStaged bs (o + 4 * r.words.length) q

/-- Staged records, the oldest left out until at most `n` bytes remain: those directly below TOP. -/
def keepStaged (n : Nat) (rs : List Staged) : List Staged :=
  match rs with
  | [] => []
  | r :: q => if ((r :: q).map fun x => 4 * x.words.length).sum ≤ n then r :: q else keepStaged n q

/-- An attached record as the image holds it at an offset. -/
def readBrRec (bs : List Byte) (o : Nat) (r : BrRec) : BrRec :=
  { r with
    mask := BitVec.ofNat 32 (imageNat bs o 4)
    taken := BitVec.ofNat 32 (imageNat bs (o + 4) 4)
    tag := BitVec.ofNat 8 (imageNat bs (o + 8) 1)
    depth := imageNat bs (o + 9) 1 }

/-- Some lists of a crew's attached records in turn, of which the image holds `n` from an offset on. -/
def readBrRecs (bs : List Byte) (o n : Nat) (rs : List (List BrRec)) : List (List BrRec) :=
  match rs with
  | [] => []
  | r :: q =>
    ((r.take n).zipIdx.map fun p => readBrRec bs (o + 12 * p.2) p.1)
      :: readBrRecs bs (o + 12 * r.length) (n - r.length) q

/-- The attached records of a crew: those of its points, outermost first, then those that have fallen due. -/
def readAttached (bs : List Byte) (p : Nat) (y : Crew) : Crew :=
  let ls := readBrRecs bs (p + 0x40) (imageNat bs (p + 0x38) 1)
    (y.joins.reverse.map (·.recs) ++ [y.slot0.due, y.slot1.due] ++ y.spills.map (·.due) ++ [handlerDue y])
  let n := y.joins.length
  { y with
    joins := ((y.joins.reverse.zip ls).map fun e => { e.1 with recs := e.2 }).reverse
    slot0 := { y.slot0 with due := ls.getD n [] }
    slot1 := { y.slot1 with due := ls.getD (n + 1) [] }
    spills := (y.spills.zip (ls.drop (n + 2))).map fun e => { e.1 with due := e.2 }
    handler := y.handler.map fun hd => { hd with due := ls.getD (n + 2 + y.spills.length) [] } }

/-- STREAM of the image; before the first tape instruction nothing has been bound. -/
def readBinding (w : Nat) (b : Binding) : Binding :=
  if b = .unread then b
  else if w = 0xFFFFFFFF then .unbound
  else if 2 ^ 31 ≤ w then .at
  else .own w

/-- The tape state of crew c, as the image holds it; its staged words stand at `so`. -/
def readTape (bs : List Byte) (o so c : Nat) (y : Crew) : Crew :=
  let p := o + 512 * c
  let t := y.tape
  { readAttached bs p y with
    tape := { t with
      bind := readBinding (imageNat bs (p + 0x20) 4) t.bind
      top := imageNat bs p 8
      tl := { t.tl with issued := imageNat bs (p + 8) 8, value := imageNat bs (p + 16) 8 }
      staged := readStaged bs so (keepStaged (imageNat bs (p + 0x24) 4) t.staged) }
    tst := BitVec.ofNat 32 (imageNat bs (p + 24) 4 % 8)
    tctl := BitVec.ofNat 32 (imageNat bs (p + 28) 4) &&& 3
    chans := y.chans.map fun e => (e.1, { e.2 with tag := BitVec.ofNat 8 (imageNat bs (p + 0x28 + e.1) 1) }) }

/-- The tape states of some crews, whose staged words stand from `so` on. -/
def readTapes (bs : List Byte) (o so : Nat) (cs : List (Nat × Crew)) : List (Nat × Crew) :=
  match cs with
  | [] => []
  | e :: r => (e.1, readTape bs o so e.1 e.2) :: readTapes bs o (so + imageNat bs (o + 512 * e.1 + 0x24) 4) r

/-- R7: the fields of an image past its header that R28, R48, R212, R267 and R311 show as zero: offset and length. -/
def zeroRanges (s : State) (b : Nat) (x : Block) : List (Nat × Nat) :=
  let k := x.kern
  let tape := tapeOffset k (pendingStores s b).length
  let arm := armOffset k (pendingStores s b).length
  (x.crews.flatMap fun e => (List.range k.tiles).flatMap fun n =>
      let o := crewOffset k e.1 + 32768 + 128 * k.vregs + 65536 * n
      (o + 0x2080, 8064) :: if n = 0 ∧ e.1 < 8 then [(o + 0x8042, 2), (o + 0x8048, 32696)] else [(o + 0x4000, 49152)])
    ++ (x.crews.flatMap fun e => (List.range e.2.spills.length).map fun i => (stackOffset k + 512 * e.1 + 16 * i + 14, 2))
    ++ (List.range x.snapshot.length).map (fun i => (snapshotOffset k + 40 * i + 30, 2))
    ++ (x.crews.flatMap fun e =>
      let p := tape + 512 * e.1
      [(p + 0x39, 7), (p + 0x1C0, 64)] ++ (List.range (attachedCount e.2)).map fun i => (p + 0x40 + 12 * i + 10, 2))
    ++ if x.rank = 0 then
        (s.arms.filter fun a => a.launch == x.launch && a.fleet == x.fleet).flatMap fun a =>
          [(arm + 64 * a.id + 3, 1), (arm + 64 * a.id + 0x28, 24)]
      else []

/-- The image stands whole, and every field of it that is shown as zero is zero. -/
def imageGood (s : State) (b : Nat) (x : Block) (bs : List Byte) : Bool :=
  imageOk bs && (zeroRanges s b x).all fun r => ((bs.drop r.1).take r.2).all (· == 0)

/-- R245: armature `a` reinstalled as the image describes it, with its LATE count; the rounds of its nodes and the blocks'
own counters come with the opaque state. -/
def readArm (bs : List Byte) (o : Nat) (a : Arm) : Arm :=
  let x := armOfBytes (imageNat bs (o + 64 * a.id) 64) a.launch a.fleet a.id
  { x with nodes := a.nodes, late := imageNat bs (o + 256 + 64 * a.id) 4 }

/-- The armatures of a fleet, as the image of its rank-0 block holds them. -/
def readArms (s : State) (x : Block) (bs : List Byte) (o : Nat) : State :=
  if x.rank = 0 then
    { s with arms := s.arms.map fun a => if a.launch = x.launch ∧ a.fleet = x.fleet then readArm bs o a else a }
  else s

end Sys2Proof.Machine
end

