-- ==== Sys2Proof/Machine/Saves.lean ====
section
/-! DEFINITION. Pre-emption, the saves of R39 and R40, the completion of a save and the restore of a saved block
(03_execution_rules.md R38 to R41; 19_traps_rules.md R240 to R246; 05_memory_rules.md R59). -/

namespace Sys2Proof.Machine

/-! ## Pre-emption (R38) -/

def prioOf (s : State) (x : Block) : Nat :=
  match s.launches.find x.launch with
  | some l => l.prio
  | none => 0

def orderOf (s : State) (x : Block) : Nat :=
  match s.launches.find x.launch with
  | some l => l.order
  | none => 0

/-- A block with every other block of its fleet. -/
def withFleet (s : State) (b : Nat) : List Nat :=
  match s.blocks.find b with
  | some x => fleetOf s x.launch x.fleet
  | none => [b]

/-- R246: no block of the fleet is halted or halts. -/
def noneHalted (s : State) (b : Nat) : Bool :=
  (withFleet s b).all fun k =>
    match s.blocks.find k with
    | some y => y.st != .halted && y.halting.isNone
    | none => true

/-- A block that a fleet of priority q may pre-empt. -/
def preemptable (s : State) (q b : Nat) (x : Block) : Bool :=
  x.st == .running && noneHalted s b && launchLive s x.launch && decide (prioOf s x < q)

/-- Lowest priority first, then youngest first. -/
def victimBefore (s : State) (a b : Block) : Bool :=
  lexLt [prioOf s a, b.placedAt, orderOf s b, b.lin] [prioOf s b, a.placedAt, orderOf s a, a.lin]

def insertVictim (s : State) (e : Nat × Block) (r : List (Nat × Block)) : List (Nat × Block) :=
  match r with
  | [] => [e]
  | x :: q => if victimBefore s e.2 x.2 then e :: x :: q else x :: insertVictim s e q

/-- The blocks of a core that may be taken, in order. -/
def victimsOn (s : State) (q core : Nat) : List (Nat × Block) :=
  (s.blocks.filter fun e => e.2.core == core && preemptable s q e.1 e.2).foldr (insertVictim s) []

/-- The blocks to save so that a block of the fleet fits on the core. -/
def coreSaves (s : State) (n : Need) (core : Nat) (taken : List Nat) (vs : List (Nat × Block)) : Option (List Nat) :=
  if (fitsOn s core n taken).isSome then some taken
  else
    match vs with
    | [] => none
    | v :: r => coreSaves s n core (taken ++ withFleet s v.1) r

/-- Every choice of n members of a list, in order. -/
def chooseN {α : Type} (n : Nat) (l : List α) : List (List α) :=
  match l, n with
  | _, 0 => [[]]
  | [], _ + 1 => []
  | a :: r, k + 1 => (chooseN k r).map (a :: ·) ++ chooseN (k + 1) r

/-- A set of cores of one cluster with the blocks to save there. -/
def saveSets (s : State) (k : Kernel) (q cluster : Nat) : List (List Nat × List Nat) :=
  let cs := ((List.range 24).map fun i => 24 * cluster + i).filterMap fun c =>
    (coreSaves s (needOf k) c [] (victimsOn s q c)).map fun bs => (c, bs)
  (chooseN (max k.fleet 1) cs).map fun xs => (xs.map fun x => x.1, (xs.flatMap fun x => x.2).eraseDups)

/-- What decides between two sets: the blocks saved, then the lowest core id. -/
def setKey (x : List Nat × List Nat) : List Nat := [x.2.length, x.1.headD 0]

/-- The sets that come first; the rule decides no further. -/
def bestSets (xs : List (List Nat × List Nat)) : List (List Nat × List Nat) :=
  xs.filter fun a => !xs.any fun b => lexLt (setKey b) (setKey a)

/-- A save of some block of the die is under way. -/
def dieSaving (s : State) (die : Nat) : Bool :=
  s.blocks.any fun e => dieOfCore e.2.core == die && (e.2.st == .saving || (e.2.st == .running && e.2.chkptTill.isSome))

/-- R240: a block is stopped at once, or marked checkpoint pending for 2,048 clocks; one whose save has begun in the same
clock records the pre-emption (R246). -/
def preemptBlock (s : State) (b : Nat) : State :=
  match s.blocks.find b with
  | none => s
  | some x =>
    if x.st = .saving then setBlock s b { x with causes := x.causes ||| 1 }
    else if nbit (flagsOf s x) 0 && x.kern.livemap != 0 then
      later (setBlock s b { x with chkptTill := some (s.clock + 2048), causes := x.causes ||| 1 })
        (.checkpointWindowExpiry b)
    else beginSaveOne s b 1

/-- The first pending launch of a die that fits nowhere, with the sets that would make room for it. -/
def preemptFor (s : State) (die : Nat) : Option (List (List Nat × List Nat)) :=
  (pendingLaunches s die).findSome? fun e =>
    if (fleetRooms s die e.2.kern none []).isSome then none
    else
      match bestSets (saveSets s e.2.kern e.2.prio (2 * die) ++ saveSets s e.2.kern e.2.prio (2 * die + 1)) with
      | [] => none
      | xs => some xs

def execPreempt (die : Fin 4) (s : State) : Host.Outcome State Fault Refusal :=
  if (poolFree s).isNone then .next s
  else if dieSaving s die.val then .next (laterOnce s (.preempt die))
  else
    match preemptFor s die.val with
    | none => .next s
    | some xs =>
      let (k, s1) := if xs.length ≤ 1 then (0, s) else freeChoice s xs.length
      match xs[k]? with
      | some x => .next (x.2.foldl preemptBlock s1)
      | none => .next s

/-- A save under R39 or R40 has begun, from the state `before`. The pre-emption that its die is to make may fall in the same
clock (free): where it takes the block, both causes are recorded, and the other blocks of its set are saved with it (R246). -/
def preemptToo (before : State) (b core : Nat) (s : State) : State :=
  let die := dieOfCore core
  if !before.agenda.contains (.preempt (Fin.ofNat 4 die)) || (poolFree before).isNone || dieSaving before die then s
  else
    match preemptFor before die with
    | none => s
    | some xs =>
      let (k, s1) := freeChoice s (xs.length + 1)
      match xs[k]? with
      | some x => if x.2.contains b then x.2.foldl preemptBlock s1 else s1
      | none => s1

def execCheckpointWindowExpiry (b : Nat) (s : State) : Host.Outcome State Fault Refusal :=
  match s.blocks.find b with
  | none => .next s
  | some x =>
    match x.chkptTill with
    | none => .next s
    | some t =>
      if x.st = .halted then .next (later s (.checkpointWindowExpiry b))
      else if x.st ≠ .running then .next s
      else if x.halting.isNone ∧ (allStopped x = true ∨ t ≤ s.clock) then .next (endWindow s b)
      else .next (later s (.checkpointWindowExpiry b))

/-! ## A full slipway (R39) -/

/-- The slots of a block with their crews. -/
def slotsOf (x : Block) : List (Nat × Crew × Slot) :=
  x.crews.flatMap fun e => [(e.1, e.2, e.2.slot0), (e.1, e.2, e.2.slot1)]

/-- A parked slot would find room. -/
def parkedRoom (s : State) (t : Slot) : Bool :=
  match t.st with
  | .parked i _ left =>
    (match s.slipways.find i with
     | some w => !(emitNow w left).isEmpty
     | none => true)
  | _ => false

/-- The slipway on which a block is parked. -/
def parkedOn (s : State) (x : Block) : Option Slipway :=
  (slotsOf x).findSome? fun e =>
    match e.2.2.st with
    | .parked i _ _ => s.slipways.find i
    | _ => none

/-- The clock at which a parked block is to be saved, where nothing else prevents it: no room, a free pool slot, no
halted block of its fleet (R39, R243, R246). -/
def parkDue (s : State) (b : Nat) (x : Block) : Option Nat :=
  if x.st == .running && launchLive s x.launch && noneHalted s b && (poolFree s).isSome
      && !(slotsOf x).any fun e => parkedRoom s e.2.2 then
    x.parkedSince.map (· + 2048)
  else none

def isDue (s : State) (t : Option Nat) : Bool :=
  match t with
  | some d => decide (d ≤ s.clock)
  | none => false

def execParkSaveTimeout (b : Nat) (s : State) : Host.Outcome State Fault Refusal :=
  match s.blocks.find b with
  | none => .next s
  | some x =>
    if isDue s (parkDue s b x) then
      let s1 := match parkedOn s x with
        | some w => setBlock s b { x with
            object := BitVec.ofNat 64 w.addr, value := BitVec.ofNat 64 (w.reserved + 1) }
        | none => s
      .next (preemptToo s b x.core (beginSave s1 b 2))
    else .next s

/-! ## An outside wait (R40) -/

/-- A byte of stash lies in the block's own private stash. -/
def ownStash (x : Block) (core o : Nat) : Bool :=
  core == x.core && decide (x.base ≤ o) && decide (o < x.base + x.kern.stash)

/-- A message whose status fills a register is pending on retries. -/
def sendRetrying (s : State) (b c code : Nat) : Bool :=
  s.msgs.any fun e => e.2.blk == b && e.2.crew == c && e.2.dreg == some code && !e.2.retry.isEmpty

/-- R40: the slot's wait is on a condition outside the block; `left` clocks of the window remain. -/
def waitsOutside (s : State) (b : Nat) (x : Block) (c left : Nat) (t : Slot) : Bool :=
  match t.st with
  | .parked _ _ _ => true
  | .waiting (.object (.launch _ _) _ _) => true
  | .waiting (.object (.bar core off _) _ _) => !ownStash x core off
  | .waiting (.object (.bmp va _) _ _) =>
    (match windowOf va.toNat with
     | .loc _ => false
     | .cluster j o => !ownStash x (clusterCore x.core j) o
     | _ => true)
  | .waiting (.retry (.delivery _)) => true
  | .waiting (.retry (.reg code)) => sendRetrying s b c code
  | .waiting (.sleep till) => decide (s.clock + left < till)
  | _ => false

/-- The outside wait of a slot has been met. -/
def outsideMet (s : State) (b : Nat) (x : Block) (c : Nat) (y : Crew) (t : Slot) : Bool :=
  match t.st with
  | .parked _ _ _ => parkedRoom s t
  | .waiting (.object o _ dl) =>
    waitHolds s x y o || (match dl with
      | some d => decide (d ≤ s.clock)
      | none => false)
  | .waiting (.retry (.delivery va)) => wordAt s x ((va.toNat + 0x14) % 2 ^ 64) != some 0
  | .waiting (.retry (.reg code)) => !sendRetrying s b c code
  | .waiting (.sleep till) => decide (till ≤ s.clock)
  | _ => false

/-- The slot has lanes. -/
def liveSlot (t : Slot) : Bool := t.mask != 0

/-- Every live slot of the block waits outside it, its condition not yet met: a slot whose condition is met is READY
(R29). -/
def allOutside (s : State) (b : Nat) (x : Block) (left : Nat) : Bool :=
  let ts := (slotsOf x).filter fun e => liveSlot e.2.2
  !ts.isEmpty && ts.all fun e => waitsOutside s b x e.1 left e.2.2 && !outsideMet s b x e.1 e.2.1 e.2.2

/-- R40: the die holds a pending block that would fit on this core with this block's resources freed, and whose fleet fits
nowhere on the die (a fleet is placed whole; DEDUCED, log 76). -/
def blocksPending (s : State) (b : Nat) (x : Block) : Bool :=
  let die := dieOfCore x.core
  (pendingLaunches s die).any fun e =>
    (fleetRooms s die e.2.kern none []).isNone && (fitsOn s x.core (needOf e.2.kern) [b]).isSome

/-- Clocks of the window that remain. -/
def windowLeft (s : State) (x : Block) : Nat := x.outsideSince.getD s.clock + 65536 - s.clock

/-- Both conditions of R40 hold. -/
def outsideHolds (s : State) (b : Nat) (x : Block) : Bool :=
  x.st == .running && noneHalted s b && allOutside s b x (windowLeft s x) && blocksPending s b x

/-- R40: the count starts in the first clock in which both conditions hold, and returns to zero in any in which one
fails. -/
def countOutside (s : State) : State :=
  { s with blocks := s.blocks.map fun e =>
      if outsideHolds s e.1 e.2 then (e.1, { e.2 with outsideSince := some (e.2.outsideSince.getD s.clock) })
      else if e.2.outsideSince.isSome then (e.1, { e.2 with outsideSince := none })
      else e }

/-- The clock at which a block that waits outside is to be saved, with a free pool slot (R243). -/
def outsideDue (s : State) (b : Nat) (x : Block) : Option Nat :=
  if x.outsideSince.isSome && launchLive s x.launch && outsideHolds s b x && (poolFree s).isSome then
    x.outsideSince.map (· + 65536)
  else none

/-- The clock at which a checkpoint window ends (R240). -/
def windowDue (s : State) (x : Block) : Option Nat :=
  if x.st == .running && x.halting.isNone && launchLive s x.launch then x.chkptTill else none

/-- The saves that time makes due: each is made in its clock (R39, R40, R240). -/
def dueSaves (s : State) : List Instr :=
  s.blocks.flatMap fun e =>
    (if isDue s (parkDue s e.1 e.2) then [.parkSaveTimeout e.1] else [])
      ++ (if isDue s (outsideDue s e.1 e.2) then [.outsideWaitSave e.1] else [])
      ++ (if isDue s (windowDue s e.2) then [.checkpointWindowExpiry e.1] else [])

/-- The clocks at which saves fall due. -/
def saveClocks (s : State) : List Nat :=
  s.blocks.flatMap fun e =>
    (parkDue s e.1 e.2).toList ++ (outsideDue s e.1 e.2).toList ++ (windowDue s e.2).toList

/-- The object and the value of the first outside wait. -/
def outsideObject (s : State) (b : Nat) (x : Block) : DWord × DWord :=
  match (slotsOf x).find? fun e => liveSlot e.2.2 && waitsOutside s b x e.1 0 e.2.2 with
  | some (_, _, t) =>
    (match t.st with
     | .waiting (.object (.launch i n) _ _) => (BitVec.ofNat 64 (tlAddr s (ctxOf s x) i), BitVec.ofNat 64 n)
     | .waiting (.object (.bar core off ph) _ _) =>
       (BitVec.ofNat 64 (0x200_0000 + core % 24 * 0x20_0000 + off), BitVec.ofNat 64 ph.toNat)
     | .waiting (.object (.bmp va w) _ _) => (va, BitVec.ofNat 64 w.toNat)
     | .waiting (.retry (.delivery va)) => (va, 0)
     | _ => (0, 0))
  | none => (0, 0)

def execOutsideWaitSave (b : Nat) (s : State) : Host.Outcome State Fault Refusal :=
  match s.blocks.find b with
  | none => .next s
  | some x =>
    if isDue s (outsideDue s b x) then
      let (o, v) := outsideObject s b x
      .next (preemptToo s b x.core (beginSave (setBlock s b { x with object := o, value := v }) b 4))
    else .next s

/-! ## Completing a save (R242, R243) -/

/-- A copy of the block with something left to land. -/
def copiesLanding (s : State) (b : Nat) : Bool := s.copies.any fun e => e.2.blk == b && !(openPieces e.2).isEmpty

/-- Requests of the block in flight, but for faulted stores. -/
def requestsOut (s : State) (b : Nat) : Bool := storesOut s b true

/-- Another block of the fleet has yet to make an access to the core's stash. -/
def meshOut (s : State) (b : Nat) (x : Block) : Bool :=
  s.reqs.any fun e => e.2.blk != b && e.2.st != .faulted &&
    (match s.blocks.find e.2.blk with
     | some y => y.launch == x.launch && y.fleet == x.fleet
     | none => false)
    && (reqAccs e.2).any fun a => isStashPa a.addr && stashPaCore a.addr == x.core

/-- R242 steps 2 and 3 are done. -/
def saveQuiet (s : State) (b : Nat) (x : Block) : Bool :=
  !meshOut s b x && !copiesLanding s b && !roundOut s x && !matrixOut s x.core b && !requestsOut s b && !faultUntold s b && !capsOut s b

/-- The entries that a block owns. -/
def ownedEntries (s : State) (b core : Nat) : List (Nat × Mooring) :=
  (coreOf s core).moorings.filter fun e => e.2.owner == some b

/-- R59, R54: the snapshot is taken and the entries become surviving. -/
def takeSnapshot (s : State) (b core : Nat) : List (Nat × MoorRec) × State :=
  let es := ownedEntries s b core
  (es.map fun e => (e.1, e.2.mrec),
    es.foldl (fun s e =>
      let c := coreOf s core
      setCore s core { c with moorings := c.moorings.put e.1 { e.2 with owner := none } }) s)

/-- R267: the matrix units of a block. -/
def heldUnits (s : State) (x : Block) : Table MatUnit :=
  if x.kern.tiles = 0 then []
  else ((List.range 8).filter fun p => decide (0 < crewsOn x.kern.crews p)).map fun p => (p, unitOf s x.core p)

/-- The records of the save, each with the image's address and a token. -/
def postSaved (s : State) (b die : Nat) (addr : DWord) (rs : List FRec) : List Nat × State :=
  match rs with
  | [] => ([], s)
  | r :: q =>
    let who : TokenOf := if r.cause = .bkpth then .halt b true else .block b
    let (t, s1) := postAck s die { r with aux := addr } who
    let (ts, s2) := postSaved s1 b die addr q
    (t :: ts, s2)

/-- R243: the pool has passed to having no free slot. -/
def reportPool (before after : State) : State :=
  if (poolFree before).isSome && poolFull after then
    postRec after 0 (eventRec .poolfull 194 0 0 0 0)
  else after

/-! ### What stands beside the bytes of a stash -/

/-- Entries under `n` keys from `k` on come to stand from `k'` on, in the place of what stood there. -/
def moveKeys {α : Type} (t : Table α) (k k' n : Nat) : Table α :=
  t.foldl (fun (a : Table α) e =>
    if k ≤ e.1 ∧ e.1 < k + n then a.put (k' + (e.1 - k)) e.2
    else if k' ≤ e.1 ∧ e.1 < k' + n then a
    else a.put e.1 e.2) []

/-- What reads and waits synchronise with moves with `n` bytes of a stash (R89, R96, R98, R104). -/
def moveStash (s : State) (core off core' off' n : Nat) : State :=
  let k := placeKey (.stash core off)
  let k' := placeKey (.stash core' off')
  { s with
    marks := moveKeys s.marks k k' n
    bars := moveKeys s.bars k k' n
    bits := moveKeys s.bits (32 * k) (32 * k') (32 * n) }

/-- A saved block's stash stands in no core: a number that no core has. -/
def imageCore (b : Nat) : Nat := 1024 + b

/-- The block is SAVED in a pool slot and its core is freed. -/
def completeSave (s : State) (b slot : Nat) (x : Block) : State :=
  let (snap, s1) := takeSnapshot s b x.core
  let x1 := { x with snapshot := snap }
  let addr := imageAddr s slot
  let s2 := { writePlace s1 (.dev addr) (imageBytes s1 b x1) with free := s1.free + 1 }
  let s3 := { s2 with regs := { s2.regs with poolUsed := s2.regs.poolUsed ++ [slot] } }
  let (ts, s4) := postSaved (reportPool s s3) b (dieOfCore x.core) (BitVec.ofNat 64 addr) x.recs
  let x2 := { x1 with
    st := .saved, image := some slot, savedAt := s.clock, recs := [], tokens := x.tokens ++ ts, placeable := none,
    parkedSince := none, outsideSince := none, chkptTill := none }
  wakeDies (later (postCopies (setBlock (moveStash s4 x.core x.base (imageCore b) 0 x.kern.stash) b x2) b) (.blockRestore b))

/-- The block as it is saved: its units, and of crews stopped at checkpoints the live registers alone. -/
def blockToSave (s : State) (x : Block) : Accepted Block := applyLive s { x with units := heldUnits s x } x.crews

/-- R232, R243: a save cannot take its slot yet: the quay island is full of records, or the pool is. -/
def saveHeld (s : State) (x : Block) : Bool :=
  (!x.recs.isEmpty && decide (64 ≤ (dieOf s (dieOfCore x.core)).waiting.length)) || (poolFree s).isNone

def execSaveComplete (b : Nat) (s : State) : Host.Outcome State Fault Refusal :=
  match s.blocks.find b with
  | none => .next s
  | some x =>
    if x.st ≠ .saving ∨ launchLive s x.launch = false then .next s
    else if !saveQuiet s b x then .next (later s (.saveComplete b))
    else
      let s1 := parkBlock s b
      let es := (ownedEntries s1 b x.core).map (·.1)
      if es.any (unflushed s1 x.core) then
        .next (later (es.foldl (fun s e => startFlush s x.core e) s1) (.saveComplete b))
      else
        match s1.blocks.find b with
        | none => .next s1
        | some y =>
          if saveHeld s1 y then .next (later s1 (.saveComplete b))
          else
            match poolFree s1, blockToSave s1 y with
            | some slot, .ok z => .next (completeSave s1 b slot z)
            | _, .again e => .next (later (engAgain s1 (dieOfCore y.core) e) (.saveComplete b))
            | _, _ => .next (later s1 (.saveComplete b))

/-! ## When a saved block may return (R41) -/

/-- The conditions of the save's causes are met. A block saved for a park or an outside wait, and its fleet with it, may
return once the condition of any one slot of the fleet that parked or waited is met (DESIGN CHOICE, log 76). -/
def causesMet (s : State) (b : Nat) (x : Block) : Bool :=
  let mates := (withFleet s b).filterMap fun k => (s.blocks.find k).map fun y => (k, y)
  x.tokens.isEmpty
    && (!nbit x.causes 1 || mates.any fun m => (slotsOf m.2).any fun e => parkedRoom s e.2.2)
    && (!nbit x.causes 2 || mates.any fun m => (slotsOf m.2).any fun e =>
      liveSlot e.2.2 && outsideMet s m.1 m.2 e.1 e.2.1 e.2.2)

/-! ## Restoring (R245) -/

/-- Stash allocations that have moved: from core and base, of a size, to core and base. -/
structure Moved where
  fromCore : Nat
  fromBase : Nat
  size : Nat
  toCore : Nat
  toBase : Nat
  deriving DecidableEq, Repr

/-- A stash byte as it stands after the restore. -/
def movedTo (ms : List Moved) (core off : Nat) : Nat × Nat :=
  match ms.find? fun m => m.fromCore == core && decide (m.fromBase ≤ off) && decide (off < m.fromBase + m.size) with
  | some m => (m.toCore, m.toBase + (off - m.fromBase))
  | none => (core, off)

/-- A slot of a restored crew: waits on objects go on, retargeted; other waits issue their word again. -/
def restoredSlot (ms : List Moved) (t : Slot) : Slot :=
  match t.st with
  | .waiting (.object (.bar core off ph) pd dl) =>
    let p := movedTo ms core off
    { t with st := .waiting (.object (.bar p.1 p.2 ph) pd dl) }
  | .waiting (.retry _) => { t with st := .ready }
  | .waiting (.walk _ _ _ _) => { t with st := .ready }
  | .waiting (.remote _) => { t with st := .ready }
  | .waiting (.stopped _) => { t with st := .ready }
  | _ => t

/-- A restored crew: T has stood still (R104), and copies filled before it came to another core miss; `mark` is their
bound. -/
def restoredCrew (ms : List Moved) (clock savedAt slotNo : Nat) (mark : Option Nat) (y : Crew) : Crew :=
  { y with
    leaseMark := mark.getD y.leaseMark
    slot0 := { restoredSlot ms y.slot0 with readyAt := clock, favoured := false, starved := false }
    slot1 := { restoredSlot ms y.slot1 with readyAt := clock, favoured := false, starved := false }
    tLag := y.tLag + (clock - savedAt)
    crewSlot := slotNo }

/-- R59: a snapshot entry is taken over, or made again. -/
def restoreEntry (core base b : Nat) (c : Ctx) (s : State) (e : Nat × MoorRec) : State :=
  let x := coreOf s core
  let at' := base + e.2.lbase
  match x.moorings.find? fun m => m.2.owner.isNone && moorSame m.2 e.2 at' with
  | some m => ownEntry s core m.1 b
  | none =>
    let s1 := match freeIndex x, oldestSurviving x with
      | none, some i => releaseEntry s core i
      | _, _ => s
    let idx := if ((coreOf s1 core).moorings.find e.1).isNone then some e.1 else freeIndex (coreOf s1 core)
    match idx with
    | some i => makeEntry s1 core i e.2 at' (some b) c
    | none => s1

/-- A store whose bytes stand under virtual addresses, its page now known: it sets out, or faults (R75, R229). -/
def sendStore (s : State) (n : Nat) (r : Req) (t : Tlb) : State :=
  match r.kind with
  | .store va gs _ tw =>
    let f := storeCause s t va
    let dest := sliceOf (tlbPa t va)
    let r1 := { r with
      kind := .store va (gs.map fun g => g.map fun p => (tlbPa t p.1, p.2)) t.attr tw
      virt := false, dest := dest, gen := genOf s dest r.core, told := false, cause := f
      st := if f.isSome then .faulted else .waiting }
    later { s with reqs := s.reqs.put n r1 } (if f.isSome then .storeFault n else .requestInject n)
  | .load _ _ _ _ _ | .red _ _ => s

/-- The stored bytes under virtual addresses again. -/
def virtualStore (r : Req) : Req :=
  match r.kind with
  | .store va gs a tw =>
    if r.virt then r
    else { r with virt := true, kind := .store va (gs.map fun g => g.map fun p => (va / 128 * 128 + p.1 % 128, p.2)) a tw }
  | .load _ _ _ _ _ | .red _ _ => r

/-- R231: a pending store is translated and sets out anew from the core to which its block has come. -/
def replayStore (s : State) (b : Nat) (x : Block) (e : Nat × Req) : State :=
  let r := { virtualStore e.2 with core := x.core, bi := residentIndex s b x.core, told := false, cause := none }
  match r.kind with
  | .store _ [] _ _ => { s with reqs := s.reqs.drop e.1 }
  | .store va _ _ _ =>
    (match tlbFind s x.core (ctxOf s x) va with
     | some t => sendStore s e.1 r t
     | none =>
       let (w, s1) := startWalk s (dieOfCore x.core) (ctxOf s x) va
       { s1 with reqs := s1.reqs.put e.1 { r with st := .walking w } })
  | .load _ _ _ _ _ | .red _ _ => s

/-- The address of a stash byte as it stands after the restore. -/
def movedPa (ms : List Moved) (a : Nat) : Nat :=
  if isStashPa a then
    let p := movedTo ms (stashPaCore a) (stashPaOff a)
    stashPa p.1 p.2
  else a

/-- What a request still does, its stash bytes where they stand after the restore. -/
def movedKind (ms : List Moved) (k : ReqKind) : ReqKind :=
  match k with
  | .store va gs a tw => .store va (gs.map fun g => g.map fun p => (movedPa ms p.1, p.2)) a tw
  | .load ps bytes f ac acq => .load (ps.map fun p => { p with pa := movedPa ms p.pa }) bytes f ac acq
  | .red ps tw => .red (ps.map fun p => { p with pa := movedPa ms p.pa }) tw

/-- An access that was lost to a fault and stands in no image (R234, R247) is made again after the restore, like a
store. -/
def replayLost (ms : List Moved) (s : State) (b : Nat) (x : Block) : State :=
  (s.reqs.filter fun e => e.2.blk == b && e.2.st == .faulted && !(isStoreReq e.2 && e.2.homed)).foldl (fun s e =>
    let r := { e.2 with
      kind := movedKind ms e.2.kind, mapsTo := e.2.mapsTo.map fun p => (movedPa ms p.1, p.2)
      st := if e.2.homed then .waiting else .injected
      core := x.core, bi := residentIndex s b x.core, gen := genOf s e.2.dest x.core, told := false
      cause := none }
    later { s with reqs := s.reqs.put e.1 r } (if e.2.homed then .requestInject e.1 else .homeSliceRequest e.1)) s

/-- The surviving entries that stay where a block is restored keep their lines (R51, R59; of those that only the plan
names, DESIGN CHOICE, log 76). -/
def keptLine (s : State) (core o : Nat) : Bool := (mooringAt s core o).isSome

/-- The private stash and the divergence stacks, as the image holds them, but for the lines that are kept. -/
def loadStash (s : State) (bs : List Byte) (x : Block) (core base : Nat) : State :=
  let n := x.kern.stash
  let s1 := (List.range (n / 128)).foldl (fun s i =>
    if keptLine s core (base + 128 * i) then s
    else writePlace s (.stash core (base + 128 * i)) ((bs.drop (stashOffset x.kern + 128 * i)).take 128)) s
  writePlace s1 (.stash core (base + n)) ((bs.drop (stackOffset x.kern)).take (512 * x.kern.crews))

/-- The crews of a block, as the image holds what it lays out of them; the rest comes with the opaque control block. -/
def loadCrews (s : State) (b : Nat) (bs : List Byte) (x : Block) : List (Nat × Crew) :=
  let o := tapeOffset x.kern (pendingStores s b).length
  (readTapes bs o (o + 0x8000) x.crews).map fun e =>
    (e.1, readStack x.kern bs e.1 (readVectors x.kern bs e.1 { e.2 with v := [] }))

/-- What the image gives a restored block: crews, snapshot, units, stash, pending stores and armatures. -/
def loadImage (s : State) (b : Nat) (bs : List Byte) (x : Block) (core base : Nat) : Block × State :=
  let ps := pendingStores s b
  let y := { x with crews := loadCrews s b bs x, snapshot := readSnapshot bs x }
  let s1 := readArms (loadStash s bs x core base) x bs (armOffset x.kern ps.length)
  let s2 := (readStores x.kern bs ps).foldl (fun s e => { s with reqs := s.reqs.put e.1 e.2 }) s1
  if x.kern.tiles = 0 then (y, s2)
  else
    let parts := (List.range 8).filter fun p => decide (0 < crewsOn x.kern.crews p)
    (y, parts.foldl (fun s p => setUnit s core p (readUnit x.kern bs p)) s2)

/-- The bytes of a block's image. -/
def readImage (s : State) (b : Nat) (x : Block) : List Byte :=
  match x.image with
  | some i => readPlace s (.dev (imageAddr s i)) (imageSize s b x)
  | none => []

/-- The core that a restored block has come to differs from the one it was saved on: its crews take a new mark. -/
def moveMark (s : State) (x : Block) (core : Nat) : Option Nat × State :=
  if x.core = core then (none, s)
  else
    let (n, s1) := freshId s
    (some n, s1)

/-- The pool slot of an image is free again, and a placement has been made. -/
def tookImage (s : State) (x : Block) (core : Nat) : State :=
  let d := dieOfCore core
  let s1 := { s with regs := { s.regs with poolUsed := s.regs.poolUsed.filter fun i => some i != x.image } }
  setDie s1 d { dieOf s1 d with placed := (dieOf s1 d).placed + 1 }

/-- The mooring plan of a saved block, as the die to which it goes reads it. -/
def restorePlan (s : State) (e : Nat × Room) : Except EngErr (List MoorRec) :=
  match s.blocks.find e.1 with
  | none => .ok []
  | some x => planOf s (dieOfCore e.2.core) (ctxOf s x) x.kern

/-- One block of a fleet is loaded and retargeted: it is RESTORING, and its pending stores are replayed first. -/
def restoreBlock (ms : List Moved) (s : State) (p : (Nat × Room) × List MoorRec) : State :=
  let e := p.1
  match s.blocks.find e.1 with
  | none => s
  | some x =>
    let core := e.2.core
    let c := ctxOf s x
    let bs := readImage s e.1 x
    let recs := x.snapshot.map (·.2) ++ p.2
    let s1 := clearOverlaps (changeContext s core c) core e.2.base (stashOf x) recs
    let res := heldOn s1 core []
    let (y, s2) := loadImage (moveStash s1 (imageCore e.1) 0 core e.2.base x.kern.stash) e.1 bs x core e.2.base
    let (mark, s3) := moveMark (y.snapshot.foldl (restoreEntry core e.2.base e.1 c) s2) x core
    let crews := y.crews.map fun p =>
      (p.1, restoredCrew ms s.clock x.savedAt (slotNumber res p.1) mark p.2)
    let z := { y with
      core := core, base := e.2.base, st := .restoring, crews := crews, causes := 0, object := 0, value := 0, recs := [],
      image := none, snapshot := [], placeable := none, units := [], placedAt := s.clock, outsideSince := none,
      halting := none, parkedSince := none }
    let z1 := if anyParked z then { z with parkedSince := some s.clock } else z
    let s4 := setBlock (tookImage s3 x core) e.1 z1
    later ((pendingStores s4 e.1).foldl (fun s r => replayStore s e.1 z1 r) (replayLost ms s4 e.1 z1)) (.blockRestore e.1)

/-- The core's buffer would hold more than its 64 KiB: the crew whose staged records leave (R16, R311). -/
def shedding (s : State) (b : Nat) (x : Block) : Option Nat :=
  if stagingRoom s x.core 0 then none else (s.blocks.find b).bind stagedCrew

/-- R245: once its pending stores are performed and its staged bytes have room, the block runs: its copies, then its
waits and its crews. -/
def finishRestore (s : State) (b : Nat) (x : Block) : State :=
  if s.reqs.any fun e => e.2.blk == b then later s (.blockRestore b)
  else
    match shedding s b x with
    | none => resumeBlock s b
    | some c => later (writeOutStep s b c) (.blockRestore b)

/-- R245: the image fails its check. -/
def dockBad (s : State) (b : Nat) (x : Block) (core : Nat) : State :=
  let r := { blockRec s x .dockbad 64 0 0 0 0 0 0 0 0 with agent := core }
  endGrid (postRec s (dieOfCore core) r) (match s.blocks.find b with
    | some y => y.launch
    | none => x.launch)

/-- The members and their rooms, once the block may be restored now. -/
def restoreNow (s : State) (b : Nat) (x : Block) : Option (List (Nat × Block) × List (Nat × Room)) :=
  match placeableMembers s b with
  | none => none
  | some ms =>
    match restoreRooms s ms with
    | some ((k, r) :: q) =>
      let die := dieOfCore r.core
      if fleetBefore s die x || savedFirst s die x then none else some (ms, (k, r) :: q)
    | _ => none

def execBlockRestore (b : Nat) (s : State) : Host.Outcome State Fault Refusal :=
  match s.blocks.find b with
  | none => .next s
  | some x =>
    if launchLive s x.launch = false then .next s
    else if x.st = .restoring then .next (finishRestore s b x)
    else if x.st ≠ .saved then .next s
    else if x.placeable.isNone then
      if causesMet s b x then
        let (n, s1) := freshId s
        .next (later (setBlock s1 b { x with placeable := some n }) (.blockRestore b))
      else .next (later s (.blockRestore b))
    else
      match restoreNow s b x with
      | none => .next (later s (.blockRestore b))
      | some (ms, rs) =>
        match ms.find? fun e => !imageGood s e.1 e.2 (readImage s e.1 e.2) with
        | some e => .next (dockBad s e.1 e.2 ((rs.headD (b, ⟨[], 0, 0⟩)).2.core))
        | none =>
          let mv := rs.filterMap fun p => (s.blocks.find p.1).map fun y =>
            (⟨y.core, y.base, y.kern.stash, p.2.core, p.2.base⟩ : Moved)
          match rs.mapM (restorePlan s) with
          | .error e => .next (later (engAgain s (dieOfCore x.core) e) (.blockRestore b))
          | .ok plans =>
            let t := wakeDies ((rs.zip plans).foldl (restoreBlock mv) s)
            .next (((dropsWait s t (rs.map fun q => q.2.core)).map fun s1 => later s1 (.blockRestore b)).getD t)

end Sys2Proof.Machine
end

