-- ==== Sys2Proof/Machine/Sync.lean ====
section
/-! DEFINITION. Barriers and WAIT, and the steps that end waits and sleeps
(15_instr_control_memory.md R178, R197 to R199; 03_execution_rules.md R27, R42). -/

namespace Sys2Proof.Machine

/-! ## BINIT, BARV, BPAR (R198) -/

/-- The object that an operand names. -/
def barE (h : Here) (a : Opnd) : Exec (Nat × Nat) := do
  let s ← getE
  match barAt s h (srcNum s h a 1 0) with
  | some p => do
    meshE h p.1
    orderE h (hMask h) (accsOf (stashPa p.1 p.2) 32 0 (hMask h))
    updCrewE h (forgetLines (stashLines p.1 p.2 32))
    pure p
  | none => trapE h .barmis

/-- The object that an operand names, in order (R7: barrier misuse where its zero field is not zero; DESIGN CHOICE,
log 80). -/
def goodBarE (h : Here) (a : Opnd) : Exec (Nat × Nat) := do
  let p ← barE h a
  let s ← getE
  if barOk s p.1 p.2 then pure p else trapE h .barmis

def execBinit (a b : Opnd) (c : Option Opnd) (s : State) : Host.Outcome State Fault Refusal :=
  issueWord (.binit a b c) s fun h => do
    let p ← barE h a
    let s ← getE
    let n := srcNum s h b 1 0
    let k := match c with
      | some o => srcNum s h o 1 0
      | none => 0
    if (n = 0 ∧ k = 0) ∨ (readBar s p.1 p.2).waitm ≠ 0 then trapE h .barmis
    else do
      modifyE fun s => { writeBar (meshSent h p.1 s) p.1 p.2 ⟨0, n, k, 0, 0, 0⟩ with bars := s.bars.drop (barKey p.1 p.2) }
      nextE h

def execBarv (d a b : Opnd) (s : State) : Host.Outcome State Fault Refusal :=
  issueWord (.barv d a b) s fun h => do
    let p ← goodBarE h a
    let s ← getE
    let x := readBar s p.1 p.2
    if x.arrt = 0 ∧ x.bytt = 0 then trapE h .barmis
    else do
      drainE h (hMask h)
      modifyE fun s => creditBar (meshSent h p.1 s) p.1 p.2 (srcNum s h b 1 0) 0 (timeOf s h.b h.c)
      updCrewE h fun y => putDst y false d 1 (hMask h) fun _ => (x.phase + 1) % 2 ^ 32
      nextE h

def execBpar (pd : Fin 8) (a : Opnd) (s : State) : Host.Outcome State Fault Refusal :=
  issueWord (.bpar pd a) s fun h => do
    let p ← goodBarE h a
    let s ← getE
    modifyE (meshSent h p.1)
    updCrewE h fun y =>
      writeP y pd.val (hMask h) (if nbit (readBar s p.1 p.2).phase 0 then BitVec.allOnes 32 else 0)
    nextE h

/-! ## WAIT (R199) -/

/-- A timeout of 0 clocks, or none, means none. -/
def deadlineOf (s : State) (h : Here) (c : Option Opnd) : Option Nat :=
  match c with
  | none => none
  | some o =>
    let n := srcNum s h o 1 0
    if n = 0 then none else some (s.clock + n)

/-- The slot waits for the object; the wake and the time-out come as marks, once they are due (dueWakes). -/
def startWait (s : State) (h : Here) (o : WaitObj) (pd : Fin 8) (dl : Option Nat) : State :=
  let s1 := match o with
    | .bar core off _ => markWait (meshSent h core s) core off h.c true
    | _ => s
  let s2 := match o with
    | .tape _ => later s1 (.tapeWriteOut h.b h.c)
    | _ => s1
  waitSlot s2 h (.object o pd dl)

/-- A wait succeeds at once, or begins. In handler mode it ends the grid with error (R238). -/
def waitBody (pd : Fin 8) (c : Option Opnd) (obj : Here → Exec WaitObj) (h : Here) : Exec Unit := do
  if h.crew.handler.isSome then trapE h .barmis
  else do
    let o ← obj h
    modifyE fun s =>
      if waitHolds s h.blk h.crew o then endWait s h o pd.val true else startWait s h o pd (deadlineOf s h c)

def execWaitBar (pd : Fin 8) (a b : Opnd) (c : Option Opnd) (s : State) : Host.Outcome State Fault Refusal :=
  issueWord (.waitBar pd a b c) s (waitBody pd c fun h => do
    let p ← goodBarE h a
    let s ← getE
    pure (.bar p.1 p.2 (BitVec.ofNat 32 (srcNum s h b 1 0))))

/-- The word of a bitmap can be read: its faults are precise. -/
def bmpReadyE (h : Here) (va : Nat) : Exec Unit := do
  match routeOf va 4 with
  | .global => do
    let _ ← engReadE h va 4
  | w => do
    let _ ← stashE h w va 4 false (hMask h)

def execWaitBmp (pd : Fin 8) (a b : Opnd) (c : Option Opnd) (s : State) : Host.Outcome State Fault Refusal :=
  issueWord (.waitBmp pd a b c) s (waitBody pd c fun h => do
    let s ← getE
    let va := srcNum s h a 2 0
    if va % 4 ≠ 0 then trapE h .barmis
    else do
      bmpReadyE h va
      pure (.bmp (BitVec.ofNat 64 va) (BitVec.ofNat 32 (srcNum s h b 1 0))))

def execWaitAc (pd : Fin 8) (n : Fin 16) (c : Option Opnd) (s : State) : Host.Outcome State Fault Refusal :=
  issueWord (.waitAc pd n c) s (waitBody pd c fun _ => pure (.ac n.val))

/-- R199: the counter that a selector names; none is barrier misuse. -/
def counterOf (s : State) (h : Here) (sel n : Nat) : Option WaitObj :=
  match sel with
  | 0 => some (.copies n)
  | 1 => some (.batches n)
  | 2 => some (.tape n)
  | _ =>
    if 0x10000 ≤ sel ∧ sel - 0x10000 < tlCount s (ctxOf s h.blk) then some (.launch (sel - 0x10000) n) else none

def execWaitTl (pd : Fin 8) (a b : Opnd) (c : Option Opnd) (s : State) : Host.Outcome State Fault Refusal :=
  issueWord (.waitTl pd a b c) s (waitBody pd c fun h => do
    let s ← getE
    match counterOf s h (srcNum s h a 1 0) (srcNum s h b 2 0) with
    | some o => pure o
    | none => trapE h .barmis)

/-! ## The steps that end a wait -/

/-- The slot with its block, when the block runs; a saved or halted block keeps its waits for later. -/
def slotNow (s : State) (r : SlotRef) : Option Here := hereAt s r

/-- A step that is not yet possible comes again. -/
def notYet (s : State) (i : Instr) : Host.Outcome State Fault Refusal := .next (later s i)

def execWaitWake (r : SlotRef) (s : State) : Host.Outcome State Fault Refusal :=
  match slotNow s r with
  | none => .next s
  | some h =>
    match (hSlot h).st with
    | .waiting (.object o pd _) =>
      if h.blk.st == .running && waitHolds s h.blk h.crew o then .next (endWait s h o pd.val true) else .next s
    | _ => .next s

/-- R199: a wait whose clocks have passed tests its condition once. -/
def execWaitTimeout (r : SlotRef) (s : State) : Host.Outcome State Fault Refusal :=
  match slotNow s r with
  | none => .next s
  | some h =>
    match (hSlot h).st with
    | .waiting (.object o pd (some dl)) =>
      if h.blk.st == .running && decide (dl ≤ s.clock) then
        .next (endWait s h o pd.val (waitHolds s h.blk h.crew o))
      else .next s
    | _ => .next s

def execSleepExpiry (r : SlotRef) (s : State) : Host.Outcome State Fault Refusal :=
  match slotNow s r with
  | none => .next s
  | some h =>
    match (hSlot h).st with
    | .waiting (.sleep till) =>
      if h.blk.st == .running && decide (till ≤ s.clock) then .next (nextWord s h) else notYet s (.sleepExpiry r)
    | _ => .next s

/-- R199: the condition of a wait is evaluated on each update of its object: the wakes and time-outs that are due. -/
def dueWakes (s : State) : List Instr :=
  s.blocks.flatMap fun b =>
    if b.2.st != .running then []
    else b.2.crews.flatMap fun c => [0, 1].flatMap fun k =>
      match (slotOf c.2 k).st with
      | .waiting (.object o _ dl) =>
        if waitHolds s b.2 c.2 o then [.waitWake ⟨b.1, c.1, k⟩]
        else
          match dl with
          | some t => if t ≤ s.clock then [.waitTimeout ⟨b.1, c.1, k⟩] else []
          | none => []
      | _ => []

/-- The clocks at which time-outs fall due. -/
def wakeClocks (s : State) : List Nat :=
  s.blocks.flatMap fun b =>
    if b.2.st != .running then []
    else b.2.crews.flatMap fun c => [0, 1].filterMap fun k =>
      match (slotOf c.2 k).st with
      | .waiting (.object _ _ dl) => dl
      | _ => none

/-! ## Issue order (R27, R42) -/

/-- R42: a slot READY for 4,096 clocks without issue goes before every other. -/
def execStarvationIssue (r : SlotRef) (s : State) : Host.Outcome State Fault Refusal :=
  match hereAt s r with
  | none => .next s
  | some h =>
    let t := hSlot h
    if selectable s h.b h.blk h.c h.crew h.k && decide (t.readyAt + Config.starvation ≤ s.clock) then
      .next (updSlot s h.b h.c h.k fun t => { t with starved := true })
    else .next s

/-- R27: a slot not issued for 64 eligible clocks goes before the other slot of its crew. -/
def execFairnessPrecedence (r : SlotRef) (s : State) : Host.Outcome State Fault Refusal :=
  match hereAt s r with
  | none => .next s
  | some h =>
    let t := hSlot h
    if selectable s h.b h.blk h.c h.crew h.k && decide (t.readyAt + Config.fairness ≤ s.clock) then
      .next (updSlot s h.b h.c h.k fun t => { t with favoured := true })
    else .next s

/-- A path whose capsule step is to restart waits for that in its slot too (R280); another one issues. -/
def poppedSt (y : Crew) (m : Mask) : SlotSt :=
  match y.holding with
  | some h =>
    (match h.resting with
     | some till => if m.getLsbD h.lane then .waiting (.conflict till) else .ready
     | none => .ready)
  | none => .ready

/-- R28: an entry as its 16 bytes stand in the stash: another block may have stored over them (R46). -/
def storedSpill (s : State) (blk : Block) (c : Nat) (p : Spill) (depth : Nat) : Spill :=
  let a := blk.base + blk.kern.stash + 512 * c + 16 * depth
  { p with
    pc := BitVec.ofNat 64 (numAt s (.stash blk.core a) 8)
    mask := BitVec.ofNat 32 (numAt s (.stash blk.core (a + 8)) 4)
    depth := numAt s (.stash blk.core (a + 12)) 2 }

/-- R27: the top of the divergence stack goes into a free slot, as the stash holds it. -/
def popSpill (s : State) (blk : Block) (c : Nat) (y : Crew) : Crew :=
  match y.spills with
  | [] => y
  | q :: r =>
    let p := storedSpill s blk c q r.length
    let t : Slot := { emptySlot with
      pc := p.pc, mask := p.mask, st := poppedSt y p.mask, region := p.region, age := p.age, readyAt := s.clock, due := p.due, emit := p.emit }
    if y.slot0.mask = 0 then { y with slot0 := t, spills := r }
    else if y.slot1.mask = 0 then { y with slot1 := t, spills := r }
    else y

def execDivergencePop (blk crew : Nat) (s : State) : Host.Outcome State Fault Refusal :=
  match s.blocks.find blk, crewOf s blk crew with
  | some x, some y => .next (if y.handler.isNone then putCrew s blk crew (popSpill s x crew y) else s)
  | _, _ => .next s

end Sys2Proof.Machine
end

