-- ==== Sys2Proof/Machine/Agenda.lean ====
section
/-! DEFINITION. The steps that may come next, the passage of time, and loads before their turn
(03_execution_rules.md R42, 07_consistency_rules.md R90; log 1, log 2). -/

namespace Sys2Proof.Machine

/-! ## Marks of time -/

/-- R337: token windows of 64 clocks that are to open. -/
def dueWindows (s : State) : List Instr :=
  ((List.range 4).filter fun d => decide ((dieOf s d).window < s.clock / 64)).map fun d => .tokenWindow (Fin.ofNat 4 d)

/-- The clocks at which token windows open. -/
def windowClocks (s : State) : List Nat := (List.range 4).map fun d => ((dieOf s d).window + 1) * 64

/-- The clock at which TSHIFT of a die falls: its temperature has stayed below 95 °C for 1 ms (R340). -/
def decayClock (d : Die) : Option Nat := if d.tshift = 0 then none else d.coolSince.map (· + 1750000)

def decayDue (s : State) (d : Die) : Bool :=
  match decayClock d with
  | some t => decide (t ≤ s.clock)
  | none => false

/-- R340: thermal trips and decays that are due. -/
def dueHeat (s : State) : List Instr :=
  (List.range 4).flatMap fun d =>
    (if 120 ≤ (dieOf s d).temp then [.thermalTrip (Fin.ofNat 4 d)] else []) ++
      if decayDue s (dieOf s d) then [.tshiftDecay (Fin.ofNat 4 d)] else []

def heatClocks (s : State) : List Nat := (List.range 4).filterMap fun d => decayClock (dieOf s d)

/-- The nodes whose timers run, with their ends (R214). -/
def armTimers (s : State) : List (ArmRef × Nat) :=
  s.arms.flatMap fun a => a.nodes.filterMap fun n => n.2.timer.map fun t => (armRef a n.1, t)

/-- R43, R214: armature nodes whose time is over. -/
def dueArms (s : State) : List Instr :=
  ((armTimers s).filter fun e => decide (e.2 ≤ s.clock)).map fun e => .armatureTimeout e.1

def armClocks (s : State) : List Nat := (armTimers s).map (·.2)

/-- What comes in this clock before anything else: waits that end (R199), slots that gain precedence (R27, R42), saves
(R39, R40, R240), the heat of a die (R340), armatures whose time is over (R214) and token windows (R337). -/
def dueNow (s : State) : List Instr := dueWakes s ++ dueMarks s ++ dueSaves s ++ dueHeat s ++ dueArms s ++ dueWindows s

/-! ## Time -/

/-- The clocks that pass: a free number (log 2), but none past the next mark of time, and none before a slot that has
precedence issues. -/
def clocksOn (s : State) : Nat :=
  if urgent s || !(dueWakes s).isEmpty || !(dueHeat s).isEmpty || !(dueArms s).isEmpty then 0
  else
    (markClocks s ++ wakeClocks s ++ saveClocks s ++ heatClocks s ++ armClocks s ++ windowClocks s).foldl (fun d t => min d (t - s.clock))
      (Config.tick s.free)

/-- R27, R42: the clocks in which a slot cannot be selected do not count. -/
def ageSlot (s : State) (b : Nat) (x : Block) (c : Nat) (y : Crew) (dt k : Nat) : Slot :=
  let t := slotOf y k
  if t.mask = 0 ∨ selectable s b x c y k = true then t else { t with readyAt := t.readyAt + dt }

/-- R225, R246: the clocks in which a block is HALTED count neither as parked (R39) nor in its window (R240). -/
def ageBlock (s : State) (dt b : Nat) (x : Block) : Block :=
  { x with
    crews := x.crews.map fun e =>
      (e.1, { e.2 with fstatNew := if dt = 0 then e.2.fstatNew else 0, slot0 := ageSlot s b x e.1 e.2 dt 0, slot1 := ageSlot s b x e.1 e.2 dt 1 })
    parkedSince := if x.st = .halted then x.parkedSince.map (· + dt) else x.parkedSince
    chkptTill := if x.st = .halted then x.chkptTill.map (· + dt) else x.chkptTill }

/-- The walk was for a step that is still to come. -/
def awaited (s : State) (w : WalkEnd) : Bool :=
  match w.who with
  | .event i => s.agenda.contains i
  | _ => false

/-- The request was for a step that is still to come: an event's, or a slot's whose word has not issued since, or waits for
another answer. -/
def stillAwaited (s : State) (x : RemoteEnd) : Bool :=
  match x.who with
  | .event i => s.agenda.contains i
  | .slot r =>
    s.actor != .slot r ||
      (match (crewOf s r.blk r.crew).map fun y => (slotOf y r.slot).st with
       | some (.waiting (.remote _)) => true
       | _ => false)
  | .none => false

/-- A step has passed: what waits outside is counted (R40), host lines that left the caches go back (R330), and the clock
moves. -/
def passTime (s : State) : State :=
  let s1 := sweepCxl (countOutside s)
  let dt := clocksOn s1
  { s1 with
    clock := s1.clock + dt
    free := s1.free + 1
    actor := .none
    walkEnds := s1.walkEnds.filter (awaited s1)
    remoteEnds := s1.remoteEnds.filter (stillAwaited s1)
    blocks := s1.blocks.map fun e => (e.1, ageBlock s1 dt e.1 e.2) }

/-! ## Loads before their turn (R90) -/

/-- A page from which a core may read ahead for a block. -/
def aheadPage (c : Ctx) (t : Tlb) : Bool := t.ctx == c && t.attr.rd && t.attr.ord != 1 && !isRemote t.pa

def aheadPages (s : State) (x : Block) : List Tlb := (coreOf s x.core).tlb.filter (aheadPage (ctxOf s x))

/-- The slots whose lanes may have a value read before their load's turn; none before the first step. -/
def aheadSlots (s : State) : List SlotRef :=
  if s.free = 0 then []
  else s.blocks.flatMap fun e =>
    if e.2.st != .running || ((aheadPages s e.2).isEmpty && e.2.kern.stash == 0) then []
    else e.2.crews.flatMap fun c => ([0, 1].filter fun k => (slotOf c.2 k).mask != 0).map fun k => ⟨e.1, c.1, k⟩

/-- What the line at a place gives now is noted for the crew: its later plain loads may still give it (R90). -/
def glimpse (s : State) (h : Here) (g : Nat) (p : Place) : State :=
  updCrew s h.b h.c fun y =>
    { y with glimpses := y.glimpses.put g ⟨readPlace s p 128, keyMarks s (placeKey p)⟩ }

/-- Some line of the block's stash that maps nothing is read. -/
def glimpseStash (s : State) (h : Here) : State :=
  let (j, s1) := freeChoice s (h.blk.kern.stash / 128)
  let o := h.blk.base + 128 * j
  if h.blk.kern.stash = 0 ∨ !(mappedPas s1 h.blk.core o 128).isEmpty then s1
  else glimpse s1 h (stashPa h.blk.core o / 128) (.stash h.blk.core o)

/-- Some line of a page in the TLB is read at its home. -/
def glimpseHome (s : State) (h : Here) (p : Tlb) (ps : List Tlb) : State :=
  let (i, s1) := freeChoice s (ps.length + 1)
  let t := (p :: ps).getD i p
  let (j, s2) := freeChoice s1 (2 ^ t.bits / 128)
  let g := t.pa / 128 + j
  if poisoned s2 g || !sendTo s2 h.blk.core (sliceOf (128 * g)) then s2
  else
    match grab { s2 with actor := .none } g none false with
    | (false, s3) => s3
    | (true, s3) =>
      let s4 := fillL2 (sentBy h (128 * g) s3) g t.attr
      glimpse (leaseFill s4 h.blk.core g (crewT s4 h.crew) (leaseLen s4 (ctxOf s4 h.blk)) (readPlace s4 (linePlace (128 * g)) 128))
        h g (linePlace (128 * g))

/-- R90: a load may take its value early, its address predicted: some line of a page in the TLB, or of the block's stash, is
read now, and a plain load of the crew may still give what was read until one of its lanes acquires, or reads or writes the
line (R62, R83, R91). -/
def readAhead (s : State) (r : SlotRef) : State :=
  match hereAt s r with
  | none => s
  | some h =>
    let (k, s1) := freeChoice s 2
    match aheadPages s1 h.blk with
    | p :: ps => if k = 0 then glimpseHome s1 h p ps else glimpseStash s1 h
    | [] => glimpseStash s1 h

/-! ## The step that comes next -/

/-- A step that may come next. -/
inductive Choice where
  | issue (r : SlotRef)
  | mark (i : Instr)
  | event (n : Nat)
  | ahead (r : SlotRef)
  deriving DecidableEq, Repr

/-- Every step that may come next: what is due now; else the words the partitions would issue, the agenda, and loads
before their turn. -/
def choices (s : State) : List Choice :=
  match dueNow s with
  | [] => (candidates s).map .issue ++ (List.range s.agenda.length).map .event ++ (aheadSlots s).map .ahead
  | i :: r => (i :: r).map .mark

/-- The step that comes next; which of several is free (log 2). -/
def chosen (s : State) : Option Choice :=
  match choices s with
  | [] => none
  | [c] => some c
  | cs => cs[Config.pick s.free % cs.length]?

/-- The state in which a slot issues. -/
def issuing (s : State) (r : SlotRef) : State := { s with cur := r, actor := .slot r }

/-- The state in which entry n of the agenda, the given step, is performed. -/
def taken (s : State) (n : Nat) (i : Instr) : State := { s with agenda := s.agenda.eraseIdx n, actor := .event i }

end Sys2Proof.Machine
end

