-- ==== Sys2Proof/Machine/LoadStore.lean ====
section
/-! DEFINITION. Loads, stores, split-phase loads and the conversion stage of buffer records
(15_instr_control_memory.md R185 to R191, R117). -/

namespace Sys2Proof.Machine

/-! ## Buffer records (R190, R191) -/

/-- The fields of a record's 40 bytes. -/
def bufRecOf (x : Nat) : BufRec :=
  ⟨nfield x 0 64, nfield x 64 64, fmtOf (nfield x 128 4), fmtOf (nfield x 136 4), nfield x 144 8, nfield x 152 8,
    nfield x 160 32, nfield x 192 32, nfield x 224 32, nfield x 256 8⟩

/-- A byte of MENC or RFMT: a code of R164 that is not a 4-bit format. -/
def bufFmtOk (c : Nat) : Bool := decide (c < 16) && c != 5 && c != 12 && c != 13

def fmtBytes (f : Fmt) : Nat := fmtBits f / 8

/-- A finite FP32 pattern. -/
def finite32 (x : Nat) : Bool := x % 2 ^ 31 < inf32

/-- R190: the limits of a record. -/
def bufRecOk (x : Nat) : Bool :=
  let r := bufRecOf x
  windowOf r.base == .global && bufFmtOk (nfield x 128 8) && bufFmtOk (nfield x 136 8) && decide (r.ilv ≤ 20)
    && decide (r.smode ≤ 2) && (r.smode != 1 || (finite32 r.scale && r.scale % 2 ^ 31 != 0))
    && (r.smode != 2 || r.scale % 256 != 0xFF) && finite32 r.zp
    && decide (2 ^ r.ilv * fmtBytes r.menc ≤ r.stride) && decide (r.bmode ≤ 2) && nfield x 264 56 == 0

/-- The offset of element i from BASE. -/
def bufOffset (r : BufRec) (i : Nat) : Nat := i / 2 ^ r.ilv * r.stride + i % 2 ^ r.ilv * fmtBytes r.menc

def bufInside (r : BufRec) (i : Nat) : Bool := decide (bufOffset r i + fmtBytes r.menc ≤ r.extent)

/-- The greatest index in bounds, when there is one. -/
def bufLast (r : BufRec) : Option Nat :=
  if r.extent < fmtBytes r.menc then none
  else
    let q := (r.extent - fmtBytes r.menc) / r.stride
    some (q * 2 ^ r.ilv + min (2 ^ r.ilv - 1) ((r.extent - fmtBytes r.menc - q * r.stride) / fmtBytes r.menc))

/-- Where an index leads: an address, no access, or an access fault. -/
inductive BufTo where
  | at (va : Nat)
  | drop
  | fault
  deriving DecidableEq, Repr

/-- R191: where element i of a record lies. Under BMODE 2 with no element in bounds the outcome is open (DESIGN CHOICE, log 86: an
access fault, as under BMODE 0). -/
def bufTo (r : BufRec) (i : Int) : BufTo :=
  let go (k : Nat) : BufTo := .at ((r.base + bufOffset r k) % 2 ^ 64)
  if 0 ≤ i ∧ bufInside r i.toNat then go i.toNat
  else
    match r.bmode with
    | 0 => .fault
    | 1 => .drop
    | _ =>
      match bufLast r with
      | some k => go k
      | none => .fault

/-- The scale of a record as a positive or negative number m × 2^e. -/
def bufScale (r : BufRec) : Dy :=
  if r.smode = 1 then dyOfV (fvOf ffF32 r.scale) else ⟨1, (r.scale % 256 : Int) - 127⟩

/-- A rational n / d × 2^e converted into a format, rounded once (R112, R113). -/
def convertRat (dst : Fmt) (neg : Bool) (n d : Nat) (e : Int) : Nat × FlagSet :=
  if fmtFloat dst then narrowFin (ffOf dst) neg n d e
  else
    let (k, fl) := intFin (fmtSigned dst) (fmtBits dst) false neg n d e
    (wrapTo (fmtBits dst) k, fl)

/-- R112, R114: an exact zero sum is -0 only when both terms are (DEDUCED, log 72). -/
def zeroPat (neg : Bool) : Nat := if neg then 2 ^ 31 else 0

/-- The sign of x × scale, or x / scale: that of an exact zero is `zneg` before the scale is applied. -/
def scaledNeg (q : Dy) (zneg : Bool) (sc : Dy) : Bool :=
  (if q.m = 0 then zneg else decide (q.m < 0)) != decide (sc.m < 0)

/-- The conversion stage of a load. -/
def bufLoadNat (r : BufRec) (x : Nat) : Nat × FlagSet :=
  let v := valueIn r.menc x
  let sc := bufScale r
  let w :=
    if r.smode = 0 then convertTo r.menc r.rfmt false v
    else
      match v with
      | .fin n m e =>
        let d := dySub (dyOf n m e) (dyOfV (fvOf ffF32 r.zp))
        let q := dyMul d sc
        -- m - ZP is -0 for m = -0 and ZP = +0
        convertRat r.rfmt (scaledNeg d (m == 0 && n && r.zp == zeroPat false) sc) q.m.natAbs 1 q.e
      | .inf n => convertTo r.menc r.rfmt false (.inf (n != decide (sc.m < 0)))
      | .nan => convertTo r.menc r.rfmt false .nan
  (extendFmt r.rfmt w.1, w.2)

/-- The conversion stage of a store. -/
def bufStoreNat (r : BufRec) (x : Nat) : Nat × FlagSet :=
  let v := valueIn r.rfmt x
  let sc := bufScale r
  if r.smode = 0 then convertTo r.rfmt r.menc false v
  else
    match v with
    | .fin n m e =>
      -- x / scale + ZP = (x + ZP × scale) / scale
      let q := dyAdd (dyOf n m e) (dyMul (dyOfV (fvOf ffF32 r.zp)) sc)
      let zneg := m == 0 && (n != decide (sc.m < 0)) && r.zp == zeroPat true
      convertRat r.menc (if q.m = 0 then zneg else scaledNeg q false sc) q.m.natAbs sc.m.natAbs (q.e - sc.e)
    | .inf n => convertTo r.rfmt r.menc false (.inf (n != decide (sc.m < 0)))
    | .nan => convertTo r.rfmt r.menc false .nan

/-! ## What a load or store names -/

/-- The registers of D. -/
def memRegs (x : MemOp) (b : Option BufRec) : Nat :=
  match b with
  | some r => fmtRegs r.rfmt
  | none => sizeRegs x.sz

/-- A store whose buffer record is malformed has an entry in the pending-store list, without a line or bytes, which only its
record would give; on the restore its word issues again (R231; DESIGN CHOICE, log 18). -/
def takeRecordFault (s : State) (h : Here) (va : Nat) : State :=
  let (n, s1) := freshId s
  let r := { newReq s1 h (.store va [] plainAttr (timeOf s1 h.b h.c)) .faulted 0 n (some (.bufrec, 0, va)) h.act [] true []
    with told := true }
  takeStoreFault { s1 with reqs := s1.reqs.put n r } h .bufrec 0 (BitVec.ofNat 64 va)

/-- The buffer record that BUF names, none for a raw access. -/
def bufRecE (h : Here) (x : MemOp) (wr : Bool) : Exec (Option BufRec) := do
  if x.buf.val = 0 then pure none
  else do
    let s ← getE
    let table := match launchHere s h with
      | some l => l.bufs
      | none => 0
    let va := (table + 40 * x.buf.val) % 2 ^ 64
    let bs ← engReadE h va 40
    if bufRecOk (leNat bs) then pure (some (bufRecOf (leNat bs)))
    else if wr then stopWith fun s => takeRecordFault s h va
    else faultE h .bufrec 0 (BitVec.ofNat 64 va) 0

/-- R191: a 64-bit RFMT needs a pair within the kernel's registers (R126, R140), ready like any that the word names
(R136, R189). In capsule mode it names k registers, which no load leaves pending (R135, R274). -/
def bufPairE (h : Here) (x : MemOp) (b : Option BufRec) : Exec Unit := do
  let n := memRegs x b
  let u : Use := ⟨.src, x.d, n, false, false⟩
  if b.isSome && inCapsule h.crew (hMask h) then
    if !capOperand u then trapE h .capfault 1
    else if !useOk u then trapE h .illop
    else pure ()
  else if b.isSome && (!useOk u || !inCounts h.blk.kern u) then trapE h .illop
  else if b.isSome then regsReadyE h (useRegs u)
  else pure ()

/-- R186: the raw address of a lane. -/
def rawVa (s : State) (h : Here) (x : MemOp) (l : Nat) : Nat :=
  wrapTo 64 ((srcNum s h x.a 2 l : Int) + intOf true 32 (srcNum s h x.b 1 l))

/-- R191: the element index of a lane. -/
def bufIndex (s : State) (h : Here) (x : MemOp) (l : Nat) : Int :=
  (srcNum s h x.a 1 l : Int) + intOf true 32 (srcNum s h x.b 1 l)

/-- R187: the local offset of a lane; one below zero lies beyond every stash. -/
def localOff (s : State) (h : Here) (x : MemOp) (l : Nat) : Nat :=
  wrapTo 64 ((srcNum s h x.a 1 l : Int) + intOf true 32 (srcNum s h x.b 1 l))

/-- The address of element i, exactly (R191): for the record of one that lies outside. -/
def bufElemVa (r : BufRec) (i : Int) : Nat :=
  wrapTo 64 ((r.base : Int) + i / 2 ^ r.ilv * r.stride + i % 2 ^ r.ilv * fmtBytes r.menc)

/-- An element outside its record under BMODE 0: an access fault, of a CODE that R228 does not give; of a store it is
not precise (R188, R229). -/
def bufOutE {α : Type} (h : Here) (va : Nat) (wr : Bool) : Exec α :=
  stopWith fun s =>
    let (c, s1) := freeChoice s 65536
    if wr then takeStoreFault s1 h .accf c (BitVec.ofNat 64 va) else takeFault s1 h .accf c (BitVec.ofNat 64 va) 0

/-- The lanes that make an access: one for the crew with an s destination (R141). -/
def accessLanes (d : Opnd) (m : Mask) : List Nat := if isS d then [lowLane m] else lanesOf m

/-- A loaded value: sign-extended or zero-extended bytes, or converted. -/
def loadedNat (f : LoadForm) (bs : List Byte) : Nat × FlagSet :=
  match f.buf with
  | some r => bufLoadNat r (leNat bs)
  | none => (if f.sx then wrapTo 32 (intOf true (8 * f.n) (leNat bs)) else leNat bs, flagNone)

/-- What a lane loads, of the bytes by lane, and its flags. -/
def loadedOf (f : LoadForm) (bs : List (Nat × List Byte)) (l : Nat) : Nat × FlagSet :=
  match Table.find bs l with
  | some b => loadedNat f b
  | none => (0, flagNone)

/-- The flags of a load (R117). -/
def loadFlags (f : LoadForm) (bs : List (Nat × List Byte)) : FlagSet :=
  (accessLanes f.d f.mask).foldl (fun a l => flagOr a (loadedOf f bs l).2) flagNone

/-- Writes a load's destination and flags. -/
def landLoad (f : LoadForm) (cap : Bool) (bs : List (Nat × List Byte)) (y : Crew) : Crew :=
  setFstat (putResult y cap f.d f.regs f.mask fun l => (loadedOf f bs l).1) (loadFlags f bs)

/-! ## LD, LDRO, LDS -/

/-- Where a lane loads: an address, or nowhere. -/
def loadVaE (h : Here) (x : MemOp) (b : Option BufRec) (l : Nat) : Exec (Option Nat) := do
  let s ← getE
  match b with
  | none => pure (some (rawVa s h x l))
  | some r =>
    match bufTo r (bufIndex s h x l) with
    | .at va => pure (some va)
    | .drop => pure none
    | .fault => bufOutE h (bufElemVa r (bufIndex s h x l)) false

def accBytes (x : MemOp) (b : Option BufRec) : Nat :=
  match b with
  | some r => fmtBytes r.menc
  | none => sizeBytes x.sz

def loadFormOf (x : MemOp) (b : Option BufRec) (m : Mask) : LoadForm :=
  ⟨x.d, memRegs x b, accBytes x b, x.sx, b, m⟩

/-- The lanes to which an access belongs: with an s destination one access serves every active lane (R141). -/
def laneMask (d : Opnd) (m : Mask) (l : Nat) : Mask := if isS d then m else laneBit l

/-- R81: what of a piece is read at once: the whole of a single-copy atomic access, else each byte. -/
def readUnits (va n : Nat) (x : Seg) : List (Nat × Nat) :=
  if singleCopy va n then [(0, x.n)] else (List.range x.n).map fun i => (i, 1)

/-- The pieces of a lane's load on global pages that are read apart; poison faults precisely. -/
def piecesE (h : Here) (d : Opnd) (m : Mask) (l va n : Nat) (xs : List Seg) : Exec (List Piece) := do
  let ps ← xs.mapM fun p => do
    let s ← getE
    if isRemote p.pa && (remotePlace s p.pa false).isNone then faultE h .accf 8 (BitVec.ofNat 64 p.va) 0
    else if !isRemote p.pa && poisoned s (lineNo p.pa) then faultE h .poison 0 (BitVec.ofNat 64 p.va) 0
    else pure ((readUnits va n p).map fun u =>
      (⟨l, laneMask d m l, (p.va - va) + u.1, p.va + u.1, p.pa + u.1, u.2, p.attr⟩ : Piece))
  pure ps.flatten

/-- The pieces of a lane's load of stash bytes whose lines are ready. -/
def stashPieces (p : Nat × Nat) (d : Opnd) (m : Mask) (l va n : Nat) : List Piece :=
  (readUnits va n ⟨va, n, 0, plainAttr⟩).map fun u =>
    ⟨l, laneMask d m l, u.1, va + u.1, stashPa p.1 p.2 + u.1, u.2, plainAttr⟩

/-- A lane's load: the pieces that may be read later, each when its home or stash serves it, or none for one that is read
at once: one in capsule mode, and one on the read-only path. -/
def splitLaneE (h : Here) (d : Opnd) (m : Mask) (md : LoadMode) (l va n : Nat) : Exec (List Piece) := do
  match routeOf va n with
  | .global => do
    let xs ← segsE h va n .rd 0
    if md = .ro || inCapsule h.crew (hMask h) then pure []
    else piecesE h d m l va n xs
  | .bad => faultE h .addrf 0 (BitVec.ofNat 64 va) 0
  | w =>
    if md = .ro || inCapsule h.crew (hMask h) then pure []
    else do
      let p ← stashE h w va n false (laneMask d m l)
      pure (stashPieces p d m l va n)

/-- What a load comes to at issue: pieces still to be read, and the bytes of the lanes that have read. -/
structure Gather where
  pieces : List Piece
  bytes : List (Nat × List Byte)
  deriving DecidableEq, Repr

/-- The addresses of the lanes; a lane that makes no access has none. -/
def loadVasE (h : Here) (x : MemOp) (b : Option BufRec) (m : Mask) : Exec (List (Nat × Nat)) := do
  let vs ← (accessLanes x.d m).mapM fun l => do
    let va ← loadVaE h x b l
    pure (va.map fun a => (l, a))
  pure (vs.filterMap id)

/-- The bytes of lanes that read at once. -/
def readNowE (h : Here) (x : MemOp) (b : Option BufRec) (md : LoadMode) (m : Mask) (vs : List (Nat × Nat)) :
    Exec (List (Nat × List Byte)) :=
  vs.mapM fun p => do
    let bs ← loadBytesE h (laneMask x.d m p.1) p.2 (accBytes x b) md
    pure (p.1, bs)

/-- The loads of the active lanes. `later`: those whose pieces may be read later are. -/
def gatherE (h : Here) (x : MemOp) (b : Option BufRec) (md : LoadMode) (m : Mask) (later : List Piece → Exec Bool) :
    Exec Gather := do
  let vs ← loadVasE h x b m
  let ps ← vs.mapM fun p => splitLaneE h x.d m md p.1 p.2 (accBytes x b)
  if ← later ps.flatten then do
    let bs ← readNowE h x b md m ((vs.zip ps).filterMap fun q => if q.2.isEmpty then some q.1 else none)
    pure ⟨ps.flatten, bs⟩
  else do
    let bs ← readNowE h x b md m vs
    pure ⟨[], bs⟩

/-- R90, R91: a load is performed when it issues or later (free). -/
def anyTimeE {α : Type} (ps : List α) : Exec Bool :=
  if ps.isEmpty then pure false
  else fun s => .ok ((freeChoice s 2).1 == 1, (freeChoice s 2).2)

/-- Bytes of lanes by lane and offset. -/
def laneBytes (bs : List (Nat × List Byte)) : List (Nat × Nat × Byte) :=
  bs.flatMap fun p => (List.range p.2.length).map fun i => (p.1, i, p.2.getD i 0)

/-- The scope of an acquire (R185). -/
def acqOf (x : MemOp) : Option Scope := if x.sem then some x.scope else none

/-- The pieces that a home slice serves. -/
def homePieces (ps : List Piece) : List Piece := ps.filter fun p => !isStashPa p.pa

/-- The global bytes that the stash bytes of some pieces map. -/
def pieceAlias (s : State) (ps : List Piece) : List (Nat × Nat) :=
  (ps.filter fun p => isStashPa p.pa).flatMap fun p => (List.range p.n).filterMap fun i =>
    (mappedPa s (stashPaCore (p.pa + i)) (stashPaOff (p.pa + i))).map fun pa => (p.pa + i, pa)

/-- The request of a load whose pieces are still to be read. -/
def loadReq (s : State) (h : Here) (x : MemOp) (b : Option BufRec) (m : Mask) (ac : Option Nat) (g : Gather) : Req :=
  let gs := homePieces g.pieces
  { newReq s h (.load g.pieces (laneBytes g.bytes) (loadFormOf x b m) ac (acqOf x)) (if gs.isEmpty then .injected else .waiting)
      ((gs.map fun p => sliceOf p.pa).headD 0) 0 none m [] false [] with
    homed := !gs.isEmpty, mapsTo := pieceAlias s g.pieces }

/-- The requests of a load to other stashes of the cluster, one for each lane, draw their tokens. -/
def loadMesh (h : Here) (ps : List Piece) (s : State) : State :=
  ((ps.filter fun p => isStashPa p.pa).map fun p => (p.lane, stashPaCore p.pa)).eraseDups.foldl (fun s p => meshSent h p.2 s) s

/-- A load whose bytes are all read lands; else its registers wait for it (R136). -/
def finishLoad (s : State) (h : Here) (x : MemOp) (b : Option BufRec) (m : Mask) (g : Gather) : State :=
  if g.pieces.isEmpty then updCrew s h.b h.c (landLoad (loadFormOf x b m) (inCapsule h.crew (hMask h)) g.bytes)
  else
    addReq (updCrew (loadMesh h g.pieces s) h.b h.c fun y => { y with pending := y.pending ++ regCodes x.d (memRegs x b) })
      (loadReq s h x b m none g)

def loadBody (x : MemOp) (md : LoadMode) (h : Here) : Exec Unit := do
  let m := activeMask h x.g
  if m = 0 then nextE h
  else do
    let b ← bufRecE h x false
    bufPairE h x b
    let g ← gatherE h x b md m anyTimeE
    modifyE fun s => finishLoad s h x b m g
    nextE h

/-- How an `LD` or `LDSP` reads. -/
def modeOf (x : MemOp) : LoadMode :=
  match acqOf x with
  | some sc => .acq sc
  | none => .plain

def execLd (x : MemOp) (s : State) : Host.Outcome State Fault Refusal :=
  issueWord (.ld x) s (loadBody x (modeOf x))

def execLdro (x : MemOp) (s : State) : Host.Outcome State Fault Refusal :=
  issueWord (.ldro x) s (loadBody x .ro)

/-- The loads of the active lanes by local offset, performed now or later (R90). -/
def gatherStashE (h : Here) (x : MemOp) (m : Mask) : Exec Gather := do
  let n := sizeBytes x.sz
  let s ← getE
  let ps ← (accessLanes x.d m).mapM fun l => do
    let p ← stashE h (.loc (localOff s h x l)) (localOff s h x l) n false (laneMask x.d m l)
    pure (l, p)
  let xs := ps.flatMap fun q => stashPieces q.2 x.d m q.1 (localOff s h x q.1) n
  if ← anyTimeE xs then pure ⟨xs, []⟩
  else do
    let bs ← ps.mapM fun q => do
      let d ← stashReadE h (laneMask x.d m q.1) .plain n q.2
      pure (q.1, d)
    pure ⟨[], bs⟩

def execLds (x : MemOp) (s : State) : Host.Outcome State Fault Refusal :=
  issueWord (.lds x) s fun h => do
    let m := activeMask h x.g
    if m = 0 then nextE h
    else do
      let g ← gatherStashE h x m
      modifyE fun s => finishLoad s h x none m g
      nextE h

/-! ## ST, STS -/

/-- The store of a lane: none where its record drops it. -/
def storeLaneE (h : Here) (x : MemOp) (b : Option BufRec) (l : Nat) : Exec (Option LaneStore × FlagSet) := do
  let s ← getE
  let v := srcNum s h x.d (memRegs x b) l
  match b with
  | none => pure (some ⟨l, rawVa s h x l, leBytes (sizeBytes x.sz) v⟩, flagNone)
  | some r =>
    let w := bufStoreNat r v
    match bufTo r (bufIndex s h x l) with
    | .at va => pure (some ⟨l, va, leBytes (fmtBytes r.menc) w.1⟩, w.2)
    | .drop => pure (none, flagNone)
    | .fault => bufOutE h (bufElemVa r (bufIndex s h x l)) true

/-- R188: a store-origin entry is free. -/
def originE (h : Here) : Exec Unit := do
  let s ← getE
  if Config.originEntries ≤ originsUsed s h.blk.core then waitE h (.retry .origin)

def execSt (x : MemOp) (s : State) : Host.Outcome State Fault Refusal :=
  issueWord (.st x) s fun h => do
    let m := activeMask h x.g
    if m = 0 then nextE h
    else do
      originE h
      let b ← bufRecE h x true
      bufPairE h x b
      if x.sem then drainE h m
      let rs ← (lanesOf m).mapM (storeLaneE h x b)
      storeLanesE h m (acqOf x) (rs.filterMap fun r => r.1)
      updCrewE h fun y => setFstat y (rs.foldl (fun a r => flagOr a r.2) flagNone)
      nextE h

def execSts (x : MemOp) (s : State) : Host.Outcome State Fault Refusal :=
  issueWord (.sts x) s fun h => do
    let m := activeMask h x.g
    if m = 0 then nextE h
    else do
      let s ← getE
      let n := sizeBytes x.sz
      let ls := (lanesOf m).map fun l =>
        (⟨l, localOff s h x l, leBytes n (srcNum s h x.d (sizeRegs x.sz) l)⟩ : LaneStore)
      let ps ← storeStashE h (fun p => .loc p.va) ls
      modifyE (putStashes h m none ps)
      nextE h

/-! ## LDSP (R188, R189) -/

def acOf (y : Crew) (n : Nat) : Arrival := y.acs.getD n ⟨0, 0, []⟩

/-- R188, R189. Whether an `LDSP` with no active lane counts is open (DESIGN CHOICE, log 87: it does not, and its destination
does not become pending). -/
def execLdsp (x : MemOp) (ac : Fin 16) (s : State) : Host.Outcome State Fault Refusal :=
  issueWord (.ldsp x ac) s fun h => do
    let m := activeMask h x.g
    if m = 0 then nextE h
    else do
      if 255 ≤ (acOf h.crew ac.val).iss then waitE h (.retry (.counter ac.val))
      let b ← bufRecE h x false
      bufPairE h x b
      let g ← gatherE h x b (modeOf x) m fun ps => pure (!ps.isEmpty)
      let codes := regCodes x.d (memRegs x b)
      updCrewE h fun y =>
        let a := acOf y ac.val
        { y with acs := y.acs.put ac.val { a with iss := a.iss + 1, regs := (a.regs ++ codes).eraseDups } }
      modifyE fun s => addReq (loadMesh h g.pieces s) (loadReq s h x b m (some ac.val) g)
      nextE h

end Sys2Proof.Machine
end

