-- ==== Sys2Proof/Machine/Atomics.lean ====
section
/-! DEFINITION. Atomics and reductions at memory, fences, prefetch and cache maintenance
(15_instr_control_memory.md R192 to R195, 07_consistency_rules.md R88, R93). -/

namespace Sys2Proof.Machine

/-! ## ATOM and RED (R192) -/

def atomSigned (t : AtomTy) : Bool :=
  match t with
  | .i32 | .i64 => true
  | _ => false

/-- The new value at memory. -/
def atomNew (op : AtomOp) (ty : AtomTy) (old b c : Nat) : Nat :=
  let w := 32 * atomRegs ty
  let x := intOf (atomSigned ty) w old
  let y := intOf (atomSigned ty) w b
  match op with
  | .add => if ty = .f32 then (fpBin ffF32 .add old b).1 else wrapTo w (x + y)
  | .min => if ty = .f32 then (fpMinMax ffF32 false old b).1 else wrapTo w (min x y)
  | .max => if ty = .f32 then (fpMinMax ffF32 true old b).1 else wrapTo w (max x y)
  | .and => Nat.land old b
  | .or => Nat.lor old b
  | .xor => Nat.xor old b
  | .exch => b
  | .cas => if old = c then b else old
  | .inc => if b ≤ old then 0 else old + 1
  | .dec => if old = 0 ∨ b < old then b else old - 1

/-- Where an atomic executes: a stash, a home line, or a remote home. -/
inductive AtomAt where
  | stash (p : Place)
  | home (pa : Nat) (a : Attr)
  | remote (p : Place)

/-- A line at its home is ready for an atomic of the lanes `m`: their earlier accesses to its bytes are performed, a slot
and links lead there, no step's version holds it, no probe is out, and it is not poisoned; the home owns a host line
(R78, R88, R93, R278). -/
def homeReadyE (h : Here) (m : Mask) (pa n va kind : Nat) (a : Attr) : Exec Unit := do
  orderE h m (accsOf pa n a.ord m)
  let s ← getE
  let g := lineNo pa
  sendE h pa
  if lineHeld s g then waitE h (.retry (.version g))
  let (ok, s1) := grab s g none true
  modifyE fun _ => s1
  if !ok then waitE h (.retry (.line g))
  if poisoned s1 g then faultE h .poison 0 (BitVec.ofNat 64 va) kind
  if a.hc then modifyE fun s => cxlFetch s g true

/-- Where the address of a lane's atomic leads. -/
inductive AtomTo where
  | stash (core off : Nat)
  | global (pa : Nat) (a : Attr)

/-- The checks of a lane's address (R86, R192, R229). -/
def atomToE (h : Here) (va n : Nat) : Exec AtomTo := do
  let s ← getE
  let addr := BitVec.ofNat 64 va
  let stashAt (core o : Nat) : Exec AtomTo :=
    if (mooringAt s core o).isSome then faultE h .accf 5 addr 2 else pure (.stash core o)
  match routeOf va n with
  | .bad => faultE h .addrf 0 addr 2
  | w =>
    if va % n ≠ 0 then faultE h .accf 3 addr 2
    else
      match w with
      | .loc a =>
        if h.blk.kern.stash < a + n then faultE h .accf 2 addr 2 else stashAt h.blk.core (h.blk.base + a)
      | .cluster j o => stashAt (clusterCore h.blk.core j) o
      | _ => do
        let t ← pageE h va .rw 2
        let pa := tlbPa t va
        if isRemote pa && (remotePlace s pa true).isNone then faultE h .accf 8 addr 2 else pure (.global pa t.attr)

/-- A stash is ready for an atomic of the lanes. -/
def stashReadyE (h : Here) (m : Mask) (core o n : Nat) : Exec Unit := do
  meshE h core
  orderE h m (accsOf (stashPa core o) n 0 m)
  afterAcquireE h m

/-- Everything a lane's atomic needs before any lane's is performed. -/
def atomReadyE (h : Here) (m : Mask) (va n : Nat) : Exec AtomAt := do
  match ← atomToE h va n with
  | .stash core o => do
    stashReadyE h m core o n
    pure (.stash (.stash core o))
  | .global pa a => do
    let s ← getE
    match isRemote pa, remotePlace s pa true with
    | true, some p => do
      orderE h m (accsOf pa n a.ord m)
      remoteAnswerE h pa va 2
      pure (.remote p)
    | _, _ => do
      homeReadyE h m pa n va 2 a
      pure (.home pa a)

/-- A core's L1 copies of a line leave both partitions. -/
def dropL1 (s : State) (core g : Nat) : State :=
  let c := coreOf s core
  setCore s core { c with leases := c.leases.drop g, readOnly := c.readOnly.drop g }

/-- The keys of the bytes of an atomic. -/
def atomKeys (at' : AtomAt) (n : Nat) : List Nat :=
  let k := match at' with
    | .stash p => placeKey p
    | .remote p => placeKey p
    | .home pa _ => placeKey (linePlace pa)
  (List.range n).map fun i => k + i

/-- The line numbers under which what an atomic reads may have been read ahead. -/
def atomLines (at' : AtomAt) : List Nat :=
  match at' with
  | .stash (.stash core o) => [stashPa core o / 128]
  | .home pa _ => [lineNo pa]
  | _ => []

/-- The write of an atomic: the old value and the write time. A line that is not in L2 stays out of it, and is stored
under the writer's CMP (R73). -/
def atomPut (s : State) (core t : Nat) (at' : AtomAt) (n : Nat) (f : Nat → Nat) : Nat × Nat × State :=
  match at' with
  | .stash p | .remote p =>
    let old := numAt s p n
    (old, t, writePlace s p (leBytes n (f old)))
  | .home pa a =>
    let old := numAt s (linePlace pa) n
    let bs := (leBytes n (f old)).zipIdx.map fun q => (pa + q.2, q.1)
    let (tw, s1) := homePut s (lineNo pa) bs a t false
    (old, tw, dropL1 s1 core (lineNo pa))

/-- How an atomic orders: as an atomic or a reduction, as an acquire, as a release (R89, R93). -/
structure AtomSem where
  reads : Bool
  mode : LoadMode
  rel : Option Scope
  deriving DecidableEq, Repr

/-- An atomic at a home, or at another core's stash, is a request and its reply (R77, R337). -/
def atomSent (h : Here) (at' : AtomAt) (s : State) : State :=
  match at' with
  | .home pa _ => sentBy h pa s
  | .stash (.stash core _) => meshSent h core s
  | _ => s

/-- One lane's read-modify-write: the old value. A read of it synchronises with every release before it, one of a
reduction that releases with its own alone, and one of another reduction with none (R93). -/
def atomOne (s : State) (h : Here) (l : Nat) (m : Mask) (sem : AtomSem) (at' : AtomAt) (n : Nat) (f : Nat → Nat) :
    Nat × State :=
  let keys := atomKeys at' n
  let t := timeOf s h.b h.c
  let ms := marksAt s keys
  let (old, tw, s1) := atomPut (atomSent h at' s) h.blk.core t at' n f
  let s2 := if sem.reads then atomicMarks s1 keys else plainMarks s1 keys
  let rs := if sem.reads || sem.rel.isSome then relsOf ((crewOf s h.b h.c).getD h.crew) m sem.rel t else []
  let s3 := keys.foldl (fun s k => markRels s (partyOf s h.b h.c) k l tw rs) s2
  let s3 := updCrew s3 h.b h.c (forgetLines (atomLines at'))
  let s4 := if sem.reads then readMarks s3 h.b h.c m sem.mode ms else s3
  (old, raiseT s4 h.b h.c tw)

/-- A lane's atomic: the lane, the lanes to which it belongs, its address, and what it does to the old value. -/
structure AtomLane where
  lane : Nat
  lanes : Mask
  va : Nat
  f : Nat → Nat

/-- The lanes in ascending order. -/
def atomLanesE (h : Here) (n : Nat) (sem : AtomSem) (ls : List AtomLane) : Exec (List (Nat × Nat)) := do
  let rs ← ls.mapM fun p => do
    let w ← atomReadyE h p.lanes p.va n
    pure (p, w)
  rs.mapM fun r => do
    let s ← getE
    let q := atomOne s h r.1.lane r.1.lanes sem r.2 n r.1.f
    modifyE fun _ => q.2
    pure (r.1.lane, q.1)

/-- The scope of a release or an acquire that an atomic is. -/
def atomSem (x : AtomOpnds) : AtomSem :=
  ⟨true, if x.sem.acq then .acq x.scope else .plain, if x.sem.rel then some x.scope else none⟩

def execAtom (x : AtomOpnds) (s : State) : Host.Outcome State Fault Refusal :=
  issueWord (.atom x) s fun h => do
    let m := activeMask h x.g
    if m = 0 then nextE h
    else do
      if x.sem.rel then drainE h m
      let s ← getE
      let k := atomRegs x.ty
      let src := fun o l => srcNum s h o k l
      let olds ← atomLanesE h (4 * k) (atomSem x) ((accessLanes x.d m).map fun l =>
        ⟨l, laneMask x.d m l, srcNum s h x.a 2 l, fun old => atomNew x.op x.ty old (src x.b l) (src x.c l)⟩)
      updCrewE h fun y => putDst y false x.d k m fun l => Table.getD olds l 0
      nextE h

/-- The operation of a `RED`. -/
def redAtom (o : RedOp) : AtomOp :=
  match o with
  | .add => .add
  | .min => .min
  | .max => .max
  | .and => .and
  | .or => .or
  | .xor => .xor

/-- A lane's reduction that is still to be performed. -/
def redPieceE (h : Here) (x : RedMemOp) (l : Nat) : Exec RedPiece := do
  let s ← getE
  let k := atomRegs x.ty
  let va := srcNum s h x.a 2 l
  let v := srcNum s h x.b k l
  match ← atomToE h va (4 * k) with
  | .stash core o => do
    stashReadyE h (laneBit l) core o (4 * k)
    pure ⟨l, va, stashPa core o, 4 * k, plainAttr, redAtom x.op, x.ty, v⟩
  | .global pa a => pure ⟨l, va, pa, 4 * k, a, redAtom x.op, x.ty, v⟩

/-- The reductions are performed in later steps: a request, which carries the releases of a `.rel` alone (R93). -/
def redLater (s : State) (h : Here) (m : Mask) (rel : Option Scope) (ps : List RedPiece) : State :=
  let homes := ps.filter fun p => !isStashPa p.pa
  let rels := match rel, crewOf s h.b h.c with
    | some sc, some y => relsOf y m (some sc) (crewT s y)
    | _, _ => []
  let s1 := (ps.filter fun p => isStashPa p.pa).foldl (fun s p => meshSent h (stashPaCore p.pa) s) s
  addReq (updCrew s1 h.b h.c (forgetLines (ps.map fun p => p.pa / 128)))
    { newReq s1 h (.red ps 0) (if homes.isEmpty then .injected else .waiting) ((homes.map fun p => sliceOf p.pa).headD 0) 0
        none m [] false rels with homed := !homes.isEmpty }

/-- R91: a reduction is performed when it issues or later (free). -/
def execRed (x : RedMemOp) (s : State) : Host.Outcome State Fault Refusal :=
  issueWord (.red x) s fun h => do
    let m := activeMask h x.g
    if m = 0 then nextE h
    else do
      if x.rel then drainE h m
      let s ← getE
      let k := atomRegs x.ty
      let rel := if x.rel then some x.scope else none
      if ← anyTimeE (lanesOf m) then do
        let ps ← (lanesOf m).mapM (redPieceE h x)
        modifyE fun s => redLater s h m rel ps
      else do
        let _ ← atomLanesE h (4 * k) ⟨false, .plain, rel⟩ ((lanesOf m).map fun l =>
          ⟨l, laneBit l, srcNum s h x.a 2 l, fun old => atomNew (redAtom x.op) x.ty old (srcNum s h x.b k l) 0⟩)
      nextE h

/-! ## FENCE (R193) -/

/-- A fence by lanes whose accesses are all performed: it acquires what they have read, within its scope, and what
they write from now on releases (R62, R85, R89). -/
def fenceDone (s : State) (b c : Nat) (m : Mask) (sc : Scope) : State :=
  let t := match crewOf s b c with
    | some y => fenceSeen y m sc
    | none => 0
  let s1 := acquireAt s b c m t
  updCrew s1 b c fun y => noteFence m sc (crewT s1 y) y

def execFence (sc : Scope) (s : State) : Host.Outcome State Fault Refusal :=
  issueWord (.fence sc) s fun h => do
    drainE h (hMask h)
    modifyE fun s => fenceDone s h.b h.c (hMask h) sc
    nextE h

/-- R61: lines of the read-only partition filled before this miss for the crew's later loads. -/
def execFenceRo (s : State) : Host.Outcome State Fault Refusal :=
  issueWord .fenceRo s fun h => do
    let s ← getE
    let (n, s1) := freshId s
    modifyE fun _ => s1
    updCrewE h fun y => { y with roMark := n }
    nextE h

/-! ## PREF (R194) -/

/-- A prefetch touches stash bytes; no read waits for the fill that it starts. -/
def prefTouch (s : State) (core o va : Nat) : State :=
  match touchStash { s with actor := .none } core o 1 va false with
  | .ok s1 => { s1 with actor := s.actor }
  | .wait _ s1 => { s1 with actor := s.actor }
  | .miss c a => (startWalk s (dieOfCore core) c a).2
  | .fault _ => s

/-- One lane's prefetch; where the page is not yet translated, its walk begins. -/
def prefLane (s : State) (h : Here) (l2 : Bool) (va : Nat) : State :=
  match routeOf va 1 with
  | .global =>
    (match tlbFind s h.blk.core (ctxOf s h.blk) va with
     | none => (startWalk s (dieOfCore h.blk.core) (ctxOf s h.blk) va).2
     | some t =>
       let pa := tlbPa t va
       let g := lineNo pa
       if !t.attr.rd || t.attr.ord == 1 || isRemote pa || poisoned s g || !sendTo s h.blk.core (sliceOf pa) then s
       else
         match grab { s with actor := .none } g none false with
         | (false, s1) => { s1 with actor := s.actor }
         | (true, s1) =>
           let s2 := fillL2 (sentBy h pa { s1 with actor := s.actor }) g t.attr
           if l2 then s2
           else
             leaseFill s2 h.blk.core g (timeOf s2 h.b h.c) (leaseLen s2 (ctxOf s2 h.blk))
               (readPlace s2 (linePlace (128 * g)) 128))
  | .loc a => if h.blk.kern.stash ≤ a then s else prefTouch s h.blk.core (h.blk.base + a) va
  | .cluster j o => prefTouch s (clusterCore h.blk.core j) o va
  | .bad => s

def execPref (x : PrefOp) (s : State) : Host.Outcome State Fault Refusal :=
  issueWord (.pref x) s fun h => do
    let s ← getE
    let va := fun l => wrapTo 64 ((srcNum s h x.a 2 l : Int) + intOf true 32 (srcNum s h x.b 1 l))
    modifyE fun s => (lanesOf (activeMask h x.g)).foldl (fun s l => prefLane s h x.l2 (va l)) s
    nextE h

/-! ## CWB and CINV (R195) -/

/-- Every byte of a range lies in the global window. -/
def globalRange (va n : Nat) : Bool :=
  windowOf va == .global && windowOf (va + n - 1) == .global && decide (va + n ≤ 2 ^ 64)
    && decide (va / 2 ^ 56 = (va + n - 1) / 2 ^ 56)

/-- A line of a range with its translation. -/
structure RangeLine where
  va : Nat
  pa : Nat
  attr : Attr
  deriving DecidableEq, Repr

/-- Line i of the range, translated as a load's is, once the crew's own stores to it are performed. -/
def rangeLineE (h : Here) (va i : Nat) : Exec RangeLine := do
  let a := max va ((va / 128 + i) * 128)
  let t ← pageE h a .rd 0
  let pa := tlbPa t a
  let s ← getE
  if pendingLine s h.b h.c (lineNo pa) then waitE h (.retry (.drain (BitVec.allOnes 32)))
  pure ⟨a, pa, t.attr⟩

/-- Modified moored lines of the core that map a byte of the line in the range. -/
def mooredIn (s : State) (core lo hi : Nat) (x : RangeLine) : List (Nat × Nat) :=
  let base := x.va / 128 * 128
  let inRange (pa : Nat) : Bool :=
    decide (pa / 128 = lineNo x.pa ∧ lo ≤ base + pa % 128 ∧ base + pa % 128 < hi)
  (coreOf s core).moorings.flatMap fun e =>
    (e.2.lines.filter fun l => (l.2.st == .drt || l.2.st == .wbk) && l.2.map.any fun p => inRange p.2).map
      fun l => (e.1, l.1)

/-- What the home of a line of the range does with a line that has answered: a line that leaves L2, or a modified host
line that is written to its host, is evicted; `CWB.sys` leaves no line newer than its memory. -/
def cleanLine (s : State) (g : Nat) (clean evict : Bool) : State :=
  let l := lineOf s g
  if evict || (clean && l.cxl == .modified) then (if l.resident && evictable l then evictLine s g else s)
  else if clean then updLine s g fun l => { l with
    dirty := false, form := if l.dirty then storedForm l.cmp (readPlace s (linePlace (128 * g)) 128) else l.form }
  else s

/-- A line at its home answers: it is shared, or given up, and no longer newer than its memory. -/
def homeCleanE (h : Here) (inval clean evict : Bool) (x : RangeLine) : Exec Unit := do
  if isRemote x.pa then pure ()
  else do
    sendE h x.pa
    let s ← getE
    let g := lineNo x.pa
    let (ok, s1) := grab s g none inval
    modifyE fun _ => s1
    if !ok then waitE h (.retry (.line g))
    else modifyE fun s => cleanLine (sentBy h x.pa s) g clean evict

/-- The lines of the range of a `CWB` or `CINV`, one after the other; those done stay done while the word waits. Nothing
is done for no bytes. -/
def rangeE (h : Here) (a b : Opnd) (f : Nat → Nat → RangeLine → Exec Unit) : Exec Unit := do
  let s ← getE
  let va := srcNum s h a 2 0
  let n := srcNum s h b 1 0
  let done := (hSlot h).prog
  if n = 0 then pure ()
  else if !globalRange va n then faultE h .addrf 0 (BitVec.ofNat 64 va) 0
  else
    (List.range ((va + n - 1) / 128 - va / 128 + 1 - done)).forM fun i => do
      let x ← rangeLineE h va (done + i)
      f va n x
      updCrewE h fun y => setSlot y h.k { slotOf y h.k with prog := done + i + 1 }

/-- The scopes within one fleet. -/
def nearScope (sc : Scope) : Bool := sc == .crew || sc == .blk || sc == .flt

def execCwb (a b : Opnd) (sc : Scope) (s : State) : Host.Outcome State Fault Refusal :=
  issueWord (.cwb a b sc) s fun h => do
    rangeE h a b fun va n x =>
      if nearScope sc then do
        let s ← getE
        flushE h h.blk.core (mooredIn s h.blk.core va (va + n) x)
      else homeCleanE h false (sc == .sys) false x
    nextE h

def execCinv (a b : Opnd) (sc : Scope) (s : State) : Host.Outcome State Fault Refusal :=
  issueWord (.cinv a b sc) s fun h => do
    rangeE h a b fun _ _ x => do
      updCrewE h (forgetLines [lineNo x.pa])
      if nearScope sc then modifyE fun s => dropL1 s h.blk.core (lineNo x.pa)
      else homeCleanE h true true true x
    nextE h

end Sys2Proof.Machine
end

