-- ==== Sys2Proof/Machine/Capsule.lean ====
section
/-! DEFINITION. Capsule instructions (23_capsule_rules.md R272, R273, R277, R285 to R291). -/

namespace Sys2Proof.Machine

/-- R32, R277: capsules are allowed. -/
def capFlagE (h : Here) : Exec Unit := do
  let s ← getE
  if nbit (flagsOf s h.blk) 1 then pure () else trapE h .capfault 2

/-- R277: the one active lane; the crew holds no capsule and asks for none. Where several reasons hold, CODE 2 goes before 10,
and 10 before 3 (DESIGN CHOICE, log 93). -/
def askLaneE (h : Here) : Exec Nat := do
  capFlagE h
  if h.crew.holding.isSome then trapE h .capfault 10
  else if popMask (hMask h) ≠ 1 then trapE h .capfault 3
  else if awaitsHome (slotOf h.crew (1 - h.k)) then waitE h (.retry .capsule)
  else pure (lowLane (hMask h))

/-- R269, R277: the record that an address names: its line, and the attributes of its page. -/
def capRecordE (h : Here) (va : Nat) : Exec (Nat × Attr) := do
  let addr := BitVec.ofNat 64 va
  match routeOf va 1 with
  | .bad => faultE h .addrf 0 addr 2
  | .global =>
    if va % 128 ≠ 0 then trapE h .capfault 4
    else do
      let t ← pageE h va .rw 2
      if t.attr.ord = 1 then faultE h .accf 6 addr 2
      else if t.attr.ord ≠ 0 ∨ t.attr.hc = true then trapE h .capfault 4
      else pure (lineNo (tlbPa t va), t.attr)
  | _ => trapE h .capfault 4

/-- R271, R277: the delivery slot that an address names: its physical address, and the attributes of its page. -/
def slotE (h : Here) (va : Nat) (r : Right) (kind : Nat) : Exec (Nat × Attr) := do
  match routeOf va 1 with
  | .bad => faultE h .addrf 0 (BitVec.ofNat 64 va) kind
  | .global =>
    if va % 32 ≠ 0 then trapE h .capfault 11
    else do
      let t ← pageE h va r kind
      if t.attr.ord ≠ 0 ∨ t.attr.hc = true then trapE h .capfault 11 else pure (tlbPa t va, t.attr)
  | _ => trapE h .capfault 11

/-- The question sets out and the slot awaits its answer. -/
def ask (s : State) (h : Here) (line lane : Nat) (a : Attr) (k : CapKind) (ev : Nat → Instr) : State :=
  let (n, s1) := freshId s
  let e := execId h.blk.core h.c h.crew.crewSlot lane
  let s2 := { s1 with capMsgs := s1.capMsgs.put n ⟨line, h.b, h.c, 0, 0, e, k, a⟩ }
  later (waitSlot (sentBy h (128 * line) s2) h .capsule) (ev n)

/-- R78, R292: a message to a record's home waits for a slot on every hop. -/
def capSlotE (h : Here) (line : Nat) : Exec Unit := sendE h (128 * line)

def askE (h : Here) (line lane : Nat) (a : Attr) (k : CapKind) (ev : Nat → Instr) : Exec Unit := do
  capSlotE h line
  stopWith fun s => ask s h line lane a k ev

/-- PC + sext(LBL) × 8. -/
def lblTarget (h : Here) (lbl : BitVec 12) : DWord := hPc h + lbl.signExtend 64 * 8

/-- The lane that asks, the register of its status and the record's address. -/
def askerOf (h : Here) (d : Opnd) (l va : Nat) (a : Attr) : Asker := ⟨l, h.k, (regCode d).getD 0, BitVec.ofNat 64 va, a⟩

/-- k0 to k3 of the first step; the rest are 0. -/
def argWords (c : Nat) : List Word := (List.range 16).map fun i => if i < 4 then wordOf c i else 0

def execCapenter (x : CapenterOp) (s : State) : Host.Outcome State Fault Refusal :=
  issueWord (.capenter x) s fun h => do
    let s ← getE
    let l ← askLaneE h
    let va := srcNum s h x.a 2 l
    let (line, ra) ← capRecordE h va
    let sv := srcNum s h x.b 2 l
    let (pa, sa) ← slotE h sv .wr 1
    let c := srcNum s h x.c 4 l
    askE h line l ra (.enter (askerOf h x.d l va ra) pa (lblTarget h x.lbl) (argWords c) (BitVec.ofNat 64 sv) sa) .enter

def execCapadopt (d a : Opnd) (s : State) : Host.Outcome State Fault Refusal :=
  issueWord (.capadopt d a) s fun h => do
    let s ← getE
    let l ← askLaneE h
    let va := srcNum s h a 2 l
    let (line, ra) ← capRecordE h va
    askE h line l ra (.adopt (askerOf h d l va ra)) .adopt

/-- One lane's slot, waited for until it is closed: k0 to k3. The read that finds it closed is an acquire at device scope
(R101, R291). -/
def readSlotE (h : Here) (va : Nat) (l : Nat) : Exec Nat := do
  let (pa, _) ← slotE h va .rd 0
  let bs ← engReadE h va 32
  if leNat ((bs.drop 0x14).take 4) = 0 ∨ leNat ((bs.drop 0x1C).take 4) ≠ 0 ∨ leNat ((bs.drop 0x13).take 1) ≠ 0 then waitE h (.retry (.delivery (BitVec.ofNat 64 va)))
  else do
    modifyE fun s => readMarks s h.b h.c (laneBit l) (.acq .dev)
      (marksAt s ((List.range 32).map fun i => placeKey (linePlace pa) + i))
    pure (leNat (bs.take 16))

/-- What the slot that a lane names delivers. -/
def slotLaneE (s : State) (h : Here) (a : Opnd) (l : Nat) : Exec (Nat × Nat) := do
  let x ← readSlotE h (srcNum s h a 2 l) l
  pure (l, x)

def execCapstat (d a : Opnd) (s : State) : Host.Outcome State Fault Refusal :=
  issueWord (.capstat d a) s fun h => do
    let s ← getE
    capFlagE h
    let rs ← (lanesOf (hMask h)).mapM (slotLaneE s h a)
    updCrewE h fun y => putDst y false d 4 (hMask h) fun l => Table.getD rs l 0
    nextE h

/-- The commit sets out with k0 to k15 and the slot awaits its answer. -/
def askCommit (s : State) (h : Here) (k : Holding) (kind : Fin 3) (ra : DWord) : State :=
  let ks := (List.range 16).map fun i => readK h.crew i
  let (n, s1) := sendCap s k.line h.b h.c k (.commit kind ks ra)
  later (waitSlot (sentBy h (128 * k.line) s1) h .capsule) (.commit n)

/-- A commit or a close of the crew's record is on its way. -/
def closingOut (s : State) (b c : Nat) : Bool :=
  committing s b c || s.capHomes.any fun e =>
    match e.2.closing with
    | some x => x.1 == b && x.2.1 == c
    | none => false

/-- A commit of the step, once the lane's accesses that it releases are performed; a displaced lane sends nothing and
leaves with ADOPTED. -/
def commitE (h : Here) (kind : Fin 3) (ra : DWord) : Exec Unit := do
  capFlagE h
  match h.crew.holding with
  | none => trapE h .capfault 12
  | some k => do
    if !inCapsule h.crew (hMask h) then trapE h .capfault 12
    else if kind = 0 ∧ k.step = 63 then trapE h .capfault 8
    else if k.displaced then stopWith fun s => exitCapsule s h.b h.c 5
    else do
      let s ← getE
      if closingOut s h.b h.c then waitE h .capsule
      drainE h (hMask h)
      capSlotE h k.line
      stopWith fun s => askCommit s h k kind ra

def execCapstep (lbl : BitVec 12) (s : State) : Host.Outcome State Fault Refusal :=
  issueWord (.capstep lbl) s fun h => commitE h 0 (lblTarget h lbl)

def execCapexit (s : State) : Host.Outcome State Fault Refusal := issueWord .capexit s fun h => commitE h 1 0

def execCapabort (s : State) : Host.Outcome State Fault Refusal := issueWord .capabort s fun h => commitE h 2 0

end Sys2Proof.Machine
end

