-- ==== Sys2Proof/Machine/FaultQueue.lean ====
section
/-! DEFINITION. Imprecise store faults, the device fault queue, its acknowledgements, and the halt of a block
(19_traps_rules.md R230 to R235, 17_instr_engines.md R225). -/

namespace Sys2Proof.Machine

/-! ## A store that has faulted (R230, R231) -/

/-- INFO KIND of a store's fault (R233): a write's, or that of the walk that met a poisoned table. -/
def storeKind (r : Req) (cause : Cause) : Nat := if r.virt && cause == .poison then 6 else 1

/-- The record of a faulting store; `extra` are flags beside STORE and EXITED. -/
def storeRec (s : State) (x : Block) (r : Req) (extra : Nat) : FRec :=
  let (cause, code, addr) := r.cause.getD (.pagef, 0, 0)
  { blockRec s x cause (4 + (if storeExited x r then 8 else 0) + extra) r.pc (BitVec.ofNat 64 addr) r.mask r.crew
      (infoOf r.slot (storeKind r cause) false) code 0 0 with agent := r.core }

/-- R231: one record stands for every request of a store. -/
def tellStore (s : State) (r : Req) : State :=
  { s with reqs := s.reqs.map fun e =>
      if e.2.blk = r.blk ∧ e.2.entry = r.entry then (e.1, { e.2 with told := true }) else e }

def execStoreFault (req : Nat) (s : State) : Host.Outcome State Fault Refusal :=
  match s.reqs.find req with
  | none => .next s
  | some r =>
    match s.blocks.find r.blk with
    | none => .next { s with reqs := s.reqs.drop req }
    | some x =>
      if r.st ≠ .faulted then .next s
      else if !launchLive s x.launch then
        let s1 := later { tellStore s r with reqs := (tellStore s r).reqs.drop req } (.blockRetire r.blk)
        .next (if r.told then s1 else postRec s1 (dieOfCore x.core) (storeRec s x r 64))
      else if r.told then .next s
      else
        let s1 := setBlock (tellStore s r) r.blk
          { x with recs := x.recs ++ [storeRec s x r (16 + 32)] }
        .next (beginSave s1 r.blk 8)

/-! ## Writing the ring (R232, R233) -/

/-- The 64 bytes of a record. -/
def faultBytes (r : FRec) (ph : Nat) : List Byte :=
  leBytes 1 (causeCode r.cause) ++ leBytes 1 (Nat.lor r.flags ph) ++ leBytes 2 r.agent ++ leBytes 4 r.ltag.toNat
    ++ leBytes 8 r.pc.toNat ++ leBytes 8 r.addr.toNat ++ leBytes 4 r.token ++ leBytes 4 r.mask.toNat ++ leBytes 4 r.bx
    ++ leBytes 2 r.byIdx ++ leBytes 2 r.bz ++ leBytes 1 r.crew ++ leBytes 1 r.info ++ leBytes 2 r.code ++ leBytes 4 r.pasid
    ++ leBytes 8 r.aux.toNat ++ leBytes 8 r.sect.toNat

def fqEn (g : Regs) : Bool := nbit g.fqctl.toNat 0
def fqTail (g : Regs) : Nat := nfield g.fqptr.toNat 0 12
def fqHead (g : Regs) : Nat := nfield g.fqptr.toNat 16 12
def fqFull (g : Regs) : Bool := (fqTail g + 1) % 4096 == fqHead g
def fqEmpty (g : Regs) : Bool := fqTail g == fqHead g
def fqSlot (g : Regs) : Nat := nfield g.fqctl.toNat 18 34 * 2 ^ 18 + 64 * fqTail g

/-- TAIL moves on; a wrap begins the next pass. -/
def advanceTail (g : Regs) : Regs :=
  let t := (fqTail g + 1) % 4096
  { g with
    fqptr := BitVec.ofNat 64 (t + fqHead g * 2 ^ 16)
    passes := if t = 0 then g.passes + 1 else g.passes }

/-- PH: 1 on the first pass, 0 on the second, and so on. -/
def passBit (g : Regs) : Nat := (g.passes + 1) % 2

/-- A write to a poisoned line that no launch makes: it is not performed, and it is reported (R247). -/
def poisonedWrite (s : State) (pa agent : Nat) : State :=
  postRec s (homeDie pa) { eventRec .poison agent 0 (BitVec.ofNat 64 pa) 0 0 with flags := 4, info := 2 }

/-- R247: the ring's line is poisoned: the write is reported once, in the records that wait, and is tried again (log 80). -/
def ringPoison (s : State) (die : Nat) : State :=
  let pa := fqSlot s.regs
  if !poisoned s (lineNo pa) || (dieOf s (homeDie pa)).waiting.any fun r => r.cause == .poison && r.addr == BitVec.ofNat 64 pa then s
  else poisonedWrite s pa (islandAgent die)

/-- The record is written at the ring's home. None: the line is held, or under poison. -/
def writeRing (s : State) (r : FRec) : Option State :=
  let pa := fqSlot s.regs
  if versioned s (lineNo pa) then none
  else
    match grab s (lineNo pa) none true with
    | (false, _) => none
    | (true, s1) =>
      if poisoned s1 (lineNo pa) then none
      else some (homeWrite s1 (lineNo pa) (((faultBytes r (passBit s.regs)).zipIdx).map fun p => (pa + p.2, p.1)) plainAttr
        s.clock true).2

/-- A vector of a function's MSI-X table (R328). -/
def msixKey (p : Port) (v : Nat) : Nat :=
  match p with
  | .a => v
  | .b => 2048 + v

def msixOf (s : State) (p : Port) (v : Nat) : MsixVec := s.regs.msix.getD (msixKey p v) MsixVec.reset

/-- R328: the fault-queue message leaves through every port on which vector 0 is unmasked. -/
def faultIrq (s : State) : State :=
  [Port.a, Port.b].foldl (fun s p =>
    let v := msixOf s p 0
    if v.masked || !portUp s p then s else { s with outputs := s.outputs ++ [.msix p v.addr v.data] }) s

/-- TAIL is advanced, and a ring that was empty sends its interrupt. -/
def recordWritten (s : State) (die : Nat) (rest : List FRec) : State :=
  let s1 := setDie { s with regs := advanceTail s.regs } die { dieOf s die with waiting := rest }
  if fqEmpty s.regs then faultIrq s1 else s1

def execFaultRecordWrite (die : Fin 4) (s : State) : Host.Outcome State Fault Refusal :=
  match (dieOf s die.val).waiting with
  | [] => .next s
  | r :: q =>
    if !fqEn s.regs || fqFull s.regs then .next (later s (.faultRecordWrite die))
    else if !agentSlot s (islandAgent die.val) die.val (fqSlot s.regs) then
      .next (later (refused s (islandAgent die.val) die.val (sliceOf (fqSlot s.regs))) (.faultRecordWrite die))
    else
      match writeRing s r with
      | some s1 => .next (recordWritten (exchange s1 die.val (homeDie (fqSlot s.regs)) none) die.val q)
      | none => .next (later (ringPoison (heldBy s (lineNo (fqSlot s.regs)) true) die.val) (.faultRecordWrite die))

/-! ## Acknowledgements (R232, R234, R235, R225) -/

/-- FQACK.ERR. -/
def ackError (s : State) : State := { s with regs := { s.regs with fqack := s.regs.fqack ||| BitVec.ofNat 64 (2 ^ 34) } }

/-- The token has been acknowledged. -/
def dropToken (s : State) (t : Nat) : State := { s with tokens := s.tokens.drop t }

/-- The block no longer waits for the token. -/
def settleToken (s : State) (b t : Nat) : State := updBlock s b fun x => { x with tokens := x.tokens.filter (· != t) }

/-- Another block of the fleet is being saved, or is. -/
def mateSaved (s : State) (b : Nat) : Bool :=
  (withFleet s b).any fun k =>
    match s.blocks.find k with
    | some y => y.st == .saving || y.st == .saved
    | none => false

/-- A halted block runs again, or joins the save of its fleet (R246; DEDUCED, log 76); one that has meanwhile been saved
for its own store's fault waits for the token no longer. -/
def replayHalt (s : State) (b t : Nat) : State :=
  match s.blocks.find b with
  | some x =>
    if x.st ≠ .halted then settleToken s b t
    else if mateSaved s b then beginSaveOne (setBlock s b { x with st := .running, halting := none }) b 0
    else resumeBlock s b
  | none => s

def execFqackReplay (token : Word) (s : State) : Host.Outcome State Fault Refusal :=
  let t := token.toNat
  if t = 0 ∨ moduleReady s = false then .next s
  else
    match s.tokens.find t with
    | none => .next (ackError s)
    | some (.block b) => .next (settleToken (dropToken s t) b t)
    | some (.copy c) => .next (replayCopy (dropToken s t) c t)
    | some (.halt b false) => .next (replayHalt (dropToken s t) b t)
    | some (.halt b true) => .next (settleToken (dropToken s t) b t)

/-- The launch that a token concerns. -/
def tokenLaunch (s : State) (w : TokenOf) : Option Nat :=
  match w with
  | .block b => (s.blocks.find b).map fun x => x.launch
  | .halt b _ => (s.blocks.find b).map fun x => x.launch
  | .copy c => (s.copies.find c).bind fun y => (s.blocks.find y.blk).map fun x => x.launch

def execFqackKill (token : Word) (s : State) : Host.Outcome State Fault Refusal :=
  let t := token.toNat
  if t = 0 ∨ moduleReady s = false then .next s
  else
    match s.tokens.find t with
    | none => .next (ackError s)
    | some w =>
      match tokenLaunch s w with
      | some l => .next (endGrid (dropToken s t) l)
      | none => .next (dropToken s t)

/-- A halted block is saved for its debugger (R225). The block of a fleet that is already being saved posts its second
record with that save, and one that is saved posts it at once (DESIGN CHOICE, log 76). -/
def dockBlock (s : State) (b t : Nat) : State :=
  match s.blocks.find b with
  | none => s
  | some x =>
    match x.halting with
    | none => s
    | some h =>
      let x1 := { x with tokens := x.tokens.filter (· != t), causes := x.causes ||| 32 }
      let r := haltRec s x h (16 + 32)
      match x.image with
      | some i =>
        let (n, s1) := postAck s (dieOfCore x.core) { r with aux := BitVec.ofNat 64 (imageAddr s i) } (.halt b true)
        setBlock s1 b { x1 with tokens := x1.tokens ++ [n] }
      | none =>
        let s1 := setBlock s b { x1 with recs := x1.recs ++ [r] }
        if x.st = .halted then beginSave s1 b 32 else s1

def execFqackDock (token : Word) (s : State) : Host.Outcome State Fault Refusal :=
  let t := token.toNat
  if t = 0 ∨ moduleReady s = false then .next s
  else
    match s.tokens.find t with
    | some (.halt b false) => .next (dockBlock (dropToken s t) b t)
    | _ => .next (ackError s)

/-! ## The halt of a block (R225) -/

/-- A store of the block is not yet acknowledged. -/
def plainStoresOut (s : State) (b : Nat) : Bool :=
  s.reqs.any fun e => e.2.blk == b &&
    match e.2.kind with
    | .store _ _ _ _ | .red _ _ => true
    | .load _ _ _ _ _ => false

/-- The block is HALTED, and its record is posted. -/
def haltBlock (s : State) (b : Nat) (h : Halt) : State :=
  let s1 := parkBlock s b
  match s1.blocks.find b with
  | none => s1
  | some x =>
    let s2 := setBlock s1 b { x with st := .halted }
    (postAck s2 (dieOfCore x.core) (haltRec s2 x h 0) (.halt b false)).2

def execHaltComplete (b : Nat) (s : State) : Host.Outcome State Fault Refusal :=
  match s.blocks.find b with
  | none => .next s
  | some x =>
    match x.halting with
    | none => .next s
    | some h =>
      if x.st ≠ .running ∨ launchLive s x.launch = false then .next s
      else if plainStoresOut s b ∨ capsOut s b then .next (later s (.haltComplete b))
      else .next (haltBlock s b h)

end Sys2Proof.Machine
end

