-- ==== Sys2Proof/Machine/MatrixUnit.lean ====
section
/-! DEFINITION. The steps of a matrix unit: passes, the loader, swaps, tile operations and the epilogue
(21_instr_matrix.md R251, R254, R255, R258 to R264). -/

namespace Sys2Proof.Machine

/-! ## Tokens (R254, R338, R341) -/

/-- A matrix claim of a block: granted, or the die is throttled and the pass waits. A claim beyond a whole window's
budget takes the whole of a window not yet drawn from. -/
def claimPass (s : State) (core blk n : Nat) : Bool × State :=
  let d := dieOf s (dieOfCore core)
  let launch := match s.blocks.find blk with
    | some b => b.launch
    | none => 0
  if n ≤ d.left then
    (true, chargeLaunch (setDie s (dieOfCore core) { d with left := d.left - n }) launch n)
  else if d.eff < n ∧ d.left = d.opened then
    (true, chargeLaunch (setDie s (dieOfCore core) { d with left := 0 }) launch n)
  else (false, setDie s (dieOfCore core) { d with throttled := true })

/-! ## Entries -/

/-- The entry has completed: it leaves the queue and its batches advance. -/
def completeEntry (s : State) (core part i : Nat) : State :=
  let u := unitOf s core part
  match u.queue[i]? with
  | none => s
  | some e =>
    let s1 := setUnit s core part { u with queue := u.queue.eraseIdx i }
    later (e.parts.foldl (fun s p => updCrew s e.blk e.crew fun y => closePart y p.1) s1) (.blockRetire e.blk)

/-- The first entry that may take its step, its earlier entries permitting. -/
def firstEntry (u : MatUnit) (ok : List MatEntry → MatEntry → Bool) : Option (Nat × MatEntry) :=
  (List.range u.queue.length).findSome? fun i =>
    match u.queue[i]? with
    | some e => if ok (u.queue.take i) e then some (i, e) else none
    | none => none

def isPass (e : MatEntry) : Bool :=
  match e.op with
  | .pass _ _ _ _ _ _ _ => true
  | _ => false

def passBegun (e : MatEntry) : Bool :=
  match e.op with
  | .pass _ _ _ _ _ _ b => b
  | _ => false

def isLoader (e : MatEntry) : Bool :=
  match e.op with
  | .load _ _ _ => true
  | .lut _ => true
  | _ => false

/-- The tile that an entry reads or writes and has not yet settled. -/
def openTile (e : MatEntry) : Option Nat :=
  match e.op with
  | .pass t _ _ _ _ _ _ => some t
  | .zero t => some t
  | .read t _ _ _ _ => some t
  | .store t _ _ _ _ _ _ _ none => some t
  | _ => none

def noneOn (es : List MatEntry) (t : Nat) : Bool := !es.any fun e => openTile e == some t

/-! ## Passes -/

/-- A pass may enter: every earlier pass has, and no swap stands before it. -/
def passMayStart (es : List MatEntry) (e : MatEntry) : Bool :=
  isPass e && !passBegun e && es.all fun x => (!isPass x || passBegun x) && !isSwap x

def passRowCount (e : MatEntry) : Nat :=
  match e.op with
  | .pass _ _ _ _ rows _ _ => rows.length
  | _ => 0

def beginPass (e : MatEntry) : MatEntry :=
  match e.op with
  | .pass t af zpm kh rows t0 _ => { e with op := .pass t af zpm kh rows t0 true }
  | _ => e

def execMatrixPassStart (core part : Nat) (s : State) : Host.Outcome State Fault Refusal :=
  let u := unitOf s core part
  if !u.queue.any fun e => isPass e && !passBegun e then .next s
  else
    match firstEntry u passMayStart with
    | none => .next (later s (.matrixPassStart core part))
    | some (i, e) =>
      if !claimTurn s (dieOfCore core) (matrixRank core part) then .next (later s (.matrixPassStart core part))
      else
      let (ok, s1) := claimPass s core e.blk (4 + passRowCount e)
      if ok then
        .next (later (setUnit (claimed s1 (dieOfCore core) (matrixRank core part)) core part { u with queue := u.queue.set i (beginPass e) }) (.matrixPassDone core part))
      else .next (later s1 (.matrixPassStart core part))

/-- A pass may land: it is the first that has entered, and every earlier operation on its tile is settled. -/
def passMayLand (es : List MatEntry) (e : MatEntry) : Bool :=
  passBegun e && !(es.any isPass) &&
  match openTile e with
  | some t => noneOn es t
  | none => false

def tileVal (u : MatUnit) (t r j : Nat) : Nat := (u.tiles.getD (2048 * t + 64 * r + j) 0).toNat

def asumVal (u : MatUnit) (t r : Nat) : Nat := (u.asum.getD (32 * t + r) 0).toNat

/-- One row lands. -/
def landRow (u : MatUnit) (t : Nat) (af : AFmt) (zpm kh : Bool) (r : Nat) (bs : List Byte) : MatUnit :=
  let p := u.active
  let tiles := (List.range 64).foldl (fun ts j =>
    ts.put (2048 * t + 64 * r + j) (BitVec.ofNat 32 (passColumn p af kh bs (tileVal u t r j) j))) u.tiles
  let asum := if zpm then
      u.asum.put (32 * t + r)
        (BitVec.ofNat 32 (rowSum af (asumVal u t r) ((List.range (actLen af)).map (actAt af bs))))
    else u.asum
  { u with tiles := tiles, asum := asum }

/-- The rows of a pass: every activation is read from the stash, then every row lands. -/
def landRowsM (blk : Block) (core part t : Nat) (af : AFmt) (zpm kh : Bool) (rows : List (Nat × Nat)) : EngM Unit := do
  let xs ← rows.mapM fun r => readM blk r.2 (actBytes af) 0
  modifyM fun s =>
    setUnit s core part ((rows.zip xs).foldl (fun u p => landRow u t af zpm kh p.1.1 p.2) (unitOf s core part))

/-- A step of the unit for an entry's block: the accesses of `act`, then the entry completes. A line that is not
there puts the step off. -/
def unitStep (s : State) (e : MatEntry) (again : Instr) (act : Block → EngM Unit) (k : State → State) :
    Host.Outcome State Fault Refusal :=
  match s.blocks.find e.blk with
  | none => .next (k s)
  | some blk =>
    match (act blk).run s with
    | .ok (_, s1) => .next (k (dropWalkEnd s1))
    | .error (.again s1) => .next (later s1 again)
    | .error (.fault _ _) => .next (later (dropWalkEnd s) again)

def execMatrixPassDone (core part : Nat) (s : State) : Host.Outcome State Fault Refusal :=
  let u := unitOf s core part
  if !u.queue.any passBegun then .next s
  else
    match firstEntry u passMayLand with
    | none => .next (later s (.matrixPassDone core part))
    | some (i, e) =>
      match e.op with
      | .pass t af zpm kh rows _ _ =>
        unitStep s e (.matrixPassDone core part) (fun blk => landRowsM blk core part t af zpm kh rows)
          fun s => completeEntry s core part i
      | _ => .next s

/-! ## The loader and swaps (R258 to R260) -/

/-- The loader's operations go in order, none past an earlier swap. -/
def loaderMayRun (es : List MatEntry) (e : MatEntry) : Bool := isLoader e && es.all fun x => !isLoader x && !isSwap x

/-- The shadow plane after a load: its rows from the stash; rows beyond those of the format stay. -/
def loadPlaneM (blk : Block) (core part off stride : Nat) (wf : WFmt) : EngM Unit := do
  let rows ← (List.range (planeRows wf)).mapM fun k => readM blk (off + k * stride) (planeRow wf) 0
  let data := (rows.flatten.zipIdx.map fun p => (p.2, p.1)).filter fun p => p.2 != 0
  modifyM fun s =>
    let u := unitOf s core part
    let kept := u.shadow.data.filter fun p => decide (rows.flatten.length ≤ p.1)
    setUnit s core part { u with shadow := { u.shadow with data := data ++ kept, wf := wf } }

def execMldwDone (core part : Nat) (s : State) : Host.Outcome State Fault Refusal :=
  let u := unitOf s core part
  if !u.queue.any isLoader then .next s
  else
    match firstEntry u loaderMayRun with
    | none => .next (later s (.mldwDone core part))
    | some (i, e) =>
      match e.op with
      | .load off stride wf =>
        unitStep s e (.mldwDone core part) (fun blk => loadPlaneM blk core part off stride wf)
          fun s => completeEntry s core part i
      | .lut book =>
        .next (completeEntry (setUnit s core part { u with shadow := { u.shadow with codebook := book } }) core part i)
      | _ => .next s

/-- A swap reaches its point: every earlier pass has landed and every earlier loader operation is complete. -/
def swapMayPoint (es : List MatEntry) (e : MatEntry) : Bool :=
  isSwap e && es.all fun x => !isPass x && !isLoader x && !isSwap x

/-- A result lands in a register that was pending. -/
def landSwap (s : State) (e : MatEntry) (d : Option Nat) (x : Word) : State :=
  match d with
  | none => s
  | some r => updCrew s e.blk e.crew fun y =>
    { (if 192 ≤ r then writeS y (r - 192) x else y) with pending := y.pending.filter (· != r) }

def execMswapPoint (core part : Nat) (s : State) : Host.Outcome State Fault Refusal :=
  let u := unitOf s core part
  if !u.queue.any isSwap then .next s
  else
    match firstEntry u swapMayPoint with
    | none => .next (later s (.mswapPoint core part))
    | some (i, e) =>
      match e.op with
      | .swap d =>
        let u1 := { u with active := u.shadow, shadow := u.active, pgen := u.pgen + 1 }
        .next (completeEntry (landSwap (setUnit s core part u1) e d u1.pgen) core part i)
      | _ => .next s

/-! ## Tile operations (R251, R261, R263, R264) -/

def isNothing (e : MatEntry) : Bool := e.op == .nothing

def isOpenTileOp (e : MatEntry) : Bool := isNothing e || (!isPass e && (openTile e).isSome)

/-- A tile operation reaches its point: nothing earlier on its tile is unsettled. -/
def tileMayPoint (es : List MatEntry) (e : MatEntry) : Bool :=
  isOpenTileOp e &&
  match openTile e with
  | some t => noneOn es t
  | none => isNothing e

def zeroTile (u : MatUnit) (t : Nat) : MatUnit :=
  { u with
    tiles := u.tiles.filter fun p => p.1 / 2048 != t
    asum := u.asum.filter fun p => p.1 / 32 != t }

/-- `MRD`: the active lanes receive raw values. -/
def readTile (s : State) (e : MatEntry) (u : MatUnit) (t col w d : Nat) (m : Mask) : State :=
  if m = 0 then s
  else updCrew s e.blk e.crew fun y =>
    let y1 := (lanesOf m).foldl (fun y l =>
      (List.range w).foldl (fun y k => writeV y (d + k) l (BitVec.ofNat 32 (tileVal u t l (col + k)))) y) y
    { y1 with pending := y1.pending.filter fun c => !(decide (d ≤ c) && decide (c < d + w)) }

/-- Words of an epilogue vector. -/
def wordsOf (bs : List Byte) : List Word := (List.range 64).map fun j => BitVec.ofNat 32 (leNat ((bs.drop (4 * j)).take 4))

/-- `MST` at its point: the tile, its row sums and the vectors are taken. -/
def takeTileM (blk : Block) (u : MatUnit) (t vec : Nat) (sc zpe : Bool) (m : Mask) : EngM TileCopy := do
  let a ← if sc && m != 0 then readM blk vec 256 0 else pure []
  let b ← if zpe && m != 0 then readM blk (vec + 256) 256 0 else pure []
  pure ⟨(List.range 2048).map fun i => u.tiles.getD (2048 * t + i) 0,
    (List.range 32).map fun i => u.asum.getD (32 * t + i) 0, wordsOf a, wordsOf b⟩

def execTileOpPoint (core part : Nat) (s : State) : Host.Outcome State Fault Refusal :=
  let u := unitOf s core part
  if !u.queue.any isOpenTileOp then .next s
  else
    match firstEntry u tileMayPoint with
    | none => .next (later s (.tileOpPoint core part))
    | some (i, e) =>
      match e.op with
      | .nothing => .next (completeEntry s core part i)
      | .zero t => .next (completeEntry (setUnit s core part (zeroTile u t)) core part i)
      | .read t col w d m => .next (completeEntry (readTile s e u t col w d m) core part i)
      | .store t off st vec sc zpe f m _ =>
        match s.blocks.find e.blk with
        | none => .next (completeEntry s core part i)
        | some blk =>
          match (takeTileM blk u t vec sc zpe m).run s with
          | .ok (c, s1) =>
            let u1 := unitOf s1 core part
            let e1 := { e with op := .store t off st vec sc zpe f m (some c) }
            .next (later (setUnit (dropWalkEnd s1) core part { u1 with queue := u1.queue.set i e1 }) (.mstDone core part))
          | .error (.again s1) => .next (later s1 (.tileOpPoint core part))
          | .error (.fault _ _) => .next (later (dropWalkEnd s) (.tileOpPoint core part))
      | _ => .next s

/-! ## The epilogue (R264) -/

/-- The elements of an output row, with their flags. -/
def outRow (c : TileCopy) (f : Fmt) (sc zpe : Bool) (r : Nat) : List (Nat × FlagSet) :=
  (List.range 64).map fun j =>
    epilogueNat f (c.vals.getD (64 * r + j) 0).toNat (c.asum.getD r 0).toNat (c.scale.getD j 0).toNat
      (c.zp.getD j 0).toNat sc zpe

/-- Writes rows at their offsets; the greatest write time. -/
def writeRowsM (blk : Block) (rows : List (Nat × List Byte)) : EngM Nat := do
  match rows with
  | [] => pure 0
  | r :: q => do
    let t ← writeM blk r.1 1 r.2
    let t' ← writeRowsM blk q
    pure (max t t')

/-- A batch has written at time `t` (R255). -/
def noteBatch (t : Nat) (y : Crew) (n : Nat) : Crew :=
  { y with batches := { y.batches with tws := y.batches.tws.put n (max t (y.batches.tws.getD n 0)) } }

/-- Every row can be written, then every row is. -/
def storeTileM (e : MatEntry) (blk : Block) (c : TileCopy) (off st : Nat) (f : Fmt) (sc zpe : Bool) (m : Mask) :
    EngM Unit := do
  (lanesOf m).forM fun l => readyM blk (off + l * st) (outBytes f) 1
  let tw ← writeRowsM blk ((lanesOf m).map fun l =>
    (off + l * st, (outRow c f sc zpe l).flatMap fun x => leBytes (elemBytes f) x.1))
  modifyM fun s => updCrew s e.blk e.crew fun y => (e.parts.map (·.1)).foldl (noteBatch tw) y

/-- FSTAT of the crew receives the flags of every element. -/
def storeFlags (c : TileCopy) (f : Fmt) (sc zpe : Bool) (m : Mask) : FlagSet :=
  (lanesOf m).foldl (fun a l => (outRow c f sc zpe l).foldl (fun a x => flagOr a x.2) a) flagNone

def isTaken (e : MatEntry) : Bool :=
  match e.op with
  | .store _ _ _ _ _ _ _ _ (some _) => true
  | _ => false

def isStore (e : MatEntry) : Bool :=
  match e.op with
  | .store _ _ _ _ _ _ _ _ _ => true
  | _ => false

/-- The epilogue takes its operations in unit order, one at a time. -/
def storeMayRun (es : List MatEntry) (e : MatEntry) : Bool := isTaken e && !es.any isStore

def execMstDone (core part : Nat) (s : State) : Host.Outcome State Fault Refusal :=
  let u := unitOf s core part
  if !u.queue.any isTaken then .next s
  else
    match firstEntry u storeMayRun with
    | none => .next (later s (.mstDone core part))
    | some (i, e) =>
      match e.op with
      | .store _ off st _ sc zpe f m (some c) =>
        unitStep s e (.mstDone core part) (fun blk => storeTileM e blk c off st f sc zpe m) fun s =>
          completeEntry (updCrew s e.blk e.crew fun y => setFstatLate y (storeFlags c f sc zpe m)) core part i
      | _ => .next s

end Sys2Proof.Machine
end

