-- ==== Sys2Proof/Machine/System.lean ====
section
/-! DEFINITION. Stream decode, special registers, timelines, breakpoints and the eviction phase
(17_instr_engines.md R220 to R225). -/

namespace Sys2Proof.Machine

/-! ## XDEC and XBMP -/

/-- Set bits of x below bit l. -/
def popBelow (x l : Nat) : Nat := popcNat (x % 2 ^ l)

def execXdec (x : Op3) (s : State) : Host.Outcome State Fault Refusal :=
  issueWord (.xdec x) s fun h => do
    let m := activeMask h x.g
    if m = 0 then nextE h
    else do
      let s ← getE
      let b := srcNum s h x.b 1 0
      let c := srcNum s h x.c 1 0
      updCrewE h fun y => putDst y false x.d 1 m fun l =>
        if !nbit b l then 0
        else
          let j := c + popBelow b l
          if j < 32 then srcNum s h x.a 1 j else 0
      nextE h

def execXbmp (x : Op1) (s : State) : Host.Outcome State Fault Refusal :=
  issueWord (.xbmp x) s fun h => do
    let m := activeMask h x.g
    if m = 0 then nextE h
    else do
      let s ← getE
      updCrewE h fun y => putDst y false x.d 1 m fun l =>
        let a := srcNum s h x.a 1 l
        popBelow a l + (if nbit a l then 0 else 2 ^ 31)
      nextE h

/-! ## Special registers (R208, R209, R222, R223) -/

def ringOf (blk : Block) (k : Nat) : Ring := blk.rings.getD k ⟨0, 0, 0, []⟩

/-- The value of a special register. -/
def sprNat (s : State) (h : Here) (r : Spr) : Nat :=
  let l := launchHere s h
  match r with
  | .fstat => h.crew.fstat.toNat
  | .tst => (readTst h.crew).toNat
  | .tctl => h.crew.tctl.toNat
  | .chb n =>
    let c := chanOf h.crew n.val
    c.kind.val + c.ring.val * 8
  | .rrcfg k =>
    let g := ringOf h.blk k.val
    g.cfg.toNat + g.count * 2 ^ 32
  | .energy => (l.map fun x => x.energy.getD (dieOfCore h.blk.core) 0).getD 0
  | .ltag => (l.map fun x => x.ltag.toNat).getD 0
  | .batch => (h.blk.batch.map fun x => x.n).getD 0
  | .prio => (l.map fun x => x.prio).getD 0
  | .die => dieOfCore h.blk.core
  | .clk64 => s.clock
  | .ltime => crewT s h.crew
  | .lease => nfield (qiOf s (ctxOf s h.blk).qi).ctl.toNat 4 4

/-- R116, R136: a read or a write of FSTAT waits for the slot's earlier instructions that can set it. -/
def sprReadyE (h : Here) (r : Spr) : Exec Unit := do
  let s ← getE
  if r = .fstat ∧ (storeQueued s h.blk.core h.b h.c h.k || loadQueued s h.b h.c h.k) = true then waitE h (.retry .fstat)

def execMovspr (g : Guard) (d : Opnd) (r : Spr) (s : State) : Host.Outcome State Fault Refusal :=
  issueWord (.movspr g d r) s fun h => do
    let m := activeMask h g
    if m = 0 then nextE h
    else do
      sprReadyE h r
      let s ← getE
      updCrewE h fun y => putDst y false d (sprRegs r) m fun _ => sprNat s h r
      nextE h

/-- R208: the binding that a write of CHBn leaves; none where the KIND may not be written. -/
def chbWrite (c : Chan) (x : Nat) : Option Chan :=
  let kind := nfield x 0 3
  if kind = 0 ∨ kind = 1 ∨ kind = 4 then some { c with kind := Fin.ofNat 5 kind, ring := Fin.ofNat 4 (nfield x 3 2), queue := [] }
  else none

/-- R209: the ring that a write of RRCFGk leaves, its elements discarded; none where it may not be written. -/
def rrcfgWrite (p x : Nat) : Option Ring :=
  let lc := nfield x 0 4
  let base := nfield x 7 14 * 128
  if 10 < lc ∨ (lc ≠ 0 ∧ p < base + 128 * 2 ^ lc) then none
  else some ⟨BitVec.ofNat 64 (lc + nfield x 7 14 * 2 ^ 7), 0, 0, []⟩

def execWrspr (r : Spr) (a : Opnd) (s : State) : Host.Outcome State Fault Refusal :=
  issueWord (.wrspr r a) s fun h => do
    sprReadyE h r
    let s ← getE
    let x := srcNum s h a (sprRegs r) 0
    let w := BitVec.ofNat 32 x
    match r with
    | .fstat => updCrewE h fun y => writeFstat y w
    | .tst => updCrewE h fun y => writeTst y w
    | .tctl => updCrewE h fun y => writeTctl y w
    | .chb n =>
      match chbWrite (chanOf h.crew n.val) x with
      | some c => updCrewE h fun y => { y with chans := y.chans.put n.val c }
      | none => trapE h .illop
    | .rrcfg k =>
      match rrcfgWrite h.blk.kern.stash x with
      | some g => modifyE fun s => updBlock s h.b fun b => { b with rings := b.rings.put k.val g }
      | none => trapE h .illop
    | .energy | .ltag | .batch | .prio | .die | .clk64 | .ltime | .lease => trapE h .illop
    nextE h

/-! ## TLINC and GETTL (R224) -/

def execTlinc (a b : Opnd) (err : Bool) (s : State) : Host.Outcome State Fault Refusal :=
  issueWord (.tlinc a b err) s fun h => do
    let s ← getE
    let i := srcNum s h a 1 0
    let c := ctxOf s h.blk
    if tlCount s c ≤ i then trapE h .barmis
    else do
      drainE h (BitVec.allOnes 32)
      sendE h (tlAddr s c i)
      let s ← getE
      match raiseTl s c i (srcNum s h b 2 0) err (timeOf s h.b h.c) (partyOf s h.b h.c) .sys with
      | .wait g => do
        modifyE fun s => heldBy s g true
        waitE h (.retry (if versioned s g then .version g else .line g))
      | .slots k => do
        modifyE fun s => refused s (256 + sliceOf (tlAddr s c i)) (homeDie (tlAddr s c i)) k
        waitE h (.retry (.slots k))
      | .poison pa => stopWith fun s => takeStoreFault s h .poison 0 (BitVec.ofNat 64 pa)
      | .done tw s1 => do
        modifyE fun _ => sentBy h (tlAddr s c i) s1
        modifyE fun s => raiseT s h.b h.c tw
        nextE h

/-- The counter of an engine context, selectors 0 to 2. -/
def engineCounter (y : Crew) (sel : Nat) : Option Nat :=
  match sel with
  | 0 => some y.copies.value
  | 1 => some y.batches.value
  | 2 => some y.tape.tl.value
  | _ => none

/-- What GETTL reads: the counter, or the error bit. An engine context has no error bit: its read is free; so is that of a
table entry that is not in order, which is not acted on (R7; DESIGN CHOICE, log 80). -/
def gettlE (h : Here) (sel : Nat) (err : Bool) : Exec Nat := do
  let s ← getE
  let c := ctxOf s h.blk
  match engineCounter h.crew sel with
  | some n =>
    if err then do
      let (k, s1) := freeChoice s 2
      modifyE fun _ => s1
      pure k
    else pure n
  | none =>
    if 0x10000 ≤ sel ∧ sel - 0x10000 < tlCount s c then
      let i := sel - 0x10000
      if !tlEntryOk s c i then do
        let (k, s1) := freeChoice s (if err then 2 else 2 ^ 64)
        modifyE fun _ => s1
        pure k
      else if err then pure (if tlErr s c i then 1 else 0) else pure (tlValue s c i)
    else trapE h .barmis

def execGettl (g : Guard) (d a : Opnd) (err : Bool) (s : State) : Host.Outcome State Fault Refusal :=
  issueWord (.gettl g d a err) s fun h => do
    let m := activeMask h g
    if m = 0 then nextE h
    else do
      let s ← getE
      let n ← gettlE h (srcNum s h a 1 0) err
      updCrewE h fun y => putDst y false d (if err then 1 else 2) m fun _ => n
      nextE h

/-! ## BKPT and RESPHASE (R225) -/

/-- Breakpoints are enabled for a context (R346). -/
def bkptOn (s : State) (c : Ctx) : Bool :=
  let x := s.regs.dbgctl.toNat
  nbit x 27 && nfield x 0 20 == c.pasid && nfield x 20 6 == c.qi.q
    && (match c.qi.port with
        | .a => !nbit x 26
        | .b => nbit x 26)

/-- The code and lanes of the `BKPT` that a slot would issue. -/
def bkptAt (s : State) (r : SlotRef) : Option (Here × Nat × Mask) :=
  match hereAt s r with
  | none => none
  | some h =>
    match fetchWord s h with
    | .word w =>
      (match decode w with
       | .ok (.bkpt g code) => if activeMask h g = 0 then none else some (h, code.toNat, activeMask h g)
       | _ => none)
    | _ => none

/-- The `BKPT`s that other crews of the block would issue in this clock: one on each other partition. -/
def bkptsNow (s : State) (h : Here) : List (Here × Nat × Mask) :=
  ((candidates s).filter fun r => r.blk == h.b && r.crew % 8 != h.c % 8).filterMap (bkptAt s)

/-- R225: a `BKPT` completes; of those of one clock the lowest crew's is recorded. -/
def haltAt (s : State) (h : Here) (code : Nat) (m : Mask) : State :=
  let x : Halt := ⟨hPc h, code, m, h.c, infoOf h.k 0 false⟩
  updBlock (nextWord s h) h.b fun b =>
    { b with halting := match b.halting with
        | some y => if x.crew < y.crew then some x else some y
        | none => some x }

/-- R225: the `BKPT` completes, with those that other crews issue in the same clock (free), and the block begins to
halt. -/
def startHalt (s : State) (h : Here) (code : Nat) (m : Mask) : State :=
  let s1 := (bkptsNow s h).foldl (fun s x =>
    let (k, s1) := freeChoice s 2
    if k = 0 then s1 else haltAt s1 x.1 x.2.1 x.2.2) (haltAt s h code m)
  later s1 (.haltComplete h.b)

def execBkpt (g : Guard) (code : BitVec 12) (s : State) : Host.Outcome State Fault Refusal :=
  issueWord (.bkpt g code) s fun h => do
    let m := activeMask h g
    let s ← getE
    if m = 0 ∨ !bkptOn s (ctxOf s h.blk) then nextE h
    else modifyE fun s => startHalt s h code.toNat m

/-- EVPH with a new phase; its other fields are read-only or reserved (R67). -/
def setPhase (x : DWord) (p : Nat) : DWord := (x &&& ~~~(15 : DWord)) ||| BitVec.ofNat 64 (p % 16)

def execResphase (a : Opnd) (s : State) : Host.Outcome State Fault Refusal :=
  issueWord (.resphase a) s fun h => do
    let d := dieOfCore h.blk.core
    modifyE fun s => setDie s d { dieOf s d with evph := setPhase (dieOf s d).evph (srcNum s h a 1 0) }
    nextE h

end Sys2Proof.Machine
end

