-- ==== Sys2Proof/Machine/Network.lean ====
section
/-! DEFINITION. Requests and replies, what a home does with a request, probes, dead agents, fills and write-backs of
moorings, walks, eviction schedules, failed links and sleeping cores (05_memory_rules.md R52 to R56, R62 to R78;
19_traps_rules.md R247; 27_host_system_rules.md R332, R335; 29_power_bringup_rules.md R338). -/

namespace Sys2Proof.Machine

/-! ## Tokens and slots (R78, R338, R341) -/

/-- A request's injections are granted while THR tokens remain; the first refusal throttles its die. -/
def claimRequest (s : State) (r : Req) : Bool × State :=
  let die := dieOfCore r.core
  if tokensTo s die (r.dest / 32) then
    (true, claimed (drawPacket s die (r.dest / 32) 1 (some (reqLaunch s r))) die (requestRank r.core))
  else (false, throttleTo s die (r.dest / 32))

/-- A request of the core was refused, and is injected before those that were not (R338). -/
def refusedFirst (s : State) (r : Req) : Bool :=
  !r.refused && s.reqs.any fun e => e.2.core == r.core && e.2.st == .waiting && e.2.refused

def execRequestInject (req : Nat) (s : State) : Host.Outcome State Fault Refusal :=
  match s.reqs.find req with
  | none => .next s
  | some r =>
    if r.st ≠ .waiting then .next s
    else if mustFollow s req r || !slotTo s r.core r.dest || refusedFirst s r
        || !claimTurn s (dieOfCore r.core) (requestRank r.core) then .next (later s (.requestInject req))
    else
      match claimRequest s r with
      | (false, s1) => .next (later { s1 with reqs := s1.reqs.put req { r with refused := true } } (.requestInject req))
      | (true, s1) => .next (later { s1 with reqs := s1.reqs.put req { r with st := .injected, refused := false } } (.homeSliceRequest req))

/-! ## A request at its home (R64, R65, R83) -/

/-- A request of an agent that the home has since declared dead. -/
def lateReq (s : State) (r : Req) : Bool := decide (r.gen < genOf s r.dest r.core)

/-- The line of a request: that of the bytes not yet performed, or performed last. -/
def reqLine (r : Req) : Nat := ((reqAccs r).map fun a => a.addr / 128).headD 0

/-- The request is dropped and reported. -/
def dropLate (s : State) (req : Nat) (r : Req) : State :=
  later (postLate { s with reqs := s.reqs.drop req } (128 * reqLine r) r.core) (.blockRetire r.blk)

/-- The store has met a fault (R230). -/
def faultReq (s : State) (req : Nat) (r : Req) (cause : Cause) (code va : Nat) : State :=
  later { s with reqs := s.reqs.put req { r with st := .faulted, cause := some (cause, code, va) } } (.storeFault req)

/-- The home has answered. -/
def answerReq (s : State) (req : Nat) (r : Req) : State :=
  later { s with reqs := s.reqs.put req { r with st := .answered } } (.replySink req)

/-- The request goes on at its home in a later step. -/
def goOn (s : State) (req : Nat) (r : Req) : State := later { s with reqs := s.reqs.put req r } (.homeSliceRequest req)

/-- One of several things, free. -/
def pickOne (s : State) (n : Nat) : Nat × State := if n ≤ 1 then (0, s) else freeChoice s n

/-- T of a request's crew. -/
def reqT (s : State) (r : Req) : Nat := timeOf s r.blk r.crew

/-! ### Stores -/

/-- R60: a store of a page that is not strongly ordered updates the copies that its core holds in either partition. -/
def updateL1 (s : State) (core g tw : Nat) (bs : List (Nat × Byte)) : State :=
  let c := coreOf s core
  let put (d : List Byte) : List Byte := (List.range 128).map fun i => overlay bs (128 * g + i) (d.getD i 0)
  let touched (i : Nat) : Bool := bs.any fun b => b.1 == 128 * g + i
  setCore s core { c with
    leases := match c.leases.find g with
      | some x =>
        c.leases.put g { x with
          data := put x.data, w := tw
          marks := (x.marks.filter fun e => !touched e.1) ++ (lineMarks s g).filter fun e => touched e.1 }
      | none => c.leases
    readOnly := match c.readOnly.find g with
      | some x => c.readOnly.put g { x with data := put x.data }
      | none => c.readOnly }

/-- R61: read-only lines filled before a store is performed that the crew's last `FENCE.ro` follows lack it: they miss
for the crew from then on. -/
def remark (s : State) (req : Nat) (r : Req) : State :=
  match crewOf s r.blk r.crew with
  | some y =>
    if req < y.roMark then
      let (n, s1) := freshId s
      updCrew s1 r.blk r.crew fun y => { y with roMark := n }
    else s
  | none => s

/-- R81: the lane whose value a byte keeps: the highest that stores it. -/
def lastLane (r : Req) (pa : Nat) : Nat := (lanesOf (storeLanes r pa)).getLastD 0

/-- R89: what reads of the stored bytes synchronise with. -/
def storeMarks (s : State) (r : Req) (bs : List (Nat × Byte)) (key : Nat → Nat) (tw : Nat) : State :=
  bs.foldl (fun s p => markRels s (partyOf s r.blk r.crew) (key p.1) (lastLane r p.1) tw r.rels) s

/-- Group k of a store has been performed with write time `w`. -/
def groupDone (s : State) (req : Nat) (r : Req) (va : Nat) (gs : List (List (Nat × Byte))) (a : Attr) (tw k w : Nat) :
    State :=
  let left := gs.eraseIdx k
  if left.isEmpty then answerReq s req { r with kind := .store va [gs.getD k []] a (max tw w) }
  else goOn s req { r with kind := .store va left a (max tw w) }

/-- R335: the key of a byte of another module. -/
def remoteKey (s : State) (pa : Nat) : Nat :=
  match remotePlace s pa true with
  | some p => placeKey p
  | none => 0

/-- R335: a store in a remote window is performed at the remote home, or runs towards its time-outs (free). -/
def remoteStore (s : State) (req : Nat) (r : Req) (va : Nat) (gs : List (List (Nat × Byte))) (a : Attr) (tw k : Nat) :
    State :=
  let bs := gs.getD k []
  let pa := (bs.headD (0, 0)).1
  if (remotePlace s pa true).isNone then faultReq s req r .accf 8 va
  else if !hopFree s (fibreHop s pa) then later s (.homeSliceRequest req)
  else
    match remoteFate s pa va with
    | (some true, s1) =>
      let s2 := plainMarks (bs.foldl (fun s b =>
        match remotePlace s b.1 true with
        | some p => writePlace s p [b.2]
        | none => s) s1) (bs.map fun b => remoteKey s1 b.1)
      groupDone (storeMarks s2 r bs (remoteKey s1) (reqT s1 r)) req r va gs a tw k 0
    | (some false, _) => faultReq s req r .poison 0 va
    | (none, s1) => (askRemote s1 (some req) 1 pa va 0 [fibreHop s pa]).2

/-- A request of stash bytes meets a fault of its moored line, or a load or a reduction one of its bytes: its block is saved,
with a precise record of the access, which is made again after a REPLAY (R234, R247; DESIGN CHOICE, log 15). -/
def lostReq (s : State) (req : Nat) (r : Req) (cause : Cause) (code va kind : Nat) : State :=
  match s.blocks.find r.blk with
  | none => { s with reqs := s.reqs.drop req }
  | some x =>
    if !launchLive s x.launch then later { s with reqs := s.reqs.drop req } (.blockRetire r.blk)
    else
      let rec1 := { blockRec s x cause (2 + 16 + 32) r.pc (BitVec.ofNat 64 va) r.mask r.crew (infoOf r.slot kind false) code 0 0
        with agent := r.core }
      let r1 := { r with st := .faulted, told := true, cause := some (cause, code, va) }
      beginSave (setBlock { s with reqs := s.reqs.put req r1 } r.blk { x with recs := x.recs ++ [rec1] }) r.blk 8

/-- A stash access of a request that was made ready when its word issued: its line is touched again, and the access is
made, tried in a later step, or lost to a fault. -/
def touchReq (s : State) (req : Nat) (r : Req) (pa va n : Nat) (kind : Nat) (go : State → State) : State :=
  match touchStash s (stashPaCore pa) (stashPaOff pa) n va (kind == 1) with
  | .ok s1 => go s1
  | .wait _ s1 => later s1 (.homeSliceRequest req)
  | .miss c a => later (startWalk s (dieOfCore (stashPaCore pa)) c a).2 (.homeSliceRequest req)
  | .fault x => lostReq s req r x.cause x.code x.addr kind

/-- One group of a store to a stash (R81, R92). -/
def stashGroup (s : State) (req : Nat) (r : Req) (va : Nat) (gs : List (List (Nat × Byte))) (a : Attr) (tw k : Nat) : State :=
  let bs := gs.getD k []
  let pa := (bs.headD (0, 0)).1
  let core := stashPaCore pa
  bs.foldr (fun b (go : State → State) s => touchReq s req r b.1 va 1 1 go) (fun s =>
    let (w, s1) := bs.foldl (fun q b => stashPut q.2 core (stashPaOff b.1) [b.2] q.1) (reqT s r, s)
    groupDone (storeMarks s1 r bs (fun pa => stashKey s1 core (stashPaOff pa)) w) req r va gs a tw k w) s

/-- One group of a store at its home. -/
def storeGroup (s : State) (req : Nat) (r : Req) (va : Nat) (gs : List (List (Nat × Byte))) (a : Attr) (tw k : Nat) :
    State :=
  let bs := gs.getD k []
  let g := lineNo (bs.headD (0, 0)).1
  let (w, s1) := homeWrite s g bs a (reqT s r) true
  let s2 := storeMarks s1 r bs (fun pa => placeKey (linePlace pa)) w
  let s3 := remark s2 req r
  groupDone (if a.ord = 1 then s3 else updateL1 s3 r.core g w bs) req r va gs a tw k w

/-- A store at its home: what of it is written at once is written in one step, its parts in free order (R81). -/
def homeStore (s : State) (req : Nat) (r : Req) (va : Nat) (gs : List (List (Nat × Byte))) (a : Attr) (tw : Nat) : State :=
  let (k, s0) := pickOne s gs.length
  let pa := ((gs.getD k []).headD (0, 0)).1
  if isStashPa pa then stashGroup s0 req r va gs a tw k
  else if isRemote pa then remoteStore s0 req r va gs a tw k
  else if versioned s0 (lineNo pa) then later s0 (.homeSliceRequest req)
  else
    match grab s0 (lineNo pa) none true with
    | (false, s1) => later s1 (.homeSliceRequest req)
    | (true, s1) => if poisoned s1 (lineNo pa) then faultReq s1 req r .poison 0 va else storeGroup s1 req r va gs a tw k

/-! ### Loads -/

/-- The context of a request. -/
def reqCtx (s : State) (r : Req) : Ctx :=
  match s.blocks.find r.blk with
  | some x => ctxOf s x
  | none => ⟨⟨.a, 0⟩, 0⟩

/-- The leased copy that serves a piece, if one does. -/
def pieceCopy (s : State) (r : Req) (p : Piece) : Option LeaseLine :=
  if p.attr.ord = 1 then none else (crewOf s r.blk r.crew).bind (leaseHit s r.core (lineNo p.pa))

/-- A reply, of the bytes that the request has read there, is always granted; what the window lacks is carried as a
deficit. -/
def claimReply (s : State) (r : Req) : State :=
  claimed (drawPacket s (r.dest / 32) (dieOfCore r.core) (packetTokens r.carried) (some (reqLaunch s r))) (r.dest / 32) 0

/-- The next piece is homed in another slice: that one answers, and the core's request to this one sets out. -/
def redirect (s : State) (req : Nat) (r : Req) (slice : Nat) : State :=
  later { claimReply s r with
    reqs := s.reqs.put req { r with st := .waiting, carried := 0, dest := slice, gen := genOf s slice r.core } } (.requestInject req)

/-- How a deferred load reads. -/
def deferredMode (acq : Option Scope) : LoadMode :=
  match acq with
  | some sc => .acq sc
  | none => .plain

/-- Piece k of a load has been read. -/
def pieceDone (s : State) (req : Nat) (r : Req) (ps : List Piece) (p : Piece) (k : Nat) (bytes : List (Nat × Nat × Byte))
    (f : LoadForm) (ac : Option Nat) (acq : Option Scope) : State :=
  let left := ps.eraseIdx k
  if left.isEmpty then answerReq s req { r with kind := .load [p] bytes f ac acq }
  else goOn s req { r with kind := .load left bytes f ac acq }

/-- What a load has still to do, and what it has read. -/
structure LoadRest where
  pieces : List Piece
  bytes : List (Nat × Nat × Byte)
  form : LoadForm
  ac : Option Nat
  acq : Option Scope

/-- Piece k of a load gives its bytes with their marks; what was read ahead of those lines no longer serves (R83, R91). -/
def takePiece (s : State) (req : Nat) (r : Req) (x : LoadRest) (k : Nat) (p : Piece) (bs : List Byte) (ms : List Mark)
    (lines : List Nat) : State :=
  let s1 := updCrew (readMarks s r.blk r.crew p.lanes (deferredMode x.acq) ms) r.blk r.crew (forgetLines lines)
  pieceDone s1 req { r with carried := r.carried + (if isStashPa p.pa then 0 else p.n) } x.pieces p k
    (x.bytes ++ bs.zipIdx.map fun b => (p.lane, p.off + b.2, b.1)) x.form x.ac x.acq

/-- A piece of a load of stash bytes. -/
def stashPiece (s : State) (req : Nat) (r : Req) (x : LoadRest) (k : Nat) (p : Piece) : State :=
  let core := stashPaCore p.pa
  let o := stashPaOff p.pa
  touchReq s req r p.pa p.va p.n 0 fun s1 =>
    takePiece s1 req r x k p (readPlace s1 (.stash core o) p.n) (marksAt s1 (stashKeys s1 core o p.n))
      (stashLines core o p.n ++ (mappedPas s1 core o p.n).map lineNo)

/-- R335: an access of a request to another module: made at the remote home, lost, or on its way towards its time-outs. -/
def remoteReq (s : State) (req : Nat) (r : Req) (pa va kind : Nat) (go : Place → State → State) : State :=
  match remotePlace s pa (kind == 2) with
  | none => lostReq s req r .accf 8 va kind
  | some p =>
    if !hopFree s (fibreHop s pa) then later s (.homeSliceRequest req)
    else
      match remoteFate s pa va with
      | (some true, s1) => go p s1
      | (some false, s1) => lostReq s1 req r .poison 0 va kind
      | (none, s1) => (askRemote s1 (some req) kind pa va r.mask [fibreHop s pa]).2

/-- A piece of a load of another module's bytes. -/
def remotePiece (s : State) (req : Nat) (r : Req) (x : LoadRest) (k : Nat) (p : Piece) : State :=
  remoteReq s req r p.pa p.va 0 fun at' s1 =>
    takePiece s1 req r x k p (readPlace s1 at' p.n) (marksAt s1 ((List.range p.n).map fun i => placeKey at' + i)) []

/-- A piece of a load at its home: a leased copy serves it as it serves any load (R62), else the line's home. -/
def homePiece (s : State) (req : Nat) (r : Req) (x : LoadRest) (k : Nat) (p : Piece) : State :=
  let g := lineNo p.pa
  let off := p.pa % 128
  match pieceCopy s r p with
  | some c => takePiece s req r x k p ((c.data.drop off).take p.n) (copyMarks c off p.n) [g]
  | none =>
    match grab s g none false with
    | (false, s1) => later s1 (.homeSliceRequest req)
    | (true, s1) =>
      if poisoned s1 g then lostReq s1 req r .poison 0 p.va 0
      else
        let s2 := fillL2 s1 g p.attr
        let d := readPlace s2 (linePlace (128 * g)) 128
        let ms := marksAt s2 ((List.range p.n).map fun i => placeKey (linePlace (p.pa + i)))
        takePiece (if p.attr.ord = 1 then s2 else leaseFill s2 r.core g (reqT s2 r) (leaseLen s2 (reqCtx s2 r)) d)
          req r x k p ((d.drop off).take p.n) ms [g]

/-- What a request does next lies in a home slice other than the one where it is: it goes there (R77). -/
def elsewhere (s : State) (req : Nat) (r : Req) (pa : Nat) : Option State :=
  if sliceOf pa = r.dest then none
  else some (if !claimTurn s (r.dest / 32) 0 then later s (.homeSliceRequest req) else redirect s req r (sliceOf pa))

/-- A load reads one of its pieces (R81, R86). -/
def homeLoad (s : State) (req : Nat) (r : Req) (x : LoadRest) : State :=
  let (k, s0) := pickOne s x.pieces.length
  match x.pieces[k]? with
  | none => answerReq s0 req r
  | some p =>
    if isStashPa p.pa then stashPiece s0 req r x k p
    else
      match elsewhere s0 req r p.pa with
      | some s1 => s1
      | none => if isRemote p.pa then remotePiece s0 req r x k p else homePiece s0 req r x k p

/-! ### Reductions (R93) -/

/-- The lanes whose reduction may be performed next: those of one address in ascending order. -/
def redNext (ps : List RedPiece) : List Nat :=
  (List.range ps.length).filter fun k =>
    match ps[k]? with
    | none => false
    | some p => !(ps.take k).any fun q => decide (q.pa < p.pa + p.n ∧ p.pa < q.pa + q.n)

/-- Lane k of a reduction is performed: it releases what it carries. -/
def redDone (s : State) (req : Nat) (r : Req) (ps : List RedPiece) (tw k : Nat) (p : RedPiece) (at' : AtomAt) : State :=
  let keys := atomKeys at' p.n
  let (_, w, s1) := atomPut s r.core (reqT s r) at' p.n fun old => atomNew p.op p.ty old p.val 0
  let s2 := keys.foldl (fun s key => markRels s (partyOf s r.blk r.crew) key p.lane w r.rels) (plainMarks s1 keys)
  let left := ps.eraseIdx k
  if left.isEmpty then answerReq s2 req { r with kind := .red [p] (max tw w) }
  else goOn s2 req { r with kind := .red left (max tw w) }

/-- A lane's reduction at its home slice. -/
def redHome (s : State) (req : Nat) (r : Req) (ps : List RedPiece) (tw k : Nat) (p : RedPiece) : State :=
  let g := lineNo p.pa
  if versioned s g then later s (.homeSliceRequest req)
  else
    match grab s g none true with
    | (false, s1) => later s1 (.homeSliceRequest req)
    | (true, s1) =>
      if poisoned s1 g then lostReq s1 req r .poison 0 p.va 2
      else redDone (if p.attr.hc then cxlFetch s1 g true else s1) req r ps tw k p (.home p.pa p.attr)

/-- A reduction performs one of its lanes. -/
def homeRed (s : State) (req : Nat) (r : Req) (ps : List RedPiece) (tw : Nat) : State :=
  let ks := redNext ps
  let (i, s0) := pickOne s ks.length
  let k := ks.getD i 0
  match ps[k]? with
  | none => answerReq s0 req r
  | some p =>
    if isStashPa p.pa then redDone s0 req r ps tw k p (.stash (.stash (stashPaCore p.pa) (stashPaOff p.pa)))
    else
      match elsewhere s0 req r p.pa with
      | some s1 => s1
      | none =>
        if isRemote p.pa then remoteReq s0 req r p.pa p.va 2 fun at' s1 => redDone s1 req r ps tw k p (.remote at')
        else redHome s0 req r ps tw k p

def execHomeSliceRequest (req : Nat) (s : State) : Host.Outcome State Fault Refusal :=
  match s.reqs.find req with
  | none => .next s
  | some r =>
    if r.st ≠ .injected then .next s
    else if r.homed && lateReq s r then .next (dropLate s req r)
    else
      match r.kind with
      | .store va gs a tw => .next (homeStore s req r va gs a tw)
      | .load ps bytes f ac acq => .next (homeLoad s req r ⟨ps, bytes, f, ac, acq⟩)
      | .red ps tw => .next (homeRed s req r ps tw)

/-! ## The reply (R62, R77, R189) -/

/-- The bytes of each lane, `n` of them, from bytes by lane and offset. -/
def gatherBytes (bytes : List (Nat × Nat × Byte)) (n : Nat) : List (Nat × List Byte) :=
  ((bytes.map (·.1)).eraseDups).map fun l =>
    (l, (List.range n).map fun i => ((bytes.find? fun b => b.1 == l && b.2.1 == i).map fun b => b.2.2).getD 0)

/-- A deferred load lands in its registers: a split-phase one counts, and of another the registers are no longer
pending. -/
def landDeferred (f : LoadForm) (ac : Option Nat) (bytes : List (Nat × Nat × Byte)) (y : Crew) : Crew :=
  let bs := gatherBytes bytes f.n
  let y1 := setFstatLate (landLoad f false bs y) (loadFlags f bs)
  match ac with
  | some n => { y1 with acs := y1.acs.put n { acOf y1 n with arr := (acOf y1 n).arr + 1 } }
  | none => { y1 with pending := y1.pending.filter fun c => !(regCodes f.d f.regs).contains c }

/-- What a reply does at the core. -/
def sinkReply (s : State) (r : Req) : State :=
  match r.kind with
  | .store _ _ _ tw | .red _ tw => raiseT s r.blk r.crew tw
  | .load _ bytes f ac _ => updCrew s r.blk r.crew (landDeferred f ac bytes)

def execReplySink (req : Nat) (s : State) : Host.Outcome State Fault Refusal :=
  match s.reqs.find req with
  | none => .next s
  | some r =>
    if r.st ≠ .answered then .next s
    else if !r.homed then .next (later (sinkReply { s with reqs := s.reqs.drop req } r) (.blockRetire r.blk))
    else if lateReq s r then .next (dropLate s req r)
    else if !claimTurn s (r.dest / 32) 0 then .next (later s (.replySink req))
    else .next (later (sinkReply (claimReply { s with reqs := s.reqs.drop req } r) r) (.blockRetire r.blk))

/-! ## Probes (R56, R247) -/

/-- A line held BUSY for an agent's answer goes on. -/
def endBusy (s : State) (g a : Nat) : State :=
  updLine s g fun l =>
    if l.st = .busy ∧ l.probed = some a then { l with st := l.prior, probes := 0, probed := none } else l

/-- A core leaves its sleep (R21). -/
def wakeCore (s : State) (core : Nat) : State :=
  if (coreOf s core).gated then setCore s core { coreOf s core with gated := false } else s

/-- A host's write of bytes of a line is on its way: the modified data of its answer to a snoop (R56, R329). -/
def hostWriteComing (s : State) (a line : Nat) : Bool :=
  s.agenda.any fun i =>
    match i with
    | .hostMemAccess x => portAgent x.port == a && x.wr.isSome && lineNo x.pa == line
    | _ => false

/-- A probe that does not reach its agent has no effect. A host's answer comes with its modified data. -/
def execProbe (core line : Nat) (inval : Bool) (s : State) : Host.Outcome State Fault Refusal :=
  if silentTo s line core then .next s
  else if hostWriteComing s core line then .next (later s (.probe core line inval))
  else .next (probeAgent (endBusy (wakeCore s core) line core) line core inval)

/-- A line of a slice after an agent has been scrubbed: POIS where the agent owned it. -/
def scrubLine (a : Nat) (l : Line) : Line :=
  let mine := l.st = .busy ∧ l.probed = some a
  let st := if l.st = .busy then l.prior else l.st
  let back := if mine then { l with st := l.prior, probes := 0, probed := none } else l
  if (st = .own ∨ st = .ownp) ∧ l.ptrs.contains a then { back with st := .pois, ptrs := [], probes := 0, probed := none }
  else dirDrop back a

/-- The lines homed in a slice, with what the home of a capsule record keeps. -/
def scrubSlice (s : State) (slice a : Nat) : State :=
  { s with lines := s.lines.map fun e => if sliceOf (128 * e.1) = slice then (e.1, scrubLine a e.2) else e }

/-- R284: the home parks every HELD record that the dead core executes. -/
def parkDead (s : State) (slice a : Nat) : State :=
  let rs := (s.capHomes.map (·.1)).filter fun g =>
    sliceOf (128 * g) == slice && recState s g == capHeld && execCore (recExec s g) == a
  (rs.filter fun g => !poisoned s g).foldl (fun s g =>
    (homeWrite (dropRecordVersions s g) g
      (atLine g 0 (ctlBytes capParked (recStep s g) (recExec s g) (recGen s g))) (capHomeOf s g).attr s.clock true).2) s

/-- R247: a dead core takes no further block, and its blocks' grids are ended with error. -/
def killCore (s : State) (core : Nat) : State :=
  let ls := (s.blocks.filter fun e => e.2.core == core && holdsCore e.2).map fun e => e.2.launch
  ls.foldl endGrid (setCore s core { coreOf s core with dead := true })

/-- A capsule message of a core to a record in a slice. -/
def capFrom (s : State) (slice a : Nat) (m : CapMsg) : Bool :=
  sliceOf (128 * m.record) == slice &&
  match s.blocks.find m.blk with
  | some x => x.core == a && holdsCore x
  | none => false

/-- Capsule messages on their way from an agent that the home declares dead carry an older generation. -/
def dropLateCaps (s : State) (slice a : Nat) : State :=
  (s.capMsgs.filter fun e => capFrom s slice a e.2).foldl (fun s e =>
    later (postLate { s with capMsgs := s.capMsgs.drop e.1 } (128 * e.2.record) a) (.blockRetire e.2.blk)) s

/-- A home declares an agent dead. -/
def declareDead (s : State) (a g : Nat) : State :=
  let slice := sliceOf (128 * g)
  let s1 := dropLateCaps (parkDead (scrubSlice s slice a) slice a) slice a
  let s2 := { s1 with gens := s1.gens.put (512 * slice + a) (genOf s1 slice a + 1) }
  let s3 := postRec s2 (homeDie (128 * g)) (eventRec .agdead a 0 (BitVec.ofNat 64 (128 * g)) 0 0)
  if a < 192 then killCore s3 a else s3

/-- R247: the wait for an answer. -/
def probeLimit (s : State) (a : Nat) : Nat := if gatedAgent s a then Config.probeWaitGated else Config.probeWait

def execProbeTimeout (agent line : Nat) (s : State) : Host.Outcome State Fault Refusal :=
  let l := lineOf s line
  if l.st ≠ .busy ∨ l.probed ≠ some agent then .next s
  else if s.clock < l.probedAt + probeLimit s agent then .next (later s (.probeTimeout agent line))
  else if l.probes < 3 then
    .next (later (later (setLine s line { l with probes := l.probes + 1, probedAt := s.clock })
      (.probe agent line true)) (.probeTimeout agent line))
  else .next (declareDead s agent line)

/-! ## Moorings (R52 to R56) -/

/-- A read still waits for the fill of a line. -/
def readerWaits (s : State) (core e l : Nat) (a : Actor) : Bool :=
  match a with
  | .none => false
  | .event i => s.agenda.contains i
  | .slot r =>
    match s.blocks.find r.blk, crewOf s r.blk r.crew with
    | some b, some y =>
      b.st == .running && b.halting.isNone && launchLive s b.launch && !crewStopped y
        && (slotOf y r.slot).st == .waiting (.retry (.fill core e l false))
    | _, _ => false

/-- Reads wait to be served from a line that has been filled. -/
def fillReader (s : State) (core e l : Nat) : Bool := (mlineOf s core e l).readers.any (readerWaits s core e l)

/-- R56: the kept effect of a probe is applied. -/
def applyKept (s : State) (core e l : Nat) (x : MLine) : State :=
  let s1 := setMLine s core e l { x with kept := .none }
  match x.kept with
  | .none => s1
  | .share => mlineToShr s1 core e l
  | .inval => mlineToInv s1 core e l

/-- The state in which a fill leaves a line. -/
def filledState (r : MoorRec) (kept : Kept) : LineSt :=
  if moorRof r then .snp else if kept != .none then .shr else if moorRegm r = 1 then .own else .shr

def execMooringFillLand (core entry line : Nat) (s : State) : Host.Outcome State Fault Refusal :=
  match mooringOf s core entry with
  | none => .next s
  | some m =>
    let x := mlineOf s core entry line
    if x.st = .fill then
      let st := filledState m.mrec x.kept
      if x.kept = .none ∨ st = .snp then .next (setMLine s core entry line { x with st := st, kept := .none })
      else .next (later (setMLine s core entry line { x with st := st }) (.mooringFillLand core entry line))
    else if x.st = .shr ∧ x.kept ≠ .none then
      if fillReader s core entry line then .next (later s (.mooringFillLand core entry line))
      else .next (applyKept s core entry line x)
    else .next s

/-- The line is acknowledged: it becomes OWN, or INV. -/
def endWriteBack (s : State) (core e l : Nat) (x : MLine) : State :=
  let s1 := mergeMasked s core x
  if x.toInv then mlineToInv s1 core e l else setMLine s1 core e l { x with st := .own }

def execWritebackAck (core entry line : Nat) (s : State) : Host.Outcome State Fault Refusal :=
  let x := mlineOf s core entry line
  if x.st ≠ .wbk then .next s
  else if (mlineHomes x).any (versioned s) then .next (later s (.writebackAck core entry line))
  else .next (endWriteBack s core entry line x)

/-! ## Walks (R75) -/

/-- The walks of a die before one. -/
def walksBefore (s : State) (n die : Nat) : Nat := (s.walks.filter fun e => decide (e.1 < n) && e.2.die == die).length

/-- The cores of a die that run in a context. -/
def ctxCores (s : State) (die : Nat) (c : Ctx) : List Nat :=
  ((List.range 48).map fun i => 48 * die + i).filter fun k => (coreOf s k).ctx == some c

/-- The walk for which a slot waits, with the KIND, address and active lanes of its access. -/
def walkOf (t : Slot) : Option (Nat × Nat × DWord × Mask) :=
  match t.st with
  | .waiting (.walk id kind addr act) => some (id, kind, addr, act)
  | _ => none

/-- The slots of a die's blocks that wait for walks. -/
def walkWaiters (s : State) (die : Nat) : List (SlotRef × Nat × Nat × DWord × Mask) :=
  s.blocks.flatMap fun b =>
    if dieOfCore b.2.core ≠ die ∨ b.2.st = .saved ∨ b.2.st = .retired then []
    else
      b.2.crews.flatMap fun c => ([0, 1].filterMap fun k =>
        (walkOf (slotOf c.2 k)).map fun w => (⟨b.1, c.1, k⟩, w))

/-- A waiting slot issues its word again. -/
def readySlot (s : State) (r : SlotRef) : State := updSlot s r.blk r.crew r.slot fun t => { t with st := .ready }

/-- Another walk on its way, for an address of the context, is served by a page found. -/
def servedBy (s : State) (c : Ctx) (t : Tlb) (va k : Nat) : Bool :=
  match s.walks.find k with
  | some v => v.ctx == c && tlbHit c va t
  | none => false

/-- The stores of a die that wait for walks: number, request, walk and address. -/
def walkingReqs (s : State) (die : Nat) : List (Nat × Req × Nat × Nat) :=
  s.reqs.filterMap fun e =>
    match e.2.st, e.2.kind with
    | .walking k, .store va _ _ _ => if dieOfCore e.2.core = die then some (e.1, e.2, k, va) else none
    | _, _ => none

/-- The walk has found its page: TLBs take it, and every access that it serves goes on. -/
def walkFound (s : State) (n : Nat) (w : Walk) (t : Tlb) : State :=
  let s1 := (ctxCores s w.die w.ctx).foldl (fun s k => if (tlbFind s k w.ctx w.va).isSome then s else tlbInsert s k t) s
  let s2 := (walkWaiters s1 w.die).foldl (fun s e =>
    if e.2.1 = n ∨ servedBy s1 w.ctx t e.2.2.2.1.toNat e.2.1 = true then readySlot s e.1 else s) s1
  let s3 := (walkingReqs s1 w.die).foldl (fun s e =>
    if e.2.2.1 = n ∨ servedBy s1 w.ctx t e.2.2.2 e.2.2.1 = true then sendStore s e.1 e.2.1 t else s) s2
  { s3 with
    walks := s3.walks.drop n
    walkEnds := s3.walkEnds ++ w.engs.map fun a => ⟨a, w.ctx, w.va, some t, .pagef, 0⟩ }

/-- A slot whose walk has failed takes its fault. -/
def walkFaults (cause : Cause) (code : Nat) (kind : Nat → Nat) (s : State) (x : SlotRef × Nat × Nat × DWord × Mask) :
    State :=
  match hereAt s x.1 with
  | none => s
  | some h => takeFault (readySlot s x.1) { h with act := x.2.2.2.2 } cause code x.2.2.2.1 (kind x.2.2.1)

/-- The walk has failed: each access that waits for it faults, a store's imprecisely (R229); an engine's step takes note. -/
def walkFailed (s : State) (n : Nat) (w : Walk) (cause : Cause) (code : Nat) (kind : Nat → Nat) : State :=
  let s1 := { s with
    walks := s.walks.drop n
    walkEnds := s.walkEnds ++ w.engs.map fun a => ⟨a, w.ctx, w.va, none, cause, code⟩ }
  let s2 := ((walkWaiters s w.die).filter fun x => x.2.1 == n).foldl (walkFaults cause code kind) s1
  ((walkingReqs s w.die).filter fun e => e.2.2.1 == n).foldl
    (fun s e => faultReq s e.1 { e.2.1 with told := false } cause code e.2.2.2) s2

/-- The walk's reads of table entries have drawn their tokens (R75, R337). -/
def walkPaid (s : State) (w : Walk) : State :=
  (walkReads s w.die w.ctx w.va).foldl (fun s pa => exchange s w.die (homeDie pa) w.launch) s

/-- A read of the walk that its die's window refuses (R338). -/
def walkRefused (s : State) (w : Walk) : Option Nat :=
  (walkReads s w.die w.ctx w.va).find? fun pa => !tokensTo s w.die (homeDie pa)

def execWalkComplete (walk : Nat) (s : State) : Host.Outcome State Fault Refusal :=
  match s.walks.find walk with
  | none => .next s
  | some w =>
    if Config.walksInFlight ≤ walksBefore s walk w.die then .next (later s (.walkComplete walk))
    else
      match walkRefused s w with
      | some pa => .next (later (throttleTo s w.die (homeDie pa)) (.walkComplete walk))
      | none =>
      match walkTables s w.die w.ctx w.va with
      | .ok t => .next (walkFound (walkPaid s w) walk w t)
      | .error (.held g) => .next (later (grab s g none false).2 (.walkComplete walk))
      | .error (.cut _) => .next (later s (.walkComplete walk))
      | .error (.page l) => .next (walkFailed (walkPaid s w) walk w .pagef l id)
      | .error (.poison _) => .next (walkFailed (walkPaid s w) walk w .poison 0 fun _ => 6)

/-! ## Eviction schedules (R67) -/

/-- EVSL with a load under way. -/
def evslGo (x : DWord) : Bool := nbit x.toNat 0

def setBit (x : DWord) (k : Nat) (b : Bool) : DWord :=
  if b then x ||| BitVec.ofNat 64 (2 ^ k) else x &&& ~~~(BitVec.ofNat 64 (2 ^ k))

/-- Bits [51:3] of EVSL. -/
def evslAddr (x : DWord) : Nat := nfield x.toNat 3 49 * 8

/-- A write of EVSL: ADDR is written, ERR cleared by a one, GO starts a load that is not yet under way. -/
def writeEvsl (s : State) (die : Nat) (v : DWord) : State :=
  let d := dieOf s die
  let x := BitVec.ofNat 64 (evslAddr v) ||| (d.evsl &&& BitVec.ofNat 64 (if nbit v.toNat 1 then 1 else 3))
  if nbit v.toNat 0 && !evslGo d.evsl then
    later (setDie s die { d with evsl := setBit x 0 true, loading := some (evslAddr v) }) (.evslLoadDone (Fin.ofNat 4 die))
  else setDie s die { d with evsl := x }

def execEvslLoad (die : Fin 4) (value : DWord) (s : State) : Host.Outcome State Fault Refusal :=
  if !moduleReady s then .next s else .next (writeEvsl s die.val value)

/-- The eight classes of a victim order are distinct, and bit 3 of every nibble is zero. -/
def orderOk (w : Nat) : Bool :=
  let ns := (List.range 8).map fun n => nfield w (4 * n) 4
  ns.all (fun n => decide (n < 8)) && ns.eraseDups.length == 8

/-- The image's format. -/
def imageFormatOk (bs : List Byte) : Bool :=
  let n := leNat (bs.take 1)
  let ws := (List.range 16).map fun i => leNat ((bs.drop (8 + 4 * i)).take 4)
  decide (1 ≤ n ∧ n ≤ 16) && ((bs.drop 1).take 7).all (· == 0) && (ws.take n).all orderOk && (ws.drop n).all (· == 0)

/-- The phases of an image. -/
def imagePhases (bs : List Byte) : List Word :=
  (List.range (leNat (bs.take 1))).map fun i => BitVec.ofNat 32 (leNat ((bs.drop (8 + 4 * i)).take 4))

/-- The newest bytes of an image. -/
def imageRead (s : State) (pa n : Nat) : List Byte := (List.range n).map fun i => newestByte s (pa + i)

/-- The load has ended: GO reads 0, and the schedule applies or ERR is set. An image in part beyond device memory, or
poisoned, cannot be checked: it counts as a format error (log 40). -/
def loadSchedule (s : State) (die : Nat) : State :=
  let d := dieOf s die
  let pa := d.loading.getD 0
  let bs := imageRead s pa 72
  let ok := decide (pa + 72 ≤ Config.deviceBytes) && !poisoned s (lineNo pa) && !poisoned s (lineNo (pa + 71))
    && imageFormatOk bs
  let x := setBit d.evsl 0 false
  if ok then
    setDie s die { d with
      evsl := x, loading := none, schedule := some (imagePhases bs), evph := setBit d.evph 8 true }
  else setDie s die { d with evsl := setBit x 1 true, loading := none }

def execEvslLoadDone (die : Fin 4) (s : State) : Host.Outcome State Fault Refusal :=
  match (dieOf s die.val).loading with
  | none => .next s
  | some pa =>
    let ends := [pa, pa + 71]
    if ends.any (fun a => (lineOf s (lineNo a)).st == .busy) || ends.any (fun a => !agentSlot s (islandAgent die.val) die.val a) then
      .next (later (ends.foldl (fun s a => refused s (islandAgent die.val) die.val (sliceOf a)) s) (.evslLoadDone die))
    else .next (loadSchedule (ends.foldl (fun s a => exchange s die.val (homeDie a) none) s) die.val)

/-- The write of one clock that prevails: that of the lowest core id. -/
def lowestWrite (ws : List (Nat × DWord)) : Option (Nat × DWord) :=
  ws.foldl (fun a w =>
    match a with
    | none => some w
    | some b => if w.1 < b.1 then some w else some b) none

def execEvphWrite (die : Fin 4) (writes : List (Nat × DWord)) (s : State) : Host.Outcome State Fault Refusal :=
  match lowestWrite writes with
  | none => .next s
  | some w => .next (setDie s die.val { dieOf s die.val with evph := setPhase (dieOf s die.val).evph w.2.toNat })

/-! ## Failed links and sleeping cores (R247, R332) -/

def execUcieLinkFailure (l : UcieLink) (s : State) : Host.Outcome State Fault Refusal :=
  .next (if s.linksDown.contains l then s else { s with linksDown := l :: s.linksDown })

/-- A core with no block on it may sleep. -/
def execCorePowerGating (core : Nat) (s : State) : Host.Outcome State Fault Refusal :=
  if decide (core < 192) && (heldOn s core []).isEmpty then
    .next (setCore s core { coreOf s core with gated := true })
  else .next s

end Sys2Proof.Machine
end

