-- ==== Sys2Proof/Machine/HostSide.lean ====
section
/-! DEFINITION. What the hosts and other modules do: semaphores, queue interfaces, invalidations, host accesses and
snoops, remote requests (27_host_system_rules.md R321, R322, R326, R329 to R331, R333, R335; 29_power_bringup_rules.md
R345). -/

namespace Sys2Proof.Machine

/-- The bits of `v` in a range, in place. -/
def keepBits (v : DWord) (lo w : Nat) : Nat := nfield v.toNat lo w * 2 ^ lo

/-! ## Semaphores (R321) -/

def portNumber (p : Port) : Nat :=
  match p with
  | .a => 1
  | .b => 2

def hsemOf (s : State) (k : Nat) : DWord := s.regs.hsems.getD k 0

def setHsem (s : State) (k : Nat) (x : DWord) : State := { s with regs := { s.regs with hsems := s.regs.hsems.put k x } }

def hsemOwner (x : DWord) : Nat := nfield x.toNat 0 2

/-- A free semaphore is claimed. -/
def claimHsem (s : State) (k : Nat) (p : Port) : State :=
  let x := hsemOf s k
  if hsemOwner x = 0 then setHsem s k (x ||| BitVec.ofNat 64 (portNumber p)) else s

/-- A semaphore of the port is freed, and its tag cleared. -/
def freeHsem (s : State) (k : Nat) (p : Port) : State :=
  if hsemOwner (hsemOf s k) = portNumber p then setHsem s k 0 else s

/-- The owner writes the tag. -/
def tagHsem (s : State) (k : Nat) (p : Port) (v : DWord) : State :=
  if hsemOwner (hsemOf s k) = portNumber p then
    setHsem s k (BitVec.ofNat 64 (portNumber p + keepBits v 32 32)) else s

/-- A write of a semaphore register. CLAIM and REL are W1S, and what they read after a one has been written is not said: they
read 0 (DESIGN CHOICE, log 77). -/
def writeHsem (s : State) (k : Nat) (p : Port) (v : DWord) : State :=
  let claim := nbit v.toNat 2
  let rel := nbit v.toNat 3
  if claim && rel then s
  else
    let s1 := tagHsem s k p v
    if claim then claimHsem s1 k p else if rel then freeHsem s1 k p else s1

/-- Of writes from both ports in one clock port A's goes first: after one of port B, port A's comes in a later clock. -/
def semTurn (s : State) (p : Port) : Bool :=
  match p with
  | .a => decide (s.regs.semTill ≤ s.clock)
  | .b => true

/-- A semaphore write of a port has been applied in this clock. -/
def semNoted (s : State) (p : Port) : State :=
  match p with
  | .a => s
  | .b => { s with regs := { s.regs with semTill := s.clock + 1 } }

/-- A semaphore write in its turn; before it, it is still to arrive. -/
def semWrite (s : State) (p : Port) (i : Instr) (f : State → State) : Host.Outcome State Fault Refusal :=
  if !portReady s p then .next s
  else if semTurn s p then .next (semNoted (f s) p)
  else .next (later s i)

def execHsemClaim (k : Fin 32) (port : Port) (s : State) : Host.Outcome State Fault Refusal :=
  semWrite s port (.hsemClaim k port) fun s => claimHsem s k.val port

def execHsemRel (k : Fin 32) (port : Port) (s : State) : Host.Outcome State Fault Refusal :=
  semWrite s port (.hsemRel k port) fun s => freeHsem s k.val port

/-- A link-down or a function-level reset. -/
def execPortReset (port : Port) (s : State) : Host.Outcome State Fault Refusal :=
  .next ((List.range 32).foldl (fun s k => freeHsem s k port) s)

/-! ## Queue interfaces (R322) -/

def qiEn (x : Qi) : Bool := nbit x.ctl.toNat 0

/-- TLCNT as it is taken. -/
def tlcntOf (v : DWord) : Nat := min 4096 (nfield v.toNat 16 13)

/-- QICTL after a write: `err` is ERR before it. -/
def qictlAfter (x v : DWord) : DWord :=
  if nbit x.toNat 0 then (if nbit v.toNat 0 then x else setBit x 0 false)
  else
    let lease := nfield v.toNat 4 4
    let bad := nbit v.toNat 0 && (decide (lease < 6 ∨ 12 < lease) || tlcntOf v == 0)
    let err := bad || (nbit x.toNat 2 && !nbit v.toNat 2)
    BitVec.ofNat 64 ((if nbit v.toNat 0 && !bad then 1 else 0) + keepBits v 1 1 + (if err then 4 else 0) + keepBits v 4 4
      + tlcntOf v * 2 ^ 16)

def execQictlWrite (qi : QiRef) (value : DWord) (s : State) : Host.Outcome State Fault Refusal :=
  if !portReady s qi.port then .next s
  else .next (setQi s qi { qiOf s qi with ctl := qictlAfter (qiOf s qi).ctl value })

/-- The other registers of the block keep their value while EN = 1. -/
def writeQiReg (s : State) (qi : QiRef) (f : Qi → Qi) : State :=
  if qiEn (qiOf s qi) then s else setQi s qi (f (qiOf s qi))

/-! ## Invalidations (R326) -/

def invBusy (x : Qi) : Bool := nbit x.inv.toNat 22

/-- The context is one whose translations the operation names. -/
def invNames (qi : QiRef) (inv : DWord) (c : Ctx) : Bool :=
  c.qi == qi && (nfield inv.toNat 20 2 == 1 || nfield inv.toNat 20 2 == 3 || c.pasid == nfield inv.toNat 0 20)

/-- Translations of the named contexts leave every TLB, and every walk's end. -/
def dropTlbs (s : State) (qi : QiRef) (inv : DWord) : State :=
  { s with
    cores := s.cores.map fun e => (e.1, { e.2 with tlb := e.2.tlb.filter fun t => !invNames qi inv t.ctx })
    walkEnds := s.walkEnds.filter fun e => !invNames qi inv e.ctx }

/-- An operation starts. -/
def startInv (s : State) (qi : QiRef) (op pasid : Nat) : State :=
  let x := qiOf s qi
  if invBusy x then setQi s qi { x with ctl := setBit x.ctl 2 true }
  else
    let v := BitVec.ofNat 64 (pasid % 2 ^ 20 + op % 4 * 2 ^ 20 + 2 ^ 22)
    later (dropTlbs (setQi s qi { x with inv := v }) qi v) (.qiinvDone qi)

/-- An access translated under a named translation has not reached its home: a request, a capsule message, a fill or a
write-back of a mooring, or a staged tape record; or a walk is on its way. -/
def invPending (s : State) (qi : QiRef) (inv : DWord) : Bool :=
  s.walks.any (fun w => invNames qi inv w.2.ctx)
    || s.cores.any (fun c => c.2.moorings.any fun m => invNames qi inv m.2.ctx
        && m.2.lines.any fun l => l.2.st == .fill || l.2.st == .wbk)
    || s.blocks.any fun b =>
      invNames qi inv (ctxOf s b.2) && b.2.st != .retired &&
        (s.reqs.any (fun e => e.2.blk == b.1 && (e.2.st == .waiting || e.2.st == .injected))
          || s.capMsgs.any (fun e => e.2.blk == b.1 && capInFlight e.2.kind)
          || b.2.crews.any fun c => c.2.tape.staged.any fun r => !r.pas.isEmpty)

def startInvReady (s : State) (qi : QiRef) (op pasid : Nat) : Host.Outcome State Fault Refusal :=
  if portReady s qi.port then .next (startInv s qi op pasid) else .next s

def execQiinvFirstStage (qi : QiRef) (pasid : Nat) (s : State) : Host.Outcome State Fault Refusal :=
  startInvReady s qi 0 pasid

def execQiinvInterface (qi : QiRef) (s : State) : Host.Outcome State Fault Refusal :=
  startInvReady s qi 1 (nfield (qiOf s qi).inv.toNat 0 20)

def execQiinvRevoke (qi : QiRef) (pasid : Nat) (s : State) : Host.Outcome State Fault Refusal :=
  startInvReady s qi 2 pasid

def execQiinvSecondStage (qi : QiRef) (s : State) : Host.Outcome State Fault Refusal :=
  startInvReady s qi 3 (nfield (qiOf s qi).inv.toNat 0 20)

def execQiinvDone (qi : QiRef) (s : State) : Host.Outcome State Fault Refusal :=
  let x := qiOf s qi
  if !invBusy x then .next s
  else if invPending s qi x.inv then .next (later s (.qiinvDone qi))
  else .next (dropTlbs (setQi s qi { x with inv := setBit x.inv 22 false }) qi x.inv)

/-- A write of QIINV. -/
def writeQiinv (s : State) (qi : QiRef) (v : DWord) : State :=
  let x := qiOf s qi
  if nbit v.toNat 22 || invBusy x then startInv s qi (nfield v.toNat 20 2) (nfield v.toNat 0 20)
  else setQi s qi { x with inv := BitVec.ofNat 64 (keepBits v 0 22) }

/-! ## Device memory seen by a host (R329) -/

/-- The bytes of an access: it lies in one 64-byte line. -/
def hostLen (x : HostAccess) : Nat := min x.len (64 - x.pa % 64)

/-- The bytes of a write by physical address. -/
def dataAt (pa n : Nat) (d : BitVec 512) : List (Nat × Byte) :=
  (List.range n).map fun i => (pa + i, d.extractLsb' (8 * i) 8)

/-- The line is ready at its home, or held. -/
def hostReady (s : State) (die g : Nat) (who : Option Nat) (inval : Bool) : Option State :=
  if inval && versioned s g then none
  else
    match grab s g who inval with
    | (true, s1) => some (exchange s1 die (homeDie (128 * g)) none)
    | (false, _) => none

/-- The state in which an access from outside waits at the line's home. -/
def outsideHeld (s : State) (g : Nat) (who : Option Nat) (inval : Bool) : State :=
  if inval && versioned s g then s else (grab s g who inval).2

/-- How a host keeps a line that it has read: not at all, as a sharer or as its owner (free). -/
def hostKeeps (s : State) (k g a : Nat) : State :=
  if poisoned s g then s
  else
    match k with
    | 0 => s
    | 1 => updLine s g fun l => dirAdd l a
    | _ => updLine s g fun l => dirOwn l a false

/-- A host's read. To keep the line as its owner it asks for it alone. -/
def hostRead (s : State) (x : HostAccess) (k : Nat) : State :=
  let g := lineNo x.pa
  let s1 := hostKeeps s k g (portAgent x.port)
  { s1 with outputs := s1.outputs ++ [.memRead x.port x.pa (readPlace s1 (.dev x.pa) (hostLen x)) (poisoned s1 g)] }

/-- R105: a write by a party beyond the module releases at system scope what it writes. -/
def outsideMarks (s : State) (bs : List (Nat × Byte)) (tw : Nat) : State :=
  markBytes s (paKeys bs) ⟨.outside, .sys, tw, true⟩

/-- R95, R327: the address lies in the VALUE of an entry of some interface's timeline table. -/
def timelineValue (s : State) (pa : Nat) : Bool :=
  s.qis.any fun e =>
    let base := nfield e.2.tlb.toNat 6 46 * 64
    decide (base ≤ pa ∧ pa < base + 16 * tlcntOf e.2.ctl) && decide ((pa - base) % 16 < 8)

/-- A written byte belongs to a VALUE that the write leaves no lower. -/
def raisesValue (s t : State) (pa : Nat) : Bool :=
  timelineValue s pa && decide (newestNat s (pa / 8 * 8) 8 ≤ newestNat t (pa / 8 * 8) 8)

/-- A write by an agent outside the module. One that raises the VALUE of a timeline is an update of it: a wait synchronises
with those before it too (R95, R327). One that lowers it is stored as it comes (DESIGN CHOICE, log 78). -/
def outsideWrite (s : State) (pa agent : Nat) (bs : List (Nat × Byte)) : State :=
  if poisoned s (lineNo pa) then poisonedWrite s pa agent
  else
    let (tw, s1) := homePut s (lineNo pa) bs plainAttr s.clock true
    let up := bs.filter fun b => raisesValue s s1 b.1
    let rest := bs.filter fun b => !raisesValue s s1 b.1
    outsideMarks (plainMarks (atomicMarks s1 (paKeys up)) (paKeys rest)) bs tw

/-- Whether an access asks for its line alone: a write, or a read that is to own it. -/
def hostAlone (x : HostAccess) (k : Nat) : Bool := x.wr.isSome || decide (2 ≤ k)

/-- The write brings the modified data of a host whose answer the home of the line awaits (R56, R329). -/
def snoopedWrite (s : State) (x : HostAccess) : Bool :=
  let l := lineOf s (lineNo x.pa)
  x.wr.isSome && l.st == .busy && l.probed == some (portAgent x.port)

/-- An access of a host. The data of its answer to a snoop are merged while the line is held for them. -/
def execHostMemAccess (x : HostAccess) (s : State) : Host.Outcome State Fault Refusal :=
  if !portUp s x.port then .next s
  else if Config.deviceBytes < x.pa + hostLen x then .fault .noSuchByte
  else if snoopedWrite s x then
    .next (outsideWrite s x.pa (portAgent x.port) (dataAt x.pa (hostLen x) (x.wr.getD 0)))
  else if !agentSlot s (portAgent x.port) (portDie x.port) x.pa then .next (later (refused s (portAgent x.port) (portDie x.port) (sliceOf x.pa)) (.hostMemAccess x))
  else
    let g := lineNo x.pa
    let (k, s0) := freeChoice s 3
    match hostReady s0 (portDie x.port) g (some (portAgent x.port)) (hostAlone x k) with
    | none => .next (later (outsideHeld s0 g (some (portAgent x.port)) (hostAlone x k)) (.hostMemAccess x))
    | some s1 =>
      match x.wr with
      | none => .next (hostRead s1 x k)
      | some d => .next (outsideWrite s1 x.pa (portAgent x.port) (dataAt x.pa (hostLen x) d))

/-! ## Host lines in the module (R330, R331) -/

/-- The number of a host's line. -/
def hostLine (port : Port) (pa : Nat) : Nat :=
  match port with
  | .a => (4 * 2 ^ 50 + pa % 2 ^ 50) / 128
  | .b => (5 * 2 ^ 50 + pa % 2 ^ 50) / 128

/-- The module holds the line. -/
def heldHere (l : Line) : Bool := l.resident || l.st != .unc

/-- The line leaves the module, its data with the answer. -/
def leaveModule (s : State) (g : Nat) : State :=
  updLine (if (lineOf s g).resident then leaveL2 s g else s) g fun l =>
    if l.st = .pois then { l with cxl := .invalid }
    else { l with st := .unc, ovf := false, ptrs := [], coarse := 0, cxl := .invalid }

/-- The host has the line's data: the module keeps it shared. -/
def shareHost (s : State) (g : Nat) : State :=
  updLine s g fun l => { l with dirty := false, cxl := if l.cxl = .invalid then .invalid else .shared }

/-- What a snoop leaves of the line. -/
def afterSnoop (s : State) (g : Nat) (kind : SnoopKind) : State :=
  match kind with
  | .inv => leaveModule s g
  | .data => shareHost s g
  | .cur => s

def answerSnoop (s : State) (port : Port) (pa : Nat) (d : Option (List Byte)) (bad : Bool) : State :=
  { s with outputs := s.outputs ++ [.snoop port pa d bad] }

/-- A snoop after an abrupt fatal reset. -/
def snoopDown (s : State) (port : Port) (pa g : Nat) : State :=
  if s.lostLines.contains g then answerSnoop s port pa (some (readPlace s (linePlace (128 * g)) 128)) true
  else answerSnoop s port pa none false

def execHostSnoop (port : Port) (pa : Nat) (kind : SnoopKind) (s : State) : Host.Outcome State Fault Refusal :=
  let g := hostLine port pa
  if !portUp s port then .next s
  else if s.down then .next (snoopDown s port pa g)
  else if !heldHere (lineOf s g) then .next (answerSnoop s port pa none false)
  else if !agentSlot s (portAgent port) (portDie port) (128 * g) then .next (later (refused s (portAgent port) (portDie port) (sliceOf (128 * g))) (.hostSnoop port pa kind))
  else
    match hostReady s (portDie port) g none (kind == .inv) with
    | none => .next (later (outsideHeld s g none (kind == .inv)) (.hostSnoop port pa kind))
    | some s1 =>
      let s2 := answerSnoop s1 port pa (some (readPlace s1 (linePlace (128 * g)) 128)) (poisoned s1 g)
      .next (afterSnoop s2 g kind)

/-! ## The Crilvon fabric (R333, R335) -/

/-- A request has ended for its access: the step that made it, or its slot, takes note as it comes again. -/
def remoteEnded (s : State) (x : Remote) (who : Actor) (ok : Bool) : State :=
  { s with remoteEnds := s.remoteEnds ++ [⟨who, x.addr.toNat, ok⟩] }

/-- A remote access is answered with poison. -/
def remotePoison (s : State) (id : Nat) (x : Remote) : State :=
  let s1 := { s with remotes := s.remotes.drop id }
  match x.who, x.req with
  | _, some n =>
    (match s1.reqs.find n with
     | some r =>
       if isStoreReq r then faultReq s1 n r .poison 0 x.addr.toNat else lostReq s1 n r .poison 0 x.addr.toNat x.kind
     | none => s1)
  | .slot r, none =>
    (match hereAt s1 r with
     | some h =>
       if (hSlot h).st = .waiting (.remote id) then takeFault (readySlot s1 r) { h with act := x.act } .poison 0 x.addr x.kind else s1
     | none => s1)
  | who, none => remoteEnded s1 x who false

/-- The remote module answers: the access is performed. -/
def remoteAnswer (s : State) (id : Nat) (x : Remote) : State :=
  let s1 := { s with remotes := s.remotes.drop id }
  let s2 := remoteEnded s1 x x.who true
  match x.who, x.req with
  | _, some n => later s2 (.homeSliceRequest n)
  | .slot r, none =>
    (match hereAt s1 r with
     | some h => if (hSlot h).st = .waiting (.remote id) then readySlot s2 r else s1
     | none => s1)
  | _, none => s2

/-- An answer may come at any time before the third time-out (free), if the request has a way out. -/
def execRemoteTimeout (req : Nat) (s : State) : Host.Outcome State Fault Refusal :=
  match s.remotes.find req with
  | none => .next s
  | some x =>
    let (k, s1) := freeChoice s 2
    if k = 0 ∧ x.routed = true then .next (remoteAnswer s1 req x)
    else if s1.clock < x.since + Config.remoteWait then .next (later s1 (.remoteTimeout req))
    else if 2 ≤ x.timeouts then .next (remotePoison s1 req x)
    else
      .next (later { s1 with remotes := s1.remotes.put req { x with timeouts := x.timeouts + 1, since := s1.clock } }
        (.remoteTimeout req))

/-- A flit that fails its CRC is sent again on the same hop: nothing but time passes. -/
def execFlitReplay (_flit : Nat) (s : State) : Host.Outcome State Fault Refusal := .next s

/-- The bytes that a remote request names. -/
def remoteLen (x : RemoteReq) : Nat :=
  match x.op with
  | .read n => min n (128 - x.pa % 128)
  | .write n _ => min (min n 64) (128 - x.pa % 128)
  | .atom _ ty _ _ => 4 * atomRegs ty

def remoteWrites (x : RemoteReq) : Bool :=
  match x.op with
  | .read _ => false
  | .write _ _ => true
  | .atom _ _ _ _ => true

/-- The answer that leaves for the other module. -/
def sendRemote (s : State) (x : RemoteReq) (d : List Byte) : State :=
  { s with outputs := s.outputs ++ [.remote x.fromModule x.pa d (poisoned s (lineNo x.pa))] }

/-- An atomic of another module: a read of the byte synchronises with the releases before it too. -/
def outsideAtom (s : State) (pa agent : Nat) (bs : List (Nat × Byte)) : State :=
  if poisoned s (lineNo pa) then poisonedWrite s pa agent
  else
    let (tw, s1) := homePut s (lineNo pa) bs plainAttr s.clock false
    outsideMarks (atomicMarks s1 (paKeys bs)) bs tw

/-- A request of another module at its home. It enters by the quay island of the home's die, which is also the agent of a
report (which island it enters by is not stated: DESIGN CHOICE, log 82). -/
def remoteAccess (s : State) (x : RemoteReq) : State :=
  let old := readPlace s (.dev x.pa) (remoteLen x)
  let agent := 194 + homeDie x.pa
  match x.op with
  | .read _ => sendRemote s x old
  | .write n d => sendRemote (outsideWrite s x.pa agent (dataAt x.pa (min n (remoteLen x)) d)) x []
  | .atom op ty b c =>
    let new := leBytes (remoteLen x) (atomNew op ty (leNat old) b.toNat c.toNat)
    sendRemote (outsideAtom s x.pa agent (new.zipIdx.map fun p => (x.pa + p.2, p.1))) x old

def execCrilvonRemoteRequest (x : RemoteReq) (s : State) : Host.Outcome State Fault Refusal :=
  if Config.deviceBytes < x.pa + remoteLen x then .fault .noSuchByte
  else if !agentSlot s (194 + homeDie x.pa) (homeDie x.pa) x.pa then .next (later (refused s (194 + homeDie x.pa) (homeDie x.pa) (sliceOf x.pa)) (.crilvonRemoteRequest x))
  else
    match hostReady s (homeDie x.pa) (lineNo x.pa) none (remoteWrites x) with
    | none => .next (later (outsideHeld s (lineNo x.pa) none (remoteWrites x)) (.crilvonRemoteRequest x))
    | some s1 => .next (remoteAccess s1 x)

/-! ## Patrol scrub (R345) -/

/-- Soft errors are corrected; a line with an uncorrectable error is marked at its home. -/
def execPatrolScrub (line : Nat) (uncorrectable : Bool) (s : State) : Host.Outcome State Fault Refusal :=
  if !uncorrectable then .next s
  else if (lineOf s line).st = .busy then .next (later s (.patrolScrub line uncorrectable))
  else .next (updLine s line fun l => { l with st := .pois })

end Sys2Proof.Machine
end

