-- ==== Sys2Proof/Machine/Paired.lean ====
section
/-! DEFINITION. The paired format: two halves that issue together (11_encoding_rules.md R131, R132). -/

namespace Sys2Proof.Machine

/-- M[6:0] as the second operand: sign-extended, or zero-extended for the shifts. -/
def halfImm (h : Half) : Nat :=
  match h.op with
  | .shl | .shr | .sar | .rotl => h.m.val
  | _ => wrapTo 32 (intOf true 7 h.m.val)

def mbit (h : Half) (k : Nat) : Bool := nbit h.m.val k

/-- The result and flags of a half in one lane, from D and S (R132). `LDS`, `STS` and the half-`NOP` compute
nothing here. -/
def halfNat (y : Crew) (h : Half) (l d x : Nat) : Nat × FlagSet :=
  let i32 (z : Int) : Nat × FlagSet := (wrapTo 32 z, flagNone)
  let sg (n : Nat) : Int := intOf true 32 n
  let f16 (o : FOp) : Nat × FlagSet := packed2 fun k => fpBin ffF16 o (element 16 k d) (element 16 k x)
  match h.op with
  | .nop | .lds | .sts => (d, flagNone)
  | .iadd => i32 (sg d + sg x)
  | .isub => i32 (sg d - sg x)
  | .imul => i32 (sg d * sg x)
  | .imin =>
    if !h.imm && mbit h 0 then (min d x, flagNone) else i32 (min (sg d) (sg x))
  | .imax =>
    if !h.imm && mbit h 0 then (max d x, flagNone) else i32 (max (sg d) (sg x))
  | .and => (d &&& x, flagNone)
  | .or => (d ||| x, flagNone)
  | .xor => (d ^^^ x, flagNone)
  | .andn => (d &&& notBits 32 x, flagNone)
  | .orn => (d ||| notBits 32 x, flagNone)
  | .shl => (shlNat 32 d (x % 32), flagNone)
  | .shr => (shrNat 32 d (x % 32), flagNone)
  | .sar => (sarNat 32 d (x % 32), flagNone)
  | .rotl => (rotlNat 32 d (x % 32), flagNone)
  | .popc => (popcNat x, flagNone)
  | .mov => (x, flagNone)
  | .fadd => fpBin ffF32 .add d x
  | .fsub => fpBin ffF32 .sub d x
  | .fmul => fpBin ffF32 .mul d x
  | .fmin => fpBin ffF32 .min d x
  | .fmax => fpBin ffF32 .max d x
  | .hadd2 => f16 .add
  | .hmul2 => f16 .mul
  | .cvt =>
    if mbit h 0 then convertTo .bf16 .f32 false (valueIn .bf16 (x % 2 ^ 16))
    else convertTo .f32 .bf16 false (valueIn .f32 x)
  | .iabs => i32 ((sg x).natAbs : Int)
  | .clz => (clzNat x, flagNone)
  | .ctz => (ctzNat x, flagNone)
  | .brev => (brevNat x, flagNone)
  | .lea => ((d + x * 2 ^ (h.m.val % 4)) % 2 ^ 32, flagNone)
  | .imulhi =>
    if mbit h 0 then (d * x / 2 ^ 32, flagNone) else i32 (Int.fdiv (sg d * sg x) (2 ^ 32))
  | .fshf => (funnel false d x (h.m.val % 32), flagNone)
  | .hmnmx2 => packed2 fun k => fpMinMax ffF16 (mbit h 0) (element 16 k d) (element 16 k x)
  | .fclass => (2 ^ fpClass (BitVec.ofNat 32 x), flagNone)
  | .frcp => sfuRcp x
  | .frsq => sfuRsq x
  | .fsqrt => sfuSqrt x
  | .fex2 => sfuEx2 x
  | .flg2 => sfuLg2 x
  | .fsin => sfuSin x
  | .fcos => sfuCos x
  | .ftanh => sfuTanh x
  | .sel => (if readP y (h.m.val % 8) l then x else d, flagNone)
  | .pack =>
    let w := if mbit h 2 then 16 else 8
    (setElement w (h.m.val % 4) d (x % 2 ^ w), flagNone)
  | .unpk => (unpkNat (if mbit h 2 then 16 else 8) (h.m.val % 4) (mbit h 3) x, flagNone)

/-- S of a half, or its immediate. -/
def halfSrcE (h : Here) (m : Mask) (x : Half) : Exec (Nat → Nat) := do
  if x.imm then pure fun _ => halfImm x
  else if x.op = .nop then pure fun _ => 0
  else do
    match ← readSrcsE h m [(x.s, 1)] with
    | [v] => pure v
    | _ => pure fun _ => 0

/-- R132: the local offset of a half's stash word. -/
def halfOff (x : Half) (v : Nat) : Nat := v + 4 * x.m.val

/-- A half that loads: the words of the active lanes. -/
def halfLoadE (h : Here) (m : Mask) (x : Half) (v : Nat → Nat) : Exec (List (Nat × Nat)) :=
  (lanesOf m).mapM fun l => do
    let o := halfOff x (v l)
    let p ← stashE h (.loc o) o 4 false (laneBit l)
    let bs ← stashReadE h (laneBit l) .plain 4 p
    pure (l, leNat bs)

/-- A half that stores: its stash lines are ready. -/
def halfReadyE (h : Here) (m : Mask) (x : Half) (v : Nat → Nat) : Exec Unit :=
  (lanesOf m).forM fun l => do
    let o := halfOff x (v l)
    let _ ← stashE h (.loc o) o 4 true (laneBit l)

/-- D of a half as held at issue. -/
def halfD (s : State) (h : Here) (x : Half) (l : Nat) : Nat := srcNum s h x.d 1 l

/-- What a half writes: its lanes' values and flags. -/
def halfValE (h : Here) (m : Mask) (x : Half) (v : Nat → Nat) : Exec (Nat → Nat × FlagSet) := do
  let s ← getE
  if x.op = .lds then do
    let ws ← halfLoadE h m x v
    pure fun l => (Table.getD ws l 0, flagNone)
  else pure fun l => halfNat h.crew x l (halfD s h x l) (v l)

/-- A half's destination; `STS` and the half-`NOP` write no register. -/
def putHalf (h : Here) (m : Mask) (x : Half) (r : Nat → Nat × FlagSet) (y : Crew) : Crew :=
  if x.op = .sts ∨ x.op = .nop then y
  else setFstat (putResult y (inCapsule h.crew (hMask h)) x.d 1 m fun l => (r l).1) (lanesFlags m fun l => (r l).2)

/-- The stash words of a half that stores. -/
def storeHalf (h : Here) (m : Mask) (x : Half) (v : Nat → Nat) (s : State) : State :=
  if x.op = .sts then
    putStashes h m none ((lanesOf m).map fun l =>
      ⟨l, halfOff x (v l), h.blk.core, h.blk.base + halfOff x (v l), leBytes 4 (halfD s h x l)⟩) s
  else s

/-- The sources and results of two halves, by lane. -/
structure Halves where
  va : Nat → Nat
  vb : Nat → Nat
  ra : Nat → Nat × FlagSet
  rb : Nat → Nat × FlagSet

/-- Everything a paired word reads, and the stash lines it will write made ready. -/
def halvesE (h : Here) (m : Mask) (a b : Half) : Exec Halves := do
  let va ← halfSrcE h m a
  let vb ← halfSrcE h m b
  let ra ← halfValE h m a va
  let rb ← halfValE h m b vb
  if a.op = .sts then halfReadyE h m a va
  if b.op = .sts then halfReadyE h m b vb
  pure ⟨va, vb, ra, rb⟩

/-- R131: both halves read all their sources before either writes. -/
def execPairedWord (a b : Half) (s : State) : Host.Outcome State Fault Refusal :=
  issueWord (.pairedWord a b) s fun h => do
    let m := hMask h
    let r ← undoE h (halvesE h m a b)
    modifyE fun s => storeHalf h m b r.vb (storeHalf h m a r.va s)
    updCrewE h fun y => putHalf h m b r.rb (putHalf h m a r.ra y)
    nextE h

end Sys2Proof.Machine
end

