-- ==== Sys2Proof/Machine/Power.lean ====
section
/-! DEFINITION. Current tokens and heat, bring-up and resets, management, and writes and reads of registers
(29_power_bringup_rules.md R337 to R346; 00_scope.md R6; 19_traps_rules.md R232, R243). -/

namespace Sys2Proof.Machine

/-! ## Token windows (R338 to R341) -/

/-- R340: the effective budget. -/
def effBudget (tokbud : DWord) (tshift : Nat) : Nat := max 4096 (budgetOf tokbud / 2 ^ tshift)

/-- The thermal steps that a temperature asks for: one at 100 °C and one more at each further 5 °C. -/
def heatSteps (temp : Nat) : Nat := if temp < 100 then 0 else min 4 (1 + (temp - 100) / 5)

/-- A die as its next window opens. A deficit beyond the budget is carried further. -/
def openWindow (d : Die) (temp clock : Nat) : Die :=
  let tok := d.tokbudNext.getD d.tokbud
  let want := heatSteps temp
  let shift := min 4 (d.tshift + (want - d.hotSteps))
  let eff := effBudget tok shift
  { d with
    tokbud := tok, tokbudNext := none, eff := eff, tshift := shift, temp := temp, hotSteps := want,
    thrw := if d.throttled then min 65535 (d.thrw + 1) else 0
    opened := eff - d.deficit, left := eff - d.deficit, deficit := d.deficit - eff
    throttled := false, wasThrottled := d.throttled, placed := 0, window := d.window + 1
    coolSince := if temp < 95 then d.coolSince.orElse fun _ => some clock else none }

/-- floor(tokens × 3 ÷ 7,000) µJ. -/
def accountOf (tokens : Nat) : Nat := tokens * 3 / 7000

/-- The accounts of the launches at a boundary of a die. -/
def updateAccounts (s : State) (die : Nat) : State :=
  { s with launches := s.launches.map fun e => (e.1, { e.2 with energy := e.2.energy.put die (accountOf e.2.tokens) }) }

/-- What follows a boundary: placements that waited. A trip and a decay come as marks, once they are due (dueHeat). -/
def afterWindow (s : State) (die : Fin 4) : State := laterOnce s (.blockPlace die)

def execTokenWindow (die : Fin 4) (s : State) : Host.Outcome State Fault Refusal :=
  let temp := Config.sensor s.free % 256
  let s1 := setDie { s with free := s.free + 1 } die.val (openWindow (dieOf s die.val) temp s.clock)
  .next (afterWindow (updateAccounts s1 die.val) die)

/-- A write of TOKBUD takes effect at the next boundary. -/
def writeTokbud (s : State) (die : Nat) (v : DWord) : State :=
  setDie s die { dieOf s die with tokbudNext := some (BitVec.ofNat 64 (keepBits v 0 20 + keepBits v 24 20)) }

def execTokbudWrite (die : Fin 4) (value : DWord) (s : State) : Host.Outcome State Fault Refusal :=
  if moduleReady s then .next (writeTokbud s die.val value) else .next s

/-- R340: 1 ms. -/
def coolClocks : Nat := 1750000

def execTshiftDecay (die : Fin 4) (s : State) : Host.Outcome State Fault Refusal :=
  let d := dieOf s die.val
  match d.coolSince with
  | none => .next s
  | some t =>
    if d.tshift = 0 then .next s
    else if s.clock < t + coolClocks then .next s
    else .next (setDie s die.val { d with tshift := d.tshift - 1, coolSince := some s.clock })

/-! ## Resets (R331, R340) -/

/-- A line of a host's memory. -/
def isHostLine (g : Nat) : Bool := 128 * g / 2 ^ 50 == 4 || 128 * g / 2 ^ 50 == 5

/-- A moored line with modified bytes of a home line. -/
def mooredDirty (s : State) (g : Nat) : Bool :=
  s.cores.any fun c => c.2.moorings.any fun e => e.2.lines.any fun l =>
    (l.2.st == .drt || l.2.st == .wbk) && (mlineHomes l.2).contains g

/-- R331: the host lines held M or O. -/
def linesLost (s : State) : List Nat :=
  (s.lines.filter fun e => isHostLine e.1 && ((e.2.resident && (e.2.dirty || e.2.cxl == .modified)) || mooredDirty s e.1)).map (·.1)

/-- A host's snoop that has not been answered outlives a reset (R331). -/
def isSnoop (i : Instr) : Bool :=
  match i with
  | .hostSnoop _ _ _ => true
  | _ => false

/-- The module after a reset. The bytes of every memory stay (log 42), snoops still wait for their answers, and free values
go on. -/
def resetModule (s : State) (lost : List Nat) (down : Bool) : State :=
  { State.reset with
    mem := s.mem, outputs := s.outputs, free := s.free, nextId := s.nextId, lostLines := lost, down := down
    agenda := s.agenda.filter isSnoop }

/-- R340: an abrupt fatal reset. -/
def execThermalTrip (die : Fin 4) (s : State) : Host.Outcome State Fault Refusal :=
  if (dieOf s die.val).temp < 120 then .next s else .next (resetModule s (linesLost s) true)

/-- Modified bytes of host lines are written back from the moorings of a core. -/
def returnHostLines (s : State) (core : Nat) : State :=
  (coreOf s core).moorings.foldl (fun s e =>
    (e.2.lines.filter fun l => (l.2.st == .drt || l.2.st == .wbk) && (mlineHomes l.2).any isHostLine).foldl
      (fun s l => mergeMasked s core l.2) s) s

/-- The host lines in L2 leave it. -/
def evictHostLines (s : State) : State :=
  ((s.lines.filter fun e => isHostLine e.1 && e.2.resident).map (·.1)).foldl evictLine s

/-- The orderly reset: host lines are written back or evicted first. -/
def orderlyReset (s : State) : State :=
  resetModule (evictHostLines ((s.cores.map (·.1)).foldl returnHostLines s)) [] false

def execRstreq (s : State) : Host.Outcome State Fault Refusal := .next (orderlyReset s)

/-! ## Bring-up (R343) -/

/-- DEVRDY: STEP, READY, FAIL, FCODE and OPTDEG. -/
def devrdyOf (step : Nat) (ready fail : Bool) (fcode : Nat) (optdeg : Bool) : DWord :=
  BitVec.ofNat 64 (step + (if ready then 16 else 0) + (if fail then 32 else 0) + fcode * 2 ^ 8
    + (if optdeg then 2 ^ 16 else 0))

def setDevrdy (s : State) (x : DWord) : State := { s with regs := { s.regs with devrdy := x } }

/-- The first part of a list that fails. -/
def firstFail (rs : List Bool) : Option Nat := rs.findIdx? fun r => !r

/-- FCODE of the ports: 0 when both train; a failing port leaves the other usable. -/
def portCode (ports : List Bool) : Nat :=
  match firstFail ports with
  | some p => 0x40 + p
  | none => 0

/-- The ports that do not train. -/
def portsFailed (ports : List Bool) : List Port :=
  (if ports.getD 0 true then [] else [.a]) ++ (if ports.getD 1 true then [] else [.b])

/-- R344: an image is genuine: its key is the one whose hash is fused, and its signature is over its digest. -/
def imageGenuine (x : FwImage) : Bool :=
  Config.sha384 x.key == Config.fusedKeyHash && Config.ecdsaP384 x.key (Config.sha384 x.bytes) x.sig

/-- The checks of images 0 to 2; one that is missing fails. -/
def imageChecks (xs : List FwImage) : List Bool :=
  (List.range 3).map fun i =>
    match xs[i]? with
    | some x => imageGenuine x
    | none => false

/-- STEP of DEVRDY. -/
def devStep (s : State) : Nat := nfield s.regs.devrdy.toNat 0 4

def devFailed (s : State) : Bool := nbit s.regs.devrdy.toNat 5

/-- A step of parts that must all be good: the first that is not stops the bring-up with its FCODE. -/
def bringParts (step code : Nat) (rs : List Bool) : DWord :=
  match firstFail rs with
  | some i => devrdyOf step false true (code + i) false
  | none => devrdyOf (step + 1) false false 0 false

/-- DEVRDY after the step that follows the last one completed, 1 to 3. -/
def bringNext (s : State) : DWord :=
  match devStep s with
  | 1 => bringParts 1 0x10 (imageChecks s.images)
  | 2 => bringParts 2 0x20 (s.trains.getD 0 [])
  | _ => bringParts 3 0x30 (s.trains.getD 1 [])

/-- The ports train: one that fails is out of use. -/
def trainPorts (s : State) : State :=
  let ports := s.trains.getD 2 []
  setDevrdy { s with deadPorts := portsFailed ports } (devrdyOf 5 false false (portCode ports) false)

/-- The optical training ends. -/
def opticalDone (s : State) (optdeg : Bool) : State :=
  setDevrdy s (devrdyOf 6 false false (nfield s.regs.devrdy.toNat 8 8) optdeg)

/-- READY is set. -/
def becomeReady (s : State) : State :=
  let x := s.regs.devrdy.toNat
  setDevrdy s (devrdyOf 7 true false (nfield x 8 8) (nbit x 16))

/-- Power good begins the bring-up of a module that has not begun it; each further step of it completes one step of R343.
Whether every wavelength trains in time is free. -/
def execPowerGood (images : List FwImage) (hbm links ports : List Bool) (s : State) : Host.Outcome State Fault Refusal :=
  let again (s : State) : State := later s (.powerGood images hbm links ports)
  match devStep s with
  | 0 =>
    .next (again (setDevrdy { s with images := images, trains := [hbm, links, ports], deadPorts := [], down := false }
      (devrdyOf 1 false false 0 false)))
  | 4 => .next (again (trainPorts s))
  | 5 =>
    let (k, s1) := freeChoice s 2
    if k = 0 then .next (again (opticalDone s1 false)) else .next (laterOnce s1 .opticalTrainTimeout)
  | 6 => .next (becomeReady s)
  | n =>
    if 3 < n ∨ devFailed s = true then .next s
    else if nbit (bringNext s).toNat 5 then .next (setDevrdy s (bringNext s))
    else .next (again (setDevrdy s (bringNext s)))

/-- 50 ms have passed: wavelengths left untrained are retired. -/
def execOpticalTrainTimeout (s : State) : Host.Outcome State Fault Refusal :=
  if devStep s = 5 then .next (later (opticalDone s true) (.powerGood s.images (s.trains.getD 0 []) (s.trains.getD 1 []) (s.trains.getD 2 [])))
  else .next s

/-! ## Management (R344) -/

/-- The system controller answers a request over the mailbox of the function it came by, unless its port has failed. -/
def answerSpdm (s : State) (x : SpdmReq) (a : SpdmAnswer) : Host.Outcome State Fault Refusal :=
  .next (if portUp s x.port then { s with outputs := s.outputs ++ [.spdm x.port a] } else s)

def execGetVersion (x : SpdmReq) (s : State) : Host.Outcome State Fault Refusal := answerSpdm s x (.version 1 3)

def execGetCapabilities (x : SpdmReq) (s : State) : Host.Outcome State Fault Refusal :=
  answerSpdm s x (.capabilities Config.spdmCapabilities)

def execNegotiateAlgorithms (x : SpdmReq) (s : State) : Host.Outcome State Fault Refusal :=
  answerSpdm s x (.algorithms .ecdsaP384 .sha384)

/-- The digest of its certificate chain (that there is one chain is not stated: DESIGN CHOICE, log 84). -/
def execGetDigests (x : SpdmReq) (s : State) : Host.Outcome State Fault Refusal :=
  answerSpdm s x (.digests [Config.sha384 Config.certificate])

def execGetCertificate (x : SpdmReq) (s : State) : Host.Outcome State Fault Refusal :=
  answerSpdm s x (.certificate Config.certificate)

def execChallenge (x : SpdmReq) (s : State) : Host.Outcome State Fault Refusal :=
  answerSpdm s x (.challenge (Config.spdmSign x.nonce))

/-- Indices 1 to 3 are the digests of images 0 to 2, index 4 that of the fused configuration. -/
def measurements (s : State) : List (Nat × List Byte) :=
  ((List.range 3).filterMap fun i => (s.images[i]?).map fun x => (i + 1, Config.sha384 x.bytes))
    ++ [(4, Config.sha384 Config.fusedConfig)]

def execGetMeasurements (x : SpdmReq) (s : State) : Host.Outcome State Fault Refusal :=
  answerSpdm s x (.measurements (measurements s))

/-! ## Registers (R6, R232, R243, R346) -/

def updRegs (s : State) (f : Regs → Regs) : State := { s with regs := f s.regs }

/-- FQCTL: an EN that rises begins the first pass. -/
def writeFqctl (g : Regs) (v : DWord) : Regs :=
  { g with
    fqctl := BitVec.ofNat 64 (keepBits v 0 1 + keepBits v 18 34)
    passes := if nbit v.toNat 0 && !fqEn g then 0 else g.passes }

/-- FQPTR: HEAD is written. -/
def writeFqptr (g : Regs) (v : DWord) : Regs :=
  { g with fqptr := BitVec.ofNat 64 (fqTail g + keepBits v 16 12) }

/-- FQACK: ERR is cleared by a one; then the verdict acts, and a TOKEN of 0 acknowledges nothing. -/
def writeFqack (s : State) (v : DWord) : Host.Outcome State Fault Refusal :=
  let s1 := if nbit v.toNat 34 then updRegs s fun g => { g with fqack := 0 } else s
  let t := BitVec.ofNat 32 (nfield v.toNat 0 32)
  if t = 0 then .next s1
  else
    match nfield v.toNat 32 2 with
    | 0 => execFqackReplay t s1
    | 1 => execFqackKill t s1
    | 2 => execFqackDock t s1
    | _ => .next (ackError s1)

/-- DKPOOL: fewer slots may be left free than before. -/
def writeDkpool (s : State) (v : DWord) : State :=
  wakeDies (reportPool s (updRegs s fun g => { g with dkpool := BitVec.ofNat 64 (keepBits v 0 12 + keepBits v 24 28) }))

/-- DEVRDY: RSTREQ asks for an orderly reset. -/
def writeDevrdy (s : State) (v : DWord) : State :=
  if nbit v.toNat 17 then laterOnce (setDevrdy s (setBit s.regs.devrdy 17 true)) .rstreq else s

/-- A function's own queue-interface block lies in its own BAR0 (R320). -/
def ownQi (p : Port) (qi : QiRef) : Bool := qi.port == p && decide (qi.q < 64)

/-- A write of a queue interface's register. -/
def writeQi (s : State) (p : Port) (qi : QiRef) (f : State → State) : State := if ownQi p qi then f s else s

/-- R328: a half of a vector of the function's MSI-X table: its message address, or its data with its control word, whose
bit 0 masks it (the halves' layout: PRESUMED from MSI-X, log 81). -/
def writeMsix (s : State) (p : Port) (v : Nat) (ctl : Bool) (x : DWord) : State :=
  let m := msixOf s p v
  let m1 := if ctl then { m with data := BitVec.ofNat 32 (nfield x.toNat 0 32), masked := nbit x.toNat 32 }
    else { m with addr := BitVec.ofNat 64 (keepBits x 2 62) }
  updRegs s fun g => { g with msix := g.msix.put (msixKey p v) m1 }

def readMsix (s : State) (p : Port) (v : Nat) (ctl : Bool) : DWord :=
  let m := msixOf s p v
  if ctl then BitVec.ofNat 64 (m.data.toNat + (if m.masked then 2 ^ 32 else 0)) else m.addr

/-- The registers of a queue interface's block (R322). -/
def qiRegAt (q : QiRef) (off : Nat) : RegName :=
  match off with
  | 0x00 => .qictl q
  | 0x08 => .qiptb q
  | 0x10 => .qis2r q
  | 0x18 => .qitlb q
  | 0x20 => .qiirb q
  | 0x28 => .qiinv q
  | _ => .reserved

/-- The registers of a quay island's block (R346). -/
def quayRegAt (d : Fin 4) (off : Nat) : RegName :=
  match off with
  | 0x000 => .devrdy
  | 0x010 => .fqctl
  | 0x018 => .fqptr
  | 0x020 => .fqack
  | 0x028 => .dkpool
  | 0x030 => .evsl d
  | 0x038 => .evph d
  | 0x040 => .rwtb
  | 0x048 => .fabcfg
  | 0x050 => .tokbud d
  | 0x058 => .tokstat d
  | 0x060 => .dbgctl
  | _ => .reserved

/-- The register at an offset of a function's BAR0 (R320, R321, R322, R346). -/
def regAt (p : Port) (off : Nat) : RegName :=
  if 0x1000 ≤ off ∧ off < 0x1100 ∧ off % 8 = 0 then .hsem (Fin.ofNat 32 ((off - 0x1000) / 8))
  else if 0x1_0000 ≤ off ∧ off < 0x1_1000 then qiRegAt ⟨p, (off - 0x1_0000) / 64⟩ (off % 64)
  else if 0x8_0000 ≤ off ∧ off < 0xC_0000 then quayRegAt (Fin.ofNat 4 ((off - 0x8_0000) / 0x1_0000)) (off % 0x1_0000)
  else .reserved

/-- The register that a host's access through a port names. -/
def regOf (p : Port) (a : RegAddr) : RegName :=
  match a with
  | .bar0 off => regAt p off
  | .msix v ctl => if v < 2048 then .msix p v ctl else .reserved

/-- A write to a register while the module is READY. -/
def writeReg (s : State) (p : Port) (a : RegAddr) (v : DWord) : Host.Outcome State Fault Refusal :=
  match regOf p a with
  | .devrdy => .next (writeDevrdy s v)
  | .fqctl => .next (updRegs s fun g => writeFqctl g v)
  | .fqptr => .next (updRegs s fun g => writeFqptr g v)
  | .fqack => writeFqack s v
  | .dkpool => .next (writeDkpool s v)
  | .evsl d => .next (writeEvsl s d.val v)
  | .evph d => .next (setDie s d.val { dieOf s d.val with evph := setPhase (dieOf s d.val).evph v.toNat })
  | .rwtb => .next (updRegs s fun g => { g with rwtb := BitVec.ofNat 64 (keepBits v 12 40) })
  | .fabcfg => .next (updRegs s fun g => { g with fabcfg := BitVec.ofNat 64 (keepBits v 0 12 + keepBits v 14 38) })
  | .dbgctl => .next (updRegs s fun g => { g with dbgctl := BitVec.ofNat 64 (keepBits v 0 28) })
  | .tokbud d => .next (writeTokbud s d.val v)
  | .tokstat _ => .next s
  | .hsem k => semWrite s p (.registerWrite p a v) fun s => writeHsem s k.val p v
  | .qictl q => .next (writeQi s p q fun s => setQi s q { qiOf s q with ctl := qictlAfter (qiOf s q).ctl v })
  | .qiptb q => .next (writeQi s p q fun s => writeQiReg s q fun x =>
      { x with ptb := BitVec.ofNat 64 (keepBits v 0 5 + keepBits v 12 40) })
  | .qis2r q => .next (writeQi s p q fun s => writeQiReg s q fun x => { x with s2r := BitVec.ofNat 64 (keepBits v 12 40) })
  | .qitlb q => .next (writeQi s p q fun s => writeQiReg s q fun x => { x with tlb := BitVec.ofNat 64 (keepBits v 6 46) })
  | .qiirb q => .next (writeQi s p q fun s => writeQiReg s q fun x =>
      { x with irb := BitVec.ofNat 64 (keepBits v 0 4 + keepBits v 12 40) })
  | .qiinv q => .next (writeQi s p q fun s => writeQiinv s q v)
  | .msix q n ctl => .next (writeMsix s q n ctl v)
  | .reserved => .next s

def execRegisterWrite (port : Port) (r : RegAddr) (value : DWord) (s : State) : Host.Outcome State Fault Refusal :=
  if portReady s port then writeReg s port r value
  else if !portUp s port then .next s
  else
    match regOf port r with
    | .devrdy => .next (writeDevrdy s value)
    | _ => .next s

/-- Records wait in quay islands because the ring is full or not enabled. -/
def fqWaiting (s : State) : Bool :=
  (fqFull s.regs || !fqEn s.regs) && (List.range 4).any fun d => !(dieOf s d).waiting.isEmpty

/-- TOKSTAT. -/
def tokstatOf (d : Die) : DWord :=
  BitVec.ofNat 64 (d.eff + d.tshift * 2 ^ 20 + d.temp * 2 ^ 24 + d.thrw * 2 ^ 32)

/-- What a register reads once the module is READY. -/
def regValue (s : State) (r : RegName) : DWord :=
  match r with
  | .devrdy => s.regs.devrdy
  | .fqctl => setBit s.regs.fqctl 1 (fqWaiting s)
  | .fqptr => s.regs.fqptr
  | .fqack => s.regs.fqack
  | .dkpool => s.regs.dkpool
  | .evsl d => (dieOf s d.val).evsl
  | .evph d => (dieOf s d.val).evph
  | .rwtb => s.regs.rwtb
  | .fabcfg => s.regs.fabcfg
  | .dbgctl => s.regs.dbgctl
  | .tokbud d => (dieOf s d.val).tokbudNext.getD (dieOf s d.val).tokbud
  | .tokstat d => tokstatOf (dieOf s d.val)
  | .hsem k => hsemOf s k.val
  | .qictl q => (qiOf s q).ctl
  | .qiptb q => (qiOf s q).ptb
  | .qis2r q => (qiOf s q).s2r
  | .qitlb q => (qiOf s q).tlb
  | .qiirb q => (qiOf s q).irb
  | .qiinv q => (qiOf s q).inv
  | .msix p v ctl => readMsix s p v ctl
  | .reserved => 0

/-- R343: until READY every register but DEVRDY reads zero. -/
def readReg (s : State) (p : Port) (a : RegAddr) : DWord :=
  if moduleReady s || regOf p a == .devrdy then regValue s (regOf p a) else 0

end Sys2Proof.Machine
end

