-- ==== Sys2Proof/Machine/TapeInstr.lean ====
section
/-! DEFINITION. Tape instructions, and the write-out that a WAIT asks for (25_tape_rules.md R309, R313 to R316). -/

namespace Sys2Proof.Machine

/-! ## TBIND (R313) -/

/-- Before the stream is left: no attached record exists. -/
def mayRebindE (h : Here) : Exec Unit := do
  let y ← crewE h
  if attachedCount y ≠ 0 then trapE h .illop

/-- The tape bound to the crew's own stream, at its first segment; unbound when there is none. -/
def bindOwn (h : Here) (t : Tape) : Tape :=
  if ownStream h < t.desc.nstream then
    { t with bind := .own (ownStream h), top := (t.desc.base + ownStream h * 65536) % 2 ^ 64 }
  else { t with bind := .unbound, top := 0 }

def execTbindNew (s : State) : Host.Outcome State Fault Refusal :=
  issueWord .tbindNew s fun h => do
    tapeFlagE h
    mayRebindE h
    bindFirstE h
    leaveStreamE h
    updTapeE h (bindOwn h)
    nextE h

def execTbindAt (a : Opnd) (s : State) : Host.Outcome State Fault Refusal :=
  issueWord (.tbindAt a) s fun h => do
    let s ← getE
    tapeFlagE h
    mayRebindE h
    bindFirstE h
    let top := srcNum s h a 2 0
    if top % 4 ≠ 0 then tapeTrapE h .tovf 3
    else do
      leaveStreamE h
      updTapeE h fun t => { t with bind := .at, top := top }
      nextE h

def execTbindCh (n : Fin 16) (tag : Byte) (s : State) : Host.Outcome State Fault Refusal :=
  issueWord (.tbindCh n tag) s fun h => do
    tapeFlagE h
    bindFirstE h
    updCrewE h fun y => { y with chans := y.chans.put n.val ⟨3, (chanOf y n.val).ring, tag, []⟩ }
    nextE h

/-! ## TREC and TMARK (R314) -/

/-- The stored value of a lane. -/
def storedVal (h16 : Bool) (x : Nat) : Nat := if h16 then x / 65536 % 65536 else x

/-- What a `TREC` records: the values of its active lanes; none without one. -/
def trecRec (s : State) (h : Here) (x : TrecOp) : Option (Nat × Nat × Bool × Mask × List Nat) :=
  let m := activeMask h x.g
  if m = 0 then none
  else
    some (tkVal, x.tag.toNat, x.h16, m,
      (List.range 32).map fun l => if m.getLsbD l then storedVal x.h16 (srcNum s h x.a 1 l) else 0)

def execTrec (x : TrecOp) (s : State) : Host.Outcome State Fault Refusal :=
  issueWord (.trec x) s fun h => do
    let s ← getE
    tapeFlagE h
    let _ ← needTapeE h
    recordE h (trecRec s h x)
    nextE h

def execTmark (tag : Byte) (a : Opnd) (s : State) : Host.Outcome State Fault Refusal :=
  issueWord (.tmark tag a) s fun h => do
    let s ← getE
    tapeFlagE h
    let _ ← needTapeE h
    recordE h (some (tkMark, tag.toNat, false, 0, [srcNum s h a 1 0]))
    nextE h

/-! ## TBACK, TBPOP and TSTAT (R315, R316) -/

def popKind (k : PopKind) : Nat :=
  match k with
  | .val => tkVal
  | .mark => tkMark
  | .gap => tkGap

/-- A popped record is delivered: a VAL record's values to its own lanes, a payload to every active lane. -/
def tbackPut (x : TbackOp) (m : Mask) (q : TRec) (y : Crew) : Crew :=
  if x.kind = .val then putDst y false x.d 1 (q.mask &&& m) (popValue q)
  else putDst y false x.d 1 m fun _ => q.payload

def execTback (x : TbackOp) (s : State) : Host.Outcome State Fault Refusal :=
  issueWord (.tback x) s fun h => do
    tapeFlagE h
    let m := activeMask h x.g
    if m = 0 then nextE h
    else do
      let q ← popE h (popKind x.kind) x.tag.toNat x.peek m
      updCrewE h (tbackPut x m q)
      nextE h

def execTbpop (x : TbpopOp) (s : State) : Host.Outcome State Fault Refusal :=
  issueWord (.tbpop x) s fun h => do
    tapeFlagE h
    let m := activeMask h x.g
    if m = 0 then nextE h
    else do
      let q ← popE h tkBr x.tag.toNat x.peek m
      updCrewE h fun y => writeP y x.pd.val (q.mask &&& m) (BitVec.ofNat 32 (q.vals.getD 0 0))
      nextE h

/-- The header of the record below the top: its trailer has the same word. -/
def topHeaderE (h : Here) (t : Tape) : Exec Nat := if tapeEmpty t then pure 0 else tapeWordE h (t.top - 4)

def tstatE (h : Here) (sel : TstatSel) : Exec Nat := do
  let y ← crewE h
  match sel with
  | .top => pure (if tapeBound y.tape then y.tape.top else 0)
  | .next => topHeaderE h y.tape
  | .num => pure y.tape.tl.issued

def execTstat (g : Guard) (d : Opnd) (sel : TstatSel) (s : State) : Host.Outcome State Fault Refusal :=
  issueWord (.tstat g d sel) s fun h => do
    tapeFlagE h
    let m := activeMask h g
    if m = 0 then nextE h
    else do
      bindFirstE h
      let x ← tstatE h sel
      updCrewE h fun y => putDst y false d (tstatRegs sel) m fun _ => x
      nextE h

/-! ## The write-out of a pending wait (R309) -/

/-- A slot of the crew waits on its tape's timeline: what is staged meanwhile is written out too. -/
def tapeWaiting (s : State) (b c : Nat) : Bool :=
  match crewOf s b c with
  | some y => [y.slot0, y.slot1].any fun t =>
      match t.st with
      | .waiting (.object (.tape _) _ _) => true
      | _ => false
  | none => false

def execTapeWriteOut (blk crew : Nat) (s : State) : Host.Outcome State Fault Refusal :=
  match s.blocks.find blk with
  | none => .next s
  | some b =>
    if !tapeWaiting s blk crew then .next (dropWalkEnd s)
    else if b.st != .running && b.st != .halted then .next (later s (.tapeWriteOut blk crew))
    else .next (laterOnce (writeOutStep s blk crew) (.tapeWriteOut blk crew))

end Sys2Proof.Machine
end

