-- ==== Sys2Proof/Machine/Dispatch.lean ====
section
/-! DEFINITION. One arm for each row of the opcode table. -/

namespace Sys2Proof.Machine

def exec (i : Instr) (s : State) : Host.Outcome State Fault Refusal :=
  match i with
  | .iadd x => Sys2Proof.Machine.execIadd x s
  | .isub x => Sys2Proof.Machine.execIsub x s
  | .iaddc x => Sys2Proof.Machine.execIaddc x s
  | .imul x => Sys2Proof.Machine.execImul x s
  | .imulhi x => Sys2Proof.Machine.execImulhi x s
  | .imad x => Sys2Proof.Machine.execImad x s
  | .imadw x => Sys2Proof.Machine.execImadw x s
  | .imin x => Sys2Proof.Machine.execImin x s
  | .imax x => Sys2Proof.Machine.execImax x s
  | .iabs x => Sys2Proof.Machine.execIabs x s
  | .and x => Sys2Proof.Machine.execAnd x s
  | .or x => Sys2Proof.Machine.execOr x s
  | .xor x => Sys2Proof.Machine.execXor x s
  | .andn x => Sys2Proof.Machine.execAndn x s
  | .orn x => Sys2Proof.Machine.execOrn x s
  | .shl x => Sys2Proof.Machine.execShl x s
  | .shr x => Sys2Proof.Machine.execShr x s
  | .sar x => Sys2Proof.Machine.execSar x s
  | .rotl x => Sys2Proof.Machine.execRotl x s
  | .fshf x => Sys2Proof.Machine.execFshf x s
  | .bfx x => Sys2Proof.Machine.execBfx x s
  | .bfi x => Sys2Proof.Machine.execBfi x s
  | .popc x => Sys2Proof.Machine.execPopc x s
  | .clz x => Sys2Proof.Machine.execClz x s
  | .ctz x => Sys2Proof.Machine.execCtz x s
  | .brev x => Sys2Proof.Machine.execBrev x s
  | .prmt x => Sys2Proof.Machine.execPrmt x s
  | .lea x => Sys2Proof.Machine.execLea x s
  | .isetp x => Sys2Proof.Machine.execIsetp x s
  | .sel x => Sys2Proof.Machine.execSel x s
  | .mov x => Sys2Proof.Machine.execMov x s
  | .fadd x => Sys2Proof.Machine.execFadd x s
  | .fsub x => Sys2Proof.Machine.execFsub x s
  | .fmul x => Sys2Proof.Machine.execFmul x s
  | .ffma x => Sys2Proof.Machine.execFfma x s
  | .fmin x => Sys2Proof.Machine.execFmin x s
  | .fmax x => Sys2Proof.Machine.execFmax x s
  | .fsetp x => Sys2Proof.Machine.execFsetp x s
  | .fclass x => Sys2Proof.Machine.execFclass x s
  | .frcp x => Sys2Proof.Machine.execFrcp x s
  | .frsq x => Sys2Proof.Machine.execFrsq x s
  | .fsqrt x => Sys2Proof.Machine.execFsqrt x s
  | .fex2 x => Sys2Proof.Machine.execFex2 x s
  | .flg2 x => Sys2Proof.Machine.execFlg2 x s
  | .fsin x => Sys2Proof.Machine.execFsin x s
  | .fcos x => Sys2Proof.Machine.execFcos x s
  | .ftanh x => Sys2Proof.Machine.execFtanh x s
  | .hadd2 x => Sys2Proof.Machine.execHadd2 x s
  | .hmul2 x => Sys2Proof.Machine.execHmul2 x s
  | .hfma2 x => Sys2Proof.Machine.execHfma2 x s
  | .hmnmx2 x => Sys2Proof.Machine.execHmnmx2 x s
  | .cvt x => Sys2Proof.Machine.execCvt x s
  | .cvtq x => Sys2Proof.Machine.execCvtq x s
  | .cvtdq x => Sys2Proof.Machine.execCvtdq x s
  | .pack x => Sys2Proof.Machine.execPack x s
  | .unpk x => Sys2Proof.Machine.execUnpk x s
  | .lutx x => Sys2Proof.Machine.execLutx x s
  | .idp4 x => Sys2Proof.Machine.execIdp4 x s
  | .idp8 x => Sys2Proof.Machine.execIdp8 x s
  | .fdp4 x => Sys2Proof.Machine.execFdp4 x s
  | .fdp2 x => Sys2Proof.Machine.execFdp2 x s
  | .pairedWord h0 h1 => Sys2Proof.Machine.execPairedWord h0 h1 s
  | .shfl x => Sys2Proof.Machine.execShfl x s
  | .vote x => Sys2Proof.Machine.execVote x s
  | .matchLanes x => Sys2Proof.Machine.execMatchLanes x s
  | .cred x => Sys2Proof.Machine.execCred x s
  | .cscan x => Sys2Proof.Machine.execCscan x s
  | .lser => Sys2Proof.Machine.execLser s
  | .lsend => Sys2Proof.Machine.execLsend s
  | .actm x => Sys2Proof.Machine.execActm x s
  | .bra g off => Sys2Proof.Machine.execBra g off s
  | .braT g off tag => Sys2Proof.Machine.execBraT g off tag s
  | .brx g a => Sys2Proof.Machine.execBrx g a s
  | .call g d off => Sys2Proof.Machine.execCall g d off s
  | .callx g d a => Sys2Proof.Machine.execCallx g d a s
  | .ret g a => Sys2Proof.Machine.execRet g a s
  | .join off => Sys2Proof.Machine.execJoin off s
  | .exit g => Sys2Proof.Machine.execExit g s
  | .trap g code => Sys2Proof.Machine.execTrap g code s
  | .chkpt n => Sys2Proof.Machine.execChkpt n s
  | .yieldSlot g => Sys2Proof.Machine.execYieldSlot g s
  | .sleep a => Sys2Proof.Machine.execSleep a s
  | .nop g => Sys2Proof.Machine.execNop g s
  | .ld x => Sys2Proof.Machine.execLd x s
  | .st x => Sys2Proof.Machine.execSt x s
  | .lds x => Sys2Proof.Machine.execLds x s
  | .sts x => Sys2Proof.Machine.execSts x s
  | .ldro x => Sys2Proof.Machine.execLdro x s
  | .ldsp x ac => Sys2Proof.Machine.execLdsp x ac s
  | .atom x => Sys2Proof.Machine.execAtom x s
  | .red x => Sys2Proof.Machine.execRed x s
  | .fence scope => Sys2Proof.Machine.execFence scope s
  | .fenceRo => Sys2Proof.Machine.execFenceRo s
  | .pref x => Sys2Proof.Machine.execPref x s
  | .cwb a b scope => Sys2Proof.Machine.execCwb a b scope s
  | .cinv a b scope => Sys2Proof.Machine.execCinv a b scope s
  | .moor d a => Sys2Proof.Machine.execMoor d a s
  | .unmoor d a wb => Sys2Proof.Machine.execUnmoor d a wb s
  | .mwb d a b => Sys2Proof.Machine.execMwb d a b s
  | .mqry x => Sys2Proof.Machine.execMqry x s
  | .binit a b c => Sys2Proof.Machine.execBinit a b c s
  | .barv d a b => Sys2Proof.Machine.execBarv d a b s
  | .bpar pd a => Sys2Proof.Machine.execBpar pd a s
  | .waitBar pd a b c => Sys2Proof.Machine.execWaitBar pd a b c s
  | .waitBmp pd a b c => Sys2Proof.Machine.execWaitBmp pd a b c s
  | .waitAc pd n c => Sys2Proof.Machine.execWaitAc pd n c s
  | .waitTl pd a b c => Sys2Proof.Machine.execWaitTl pd a b c s
  | .cpy x => Sys2Proof.Machine.execCpy x s
  | .cpyt d a => Sys2Proof.Machine.execCpyt d a s
  | .cpyq d a => Sys2Proof.Machine.execCpyq d a s
  | .send x => Sys2Proof.Machine.execSend x s
  | .mcast x => Sys2Proof.Machine.execMcast x s
  | .redpArm d a id => Sys2Proof.Machine.execRedpArm d a id s
  | .redpContribute d a id => Sys2Proof.Machine.execRedpContribute d a id s
  | .remit g idx a => Sys2Proof.Machine.execRemit g idx a s
  | .radv => Sys2Proof.Machine.execRadv s
  | .xdec x => Sys2Proof.Machine.execXdec x s
  | .xbmp x => Sys2Proof.Machine.execXbmp x s
  | .movspr g d r => Sys2Proof.Machine.execMovspr g d r s
  | .wrspr r a => Sys2Proof.Machine.execWrspr r a s
  | .tlinc a b err => Sys2Proof.Machine.execTlinc a b err s
  | .gettl g d a err => Sys2Proof.Machine.execGettl g d a err s
  | .bkpt g code => Sys2Proof.Machine.execBkpt g code s
  | .resphase a => Sys2Proof.Machine.execResphase a s
  | .mldw a b wf => Sys2Proof.Machine.execMldw a b wf s
  | .mswap d => Sys2Proof.Machine.execMswap d s
  | .mlut sb => Sys2Proof.Machine.execMlut sb s
  | .mzero g tile => Sys2Proof.Machine.execMzero g tile s
  | .mma x => Sys2Proof.Machine.execMma x s
  | .mrd x => Sys2Proof.Machine.execMrd x s
  | .mst x => Sys2Proof.Machine.execMst x s
  | .mfence d => Sys2Proof.Machine.execMfence d s
  | .capenter x => Sys2Proof.Machine.execCapenter x s
  | .capadopt d a => Sys2Proof.Machine.execCapadopt d a s
  | .capstat d a => Sys2Proof.Machine.execCapstat d a s
  | .capstep lbl => Sys2Proof.Machine.execCapstep lbl s
  | .capexit => Sys2Proof.Machine.execCapexit s
  | .capabort => Sys2Proof.Machine.execCapabort s
  | .tbindNew => Sys2Proof.Machine.execTbindNew s
  | .tbindAt a => Sys2Proof.Machine.execTbindAt a s
  | .tbindCh n tag => Sys2Proof.Machine.execTbindCh n tag s
  | .trec x => Sys2Proof.Machine.execTrec x s
  | .tmark tag a => Sys2Proof.Machine.execTmark tag a s
  | .tback x => Sys2Proof.Machine.execTback x s
  | .tbpop x => Sys2Proof.Machine.execTbpop x s
  | .tstat g d sel => Sys2Proof.Machine.execTstat g d sel s
  | .starvationIssue r => Sys2Proof.Machine.execStarvationIssue r s
  | .fairnessPrecedence r => Sys2Proof.Machine.execFairnessPrecedence r s
  | .divergencePop blk crew => Sys2Proof.Machine.execDivergencePop blk crew s
  | .sleepExpiry r => Sys2Proof.Machine.execSleepExpiry r s
  | .waitWake r => Sys2Proof.Machine.execWaitWake r s
  | .waitTimeout r => Sys2Proof.Machine.execWaitTimeout r s
  | .submission w => Sys2Proof.Machine.execSubmission w s
  | .submissionDecode qi => Sys2Proof.Machine.execSubmissionDecode qi s
  | .launchAccept die => Sys2Proof.Machine.execLaunchAccept die s
  | .launchStart launch => Sys2Proof.Machine.execLaunchStart launch s
  | .blockPlace die => Sys2Proof.Machine.execBlockPlace die s
  | .blockRetire blk => Sys2Proof.Machine.execBlockRetire blk s
  | .stealq thief launch => Sys2Proof.Machine.execStealq thief launch s
  | .stealg thief launch => Sys2Proof.Machine.execStealg thief launch s
  | .stealn thief launch => Sys2Proof.Machine.execStealn thief launch s
  | .preempt die => Sys2Proof.Machine.execPreempt die s
  | .slipwayBatchLaunch w => Sys2Proof.Machine.execSlipwayBatchLaunch w s
  | .slipwayFlush w => Sys2Proof.Machine.execSlipwayFlush w s
  | .remitUnpark r => Sys2Proof.Machine.execRemitUnpark r s
  | .parkSaveTimeout blk => Sys2Proof.Machine.execParkSaveTimeout blk s
  | .outsideWaitSave blk => Sys2Proof.Machine.execOutsideWaitSave blk s
  | .blockRestore blk => Sys2Proof.Machine.execBlockRestore blk s
  | .checkpointWindowExpiry blk => Sys2Proof.Machine.execCheckpointWindowExpiry blk s
  | .saveComplete blk => Sys2Proof.Machine.execSaveComplete blk s
  | .storeFault req => Sys2Proof.Machine.execStoreFault req s
  | .faultRecordWrite die => Sys2Proof.Machine.execFaultRecordWrite die s
  | .fqackReplay token => Sys2Proof.Machine.execFqackReplay token s
  | .fqackKill token => Sys2Proof.Machine.execFqackKill token s
  | .fqackDock token => Sys2Proof.Machine.execFqackDock token s
  | .haltComplete blk => Sys2Proof.Machine.execHaltComplete blk s
  | .requestInject req => Sys2Proof.Machine.execRequestInject req s
  | .replySink req => Sys2Proof.Machine.execReplySink req s
  | .controlMessage id => Sys2Proof.Machine.execControlMessage id s
  | .probe core line inval => Sys2Proof.Machine.execProbe core line inval s
  | .mooringFillLand core entry line => Sys2Proof.Machine.execMooringFillLand core entry line s
  | .writebackAck core entry line => Sys2Proof.Machine.execWritebackAck core entry line s
  | .probeTimeout agent line => Sys2Proof.Machine.execProbeTimeout agent line s
  | .walkComplete walk => Sys2Proof.Machine.execWalkComplete walk s
  | .evslLoad die value => Sys2Proof.Machine.execEvslLoad die value s
  | .evslLoadDone die => Sys2Proof.Machine.execEvslLoadDone die s
  | .evphWrite die writes => Sys2Proof.Machine.execEvphWrite die writes s
  | .copyLineLand copy piece => Sys2Proof.Machine.execCopyLineLand copy piece s
  | .sendDelivery msg rank => Sys2Proof.Machine.execSendDelivery msg rank s
  | .sendRetry msg => Sys2Proof.Machine.execSendRetry msg s
  | .mcastBranchRetry msg => Sys2Proof.Machine.execMcastBranchRetry msg s
  | .armatureInput id => Sys2Proof.Machine.execArmatureInput id s
  | .armatureTimeout n => Sys2Proof.Machine.execArmatureTimeout n s
  | .matrixPassStart core part => Sys2Proof.Machine.execMatrixPassStart core part s
  | .matrixPassDone core part => Sys2Proof.Machine.execMatrixPassDone core part s
  | .mswapPoint core part => Sys2Proof.Machine.execMswapPoint core part s
  | .tileOpPoint core part => Sys2Proof.Machine.execTileOpPoint core part s
  | .mldwDone core part => Sys2Proof.Machine.execMldwDone core part s
  | .mstDone core part => Sys2Proof.Machine.execMstDone core part s
  | .enter msg => Sys2Proof.Machine.execEnter msg s
  | .adopt msg => Sys2Proof.Machine.execAdopt msg s
  | .commit msg => Sys2Proof.Machine.execCommit msg s
  | .closeAck line => Sys2Proof.Machine.execCloseAck line s
  | .park msg => Sys2Proof.Machine.execPark msg s
  | .reclaim msg => Sys2Proof.Machine.execReclaim msg s
  | .capsuleStore msg => Sys2Proof.Machine.execCapsuleStore msg s
  | .conflictRestart blk crew => Sys2Proof.Machine.execConflictRestart blk crew s
  | .tapeWriteOut blk crew => Sys2Proof.Machine.execTapeWriteOut blk crew s
  | .qictlWrite qi value => Sys2Proof.Machine.execQictlWrite qi value s
  | .qiinvFirstStage qi pasid => Sys2Proof.Machine.execQiinvFirstStage qi pasid s
  | .qiinvInterface qi => Sys2Proof.Machine.execQiinvInterface qi s
  | .qiinvRevoke qi pasid => Sys2Proof.Machine.execQiinvRevoke qi pasid s
  | .qiinvSecondStage qi => Sys2Proof.Machine.execQiinvSecondStage qi s
  | .qiinvDone qi => Sys2Proof.Machine.execQiinvDone qi s
  | .hsemClaim k port => Sys2Proof.Machine.execHsemClaim k port s
  | .hsemRel k port => Sys2Proof.Machine.execHsemRel k port s
  | .portReset port => Sys2Proof.Machine.execPortReset port s
  | .hostMemAccess x => Sys2Proof.Machine.execHostMemAccess x s
  | .hostSnoop port pa kind => Sys2Proof.Machine.execHostSnoop port pa kind s
  | .remoteTimeout req => Sys2Proof.Machine.execRemoteTimeout req s
  | .flitReplay flit => Sys2Proof.Machine.execFlitReplay flit s
  | .tokenWindow die => Sys2Proof.Machine.execTokenWindow die s
  | .tokbudWrite die value => Sys2Proof.Machine.execTokbudWrite die value s
  | .tshiftDecay die => Sys2Proof.Machine.execTshiftDecay die s
  | .thermalTrip die => Sys2Proof.Machine.execThermalTrip die s
  | .powerGood images hbm links ports => Sys2Proof.Machine.execPowerGood images hbm links ports s
  | .opticalTrainTimeout => Sys2Proof.Machine.execOpticalTrainTimeout s
  | .rstreq => Sys2Proof.Machine.execRstreq s
  | .getVersion x => Sys2Proof.Machine.execGetVersion x s
  | .getCapabilities x => Sys2Proof.Machine.execGetCapabilities x s
  | .negotiateAlgorithms x => Sys2Proof.Machine.execNegotiateAlgorithms x s
  | .getDigests x => Sys2Proof.Machine.execGetDigests x s
  | .getCertificate x => Sys2Proof.Machine.execGetCertificate x s
  | .challenge x => Sys2Proof.Machine.execChallenge x s
  | .getMeasurements x => Sys2Proof.Machine.execGetMeasurements x s
  | .patrolScrub line uncorrectable => Sys2Proof.Machine.execPatrolScrub line uncorrectable s
  | .registerWrite port r value => Sys2Proof.Machine.execRegisterWrite port r value s
  | .homeSliceRequest req => Sys2Proof.Machine.execHomeSliceRequest req s
  | .crilvonRemoteRequest x => Sys2Proof.Machine.execCrilvonRemoteRequest x s
  | .ucieLinkFailure l => Sys2Proof.Machine.execUcieLinkFailure l s
  | .corePowerGating core => Sys2Proof.Machine.execCorePowerGating core s

end Sys2Proof.Machine
end

