-- ==== Sys2Proof/Machine/Step.lean ====
section
/-! DEFINITION. One step of the module. -/

namespace Sys2Proof.Machine

/-- The word of a slot is fetched, decoded and performed. -/
def stepSlot (s : State) (r : SlotRef) : Host.Outcome State Fault Refusal :=
  match here (issuing s r) with
  | none => .next s
  | some h =>
    if (hSlot h).due ≠ [] then finish (writeDueE h) (issuing s r)
    else
      match fetchWord (issuing s r) h with
      | .word w =>
        fetchPaid (issuing s r) h
          (match decode w with
           | .ok i => exec i (issuing s r)
           | d => .next (decodeStop (issuing s r) h d))
      | f => .next (fetchStop (issuing s r) h f)

/-- A chosen step. -/
def stepChoice (s : State) (c : Choice) : Host.Outcome State Fault Refusal :=
  match c with
  | .issue r => stepSlot s r
  | .mark i => exec i s
  | .event n =>
    match s.agenda[n]? with
    | some i => exec i (taken s n i)
    | none => .next s
  | .ahead r => .next (readAhead s r)

/-- Time passes after every step. -/
def timed (o : Host.Outcome State Fault Refusal) : Host.Outcome State Fault Refusal :=
  match o with
  | .next s => .next (passTime s)
  | .fault r => .fault r
  | .refused r => .refused r

/-- One step: the one that comes next, or, with none, the passage of time. -/
def step (s : State) : Host.Outcome State Fault Refusal :=
  match chosen s with
  | some c => timed (stepChoice s c)
  | none => .next (passTime s)

/-- R122: the word stands at the PC of the one slot of a placed block (log 1). -/
def State.withFetchWord (s : State) (nbits w : Nat) : State := placeWord s (BitVec.ofNat 64 (w % 2 ^ nbits))

end Sys2Proof.Machine
end

