-- ==== Sys2Proof/Safety.lean ====
section
/-! DEFINITION. The terms in which claims are stated: a safe run; a word whose checks pass; a word that has been
performed; what a word leaves alone. -/

namespace Sys2Proof

open Machine

/-- A step goes on. -/
def goesOn (o : Host.Outcome Machine.State Machine.Fault Machine.Refusal) : Bool :=
  match o with
  | .next _ => true
  | .fault _ => false
  | .refused _ => false

/-- The first k steps from `s` go on. -/
def safeFor (k : Nat) (s : Machine.State) : Prop := goesOn (core.run k s) = true

/-! ## A word that issues -/

/-- The word `i` issues at `h`: the issuing slot, with the lanes active for the word. -/
def issuesAt (i : Instr) (s : State) (h : Here) : Prop :=
  ∃ g, here s = some g ∧ h = { g with act := wordLanes g i }

/-- R134: the word issues at `h` and every check at issue passes. -/
def passes (i : Instr) (s : State) (h : Here) : Prop := issuesAt i s h ∧ wordFate h i = .go

/-- R275: a word of a capsule step has been counted. -/
def counted (h : Here) (s : State) : State :=
  if inCapsule h.crew (hMask h) then
    updCrew s h.b h.c fun y =>
      match y.holding with
      | some k => { y with holding := some { k with count := k.count + 1 } }
      | none => y
  else s

/-- The word has been performed: its crew is changed by `f` and goes on with the next word, its paths merged. -/
def wordDone (s : State) (h : Here) (f : Crew → Crew) : State := counted h (nextWord (updCrew s h.b h.c f) h)

/-- Effects run to their end from `s`, with a result and a state. -/
def runs {α : Type} (x : Exec α) (s : State) (a : α) (t : State) : Prop := x.run s = .ok (a, t)

/-- With no lane of `m` active the word moves the PC alone. Else it completes once what it reads and needs, `x`, is
there: its crew is changed by `f`, and it goes on with the next word. -/
def completesBy {α : Type} (i : Instr) (s : State) (h : Here) (m : Mask) (x : Exec α) (f : α → Crew → Crew) : Prop :=
  (m = 0 → exec i s = .next (counted h (nextWord s h))) ∧
    ∀ a t, m ≠ 0 → runs x s a t → exec i s = .next (wordDone t h (f a))

/-- The word completes: its crew is changed by `f`, or with no lane of `m` active not at all. -/
def completes (i : Instr) (s : State) (h : Here) (m : Mask) (f : Crew → Crew) : Prop :=
  exec i s = .next (if m = 0 then counted h (nextWord s h) else wordDone s h f)

/-- The sources are registers, immediates and names of fixed values: no channel. -/
def plainSrcs (os : List (Opnd × Nat)) : Bool := os.all fun o => !isChanOpnd o.1

/-! ## Words that compute lane by lane (R139) -/

/-- The guard, destination, destination registers and sources of a word. -/
structure LaneShape where
  g : Guard
  d : Opnd
  n : Nat
  srcs : List (Opnd × Nat)
  deriving DecidableEq, Repr

/-- The words that compute each active lane's result from that lane's sources (13_instr_arithmetic.md), and the
registers of their places (R146 to R169). -/
def laneShape (i : Instr) : Option LaneShape :=
  match i with
  | .iadd x | .isub x | .imul x | .imulhi x | .imin x | .imax x =>
    some ⟨x.g, x.d, intRegs x.ty, [(x.a, intRegs x.ty), (x.b, intRegs x.ty)]⟩
  | .imad x => some ⟨x.g, x.d, intRegs x.ty, [(x.a, intRegs x.ty), (x.b, intRegs x.ty), (x.c, intRegs x.ty)]⟩
  | .imadw x => some ⟨x.g, x.d, 2, [(x.a, 1), (x.b, 1), (x.c, 2)]⟩
  | .iabs x => some ⟨x.g, x.d, intRegs x.ty, [(x.a, intRegs x.ty)]⟩
  | .and x | .or x | .xor x | .andn x | .orn x =>
    some ⟨x.g, x.d, widthRegs x.w64, [(x.a, widthRegs x.w64), (x.b, widthRegs x.w64)]⟩
  | .shl x | .shr x | .sar x | .rotl x => some ⟨x.g, x.d, widthRegs x.w64, [(x.a, widthRegs x.w64), (x.b, 1)]⟩
  | .fshf x | .fdp2 x => some ⟨x.g, x.d, 1, [(x.a, 1), (x.b, 1), (x.c, 1)]⟩
  | .bfx x => some ⟨x.g, x.d, 1, [(x.a, 1), (x.b, 1)]⟩
  | .bfi x => some ⟨x.g, x.d, 1, [(x.a, 1), (x.b, 1), (x.c, 1)]⟩
  | .prmt x => some ⟨x.g, x.d, 1, [(x.a, 1), (x.b, 1)] ++ if isImm x.b then [] else [(x.c, 1)]⟩
  | .popc x | .clz x | .ctz x | .brev x | .fclass x => some ⟨x.g, x.d, 1, [(x.a, 1)]⟩
  | .lea x => some ⟨x.g, x.d, widthRegs x.w64, [(x.a, widthRegs x.w64), (x.b, 1)]⟩
  | .sel x => some ⟨x.g, x.d, 1, [(x.a, 1), (x.b, 1)]⟩
  | .mov x => some ⟨x.g, x.d, widthRegs x.flag, [(x.a, widthRegs x.flag)]⟩
  | .fadd x | .fsub x | .fmul x | .fmin x | .fmax x => some ⟨x.g, x.d, 1, [(x.a, 1), (x.b, 1)]⟩
  | .ffma x => some ⟨x.g, x.d, 1, [(x.a, 1), (x.b, 1), (x.c, 1)]⟩
  | .frcp x | .frsq x | .fsqrt x | .fex2 x | .flg2 x | .fsin x | .fcos x | .ftanh x =>
    some ⟨x.g, x.d, 1, [(x.a, 1)]⟩
  | .hadd2 x | .hmul2 x => some ⟨x.g, x.d, 1, [(x.a, 1), (x.b, 1)]⟩
  | .hfma2 x => some ⟨x.g, x.d, 1, [(x.a, 1), (x.b, 1), (x.c, 1)]⟩
  | .hmnmx2 x => some ⟨x.g, x.d, 1, [(x.a, 1), (x.b, 1)]⟩
  | .cvt x => some ⟨x.g, x.d, fmtRegs x.df, [(x.a, fmtRegs x.sf)]⟩
  | .cvtq x => some ⟨x.g, x.d, qRegs x.qf, [(x.a, 4)] ++ (x.fix.map fun b => (b, 1)).toList⟩
  | .cvtdq x => some ⟨x.g, x.d, if x.dq = .f32 then 4 else 2, [(x.a, qRegs x.qf)]⟩
  | .pack x => some ⟨x.g, x.d, 1, [(x.a, 1), (x.b, 1)]⟩
  | .unpk x => some ⟨x.g, x.d, 1, [(x.a, 1)]⟩
  | .lutx x => some ⟨x.g, x.d, if x.f32 then 4 else 2, [(x.a, 1)]⟩
  | .idp4 x | .idp8 x => some ⟨x.g, x.d, 1, [(x.a, 1), (x.b, 1), (x.c, 1)]⟩
  | .fdp4 x => some ⟨x.g, x.d, 1, [(x.a, 1), (x.b, 1), (x.c, 1)]⟩
  | _ => none

/-- The lanes active for a word of the shape. -/
def laneMask (h : Here) (w : LaneShape) : Mask := activeMask h w.g

/-- The crew after the destination has received `v` in the lanes active and FSTAT the flags. -/
def laneResult (h : Here) (w : LaneShape) (v : Nat → Nat) (fl : FlagSet) (y : Crew) : Crew :=
  setFstat (putResult y (inCapsule h.crew (hMask h)) w.d w.n (laneMask h w) v) fl

/-! ## Words that combine lanes (R179 to R183, R220, R221) -/

/-- The value of source `k` of those read, in lane `l`. -/
def srcAt (vs : List (Nat → Nat)) (k l : Nat) : Nat := arg (vs.map fun v => v l) k

/-- The crew after a v or s destination of `n` registers has received `v` in the lanes of `m`. -/
def put (d : Opnd) (n : Nat) (m : Mask) (v : Nat → Nat) (y : Crew) : Crew := putDst y false d n m v

/-- The crew after a status or number has been written once for the crew. -/
def putOnce (h : Here) (d : Opnd) (n x : Nat) (y : Crew) : Crew := putDst y false d n (hMask h) fun _ => x

/-! ## Transfers of control (R27, R173, R174) -/

/-- Lanes `t` may leave: all or none of them, or the slot may diverge (R28, R238). -/
abbrev mayTransfer (h : Here) (t : Mask) : Prop :=
  t = 0 ∨ t = hMask h ∨ (h.crew.handler = none ∧ ((slotOf h.crew (1 - h.k)).mask = 0 ∨
    (awaitsHome (slotOf h.crew (1 - h.k)) = false ∧ h.crew.spills.length < Config.stackDepth)))

/-- Lanes `t` have gone to `target`; the rest continue at `stay`. -/
def transferred (s : State) (h : Here) (t : Mask) (target stay : DWord) : State :=
  if t = 0 then nextWord s h else if t = hMask h then jumpTo s h target else diverge s h t target stay

/-- The lanes taken, their per-lane targets `f` given: those of the lowest taken lane's target go now. -/
def transferredTo (s : State) (h : Here) (t : Mask) (f : Nat → DWord) : State :=
  transferred s h (sameTarget t f) (f (lowLane t)) (restPc h t (sameTarget t f))

/-! ## Accesses -/

/-- The word has been performed and changed what `s` holds; it goes on with the next word. -/
def wordOver (s : State) (h : Here) : State := counted h (nextWord s h)

/-- R190: the buffer record of a word, its limits and registers checked. -/
def bufNeeds (h : Here) (x : MemOp) (wr : Bool) : Exec (Option BufRec) := do
  let b ← bufRecE h x wr
  bufPairE h x b
  pure b

/-- What a load needs: its buffer record, and of every lane that makes an access the bytes, or the pieces that are to be
read later; `later` says which. -/
def loadNeeds (h : Here) (x : MemOp) (md : LoadMode) (m : Mask) (later : List Piece → Exec Bool) :
    Exec (Option BufRec × Gather) := do
  let b ← bufNeeds h x false
  let g ← gatherE h x b md m later
  pure (b, g)

/-- What an `LDS` needs: of every lane that makes an access the bytes, or the pieces that are to be read later. -/
def stashNeeds (h : Here) (x : MemOp) (m : Mask) : Exec (Option BufRec × Gather) := do
  let g ← gatherStashE h x m
  pure (none, g)

/-- The lane, address and bytes of each active lane's `STS`. -/
def stashStores (s : State) (h : Here) (x : MemOp) (m : Mask) : List LaneStore :=
  (lanesOf m).map fun l => ⟨l, localOff s h x l, leBytes (sizeBytes x.sz) (srcNum s h x.d (sizeRegs x.sz) l)⟩

/-- R189: the load is counted at its arrival counter, which holds its destination registers. -/
def countIssued (x : MemOp) (b : Option BufRec) (ac : Nat) (y : Crew) : Crew :=
  let a := acOf y ac
  { y with acs := y.acs.put ac { a with
      iss := a.iss + 1, regs := (a.regs ++ regCodes x.d (memRegs x b)).eraseDups } }

/-- A load reads, by lanes that need `needs`: with every byte there its destination receives them; else its request sets out for
those still to be read, and its registers wait for them. -/
def loadsBy (i : Instr) (s : State) (h : Here) (x : MemOp) (needs : Exec (Option BufRec × Gather)) : Prop :=
  (activeMask h x.g = 0 → exec i s = .next (wordOver s h)) ∧
  ∀ (b : Option BufRec) (q : Gather) (t : State), activeMask h x.g ≠ 0 → runs needs s (b, q) t →
    (q.pieces = [] → exec i s = .next (wordDone t h
      (landLoad (loadFormOf x b (activeMask h x.g)) (inCapsule h.crew (hMask h)) q.bytes))) ∧
    (q.pieces ≠ [] → exec i s = .next (wordOver
      (addReq (updCrew (loadMesh h q.pieces t) h.b h.c fun y => { y with pending := y.pending ++ regCodes x.d (memRegs x b) })
        (loadReq t h x b (activeMask h x.g) none q)) h))

/-- A store-origin entry is free (R188). -/
abbrev storeRoom (s : State) (h : Here) : Prop := originsUsed s h.blk.core < Config.originEntries

/-- The lines of a range that are still to be done, each translated and treated by `f`. -/
def rangeDone (h : Here) (va n : Nat) (f : RangeLine → Exec Unit) : Exec Unit :=
  (List.range ((va + n - 1) / 128 - va / 128 + 1 - (hSlot h).prog)).forM fun i => do
    let x ← rangeLineE h va ((hSlot h).prog + i)
    f x
    updCrewE h fun y => setSlot y h.k { slotOf y h.k with prog := (hSlot h).prog + i + 1 }

/-- R195: a word over a range of the global window treats every line of it with `f`, and does nothing for no bytes. -/
def overRange (i : Instr) (s : State) (h : Here) (a b : Opnd) (f : Nat → Nat → RangeLine → Exec Unit) : Prop :=
  (srcNum s h b 1 0 = 0 → exec i s = .next (wordOver s h)) ∧
  ∀ t, srcNum s h b 1 0 ≠ 0 → globalRange (srcNum s h a 2 0) (srcNum s h b 1 0) = true →
    runs (rangeDone h (srcNum s h a 2 0) (srcNum s h b 1 0) (f (srcNum s h a 2 0) (srcNum s h b 1 0))) s () t →
    exec i s = .next (wordOver t h)

/-- The lanes of an atomic: whose access each is, its address, and what it does to the old value. -/
def atomLanes (s : State) (h : Here) (x : AtomOpnds) (m : Mask) : List AtomLane :=
  (accessLanes x.d m).map fun l => ⟨l, Machine.laneMask x.d m l, srcNum s h x.a 2 l, fun old =>
    atomNew x.op x.ty old (srcNum s h x.b (atomRegs x.ty) l) (srcNum s h x.c (atomRegs x.ty) l)⟩

/-- The lanes of a `RED`. -/
def redLanes (s : State) (h : Here) (x : RedMemOp) (m : Mask) : List AtomLane :=
  (lanesOf m).map fun l => ⟨l, laneBit l, srcNum s h x.a 2 l, fun old =>
    atomNew (redAtom x.op) x.ty old (srcNum s h x.b (atomRegs x.ty) l) 0⟩

/-- How a `RED` orders: it is no acquire; with `.rel` a release at its scope. -/
def redSem (x : RedMemOp) : AtomSem := ⟨false, .plain, if x.rel then some x.scope else none⟩

/-- R194: the address that a lane of a `PREF` names. -/
def prefVa (s : State) (h : Here) (x : PrefOp) (l : Nat) : Nat :=
  wrapTo 64 ((srcNum s h x.a 2 l : Int) + intOf true 32 (srcNum s h x.b 1 l))

/-- A barrier object can be reached: its core is the slot's own or the mesh has tokens, and the lanes' earlier accesses to its
bytes are performed (R88, R338). -/
abbrev barReady (s : State) (h : Here) (core off : Nat) : Prop :=
  (core = h.blk.core ∨ tokensFor s (dieOfCore h.blk.core) = true) ∧
    (accsOf (stashPa core off) 32 0 (hMask h)).any (mustWait s h.b h.c none) = false

/-- The object is read: what was read ahead of its line serves the crew no more. -/
def barSeen (s : State) (h : Here) (core off : Nat) : State := updCrew s h.b h.c (forgetLines (stashLines core off 32))

/-- R199: what a WAIT of the object does at issue, in the state `t` in which the object may be read: with its condition
met it ends; else the slot waits. -/
def waits (i : Instr) (s t : State) (h : Here) (pd : Fin 8) (c : Option Opnd) (o : WaitObj) : Prop :=
  (waitHolds t h.blk h.crew o = true → exec i s = .next (counted h (endWait t h o pd.val true))) ∧
  (waitHolds t h.blk h.crew o = false → exec i s = .next (counted h (startWait t h o pd (deadlineOf t h c))))

/-- Entries of the mooring table without modified lines are dropped: their registrations are released at their homes. -/
def droppedEntries (s : State) (core : Nat) (es : List Nat) : State :=
  es.foldl (fun s e => dropEntry s core e)
    ((registeredLines s core es).foldl (fun s x => askHomes s core (mlineHomes x)) s)

/-- R204: a tile copy issues: its descriptor lies in the stash at `p`, aligned, within its limits, naming windows that
exist; the engine has room and the crew's earlier accesses are performed. -/
def tileIssues (s t : State) (h : Here) (a : Opnd) (q : Bool) (p : Nat × Nat) : Prop :=
  openCopies s h.b h.c < 64 ∧ srcNum s h a 1 0 % 64 = 0 ∧ srcNum s h a 1 0 + 64 ≤ h.blk.kern.stash ∧
  runs (stashE h (.loc (srcNum s h a 1 0)) (srcNum s h a 1 0) 64 false (hMask h)) s p t ∧
  tileOk (numAt t (.stash p.1 p.2) 64) h.blk.kern.stash q = true ∧
  (∀ e ∈ tileAccesses (tileOf (numAt t (.stash p.1 p.2) 64) q), routeOf e.2.1 e.2.2 ≠ .bad) ∧
  outstanding t h.b h.c (hMask h) = false

/-- R251: the unit's queue has room. -/
abbrev unitRoom (s : State) (h : Here) : Prop := unitHeld (unitOf s h.blk.core (partOf h)) < Config.matrixQueue

/-- R277: a lane may ask for a capsule: capsules are allowed, one lane is active, its crew holds none and asks for none. -/
abbrev mayAsk (s : State) (h : Here) : Prop :=
  nbit (flagsOf s h.blk) 1 = true ∧ h.crew.holding = none ∧ popMask (hMask h) = 1 ∧
    awaitsHome (slotOf h.crew (1 - h.k)) = false

/-- R277: a lane in capsule mode may commit. -/
abbrev mayCommit (s : State) (h : Here) (k : Holding) : Prop :=
  nbit (flagsOf s h.blk) 1 = true ∧ h.crew.holding = some k ∧ inCapsule h.crew (hMask h) = true

/-- What a commit waits for: no commit or close of the lane on its way, its accesses performed, a slot towards the record's
home; a displaced lane waits for nothing. -/
abbrev commitFree (s : State) (h : Here) (k : Holding) : Prop :=
  k.displaced = false → closingOut s h.b h.c = false ∧ outstanding s h.b h.c (hMask h) = false ∧
    sendTo s h.blk.core (sliceOf (128 * k.line)) = true

/-! ## Steps of the module itself -/

/-- The same state, but for steps that it adds to those to come. -/
def onlyMoreToCome (s t : State) : Prop := ∃ ev, t = { s with agenda := s.agenda ++ ev }

/-- R27: a spilled path in a slot. -/
def poppedSlot (s : State) (y : Crew) (p : Spill) : Slot :=
  { emptySlot with
    pc := p.pc, mask := p.mask, st := poppedSt y p.mask, region := p.region, age := p.age, readyAt := s.clock, due := p.due
    emit := p.emit }

/-! ## What can be seen of a state -/

/-- The bytes of a place. -/
def bytesAt (s : State) (p : Place) (n : Nat) : List Byte := readPlace s p n

/-- The register v`k` of the issuing crew in lane `l`. -/
def laneReg (s : State) (h : Here) (k l : Nat) : Word :=
  match crewOf s h.b h.c with
  | some y => readV y k l
  | none => 0

/-- A slot of a crew of a block. -/
def slotAt (s : State) (r : SlotRef) : Option Slot := (crewOf s r.blk r.crew).map fun y => slotOf y r.slot

/-- The records that wait in a die's quay island. -/
def waitingRecs (s : State) (die : Nat) : List FRec := (dieOf s die).waiting

/-- Blocks of a launch keep records that their saves have not posted yet. -/
def keepsRecs (s : State) (launch : Nat) : Prop :=
  ∃ b ∈ blocksOfLaunch s launch, ∃ x, s.blocks.find b = some x ∧ x.recs ≠ []

/-- The grid of the issuing block has been ended with error: one record, which meets `P`, is posted at once with ENDED
set, and after it, with ENDED too, those that blocks of the grid kept for their saves (R232, R237, R239; log 18). -/
def gridEnded (s t : State) (h : Here) (P : FRec → Prop) : Prop :=
  (∀ l, s.launches.find h.blk.launch = some l → ∃ l', t.launches.find h.blk.launch = some l' ∧ l'.error = true) ∧
  (∀ die, die ≠ dieOfCore h.blk.core → ∃ more, waitingRecs t die = waitingRecs s die ++ more ∧
    (∀ q ∈ more, nbit q.flags 6 = true) ∧ (¬ keepsRecs s h.blk.launch → more = [])) ∧
  ∃ r more, waitingRecs t (dieOfCore h.blk.core) = waitingRecs s (dieOfCore h.blk.core) ++ r :: more ∧
    (∀ q ∈ more, nbit q.flags 6 = true) ∧ (¬ keepsRecs s h.blk.launch → more = []) ∧ nbit r.flags 6 = true ∧ P r

/-! ## What a word's lanes receive -/

/-- The word gives each active lane what `f` makes of the crew at issue, the lane and its sources, and sets FSTAT as all of
them together. -/
def lanesGive (i : Instr) (w : LaneShape) (f : Crew → Nat → List Nat → Nat × FlagSet) : Prop :=
  ∀ (s : State) (h : Here), passes i s h →
    completesBy i s h (laneMask h w) (readSrcsE h (laneMask h w) w.srcs) fun vs =>
      laneResult h w (fun l => (f h.crew l (vs.map fun v => v l)).1)
        (lanesFlags (laneMask h w) fun l => (f h.crew l (vs.map fun v => v l)).2)

/-- The word gives each active lane a value that `P` relates to its sources, and sets no flag. -/
def lanesMeet (i : Instr) (w : LaneShape) (P : List Nat → Nat → Prop) : Prop :=
  ∃ f : List Nat → Nat, (∀ vs, P vs (f vs)) ∧ lanesGive i w fun _ _ vs => (f vs, 0)

/-- The word gives each active lane a value and flags that `P` relates to its sources. -/
def lanesHold (i : Instr) (w : LaneShape) (P : List Nat → Nat × FlagSet → Prop) : Prop :=
  ∃ f : List Nat → Nat × FlagSet, (∀ vs, P vs (f vs)) ∧ lanesGive i w fun _ _ vs => f vs

/-- The `w`-bit pattern of an integer. -/
def patOf (w : Nat) (z : Int) : Nat := (z % 2 ^ w).toNat

/-- R147: with SAT an integer outside the type's range becomes its nearest bound, and SAT is set. -/
def saturated (ty : IntTy) (sat : Bool) (z : Int) : Nat × FlagSet :=
  let lo : Int := if intSigned ty then -(2 ^ (tyBits ty - 1)) else 0
  let hi : Int := if intSigned ty then 2 ^ (tyBits ty - 1) - 1 else 2 ^ tyBits ty - 1
  if sat = true ∧ z < lo then (patOf (tyBits ty) lo, flagSat)
  else if sat = true ∧ hi < z then (patOf (tyBits ty) hi, flagSat)
  else (patOf (tyBits ty) z, 0)

/-- The integers that the sources denote. -/
def val (ty : IntTy) (vs : List Nat) (k : Nat) : Int := valTy ty (arg vs k)

/-- A word with a destination and sources of one width. -/
def shape (g : Guard) (d : Opnd) (n : Nat) (os : List Opnd) : LaneShape := ⟨g, d, n, os.map fun o => (o, n)⟩

/-- The value of a pattern of a format whose exponent has no upper limit (R107). -/
def patVal (f : FF) (p : Nat) : ℚ :=
  if p / 2 ^ f.mb = 0 then (p : ℚ) * (2 : ℚ) ^ ffMin f
  else ((2 ^ f.mb + p % 2 ^ f.mb : Nat) : ℚ) * (2 : ℚ) ^ (ffMin f + (p / 2 ^ f.mb : Nat) - 1)

/-- The exact value of n / d × 2^e. -/
def ratio (n d : Nat) (e : Int) : ℚ := (n : ℚ) / d * (2 : ℚ) ^ e

/-- The rational m × 2^e. -/
def dyVal (x : Dy) : ℚ := (x.m : ℚ) * (2 : ℚ) ^ x.e

/-- Bits [w × k + w − 1 : w × k] of a pattern. -/
def part (w k x : Nat) : Nat := x / 2 ^ (w * k) % 2 ^ w

/-- R112, R113: `k` is the integer that x ≥ 0 rounds to: toward zero, or the nearest, of two as near the even one. -/
def roundsTo (rz : Bool) (x : ℚ) (k : Nat) : Prop :=
  if rz then (k : ℚ) ≤ x ∧ x < k + 1 else |x - k| ≤ 1 / 2 ∧ (|x - k| = 1 / 2 → k % 2 = 0)

/-- R112, R113: an integer held to the range of `w` bits, and SAT where it lies outside. -/
def clamped (signed : Bool) (w : Nat) (z : Int) : Nat × FlagSet :=
  let lo : Int := if signed then -(2 ^ (w - 1)) else 0
  let hi : Int := if signed then 2 ^ (w - 1) - 1 else 2 ^ w - 1
  if z < lo then (patOf w lo, flagSat) else if hi < z then (patOf w hi, flagSat) else (patOf w z, 0)

/-- R112, R113: `r` is what the value `v` of format `src` becomes in format `dst`, with its flags. -/
def convertsTo (src dst : Fmt) (rz : Bool) (v : FV) (r : Nat × FlagSet) : Prop :=
  let f := ffOf dst
  match v with
  | .nan => r = if fmtFloat dst then (match f.nanPat with
      | some p => (p, 0)
      | none => (0, flagNanz)) else (0, flagNanz)
  | .inf n => r = if fmtFloat dst then
        (if infWidens src dst then (signPat f n (f.infPat.getD f.maxPat), 0) else (signPat f n f.maxPat, flagSat))
      else ((clamped (fmtSigned dst) (fmtBits dst) (if n then -(2 ^ 80) else 2 ^ 80)).1, flagSat)
  | .fin n m e => if fmtFloat dst then
      (let p := roundPat f m 1 e
       r = if p ≤ f.maxPat then (signPat f n p, 0) else (signPat f n f.maxPat, flagSat))
    else ∃ k, roundsTo rz (ratio m 1 e) k ∧ r = clamped (fmtSigned dst) (fmtBits dst) (if n then -(k : Int) else k)

/-- R165: a magnitude, an infinity counting as the greatest finite one. -/
def magnitude (v : FV) : ℚ :=
  match v with
  | .fin _ m e => ratio m 1 e
  | .inf _ => ratio (2 ^ 24 - 1) 1 104
  | .nan => 0

/-- R162: the pattern lies within the bound of `t`, with half a unit in its last place for the one rounding and the error of
`t`; beyond the greatest finite value it is an infinity, with OVF. -/
def approximates (t : Dy) (bd : Int → Dy) (r : Nat × FlagSet) : Prop :=
  match fvOf ffF32 r.1 with
  | .nan => False
  | .fin n m e => r.2 = 0 ∧
    |dyVal (dyOf n m e) - dyVal t| ≤ dyVal (bd e) + (2 : ℚ) ^ (e - 1) + dyVal (slack t)
  | .inf _ => r.2 = flagOvf ∧ (2 : ℚ) ^ (128 : Int) ≤ |dyVal t| + dyVal (bd 104) + (2 : ℚ) ^ (103 : Int) + dyVal (slack t)

/-! ## The crew that a word leaves -/

/-- Register v`k` of lane `l` is of the destination, active. -/
def writesV (h : Here) (w : LaneShape) (k l : Nat) : Prop :=
  ∃ j, w.d = .v j ∧ j ≤ k ∧ k < j + w.n ∧ (laneMask h w).getLsbD l = true

/-- Register s`k` or k`k` is of the destination. -/
def writesK (d : Nat → Opnd) (w : LaneShape) (k : Nat) : Prop := ∃ j, w.d = d j ∧ j ≤ k ∧ k < j + w.n

/-- Status, modes, accumulated counts, the tape and what the crew holds are the same, but for the count of words of a
capsule step. -/
def sameSpecial (y z : Crew) : Prop :=
  z.p = y.p ∧ z.tst = y.tst ∧ z.tctl = y.tctl ∧ z.acs = y.acs ∧ z.pending = y.pending ∧ z.tape = y.tape ∧
    z.copies = y.copies ∧ z.batches = y.batches ∧ z.handler = y.handler ∧
    z.holding.map (fun k => { k with count := 0 }) = y.holding.map (fun k => { k with count := 0 })

/-- The registers, predicates and FSTAT of a crew are the same. -/
def sameRegs (y z : Crew) : Prop := z.v = y.v ∧ z.s = y.s ∧ z.k = y.k ∧ z.p = y.p ∧ z.fstat = y.fstat

/-! ## Decoding -/

/-- The fields of a full-format word, and whether bit 63 is clear (R123). -/
def majorOf (w : DWord) : Nat := w.toNat / 2 ^ 56

/-- R133, rule by rule. -/
def pairBroken (a b : Half) : Prop :=
  (∃ x y, halfDst a = some (.v x) ∧ halfDst b = some (.v y) ∧ x % 4 = y % 4) ∨
  (∃ x, halfDst b = some (.v x) ∧ .v x ∈ (halfDst a).toList ++ halfReads a) ∨
  (∃ x, halfDst a = some (.v x) ∧ .v x ∈ (halfDst b).toList ++ halfReads b) ∨
  (usesChan a = true ∧ usesChan b = true) ∨
  (∃ x y, halfSrc a = some (.s x) ∧ halfSrc b = some (.s y)) ∨
  (isSfu a.op = true ∧ isSfu b.op = true) ∨
  (∃ c pk, halfDst a = some (.chan c pk) ∧ a.op ≠ .mov) ∨
  ∃ c pk, halfDst b = some (.chan c pk) ∧ b.op ≠ .mov

/-- R44: an address whose bits [63:57] are not all as bit 56, or below the global window. -/
def notGlobal (va : Nat) : Prop := (va / 2 ^ 56 ≠ 0 ∧ va / 2 ^ 56 ≠ 255) ∨ va < 0x10000000

/-- A host's access through a port in use, or another module's, to bytes beyond the device memory. -/
def beyondMemory (i : Instr) (s : State) : Prop :=
  (∃ x, i = .hostMemAccess x ∧ portUp s x.port = true ∧ Config.deviceBytes < x.pa + hostLen x) ∨
    ∃ x, i = .crilvonRemoteRequest x ∧ Config.deviceBytes < x.pa + remoteLen x

/-! ## What every step keeps -/

/-- R28, R175, R242: no crew has more than 32 spilled paths or points, and the saved blocks are those that have an image. -/
def crewsLegal (s : State) : Prop :=
  (∀ b c y, crewOf s b c = some y → y.spills.length ≤ Config.stackDepth ∧ y.joins.length ≤ Config.stackDepth) ∧
  ∀ b x, s.blocks.find b = some x → (x.st = .saved ↔ x.image.isSome = true)

/-- R232, R322, R338 to R340: the special registers lie within their ranges. -/
def registersLegal (s : State) : Prop :=
  (∀ d, 4096 ≤ (dieOf s d).eff ∧ (dieOf s d).eff ≤ 34048 ∧ (dieOf s d).left ≤ (dieOf s d).eff ∧ (dieOf s d).tshift ≤ 4 ∧
    (dieOf s d).thrw ≤ 65535) ∧
  (∀ q, nbit (qiOf s q).ctl.toNat 0 = true → 6 ≤ nfield (qiOf s q).ctl.toNat 4 4 ∧ nfield (qiOf s q).ctl.toNat 4 4 ≤ 12 ∧
    1 ≤ nfield (qiOf s q).ctl.toNat 16 13 ∧ nfield (qiOf s q).ctl.toNat 16 13 ≤ 4096) ∧
  1 ≤ s.regs.nextToken ∧ ∀ n w, s.tokens.find n = some w → n ≠ 0 ∧ n < s.regs.nextToken

/-! ## What a word leaves alone -/

/-- The state but for its blocks and the steps to come is the same. -/
def sameButBlocks (s t : State) : Prop := t = { s with blocks := t.blocks, agenda := t.agenda }

/-- Every block but `b`, and of `b` every crew but `c` and every field beside its crews, is the same. -/
def sameOtherCrews (s t : State) (b c : Nat) : Prop :=
  (∀ b', b' ≠ b → t.blocks.find b' = s.blocks.find b') ∧
  ∀ x, s.blocks.find b = some x → ∃ x', t.blocks.find b = some x' ∧ x' = { x with crews := x'.crews } ∧
    ∀ c', c' ≠ c → x'.crews.find c' = x.crews.find c'

/-- Every byte of every place of memory reads as before. -/
def sameBytes (s t : State) : Prop := ∀ p, byteAt t p = byteAt s p

/-- Every byte outside `n` bytes at place `p` reads as before. -/
def sameBytesBut (s t : State) (p : Place) (n : Nat) : Prop :=
  ∀ q, (placeKey q < placeKey p ∨ placeKey p + n ≤ placeKey q) → byteAt t q = byteAt s q

end Sys2Proof
end

