-- ==== Sys2Proof/Certificates/Slice0/Obligations.lean ====
section
/-! DEFINITION. The statements of this model, for the provers. -/

section

open Sys2Proof Sys2Proof.Machine

/-! ## Words complete

Each statement says for some words where they go on: which next state `exec` answers once the checks at issue pass and
what the word reads is there. Every form of a word is meant: any operand, any guard, with or without active lanes. -/

/-- R123, R139: a word that computes lane by lane completes once its sources are read: it writes its destination in the
active lanes, and FSTAT. What it computes is stated apart. With no lane active only the PC moves. -/
def Obligations.LaneWordsComplete : Prop :=
  ∀ (i : Instr) (w : LaneShape) (s : State) (h : Here), laneShape i = some w → passes i s h →
    (laneMask h w = 0 → exec i s = .next (counted h (nextWord s h))) ∧
    ∀ (vs : List (Nat → Nat)) (t : State), laneMask h w ≠ 0 → runs (readSrcsE h (laneMask h w) w.srcs) s vs t →
      ∃ (v : Nat → Nat) (fl : FlagSet), exec i s = .next (wordDone t h (laneResult h w v fl))

/-- R148, R155, R160: `ISETP` and `FSETP` write the predicate that the comparison and the table of the old predicate give
in each active lane; `IADDC` writes the sum modulo 2^32 and its carry. -/
def Obligations.PredicateWordsComplete : Prop :=
  (∀ (x : IsetpOp) (s : State) (h : Here), passes (.isetp x) s h →
    completesBy (.isetp x) s h (activeMask h x.g)
      (readSrcsE h (activeMask h x.g) [(x.a, intRegs x.ty), (x.b, intRegs x.ty)])
      fun vs y => writeP y x.pd.val (activeMask h x.g) (maskOf fun l =>
        predTable h.crew x.tab l (icompare x.cmp (valTy x.ty (srcAt vs 0 l)) (valTy x.ty (srcAt vs 1 l))))) ∧
  (∀ (x : FsetpOp) (s : State) (h : Here), passes (.fsetp x) s h →
    completesBy (.fsetp x) s h (activeMask h x.g) (readSrcsE h (activeMask h x.g) [(x.a, 1), (x.b, 1)])
      fun vs y =>
        let r := fun l => fpCmp x.cmp (fvOf ffF32 (modA ffF32 x.m (srcAt vs 0 l))) (fvOf ffF32 (modB ffF32 x.m (srcAt vs 1 l)))
        setFstat (writeP y x.pd.val (activeMask h x.g) (maskOf fun l => predTable h.crew x.tab l (r l).1))
          (lanesFlags (activeMask h x.g) fun l => (r l).2)) ∧
  ∀ (x : IaddcOp) (s : State) (h : Here), passes (.iaddc x) s h →
    completesBy (.iaddc x) s h (activeMask h x.g) (readSrcsE h (activeMask h x.g) [(x.a, 1), (x.b, 1)])
      fun vs y =>
        let sum := fun l => iaddcSum h.crew x l (srcAt vs 0 l) (srcAt vs 1 l)
        writeP (putResult y (inCapsule h.crew (hMask h)) x.d 1 (activeMask h x.g) fun l => sum l % 2 ^ 32) x.pco.val
          (activeMask h x.g) (maskOf fun l => decide (2 ^ 32 ≤ sum l))

/-- R179 to R183, R196, R220, R221: words that combine the lanes of a crew complete, and write their destination in the
active lanes with what each rule gives. -/
def Obligations.CrossLaneWordsComplete : Prop :=
  (∀ (x : ShflOp) (s : State) (h : Here), passes (.shfl x) s h →
    completes (.shfl x) s h (activeMask h x.g) (put x.d 1 (activeMask h x.g) fun l =>
      srcNum s h x.a 1 (shflLane x.mode (32 / 2 ^ x.seg.val) l (srcNum s h x.b 1 l)))) ∧
  (∀ (g : Guard) (d : Opnd) (pc : Fin 8) (pn : Bool) (s : State) (h : Here), passes (.vote ⟨g, .ballot d, pc, pn⟩) s h →
    completes (.vote ⟨g, .ballot d, pc, pn⟩) s h (activeMask h g) (put d 1 (activeMask h g) fun _ =>
      (voteMask h.crew ⟨g, .ballot d, pc, pn⟩ (activeMask h g)).toNat)) ∧
  (∀ (g : Guard) (md : VoteMode) (pd pc : Fin 8) (pn : Bool) (s : State) (h : Here),
    passes (.vote ⟨g, .pred md pd, pc, pn⟩) s h →
    completes (.vote ⟨g, .pred md pd, pc, pn⟩) s h (activeMask h g) fun y =>
      writeP y pd.val (activeMask h g)
        (if voteResult md (activeMask h g) (voteMask h.crew ⟨g, .pred md pd, pc, pn⟩ (activeMask h g)) then BitVec.allOnes 32
         else 0)) ∧
  (∀ (x : Op1F) (s : State) (h : Here), passes (.matchLanes x) s h →
    completes (.matchLanes x) s h (activeMask h x.g) (put x.d 1 (activeMask h x.g) fun l =>
      (maskOf fun k => (activeMask h x.g).getLsbD k &&
        srcNum s h x.a (widthRegs x.flag) k == srcNum s h x.a (widthRegs x.flag) l).toNat)) ∧
  (∀ (x : RedLaneOp) (s : State) (h : Here), passes (.cred x) s h →
    completes (.cred x) s h (activeMask h x.g) fun y =>
      let r := (treeComb (redComb x.op x.ty) (activeMask h x.g) fun l => srcNum s h x.a (redRegs x.ty) l).getD (0, flagNone)
      setFstat (put x.d (redRegs x.ty) (activeMask h x.g) (fun _ => r.1) y) r.2) ∧
  (∀ (x : RedLaneOp) (s : State) (h : Here), passes (.cscan x) s h →
    completes (.cscan x) s h (activeMask h x.g) fun y =>
      let r := fun l => (seqComb (redComb x.op x.ty) ((scanLanes x.excl (activeMask h x.g) l).map fun k =>
        srcNum s h x.a (redRegs x.ty) k)).getD (redIdentity x.op x.ty, flagNone)
      setFstat (put x.d (redRegs x.ty) (activeMask h x.g) (fun l => (r l).1) y)
        (lanesFlags (activeMask h x.g) fun l => (r l).2)) ∧
  (∀ (x : ActmOp) (s : State) (h : Here), passes (.actm x) s h →
    completes (.actm x) s h (activeMask h x.g) (put x.d 1 (activeMask h x.g) fun _ =>
      (if x.guarded then activeMask h x.g else hMask h).toNat)) ∧
  (∀ (x : Op3) (s : State) (h : Here), passes (.xdec x) s h →
    completes (.xdec x) s h (activeMask h x.g) (put x.d 1 (activeMask h x.g) fun l =>
      if nbit (srcNum s h x.b 1 0) l then
        (if srcNum s h x.c 1 0 + popBelow (srcNum s h x.b 1 0) l < 32 then
          srcNum s h x.a 1 (srcNum s h x.c 1 0 + popBelow (srcNum s h x.b 1 0) l) else 0)
      else 0)) ∧
  (∀ (x : Op1) (s : State) (h : Here), passes (.xbmp x) s h →
    completes (.xbmp x) s h (activeMask h x.g) (put x.d 1 (activeMask h x.g) fun l =>
      popBelow (srcNum s h x.a 1 l) l + if nbit (srcNum s h x.a 1 l) l then 0 else 2 ^ 31)) ∧
  ∀ (x : Op1) (s : State) (h : Here), passes (.mqry x) s h →
    (∀ l, (activeMask h x.g).getLsbD l = true → srcNum s h x.a 1 l < h.blk.kern.stash) →
    completes (.mqry x) s h (activeMask h x.g) (put x.d 1 (activeMask h x.g) fun l =>
      mqryNat s h.blk.core h.b (h.blk.base + srcNum s h x.a 1 l))

/-- R131, R132: both halves of a paired word read all their sources before either writes; then each half's destination,
its FSTAT flags and its stash words are written. -/
def Obligations.PairedWordCompletes : Prop :=
  ∀ (a b : Half) (s : State) (h : Here) (r : Halves) (t : State), passes (.pairedWord a b) s h →
    runs (halvesE h (hMask h) a b) s r t →
    exec (.pairedWord a b) s = .next (wordDone (storeHalf h (hMask h) b r.vb (storeHalf h (hMask h) a r.va t)) h
      fun y => putHalf h (hMask h) b r.rb (putHalf h (hMask h) a r.ra y))

/-- R27, R173, R174, R301: a transfer moves the lanes it takes to their target and leaves the rest at the next word, or at
the transfer itself while lanes with another target are left; a call writes the return address first; `BRA.t` attaches or
writes its record. -/
def Obligations.TransfersComplete : Prop :=
  (∀ (g : Guard) (off : Word) (s : State) (h : Here), passes (.bra g off) s h → mayTransfer h (activeMask h g) →
    exec (.bra g off) s = .next (counted h (transferred s h (activeMask h g) (relTarget h off) (nextPc h)))) ∧
  (∀ (g : Guard) (off : Word) (tag : Byte) (s : State) (h : Here) (q : Tape) (s1 s2 s3 : State),
    passes (.braT g off tag) s h → mayTransfer h (activeMask h g) → runs (tapeFlagE h) s () s1 →
    runs (needTapeE h) s1 q s2 → runs (branchRecordE h tag (activeMask h g)) s2 () s3 →
    exec (.braT g off tag) s = .next (counted h (transferred s3 h (activeMask h g) (relTarget h off) (nextPc h)))) ∧
  (∀ (g : Guard) (a : Opnd) (s : State) (h : Here), passes (.brx g a) s h →
    let f := fun l => relTarget h (BitVec.ofNat 32 (srcNum s h a 1 l))
    mayTransfer h (sameTarget (activeMask h g) f) →
    exec (.brx g a) s = .next (counted h (transferredTo s h (activeMask h g) f))) ∧
  (∀ (g : Guard) (d : Opnd) (off : Word) (s : State) (h : Here), passes (.call g d off) s h →
    mayTransfer h (activeMask h g) →
    exec (.call g d off) s = .next (counted h (transferred
      (updCrew s h.b h.c fun y => if activeMask h g = 0 then y else put d 2 (activeMask h g) (fun _ => (nextPc h).toNat) y)
      h (activeMask h g) (relTarget h off) (nextPc h)))) ∧
  (∀ (g : Guard) (d a : Opnd) (s : State) (h : Here), passes (.callx g d a) s h →
    let f := fun l => BitVec.ofNat 64 (srcNum s h a 2 l)
    let m := sameTarget (activeMask h g) f
    mayTransfer h m →
    exec (.callx g d a) s = .next (counted h (transferredTo
      (updCrew s h.b h.c fun y => if m = 0 then y else put d 2 m (fun _ => (nextPc h).toNat) y) h (activeMask h g) f))) ∧
  ∀ (g : Guard) (a : Opnd) (s : State) (h : Here), passes (.ret g a) s h →
    let f := fun l => BitVec.ofNat 64 (srcNum s h a 2 l)
    let m := sameTarget (activeMask h g) f
    mayTransfer h m →
    exec (.ret g a) s = .next (counted h
      (match h.crew.handler with
       | some hd => if m = hMask h then returnFromHandler s h hd (f (lowLane (activeMask h g)))
                    else transferredTo s h (activeMask h g) f
       | none => transferredTo s h (activeMask h g) f))

/-- R175, R176, R184: `JOIN` records the lanes of its point; `LSER` leaves the lowest lane of its region active, and
`LSEND` runs the region again for the next lane or ends it; `EXIT` ends lanes, and the crew with the last one. Before the
crew's last lane ends, its tape is written out and its top stored. -/
def Obligations.PathWordsComplete : Prop :=
  (∀ (off : Word) (s : State) (h : Here), passes (.join off) s h → h.crew.handler = none → (hSlot h).region = none →
    h.crew.joins.length < Config.stackDepth →
    exec (.join off) s = .next (wordDone s h fun y => { y with joins := ⟨relTarget h off, hMask h, []⟩ :: y.joins })) ∧
  (∀ (s : State) (h : Here), passes .lser s h → h.crew.handler = none → (hSlot h).region = none →
    exec .lser s = .next (wordDone s h fun y => setSlot y h.k { slotOf y h.k with
      mask := laneBit (lowLane (slotOf y h.k).mask)
      region := some ⟨(slotOf y h.k).mask, (slotOf y h.k).mask, nextPc h⟩ })) ∧
  (∀ (s : State) (h : Here) (r : Region), passes .lsend s h → (hSlot h).region = some r →
    outstanding s h.b h.c (hMask h) = false →
    exec .lsend s = .next (counted h (jumpTo
      (updCrew s h.b h.c fun y => setSlot y h.k { lsendSlot (hSlot h) r with pc := hPc h }) h (lsendSlot (hSlot h) r).pc))) ∧
  (∀ (g : Guard) (s : State) (h : Here), passes (.exit g) s h → (hSlot h).region = none → activeMask h g = 0 →
    exec (.exit g) s = .next (counted h (nextWord s h))) ∧
  ∀ (g : Guard) (s s1 t : State) (h : Here), passes (.exit g) s h → (hSlot h).region = none → activeMask h g ≠ 0 →
    runs (orphansE h (activeMask h g)) s () s1 →
    runs (if crewDone (exitLanes h.crew h.k (activeMask h g)) then leaveStreamE h else pure ()) s1 () t →
    ∃ u, exec (.exit g) s = .next (counted h u) ∧
      (activeMask h g ≠ hMask h → onlyMoreToCome
        (nextWord (updCrew t h.b h.c fun y => dropHeld (activeMask h g) (exitLanes y h.k (activeMask h g))) h) u) ∧
      (activeMask h g = hMask h → onlyMoreToCome
        (exitedSlot (updCrew t h.b h.c fun y => dropHeld (activeMask h g) (exitLanes y h.k (activeMask h g))) h) u)

/-- R177, R178, R225: `NOP` has no effect; `YIELD` lets the other slots go first for 64 clocks; `SLEEP` waits its clocks;
`CHKPT` stops the crew while a checkpoint is pending and has no effect else; `BKPT` of an enabled context makes its block
halt, and has no effect else. -/
def Obligations.IdleWordsComplete : Prop :=
  (∀ (g : Guard) (s : State) (h : Here), passes (.nop g) s h → exec (.nop g) s = .next (counted h (nextWord s h))) ∧
  (∀ (g : Guard) (s : State) (h : Here), passes (.yieldSlot g) s h →
    completes (.yieldSlot g) s h (activeMask h g) fun y =>
      setSlot y h.k { slotOf y h.k with yieldTill := s.clock + 64 }) ∧
  (∀ (a : Opnd) (s : State) (h : Here), passes (.sleep a) s h →
    exec (.sleep a) s = .next (counted h (if srcNum s h a 1 0 = 0 then nextWord s h
      else later (waitSlot s h (.sleep (s.clock + srcNum s h a 1 0))) (.sleepExpiry (hRef h))))) ∧
  (∀ (n : BitVec 16) (s : State) (h : Here), passes (.chkpt n) s h →
    exec (.chkpt n) s = .next (counted h (if h.blk.chkptTill.isSome then stopAtChkpt s h n.toNat else nextWord s h))) ∧
  ∀ (g : Guard) (code : BitVec 12) (s : State) (h : Here), passes (.bkpt g code) s h →
    exec (.bkpt g code) s = .next (counted h (if activeMask h g ≠ 0 ∧ bkptOn s (ctxOf s h.blk) = true then
      startHalt s h code.toNat (activeMask h g) else nextWord s h))

/-- R81, R90, R136, R186 to R191: a load completes once every lane's bytes are there: its destination receives them,
sign-extended or converted as its form says, in the lanes active. A load whose pieces are to be read later completes at
issue: its registers wait for it. A split-phase load is counted at its arrival counter and its request sets out. A store
completes once an entry is free, its buffer record read, with `.rel` its lanes' earlier accesses performed, and the stores of
its lanes have set out or been performed. `STS` stores its lanes' bytes, in ascending lane order or as requests of each line,
once every lane's stash lines are ready. -/
def Obligations.LoadStoreWordsComplete : Prop :=
  (∀ (x : MemOp) (s : State) (h : Here), passes (.ld x) s h → loadsBy (.ld x) s h x (loadNeeds h x (modeOf x) (activeMask h x.g) anyTimeE)) ∧
  (∀ (x : MemOp) (s : State) (h : Here), passes (.ldro x) s h → loadsBy (.ldro x) s h x (loadNeeds h x .ro (activeMask h x.g) anyTimeE)) ∧
  (∀ (x : MemOp) (s : State) (h : Here), passes (.lds x) s h →
    loadsBy (.lds x) s h x (stashNeeds h x (activeMask h x.g))) ∧
  (∀ (x : MemOp) (ac : Fin 16) (s : State) (h : Here), passes (.ldsp x ac) s h →
    (activeMask h x.g = 0 → exec (.ldsp x ac) s = .next (wordOver s h)) ∧
    ∀ (b : Option BufRec) (q : Gather) (t : State), activeMask h x.g ≠ 0 → (acOf h.crew ac.val).iss < 255 →
      runs (loadNeeds h x (modeOf x) (activeMask h x.g) fun ps => pure (!ps.isEmpty)) s (b, q) t →
      let u := updCrew t h.b h.c (countIssued x b ac.val)
      exec (.ldsp x ac) s = .next (wordOver (addReq (loadMesh h q.pieces u) (loadReq u h x b (activeMask h x.g) (some ac.val) q)) h)) ∧
  (∀ (x : MemOp) (s : State) (h : Here), passes (.st x) s h →
    (activeMask h x.g = 0 → exec (.st x) s = .next (wordOver s h)) ∧
    ∀ (b : Option BufRec) (rs : List (Option LaneStore × FlagSet)) (s1 s2 t : State), activeMask h x.g ≠ 0 →
      storeRoom s h → runs (bufNeeds h x true) s b s1 →
      (x.sem = true → outstanding s1 h.b h.c (activeMask h x.g) = false) →
      runs ((lanesOf (activeMask h x.g)).mapM (storeLaneE h x b)) s1 rs s2 →
      runs (storeLanesE h (activeMask h x.g) (acqOf x) (rs.filterMap fun r => r.1)) s2 () t →
      exec (.st x) s = .next (wordDone t h fun y => setFstat y (rs.foldl (fun a r => flagOr a r.2) flagNone))) ∧
  ∀ (x : MemOp) (s : State) (h : Here), passes (.sts x) s h →
    (activeMask h x.g = 0 → exec (.sts x) s = .next (wordOver s h)) ∧
    ∀ (ps : List StashStore) (t : State), activeMask h x.g ≠ 0 →
      runs (storeStashE h (fun p => .loc p.va) (stashStores s h x (activeMask h x.g))) s ps t →
      exec (.sts x) s = .next (wordOver (putStashes h (activeMask h x.g) none ps t) h)

/-- R91, R192: an atomic reads, changes and writes its lanes' places in ascending lane order and gives each lane the old
value; `RED` gives none, and is performed when it issues or, as a request, later. With `.rel` the lanes' earlier accesses come
first. -/
def Obligations.AtomicsComplete : Prop :=
  (∀ (x : AtomOpnds) (s : State) (h : Here), passes (.atom x) s h →
    (activeMask h x.g = 0 → exec (.atom x) s = .next (wordOver s h)) ∧
    ∀ (olds : List (Nat × Nat)) (t : State), activeMask h x.g ≠ 0 →
      (x.sem.rel = true → outstanding s h.b h.c (activeMask h x.g) = false) →
      runs (atomLanesE h (4 * atomRegs x.ty) (atomSem x) (atomLanes s h x (activeMask h x.g))) s olds t →
      exec (.atom x) s = .next (wordDone t h (put x.d (atomRegs x.ty) (activeMask h x.g) fun l => Table.getD olds l 0))) ∧
  ∀ (x : RedMemOp) (s : State) (h : Here), passes (.red x) s h →
    (activeMask h x.g = 0 → exec (.red x) s = .next (wordOver s h)) ∧
    (activeMask h x.g ≠ 0 → (x.rel = true → outstanding s h.b h.c (activeMask h x.g) = false) →
      ∃ (late : Bool) (u : State), u = { s with free := u.free } ∧
        (late = false → ∀ (olds : List (Nat × Nat)) (t : State),
          runs (atomLanesE h (4 * atomRegs x.ty) (redSem x) (redLanes s h x (activeMask h x.g))) u olds t →
          exec (.red x) s = .next (wordOver t h)) ∧
        (late = true → ∀ (ps : List RedPiece) (t : State),
          runs ((lanesOf (activeMask h x.g)).mapM (redPieceE h x)) u ps t →
          exec (.red x) s = .next (wordOver (redLater t h (activeMask h x.g) (redSem x).rel ps) h)))

/-- R193 to R195, R61, R89: a fence completes when its lanes' earlier accesses are performed, and acquires within its scope
what they have read; `FENCE.ro` gives the crew a new mark; `PREF` is performed for each active lane; `CWB` and `CINV` do
nothing for no bytes, and else treat every line of a range of the global window: within a fleet at the core, beyond it at
the line's home; what was read ahead of a line that `CINV` treats serves no more. -/
def Obligations.FencesComplete : Prop :=
  (∀ (sc : Scope) (s : State) (h : Here), passes (.fence sc) s h → outstanding s h.b h.c (hMask h) = false →
    exec (.fence sc) s = .next (wordOver (fenceDone s h.b h.c (hMask h) sc) h)) ∧
  (∀ (s : State) (h : Here), passes .fenceRo s h →
    exec .fenceRo s = .next (wordDone { s with nextId := s.nextId + 1 } h fun y => { y with roMark := s.nextId })) ∧
  (∀ (x : PrefOp) (s : State) (h : Here), passes (.pref x) s h →
    exec (.pref x) s = .next (wordOver
      ((lanesOf (activeMask h x.g)).foldl (fun u l => prefLane u h x.l2 (prefVa s h x l)) s) h)) ∧
  (∀ (a b : Opnd) (sc : Scope) (s : State) (h : Here), passes (.cwb a b sc) s h →
    (nearScope sc = true → overRange (.cwb a b sc) s h a b fun va n x => do
      let u ← getE
      flushE h h.blk.core (mooredIn u h.blk.core va (va + n) x)) ∧
    (nearScope sc = false → overRange (.cwb a b sc) s h a b fun _ _ x => homeCleanE h false (sc == .sys) false x)) ∧
  ∀ (a b : Opnd) (sc : Scope) (s : State) (h : Here), passes (.cinv a b sc) s h →
    (nearScope sc = true → overRange (.cinv a b sc) s h a b fun _ _ x => do
      updCrewE h (forgetLines [lineNo x.pa])
      modifyE fun u => dropL1 u h.blk.core (lineNo x.pa)) ∧
    (nearScope sc = false → overRange (.cinv a b sc) s h a b fun _ _ x => do
      updCrewE h (forgetLines [lineNo x.pa])
      homeCleanE h true true true x)

/-- R50, R78, R196: `MOOR` gives its status: 5 for a record outside its limits, 4 for a footprint another entry shares, 3 for a
full table, 1 with the index of an equal entry, which the block then owns, and else, once the entries in its way are
written back and dropped, their releases finding slots, 0 or 2 with the index of its new entry. `UNMOOR` of an entry that the
block does not own gives 1; of its own it gives 0 and drops the entry, written back first with `.wb`; `MWB` writes back the
modified lines of the block's entries in a range and gives their number. Both wait for request slots towards the homes. -/
def Obligations.MooringWordsComplete : Prop :=
  (∀ (d a : Opnd) (s : State) (h : Here), passes (.moor d a) s h →
    (srcNum s h a 2 0 % 32 ≠ 0 → exec (.moor d a) s = .next (wordDone s h (putOnce h d 1 5))) ∧
    ∀ (bs : List Byte) (t : State), srcNum s h a 2 0 % 32 = 0 → runs (loadBytesE h (hMask h) (srcNum s h a 2 0) 32 .plain) s bs t →
      let r := moorRecOf (leNat bs)
      let base := h.blk.base + r.lbase
      (moorRecOk r (leNat bs) h.blk.kern.stash = false → exec (.moor d a) s = .next (wordDone t h (putOnce h d 1 5))) ∧
      (moorRecOk r (leNat bs) h.blk.kern.stash = true →
        (moorPlan (coreOf t h.blk.core) r base = .aliased → exec (.moor d a) s = .next (wordDone t h (putOnce h d 1 4))) ∧
        (moorPlan (coreOf t h.blk.core) r base = .full → exec (.moor d a) s = .next (wordDone t h (putOnce h d 1 3))) ∧
        (∀ i, moorPlan (coreOf t h.blk.core) r base = .reuse i →
          exec (.moor d a) s = .next (wordDone (ownEntry t h.blk.core i h.b) h (putOnce h d 1 (1 + 8 * i)))) ∧
        ∀ lost room i, moorPlan (coreOf t h.blk.core) r base = .make lost room →
          readyToDrop t h.blk.core (lost ++ room.toList) = true →
          let u := droppedEntries t h.blk.core (lost ++ room.toList)
          freeIndex (coreOf u h.blk.core) = some i →
          exec (.moor d a) s = .next (wordDone
            (makeEntry u h.blk.core i r base (some h.b) (ctxOf u h.blk)) h
            (putOnce h d 1 ((if lost.isEmpty then 0 else 2) + 8 * i))))) ∧
  (∀ (d a : Opnd) (wb : Bool) (s : State) (h : Here), passes (.unmoor d a wb) s h →
    (ownsEntry s h.blk.core (srcNum s h a 1 0) h.b = false →
      exec (.unmoor d a wb) s = .next (wordDone s h (putOnce h d 1 1))) ∧
    (ownsEntry s h.blk.core (srcNum s h a 1 0) h.b = true →
      (wb = true → unflushed s h.blk.core (srcNum s h a 1 0) = false) →
      (wb = false → anyWbk s h.blk.core (srcNum s h a 1 0) = false) →
      releaseBusy s h.blk.core [srcNum s h a 1 0] = none →
      exec (.unmoor d a wb) s = .next (wordDone (droppedEntries s h.blk.core [srcNum s h a 1 0]) h (putOnce h d 1 0)))) ∧
  ∀ (d a b : Opnd) (s : State) (h : Here), passes (.mwb d a b) s h →
    let lo := h.blk.base + srcNum s h a 1 0
    let n := srcNum s h b 1 0
    let ls := if n = 0 then [] else dirtyLines s h.blk.core h.b lo (lo + n)
    let xs := ls.map fun p => mlineOf s h.blk.core p.1 p.2
    (∀ x ∈ xs, ∀ g ∈ mlineHomes x, versioned s g = false) → (∀ x ∈ xs, homesBusy s h.blk.core x = none) →
    exec (.mwb d a b) s = .next (wordDone (ls.foldl (fun u p => flushLine u h.blk.core p.1 p.2)
      (xs.foldl (fun u x => askHomes u h.blk.core (mlineHomes x)) s)) h (putOnce h d 1 ls.length))

/-- R197, R198: `BINIT` writes an object with phase 0 and the targets given; `BARV` credits arrivals, with the object's
phase plus 1 as its result, once the crew's earlier accesses are performed; `BPAR` reads the phase's parity. -/
def Obligations.BarrierWordsComplete : Prop :=
  (∀ (a b : Opnd) (c : Option Opnd) (s : State) (h : Here) (core off : Nat), passes (.binit a b c) s h →
    barAt s h (srcNum s h a 1 0) = some (core, off) → barReady s h core off →
    let t := barSeen s h core off
    let n := srcNum t h b 1 0
    let k := (c.map fun o => srcNum t h o 1 0).getD 0
    (readBar t core off).waitm = 0 → (n ≠ 0 ∨ k ≠ 0) →
    exec (.binit a b c) s = .next (wordOver
      { writeBar (meshSent h core t) core off ⟨0, n, k, 0, 0, 0⟩ with bars := t.bars.drop (barKey core off) } h)) ∧
  (∀ (d a b : Opnd) (s : State) (h : Here) (core off : Nat), passes (.barv d a b) s h →
    barAt s h (srcNum s h a 1 0) = some (core, off) → barReady s h core off →
    let t := barSeen s h core off
    barOk t core off = true → ((readBar t core off).arrt ≠ 0 ∨ (readBar t core off).bytt ≠ 0) → outstanding t h.b h.c (hMask h) = false →
    exec (.barv d a b) s = .next (wordDone
      (creditBar (meshSent h core t) core off (srcNum t h b 1 0) 0 (timeOf t h.b h.c)) h
      (putOnce h d 1 (((readBar t core off).phase + 1) % 2 ^ 32)))) ∧
  ∀ (pd : Fin 8) (a : Opnd) (s : State) (h : Here) (core off : Nat), passes (.bpar pd a) s h →
    barAt s h (srcNum s h a 1 0) = some (core, off) → barReady s h core off →
    let t := barSeen s h core off
    barOk t core off = true → exec (.bpar pd a) s = .next (wordDone (meshSent h core t) h fun y =>
      writeP y pd.val (hMask h) (if nbit (readBar t core off).phase 0 then BitVec.allOnes 32 else 0))

/-- R199: outside handler mode a WAIT on an object that the rules allow ends at once, its predicate set, when its
condition is met, and else leaves its slot waiting with its deadline. -/
def Obligations.WaitsComplete : Prop :=
  (∀ (pd : Fin 8) (a b : Opnd) (c : Option Opnd) (s : State) (h : Here) (core off : Nat),
    passes (.waitBar pd a b c) s h → h.crew.handler = none → barAt s h (srcNum s h a 1 0) = some (core, off) →
    barReady s h core off → barOk (barSeen s h core off) core off = true →
    waits (.waitBar pd a b c) s (barSeen s h core off) h pd c
      (.bar core off (BitVec.ofNat 32 (srcNum (barSeen s h core off) h b 1 0)))) ∧
  (∀ (pd : Fin 8) (a b : Opnd) (c : Option Opnd) (s t : State) (h : Here),
    passes (.waitBmp pd a b c) s h → h.crew.handler = none → srcNum s h a 2 0 % 4 = 0 →
    runs (bmpReadyE h (srcNum s h a 2 0)) s () t →
    waits (.waitBmp pd a b c) s t h pd c
      (.bmp (BitVec.ofNat 64 (srcNum s h a 2 0)) (BitVec.ofNat 32 (srcNum s h b 1 0)))) ∧
  (∀ (pd : Fin 8) (n : Fin 16) (c : Option Opnd) (s : State) (h : Here),
    passes (.waitAc pd n c) s h → h.crew.handler = none → waits (.waitAc pd n c) s s h pd c (.ac n.val)) ∧
  ∀ (pd : Fin 8) (a b : Opnd) (c : Option Opnd) (s : State) (h : Here) (o : WaitObj),
    passes (.waitTl pd a b c) s h → h.crew.handler = none →
    counterOf s h (srcNum s h a 1 0) (srcNum s h b 2 0) = some o → waits (.waitTl pd a b c) s s h pd c o

/-- R201 to R207: a copy completes at issue: it takes its number, which D receives, and its landings are to come. `CPY`
needs addresses aligned to its size in windows that exist; a tile copy a descriptor within its limits. -/
def Obligations.CopiesComplete : Prop :=
  (∀ (x : CpyOp) (s : State) (h : Here), passes (.cpy x) s h →
    let m := activeMask h x.g
    let n := 4 * 2 ^ x.sz.val
    let es := (lanesOf m).map fun l => (srcNum s h x.a 2 l, srcNum s h x.b 2 l)
    let bar := if m = 0 then none else x.bar.map fun c => srcNum s h c 1 0
    openCopies s h.b h.c < 64 → outstanding s h.b h.c m = false →
    (∀ v, bar = some v → v % 32 = 0 ∧ v + 32 ≤ h.blk.kern.stash) →
    (∀ e ∈ es, e.1 % n = 0 ∧ e.2 % n = 0 ∧ routeOf e.1 n ≠ .bad ∧ routeOf e.2 n ≠ .bad) →
    exec (.cpy x) s = .next (wordOver (issueCopy s h x.d m (.lanes es n bar)) h)) ∧
  (∀ (d a : Opnd) (s t : State) (h : Here) (p : Nat × Nat), passes (.cpyt d a) s h → tileIssues s t h a false p →
    exec (.cpyt d a) s = .next (wordOver (issueCopy t h d (hMask h) (.tile (tileOf (numAt t (.stash p.1 p.2) 64) false))) h)) ∧
  ∀ (d a : Opnd) (s t : State) (h : Here) (p : Nat × Nat), passes (.cpyq d a) s h → tileIssues s t h a true p →
    exec (.cpyq d a) s = .next (wordOver (issueCopy t h d (hMask h) (.tile (tileOf (numAt t (.stash p.1 p.2) 64) true))) h)

/-- R209 to R213: `SEND` and `MCAST` complete at issue while fewer than 8 messages of the crew are open and the lanes'
earlier accesses are performed: the message sets out to its ranks, with no lane active one whose lanes are all 0. A
multicast to no rank gives 0 at once. `REDP.arm` gives 1 for a descriptor misaligned (the model's choice, log 89) or outside
its limits, 2 while a round is in flight, and else 0 and the armature is armed; a contribution gives its round. -/
def Obligations.MessageWordsComplete : Prop :=
  (∀ (x : SendOp) (s : State) (h : Here), passes (.send x) s h → openMsgs s h.b h.c < 8 →
    outstanding s h.b h.c (activeMask h x.g) = false →
    exec (.send x) s = .next (wordOver (startMsg s h x false [srcNum s h x.a 1 0] (activeMask h x.g)) h)) ∧
  (∀ (x : SendOp) (s : State) (h : Here), passes (.mcast x) s h → outstanding s h.b h.c (activeMask h x.g) = false →
    (maskRanks (srcNum s h x.a 1 0) = [] → exec (.mcast x) s = .next (wordDone s h (putOnce h x.d 1 0))) ∧
    (maskRanks (srcNum s h x.a 1 0) ≠ [] → openMsgs s h.b h.c < 8 →
      exec (.mcast x) s = .next (wordOver
        (startMsg s h x true (maskRanks (srcNum s h x.a 1 0)) (activeMask h x.g)) h))) ∧
  (∀ (d a : Opnd) (id : Fin 4) (s : State) (h : Here), passes (.redpArm d a id) s h →
    (srcNum s h a 1 0 % 64 ≠ 0 → exec (.redpArm d a id) s = .next (wordDone s h (putOnce h d 1 1))) ∧
    ∀ (p : Nat × Nat) (t : State), srcNum s h a 1 0 % 64 = 0 →
      runs (stashE h (.loc (srcNum s h a 1 0)) (srcNum s h a 1 0) 64 false (hMask h)) s p t →
      (armOk (numAt t (.stash p.1 p.2) 64) h.blk.kern.fleet h.blk.kern.stash = false →
        exec (.redpArm d a id) s = .next (wordDone t h (putOnce h d 1 1))) ∧
      (armOk (numAt t (.stash p.1 p.2) 64) h.blk.kern.fleet h.blk.kern.stash = true → armTaken t h id.val = true →
        exec (.redpArm d a id) s = .next (wordDone t h (putOnce h d 1 2))) ∧
      (armOk (numAt t (.stash p.1 p.2) 64) h.blk.kern.fleet h.blk.kern.stash = true → armTaken t h id.val = false →
        exec (.redpArm d a id) s = .next (wordDone
          (beginArm t h id.val (armOfBytes (numAt t (.stash p.1 p.2) 64) h.blk.launch h.blk.fleet id.val)) h (putOnce h d 1 0)))) ∧
  ∀ (d a : Opnd) (id : Fin 4) (s : State) (h : Here) (arm : Arm), passes (.redpContribute d a id) s h →
    armOf s h.blk.launch h.blk.fleet id.val = some arm → h.blk.rank < arm.nrank → rootRetired s arm = false →
    armatureOpen s h.blk id.val = true → outstanding s h.b h.c (hMask h) = false →
    exec (.redpContribute d a id) s = .next (wordDone
      (contribute s h id.val ((List.range 32).map (contributed s h a arm))) h
      (putOnce h d 1 (h.blk.rounds.getD id.val 0)))

/-- R216 to R219, R39: with its lanes' earlier accesses performed `REMIT` writes the records of the lanes that find a
slot, of a word that a path took up again those that have not emitted; with lanes left over its slot is PARKED. `RADV` of crew 0 of a node's block frees the records of its batch that have
been popped. -/
def Obligations.RecordWordsComplete : Prop :=
  (∀ (g : Guard) (i : Fin 16) (a : Opnd) (s : State) (h : Here) (id r : Nat) (w : Slipway), passes (.remit g i a) s h →
    (slipsOf s h)[i.val]? = some id → regCode a = some r → s.slipways.find id = some w →
    r % min (w.size / 4) 4 = 0 → r + w.size / 4 ≤ h.blk.kern.vregs →
    runs (regsReadyE h ((List.range (w.size / 4)).map fun i => r + i)) s () s →
    outstanding s h.b h.c (activeMask h g) = false →
    let m := activeMask h g &&& unslotted (hSlot h)
    (m = 0 → exec (.remit g i a) s = .next (wordOver s h)) ∧
    ∀ (left : Mask) (tw : Nat) (t : State), m ≠ 0 →
      emit s h.blk h.crew (timeOf s h.b h.c) id r m = .ok ((left, tw), t) →
      exec (.remit g i a) s = .next (if left = 0 then wordOver (raiseT t h.b h.c tw) h
        else counted h (parkSlot (raiseT t h.b h.c tw) h id r left))) ∧
  ∀ (s : State) (h : Here), passes .radv s h → h.c = 0 → h.blk.kern.node = true →
    exec .radv s = .next (wordOver (freePopped s h) h)

/-- R248 to R266: loads of the weight plane, its swap and the codebook's load enter the unit's queue in unit order, while
it has room; a load's bytes must be there. The decode tags follow at issue. `MZERO`, `MMA`, `MRD` and `MST` enter the queue
likewise, their bytes of the stash being there; an `MMA` needs a legal pair of formats, and with no lane active enters it too.
`MFENCE` enters the queue, closes the open batch and gives its number. -/
def Obligations.MatrixWordsComplete : Prop :=
  (∀ (a b : Opnd) (wf : WFmt) (s t : State) (h : Here), passes (.mldw a b wf) s h → 0 < h.blk.kern.tiles →
    let o := low5 (srcNum s h a 1 0)
    let st := low5 (srcNum s h b 1 0)
    runs ((List.range (planeRows wf)).forM fun k => matRangeE h (o + k * st) (planeRow wf) false) s () t →
    unitRoom t h → outstanding t h.b h.c (hMask h) = false →
    exec (.mldw a b wf) s = .next (wordOver
      (retag (enter t h (.load o st wf) (.mldwDone h.blk.core (partOf h))) h fun u => { u with shadowTag := wf }) h)) ∧
  (∀ (d : Opnd) (s : State) (h : Here), passes (.mswap d) s h → 0 < h.blk.kern.tiles → unitRoom s h →
    exec (.mswap d) s = .next (wordDone
      (retag (enter s h (.swap (regCode d)) (.mswapPoint h.blk.core (partOf h))) h fun u =>
        { u with activeTag := u.shadowTag, shadowTag := u.activeTag }) h
      fun y => { y with pending := y.pending ++ (regCode d).toList })) ∧
  (∀ (sb : Nat) (s : State) (h : Here), passes (.mlut sb) s h → 0 < h.blk.kern.tiles → unitRoom s h →
    exec (.mlut sb) s = .next (wordOver
      (enter s h (.lut (codebookOf h.crew sb)) (.mldwDone h.blk.core (partOf h))) h)) ∧
  (∀ (g : Guard) (tile : Fin 8) (s : State) (h : Here), passes (.mzero g tile) s h → tile.val < h.blk.kern.tiles →
    unitRoom s h →
    exec (.mzero g tile) s = .next (wordOver
      (enter s h (.zero (physTile h tile.val)) (.tileOpPoint h.blk.core (partOf h))) h)) ∧
  (∀ (x : MmaOp) (s t : State) (h : Here), passes (.mma x) s h → x.tile.val < h.blk.kern.tiles →
    passLegal (unitOf s h.blk.core (partOf h)).activeTag x.af x.kh = true →
    let off := fun l => rowOff (srcNum s h x.a 1 l)
    runs ((lanesOf (activeMask h x.g)).forM fun l => matRangeE h (off l) (actBytes x.af) false) s () t →
    unitRoom t h → outstanding t h.b h.c (activeMask h x.g) = false →
    exec (.mma x) s = .next (wordOver (enterQuarters t h x (activeMask h x.g) off) h)) ∧
  (∀ (x : MrdOp) (s : State) (h : Here), passes (.mrd x) s h → x.tile.val < h.blk.kern.tiles → unitRoom s h →
    let u := enter s h (.read (physTile h x.tile.val) x.col.val (mrdRegs x.wc) ((regCode x.d).getD 0) (activeMask h x.g))
      (.tileOpPoint h.blk.core (partOf h))
    exec (.mrd x) s = .next (if activeMask h x.g = 0 then wordOver u h
      else wordDone u h fun y => { y with pending := y.pending ++ regCodes x.d (mrdRegs x.wc) })) ∧
  (∀ (x : MstOp) (s s1 s2 t : State) (h : Here), passes (.mst x) s h → x.tile.val < h.blk.kern.tiles →
    let o := low5 (srcNum s h x.a 1 0)
    let st := low5 (srcNum s h x.b 1 0)
    let c := (x.c.map fun k => low5 (srcNum s h k 1 0)).getD 0
    runs (if activeMask h x.g ≠ 0 ∧ x.sc then matRangeE h c 256 false else pure ()) s () s1 →
    runs (if activeMask h x.g ≠ 0 ∧ x.zpe then matRangeE h (c + 256) 256 false else pure ()) s1 () s2 →
    runs ((lanesOf (activeMask h x.g)).forM fun l => matRangeE h (o + l * st) (outBytes x.ofmt) true) s2 () t →
    unitRoom t h → outstanding t h.b h.c (activeMask h x.g) = false →
    exec (.mst x) s = .next (wordOver
      (enter t h (.store (physTile h x.tile.val) o st c x.sc x.zpe x.ofmt (activeMask h x.g) none)
        (.tileOpPoint h.blk.core (partOf h))) h)) ∧
  ∀ (d : Opnd) (s : State) (h : Here), passes (.mfence d) s h → 0 < h.blk.kern.tiles → unitRoom s h →
    exec (.mfence d) s = .next
      (wordDone (enter s h .nothing (.tileOpPoint h.blk.core (partOf h))) h (closeBatch d (hMask h)))

/-- R272, R273, R277, R285 to R291: a lane that may ask for a capsule sends its question to the record's home and its slot
awaits the answer; a commit sends k0 to k15, and a displaced lane leaves with status 5; `CAPSTAT` delivers its closed
slots. -/
def Obligations.CapsuleWordsComplete : Prop :=
  (∀ (x : CapenterOp) (s s1 t : State) (h : Here) (line pa : Nat) (ra sa : Attr), passes (.capenter x) s h → mayAsk s h →
    let l := lowLane (hMask h)
    runs (capRecordE h (srcNum s h x.a 2 l)) s (line, ra) s1 → runs (slotE h (srcNum s h x.b 2 l) .wr 1) s1 (pa, sa) t →
    sendTo t h.blk.core (sliceOf (128 * line)) = true →
    exec (.capenter x) s = .next (ask t h line l ra
      (.enter (askerOf h x.d l (srcNum s h x.a 2 l) ra) pa (lblTarget h x.lbl) (argWords (srcNum s h x.c 4 l))
        (BitVec.ofNat 64 (srcNum s h x.b 2 l)) sa) .enter)) ∧
  (∀ (d a : Opnd) (s t : State) (h : Here) (line : Nat) (ra : Attr), passes (.capadopt d a) s h → mayAsk s h →
    let l := lowLane (hMask h)
    runs (capRecordE h (srcNum s h a 2 l)) s (line, ra) t → sendTo t h.blk.core (sliceOf (128 * line)) = true →
    exec (.capadopt d a) s = .next (ask t h line l ra (.adopt (askerOf h d l (srcNum s h a 2 l) ra)) .adopt)) ∧
  (∀ (d a : Opnd) (s t : State) (h : Here) (rs : List (Nat × Nat)), passes (.capstat d a) s h →
    nbit (flagsOf s h.blk) 1 = true → runs ((lanesOf (hMask h)).mapM (slotLaneE s h a)) s rs t →
    exec (.capstat d a) s = .next (wordDone t h (put d 4 (hMask h) fun l => Table.getD rs l 0))) ∧
  (∀ (lbl : BitVec 12) (s : State) (h : Here) (k : Holding), passes (.capstep lbl) s h → mayCommit s h k → k.step ≠ 63 →
    commitFree s h k →
    exec (.capstep lbl) s = .next (if k.displaced then exitCapsule s h.b h.c 5 else askCommit s h k 0 (lblTarget h lbl))) ∧
  (∀ (s : State) (h : Here) (k : Holding), passes .capexit s h → mayCommit s h k → commitFree s h k →
    exec .capexit s = .next (if k.displaced then exitCapsule s h.b h.c 5 else askCommit s h k 1 0)) ∧
  ∀ (s : State) (h : Here) (k : Holding), passes .capabort s h → mayCommit s h k → commitFree s h k →
    exec .capabort s = .next (if k.displaced then exitCapsule s h.b h.c 5 else askCommit s h k 2 0)

/-- R309, R313 to R316: with the tape flag set, the tape words complete once the descriptor, the stream's records and the
room they need are there: a binding, a record, a record popped into the active lanes, a part of the tape's state. -/
def Obligations.TapeWordsComplete : Prop :=
  (∀ (s s1 s2 t : State) (h : Here), passes .tbindNew s h → runs (tapeFlagE h) s () s → runs (mayRebindE h) s () s1 →
    runs (bindFirstE h) s1 () s2 → runs (leaveStreamE h) s2 () t →
    exec .tbindNew s = .next (wordDone t h fun y => updTape y (bindOwn h))) ∧
  (∀ (a : Opnd) (s s1 s2 t : State) (h : Here), passes (.tbindAt a) s h → runs (tapeFlagE h) s () s →
    runs (mayRebindE h) s () s1 → runs (bindFirstE h) s1 () s2 → srcNum s h a 2 0 % 4 = 0 → runs (leaveStreamE h) s2 () t →
    exec (.tbindAt a) s = .next (wordDone t h fun y => updTape y fun q => { q with bind := .at, top := srcNum s h a 2 0 })) ∧
  (∀ (n : Fin 16) (tag : Byte) (s t : State) (h : Here), passes (.tbindCh n tag) s h → runs (tapeFlagE h) s () s →
    runs (bindFirstE h) s () t →
    exec (.tbindCh n tag) s = .next (wordDone t h fun y => { y with
      chans := y.chans.put n.val ⟨3, (chanOf y n.val).ring, tag, []⟩ })) ∧
  (∀ (x : TrecOp) (s s1 t : State) (h : Here) (q : Tape), passes (.trec x) s h → runs (tapeFlagE h) s () s →
    runs (needTapeE h) s q s1 → runs (recordE h (trecRec s h x)) s1 () t →
    exec (.trec x) s = .next (wordOver t h)) ∧
  (∀ (tag : Byte) (a : Opnd) (s s1 t : State) (h : Here) (q : Tape), passes (.tmark tag a) s h →
    runs (tapeFlagE h) s () s → runs (needTapeE h) s q s1 →
    runs (recordE h (some (tkMark, tag.toNat, false, 0, [srcNum s h a 1 0]))) s1 () t →
    exec (.tmark tag a) s = .next (wordOver t h)) ∧
  (∀ (x : TbackOp) (s : State) (h : Here), passes (.tback x) s h → runs (tapeFlagE h) s () s →
    completesBy (.tback x) s h (activeMask h x.g) (popE h (popKind x.kind) x.tag.toNat x.peek (activeMask h x.g))
      (tbackPut x (activeMask h x.g))) ∧
  (∀ (x : TbpopOp) (s : State) (h : Here), passes (.tbpop x) s h → runs (tapeFlagE h) s () s →
    completesBy (.tbpop x) s h (activeMask h x.g) (popE h tkBr x.tag.toNat x.peek (activeMask h x.g))
      fun q y => writeP y x.pd.val (q.mask &&& activeMask h x.g) (BitVec.ofNat 32 (q.vals.getD 0 0))) ∧
  ∀ (g : Guard) (d : Opnd) (sel : TstatSel) (s : State) (h : Here), passes (.tstat g d sel) s h → runs (tapeFlagE h) s () s →
    (activeMask h g = 0 → exec (.tstat g d sel) s = .next (wordOver s h)) ∧
    ∀ (s1 t : State) (x : Nat), activeMask h g ≠ 0 → runs (bindFirstE h) s () s1 → runs (tstatE h sel) s1 x t →
      exec (.tstat g d sel) s = .next (wordDone t h (put d (tstatRegs sel) (activeMask h g) fun _ => x))

/-- R116, R136, R208, R209, R222 to R225, R327: a read of a special register gives its value in the active lanes; a write
changes FSTAT, TST, TCTL, a channel's binding or a ring as the rules allow; FSTAT is read and written once the slot's earlier
stores and loads that set it are done, and bits that landings set in the same clock stay set; `RESPHASE` sets the phase of its
die. `TLINC` of a timeline of the context raises it at its home, once the crew's earlier accesses are performed and the line
answers; `GETTL` reads a counter, a timeline's value or its error bit. An engine counter has no error bit, and an entry with a
bit set that must be zero is not acted on (R7): what is read of them is free, and only the count of free values moves on
beside the destination (the model's choices, log 80). -/
def Obligations.SpecialWordsComplete : Prop :=
  (∀ (g : Guard) (d : Opnd) (r : Spr) (s : State) (h : Here), passes (.movspr g d r) s h →
    (r = .fstat → storeQueued s h.blk.core h.b h.c h.k = false ∧ loadQueued s h.b h.c h.k = false) →
    completes (.movspr g d r) s h (activeMask h g) (put d (sprRegs r) (activeMask h g) fun _ => sprNat s h r)) ∧
  (∀ (a : Opnd) (s : State) (h : Here), passes (.wrspr .fstat a) s h →
    storeQueued s h.blk.core h.b h.c h.k = false → loadQueued s h.b h.c h.k = false →
    exec (.wrspr .fstat a) s = .next (wordDone s h fun y => writeFstat y (BitVec.ofNat 32 (srcNum s h a 1 0)))) ∧
  (∀ (a : Opnd) (s : State) (h : Here), passes (.wrspr .tst a) s h →
    exec (.wrspr .tst a) s = .next (wordDone s h fun y => writeTst y (BitVec.ofNat 32 (srcNum s h a 1 0)))) ∧
  (∀ (a : Opnd) (s : State) (h : Here), passes (.wrspr .tctl a) s h →
    exec (.wrspr .tctl a) s = .next (wordDone s h fun y => writeTctl y (BitVec.ofNat 32 (srcNum s h a 1 0)))) ∧
  (∀ (n : Fin 16) (a : Opnd) (s : State) (h : Here) (c : Chan), passes (.wrspr (.chb n) a) s h →
    chbWrite (chanOf h.crew n.val) (srcNum s h a (sprRegs (.chb n)) 0) = some c →
    exec (.wrspr (.chb n) a) s = .next (wordDone s h fun y => { y with chans := y.chans.put n.val c })) ∧
  (∀ (k : Fin 4) (a : Opnd) (s : State) (h : Here) (g : Ring), passes (.wrspr (.rrcfg k) a) s h →
    rrcfgWrite h.blk.kern.stash (srcNum s h a (sprRegs (.rrcfg k)) 0) = some g →
    exec (.wrspr (.rrcfg k) a) s = .next (wordOver
      (updBlock s h.b fun b => { b with rings := b.rings.put k.val g }) h)) ∧
  (∀ (a : Opnd) (s : State) (h : Here), passes (.resphase a) s h →
    exec (.resphase a) s = .next (wordOver (setDie s (dieOfCore h.blk.core)
      { dieOf s (dieOfCore h.blk.core) with
        evph := setPhase (dieOf s (dieOfCore h.blk.core)).evph (srcNum s h a 1 0) }) h)) ∧
  (∀ (a b : Opnd) (err : Bool) (s t : State) (h : Here) (tw : Nat), passes (.tlinc a b err) s h →
    srcNum s h a 1 0 < tlCount s (ctxOf s h.blk) → outstanding s h.b h.c (BitVec.allOnes 32) = false →
    sendTo s h.blk.core (sliceOf (tlAddr s (ctxOf s h.blk) (srcNum s h a 1 0))) = true →
    raiseTl s (ctxOf s h.blk) (srcNum s h a 1 0) (srcNum s h b 2 0) err (timeOf s h.b h.c) (partyOf s h.b h.c) .sys
      = .done tw t →
    exec (.tlinc a b err) s = .next (wordOver
      (raiseT (sentBy h (tlAddr s (ctxOf s h.blk) (srcNum s h a 1 0)) t) h.b h.c tw) h)) ∧
  (∀ (g : Guard) (d a : Opnd) (s : State) (h : Here) (n : Nat), passes (.gettl g d a false) s h →
    engineCounter h.crew (srcNum s h a 1 0) = some n →
    completes (.gettl g d a false) s h (activeMask h g) (put d 2 (activeMask h g) fun _ => n)) ∧
  (∀ (g : Guard) (d a : Opnd) (s : State) (h : Here) (n : Nat), passes (.gettl g d a true) s h →
    engineCounter h.crew (srcNum s h a 1 0) = some n →
    ∃ e < 2, exec (.gettl g d a true) s = .next (if activeMask h g = 0 then wordOver s h
      else wordDone { s with free := s.free + 1 } h (put d 1 (activeMask h g) fun _ => e))) ∧
  ∀ (g : Guard) (d a : Opnd) (err : Bool) (s : State) (h : Here) (i : Nat), passes (.gettl g d a err) s h →
    srcNum s h a 1 0 = 0x10000 + i → i < tlCount s (ctxOf s h.blk) →
    (tlEntryOk s (ctxOf s h.blk) i = true →
      completes (.gettl g d a err) s h (activeMask h g) (put d (if err then 1 else 2) (activeMask h g) fun _ =>
        if err then (if tlErr s (ctxOf s h.blk) i then 1 else 0) else tlValue s (ctxOf s h.blk) i)) ∧
    (tlEntryOk s (ctxOf s h.blk) i = false →
      ∃ e, exec (.gettl g d a err) s = .next (if activeMask h g = 0 then wordOver s h
        else wordDone { s with free := s.free + 1 } h (put d (if err then 1 else 2) (activeMask h g) fun _ => e)))

/-! ## Events complete

Each row of the event tables: when its condition holds, the step has its effect. -/

/-- R27, R42, R178, R199: a slot READY for 4,096 clocks, or for 64 while the other slot of its crew issues, is marked; a
spilled path returns to a free slot, as its entry in the stash then stands (R28); a sleep whose clocks have passed, a wait whose condition is met and a wait whose
deadline has passed end. -/
def Obligations.IssueEventsComplete : Prop :=
  (∀ (r : SlotRef) (s : State) (h : Here), hereAt s r = some h → selectable s h.b h.blk h.c h.crew h.k = true →
    (hSlot h).readyAt + 4096 ≤ s.clock →
    exec (.starvationIssue r) s = .next (updSlot s h.b h.c h.k fun t => { t with starved := true })) ∧
  (∀ (r : SlotRef) (s : State) (h : Here), hereAt s r = some h → selectable s h.b h.blk h.c h.crew h.k = true →
    (hSlot h).readyAt + 64 ≤ s.clock →
    exec (.fairnessPrecedence r) s = .next (updSlot s h.b h.c h.k fun t => { t with favoured := true })) ∧
  (∀ (b c : Nat) (s : State) (x : Block) (y : Crew) (p : Spill) (r : List Spill), s.blocks.find b = some x →
    crewOf s b c = some y → y.handler = none → y.spills = p :: r →
    let q := poppedSlot s y (storedSpill s x c p r.length)
    (y.slot0.mask = 0 → exec (.divergencePop b c) s = .next (putCrew s b c { y with slot0 := q, spills := r })) ∧
    (y.slot0.mask ≠ 0 → y.slot1.mask = 0 →
      exec (.divergencePop b c) s = .next (putCrew s b c { y with slot1 := q, spills := r }))) ∧
  (∀ (r : SlotRef) (s : State) (h : Here) (till : Nat), hereAt s r = some h → h.blk.st = .running →
    (hSlot h).st = .waiting (.sleep till) → till ≤ s.clock → exec (.sleepExpiry r) s = .next (nextWord s h)) ∧
  (∀ (r : SlotRef) (s : State) (h : Here) (o : WaitObj) (pd : Fin 8) (dl : Option Nat), hereAt s r = some h →
    h.blk.st = .running → (hSlot h).st = .waiting (.object o pd dl) → waitHolds s h.blk h.crew o = true →
    exec (.waitWake r) s = .next (endWait s h o pd.val true)) ∧
  ∀ (r : SlotRef) (s : State) (h : Here) (o : WaitObj) (pd : Fin 8) (dl : Nat), hereAt s r = some h →
    h.blk.st = .running → (hSlot h).st = .waiting (.object o pd (some dl)) → dl ≤ s.clock →
    exec (.waitTimeout r) s = .next (endWait s h o pd.val (waitHolds s h.blk h.crew o))

/-- R323, R31, R33, R34, R78: a READY module whose port is in use queues a submission or refuses it with a `QREF` record that
names its offset in the window; the earliest queued one of its port whose process context is in order is offered to a
distributor, else refused with CODE 4; an offered launch is accepted or refused; an accepted one begins when its wait is met,
and a grid all of whose blocks have retired completes, its signal finding slots. -/
def Obligations.LaunchEventsComplete : Prop :=
  (∀ (w : NotifyWrite) (s : State), portReady s w.port = true → w.off < 64 * 4096 →
    let qi : QiRef := ⟨w.port, w.off / 4096⟩
    (submissionCode s w = none →
      exec (.submission w) s = .next (later (setQi { s with nextId := s.nextId + 1 } qi { qiOf s qi with
        queue := (qiOf s qi).queue ++ [⟨w.data, w.pasid.getD 0, w.off, s.nextId⟩] }) (.submissionDecode qi))) ∧
    ∀ k, submissionCode s w = some k → ∃ tag p u, u = { s with free := u.free } ∧
      exec (.submission w) s = .next (postQref u qi tag w.off k p) ∧
      (64 ≤ w.len → tag = BitVec.ofNat 32 (nfield w.data.toNat 480 32)) ∧ ∀ q, w.pasid = some q → p = q) ∧
  (∀ (qi : QiRef) (s : State) (x : Submission) (r : List Submission), (qiOf s qi).queue = x :: r →
    earlierWaits s qi x = false →
    let s1 := setQi s qi { qiOf s qi with queue := r }
    (procOk s ⟨qi, x.pasid⟩ = false →
      exec (.submissionDecode qi) s = .next
        (postQref s1 qi (BitVec.ofNat 32 (nfield x.data.toNat 480 32)) x.off 4 x.pasid)) ∧
    (procOk s ⟨qi, x.pasid⟩ = true →
      let l := launchOfBits x.data.toNat ⟨qi, x.pasid⟩ (nfield x.data.toNat 240 16 != 0)
      exec (.submissionDecode qi) s = .next (later
        { s1 with nextId := s1.nextId + 1, launches := s1.launches.put s1.nextId l } (.launchAccept (Fin.ofNat 4 l.die))))) ∧
  (∀ (die : Fin 4) (s : State) (id : Nat) (l : Launch), offered s die.val = some (id, l) →
    (∀ k ws, checkLaunch s die.val l = .ok (k, ws) → exec (.launchAccept die) s = .next (acceptLaunch s id l k ws)) ∧
    ∀ code addr, checkLaunch s die.val l = .refused code addr →
      exec (.launchAccept die) s = .next (refuseLaunch s id l code addr)) ∧
  ∀ (id : Nat) (s : State) (l : Launch), s.launches.find id = some l →
    (l.st = .waiting → startReady s l = true →
      exec (.launchStart id) s = .next (beginLaunch (acquireWait s id l) id)) ∧
    (l.st ≠ .waiting → gridOver s id l = true →
      (l.sigIdx = 0xFFFF → exec (.launchStart id) s = .next (doneLaunch s id)) ∧
      ∀ tw t, l.sigIdx ≠ 0xFFFF → agentSlot s (islandAgent l.die) l.die (tlAddr s l.ctx l.sigIdx) = true →
        raiseTl s l.ctx l.sigIdx l.sigVal l.error (max s.clock l.relTw) .device .dev = .done tw t →
        exec (.launchStart id) s = .next (doneLaunch (signalSent t id l) id))

/-- R35 to R37, R51, R79: a distributor places the first candidate fleet for which there is room, once its mooring plan is read
and nothing that the placement drops is to be written back, or lets a dry die ask; a
control message over links that are up is sunk and acted on: a victim grants the highest-numbered half of its stripes or refuses. -/
def Obligations.PlacementEventsComplete : Prop :=
  (∀ (die : Fin 4) (s : State),
    (∀ id l rs plan, placeCandidate s die.val = some (id, l, rs) → savedBefore s die.val l = false →
      planOf s die.val l.ctx l.kern = .ok plan →
      let u := placeFleet s die.val id l plan rs
      dropsWait s u (rs.map (·.core)) = none →
      ∃ t, exec (.blockPlace die) s = .next t ∧ onlyMoreToCome u t) ∧
    (placeCandidate s die.val = none →
      ∃ t, exec (.blockPlace die) s = .next t ∧ onlyMoreToCome (s.launches.foldl (beginSteal die.val) s) t)) ∧
  (∀ (n : Nat) (s : State) (m : CtrlMsg), s.ctrl.find n = some m →
    cutOff s (ctrlRoute s m).1 (ctrlRoute s m).2 = false →
    exec (.controlMessage n) s = .next (later s (match m with
      | .stealq t _ l => .stealq (Fin.ofNat 4 t) l
      | .stealg t l _ => .stealg (Fin.ofNat 4 t) l
      | .stealn t l => .stealn (Fin.ofNat 4 t) l))) ∧
  (∀ (thief : Fin 4) (launch : Nat) (s : State) (n t0 victim l0 : Nat) (l : Launch),
    stealMsg s (isStealq thief.val launch) = some (n, .stealq t0 victim l0) → s.launches.find launch = some l →
    let x := shareOf l victim
    let k := stripeCount x.runs / 2
    let t := cutAt x.runs k 70 0 (2 ^ 66)
    (k = 0 → exec (.stealq thief launch) s = .next (sendCtrl { s with ctrl := s.ctrl.drop n } (.stealn thief.val launch))) ∧
    (k ≠ 0 → exec (.stealq thief launch) s = .next (sendCtrl
      (setShare { s with ctrl := s.ctrl.drop n } launch victim
        { x with runs := (x.runs.map (runBelow t)).filter fun r => decide (0 < r.count) })
      (.stealg thief.val launch ((x.runs.map (runAbove t)).filter fun r => decide (0 < r.count)))))) ∧
  (∀ (thief : Fin 4) (launch : Nat) (s : State) (n t0 l0 : Nat) (give : List Stripes) (l : Launch),
    stealMsg s (isStealg thief.val launch) = some (n, .stealg t0 l0 give) → s.launches.find launch = some l →
    exec (.stealg thief launch) s = .next (laterOnce
      (setShare { s with ctrl := s.ctrl.drop n } launch thief.val
        { shareOf l thief.val with runs := (shareOf l thief.val).runs ++ give, asking := [] }) (.blockPlace thief))) ∧
  ∀ (thief : Fin 4) (launch : Nat) (s : State) (n : Nat) (m : CtrlMsg) (l : Launch),
    stealMsg s (isStealn thief.val launch) = some (n, m) → s.launches.find launch = some l →
    let x := { shareOf l thief.val with refusals := (shareOf l thief.val).refusals + 1 }
    exec (.stealn thief launch) s = .next (laterOnce (askDies { s with ctrl := s.ctrl.drop n } thief.val launch x
      (if 3 ≤ x.refusals then [] else x.asking.drop 1)) (.blockPlace thief))

/-- R38 to R41, R240 to R245: with a free slot of the pool, a pre-emption begins the saves of a best set of blocks; a
window, a block parked for 2,048 clocks and one that has waited outside for 65,536 begin theirs, and a pre-emption of the same
clock is recorded with them (R246); a save that is quiet completes; a saved block whose causes are met becomes placeable, and
is restored where there is room, its plan read and nothing that the restore drops to be written back, or its grid ends when its
image is bad; a restored one runs once its requests are answered and its staged records have room, some of them written out
for it first. -/
def Obligations.SaveEventsComplete : Prop :=
  (∀ (die : Fin 4) (s : State) (xs : List (List Nat × List Nat)), poolFree s ≠ none → dieSaving s die.val = false →
    preemptFor s die.val = some xs → xs ≠ [] →
    ∃ x ∈ xs, ∃ u, u = { s with free := u.free } ∧ exec (.preempt die) s = .next (x.2.foldl preemptBlock u)) ∧
  (∀ (b : Nat) (s : State) (x : Block) (t : Nat), s.blocks.find b = some x → x.chkptTill = some t → x.st = .running →
    x.halting = none → (allStopped x = true ∨ t ≤ s.clock) →
    exec (.checkpointWindowExpiry b) s = .next (endWindow s b)) ∧
  (∀ (b : Nat) (s : State) (x : Block) (t : Nat) (w : Slipway), s.blocks.find b = some x → x.parkedSince = some t →
    x.st = .running → launchLive s x.launch = true → t + 2048 ≤ s.clock → noneHalted s b = true → poolFree s ≠ none →
    (∀ e ∈ slotsOf x, parkedRoom s e.2.2 = false) → parkedOn s x = some w →
    exec (.parkSaveTimeout b) s = .next (preemptToo s b x.core (beginSave (setBlock s b { x with
      object := BitVec.ofNat 64 w.addr, value := BitVec.ofNat 64 (w.reserved + 1) }) b 2))) ∧
  (∀ (b : Nat) (s : State) (x : Block) (t : Nat), s.blocks.find b = some x → x.outsideSince = some t →
    launchLive s x.launch = true → outsideHolds s b x = true → t + 65536 ≤ s.clock → poolFree s ≠ none →
    exec (.outsideWaitSave b) s = .next (preemptToo s b x.core (beginSave (setBlock s b { x with
      object := (outsideObject s b x).1, value := (outsideObject s b x).2 }) b 4))) ∧
  (∀ (b : Nat) (s : State) (x y z : Block) (slot : Nat), s.blocks.find b = some x → x.st = .saving →
    launchLive s x.launch = true → saveQuiet s b x = true →
    (∀ e ∈ ownedEntries (parkBlock s b) b x.core, unflushed (parkBlock s b) x.core e.1 = false) →
    (parkBlock s b).blocks.find b = some y → saveHeld (parkBlock s b) y = false → poolFree (parkBlock s b) = some slot →
    blockToSave (parkBlock s b) y = .ok z → exec (.saveComplete b) s = .next (completeSave (parkBlock s b) b slot z)) ∧
  (∀ (b : Nat) (s : State) (x : Block), s.blocks.find b = some x → x.st = .restoring → launchLive s x.launch = true →
    (∀ e ∈ s.reqs, e.2.blk ≠ b) →
    (shedding s b x = none → exec (.blockRestore b) s = .next (resumeBlock s b)) ∧
    ∀ c, shedding s b x = some c → exec (.blockRestore b) s = .next (later (writeOutStep s b c) (.blockRestore b))) ∧
  ∀ (b : Nat) (s : State) (x : Block), s.blocks.find b = some x → x.st = .saved → launchLive s x.launch = true →
    (x.placeable = none → causesMet s b x = true → exec (.blockRestore b) s = .next (later
      (setBlock { s with nextId := s.nextId + 1 } b { x with placeable := some s.nextId }) (.blockRestore b))) ∧
    ∀ ms rs, x.placeable ≠ none → restoreNow s b x = some (ms, rs) →
      (∀ e, (ms.find? fun e => !imageGood s e.1 e.2 (readImage s e.1 e.2)) = some e →
        exec (.blockRestore b) s = .next (dockBad s e.1 e.2 ((rs.headD (b, ⟨[], 0, 0⟩)).2.core))) ∧
      ∀ plans, (∀ e ∈ ms, imageGood s e.1 e.2 (readImage s e.1 e.2) = true) → rs.mapM (restorePlan s) = .ok plans →
        let u := wakeDies ((rs.zip plans).foldl (restoreBlock (rs.filterMap fun p =>
          (s.blocks.find p.1).map fun y => (⟨y.core, y.base, y.kern.stash, p.2.core, p.2.base⟩ : Moved))) s)
        dropsWait s u (rs.map fun q => q.2.core) = none → exec (.blockRestore b) s = .next u

/-- R30, R39, R78, R217 to R219: a block with nothing left to wait for and nothing of its entries with WBP left to write back
retires; a slipway with K records, or with records when
no emitter is left or its flush time has passed, launches a successor; a parked slot emits once there is room. -/
def Obligations.RetireEventsComplete : Prop :=
  (∀ (b : Nat) (s : State) (x : Block), s.blocks.find b = some x → mayRetire s b x = true →
    (∀ e ∈ wbpEntries s b x.core, unflushed s x.core e = false) →
    exec (.blockRetire b) s = .next (retireBlock s b x)) ∧
  (∀ (i : Nat) (s : State) (w : Slipway), s.slipways.find i = some w →
    (w.k ≤ unconsumed w ∨ (0 < unconsumed w ∧ emittersGone s i = true)) →
    exec (.slipwayBatchLaunch i) s = .next (laterOnce (launchBatch s i w) (.slipwayBatchLaunch i))) ∧
  (∀ (i : Nat) (s : State) (w : Slipway), s.slipways.find i = some w → unconsumed w ≠ 0 → flushDue s w = true →
    exec (.slipwayFlush i) s = .next (laterOnce (launchBatch s i w) (.slipwayFlush i))) ∧
  ∀ (r : SlotRef) (s t : State) (h : Here) (i reg tw : Nat) (left rest : Mask) (w : Slipway), hereAt s r = some h →
    (hSlot h).st = .parked i reg left → h.blk.st = .running → s.slipways.find i = some w → emitNow w left ≠ [] →
    emit s h.blk h.crew (crewT s h.crew) i reg left = .ok ((rest, tw), t) →
    let u := raiseT (dropWalkEnd t) h.b h.c tw
    exec (.remitUnpark r) s = .next (if rest = 0 then settleParked (nextWord u h) h.b
      else later (updSlot u h.b h.c h.k fun q => { q with st := .parked i reg rest }) (.remitUnpark r))

/-- R78, R225, R230 to R235: a faulted store saves its block with a record, or of an ended grid is dropped with one; a waiting
record is written to an enabled ring with room; with the module READY a verdict on a token acts; a halting block without stores
becomes HALTED. A fault whose grid has ended posts its record, with ENDED, at once, and its bytes are dropped (the model's reading,
log 18). -/
def Obligations.FaultEventsComplete : Prop :=
  (∀ (q : Nat) (s : State) (r : Req) (x : Block), s.reqs.find q = some r → s.blocks.find r.blk = some x →
    r.st = .faulted → r.told = false →
    (launchLive s x.launch = true →
      exec (.storeFault q) s = .next (beginSave
        (setBlock (tellStore s r) r.blk
          { x with recs := x.recs ++ [storeRec s x r (16 + 32)] }) r.blk 8)) ∧
    (launchLive s x.launch = false →
      exec (.storeFault q) s = .next (postRec
        (later { tellStore s r with reqs := (tellStore s r).reqs.drop q } (.blockRetire r.blk)) (dieOfCore x.core)
          (storeRec s x r 64)))) ∧
  (∀ (die : Fin 4) (s t : State) (r : FRec) (q : List FRec), (dieOf s die.val).waiting = r :: q → fqEn s.regs = true →
    fqFull s.regs = false → agentSlot s (islandAgent die.val) die.val (fqSlot s.regs) = true → writeRing s r = some t →
    exec (.faultRecordWrite die) s =
      .next (recordWritten (exchange t die.val (homeDie (fqSlot s.regs)) none) die.val q)) ∧
  (∀ (token : Word) (s : State), moduleReady s = true →
    (token.toNat ≠ 0 → s.tokens.find token.toNat = none →
      exec (.fqackReplay token) s = .next (ackError s) ∧ exec (.fqackKill token) s = .next (ackError s) ∧
        exec (.fqackDock token) s = .next (ackError s)) ∧
    (token.toNat ≠ 0 → ∀ b, s.tokens.find token.toNat = some (.block b) →
      exec (.fqackReplay token) s = .next (settleToken (dropToken s token.toNat) b token.toNat)) ∧
    (token.toNat ≠ 0 → ∀ c, s.tokens.find token.toNat = some (.copy c) →
      exec (.fqackReplay token) s = .next (replayCopy (dropToken s token.toNat) c token.toNat)) ∧
    (token.toNat ≠ 0 → ∀ b, s.tokens.find token.toNat = some (.halt b false) →
      exec (.fqackReplay token) s = .next (replayHalt (dropToken s token.toNat) b token.toNat) ∧
        exec (.fqackDock token) s = .next (dockBlock (dropToken s token.toNat) b token.toNat)) ∧
    (token.toNat ≠ 0 → ∀ b, s.tokens.find token.toNat = some (.halt b true) →
      exec (.fqackReplay token) s = .next (settleToken (dropToken s token.toNat) b token.toNat)) ∧
    (token.toNat ≠ 0 → ∀ w l, s.tokens.find token.toNat = some w → tokenLaunch s w = some l →
      exec (.fqackKill token) s = .next (endGrid (dropToken s token.toNat) l))) ∧
  ∀ (b : Nat) (s : State) (x : Block) (h : Halt), s.blocks.find b = some x → x.halting = some h → x.st = .running →
    launchLive s x.launch = true → plainStoresOut s b = false → capsOut s b = false →
    exec (.haltComplete b) s = .next (haltBlock s b h)

/-- R62 to R65, R77, R78, R88, R91, R337, R338: a request that no earlier one holds back, and whose turn among the claims of
the clock it is, is injected once slots and tokens are there; its home performs a group of bytes of a store, a lane of a
reduction or a piece of a load, in free order; a stash performs one of its own likewise; its reply is sunk, and charged,
always. -/
def Obligations.RequestEventsComplete : Prop :=
  (∀ (q : Nat) (s t : State) (r : Req), s.reqs.find q = some r → r.st = .waiting → mustFollow s q r = false →
    slotTo s r.core r.dest = true → refusedFirst s r = false → claimTurn s (dieOfCore r.core) (requestRank r.core) = true →
    claimRequest s r = (true, t) →
    exec (.requestInject q) s = .next (later
      { t with reqs := t.reqs.put q { r with st := .injected, refused := false } } (.homeSliceRequest q))) ∧
  (∀ (q : Nat) (s s0 t : State) (r : Req) (va k : Nat) (gs : List (List (Nat × Byte))) (a : Attr) (tw : Nat),
    s.reqs.find q = some r → r.st = .injected → (r.homed = true → lateReq s r = false) → r.kind = .store va gs a tw →
    pickOne s gs.length = (k, s0) →
    let pa := ((gs.getD k []).headD (0, 0)).1
    (isStashPa pa = true → exec (.homeSliceRequest q) s = .next (stashGroup s0 q r va gs a tw k)) ∧
    (isStashPa pa = false → isRemote pa = false → versioned s0 (lineNo pa) = false →
      grab s0 (lineNo pa) none true = (true, t) → poisoned t (lineNo pa) = false →
      exec (.homeSliceRequest q) s = .next (storeGroup t q r va gs a tw k))) ∧
  (∀ (q : Nat) (s s0 : State) (r : Req) (p : Piece) (ps : List Piece) (k : Nat) (got : List (Nat × Nat × Byte))
      (f : LoadForm) (ac : Option Nat) (acq : Option Scope),
    s.reqs.find q = some r → r.st = .injected → (r.homed = true → lateReq s r = false) → r.kind = .load ps got f ac acq →
    pickOne s ps.length = (k, s0) → ps[k]? = some p →
    let x : LoadRest := ⟨ps, got, f, ac, acq⟩
    (∀ t, isStashPa p.pa = true → touchStash s0 (stashPaCore p.pa) (stashPaOff p.pa) p.n p.va false = .ok t →
      exec (.homeSliceRequest q) s = .next (takePiece t q r x k p
        (readPlace t (.stash (stashPaCore p.pa) (stashPaOff p.pa)) p.n)
        (marksAt t (stashKeys t (stashPaCore p.pa) (stashPaOff p.pa) p.n))
        (stashLines (stashPaCore p.pa) (stashPaOff p.pa) p.n ++
          (mappedPas t (stashPaCore p.pa) (stashPaOff p.pa) p.n).map lineNo))) ∧
    (isStashPa p.pa = false → sliceOf p.pa = r.dest → isRemote p.pa = false →
      (∀ c, pieceCopy s0 r p = some c → exec (.homeSliceRequest q) s = .next (takePiece s0 q r x k p
        ((c.data.drop (p.pa % 128)).take p.n) (copyMarks c (p.pa % 128) p.n) [lineNo p.pa])) ∧
      ∀ t, pieceCopy s0 r p = none → grab s0 (lineNo p.pa) none false = (true, t) → poisoned t (lineNo p.pa) = false →
        let u := fillL2 t (lineNo p.pa) p.attr
        let d := readPlace u (linePlace (128 * lineNo p.pa)) 128
        exec (.homeSliceRequest q) s = .next (takePiece
          (if p.attr.ord = 1 then u else leaseFill u r.core (lineNo p.pa) (reqT u r) (leaseLen u (reqCtx u r)) d) q r x k p
          ((d.drop (p.pa % 128)).take p.n)
          (marksAt u ((List.range p.n).map fun i => placeKey (linePlace (p.pa + i)))) [lineNo p.pa]))) ∧
  (∀ (q : Nat) (s s0 t : State) (r : Req) (ps : List RedPiece) (tw i k : Nat) (p : RedPiece), s.reqs.find q = some r →
    r.st = .injected → (r.homed = true → lateReq s r = false) → r.kind = .red ps tw →
    pickOne s (redNext ps).length = (i, s0) → (redNext ps).getD i 0 = k → ps[k]? = some p →
    (isStashPa p.pa = true → exec (.homeSliceRequest q) s =
      .next (redDone s0 q r ps tw k p (.stash (.stash (stashPaCore p.pa) (stashPaOff p.pa))))) ∧
    (isStashPa p.pa = false → sliceOf p.pa = r.dest → isRemote p.pa = false → p.attr.hc = false →
      versioned s0 (lineNo p.pa) = false → grab s0 (lineNo p.pa) none true = (true, t) → poisoned t (lineNo p.pa) = false →
      exec (.homeSliceRequest q) s = .next (redDone t q r ps tw k p (.home p.pa p.attr)))) ∧
  ∀ (q : Nat) (s : State) (r : Req), s.reqs.find q = some r → r.st = .answered →
    let u := { s with reqs := s.reqs.drop q }
    (r.homed = false → exec (.replySink q) s = .next (later (sinkReply u r) (.blockRetire r.blk))) ∧
    (r.homed = true → lateReq s r = false → claimTurn s (r.dest / 32) 0 = true →
      exec (.replySink q) s = .next (later (sinkReply (claimReply u r) r) (.blockRetire r.blk)))

/-- R52 to R56, R75, R247, R329, R337: a probe that reaches its agent is answered, by a host once its modified data have come; one
unanswered is sent again, and after the third an
agent is declared dead; a fill lands; a write-back is acknowledged; a walk gives its page or its fault. -/
def Obligations.CoherenceEventsComplete : Prop :=
  (∀ (core line : Nat) (inval : Bool) (s : State),
    exec (.probe core line inval) s = .next (if silentTo s line core then s
      else if hostWriteComing s core line then later s (.probe core line inval)
      else probeAgent (endBusy (wakeCore s core) line core) line core inval)) ∧
  (∀ (agent line : Nat) (s : State), (lineOf s line).st = .busy → (lineOf s line).probed = some agent →
    (lineOf s line).probedAt + probeLimit s agent ≤ s.clock →
    ((lineOf s line).probes < 3 → exec (.probeTimeout agent line) s = .next (later (later
      (setLine s line { lineOf s line with probes := (lineOf s line).probes + 1, probedAt := s.clock })
      (.probe agent line true)) (.probeTimeout agent line))) ∧
    (3 ≤ (lineOf s line).probes → exec (.probeTimeout agent line) s = .next (declareDead s agent line))) ∧
  (∀ (core e l : Nat) (s : State) (m : Mooring), mooringOf s core e = some m → (mlineOf s core e l).st = .fill →
    (mlineOf s core e l).kept = .none →
    exec (.mooringFillLand core e l) s = .next (setMLine s core e l { mlineOf s core e l with
      st := filledState m.mrec .none, kept := .none })) ∧
  (∀ (core e l : Nat) (s : State) (m : Mooring), mooringOf s core e = some m → (mlineOf s core e l).st = .shr →
    (mlineOf s core e l).kept ≠ .none → fillReader s core e l = false →
    exec (.mooringFillLand core e l) s = .next (applyKept s core e l (mlineOf s core e l))) ∧
  (∀ (core e l : Nat) (s : State), (mlineOf s core e l).st = .wbk →
    (∀ g ∈ mlineHomes (mlineOf s core e l), versioned s g = false) →
    exec (.writebackAck core e l) s = .next (endWriteBack s core e l (mlineOf s core e l))) ∧
  ∀ (n : Nat) (s : State) (w : Walk), s.walks.find n = some w → walksBefore s n w.die < Config.walksInFlight →
    walkRefused s w = none →
    (∀ t, walkTables s w.die w.ctx w.va = .ok t → exec (.walkComplete n) s = .next (walkFound (walkPaid s w) n w t)) ∧
    (∀ l, walkTables s w.die w.ctx w.va = .error (.page l) →
      exec (.walkComplete n) s = .next (walkFailed (walkPaid s w) n w .pagef l id)) ∧
    ∀ g, walkTables s w.die w.ctx w.va = .error (.poison g) →
      exec (.walkComplete n) s = .next (walkFailed (walkPaid s w) n w .poison 0 fun _ => 6)

/-- R21, R66, R67, R247, R332, R345: a write of EVSL acts, and the load that it starts ends; of one clock's writes to EVPH the
lowest core's prevails; a link that fails stays down; a core without a block sleeps; a scrubbed line with an uncorrectable
error is marked. -/
def Obligations.DieEventsComplete : Prop :=
  (∀ (die : Fin 4) (v : DWord) (s : State), moduleReady s = true →
    exec (.evslLoad die v) s = .next (writeEvsl s die.val v)) ∧
  (∀ (die : Fin 4) (s : State) (pa : Nat), (dieOf s die.val).loading = some pa →
    (∀ a ∈ [pa, pa + 71], (lineOf s (lineNo a)).st ≠ .busy ∧ agentSlot s (islandAgent die.val) die.val a = true) →
    exec (.evslLoadDone die) s = .next (loadSchedule
      ([pa, pa + 71].foldl (fun u a => exchange u die.val (homeDie a) none) s) die.val)) ∧
  (∀ (die : Fin 4) (ws : List (Nat × DWord)) (s : State) (w : Nat × DWord), lowestWrite ws = some w →
    exec (.evphWrite die ws) s = .next (setDie s die.val { dieOf s die.val with
      evph := setPhase (dieOf s die.val).evph w.2.toNat })) ∧
  (∀ (l : UcieLink) (s : State), ∃ t, exec (.ucieLinkFailure l) s = .next t ∧ t = { s with linksDown := t.linksDown } ∧
    ∀ k, k ∈ t.linksDown ↔ k = l ∨ k ∈ s.linksDown) ∧
  (∀ (core : Nat) (s : State), core < 192 → heldOn s core [] = [] →
    exec (.corePowerGating core) s = .next (setCore s core { coreOf s core with gated := true })) ∧
  ∀ (line : Nat) (s : State), exec (.patrolScrub line false) s = .next s ∧
    ((lineOf s line).st ≠ .busy →
      exec (.patrolScrub line true) s = .next (updLine s line fun l => { l with st := .pois }))

/-- R206, R210, R211, R214: a piece of a copy lands and its next follows, or it completes; a message is delivered,
settled or tried again; an input reaches its node, and a node whose time is over forwards what it has. -/
def Obligations.EngineEventsComplete : Prop :=
  (∀ (id piece : Nat) (s t : State) (c c1 : Copy) (blk : Block), s.copies.find id = some c → s.blocks.find c.blk = some blk →
    engineRuns blk = true →
    (landPieceM blk c (rotated s (pieceUnits s blk c piece)).1).run (rotated s (pieceUnits s blk c piece)).2
      = .ok (c1, t) →
    exec (.copyLineLand id piece) s = .next (copyNext (dropWalkEnd t) id blk c1)) ∧
  (∀ (id rank : Nat) (s t : State) (g : Msg) (src : Block) (d : Delivery), s.msgs.find id = some g →
    s.blocks.find g.blk = some src → rank ∈ g.left → tokensFor s (dieOfCore src.core) = true →
    deliver s src rank g = (d, t) →
    exec (.sendDelivery id rank) s = .next (match d with
      | .done => settleMsg t id (rankSettled g rank 0)
      | .never k => settleMsg t id (rankSettled g rank k)
      | .tryAgain => rankRetried t id g rank)) ∧
  (∀ (id : Nat) (s : State), exec (.sendRetry id) s = .next (retryMsg s id)) ∧
  (∀ (id : Nat) (s : State), exec (.mcastBranchRetry id) s = .next (retryMsg s id)) ∧
  (∀ (id : Nat) (s : State) (g : Msg), s.msgs.find id = some g → (∀ e ∈ g.retry, e.2 ≠ 0 ∧ e.2 ≤ s.clock) →
    retryMsg s id = g.retry.foldl (fun s e => later s (.sendDelivery id e.1))
      { s with msgs := s.msgs.put id { g with retry := g.retry.map fun e => (e.1, 0) } }) ∧
  (∀ (id : Nat) (s : State) (i : ArmInput) (a : Arm), s.armInputs.find id = some i → inputGranted s i = true →
    armOf s i.launch i.fleet i.id = some a →
    exec (.armatureInput id) s =
      .next (roundsOver (arrive { inputSent s i with armInputs := s.armInputs.drop id } a i) a)) ∧
  ∀ (n : ArmRef) (s : State) (a : Arm) (t : Nat), armOf s n.launch n.fleet n.id.val = some a →
    (nodeOf a n.rank).timer = some t → t ≤ s.clock → exec (.armatureTimeout n) s = .next (timeoutNode s a n.rank)

/-- R251 to R264: each step of a matrix unit for the first entry that may take it: a pass enters for its tokens and lands
its rows, a swap, a load, a codebook and a tile operation reach their points, an epilogue writes its rows. -/
def Obligations.MatrixEventsComplete : Prop :=
  (∀ (core part : Nat) (s t : State) (i : Nat) (e : MatEntry), firstEntry (unitOf s core part) passMayStart = some (i, e) →
    ((unitOf s core part).queue.any fun e => isPass e && !passBegun e) = true →
    claimTurn s (dieOfCore core) (matrixRank core part) = true → claimPass s core e.blk (4 + passRowCount e) = (true, t) →
    exec (.matrixPassStart core part) s = .next (later
      (setUnit (claimed t (dieOfCore core) (matrixRank core part)) core part { unitOf s core part with queue := (unitOf s core part).queue.set i (beginPass e) })
      (.matrixPassDone core part))) ∧
  (∀ (core part : Nat) (s t : State) (i : Nat) (e : MatEntry) (blk : Block) (tile : Nat) (af : AFmt) (zpm kh : Bool)
      (rows : List (Nat × Nat)) (t0 : Nat) (bg : Bool), firstEntry (unitOf s core part) passMayLand = some (i, e) →
    (unitOf s core part).queue.any passBegun = true → e.op = .pass tile af zpm kh rows t0 bg →
    s.blocks.find e.blk = some blk → (landRowsM blk core part tile af zpm kh rows).run s = .ok ((), t) →
    exec (.matrixPassDone core part) s = .next (completeEntry (dropWalkEnd t) core part i)) ∧
  (∀ (core part : Nat) (s t : State) (i : Nat) (e : MatEntry) (blk : Block) (off st : Nat) (wf : WFmt),
    firstEntry (unitOf s core part) loaderMayRun = some (i, e) → (unitOf s core part).queue.any isLoader = true →
    e.op = .load off st wf → s.blocks.find e.blk = some blk → (loadPlaneM blk core part off st wf).run s = .ok ((), t) →
    exec (.mldwDone core part) s = .next (completeEntry (dropWalkEnd t) core part i)) ∧
  (∀ (core part : Nat) (s : State) (i : Nat) (e : MatEntry) (book : Table (BitVec 16)),
    firstEntry (unitOf s core part) loaderMayRun = some (i, e) → (unitOf s core part).queue.any isLoader = true →
    e.op = .lut book →
    exec (.mldwDone core part) s = .next (completeEntry (setUnit s core part { unitOf s core part with
      shadow := { (unitOf s core part).shadow with codebook := book } }) core part i)) ∧
  (∀ (core part : Nat) (s : State) (i : Nat) (e : MatEntry) (d : Option Nat),
    firstEntry (unitOf s core part) swapMayPoint = some (i, e) → (unitOf s core part).queue.any isSwap = true →
    e.op = .swap d →
    let u := unitOf s core part
    exec (.mswapPoint core part) s = .next (completeEntry (landSwap
      (setUnit s core part { u with active := u.shadow, shadow := u.active, pgen := u.pgen + 1 }) e d (u.pgen + 1))
      core part i)) ∧
  (∀ (core part : Nat) (s : State) (i : Nat) (e : MatEntry), firstEntry (unitOf s core part) tileMayPoint = some (i, e) →
    (unitOf s core part).queue.any isOpenTileOp = true →
    (e.op = .nothing → exec (.tileOpPoint core part) s = .next (completeEntry s core part i)) ∧
    (∀ t, e.op = .zero t → exec (.tileOpPoint core part) s =
      .next (completeEntry (setUnit s core part (zeroTile (unitOf s core part) t)) core part i)) ∧
    (∀ t col w d m, e.op = .read t col w d m → exec (.tileOpPoint core part) s =
      .next (completeEntry (readTile s e (unitOf s core part) t col w d m) core part i)) ∧
    ∀ t off st vec sc zpe f m cp blk c u, e.op = .store t off st vec sc zpe f m cp → s.blocks.find e.blk = some blk →
      (takeTileM blk (unitOf s core part) t vec sc zpe m).run s = .ok (c, u) →
      exec (.tileOpPoint core part) s = .next (later
        (setUnit (dropWalkEnd u) core part { unitOf u core part with
          queue := (unitOf u core part).queue.set i { e with op := .store t off st vec sc zpe f m (some c) } })
        (.mstDone core part))) ∧
  ∀ (core part : Nat) (s t : State) (i : Nat) (e : MatEntry) (blk : Block) (t0 off st vec : Nat) (sc zpe : Bool) (f : Fmt)
      (m : Mask) (c : TileCopy), firstEntry (unitOf s core part) storeMayRun = some (i, e) →
    (unitOf s core part).queue.any isTaken = true →
    e.op = .store t0 off st vec sc zpe f m (some c) → s.blocks.find e.blk = some blk →
    (storeTileM e blk c off st f sc zpe m).run s = .ok ((), t) →
    exec (.mstDone core part) s = .next (completeEntry
      (updCrew (dropWalkEnd t) e.blk e.crew fun y => setFstatLate y (storeFlags c f sc zpe m)) core part i)

/-- R270, R278 to R283, R309: what a record's home does with each message of a live crew once its lines answer: `ENTER`
of a FREE record, `ADOPT` of a PARKED one, a status for any other state, a commit by its tag, the close, parking and
reclaiming, a store of a step; a lane whose step conflicted restarts after its 64 clocks; while a wait on the tape's timeline
pends, staged tape records are written out, part by part. That a malformed record traps before its tag is looked at is the
model's order of the two (log 46). -/
def Obligations.CapsuleEventsComplete : Prop :=
  (∀ (n : Nat) (s t : State) (m : CapMsg) (w : Asker) (pa : Nat) (entry : DWord) (ks : List Word) (va : DWord) (sa : Attr),
    s.capMsgs.find n = some m → m.kind = .enter w pa entry ks va sa → msgLive s m = true →
    claimLines s [m.record, lineNo pa] = (true, t) → poisoned t m.record = false →
    (recBad t m.record = true → exec (.enter n) s = .next (answerTrap (dropMsg t n) m w)) ∧
    (recBad t m.record = false → recState t m.record ≠ capFree →
      exec (.enter n) s = .next (answerStatus (dropMsg t n) m w (recState t m.record))) ∧
    (recBad t m.record = false → recState t m.record = capFree → poisoned t (lineNo pa) = false →
      versioned t (lineNo pa) = false →
      exec (.enter n) s = .next (acceptEnter (dropMsg t n) m w pa entry ks va sa))) ∧
  (∀ (n : Nat) (s t : State) (m : CapMsg) (w : Asker), s.capMsgs.find n = some m → m.kind = .adopt w →
    msgLive s m = true → claimLine s m.record = (true, t) → poisoned t m.record = false →
    (recBad t m.record = true → exec (.adopt n) s = .next (answerTrap (dropMsg t n) m w)) ∧
    (recBad t m.record = false → recState t m.record ≠ capParked →
      exec (.adopt n) s = .next (answerStatus (dropMsg t n) m w (adoptStatus (recState t m.record)))) ∧
    (recBad t m.record = false → recState t m.record = capParked →
      exec (.adopt n) s = .next (acceptAdopt (dropMsg t n) m w))) ∧
  (∀ (n : Nat) (s t : State) (m : CapMsg) (kind : Fin 3) (ks : List Word) (ra : DWord), s.capMsgs.find n = some m →
    m.kind = .commit kind ks ra → commitWaits s m = false → claimLine s m.record = (true, t) →
    poisoned t m.record = false →
    (recBad t m.record = true → exec (.commit n) s = .next (commitTrap (dropMsg t n) m)) ∧
    (recBad t m.record = false → staleTag t m = true →
      exec (.commit n) s = .next (exitCapsule (dropVersions (dropMsg t n) m) m.blk m.crew 5)) ∧
    ∀ u, recBad t m.record = false → staleTag t m = false → (kind = 0 ∨ slotHeld t m = false) →
      claimLines t (commitLines t m (decide (kind ≠ 0))) = (true, u) →
      (∀ g ∈ commitLines (dropMsg u n) m (decide (kind ≠ 0)), poisoned (dropMsg u n) g = false) →
      exec (.commit n) s = .next (commitAccepted (dropMsg u n) m kind ks ra)) ∧
  (∀ (line : Nat) (s t : State) (h : CapHome) (b c status : Nat), s.capHomes.find line = some h →
    h.closing = some (b, c, status) → claimLine s line = (true, t) →
    exec (.closeAck line) s = .next (laterOnce (exitCapsule (freeRecord t line) b c status) (.blockRetire b))) ∧
  (∀ (n : Nat) (s t : State) (m : CapMsg), s.capMsgs.find n = some m → m.kind = .park →
    committing s m.blk m.crew = false → noticeSlot s m = true → claimLine s m.record = (true, t) →
    let u := noticeSent (dropMsg t n) m
    exec (.park n) s = .next (if ownRecord u m capHeld then parkRecord u m else u)) ∧
  (∀ (n : Nat) (s t : State) (m : CapMsg) (e : Nat), s.capMsgs.find n = some m → m.kind = .reclaim e →
    msgLive s m = true → parking s m.blk m.crew = false → noticeSlot s m = true → claimLine s m.record = (true, t) →
    let u := noticeSent (dropMsg t n) m
    exec (.reclaim n) s = .next (if ownRecord u m capParked then reclaimRecord u m e
      else runIfReady (displace u m.blk m.crew) m.blk)) ∧
  (∀ (n : Nat) (s : State) (m : CapMsg) (line : Nat) (bs : List (Nat × Byte)) (a : Attr) (entry : Nat),
    s.capMsgs.find n = some m → m.kind = .store line bs a entry →
    (staleTag s m = true → exec (.capsuleStore n) s = .next (laterOnce (dropMsg s n) (.blockRetire m.blk))) ∧
    (staleTag s m = false → earlierStore s n m line = false → (lineOf s line).st ≠ .busy →
      ((∀ v ∈ s.versions, v.line = line → v.record = m.record) →
        exec (.capsuleStore n) s = .next (addVersion (dropMsg s n) m line bs a)) ∧
      ∀ v, (s.versions.find? fun v => v.line == line && v.record != m.record) = some v → v.record ≤ m.record →
        exec (.capsuleStore n) s = .next (conflict s m))) ∧
  (∀ (b c : Nat) (s : State) (x : Block) (y : Crew) (h : Holding) (till : Nat), s.blocks.find b = some x →
    crewOf s b c = some y → y.holding = some h → h.resting = some till → x.st = .running → till ≤ s.clock →
    exec (.conflictRestart b c) s = .next (restartStep s b c h)) ∧
  ∀ (b c : Nat) (s : State) (x : Block), s.blocks.find b = some x →
    (tapeWaiting s b c = false → exec (.tapeWriteOut b c) s = .next (dropWalkEnd s)) ∧
    (tapeWaiting s b c = true → (x.st = .running ∨ x.st = .halted) →
      exec (.tapeWriteOut b c) s = .next (laterOnce (writeOutStep s b c) (.tapeWriteOut b c)))

/-- R321, R322, R326, R343: with the module READY and the port in use, a write of QICTL and the invalidations act, a semaphore is claimed when free
and freed by its owner, port A's write never after port B's of one clock; a port that resets frees its semaphores; an invalidation with nothing pending is done. -/
def Obligations.InterfaceEventsComplete : Prop :=
  (∀ (qi : QiRef) (v : DWord) (s : State), portReady s qi.port = true →
    exec (.qictlWrite qi v) s = .next (setQi s qi { qiOf s qi with ctl := qictlAfter (qiOf s qi).ctl v })) ∧
  (∀ (qi : QiRef) (pasid : Nat) (s : State), portReady s qi.port = true →
    exec (.qiinvFirstStage qi pasid) s = .next (startInv s qi 0 pasid) ∧
    exec (.qiinvInterface qi) s = .next (startInv s qi 1 (nfield (qiOf s qi).inv.toNat 0 20)) ∧
    exec (.qiinvRevoke qi pasid) s = .next (startInv s qi 2 pasid) ∧
    exec (.qiinvSecondStage qi) s = .next (startInv s qi 3 (nfield (qiOf s qi).inv.toNat 0 20))) ∧
  (∀ (qi : QiRef) (s : State), invBusy (qiOf s qi) = true → invPending s qi (qiOf s qi).inv = false →
    exec (.qiinvDone qi) s = .next (dropTlbs
      (setQi s qi { qiOf s qi with inv := setBit (qiOf s qi).inv 22 false }) qi (qiOf s qi).inv)) ∧
  (∀ (k : Fin 32) (p : Port) (s : State), portReady s p = true → (p = .b ∨ s.regs.semTill ≤ s.clock) →
    (hsemOwner (hsemOf s k.val) = 0 →
      exec (.hsemClaim k p) s =
        .next (semNoted (setHsem s k.val (hsemOf s k.val ||| BitVec.ofNat 64 (portNumber p))) p)) ∧
    (hsemOwner (hsemOf s k.val) ≠ 0 → exec (.hsemClaim k p) s = .next (semNoted s p)) ∧
    (hsemOwner (hsemOf s k.val) = portNumber p →
      exec (.hsemRel k p) s = .next (semNoted (setHsem s k.val 0) p)) ∧
    (hsemOwner (hsemOf s k.val) ≠ portNumber p → exec (.hsemRel k p) s = .next (semNoted s p))) ∧
  (∀ (k : Fin 32) (s : State), portReady s .a = true → s.clock < s.regs.semTill →
    exec (.hsemClaim k .a) s = .next (later s (.hsemClaim k .a)) ∧
    exec (.hsemRel k .a) s = .next (later s (.hsemRel k .a))) ∧
  ∀ (p : Port) (s : State), ∃ t, exec (.portReset p) s = .next t ∧ t = { s with regs := t.regs } ∧
    ∀ k < 32, hsemOf t k = if hsemOwner (hsemOf s k) = portNumber p then 0 else hsemOf s k

/-- R56, R78, R329 to R331, R333, R335: accesses of a host and of another module that find slots, to a line that answers, are
performed at its home, and the modified data of a host's answer to a snoop while the line is held for them; a snoop is answered;
a remote access is answered, tried again or poisoned after its third time-out; a flit sent again changes nothing. -/
def Obligations.HostEventsComplete : Prop :=
  (∀ (x : HostAccess) (s s0 t : State) (k : Nat), portUp s x.port = true → x.pa + hostLen x ≤ Config.deviceBytes →
    (snoopedWrite s x = true → exec (.hostMemAccess x) s = .next
      (outsideWrite s x.pa (portAgent x.port) (dataAt x.pa (hostLen x) (x.wr.getD 0)))) ∧
    (snoopedWrite s x = false → agentSlot s (portAgent x.port) (portDie x.port) x.pa = true → freeChoice s 3 = (k, s0) →
      hostReady s0 (portDie x.port) (lineNo x.pa) (some (portAgent x.port)) (hostAlone x k) = some t →
      (x.wr = none → exec (.hostMemAccess x) s = .next (hostRead t x k)) ∧
      ∀ d, x.wr = some d → exec (.hostMemAccess x) s = .next
        (outsideWrite t x.pa (portAgent x.port) (dataAt x.pa (hostLen x) d)))) ∧
  (∀ (p : Port) (pa : Nat) (kind : SnoopKind) (s : State), portUp s p = true → s.down = false →
    (heldHere (lineOf s (hostLine p pa)) = false → exec (.hostSnoop p pa kind) s = .next (answerSnoop s p pa none false)) ∧
    ∀ t, heldHere (lineOf s (hostLine p pa)) = true →
      agentSlot s (portAgent p) (portDie p) (128 * hostLine p pa) = true →
      hostReady s (portDie p) (hostLine p pa) none (kind == .inv) = some t →
      let u := answerSnoop t p pa (some (readPlace t (linePlace (128 * hostLine p pa)) 128)) (poisoned t (hostLine p pa))
      exec (.hostSnoop p pa kind) s = .next (afterSnoop u (hostLine p pa) kind)) ∧
  (∀ (q : Nat) (s : State) (x : Remote), s.remotes.find q = some x → x.since + Config.remoteWait ≤ s.clock →
    let u := { s with free := s.free + 1 }
    (x.routed = true ∧ exec (.remoteTimeout q) s = .next (remoteAnswer u q x)) ∨
    exec (.remoteTimeout q) s = .next (if 2 ≤ x.timeouts then remotePoison u q x
      else later { u with remotes := u.remotes.put q { x with timeouts := x.timeouts + 1, since := u.clock } }
        (.remoteTimeout q))) ∧
  (∀ (q : Nat) (s : State), ∃ t, exec (.remoteTimeout q) s = .next t) ∧
  (∀ (n : Nat) (s : State), exec (.flitReplay n) s = .next s) ∧
  ∀ (x : RemoteReq) (s t : State), x.pa + remoteLen x ≤ Config.deviceBytes →
    agentSlot s (194 + homeDie x.pa) (homeDie x.pa) x.pa = true →
    hostReady s (homeDie x.pa) (lineNo x.pa) none (remoteWrites x) = some t → exec (.crilvonRemoteRequest x) s = .next (remoteAccess t x)

/-- R338 to R344: a window opens with the budget in effect; TOKBUD takes effect at the next; TSHIFT decays after 1 ms below
95 °C; at 120 °C the module resets with its lost lines marked; an orderly reset writes host lines back first; power good leads
the module through its bring-up, one step of R343 after the other: it stops with FAIL and its FCODE at the first part of a step
that is not good, an image being good whose key and signature are; a port that does not train leaves the other usable; and the
optical training, done or cut short, ends in READY. -/
def Obligations.PowerEventsComplete : Prop :=
  (∀ (die : Fin 4) (s : State), ∃ temp < 256, exec (.tokenWindow die) s = .next (afterWindow (updateAccounts
    (setDie { s with free := s.free + 1 } die.val (openWindow (dieOf s die.val) temp s.clock)) die.val) die)) ∧
  (∀ (die : Fin 4) (v : DWord) (s : State), moduleReady s = true →
    exec (.tokbudWrite die v) s = .next (writeTokbud s die.val v)) ∧
  (∀ (die : Fin 4) (s : State) (t : Nat), (dieOf s die.val).coolSince = some t → (dieOf s die.val).tshift ≠ 0 →
    t + 1750000 ≤ s.clock → exec (.tshiftDecay die) s = .next (setDie s die.val
      { dieOf s die.val with tshift := (dieOf s die.val).tshift - 1, coolSince := some s.clock })) ∧
  (∀ (die : Fin 4) (s : State), 120 ≤ (dieOf s die.val).temp →
    exec (.thermalTrip die) s = .next (resetModule s (linesLost s) true)) ∧
  (∀ s : State, exec .rstreq s = .next (orderlyReset s)) ∧
  (∀ (images : List FwImage) (hbm links ports : List Bool) (s : State),
    ∃ t, exec (.powerGood images hbm links ports) s = .next t) ∧
  (∀ (images : List FwImage) (hbm links ports : List Bool) (s : State),
    let i : Instr := .powerGood images hbm links ports
    let x := bringNext s
    (devStep s = 0 → exec i s = .next (later (setDevrdy { s with
      images := images, trains := [hbm, links, ports], deadPorts := [], down := false } (devrdyOf 1 false false 0 false)) i)) ∧
    (1 ≤ devStep s → devStep s ≤ 3 → devFailed s = false →
      exec i s = .next (if nbit x.toNat 5 then setDevrdy s x else later (setDevrdy s x) i)) ∧
    (devStep s = 4 → exec i s = .next (later (trainPorts s) i)) ∧
    (devStep s = 5 →
      let u := { s with free := s.free + 1 }
      exec i s = .next (later (opticalDone u false) i) ∨ exec i s = .next (laterOnce u .opticalTrainTimeout)) ∧
    (devStep s = 6 → exec i s = .next (becomeReady s))) ∧
  (∀ s : State, devStep s = 5 → exec .opticalTrainTimeout s = .next (later (opticalDone s true)
    (.powerGood s.images (s.trains.getD 0 []) (s.trains.getD 1 []) (s.trains.getD 2 [])))) ∧
  (∀ (step code : Nat) (rs : List Bool),
    (∀ i, firstFail rs = some i → bringParts step code rs = BitVec.ofNat 64 (step + 32 + 256 * (code + i))) ∧
    (firstFail rs = none → bringParts step code rs = BitVec.ofNat 64 (step + 1))) ∧
  ∀ s : State, moduleReady (becomeReady s) = true ∧ devStep (becomeReady s) = 7

/-- R344, R6, R320, R343: every request of SPDM is answered at the port it came by, if that port is in use, and changes nothing
else: with version 1.3, the algorithms P-384 and SHA-384, the digest of the certificate chain, the chain, a signature over the
nonce, or the measurements, the SHA-384 digests of images 0 to 2 under indices 1 to 3 and of the fused configuration under 4
(that there is one chain, and what the capabilities hold, is the part's own: log 84). A register write of a READY module acts on
the register at its offset; before that every register but DEVRDY ignores it. -/
def Obligations.ManagementEventsComplete : Prop :=
  (∀ (x : SpdmReq) (s : State),
    let answers := fun (i : Instr) (a : SpdmAnswer) =>
      exec i s = .next (if portUp s x.port then { s with outputs := s.outputs ++ [.spdm x.port a] } else s)
    answers (.getVersion x) (.version 1 3) ∧ answers (.getCapabilities x) (.capabilities Config.spdmCapabilities) ∧
    answers (.negotiateAlgorithms x) (.algorithms .ecdsaP384 .sha384) ∧
    answers (.getDigests x) (.digests [Config.sha384 Config.certificate]) ∧
    answers (.getCertificate x) (.certificate Config.certificate) ∧
    answers (.challenge x) (.challenge (Config.spdmSign x.nonce)) ∧
    ∃ ms, answers (.getMeasurements x) (.measurements ms) ∧
      (∀ k < 3, ∀ f, s.images[k]? = some f → (k + 1, Config.sha384 f.bytes) ∈ ms) ∧
      (4, Config.sha384 Config.fusedConfig) ∈ ms ∧ ∀ e ∈ ms, 1 ≤ e.1 ∧ e.1 ≤ 4) ∧
  (∀ (p : Port) (r : RegAddr) (v : DWord) (s : State), ∃ t, exec (.registerWrite p r v) s = .next t) ∧
  (∀ (p : Port) (r : RegAddr) (v : DWord) (s : State), moduleReady s = false → regOf p r ≠ .devrdy →
    exec (.registerWrite p r v) s = .next s) ∧
  (∀ (p : Port) (r : RegAddr) (v : DWord) (s : State), portUp s p = true → regOf p r = .devrdy →
    exec (.registerWrite p r v) s = .next (writeDevrdy s v)) ∧
  (∀ (p : Port) (r : RegAddr) (v : DWord) (s : State), portUp s p = false → exec (.registerWrite p r v) s = .next s) ∧
  ∀ (p : Port) (r : RegAddr) (v : DWord) (s : State), portReady s p = true →
    ∃ t, writeReg s p r v = .next t ∧ exec (.registerWrite p r v) s = .next t

/-! ## Results

What the rules say that a word computes. -/

/-- R147, R149, R150: the integer words compute on the integers that their sources denote and keep the result modulo 2^w,
with SAT its nearest bound; the logic words work bit by bit; a shift or rotation takes its count modulo the width. -/
def Obligations.IntegerResults : Prop :=
  (∀ x : IntOp,
    let w := shape x.g x.d (intRegs x.ty) [x.a, x.b]
    lanesGive (.iadd x) w (fun _ _ vs => saturated x.ty x.sat (val x.ty vs 0 + val x.ty vs 1)) ∧
    lanesGive (.isub x) w (fun _ _ vs => saturated x.ty x.sat (val x.ty vs 0 - val x.ty vs 1)) ∧
    lanesGive (.imul x) w (fun _ _ vs => saturated x.ty x.sat (val x.ty vs 0 * val x.ty vs 1)) ∧
    lanesGive (.imulhi x) w (fun _ _ vs =>
      saturated x.ty x.sat (val x.ty vs 0 * val x.ty vs 1 / 2 ^ tyBits x.ty)) ∧
    lanesGive (.imin x) w (fun _ _ vs => saturated x.ty x.sat (min (val x.ty vs 0) (val x.ty vs 1))) ∧
    lanesGive (.imax x) w (fun _ _ vs => saturated x.ty x.sat (max (val x.ty vs 0) (val x.ty vs 1)))) ∧
  (∀ x : Int3Op,
    lanesGive (.imad x) (shape x.g x.d (intRegs x.ty) [x.a, x.b, x.c])
      (fun _ _ vs => (patOf (tyBits x.ty) (val x.ty vs 0 * val x.ty vs 1 + val x.ty vs 2), 0)) ∧
    lanesGive (.imadw x) ⟨x.g, x.d, 2, [(x.a, 1), (x.b, 1), (x.c, 2)]⟩
      (fun _ _ vs => (patOf 64 (val x.ty vs 0 * val x.ty vs 1 + (arg vs 2 : Int)), 0))) ∧
  (∀ x : IabsOp, lanesGive (.iabs x) (shape x.g x.d (intRegs x.ty) [x.a])
    (fun _ _ vs => saturated x.ty x.sat |val x.ty vs 0|)) ∧
  (∀ x : LogicOp,
    let bits := if x.w64 then 64 else 32
    let w := shape x.g x.d (widthRegs x.w64) [x.a, x.b]
    lanesMeet (.and x) w (fun vs v => ∀ k, nbit v k = (nbit (arg vs 0) k && nbit (arg vs 1) k)) ∧
    lanesMeet (.or x) w (fun vs v => ∀ k, nbit v k = (nbit (arg vs 0) k || nbit (arg vs 1) k)) ∧
    lanesMeet (.xor x) w (fun vs v => ∀ k, nbit v k = (nbit (arg vs 0) k != nbit (arg vs 1) k)) ∧
    lanesMeet (.andn x) w (fun vs v => ∀ k < bits, nbit v k = (nbit (arg vs 0) k && !nbit (arg vs 1) k)) ∧
    lanesMeet (.orn x) w (fun vs v => ∀ k < bits, nbit v k = (nbit (arg vs 0) k || !nbit (arg vs 1) k))) ∧
  (∀ x : LogicOp,
    let bits := if x.w64 then 64 else 32
    let w : LaneShape := ⟨x.g, x.d, widthRegs x.w64, [(x.a, widthRegs x.w64), (x.b, 1)]⟩
    lanesGive (.shl x) w (fun _ _ vs => (arg vs 0 * 2 ^ (arg vs 1 % bits) % 2 ^ bits, 0)) ∧
    lanesGive (.shr x) w (fun _ _ vs => (arg vs 0 / 2 ^ (arg vs 1 % bits), 0)) ∧
    lanesGive (.sar x) w (fun _ _ vs => (patOf bits (intOf true bits (arg vs 0) / 2 ^ (arg vs 1 % bits)), 0)) ∧
    lanesMeet (.rotl x) w (fun vs v => arg vs 0 < 2 ^ bits →
      v < 2 ^ bits ∧ ∀ k < bits, nbit v ((k + arg vs 1) % bits) = nbit (arg vs 0) k)) ∧
  ∀ x : Op3F, lanesGive (.fshf x) (shape x.g x.d 1 [x.a, x.b, x.c]) (fun _ _ vs =>
    let n := arg vs 2 % 32
    (if x.flag then (arg vs 1 * 2 ^ 32 + arg vs 0) * 2 ^ n / 2 ^ 32 % 2 ^ 32
     else (arg vs 1 * 2 ^ 32 + arg vs 0) / 2 ^ n % 2 ^ 32, 0))

/-- R151 to R157: the bit fields, permutes, counts, addresses, selections and moves, bit by bit. -/
def Obligations.BitFieldResults : Prop :=
  (∀ x : BfxOp, lanesMeet (.bfx x) (shape x.g x.d 1 [x.a, x.b]) fun vs v =>
    let pos := arg vs 1 % 256
    let len := min (arg vs 1 / 256 % 256) 32
    let a : Int := if x.sx then intOf true 32 (arg vs 0) else (arg vs 0 % 2 ^ 32 : Nat)
    let f := a / 2 ^ pos % 2 ^ len
    (len = 0 → v = 0) ∧
    (len ≠ 0 → x.sx = true → 2 ^ (len - 1) ≤ f → (v : Int) = (f - 2 ^ len) % 2 ^ 32) ∧
    (len ≠ 0 → (x.sx = false ∨ f < 2 ^ (len - 1)) → (v : Int) = f)) ∧
  (∀ x : Op3, lanesMeet (.bfi x) (shape x.g x.d 1 [x.a, x.b, x.c]) fun vs v =>
    let pos := arg vs 1 % 256
    let len := min (arg vs 1 / 256 % 256) 32
    v < 2 ^ 32 ∧ ∀ j < 32, nbit v j =
      if pos ≤ j ∧ j < min (pos + len) 32 then nbit (arg vs 0) (j - pos) else nbit (arg vs 2) j) ∧
  (∀ x : Op3,
    let w : LaneShape := ⟨x.g, x.d, 1, [(x.a, 1), (x.b, 1)] ++ if isImm x.b then [] else [(x.c, 1)]⟩
    lanesMeet (.prmt x) w fun vs v => v < 2 ^ 32 ∧ ∀ k < 4,
      let sel := arg vs 1 / 2 ^ (4 * k) % 16
      let y := (if sel % 8 < 4 then arg vs 0 else arg vs 2) / 2 ^ (8 * (sel % 4)) % 256
      arg vs 0 < 2 ^ 32 → v / 2 ^ (8 * k) % 256 = if 8 ≤ sel then (if 128 ≤ y then 255 else 0) else y) ∧
  (∀ x : Op1,
    let w := shape x.g x.d 1 [x.a]
    lanesMeet (.popc x) w (fun vs v => v = ((List.range 32).filter fun k => nbit (arg vs 0) k).length) ∧
    lanesMeet (.clz x) w (fun vs v => arg vs 0 < 2 ^ 32 →
      (arg vs 0 = 0 → v = 32) ∧
      (arg vs 0 ≠ 0 → v < 32 ∧ nbit (arg vs 0) (31 - v) = true ∧ ∀ k, 31 - v < k → nbit (arg vs 0) k = false)) ∧
    lanesMeet (.ctz x) w (fun vs v => arg vs 0 < 2 ^ 32 →
      (arg vs 0 = 0 → v = 32) ∧
      (arg vs 0 ≠ 0 → v < 32 ∧ nbit (arg vs 0) v = true ∧ ∀ k < v, nbit (arg vs 0) k = false)) ∧
    lanesMeet (.brev x) w (fun vs v => v < 2 ^ 32 ∧ ∀ j < 32, nbit v j = nbit (arg vs 0) (31 - j))) ∧
  (∀ x : LeaOp, lanesGive (.lea x) ⟨x.g, x.d, widthRegs x.w64, [(x.a, widthRegs x.w64), (x.b, 1)]⟩ fun _ _ vs =>
    (if x.w64 then patOf 64 (arg vs 0 + (if x.zx then ((arg vs 1 % 2 ^ 32 : Nat) : Int) else intOf true 32 (arg vs 1)) * 2 ^ x.sh.val)
     else (arg vs 0 + arg vs 1 * 2 ^ x.sh.val) % 2 ^ 32, 0)) ∧
  (∀ x : SelOp, lanesGive (.sel x) (shape x.g x.d 1 [x.a, x.b]) fun y l vs =>
    (if (readP y x.ps.val l != x.pn) = true then arg vs 0 else arg vs 1, 0)) ∧
  ∀ x : Op1F, lanesGive (.mov x) (shape x.g x.d (widthRegs x.flag) [x.a]) fun _ _ vs =>
    (if x.flag = true ∧ isImm x.a = true then patOf 64 (intOf true 32 (arg vs 0)) else arg vs 0, 0)

/-- R114, R158, R159, R161 to R163: the floating-point words apply absolute value, then negation, to their operands and
round the exact sum, product or quotient once; a root is the pattern nearest to the true one; the packed words compute on
each 16-bit element and OR the flags. -/
def Obligations.FloatResults : Prop :=
  (∀ x : FpOp,
    let w := shape x.g x.d 1 [x.a, x.b]
    let a := fun vs => modA ffF32 x.m (arg vs 0)
    let b := fun vs => modB ffF32 x.m (arg vs 1)
    lanesGive (.fadd x) w (fun _ _ vs => fpSum ffF32 [] [fvOf ffF32 (a vs), fvOf ffF32 (b vs)]) ∧
    lanesGive (.fsub x) w (fun _ _ vs => fpSum ffF32 [] [fvOf ffF32 (a vs), flipV (fvOf ffF32 (b vs))]) ∧
    lanesGive (.fmul x) w (fun _ _ vs => fpSum ffF32 [(fvOf ffF32 (a vs), fvOf ffF32 (b vs))] []) ∧
    lanesGive (.fmin x) w (fun _ _ vs => fpMinMax ffF32 false (a vs) (b vs)) ∧
    lanesGive (.fmax x) w (fun _ _ vs => fpMinMax ffF32 true (a vs) (b vs))) ∧
  (∀ x : Fp3Op, lanesGive (.ffma x) (shape x.g x.d 1 [x.a, x.b, x.c]) fun _ _ vs =>
    fpSum ffF32 [(fvOf ffF32 (modA ffF32 x.m (arg vs 0)), fvOf ffF32 (modB ffF32 x.m (arg vs 1)))]
      [fvOf ffF32 (modC ffF32 x.m (arg vs 2))]) ∧
  (∀ x : SfuOp,
    let w := shape x.g x.d 1 [x.a]
    let a := fun vs => fvOf ffF32 (fmodPat ffF32 x.na x.aa (arg vs 0))
    lanesGive (.frcp x) w (fun _ _ vs =>
      match a vs with
      | .nan => (0x7FC00000, 0)
      | .inf n => (signPat ffF32 n 0, 0)
      | .fin n m e => if m = 0 then (signPat ffF32 n 0x7F800000, 0) else roundArith ffF32 n 1 m (-e)) ∧
    lanesHold (.fsqrt x) w (fun vs r =>
      match a vs with
      | .nan => r = (0x7FC00000, 0)
      | .inf n => r = if n then (0x7FC00000, flagInv) else (0x7F800000, 0)
      | .fin n m e => if m = 0 then r = (signPat ffF32 n 0, 0) else if n then r = (0x7FC00000, flagInv)
        else r.2 = 0 ∧ r.1 ≤ ffF32.maxPat ∧ ∀ q : Nat,
          |(patVal ffF32 r.1 : ℝ) - Real.sqrt (ratio m 1 e)| ≤ |(patVal ffF32 q : ℝ) - Real.sqrt (ratio m 1 e)| ∧
          (q ≠ r.1 → |(patVal ffF32 r.1 : ℝ) - Real.sqrt (ratio m 1 e)| = |(patVal ffF32 q : ℝ) - Real.sqrt (ratio m 1 e)| →
            r.1 % 2 = 0))) ∧
  (∀ x : Op1, lanesGive (.fclass x) (shape x.g x.d 1 [x.a]) fun _ _ vs => (2 ^ fpClass (BitVec.ofNat 32 (arg vs 0)), 0)) ∧
  (∀ x : HOp,
    let w := shape x.g x.d 1 [x.a, x.b]
    let f := if x.bf then ffBf16 else ffF16
    let a := fun vs k => fvOf f (modA f x.m (arg vs 0 / 2 ^ (16 * k) % 2 ^ 16))
    let b := fun vs k => fvOf f (modB f x.m (arg vs 1 / 2 ^ (16 * k) % 2 ^ 16))
    lanesGive (.hadd2 x) w (fun _ _ vs =>
      let r := fun k => fpSum f [] [a vs k, b vs k]
      ((r 0).1 + (r 1).1 * 2 ^ 16, (r 0).2 ||| (r 1).2)) ∧
    lanesGive (.hmul2 x) w (fun _ _ vs =>
      let r := fun k => fpSum f [(a vs k, b vs k)] []
      ((r 0).1 + (r 1).1 * 2 ^ 16, (r 0).2 ||| (r 1).2))) ∧
  (∀ x : HmOp,
    let f := if x.bf then ffBf16 else ffF16
    lanesGive (.hmnmx2 x) (shape x.g x.d 1 [x.a, x.b]) fun _ _ vs =>
      let r := fun k => fpMinMax f x.max (modA f x.m (part 16 k (arg vs 0))) (modB f x.m (part 16 k (arg vs 1)))
      ((r 0).1 + (r 1).1 * 2 ^ 16, (r 0).2 ||| (r 1).2)) ∧
  ∀ x : H3Op,
    let f := if x.bf then ffBf16 else ffF16
    lanesGive (.hfma2 x) (shape x.g x.d 1 [x.a, x.b, x.c]) fun _ _ vs =>
      let r := fun k => fpSum f
        [(fvOf f (modA f x.m (arg vs 0 / 2 ^ (16 * k) % 2 ^ 16)), fvOf f (modB f x.m (arg vs 1 / 2 ^ (16 * k) % 2 ^ 16)))]
        [fvOf f (modC f x.m (arg vs 2 / 2 ^ (16 * k) % 2 ^ 16))]
      ((r 0).1 + (r 1).1 * 2 ^ 16, (r 0).2 ||| (r 1).2)

/-- R162: the approximating functions give their special operands what the table says, and every other one a value within
the bound of the true one, rounded once, the same wherever it is computed. The true value is the model's exact computation of
it, whose error the slack of `approximates` covers (log 11); of 1 / √x that is stated of the real number itself. -/
def Obligations.ApproximateResults : Prop :=
  (∀ x : SfuOp,
    let w := shape x.g x.d 1 [x.a]
    let a := fun vs => fvOf ffF32 (fmodPat ffF32 x.na x.aa (arg vs 0))
    let nan : Nat × FlagSet := (0x7FC00000, 0)
    let bad : Nat × FlagSet := (0x7FC00000, flagInv)
    lanesHold (.frsq x) w (fun vs r =>
      match a vs with
      | .nan => r = nan
      | .inf n => r = if n then bad else (0, 0)
      | .fin n m e => if m = 0 then r = (signPat ffF32 n 0x7F800000, 0) else if n then r = bad
        else approximates (rsqTrue m e) (ulps 1) r) ∧
    lanesHold (.fex2 x) w (fun vs r =>
      match a vs with
      | .nan => r = nan
      | .inf n => r = if n then (0, 0) else (0x7F800000, 0)
      | .fin n m e => if m = 0 then r = (0x3F800000, 0)
        else if (128 : ℚ) ≤ dyVal (dyOf n m e) then r = (0x7F800000, flagOvf)
        else ∃ k : Int, (k : ℚ) ≤ dyVal (dyOf n m e) ∧ dyVal (dyOf n m e) < k + 1 ∧ approximates (ex2True n m e k) (ulps 2) r) ∧
    lanesHold (.flg2 x) w (fun vs r =>
      match a vs with
      | .nan => r = nan
      | .inf n => r = if n then bad else (0x7F800000, 0)
      | .fin n m e => if m = 0 then r = (0xFF800000, 0) else if n then r = bad
        else approximates (lg2True m e) (if 1 / 2 ≤ ratio m 1 e ∧ ratio m 1 e ≤ 2 then absErr 22 else ulps 2) r) ∧
    lanesHold (.fsin x) w (fun vs r =>
      match a vs with
      | .fin n m e => if m = 0 then r = (signPat ffF32 n 0, 0) else approximates (sinTrue n m e) (absErr 21) r
      | _ => r = nan) ∧
    lanesHold (.fcos x) w (fun vs r =>
      match a vs with
      | .fin _ m e => if m = 0 then r = (0x3F800000, 0) else approximates (cosTrue m e) (absErr 21) r
      | _ => r = nan) ∧
    lanesHold (.ftanh x) w (fun vs r =>
      match a vs with
      | .nan => r = nan
      | .inf n => r = (signPat ffF32 n 0x3F800000, 0)
      | .fin n m e => if m = 0 then r = (signPat ffF32 n 0, 0) else approximates (tanhTrue n m e) (ulps 2) r)) ∧
  ∀ (m : Nat) (e : Int), 0 < m → m < 2 ^ 24 →
    |(dyVal (rsqTrue m e) : ℝ) - 1 / Real.sqrt (ratio m 1 e)| ≤ dyVal (slack (rsqTrue m e))

/-- R109 to R113, R118, R164 to R169: a conversion keeps the exact value where the format has it, and else rounds it once to
nearest or toward zero, with the bounds and flags of its format; a block has the scale that its greatest magnitude chooses
and four converted elements; a packed element replaces its own bits; a codebook's entry takes the place of its code; a dot
product rounds or saturates its exact sum once. -/
def Obligations.ConversionResults : Prop :=
  (∀ x : CvtOp, lanesHold (.cvt x) ⟨x.g, x.d, fmtRegs x.df, [(x.a, fmtRegs x.sf)]⟩ fun vs r =>
    ∃ p, convertsTo x.sf x.df x.rz
        (valueIn x.sf (part (fmtBits x.sf) (if fmtBits x.sf < 32 then x.esel.val else 0) (arg vs 0))) (p, r.2) ∧
      r.1 = if fmtSigned x.df = true ∧ fmtBits x.df < 32 then patOf 32 (intOf true (fmtBits x.df) p) else p) ∧
  (∀ x : CvtqOp, lanesHold (.cvtq x) ⟨x.g, x.d, qRegs x.qf, [(x.a, 4)] ++ (x.fix.map fun b => (b, 1)).toList⟩ fun vs r =>
    let v := fun k => fvOf ffF32 (part 32 k (arg vs 0))
    let nan := v 0 = .nan ∨ v 1 = .nan ∨ v 2 = .nan ∨ v 3 = .nan
    let top := max (max (magnitude (v 0)) (magnitude (v 1))) (max (magnitude (v 2)) (magnitude (v 3)))
    let w := fmtBits (qElem x.qf)
    ∃ (sc : Nat) (el : Nat → Nat × FlagSet),
      r = ((el 0).1 + (el 1).1 * 2 ^ w + (el 2).1 * 2 ^ (2 * w) + (el 3).1 * 2 ^ (3 * w) + sc * 2 ^ (4 * w),
        (el 0).2 ||| (el 1).2 ||| (el 2).2 ||| (el 3).2) ∧
      (nan → sc = 255) ∧
      (¬ nan → x.fix.isSome = true → sc = arg vs 1 % 256) ∧
      (¬ nan → x.fix = none → (top = 0 → sc = 127) ∧
        (top ≠ 0 → (sc : Int) = max 0 (min 254 (Int.log 2 top - qEmax x.qf + 127)))) ∧
      (sc = 255 → ∀ k < 4, el k = (0, 0)) ∧
      (sc ≠ 255 → ∀ k < 4, convertsTo .f32 (qElem x.qf) false (scaleV (v k) (127 - sc)) (el k))) ∧
  (∀ x : CvtdqOp, lanesHold (.cvtdq x) ⟨x.g, x.d, if x.dq = .f32 then 4 else 2, [(x.a, qRegs x.qf)]⟩ fun vs r =>
    let w := fmtBits (qElem x.qf)
    let d := fmtBits (dqFmt x.dq)
    let sc := arg vs 0 / 2 ^ (4 * w) % 256
    ∃ el : Nat → Nat × FlagSet,
      r = ((el 0).1 + (el 1).1 * 2 ^ d + (el 2).1 * 2 ^ (2 * d) + (el 3).1 * 2 ^ (3 * d),
        (el 0).2 ||| (el 1).2 ||| (el 2).2 ||| (el 3).2) ∧
      ∀ k < 4, convertsTo (qElem x.qf) (dqFmt x.dq) false
        (if sc = 255 then .nan else scaleV (valueIn (qElem x.qf) (part w k (arg vs 0))) ((sc : Int) - 127)) (el k)) ∧
  (∀ x : PackOp, lanesHold (.pack x) (shape x.g x.d 1 [x.a, x.b]) fun vs r =>
    let w := elBits x.w
    let n : Nat × FlagSet := match x.sm with
      | .trunc => (arg vs 0 % 2 ^ w, 0)
      | .sats => clamped true w (intOf true 32 (arg vs 0))
      | .satn => clamped false w (intOf true 32 (arg vs 0))
    r.2 = n.2 ∧ (arg vs 1 < 2 ^ 32 → x.el.val < 32 / w → r.1 < 2 ^ 32 ∧
      ∀ k < 32 / w, part w k r.1 = if k = x.el.val then n.1 else part w k (arg vs 1))) ∧
  (∀ x : UnpkOp, lanesGive (.unpk x) (shape x.g x.d 1 [x.a]) fun _ _ vs =>
    (patOf 32 (intOf x.sx (elBits x.w) (part (elBits x.w) x.el.val (arg vs 0))), 0)) ∧
  (∀ x : LutxOp, lanesGive (.lutx x) ⟨x.g, x.d, if x.f32 then 4 else 2, [(x.a, 1)]⟩ fun y _ vs =>
    let c := fun k => part 4 ((if x.hi then 4 else 0) + k) (arg vs 0)
    let e := fun k => part 16 (c k % 2) (readS y (x.sb + c k / 2)).toNat
    let v := fun k => if x.f32 then (if 0x7F80 < e k % 2 ^ 15 then 0x7FC00000 else e k * 2 ^ 16) else e k
    let w := if x.f32 then 32 else 16
    (v 0 + v 1 * 2 ^ w + v 2 * 2 ^ (2 * w) + v 3 * 2 ^ (3 * w), 0)) ∧
  (∀ x : IdpOp,
    let w := shape x.g x.d 1 [x.a, x.b, x.c]
    let sum := fun b n vs => intOf true 32 (arg vs 2) +
      ∑ k ∈ Finset.range n, intOf (!x.ua) b (part b k (arg vs 0)) * intOf (!x.ub) b (part b k (arg vs 1))
    lanesGive (.idp4 x) w (fun _ _ vs => saturated .i32 x.sat (sum 8 4 vs)) ∧
    lanesGive (.idp8 x) w (fun _ _ vs => saturated .i32 x.sat (sum 4 8 vs))) ∧
  (∀ x : Fdp4Op,
    let fa := if x.fa then ffE5m2 else ffE4m3
    let fb := if x.fb then ffE5m2 else ffE4m3
    lanesGive (.fdp4 x) (shape x.g x.d 1 [x.a, x.b, x.c]) fun _ _ vs =>
      fpSum ffF32 ((List.range 4).map fun k => (fvOf fa (part 8 k (arg vs 0)), fvOf fb (part 8 k (arg vs 1))))
        [fvOf ffF32 (arg vs 2)]) ∧
  ∀ x : Op3F,
    let f := if x.flag then ffBf16 else ffF16
    lanesGive (.fdp2 x) (shape x.g x.d 1 [x.a, x.b, x.c]) fun _ _ vs =>
      fpSum ffF32 ((List.range 2).map fun k => (fvOf f (part 16 k (arg vs 0)), fvOf f (part 16 k (arg vs 1))))
        [fvOf ffF32 (arg vs 2)]

/-- R112: the one rounding is to nearest: no pattern of the format has a value nearer to the exact magnitude, and of two
as near the even one is taken. -/
def Obligations.RoundsToNearest : Prop :=
  ∀ f ∈ [ffF32, ffF16, ffBf16, ffE4m3, ffE5m2, ffE2m1], ∀ (n d : Nat) (e : Int) (p q : Nat), 0 < d →
    p = roundPat f n d e →
    |patVal f p - ratio n d e| ≤ |patVal f q - ratio n d e| ∧
    (q ≠ p → |patVal f p - ratio n d e| = |patVal f q - ratio n d e| → p % 2 = 0)

/-! ## Frames -/

/-- R139, R123: a word that computes lane by lane changes its destination's registers in the active lanes, FSTAT by bits
that it sets, a destination channel, its slot and the paths that merge; every other register, predicate, special register,
channel, crew, block and unit and every byte of memory is as its sources left it; sources that are no channels leave
everything as it was. -/
def Obligations.LaneWordFrame : Prop :=
  ∀ (i : Instr) (w : LaneShape) (s t u : State) (h : Here) (vs : List (Nat → Nat)), laneShape i = some w → passes i s h →
    laneMask h w ≠ 0 → runs (readSrcsE h (laneMask h w) w.srcs) s vs t → exec i s = .next u →
    (plainSrcs w.srcs = true → t = s) ∧
    sameButBlocks t u ∧ sameOtherCrews t u h.b h.c ∧ sameBytes t u ∧
    ∀ y z, crewOf t h.b h.c = some y → crewOf u h.b h.c = some z →
      (∀ k l, (¬ writesV h w k l ∨ inCapsule h.crew (hMask h) = true) → l < 32 → readV z k l = readV y k l) ∧
      (∀ k, ¬ writesK .s w k → readS z k = readS y k) ∧
      (∀ k, (¬ writesK .v w k ∨ inCapsule h.crew (hMask h) = false) → readK z k = readK y k) ∧
      (∀ k, y.fstat.getLsbD k = true → z.fstat.getLsbD k = true) ∧
      (∀ k, 4 ≤ k → z.fstat.getLsbD k = y.fstat.getLsbD k) ∧
      (∀ c, (∀ pk, w.d ≠ .chan c pk) → chanOf z c = chanOf y c) ∧
      sameSpecial y z

/-- R45, R62, R81, R91, R187: where no byte that an `STS` names is moored but by a line already DRT, nothing that its lanes did
before holds the bytes back, and every lane lies within the stash, it stores each lane's bytes at base + offset, the highest
lane last, or leaves them all to requests of its lines. Stored at once, it changes no other byte, no register and no other
crew: beside the bytes, only the write times of the home lines that it maps, what reads of the bytes synchronise with, the
crew's T and what it has read ahead. Left to requests, it changes no byte and no register. -/
def Obligations.StashStoreFrame : Prop :=
  ∀ (x : MemOp) (s : State) (h : Here), passes (.sts x) s h → activeMask h x.g ≠ 0 → Memory.wf s.mem = true →
    (∀ p ∈ stashStores s h x (activeMask h x.g), p.va + sizeBytes x.sz ≤ h.blk.kern.stash ∧
      acquireOut s h.b h.c (laneBit p.lane) = false ∧
      (∀ e ∈ touchedLines s h.blk.core (h.blk.base + p.va) (sizeBytes x.sz), (mlineOf s h.blk.core e.1 e.2).st = .drt) ∧
      (∀ a ∈ accsOf (stashPa h.blk.core (h.blk.base + p.va)) (sizeBytes x.sz) 0 (laneBit p.lane),
        mustWait s h.b h.c none a = false) ∧
      ∀ pa ∈ mappedPas s h.blk.core (h.blk.base + p.va) (sizeBytes x.sz), versioned s (pa / 128) = false ∧
        mustWait s h.b h.c none ⟨pa, laneBit p.lane, 0, false⟩ = false) →
    ∃ t, exec (.sts x) s = .next (wordOver t h) ∧ sameOtherCrews s t h.b h.c ∧
      (∃ y, crewOf t h.b h.c = some y ∧ y = { h.crew with tBase := y.tBase, glimpses := y.glimpses }) ∧
      ((t = { s with
            mem := t.mem, marks := t.marks, lines := t.lines, floors := t.floors, blocks := t.blocks, free := t.free } ∧
        (∀ q, (∀ p ∈ stashStores s h x (activeMask h x.g), ∀ k < sizeBytes x.sz,
          placeKey q ≠ placeKey (.stash h.blk.core (h.blk.base + p.va + k))) → byteAt t q = byteAt s q) ∧
        ∀ l, (activeMask h x.g).getLsbD l = true → l < 32 →
          (∀ l', l < l' → l' < 32 → (activeMask h x.g).getLsbD l' = true →
            localOff s h x l' + sizeBytes x.sz ≤ localOff s h x l ∨ localOff s h x l + sizeBytes x.sz ≤ localOff s h x l') →
          bytesAt t (.stash h.blk.core (h.blk.base + localOff s h x l)) (sizeBytes x.sz) =
            leBytes (sizeBytes x.sz) (srcNum s h x.d (sizeRegs x.sz) l)) ∨
      (sameBytes s t ∧ t = { s with
        reqs := t.reqs, agenda := t.agenda, nextId := t.nextId, free := t.free, blocks := t.blocks }))

/-! ## Traps, faults and the order of checks -/

/-- R28, R237: a program trap is taken for the lanes active for the word. With launch flag bit 3 set they enter the handler
and no record is posted; where the slot's other lanes would be the 33rd spilled path, the whole slot enters it with `DIVOVF`
(the model's choice, log 73); with the bit clear the grid is ended with error and one record is posted with the trap's cause, PC, CODE and
MASK, ENDED set, its INFO KIND 0 and the address that the frame would hold (records that its blocks kept for their saves follow it, log 18). `TRAP` with a lane active takes it, and with none
does nothing; `DIVOVF` is taken at the branch that would spill. -/
def Obligations.TrapIsTaken : Prop :=
  (∀ (s : State) (h : Here) (cause : Cause) (code : Nat) (at10 : DWord) (m : Mask),
    s.blocks.find h.b = some h.blk → h.blk.crews.find h.c = some h.crew → h.crew.handler = none →
    let t := takeTrapMask s h cause code at10 m
    let addr := if inCapsule h.crew m then (capRecord h.crew m).getD 0 else at10
    (nbit (flagsOf s h.blk) 3 = true → (∀ die, waitingRecs t die = waitingRecs s die) ∧
      ∃ y hd, crewOf t h.b h.c = some y ∧ y.handler = some hd ∧ hd.slot = h.k ∧
        hd.cause = (if spillsOver h m then .divovf else cause) ∧
        (slotOf y h.k).pc = h.blk.kern.handler ∧ (slotOf y h.k).mask = (if spillsOver h m then hMask h else m) ∧
        (slotOf y h.k).st = .ready) ∧
    (nbit (flagsOf s h.blk) 3 = false → gridEnded s t h fun r => r.cause = cause ∧ r.pc = hPc h ∧ r.mask = m ∧
      r.addr = addr ∧ r.info / 2 % 8 = 0 ∧ (codeStated cause = true → r.code = code))) ∧
  (∀ (g : Guard) (code : BitVec 16) (s : State) (h : Here), passes (.trap g code) s h →
    exec (.trap g code) s = .next (if activeMask h g = 0 then counted h (nextWord s h)
      else takeTrapMask s h .trap code.toNat 0 (activeMask h g))) ∧
  ∀ (g : Guard) (off : Word) (s : State) (h : Here), passes (.bra g off) s h → activeMask h g ≠ 0 →
    activeMask h g ≠ hMask h → h.crew.handler = none → (slotOf h.crew (1 - h.k)).mask ≠ 0 →
    awaitsHome (slotOf h.crew (1 - h.k)) = false → Config.stackDepth ≤ h.crew.spills.length →
    exec (.bra g off) s = .next (takeTrap s h .divovf 0 0)

/-- R238: in handler mode a divergent transfer, `JOIN`, `LSER`, `WAIT` and every program trap end the grid with error: one
record, with the cause of the trap that the handler serves, CODE 0xFFFF and ENDED. That the cause is that of the trap being
served, where the new trap's could be meant, is the model's reading (log 96). -/
def Obligations.HandlerErrorsEndGrid : Prop :=
  (∀ (s : State) (h : Here) (hd : Handler) (cause : Cause) (code : Nat) (at10 : DWord) (m : Mask),
    s.blocks.find h.b = some h.blk → h.blk.crews.find h.c = some h.crew → h.crew.handler = some hd →
    gridEnded s (takeTrapMask s h cause code at10 m) h fun r =>
      r.cause = hd.cause ∧ r.code = 0xFFFF ∧ r.pc = hPc h ∧ r.mask = m) ∧
  ∀ (i : Instr) (s : State) (h : Here) (hd : Handler), passes i s h → h.crew.handler = some hd →
    ((∃ off, i = .join off) ∨ i = .lser ∨ (∃ pd a b c, i = .waitBar pd a b c) ∨ (∃ pd a b c, i = .waitBmp pd a b c) ∨
      (∃ pd n c, i = .waitAc pd n c) ∨ (∃ pd a b c, i = .waitTl pd a b c) ∨
      (∃ g off, i = .bra g off ∧ activeMask h g ≠ 0 ∧ activeMask h g ≠ hMask h) ∨
      (∃ g d off, i = .call g d off ∧ activeMask h g ≠ 0 ∧ activeMask h g ≠ hMask h) ∨
      (∃ g a, i = .brx g a ∧ activeMask h g ≠ 0 ∧
        sameTarget (activeMask h g) (fun l => relTarget h (BitVec.ofNat 32 (srcNum s h a 1 l))) ≠ hMask h) ∨
      (∃ g d a, i = .callx g d a ∧ activeMask h g ≠ 0 ∧
        sameTarget (activeMask h g) (fun l => BitVec.ofNat 64 (srcNum s h a 2 l)) ≠ hMask h) ∨
      ∃ g a, i = .ret g a ∧ activeMask h g ≠ 0 ∧
        sameTarget (activeMask h g) (fun l => BitVec.ofNat 64 (srcNum s h a 2 l)) ≠ hMask h) →
    ∃ t, exec i s = .next t ∧ gridEnded s t h fun r => r.cause = hd.cause ∧ r.code = 0xFFFF ∧ r.pc = hPc h

/-- R28, R238: entry to the handler writes the frame of the crew at P − 128 × (C − c), holds the other slot, the spilled
entries, the points, the slot's region and every register, and adds a spilled entry, in the crew's stack, for the lanes of
the slot that did not trap (that they are spilled is the model's reading, log 48; where the entry lies, log 73); no byte
outside the frame and that entry's 16 changes. A `RET` of all the handler's lanes ends handler mode. -/
def Obligations.HandlerEntryAndReturn : Prop :=
  (∀ (s : State) (h : Here) (cause : Cause) (code : Nat) (at10 : DWord) (m : Mask),
    s.blocks.find h.b = some h.blk → h.blk.crews.find h.c = some h.crew → h.crew.handler = none → h.k < 2 →
    nbit (flagsOf s h.blk) 3 = true → codeStated cause = true → code < 2 ^ 16 → Memory.wf s.mem = true →
    h.c < h.blk.kern.crews → 128 * h.blk.kern.crews ≤ h.blk.kern.stash → spillsOver h m = false →
    let t := takeTrapMask s h cause code at10 m
    let f := fun o => Place.stash h.blk.core (h.blk.base + (h.blk.kern.stash - 128 * (h.blk.kern.crews - h.c)) + o)
    numAt t (f 0) 1 = causeCode cause ∧ numAt t (f 1) 1 = h.k + (if inCapsule h.crew m then 16 else 0) ∧
    numAt t (f 2) 2 = code ∧ numAt t (f 4) 4 = m.toNat ∧ numAt t (f 8) 8 = (hPc h).toNat ∧
    numAt t (f 16) 8 = (if inCapsule h.crew m then (capRecord h.crew m).getD 0 else at10).toNat ∧ numAt t (f 24) 40 = 0 ∧
    (∀ q, (placeKey q < placeKey (f 0) ∨ placeKey (f 0) + 128 ≤ placeKey q) →
      (let e := placeKey (.stash h.blk.core (h.blk.base + h.blk.kern.stash + 512 * h.c + 16 * h.crew.spills.length))
       hMask h &&& ~~~m = 0 ∨ placeKey q < e ∨ e + 16 ≤ placeKey q) → byteAt t q = byteAt s q) ∧
    ∃ y, crewOf t h.b h.c = some y ∧ y.handler.bind (fun hd => hd.region) = (hSlot h).region ∧ slotOf y (1 - h.k) = slotOf h.crew (1 - h.k) ∧ y.joins = h.crew.joins ∧
      sameRegs h.crew y ∧
      y.spills = (if hMask h &&& ~~~m = 0 then h.crew.spills else
        spillPath h.crew (hSlot h) (hMask h &&& ~~~m) :: h.crew.spills)) ∧
  ∀ (g : Guard) (a : Opnd) (s : State) (h : Here) (hd : Handler), passes (.ret g a) s h → h.crew.handler = some hd →
    hMask h ≠ 0 → sameTarget (activeMask h g) (fun l => BitVec.ofNat 64 (srcNum s h a 2 l)) = hMask h →
    ∃ t y, exec (.ret g a) s = .next t ∧ crewOf t h.b h.c = some y ∧ y.handler = none ∧
      (hd.cap = false → y.v = h.crew.v ∧ y.s = h.crew.s ∧ y.k = h.crew.k ∧ y.p = h.crew.p ∧ y.fstat = h.crew.fstat)

/-- R122: at a PC that is no multiple of 8 ILLOP is raised; at one outside the global window, or with the bits above bit 56
not all as it, ADDRF at that PC; on a page without EX an access fault at that PC. Nothing executes. That a PC which is no
multiple of 8 raises ILLOP also outside the global window is the model's order of the two (log 7). -/
def Obligations.FetchIsChecked : Prop :=
  ∀ (s : State) (r : SlotRef) (h : Here), here (issuing s r) = some h → (hSlot h).due = [] →
    ((hPc h).toNat % 8 ≠ 0 → stepSlot s r = .next (takeTrap (issuing s r) h .illop 0 0)) ∧
    ((hPc h).toNat % 8 = 0 → notGlobal (hPc h).toNat →
      stepSlot s r = .next (takeFault (issuing s r) h .addrf 0 (hPc h) 3)) ∧
    ∀ t, (hPc h).toNat % 8 = 0 → ¬ notGlobal (hPc h).toNat →
      tlbFind (issuing s r) h.blk.core (ctxOf s h.blk) (hPc h).toNat = some t → t.attr.ex = false →
      stepSlot s r = .next (takeFault (issuing s r) h .accf 7 (hPc h) 3)

/-- R134: the checks of a word in order: fetch, decode, pair rules, capsule mode, then registers and channels. The first that
fails decides: its trap is taken and nothing of the word executes. -/
def Obligations.ChecksInOrder : Prop :=
  ∀ (s : State) (r : SlotRef) (h : Here), here (issuing s r) = some h → (hSlot h).due = [] →
    ((∀ w, fetchWord (issuing s r) h ≠ .word w) →
      stepSlot s r = .next (fetchStop (issuing s r) h (fetchWord (issuing s r) h))) ∧
    ∀ w, fetchWord (issuing s r) h = .word w →
      let trapped := fun (g : Here) (c : Cause) (code : Nat) =>
        stepSlot s r = fetchPaid (issuing s r) h (.next (takeTrap (issuing s r) g c code 0))
      (decode w = .illop → trapped h .illop 0) ∧
      (decode w = .illpair → trapped h .illpair 0) ∧
      ∀ i, decode w = .ok i →
        let g := { h with act := wordLanes h i }
        (inCapsule h.crew (hMask h) = true → (capPermitted i = false ∨ (uses i).any (fun u => !capOperand u) = true) →
          trapped g .capfault 1) ∧
        (inCapsule h.crew (hMask h) = false → (isTapeWord h.crew i = true → olderRuns h.crew h.k = false) →
          ((∃ u ∈ uses i, inCounts h.blk.kern u = false) ∨
            (∃ u ∈ uses i, ∃ c, chanUse u = some c ∧ (chanOf h.crew c.1).kind.val = 0) ∨
            ∃ u ∈ uses i, ∃ c, chanDst u = some c ∧ (chanOf h.crew c).kind.val ≠ 4) →
          trapped g .illop 0)

/-- R229, R234: a precise fault saves its block, and every other running block of its fleet: its record, with PRECISE, ACKREQ
and SAVED set, stands to be posted, and no register, slot or byte has changed. Loads, atomics, reductions, `MOOR`, `CWB` and
`CINV` take one with ADDRF at an address in no window, and `LDS` with an access fault of CODE 2 beyond the stash, its local
offset not reduced modulo 2^32 (log 10); of several lanes the lowest is reported (log 50). -/
def Obligations.PreciseFaultSavesBlock : Prop :=
  (∀ (s : State) (h : Here) (cause : Cause) (code : Nat) (addr : DWord) (kind : Nat), s.blocks.find h.b = some h.blk →
    h.blk.st = .running → h.blk.halting = none →
    let t := takeFault s h cause code addr kind
    ∃ y rec, sameBytes s t ∧ t.blocks.find h.b = some y ∧ y.st = .saving ∧
      y.crews = h.blk.crews ∧ y.recs = h.blk.recs ++ [rec] ∧ rec.cause = cause ∧ rec.code = code ∧
      rec.flags = 2 + 16 + 32 ∧ rec.addr = addr ∧ rec.pc = hPc h ∧ rec.mask = h.act ∧ rec.info / 2 % 8 = kind % 8 ∧
      ∀ b z, b ≠ h.b → s.blocks.find b = some z → b ∈ fleetOf s h.blk.launch h.blk.fleet →
        ∃ z', t.blocks.find b = some z' ∧ z'.crews = z.crews ∧ (z.st = .running → z'.st = .saving)) ∧
  (∀ (x : MemOp) (s : State) (h : Here) (l : Nat) (r : List Nat), passes (.lds x) s h → activeMask h x.g ≠ 0 →
    accessLanes x.d (activeMask h x.g) = l :: r → h.blk.kern.stash < localOff s h x l + sizeBytes x.sz →
    exec (.lds x) s = .next (takeFault s h .accf 2 (BitVec.ofNat 64 (localOff s h x l)) 0)) ∧
  (∀ (x : MemOp) (s : State) (h : Here) (l : Nat) (r : List Nat), activeMask h x.g ≠ 0 → x.buf = 0 →
    accessLanes x.d (activeMask h x.g) = l :: r → routeOf (rawVa s h x l) (sizeBytes x.sz) = .bad →
    let t := takeFault s h .addrf 0 (BitVec.ofNat 64 (rawVa s h x l)) 0
    (passes (.ld x) s h → exec (.ld x) s = .next t) ∧ (passes (.ldro x) s h → exec (.ldro x) s = .next t) ∧
    ∀ ac : Fin 16, passes (.ldsp x ac) s h → (acOf h.crew ac.val).iss < 255 → exec (.ldsp x ac) s = .next t) ∧
  (∀ (x : AtomOpnds) (s : State) (h : Here) (l : Nat) (r : List Nat), passes (.atom x) s h → activeMask h x.g ≠ 0 →
    (x.sem.rel = true → outstanding s h.b h.c (activeMask h x.g) = false) →
    accessLanes x.d (activeMask h x.g) = l :: r → routeOf (srcNum s h x.a 2 l) (4 * atomRegs x.ty) = .bad →
    exec (.atom x) s = .next (takeFault s h .addrf 0 (BitVec.ofNat 64 (srcNum s h x.a 2 l)) 2)) ∧
  (∀ (x : RedMemOp) (s : State) (h : Here) (l : Nat) (r : List Nat), passes (.red x) s h → activeMask h x.g ≠ 0 →
    (x.rel = true → outstanding s h.b h.c (activeMask h x.g) = false) →
    lanesOf (activeMask h x.g) = l :: r → routeOf (srcNum s h x.a 2 l) (4 * atomRegs x.ty) = .bad →
    ∃ u : State, u = { s with free := u.free } ∧
      exec (.red x) s = .next (takeFault u h .addrf 0 (BitVec.ofNat 64 (srcNum s h x.a 2 l)) 2)) ∧
  (∀ (d a : Opnd) (s : State) (h : Here), passes (.moor d a) s h → srcNum s h a 2 0 % 32 = 0 →
    routeOf (srcNum s h a 2 0) 32 = .bad →
    exec (.moor d a) s = .next (takeFault s h .addrf 0 (BitVec.ofNat 64 (srcNum s h a 2 0)) 0)) ∧
  ∀ (a b : Opnd) (sc : Scope) (s : State) (h : Here), srcNum s h b 1 0 ≠ 0 →
    globalRange (srcNum s h a 2 0) (srcNum s h b 1 0) = false →
    let t := takeFault s h .addrf 0 (BitVec.ofNat 64 (srcNum s h a 2 0)) 0
    (passes (.cwb a b sc) s h → exec (.cwb a b sc) s = .next t) ∧ (passes (.cinv a b sc) s h → exec (.cinv a b sc) s = .next t)

/-! ## Encoding -/

/-- R133: a paired word whose halves decode raises ILLPAIR exactly when one of the six rules is broken, and nothing of a word
that raises ILLPAIR executes. -/
def Obligations.PairRulesDecide : Prop :=
  (∀ a b : Half, (Instr.pairedWord a b).wf = true →
    (pairBroken a b → decode (encode (.pairedWord a b)) = .illpair) ∧
    (¬ pairBroken a b → decode (encode (.pairedWord a b)) = .ok (.pairedWord a b))) ∧
  ∀ (s : State) (r : SlotRef) (h : Here) (w : DWord), here (issuing s r) = some h → (hSlot h).due = [] →
    fetchWord (issuing s r) h = .word w → decode w = .illpair →
    stepSlot s r = fetchPaid (issuing s r) h (.next (takeTrap (issuing s r) h .illpair 0 0))

/-- R130: a word that is no well-formed instruction's encoding raises ILLOP; a legal word has one meaning, the instruction
that it encodes. -/
def Obligations.OnlyEncodingsAreLegal : Prop :=
  ∀ w : DWord, (decode w = .illop ∨ ∃ i, i.wf = true ∧ encode i = w) ∧
    ∀ i, decode w = .ok i → i.wf = true ∧ encode i = w

/-- R123 to R133: every well-formed instruction, with every operand and field at every value that its encoding admits, is
what the decoder reads from its encoding. -/
def Obligations.DecodeOfEncode : Prop :=
  ∀ i : Instr, i.wf = true → decode (encode i) = if pairRules i then .ok i else .illpair

/-- The words of the spec's own examples (R127, R155, the programs of 18, 20, 22, 24 and 26) decode to what they stand
for. -/
def Obligations.ExampleWordsDecode : Prop :=
  decode 0x0170300806000000 = .ok (.iadd ⟨⟨false, 7⟩, .v 6, .v 2, .v 3, .i32, false⟩) ∧
  decode 0x01A0300806000000 = .ok (.iadd ⟨⟨true, 2⟩, .v 6, .v 2, .v 3, .i32, false⟩) ∧
  decode 0x017030080004C68A = .ok (.iadd ⟨⟨false, 7⟩, .v 6, .v 2, .imm 0x12345, .i32, false⟩) ∧
  decode 0xA00A040004180108 = .ok (.pairedWord ⟨.fadd, .v 5, .v 4, false, 0⟩ ⟨.iadd, .v 6, .v 0, true, 4⟩) ∧
  decode 0x2270440E26000000 =
    .ok (.fmul ⟨⟨false, 7⟩, .v 8, .chan 3 false, .chan 3 true, ⟨false, false, false, false, false⟩⟩) ∧
  decode 0x1D7018100A010108 = .ok (.isetp ⟨⟨false, 7⟩, 3, .v 4, .v 5, .lt, .i32, some (1, 4)⟩) ∧
  decode 0x3470480800000030 = .ok (.cvt ⟨⟨false, 7⟩, .v 9, .v 2, .e4m3, .f32, false, 0⟩) ∧
  decode 0x547020080C000202 = .ok (.ld ⟨⟨false, 7⟩, .v 4, .v 2, .v 6, .b32, false, 0, true, .dev⟩) ∧
  decode 0x48100003FFFFFFF4 = .ok (.bra ⟨false, 1⟩ 0xFFFFFFFA) ∧
  decode 0x6F700B319ECE0000 = .ok (.waitBar 1 (.s 12) (.s 15) (some (.s 14))) ∧
  decode 0x767003118AC6005A = .ok (.mst ⟨⟨false, 7⟩, .s 4, .s 5, some (.s 6), 2, true, true, .bf16⟩) ∧
  decode 0x787028080C080003 = .ok (.capenter ⟨.v 5, .v 2, .v 6, .v 8, 3⟩) ∧
  decode 0x7B70480000000005 = .ok (.tback ⟨⟨false, 7⟩, .v 9, .val, 5, false⟩) ∧
  decode 0 = .illop ∧ decode 0x3E70000000000000 = .illop

/-! ## The step -/

/-- A slot that issues runs the instruction that its word decodes to; an event and a mark run their own; time passes after
each; a load before its turn reads one line. The word is the eight bytes at the PC, at their newest, on a page that may be
executed. Which step is next, an event, a mark or none, is the model's choice of an order (log 2); that a fetch reads the
newest bytes its reading (log 8), and a load before its turn the way in which it shows R90 (log 14). -/
def Obligations.StepRunsDecoded : Prop :=
  (∀ (s : State) (r : SlotRef) (h : Here) (w : DWord) (i : Instr), chosen s = some (.issue r) → here (issuing s r) = some h →
    (hSlot h).due = [] → fetchWord (issuing s r) h = .word w → decode w = .ok i →
    step s = timed (fetchPaid (issuing s r) h (exec i (issuing s r)))) ∧
  (∀ (s : State) (h : Here) (t : Tlb), (hPc h).toNat % 8 = 0 → ¬ notGlobal (hPc h).toNat →
    tlbFind s h.blk.core (ctxOf s h.blk) (hPc h).toNat = some t → t.attr.ex = true →
    let pa := tlbPa t (hPc h).toNat
    (isRemote pa = false → (sendTo s h.blk.core (sliceOf pa) = true ∨ Config.fetchMisses s.free = false) →
      turnAt s (lineNo pa) = true → (lineOf s (lineNo pa)).st ≠ .busy → poisoned s (lineNo pa) = false →
      fetchWord s h = .word (BitVec.ofNat 64 (leNat ((List.range 8).map fun k => newestByte s (pa + k))))) ∧
    (isRemote pa = true → remotePlace s pa false = none → fetchWord s h = .fault ⟨.accf, 8, (hPc h).toNat⟩) ∧
    ∀ p, isRemote pa = true → remotePlace s pa false = some p → sendTo s h.blk.core (sliceOf pa) = true →
      (remoteHops s h.blk.core pa).all (hopFree s) = true →
      (s.remoteEnds.any (fun e => e.who == s.actor && e.va == (hPc h).toNat && e.ok) = true ∨
        (Config.fetchAnswered s.free = true ∧ routeOk s pa = true)) →
      fetchWord s h = .word (BitVec.ofNat 64 (numAt s p 8))) ∧
  (∀ (s : State) (n : Nat) (i : Instr), chosen s = some (.event n) → s.agenda[n]? = some i →
    step s = timed (exec i (taken s n i))) ∧
  (∀ (s : State) (r : SlotRef), chosen s = some (.ahead r) → step s = .next (passTime (readAhead s r))) ∧
  (∀ (s : State) (i : Instr), chosen s = some (.mark i) → step s = timed (exec i s)) ∧
  ∀ s : State, chosen s = none → step s = .next (passTime s)

/-- No instruction stops the machine: a word goes on wherever a slot issues it, and an event in every state, but for an
access of a host, by a port in use, or of another module beyond the device memory, which faults by name: the spec names no
such byte, and the fault is the model's own (log 95). -/
def Obligations.NoInstructionStops : Prop :=
  (∀ (i : Instr) (s : State) (h : Here), i.isWord = true → here s = some h → ∃ t, exec i s = .next t) ∧
  (∀ (i : Instr) (s : State), i.isWord = false → ¬ beyondMemory i s → ∃ t, exec i s = .next t) ∧
  ∀ (i : Instr) (s : State), beyondMemory i s → exec i s = .fault .noSuchByte

/-- Every step keeps the canonical form of memory: addresses strictly rising, no byte listed that an unlisted address reads
as. -/
def Obligations.MemoryStaysCanonical : Prop :=
  ∀ s t : State, Memory.wf s.mem = true → step s = .next t → Memory.wf t.mem = true

/-- R28, R175, R242: every step keeps, of every crew, at most 32 spilled paths and at most 32 reconvergence points; and of every block,
that it has an image in the pool exactly while it is saved. -/
def Obligations.CrewsAndBlocksStayLegal : Prop :=
  ∀ s t : State, crewsLegal s → step s = .next t → crewsLegal t

/-- R232, R322, R338 to R340: every step keeps the special registers within their ranges: of each die EFF between 4,096 and 34,048,
what its window has left at most EFF, at most 4 thermal steps and a count of throttled windows that saturates at 65,535; of an
enabled queue interface LEASE from 6 to 12 and TLCNT from 1 to 4,096; and every token of the fault queue is not zero and no
token still to be given, so that a token given names one thing. -/
def Obligations.RegistersStayLegal : Prop :=
  ∀ s t : State, registersLegal s → step s = .next t → registersLegal t

/-- What reset leaves: no launch, block, request or record; the budget 34,048 and threshold 6,144 of each die (R339), LEASE 8
and EN 0 of each queue interface (R322), DEVRDY 0 (R343), the fault queue off (R232), memory in its canonical form. Memory
that lists nothing and the registers the spec gives no value are the model's choice (logs 3 and 4). What the invariants ask
holds. -/
def Obligations.ResetLeaves : Prop :=
  let s := State.reset
  s.blocks = [] ∧ s.launches = [] ∧ s.reqs = [] ∧ s.mem = [] ∧ Memory.wf s.mem = true ∧
  (∀ d < 4, (dieOf s d).eff = 34048 ∧ nfield (dieOf s d).tokbud.toNat 0 20 = 34048 ∧
    nfield (dieOf s d).tokbud.toNat 24 20 = 6144 ∧ (dieOf s d).evsl = 0 ∧ (dieOf s d).evph = 0 ∧ waitingRecs s d = []) ∧
  (∀ q, nfield (qiOf s q).ctl.toNat 4 4 = 8 ∧ nbit (qiOf s q).ctl.toNat 0 = false) ∧
  crewsLegal s ∧ registersLegal s ∧ s.regs.devrdy = 0 ∧ s.regs.fqctl = 0 ∧ s.regs.fqptr = 0 ∧ (∀ k < 32, hsemOf s k = 0)

end
end

