-- ==== Sys2Proof/Laws/Table.lean ====
section
/-! SUPPORT. What the association table answers after a put or a drop. -/

namespace Sys2Proof.Table

variable {α : Type}

@[simp] theorem find_nil (k : Nat) : Table.find ([] : Table α) k = none := rfl

@[simp] theorem find_put_same (t : Table α) (k : Nat) (a : α) : (t.put k a).find k = some a := by
  induction t with
  | nil => simp [put, find]
  | cons p r ih =>
    obtain ⟨j, b⟩ := p
    unfold put
    split
    · simp [find]
    · rename_i h
      split
      · simp [find]
      · have : j ≠ k := fun e => h e.symm
        simp [find, this, ih]

theorem find_put_other (t : Table α) {k l : Nat} (a : α) (h : l ≠ k) : (t.put k a).find l = t.find l := by
  have h' : k ≠ l := fun e => h e.symm
  induction t with
  | nil => simp [put, find, h']
  | cons p r ih =>
    obtain ⟨j, b⟩ := p
    unfold put
    split
    · rename_i e
      subst e
      simp [find, h']
    · split
      · simp [find, h']
      · simp only [find, ih]

theorem find_put (t : Table α) (k l : Nat) (a : α) :
    (t.put k a).find l = if l = k then some a else t.find l := by
  by_cases h : l = k
  · subst h; simp
  · simp [h, find_put_other t a h]

@[simp] theorem put_put (t : Table α) (k : Nat) (a b : α) : (t.put k a).put k b = t.put k b := by
  induction t with
  | nil => simp [put]
  | cons p r ih =>
    obtain ⟨j, c⟩ := p
    by_cases h : k = j
    · subst h; simp [put]
    · by_cases h2 : k < j
      · simp [put, h, h2]
      · simp [put, h, h2, ih]

/-- `getD` reads what `find` finds. -/
theorem getD_eq (t : Table α) (k : Nat) (d : α) : t.getD k d = (t.find k).getD d := by
  induction t with
  | nil => rfl
  | cons p r ih =>
    obtain ⟨j, b⟩ := p
    by_cases h : j = k <;> simp [getD, find, h, ih]

@[simp] theorem getD_put_same (t : Table α) (k : Nat) (a d : α) : (t.put k a).getD k d = a := by
  simp [getD_eq]

theorem getD_put_other (t : Table α) {k l : Nat} (a d : α) (h : l ≠ k) : (t.put k a).getD l d = t.getD l d := by
  simp [getD_eq, find_put_other t a h]

theorem getD_put (t : Table α) (k l : Nat) (a d : α) :
    (t.put k a).getD l d = if l = k then a else t.getD l d := by
  by_cases h : l = k
  · subst h; simp
  · simp [h, getD_put_other t a d h]

theorem find_drop_same (t : Table α) (k : Nat) : (t.drop k).find k = none := by
  induction t with
  | nil => rfl
  | cons p r ih =>
    obtain ⟨j, b⟩ := p
    by_cases h : j = k <;> simp [drop, find, h, ih]

theorem find_drop_other (t : Table α) {k l : Nat} (h : l ≠ k) : (t.drop k).find l = t.find l := by
  have h' : k ≠ l := fun e => h e.symm
  induction t with
  | nil => rfl
  | cons p r ih =>
    obtain ⟨j, b⟩ := p
    by_cases e : j = k
    · subst e; simp [drop, find, h', ih]
    · simp [drop, find, e, ih]

/-- A put keeps the numbers in rising order. -/
theorem risingFrom_put (t : Table α) (k : Nat) (a : α) :
    ∀ lo, lo ≤ k → t.risingFrom lo = true → (t.put k a).risingFrom lo = true := by
  induction t with
  | nil => intro lo h _; simp [put, risingFrom, h]
  | cons p r ih =>
    obtain ⟨j, b⟩ := p
    intro lo h ht
    simp only [risingFrom, Bool.and_eq_true, decide_eq_true_eq] at ht
    unfold put
    split
    · rename_i e
      subst e
      simp [risingFrom, h, ht.2]
    · rename_i e
      split
      · rename_i l
        have : k + 1 ≤ j := l
        simp [risingFrom, h, this, ht.2]
      · rename_i l
        have : j + 1 ≤ k := by omega
        simp [risingFrom, ht.1, ih (j + 1) this ht.2]

end Sys2Proof.Table
end

