-- ==== Sys2Proof/Laws/State.lean ====
section
/-! SUPPORT. What each named update leaves in each field: one lemma for each field of State and of Crew. -/

namespace Sys2Proof.Machine

/-! ### writePlace -/

@[simp] theorem writePlace_cur (s : State) (p : Place) (bs : List Byte) : (writePlace s p bs).cur = s.cur := rfl
@[simp] theorem writePlace_actor (s : State) (p : Place) (bs : List Byte) : (writePlace s p bs).actor = s.actor := rfl
@[simp] theorem writePlace_agenda (s : State) (p : Place) (bs : List Byte) : (writePlace s p bs).agenda = s.agenda := rfl
@[simp] theorem writePlace_free (s : State) (p : Place) (bs : List Byte) : (writePlace s p bs).free = s.free := rfl
@[simp] theorem writePlace_clock (s : State) (p : Place) (bs : List Byte) : (writePlace s p bs).clock = s.clock := rfl
@[simp] theorem writePlace_mem (s : State) (p : Place) (bs : List Byte) : (writePlace s p bs).mem = Memory_write s.mem (placeKey p) bs := rfl
@[simp] theorem writePlace_blocks (s : State) (p : Place) (bs : List Byte) : (writePlace s p bs).blocks = s.blocks := rfl
@[simp] theorem writePlace_launches (s : State) (p : Place) (bs : List Byte) : (writePlace s p bs).launches = s.launches := rfl
@[simp] theorem writePlace_slipways (s : State) (p : Place) (bs : List Byte) : (writePlace s p bs).slipways = s.slipways := rfl
@[simp] theorem writePlace_cores (s : State) (p : Place) (bs : List Byte) : (writePlace s p bs).cores = s.cores := rfl
@[simp] theorem writePlace_dies (s : State) (p : Place) (bs : List Byte) : (writePlace s p bs).dies = s.dies := rfl
@[simp] theorem writePlace_lines (s : State) (p : Place) (bs : List Byte) : (writePlace s p bs).lines = s.lines := rfl
@[simp] theorem writePlace_floors (s : State) (p : Place) (bs : List Byte) : (writePlace s p bs).floors = s.floors := rfl
@[simp] theorem writePlace_versions (s : State) (p : Place) (bs : List Byte) : (writePlace s p bs).versions = s.versions := rfl
@[simp] theorem writePlace_capHomes (s : State) (p : Place) (bs : List Byte) : (writePlace s p bs).capHomes = s.capHomes := rfl
@[simp] theorem writePlace_capMsgs (s : State) (p : Place) (bs : List Byte) : (writePlace s p bs).capMsgs = s.capMsgs := rfl
@[simp] theorem writePlace_reqs (s : State) (p : Place) (bs : List Byte) : (writePlace s p bs).reqs = s.reqs := rfl
@[simp] theorem writePlace_walks (s : State) (p : Place) (bs : List Byte) : (writePlace s p bs).walks = s.walks := rfl
@[simp] theorem writePlace_walkEnds (s : State) (p : Place) (bs : List Byte) : (writePlace s p bs).walkEnds = s.walkEnds := rfl
@[simp] theorem writePlace_marks (s : State) (p : Place) (bs : List Byte) : (writePlace s p bs).marks = s.marks := rfl
@[simp] theorem writePlace_bars (s : State) (p : Place) (bs : List Byte) : (writePlace s p bs).bars = s.bars := rfl
@[simp] theorem writePlace_bits (s : State) (p : Place) (bs : List Byte) : (writePlace s p bs).bits = s.bits := rfl
@[simp] theorem writePlace_copies (s : State) (p : Place) (bs : List Byte) : (writePlace s p bs).copies = s.copies := rfl
@[simp] theorem writePlace_msgs (s : State) (p : Place) (bs : List Byte) : (writePlace s p bs).msgs = s.msgs := rfl
@[simp] theorem writePlace_armInputs (s : State) (p : Place) (bs : List Byte) : (writePlace s p bs).armInputs = s.armInputs := rfl
@[simp] theorem writePlace_arms (s : State) (p : Place) (bs : List Byte) : (writePlace s p bs).arms = s.arms := rfl
@[simp] theorem writePlace_ctrl (s : State) (p : Place) (bs : List Byte) : (writePlace s p bs).ctrl = s.ctrl := rfl
@[simp] theorem writePlace_gens (s : State) (p : Place) (bs : List Byte) : (writePlace s p bs).gens = s.gens := rfl
@[simp] theorem writePlace_tokens (s : State) (p : Place) (bs : List Byte) : (writePlace s p bs).tokens = s.tokens := rfl
@[simp] theorem writePlace_qis (s : State) (p : Place) (bs : List Byte) : (writePlace s p bs).qis = s.qis := rfl
@[simp] theorem writePlace_regs (s : State) (p : Place) (bs : List Byte) : (writePlace s p bs).regs = s.regs := rfl
@[simp] theorem writePlace_remotes (s : State) (p : Place) (bs : List Byte) : (writePlace s p bs).remotes = s.remotes := rfl
@[simp] theorem writePlace_remoteEnds (s : State) (p : Place) (bs : List Byte) : (writePlace s p bs).remoteEnds = s.remoteEnds := rfl
@[simp] theorem writePlace_linksDown (s : State) (p : Place) (bs : List Byte) : (writePlace s p bs).linksDown = s.linksDown := rfl
@[simp] theorem writePlace_lostLines (s : State) (p : Place) (bs : List Byte) : (writePlace s p bs).lostLines = s.lostLines := rfl
@[simp] theorem writePlace_down (s : State) (p : Place) (bs : List Byte) : (writePlace s p bs).down = s.down := rfl
@[simp] theorem writePlace_images (s : State) (p : Place) (bs : List Byte) : (writePlace s p bs).images = s.images := rfl
@[simp] theorem writePlace_trains (s : State) (p : Place) (bs : List Byte) : (writePlace s p bs).trains = s.trains := rfl
@[simp] theorem writePlace_deadPorts (s : State) (p : Place) (bs : List Byte) : (writePlace s p bs).deadPorts = s.deadPorts := rfl
@[simp] theorem writePlace_outputs (s : State) (p : Place) (bs : List Byte) : (writePlace s p bs).outputs = s.outputs := rfl
@[simp] theorem writePlace_nextId (s : State) (p : Place) (bs : List Byte) : (writePlace s p bs).nextId = s.nextId := rfl

/-! ### setCore -/

@[simp] theorem setCore_cur (s : State) (c : Nat) (x : Core) : (setCore s c x).cur = s.cur := rfl
@[simp] theorem setCore_actor (s : State) (c : Nat) (x : Core) : (setCore s c x).actor = s.actor := rfl
@[simp] theorem setCore_agenda (s : State) (c : Nat) (x : Core) : (setCore s c x).agenda = s.agenda := rfl
@[simp] theorem setCore_free (s : State) (c : Nat) (x : Core) : (setCore s c x).free = s.free := rfl
@[simp] theorem setCore_clock (s : State) (c : Nat) (x : Core) : (setCore s c x).clock = s.clock := rfl
@[simp] theorem setCore_mem (s : State) (c : Nat) (x : Core) : (setCore s c x).mem = s.mem := rfl
@[simp] theorem setCore_blocks (s : State) (c : Nat) (x : Core) : (setCore s c x).blocks = s.blocks := rfl
@[simp] theorem setCore_launches (s : State) (c : Nat) (x : Core) : (setCore s c x).launches = s.launches := rfl
@[simp] theorem setCore_slipways (s : State) (c : Nat) (x : Core) : (setCore s c x).slipways = s.slipways := rfl
@[simp] theorem setCore_cores (s : State) (c : Nat) (x : Core) : (setCore s c x).cores = s.cores.put c x := rfl
@[simp] theorem setCore_dies (s : State) (c : Nat) (x : Core) : (setCore s c x).dies = s.dies := rfl
@[simp] theorem setCore_lines (s : State) (c : Nat) (x : Core) : (setCore s c x).lines = s.lines := rfl
@[simp] theorem setCore_floors (s : State) (c : Nat) (x : Core) : (setCore s c x).floors = s.floors := rfl
@[simp] theorem setCore_versions (s : State) (c : Nat) (x : Core) : (setCore s c x).versions = s.versions := rfl
@[simp] theorem setCore_capHomes (s : State) (c : Nat) (x : Core) : (setCore s c x).capHomes = s.capHomes := rfl
@[simp] theorem setCore_capMsgs (s : State) (c : Nat) (x : Core) : (setCore s c x).capMsgs = s.capMsgs := rfl
@[simp] theorem setCore_reqs (s : State) (c : Nat) (x : Core) : (setCore s c x).reqs = s.reqs := rfl
@[simp] theorem setCore_walks (s : State) (c : Nat) (x : Core) : (setCore s c x).walks = s.walks := rfl
@[simp] theorem setCore_walkEnds (s : State) (c : Nat) (x : Core) : (setCore s c x).walkEnds = s.walkEnds := rfl
@[simp] theorem setCore_marks (s : State) (c : Nat) (x : Core) : (setCore s c x).marks = s.marks := rfl
@[simp] theorem setCore_bars (s : State) (c : Nat) (x : Core) : (setCore s c x).bars = s.bars := rfl
@[simp] theorem setCore_bits (s : State) (c : Nat) (x : Core) : (setCore s c x).bits = s.bits := rfl
@[simp] theorem setCore_copies (s : State) (c : Nat) (x : Core) : (setCore s c x).copies = s.copies := rfl
@[simp] theorem setCore_msgs (s : State) (c : Nat) (x : Core) : (setCore s c x).msgs = s.msgs := rfl
@[simp] theorem setCore_armInputs (s : State) (c : Nat) (x : Core) : (setCore s c x).armInputs = s.armInputs := rfl
@[simp] theorem setCore_arms (s : State) (c : Nat) (x : Core) : (setCore s c x).arms = s.arms := rfl
@[simp] theorem setCore_ctrl (s : State) (c : Nat) (x : Core) : (setCore s c x).ctrl = s.ctrl := rfl
@[simp] theorem setCore_gens (s : State) (c : Nat) (x : Core) : (setCore s c x).gens = s.gens := rfl
@[simp] theorem setCore_tokens (s : State) (c : Nat) (x : Core) : (setCore s c x).tokens = s.tokens := rfl
@[simp] theorem setCore_qis (s : State) (c : Nat) (x : Core) : (setCore s c x).qis = s.qis := rfl
@[simp] theorem setCore_regs (s : State) (c : Nat) (x : Core) : (setCore s c x).regs = s.regs := rfl
@[simp] theorem setCore_remotes (s : State) (c : Nat) (x : Core) : (setCore s c x).remotes = s.remotes := rfl
@[simp] theorem setCore_remoteEnds (s : State) (c : Nat) (x : Core) : (setCore s c x).remoteEnds = s.remoteEnds := rfl
@[simp] theorem setCore_linksDown (s : State) (c : Nat) (x : Core) : (setCore s c x).linksDown = s.linksDown := rfl
@[simp] theorem setCore_lostLines (s : State) (c : Nat) (x : Core) : (setCore s c x).lostLines = s.lostLines := rfl
@[simp] theorem setCore_down (s : State) (c : Nat) (x : Core) : (setCore s c x).down = s.down := rfl
@[simp] theorem setCore_images (s : State) (c : Nat) (x : Core) : (setCore s c x).images = s.images := rfl
@[simp] theorem setCore_trains (s : State) (c : Nat) (x : Core) : (setCore s c x).trains = s.trains := rfl
@[simp] theorem setCore_deadPorts (s : State) (c : Nat) (x : Core) : (setCore s c x).deadPorts = s.deadPorts := rfl
@[simp] theorem setCore_outputs (s : State) (c : Nat) (x : Core) : (setCore s c x).outputs = s.outputs := rfl
@[simp] theorem setCore_nextId (s : State) (c : Nat) (x : Core) : (setCore s c x).nextId = s.nextId := rfl

/-! ### setDie -/

@[simp] theorem setDie_cur (s : State) (d : Nat) (x : Die) : (setDie s d x).cur = s.cur := rfl
@[simp] theorem setDie_actor (s : State) (d : Nat) (x : Die) : (setDie s d x).actor = s.actor := rfl
@[simp] theorem setDie_agenda (s : State) (d : Nat) (x : Die) : (setDie s d x).agenda = s.agenda := rfl
@[simp] theorem setDie_free (s : State) (d : Nat) (x : Die) : (setDie s d x).free = s.free := rfl
@[simp] theorem setDie_clock (s : State) (d : Nat) (x : Die) : (setDie s d x).clock = s.clock := rfl
@[simp] theorem setDie_mem (s : State) (d : Nat) (x : Die) : (setDie s d x).mem = s.mem := rfl
@[simp] theorem setDie_blocks (s : State) (d : Nat) (x : Die) : (setDie s d x).blocks = s.blocks := rfl
@[simp] theorem setDie_launches (s : State) (d : Nat) (x : Die) : (setDie s d x).launches = s.launches := rfl
@[simp] theorem setDie_slipways (s : State) (d : Nat) (x : Die) : (setDie s d x).slipways = s.slipways := rfl
@[simp] theorem setDie_cores (s : State) (d : Nat) (x : Die) : (setDie s d x).cores = s.cores := rfl
@[simp] theorem setDie_dies (s : State) (d : Nat) (x : Die) : (setDie s d x).dies = s.dies.put d x := rfl
@[simp] theorem setDie_lines (s : State) (d : Nat) (x : Die) : (setDie s d x).lines = s.lines := rfl
@[simp] theorem setDie_floors (s : State) (d : Nat) (x : Die) : (setDie s d x).floors = s.floors := rfl
@[simp] theorem setDie_versions (s : State) (d : Nat) (x : Die) : (setDie s d x).versions = s.versions := rfl
@[simp] theorem setDie_capHomes (s : State) (d : Nat) (x : Die) : (setDie s d x).capHomes = s.capHomes := rfl
@[simp] theorem setDie_capMsgs (s : State) (d : Nat) (x : Die) : (setDie s d x).capMsgs = s.capMsgs := rfl
@[simp] theorem setDie_reqs (s : State) (d : Nat) (x : Die) : (setDie s d x).reqs = s.reqs := rfl
@[simp] theorem setDie_walks (s : State) (d : Nat) (x : Die) : (setDie s d x).walks = s.walks := rfl
@[simp] theorem setDie_walkEnds (s : State) (d : Nat) (x : Die) : (setDie s d x).walkEnds = s.walkEnds := rfl
@[simp] theorem setDie_marks (s : State) (d : Nat) (x : Die) : (setDie s d x).marks = s.marks := rfl
@[simp] theorem setDie_bars (s : State) (d : Nat) (x : Die) : (setDie s d x).bars = s.bars := rfl
@[simp] theorem setDie_bits (s : State) (d : Nat) (x : Die) : (setDie s d x).bits = s.bits := rfl
@[simp] theorem setDie_copies (s : State) (d : Nat) (x : Die) : (setDie s d x).copies = s.copies := rfl
@[simp] theorem setDie_msgs (s : State) (d : Nat) (x : Die) : (setDie s d x).msgs = s.msgs := rfl
@[simp] theorem setDie_armInputs (s : State) (d : Nat) (x : Die) : (setDie s d x).armInputs = s.armInputs := rfl
@[simp] theorem setDie_arms (s : State) (d : Nat) (x : Die) : (setDie s d x).arms = s.arms := rfl
@[simp] theorem setDie_ctrl (s : State) (d : Nat) (x : Die) : (setDie s d x).ctrl = s.ctrl := rfl
@[simp] theorem setDie_gens (s : State) (d : Nat) (x : Die) : (setDie s d x).gens = s.gens := rfl
@[simp] theorem setDie_tokens (s : State) (d : Nat) (x : Die) : (setDie s d x).tokens = s.tokens := rfl
@[simp] theorem setDie_qis (s : State) (d : Nat) (x : Die) : (setDie s d x).qis = s.qis := rfl
@[simp] theorem setDie_regs (s : State) (d : Nat) (x : Die) : (setDie s d x).regs = s.regs := rfl
@[simp] theorem setDie_remotes (s : State) (d : Nat) (x : Die) : (setDie s d x).remotes = s.remotes := rfl
@[simp] theorem setDie_remoteEnds (s : State) (d : Nat) (x : Die) : (setDie s d x).remoteEnds = s.remoteEnds := rfl
@[simp] theorem setDie_linksDown (s : State) (d : Nat) (x : Die) : (setDie s d x).linksDown = s.linksDown := rfl
@[simp] theorem setDie_lostLines (s : State) (d : Nat) (x : Die) : (setDie s d x).lostLines = s.lostLines := rfl
@[simp] theorem setDie_down (s : State) (d : Nat) (x : Die) : (setDie s d x).down = s.down := rfl
@[simp] theorem setDie_images (s : State) (d : Nat) (x : Die) : (setDie s d x).images = s.images := rfl
@[simp] theorem setDie_trains (s : State) (d : Nat) (x : Die) : (setDie s d x).trains = s.trains := rfl
@[simp] theorem setDie_deadPorts (s : State) (d : Nat) (x : Die) : (setDie s d x).deadPorts = s.deadPorts := rfl
@[simp] theorem setDie_outputs (s : State) (d : Nat) (x : Die) : (setDie s d x).outputs = s.outputs := rfl
@[simp] theorem setDie_nextId (s : State) (d : Nat) (x : Die) : (setDie s d x).nextId = s.nextId := rfl

/-! ### setLine -/

@[simp] theorem setLine_cur (s : State) (l : Nat) (x : Line) : (setLine s l x).cur = s.cur := rfl
@[simp] theorem setLine_actor (s : State) (l : Nat) (x : Line) : (setLine s l x).actor = s.actor := rfl
@[simp] theorem setLine_agenda (s : State) (l : Nat) (x : Line) : (setLine s l x).agenda = s.agenda := rfl
@[simp] theorem setLine_free (s : State) (l : Nat) (x : Line) : (setLine s l x).free = s.free := rfl
@[simp] theorem setLine_clock (s : State) (l : Nat) (x : Line) : (setLine s l x).clock = s.clock := rfl
@[simp] theorem setLine_mem (s : State) (l : Nat) (x : Line) : (setLine s l x).mem = s.mem := rfl
@[simp] theorem setLine_blocks (s : State) (l : Nat) (x : Line) : (setLine s l x).blocks = s.blocks := rfl
@[simp] theorem setLine_launches (s : State) (l : Nat) (x : Line) : (setLine s l x).launches = s.launches := rfl
@[simp] theorem setLine_slipways (s : State) (l : Nat) (x : Line) : (setLine s l x).slipways = s.slipways := rfl
@[simp] theorem setLine_cores (s : State) (l : Nat) (x : Line) : (setLine s l x).cores = s.cores := rfl
@[simp] theorem setLine_dies (s : State) (l : Nat) (x : Line) : (setLine s l x).dies = s.dies := rfl
@[simp] theorem setLine_lines (s : State) (l : Nat) (x : Line) : (setLine s l x).lines = s.lines.put l x := rfl
@[simp] theorem setLine_floors (s : State) (l : Nat) (x : Line) : (setLine s l x).floors = s.floors := rfl
@[simp] theorem setLine_versions (s : State) (l : Nat) (x : Line) : (setLine s l x).versions = s.versions := rfl
@[simp] theorem setLine_capHomes (s : State) (l : Nat) (x : Line) : (setLine s l x).capHomes = s.capHomes := rfl
@[simp] theorem setLine_capMsgs (s : State) (l : Nat) (x : Line) : (setLine s l x).capMsgs = s.capMsgs := rfl
@[simp] theorem setLine_reqs (s : State) (l : Nat) (x : Line) : (setLine s l x).reqs = s.reqs := rfl
@[simp] theorem setLine_walks (s : State) (l : Nat) (x : Line) : (setLine s l x).walks = s.walks := rfl
@[simp] theorem setLine_walkEnds (s : State) (l : Nat) (x : Line) : (setLine s l x).walkEnds = s.walkEnds := rfl
@[simp] theorem setLine_marks (s : State) (l : Nat) (x : Line) : (setLine s l x).marks = s.marks := rfl
@[simp] theorem setLine_bars (s : State) (l : Nat) (x : Line) : (setLine s l x).bars = s.bars := rfl
@[simp] theorem setLine_bits (s : State) (l : Nat) (x : Line) : (setLine s l x).bits = s.bits := rfl
@[simp] theorem setLine_copies (s : State) (l : Nat) (x : Line) : (setLine s l x).copies = s.copies := rfl
@[simp] theorem setLine_msgs (s : State) (l : Nat) (x : Line) : (setLine s l x).msgs = s.msgs := rfl
@[simp] theorem setLine_armInputs (s : State) (l : Nat) (x : Line) : (setLine s l x).armInputs = s.armInputs := rfl
@[simp] theorem setLine_arms (s : State) (l : Nat) (x : Line) : (setLine s l x).arms = s.arms := rfl
@[simp] theorem setLine_ctrl (s : State) (l : Nat) (x : Line) : (setLine s l x).ctrl = s.ctrl := rfl
@[simp] theorem setLine_gens (s : State) (l : Nat) (x : Line) : (setLine s l x).gens = s.gens := rfl
@[simp] theorem setLine_tokens (s : State) (l : Nat) (x : Line) : (setLine s l x).tokens = s.tokens := rfl
@[simp] theorem setLine_qis (s : State) (l : Nat) (x : Line) : (setLine s l x).qis = s.qis := rfl
@[simp] theorem setLine_regs (s : State) (l : Nat) (x : Line) : (setLine s l x).regs = s.regs := rfl
@[simp] theorem setLine_remotes (s : State) (l : Nat) (x : Line) : (setLine s l x).remotes = s.remotes := rfl
@[simp] theorem setLine_remoteEnds (s : State) (l : Nat) (x : Line) : (setLine s l x).remoteEnds = s.remoteEnds := rfl
@[simp] theorem setLine_linksDown (s : State) (l : Nat) (x : Line) : (setLine s l x).linksDown = s.linksDown := rfl
@[simp] theorem setLine_lostLines (s : State) (l : Nat) (x : Line) : (setLine s l x).lostLines = s.lostLines := rfl
@[simp] theorem setLine_down (s : State) (l : Nat) (x : Line) : (setLine s l x).down = s.down := rfl
@[simp] theorem setLine_images (s : State) (l : Nat) (x : Line) : (setLine s l x).images = s.images := rfl
@[simp] theorem setLine_trains (s : State) (l : Nat) (x : Line) : (setLine s l x).trains = s.trains := rfl
@[simp] theorem setLine_deadPorts (s : State) (l : Nat) (x : Line) : (setLine s l x).deadPorts = s.deadPorts := rfl
@[simp] theorem setLine_outputs (s : State) (l : Nat) (x : Line) : (setLine s l x).outputs = s.outputs := rfl
@[simp] theorem setLine_nextId (s : State) (l : Nat) (x : Line) : (setLine s l x).nextId = s.nextId := rfl

/-! ### setBlock -/

@[simp] theorem setBlock_cur (s : State) (b : Nat) (x : Block) : (setBlock s b x).cur = s.cur := rfl
@[simp] theorem setBlock_actor (s : State) (b : Nat) (x : Block) : (setBlock s b x).actor = s.actor := rfl
@[simp] theorem setBlock_agenda (s : State) (b : Nat) (x : Block) : (setBlock s b x).agenda = s.agenda := rfl
@[simp] theorem setBlock_free (s : State) (b : Nat) (x : Block) : (setBlock s b x).free = s.free := rfl
@[simp] theorem setBlock_clock (s : State) (b : Nat) (x : Block) : (setBlock s b x).clock = s.clock := rfl
@[simp] theorem setBlock_mem (s : State) (b : Nat) (x : Block) : (setBlock s b x).mem = s.mem := rfl
@[simp] theorem setBlock_blocks (s : State) (b : Nat) (x : Block) : (setBlock s b x).blocks = s.blocks.put b x := rfl
@[simp] theorem setBlock_launches (s : State) (b : Nat) (x : Block) : (setBlock s b x).launches = s.launches := rfl
@[simp] theorem setBlock_slipways (s : State) (b : Nat) (x : Block) : (setBlock s b x).slipways = s.slipways := rfl
@[simp] theorem setBlock_cores (s : State) (b : Nat) (x : Block) : (setBlock s b x).cores = s.cores := rfl
@[simp] theorem setBlock_dies (s : State) (b : Nat) (x : Block) : (setBlock s b x).dies = s.dies := rfl
@[simp] theorem setBlock_lines (s : State) (b : Nat) (x : Block) : (setBlock s b x).lines = s.lines := rfl
@[simp] theorem setBlock_floors (s : State) (b : Nat) (x : Block) : (setBlock s b x).floors = s.floors := rfl
@[simp] theorem setBlock_versions (s : State) (b : Nat) (x : Block) : (setBlock s b x).versions = s.versions := rfl
@[simp] theorem setBlock_capHomes (s : State) (b : Nat) (x : Block) : (setBlock s b x).capHomes = s.capHomes := rfl
@[simp] theorem setBlock_capMsgs (s : State) (b : Nat) (x : Block) : (setBlock s b x).capMsgs = s.capMsgs := rfl
@[simp] theorem setBlock_reqs (s : State) (b : Nat) (x : Block) : (setBlock s b x).reqs = s.reqs := rfl
@[simp] theorem setBlock_walks (s : State) (b : Nat) (x : Block) : (setBlock s b x).walks = s.walks := rfl
@[simp] theorem setBlock_walkEnds (s : State) (b : Nat) (x : Block) : (setBlock s b x).walkEnds = s.walkEnds := rfl
@[simp] theorem setBlock_marks (s : State) (b : Nat) (x : Block) : (setBlock s b x).marks = s.marks := rfl
@[simp] theorem setBlock_bars (s : State) (b : Nat) (x : Block) : (setBlock s b x).bars = s.bars := rfl
@[simp] theorem setBlock_bits (s : State) (b : Nat) (x : Block) : (setBlock s b x).bits = s.bits := rfl
@[simp] theorem setBlock_copies (s : State) (b : Nat) (x : Block) : (setBlock s b x).copies = s.copies := rfl
@[simp] theorem setBlock_msgs (s : State) (b : Nat) (x : Block) : (setBlock s b x).msgs = s.msgs := rfl
@[simp] theorem setBlock_armInputs (s : State) (b : Nat) (x : Block) : (setBlock s b x).armInputs = s.armInputs := rfl
@[simp] theorem setBlock_arms (s : State) (b : Nat) (x : Block) : (setBlock s b x).arms = s.arms := rfl
@[simp] theorem setBlock_ctrl (s : State) (b : Nat) (x : Block) : (setBlock s b x).ctrl = s.ctrl := rfl
@[simp] theorem setBlock_gens (s : State) (b : Nat) (x : Block) : (setBlock s b x).gens = s.gens := rfl
@[simp] theorem setBlock_tokens (s : State) (b : Nat) (x : Block) : (setBlock s b x).tokens = s.tokens := rfl
@[simp] theorem setBlock_qis (s : State) (b : Nat) (x : Block) : (setBlock s b x).qis = s.qis := rfl
@[simp] theorem setBlock_regs (s : State) (b : Nat) (x : Block) : (setBlock s b x).regs = s.regs := rfl
@[simp] theorem setBlock_remotes (s : State) (b : Nat) (x : Block) : (setBlock s b x).remotes = s.remotes := rfl
@[simp] theorem setBlock_remoteEnds (s : State) (b : Nat) (x : Block) : (setBlock s b x).remoteEnds = s.remoteEnds := rfl
@[simp] theorem setBlock_linksDown (s : State) (b : Nat) (x : Block) : (setBlock s b x).linksDown = s.linksDown := rfl
@[simp] theorem setBlock_lostLines (s : State) (b : Nat) (x : Block) : (setBlock s b x).lostLines = s.lostLines := rfl
@[simp] theorem setBlock_down (s : State) (b : Nat) (x : Block) : (setBlock s b x).down = s.down := rfl
@[simp] theorem setBlock_images (s : State) (b : Nat) (x : Block) : (setBlock s b x).images = s.images := rfl
@[simp] theorem setBlock_trains (s : State) (b : Nat) (x : Block) : (setBlock s b x).trains = s.trains := rfl
@[simp] theorem setBlock_deadPorts (s : State) (b : Nat) (x : Block) : (setBlock s b x).deadPorts = s.deadPorts := rfl
@[simp] theorem setBlock_outputs (s : State) (b : Nat) (x : Block) : (setBlock s b x).outputs = s.outputs := rfl
@[simp] theorem setBlock_nextId (s : State) (b : Nat) (x : Block) : (setBlock s b x).nextId = s.nextId := rfl

/-! ### later -/

@[simp] theorem later_cur (s : State) (e : Instr) : (later s e).cur = s.cur := rfl
@[simp] theorem later_actor (s : State) (e : Instr) : (later s e).actor = s.actor := rfl
@[simp] theorem later_agenda (s : State) (e : Instr) : (later s e).agenda = s.agenda ++ [e] := rfl
@[simp] theorem later_free (s : State) (e : Instr) : (later s e).free = s.free := rfl
@[simp] theorem later_clock (s : State) (e : Instr) : (later s e).clock = s.clock := rfl
@[simp] theorem later_mem (s : State) (e : Instr) : (later s e).mem = s.mem := rfl
@[simp] theorem later_blocks (s : State) (e : Instr) : (later s e).blocks = s.blocks := rfl
@[simp] theorem later_launches (s : State) (e : Instr) : (later s e).launches = s.launches := rfl
@[simp] theorem later_slipways (s : State) (e : Instr) : (later s e).slipways = s.slipways := rfl
@[simp] theorem later_cores (s : State) (e : Instr) : (later s e).cores = s.cores := rfl
@[simp] theorem later_dies (s : State) (e : Instr) : (later s e).dies = s.dies := rfl
@[simp] theorem later_lines (s : State) (e : Instr) : (later s e).lines = s.lines := rfl
@[simp] theorem later_floors (s : State) (e : Instr) : (later s e).floors = s.floors := rfl
@[simp] theorem later_versions (s : State) (e : Instr) : (later s e).versions = s.versions := rfl
@[simp] theorem later_capHomes (s : State) (e : Instr) : (later s e).capHomes = s.capHomes := rfl
@[simp] theorem later_capMsgs (s : State) (e : Instr) : (later s e).capMsgs = s.capMsgs := rfl
@[simp] theorem later_reqs (s : State) (e : Instr) : (later s e).reqs = s.reqs := rfl
@[simp] theorem later_walks (s : State) (e : Instr) : (later s e).walks = s.walks := rfl
@[simp] theorem later_walkEnds (s : State) (e : Instr) : (later s e).walkEnds = s.walkEnds := rfl
@[simp] theorem later_marks (s : State) (e : Instr) : (later s e).marks = s.marks := rfl
@[simp] theorem later_bars (s : State) (e : Instr) : (later s e).bars = s.bars := rfl
@[simp] theorem later_bits (s : State) (e : Instr) : (later s e).bits = s.bits := rfl
@[simp] theorem later_copies (s : State) (e : Instr) : (later s e).copies = s.copies := rfl
@[simp] theorem later_msgs (s : State) (e : Instr) : (later s e).msgs = s.msgs := rfl
@[simp] theorem later_armInputs (s : State) (e : Instr) : (later s e).armInputs = s.armInputs := rfl
@[simp] theorem later_arms (s : State) (e : Instr) : (later s e).arms = s.arms := rfl
@[simp] theorem later_ctrl (s : State) (e : Instr) : (later s e).ctrl = s.ctrl := rfl
@[simp] theorem later_gens (s : State) (e : Instr) : (later s e).gens = s.gens := rfl
@[simp] theorem later_tokens (s : State) (e : Instr) : (later s e).tokens = s.tokens := rfl
@[simp] theorem later_qis (s : State) (e : Instr) : (later s e).qis = s.qis := rfl
@[simp] theorem later_regs (s : State) (e : Instr) : (later s e).regs = s.regs := rfl
@[simp] theorem later_remotes (s : State) (e : Instr) : (later s e).remotes = s.remotes := rfl
@[simp] theorem later_remoteEnds (s : State) (e : Instr) : (later s e).remoteEnds = s.remoteEnds := rfl
@[simp] theorem later_linksDown (s : State) (e : Instr) : (later s e).linksDown = s.linksDown := rfl
@[simp] theorem later_lostLines (s : State) (e : Instr) : (later s e).lostLines = s.lostLines := rfl
@[simp] theorem later_down (s : State) (e : Instr) : (later s e).down = s.down := rfl
@[simp] theorem later_images (s : State) (e : Instr) : (later s e).images = s.images := rfl
@[simp] theorem later_trains (s : State) (e : Instr) : (later s e).trains = s.trains := rfl
@[simp] theorem later_deadPorts (s : State) (e : Instr) : (later s e).deadPorts = s.deadPorts := rfl
@[simp] theorem later_outputs (s : State) (e : Instr) : (later s e).outputs = s.outputs := rfl
@[simp] theorem later_nextId (s : State) (e : Instr) : (later s e).nextId = s.nextId := rfl

/-! ### freshId -/

@[simp] theorem freshId_cur (s : State) : ((freshId s).2).cur = s.cur := rfl
@[simp] theorem freshId_actor (s : State) : ((freshId s).2).actor = s.actor := rfl
@[simp] theorem freshId_agenda (s : State) : ((freshId s).2).agenda = s.agenda := rfl
@[simp] theorem freshId_free (s : State) : ((freshId s).2).free = s.free := rfl
@[simp] theorem freshId_clock (s : State) : ((freshId s).2).clock = s.clock := rfl
@[simp] theorem freshId_mem (s : State) : ((freshId s).2).mem = s.mem := rfl
@[simp] theorem freshId_blocks (s : State) : ((freshId s).2).blocks = s.blocks := rfl
@[simp] theorem freshId_launches (s : State) : ((freshId s).2).launches = s.launches := rfl
@[simp] theorem freshId_slipways (s : State) : ((freshId s).2).slipways = s.slipways := rfl
@[simp] theorem freshId_cores (s : State) : ((freshId s).2).cores = s.cores := rfl
@[simp] theorem freshId_dies (s : State) : ((freshId s).2).dies = s.dies := rfl
@[simp] theorem freshId_lines (s : State) : ((freshId s).2).lines = s.lines := rfl
@[simp] theorem freshId_floors (s : State) : ((freshId s).2).floors = s.floors := rfl
@[simp] theorem freshId_versions (s : State) : ((freshId s).2).versions = s.versions := rfl
@[simp] theorem freshId_capHomes (s : State) : ((freshId s).2).capHomes = s.capHomes := rfl
@[simp] theorem freshId_capMsgs (s : State) : ((freshId s).2).capMsgs = s.capMsgs := rfl
@[simp] theorem freshId_reqs (s : State) : ((freshId s).2).reqs = s.reqs := rfl
@[simp] theorem freshId_walks (s : State) : ((freshId s).2).walks = s.walks := rfl
@[simp] theorem freshId_walkEnds (s : State) : ((freshId s).2).walkEnds = s.walkEnds := rfl
@[simp] theorem freshId_marks (s : State) : ((freshId s).2).marks = s.marks := rfl
@[simp] theorem freshId_bars (s : State) : ((freshId s).2).bars = s.bars := rfl
@[simp] theorem freshId_bits (s : State) : ((freshId s).2).bits = s.bits := rfl
@[simp] theorem freshId_copies (s : State) : ((freshId s).2).copies = s.copies := rfl
@[simp] theorem freshId_msgs (s : State) : ((freshId s).2).msgs = s.msgs := rfl
@[simp] theorem freshId_armInputs (s : State) : ((freshId s).2).armInputs = s.armInputs := rfl
@[simp] theorem freshId_arms (s : State) : ((freshId s).2).arms = s.arms := rfl
@[simp] theorem freshId_ctrl (s : State) : ((freshId s).2).ctrl = s.ctrl := rfl
@[simp] theorem freshId_gens (s : State) : ((freshId s).2).gens = s.gens := rfl
@[simp] theorem freshId_tokens (s : State) : ((freshId s).2).tokens = s.tokens := rfl
@[simp] theorem freshId_qis (s : State) : ((freshId s).2).qis = s.qis := rfl
@[simp] theorem freshId_regs (s : State) : ((freshId s).2).regs = s.regs := rfl
@[simp] theorem freshId_remotes (s : State) : ((freshId s).2).remotes = s.remotes := rfl
@[simp] theorem freshId_remoteEnds (s : State) : ((freshId s).2).remoteEnds = s.remoteEnds := rfl
@[simp] theorem freshId_linksDown (s : State) : ((freshId s).2).linksDown = s.linksDown := rfl
@[simp] theorem freshId_lostLines (s : State) : ((freshId s).2).lostLines = s.lostLines := rfl
@[simp] theorem freshId_down (s : State) : ((freshId s).2).down = s.down := rfl
@[simp] theorem freshId_images (s : State) : ((freshId s).2).images = s.images := rfl
@[simp] theorem freshId_trains (s : State) : ((freshId s).2).trains = s.trains := rfl
@[simp] theorem freshId_deadPorts (s : State) : ((freshId s).2).deadPorts = s.deadPorts := rfl
@[simp] theorem freshId_outputs (s : State) : ((freshId s).2).outputs = s.outputs := rfl
@[simp] theorem freshId_nextId (s : State) : ((freshId s).2).nextId = s.nextId + 1 := rfl

/-! ### freeChoice -/

@[simp] theorem freeChoice_cur (s : State) (n : Nat) : ((freeChoice s n).2).cur = s.cur := rfl
@[simp] theorem freeChoice_actor (s : State) (n : Nat) : ((freeChoice s n).2).actor = s.actor := rfl
@[simp] theorem freeChoice_agenda (s : State) (n : Nat) : ((freeChoice s n).2).agenda = s.agenda := rfl
@[simp] theorem freeChoice_free (s : State) (n : Nat) : ((freeChoice s n).2).free = s.free + 1 := rfl
@[simp] theorem freeChoice_clock (s : State) (n : Nat) : ((freeChoice s n).2).clock = s.clock := rfl
@[simp] theorem freeChoice_mem (s : State) (n : Nat) : ((freeChoice s n).2).mem = s.mem := rfl
@[simp] theorem freeChoice_blocks (s : State) (n : Nat) : ((freeChoice s n).2).blocks = s.blocks := rfl
@[simp] theorem freeChoice_launches (s : State) (n : Nat) : ((freeChoice s n).2).launches = s.launches := rfl
@[simp] theorem freeChoice_slipways (s : State) (n : Nat) : ((freeChoice s n).2).slipways = s.slipways := rfl
@[simp] theorem freeChoice_cores (s : State) (n : Nat) : ((freeChoice s n).2).cores = s.cores := rfl
@[simp] theorem freeChoice_dies (s : State) (n : Nat) : ((freeChoice s n).2).dies = s.dies := rfl
@[simp] theorem freeChoice_lines (s : State) (n : Nat) : ((freeChoice s n).2).lines = s.lines := rfl
@[simp] theorem freeChoice_floors (s : State) (n : Nat) : ((freeChoice s n).2).floors = s.floors := rfl
@[simp] theorem freeChoice_versions (s : State) (n : Nat) : ((freeChoice s n).2).versions = s.versions := rfl
@[simp] theorem freeChoice_capHomes (s : State) (n : Nat) : ((freeChoice s n).2).capHomes = s.capHomes := rfl
@[simp] theorem freeChoice_capMsgs (s : State) (n : Nat) : ((freeChoice s n).2).capMsgs = s.capMsgs := rfl
@[simp] theorem freeChoice_reqs (s : State) (n : Nat) : ((freeChoice s n).2).reqs = s.reqs := rfl
@[simp] theorem freeChoice_walks (s : State) (n : Nat) : ((freeChoice s n).2).walks = s.walks := rfl
@[simp] theorem freeChoice_walkEnds (s : State) (n : Nat) : ((freeChoice s n).2).walkEnds = s.walkEnds := rfl
@[simp] theorem freeChoice_marks (s : State) (n : Nat) : ((freeChoice s n).2).marks = s.marks := rfl
@[simp] theorem freeChoice_bars (s : State) (n : Nat) : ((freeChoice s n).2).bars = s.bars := rfl
@[simp] theorem freeChoice_bits (s : State) (n : Nat) : ((freeChoice s n).2).bits = s.bits := rfl
@[simp] theorem freeChoice_copies (s : State) (n : Nat) : ((freeChoice s n).2).copies = s.copies := rfl
@[simp] theorem freeChoice_msgs (s : State) (n : Nat) : ((freeChoice s n).2).msgs = s.msgs := rfl
@[simp] theorem freeChoice_armInputs (s : State) (n : Nat) : ((freeChoice s n).2).armInputs = s.armInputs := rfl
@[simp] theorem freeChoice_arms (s : State) (n : Nat) : ((freeChoice s n).2).arms = s.arms := rfl
@[simp] theorem freeChoice_ctrl (s : State) (n : Nat) : ((freeChoice s n).2).ctrl = s.ctrl := rfl
@[simp] theorem freeChoice_gens (s : State) (n : Nat) : ((freeChoice s n).2).gens = s.gens := rfl
@[simp] theorem freeChoice_tokens (s : State) (n : Nat) : ((freeChoice s n).2).tokens = s.tokens := rfl
@[simp] theorem freeChoice_qis (s : State) (n : Nat) : ((freeChoice s n).2).qis = s.qis := rfl
@[simp] theorem freeChoice_regs (s : State) (n : Nat) : ((freeChoice s n).2).regs = s.regs := rfl
@[simp] theorem freeChoice_remotes (s : State) (n : Nat) : ((freeChoice s n).2).remotes = s.remotes := rfl
@[simp] theorem freeChoice_remoteEnds (s : State) (n : Nat) : ((freeChoice s n).2).remoteEnds = s.remoteEnds := rfl
@[simp] theorem freeChoice_linksDown (s : State) (n : Nat) : ((freeChoice s n).2).linksDown = s.linksDown := rfl
@[simp] theorem freeChoice_lostLines (s : State) (n : Nat) : ((freeChoice s n).2).lostLines = s.lostLines := rfl
@[simp] theorem freeChoice_down (s : State) (n : Nat) : ((freeChoice s n).2).down = s.down := rfl
@[simp] theorem freeChoice_images (s : State) (n : Nat) : ((freeChoice s n).2).images = s.images := rfl
@[simp] theorem freeChoice_trains (s : State) (n : Nat) : ((freeChoice s n).2).trains = s.trains := rfl
@[simp] theorem freeChoice_deadPorts (s : State) (n : Nat) : ((freeChoice s n).2).deadPorts = s.deadPorts := rfl
@[simp] theorem freeChoice_outputs (s : State) (n : Nat) : ((freeChoice s n).2).outputs = s.outputs := rfl
@[simp] theorem freeChoice_nextId (s : State) (n : Nat) : ((freeChoice s n).2).nextId = s.nextId := rfl

/-! ### issuing -/

@[simp] theorem issuing_cur (s : State) (r : SlotRef) : (issuing s r).cur = r := rfl
@[simp] theorem issuing_actor (s : State) (r : SlotRef) : (issuing s r).actor = .slot r := rfl
@[simp] theorem issuing_agenda (s : State) (r : SlotRef) : (issuing s r).agenda = s.agenda := rfl
@[simp] theorem issuing_free (s : State) (r : SlotRef) : (issuing s r).free = s.free := rfl
@[simp] theorem issuing_clock (s : State) (r : SlotRef) : (issuing s r).clock = s.clock := rfl
@[simp] theorem issuing_mem (s : State) (r : SlotRef) : (issuing s r).mem = s.mem := rfl
@[simp] theorem issuing_blocks (s : State) (r : SlotRef) : (issuing s r).blocks = s.blocks := rfl
@[simp] theorem issuing_launches (s : State) (r : SlotRef) : (issuing s r).launches = s.launches := rfl
@[simp] theorem issuing_slipways (s : State) (r : SlotRef) : (issuing s r).slipways = s.slipways := rfl
@[simp] theorem issuing_cores (s : State) (r : SlotRef) : (issuing s r).cores = s.cores := rfl
@[simp] theorem issuing_dies (s : State) (r : SlotRef) : (issuing s r).dies = s.dies := rfl
@[simp] theorem issuing_lines (s : State) (r : SlotRef) : (issuing s r).lines = s.lines := rfl
@[simp] theorem issuing_floors (s : State) (r : SlotRef) : (issuing s r).floors = s.floors := rfl
@[simp] theorem issuing_versions (s : State) (r : SlotRef) : (issuing s r).versions = s.versions := rfl
@[simp] theorem issuing_capHomes (s : State) (r : SlotRef) : (issuing s r).capHomes = s.capHomes := rfl
@[simp] theorem issuing_capMsgs (s : State) (r : SlotRef) : (issuing s r).capMsgs = s.capMsgs := rfl
@[simp] theorem issuing_reqs (s : State) (r : SlotRef) : (issuing s r).reqs = s.reqs := rfl
@[simp] theorem issuing_walks (s : State) (r : SlotRef) : (issuing s r).walks = s.walks := rfl
@[simp] theorem issuing_walkEnds (s : State) (r : SlotRef) : (issuing s r).walkEnds = s.walkEnds := rfl
@[simp] theorem issuing_marks (s : State) (r : SlotRef) : (issuing s r).marks = s.marks := rfl
@[simp] theorem issuing_bars (s : State) (r : SlotRef) : (issuing s r).bars = s.bars := rfl
@[simp] theorem issuing_bits (s : State) (r : SlotRef) : (issuing s r).bits = s.bits := rfl
@[simp] theorem issuing_copies (s : State) (r : SlotRef) : (issuing s r).copies = s.copies := rfl
@[simp] theorem issuing_msgs (s : State) (r : SlotRef) : (issuing s r).msgs = s.msgs := rfl
@[simp] theorem issuing_armInputs (s : State) (r : SlotRef) : (issuing s r).armInputs = s.armInputs := rfl
@[simp] theorem issuing_arms (s : State) (r : SlotRef) : (issuing s r).arms = s.arms := rfl
@[simp] theorem issuing_ctrl (s : State) (r : SlotRef) : (issuing s r).ctrl = s.ctrl := rfl
@[simp] theorem issuing_gens (s : State) (r : SlotRef) : (issuing s r).gens = s.gens := rfl
@[simp] theorem issuing_tokens (s : State) (r : SlotRef) : (issuing s r).tokens = s.tokens := rfl
@[simp] theorem issuing_qis (s : State) (r : SlotRef) : (issuing s r).qis = s.qis := rfl
@[simp] theorem issuing_regs (s : State) (r : SlotRef) : (issuing s r).regs = s.regs := rfl
@[simp] theorem issuing_remotes (s : State) (r : SlotRef) : (issuing s r).remotes = s.remotes := rfl
@[simp] theorem issuing_remoteEnds (s : State) (r : SlotRef) : (issuing s r).remoteEnds = s.remoteEnds := rfl
@[simp] theorem issuing_linksDown (s : State) (r : SlotRef) : (issuing s r).linksDown = s.linksDown := rfl
@[simp] theorem issuing_lostLines (s : State) (r : SlotRef) : (issuing s r).lostLines = s.lostLines := rfl
@[simp] theorem issuing_down (s : State) (r : SlotRef) : (issuing s r).down = s.down := rfl
@[simp] theorem issuing_images (s : State) (r : SlotRef) : (issuing s r).images = s.images := rfl
@[simp] theorem issuing_trains (s : State) (r : SlotRef) : (issuing s r).trains = s.trains := rfl
@[simp] theorem issuing_deadPorts (s : State) (r : SlotRef) : (issuing s r).deadPorts = s.deadPorts := rfl
@[simp] theorem issuing_outputs (s : State) (r : SlotRef) : (issuing s r).outputs = s.outputs := rfl
@[simp] theorem issuing_nextId (s : State) (r : SlotRef) : (issuing s r).nextId = s.nextId := rfl

/-! ### taken -/

@[simp] theorem taken_cur (s : State) (n : Nat) (i : Instr) : (taken s n i).cur = s.cur := rfl
@[simp] theorem taken_actor (s : State) (n : Nat) (i : Instr) : (taken s n i).actor = .event i := rfl
@[simp] theorem taken_agenda (s : State) (n : Nat) (i : Instr) : (taken s n i).agenda = s.agenda.eraseIdx n := rfl
@[simp] theorem taken_free (s : State) (n : Nat) (i : Instr) : (taken s n i).free = s.free := rfl
@[simp] theorem taken_clock (s : State) (n : Nat) (i : Instr) : (taken s n i).clock = s.clock := rfl
@[simp] theorem taken_mem (s : State) (n : Nat) (i : Instr) : (taken s n i).mem = s.mem := rfl
@[simp] theorem taken_blocks (s : State) (n : Nat) (i : Instr) : (taken s n i).blocks = s.blocks := rfl
@[simp] theorem taken_launches (s : State) (n : Nat) (i : Instr) : (taken s n i).launches = s.launches := rfl
@[simp] theorem taken_slipways (s : State) (n : Nat) (i : Instr) : (taken s n i).slipways = s.slipways := rfl
@[simp] theorem taken_cores (s : State) (n : Nat) (i : Instr) : (taken s n i).cores = s.cores := rfl
@[simp] theorem taken_dies (s : State) (n : Nat) (i : Instr) : (taken s n i).dies = s.dies := rfl
@[simp] theorem taken_lines (s : State) (n : Nat) (i : Instr) : (taken s n i).lines = s.lines := rfl
@[simp] theorem taken_floors (s : State) (n : Nat) (i : Instr) : (taken s n i).floors = s.floors := rfl
@[simp] theorem taken_versions (s : State) (n : Nat) (i : Instr) : (taken s n i).versions = s.versions := rfl
@[simp] theorem taken_capHomes (s : State) (n : Nat) (i : Instr) : (taken s n i).capHomes = s.capHomes := rfl
@[simp] theorem taken_capMsgs (s : State) (n : Nat) (i : Instr) : (taken s n i).capMsgs = s.capMsgs := rfl
@[simp] theorem taken_reqs (s : State) (n : Nat) (i : Instr) : (taken s n i).reqs = s.reqs := rfl
@[simp] theorem taken_walks (s : State) (n : Nat) (i : Instr) : (taken s n i).walks = s.walks := rfl
@[simp] theorem taken_walkEnds (s : State) (n : Nat) (i : Instr) : (taken s n i).walkEnds = s.walkEnds := rfl
@[simp] theorem taken_marks (s : State) (n : Nat) (i : Instr) : (taken s n i).marks = s.marks := rfl
@[simp] theorem taken_bars (s : State) (n : Nat) (i : Instr) : (taken s n i).bars = s.bars := rfl
@[simp] theorem taken_bits (s : State) (n : Nat) (i : Instr) : (taken s n i).bits = s.bits := rfl
@[simp] theorem taken_copies (s : State) (n : Nat) (i : Instr) : (taken s n i).copies = s.copies := rfl
@[simp] theorem taken_msgs (s : State) (n : Nat) (i : Instr) : (taken s n i).msgs = s.msgs := rfl
@[simp] theorem taken_armInputs (s : State) (n : Nat) (i : Instr) : (taken s n i).armInputs = s.armInputs := rfl
@[simp] theorem taken_arms (s : State) (n : Nat) (i : Instr) : (taken s n i).arms = s.arms := rfl
@[simp] theorem taken_ctrl (s : State) (n : Nat) (i : Instr) : (taken s n i).ctrl = s.ctrl := rfl
@[simp] theorem taken_gens (s : State) (n : Nat) (i : Instr) : (taken s n i).gens = s.gens := rfl
@[simp] theorem taken_tokens (s : State) (n : Nat) (i : Instr) : (taken s n i).tokens = s.tokens := rfl
@[simp] theorem taken_qis (s : State) (n : Nat) (i : Instr) : (taken s n i).qis = s.qis := rfl
@[simp] theorem taken_regs (s : State) (n : Nat) (i : Instr) : (taken s n i).regs = s.regs := rfl
@[simp] theorem taken_remotes (s : State) (n : Nat) (i : Instr) : (taken s n i).remotes = s.remotes := rfl
@[simp] theorem taken_remoteEnds (s : State) (n : Nat) (i : Instr) : (taken s n i).remoteEnds = s.remoteEnds := rfl
@[simp] theorem taken_linksDown (s : State) (n : Nat) (i : Instr) : (taken s n i).linksDown = s.linksDown := rfl
@[simp] theorem taken_lostLines (s : State) (n : Nat) (i : Instr) : (taken s n i).lostLines = s.lostLines := rfl
@[simp] theorem taken_down (s : State) (n : Nat) (i : Instr) : (taken s n i).down = s.down := rfl
@[simp] theorem taken_images (s : State) (n : Nat) (i : Instr) : (taken s n i).images = s.images := rfl
@[simp] theorem taken_trains (s : State) (n : Nat) (i : Instr) : (taken s n i).trains = s.trains := rfl
@[simp] theorem taken_deadPorts (s : State) (n : Nat) (i : Instr) : (taken s n i).deadPorts = s.deadPorts := rfl
@[simp] theorem taken_outputs (s : State) (n : Nat) (i : Instr) : (taken s n i).outputs = s.outputs := rfl
@[simp] theorem taken_nextId (s : State) (n : Nat) (i : Instr) : (taken s n i).nextId = s.nextId := rfl

/-! ## A crew -/

/-! ### writeV -/

@[simp] theorem writeV_v (y : Crew) (n l : Nat) (x : Word) : (writeV y n l x).v = y.v.put (vKey n l) x := rfl
@[simp] theorem writeV_s (y : Crew) (n l : Nat) (x : Word) : (writeV y n l x).s = y.s := rfl
@[simp] theorem writeV_p (y : Crew) (n l : Nat) (x : Word) : (writeV y n l x).p = y.p := rfl
@[simp] theorem writeV_k (y : Crew) (n l : Nat) (x : Word) : (writeV y n l x).k = y.k := rfl
@[simp] theorem writeV_slot0 (y : Crew) (n l : Nat) (x : Word) : (writeV y n l x).slot0 = y.slot0 := rfl
@[simp] theorem writeV_slot1 (y : Crew) (n l : Nat) (x : Word) : (writeV y n l x).slot1 = y.slot1 := rfl
@[simp] theorem writeV_exited (y : Crew) (n l : Nat) (x : Word) : (writeV y n l x).exited = y.exited := rfl
@[simp] theorem writeV_spills (y : Crew) (n l : Nat) (x : Word) : (writeV y n l x).spills = y.spills := rfl
@[simp] theorem writeV_joins (y : Crew) (n l : Nat) (x : Word) : (writeV y n l x).joins = y.joins := rfl
@[simp] theorem writeV_fstat (y : Crew) (n l : Nat) (x : Word) : (writeV y n l x).fstat = y.fstat := rfl
@[simp] theorem writeV_fstatNew (y : Crew) (n l : Nat) (x : Word) : (writeV y n l x).fstatNew = y.fstatNew := rfl
@[simp] theorem writeV_tst (y : Crew) (n l : Nat) (x : Word) : (writeV y n l x).tst = y.tst := rfl
@[simp] theorem writeV_tctl (y : Crew) (n l : Nat) (x : Word) : (writeV y n l x).tctl = y.tctl := rfl
@[simp] theorem writeV_chans (y : Crew) (n l : Nat) (x : Word) : (writeV y n l x).chans = y.chans := rfl
@[simp] theorem writeV_acs (y : Crew) (n l : Nat) (x : Word) : (writeV y n l x).acs = y.acs := rfl
@[simp] theorem writeV_pending (y : Crew) (n l : Nat) (x : Word) : (writeV y n l x).pending = y.pending := rfl
@[simp] theorem writeV_tBase (y : Crew) (n l : Nat) (x : Word) : (writeV y n l x).tBase = y.tBase := rfl
@[simp] theorem writeV_tLag (y : Crew) (n l : Nat) (x : Word) : (writeV y n l x).tLag = y.tLag := rfl
@[simp] theorem writeV_roMark (y : Crew) (n l : Nat) (x : Word) : (writeV y n l x).roMark = y.roMark := rfl
@[simp] theorem writeV_leaseMark (y : Crew) (n l : Nat) (x : Word) : (writeV y n l x).leaseMark = y.leaseMark := rfl
@[simp] theorem writeV_fences (y : Crew) (n l : Nat) (x : Word) : (writeV y n l x).fences = y.fences := rfl
@[simp] theorem writeV_seen (y : Crew) (n l : Nat) (x : Word) : (writeV y n l x).seen = y.seen := rfl
@[simp] theorem writeV_glimpses (y : Crew) (n l : Nat) (x : Word) : (writeV y n l x).glimpses = y.glimpses := rfl
@[simp] theorem writeV_copies (y : Crew) (n l : Nat) (x : Word) : (writeV y n l x).copies = y.copies := rfl
@[simp] theorem writeV_batches (y : Crew) (n l : Nat) (x : Word) : (writeV y n l x).batches = y.batches := rfl
@[simp] theorem writeV_tape (y : Crew) (n l : Nat) (x : Word) : (writeV y n l x).tape = y.tape := rfl
@[simp] theorem writeV_handler (y : Crew) (n l : Nat) (x : Word) : (writeV y n l x).handler = y.handler := rfl
@[simp] theorem writeV_holding (y : Crew) (n l : Nat) (x : Word) : (writeV y n l x).holding = y.holding := rfl
@[simp] theorem writeV_crewSlot (y : Crew) (n l : Nat) (x : Word) : (writeV y n l x).crewSlot = y.crewSlot := rfl

/-! ### writeS -/

@[simp] theorem writeS_v (y : Crew) (n : Nat) (x : Word) : (writeS y n x).v = y.v := rfl
@[simp] theorem writeS_s (y : Crew) (n : Nat) (x : Word) : (writeS y n x).s = y.s.put n x := rfl
@[simp] theorem writeS_p (y : Crew) (n : Nat) (x : Word) : (writeS y n x).p = y.p := rfl
@[simp] theorem writeS_k (y : Crew) (n : Nat) (x : Word) : (writeS y n x).k = y.k := rfl
@[simp] theorem writeS_slot0 (y : Crew) (n : Nat) (x : Word) : (writeS y n x).slot0 = y.slot0 := rfl
@[simp] theorem writeS_slot1 (y : Crew) (n : Nat) (x : Word) : (writeS y n x).slot1 = y.slot1 := rfl
@[simp] theorem writeS_exited (y : Crew) (n : Nat) (x : Word) : (writeS y n x).exited = y.exited := rfl
@[simp] theorem writeS_spills (y : Crew) (n : Nat) (x : Word) : (writeS y n x).spills = y.spills := rfl
@[simp] theorem writeS_joins (y : Crew) (n : Nat) (x : Word) : (writeS y n x).joins = y.joins := rfl
@[simp] theorem writeS_fstat (y : Crew) (n : Nat) (x : Word) : (writeS y n x).fstat = y.fstat := rfl
@[simp] theorem writeS_fstatNew (y : Crew) (n : Nat) (x : Word) : (writeS y n x).fstatNew = y.fstatNew := rfl
@[simp] theorem writeS_tst (y : Crew) (n : Nat) (x : Word) : (writeS y n x).tst = y.tst := rfl
@[simp] theorem writeS_tctl (y : Crew) (n : Nat) (x : Word) : (writeS y n x).tctl = y.tctl := rfl
@[simp] theorem writeS_chans (y : Crew) (n : Nat) (x : Word) : (writeS y n x).chans = y.chans := rfl
@[simp] theorem writeS_acs (y : Crew) (n : Nat) (x : Word) : (writeS y n x).acs = y.acs := rfl
@[simp] theorem writeS_pending (y : Crew) (n : Nat) (x : Word) : (writeS y n x).pending = y.pending := rfl
@[simp] theorem writeS_tBase (y : Crew) (n : Nat) (x : Word) : (writeS y n x).tBase = y.tBase := rfl
@[simp] theorem writeS_tLag (y : Crew) (n : Nat) (x : Word) : (writeS y n x).tLag = y.tLag := rfl
@[simp] theorem writeS_roMark (y : Crew) (n : Nat) (x : Word) : (writeS y n x).roMark = y.roMark := rfl
@[simp] theorem writeS_leaseMark (y : Crew) (n : Nat) (x : Word) : (writeS y n x).leaseMark = y.leaseMark := rfl
@[simp] theorem writeS_fences (y : Crew) (n : Nat) (x : Word) : (writeS y n x).fences = y.fences := rfl
@[simp] theorem writeS_seen (y : Crew) (n : Nat) (x : Word) : (writeS y n x).seen = y.seen := rfl
@[simp] theorem writeS_glimpses (y : Crew) (n : Nat) (x : Word) : (writeS y n x).glimpses = y.glimpses := rfl
@[simp] theorem writeS_copies (y : Crew) (n : Nat) (x : Word) : (writeS y n x).copies = y.copies := rfl
@[simp] theorem writeS_batches (y : Crew) (n : Nat) (x : Word) : (writeS y n x).batches = y.batches := rfl
@[simp] theorem writeS_tape (y : Crew) (n : Nat) (x : Word) : (writeS y n x).tape = y.tape := rfl
@[simp] theorem writeS_handler (y : Crew) (n : Nat) (x : Word) : (writeS y n x).handler = y.handler := rfl
@[simp] theorem writeS_holding (y : Crew) (n : Nat) (x : Word) : (writeS y n x).holding = y.holding := rfl
@[simp] theorem writeS_crewSlot (y : Crew) (n : Nat) (x : Word) : (writeS y n x).crewSlot = y.crewSlot := rfl

/-! ### writeK -/

@[simp] theorem writeK_v (y : Crew) (n : Nat) (x : Word) : (writeK y n x).v = y.v := rfl
@[simp] theorem writeK_s (y : Crew) (n : Nat) (x : Word) : (writeK y n x).s = y.s := rfl
@[simp] theorem writeK_p (y : Crew) (n : Nat) (x : Word) : (writeK y n x).p = y.p := rfl
@[simp] theorem writeK_k (y : Crew) (n : Nat) (x : Word) : (writeK y n x).k = y.k.put n x := rfl
@[simp] theorem writeK_slot0 (y : Crew) (n : Nat) (x : Word) : (writeK y n x).slot0 = y.slot0 := rfl
@[simp] theorem writeK_slot1 (y : Crew) (n : Nat) (x : Word) : (writeK y n x).slot1 = y.slot1 := rfl
@[simp] theorem writeK_exited (y : Crew) (n : Nat) (x : Word) : (writeK y n x).exited = y.exited := rfl
@[simp] theorem writeK_spills (y : Crew) (n : Nat) (x : Word) : (writeK y n x).spills = y.spills := rfl
@[simp] theorem writeK_joins (y : Crew) (n : Nat) (x : Word) : (writeK y n x).joins = y.joins := rfl
@[simp] theorem writeK_fstat (y : Crew) (n : Nat) (x : Word) : (writeK y n x).fstat = y.fstat := rfl
@[simp] theorem writeK_fstatNew (y : Crew) (n : Nat) (x : Word) : (writeK y n x).fstatNew = y.fstatNew := rfl
@[simp] theorem writeK_tst (y : Crew) (n : Nat) (x : Word) : (writeK y n x).tst = y.tst := rfl
@[simp] theorem writeK_tctl (y : Crew) (n : Nat) (x : Word) : (writeK y n x).tctl = y.tctl := rfl
@[simp] theorem writeK_chans (y : Crew) (n : Nat) (x : Word) : (writeK y n x).chans = y.chans := rfl
@[simp] theorem writeK_acs (y : Crew) (n : Nat) (x : Word) : (writeK y n x).acs = y.acs := rfl
@[simp] theorem writeK_pending (y : Crew) (n : Nat) (x : Word) : (writeK y n x).pending = y.pending := rfl
@[simp] theorem writeK_tBase (y : Crew) (n : Nat) (x : Word) : (writeK y n x).tBase = y.tBase := rfl
@[simp] theorem writeK_tLag (y : Crew) (n : Nat) (x : Word) : (writeK y n x).tLag = y.tLag := rfl
@[simp] theorem writeK_roMark (y : Crew) (n : Nat) (x : Word) : (writeK y n x).roMark = y.roMark := rfl
@[simp] theorem writeK_leaseMark (y : Crew) (n : Nat) (x : Word) : (writeK y n x).leaseMark = y.leaseMark := rfl
@[simp] theorem writeK_fences (y : Crew) (n : Nat) (x : Word) : (writeK y n x).fences = y.fences := rfl
@[simp] theorem writeK_seen (y : Crew) (n : Nat) (x : Word) : (writeK y n x).seen = y.seen := rfl
@[simp] theorem writeK_glimpses (y : Crew) (n : Nat) (x : Word) : (writeK y n x).glimpses = y.glimpses := rfl
@[simp] theorem writeK_copies (y : Crew) (n : Nat) (x : Word) : (writeK y n x).copies = y.copies := rfl
@[simp] theorem writeK_batches (y : Crew) (n : Nat) (x : Word) : (writeK y n x).batches = y.batches := rfl
@[simp] theorem writeK_tape (y : Crew) (n : Nat) (x : Word) : (writeK y n x).tape = y.tape := rfl
@[simp] theorem writeK_handler (y : Crew) (n : Nat) (x : Word) : (writeK y n x).handler = y.handler := rfl
@[simp] theorem writeK_holding (y : Crew) (n : Nat) (x : Word) : (writeK y n x).holding = y.holding := rfl
@[simp] theorem writeK_crewSlot (y : Crew) (n : Nat) (x : Word) : (writeK y n x).crewSlot = y.crewSlot := rfl

/-! ### setFstat -/

@[simp] theorem setFstat_v (y : Crew) (f : FlagSet) : (setFstat y f).v = y.v := rfl
@[simp] theorem setFstat_s (y : Crew) (f : FlagSet) : (setFstat y f).s = y.s := rfl
@[simp] theorem setFstat_p (y : Crew) (f : FlagSet) : (setFstat y f).p = y.p := rfl
@[simp] theorem setFstat_k (y : Crew) (f : FlagSet) : (setFstat y f).k = y.k := rfl
@[simp] theorem setFstat_slot0 (y : Crew) (f : FlagSet) : (setFstat y f).slot0 = y.slot0 := rfl
@[simp] theorem setFstat_slot1 (y : Crew) (f : FlagSet) : (setFstat y f).slot1 = y.slot1 := rfl
@[simp] theorem setFstat_exited (y : Crew) (f : FlagSet) : (setFstat y f).exited = y.exited := rfl
@[simp] theorem setFstat_spills (y : Crew) (f : FlagSet) : (setFstat y f).spills = y.spills := rfl
@[simp] theorem setFstat_joins (y : Crew) (f : FlagSet) : (setFstat y f).joins = y.joins := rfl
@[simp] theorem setFstat_fstat (y : Crew) (f : FlagSet) : (setFstat y f).fstat = y.fstat ||| BitVec.ofNat 32 (f % 16) := rfl
@[simp] theorem setFstat_fstatNew (y : Crew) (f : FlagSet) : (setFstat y f).fstatNew = y.fstatNew := rfl
@[simp] theorem setFstat_tst (y : Crew) (f : FlagSet) : (setFstat y f).tst = y.tst := rfl
@[simp] theorem setFstat_tctl (y : Crew) (f : FlagSet) : (setFstat y f).tctl = y.tctl := rfl
@[simp] theorem setFstat_chans (y : Crew) (f : FlagSet) : (setFstat y f).chans = y.chans := rfl
@[simp] theorem setFstat_acs (y : Crew) (f : FlagSet) : (setFstat y f).acs = y.acs := rfl
@[simp] theorem setFstat_pending (y : Crew) (f : FlagSet) : (setFstat y f).pending = y.pending := rfl
@[simp] theorem setFstat_tBase (y : Crew) (f : FlagSet) : (setFstat y f).tBase = y.tBase := rfl
@[simp] theorem setFstat_tLag (y : Crew) (f : FlagSet) : (setFstat y f).tLag = y.tLag := rfl
@[simp] theorem setFstat_roMark (y : Crew) (f : FlagSet) : (setFstat y f).roMark = y.roMark := rfl
@[simp] theorem setFstat_leaseMark (y : Crew) (f : FlagSet) : (setFstat y f).leaseMark = y.leaseMark := rfl
@[simp] theorem setFstat_fences (y : Crew) (f : FlagSet) : (setFstat y f).fences = y.fences := rfl
@[simp] theorem setFstat_seen (y : Crew) (f : FlagSet) : (setFstat y f).seen = y.seen := rfl
@[simp] theorem setFstat_glimpses (y : Crew) (f : FlagSet) : (setFstat y f).glimpses = y.glimpses := rfl
@[simp] theorem setFstat_copies (y : Crew) (f : FlagSet) : (setFstat y f).copies = y.copies := rfl
@[simp] theorem setFstat_batches (y : Crew) (f : FlagSet) : (setFstat y f).batches = y.batches := rfl
@[simp] theorem setFstat_tape (y : Crew) (f : FlagSet) : (setFstat y f).tape = y.tape := rfl
@[simp] theorem setFstat_handler (y : Crew) (f : FlagSet) : (setFstat y f).handler = y.handler := rfl
@[simp] theorem setFstat_holding (y : Crew) (f : FlagSet) : (setFstat y f).holding = y.holding := rfl
@[simp] theorem setFstat_crewSlot (y : Crew) (f : FlagSet) : (setFstat y f).crewSlot = y.crewSlot := rfl

/-! ### updBlock -/

@[simp] theorem updBlock_cur (s : State) (b : Nat) (f : Block → Block) : (updBlock s b f).cur = s.cur := by unfold updBlock; split <;> rfl
@[simp] theorem updBlock_actor (s : State) (b : Nat) (f : Block → Block) : (updBlock s b f).actor = s.actor := by unfold updBlock; split <;> rfl
@[simp] theorem updBlock_agenda (s : State) (b : Nat) (f : Block → Block) : (updBlock s b f).agenda = s.agenda := by unfold updBlock; split <;> rfl
@[simp] theorem updBlock_free (s : State) (b : Nat) (f : Block → Block) : (updBlock s b f).free = s.free := by unfold updBlock; split <;> rfl
@[simp] theorem updBlock_clock (s : State) (b : Nat) (f : Block → Block) : (updBlock s b f).clock = s.clock := by unfold updBlock; split <;> rfl
@[simp] theorem updBlock_mem (s : State) (b : Nat) (f : Block → Block) : (updBlock s b f).mem = s.mem := by unfold updBlock; split <;> rfl
@[simp] theorem updBlock_launches (s : State) (b : Nat) (f : Block → Block) : (updBlock s b f).launches = s.launches := by unfold updBlock; split <;> rfl
@[simp] theorem updBlock_slipways (s : State) (b : Nat) (f : Block → Block) : (updBlock s b f).slipways = s.slipways := by unfold updBlock; split <;> rfl
@[simp] theorem updBlock_cores (s : State) (b : Nat) (f : Block → Block) : (updBlock s b f).cores = s.cores := by unfold updBlock; split <;> rfl
@[simp] theorem updBlock_dies (s : State) (b : Nat) (f : Block → Block) : (updBlock s b f).dies = s.dies := by unfold updBlock; split <;> rfl
@[simp] theorem updBlock_lines (s : State) (b : Nat) (f : Block → Block) : (updBlock s b f).lines = s.lines := by unfold updBlock; split <;> rfl
@[simp] theorem updBlock_floors (s : State) (b : Nat) (f : Block → Block) : (updBlock s b f).floors = s.floors := by unfold updBlock; split <;> rfl
@[simp] theorem updBlock_versions (s : State) (b : Nat) (f : Block → Block) : (updBlock s b f).versions = s.versions := by unfold updBlock; split <;> rfl
@[simp] theorem updBlock_capHomes (s : State) (b : Nat) (f : Block → Block) : (updBlock s b f).capHomes = s.capHomes := by unfold updBlock; split <;> rfl
@[simp] theorem updBlock_capMsgs (s : State) (b : Nat) (f : Block → Block) : (updBlock s b f).capMsgs = s.capMsgs := by unfold updBlock; split <;> rfl
@[simp] theorem updBlock_reqs (s : State) (b : Nat) (f : Block → Block) : (updBlock s b f).reqs = s.reqs := by unfold updBlock; split <;> rfl
@[simp] theorem updBlock_walks (s : State) (b : Nat) (f : Block → Block) : (updBlock s b f).walks = s.walks := by unfold updBlock; split <;> rfl
@[simp] theorem updBlock_walkEnds (s : State) (b : Nat) (f : Block → Block) : (updBlock s b f).walkEnds = s.walkEnds := by unfold updBlock; split <;> rfl
@[simp] theorem updBlock_marks (s : State) (b : Nat) (f : Block → Block) : (updBlock s b f).marks = s.marks := by unfold updBlock; split <;> rfl
@[simp] theorem updBlock_bars (s : State) (b : Nat) (f : Block → Block) : (updBlock s b f).bars = s.bars := by unfold updBlock; split <;> rfl
@[simp] theorem updBlock_bits (s : State) (b : Nat) (f : Block → Block) : (updBlock s b f).bits = s.bits := by unfold updBlock; split <;> rfl
@[simp] theorem updBlock_copies (s : State) (b : Nat) (f : Block → Block) : (updBlock s b f).copies = s.copies := by unfold updBlock; split <;> rfl
@[simp] theorem updBlock_msgs (s : State) (b : Nat) (f : Block → Block) : (updBlock s b f).msgs = s.msgs := by unfold updBlock; split <;> rfl
@[simp] theorem updBlock_armInputs (s : State) (b : Nat) (f : Block → Block) : (updBlock s b f).armInputs = s.armInputs := by unfold updBlock; split <;> rfl
@[simp] theorem updBlock_arms (s : State) (b : Nat) (f : Block → Block) : (updBlock s b f).arms = s.arms := by unfold updBlock; split <;> rfl
@[simp] theorem updBlock_ctrl (s : State) (b : Nat) (f : Block → Block) : (updBlock s b f).ctrl = s.ctrl := by unfold updBlock; split <;> rfl
@[simp] theorem updBlock_gens (s : State) (b : Nat) (f : Block → Block) : (updBlock s b f).gens = s.gens := by unfold updBlock; split <;> rfl
@[simp] theorem updBlock_tokens (s : State) (b : Nat) (f : Block → Block) : (updBlock s b f).tokens = s.tokens := by unfold updBlock; split <;> rfl
@[simp] theorem updBlock_qis (s : State) (b : Nat) (f : Block → Block) : (updBlock s b f).qis = s.qis := by unfold updBlock; split <;> rfl
@[simp] theorem updBlock_regs (s : State) (b : Nat) (f : Block → Block) : (updBlock s b f).regs = s.regs := by unfold updBlock; split <;> rfl
@[simp] theorem updBlock_remotes (s : State) (b : Nat) (f : Block → Block) : (updBlock s b f).remotes = s.remotes := by unfold updBlock; split <;> rfl
@[simp] theorem updBlock_remoteEnds (s : State) (b : Nat) (f : Block → Block) : (updBlock s b f).remoteEnds = s.remoteEnds := by unfold updBlock; split <;> rfl
@[simp] theorem updBlock_linksDown (s : State) (b : Nat) (f : Block → Block) : (updBlock s b f).linksDown = s.linksDown := by unfold updBlock; split <;> rfl
@[simp] theorem updBlock_lostLines (s : State) (b : Nat) (f : Block → Block) : (updBlock s b f).lostLines = s.lostLines := by unfold updBlock; split <;> rfl
@[simp] theorem updBlock_down (s : State) (b : Nat) (f : Block → Block) : (updBlock s b f).down = s.down := by unfold updBlock; split <;> rfl
@[simp] theorem updBlock_images (s : State) (b : Nat) (f : Block → Block) : (updBlock s b f).images = s.images := by unfold updBlock; split <;> rfl
@[simp] theorem updBlock_trains (s : State) (b : Nat) (f : Block → Block) : (updBlock s b f).trains = s.trains := by unfold updBlock; split <;> rfl
@[simp] theorem updBlock_deadPorts (s : State) (b : Nat) (f : Block → Block) : (updBlock s b f).deadPorts = s.deadPorts := by unfold updBlock; split <;> rfl
@[simp] theorem updBlock_outputs (s : State) (b : Nat) (f : Block → Block) : (updBlock s b f).outputs = s.outputs := by unfold updBlock; split <;> rfl
@[simp] theorem updBlock_nextId (s : State) (b : Nat) (f : Block → Block) : (updBlock s b f).nextId = s.nextId := by unfold updBlock; split <;> rfl

/-! ### updCrew -/

@[simp] theorem updCrew_cur (s : State) (b c : Nat) (f : Crew → Crew) : (updCrew s b c f).cur = s.cur := by simp [updCrew]
@[simp] theorem updCrew_actor (s : State) (b c : Nat) (f : Crew → Crew) : (updCrew s b c f).actor = s.actor := by simp [updCrew]
@[simp] theorem updCrew_agenda (s : State) (b c : Nat) (f : Crew → Crew) : (updCrew s b c f).agenda = s.agenda := by simp [updCrew]
@[simp] theorem updCrew_free (s : State) (b c : Nat) (f : Crew → Crew) : (updCrew s b c f).free = s.free := by simp [updCrew]
@[simp] theorem updCrew_clock (s : State) (b c : Nat) (f : Crew → Crew) : (updCrew s b c f).clock = s.clock := by simp [updCrew]
@[simp] theorem updCrew_mem (s : State) (b c : Nat) (f : Crew → Crew) : (updCrew s b c f).mem = s.mem := by simp [updCrew]
@[simp] theorem updCrew_launches (s : State) (b c : Nat) (f : Crew → Crew) : (updCrew s b c f).launches = s.launches := by simp [updCrew]
@[simp] theorem updCrew_slipways (s : State) (b c : Nat) (f : Crew → Crew) : (updCrew s b c f).slipways = s.slipways := by simp [updCrew]
@[simp] theorem updCrew_cores (s : State) (b c : Nat) (f : Crew → Crew) : (updCrew s b c f).cores = s.cores := by simp [updCrew]
@[simp] theorem updCrew_dies (s : State) (b c : Nat) (f : Crew → Crew) : (updCrew s b c f).dies = s.dies := by simp [updCrew]
@[simp] theorem updCrew_lines (s : State) (b c : Nat) (f : Crew → Crew) : (updCrew s b c f).lines = s.lines := by simp [updCrew]
@[simp] theorem updCrew_floors (s : State) (b c : Nat) (f : Crew → Crew) : (updCrew s b c f).floors = s.floors := by simp [updCrew]
@[simp] theorem updCrew_versions (s : State) (b c : Nat) (f : Crew → Crew) : (updCrew s b c f).versions = s.versions := by simp [updCrew]
@[simp] theorem updCrew_capHomes (s : State) (b c : Nat) (f : Crew → Crew) : (updCrew s b c f).capHomes = s.capHomes := by simp [updCrew]
@[simp] theorem updCrew_capMsgs (s : State) (b c : Nat) (f : Crew → Crew) : (updCrew s b c f).capMsgs = s.capMsgs := by simp [updCrew]
@[simp] theorem updCrew_reqs (s : State) (b c : Nat) (f : Crew → Crew) : (updCrew s b c f).reqs = s.reqs := by simp [updCrew]
@[simp] theorem updCrew_walks (s : State) (b c : Nat) (f : Crew → Crew) : (updCrew s b c f).walks = s.walks := by simp [updCrew]
@[simp] theorem updCrew_walkEnds (s : State) (b c : Nat) (f : Crew → Crew) : (updCrew s b c f).walkEnds = s.walkEnds := by simp [updCrew]
@[simp] theorem updCrew_marks (s : State) (b c : Nat) (f : Crew → Crew) : (updCrew s b c f).marks = s.marks := by simp [updCrew]
@[simp] theorem updCrew_bars (s : State) (b c : Nat) (f : Crew → Crew) : (updCrew s b c f).bars = s.bars := by simp [updCrew]
@[simp] theorem updCrew_bits (s : State) (b c : Nat) (f : Crew → Crew) : (updCrew s b c f).bits = s.bits := by simp [updCrew]
@[simp] theorem updCrew_copies (s : State) (b c : Nat) (f : Crew → Crew) : (updCrew s b c f).copies = s.copies := by simp [updCrew]
@[simp] theorem updCrew_msgs (s : State) (b c : Nat) (f : Crew → Crew) : (updCrew s b c f).msgs = s.msgs := by simp [updCrew]
@[simp] theorem updCrew_armInputs (s : State) (b c : Nat) (f : Crew → Crew) : (updCrew s b c f).armInputs = s.armInputs := by simp [updCrew]
@[simp] theorem updCrew_arms (s : State) (b c : Nat) (f : Crew → Crew) : (updCrew s b c f).arms = s.arms := by simp [updCrew]
@[simp] theorem updCrew_ctrl (s : State) (b c : Nat) (f : Crew → Crew) : (updCrew s b c f).ctrl = s.ctrl := by simp [updCrew]
@[simp] theorem updCrew_gens (s : State) (b c : Nat) (f : Crew → Crew) : (updCrew s b c f).gens = s.gens := by simp [updCrew]
@[simp] theorem updCrew_tokens (s : State) (b c : Nat) (f : Crew → Crew) : (updCrew s b c f).tokens = s.tokens := by simp [updCrew]
@[simp] theorem updCrew_qis (s : State) (b c : Nat) (f : Crew → Crew) : (updCrew s b c f).qis = s.qis := by simp [updCrew]
@[simp] theorem updCrew_regs (s : State) (b c : Nat) (f : Crew → Crew) : (updCrew s b c f).regs = s.regs := by simp [updCrew]
@[simp] theorem updCrew_remotes (s : State) (b c : Nat) (f : Crew → Crew) : (updCrew s b c f).remotes = s.remotes := by simp [updCrew]
@[simp] theorem updCrew_remoteEnds (s : State) (b c : Nat) (f : Crew → Crew) : (updCrew s b c f).remoteEnds = s.remoteEnds := by simp [updCrew]
@[simp] theorem updCrew_linksDown (s : State) (b c : Nat) (f : Crew → Crew) : (updCrew s b c f).linksDown = s.linksDown := by simp [updCrew]
@[simp] theorem updCrew_lostLines (s : State) (b c : Nat) (f : Crew → Crew) : (updCrew s b c f).lostLines = s.lostLines := by simp [updCrew]
@[simp] theorem updCrew_down (s : State) (b c : Nat) (f : Crew → Crew) : (updCrew s b c f).down = s.down := by simp [updCrew]
@[simp] theorem updCrew_images (s : State) (b c : Nat) (f : Crew → Crew) : (updCrew s b c f).images = s.images := by simp [updCrew]
@[simp] theorem updCrew_trains (s : State) (b c : Nat) (f : Crew → Crew) : (updCrew s b c f).trains = s.trains := by simp [updCrew]
@[simp] theorem updCrew_deadPorts (s : State) (b c : Nat) (f : Crew → Crew) : (updCrew s b c f).deadPorts = s.deadPorts := by simp [updCrew]
@[simp] theorem updCrew_outputs (s : State) (b c : Nat) (f : Crew → Crew) : (updCrew s b c f).outputs = s.outputs := by simp [updCrew]
@[simp] theorem updCrew_nextId (s : State) (b c : Nat) (f : Crew → Crew) : (updCrew s b c f).nextId = s.nextId := by simp [updCrew]

/-! ### setCrew -/

@[simp] theorem setCrew_cur (s : State) (b c : Nat) (y : Crew) : (setCrew s b c y).cur = s.cur := by simp [setCrew]
@[simp] theorem setCrew_actor (s : State) (b c : Nat) (y : Crew) : (setCrew s b c y).actor = s.actor := by simp [setCrew]
@[simp] theorem setCrew_agenda (s : State) (b c : Nat) (y : Crew) : (setCrew s b c y).agenda = s.agenda := by simp [setCrew]
@[simp] theorem setCrew_free (s : State) (b c : Nat) (y : Crew) : (setCrew s b c y).free = s.free := by simp [setCrew]
@[simp] theorem setCrew_clock (s : State) (b c : Nat) (y : Crew) : (setCrew s b c y).clock = s.clock := by simp [setCrew]
@[simp] theorem setCrew_mem (s : State) (b c : Nat) (y : Crew) : (setCrew s b c y).mem = s.mem := by simp [setCrew]
@[simp] theorem setCrew_launches (s : State) (b c : Nat) (y : Crew) : (setCrew s b c y).launches = s.launches := by simp [setCrew]
@[simp] theorem setCrew_slipways (s : State) (b c : Nat) (y : Crew) : (setCrew s b c y).slipways = s.slipways := by simp [setCrew]
@[simp] theorem setCrew_cores (s : State) (b c : Nat) (y : Crew) : (setCrew s b c y).cores = s.cores := by simp [setCrew]
@[simp] theorem setCrew_dies (s : State) (b c : Nat) (y : Crew) : (setCrew s b c y).dies = s.dies := by simp [setCrew]
@[simp] theorem setCrew_lines (s : State) (b c : Nat) (y : Crew) : (setCrew s b c y).lines = s.lines := by simp [setCrew]
@[simp] theorem setCrew_floors (s : State) (b c : Nat) (y : Crew) : (setCrew s b c y).floors = s.floors := by simp [setCrew]
@[simp] theorem setCrew_versions (s : State) (b c : Nat) (y : Crew) : (setCrew s b c y).versions = s.versions := by simp [setCrew]
@[simp] theorem setCrew_capHomes (s : State) (b c : Nat) (y : Crew) : (setCrew s b c y).capHomes = s.capHomes := by simp [setCrew]
@[simp] theorem setCrew_capMsgs (s : State) (b c : Nat) (y : Crew) : (setCrew s b c y).capMsgs = s.capMsgs := by simp [setCrew]
@[simp] theorem setCrew_reqs (s : State) (b c : Nat) (y : Crew) : (setCrew s b c y).reqs = s.reqs := by simp [setCrew]
@[simp] theorem setCrew_walks (s : State) (b c : Nat) (y : Crew) : (setCrew s b c y).walks = s.walks := by simp [setCrew]
@[simp] theorem setCrew_walkEnds (s : State) (b c : Nat) (y : Crew) : (setCrew s b c y).walkEnds = s.walkEnds := by simp [setCrew]
@[simp] theorem setCrew_marks (s : State) (b c : Nat) (y : Crew) : (setCrew s b c y).marks = s.marks := by simp [setCrew]
@[simp] theorem setCrew_bars (s : State) (b c : Nat) (y : Crew) : (setCrew s b c y).bars = s.bars := by simp [setCrew]
@[simp] theorem setCrew_bits (s : State) (b c : Nat) (y : Crew) : (setCrew s b c y).bits = s.bits := by simp [setCrew]
@[simp] theorem setCrew_copies (s : State) (b c : Nat) (y : Crew) : (setCrew s b c y).copies = s.copies := by simp [setCrew]
@[simp] theorem setCrew_msgs (s : State) (b c : Nat) (y : Crew) : (setCrew s b c y).msgs = s.msgs := by simp [setCrew]
@[simp] theorem setCrew_armInputs (s : State) (b c : Nat) (y : Crew) : (setCrew s b c y).armInputs = s.armInputs := by simp [setCrew]
@[simp] theorem setCrew_arms (s : State) (b c : Nat) (y : Crew) : (setCrew s b c y).arms = s.arms := by simp [setCrew]
@[simp] theorem setCrew_ctrl (s : State) (b c : Nat) (y : Crew) : (setCrew s b c y).ctrl = s.ctrl := by simp [setCrew]
@[simp] theorem setCrew_gens (s : State) (b c : Nat) (y : Crew) : (setCrew s b c y).gens = s.gens := by simp [setCrew]
@[simp] theorem setCrew_tokens (s : State) (b c : Nat) (y : Crew) : (setCrew s b c y).tokens = s.tokens := by simp [setCrew]
@[simp] theorem setCrew_qis (s : State) (b c : Nat) (y : Crew) : (setCrew s b c y).qis = s.qis := by simp [setCrew]
@[simp] theorem setCrew_regs (s : State) (b c : Nat) (y : Crew) : (setCrew s b c y).regs = s.regs := by simp [setCrew]
@[simp] theorem setCrew_remotes (s : State) (b c : Nat) (y : Crew) : (setCrew s b c y).remotes = s.remotes := by simp [setCrew]
@[simp] theorem setCrew_remoteEnds (s : State) (b c : Nat) (y : Crew) : (setCrew s b c y).remoteEnds = s.remoteEnds := by simp [setCrew]
@[simp] theorem setCrew_linksDown (s : State) (b c : Nat) (y : Crew) : (setCrew s b c y).linksDown = s.linksDown := by simp [setCrew]
@[simp] theorem setCrew_lostLines (s : State) (b c : Nat) (y : Crew) : (setCrew s b c y).lostLines = s.lostLines := by simp [setCrew]
@[simp] theorem setCrew_down (s : State) (b c : Nat) (y : Crew) : (setCrew s b c y).down = s.down := by simp [setCrew]
@[simp] theorem setCrew_images (s : State) (b c : Nat) (y : Crew) : (setCrew s b c y).images = s.images := by simp [setCrew]
@[simp] theorem setCrew_trains (s : State) (b c : Nat) (y : Crew) : (setCrew s b c y).trains = s.trains := by simp [setCrew]
@[simp] theorem setCrew_deadPorts (s : State) (b c : Nat) (y : Crew) : (setCrew s b c y).deadPorts = s.deadPorts := by simp [setCrew]
@[simp] theorem setCrew_outputs (s : State) (b c : Nat) (y : Crew) : (setCrew s b c y).outputs = s.outputs := by simp [setCrew]
@[simp] theorem setCrew_nextId (s : State) (b c : Nat) (y : Crew) : (setCrew s b c y).nextId = s.nextId := by simp [setCrew]

/-! ### updSlot -/

@[simp] theorem updSlot_cur (s : State) (b c k : Nat) (f : Slot → Slot) : (updSlot s b c k f).cur = s.cur := by simp [updSlot]
@[simp] theorem updSlot_actor (s : State) (b c k : Nat) (f : Slot → Slot) : (updSlot s b c k f).actor = s.actor := by simp [updSlot]
@[simp] theorem updSlot_agenda (s : State) (b c k : Nat) (f : Slot → Slot) : (updSlot s b c k f).agenda = s.agenda := by simp [updSlot]
@[simp] theorem updSlot_free (s : State) (b c k : Nat) (f : Slot → Slot) : (updSlot s b c k f).free = s.free := by simp [updSlot]
@[simp] theorem updSlot_clock (s : State) (b c k : Nat) (f : Slot → Slot) : (updSlot s b c k f).clock = s.clock := by simp [updSlot]
@[simp] theorem updSlot_mem (s : State) (b c k : Nat) (f : Slot → Slot) : (updSlot s b c k f).mem = s.mem := by simp [updSlot]
@[simp] theorem updSlot_launches (s : State) (b c k : Nat) (f : Slot → Slot) : (updSlot s b c k f).launches = s.launches := by simp [updSlot]
@[simp] theorem updSlot_slipways (s : State) (b c k : Nat) (f : Slot → Slot) : (updSlot s b c k f).slipways = s.slipways := by simp [updSlot]
@[simp] theorem updSlot_cores (s : State) (b c k : Nat) (f : Slot → Slot) : (updSlot s b c k f).cores = s.cores := by simp [updSlot]
@[simp] theorem updSlot_dies (s : State) (b c k : Nat) (f : Slot → Slot) : (updSlot s b c k f).dies = s.dies := by simp [updSlot]
@[simp] theorem updSlot_lines (s : State) (b c k : Nat) (f : Slot → Slot) : (updSlot s b c k f).lines = s.lines := by simp [updSlot]
@[simp] theorem updSlot_floors (s : State) (b c k : Nat) (f : Slot → Slot) : (updSlot s b c k f).floors = s.floors := by simp [updSlot]
@[simp] theorem updSlot_versions (s : State) (b c k : Nat) (f : Slot → Slot) : (updSlot s b c k f).versions = s.versions := by simp [updSlot]
@[simp] theorem updSlot_capHomes (s : State) (b c k : Nat) (f : Slot → Slot) : (updSlot s b c k f).capHomes = s.capHomes := by simp [updSlot]
@[simp] theorem updSlot_capMsgs (s : State) (b c k : Nat) (f : Slot → Slot) : (updSlot s b c k f).capMsgs = s.capMsgs := by simp [updSlot]
@[simp] theorem updSlot_reqs (s : State) (b c k : Nat) (f : Slot → Slot) : (updSlot s b c k f).reqs = s.reqs := by simp [updSlot]
@[simp] theorem updSlot_walks (s : State) (b c k : Nat) (f : Slot → Slot) : (updSlot s b c k f).walks = s.walks := by simp [updSlot]
@[simp] theorem updSlot_walkEnds (s : State) (b c k : Nat) (f : Slot → Slot) : (updSlot s b c k f).walkEnds = s.walkEnds := by simp [updSlot]
@[simp] theorem updSlot_marks (s : State) (b c k : Nat) (f : Slot → Slot) : (updSlot s b c k f).marks = s.marks := by simp [updSlot]
@[simp] theorem updSlot_bars (s : State) (b c k : Nat) (f : Slot → Slot) : (updSlot s b c k f).bars = s.bars := by simp [updSlot]
@[simp] theorem updSlot_bits (s : State) (b c k : Nat) (f : Slot → Slot) : (updSlot s b c k f).bits = s.bits := by simp [updSlot]
@[simp] theorem updSlot_copies (s : State) (b c k : Nat) (f : Slot → Slot) : (updSlot s b c k f).copies = s.copies := by simp [updSlot]
@[simp] theorem updSlot_msgs (s : State) (b c k : Nat) (f : Slot → Slot) : (updSlot s b c k f).msgs = s.msgs := by simp [updSlot]
@[simp] theorem updSlot_armInputs (s : State) (b c k : Nat) (f : Slot → Slot) : (updSlot s b c k f).armInputs = s.armInputs := by simp [updSlot]
@[simp] theorem updSlot_arms (s : State) (b c k : Nat) (f : Slot → Slot) : (updSlot s b c k f).arms = s.arms := by simp [updSlot]
@[simp] theorem updSlot_ctrl (s : State) (b c k : Nat) (f : Slot → Slot) : (updSlot s b c k f).ctrl = s.ctrl := by simp [updSlot]
@[simp] theorem updSlot_gens (s : State) (b c k : Nat) (f : Slot → Slot) : (updSlot s b c k f).gens = s.gens := by simp [updSlot]
@[simp] theorem updSlot_tokens (s : State) (b c k : Nat) (f : Slot → Slot) : (updSlot s b c k f).tokens = s.tokens := by simp [updSlot]
@[simp] theorem updSlot_qis (s : State) (b c k : Nat) (f : Slot → Slot) : (updSlot s b c k f).qis = s.qis := by simp [updSlot]
@[simp] theorem updSlot_regs (s : State) (b c k : Nat) (f : Slot → Slot) : (updSlot s b c k f).regs = s.regs := by simp [updSlot]
@[simp] theorem updSlot_remotes (s : State) (b c k : Nat) (f : Slot → Slot) : (updSlot s b c k f).remotes = s.remotes := by simp [updSlot]
@[simp] theorem updSlot_remoteEnds (s : State) (b c k : Nat) (f : Slot → Slot) : (updSlot s b c k f).remoteEnds = s.remoteEnds := by simp [updSlot]
@[simp] theorem updSlot_linksDown (s : State) (b c k : Nat) (f : Slot → Slot) : (updSlot s b c k f).linksDown = s.linksDown := by simp [updSlot]
@[simp] theorem updSlot_lostLines (s : State) (b c k : Nat) (f : Slot → Slot) : (updSlot s b c k f).lostLines = s.lostLines := by simp [updSlot]
@[simp] theorem updSlot_down (s : State) (b c k : Nat) (f : Slot → Slot) : (updSlot s b c k f).down = s.down := by simp [updSlot]
@[simp] theorem updSlot_images (s : State) (b c k : Nat) (f : Slot → Slot) : (updSlot s b c k f).images = s.images := by simp [updSlot]
@[simp] theorem updSlot_trains (s : State) (b c k : Nat) (f : Slot → Slot) : (updSlot s b c k f).trains = s.trains := by simp [updSlot]
@[simp] theorem updSlot_deadPorts (s : State) (b c k : Nat) (f : Slot → Slot) : (updSlot s b c k f).deadPorts = s.deadPorts := by simp [updSlot]
@[simp] theorem updSlot_outputs (s : State) (b c k : Nat) (f : Slot → Slot) : (updSlot s b c k f).outputs = s.outputs := by simp [updSlot]
@[simp] theorem updSlot_nextId (s : State) (b c k : Nat) (f : Slot → Slot) : (updSlot s b c k f).nextId = s.nextId := by simp [updSlot]

/-! ### waitSlot -/

@[simp] theorem waitSlot_cur (s : State) (h : Here) (c : Cond) : (waitSlot s h c).cur = s.cur := by simp [waitSlot]
@[simp] theorem waitSlot_actor (s : State) (h : Here) (c : Cond) : (waitSlot s h c).actor = s.actor := by simp [waitSlot]
@[simp] theorem waitSlot_agenda (s : State) (h : Here) (c : Cond) : (waitSlot s h c).agenda = s.agenda := by simp [waitSlot]
@[simp] theorem waitSlot_free (s : State) (h : Here) (c : Cond) : (waitSlot s h c).free = s.free := by simp [waitSlot]
@[simp] theorem waitSlot_clock (s : State) (h : Here) (c : Cond) : (waitSlot s h c).clock = s.clock := by simp [waitSlot]
@[simp] theorem waitSlot_mem (s : State) (h : Here) (c : Cond) : (waitSlot s h c).mem = s.mem := by simp [waitSlot]
@[simp] theorem waitSlot_launches (s : State) (h : Here) (c : Cond) : (waitSlot s h c).launches = s.launches := by simp [waitSlot]
@[simp] theorem waitSlot_slipways (s : State) (h : Here) (c : Cond) : (waitSlot s h c).slipways = s.slipways := by simp [waitSlot]
@[simp] theorem waitSlot_cores (s : State) (h : Here) (c : Cond) : (waitSlot s h c).cores = s.cores := by simp [waitSlot]
@[simp] theorem waitSlot_dies (s : State) (h : Here) (c : Cond) : (waitSlot s h c).dies = s.dies := by simp [waitSlot]
@[simp] theorem waitSlot_lines (s : State) (h : Here) (c : Cond) : (waitSlot s h c).lines = s.lines := by simp [waitSlot]
@[simp] theorem waitSlot_floors (s : State) (h : Here) (c : Cond) : (waitSlot s h c).floors = s.floors := by simp [waitSlot]
@[simp] theorem waitSlot_versions (s : State) (h : Here) (c : Cond) : (waitSlot s h c).versions = s.versions := by simp [waitSlot]
@[simp] theorem waitSlot_capHomes (s : State) (h : Here) (c : Cond) : (waitSlot s h c).capHomes = s.capHomes := by simp [waitSlot]
@[simp] theorem waitSlot_capMsgs (s : State) (h : Here) (c : Cond) : (waitSlot s h c).capMsgs = s.capMsgs := by simp [waitSlot]
@[simp] theorem waitSlot_reqs (s : State) (h : Here) (c : Cond) : (waitSlot s h c).reqs = s.reqs := by simp [waitSlot]
@[simp] theorem waitSlot_walks (s : State) (h : Here) (c : Cond) : (waitSlot s h c).walks = s.walks := by simp [waitSlot]
@[simp] theorem waitSlot_walkEnds (s : State) (h : Here) (c : Cond) : (waitSlot s h c).walkEnds = s.walkEnds := by simp [waitSlot]
@[simp] theorem waitSlot_marks (s : State) (h : Here) (c : Cond) : (waitSlot s h c).marks = s.marks := by simp [waitSlot]
@[simp] theorem waitSlot_bars (s : State) (h : Here) (c : Cond) : (waitSlot s h c).bars = s.bars := by simp [waitSlot]
@[simp] theorem waitSlot_bits (s : State) (h : Here) (c : Cond) : (waitSlot s h c).bits = s.bits := by simp [waitSlot]
@[simp] theorem waitSlot_copies (s : State) (h : Here) (c : Cond) : (waitSlot s h c).copies = s.copies := by simp [waitSlot]
@[simp] theorem waitSlot_msgs (s : State) (h : Here) (c : Cond) : (waitSlot s h c).msgs = s.msgs := by simp [waitSlot]
@[simp] theorem waitSlot_armInputs (s : State) (h : Here) (c : Cond) : (waitSlot s h c).armInputs = s.armInputs := by simp [waitSlot]
@[simp] theorem waitSlot_arms (s : State) (h : Here) (c : Cond) : (waitSlot s h c).arms = s.arms := by simp [waitSlot]
@[simp] theorem waitSlot_ctrl (s : State) (h : Here) (c : Cond) : (waitSlot s h c).ctrl = s.ctrl := by simp [waitSlot]
@[simp] theorem waitSlot_gens (s : State) (h : Here) (c : Cond) : (waitSlot s h c).gens = s.gens := by simp [waitSlot]
@[simp] theorem waitSlot_tokens (s : State) (h : Here) (c : Cond) : (waitSlot s h c).tokens = s.tokens := by simp [waitSlot]
@[simp] theorem waitSlot_qis (s : State) (h : Here) (c : Cond) : (waitSlot s h c).qis = s.qis := by simp [waitSlot]
@[simp] theorem waitSlot_regs (s : State) (h : Here) (c : Cond) : (waitSlot s h c).regs = s.regs := by simp [waitSlot]
@[simp] theorem waitSlot_remotes (s : State) (h : Here) (c : Cond) : (waitSlot s h c).remotes = s.remotes := by simp [waitSlot]
@[simp] theorem waitSlot_remoteEnds (s : State) (h : Here) (c : Cond) : (waitSlot s h c).remoteEnds = s.remoteEnds := by simp [waitSlot]
@[simp] theorem waitSlot_linksDown (s : State) (h : Here) (c : Cond) : (waitSlot s h c).linksDown = s.linksDown := by simp [waitSlot]
@[simp] theorem waitSlot_lostLines (s : State) (h : Here) (c : Cond) : (waitSlot s h c).lostLines = s.lostLines := by simp [waitSlot]
@[simp] theorem waitSlot_down (s : State) (h : Here) (c : Cond) : (waitSlot s h c).down = s.down := by simp [waitSlot]
@[simp] theorem waitSlot_images (s : State) (h : Here) (c : Cond) : (waitSlot s h c).images = s.images := by simp [waitSlot]
@[simp] theorem waitSlot_trains (s : State) (h : Here) (c : Cond) : (waitSlot s h c).trains = s.trains := by simp [waitSlot]
@[simp] theorem waitSlot_deadPorts (s : State) (h : Here) (c : Cond) : (waitSlot s h c).deadPorts = s.deadPorts := by simp [waitSlot]
@[simp] theorem waitSlot_outputs (s : State) (h : Here) (c : Cond) : (waitSlot s h c).outputs = s.outputs := by simp [waitSlot]
@[simp] theorem waitSlot_nextId (s : State) (h : Here) (c : Cond) : (waitSlot s h c).nextId = s.nextId := by simp [waitSlot]

/-! ### putCrew -/

@[simp] theorem putCrew_cur (s : State) (b c : Nat) (y : Crew) : (putCrew s b c y).cur = s.cur := by unfold putCrew popLater; split <;> (try split) <;> simp
@[simp] theorem putCrew_actor (s : State) (b c : Nat) (y : Crew) : (putCrew s b c y).actor = s.actor := by unfold putCrew popLater; split <;> (try split) <;> simp
@[simp] theorem putCrew_free (s : State) (b c : Nat) (y : Crew) : (putCrew s b c y).free = s.free := by unfold putCrew popLater; split <;> (try split) <;> simp
@[simp] theorem putCrew_clock (s : State) (b c : Nat) (y : Crew) : (putCrew s b c y).clock = s.clock := by unfold putCrew popLater; split <;> (try split) <;> simp
@[simp] theorem putCrew_mem (s : State) (b c : Nat) (y : Crew) : (putCrew s b c y).mem = s.mem := by unfold putCrew popLater; split <;> (try split) <;> simp
@[simp] theorem putCrew_launches (s : State) (b c : Nat) (y : Crew) : (putCrew s b c y).launches = s.launches := by unfold putCrew popLater; split <;> (try split) <;> simp
@[simp] theorem putCrew_slipways (s : State) (b c : Nat) (y : Crew) : (putCrew s b c y).slipways = s.slipways := by unfold putCrew popLater; split <;> (try split) <;> simp
@[simp] theorem putCrew_cores (s : State) (b c : Nat) (y : Crew) : (putCrew s b c y).cores = s.cores := by unfold putCrew popLater; split <;> (try split) <;> simp
@[simp] theorem putCrew_dies (s : State) (b c : Nat) (y : Crew) : (putCrew s b c y).dies = s.dies := by unfold putCrew popLater; split <;> (try split) <;> simp
@[simp] theorem putCrew_lines (s : State) (b c : Nat) (y : Crew) : (putCrew s b c y).lines = s.lines := by unfold putCrew popLater; split <;> (try split) <;> simp
@[simp] theorem putCrew_floors (s : State) (b c : Nat) (y : Crew) : (putCrew s b c y).floors = s.floors := by unfold putCrew popLater; split <;> (try split) <;> simp
@[simp] theorem putCrew_versions (s : State) (b c : Nat) (y : Crew) : (putCrew s b c y).versions = s.versions := by unfold putCrew popLater; split <;> (try split) <;> simp
@[simp] theorem putCrew_capHomes (s : State) (b c : Nat) (y : Crew) : (putCrew s b c y).capHomes = s.capHomes := by unfold putCrew popLater; split <;> (try split) <;> simp
@[simp] theorem putCrew_capMsgs (s : State) (b c : Nat) (y : Crew) : (putCrew s b c y).capMsgs = s.capMsgs := by unfold putCrew popLater; split <;> (try split) <;> simp
@[simp] theorem putCrew_reqs (s : State) (b c : Nat) (y : Crew) : (putCrew s b c y).reqs = s.reqs := by unfold putCrew popLater; split <;> (try split) <;> simp
@[simp] theorem putCrew_walks (s : State) (b c : Nat) (y : Crew) : (putCrew s b c y).walks = s.walks := by unfold putCrew popLater; split <;> (try split) <;> simp
@[simp] theorem putCrew_walkEnds (s : State) (b c : Nat) (y : Crew) : (putCrew s b c y).walkEnds = s.walkEnds := by unfold putCrew popLater; split <;> (try split) <;> simp
@[simp] theorem putCrew_marks (s : State) (b c : Nat) (y : Crew) : (putCrew s b c y).marks = s.marks := by unfold putCrew popLater; split <;> (try split) <;> simp
@[simp] theorem putCrew_bars (s : State) (b c : Nat) (y : Crew) : (putCrew s b c y).bars = s.bars := by unfold putCrew popLater; split <;> (try split) <;> simp
@[simp] theorem putCrew_bits (s : State) (b c : Nat) (y : Crew) : (putCrew s b c y).bits = s.bits := by unfold putCrew popLater; split <;> (try split) <;> simp
@[simp] theorem putCrew_copies (s : State) (b c : Nat) (y : Crew) : (putCrew s b c y).copies = s.copies := by unfold putCrew popLater; split <;> (try split) <;> simp
@[simp] theorem putCrew_msgs (s : State) (b c : Nat) (y : Crew) : (putCrew s b c y).msgs = s.msgs := by unfold putCrew popLater; split <;> (try split) <;> simp
@[simp] theorem putCrew_armInputs (s : State) (b c : Nat) (y : Crew) : (putCrew s b c y).armInputs = s.armInputs := by unfold putCrew popLater; split <;> (try split) <;> simp
@[simp] theorem putCrew_arms (s : State) (b c : Nat) (y : Crew) : (putCrew s b c y).arms = s.arms := by unfold putCrew popLater; split <;> (try split) <;> simp
@[simp] theorem putCrew_ctrl (s : State) (b c : Nat) (y : Crew) : (putCrew s b c y).ctrl = s.ctrl := by unfold putCrew popLater; split <;> (try split) <;> simp
@[simp] theorem putCrew_gens (s : State) (b c : Nat) (y : Crew) : (putCrew s b c y).gens = s.gens := by unfold putCrew popLater; split <;> (try split) <;> simp
@[simp] theorem putCrew_tokens (s : State) (b c : Nat) (y : Crew) : (putCrew s b c y).tokens = s.tokens := by unfold putCrew popLater; split <;> (try split) <;> simp
@[simp] theorem putCrew_qis (s : State) (b c : Nat) (y : Crew) : (putCrew s b c y).qis = s.qis := by unfold putCrew popLater; split <;> (try split) <;> simp
@[simp] theorem putCrew_regs (s : State) (b c : Nat) (y : Crew) : (putCrew s b c y).regs = s.regs := by unfold putCrew popLater; split <;> (try split) <;> simp
@[simp] theorem putCrew_remotes (s : State) (b c : Nat) (y : Crew) : (putCrew s b c y).remotes = s.remotes := by unfold putCrew popLater; split <;> (try split) <;> simp
@[simp] theorem putCrew_remoteEnds (s : State) (b c : Nat) (y : Crew) : (putCrew s b c y).remoteEnds = s.remoteEnds := by unfold putCrew popLater; split <;> (try split) <;> simp
@[simp] theorem putCrew_linksDown (s : State) (b c : Nat) (y : Crew) : (putCrew s b c y).linksDown = s.linksDown := by unfold putCrew popLater; split <;> (try split) <;> simp
@[simp] theorem putCrew_lostLines (s : State) (b c : Nat) (y : Crew) : (putCrew s b c y).lostLines = s.lostLines := by unfold putCrew popLater; split <;> (try split) <;> simp
@[simp] theorem putCrew_down (s : State) (b c : Nat) (y : Crew) : (putCrew s b c y).down = s.down := by unfold putCrew popLater; split <;> (try split) <;> simp
@[simp] theorem putCrew_images (s : State) (b c : Nat) (y : Crew) : (putCrew s b c y).images = s.images := by unfold putCrew popLater; split <;> (try split) <;> simp
@[simp] theorem putCrew_trains (s : State) (b c : Nat) (y : Crew) : (putCrew s b c y).trains = s.trains := by unfold putCrew popLater; split <;> (try split) <;> simp
@[simp] theorem putCrew_deadPorts (s : State) (b c : Nat) (y : Crew) : (putCrew s b c y).deadPorts = s.deadPorts := by unfold putCrew popLater; split <;> (try split) <;> simp
@[simp] theorem putCrew_outputs (s : State) (b c : Nat) (y : Crew) : (putCrew s b c y).outputs = s.outputs := by unfold putCrew popLater; split <;> (try split) <;> simp
@[simp] theorem putCrew_nextId (s : State) (b c : Nat) (y : Crew) : (putCrew s b c y).nextId = s.nextId := by unfold putCrew popLater; split <;> (try split) <;> simp

/-! ### jumpTo -/

@[simp] theorem jumpTo_cur (s : State) (h : Here) (pc : DWord) : (jumpTo s h pc).cur = s.cur := by unfold jumpTo; split <;> simp
@[simp] theorem jumpTo_actor (s : State) (h : Here) (pc : DWord) : (jumpTo s h pc).actor = s.actor := by unfold jumpTo; split <;> simp
@[simp] theorem jumpTo_free (s : State) (h : Here) (pc : DWord) : (jumpTo s h pc).free = s.free := by unfold jumpTo; split <;> simp
@[simp] theorem jumpTo_clock (s : State) (h : Here) (pc : DWord) : (jumpTo s h pc).clock = s.clock := by unfold jumpTo; split <;> simp
@[simp] theorem jumpTo_mem (s : State) (h : Here) (pc : DWord) : (jumpTo s h pc).mem = s.mem := by unfold jumpTo; split <;> simp
@[simp] theorem jumpTo_launches (s : State) (h : Here) (pc : DWord) : (jumpTo s h pc).launches = s.launches := by unfold jumpTo; split <;> simp
@[simp] theorem jumpTo_slipways (s : State) (h : Here) (pc : DWord) : (jumpTo s h pc).slipways = s.slipways := by unfold jumpTo; split <;> simp
@[simp] theorem jumpTo_cores (s : State) (h : Here) (pc : DWord) : (jumpTo s h pc).cores = s.cores := by unfold jumpTo; split <;> simp
@[simp] theorem jumpTo_dies (s : State) (h : Here) (pc : DWord) : (jumpTo s h pc).dies = s.dies := by unfold jumpTo; split <;> simp
@[simp] theorem jumpTo_lines (s : State) (h : Here) (pc : DWord) : (jumpTo s h pc).lines = s.lines := by unfold jumpTo; split <;> simp
@[simp] theorem jumpTo_floors (s : State) (h : Here) (pc : DWord) : (jumpTo s h pc).floors = s.floors := by unfold jumpTo; split <;> simp
@[simp] theorem jumpTo_versions (s : State) (h : Here) (pc : DWord) : (jumpTo s h pc).versions = s.versions := by unfold jumpTo; split <;> simp
@[simp] theorem jumpTo_capHomes (s : State) (h : Here) (pc : DWord) : (jumpTo s h pc).capHomes = s.capHomes := by unfold jumpTo; split <;> simp
@[simp] theorem jumpTo_capMsgs (s : State) (h : Here) (pc : DWord) : (jumpTo s h pc).capMsgs = s.capMsgs := by unfold jumpTo; split <;> simp
@[simp] theorem jumpTo_reqs (s : State) (h : Here) (pc : DWord) : (jumpTo s h pc).reqs = s.reqs := by unfold jumpTo; split <;> simp
@[simp] theorem jumpTo_walks (s : State) (h : Here) (pc : DWord) : (jumpTo s h pc).walks = s.walks := by unfold jumpTo; split <;> simp
@[simp] theorem jumpTo_walkEnds (s : State) (h : Here) (pc : DWord) : (jumpTo s h pc).walkEnds = s.walkEnds := by unfold jumpTo; split <;> simp
@[simp] theorem jumpTo_marks (s : State) (h : Here) (pc : DWord) : (jumpTo s h pc).marks = s.marks := by unfold jumpTo; split <;> simp
@[simp] theorem jumpTo_bars (s : State) (h : Here) (pc : DWord) : (jumpTo s h pc).bars = s.bars := by unfold jumpTo; split <;> simp
@[simp] theorem jumpTo_bits (s : State) (h : Here) (pc : DWord) : (jumpTo s h pc).bits = s.bits := by unfold jumpTo; split <;> simp
@[simp] theorem jumpTo_copies (s : State) (h : Here) (pc : DWord) : (jumpTo s h pc).copies = s.copies := by unfold jumpTo; split <;> simp
@[simp] theorem jumpTo_msgs (s : State) (h : Here) (pc : DWord) : (jumpTo s h pc).msgs = s.msgs := by unfold jumpTo; split <;> simp
@[simp] theorem jumpTo_armInputs (s : State) (h : Here) (pc : DWord) : (jumpTo s h pc).armInputs = s.armInputs := by unfold jumpTo; split <;> simp
@[simp] theorem jumpTo_arms (s : State) (h : Here) (pc : DWord) : (jumpTo s h pc).arms = s.arms := by unfold jumpTo; split <;> simp
@[simp] theorem jumpTo_ctrl (s : State) (h : Here) (pc : DWord) : (jumpTo s h pc).ctrl = s.ctrl := by unfold jumpTo; split <;> simp
@[simp] theorem jumpTo_gens (s : State) (h : Here) (pc : DWord) : (jumpTo s h pc).gens = s.gens := by unfold jumpTo; split <;> simp
@[simp] theorem jumpTo_tokens (s : State) (h : Here) (pc : DWord) : (jumpTo s h pc).tokens = s.tokens := by unfold jumpTo; split <;> simp
@[simp] theorem jumpTo_qis (s : State) (h : Here) (pc : DWord) : (jumpTo s h pc).qis = s.qis := by unfold jumpTo; split <;> simp
@[simp] theorem jumpTo_regs (s : State) (h : Here) (pc : DWord) : (jumpTo s h pc).regs = s.regs := by unfold jumpTo; split <;> simp
@[simp] theorem jumpTo_remotes (s : State) (h : Here) (pc : DWord) : (jumpTo s h pc).remotes = s.remotes := by unfold jumpTo; split <;> simp
@[simp] theorem jumpTo_remoteEnds (s : State) (h : Here) (pc : DWord) : (jumpTo s h pc).remoteEnds = s.remoteEnds := by unfold jumpTo; split <;> simp
@[simp] theorem jumpTo_linksDown (s : State) (h : Here) (pc : DWord) : (jumpTo s h pc).linksDown = s.linksDown := by unfold jumpTo; split <;> simp
@[simp] theorem jumpTo_lostLines (s : State) (h : Here) (pc : DWord) : (jumpTo s h pc).lostLines = s.lostLines := by unfold jumpTo; split <;> simp
@[simp] theorem jumpTo_down (s : State) (h : Here) (pc : DWord) : (jumpTo s h pc).down = s.down := by unfold jumpTo; split <;> simp
@[simp] theorem jumpTo_images (s : State) (h : Here) (pc : DWord) : (jumpTo s h pc).images = s.images := by unfold jumpTo; split <;> simp
@[simp] theorem jumpTo_trains (s : State) (h : Here) (pc : DWord) : (jumpTo s h pc).trains = s.trains := by unfold jumpTo; split <;> simp
@[simp] theorem jumpTo_deadPorts (s : State) (h : Here) (pc : DWord) : (jumpTo s h pc).deadPorts = s.deadPorts := by unfold jumpTo; split <;> simp
@[simp] theorem jumpTo_outputs (s : State) (h : Here) (pc : DWord) : (jumpTo s h pc).outputs = s.outputs := by unfold jumpTo; split <;> simp
@[simp] theorem jumpTo_nextId (s : State) (h : Here) (pc : DWord) : (jumpTo s h pc).nextId = s.nextId := by unfold jumpTo; split <;> simp

/-! ### nextWord -/

@[simp] theorem nextWord_cur (s : State) (h : Here) : (nextWord s h).cur = s.cur := by simp [nextWord]
@[simp] theorem nextWord_actor (s : State) (h : Here) : (nextWord s h).actor = s.actor := by simp [nextWord]
@[simp] theorem nextWord_free (s : State) (h : Here) : (nextWord s h).free = s.free := by simp [nextWord]
@[simp] theorem nextWord_clock (s : State) (h : Here) : (nextWord s h).clock = s.clock := by simp [nextWord]
@[simp] theorem nextWord_mem (s : State) (h : Here) : (nextWord s h).mem = s.mem := by simp [nextWord]
@[simp] theorem nextWord_launches (s : State) (h : Here) : (nextWord s h).launches = s.launches := by simp [nextWord]
@[simp] theorem nextWord_slipways (s : State) (h : Here) : (nextWord s h).slipways = s.slipways := by simp [nextWord]
@[simp] theorem nextWord_cores (s : State) (h : Here) : (nextWord s h).cores = s.cores := by simp [nextWord]
@[simp] theorem nextWord_dies (s : State) (h : Here) : (nextWord s h).dies = s.dies := by simp [nextWord]
@[simp] theorem nextWord_lines (s : State) (h : Here) : (nextWord s h).lines = s.lines := by simp [nextWord]
@[simp] theorem nextWord_floors (s : State) (h : Here) : (nextWord s h).floors = s.floors := by simp [nextWord]
@[simp] theorem nextWord_versions (s : State) (h : Here) : (nextWord s h).versions = s.versions := by simp [nextWord]
@[simp] theorem nextWord_capHomes (s : State) (h : Here) : (nextWord s h).capHomes = s.capHomes := by simp [nextWord]
@[simp] theorem nextWord_capMsgs (s : State) (h : Here) : (nextWord s h).capMsgs = s.capMsgs := by simp [nextWord]
@[simp] theorem nextWord_reqs (s : State) (h : Here) : (nextWord s h).reqs = s.reqs := by simp [nextWord]
@[simp] theorem nextWord_walks (s : State) (h : Here) : (nextWord s h).walks = s.walks := by simp [nextWord]
@[simp] theorem nextWord_walkEnds (s : State) (h : Here) : (nextWord s h).walkEnds = s.walkEnds := by simp [nextWord]
@[simp] theorem nextWord_marks (s : State) (h : Here) : (nextWord s h).marks = s.marks := by simp [nextWord]
@[simp] theorem nextWord_bars (s : State) (h : Here) : (nextWord s h).bars = s.bars := by simp [nextWord]
@[simp] theorem nextWord_bits (s : State) (h : Here) : (nextWord s h).bits = s.bits := by simp [nextWord]
@[simp] theorem nextWord_copies (s : State) (h : Here) : (nextWord s h).copies = s.copies := by simp [nextWord]
@[simp] theorem nextWord_msgs (s : State) (h : Here) : (nextWord s h).msgs = s.msgs := by simp [nextWord]
@[simp] theorem nextWord_armInputs (s : State) (h : Here) : (nextWord s h).armInputs = s.armInputs := by simp [nextWord]
@[simp] theorem nextWord_arms (s : State) (h : Here) : (nextWord s h).arms = s.arms := by simp [nextWord]
@[simp] theorem nextWord_ctrl (s : State) (h : Here) : (nextWord s h).ctrl = s.ctrl := by simp [nextWord]
@[simp] theorem nextWord_gens (s : State) (h : Here) : (nextWord s h).gens = s.gens := by simp [nextWord]
@[simp] theorem nextWord_tokens (s : State) (h : Here) : (nextWord s h).tokens = s.tokens := by simp [nextWord]
@[simp] theorem nextWord_qis (s : State) (h : Here) : (nextWord s h).qis = s.qis := by simp [nextWord]
@[simp] theorem nextWord_regs (s : State) (h : Here) : (nextWord s h).regs = s.regs := by simp [nextWord]
@[simp] theorem nextWord_remotes (s : State) (h : Here) : (nextWord s h).remotes = s.remotes := by simp [nextWord]
@[simp] theorem nextWord_remoteEnds (s : State) (h : Here) : (nextWord s h).remoteEnds = s.remoteEnds := by simp [nextWord]
@[simp] theorem nextWord_linksDown (s : State) (h : Here) : (nextWord s h).linksDown = s.linksDown := by simp [nextWord]
@[simp] theorem nextWord_lostLines (s : State) (h : Here) : (nextWord s h).lostLines = s.lostLines := by simp [nextWord]
@[simp] theorem nextWord_down (s : State) (h : Here) : (nextWord s h).down = s.down := by simp [nextWord]
@[simp] theorem nextWord_images (s : State) (h : Here) : (nextWord s h).images = s.images := by simp [nextWord]
@[simp] theorem nextWord_trains (s : State) (h : Here) : (nextWord s h).trains = s.trains := by simp [nextWord]
@[simp] theorem nextWord_deadPorts (s : State) (h : Here) : (nextWord s h).deadPorts = s.deadPorts := by simp [nextWord]
@[simp] theorem nextWord_outputs (s : State) (h : Here) : (nextWord s h).outputs = s.outputs := by simp [nextWord]
@[simp] theorem nextWord_nextId (s : State) (h : Here) : (nextWord s h).nextId = s.nextId := by simp [nextWord]

end Sys2Proof.Machine
end

