-- ==== Sys2Proof/Laws/Exec.lean ====
section
/-! SUPPORT. How the effects of a word run: each step of the effect monad, the checks at issue, and the lemma that
every meaning's proof begins with. -/

namespace Sys2Proof.Machine

variable {α β : Type}

/-! ## The monad -/

theorem run_bind (x : Exec α) (f : α → Exec β) (s : State) :
    (x >>= f).run s = match x.run s with
      | .ok (a, t) => (f a).run t
      | .error e => .error e := by
  simp only [bind, StateT.bind, StateT.run, Except.bind]
  cases x s <;> rfl

theorem run_bind_ok {x : Exec α} {f : α → Exec β} {s t : State} {a : α} (h : x.run s = .ok (a, t)) :
    (x >>= f).run s = (f a).run t := by rw [run_bind, h]

theorem run_bind_error {x : Exec α} {f : α → Exec β} {s e : State} (h : x.run s = .error e) :
    (x >>= f).run s = .error e := by rw [run_bind, h]

@[simp] theorem run_pure (a : α) (s : State) : (pure a : Exec α).run s = .ok (a, s) := rfl

@[simp] theorem run_getE (s : State) : getE.run s = .ok (s, s) := rfl

@[simp] theorem run_modifyE (f : State → State) (s : State) : (modifyE f).run s = .ok ((), f s) := rfl

@[simp] theorem run_updCrewE (h : Here) (f : Crew → Crew) (s : State) :
    (updCrewE h f).run s = .ok ((), updCrew s h.b h.c f) := rfl

@[simp] theorem run_nextE (h : Here) (s : State) : (nextE h).run s = .ok ((), nextWord s h) := rfl

@[simp] theorem run_crewE (h : Here) (s : State) : (crewE h).run s = .ok ((crewOf s h.b h.c).getD h.crew, s) := rfl

@[simp] theorem run_stopWith (f : State → State) (s : State) : (stopWith f : Exec α).run s = .error (f s) := rfl

@[simp] theorem run_waitE (h : Here) (c : Cond) (s : State) : (waitE h c : Exec α).run s = .error (waitSlot s h c) := rfl

@[simp] theorem run_trapE (h : Here) (c : Cause) (code : Nat) (at10 : DWord) (s : State) :
    (trapE h c code at10 : Exec α).run s = .error (takeTrap s h c code at10) := rfl

@[simp] theorem run_faultE (h : Here) (c : Cause) (code : Nat) (addr : DWord) (kind : Nat) (s : State) :
    (faultE h c code addr kind : Exec α).run s = .error (takeFault s h c code addr kind) := rfl

theorem finish_ok {m : Exec Unit} {s t : State} (h : m.run s = .ok ((), t)) : finish m s = .next t := by
  simp only [finish, h]

theorem finish_error {m : Exec Unit} {s t : State} (h : m.run s = .error t) : finish m s = .next t := by
  simp only [finish, h]

/-- Effects always end in a next state. -/
theorem finish_next (m : Exec Unit) (s : State) : ∃ t, finish m s = .next t := by
  cases h : m.run s with
  | ok r => exact ⟨r.2, finish_ok (t := r.2) h⟩
  | error e => exact ⟨e, finish_error h⟩

/-! ## Issue -/

theorem run_countWord (h : Here) (s : State) : (countWord h).run s = .ok ((), counted h s) := by
  unfold countWord counted
  split <;> rfl

/-- A word whose checks pass runs its effects, and is counted. -/
theorem issueWord_runs {i : Instr} {s : State} {h : Here} {body : Here → Exec Unit} {t : State} (hp : passes i s h)
    (hr : (body h).run s = .ok ((), t)) : issueWord i s body = .next (counted h t) := by
  obtain ⟨⟨g, hg, rfl⟩, hw⟩ := hp
  simp only [issueWord, hg]
  rw [hw]
  exact finish_ok (by rw [run_bind_ok hr, run_countWord])

/-- A word whose checks pass and whose effects stop ends in the state in which they stop. -/
theorem issueWord_stops {i : Instr} {s : State} {h : Here} {body : Here → Exec Unit} {t : State} (hp : passes i s h)
    (hr : (body h).run s = .error t) : issueWord i s body = .next t := by
  obtain ⟨⟨g, hg, rfl⟩, hw⟩ := hp
  simp only [issueWord, hg]
  rw [hw]
  exact finish_error (run_bind_error hr)

/-- A word that fails a check traps. -/
theorem issueWord_traps {i : Instr} {s : State} {h : Here} {body : Here → Exec Unit} {c : Cause} {code : Nat}
    (hi : issuesAt i s h) (hw : wordFate h i = .trap c code) :
    issueWord i s body = .next (takeTrap s h c code 0) := by
  obtain ⟨g, hg, rfl⟩ := hi
  simp only [issueWord, hg]
  rw [hw]

/-- A word that must wait waits. -/
theorem issueWord_waits {i : Instr} {s : State} {h : Here} {body : Here → Exec Unit} {r : Retry}
    (hi : issuesAt i s h) (hw : wordFate h i = .wait r) :
    issueWord i s body = .next (waitSlot s h (.retry r)) := by
  obtain ⟨g, hg, rfl⟩ := hi
  simp only [issueWord, hg]
  rw [hw]

/-- With an issuing slot a word always ends in a next state. -/
theorem issueWord_next {i : Instr} {s : State} {g : Here} (body : Here → Exec Unit) (hg : here s = some g) :
    ∃ t, issueWord i s body = .next t := by
  simp only [issueWord, hg]
  split
  · exact ⟨_, rfl⟩
  · exact ⟨_, rfl⟩
  · exact finish_next _ _

/-- With no issuing slot there is no meaning. -/
theorem issueWord_none {i : Instr} {s : State} (body : Here → Exec Unit) (hg : here s = none) :
    issueWord i s body = .refused .noIssuingSlot := by
  simp only [issueWord, hg]

end Sys2Proof.Machine
end

