-- ==== Sys2Proof/Laws/Words.lean ====
section
/-! SUPPORT. What the shared operations of words do: sources, lane by lane words, predicates; and what a performed word
changes. -/

namespace Sys2Proof.Machine

/-! ## Sources -/

theorem readSrcE_plain {h : Here} {m : Mask} {o : Opnd} {n : Nat} (s : State) (ho : isChanOpnd o = false) :
    (readSrcE h m o n).run s = .ok (fun l => srcNum s h o n l, s) := by
  cases o <;> first
    | rfl
    | simp [isChanOpnd] at ho

theorem readListE_plain (h : Here) (m : Mask) (s : State) :
    ∀ os : List (Opnd × Nat), (os.all fun o => !isChanOpnd o.1) = true →
      (readListE h m os).run s = .ok (os.map fun o => fun l => srcNum s h o.1 o.2 l, s) := by
  intro os
  induction os with
  | nil => intro _; rfl
  | cons o r ih =>
    intro ha
    simp only [List.all_cons, Bool.and_eq_true, Bool.not_eq_true'] at ha
    unfold readListE
    rw [run_bind_ok (readSrcE_plain s ha.1), run_bind_ok (ih ha.2)]
    rfl

/-- Sources that are no channels are read as they stand, and nothing changes. -/
theorem readSrcsE_plain (h : Here) (m : Mask) (s : State) (os : List (Opnd × Nat)) (ha : plainSrcs os = true) :
    (readSrcsE h m os).run s = .ok (os.map fun o => fun l => srcNum s h o.1 o.2 l, s) := by
  have hn : (os.any fun o => isChanOpnd o.1) = false := by
    simp only [plainSrcs, List.all_eq_true, Bool.not_eq_true'] at ha
    simp only [List.any_eq_false, Bool.not_eq_true]
    exact ha
  unfold readSrcsE
  rw [hn]
  exact readListE_plain h m s os ha

/-! ## Lane by lane words -/

theorem runLanes_runs {h : Here} {g : Guard} {d : Opnd} {dn : Nat} {srcs : List (Opnd × Nat)}
    {f : Nat → List Nat → Nat × FlagSet} {s t : State} {vs : List (Nat → Nat)} (hm : activeMask h g ≠ 0)
    (hr : (readSrcsE h (activeMask h g) srcs).run s = .ok (vs, t)) :
    (runLanes h g d dn srcs f).run s = .ok ((), nextWord (updCrew t h.b h.c fun y =>
      setFstat (putResult y (inCapsule h.crew (hMask h)) d dn (activeMask h g) fun l => (f l (vs.map fun v => v l)).1)
        (lanesFlags (activeMask h g) fun l => (f l (vs.map fun v => v l)).2)) h) := by
  unfold runLanes
  simp only [hm, if_false]
  rw [run_bind_ok hr]
  rfl

theorem runLanes_off {h : Here} {g : Guard} {d : Opnd} {dn : Nat} {srcs : List (Opnd × Nat)}
    {f : Nat → List Nat → Nat × FlagSet} {s : State} (hm : activeMask h g = 0) :
    (runLanes h g d dn srcs f).run s = .ok ((), nextWord s h) := by
  unfold runLanes
  simp [hm]

theorem runPred_runs {h : Here} {g : Guard} {pd : Nat} {srcs : List (Opnd × Nat)}
    {f : Nat → List Nat → Bool × FlagSet} {s t : State} {vs : List (Nat → Nat)} (hm : activeMask h g ≠ 0)
    (hr : (readSrcsE h (activeMask h g) srcs).run s = .ok (vs, t)) :
    (runPred h g pd srcs f).run s = .ok ((), nextWord (updCrew t h.b h.c fun y =>
      setFstat (writeP y pd (activeMask h g) (maskOf fun l => (f l (vs.map fun v => v l)).1))
        (lanesFlags (activeMask h g) fun l => (f l (vs.map fun v => v l)).2)) h) := by
  unfold runPred
  simp only [hm, if_false]
  rw [run_bind_ok hr]
  rfl

theorem runPred_off {h : Here} {g : Guard} {pd : Nat} {srcs : List (Opnd × Nat)}
    {f : Nat → List Nat → Bool × FlagSet} {s : State} (hm : activeMask h g = 0) :
    (runPred h g pd srcs f).run s = .ok ((), nextWord s h) := by
  unfold runPred
  simp [hm]

/-! ## Where a word issues -/

/-- The parts of `Here` are those of the state. -/
theorem here_finds {s : State} {g : Here} (hg : here s = some g) :
    s.blocks.find g.b = some g.blk ∧ g.blk.crews.find g.c = some g.crew := by
  unfold here hereAt at hg
  split at hg
  · simp at hg
  · rename_i hb
    split at hg
    · simp at hg
    · rename_i hc
      simp only [Option.some.injEq] at hg
      subst hg
      exact ⟨hb, hc⟩

theorem issuesAt_finds {i : Instr} {s : State} {h : Here} (hi : issuesAt i s h) :
    s.blocks.find h.b = some h.blk ∧ h.blk.crews.find h.c = some h.crew := by
  obtain ⟨g, hg, rfl⟩ := hi
  exact ⟨(here_finds hg).1, (here_finds hg).2⟩

theorem crewOf_of_finds {s : State} {b c : Nat} {x : Block} {y : Crew} (hb : s.blocks.find b = some x)
    (hc : x.crews.find c = some y) : crewOf s b c = some y := by
  simp [crewOf, hb, hc]

/-! ## What a change of one crew does -/

theorem updCrew_eq {s : State} {b c : Nat} {x : Block} {y : Crew} (f : Crew → Crew)
    (hb : s.blocks.find b = some x) (hc : x.crews.find c = some y) :
    updCrew s b c f = setBlock s b { x with crews := x.crews.put c (f y) } := by
  simp [updCrew, updBlock, hb, hc]

theorem setCrew_eq {s : State} {b c : Nat} {x : Block} (y : Crew) (hb : s.blocks.find b = some x) :
    setCrew s b c y = setBlock s b { x with crews := x.crews.put c y } := by
  simp [setCrew, updBlock, hb]

@[simp] theorem setBlock_setBlock (s : State) (b : Nat) (x y : Block) :
    setBlock (setBlock s b x) b y = setBlock s b y := by
  simp [setBlock]

@[simp] theorem find_setBlock (s : State) (b : Nat) (x : Block) : (setBlock s b x).blocks.find b = some x := by
  simp [setBlock]

/-- One crew of one block is replaced, and perhaps a pop of its divergence stack is to come. -/
theorem putCrew_eq {s : State} {b c : Nat} {x : Block} (y : Crew) (hb : s.blocks.find b = some x) :
    ∃ ev, putCrew s b c y =
      { setBlock s b { x with crews := x.crews.put c (settle y) } with agenda := s.agenda ++ ev } := by
  unfold putCrew
  rw [setCrew_eq (settle y) hb]
  unfold popLater
  split
  · exact ⟨[], by simp [setBlock]⟩
  · split
    · exact ⟨[.divergencePop b c], rfl⟩
    · exact ⟨[], by simp [setBlock]⟩

/-- A performed word replaces its crew alone. -/
theorem nextWord_eq {s : State} {h : Here} {x : Block} {y : Crew} (hb : s.blocks.find h.b = some x)
    (hc : x.crews.find h.c = some y) :
    ∃ ev, nextWord s h =
      { setBlock s h.b { x with
          crews := x.crews.put h.c (settle (setSlot y h.k (movedSlot s (slotOf y h.k) (hPc h + 8)))) } with
        agenda := s.agenda ++ ev } := by
  unfold nextWord jumpTo
  rw [crewOf_of_finds hb hc]
  exact putCrew_eq _ hb

end Sys2Proof.Machine
end

