-- ==== Sys2Proof/Laws/Completion.lean ====
section
/-! SUPPORT. The shared shapes of completion: what each shared operation of the words answers, said once, and how an
instruction whose body is one of those shapes completes. -/

namespace Sys2Proof

open Machine

/-- Lanes that raise no flag raise none together. -/
theorem lanesFlags_none (m : Mask) : lanesFlags m (fun _ => flagNone) = flagNone := by
  unfold lanesFlags
  induction lanesOf m with
  | nil => rfl
  | cons a r ih => simp [flagOr, flagNone]

/-- Raising no flag leaves the crew as it was. -/
theorem setFstat_none (y : Crew) : setFstat y flagNone = y := by
  simp [setFstat, flagNone]

theorem completesBy_of {α} {i : Instr} {s : State} {h : Here} {body : Here → Exec Unit} {m : Mask} {x : Exec α}
    {f : α → Crew → Crew} (hp : passes i s h)
    (hb : body h = (if m = 0 then nextE h else do let a ← x; updCrewE h (f a); nextE h)) :
    (m = 0 → issueWord i s body = .next (counted h (nextWord s h))) ∧
    ∀ a t, m ≠ 0 → runs x s a t → issueWord i s body = .next (wordDone t h (f a)) := by
  constructor
  · intro hm
    exact issueWord_runs hp (by rw [hb, if_pos hm]; rfl)
  · intro a t hm hr
    exact issueWord_runs hp (by rw [hb, if_neg hm, run_bind_ok hr]; rfl)

theorem completes_of {i : Instr} {s : State} {h : Here} {body : Here → Exec Unit} {m : Mask}
    {f : Crew → Crew} (hp : passes i s h)
    (h0 : m = 0 → (body h).run s = .ok ((), nextWord s h))
    (h1 : ¬ m = 0 → (body h).run s = .ok ((), nextWord (updCrew s h.b h.c f) h)) :
    issueWord i s body = .next (if m = 0 then counted h (nextWord s h) else wordDone s h f) := by
  by_cases hm : m = 0
  · simp only [hm, if_true]
    exact issueWord_runs hp (h0 hm)
  · simp only [hm, if_false]
    exact issueWord_runs hp (h1 hm)

/-- A run that ends well is not undone. -/
theorem undoE_runs {α} {h : Here} {x : Exec α} {s t : State} {a : α} (hr : x.run s = .ok (a, t)) :
    (undoE h x).run s = .ok (a, t) := by
  unfold undoE
  change (match x.run s with | .ok r => Except.ok r | .error s1 => .error (undoPops s h s1)) = _
  rw [hr]

/-- A transfer that may move the lanes stops nothing (R137). -/
theorem transferReady_runs {h : Here} {t : Mask} {s : State} (hm : mayTransfer h t) :
    (transferReadyE h t).run s = .ok ((), s) := by
  unfold transferReadyE
  dsimp only
  rcases hm with rfl | rfl | ⟨hh, hs⟩
  · simp; rfl
  · simp; rfl
  · split
    · rw [hh]
      rcases hs with hs | ⟨h1, h2⟩
      · simp [hs]; rfl
      · simp [h1, Nat.not_le.mpr h2]; rfl
    · rfl

/-- What a sequence that ends well ran through. -/
theorem run_bind_inv {α β} {x : Exec α} {f : α → Exec β} {s t : State} {b : β} (h : (x >>= f).run s = .ok (b, t)) :
    ∃ a u, x.run s = .ok (a, u) ∧ (f a).run u = .ok (b, t) := by
  rw [run_bind] at h
  split at h
  · exact ⟨_, _, ‹_›, h⟩
  · cases h

/-- What the effects of a load come to once its bytes, or the pieces still to be read, are known. -/
theorem load_runs {h : Here} {x : MemOp} {md : LoadMode} {s t : State} {b : Option BufRec} {q : Gather}
    (hm : activeMask h x.g ≠ 0) (hr : runs (loadNeeds h x md (activeMask h x.g) anyTimeE) s (b, q) t) :
    (loadBody x md h).run s = .ok ((), nextWord (finishLoad t h x b (activeMask h x.g) q) h) := by
  obtain ⟨b1, u, h1, h2⟩ := run_bind_inv hr
  obtain ⟨b2, u1, h3, h4⟩ := run_bind_inv h1
  obtain ⟨⟨⟩, u2, h5, h6⟩ := run_bind_inv h4
  obtain ⟨g, u3, h7, h8⟩ := run_bind_inv h2
  cases h6
  cases h8
  unfold loadBody
  simp only [hm, if_false]
  rw [run_bind_ok h3, run_bind_ok h5, run_bind_ok h7]
  rfl

/-- A word whose body ends in `finishLoad` is a load by what its lanes need. -/
theorem loads_of {i : Instr} {s : State} {h : Here} {x : MemOp} {body : Here → Exec Unit}
    {needs : Exec (Option BufRec × Gather)} (hp : passes i s h) (he : exec i s = issueWord i s body)
    (h0 : activeMask h x.g = 0 → (body h).run s = .ok ((), nextWord s h))
    (h1 : ∀ b q t, activeMask h x.g ≠ 0 → runs needs s (b, q) t →
      (body h).run s = .ok ((), nextWord (finishLoad t h x b (activeMask h x.g) q) h)) : loadsBy i s h x needs := by
  refine ⟨fun hm => he ▸ issueWord_runs hp (h0 hm), ?_⟩
  intro b q t hm hr
  have := issueWord_runs hp (h1 b q t hm hr)
  refine ⟨fun hq => ?_, fun hq => ?_⟩
  · rw [he, this]; unfold finishLoad; rw [hq]; rfl
  · rw [he, this]; unfold finishLoad
    have hq' : q.pieces.isEmpty = false := by simpa using hq
    rw [hq']; rfl

theorem load_shared {i : Instr} {s : State} {h : Here} {x : MemOp} {md : LoadMode} (hp : passes i s h)
    (he : exec i s = issueWord i s (loadBody x md)) :
    loadsBy i s h x (loadNeeds h x md (activeMask h x.g) anyTimeE) :=
  loads_of hp he (fun hm => by unfold loadBody; simp only [hm, if_true]; rfl) fun _ _ _ hm hr => load_runs hm hr

/-- R88: with nothing of the lanes outstanding a drain is immediate. -/
theorem drain_runs {h : Here} {m : Mask} {s : State} (hd : outstanding s h.b h.c m = false) :
    (drainE h m).run s = .ok ((), s) := by
  unfold drainE
  rw [run_bind_ok (run_getE s)]
  simp only [hd]
  rfl

theorem range_runs {h : Here} {a b : Opnd} {f : Nat → Nat → RangeLine → Exec Unit} {s t : State}
    (h0 : srcNum s h b 1 0 ≠ 0) (hg : globalRange (srcNum s h a 2 0) (srcNum s h b 1 0) = true)
    (hf : runs (rangeDone h (srcNum s h a 2 0) (srcNum s h b 1 0) (f (srcNum s h a 2 0) (srcNum s h b 1 0))) s () t) :
    (rangeE h a b f).run s = .ok ((), t) := by
  unfold rangeE
  rw [run_bind_ok (run_getE s)]
  dsimp only
  simp only [h0, hg, if_false, Bool.not_true, Bool.false_eq_true]
  exact hf

theorem range_none {h : Here} {a b : Opnd} {f : Nat → Nat → RangeLine → Exec Unit} {s : State}
    (h0 : srcNum s h b 1 0 = 0) : (rangeE h a b f).run s = .ok ((), s) := by
  unfold rangeE
  rw [run_bind_ok (run_getE s)]
  dsimp only
  simp only [h0, if_true]
  rfl

/-- Nothing holds a request to another core of the cluster back. -/
theorem meshE_runs {h : Here} {core : Nat} {s : State}
    (ht : core = h.blk.core ∨ tokensFor s (dieOfCore h.blk.core) = true) : (meshE h core).run s = .ok ((), s) := by
  unfold meshE
  rw [run_bind_ok (run_getE s)]
  dsimp only
  rw [if_neg (by rintro ⟨h1, h2⟩; rcases ht with ht | ht <;> simp_all)]
  rfl

/-- An access with none of its lanes' before it goes on. -/
theorem orderE_runs {h : Here} {m : Mask} {xs : List Acc} {s : State}
    (ho : xs.any (mustWait s h.b h.c none) = false) : (orderE h m xs).run s = .ok ((), s) := by
  unfold orderE
  rw [run_bind_ok (run_getE s), if_neg (by rw [ho]; simp)]
  rfl

theorem bar_runs {h : Here} {a : Opnd} {s : State} {core off : Nat}
    (hb : barAt s h (srcNum s h a 1 0) = some (core, off)) (hr : barReady s h core off) :
    (barE h a).run s = .ok ((core, off), barSeen s h core off) := by
  obtain ⟨h1, h2⟩ := hr
  unfold barE
  rw [run_bind_ok (run_getE s), hb]
  dsimp only
  rw [run_bind_ok (meshE_runs h1), run_bind_ok (orderE_runs h2)]
  rfl

theorem goodBar_runs {h : Here} {a : Opnd} {s : State} {core off : Nat}
    (hb : barAt s h (srcNum s h a 1 0) = some (core, off)) (hr : barReady s h core off)
    (hk : barOk (barSeen s h core off) core off = true) :
    (goodBarE h a).run s = .ok ((core, off), barSeen s h core off) := by
  unfold goodBarE
  rw [run_bind_ok (bar_runs hb hr), run_bind_ok (run_getE _)]
  dsimp only
  rw [hk]
  rfl

theorem wait_shared {i : Instr} {s t : State} {h : Here} {pd : Fin 8} {c : Option Opnd} {obj : Here → Exec WaitObj} {o : WaitObj}
    (hp : passes i s h) (hh : h.crew.handler = none) (ho : (obj h).run s = .ok (o, t)) :
    (waitHolds t h.blk h.crew o = true → issueWord i s (waitBody pd c obj) = .next (counted h (endWait t h o pd.val true))) ∧
    (waitHolds t h.blk h.crew o = false → issueWord i s (waitBody pd c obj) = .next (counted h (startWait t h o pd (deadlineOf t h c)))) := by
  refine ⟨fun hw => issueWord_runs hp ?_, fun hw => issueWord_runs hp ?_⟩ <;>
    (unfold waitBody; rw [hh]; simp only [Option.isSome_none, Bool.false_eq_true, if_false]; rw [run_bind_ok ho, run_modifyE, hw]; rfl)

theorem copyRoom_runs {h : Here} {s : State} (hd : openCopies s h.b h.c < 64) : (copyRoomE h).run s = .ok ((), s) := by
  unfold copyRoomE
  rw [run_bind_ok (run_getE s)]
  rw [if_neg (by omega)]
  rfl

theorem tile_shared {i : Instr} {s t : State} {h : Here} {d a : Opnd} {q : Bool} {p : Nat × Nat} (hp : passes i s h)
    (hi : tileIssues s t h a q p) :
    issueWord i s (tileBody d a q) = .next (wordOver (issueCopy t h d (hMask h) (.tile (tileOf (numAt t (.stash p.1 p.2) 64) q))) h) := by
  obtain ⟨h1, h2, h3, h4, h5, h6, h7⟩ := hi
  refine issueWord_runs hp ?_
  unfold tileBody
  unfold runs at h4
  rw [run_bind_ok (run_getE s)]
  dsimp only
  rw [run_bind_ok (copyRoom_runs h1), if_neg (by omega), run_bind_ok h4, run_bind_ok (run_getE t)]
  rw [if_neg (by rw [h5]; simp)]
  have : (tileAccesses (tileOf (numAt t (.stash p.1 p.2) 64) q)).find? (fun e => routeOf e.2.1 e.2.2 == .bad) = none := by
    rw [List.find?_eq_none]; intro x hx; simpa using h6 x hx
  rw [this]
  dsimp only
  rw [run_bind_ok (drain_runs h7)]; rfl

theorem send_on {s : State} {h : Here} {x : SendOp} {b : Bool} {r}
    (h8 : openMsgs s h.b h.c < 8) (hd : outstanding s h.b h.c (activeMask h x.g) = false) :
    (sendBody x b r h).run s = .ok ((), nextWord (startMsg s h x b (r (srcNum s h x.a 1 0)) (activeMask h x.g)) h) := by
  unfold sendBody
  rw [run_bind_ok (run_getE s), if_neg (by omega), run_bind_ok (drain_runs hd)]; rfl

theorem tiles_runs {h : Here} {n : Nat} {s : State} (ht : n < h.blk.kern.tiles) : (tilesE h n).run s = .ok ((), s) := by
  unfold tilesE; rw [if_neg (by omega)]; rfl

theorem queue_runs {h : Here} {s : State} (hr : unitRoom s h) : (queueE h).run s = .ok ((), s) := by
  unfold queueE; rw [run_bind_ok (run_getE s), if_neg (Nat.not_le.mpr hr)]; rfl

theorem ask_runs {s : State} {h : Here} (hm : mayAsk s h) : (askLaneE h).run s = .ok (lowLane (hMask h), s) := by
  obtain ⟨h1, h2, h3, h4⟩ := hm
  have : (capFlagE h).run s = .ok ((), s) := by
    unfold capFlagE; rw [run_bind_ok (run_getE s), if_pos h1]; rfl
  unfold askLaneE
  rw [run_bind_ok this, if_neg (by rw [h2]; simp), if_neg (by omega), if_neg (by rw [h4]; simp)]; rfl

/-- A request for which slots, links and tokens are there goes on. -/
theorem sendE_runs {h : Here} {s : State} {pa : Nat} (hs : sendTo s h.blk.core (sliceOf pa) = true) :
    (sendE h pa).run s = .ok ((), s) := by
  unfold sendE; rw [run_bind_ok (run_getE s)]; dsimp only; rw [hs]; rfl

theorem commit_stops {s : State} {h : Here} {k : Holding} {kind : Fin 3} {ra : DWord} (hm : mayCommit s h k)
    (hf : commitFree s h k) (h63 : kind = 0 → k.step ≠ 63) :
    (commitE h kind ra).run s = .error (if k.displaced then exitCapsule s h.b h.c 5 else askCommit s h k kind ra) := by
  obtain ⟨h1, h2, h3⟩ := hm
  have hc : (capFlagE h).run s = .ok ((), s) := by
    unfold capFlagE; rw [run_bind_ok (run_getE s), if_pos h1]; rfl
  unfold commitE
  rw [run_bind_ok hc, h2]; dsimp only
  rw [if_neg (by rw [h3]; simp), if_neg (fun hh => h63 hh.1 hh.2)]
  cases hd : k.displaced with
  | true => rfl
  | false =>
    obtain ⟨h4, h5, h6⟩ := hf hd
    have hs : (capSlotE h k.line).run s = .ok ((), s) := sendE_runs h6
    simp only [Bool.false_eq_true, if_false]
    rw [run_bind_ok (run_getE s), if_neg (by rw [h4]; simp), run_bind_ok (drain_runs h5), run_bind_ok hs]
    rfl

theorem lane_shared {i : Instr} {s : State} {h : Here} {body : Here → Exec Unit} (w : LaneShape)
    (hb : ∃ f, body h = runLanes h w.g w.d w.n w.srcs f) (hp : passes i s h) :
    (laneMask h w = 0 → issueWord i s body = .next (counted h (nextWord s h))) ∧
    ∀ (vs : List (Nat → Nat)) (t : State), laneMask h w ≠ 0 → runs (readSrcsE h (laneMask h w) w.srcs) s vs t →
      ∃ (v : Nat → Nat) (fl : FlagSet), issueWord i s body = .next (wordDone t h (laneResult h w v fl)) := by
  obtain ⟨f, hb⟩ := hb
  constructor
  · intro hm
    exact issueWord_runs hp (by rw [hb]; exact runLanes_off hm)
  · intro vs t hm hr
    exact ⟨_, _, issueWord_runs hp (by rw [hb]; exact runLanes_runs hm hr)⟩

theorem lanesGive_of {i : Instr} {w : LaneShape} {body : Here → Exec Unit} {f : Crew → Nat → List Nat → Nat × FlagSet}
    (he : ∀ s, exec i s = issueWord i s body)
    (hb : ∀ h, body h = runLanes h w.g w.d w.n w.srcs (f h.crew)) : lanesGive i w f := by
  intro s h hp
  rw [completesBy, he]
  refine ⟨fun hm => issueWord_runs hp (by rw [hb]; exact runLanes_off hm), fun vs t hm hr => ?_⟩
  exact issueWord_runs hp (by rw [hb]; exact runLanes_runs hm hr)

theorem lanesMeet_of {i : Instr} {w : LaneShape} {P : List Nat → Nat → Prop} (f : List Nat → Nat) (hP : ∀ vs, P vs (f vs))
    (hg : lanesGive i w fun _ _ vs => (f vs, 0)) : lanesMeet i w P := ⟨f, hP, hg⟩

theorem onlyMore_once (s : State) (i : Instr) : onlyMoreToCome s (laterOnce s i) := by
  unfold laterOnce
  split
  · exact ⟨[], by simp⟩
  · exact ⟨[i], rfl⟩

theorem onlyMore_trans {a b c : State} (h : onlyMoreToCome a b) (h' : onlyMoreToCome b c) : onlyMoreToCome a c := by
  obtain ⟨e, rfl⟩ := h
  obtain ⟨f, rfl⟩ := h'
  exact ⟨e ++ f, by simp⟩

theorem onlyMore_refl (s : State) : onlyMoreToCome s s := ⟨[], by simp⟩

theorem freeHsem_of (s : State) (k : Nat) (p : Port) (j : Nat) : hsemOf (freeHsem s k p) j = if j = k ∧ hsemOwner (hsemOf s k) = portNumber p then 0 else hsemOf s j := by
  unfold freeHsem
  split
  · rename_i h; unfold hsemOf setHsem; dsimp only; rw [Table.getD_put]; by_cases hj : j = k <;> simp [hj, hsemOf] at *; intro h2; exact absurd h h2
  · rename_i h; simp [h]

end Sys2Proof
end

