-- ==== Sys2Proof/Laws/Memory.lean ====
section
/-! SUPPORT. The memory laws: canonical form, read after write, and what a write leaves alone. -/

namespace Sys2Proof.Machine

@[simp] theorem leBytes_length (n x : Nat) : (leBytes n x).length = n := by
  induction n generalizing x with
  | zero => rfl
  | succ k ih => simp [leBytes, ih]

/-- R4: the little-endian bytes of a number give it back. -/
theorem leNat_leBytes (n x : Nat) : leNat (leBytes n x) = x % 256 ^ n := by
  induction n generalizing x with
  | zero => simp [leBytes, leNat, Nat.mod_one]
  | succ k ih =>
    have e : 256 * 256 ^ k = 256 ^ (k + 1) := by rw [Nat.pow_succ, Nat.mul_comm]
    simp only [leBytes, leNat, ih, BitVec.toNat_ofNat]
    rw [← e, Nat.mod_mul]

theorem wfFrom_weaken (m : Memory) : ∀ lo hi, lo ≤ hi → Memory.wfFrom hi m = true → Memory.wfFrom lo m = true := by
  intro lo hi h
  cases m with
  | nil => intro _; rfl
  | cons p r =>
    obtain ⟨k, b⟩ := p
    simp only [Memory.wfFrom, Bool.and_eq_true, decide_eq_true_eq]
    rintro ⟨⟨h1, h2⟩, h3⟩
    exact ⟨⟨by omega, h2⟩, h3⟩

theorem wfFrom_set (m : Memory) (k : Nat) (b : Byte) :
    ∀ lo, lo ≤ k → Memory.wfFrom lo m = true → Memory.wfFrom lo (Memory_set m k b) = true := by
  induction m with
  | nil =>
    intro lo h _
    by_cases e : b = Memory.unlisted <;> simp [Memory_set, Memory.wfFrom, e, h]
  | cons p r ih =>
    obtain ⟨j, c⟩ := p
    intro lo h hm
    have hm' := hm
    simp only [Memory.wfFrom, Bool.and_eq_true, decide_eq_true_eq] at hm
    obtain ⟨⟨h1, h2⟩, h3⟩ := hm
    unfold Memory_set
    by_cases l : k < j
    · by_cases e : b = Memory.unlisted
      · simp only [l, e, if_true]; exact hm'
      · have : k + 1 ≤ j := l
        simp [l, e, Memory.wfFrom, h, this, h2, h3]
    · by_cases q : k = j
      · subst q
        by_cases e : b = Memory.unlisted
        · simp [e]
          exact wfFrom_weaken r lo (k + 1) (by omega) h3
        · simp [e, Memory.wfFrom, h, h3]
      · have : j + 1 ≤ k := by omega
        simp [l, q, Memory.wfFrom, h1, h2, ih (j + 1) this h3]

/-- A write of one byte keeps the canonical form. -/
theorem Memory_wf_set (m : Memory) (k : Nat) (b : Byte) (h : Memory.wf m = true) : Memory.wf (Memory_set m k b) = true :=
  wfFrom_set m k b 0 (Nat.zero_le k) h

/-- A write of bytes keeps the canonical form. -/
theorem Memory_wf_write (m : Memory) (k : Nat) (bs : List Byte) (h : Memory.wf m = true) :
    Memory.wf (Memory_write m k bs) = true := by
  induction bs generalizing m k with
  | nil => exact h
  | cons b r ih => exact ih _ _ (Memory_wf_set m k b h)

/-- A write at a place keeps the canonical form. -/
theorem writePlace_wf (s : State) (p : Place) (bs : List Byte) (h : Memory.wf s.mem = true) :
    Memory.wf (writePlace s p bs).mem = true := Memory_wf_write s.mem (placeKey p) bs h

theorem get_below (m : Memory) : ∀ lo k, k < lo → Memory.wfFrom lo m = true → Memory_get m k = Memory.unlisted := by
  intro lo k h hm
  cases m with
  | nil => rfl
  | cons p r =>
    obtain ⟨j, c⟩ := p
    simp only [Memory.wfFrom, Bool.and_eq_true, decide_eq_true_eq] at hm
    have h1 : j ≠ k := by omega
    have h2 : k < j := by omega
    simp [Memory_get, h1, h2]

theorem get_set_from (m : Memory) (k : Nat) (b : Byte) :
    ∀ lo, Memory.wfFrom lo m = true → ∀ l, Memory_get (Memory_set m k b) l = if l = k then b else Memory_get m l := by
  induction m with
  | nil =>
    intro lo _ l
    by_cases e : b = Memory.unlisted <;> by_cases q : l = k <;>
      simp_all [Memory_set, Memory_get]
    intro h; exact absurd h.symm q
  | cons p r ih =>
    obtain ⟨j, c⟩ := p
    intro lo hm l
    have hm' := hm
    simp only [Memory.wfFrom, Bool.and_eq_true, decide_eq_true_eq] at hm
    obtain ⟨⟨h1, h2⟩, h3⟩ := hm
    unfold Memory_set
    by_cases lt : k < j
    · by_cases e : b = Memory.unlisted
      · simp only [lt, e, if_true]
        by_cases q : l = k
        · subst q
          have : j ≠ l := by omega
          simp [Memory_get, this, lt]
        · simp [q]
      · simp only [lt, e, if_true, if_false]
        by_cases q : l = k
        · subst q; simp [Memory_get]
        · have : k ≠ l := fun x => q x.symm
          simp only [Memory_get, this, q, if_false]
          by_cases z : k < l
          · have : ¬ l < k := by omega
            simp [this]
          · have a1 : l < k := by omega
            have a2 : j ≠ l := by omega
            have a3 : l < j := by omega
            simp [a1, a2, a3]
    · by_cases q : k = j
      · subst q
        by_cases e : b = Memory.unlisted
        · simp only [lt, e, if_true, if_false]
          by_cases z : l = k
          · subst z
            rw [get_below r (l + 1) l (by omega) h3]; simp
          · have : k ≠ l := fun x => z x.symm
            simp only [Memory_get, this, z, if_false]
            by_cases w : l < k
            · simp only [w, if_true]
              exact get_below r (k + 1) l (by omega) h3
            · simp [w]
        · simp only [lt, e, if_true, if_false]
          by_cases z : l = k
          · subst z; simp [Memory_get]
          · have : k ≠ l := fun x => z x.symm
            simp [Memory_get, this, z]
      · simp only [lt, q, if_false]
        by_cases z : j = l
        · subst z
          have : j ≠ k := fun x => q x.symm
          simp [Memory_get, this]
        · simp only [Memory_get, z, if_false]
          by_cases w : l < j
          · have : l ≠ k := by omega
            simp [w, this]
          · simp only [w, if_false]
            exact ih (j + 1) h3 l

/-- Reading after a write of one byte. -/
theorem Memory_get_set (m : Memory) (k l : Nat) (b : Byte) (h : Memory.wf m = true) :
    Memory_get (Memory_set m k b) l = if l = k then b else Memory_get m l := get_set_from m k b 0 h l

/-- A write leaves every byte outside it alone. -/
theorem Memory_get_write_other (m : Memory) (k : Nat) (bs : List Byte) (l : Nat) (h : Memory.wf m = true)
    (ho : l < k ∨ k + bs.length ≤ l) : Memory_get (Memory_write m k bs) l = Memory_get m l := by
  induction bs generalizing m k with
  | nil => rfl
  | cons b r ih =>
    simp only [List.length_cons] at ho
    unfold Memory_write
    rw [ih _ _ (Memory_wf_set m k b h) (by omega), Memory_get_set m k l b h]
    have : l ≠ k := by omega
    simp [this]

/-- A byte of a write is read back. -/
theorem Memory_get_write (m : Memory) (k : Nat) (bs : List Byte) (i : Nat) (h : Memory.wf m = true)
    (hi : i < bs.length) : Memory_get (Memory_write m k bs) (k + i) = bs.getD i 0 := by
  induction bs generalizing m k i with
  | nil => simp at hi
  | cons b r ih =>
    unfold Memory_write
    cases i with
    | zero =>
      rw [Memory_get_write_other _ _ _ _ (Memory_wf_set m k b h) (by omega), Memory_get_set m k _ b h]
      simp
    | succ j =>
      simp only [List.length_cons] at hi
      have := ih (Memory_set m k b) (k + 1) j (Memory_wf_set m k b h) (by omega)
      rw [show k + (j + 1) = k + 1 + j by omega, this]
      simp

/-- What was written is read back. -/
theorem Memory_read_write (m : Memory) (k : Nat) (bs : List Byte) (h : Memory.wf m = true) :
    Memory_read (Memory_write m k bs) k bs.length = bs := by
  have key : ∀ (n j : Nat), j + n = bs.length →
      Memory_read (Memory_write m k bs) (k + j) n = bs.drop j := by
    intro n
    induction n with
    | zero => intro j e; simp [Memory_read, ← e]
    | succ n ih =>
      intro j e
      have hj : j < bs.length := by omega
      unfold Memory_read
      rw [Memory_get_write m k bs j h hj, show k + j + 1 = k + (j + 1) by omega, ih (j + 1) (by omega),
        List.drop_eq_getElem_cons hj]
      simp [hj]
  simpa using key bs.length 0 (by omega)

/-- R4: a number written little-endian is read back, within its size. -/
theorem numAt_writePlace (s : State) (p : Place) (n x : Nat) (h : Memory.wf s.mem = true) :
    numAt (writePlace s p (leBytes n x)) p n = x % 256 ^ n := by
  have := Memory_read_write s.mem (placeKey p) (leBytes n x) h
  rw [leBytes_length] at this
  simp only [numAt, readPlace, writePlace, this, leNat_leBytes]

end Sys2Proof.Machine
end

