-- ==== Sys2Proof/Laws/Images.lean ====
section
/-! SUPPORT. Laws of dock images: the CRC is a 32-bit number, and an image as a save writes it stands whole (R244). -/

namespace Sys2Proof

open Machine

theorem crcBit_lt {c : Nat} (h : c < 2 ^ 32) : crcBit c < 2 ^ 32 := by
  unfold crcBit
  split
  · exact Nat.xor_lt_two_pow (by omega) (by decide)
  · omega

theorem crcByte_lt {c : Nat} (b : Byte) (h : c < 2 ^ 32) : crcByte c b < 2 ^ 32 := by
  have hb : Nat.xor c b.toNat < 2 ^ 32 := Nat.xor_lt_two_pow h (by have := b.isLt; omega)
  unfold crcByte
  generalize Nat.xor c b.toNat = x at hb
  generalize List.range 8 = ls
  induction ls generalizing x with
  | nil => exact hb
  | cons a r ih => exact ih _ (crcBit_lt hb)

theorem crc32c_lt (bs : List Byte) : crc32c bs < 2 ^ 32 := by
  have key : ∀ (l : List Byte) (c : Nat), c < 2 ^ 32 → l.foldl crcByte c < 2 ^ 32 := by
    intro l
    induction l with
    | nil => intro c h; exact h
    | cons b r ih => intro c h; exact ih _ (crcByte_lt b h)
  exact Nat.xor_lt_two_pow (key bs _ (by decide)) (by decide)

/-- The header's fields before and after its CRC. -/
theorem imageHeader_split (s : State) (b : Nat) (x : Block) :
    ∃ p : List Byte, p.length = 56 ∧
      ∀ c, imageHeader s b x c = (leBytes 4 1 ++ p) ++ (leBytes 4 c ++ leBytes 192 0) :=
  ⟨leBytes 4 (ltagOf s x).toNat ++ leBytes 8 x.kern.addr ++ leBytes 4 (ctxOf s x).pasid ++ leBytes 4 x.core
      ++ leBytes 4 x.bx ++ leBytes 2 x.byIdx ++ leBytes 2 x.bz ++ leBytes 1 x.rank ++ leBytes 1 x.kern.crews
      ++ leBytes 2 (pendingStores s b).length ++ leBytes 4 x.causes ++ leBytes 8 x.object.toNat ++ leBytes 8 x.value.toNat
      ++ leBytes 4 (acksOut x), by simp, by intro c; simp [imageHeader, List.append_assoc]⟩

theorem imageBytes_length (s : State) (b : Nat) (x : Block) : (imageBytes s b x).length = imageSize s b x := by
  obtain ⟨p, hp, h⟩ := imageHeader_split s b x
  simp only [imageBytes, imageSize, List.length_append, h, leBytes_length, hp]

/-- R244: the image that a save writes stands whole. -/
theorem imageOk_imageBytes (s : State) (b : Nat) (x : Block) : imageOk (imageBytes s b x) = true := by
  obtain ⟨p, hp, h⟩ := imageHeader_split s b x
  have zeros : (leBytes 192 0).all (· == 0) = true := by decide
  generalize hq : leBytes 192 0 = q at h zeros
  have hl : q.length = 192 := by rw [← hq]; exact leBytes_length _ _
  have h1 : (leBytes 4 1 ++ p).length = 0x3C := by simp [hp]
  simp only [imageOk, imageBytes, h]
  generalize hc : crc32c ((leBytes 4 1 ++ p ++ (leBytes 4 0 ++ q)) ++ imageBody s b x) = c
  have hlt : c < 2 ^ 32 := hc ▸ crc32c_lt _
  have e1 : (leBytes 4 1 ++ p ++ (leBytes 4 c ++ q) ++ imageBody s b x).take 4 = leBytes 4 1 := by
    simp
  have e2 : (leBytes 4 1 ++ p ++ (leBytes 4 c ++ q) ++ imageBody s b x).take 0x3C = leBytes 4 1 ++ p := by
    rw [List.append_assoc, ← h1, List.take_left]
  have e3 : (leBytes 4 1 ++ p ++ (leBytes 4 c ++ q) ++ imageBody s b x).drop 0x3C = leBytes 4 c ++ (q ++ imageBody s b x) := by
    rw [List.append_assoc, ← h1, List.drop_left, List.append_assoc]
  have e4 : (leBytes 4 1 ++ p ++ (leBytes 4 c ++ q) ++ imageBody s b x).drop 0x40 = q ++ imageBody s b x := by
    rw [show (0x40 : Nat) = 0x3C + 4 from rfl, ← List.drop_drop, e3]
    exact List.drop_left' (by simp)
  rw [e1, e2, e3, e4, List.take_left' (by simp : (leBytes 4 c).length = 4), leNat_leBytes, leNat_leBytes]
  have e5 : leBytes 4 1 ++ p ++ leBytes 4 0 ++ (q ++ imageBody s b x) = leBytes 4 1 ++ p ++ (leBytes 4 0 ++ q) ++ imageBody s b x := by
    simp [List.append_assoc]
  rw [e5, hc, Nat.mod_eq_of_lt (Nat.lt_of_lt_of_eq hlt (by decide) : c < 256 ^ 4), List.take_left' hl, zeros]
  simp

theorem Memory_read_length (m : Memory) (k n : Nat) : (Memory_read m k n).length = n := by
  induction n generalizing k with
  | zero => rfl
  | succ n ih => simp [Memory_read, ih]

theorem padLine_length (a b : List Byte) (h : a.length = b.length) : (padLine a).length = (padLine b).length := by
  simp [padLine, h]

/-- The divergence stack of a crew takes 512 bytes (R28). -/
theorem stackBytes_length (s : State) (x : Block) (c : Nat) (y : Crew) : (stackBytes s x c y).length = 512 := by
  simp [stackBytes]

theorem stacks_length (s t : State) (x : Block) :
    (x.crews.flatMap fun e => stackBytes s x e.1 e.2).length = (x.crews.flatMap fun e => stackBytes t x e.1 e.2).length := by
  simp [List.length_flatMap, stackBytes_length]

/-- A write of memory leaves the size of an image as it was. -/
theorem imageSize_writePlace (s : State) (p : Place) (bs : List Byte) (b : Nat) (x : Block) :
    imageSize (writePlace s p bs) b x = imageSize s b x := by
  have h := padLine_length (readPlace (writePlace s p bs) (.stash x.core x.base) x.kern.stash)
    (readPlace s (.stash x.core x.base) x.kern.stash)
    ((Memory_read_length _ _ _).trans (Memory_read_length _ _ _).symm)
  have h1 := padLine_length _ _ (stacks_length (writePlace s p bs) s x)
  unfold imageSize imageBody
  simp only [List.length_append, h, h1]
  rfl

/-- The image of a block reads back as it was written. -/
theorem readImage_writePlace (s : State) (b i : Nat) (x : Block) (hi : x.image = some i) (hm : Memory.wf s.mem = true) :
    readImage (writePlace s (.dev (imageAddr s i)) (imageBytes s b x)) b x = imageBytes s b x := by
  have key : ∀ bs : List Byte, readPlace (writePlace s (.dev (imageAddr s i)) bs)
      (.dev (imageAddr (writePlace s (.dev (imageAddr s i)) bs) i)) bs.length = bs :=
    fun bs => Memory_read_write s.mem _ bs hm
  unfold readImage
  rw [hi, imageSize_writePlace, ← imageBytes_length]
  exact key _

end Sys2Proof
end

