-- ==== Sys2Proof/Laws/Issue.lean ====
section
/-! SUPPORT. Every instruction word runs through issueWord (R134): one law per constructor, and one for all of them. -/

namespace Sys2Proof

open Machine

theorem issues_iadd x : ∃ body, ∀ s, exec (.iadd x) s = issueWord (.iadd x) s body := by
  change ∃ body, ∀ s, execIadd x s = issueWord (.iadd x) s body
  unfold execIadd
  exact ⟨_, fun _ => rfl⟩

theorem issues_isub x : ∃ body, ∀ s, exec (.isub x) s = issueWord (.isub x) s body := by
  change ∃ body, ∀ s, execIsub x s = issueWord (.isub x) s body
  unfold execIsub
  exact ⟨_, fun _ => rfl⟩

theorem issues_iaddc x : ∃ body, ∀ s, exec (.iaddc x) s = issueWord (.iaddc x) s body := by
  change ∃ body, ∀ s, execIaddc x s = issueWord (.iaddc x) s body
  unfold execIaddc
  exact ⟨_, fun _ => rfl⟩

theorem issues_imul x : ∃ body, ∀ s, exec (.imul x) s = issueWord (.imul x) s body := by
  change ∃ body, ∀ s, execImul x s = issueWord (.imul x) s body
  unfold execImul
  exact ⟨_, fun _ => rfl⟩

theorem issues_imulhi x : ∃ body, ∀ s, exec (.imulhi x) s = issueWord (.imulhi x) s body := by
  change ∃ body, ∀ s, execImulhi x s = issueWord (.imulhi x) s body
  unfold execImulhi
  exact ⟨_, fun _ => rfl⟩

theorem issues_imad x : ∃ body, ∀ s, exec (.imad x) s = issueWord (.imad x) s body := by
  change ∃ body, ∀ s, execImad x s = issueWord (.imad x) s body
  unfold execImad
  exact ⟨_, fun _ => rfl⟩

theorem issues_imadw x : ∃ body, ∀ s, exec (.imadw x) s = issueWord (.imadw x) s body := by
  change ∃ body, ∀ s, execImadw x s = issueWord (.imadw x) s body
  unfold execImadw
  exact ⟨_, fun _ => rfl⟩

theorem issues_imin x : ∃ body, ∀ s, exec (.imin x) s = issueWord (.imin x) s body := by
  change ∃ body, ∀ s, execImin x s = issueWord (.imin x) s body
  unfold execImin
  exact ⟨_, fun _ => rfl⟩

theorem issues_imax x : ∃ body, ∀ s, exec (.imax x) s = issueWord (.imax x) s body := by
  change ∃ body, ∀ s, execImax x s = issueWord (.imax x) s body
  unfold execImax
  exact ⟨_, fun _ => rfl⟩

theorem issues_iabs x : ∃ body, ∀ s, exec (.iabs x) s = issueWord (.iabs x) s body := by
  change ∃ body, ∀ s, execIabs x s = issueWord (.iabs x) s body
  unfold execIabs
  exact ⟨_, fun _ => rfl⟩

theorem issues_and x : ∃ body, ∀ s, exec (.and x) s = issueWord (.and x) s body := by
  change ∃ body, ∀ s, execAnd x s = issueWord (.and x) s body
  unfold execAnd
  exact ⟨_, fun _ => rfl⟩

theorem issues_or x : ∃ body, ∀ s, exec (.or x) s = issueWord (.or x) s body := by
  change ∃ body, ∀ s, execOr x s = issueWord (.or x) s body
  unfold execOr
  exact ⟨_, fun _ => rfl⟩

theorem issues_xor x : ∃ body, ∀ s, exec (.xor x) s = issueWord (.xor x) s body := by
  change ∃ body, ∀ s, execXor x s = issueWord (.xor x) s body
  unfold execXor
  exact ⟨_, fun _ => rfl⟩

theorem issues_andn x : ∃ body, ∀ s, exec (.andn x) s = issueWord (.andn x) s body := by
  change ∃ body, ∀ s, execAndn x s = issueWord (.andn x) s body
  unfold execAndn
  exact ⟨_, fun _ => rfl⟩

theorem issues_orn x : ∃ body, ∀ s, exec (.orn x) s = issueWord (.orn x) s body := by
  change ∃ body, ∀ s, execOrn x s = issueWord (.orn x) s body
  unfold execOrn
  exact ⟨_, fun _ => rfl⟩

theorem issues_shl x : ∃ body, ∀ s, exec (.shl x) s = issueWord (.shl x) s body := by
  change ∃ body, ∀ s, execShl x s = issueWord (.shl x) s body
  unfold execShl
  exact ⟨_, fun _ => rfl⟩

theorem issues_shr x : ∃ body, ∀ s, exec (.shr x) s = issueWord (.shr x) s body := by
  change ∃ body, ∀ s, execShr x s = issueWord (.shr x) s body
  unfold execShr
  exact ⟨_, fun _ => rfl⟩

theorem issues_sar x : ∃ body, ∀ s, exec (.sar x) s = issueWord (.sar x) s body := by
  change ∃ body, ∀ s, execSar x s = issueWord (.sar x) s body
  unfold execSar
  exact ⟨_, fun _ => rfl⟩

theorem issues_rotl x : ∃ body, ∀ s, exec (.rotl x) s = issueWord (.rotl x) s body := by
  change ∃ body, ∀ s, execRotl x s = issueWord (.rotl x) s body
  unfold execRotl
  exact ⟨_, fun _ => rfl⟩

theorem issues_fshf x : ∃ body, ∀ s, exec (.fshf x) s = issueWord (.fshf x) s body := by
  change ∃ body, ∀ s, execFshf x s = issueWord (.fshf x) s body
  unfold execFshf
  exact ⟨_, fun _ => rfl⟩

theorem issues_bfx x : ∃ body, ∀ s, exec (.bfx x) s = issueWord (.bfx x) s body := by
  change ∃ body, ∀ s, execBfx x s = issueWord (.bfx x) s body
  unfold execBfx
  exact ⟨_, fun _ => rfl⟩

theorem issues_bfi x : ∃ body, ∀ s, exec (.bfi x) s = issueWord (.bfi x) s body := by
  change ∃ body, ∀ s, execBfi x s = issueWord (.bfi x) s body
  unfold execBfi
  exact ⟨_, fun _ => rfl⟩

theorem issues_popc x : ∃ body, ∀ s, exec (.popc x) s = issueWord (.popc x) s body := by
  change ∃ body, ∀ s, execPopc x s = issueWord (.popc x) s body
  unfold execPopc
  exact ⟨_, fun _ => rfl⟩

theorem issues_clz x : ∃ body, ∀ s, exec (.clz x) s = issueWord (.clz x) s body := by
  change ∃ body, ∀ s, execClz x s = issueWord (.clz x) s body
  unfold execClz
  exact ⟨_, fun _ => rfl⟩

theorem issues_ctz x : ∃ body, ∀ s, exec (.ctz x) s = issueWord (.ctz x) s body := by
  change ∃ body, ∀ s, execCtz x s = issueWord (.ctz x) s body
  unfold execCtz
  exact ⟨_, fun _ => rfl⟩

theorem issues_brev x : ∃ body, ∀ s, exec (.brev x) s = issueWord (.brev x) s body := by
  change ∃ body, ∀ s, execBrev x s = issueWord (.brev x) s body
  unfold execBrev
  exact ⟨_, fun _ => rfl⟩

theorem issues_prmt x : ∃ body, ∀ s, exec (.prmt x) s = issueWord (.prmt x) s body := by
  change ∃ body, ∀ s, execPrmt x s = issueWord (.prmt x) s body
  unfold execPrmt
  exact ⟨_, fun _ => rfl⟩

theorem issues_lea x : ∃ body, ∀ s, exec (.lea x) s = issueWord (.lea x) s body := by
  change ∃ body, ∀ s, execLea x s = issueWord (.lea x) s body
  unfold execLea
  exact ⟨_, fun _ => rfl⟩

theorem issues_isetp x : ∃ body, ∀ s, exec (.isetp x) s = issueWord (.isetp x) s body := by
  change ∃ body, ∀ s, execIsetp x s = issueWord (.isetp x) s body
  unfold execIsetp
  exact ⟨_, fun _ => rfl⟩

theorem issues_sel x : ∃ body, ∀ s, exec (.sel x) s = issueWord (.sel x) s body := by
  change ∃ body, ∀ s, execSel x s = issueWord (.sel x) s body
  unfold execSel
  exact ⟨_, fun _ => rfl⟩

theorem issues_mov x : ∃ body, ∀ s, exec (.mov x) s = issueWord (.mov x) s body := by
  change ∃ body, ∀ s, execMov x s = issueWord (.mov x) s body
  unfold execMov
  exact ⟨_, fun _ => rfl⟩

theorem issues_fadd x : ∃ body, ∀ s, exec (.fadd x) s = issueWord (.fadd x) s body := by
  change ∃ body, ∀ s, execFadd x s = issueWord (.fadd x) s body
  unfold execFadd
  exact ⟨_, fun _ => rfl⟩

theorem issues_fsub x : ∃ body, ∀ s, exec (.fsub x) s = issueWord (.fsub x) s body := by
  change ∃ body, ∀ s, execFsub x s = issueWord (.fsub x) s body
  unfold execFsub
  exact ⟨_, fun _ => rfl⟩

theorem issues_fmul x : ∃ body, ∀ s, exec (.fmul x) s = issueWord (.fmul x) s body := by
  change ∃ body, ∀ s, execFmul x s = issueWord (.fmul x) s body
  unfold execFmul
  exact ⟨_, fun _ => rfl⟩

theorem issues_ffma x : ∃ body, ∀ s, exec (.ffma x) s = issueWord (.ffma x) s body := by
  change ∃ body, ∀ s, execFfma x s = issueWord (.ffma x) s body
  unfold execFfma
  exact ⟨_, fun _ => rfl⟩

theorem issues_fmin x : ∃ body, ∀ s, exec (.fmin x) s = issueWord (.fmin x) s body := by
  change ∃ body, ∀ s, execFmin x s = issueWord (.fmin x) s body
  unfold execFmin
  exact ⟨_, fun _ => rfl⟩

theorem issues_fmax x : ∃ body, ∀ s, exec (.fmax x) s = issueWord (.fmax x) s body := by
  change ∃ body, ∀ s, execFmax x s = issueWord (.fmax x) s body
  unfold execFmax
  exact ⟨_, fun _ => rfl⟩

theorem issues_fsetp x : ∃ body, ∀ s, exec (.fsetp x) s = issueWord (.fsetp x) s body := by
  change ∃ body, ∀ s, execFsetp x s = issueWord (.fsetp x) s body
  unfold execFsetp
  exact ⟨_, fun _ => rfl⟩

theorem issues_fclass x : ∃ body, ∀ s, exec (.fclass x) s = issueWord (.fclass x) s body := by
  change ∃ body, ∀ s, execFclass x s = issueWord (.fclass x) s body
  unfold execFclass
  exact ⟨_, fun _ => rfl⟩

theorem issues_frcp x : ∃ body, ∀ s, exec (.frcp x) s = issueWord (.frcp x) s body := by
  change ∃ body, ∀ s, execFrcp x s = issueWord (.frcp x) s body
  unfold execFrcp
  exact ⟨_, fun _ => rfl⟩

theorem issues_frsq x : ∃ body, ∀ s, exec (.frsq x) s = issueWord (.frsq x) s body := by
  change ∃ body, ∀ s, execFrsq x s = issueWord (.frsq x) s body
  unfold execFrsq
  exact ⟨_, fun _ => rfl⟩

theorem issues_fsqrt x : ∃ body, ∀ s, exec (.fsqrt x) s = issueWord (.fsqrt x) s body := by
  change ∃ body, ∀ s, execFsqrt x s = issueWord (.fsqrt x) s body
  unfold execFsqrt
  exact ⟨_, fun _ => rfl⟩

theorem issues_fex2 x : ∃ body, ∀ s, exec (.fex2 x) s = issueWord (.fex2 x) s body := by
  change ∃ body, ∀ s, execFex2 x s = issueWord (.fex2 x) s body
  unfold execFex2
  exact ⟨_, fun _ => rfl⟩

theorem issues_flg2 x : ∃ body, ∀ s, exec (.flg2 x) s = issueWord (.flg2 x) s body := by
  change ∃ body, ∀ s, execFlg2 x s = issueWord (.flg2 x) s body
  unfold execFlg2
  exact ⟨_, fun _ => rfl⟩

theorem issues_fsin x : ∃ body, ∀ s, exec (.fsin x) s = issueWord (.fsin x) s body := by
  change ∃ body, ∀ s, execFsin x s = issueWord (.fsin x) s body
  unfold execFsin
  exact ⟨_, fun _ => rfl⟩

theorem issues_fcos x : ∃ body, ∀ s, exec (.fcos x) s = issueWord (.fcos x) s body := by
  change ∃ body, ∀ s, execFcos x s = issueWord (.fcos x) s body
  unfold execFcos
  exact ⟨_, fun _ => rfl⟩

theorem issues_ftanh x : ∃ body, ∀ s, exec (.ftanh x) s = issueWord (.ftanh x) s body := by
  change ∃ body, ∀ s, execFtanh x s = issueWord (.ftanh x) s body
  unfold execFtanh
  exact ⟨_, fun _ => rfl⟩

theorem issues_hadd2 x : ∃ body, ∀ s, exec (.hadd2 x) s = issueWord (.hadd2 x) s body := by
  change ∃ body, ∀ s, execHadd2 x s = issueWord (.hadd2 x) s body
  unfold execHadd2
  exact ⟨_, fun _ => rfl⟩

theorem issues_hmul2 x : ∃ body, ∀ s, exec (.hmul2 x) s = issueWord (.hmul2 x) s body := by
  change ∃ body, ∀ s, execHmul2 x s = issueWord (.hmul2 x) s body
  unfold execHmul2
  exact ⟨_, fun _ => rfl⟩

theorem issues_hfma2 x : ∃ body, ∀ s, exec (.hfma2 x) s = issueWord (.hfma2 x) s body := by
  change ∃ body, ∀ s, execHfma2 x s = issueWord (.hfma2 x) s body
  unfold execHfma2
  exact ⟨_, fun _ => rfl⟩

theorem issues_hmnmx2 x : ∃ body, ∀ s, exec (.hmnmx2 x) s = issueWord (.hmnmx2 x) s body := by
  change ∃ body, ∀ s, execHmnmx2 x s = issueWord (.hmnmx2 x) s body
  unfold execHmnmx2
  exact ⟨_, fun _ => rfl⟩

theorem issues_cvt x : ∃ body, ∀ s, exec (.cvt x) s = issueWord (.cvt x) s body := by
  change ∃ body, ∀ s, execCvt x s = issueWord (.cvt x) s body
  unfold execCvt
  exact ⟨_, fun _ => rfl⟩

theorem issues_cvtq x : ∃ body, ∀ s, exec (.cvtq x) s = issueWord (.cvtq x) s body := by
  change ∃ body, ∀ s, execCvtq x s = issueWord (.cvtq x) s body
  unfold execCvtq
  exact ⟨_, fun _ => rfl⟩

theorem issues_cvtdq x : ∃ body, ∀ s, exec (.cvtdq x) s = issueWord (.cvtdq x) s body := by
  change ∃ body, ∀ s, execCvtdq x s = issueWord (.cvtdq x) s body
  unfold execCvtdq
  exact ⟨_, fun _ => rfl⟩

theorem issues_pack x : ∃ body, ∀ s, exec (.pack x) s = issueWord (.pack x) s body := by
  change ∃ body, ∀ s, execPack x s = issueWord (.pack x) s body
  unfold execPack
  exact ⟨_, fun _ => rfl⟩

theorem issues_unpk x : ∃ body, ∀ s, exec (.unpk x) s = issueWord (.unpk x) s body := by
  change ∃ body, ∀ s, execUnpk x s = issueWord (.unpk x) s body
  unfold execUnpk
  exact ⟨_, fun _ => rfl⟩

theorem issues_lutx x : ∃ body, ∀ s, exec (.lutx x) s = issueWord (.lutx x) s body := by
  change ∃ body, ∀ s, execLutx x s = issueWord (.lutx x) s body
  unfold execLutx
  exact ⟨_, fun _ => rfl⟩

theorem issues_idp4 x : ∃ body, ∀ s, exec (.idp4 x) s = issueWord (.idp4 x) s body := by
  change ∃ body, ∀ s, execIdp4 x s = issueWord (.idp4 x) s body
  unfold execIdp4
  exact ⟨_, fun _ => rfl⟩

theorem issues_idp8 x : ∃ body, ∀ s, exec (.idp8 x) s = issueWord (.idp8 x) s body := by
  change ∃ body, ∀ s, execIdp8 x s = issueWord (.idp8 x) s body
  unfold execIdp8
  exact ⟨_, fun _ => rfl⟩

theorem issues_fdp4 x : ∃ body, ∀ s, exec (.fdp4 x) s = issueWord (.fdp4 x) s body := by
  change ∃ body, ∀ s, execFdp4 x s = issueWord (.fdp4 x) s body
  unfold execFdp4
  exact ⟨_, fun _ => rfl⟩

theorem issues_fdp2 x : ∃ body, ∀ s, exec (.fdp2 x) s = issueWord (.fdp2 x) s body := by
  change ∃ body, ∀ s, execFdp2 x s = issueWord (.fdp2 x) s body
  unfold execFdp2
  exact ⟨_, fun _ => rfl⟩

theorem issues_pairedWord h0 h1 : ∃ body, ∀ s, exec (.pairedWord h0 h1) s = issueWord (.pairedWord h0 h1) s body := by
  change ∃ body, ∀ s, execPairedWord h0 h1 s = issueWord (.pairedWord h0 h1) s body
  unfold execPairedWord
  exact ⟨_, fun _ => rfl⟩

theorem issues_shfl x : ∃ body, ∀ s, exec (.shfl x) s = issueWord (.shfl x) s body := by
  change ∃ body, ∀ s, execShfl x s = issueWord (.shfl x) s body
  unfold execShfl
  exact ⟨_, fun _ => rfl⟩

theorem issues_vote x : ∃ body, ∀ s, exec (.vote x) s = issueWord (.vote x) s body := by
  change ∃ body, ∀ s, execVote x s = issueWord (.vote x) s body
  unfold execVote
  exact ⟨_, fun _ => rfl⟩

theorem issues_matchLanes x : ∃ body, ∀ s, exec (.matchLanes x) s = issueWord (.matchLanes x) s body := by
  change ∃ body, ∀ s, execMatchLanes x s = issueWord (.matchLanes x) s body
  unfold execMatchLanes
  exact ⟨_, fun _ => rfl⟩

theorem issues_cred x : ∃ body, ∀ s, exec (.cred x) s = issueWord (.cred x) s body := by
  change ∃ body, ∀ s, execCred x s = issueWord (.cred x) s body
  unfold execCred
  exact ⟨_, fun _ => rfl⟩

theorem issues_cscan x : ∃ body, ∀ s, exec (.cscan x) s = issueWord (.cscan x) s body := by
  change ∃ body, ∀ s, execCscan x s = issueWord (.cscan x) s body
  unfold execCscan
  exact ⟨_, fun _ => rfl⟩

theorem issues_lser : ∃ body, ∀ s, exec (.lser) s = issueWord (.lser) s body := by
  change ∃ body, ∀ s, execLser s = issueWord (.lser) s body
  unfold execLser
  exact ⟨_, fun _ => rfl⟩

theorem issues_lsend : ∃ body, ∀ s, exec (.lsend) s = issueWord (.lsend) s body := by
  change ∃ body, ∀ s, execLsend s = issueWord (.lsend) s body
  unfold execLsend
  exact ⟨_, fun _ => rfl⟩

theorem issues_actm x : ∃ body, ∀ s, exec (.actm x) s = issueWord (.actm x) s body := by
  change ∃ body, ∀ s, execActm x s = issueWord (.actm x) s body
  unfold execActm
  exact ⟨_, fun _ => rfl⟩

theorem issues_bra g off : ∃ body, ∀ s, exec (.bra g off) s = issueWord (.bra g off) s body := by
  change ∃ body, ∀ s, execBra g off s = issueWord (.bra g off) s body
  unfold execBra
  exact ⟨_, fun _ => rfl⟩

theorem issues_braT g off tag : ∃ body, ∀ s, exec (.braT g off tag) s = issueWord (.braT g off tag) s body := by
  change ∃ body, ∀ s, execBraT g off tag s = issueWord (.braT g off tag) s body
  unfold execBraT
  exact ⟨_, fun _ => rfl⟩

theorem issues_brx g a : ∃ body, ∀ s, exec (.brx g a) s = issueWord (.brx g a) s body := by
  change ∃ body, ∀ s, execBrx g a s = issueWord (.brx g a) s body
  unfold execBrx
  exact ⟨_, fun _ => rfl⟩

theorem issues_call g d off : ∃ body, ∀ s, exec (.call g d off) s = issueWord (.call g d off) s body := by
  change ∃ body, ∀ s, execCall g d off s = issueWord (.call g d off) s body
  unfold execCall
  exact ⟨_, fun _ => rfl⟩

theorem issues_callx g d a : ∃ body, ∀ s, exec (.callx g d a) s = issueWord (.callx g d a) s body := by
  change ∃ body, ∀ s, execCallx g d a s = issueWord (.callx g d a) s body
  unfold execCallx
  exact ⟨_, fun _ => rfl⟩

theorem issues_ret g a : ∃ body, ∀ s, exec (.ret g a) s = issueWord (.ret g a) s body := by
  change ∃ body, ∀ s, execRet g a s = issueWord (.ret g a) s body
  unfold execRet
  exact ⟨_, fun _ => rfl⟩

theorem issues_join off : ∃ body, ∀ s, exec (.join off) s = issueWord (.join off) s body := by
  change ∃ body, ∀ s, execJoin off s = issueWord (.join off) s body
  unfold execJoin
  exact ⟨_, fun _ => rfl⟩

theorem issues_exit g : ∃ body, ∀ s, exec (.exit g) s = issueWord (.exit g) s body := by
  change ∃ body, ∀ s, execExit g s = issueWord (.exit g) s body
  unfold execExit
  exact ⟨_, fun _ => rfl⟩

theorem issues_trap g code : ∃ body, ∀ s, exec (.trap g code) s = issueWord (.trap g code) s body := by
  change ∃ body, ∀ s, execTrap g code s = issueWord (.trap g code) s body
  unfold execTrap
  exact ⟨_, fun _ => rfl⟩

theorem issues_chkpt n : ∃ body, ∀ s, exec (.chkpt n) s = issueWord (.chkpt n) s body := by
  change ∃ body, ∀ s, execChkpt n s = issueWord (.chkpt n) s body
  unfold execChkpt
  exact ⟨_, fun _ => rfl⟩

theorem issues_yieldSlot g : ∃ body, ∀ s, exec (.yieldSlot g) s = issueWord (.yieldSlot g) s body := by
  change ∃ body, ∀ s, execYieldSlot g s = issueWord (.yieldSlot g) s body
  unfold execYieldSlot
  exact ⟨_, fun _ => rfl⟩

theorem issues_sleep a : ∃ body, ∀ s, exec (.sleep a) s = issueWord (.sleep a) s body := by
  change ∃ body, ∀ s, execSleep a s = issueWord (.sleep a) s body
  unfold execSleep
  exact ⟨_, fun _ => rfl⟩

theorem issues_nop g : ∃ body, ∀ s, exec (.nop g) s = issueWord (.nop g) s body := by
  change ∃ body, ∀ s, execNop g s = issueWord (.nop g) s body
  unfold execNop
  exact ⟨_, fun _ => rfl⟩

theorem issues_ld x : ∃ body, ∀ s, exec (.ld x) s = issueWord (.ld x) s body := by
  change ∃ body, ∀ s, execLd x s = issueWord (.ld x) s body
  unfold execLd
  exact ⟨_, fun _ => rfl⟩

theorem issues_st x : ∃ body, ∀ s, exec (.st x) s = issueWord (.st x) s body := by
  change ∃ body, ∀ s, execSt x s = issueWord (.st x) s body
  unfold execSt
  exact ⟨_, fun _ => rfl⟩

theorem issues_lds x : ∃ body, ∀ s, exec (.lds x) s = issueWord (.lds x) s body := by
  change ∃ body, ∀ s, execLds x s = issueWord (.lds x) s body
  unfold execLds
  exact ⟨_, fun _ => rfl⟩

theorem issues_sts x : ∃ body, ∀ s, exec (.sts x) s = issueWord (.sts x) s body := by
  change ∃ body, ∀ s, execSts x s = issueWord (.sts x) s body
  unfold execSts
  exact ⟨_, fun _ => rfl⟩

theorem issues_ldro x : ∃ body, ∀ s, exec (.ldro x) s = issueWord (.ldro x) s body := by
  change ∃ body, ∀ s, execLdro x s = issueWord (.ldro x) s body
  unfold execLdro
  exact ⟨_, fun _ => rfl⟩

theorem issues_ldsp x ac : ∃ body, ∀ s, exec (.ldsp x ac) s = issueWord (.ldsp x ac) s body := by
  change ∃ body, ∀ s, execLdsp x ac s = issueWord (.ldsp x ac) s body
  unfold execLdsp
  exact ⟨_, fun _ => rfl⟩

theorem issues_atom x : ∃ body, ∀ s, exec (.atom x) s = issueWord (.atom x) s body := by
  change ∃ body, ∀ s, execAtom x s = issueWord (.atom x) s body
  unfold execAtom
  exact ⟨_, fun _ => rfl⟩

theorem issues_red x : ∃ body, ∀ s, exec (.red x) s = issueWord (.red x) s body := by
  change ∃ body, ∀ s, execRed x s = issueWord (.red x) s body
  unfold execRed
  exact ⟨_, fun _ => rfl⟩

theorem issues_fence scope : ∃ body, ∀ s, exec (.fence scope) s = issueWord (.fence scope) s body := by
  change ∃ body, ∀ s, execFence scope s = issueWord (.fence scope) s body
  unfold execFence
  exact ⟨_, fun _ => rfl⟩

theorem issues_fenceRo : ∃ body, ∀ s, exec (.fenceRo) s = issueWord (.fenceRo) s body := by
  change ∃ body, ∀ s, execFenceRo s = issueWord (.fenceRo) s body
  unfold execFenceRo
  exact ⟨_, fun _ => rfl⟩

theorem issues_pref x : ∃ body, ∀ s, exec (.pref x) s = issueWord (.pref x) s body := by
  change ∃ body, ∀ s, execPref x s = issueWord (.pref x) s body
  unfold execPref
  exact ⟨_, fun _ => rfl⟩

theorem issues_cwb a b scope : ∃ body, ∀ s, exec (.cwb a b scope) s = issueWord (.cwb a b scope) s body := by
  change ∃ body, ∀ s, execCwb a b scope s = issueWord (.cwb a b scope) s body
  unfold execCwb
  exact ⟨_, fun _ => rfl⟩

theorem issues_cinv a b scope : ∃ body, ∀ s, exec (.cinv a b scope) s = issueWord (.cinv a b scope) s body := by
  change ∃ body, ∀ s, execCinv a b scope s = issueWord (.cinv a b scope) s body
  unfold execCinv
  exact ⟨_, fun _ => rfl⟩

theorem issues_moor d a : ∃ body, ∀ s, exec (.moor d a) s = issueWord (.moor d a) s body := by
  change ∃ body, ∀ s, execMoor d a s = issueWord (.moor d a) s body
  unfold execMoor
  exact ⟨_, fun _ => rfl⟩

theorem issues_unmoor d a wb : ∃ body, ∀ s, exec (.unmoor d a wb) s = issueWord (.unmoor d a wb) s body := by
  change ∃ body, ∀ s, execUnmoor d a wb s = issueWord (.unmoor d a wb) s body
  unfold execUnmoor
  exact ⟨_, fun _ => rfl⟩

theorem issues_mwb d a b : ∃ body, ∀ s, exec (.mwb d a b) s = issueWord (.mwb d a b) s body := by
  change ∃ body, ∀ s, execMwb d a b s = issueWord (.mwb d a b) s body
  unfold execMwb
  exact ⟨_, fun _ => rfl⟩

theorem issues_mqry x : ∃ body, ∀ s, exec (.mqry x) s = issueWord (.mqry x) s body := by
  change ∃ body, ∀ s, execMqry x s = issueWord (.mqry x) s body
  unfold execMqry
  exact ⟨_, fun _ => rfl⟩

theorem issues_binit a b c : ∃ body, ∀ s, exec (.binit a b c) s = issueWord (.binit a b c) s body := by
  change ∃ body, ∀ s, execBinit a b c s = issueWord (.binit a b c) s body
  unfold execBinit
  exact ⟨_, fun _ => rfl⟩

theorem issues_barv d a b : ∃ body, ∀ s, exec (.barv d a b) s = issueWord (.barv d a b) s body := by
  change ∃ body, ∀ s, execBarv d a b s = issueWord (.barv d a b) s body
  unfold execBarv
  exact ⟨_, fun _ => rfl⟩

theorem issues_bpar pd a : ∃ body, ∀ s, exec (.bpar pd a) s = issueWord (.bpar pd a) s body := by
  change ∃ body, ∀ s, execBpar pd a s = issueWord (.bpar pd a) s body
  unfold execBpar
  exact ⟨_, fun _ => rfl⟩

theorem issues_waitBar pd a b c : ∃ body, ∀ s, exec (.waitBar pd a b c) s = issueWord (.waitBar pd a b c) s body := by
  change ∃ body, ∀ s, execWaitBar pd a b c s = issueWord (.waitBar pd a b c) s body
  unfold execWaitBar
  exact ⟨_, fun _ => rfl⟩

theorem issues_waitBmp pd a b c : ∃ body, ∀ s, exec (.waitBmp pd a b c) s = issueWord (.waitBmp pd a b c) s body := by
  change ∃ body, ∀ s, execWaitBmp pd a b c s = issueWord (.waitBmp pd a b c) s body
  unfold execWaitBmp
  exact ⟨_, fun _ => rfl⟩

theorem issues_waitAc pd n c : ∃ body, ∀ s, exec (.waitAc pd n c) s = issueWord (.waitAc pd n c) s body := by
  change ∃ body, ∀ s, execWaitAc pd n c s = issueWord (.waitAc pd n c) s body
  unfold execWaitAc
  exact ⟨_, fun _ => rfl⟩

theorem issues_waitTl pd a b c : ∃ body, ∀ s, exec (.waitTl pd a b c) s = issueWord (.waitTl pd a b c) s body := by
  change ∃ body, ∀ s, execWaitTl pd a b c s = issueWord (.waitTl pd a b c) s body
  unfold execWaitTl
  exact ⟨_, fun _ => rfl⟩

theorem issues_cpy x : ∃ body, ∀ s, exec (.cpy x) s = issueWord (.cpy x) s body := by
  change ∃ body, ∀ s, execCpy x s = issueWord (.cpy x) s body
  unfold execCpy
  exact ⟨_, fun _ => rfl⟩

theorem issues_cpyt d a : ∃ body, ∀ s, exec (.cpyt d a) s = issueWord (.cpyt d a) s body := by
  change ∃ body, ∀ s, execCpyt d a s = issueWord (.cpyt d a) s body
  unfold execCpyt
  exact ⟨_, fun _ => rfl⟩

theorem issues_cpyq d a : ∃ body, ∀ s, exec (.cpyq d a) s = issueWord (.cpyq d a) s body := by
  change ∃ body, ∀ s, execCpyq d a s = issueWord (.cpyq d a) s body
  unfold execCpyq
  exact ⟨_, fun _ => rfl⟩

theorem issues_send x : ∃ body, ∀ s, exec (.send x) s = issueWord (.send x) s body := by
  change ∃ body, ∀ s, execSend x s = issueWord (.send x) s body
  unfold execSend
  exact ⟨_, fun _ => rfl⟩

theorem issues_mcast x : ∃ body, ∀ s, exec (.mcast x) s = issueWord (.mcast x) s body := by
  change ∃ body, ∀ s, execMcast x s = issueWord (.mcast x) s body
  unfold execMcast
  exact ⟨_, fun _ => rfl⟩

theorem issues_redpArm d a id : ∃ body, ∀ s, exec (.redpArm d a id) s = issueWord (.redpArm d a id) s body := by
  change ∃ body, ∀ s, execRedpArm d a id s = issueWord (.redpArm d a id) s body
  unfold execRedpArm
  exact ⟨_, fun _ => rfl⟩

theorem issues_redpContribute d a id : ∃ body, ∀ s, exec (.redpContribute d a id) s = issueWord (.redpContribute d a id) s body := by
  change ∃ body, ∀ s, execRedpContribute d a id s = issueWord (.redpContribute d a id) s body
  unfold execRedpContribute
  exact ⟨_, fun _ => rfl⟩

theorem issues_remit g idx a : ∃ body, ∀ s, exec (.remit g idx a) s = issueWord (.remit g idx a) s body := by
  change ∃ body, ∀ s, execRemit g idx a s = issueWord (.remit g idx a) s body
  unfold execRemit
  exact ⟨_, fun _ => rfl⟩

theorem issues_radv : ∃ body, ∀ s, exec (.radv) s = issueWord (.radv) s body := by
  change ∃ body, ∀ s, execRadv s = issueWord (.radv) s body
  unfold execRadv
  exact ⟨_, fun _ => rfl⟩

theorem issues_xdec x : ∃ body, ∀ s, exec (.xdec x) s = issueWord (.xdec x) s body := by
  change ∃ body, ∀ s, execXdec x s = issueWord (.xdec x) s body
  unfold execXdec
  exact ⟨_, fun _ => rfl⟩

theorem issues_xbmp x : ∃ body, ∀ s, exec (.xbmp x) s = issueWord (.xbmp x) s body := by
  change ∃ body, ∀ s, execXbmp x s = issueWord (.xbmp x) s body
  unfold execXbmp
  exact ⟨_, fun _ => rfl⟩

theorem issues_movspr g d r : ∃ body, ∀ s, exec (.movspr g d r) s = issueWord (.movspr g d r) s body := by
  change ∃ body, ∀ s, execMovspr g d r s = issueWord (.movspr g d r) s body
  unfold execMovspr
  exact ⟨_, fun _ => rfl⟩

theorem issues_wrspr r a : ∃ body, ∀ s, exec (.wrspr r a) s = issueWord (.wrspr r a) s body := by
  change ∃ body, ∀ s, execWrspr r a s = issueWord (.wrspr r a) s body
  unfold execWrspr
  exact ⟨_, fun _ => rfl⟩

theorem issues_tlinc a b err : ∃ body, ∀ s, exec (.tlinc a b err) s = issueWord (.tlinc a b err) s body := by
  change ∃ body, ∀ s, execTlinc a b err s = issueWord (.tlinc a b err) s body
  unfold execTlinc
  exact ⟨_, fun _ => rfl⟩

theorem issues_gettl g d a err : ∃ body, ∀ s, exec (.gettl g d a err) s = issueWord (.gettl g d a err) s body := by
  change ∃ body, ∀ s, execGettl g d a err s = issueWord (.gettl g d a err) s body
  unfold execGettl
  exact ⟨_, fun _ => rfl⟩

theorem issues_bkpt g code : ∃ body, ∀ s, exec (.bkpt g code) s = issueWord (.bkpt g code) s body := by
  change ∃ body, ∀ s, execBkpt g code s = issueWord (.bkpt g code) s body
  unfold execBkpt
  exact ⟨_, fun _ => rfl⟩

theorem issues_resphase a : ∃ body, ∀ s, exec (.resphase a) s = issueWord (.resphase a) s body := by
  change ∃ body, ∀ s, execResphase a s = issueWord (.resphase a) s body
  unfold execResphase
  exact ⟨_, fun _ => rfl⟩

theorem issues_mldw a b wf : ∃ body, ∀ s, exec (.mldw a b wf) s = issueWord (.mldw a b wf) s body := by
  change ∃ body, ∀ s, execMldw a b wf s = issueWord (.mldw a b wf) s body
  unfold execMldw
  exact ⟨_, fun _ => rfl⟩

theorem issues_mswap d : ∃ body, ∀ s, exec (.mswap d) s = issueWord (.mswap d) s body := by
  change ∃ body, ∀ s, execMswap d s = issueWord (.mswap d) s body
  unfold execMswap
  exact ⟨_, fun _ => rfl⟩

theorem issues_mlut sb : ∃ body, ∀ s, exec (.mlut sb) s = issueWord (.mlut sb) s body := by
  change ∃ body, ∀ s, execMlut sb s = issueWord (.mlut sb) s body
  unfold execMlut
  exact ⟨_, fun _ => rfl⟩

theorem issues_mzero g tile : ∃ body, ∀ s, exec (.mzero g tile) s = issueWord (.mzero g tile) s body := by
  change ∃ body, ∀ s, execMzero g tile s = issueWord (.mzero g tile) s body
  unfold execMzero
  exact ⟨_, fun _ => rfl⟩

theorem issues_mma x : ∃ body, ∀ s, exec (.mma x) s = issueWord (.mma x) s body := by
  change ∃ body, ∀ s, execMma x s = issueWord (.mma x) s body
  unfold execMma
  exact ⟨_, fun _ => rfl⟩

theorem issues_mrd x : ∃ body, ∀ s, exec (.mrd x) s = issueWord (.mrd x) s body := by
  change ∃ body, ∀ s, execMrd x s = issueWord (.mrd x) s body
  unfold execMrd
  exact ⟨_, fun _ => rfl⟩

theorem issues_mst x : ∃ body, ∀ s, exec (.mst x) s = issueWord (.mst x) s body := by
  change ∃ body, ∀ s, execMst x s = issueWord (.mst x) s body
  unfold execMst
  exact ⟨_, fun _ => rfl⟩

theorem issues_mfence d : ∃ body, ∀ s, exec (.mfence d) s = issueWord (.mfence d) s body := by
  change ∃ body, ∀ s, execMfence d s = issueWord (.mfence d) s body
  unfold execMfence
  exact ⟨_, fun _ => rfl⟩

theorem issues_capenter x : ∃ body, ∀ s, exec (.capenter x) s = issueWord (.capenter x) s body := by
  change ∃ body, ∀ s, execCapenter x s = issueWord (.capenter x) s body
  unfold execCapenter
  exact ⟨_, fun _ => rfl⟩

theorem issues_capadopt d a : ∃ body, ∀ s, exec (.capadopt d a) s = issueWord (.capadopt d a) s body := by
  change ∃ body, ∀ s, execCapadopt d a s = issueWord (.capadopt d a) s body
  unfold execCapadopt
  exact ⟨_, fun _ => rfl⟩

theorem issues_capstat d a : ∃ body, ∀ s, exec (.capstat d a) s = issueWord (.capstat d a) s body := by
  change ∃ body, ∀ s, execCapstat d a s = issueWord (.capstat d a) s body
  unfold execCapstat
  exact ⟨_, fun _ => rfl⟩

theorem issues_capstep lbl : ∃ body, ∀ s, exec (.capstep lbl) s = issueWord (.capstep lbl) s body := by
  change ∃ body, ∀ s, execCapstep lbl s = issueWord (.capstep lbl) s body
  unfold execCapstep
  exact ⟨_, fun _ => rfl⟩

theorem issues_capexit : ∃ body, ∀ s, exec (.capexit) s = issueWord (.capexit) s body := by
  change ∃ body, ∀ s, execCapexit s = issueWord (.capexit) s body
  unfold execCapexit
  exact ⟨_, fun _ => rfl⟩

theorem issues_capabort : ∃ body, ∀ s, exec (.capabort) s = issueWord (.capabort) s body := by
  change ∃ body, ∀ s, execCapabort s = issueWord (.capabort) s body
  unfold execCapabort
  exact ⟨_, fun _ => rfl⟩

theorem issues_tbindNew : ∃ body, ∀ s, exec (.tbindNew) s = issueWord (.tbindNew) s body := by
  change ∃ body, ∀ s, execTbindNew s = issueWord (.tbindNew) s body
  unfold execTbindNew
  exact ⟨_, fun _ => rfl⟩

theorem issues_tbindAt a : ∃ body, ∀ s, exec (.tbindAt a) s = issueWord (.tbindAt a) s body := by
  change ∃ body, ∀ s, execTbindAt a s = issueWord (.tbindAt a) s body
  unfold execTbindAt
  exact ⟨_, fun _ => rfl⟩

theorem issues_tbindCh n tag : ∃ body, ∀ s, exec (.tbindCh n tag) s = issueWord (.tbindCh n tag) s body := by
  change ∃ body, ∀ s, execTbindCh n tag s = issueWord (.tbindCh n tag) s body
  unfold execTbindCh
  exact ⟨_, fun _ => rfl⟩

theorem issues_trec x : ∃ body, ∀ s, exec (.trec x) s = issueWord (.trec x) s body := by
  change ∃ body, ∀ s, execTrec x s = issueWord (.trec x) s body
  unfold execTrec
  exact ⟨_, fun _ => rfl⟩

theorem issues_tmark tag a : ∃ body, ∀ s, exec (.tmark tag a) s = issueWord (.tmark tag a) s body := by
  change ∃ body, ∀ s, execTmark tag a s = issueWord (.tmark tag a) s body
  unfold execTmark
  exact ⟨_, fun _ => rfl⟩

theorem issues_tback x : ∃ body, ∀ s, exec (.tback x) s = issueWord (.tback x) s body := by
  change ∃ body, ∀ s, execTback x s = issueWord (.tback x) s body
  unfold execTback
  exact ⟨_, fun _ => rfl⟩

theorem issues_tbpop x : ∃ body, ∀ s, exec (.tbpop x) s = issueWord (.tbpop x) s body := by
  change ∃ body, ∀ s, execTbpop x s = issueWord (.tbpop x) s body
  unfold execTbpop
  exact ⟨_, fun _ => rfl⟩

theorem issues_tstat g d sel : ∃ body, ∀ s, exec (.tstat g d sel) s = issueWord (.tstat g d sel) s body := by
  change ∃ body, ∀ s, execTstat g d sel s = issueWord (.tstat g d sel) s body
  unfold execTstat
  exact ⟨_, fun _ => rfl⟩

/-- R134: what exec does with a word is the shared issue of it around one body. -/
theorem word_exec (i : Instr) (hw : i.isWord = true) : ∃ body, ∀ s, exec i s = issueWord i s body := by
  cases i
  case iadd x => exact issues_iadd x
  case isub x => exact issues_isub x
  case iaddc x => exact issues_iaddc x
  case imul x => exact issues_imul x
  case imulhi x => exact issues_imulhi x
  case imad x => exact issues_imad x
  case imadw x => exact issues_imadw x
  case imin x => exact issues_imin x
  case imax x => exact issues_imax x
  case iabs x => exact issues_iabs x
  case and x => exact issues_and x
  case or x => exact issues_or x
  case xor x => exact issues_xor x
  case andn x => exact issues_andn x
  case orn x => exact issues_orn x
  case shl x => exact issues_shl x
  case shr x => exact issues_shr x
  case sar x => exact issues_sar x
  case rotl x => exact issues_rotl x
  case fshf x => exact issues_fshf x
  case bfx x => exact issues_bfx x
  case bfi x => exact issues_bfi x
  case popc x => exact issues_popc x
  case clz x => exact issues_clz x
  case ctz x => exact issues_ctz x
  case brev x => exact issues_brev x
  case prmt x => exact issues_prmt x
  case lea x => exact issues_lea x
  case isetp x => exact issues_isetp x
  case sel x => exact issues_sel x
  case mov x => exact issues_mov x
  case fadd x => exact issues_fadd x
  case fsub x => exact issues_fsub x
  case fmul x => exact issues_fmul x
  case ffma x => exact issues_ffma x
  case fmin x => exact issues_fmin x
  case fmax x => exact issues_fmax x
  case fsetp x => exact issues_fsetp x
  case fclass x => exact issues_fclass x
  case frcp x => exact issues_frcp x
  case frsq x => exact issues_frsq x
  case fsqrt x => exact issues_fsqrt x
  case fex2 x => exact issues_fex2 x
  case flg2 x => exact issues_flg2 x
  case fsin x => exact issues_fsin x
  case fcos x => exact issues_fcos x
  case ftanh x => exact issues_ftanh x
  case hadd2 x => exact issues_hadd2 x
  case hmul2 x => exact issues_hmul2 x
  case hfma2 x => exact issues_hfma2 x
  case hmnmx2 x => exact issues_hmnmx2 x
  case cvt x => exact issues_cvt x
  case cvtq x => exact issues_cvtq x
  case cvtdq x => exact issues_cvtdq x
  case pack x => exact issues_pack x
  case unpk x => exact issues_unpk x
  case lutx x => exact issues_lutx x
  case idp4 x => exact issues_idp4 x
  case idp8 x => exact issues_idp8 x
  case fdp4 x => exact issues_fdp4 x
  case fdp2 x => exact issues_fdp2 x
  case pairedWord h0 h1 => exact issues_pairedWord h0 h1
  case shfl x => exact issues_shfl x
  case vote x => exact issues_vote x
  case matchLanes x => exact issues_matchLanes x
  case cred x => exact issues_cred x
  case cscan x => exact issues_cscan x
  case lser => exact issues_lser
  case lsend => exact issues_lsend
  case actm x => exact issues_actm x
  case bra g off => exact issues_bra g off
  case braT g off tag => exact issues_braT g off tag
  case brx g a => exact issues_brx g a
  case call g d off => exact issues_call g d off
  case callx g d a => exact issues_callx g d a
  case ret g a => exact issues_ret g a
  case join off => exact issues_join off
  case exit g => exact issues_exit g
  case trap g code => exact issues_trap g code
  case chkpt n => exact issues_chkpt n
  case yieldSlot g => exact issues_yieldSlot g
  case sleep a => exact issues_sleep a
  case nop g => exact issues_nop g
  case ld x => exact issues_ld x
  case st x => exact issues_st x
  case lds x => exact issues_lds x
  case sts x => exact issues_sts x
  case ldro x => exact issues_ldro x
  case ldsp x ac => exact issues_ldsp x ac
  case atom x => exact issues_atom x
  case red x => exact issues_red x
  case fence scope => exact issues_fence scope
  case fenceRo => exact issues_fenceRo
  case pref x => exact issues_pref x
  case cwb a b scope => exact issues_cwb a b scope
  case cinv a b scope => exact issues_cinv a b scope
  case moor d a => exact issues_moor d a
  case unmoor d a wb => exact issues_unmoor d a wb
  case mwb d a b => exact issues_mwb d a b
  case mqry x => exact issues_mqry x
  case binit a b c => exact issues_binit a b c
  case barv d a b => exact issues_barv d a b
  case bpar pd a => exact issues_bpar pd a
  case waitBar pd a b c => exact issues_waitBar pd a b c
  case waitBmp pd a b c => exact issues_waitBmp pd a b c
  case waitAc pd n c => exact issues_waitAc pd n c
  case waitTl pd a b c => exact issues_waitTl pd a b c
  case cpy x => exact issues_cpy x
  case cpyt d a => exact issues_cpyt d a
  case cpyq d a => exact issues_cpyq d a
  case send x => exact issues_send x
  case mcast x => exact issues_mcast x
  case redpArm d a id => exact issues_redpArm d a id
  case redpContribute d a id => exact issues_redpContribute d a id
  case remit g idx a => exact issues_remit g idx a
  case radv => exact issues_radv
  case xdec x => exact issues_xdec x
  case xbmp x => exact issues_xbmp x
  case movspr g d r => exact issues_movspr g d r
  case wrspr r a => exact issues_wrspr r a
  case tlinc a b err => exact issues_tlinc a b err
  case gettl g d a err => exact issues_gettl g d a err
  case bkpt g code => exact issues_bkpt g code
  case resphase a => exact issues_resphase a
  case mldw a b wf => exact issues_mldw a b wf
  case mswap d => exact issues_mswap d
  case mlut sb => exact issues_mlut sb
  case mzero g tile => exact issues_mzero g tile
  case mma x => exact issues_mma x
  case mrd x => exact issues_mrd x
  case mst x => exact issues_mst x
  case mfence d => exact issues_mfence d
  case capenter x => exact issues_capenter x
  case capadopt d a => exact issues_capadopt d a
  case capstat d a => exact issues_capstat d a
  case capstep lbl => exact issues_capstep lbl
  case capexit => exact issues_capexit
  case capabort => exact issues_capabort
  case tbindNew => exact issues_tbindNew
  case tbindAt a => exact issues_tbindAt a
  case tbindCh n tag => exact issues_tbindCh n tag
  case trec x => exact issues_trec x
  case tmark tag a => exact issues_tmark tag a
  case tback x => exact issues_tback x
  case tbpop x => exact issues_tbpop x
  case tstat g d sel => exact issues_tstat g d sel
  all_goals exact (Bool.false_ne_true hw).elim

end Sys2Proof
end

