-- ==== Sys2Proof/Laws/Numbers.lean ====
section
/-! SUPPORT. Laws of the numbers: bits, sums of bits, rotation, saturation, and the windows of the address space. -/

namespace Sys2Proof

open Machine

theorem fdiv_pow (a : Int) (k : Nat) : Int.fdiv a (2 ^ k) = a / 2 ^ k := by
  rw [Int.fdiv_eq_ediv_of_nonneg]; positivity

theorem nbit_test (x k : Nat) : nbit x k = x.testBit k := by
  unfold nbit; rw [Nat.testBit_eq_decide_div_mod_eq]; rfl

/-- sum of bits -/

theorem bitsum (g : Nat → Bool) (n : Nat) :
    let v := (List.range n).foldl (fun r j => r + (if g j then 2 ^ j else 0)) 0
    v < 2 ^ n ∧ ∀ j < n, v.testBit j = g j := by
  induction n with
  | zero => simp
  | succ n ih =>
    obtain ⟨h1, h2⟩ := ih
    simp only [List.range_succ, List.foldl_append, List.foldl_cons, List.foldl_nil]
    generalize (List.range n).foldl (fun r j => r + (if g j then 2 ^ j else 0)) 0 = v at h1 h2
    constructor
    · split <;> (rw [pow_succ]; omega)
    · intro j hj
      by_cases hjn : j < n
      · rw [← h2 j hjn]
        split
        · rw [Nat.add_comm, show 2 ^ n = 2 ^ n * 1 by simp, Nat.testBit_two_pow_mul_add _ h1, if_pos hjn]
        · rfl
      · have : j = n := by omega
        subst this
        cases hg : g j
        · simp [Nat.testBit_lt_two_pow h1]
        · rw [if_pos rfl, Nat.add_comm, show 2 ^ j = 2 ^ j * 1 by simp, Nat.testBit_two_pow_mul_add _ h1, if_neg (by omega)]; simp

theorem nbit_not {w b k : Nat} (hk : k < w) : nbit (notBits w b) k = !nbit b k := by
  simp only [nbit_test, notBits]
  rw [Nat.sub_sub, Nat.add_comm 1, Nat.testBit_two_pow_sub_succ (Nat.mod_lt _ (by positivity))]
  simp [hk]

theorem nbit_and (a b k : Nat) : nbit (a &&& b) k = (nbit a k && nbit b k) := by simp only [nbit_test, Nat.testBit_and]

theorem nbit_or (a b k : Nat) : nbit (a ||| b) k = (nbit a k || nbit b k) := by simp only [nbit_test, Nat.testBit_or]

theorem nbit_xor (a b k : Nat) : nbit (a ^^^ b) k = (nbit a k != nbit b k) := by simp only [nbit_test, Nat.testBit_xor]

theorem rotl_bits (bits a b : Nat) (hpos : 0 < bits) (ha : a < 2 ^ bits) :
    rotlNat bits a (b % bits) < 2 ^ bits ∧ ∀ k < bits, nbit (rotlNat bits a (b % bits)) ((k + b) % bits) = nbit a k := by
  have hn : b % bits < bits := Nat.mod_lt _ hpos
  have hkn : ∀ k, (k + b) % bits = (k + b % bits) % bits := by intro k; simp
  simp only [hkn]
  generalize b % bits = n at hn
  unfold rotlNat
  have e1 : a * 2 ^ n % 2 ^ bits = 2 ^ n * (a % 2 ^ (bits - n)) := by
    have : 2 ^ bits = 2 ^ n * 2 ^ (bits - n) := by rw [← pow_add]; congr 1; omega
    rw [this, Nat.mul_comm a, Nat.mul_mod_mul_left]
  have e2 : a / 2 ^ (bits - n) < 2 ^ n := by
    rw [Nat.div_lt_iff_lt_mul (by positivity), ← pow_add]
    have : n + (bits - n) = bits := by omega
    rw [this]; exact ha
  rw [e1]
  constructor
  · have : a % 2 ^ (bits - n) < 2 ^ (bits - n) := Nat.mod_lt _ (by positivity)
    have h2 : 2 ^ bits = 2 ^ n * 2 ^ (bits - n) := by rw [← pow_add]; congr 1; omega
    rw [h2]
    calc 2 ^ n * (a % 2 ^ (bits - n)) + a / 2 ^ (bits - n) < 2 ^ n * (a % 2 ^ (bits - n)) + 2 ^ n := by omega
      _ = 2 ^ n * (a % 2 ^ (bits - n) + 1) := by ring
      _ ≤ _ := Nat.mul_le_mul_left _ this
  · intro k hk
    simp only [nbit_test]
    rw [Nat.testBit_two_pow_mul_add _ e2]
    by_cases hc : k + n < bits
    · rw [Nat.mod_eq_of_lt hc, if_neg (by omega), Nat.add_sub_cancel, Nat.testBit_mod_two_pow]
      simp; omega
    · have : (k + n) % bits = k + n - bits := by
        rw [Nat.mod_eq_sub_mod (by omega), Nat.mod_eq_of_lt (by omega)]
      rw [this, if_pos (by omega), Nat.testBit_div_two_pow]
      congr 1; omega

theorem satWrap_eq (ty : IntTy) (sat : Bool) (z : Int) : satWrap ty sat z = saturated ty sat z := by
  unfold satWrap saturated clampTo intMin intMax patOf wrapTo flagNone
  cases sat
  · simp
  · cases h : intSigned ty <;> simp <;> (split <;> (try split) <;> simp_all)

theorem windowOf_global (va : Nat) : windowOf va = .global ↔ (va / 2 ^ 56 = 0 ∨ va / 2 ^ 56 = 255) ∧ 0x10000000 ≤ va := by
  unfold windowOf
  by_cases hc : canonical va = true
  · have hc' : va / 2 ^ 56 = 0 ∨ va / 2 ^ 56 = 255 := by unfold canonical at hc; simpa using hc
    rw [if_neg (by simp [hc])]
    by_cases h1 : va < 0x20_0000
    · rw [if_pos h1]; simp; omega
    · rw [if_neg h1]
      by_cases h2 : va < 0x200_0000
      · rw [if_pos h2]; simp; omega
      · rw [if_neg h2]
        by_cases h3 : va < 0x500_0000
        · rw [if_pos h3]; simp; omega
        · rw [if_neg h3]
          by_cases h4 : va < 0x1000_0000
          · rw [if_pos h4]; simp; omega
          · rw [if_neg h4]; simp only [true_iff]; exact ⟨hc', by omega⟩
  · have hc' : ¬ (va / 2 ^ 56 = 0 ∨ va / 2 ^ 56 = 255) := by unfold canonical at hc; simpa using hc
    rw [if_pos (by simpa using hc)]
    simp only [reduceCtorEq, false_iff]; exact fun h => hc' h.1

theorem routeOf_global (va : Nat) (h8 : va % 8 = 0) (hlt : va < 2 ^ 64) : routeOf va 8 = .global ↔ windowOf va = .global := by
  unfold routeOf
  have : (va + (8 - 1)) % 2 ^ 64 = va + 7 := by omega
  rw [this]
  constructor
  · intro h
    split at h <;> (try split at h) <;> simp_all
  · intro h
    have h' : windowOf (va + 7) = .global := by rw [windowOf_global] at h ⊢; omega
    rw [h, h']; dsimp only; rw [if_pos (by omega)]

end Sys2Proof
end

