-- ==== Sys2Proof/Tests/Slice0.lean ====
section
/-! SUPPORT. Tests of the model: words written out from the spec's encoding tables, ill-formed terms, witnesses that the
hypotheses of the statements are met, and single steps whose results the spec gives or that follow from its rules by hand. -/

namespace Sys2Proof.Tests

open Machine

set_option Elab.async false

/-! ## Decoding: every word assembled field by field from the tables of 11, 13, 15, 17, 19, 21, 23 and 25 -/

/-- Words of the group `integer`. -/
theorem test_decode_integer :
    decode 0x01A028198E000005 = .ok (.iadd ⟨⟨true, 2⟩, .v 5, .v 6, .s 7, .n32, true⟩) ∧
    decode 0x0270281BFFFFFFFF = .ok (.isub ⟨⟨false, 7⟩, .v 5, .v 6, .imm 0xFFFFFFFF, .i32, true⟩) ∧
    decode 0x037028180E00007B = .ok (.iaddc ⟨⟨false, 7⟩, .v 5, .v 6, .v 7, some (3, true), 3⟩) ∧
    decode 0x0470201810000002 = .ok (.imul ⟨⟨false, 7⟩, .v 4, .v 6, .v 8, .i64, false⟩) ∧
    decode 0x0570201800008013 = .ok (.imulhi ⟨⟨false, 7⟩, .v 4, .v 6, .imm 9, .n32, false⟩) ∧
    decode 0x06702018100A0003 = .ok (.imad ⟨⟨false, 7⟩, .v 4, .v 6, .v 8, .v 10, .n64⟩) ∧
    decode 0x077020140E0A0001 = .ok (.imadw ⟨⟨false, 7⟩, .v 4, .v 5, .v 7, .v 10, .n32⟩) ∧
    decode 0x08760B09E0000001 = .ok (.imin ⟨⟨false, 7⟩, .s 1, .s 2, .zero, .n32, false⟩) ∧
    decode 0x09700BC5F2000000 = .ok (.imax ⟨⟨false, 7⟩, .v 1, .lane, .ones, .i32, false⟩) ∧
    decode 0x0A70101000000006 = .ok (.iabs ⟨⟨false, 7⟩, .v 2, .v 4, .i64, true⟩) := by decide +kernel

/-- Words of the group `logic`. -/
theorem test_decode_logic :
    decode 0x0B7824162C000000 = .ok (.and ⟨⟨false, 7⟩, .chan 4 false, .chan 5 false, .chan 6 true, false⟩) ∧
    decode 0x0C7010100C000002 = .ok (.or ⟨⟨false, 7⟩, .v 2, .v 4, .v 6, true⟩) ∧
    decode 0x0D70101200008002 = .ok (.xor ⟨⟨false, 7⟩, .v 2, .v 4, .imm 0x80000001, false⟩) ∧
    decode 0x0E7010100C000000 = .ok (.andn ⟨⟨false, 7⟩, .v 2, .v 4, .v 6, false⟩) ∧
    decode 0x0F75F8100C000000 = .ok (.orn ⟨⟨false, 7⟩, .v 191, .v 4, .v 6, false⟩) ∧
    decode 0x107010100E000002 = .ok (.shl ⟨⟨false, 7⟩, .v 2, .v 4, .v 7, true⟩) ∧
    decode 0x117010100000803E = .ok (.shr ⟨⟨false, 7⟩, .v 2, .v 4, .imm 31, false⟩) ∧
    decode 0x12701011F0000000 = .ok (.sar ⟨⟨false, 7⟩, .v 2, .v 4, .clk, false⟩) ∧
    decode 0x13701011E4000000 = .ok (.rotl ⟨⟨false, 7⟩, .v 2, .v 4, .crew, false⟩) ∧
    decode 0x147010100C080001 = .ok (.fshf ⟨⟨false, 7⟩, .v 2, .v 4, .v 6, .v 8, true⟩) ∧
    decode 0x157010100000900B = .ok (.bfx ⟨⟨false, 7⟩, .v 2, .v 4, .imm 0x805, true⟩) ∧
    decode 0x167010100C080000 = .ok (.bfi ⟨⟨false, 7⟩, .v 2, .v 4, .v 6, .v 8⟩) ∧
    decode 0x1770101000000000 = .ok (.popc ⟨⟨false, 7⟩, .v 2, .v 4⟩) ∧
    decode 0x187013CC00000000 = .ok (.clz ⟨⟨false, 7⟩, .v 2, .bx⟩) ∧
    decode 0x197013D000000000 = .ok (.ctz ⟨⟨false, 7⟩, .v 2, .byIdx⟩) ∧
    decode 0x1A7013D400000000 = .ok (.brev ⟨⟨false, 7⟩, .v 2, .bz⟩) ∧
    decode 0x1B7010100CF60000 = .ok (.prmt ⟨⟨false, 7⟩, .v 2, .v 4, .v 6, .rank⟩) ∧
    decode 0x1C7010100E00001D = .ok (.lea ⟨⟨false, 7⟩, .v 2, .v 4, .v 7, 5, true, true⟩) ∧
    decode 0x1D7018100A010108 = .ok (.isetp ⟨⟨false, 7⟩, 3, .v 4, .v 5, .lt, .i32, some (1, 4)⟩) ∧
    decode 0x1E701011EE00000D = .ok (.sel ⟨⟨false, 7⟩, .v 2, .v 4, .core, 5, true⟩) ∧
    decode 0x1F70101000000002 = .ok (.mov ⟨⟨false, 7⟩, .v 2, .v 4, true⟩) := by decide +kernel

/-- Words of the group `float`. -/
theorem test_decode_float :
    decode 0x2070080806000011 = .ok (.fadd ⟨⟨false, 7⟩, .v 1, .v 2, .v 3, ⟨true, false, false, false, true⟩⟩) ∧
    decode 0x217008080600000A = .ok (.fsub ⟨⟨false, 7⟩, .v 1, .v 2, .v 3, ⟨false, true, false, true, false⟩⟩) ∧
    decode 0x2270440E26000000 = .ok (.fmul ⟨⟨false, 7⟩, .v 8, .chan 3 false, .chan 3 true, ⟨false, false, false, false, false⟩⟩) ∧
    decode 0x2370080806040004 = .ok (.ffma ⟨⟨false, 7⟩, .v 1, .v 2, .v 3, .v 4, ⟨false, false, true, false, false⟩⟩) ∧
    decode 0x24700808FE008000 = .ok (.fmin ⟨⟨false, 7⟩, .v 1, .v 2, .imm 0x3F800000, ⟨false, false, false, false, false⟩⟩) ∧
    decode 0x2570080806000000 = .ok (.fmax ⟨⟨false, 7⟩, .v 1, .v 2, .v 3, ⟨false, false, false, false, false⟩⟩) ∧
    decode 0x267010100A061CE8 = .ok (.fsetp ⟨⟨false, 7⟩, 2, .v 4, .v 5, ⟨false, false, false, true, false⟩, .nan, some (6, 14)⟩) ∧
    decode 0x2770080800000000 = .ok (.fclass ⟨⟨false, 7⟩, .v 1, .v 2⟩) ∧
    decode 0x2870080800000000 = .ok (.frcp ⟨⟨false, 7⟩, .v 1, .v 2, false, false⟩) ∧
    decode 0x2970080800000001 = .ok (.frsq ⟨⟨false, 7⟩, .v 1, .v 2, true, false⟩) ∧
    decode 0x2A70080800000008 = .ok (.fsqrt ⟨⟨false, 7⟩, .v 1, .v 2, false, true⟩) ∧
    decode 0x2B70080800000009 = .ok (.fex2 ⟨⟨false, 7⟩, .v 1, .v 2, true, true⟩) ∧
    decode 0x2C70080800000000 = .ok (.flg2 ⟨⟨false, 7⟩, .v 1, .v 2, false, false⟩) ∧
    decode 0x2D70080800000001 = .ok (.fsin ⟨⟨false, 7⟩, .v 1, .v 2, true, false⟩) ∧
    decode 0x2E70080800000008 = .ok (.fcos ⟨⟨false, 7⟩, .v 1, .v 2, false, true⟩) ∧
    decode 0x2F70080800000009 = .ok (.ftanh ⟨⟨false, 7⟩, .v 1, .v 2, true, true⟩) ∧
    decode 0x3070080806000022 = .ok (.hadd2 ⟨⟨false, 7⟩, .v 1, .v 2, .v 3, ⟨false, true, false, false, false⟩, true⟩) ∧
    decode 0x3170080806000000 = .ok (.hmul2 ⟨⟨false, 7⟩, .v 1, .v 2, .v 3, ⟨false, false, false, false, false⟩, false⟩) ∧
    decode 0x3270080806040020 = .ok (.hfma2 ⟨⟨false, 7⟩, .v 1, .v 2, .v 3, .v 4, ⟨false, false, false, false, false⟩, true⟩) ∧
    decode 0x3370080806000060 = .ok (.hmnmx2 ⟨⟨false, 7⟩, .v 1, .v 2, .v 3, ⟨false, false, false, false, false⟩, true, true⟩) := by decide +kernel

/-- Words of the group `convert`. -/
theorem test_decode_convert :
    decode 0x3470480800000030 = .ok (.cvt ⟨⟨false, 7⟩, .v 9, .v 2, .e4m3, .f32, false, 0⟩) ∧
    decode 0x34704808000007A4 = .ok (.cvt ⟨⟨false, 7⟩, .v 9, .v 2, .i8, .e5m2, true, 3⟩) ∧
    decode 0x3570202186000006 = .ok (.cvtq ⟨⟨false, 7⟩, .v 4, .v 8, some (.s 3), .qf8⟩) ∧
    decode 0x3670202000000021 = .ok (.cvtdq ⟨⟨false, 7⟩, .v 4, .v 8, .qi4, .f16⟩) ∧
    decode 0x3770202012000049 = .ok (.pack ⟨⟨false, 7⟩, .v 4, .v 8, .v 9, 1, .w16, .satn⟩) ∧
    decode 0x3870202000000037 = .ok (.unpk ⟨⟨false, 7⟩, .v 4, .v 8, 7, .w4, true⟩) ∧
    decode 0x3970202190000003 = .ok (.lutx ⟨⟨false, 7⟩, .v 4, .v 8, 8, true, true⟩) ∧
    decode 0x3A7020140C070006 = .ok (.idp4 ⟨⟨false, 7⟩, .v 4, .v 5, .v 6, .v 7, false, true, true⟩) ∧
    decode 0x3B70380404030002 = .ok (.idp8 ⟨⟨false, 7⟩, .v 7, .v 1, .v 2, .v 3, false, true, false⟩) ∧
    decode 0x3C7020140C070001 = .ok (.fdp4 ⟨⟨false, 7⟩, .v 4, .v 5, .v 6, .v 7, true, false⟩) ∧
    decode 0x3D7020140C070001 = .ok (.fdp2 ⟨⟨false, 7⟩, .v 4, .v 5, .v 6, .v 7, true⟩) := by decide +kernel

/-- Words of the group `paired`. -/
theorem test_decode_paired :
    decode 0xA00A040004180108 = .ok (.pairedWord ⟨.fadd, .v 5, .v 4, false, 0⟩ ⟨.iadd, .v 6, .v 0, true, 4⟩) ∧
    decode 0xB00A080300000000 = .ok (.pairedWord ⟨.lds, .v 5, .v 8, false, 3⟩ ⟨.nop, .v 0, .v 0, false, 0⟩) ∧
    decode 0x9F06060090241400 = .ok (.pairedWord ⟨.mov, .chan 3 false, .v 6, false, 0⟩ ⟨.frcp, .v 9, .v 10, false, 0⟩) := by decide +kernel

/-- Words of the group `lanes`. -/
theorem test_decode_lanes :
    decode 0x407008080600000E = .ok (.shfl ⟨⟨false, 7⟩, .v 1, .v 2, .v 3, .down, 3⟩) ∧
    decode 0x41700800000A0000 = .ok (.vote ⟨⟨false, 7⟩, .ballot (.v 1), 2, true⟩) ∧
    decode 0x4170200000020003 = .ok (.vote ⟨⟨false, 7⟩, .pred .uni 4, 2, false⟩) ∧
    decode 0x4270081000000001 = .ok (.matchLanes ⟨⟨false, 7⟩, .v 1, .v 4, true⟩) ∧
    decode 0x4370101000000021 = .ok (.cred ⟨⟨false, 7⟩, .v 2, .v 4, .min, .n64, false⟩) ∧
    decode 0x4470101000000050 = .ok (.cscan ⟨⟨false, 7⟩, .v 2, .v 4, .add, .f32, true⟩) ∧
    decode 0x4570000000000000 = .ok (.lser) ∧
    decode 0x4670000000000000 = .ok (.lsend) ∧
    decode 0x4750180000000001 = .ok (.actm ⟨⟨false, 5⟩, .v 3, true⟩) ∧
    decode 0x7070281984C30000 = .ok (.xdec ⟨⟨false, 7⟩, .v 5, .v 6, .s 2, .s 3⟩) ∧
    decode 0x7170281800000000 = .ok (.xbmp ⟨⟨false, 7⟩, .v 5, .v 6⟩) := by decide +kernel

/-- Words of the group `control`. -/
theorem test_decode_control :
    decode 0x48100003FFFFFFF4 = .ok (.bra ⟨false, 1⟩ 0xFFFFFFFA) ∧
    decode 0x4810000800008007 = .ok (.braT ⟨false, 1⟩ 3 2) ∧
    decode 0x4970001400000000 = .ok (.brx ⟨false, 7⟩ (.v 5)) ∧
    decode 0x4A76200000008020 = .ok (.call ⟨false, 7⟩ (.s 4) 16) ∧
    decode 0x4B76231800000000 = .ok (.callx ⟨false, 7⟩ (.s 4) (.s 6)) ∧
    decode 0x4C20001800000000 = .ok (.ret ⟨false, 2⟩ (.v 6)) ∧
    decode 0x4D7000000000800C = .ok (.join 6) ∧
    decode 0x4E70000000000000 = .ok (.exit ⟨false, 7⟩) ∧
    decode 0x4F7000000000A468 = .ok (.trap ⟨false, 7⟩ 0x1234) ∧
    decode 0x507000000000800E = .ok (.chkpt 7) ∧
    decode 0x5170000000000000 = .ok (.yieldSlot ⟨false, 7⟩) ∧
    decode 0x52700000000080C8 = .ok (.sleep (.imm 100)) ∧
    decode 0x53F0000000000000 = .ok (.nop ⟨true, 7⟩) := by decide +kernel

/-- Words of the group `memory`. -/
theorem test_decode_memory :
    decode 0x547020080C000202 = .ok (.ld ⟨⟨false, 7⟩, .v 4, .v 2, .v 6, .b32, false, 0, true, .dev⟩) ∧
    decode 0x557020080C002203 = .ok (.st ⟨⟨false, 7⟩, .v 4, .v 2, .v 6, .b64, false, 0, true, .sys⟩) ∧
    decode 0x5670180800008000 = .ok (.lds ⟨⟨false, 7⟩, .v 3, .v 2, .imm 0, .b32, false, 0, false, .dev⟩) ∧
    decode 0x5770200DE0000004 = .ok (.sts ⟨⟨false, 7⟩, .v 4, .v 3, .zero, .b128, false, 0, false, .dev⟩) ∧
    decode 0x587020080C000050 = .ok (.ldro ⟨⟨false, 7⟩, .v 4, .v 2, .v 6, .b8, false, 5, false, .dev⟩) ∧
    decode 0x5970800004000004 = .ok (.ldsp ⟨⟨false, 7⟩, .v 16, .v 0, .v 2, .b128, false, 0, false, .dev⟩ 0) ∧
    decode 0x5A7020080C070797 = .ok (.atom ⟨⟨false, 7⟩, .v 4, .v 2, .v 6, .v 7, .cas, .n32, ⟨true, true⟩, .flt⟩) ∧
    decode 0x5B7000080C000542 = .ok (.red ⟨⟨false, 7⟩, .v 2, .v 6, .max, .f32, true, .blk⟩) ∧
    decode 0x5C70000000000800 = .ok (.fence .sys) ∧
    decode 0x5C70000000000001 = .ok (.fenceRo) ∧
    decode 0x5D7000080C000001 = .ok (.pref ⟨⟨false, 7⟩, .v 2, .v 6, true⟩) ∧
    decode 0x5E70030988000200 = .ok (.cwb (.s 2) (.s 4) .crew) ∧
    decode 0x5F70030800008200 = .ok (.cinv (.s 2) (.imm 256) .dev) := by decide +kernel

/-- Words of the group `mooring_barrier`. -/
theorem test_decode_mooring_barrier :
    decode 0x6076230000000000 = .ok (.moor (.s 4) (.s 0)) ∧
    decode 0x6176200000008007 = .ok (.unmoor (.s 4) (.imm 3) true) ∧
    decode 0x627623158C000000 = .ok (.mwb (.s 4) (.s 5) (.s 6)) ∧
    decode 0x6370201400000000 = .ok (.mqry ⟨⟨false, 7⟩, .v 4, .v 5⟩) ∧
    decode 0x6C700331E0CD0000 = .ok (.binit (.s 12) .zero (some (.s 13))) ∧
    decode 0x6D76130000008002 = .ok (.barv (.s 2) (.s 0) (.imm 1)) ∧
    decode 0x6E702B0400000000 = .ok (.bpar 5 (.s 1)) ∧
    decode 0x6F700B319ECE0000 = .ok (.waitBar 1 (.s 12) (.s 15) (some (.s 14))) ∧
    decode 0x6F7013319E000001 = .ok (.waitBmp 2 (.s 12) (.s 15) none) ∧
    decode 0x6F70380000C30026 = .ok (.waitAc 7 9 (some (.s 3))) ∧
    decode 0x6F703B018C000003 = .ok (.waitTl 7 (.s 0) (.s 6) none) := by decide +kernel

/-- Words of the group `engines`. -/
theorem test_decode_engines :
    decode 0x6476100808C30006 = .ok (.cpy ⟨⟨false, 7⟩, .s 2, .v 2, .v 4, 2, some (.s 3)⟩) ∧
    decode 0x657623C000000000 = .ok (.cpyt (.s 4) .zero) ∧
    decode 0x6676231400000000 = .ok (.cpyq (.s 4) (.s 5)) ∧
    decode 0x67760B0808000003 = .ok (.send ⟨⟨false, 7⟩, .s 1, .s 2, .v 4, 3⟩) ∧
    decode 0x6877830808000001 = .ok (.mcast ⟨⟨false, 7⟩, .zero, .s 2, .v 4, 1⟩) ∧
    decode 0x697653C000000001 = .ok (.redpArm (.s 10) .zero 0) ∧
    decode 0x697650100000000C = .ok (.redpContribute (.s 10) (.v 4) 3) ∧
    decode 0x6A7000100000000F = .ok (.remit ⟨false, 7⟩ 15 (.v 4)) ∧
    decode 0x6B70000000000000 = .ok (.radv) := by decide +kernel

/-- Words of the group `system`. -/
theorem test_decode_system :
    decode 0x7C76200000000000 = .ok (.movspr ⟨false, 7⟩ (.s 4) .fstat) ∧
    decode 0x7C70200000000023 = .ok (.movspr ⟨false, 7⟩ (.v 4) (.rrcfg 3)) ∧
    decode 0x7C7003100000101F = .ok (.wrspr (.chb 15) (.s 4)) ∧
    decode 0x7D70032588000001 = .ok (.tlinc (.s 9) (.s 4) true) ∧
    decode 0x7D70331000001000 = .ok (.gettl ⟨false, 7⟩ (.v 6) (.s 4) false) ∧
    decode 0x7E70000000000ABC = .ok (.bkpt ⟨false, 7⟩ 0xABC) ∧
    decode 0x7E70030C00001000 = .ok (.resphase (.s 3)) := by decide +kernel

/-- Words of the group `matrix`. -/
theorem test_decode_matrix :
    decode 0x7270030986000003 = .ok (.mldw (.s 2) (.s 3) .i4) ∧
    decode 0x7376400000000000 = .ok (.mswap (.s 8)) ∧
    decode 0x7370000190001000 = .ok (.mlut 8) ∧
    decode 0x7370000000002005 = .ok (.mzero ⟨false, 7⟩ 5) ∧
    decode 0x74700030000000D2 = .ok (.mma ⟨⟨false, 7⟩, .v 12, 2, .bf16, true, true⟩) ∧
    decode 0x75704000000005E3 = .ok (.mrd ⟨⟨false, 7⟩, .v 8, 3, 60, 2⟩) ∧
    decode 0x767003118AC6005A = .ok (.mst ⟨⟨false, 7⟩, .s 4, .s 5, some (.s 6), 2, true, true, .bf16⟩) ∧
    decode 0x7777800000000000 = .ok (.mfence .zero) := by decide +kernel

/-- Words of the group `capsule_tape`. -/
theorem test_decode_capsule_tape :
    decode 0x787028080C080FFD = .ok (.capenter ⟨.v 5, .v 2, .v 6, .v 8, 0xFFD⟩) ∧
    decode 0x7870280800001000 = .ok (.capadopt (.v 5) (.v 2)) ∧
    decode 0x7870401800002000 = .ok (.capstat (.v 8) (.v 6)) ∧
    decode 0x7970000000000001 = .ok (.capstep 1) ∧
    decode 0x7970000000001000 = .ok (.capexit) ∧
    decode 0x7970000000002000 = .ok (.capabort) ∧
    decode 0x7A70000000000000 = .ok (.tbindNew) ∧
    decode 0x7A70031800000001 = .ok (.tbindAt (.s 6)) ∧
    decode 0x7A78180000000016 = .ok (.tbindCh 3 5) ∧
    decode 0x7A70002400001105 = .ok (.trec ⟨⟨false, 7⟩, .v 9, 5, true⟩) ∧
    decode 0x7A70030C00002009 = .ok (.tmark 9 (.s 3)) ∧
    decode 0x7B70480000000509 = .ok (.tback ⟨⟨false, 7⟩, .v 9, .mark, 9, true⟩) ∧
    decode 0x7B70080000001102 = .ok (.tbpop ⟨⟨false, 7⟩, 1, 2, true⟩) ∧
    decode 0x7B76200000002001 = .ok (.tstat ⟨false, 7⟩ (.s 4) .next) := by decide +kernel

/-- Words that no table gives: the unassigned majors, a reserved FUNC bit, a reserved operand, a misaligned pair. -/
theorem test_decode_refuses :
    decode 0 = .illop ∧ decode 0x3E70000000000000 = .illop ∧ decode 0x7F70000000000000 = .illop ∧
    decode 0x0170300806000008 = .illop ∧ decode 0x0170300BE8000000 = .illop ∧ decode 0x0470280806000002 = .illop ∧
    decode 0x7370000000003000 = .illop ∧ decode 0x8000000000000001 = .illop := by decide +kernel

/-- R133: two v destinations of one bank, and two channel halves. -/
theorem test_decode_illpair :
    decode 0xA00A040004240108 = .illpair ∧ decode (encode (.pairedWord ⟨.mov, .chan 3 false, .v 6, false, 0⟩
      ⟨.mov, .v 1, .chan 2 false, false, 0⟩)) = .illpair := by decide +kernel

/-! ## Terms that are not well formed, one for each check -/

def g7 : Guard := ⟨false, 7⟩
def none7 : Guard := ⟨true, 7⟩
def plainMods : FMods := ⟨false, false, false, false, false⟩

/-- A step of the device is no word; a place that admits no such name; an s destination with a per-lane source; a field
value that no table lists. -/
theorem test_ill_formed :
    (Instr.rstreq).wf = false ∧
    (Instr.iadd ⟨g7, .lane, .v 2, .v 3, .i32, false⟩).wf = false ∧
    (Instr.iadd ⟨g7, .v 1, .v 200, .v 3, .i32, false⟩).wf = false ∧
    (Instr.iadd ⟨g7, .v 3, .v 2, .v 4, .i64, false⟩).wf = false ∧
    (Instr.iadd ⟨g7, .s 1, .v 2, .s 3, .i32, false⟩).wf = false ∧
    (Instr.iadd ⟨⟨false, 1⟩, .s 1, .s 2, .s 3, .i32, false⟩).wf = false ∧
    (Instr.imul ⟨g7, .v 1, .v 2, .v 3, .i32, true⟩).wf = false ∧
    (Instr.lea ⟨g7, .v 1, .v 2, .v 3, 0, false, true⟩).wf = false := by decide +kernel

/-- The same terms put right are well formed. -/
theorem test_well_formed :
    (Instr.iadd ⟨g7, .v 1, .v 2, .v 3, .i32, false⟩).wf = true ∧
    (Instr.iadd ⟨g7, .v 2, .v 2, .v 4, .i64, false⟩).wf = true ∧
    (Instr.iadd ⟨g7, .s 1, .s 2, .s 3, .i32, false⟩).wf = true ∧
    (Instr.imul ⟨g7, .v 1, .v 2, .v 3, .i32, false⟩).wf = true ∧
    (Instr.lea ⟨g7, .v 2, .v 2, .v 3, 0, true, true⟩).wf = true := by decide +kernel

/-! ## How the witnesses are shown -/

/-- The placed block about to issue `i`, its crew changed by `f`. -/
def ready (i : Instr) (f : Crew → Crew) : State :=
  updCrew (issuing (State.reset.withFetchWord 64 (encode i).toNat) ⟨0, 0, 0⟩) 0 0 f

/-- Register v`k` holds `x` in every lane. -/
def setV (k x : Nat) (y : Crew) : Crew := putDst y false (.v k) 1 (BitVec.allOnes 32) fun _ => x

/-- Register s`k` holds `x`. -/
def setS (k x : Nat) (y : Crew) : Crew := putDst y false (.s k) 1 (BitVec.allOnes 32) fun _ => x

/-- The pair s`k`, s`k + 1` holds `x`. -/
def setS2 (k x : Nat) (y : Crew) : Crew := putDst y false (.s k) 2 (BitVec.allOnes 32) fun _ => x

/-- The pair v`k`, v`k + 1` holds `x` in every lane. -/
def setV2 (k x : Nat) (y : Crew) : Crew := putDst y false (.v k) 2 (BitVec.allOnes 32) fun _ => x

/-- Predicate p`k` holds the mask. -/
def setP (k : Nat) (m : Mask) (y : Crew) : Crew := { y with p := y.p.put k m }

/-- `i` issues in `s` with every check passed, and `p` holds there. -/
def meets (i : Instr) (s : State) (p : Here → Bool) : Bool :=
  match here s with
  | none => false
  | some g => decide (wordFate { g with act := wordLanes g i } i = .go) && p { g with act := wordLanes g i }

theorem meets_passes {i : Instr} {s : State} {p : Here → Bool} (h : meets i s p = true) :
    ∃ x, passes i s x ∧ p x = true := by
  unfold meets at h
  split at h
  · cases h
  · rename_i g hg
    have h2 := Bool.and_eq_true_iff.mp h
    exact ⟨_, ⟨⟨g, hg, rfl⟩, of_decide_eq_true h2.1⟩, h2.2⟩

/-- The effects run to their end from `s`, with what `k` holds of. -/
def ends {α : Type} (x : Exec α) (s : State) (k : α → State → Bool) : Bool :=
  match x.run s with
  | .ok (a, t) => k a t
  | .error _ => false

theorem ends_runs {α : Type} {x : Exec α} {s : State} {k : α → State → Bool} (h : ends x s k = true) :
    ∃ a t, runs x s a t ∧ k a t = true := by
  unfold ends at h
  split at h
  · rename_i a t he
    exact ⟨a, t, he, h⟩
  · cases h

/-- They run to their end. -/
def done {α : Type} (x : Exec α) (s : State) : Bool := ends x s fun _ _ => true

/-- The placed block about to issue `i`: every check passes and `p` holds. -/
def witness (i : Instr) (f : Crew → Crew) (p : State → Here → Bool) : Bool := meets i (ready i f) (p (ready i f))

/-! ## Witnesses: the words

For each clause of a statement a concrete state and operands that meet all its hypotheses together. -/

/-- The crew as it is placed. -/
def asIs (y : Crew) : Crew := y

def lanesShown (i : Instr) (f : Crew → Crew) (p : Nat → Bool) : Bool :=
  witness i f fun s h =>
    match laneShape i with
    | none => false
    | some w => p (laneMask h w).toNat && ((laneMask h w).toNat == 0 || done (readSrcsE h (laneMask h w) w.srcs) s)

/-- Every word that computes lane by lane. -/
def laneTerms (g : Guard) : List Instr :=
  [.iadd ⟨g, .v 4, .v 8, .imm 1, .i32, true⟩, .isub ⟨g, .v 4, .v 8, .v 12, .n64, true⟩, .imul ⟨g, .v 4, .v 8, .v 12, .n32, false⟩,
   .imulhi ⟨g, .v 4, .v 8, .v 12, .i64, false⟩, .imad ⟨g, .v 4, .v 8, .v 12, .v 16, .i32⟩,
   .imadw ⟨g, .v 4, .v 8, .v 12, .v 16, .n32⟩, .imin ⟨g, .v 4, .v 8, .v 12, .i32, false⟩,
   .imax ⟨g, .v 4, .v 8, .v 12, .i32, false⟩, .iabs ⟨g, .v 4, .v 8, .i32, true⟩, .and ⟨g, .v 4, .v 8, .v 12, false⟩,
   .or ⟨g, .v 4, .v 8, .v 12, true⟩, .xor ⟨g, .v 4, .v 8, .v 12, false⟩, .andn ⟨g, .v 4, .v 8, .v 12, false⟩,
   .orn ⟨g, .v 4, .v 8, .v 12, false⟩, .shl ⟨g, .v 4, .v 8, .v 12, false⟩, .shr ⟨g, .v 4, .v 8, .v 12, true⟩,
   .sar ⟨g, .v 4, .v 8, .v 12, false⟩, .rotl ⟨g, .v 4, .v 8, .v 12, false⟩, .fshf ⟨g, .v 4, .v 8, .v 12, .v 16, true⟩,
   .bfx ⟨g, .v 4, .v 8, .v 12, true⟩, .bfi ⟨g, .v 4, .v 8, .v 12, .v 16⟩, .popc ⟨g, .v 4, .v 8⟩, .clz ⟨g, .v 4, .v 8⟩,
   .ctz ⟨g, .v 4, .v 8⟩, .brev ⟨g, .v 4, .v 8⟩, .prmt ⟨g, .v 4, .v 8, .v 12, .v 16⟩, .prmt ⟨g, .v 4, .v 8, .imm 0x123, .v 0⟩,
   .lea ⟨g, .v 4, .v 8, .v 12, 3, true, false⟩, .sel ⟨g, .v 4, .v 8, .v 12, 2, true⟩, .mov ⟨g, .v 4, .lane, false⟩,
   .fadd ⟨g, .v 4, .v 8, .v 12, plainMods⟩, .fsub ⟨g, .v 4, .v 8, .v 12, plainMods⟩, .fmul ⟨g, .v 4, .v 8, .v 12, plainMods⟩,
   .ffma ⟨g, .v 4, .v 8, .v 12, .v 16, plainMods⟩, .fmin ⟨g, .v 4, .v 8, .v 12, plainMods⟩,
   .fmax ⟨g, .v 4, .v 8, .v 12, plainMods⟩, .fclass ⟨g, .v 4, .v 8⟩, .frcp ⟨g, .v 4, .v 8, false, false⟩,
   .frsq ⟨g, .v 4, .v 8, false, false⟩, .fsqrt ⟨g, .v 4, .v 8, false, false⟩, .fex2 ⟨g, .v 4, .v 8, true, false⟩,
   .flg2 ⟨g, .v 4, .v 8, false, false⟩, .fsin ⟨g, .v 4, .v 8, false, false⟩, .fcos ⟨g, .v 4, .v 8, false, false⟩,
   .ftanh ⟨g, .v 4, .v 8, false, true⟩, .hadd2 ⟨g, .v 4, .v 8, .v 12, plainMods, true⟩,
   .hmul2 ⟨g, .v 4, .v 8, .v 12, plainMods, false⟩, .hfma2 ⟨g, .v 4, .v 8, .v 12, .v 16, plainMods, false⟩,
   .hmnmx2 ⟨g, .v 4, .v 8, .v 12, plainMods, false, true⟩, .cvt ⟨g, .v 4, .v 8, .i64, .f32, true, 0⟩,
   .cvtq ⟨g, .v 4, .v 8, none, .qf8⟩, .cvtq ⟨g, .v 4, .v 8, some (.s 3), .qf4⟩, .cvtdq ⟨g, .v 4, .v 8, .qi4, .f32⟩,
   .pack ⟨g, .v 4, .v 8, .v 12, 3, .w8, .sats⟩, .unpk ⟨g, .v 4, .v 8, 1, .w16, true⟩, .lutx ⟨g, .v 4, .v 8, 0, true, false⟩,
   .idp4 ⟨g, .v 4, .v 8, .v 12, .v 16, true, false, true⟩, .idp8 ⟨g, .v 4, .v 8, .v 12, .v 16, false, true, false⟩,
   .fdp4 ⟨g, .v 4, .v 8, .v 12, .v 16, true, false⟩, .fdp2 ⟨g, .v 4, .v 8, .v 12, .v 16, true⟩]

/-- LaneWordsComplete, IntegerResults, BitFieldResults, FloatResults, ApproximateResults, ConversionResults, LaneWordFrame: with all
lanes and with none. -/
theorem test_meets_lane_words :
    (laneTerms g7).all (fun i => lanesShown i asIs fun m => m == 0xFFFFFFFF) = true ∧
    (laneTerms none7).all (fun i => lanesShown i asIs fun m => m == 0) = true := by decide +kernel

/-- The same for an s destination, an operand that discards, and a channel that holds an element. -/
theorem test_meets_lane_forms :
    lanesShown (.iadd ⟨g7, .s 47, .s 2, .imm 3, .i32, false⟩) asIs (fun m => m != 0) = true ∧
    lanesShown (.or ⟨g7, .zero, .v 8, .v 191, false⟩) asIs (fun m => m != 0) = true ∧
    lanesShown (.mov ⟨g7, .chan 4 false, .chan 4 false, false⟩)
      (fun y => { y with chans := [(4, ⟨4, 0, 0, [[5]]⟩)] }) (fun m => m != 0) = true := by decide +kernel

def srcsShown (i : Instr) (g : Guard) (os : List (Opnd × Nat)) : Bool :=
  witness i asIs fun s h => activeMask h g == 0 || done (readSrcsE h (activeMask h g) os) s

/-- PredicateWordsComplete, with all lanes and with none. -/
theorem test_meets_predicate_words :
    [g7, none7].all (fun g =>
      srcsShown (.isetp ⟨g, 3, .v 4, .v 5, .lt, .i32, some (1, 4)⟩) g [(.v 4, 1), (.v 5, 1)] &&
      srcsShown (.fsetp ⟨g, 3, .v 4, .v 5, plainMods, .le, none⟩) g [(.v 4, 1), (.v 5, 1)] &&
      srcsShown (.iaddc ⟨g, .v 1, .v 4, .v 5, some (2, true), 3⟩) g [(.v 4, 1), (.v 5, 1)]) = true := by decide +kernel

/-- CrossLaneWordsComplete: every word of it, and MQRY at the last byte of the stash. -/
theorem test_meets_cross_lane_words :
    [g7, none7, ⟨false, 1⟩].all (fun g =>
      [Instr.shfl ⟨g, .v 1, .v 2, .v 3, .xor, 2⟩, .vote ⟨g, .ballot (.v 1), 2, true⟩, .vote ⟨g, .pred .all 1, 2, false⟩,
       .matchLanes ⟨g, .v 2, .v 4, true⟩, .cred ⟨g, .v 2, .v 4, .add, .f32, false⟩, .cscan ⟨g, .v 2, .v 4, .max, .n64, true⟩,
       .actm ⟨g, .v 2, true⟩, .xdec ⟨g, .v 5, .v 6, .s 2, .s 3⟩, .xbmp ⟨g, .v 5, .v 6⟩].all
        fun i => witness i (setP 1 0xFF00) fun _ _ => true) = true ∧
    witness (.mqry ⟨g7, .v 4, .v 5⟩) (setV 5 0xFFFFF) (fun s h =>
      (lanesOf (activeMask h g7)).all fun l => srcNum s h (.v 5) 1 l < h.blk.kern.stash) = true := by decide +kernel

/-- PairedWordCompletes: arithmetic, a stash word, a channel push and a half that does nothing. -/
theorem test_meets_paired :
    [(⟨.fadd, .v 5, .v 4, false, 0⟩, ⟨.iadd, .v 6, .v 0, true, 4⟩), (⟨.lds, .v 5, .v 8, false, 3⟩, ⟨.frcp, .v 7, .v 10, false, 0⟩),
     (⟨.mov, .chan 4 false, .v 6, false, 0⟩, ⟨.sts, .v 9, .v 10, false, 1⟩), (⟨.nop, .v 0, .v 0, false, 0⟩, ⟨.sel, .v 9, .v 10, false, 2⟩)].all
      (fun p : Half × Half => witness (.pairedWord p.1 p.2) (fun y => { y with chans := [(4, ⟨4, 0, 0, []⟩)] })
        fun s h => done (halvesE h (hMask h) p.1 p.2) s) = true := by decide +kernel

/-- A stream of the tape bound at the placed page. -/
def bound (y : Crew) : Crew :=
  { y with tape := { y.tape with bind := .at, desc := ⟨0x10000000, 4, 0, 0, 0, 0⟩, top := 0x10000800 } }

/-- The crew is in handler mode. -/
def handling (y : Crew) : Crew := { y with handler := some ⟨0, .trap, BitVec.allOnes 32, false, 0, 0, none, []⟩ }

/-- TransfersComplete: no lane, some lanes and all lanes taken; both slots busy; the return from the handler. -/
theorem test_meets_transfers :
    [none7, ⟨false, 1⟩, g7].all (fun g =>
      witness (.bra g 0xFFFFFFFA) (setP 1 3) (fun _ h => decide (mayTransfer h (activeMask h g))) &&
      witness (.braT g 3 2) (fun y => bound (setP 1 3 y)) (fun s h => decide (mayTransfer h (activeMask h g)) &&
        ends (tapeFlagE h) s fun _ s1 => ends (needTapeE h) s1 fun _ s2 => done (branchRecordE h 2 (activeMask h g)) s2) &&
      witness (.brx g (.v 5)) (setP 1 3) (fun s h => decide (mayTransfer h (sameTarget (activeMask h g)
        fun l => relTarget h (BitVec.ofNat 32 (srcNum s h (.v 5) 1 l))))) &&
      witness (.call g (.v 4) 16) (setP 1 3) (fun _ h => decide (mayTransfer h (activeMask h g))) &&
      witness (.callx g (.v 4) (.v 6)) (setP 1 3) (fun s h => decide (mayTransfer h (sameTarget (activeMask h g)
        fun l => BitVec.ofNat 64 (srcNum s h (.v 6) 2 l)))) &&
      witness (.ret g (.v 6)) (setP 1 3) (fun s h => decide (mayTransfer h (sameTarget (activeMask h g)
        fun l => BitVec.ofNat 64 (srcNum s h (.v 6) 2 l))))) = true ∧
    witness (.bra ⟨false, 1⟩ 4) (fun y => { setP 1 3 y with slot1 := { y.slot1 with mask := 1, st := .ready } })
      (fun _ h => decide (mayTransfer h (activeMask h ⟨false, 1⟩))) = true ∧
    witness (.ret g7 (.s 6)) handling (fun s h => h.crew.handler.isSome && decide (mayTransfer h (sameTarget (activeMask h g7)
      fun l => BitVec.ofNat 64 (srcNum s h (.s 6) 2 l)))) = true := by decide +kernel

/-- A crew with one region open, its points one short of the limit. -/
def inRegion (y : Crew) : Crew :=
  { y with slot0 := { y.slot0 with region := some ⟨3, 3, 0x10000000⟩, mask := 1 },
           joins := List.replicate (Config.stackDepth - 1) ⟨0x10000040, 1, []⟩ }

/-- PathWordsComplete: the last point that fits, a region and its end, lanes that end, the last lanes of the crew. -/
theorem test_meets_path_words :
    witness (.join 6) (fun y => { inRegion y with slot0 := y.slot0 }) (fun _ h => h.crew.handler.isNone && (hSlot h).region.isNone &&
      h.crew.joins.length == Config.stackDepth - 1) = true ∧
    witness .lser asIs (fun _ h => h.crew.handler.isNone && (hSlot h).region.isNone) = true ∧
    witness .lsend inRegion (fun s h => (hSlot h).region.isSome && !outstanding s h.b h.c (hMask h)) = true ∧
    witness (.exit none7) asIs (fun _ h => (hSlot h).region.isNone && activeMask h none7 == 0) = true ∧
    [⟨false, 1⟩, g7].all (fun g => witness (.exit g) (setP 1 3) fun s h => (hSlot h).region.isNone && activeMask h g != 0 &&
      (activeMask h g == hMask h) == (g == g7) && ends (orphansE h (activeMask h g)) s fun _ s1 =>
        done (if crewDone (exitLanes h.crew h.k (activeMask h g)) then leaveStreamE h else pure ()) s1) = true := by
  decide +kernel

/-- IdleWordsComplete, with lanes and without. -/
theorem test_meets_idle_words :
    [Instr.nop g7, .nop none7, .yieldSlot g7, .yieldSlot none7, .sleep (.imm 0), .sleep (.imm 100), .sleep (.s 3), .chkpt 7,
     .bkpt g7 5, .bkpt none7 5].all (fun i => witness i asIs fun _ _ => true) = true ∧
    meets (.chkpt 7) (updBlock (ready (.chkpt 7) asIs) 0 fun b => { b with chkptTill := some 100 })
      (fun h => h.blk.chkptTill.isSome) = true ∧
    meets (.bkpt g7 5) { ready (.bkpt g7 5) asIs with regs := { State.reset.regs with dbgctl := 2 ^ 27 } }
      (fun h => bkptOn { ready (.bkpt g7 5) asIs with regs := { State.reset.regs with dbgctl := 2 ^ 27 } } (ctxOf State.reset h.blk) &&
        activeMask h g7 != 0) = true := by decide +kernel

/-! ### Memory -/

/-- v8, v9 address the placed page beyond its word; v12 an offset of 0; v16 the last word of the stash. -/
def addressed (y : Crew) : Crew := setV2 8 0x10000800 (setV 16 0xFFFFC (setP 1 0xF0 y))

def rec40 : MemOp := ⟨g7, .v 4, .v 8, .v 12, .b8, false, 1, false, .dev⟩

/-- A buffer record of 16 f32 elements of the page at index 1 of the launch's table at 0x1000_0400. -/
def withRec (s : State) : State :=
  writePlace { s with launches := s.launches.map fun e => (e.1, { e.2 with bufs := 0x10000400 }) } (.dev 0x10000428)
    (leBytes 40 (0x10000800 + 64 * 2 ^ 64 + 4 * 2 ^ 224))

/-- What `anyTimeE` answers, with its free choice made. -/
def timeIs {α : Type} (b : Bool) (ps : List α) : Exec Bool :=
  if ps.isEmpty then pure false else fun s => .ok (b, (freeChoice s 2).2)

theorem timeIs_choice {α : Type} (ps : List α) (s : State) :
    (anyTimeE ps).run s = (timeIs ((freeChoice s 2).1 == 1) ps).run s := by
  unfold anyTimeE timeIs; split <;> rfl

/-- A load's needs are met whichever way its free choice falls. -/
theorem needs_anyTime (h : Here) (x : MemOp) (md : LoadMode) (m : Mask) (s : State) :
    ∃ b, (loadNeeds h x md m anyTimeE).run s = (loadNeeds h x md m (timeIs b)).run s := by
  unfold loadNeeds gatherE
  rw [run_bind]
  cases h1 : (bufNeeds h x false).run s with
  | error u => exact ⟨true, by rw [run_bind, h1]⟩
  | ok p =>
    obtain ⟨b, s1⟩ := p
    cases h2 : (loadVasE h x b m).run s1 with
    | error u => exact ⟨true, by rw [run_bind_ok h1]; simp only [run_bind, h2]⟩
    | ok p =>
      obtain ⟨vs, s2⟩ := p
      cases h3 : (vs.mapM fun p => splitLaneE h x.d m md p.1 p.2 (accBytes x b)).run s2 with
      | error u => exact ⟨true, by rw [run_bind_ok h1]; simp only [run_bind, h2, h3]⟩
      | ok p =>
        obtain ⟨ps, s3⟩ := p
        refine ⟨(freeChoice s3 2).1 == 1, ?_⟩
        rw [run_bind_ok h1]
        simp only [run_bind, h2, h3, timeIs_choice]

/-- A load's needs are met: in the end its bytes are there, or they are to be read later. -/
def loadDone (h : Here) (x : MemOp) (md : LoadMode) (s : State) : Bool :=
  [true, false].all fun b => done (loadNeeds h x md (activeMask h x.g) (timeIs b)) s

theorem loadDone_runs {h : Here} {x : MemOp} {md : LoadMode} {s : State} (hd : loadDone h x md s = true) :
    done (loadNeeds h x md (activeMask h x.g) anyTimeE) s = true := by
  obtain ⟨b, hb⟩ := needs_anyTime h x md (activeMask h x.g) s
  have hh := List.all_eq_true.mp hd b (by cases b <;> simp)
  unfold done ends at *
  rw [hb]; exact hh

def loadShown (i : Instr) (x : MemOp) (md : LoadMode) (s : State) : Bool :=
  meets i s fun h => activeMask h x.g == 0 || loadDone h x md s

/-- What an `LDS` needs, with its free choice made. -/
def stashTimed (b : Bool) (h : Here) (x : MemOp) (m : Mask) : Exec (Option BufRec × Gather) := do
  let n := sizeBytes x.sz
  let s ← getE
  let ps ← (accessLanes x.d m).mapM fun l => do
    let p ← stashE h (.loc (localOff s h x l)) (localOff s h x l) n false (Machine.laneMask x.d m l)
    pure (l, p)
  let xs := ps.flatMap fun q => stashPieces q.2 x.d m q.1 (localOff s h x q.1) n
  if ← timeIs b xs then pure (none, ⟨xs, []⟩)
  else do
    let bs ← ps.mapM fun q => do
      let d ← stashReadE h (Machine.laneMask x.d m q.1) .plain n q.2
      pure (q.1, d)
    pure (none, ⟨[], bs⟩)

/-- An `LDS` has what it needs whichever way its free choice falls. -/
theorem stashTimed_runs {h : Here} {x : MemOp} {m : Mask} {s : State}
    (hd : ([true, false].all fun b => done (stashTimed b h x m) s) = true) : done (stashNeeds h x m) s = true := by
  have hb : ∃ b, (stashNeeds h x m).run s = (stashTimed b h x m).run s := by
    unfold stashNeeds gatherStashE stashTimed
    simp only [run_bind, run_getE]
    cases h1 : ((accessLanes x.d m).mapM fun l => do
      let p ← stashE h (.loc (localOff s h x l)) (localOff s h x l) (sizeBytes x.sz) false (Machine.laneMask x.d m l)
      pure (l, p)).run s with
    | error u => exact ⟨true, rfl⟩
    | ok p =>
      refine ⟨(freeChoice p.2 2).1 == 1, ?_⟩
      simp only [timeIs_choice]
      cases (timeIs ((freeChoice p.2 2).1 == 1)
        (p.1.flatMap fun q => stashPieces q.2 x.d m q.1 (localOff s h x q.1) (sizeBytes x.sz))).run p.2 with
      | error u => rfl
      | ok r =>
        obtain ⟨a, t⟩ := r
        cases a
        · simp only [Bool.false_eq_true, if_false, run_bind]
          split
          · rename_i heq
            split at heq
            · cases heq; rfl
            · cases heq
          · rename_i heq
            split at heq
            · cases heq
            · cases heq; rfl
        · rfl
  obtain ⟨b, hb⟩ := hb
  have hh := List.all_eq_true.mp hd b (by cases b <;> simp)
  unfold done ends at *
  rw [hb]; exact hh

def raw (g : Guard) (sz : Size) (sem : Bool) : MemOp := ⟨g, .v 4, .v 8, .v 12, sz, false, 0, sem, .dev⟩

def local' (g : Guard) (sz : Size) : MemOp := ⟨g, .v 4, .v 16, .zero, sz, false, 0, false, .dev⟩

/-- LoadStoreWordsComplete, loads: global, local at the stash's last word, through a buffer record, with no lane. -/
theorem test_meets_loads :
    [g7, none7, ⟨false, 1⟩].all (fun g =>
      loadShown (.ld (raw g .b32 true)) (raw g .b32 true) (.acq .dev) (ready (.ld (raw g .b32 true)) addressed) &&
      loadShown (.ld (raw g .b128 false)) (raw g .b128 false) .plain (ready (.ld (raw g .b128 false)) addressed) &&
      loadShown (.ldro (raw g .b8 false)) (raw g .b8 false) .ro (ready (.ldro (raw g .b8 false)) addressed) &&
      witness (.lds (local' g .b32)) addressed (fun s h => activeMask h g == 0 ||
        [true, false].all fun b => done (stashTimed b h (local' g .b32) (activeMask h g)) s) &&
      witness (.ldsp (raw g .b32 false) 3) addressed (fun s h => activeMask h g == 0 || (decide ((acOf h.crew 3).iss < 255) &&
        done (loadNeeds h (raw g .b32 false) .plain (activeMask h g) fun ps => pure (!ps.isEmpty)) s))) = true ∧
    meets (.ld rec40) (withRec (ready (.ld rec40) (setV2 8 15)))
      (fun h => ends (bufNeeds h rec40 false) (withRec (ready (.ld rec40) (setV2 8 15))) fun b _ => b.isSome) = true ∧
    loadShown (.ld rec40) rec40 .plain (withRec (ready (.ld rec40) (setV2 8 15))) = true ∧
    witness (.ldsp (raw g7 .b32 false) 3) (fun y => { addressed y with acs := [(3, ⟨254, 0, []⟩)] })
      (fun _ h => decide ((acOf h.crew 3).iss < 255)) = true := by decide +kernel

def storeShown (x : MemOp) (s : State) : Bool :=
  meets (.st x) s fun h => activeMask h x.g == 0 || (decide (storeRoom s h) && ends (bufNeeds h x true) s fun b s1 =>
    (!x.sem || !outstanding s1 h.b h.c (activeMask h x.g)) && ends ((lanesOf (activeMask h x.g)).mapM (storeLaneE h x b)) s1 fun rs s2 =>
      done (storeLanesE h (activeMask h x.g) (acqOf x) (rs.filterMap fun r => r.1)) s2)

/-- LoadStoreWordsComplete, stores, and StashStoreFrame: the same forms; the stash's last bytes. -/
theorem test_meets_stores :
    [g7, none7].all (fun g =>
      storeShown (raw g .b32 true) (ready (.st (raw g .b32 true)) addressed) &&
      storeShown (raw g .b64 false) (ready (.st (raw g .b64 false)) addressed) &&
      witness (.sts (local' g .b32)) addressed (fun s h => activeMask h g == 0 ||
        (done (storeStashE h (fun p => .loc p.va) (stashStores s h (local' g .b32) (activeMask h g))) s && Memory.wf s.mem &&
          (stashStores s h (local' g .b32) (activeMask h g)).all fun p => decide (p.va + 4 ≤ h.blk.kern.stash) &&
            !acquireOut s h.b h.c (laneBit p.lane) &&
            ((touchedLines s h.blk.core (h.blk.base + p.va) 4).all fun e => (mlineOf s h.blk.core e.1 e.2).st == .drt) &&
            (mappedPas s h.blk.core (h.blk.base + p.va) 4).isEmpty))) = true ∧
    storeShown rec40 (withRec (ready (.st rec40) (setV2 8 15))) = true := by decide +kernel

def atomX (g : Guard) (op : AtomOp) (ty : AtomTy) (sem : Sem) : AtomOpnds :=
  ⟨g, .v 4, .v 8, .v 12, if op = .cas then .v 14 else .v 0, op, ty, sem, .dev⟩

/-- AtomicsComplete; a `RED` performed when it issues and later. -/
theorem test_meets_atomics :
    [g7, none7, ⟨false, 1⟩].all (fun g =>
      [atomX g .add .i32 ⟨false, false⟩, atomX g .cas .n64 ⟨true, true⟩, atomX g .inc .n32 ⟨true, false⟩].all
        (fun x => witness (.atom x) addressed fun s h => activeMask h g == 0 ||
          ((!x.sem.rel || !outstanding s h.b h.c (activeMask h g)) &&
            done (atomLanesE h (4 * atomRegs x.ty) (atomSem x) (atomLanes s h x (activeMask h g))) s)) &&
      witness (.red ⟨g, .v 8, .v 12, .add, .f32, true, .dev⟩) addressed (fun s h => activeMask h g == 0 ||
        (let x : RedMemOp := ⟨g, .v 8, .v 12, .add, .f32, true, .dev⟩
         let u := { s with free := s.free + 1 }
         !outstanding s h.b h.c (activeMask h g) && done (atomLanesE h 4 (redSem x) (redLanes s h x (activeMask h g))) u &&
           done ((lanesOf (activeMask h g)).mapM (redPieceE h x)) u))) = true := by
  decide +kernel

/-- s8, s9 address the placed page; s10 holds 0. -/
def rangeAt (y : Crew) : Crew := setS2 8 0x10000800 y

/-- FencesComplete: for `CWB` and `CINV` no byte, near and far scopes. -/
theorem test_meets_fences :
    witness (.fence .sys) asIs (fun s h => !outstanding s h.b h.c (hMask h)) = true ∧ witness .fenceRo asIs (fun _ _ => true) = true ∧
    [g7, none7].all (fun g => witness (.pref ⟨g, .v 8, .v 12, false⟩) addressed fun _ _ => true) = true ∧
    [Scope.crew, .flt, .dev, .sys].all (fun sc =>
      witness (.cwb (.s 8) (.s 10) sc) rangeAt (fun s h => srcNum s h (.s 10) 1 0 == 0) &&
      witness (.cinv (.s 8) (.s 10) sc) rangeAt (fun s h => srcNum s h (.s 10) 1 0 == 0) &&
      [(true, Instr.cwb (.s 8) (.s 11) sc), (false, .cinv (.s 8) (.s 11) sc)].all (fun p =>
        witness p.2 (fun y => setS 11 129 (rangeAt y)) (fun s h => globalRange (srcNum s h (.s 8) 2 0) 129 &&
          done (rangeDone h (srcNum s h (.s 8) 2 0) 129 fun x =>
            if nearScope sc then
              if p.1 then do
                let u ← getE
                flushE h h.blk.core (mooredIn u h.blk.core (srcNum s h (.s 8) 2 0) (srcNum s h (.s 8) 2 0 + 129) x)
              else do
                updCrewE h (forgetLines [lineNo x.pa])
                modifyE fun u => dropL1 u h.blk.core (lineNo x.pa)
            else if p.1 then homeCleanE h false (sc == .sys) false x
            else do
              updCrewE h (forgetLines [lineNo x.pa])
              homeCleanE h true true true x) s))) = true := by
  decide +kernel

/-! ### Moorings -/

/-- One row of 128 bytes of the page at stash offset `lbase`, with the flags. -/
def moorBits (lbase flags : Nat) : Nat :=
  0x10000800 + lbase * 2 ^ 64 + 128 * 2 ^ 96 + 2 ^ 128 + 2 ^ 192 + 128 * 2 ^ 208 + 128 * 2 ^ 224 + flags * 2 ^ 232

/-- The record `x` at stash offset 0x40, and the core's table. -/
def moored (x : Nat) (es : List (Nat × Mooring)) (s : State) : State :=
  writePlace { s with cores := s.cores.put 0 { coreOf s 0 with moorings := es } } (.stash 0 0x40) (leBytes 32 x)

def entryAt (lbase flags : Nat) (owner : Option Nat) : Mooring :=
  ⟨moorRecOf (moorBits lbase flags), lbase, owner, ⟨⟨.a, 0⟩, 0⟩, 0, []⟩

def moorShown (x : Nat) (es : List (Nat × Mooring)) (p : State → Here → MoorRec → MoorPlan → Bool) : Bool :=
  let i := Instr.moor (.s 4) (.s 0)
  let s := moored x es (ready i (setS2 0 0x40))
  meets i s fun h => srcNum s h (.s 0) 2 0 % 32 == 0 && ends (loadBytesE h (hMask h) (srcNum s h (.s 0) 2 0) 32 .plain) s fun bs t =>
    p t h (moorRecOf (leNat bs)) (moorPlan (coreOf t h.blk.core) (moorRecOf (leNat bs)) (h.blk.base + (moorRecOf (leNat bs)).lbase)) &&
      moorRecOk (moorRecOf (leNat bs)) (leNat bs) h.blk.kern.stash == (x != 0)

/-- MooringWordsComplete, `MOOR`: each status. -/
theorem test_meets_moor :
    witness (.moor (.s 4) (.s 0)) (setS2 0 0x41) (fun s h => srcNum s h (.s 0) 2 0 % 32 != 0) = true ∧
    moorShown 0 [] (fun _ _ _ _ => true) = true ∧
    moorShown (moorBits 0xFFF80 0) [] (fun t h _ q => q == .make [] none && readyToDrop t h.blk.core []) = true ∧
    moorShown (moorBits 0x1000 0) [(3, entryAt 0x1000 0 none)] (fun _ _ _ q => q == .reuse 3) = true ∧
    moorShown (moorBits 0x1000 0) [(3, entryAt 0x2000 1 none)] (fun _ _ _ q => q == .aliased) = true ∧
    moorShown (moorBits 0x1000 0) ((List.range 64).map fun k => (k, entryAt (0x2000 + 128 * k) 0 (some 0)))
      (fun _ _ _ q => q == .full) = true ∧
    moorShown (moorBits 0x1000 0) [(3, { entryAt 0x1000 0 none with mrec := moorRecOf (moorBits 0x1000 1) })]
      (fun t h _ q => q == .make [3] none && readyToDrop t h.blk.core [3] &&
        (freeIndex (coreOf (droppedEntries t h.blk.core [3]) h.blk.core)).isSome) = true ∧
    moorShown (moorBits 0x1000 0) ((List.range 64).map fun k => (k, entryAt (0x2000 + 128 * k) 0 none))
      (fun t h _ q => q == .make [] (some 0) && readyToDrop t h.blk.core [0] &&
        (freeIndex (coreOf (droppedEntries t h.blk.core [0]) h.blk.core)).isSome) = true := by decide +kernel

/-- A moored line of one byte of the page. -/
def movedLine (st : LineSt) (k : Kept) : MLine := ⟨st, k, false, [(0x1000, 0x10000800)], [⟨lineNo 0x10000800, plainAttr, 0⟩], []⟩

/-- MooringWordsComplete, `UNMOOR` and `MWB`: an entry of another, an own one, at the table's last index; a modified line. -/
theorem test_meets_mooring_upkeep :
    witness (.unmoor (.s 4) (.imm 63) true) asIs (fun s h => !ownsEntry s h.blk.core 63 h.b) = true ∧
    [true, false].all (fun wb =>
      let s := moored 0 [(63, entryAt 0x1000 1 (some 0))] (ready (.unmoor (.s 4) (.imm 63) wb) asIs)
      meets (.unmoor (.s 4) (.imm 63) wb) s fun h => ownsEntry s h.blk.core (srcNum s h (.imm 63) 1 0) h.b &&
        !unflushed s h.blk.core 63 && !anyWbk s h.blk.core 63 && (releaseBusy s h.blk.core [63]).isNone) = true ∧
    (let m : Mooring := { entryAt 0x1000 1 (some 0) with lines := [(0, movedLine .drt .none)] }
     let s := moored 0 [(3, m)] (ready (.mwb (.s 4) (.s 5) (.imm 128)) (setS 5 0x1000))
     meets (.mwb (.s 4) (.s 5) (.imm 128)) s fun h =>
       let ls := dirtyLines s h.blk.core h.b (h.blk.base + srcNum s h (.s 5) 1 0) (h.blk.base + srcNum s h (.s 5) 1 0 + 128)
       let xs := ls.map fun p => mlineOf s h.blk.core p.1 p.2
       ls == [(3, 0)] && xs.all fun x => (homesBusy s h.blk.core x).isNone && (mlineHomes x).all fun g => !versioned s g) = true := by
  decide +kernel

/-! ### Barriers and waits -/

/-- A barrier object of one arrival at stash offset 0xFFFE0, the last place that it fits. -/
def barrier (s : State) : State := writePlace s (.stash 0 0xFFFE0) (leBytes 32 (2 ^ 32))

/-- The object of the stash's last place can be reached and read. -/
def barShown (s : State) (h : Here) (p : State → Bool) : Bool :=
  barAt s h 0xFFFE0 == some (0, 0xFFFE0) && decide (barReady s h 0 0xFFFE0) && p (barSeen s h 0 0xFFFE0)

/-- BarrierWordsComplete, at the last place of the stash. -/
theorem test_meets_barriers :
    witness (.binit (.s 1) (.imm 1) none) (setS 1 0xFFFE0) (fun s h => barShown s h fun t => (readBar t 0 0xFFFE0).waitm == 0) = true ∧
    witness (.binit (.s 1) .zero (some (.s 2))) (fun y => setS 2 64 (setS 1 0xFFFE0 y)) (fun s h => barShown s h fun t =>
      (readBar t 0 0xFFFE0).waitm == 0 && srcNum t h (.s 2) 1 0 != 0) = true ∧
    (let s := barrier (ready (.barv (.s 2) (.s 1) (.imm 1)) (setS 1 0xFFFE0))
     meets (.barv (.s 2) (.s 1) (.imm 1)) s fun h => barShown s h fun t => barOk t 0 0xFFFE0 && (readBar t 0 0xFFFE0).arrt != 0 &&
       !outstanding t h.b h.c (hMask h)) = true ∧
    witness (.bpar 3 (.s 1)) (setS 1 0xFFFE0) (fun s h => barShown s h fun t => barOk t 0 0xFFFE0) = true := by decide +kernel

/-- The context's timelines, 4 of them, at 0x1000_0C00. -/
def timed4 (s : State) : State :=
  setQi s ⟨.a, 0⟩ { qiOf s ⟨.a, 0⟩ with ctl := (qiOf s ⟨.a, 0⟩).ctl ||| 0x40000, tlb := 0x10000C00 }

/-- WaitsComplete: every kind, with its condition met and not, the deadline present and absent. -/
theorem test_meets_waits :
    [(Instr.waitBar 1 (.s 1) (.s 2) none, true), (.waitBar 7 (.s 1) (.imm 1) none, false)].all (fun p =>
      witness p.1 (fun y => setS 2 0xFFFFFFFF (setS 1 0xFFFE0 y)) fun s h => h.crew.handler.isNone && barShown s h fun t =>
        barOk t 0 0xFFFE0 && waitHolds t h.blk h.crew (.bar 0 0xFFFE0 (if p.2 then 0xFFFFFFFF else 1)) == p.2) = true ∧
    [(0, true), (1, false)].all (fun p => witness (.waitBmp 2 (.s 8) (.s 3) (some (.s 4))) (fun y => setS 3 p.1 (rangeAt y)) fun s h =>
        srcNum s h (.s 8) 2 0 % 4 == 0 && ends (bmpReadyE h (srcNum s h (.s 8) 2 0)) s fun _ t =>
          waitHolds t h.blk h.crew (.bmp 0x10000800 (BitVec.ofNat 32 p.1)) == p.2) = true ∧
    [(0, true), (1, false)].all (fun p => witness (.waitAc 7 15 none) (fun y => { y with acs := [(15, ⟨p.1, 0, []⟩)] }) fun s h =>
      waitHolds s h.blk h.crew (.ac 15) == p.2) = true ∧
    [(0, 0), (0, 1), (1, 0), (1, 2), (2, 0), (2, 1), (0x10000, 0), (0x10003, 9)].all (fun p =>
      let s := timed4 (ready (.waitTl 7 (.s 1) (.s 2) none) fun y => setS 1 p.1 (setS2 2 p.2 y))
      meets (.waitTl 7 (.s 1) (.s 2) none) s fun h => (counterOf s h (srcNum s h (.s 1) 1 0) (srcNum s h (.s 2) 2 0)).isSome) = true := by
  decide +kernel

/-! ### Engines, records and the matrix unit -/

/-- A tile of one row of four f32, from stash offset 0x1000 to 0x2000, described at 0xFFFC0. -/
def tiled (s : State) : State :=
  writePlace s (.stash 0 0xFFFC0) (leBytes 64 (0x1000 + 0x2000 * 2 ^ 64 + 2 ^ 128 + 4 * 2 ^ 160 + 0xFFFFFFFF * 2 ^ 288))

/-- CopiesComplete: elements with a barrier and without, no lane, both tile copies. -/
theorem test_meets_copies :
    [(g7, some (Opnd.s 3)), (g7, none), (none7, some (.s 3))].all (fun p => [(0 : Fin 3), 1, 2].all fun sz =>
      witness (.cpy ⟨p.1, .s 2, .v 8, .v 12, sz, p.2⟩) (fun y => setS 3 0xFFFE0 (addressed y)) fun s h =>
        let m := activeMask h p.1
        let bar := if m = 0 then none else p.2.map fun c => srcNum s h c 1 0
        decide (openCopies s h.b h.c < 64) && !outstanding s h.b h.c m &&
          (match bar with | none => true | some v => v % 32 == 0 && decide (v + 32 ≤ h.blk.kern.stash)) &&
          (lanesOf m).all fun l => srcNum s h (.v 8) 2 l % (4 * 2 ^ sz.val) == 0 && srcNum s h (.v 12) 2 l % (4 * 2 ^ sz.val) == 0 &&
            routeOf (srcNum s h (.v 8) 2 l) (4 * 2 ^ sz.val) != .bad && routeOf (srcNum s h (.v 12) 2 l) (4 * 2 ^ sz.val) != .bad) = true ∧
    [true, false].all (fun q =>
      let i := if q then Instr.cpyq (.s 4) (.s 1) else .cpyt (.s 4) (.s 1)
      let s := tiled (ready i (setS 1 0xFFFC0))
      meets i s fun h => decide (openCopies s h.b h.c < 64) && srcNum s h (.s 1) 1 0 % 64 == 0 &&
        decide (srcNum s h (.s 1) 1 0 + 64 ≤ h.blk.kern.stash) &&
        ends (stashE h (.loc (srcNum s h (.s 1) 1 0)) (srcNum s h (.s 1) 1 0) 64 false (hMask h)) s fun p t =>
          tileOk (numAt t (.stash p.1 p.2) 64) h.blk.kern.stash q && !outstanding t h.b h.c (hMask h) &&
          (tileAccesses (tileOf (numAt t (.stash p.1 p.2) 64) q)).all fun e => routeOf e.2.1 e.2.2 != .bad) = true := by decide +kernel

/-- MessageWordsComplete: a send; a multicast to two ranks and to none; no lane. -/
theorem test_meets_messages :
    [g7, none7].all (fun g =>
      witness (.send ⟨g, .s 1, .s 2, .v 4, 3⟩) asIs (fun s h => decide (openMsgs s h.b h.c < 8) && !outstanding s h.b h.c (activeMask h g)) &&
      [0, 5].all fun m => witness (.mcast ⟨g, .s 1, .s 2, .v 4, 1⟩) (setS 2 m) fun s h =>
        (maskRanks (srcNum s h (.s 2) 1 0) == []) == (m == 0) && decide (openMsgs s h.b h.c < 8) && !outstanding s h.b h.c (activeMask h g)) = true := by
  decide +kernel

/-- A fleet of two, and a descriptor at stash offset 0xFFFC0: two ranks, root 0. -/
def fleet2 (s : State) : State :=
  writePlace (updBlock s 0 fun b => { b with kern := { b.kern with fleet := 2 } }) (.stash 0 0xFFFC0) (leBytes 64
    (2 + 64 * 2 ^ 32 + 0x100 * 2 ^ 64 + 0xFFFFFFFF * 2 ^ 96 + 0xFF * 2 ^ 128 + (2 ^ 176 - 1) * 2 ^ 144))

def twoRanks (busy : Bool) : Arm :=
  { launch := 0, fleet := 0, id := 1, nrank := 2, root := 0, op := 0, ty := 0, timeout := 64, resoff := 0x100, baroff := none,
    parent := [0xFF, 0], nodes := if busy then [(0, ⟨0, [⟨0, 0, 1, 0, none, 0, [], 0, 0, 0⟩], none⟩)] else [], late := 0 }

/-- MessageWordsComplete: a misaligned and a bad descriptor, a round in flight, an arming; a contribution. -/
theorem test_meets_armature :
    witness (.redpArm (.s 4) (.s 1) 1) (setS 1 4) (fun s h => srcNum s h (.s 1) 1 0 % 64 != 0) = true ∧
    [(0, false, false), (1, true, true), (2, true, false)].all (fun p =>
      let s0 := ready (.redpArm (.s 4) (.s 1) 1) (setS 1 0xFFFC0)
      let s := { (if p.1 == 0 then s0 else fleet2 s0) with arms := if p.2.2 then [twoRanks true] else [] }
      meets (.redpArm (.s 4) (.s 1) 1) s fun h => srcNum s h (.s 1) 1 0 % 64 == 0 &&
        ends (stashE h (.loc (srcNum s h (.s 1) 1 0)) (srcNum s h (.s 1) 1 0) 64 false (hMask h)) s fun q t =>
          armOk (numAt t (.stash q.1 q.2) 64) h.blk.kern.fleet h.blk.kern.stash == p.2.1 && armTaken t h 1 == p.2.2) = true ∧
    meets (.redpContribute (.s 4) (.v 4) 1) { ready (.redpContribute (.s 4) (.v 4) 1) asIs with arms := [twoRanks false] }
      (fun h => let s := { ready (.redpContribute (.s 4) (.v 4) 1) asIs with arms := [twoRanks false] }
        (armOf s h.blk.launch h.blk.fleet 1).isSome && decide (h.blk.rank < 2) && !rootRetired s (twoRanks false) &&
          armatureOpen s h.blk 1 && !outstanding s h.b h.c (hMask h)) = true := by decide +kernel

/-- A slipway of 8 records of 16 bytes at 0x1000_0800. -/
def slipway8 : Slipway :=
  { addr := 0, ctx := ⟨⟨.a, 0⟩, 0⟩, base := 0x10000800, cap := 8, size := 16, k := 4, flush := 0, prio := 0, kern := placedKernel,
    args := 0, bufs := 0, ltag := 0, port := .a, reserved := 0, written := 0, assigned := 0, freed := 0, gone := [],
    times := [], seq := 0, users := [0], final := false, tws := [] }

def slipped (s : State) : State :=
  { s with slipways := [(5, slipway8)], launches := s.launches.map fun e => (e.1, { e.2 with slips := [5] }) }

/-- RecordWordsComplete: no lane, lanes that all find a slot, lanes left over, lanes that have emitted; a node's block. -/
theorem test_meets_records :
    [(none7, 0), ((⟨false, 1⟩ : Guard), 0), (g7, 0xFFFFFF00)].all (fun p =>
      let s := slipped (ready (.remit p.1 0 (.v 4)) (setP 1 3))
      meets (.remit p.1 0 (.v 4)) s fun h => (slipsOf s h)[0]? == some 5 && regCode (.v 4) == some 4 &&
        (s.slipways.find 5).isSome && 4 % min (16 / 4) 4 == 0 && decide (4 + 16 / 4 ≤ h.blk.kern.vregs) &&
        done (regsReadyE h ((List.range (16 / 4)).map fun i => 4 + i)) s && !outstanding s h.b h.c (activeMask h p.1) &&
        (match emit s h.blk h.crew (timeOf s h.b h.c) 5 4 (activeMask h p.1 &&& unslotted (hSlot h)) with
         | .ok ((left, _), _) => left.toNat == p.2
         | .error _ => false)) = true ∧
    [some 0, some 1].all (fun e : Option Mask =>
      let s := slipped (ready (.remit g7 0 (.v 4)) fun y => { y with slot0 := { y.slot0 with emit := e } })
      meets (.remit g7 0 (.v 4)) s fun h => (activeMask h g7 &&& unslotted (hSlot h) == 0) == (e == some 0) &&
        done (regsReadyE h ((List.range (16 / 4)).map fun i => 4 + i)) s && !outstanding s h.b h.c (activeMask h g7) &&
        (match emit s h.blk h.crew (timeOf s h.b h.c) 5 4 (activeMask h g7 &&& unslotted (hSlot h)) with
         | .ok _ => true
         | .error _ => false)) = true ∧
    meets .radv (updBlock (ready .radv asIs) 0 fun b =>
      { b with kern := { b.kern with node := true }, batch := some ⟨5, 0, 4, 2, 0, false, 0⟩ }) (fun h => h.c == 0 && h.blk.kern.node) = true := by decide +kernel

/-- MatrixWordsComplete: weights, swaps and codebooks. -/
theorem test_meets_weights :
    [WFmt.e4m3, .i4, .bf16, .lut4].all (fun wf => witness (.mldw (.s 2) (.s 3) wf) (setS 3 128) fun s h => decide (0 < h.blk.kern.tiles) &&
      ends ((List.range (planeRows wf)).forM fun k => matRangeE h (0 + k * 128) (planeRow wf) false) s fun _ t =>
        decide (unitRoom t h) && !outstanding t h.b h.c (hMask h)) = true ∧
    [Instr.mswap (.s 8), .mswap .zero, .mlut 8].all (fun i => witness i asIs fun s h => decide (0 < h.blk.kern.tiles) &&
      decide (unitRoom s h)) = true := by decide +kernel

/-- MatrixWordsComplete: tiles, with lanes and without; the last tile and column; the epilogue with its vectors and without. -/
theorem test_meets_tiles :
    [g7, none7].all (fun g =>
      witness (.mzero g 7) asIs (fun s h => decide (7 < h.blk.kern.tiles) && decide (unitRoom s h)) &&
      witness (.mma ⟨g, .v 12, 7, .e4m3, true, false⟩) asIs (fun s h =>
        passLegal (unitOf s h.blk.core (partOf h)).activeTag .e4m3 false &&
        ends ((lanesOf (activeMask h g)).forM fun l => matRangeE h (rowOff (srcNum s h (.v 12) 1 l)) (actBytes .e4m3) false) s
          fun _ t => decide (unitRoom t h) && !outstanding t h.b h.c (activeMask h g)) &&
      witness (.mrd ⟨g, .v 8, 7, 60, 2⟩) asIs (fun s h => decide (unitRoom s h)) &&
      [true, false].all fun b => witness (.mst ⟨g, .s 4, .s 5, if b then some (.s 6) else none, 7, b, b, .f32⟩)
        (fun y => setS 5 256 (setS 6 0x8000 y)) fun s h =>
          ends (if activeMask h g ≠ 0 ∧ b then matRangeE h 0x8000 256 false else pure ()) s fun _ s1 =>
          ends (if activeMask h g ≠ 0 ∧ b then matRangeE h (0x8000 + 256) 256 false else pure ()) s1 fun _ s2 =>
          ends ((lanesOf (activeMask h g)).forM fun l => matRangeE h (0 + l * 256) (outBytes .f32) true) s2 fun _ t =>
            decide (unitRoom t h) && !outstanding t h.b h.c (activeMask h g)) = true ∧
    witness (.mfence .zero) asIs (fun s h => decide (0 < h.blk.kern.tiles) && decide (unitRoom s h)) = true := by decide +kernel

/-! ### Capsules, the tape, special registers and timelines -/

/-- One lane active. -/
def oneLane (y : Crew) : Crew := { y with slot0 := { y.slot0 with mask := 1 } }

/-- Lane 0 holds the record at 0x1000_0C00 in capsule mode. -/
def holds (step : Nat) (displaced : Bool) (y : Crew) : Crew :=
  { oneLane y with holding := some ⟨0, 0, 0x200018, 0x10000C00, 3, step, 0, 0x10000008, 4, [], 1, [], [], 0x10000000, displaced, false, none, plainAttr⟩ }

/-- CapsuleWordsComplete: both questions, the slots, the last step that may follow, displaced and not. -/
theorem test_meets_capsules :
    witness (.capenter ⟨.v 4, .v 8, .v 10, .v 12, 3⟩) (fun y => oneLane (setV2 8 0x10000C00 (setV2 10 0x10000820 y))) (fun s h =>
      decide (mayAsk s h) && ends (capRecordE h (srcNum s h (.v 8) 2 (lowLane (hMask h)))) s fun line s1 =>
        ends (slotE h (srcNum s h (.v 10) 2 (lowLane (hMask h))) .wr 1) s1 fun _ t =>
          sendTo t h.blk.core (sliceOf (128 * line.1))) = true ∧
    witness (.capadopt (.v 4) (.v 8)) (fun y => oneLane (setV2 8 0x10000C00 y)) (fun s h =>
      decide (mayAsk s h) && ends (capRecordE h (srcNum s h (.v 8) 2 (lowLane (hMask h)))) s fun line t =>
        sendTo t h.blk.core (sliceOf (128 * line.1))) = true ∧
    (let s := writePlace (ready (.capstat (.v 4) (.v 8)) (setV2 8 0x10000FE0)) (.dev 0x10000FF4) [1]
     meets (.capstat (.v 4) (.v 8)) s fun h => nbit (flagsOf s h.blk) 1 &&
       done ((lanesOf (hMask h)).mapM (slotLaneE s h (.v 8))) s) = true ∧
    [true, false].all (fun d => [Instr.capstep 1, .capexit, .capabort].all fun i => witness i (holds 62 d) fun s h =>
      match h.crew.holding with
      | some k => decide (mayCommit s h k) && k.step != 63 && decide (commitFree s h k) && k.displaced == d
      | none => false) = true := by decide +kernel

/-- The state that the step leaves. -/
def after (i : Instr) (s : State) : State :=
  match exec i s with
  | .next t => t
  | _ => s

/-- TapeWordsComplete: bindings, records, pops of what was recorded, each part of the tape's state. -/
theorem test_meets_tape :
    witness .tbindNew bound (fun s h => ends (tapeFlagE h) s fun _ _ => ends (mayRebindE h) s fun _ s1 =>
      ends (bindFirstE h) s1 fun _ s2 => done (leaveStreamE h) s2) = true ∧
    witness (.tbindAt (.s 8)) (fun y => bound (rangeAt y)) (fun s h => ends (tapeFlagE h) s fun _ _ =>
      ends (mayRebindE h) s fun _ s1 => ends (bindFirstE h) s1 fun _ s2 => srcNum s h (.s 8) 2 0 % 4 == 0 && done (leaveStreamE h) s2) = true ∧
    witness (.tbindCh 3 5) bound (fun s h => ends (tapeFlagE h) s fun _ _ => done (bindFirstE h) s) = true ∧
    [g7, none7].all (fun g => witness (.trec ⟨g, .v 9, 5, true⟩) bound fun s h => ends (needTapeE h) s fun _ s1 =>
      done (recordE h (trecRec s h ⟨g, .v 9, 5, true⟩)) s1) = true ∧
    witness (.tmark 9 (.s 3)) bound (fun s h => ends (needTapeE h) s fun _ s1 =>
      done (recordE h (some (tkMark, 9, false, 0, [srcNum s h (.s 3) 1 0]))) s1) = true ∧
    [g7, none7].all (fun g =>
      let s := after (.trec ⟨g7, .v 9, 5, false⟩) (ready (.trec ⟨g7, .v 9, 5, false⟩) bound)
      let b := after (.braT g7 1 2) (ready (.braT g7 1 2) bound)
      meets (.tback ⟨g, .v 9, .val, 5, false⟩) s (fun h => done (tapeFlagE h) s &&
        done (popE h (popKind .val) 5 false (activeMask h g)) s) &&
      meets (.tbpop ⟨g, 1, 2, true⟩) b (fun h => done (popE h tkBr 2 true (activeMask h g)) b) &&
      [TstatSel.top, .next, .num].all fun sel => meets (.tstat g (.v 4) sel) s fun h =>
        ends (bindFirstE h) s fun _ s1 => done (tstatE h sel) s1) = true := by decide +kernel

/-- SpecialWordsComplete: every special register read and every one that may be written. -/
theorem test_meets_special :
    [Spr.fstat, .tst, .tctl, .chb 15, .rrcfg 3, .energy, .ltag, .batch, .prio, .die, .clk64, .ltime, .lease].all (fun r =>
      witness (.movspr g7 (.v 4) r) asIs fun s h => !storeQueued s h.blk.core h.b h.c h.k && !loadQueued s h.b h.c h.k) = true ∧
    [Spr.fstat, .tst, .tctl].all (fun r => witness (.wrspr r (.s 4)) asIs fun _ _ => true) = true ∧
    [0, 1, 4].all (fun x => witness (.wrspr (.chb 15) (.s 4)) (setS 4 x) fun s h =>
      (chbWrite (chanOf h.crew 15) (srcNum s h (.s 4) 1 0)).isSome) = true ∧
    [0, 10].all (fun x => witness (.wrspr (.rrcfg 3) (.s 4)) (setS2 4 x) fun s h =>
      (rrcfgWrite h.blk.kern.stash (srcNum s h (.s 4) 2 0)).isSome) = true ∧
    witness (.resphase (.s 3)) asIs (fun _ _ => true) = true := by decide +kernel

/-- The timeline was raised. -/
def raised (x : TlRes) : Bool :=
  match x with
  | .done _ _ => true
  | _ => false

/-- SpecialWordsComplete: the last timeline of the context, and each counter; an entry with a bit set that must be zero. -/
theorem test_meets_timelines :
    [true, false].all (fun err =>
      let s := timed4 (ready (.tlinc (.s 1) (.s 2) err) fun y => setS 1 3 (setS2 2 7 y))
      meets (.tlinc (.s 1) (.s 2) err) s fun h => decide (srcNum s h (.s 1) 1 0 < tlCount s (ctxOf s h.blk)) && !outstanding s h.b h.c (BitVec.allOnes 32) &&
        sendTo s h.blk.core (sliceOf (tlAddr s (ctxOf s h.blk) (srcNum s h (.s 1) 1 0))) &&
        raised (raiseTl s (ctxOf s h.blk) (srcNum s h (.s 1) 1 0) (srcNum s h (.s 2) 2 0) err (timeOf s h.b h.c) (partyOf s h.b h.c) .sys)) = true ∧
    [g7, none7].all (fun g => [true, false].all fun err => [0, 1, 2].all fun k =>
      witness (.gettl g (.v 6) (.s 1) err) (setS 1 k) fun s h => (engineCounter h.crew (srcNum s h (.s 1) 1 0)).isSome) = true ∧
    [true, false].all (fun err =>
      let s := timed4 (ready (.gettl g7 (.v 6) (.s 1) err) (setS 1 0x10003))
      [true, false].all fun good =>
        let s := if good then s else writePlace s (.dev (0x10000C00 + 3 * 16 + 13)) [1]
        meets (.gettl g7 (.v 6) (.s 1) err) s fun h => srcNum s h (.s 1) 1 0 == 0x10000 + 3 && decide (3 < tlCount s (ctxOf s h.blk)) &&
          tlEntryOk s (ctxOf s h.blk) 3 == good) = true := by
  decide +kernel

/-! ## Witnesses: the events -/

/-- The slot of the placed block, where `p` holds. -/
def atSlot (s : State) (p : Here → Bool) : Bool :=
  match hereAt s ⟨0, 0, 0⟩ with
  | some h => p h
  | none => false

/-- A step of the device taken from a placed block whose slot is changed by `f`. -/
def slotted (f : Slot → Slot) : State := ready (.nop g7) fun y => { y with slot0 := f y.slot0 }

def spill1 : Spill := ⟨0x10000040, 3, 0, 0, none, [], none⟩

/-- IssueEventsComplete: each at the first clock at which it may be. -/
theorem test_meets_issue_events :
    [4096, 64].all (fun t => let s := { slotted id with clock := t }
      atSlot s fun h => selectable s h.b h.blk h.c h.crew h.k && (hSlot h).readyAt + t == s.clock) = true ∧
    [0, 1].all (fun m => let s := ready (.nop g7) fun y => { y with slot0 := { y.slot0 with mask := m }, spills := [spill1] }
      match crewOf s 0 0 with
      | some y => y.handler.isNone && y.spills == [spill1] && (y.slot0.mask == 0) == (m == 0) && y.slot1.mask == 0
      | none => false) = true ∧
    (let s := { slotted (fun t => { t with st := .waiting (.sleep 5) }) with clock := 5 }
     atSlot s fun h => h.blk.st == .running && (hSlot h).st == .waiting (.sleep 5)) = true ∧
    (let s := slotted fun t => { t with st := .waiting (.object (.ac 3) 1 none) }
     atSlot s fun h => h.blk.st == .running && waitHolds s h.blk h.crew (.ac 3)) = true ∧
    (let s := { slotted (fun t => { t with st := .waiting (.object (.copies 3) 1 (some 9)) }) with clock := 9 }
     atSlot s fun h => h.blk.st == .running && !waitHolds s h.blk h.crew (.copies 3)) = true := by decide +kernel

/-- A READY module. -/
def up (s : State) : State := { s with regs := { s.regs with devrdy := 0x16 } }

/-- Queue interface 0 of port A enabled, its process 0 with the first GiB mapped to itself. -/
def mapped (s : State) : State :=
  writePlace (writePlace (writePlace (writePlace
    (setQi s ⟨.a, 0⟩ { qiOf s ⟨.a, 0⟩ with ctl := (qiOf s ⟨.a, 0⟩).ctl ||| 1, ptb := 0x40004 })
    (.dev 0x40000) (leBytes 16 0x41001)) (.dev 0x41000) (leBytes 8 0x42001)) (.dev 0x42000) (leBytes 8 0x43001))
    (.dev 0x43000) (leBytes 8 0x80F)

/-- A launch record of one block: its kernel at 0x1000_1000, no timelines. -/
def launchBits (k : Nat) : Nat := k + 2 ^ 128 + 2 ^ 160 + 2 ^ 176 + 0xFFFFFFFF * 2 ^ 192

/-- A kernel of one crew, 8 registers and 128 bytes of stash. -/
def kernelBits : Nat := 0x10002000 + 2 ^ 64 + 2 ^ 72 + 8 * 2 ^ 80 + 8 * 2 ^ 88 + 128 * 2 ^ 128

/-- A module in order, a kernel in its memory. -/
def host : State := writePlace (up (mapped State.reset)) (.dev 0x10001000) (leBytes 128 kernelBits)

def submit (k : Nat) : NotifyWrite := ⟨.a, 0, 64, some 0, BitVec.ofNat 512 (launchBits k)⟩

def taken' (i : Instr) (s : State) : State := { after i s with agenda := [] }

/-- The launch submitted, decoded, accepted, begun. -/
def queued : State := taken' (.submission (submit 0x10001000)) host
def decoded : State := taken' (.submissionDecode ⟨.a, 0⟩) queued
def accepted : State := taken' (.launchAccept 0) decoded
def begun : State := taken' (.launchStart decoded.nextId.pred) accepted

def isRefused {α : Type} (a : Accepted α) : Bool :=
  match a with
  | .refused _ _ => true
  | _ => false

def isOk {α : Type} (a : Accepted α) : Bool :=
  match a with
  | .ok _ => true
  | _ => false

/-- LaunchEventsComplete: accepted and refused at each stage, and the end of a grid. -/
theorem test_meets_launch_events :
    (portReady host .a && submissionCode host (submit 0x10001000) == none) = true ∧
    [({ submit 0 with len := 32 }, 2), ({ submit 0 with pasid := none }, 3), ({ submit 0 with port := .b, off := 63 * 4096 }, 1)].all
      (fun p => submissionCode host p.1 == some p.2 && portReady host p.1.port && decide (p.1.off < 64 * 4096)) = true ∧
    ((qiOf queued ⟨.a, 0⟩).queue.length == 1 && ((qiOf queued ⟨.a, 0⟩).queue.all fun x => !earlierWaits queued ⟨.a, 0⟩ x) && procOk queued ⟨⟨.a, 0⟩, 0⟩ && !procOk queued ⟨⟨.a, 0⟩, 5⟩) = true ∧
    (match offered decoded 0 with
     | some e => isOk (checkLaunch decoded 0 e.2) && isRefused (checkLaunch decoded 0 { e.2 with kernAddr := 4 })
     | none => false) = true ∧
    (match accepted.launches with
     | [(i, l)] => i == decoded.nextId.pred && startReady { accepted with launches := [(i, { l with st := .waiting })] }
         { l with st := .waiting }
     | _ => false) = true ∧
    (match begun.launches with
     | [(i, l)] => l.st == .running && gridOver begun i { l with retired := 1 } && l.sigIdx == 0xFFFF &&
         gridOver (timed4 begun) i { l with retired := 1, sigIdx := 3 } &&
         agentSlot (timed4 begun) (islandAgent l.die) l.die (tlAddr (timed4 begun) l.ctx 3) &&
         raised (raiseTl (timed4 begun) l.ctx 3 7 l.error (max begun.clock l.relTw) .device .dev)
     | _ => false) = true := by decide +kernel

def share2 : Launch := { placedLaunch with gx := 16, shares := [(0, ⟨[⟨0, 8⟩], [], 0, [1, 2], false⟩)] }

def stealing (m : CtrlMsg) : State := { State.reset with launches := [(4, share2)], ctrl := [(9, m)] }

/-- PlacementEventsComplete: a fleet that finds room, none that does, and the three messages of stealing. -/
theorem test_meets_placement_events :
    (match placeCandidate begun 0 with
     | some e => !savedBefore begun 0 e.2.1 && match planOf begun 0 e.2.1.ctx e.2.1.kern with
       | .ok plan => (dropsWait begun (placeFleet begun 0 e.1 e.2.1 plan e.2.2) (e.2.2.map (·.core))).isNone
       | .error _ => false
     | none => false) = true ∧
    (placeCandidate State.reset 3).isNone = true ∧
    [CtrlMsg.stealq 1 0 4, .stealg 1 4 [⟨3, 1⟩], .stealn 1 4].all (fun m => (stealing m).ctrl.find 9 == some m &&
      !cutOff (stealing m) (ctrlRoute (stealing m) m).1 (ctrlRoute (stealing m) m).2) = true ∧
    ((stealMsg (stealing (.stealq 1 0 4)) (isStealq 1 4)).isSome && stripeCount (shareOf share2 0).runs / 2 != 0 &&
      stripeCount (shareOf share2 2).runs / 2 == 0 && (stealMsg (stealing (.stealg 0 4 [⟨3, 1⟩])) (isStealg 0 4)).isSome &&
      (stealMsg (stealing (.stealn 0 4)) (isStealn 0 4)).isSome) = true := by decide +kernel

/-! ### Saves -/

/-- A pool of 4 images. -/
def pooled (s : State) : State := { s with regs := { s.regs with dkpool := 0x20000004 } }

def smallKernel : Kernel := ⟨0, 0x10000000, 1, 1, 8, 8, 0, false, 0, 0, 128, 0, 0, 0, 0, 0⟩

/-- The placed block, its kernel small. -/
def small (i : Instr) (f : Crew → Crew) : State :=
  pooled (updBlock (ready i f) 0 fun b => { b with kern := smallKernel })

/-- A launch of priority 7 whose fleets of 24 blocks need a whole cluster, beside a block of a launch that may be saved in
each cluster of die 0. -/
def crowded : State :=
  let big := { smallKernel with fleet := 24, stash := 0x1FFE00 }
  let s := small (.nop g7) asIs
  { s with
    blocks := s.blocks ++ (s.blocks.map fun e => (1, { e.2 with core := 24 }))
    launches := [(0, { placedLaunch with flags := 1 }), (1, { placedLaunch with kern := big, gx := 24, prio := 7, order := 1, shares := [(0, ⟨[⟨0, 24⟩], [], 0, [], false⟩)] })] }

def blockAt (s : State) (p : Block → Bool) : Bool :=
  match s.blocks.find 0 with
  | some x => p x
  | none => false

/-- All lanes parked on a slipway without room. -/
def parked : State :=
  let s := slipped (small (.nop g7) fun y => { y with slot0 := { y.slot0 with st := .parked 5 4 1 } })
  { updBlock s 0 (fun b => { b with parkedSince := some 0 }) with
    clock := 2048, slipways := [(5, { slipway8 with reserved := 8, written := 8 })] }

/-- The only slot of a block that keeps others out waits for its copies. -/
def outside : State :=
  let s := crowded
  { updCrew s 0 0 (fun y => { y with slot0 := { y.slot0 with st := .waiting (.object (.launch 0 5) 1 none) } }) with clock := 65536 }

/-- A block that waits, its record pending, with a shape of image that a pool slot holds. -/
def stopping : State := taken' (.fqackReplay 0) (updBlock (small (.nop g7) asIs) 0 fun b => { b with st := .saving, causes := 1 })

def savedState : State := taken' (.saveComplete 0) stopping

/-- SaveEventsComplete: a pre-emption; the end of a window; a parked block; a block outside, at its first clock and when its
time is over; a save that is quiet; a saved block whose causes are met; a
restored one. -/
theorem test_meets_save_events :
    ((poolFree crowded).isSome && !dieSaving crowded 0 && (match preemptFor crowded 0 with
      | some xs => !xs.isEmpty
      | none => false)) = true ∧
    (let s := updBlock (small (.nop g7) asIs) 0 fun b => { b with chkptTill := some 0 }
     blockAt s fun x => x.chkptTill == some 0 && x.st == .running && x.halting.isNone) = true ∧
    (blockAt parked fun x => x.parkedSince == some 0 && x.st == .running && noneHalted parked 0 && (poolFree parked).isSome &&
      (slotsOf x).all (fun e => !parkedRoom parked e.2.2) && (parkedOn parked x).isSome) = true ∧
    (blockAt outside fun x => outsideHolds outside 0 x && x.outsideSince.isNone) = true ∧
    (let s := updBlock outside 0 fun b => { b with outsideSince := some 0 }
     blockAt s fun x => outsideHolds s 0 x && x.outsideSince == some 0 && (poolFree s).isSome) = true ∧
    (blockAt stopping fun x => x.st == .saving && launchLive stopping x.launch && saveQuiet stopping 0 x &&
      (ownedEntries (parkBlock stopping 0) 0 x.core).isEmpty && match (parkBlock stopping 0).blocks.find 0 with
        | some y => !saveHeld (parkBlock stopping 0) y && (poolFree (parkBlock stopping 0)).isSome && isOk (blockToSave (parkBlock stopping 0) y)
        | none => false) = true ∧
    (blockAt savedState fun x => x.st == .saved && launchLive savedState x.launch && x.placeable.isNone &&
      causesMet savedState 0 x) = true ∧
    (let s := updBlock (small (.nop g7) asIs) 0 fun b => { b with st := .restoring }
     blockAt s fun x => launchLive s x.launch && s.reqs.isEmpty && (shedding s 0 x).isNone) = true := by decide +kernel

/-- A saved block without crews and stash, placeable, its image in slot 0 of the pool. -/
def bareBlock : Block :=
  { beginBlock 0 { smallKernel with crews := 0, stash := 0 } 0 0 0 0 with st := .saved, image := some 0, placeable := some 7 }

def bare : State := { pooled State.reset with blocks := [(0, bareBlock)], launches := [(0, placedLaunch)] }

def imaged : State := writePlace bare (.dev (imageAddr bare 0)) (imageBytes bare 0 bareBlock)

/-- SaveEventsComplete: a saved block that has room, where nothing stands in its image. -/
theorem test_meets_restore_bad :
    (launchLive bare 0 && bareBlock.placeable.isSome && match restoreNow bare 0 bareBlock with
      | some (ms, _) => (ms.find? fun e => !imageGood bare e.1 e.2 (readImage bare e.1 e.2)).isSome
      | none => false) = true := by decide +kernel

/-- What the restore of the bare block asks beside its image: its plan is read, and nothing is to be written back. -/
def restoreReady (s : State) : Bool :=
  match restoreNow s 0 bareBlock with
  | none => false
  | some (ms, rs) => ms == [(0, bareBlock)] && match rs.mapM (restorePlan s) with
    | .error _ => false
    | .ok plans =>
      let u := wakeDies ((rs.zip plans).foldl (restoreBlock (rs.filterMap fun p =>
        (s.blocks.find p.1).map fun y => (⟨y.core, y.base, y.kern.stash, p.2.core, p.2.base⟩ : Moved))) s)
      (dropsWait s u (rs.map fun q => q.2.core)).isNone

/-- The same with the image that a save writes. -/
theorem test_meets_restore_good :
    restoreReady imaged = true ∧ imageGood imaged 0 bareBlock (readImage imaged 0 bareBlock) = true := by
  refine ⟨by decide +kernel, ?_⟩
  rw [show readImage imaged 0 bareBlock = imageBytes bare 0 bareBlock from readImage_writePlace bare 0 0 bareBlock rfl (by decide)]
  simp only [imageGood, imageOk_imageBytes, show zeroRanges imaged 0 bareBlock = [] by decide +kernel, List.all_nil, Bool.and_true]

/-- RetireEventsComplete: a block done; a slipway with K records, with records and no emitter left, with its flush due; a
parked slot whose slipway has room for one lane and for all. -/
theorem test_meets_retire_events :
    (let s := ready (.nop g7) fun y => { y with slot0 := { emptySlot with st := .retired }, exited := BitVec.allOnes 32 }
     blockAt s fun x => mayRetire s 0 x) = true ∧
    [({ slipway8 with written := 4, reserved := 4 }, true), ({ slipway8 with written := 1, reserved := 1 }, false)].all (fun p : Slipway × Bool =>
      let s := { slipped (ready (.nop g7) asIs) with slipways := [(5, p.1)], launches := [] }
      (decide (p.1.k ≤ unconsumed p.1) == p.2) && (p.2 || (decide (0 < unconsumed p.1) && emittersGone s 5))) = true ∧
    (let w := { slipway8 with written := 1, reserved := 1, flush := 9, times := [0] }
     let s := { slipped (ready (.nop g7) asIs) with slipways := [(5, w)], clock := 9 }
     unconsumed w != 0 && flushDue s w) = true ∧
    [(1, 0), (0xFFFF, 0xFF00)].all (fun p =>
      let s := slipped (ready (.nop g7) fun y => { y with slot0 := { y.slot0 with st := .parked 5 4 (BitVec.ofNat 32 p.1) } })
      atSlot s fun h => h.blk.st == .running && emitNow slipway8 (BitVec.ofNat 32 p.1) != [] && match emit s h.blk h.crew (crewT s h.crew) 5 4 (BitVec.ofNat 32 p.1) with
        | .ok ((rest, _), _) => rest.toNat == p.2
        | .error _ => false) = true := by decide +kernel

/-! ### Faults, requests, coherence -/

/-- The placed block. -/
def stood : State := slotted id

def allLanes : Mask := BitVec.allOnes 32

/-- A store of one byte, and a load of two bytes of the placed page. -/
def storeReq : Req :=
  ⟨.store 0x10000800 [[(0x10000800, 7)]] plainAttr 0, .injected, [(0, allLanes)], false, 0, [], 0, 0, sliceOf 0x10000800, 0, 0, 0,
    0x10000000, allLanes, false, 0, 0, some (.pagef, 2, 0x10000800), false, 0, true, []⟩

def loadReq (ps : List Piece) : Req := { storeReq with kind := .load ps [] ⟨.v 4, 1, 1, false, none, 1⟩ (some 3) none, cause := none }

def faultyReq : Req := { storeReq with st := .faulted }

def asked (r : Req) : State := { stood with reqs := [(9, r)] }

def ended (s : State) : State := { s with launches := s.launches.map fun e => (e.1, { e.2 with error := true }) }

def halt5 : Halt := ⟨0x10000000, 5, allLanes, 0, 0⟩

def rec1 : FRec := blockRec stood (beginBlock 0 placedKernel 0 0 0 0) .pagef 0 0 0 0 0 0 2 0 0

/-- The ring at 0x1004_0000 is enabled. -/
def ringOn (s : State) : State := { s with regs := { s.regs with fqctl := 0x10040001 } }

/-- FaultEventsComplete: a store fault in a live and in an ended grid; a record; each kind of token and none; a halt. -/
theorem test_meets_fault_events :
    [asked faultyReq, ended (asked faultyReq)].all (fun s => (match s.reqs.find 9 with
      | some r => (s.blocks.find r.blk).isSome && r.st == .faulted && !r.told
      | none => false) && blockAt s fun x => launchLive s x.launch == (s.launches == (asked faultyReq).launches)) = true ∧
    (let s := setDie (ringOn stood) 1 { dieOf stood 1 with waiting := [rec1] }
     (dieOf s 1).waiting == [rec1] && fqEn s.regs && !fqFull s.regs && agentSlot s (islandAgent 1) 1 (fqSlot s.regs) &&
       (writeRing s rec1).isSome) = true ∧
    (moduleReady (up stood) && (up stood).tokens.find 1 == none) = true ∧
    [TokenOf.block 0, .copy 3, .halt 0 false, .halt 0 true].all (fun w =>
      let s := { up stood with tokens := [(1, w)], copies := [(3, ⟨0, 0, 1, 0, allLanes, 0, .lanes [] 4 none, [], [], 0, [], [], [], false, false, 0, [], 0, [], []⟩)] }
      moduleReady s && s.tokens.find 1 == some w && tokenLaunch s w == some 0) = true ∧
    (let s := updBlock stood 0 fun b => { b with halting := some halt5 }
     blockAt s fun x => x.halting == some halt5 && x.st == .running && launchLive s x.launch && !plainStoresOut s 0 &&
       !capsOut s 0) = true := by decide +kernel

/-- The stash byte at 0x1000, stored to, read and reduced. -/
def stashStoreReq : Req := { storeReq with kind := .store 0x1000 [[(stashPa 0 0x1000, 7)]] plainAttr 0, homed := false }

def touchedOk (x : Touch) : Bool :=
  match x with
  | .ok _ => true
  | _ => false

def redPiece (pa : Nat) : RedPiece := ⟨0, 0x10000800, pa, 4, plainAttr, .add, .i32, 1⟩

def redReq (pa : Nat) (homed : Bool) : Req := { storeReq with kind := .red [redPiece pa] 0, cause := none, homed := homed }

/-- RequestEventsComplete: an injection; a store at its home and in a stash; the piece of a load in a stash, at its home and in a
leased copy; a reduction's lane in both; a reply. -/
theorem test_meets_request_events :
    (let r := { storeReq with st := .waiting }
     !mustFollow (asked r) 9 r && slotTo (asked r) r.core r.dest && !refusedFirst (asked r) r &&
       claimTurn (asked r) (dieOfCore r.core) (requestRank r.core) && (claimRequest (asked r) r).1) = true ∧
    (let s := asked storeReq
     let g := lineNo 0x10000800
     !lateReq s storeReq && pickOne s 1 == (0, s) && !isStashPa 0x10000800 && !isRemote 0x10000800 && !versioned s g &&
       (grab s g none true).1 && !poisoned (grab s g none true).2 g && pickOne (asked stashStoreReq) 1 == (0, asked stashStoreReq) &&
       isStashPa (stashPa 0 0x1000)) = true ∧
    (let p : Piece := ⟨0, 1, 0, 0x10000800, 0x10000800, 1, plainAttr⟩
     let r := loadReq [p]
     let s := asked r
     let t := { s with cores := s.cores.put 0 { coreOf s 0 with leases := [(lineNo 0x10000800, ⟨List.replicate 128 5, 2 ^ 40, 0, 2 ^ 40, []⟩)] } }
     !lateReq s r && pickOne s 1 == (0, s) && sliceOf p.pa == r.dest && !isStashPa p.pa && !isRemote p.pa &&
       (pieceCopy s r p).isNone && (grab s (lineNo p.pa) none false).1 && !poisoned (grab s (lineNo p.pa) none false).2 (lineNo p.pa) &&
       pickOne t 1 == (0, t) && (pieceCopy t r p).isSome) = true ∧
    (let p : Piece := ⟨0, 1, 0, 0x1000, stashPa 0 0x1000, 1, plainAttr⟩
     let s := asked { loadReq [p] with homed := false }
     isStashPa p.pa && pickOne s 1 == (0, s) && touchedOk (touchStash s (stashPaCore p.pa) (stashPaOff p.pa) p.n p.va false)) = true ∧
    [(0x10000800, true), (stashPa 0 0x1000, false)].all (fun p =>
      let s := asked (redReq p.1 p.2)
      redNext [redPiece p.1] == [0] && pickOne s 1 == (0, s) && isStashPa p.1 == !p.2 &&
        (!p.2 || (!lateReq s (redReq p.1 true) && sliceOf p.1 == storeReq.dest && !isRemote p.1 && !versioned s (lineNo p.1) &&
          (grab s (lineNo p.1) none true).1 && !poisoned (grab s (lineNo p.1) none true).2 (lineNo p.1)))) = true ∧
    [storeReq, loadReq []].all (fun r => !lateReq (asked { r with st := .answered }) { r with st := .answered } && r.homed &&
      claimTurn (asked { r with st := .answered }) (r.dest / 32) 0) = true := by
  decide +kernel

/-- Line `g` waits for core 5, probed `n` times. -/
def busyLine (n : Nat) : State :=
  { setLine stood 77 { Line.reset with st := .busy, prior := .own, ptrs := [5], probes := n, probed := some 5, probedAt := 0 } with
    clock := 2 ^ 40 }

/-- A mooring of core 0 whose line 0 is in the given state. -/
def mooredLine (st : LineSt) (k : Kept) : State :=
  let s := slotted id
  { s with cores := s.cores.put 0 { coreOf s 0 with
      moorings := [(3, { entryAt 0x1000 1 (some 0) with lines := [(0, movedLine st k)] })] } }

/-- CoherenceEventsComplete. -/
theorem test_meets_coherence_events :
    [1, 2, 3].all (fun n => (lineOf (busyLine n) 77).st == .busy && (lineOf (busyLine n) 77).probed == some 5 &&
      decide ((lineOf (busyLine n) 77).probedAt + probeLimit (busyLine n) 5 ≤ (busyLine n).clock) &&
      (lineOf (busyLine n) 77).probes == n) = true ∧
    [(LineSt.fill, Kept.none), (.shr, .inval), (.wbk, .none)].all (fun p =>
      let s := mooredLine p.1 p.2
      (mooringOf s 0 3).isSome && (mlineOf s 0 3 0).st == p.1 && (mlineOf s 0 3 0).kept == p.2 && !fillReader s 0 3 0 &&
        (mlineHomes (mlineOf s 0 3 0)).all fun g => !versioned s g) = true ∧
    [(host, true), (stood, false)].all (fun p =>
      let w : Walk := ⟨0, ⟨⟨.a, 0⟩, 0⟩, 0x10001000, [], none⟩
      let s := { p.1 with walks := [(2, w)] }
      s.walks.find 2 == some w && decide (walksBefore s 2 w.die < Config.walksInFlight) && (walkRefused s w).isNone && (match walkTables s w.die w.ctx w.va with
        | .ok _ => p.2
        | .error _ => !p.2)) = true ∧
    (let s := setLine host (lineNo 0x41000) { Line.reset with st := .pois }
     match walkTables s 0 ⟨⟨.a, 0⟩, 0⟩ 0x10001000 with
     | .error (.poison pa) => pa == 0x41000
     | _ => false) = true ∧
    (match walkTables stood 0 ⟨⟨.a, 0⟩, 0⟩ 0x10001000 with
     | .error (.page _) => true
     | _ => false) = true := by decide +kernel

/-- DieEventsComplete. -/
theorem test_meets_die_events :
    moduleReady host = true ∧
    (let s := setDie host 3 { dieOf host 3 with loading := some 0x10005000 }
     (dieOf s 3).loading == some 0x10005000 && [0x10005000, 0x10005000 + 71].all fun a => (lineOf s (lineNo a)).st != .busy &&
       agentSlot s (islandAgent 3) 3 a) = true ∧
    lowestWrite [(7, 1), (3, 2)] = some (3, 2) ∧
    heldOn stood 191 [] = [] ∧ (lineOf stood 5).st ≠ .busy := by decide +kernel

/-! ### Engines and matrix units -/

/-- The first copy of a state, with the piece that lands next. -/
def copyShown (s : State) (p : Copy → Bool) : Bool :=
  match s.copies with
  | [(_, c)] =>
    (match s.blocks.find c.blk with
     | some b =>
       let piece := (openPieces c).headD 0
       let r := rotated s (pieceUnits s b c piece)
       engineRuns b && p c && match (landPieceM b c r.1).run r.2 with
         | .ok _ => true
         | .error _ => false
     | none => false)
  | _ => false

/-- A copy whose first three bytes have landed. -/
def copy1 (w : CopyWork) : State :=
  { stood with copies := [(2, ⟨0, 0, 1, 0x10000000, 1, 0, w, [0, 1, 2], [], 0, [], [], [], false, false, 0, [], 0, [], []⟩)] }

def msg (g : Msg → Msg) : Msg := g ⟨0, 0, none, [1, 2], 1, [0], 0, false, 0, [], 0⟩

/-- The block's ring 1: room for one element, `n` of them held. -/
def ringed (n : Nat) : State :=
  updBlock stood 0 fun b => { b with rings := [(1, ⟨1, 0, n, List.replicate n 0⟩)] }

def sentTo (s : State) (g : Msg) : State := { s with msgs := [(4, g)] }

def input1 (child : Option Nat) : ArmInput := ⟨0, 0, 1, 0, child, 0, List.replicate 32 1, 0, 0, 0⟩

/-- EngineEventsComplete: landings of both kinds of copy; a delivery to a rank that takes it, is not there or is full; a retry;
an input; a node whose time is over. -/
theorem test_meets_engine_events :
    [CopyWork.lanes [(0x10000800, 0x10000900)] 4 none, .tile (tileOf (0x1000 + 0x2000 * 2 ^ 64 + 2 ^ 128 + 2 ^ 160 + 0xFFFFFFFF * 2 ^ 288) false)].all
      (fun w => copyShown (copy1 w) fun c => !(openPieces c).isEmpty) = true ∧
    (tokensFor (sentTo (ringed 0) (msg id)) 0 && (msg id).left.contains 0 && (deliver (sentTo (ringed 0) (msg id)) (beginBlock 0 placedKernel 0 0 0 0) 0 (msg id)).1 == .done &&
      (deliver (sentTo stood (msg id)) (beginBlock 0 placedKernel 0 0 0 0) 7 (msg id)).1 == .never 1 &&
      (deliver (sentTo (ringed 99) (msg id)) (beginBlock 0 placedKernel 0 0 0 0) 0 (msg id)).1 == .tryAgain) = true ∧
    (let g := msg fun g => { g with retry := [(0, 64), (3, 9)] }
     let s := { sentTo stood g with clock := 64 }
     s.msgs.find 4 == some g && g.retry.all fun e => decide (e.2 ≠ 0) && decide (e.2 ≤ s.clock)) = true ∧
    (let s := { stood with arms := [twoRanks false], armInputs := [(6, input1 none)] }
     s.armInputs.find 6 == some (input1 none) && inputGranted s (input1 none) && (armOf s 0 0 1).isSome) = true ∧
    (let a := { twoRanks false with nodes := [(0, ⟨0, [input1 none], some 5⟩)] }
     let s := { stood with arms := [a], clock := 5 }
     armOf s 0 0 1 == some a && (nodeOf a 0).timer == some 5) = true := by decide +kernel

/-- The queue of the unit of core 0 and partition 0 with the entries of these words. -/
def matrixed (is : List Instr) : State :=
  is.foldl (fun s i => taken' i (updSlot s 0 0 0 fun t => { t with pc := BitVec.ofNat 64 placedPc, st := .ready, readyAt := s.clock }))
    (updCrew stood 0 0 oneLane)

def unitShown (s : State) (ok : List MatEntry → MatEntry → Bool) (p : State → MatEntry → Block → Bool) : Bool :=
  match firstEntry (unitOf s 0 0) ok with
  | some (_, e) =>
    (match s.blocks.find e.blk with
     | some b => p s e b
     | none => false)
  | none => false

def mmaWord : Instr := .mma ⟨g7, .v 12, 7, .e4m3, true, false⟩
def mstWord : Instr := .mst ⟨g7, .s 4, .s 5, none, 7, false, false, .f32⟩

def engOk {α : Type} (x : EngM α) (s : State) : Bool :=
  match x.run s with
  | .ok _ => true
  | .error _ => false

/-- MatrixEventsComplete: each step for the first entry of its kind. -/
theorem test_meets_matrix_events :
    unitShown (matrixed [mmaWord]) passMayStart (fun s e _ =>
      ((unitOf s 0 0).queue.any fun e => isPass e && !passBegun e) && claimTurn s 0 (matrixRank 0 0) && (claimPass s 0 e.blk (4 + passRowCount e)).1) = true ∧
    unitShown (taken' (.matrixPassStart 0 0) (matrixed [mmaWord])) passMayLand
      (fun s e b => (unitOf s 0 0).queue.any passBegun && match e.op with
        | .pass t af zpm kh rows _ _ => engOk (landRowsM b 0 0 t af zpm kh rows) s
        | _ => false) = true ∧
    unitShown (matrixed [.mldw (.s 2) (.s 3) .e4m3]) loaderMayRun (fun s e b => (unitOf s 0 0).queue.any isLoader && match e.op with
        | .load off st wf => engOk (loadPlaneM b 0 0 off st wf) s
        | _ => false) = true ∧
    unitShown (matrixed [.mlut 8]) loaderMayRun (fun s e _ => (unitOf s 0 0).queue.any isLoader && match e.op with
        | .lut _ => true
        | _ => false) = true ∧
    [Opnd.zero, .s 8].all (fun d => unitShown (matrixed [.mswap d]) swapMayPoint fun s e _ => (unitOf s 0 0).queue.any isSwap && match e.op with
        | .swap r => r.isSome == (d == .s 8)
        | _ => false) = true ∧
    [Instr.mzero g7 7, .mrd ⟨g7, .v 8, 7, 60, 2⟩, mstWord].all (fun i => unitShown (matrixed [i]) tileMayPoint fun s e b =>
        (unitOf s 0 0).queue.any isOpenTileOp && match e.op with
        | .store t _ _ vec sc zpe _ m _ => engOk (takeTileM b (unitOf s 0 0) t vec sc zpe m) s
        | _ => true) = true ∧
    unitShown (matrixed [.mfence .zero]) tileMayPoint (fun s e _ =>
      (unitOf s 0 0).queue.any isOpenTileOp && e.op == .nothing) = true := by decide +kernel

/-- MatrixEventsComplete: a tile that has been taken is stored. -/
theorem test_meets_tile_store :
    unitShown (taken' (.tileOpPoint 0 0) (matrixed [mstWord])) storeMayRun (fun s e b => (unitOf s 0 0).queue.any isTaken && match e.op with
      | .store _ off st _ sc zpe f m (some c) => engOk (storeTileM e b c off st f sc zpe m) s
      | _ => false) = true := by decide +kernel

/-! ### Capsules at their homes -/

/-- A message of lane 0 of the placed crew to the record at 0x1000_0C00. -/
def capMsg (k : CapKind) : CapMsg := ⟨0x200018, 0, 0, 3, 2, 0, k, plainAttr⟩

/-- The message 6 in flight, the record of the given state, its crew in step 2. -/
def capState (st : Nat) (k : CapKind) : State :=
  writePlace { updCrew stood 0 0 (holds 2 false) with capMsgs := [(6, capMsg k)] } (.dev 0x10000C00)
    (ctlBytes st (if st = 0 then 0 else 2) (if st = 0 then 0 else 2 ^ 23) 3)

/-- The same with the executor id that the record then names. -/
def capOwn (st : Nat) (k : CapKind) : State :=
  { capState st k with capMsgs := [(6, { capMsg k with exec := 2 ^ 23 })] }

def asker0 : Asker := ⟨0, 0, 4, 0x10000C00, plainAttr⟩
def enterKind : CapKind := .enter asker0 0x10000820 0x10000040 [1, 2] 0x10000820 plainAttr

def capShown (s : State) (p : State → CapMsg → Bool) : Bool :=
  match s.capMsgs.find 6 with
  | some m => p s m
  | none => false

/-- The record is malformed: FREE in a step. -/
def capBroken (s : State) : State := writePlace s (.dev 0x10000C00) (ctlBytes 0 1 0 3)

/-- CapsuleEventsComplete: a record that is malformed. -/
theorem test_meets_capsule_broken :
    (capShown (capBroken (capState 0 enterKind)) fun s m =>
      let t := (claimLines s [m.record, lineNo 0x10000820]).2
      msgLive s m && (claimLines s [m.record, lineNo 0x10000820]).1 && !poisoned t m.record && recBad t m.record) = true ∧
    (capShown (capBroken (capState 0 (.adopt asker0))) fun s m =>
      let t := (claimLine s m.record).2
      msgLive s m && (claimLine s m.record).1 && !poisoned t m.record && recBad t m.record) = true ∧
    (capShown (capBroken (capState 0 (.commit 1 [] 0x10000040))) fun s m =>
      let t := (claimLine s m.record).2
      !commitWaits s m && (claimLine s m.record).1 && !poisoned t m.record && recBad t m.record) = true := by decide +kernel

/-- CapsuleEventsComplete: a record asked for while FREE and while not. -/
theorem test_meets_capsule_asks :
    [capFree, capHeld, capClosing].all (fun st => capShown (capState st enterKind) fun s m =>
      let t := (claimLines s [m.record, lineNo 0x10000820]).2
      msgLive s m && (claimLines s [m.record, lineNo 0x10000820]).1 && !poisoned t m.record && !recBad t m.record &&
        recState t m.record == st && !versioned t (lineNo 0x10000820)) = true ∧
    [capFree, capHeld, capParked].all (fun st => capShown (capState st (.adopt asker0)) fun s m =>
      let t := (claimLine s m.record).2
      msgLive s m && (claimLine s m.record).1 && !poisoned t m.record && !recBad t m.record && recState t m.record == st) = true := by
  decide +kernel

/-- CapsuleEventsComplete: each commit with a stale tag and with the record's; a close; a park; a reclaim. -/
theorem test_meets_capsule_ends :
    [(0 : Fin 3), 1, 2].all (fun k =>
      capShown (capState capHeld (.commit k [] 0x10000040)) (fun s m =>
        let t := (claimLine s m.record).2
        !commitWaits s m && (claimLine s m.record).1 && !poisoned t m.record && !recBad t m.record && staleTag t m) &&
      capShown (capOwn capHeld (.commit k [] 0x10000040)) fun s m =>
        let t := (claimLine s m.record).2
        let u := (claimLines t (commitLines t m (decide (k ≠ 0)))).2
        !commitWaits s m && (claimLine s m.record).1 && !poisoned t m.record && !recBad t m.record && !staleTag t m &&
          (k == 0 || !slotHeld t m) && (claimLines t (commitLines t m (decide (k ≠ 0)))).1 &&
          (commitLines (dropMsg u 6) m (decide (k ≠ 0))).all fun g => !poisoned (dropMsg u 6) g) = true ∧
    (let s := { stood with capHomes := [(0x200018, ⟨some 0x10000820, plainAttr, plainAttr, 0, some (0, 0, 0)⟩)] }
     (match s.capHomes.find 0x200018 with
      | some h => h.closing == some (0, 0, 0)
      | none => false) && (claimLine s 0x200018).1) = true ∧
    [(capHeld, CapKind.park), (capParked, .reclaim 5)].all (fun p =>
      capShown (capOwn p.1 p.2) (fun s m => !committing s m.blk m.crew && noticeSlot s m && msgLive s m &&
        (p.2 == .park || !parking s m.blk m.crew) && (claimLine s m.record).1 && ownRecord (dropMsg (claimLine s m.record).2 6) m p.1) &&
      capShown (capState p.1 p.2) fun s m => !ownRecord (dropMsg (claimLine s m.record).2 6) m p.1) = true := by decide +kernel

/-- CapsuleEventsComplete: a store of a step with a stale tag, to a line that no step holds, and to a line held by the step of an
earlier record; a restart; staged records. -/
theorem test_meets_capsule_stores :
    capShown (capState capHeld (.store 77 [(77 * 128, 5)] plainAttr 0)) (fun s m => staleTag s m) = true ∧
    [false, true].all (fun held =>
      let v : Version := ⟨77, 0x200017, 1, 0, 2 ^ 23, [], plainAttr⟩
      let s := { capOwn capHeld (.store 77 [(77 * 128, 5)] plainAttr 0) with versions := if held then [v] else [] }
      capShown s fun s m => !staleTag s m && !earlierStore s 6 m 77 && (lineOf s 77).st != .busy &&
        (s.versions.find? fun v => v.line == 77 && v.record != m.record) == (if held then some v else none) &&
        decide (v.record ≤ m.record)) = true ∧
    (let s := { updCrew stood 0 0 (fun y => { holds 2 false y with
       holding := (holds 2 false y).holding.map fun k => { k with resting := some 7 } }) with clock := 7 }
     blockAt s fun x => x.st == .running && match (crewOf s 0 0).bind fun y => y.holding with
       | some h => h.resting == some 7
       | none => false) = true ∧
    (blockAt stood fun _ => !tapeWaiting stood 0 0) = true ∧
    (let s := updSlot (taken' (.trec ⟨g7, .v 9, 5, false⟩) (ready (.trec ⟨g7, .v 9, 5, false⟩) bound)) 0 0 0 fun t =>
       { t with st := .waiting (.object (.tape 1) 1 none) }
     blockAt s (fun x => x.st == .running) && tapeWaiting s 0 0 && match crewOf s 0 0 with
       | some y => !y.tape.staged.isEmpty
       | none => false) = true := by decide +kernel

/-! ### The hosts, power, management -/

/-- InterfaceEventsComplete. -/
theorem test_meets_interface_events :
    (portReady host .a && portReady host .b) = true ∧
    (let s := setQi host ⟨.b, 9⟩ { Qi.reset with inv := 2 ^ 22 }
     invBusy (qiOf s ⟨.b, 9⟩) && !invPending s ⟨.b, 9⟩ (qiOf s ⟨.b, 9⟩).inv) = true ∧
    (hsemOwner (hsemOf host 31) = 0 ∧ hsemOwner (hsemOf (setHsem host 31 2) 31) = portNumber .b ∧
      hsemOwner (hsemOf (setHsem host 31 2) 31) ≠ portNumber .a) ∧
    (let s := semNoted host .b
     portReady s .a && decide (s.clock < s.regs.semTill) && decide (host.regs.semTill ≤ host.clock)) = true := by decide +kernel

def hostWrite : HostAccess := ⟨.a, 0x10000FC0, 64, some 9⟩

/-- HostEventsComplete: a read and a write at the end of device memory; a write that a probe asked for; a snoop of a line that is not held and of one that is;
a remote access whose time is over, the last and before; a remote request. -/
theorem test_meets_host_events :
    (let s := setLine host (lineNo hostWrite.pa) { Line.reset with st := .busy, prior := .own, ptrs := [192], probes := 1, probed := some 192 }
     snoopedWrite s hostWrite && portUp s .a) = true ∧
    [hostWrite, { hostWrite with wr := none, pa := Config.deviceBytes - 1 }].all (fun x => decide (x.pa + hostLen x ≤ Config.deviceBytes) &&
      portUp host x.port && !snoopedWrite host x &&
      agentSlot host (portAgent x.port) (portDie x.port) x.pa && [0, 1, 2].all fun k =>
        (hostReady { host with free := host.free + 1 } (portDie x.port) (lineNo x.pa) (some (portAgent x.port)) (hostAlone x k)).isSome) = true ∧
    ((host.down, heldHere (lineOf host (hostLine .a 0))) == (false, false) && portUp host .a && portUp host .b &&
      [SnoopKind.data, .inv, .cur].all fun k =>
        let s := setLine host (hostLine .b 0x80) { Line.reset with resident := true }
        heldHere (lineOf s (hostLine .b 0x80)) && agentSlot s (portAgent .b) (portDie .b) (128 * hostLine .b 0x80) &&
          (hostReady s (portDie .b) (hostLine .b 0x80) none (k == .inv)).isSome) = true ∧
    [0, 2].all (fun n =>
      let x : Remote := ⟨n, 5, none, .none, 0, 0, 0, [], false⟩
      let s := { stood with remotes := [(3, x)], clock := 5 + Config.remoteWait }
      s.remotes.find 3 == some x && decide (x.since + Config.remoteWait ≤ s.clock)) = true ∧
    [RemoteOp.read 64, .write 64 5, .atom .add .n32 1 0].all (fun o =>
      let x : RemoteReq := ⟨2, 0x10000F80, o⟩
      decide (x.pa + remoteLen x ≤ Config.deviceBytes) && agentSlot host (194 + homeDie x.pa) (homeDie x.pa) x.pa &&
        (hostReady host (homeDie x.pa) (lineNo x.pa) none (remoteWrites x)).isSome) = true := by
  decide +kernel

/-- A module at a step of its bring-up. -/
def bringing (n : Nat) : State := setDevrdy State.reset (devrdyOf n false false 0 false)

/-- PowerEventsComplete: a decay that is due, a die at 120 °C, each step of a bring-up, one that fails and one that is good. -/
theorem test_meets_power_events :
    moduleReady host = true ∧
    (let s := { setDie stood 2 { dieOf stood 2 with coolSince := some 7, tshift := 1 } with clock := 1750007 }
     (dieOf s 2).coolSince == some 7 && (dieOf s 2).tshift != 0 && decide (7 + 1750000 ≤ s.clock)) = true ∧
    120 ≤ (dieOf (setDie stood 2 { dieOf stood 2 with temp := 120 }) 2).temp ∧
    (devStep State.reset == 0 && (List.range 7).all fun n => devStep (bringing n) == n && !devFailed (bringing n)) = true ∧
    firstFail [true, false, false] = some 1 ∧ firstFail [true, true] = none := by decide +kernel

/-- R343: FCODE of each step that fails; the ports leave each other usable. -/
theorem test_bring_up :
    bringNext (bringing 1) = 0x1021 ∧ bringNext { bringing 2 with trains := [[true, false], [], []] } = 0x2122 ∧
    bringNext { bringing 3 with trains := [[], [true, true, false], []] } = 0x3223 ∧
    (trainPorts { bringing 4 with trains := [[], [], [true, false]] }).regs.devrdy = 0x4105 ∧
    portUp (trainPorts { bringing 4 with trains := [[], [], [true, false]] }) .a = true ∧
    portUp (trainPorts { bringing 4 with trains := [[], [], [true, false]] }) .b = false := by decide +kernel

/-- ManagementEventsComplete: a module that is READY and one that is not; a port out of use; an image loaded. -/
theorem test_meets_management_events :
    (portReady host .a && portUp host .b && !moduleReady State.reset && !portUp { host with deadPorts := [.b] } .b) = true ∧
    regOf .b (.bar0 0xB0000) = .devrdy ∧ regOf .a (.msix 0 false) ≠ .devrdy ∧
    ({ host with images := [⟨[], [], []⟩] }).images[0]? = some ⟨[], [], []⟩ := by
  decide +kernel

/-! ### Traps, faults, checks, the step -/

/-- The launch's flags. -/
def flagged (n : Nat) (s : State) : State := { s with launches := s.launches.map fun e => (e.1, { e.2 with flags := n }) }

/-- TrapIsTaken, HandlerEntryAndReturn: with a handler and without. -/
theorem test_meets_traps :
    [6, 14].all (fun n => atSlot (flagged n stood) fun h => (flagged n stood).blocks.find h.b == some h.blk &&
      h.blk.crews.find h.c == some h.crew && h.crew.handler.isNone && nbit (flagsOf (flagged n stood) h.blk) 3 == (n == 14) &&
      ((flagged n stood).launches.find h.blk.launch).isSome && codeStated .trap && decide (h.k < 2) &&
      Memory.wf (flagged n stood).mem && decide (h.c < h.blk.kern.crews) && decide (128 * h.blk.kern.crews ≤ h.blk.kern.stash) &&
      !spillsOver h 1 && !spillsOver h (hMask h)) = true ∧
    (let s := flagged 14 (updCrew stood 0 0 fun y => { y with spills := List.replicate Config.stackDepth spill1 })
     atSlot s fun h => s.blocks.find h.b == some h.blk && h.blk.crews.find h.c == some h.crew && h.crew.handler.isNone &&
       nbit (flagsOf s h.blk) 3 && spillsOver h 1) = true ∧
    [g7, none7].all (fun g => witness (.trap g 9) asIs fun _ h => (activeMask h g == 0) == (g == none7)) = true ∧
    witness (.bra ⟨false, 1⟩ 4) (fun y => { setP 1 3 y with
        slot1 := { y.slot1 with mask := 1, st := .ready }, spills := List.replicate Config.stackDepth spill1 })
      (fun _ h => activeMask h ⟨false, 1⟩ != 0 && activeMask h ⟨false, 1⟩ != hMask h && h.crew.handler.isNone &&
        (slotOf h.crew (1 - h.k)).mask != 0 && !awaitsHome (slotOf h.crew (1 - h.k)) &&
        decide (Config.stackDepth ≤ h.crew.spills.length)) = true ∧
    witness (.ret g7 (.s 6)) handling (fun s h => hMask h != 0 && (match h.crew.handler with
        | some hd => !hd.cap
        | none => false) &&
      sameTarget (activeMask h g7) (fun l => BitVec.ofNat 64 (srcNum s h (.s 6) 2 l)) == hMask h) = true := by decide +kernel

/-- HandlerErrorsEndGrid: a trap taken in handler mode; each word that ends the grid there. -/
theorem test_meets_handler_errors :
    (let s := updCrew stood 0 0 handling
     atSlot s fun h => s.blocks.find h.b == some h.blk && h.blk.crews.find h.c == some h.crew && h.crew.handler.isSome) = true ∧
    [Instr.join 6, .lser, .waitBar 1 (.s 1) (.s 2) none, .waitBmp 2 (.s 8) (.s 3) (some (.s 4)), .waitAc 7 15 none,
     .waitTl 7 (.s 1) (.s 2) none].all (fun i => witness i handling fun _ h => h.crew.handler.isSome) = true ∧
    (let g : Guard := ⟨false, 1⟩
     let f := fun y => setP 1 3 (handling y)
     let part := fun (h : Here) (m : Mask) => h.crew.handler.isSome && activeMask h g != 0 && m != hMask h
     [Instr.bra g 4, .call g (.v 4) 16].all (fun i => witness i f fun _ h => part h (activeMask h g)) &&
     witness (.brx g (.v 5)) f (fun s h => part h (sameTarget (activeMask h g) fun l => relTarget h (BitVec.ofNat 32 (srcNum s h (.v 5) 1 l)))) &&
     [Instr.callx g (.v 4) (.v 6), .ret g (.v 6)].all (fun i => witness i f fun s h =>
       part h (sameTarget (activeMask h g) fun l => BitVec.ofNat 64 (srcNum s h (.v 6) 2 l)))) = true := by decide +kernel

/-- The placed word `w`, its slot changed by `f`. -/
def wordAt (w : DWord) (f : Slot → Slot) : State :=
  updCrew (State.reset.withFetchWord 64 w.toNat) 0 0 fun y => { y with slot0 := f y.slot0 }

def slotShown (s : State) (p : State → Here → Bool) : Bool :=
  match here (issuing s ⟨0, 0, 0⟩) with
  | some h => (hSlot h).due.isEmpty && p (issuing s ⟨0, 0, 0⟩) h
  | none => false

/-- FetchIsChecked: a PC that is misaligned, below the window, with bits above bit 56 set, and on a page without EX. -/
theorem test_meets_fetch :
    slotShown (wordAt 0 fun t => { t with pc := 0x10000004 }) (fun _ h => (hPc h).toNat % 8 != 0) = true ∧
    [0xFFFFFF8, 0x0200000010000000].all (fun pc => slotShown (wordAt 0 fun t => { t with pc := BitVec.ofNat 64 pc }) fun _ h =>
      (hPc h).toNat % 8 == 0 && ((((hPc h).toNat / 2 ^ 56 != 0) && (hPc h).toNat / 2 ^ 56 != 255) || decide ((hPc h).toNat < 0x10000000))) = true ∧
    (let s := wordAt 0 id
     slotShown { s with cores := s.cores.put 0 { coreOf s 0 with tlb := [{ placedPage with attr := { plainAttr with ex := false } }] } }
       fun s h => (hPc h).toNat % 8 == 0 && match tlbFind s h.blk.core (ctxOf s h.blk) (hPc h).toNat with
         | some t => !t.attr.ex
         | none => false) = true := by decide +kernel

def fetched (s : State) (h : Here) (p : Instr → Here → Bool) : Bool :=
  match fetchWord s h with
  | .word w => (match decode w with
      | .ok i => p i { h with act := wordLanes h i }
      | _ => false)
  | _ => false

/-- The placed instruction, its crew changed by `f` and its kernel with 8 registers of each file. -/
def narrow (i : Instr) (f : Crew → Crew) : State :=
  updBlock (updCrew (State.reset.withFetchWord 64 (encode i).toNat) 0 0 f) 0 fun b => { b with kern := { b.kern with vregs := 8, sregs := 8 } }

/-- ChecksInOrder: each check that fails. -/
theorem test_meets_checks :
    slotShown (wordAt 0 fun t => { t with pc := 0x10000004 }) (fun s h => match fetchWord s h with
      | .word _ => false
      | _ => true) = true ∧
    [(0, true), (0xA00A040004240108, false)].all (fun p => slotShown (wordAt (BitVec.ofNat 64 p.1) id) fun s h => match fetchWord s h with
      | .word w => decode w == (if p.2 then .illop else .illpair)
      | _ => false) = true ∧
    [Instr.barv (.s 2) (.s 1) (.imm 1), .mov ⟨g7, .s 1, .imm 3, false⟩].all (fun i => slotShown (narrow i (holds 2 false)) fun s h =>
      inCapsule h.crew (hMask h) && fetched s h fun i _ => !capPermitted i || (uses i).any fun u => !capOperand u) = true ∧
    [false, true].all (fun older => slotShown (narrow (.iadd ⟨g7, .v 8, .v 2, .v 3, .i32, false⟩) fun y =>
        if older then { y with slot0 := { y.slot0 with age := 5 }, slot1 := { y.slot1 with mask := 1, st := .waiting (.sleep 9), age := 2 } } else y)
      fun s h => !inCapsule h.crew (hMask h) && olderRuns h.crew h.k == older && fetched s h fun i _ => !isTapeWord h.crew i &&
        (uses i).any fun u => !inCounts h.blk.kern u) = true ∧
    slotShown (narrow (.fmul ⟨g7, .v 1, .chan 3 false, .chan 3 true, plainMods⟩) asIs) (fun s h => !olderRuns h.crew h.k &&
      fetched s h fun i _ => (uses i).any fun u => match chanUse u with
        | some c => (chanOf h.crew c.1).kind.val == 0
        | none => false) = true ∧
    slotShown (narrow (.mov ⟨g7, .chan 3 false, .v 1, false⟩) fun y => { y with chans := [(3, ⟨1, 0, 0, []⟩)] }) (fun s h =>
      !olderRuns h.crew h.k && fetched s h fun i _ => (uses i).any fun u => match chanDst u with
        | some c => (chanOf h.crew c).kind.val != 4
        | none => false) = true := by decide +kernel

/-- PreciseFaultSavesBlock: a running block with another of its fleet; an access of each lane at the end of the stash, the lowest
lane's the first beyond; each access to an address in no window. -/
theorem test_meets_precise_fault :
    (let s := { stood with blocks := stood.blocks ++ stood.blocks.map fun e => (1, e.2) }
     atSlot s fun h => s.blocks.find h.b == some h.blk && h.blk.st == .running && h.blk.halting.isNone &&
       (s.blocks.find 1).isSome && (fleetOf s h.blk.launch h.blk.fleet).contains 1) = true ∧
    (let x := local' g7 .b32
     witness (.lds x) (fun y => setV 16 0xFFFFD y) fun s h => activeMask h x.g != 0 && match accessLanes x.d (activeMask h x.g) with
       | l :: _ => decide (h.blk.kern.stash < localOff s h x l + sizeBytes x.sz)
       | [] => false) = true ∧
    (let x := raw g7 .b32 false
     [Instr.ld x, .ldro x, .ldsp x 3].all fun i => witness i (setV2 8 (2 ^ 57)) fun s h => activeMask h x.g != 0 && x.buf == 0 &&
       decide ((acOf h.crew 3).iss < 255) && match accessLanes x.d (activeMask h x.g) with
         | l :: _ => routeOf (rawVa s h x l) (sizeBytes x.sz) == .bad
         | [] => false) = true ∧
    (let x := atomX g7 .add .i32 ⟨false, true⟩
     witness (.atom x) (setV2 8 (2 ^ 57)) fun s h => activeMask h x.g != 0 && !outstanding s h.b h.c (activeMask h x.g) &&
       match accessLanes x.d (activeMask h x.g) with
       | l :: _ => routeOf (srcNum s h x.a 2 l) (4 * atomRegs x.ty) == .bad
       | [] => false) = true ∧
    (let x : RedMemOp := ⟨g7, .v 8, .v 12, .add, .f32, true, .dev⟩
     witness (.red x) (setV2 8 (2 ^ 57)) fun s h => activeMask h x.g != 0 && !outstanding s h.b h.c (activeMask h x.g) &&
       match lanesOf (activeMask h x.g) with
       | l :: _ => routeOf (srcNum s h x.a 2 l) (4 * atomRegs x.ty) == .bad
       | [] => false) = true ∧
    witness (.moor (.s 4) (.s 0)) (setS2 0 (2 ^ 57)) (fun s h => srcNum s h (.s 0) 2 0 % 32 == 0 &&
      routeOf (srcNum s h (.s 0) 2 0) 32 == .bad) = true ∧
    [Instr.cwb (.s 8) (.s 11) .dev, .cinv (.s 8) (.s 11) .dev].all (fun i => witness i (fun y => setS 11 1 (setS2 8 (2 ^ 57) y)) fun s h =>
      srcNum s h (.s 11) 1 0 != 0 && !globalRange (srcNum s h (.s 8) 2 0) (srcNum s h (.s 11) 1 0)) = true := by decide +kernel

/-- LaneWordFrame: the words of each family go on. -/
theorem test_meets_lane_frame :
    (laneTerms g7).all (fun i => goesOn (exec i (ready i asIs)) && match laneShape i with
      | some w => plainSrcs w.srcs
      | none => false) = true ∧
    goesOn (exec (.mov ⟨g7, .v 4, .chan 4 false, false⟩) (ready (.mov ⟨g7, .v 4, .chan 4 false, false⟩)
      fun y => { y with chans := [(4, ⟨4, 0, 0, [[5]]⟩)] })) = true := by decide +kernel

/-- StashStoreFrame: the last word of the stash, on a line that is DRT and on one that is not moored; lane 31 stores last. -/
theorem test_meets_stash_frame :
    [true, false].all (fun moored' =>
      let x := local' g7 .b32
      let s := ready (.sts x) addressed
      let m : Mooring := { entryAt 0xFFF80 1 (some 0) with lines := [(0, { movedLine .drt .none with map := [(0xFFFFC, 0x1000087C)] })] }
      let s := if moored' then { s with cores := s.cores.put 0 { coreOf s 0 with moorings := [(3, m)] } } else s
      meets (.sts x) s fun h => activeMask h x.g != 0 && Memory.wf s.mem && (activeMask h x.g).getLsbD 31 &&
        (stashStores s h x (activeMask h x.g)).all fun p => decide (p.va + sizeBytes x.sz ≤ h.blk.kern.stash) &&
          !acquireOut s h.b h.c (laneBit p.lane) &&
          (touchedLines s h.blk.core (h.blk.base + p.va) (sizeBytes x.sz)).all (fun e => (mlineOf s h.blk.core e.1 e.2).st == .drt) &&
          ((accsOf (stashPa h.blk.core (h.blk.base + p.va)) (sizeBytes x.sz) 0 (laneBit p.lane)).all fun a => !mustWait s h.b h.c none a) &&
          (touchedLines s h.blk.core (h.blk.base + p.va) (sizeBytes x.sz)).isEmpty == !moored' &&
          (mappedPas s h.blk.core (h.blk.base + p.va) (sizeBytes x.sz)).isEmpty == !moored' &&
          (mappedPas s h.blk.core (h.blk.base + p.va) (sizeBytes x.sz)).all fun pa => !versioned s (pa / 128) &&
            !mustWait s h.b h.c none ⟨pa, laneBit p.lane, 0, false⟩) = true := by decide +kernel

/-- A half without modifiers. -/
def half (o : POp) (d a : Opnd) : Half := ⟨o, d, a, false, 0⟩

def pairWf (a b : Half) : Bool := (Instr.pairedWord a b).wf

/-- PairRulesDecide: each rule broken, and none. -/
theorem test_meets_pair_rules :
    (pairBroken (half .mov (.v 5) (.v 2)) (half .mov (.v 1) (.v 3)) ∧ pairWf (half .mov (.v 5) (.v 2)) (half .mov (.v 1) (.v 3)) = true) ∧
    (pairBroken (half .mov (.v 5) (.v 2)) (half .mov (.v 2) (.v 3)) ∧ pairWf (half .mov (.v 5) (.v 2)) (half .mov (.v 2) (.v 3)) = true) ∧
    (pairBroken (half .mov (.v 5) (.v 2)) (half .mov (.v 6) (.v 5)) ∧ pairWf (half .mov (.v 5) (.v 2)) (half .mov (.v 6) (.v 5)) = true) ∧
    (pairBroken (half .mov (.v 5) (.chan 2 false)) (half .mov (.v 6) (.chan 2 false)) ∧
      pairWf (half .mov (.v 5) (.chan 2 false)) (half .mov (.v 6) (.chan 2 false)) = true) ∧
    (pairBroken (half .mov (.v 5) (.s 1)) (half .mov (.v 6) (.s 1)) ∧ pairWf (half .mov (.v 5) (.s 1)) (half .mov (.v 6) (.s 1)) = true) ∧
    (pairBroken (half .frcp (.v 5) (.v 2)) (half .fsin (.v 6) (.v 3)) ∧ pairWf (half .frcp (.v 5) (.v 2)) (half .fsin (.v 6) (.v 3)) = true) ∧
    (pairBroken (half .popc (.chan 2 false) (.v 2)) (half .mov (.v 6) (.v 3)) ∧
      pairWf (half .popc (.chan 2 false) (.v 2)) (half .mov (.v 6) (.v 3)) = true) ∧
    (pairBroken (half .mov (.v 6) (.v 3)) (half .popc (.chan 2 false) (.v 2)) ∧
      pairWf (half .mov (.v 6) (.v 3)) (half .popc (.chan 2 false) (.v 2)) = true) := by
  exact ⟨⟨.inl ⟨5, 1, rfl, rfl, rfl⟩, by decide⟩, ⟨.inr (.inl ⟨2, rfl, by decide⟩), by decide⟩,
    ⟨.inr (.inr (.inl ⟨5, rfl, by decide⟩)), by decide⟩, ⟨.inr (.inr (.inr (.inl ⟨by decide, by decide⟩))), by decide⟩,
    ⟨.inr (.inr (.inr (.inr (.inl ⟨1, 1, rfl, rfl⟩)))), by decide⟩, ⟨.inr (.inr (.inr (.inr (.inr (.inl ⟨rfl, rfl⟩))))), by decide⟩,
    ⟨.inr (.inr (.inr (.inr (.inr (.inr (.inl ⟨2, false, rfl, by decide⟩)))))), by decide⟩,
    ⟨.inr (.inr (.inr (.inr (.inr (.inr (.inr ⟨2, false, rfl, by decide⟩)))))), by decide⟩⟩

theorem test_meets_pair_kept :
    ¬ pairBroken (half .mov (.v 5) (.v 2)) (half .mov (.v 6) (.v 3)) ∧ pairWf (half .mov (.v 5) (.v 2)) (half .mov (.v 6) (.v 3)) = true := by
  refine ⟨?_, by decide⟩
  simp [pairBroken, half, halfDst, halfReads, halfSrc, usesChan, isSfu, pairUnary, isChan]

/-- The placed word's page lies in a remote window, whose entry is `e`, and another module has answered the fetch. -/
def farPage (e : Nat) : State :=
  let s := writePlace (wordAt 0 id) (.dev 0) (leBytes 16 e)
  { s with
    cores := s.cores.put 0 { coreOf s 0 with tlb := [{ placedPage with pa := 6 * 2 ^ 50 }] }
    remoteEnds := [⟨.slot ⟨0, 0, 0⟩, placedPc, true⟩] }

/-- StepRunsDecoded: a word in a remote window whose entry refuses it, and in one that answers. -/
theorem test_meets_far_fetch :
    [(0, true), (1 + 5 * 2 ^ 64 + 2 ^ 80, false)].all (fun p => slotShown (farPage p.1) fun s h =>
      match tlbFind s h.blk.core (ctxOf s h.blk) (hPc h).toNat with
      | some t => (hPc h).toNat % 8 == 0 && t.attr.ex && isRemote (tlbPa t (hPc h).toNat) &&
          (remotePlace s (tlbPa t (hPc h).toNat) false).isNone == p.2 &&
          (p.2 || (sendTo s h.blk.core (sliceOf (tlbPa t (hPc h).toNat)) &&
            (remoteHops s h.blk.core (tlbPa t (hPc h).toNat)).all (hopFree s) &&
            s.remoteEnds.any fun e => e.who == s.actor && e.va == (hPc h).toNat && e.ok))
      | none => false) = true := by decide +kernel

/-- StepRunsDecoded: the one slot issues; the one event of the agenda; a mark; nothing to come. DecodeOfEncode,
OnlyEncodingsAreLegal: a word that is legal. -/
theorem test_meets_step :
    (let s := State.reset.withFetchWord 64 0x0170300806000000
     chosen s == some (.issue ⟨0, 0, 0⟩) && slotShown s fun s h => fetchWord s h == .word 0x0170300806000000 &&
       decode 0x0170300806000000 == .ok (.iadd ⟨g7, .v 6, .v 2, .v 3, .i32, false⟩) && (hPc h).toNat % 8 == 0 &&
       match tlbFind s h.blk.core (ctxOf s h.blk) (hPc h).toNat with
       | some t => t.attr.ex && slotTo s h.blk.core (sliceOf (tlbPa t (hPc h).toNat)) && turnAt s (lineNo (tlbPa t (hPc h).toNat)) &&
           (lineOf s (lineNo (tlbPa t (hPc h).toNat))).st != .busy && !poisoned s (lineNo (tlbPa t (hPc h).toNat))
       | none => false) = true ∧
    (let s := { State.reset with agenda := [.rstreq] }
     chosen s == some (.event 0) && s.agenda[0]? == some .rstreq) = true ∧
    (let s := setDie (setDie (setDie { State.reset with clock := 64 } 0 { Die.reset with window := 1 }) 1 { Die.reset with window := 1 }) 2
       { Die.reset with window := 1 }
     chosen s == some (.mark (.tokenWindow 3))) = true ∧
    chosen { slotted (fun t => { t with st := .waiting (.sleep 9) }) with free := 1 } = some (.ahead ⟨0, 0, 0⟩) ∧
    chosen State.reset = none := by decide +kernel

/-- NoInstructionStops: a slot issues; an access beyond the device memory. MemoryStaysCanonical: a step from memory in order.
RoundsToNearest: a ratio half-way between two patterns. -/
theorem test_meets_rest :
    (here (ready (.nop g7) asIs)).isSome = true ∧
    (beyondMemory (.hostMemAccess ⟨.a, Config.deviceBytes, 1, none⟩) host ∧ ¬ beyondMemory .rstreq host ∧
      beyondMemory (.crilvonRemoteRequest ⟨1, Config.deviceBytes, .read 1⟩) host) ∧
    (Memory.wf (State.reset.withFetchWord 64 0x0170300806000000).mem && goesOn (step (State.reset.withFetchWord 64 0x0170300806000000))) = true ∧
    roundPat ffE4m3 17 1 0 = 0x58 ∧ roundPat ffE4m3 18 1 0 = 0x59 := by
  refine ⟨by decide +kernel, ⟨.inl ⟨_, rfl, by decide +kernel, by decide +kernel⟩, ?_, .inr ⟨_, rfl, by decide +kernel⟩⟩,
    by decide +kernel, by decide +kernel, by decide +kernel⟩
  rintro (⟨x, hx, _⟩ | ⟨x, hx, _⟩) <;> cases hx

theorem mem_of_find {α : Type} {t : Table α} {k : Nat} {a : α} (h : t.find k = some a) : (k, a) ∈ t := by
  induction t with
  | nil => cases h
  | cons e r ih =>
    unfold Table.find at h
    split at h
    · rename_i hk
      cases h; subst hk; exact List.mem_cons_self
    · exact List.mem_cons_of_mem _ (ih h)

theorem getD_cases {α : Type} (t : Table α) (k : Nat) (d : α) : t.getD k d = d ∨ ∃ e ∈ t, t.getD k d = e.2 := by
  induction t with
  | nil => exact .inl rfl
  | cons e r ih =>
    unfold Table.getD
    split
    · exact .inr ⟨e, List.mem_cons_self, rfl⟩
    · rcases ih with h | ⟨x, hx, h⟩
      · exact .inl h
      · exact .inr ⟨x, List.mem_cons_of_mem _ hx, h⟩

/-- The crews of a state with these blocks are legal. -/
theorem crewsLegal_of {s : State} (h : (s.blocks.all fun e => (e.2.crews.all fun y =>
    decide (y.2.spills.length ≤ Config.stackDepth) && decide (y.2.joins.length ≤ Config.stackDepth)) &&
    decide (e.2.st = .saved ↔ e.2.image.isSome = true)) = true) : crewsLegal s := by
  refine ⟨fun b c y hy => ?_, fun b x hx => ?_⟩
  · obtain ⟨x, hx, hc⟩ := Option.bind_eq_some_iff.mp hy
    have h1 := (Bool.and_eq_true_iff.mp (List.all_eq_true.mp h _ (mem_of_find hx))).1
    simpa using List.all_eq_true.mp h1 _ (mem_of_find hc)
  · exact of_decide_eq_true (Bool.and_eq_true_iff.mp (List.all_eq_true.mp h _ (mem_of_find hx))).2

def dieLegal (d : Die) : Bool :=
  decide (4096 ≤ d.eff ∧ d.eff ≤ 34048 ∧ d.left ≤ d.eff ∧ d.tshift ≤ 4 ∧ d.thrw ≤ 65535)

def qiLegal (q : Qi) : Bool :=
  !nbit q.ctl.toNat 0 || decide (6 ≤ nfield q.ctl.toNat 4 4 ∧ nfield q.ctl.toNat 4 4 ≤ 12 ∧
    1 ≤ nfield q.ctl.toNat 16 13 ∧ nfield q.ctl.toNat 16 13 ≤ 4096)

theorem registersLegal_of {s : State} (h1 : (dieLegal Die.reset && s.dies.all fun e => dieLegal e.2) = true)
    (h2 : (qiLegal Qi.reset && s.qis.all fun e => qiLegal e.2) = true)
    (h3 : (decide (1 ≤ s.regs.nextToken) && s.tokens.all fun e => decide (e.1 ≠ 0 ∧ e.1 < s.regs.nextToken)) = true) :
    registersLegal s := by
  simp only [Bool.and_eq_true, List.all_eq_true] at h1 h2 h3
  refine ⟨fun d => ?_, fun q hq => ?_, by simpa using h3.1, fun n w hn => by simpa using h3.2 _ (mem_of_find hn)⟩
  · have : dieLegal (dieOf s d) = true := by
      rcases getD_cases s.dies d Die.reset with h | ⟨e, he, h⟩ <;> unfold dieOf <;> rw [h]
      · exact h1.1
      · exact h1.2 e he
    simpa [dieLegal] using this
  · have : qiLegal (qiOf s q) = true := by
      rcases getD_cases s.qis (qiKey q) Qi.reset with h | ⟨e, he, h⟩ <;> unfold qiOf <;> rw [h]
      · exact h2.1
      · exact h2.2 e he
    simpa [qiLegal, hq] using this

/-- CrewsAndBlocksStayLegal, RegistersStayLegal: a step from a state that is legal, with a crew at the limit of its stacks, a
saved block, an enabled interface and a token. -/
theorem test_meets_legal :
    crewsLegal savedState ∧
    (let s := updCrew (State.reset.withFetchWord 64 0x0170300806000000) 0 0 fun y => { y with
       spills := List.replicate Config.stackDepth spill1, joins := List.replicate Config.stackDepth ⟨0x10000040, 1, []⟩ }
     crewsLegal s ∧ goesOn (step s) = true) ∧
    (let s := timed4 (mapped (State.reset.withFetchWord 64 0x0170300806000000))
     let t := { s with tokens := [(1, .block 0)], regs := { s.regs with nextToken := 2 } }
     registersLegal t ∧ goesOn (step t) = true) := by
  refine ⟨crewsLegal_of (by decide +kernel), ⟨crewsLegal_of (by decide +kernel), by decide +kernel⟩,
    ⟨registersLegal_of (by decide +kernel) (by decide +kernel) (by decide +kernel), by decide +kernel⟩⟩

/-! ## Single steps

Results that the spec's own examples and tables give. -/

/-- v`k` of lane `l` after the word. -/
def regAfter (i : Instr) (f : Crew → Crew) (k l : Nat) : Nat :=
  match crewOf (after i (ready i f)) 0 0 with
  | some y => (readV y k l).toNat
  | none => 0

def crewAfter (i : Instr) (f : Crew → Crew) (p : Crew → Nat) : Nat :=
  match crewOf (after i (ready i f)) 0 0 with
  | some y => p y
  | none => 0

/-- R147: the least integer. -/
theorem test_iabs :
    regAfter (.iabs ⟨g7, .v 4, .v 8, .i32, false⟩) (setV 8 0x80000000) 4 31 = 0x80000000 ∧
    regAfter (.iabs ⟨g7, .v 4, .v 8, .i32, true⟩) (setV 8 0x80000000) 4 31 = 0x7FFFFFFF := by decide +kernel

/-- R147: the high half as unsigned and as signed. -/
theorem test_imulhi :
    regAfter (.imulhi ⟨g7, .v 4, .v 8, .v 8, .n32, false⟩) (setV 8 0xFFFFFFFF) 4 0 = 0xFFFFFFFE ∧
    regAfter (.imulhi ⟨g7, .v 4, .v 8, .v 8, .i32, false⟩) (setV 8 0xFFFFFFFF) 4 0 = 0 := by decide +kernel

/-- 14: the carry out of a low word, and the subtraction that takes p7 as its carry in. -/
theorem test_iaddc :
    crewAfter (.iaddc ⟨g7, .v 4, .v 0, .v 2, none, 1⟩) (fun y => setV 0 0xFFFFFFFF (setV 2 1 y))
      (fun y => (readV y 4 5).toNat * 2 ^ 32 + (y.p.getD 1 0).toNat) = 0xFFFFFFFF ∧
    crewAfter (.iaddc ⟨g7, .v 4, .v 0, .v 6, some (7, false), 1⟩) (setV 6 0xFFFFFFFE)
      (fun y => (readV y 4 5).toNat * 2 ^ 32 + (y.p.getD 1 0).toNat) = 0xFFFFFFFF * 2 ^ 32 := by decide +kernel

/-- 14: the funnel shifts, the count modulo 32. -/
theorem test_fshf :
    [(false, 8, 0x6789ABCD), (true, 8, 0x23456789), (true, 40, 0x23456789)].all (fun p =>
      regAfter (.fshf ⟨g7, .v 5, .v 1, .v 2, .v 3, p.1⟩) (fun y => setV 1 0x89ABCDEF (setV 2 0x01234567 (setV 3 p.2.1 y))) 5 0 == p.2.2) =
      true := by decide +kernel

/-- R155: −3 is less than 2, and not as an unsigned number. -/
theorem test_isetp :
    [(IntTy.i32, 0xFFFFFFFF), (.n32, 0)].all (fun p =>
      crewAfter (.isetp ⟨g7, 3, .v 4, .v 5, .lt, p.1, none⟩) (fun y => setV 4 0xFFFFFFFD (setV 5 2 y)) (fun y => (y.p.getD 3 0).toNat) == p.2) =
      true := by decide +kernel

/-- 14: comparisons with a NaN, and INV. -/
theorem test_fsetp :
    [(FCmp.lt, 0, 1), (.ge, 0, 1), (.ne, 0xFFFFFFFF, 0), (.nan, 0xFFFFFFFF, 0)].all (fun p =>
      crewAfter (.fsetp ⟨g7, 1, .v 1, .v 2, plainMods, p.1, none⟩) (fun y => setV 1 0x7FC00000 (setV 2 0x3F800000 y))
        (fun y => (y.p.getD 1 0).toNat + y.fstat.toNat % 2 * 2 ^ 32) == p.2.1 + p.2.2 * 2 ^ 32) = true := by decide +kernel

/-- The table of corner values of 09, and 10. -/
theorem test_convert :
    [(convertTo .f32 .e4m3 false (valueIn .f32 0x43E60000), (0x7E, 0)), (convertTo .f32 .e4m3 false (valueIn .f32 0x43EB0000), (0x7E, flagSat)),
     (convertTo .f32 .e4m3 false (valueIn .f32 0x3A800000), (0, 0)), (convertTo .f32 .e5m2 false (valueIn .f32 0x476A6000), (0x7B, 0)),
     (convertTo .f32 .e5m2 false (valueIn .f32 0x47700000), (0x7B, flagSat)), (convertTo .f32 .e5m2 false (valueIn .f32 0x7F800000), (0x7B, flagSat)),
     (convertTo .f32 .e2m1 false (valueIn .f32 0x40A00000), (6, 0)), (convertTo .f32 .e2m1 false (valueIn .f32 0x3F400000), (2, 0)),
     (convertTo .f32 .e2m1 false (valueIn .f32 0x40E00000), (7, flagSat)), (convertTo .f32 .bf16 false (valueIn .f32 0x3F808000), (0x3F80, 0)),
     (convertTo .f32 .bf16 false (valueIn .f32 0x3F818000), (0x3F82, 0)), (convertTo .f32 .bf16 false (valueIn .f32 0x7F7FFFFF), (0x7F7F, flagSat)),
     (convertTo .f32 .i8 false (valueIn .f32 0x42FF0000), (127, flagSat)), (convertTo .f32 .i8 false (valueIn .f32 0xC3008000), (0x80, 0)),
     (convertTo .f32 .i8 true (valueIn .f32 0x42FFCCCD), (127, 0)), (convertTo .f32 .n8 false (valueIn .f32 0xBF333333), (0, flagSat)),
     (convertTo .f32 .e4m3 false (valueIn .f32 0xFFC00001), (0x7F, 0)), (convertTo .e5m2 .e4m3 false (valueIn .e5m2 0xFC), (0xFE, flagSat)),
     (convertTo .e5m2 .f16 false (valueIn .e5m2 0xFC), (0xFC00, 0))].all (fun p => p.1 == p.2) = true := by decide +kernel

/-- R164: 19.0 to E4M3. -/
theorem test_cvt :
    regAfter (.cvt ⟨g7, .v 9, .v 2, .e4m3, .f32, false, 0⟩) (setV 2 0x41980000) 9 7 = 0x5A ∧
    regAfter (.cvt ⟨g7, .v 9, .v 2, .e4m3, .f32, false, 0⟩) (setV 2 0x7FC00000) 9 7 = 0x7F := by decide +kernel

/-- 14: `CVTQ` with the scale it chooses, and with a fixed one (R107's code of −1.0 is 0xA: the commentary's 0x9 is −0.5, log 43). -/
theorem test_cvtq :
    [(none, 0x007E60B7), (some (Opnd.v 30), 0x007F40A6)].all (fun p => regAfter (.cvtq ⟨g7, .v 20, .v 8, p.1, .qf4⟩) (fun y =>
      setV 8 0x406CCCCD (setV 9 0xBF4CCCCD (setV 10 0x3DCCCCCD (setV 11 0x40200000 (setV 30 0x7F y))))) 20 3 == p.2) = true := by decide +kernel

/-- 10: a QI4 block. -/
theorem test_cvtdq :
    (List.range 4).map (fun k => regAfter (.cvtdq ⟨g7, .v 4, .v 8, .qi4, .f32⟩) (setV 8 0x007DF738) (4 + k) 0) =
      [0xC0000000, 0x3F400000, 0x3FE00000, 0xBE800000] := by decide +kernel

/-- 14: `IDP8` of the three pairs of signednesses. -/
theorem test_idp8 :
    [(true, false, 0xFFFFFFEC), (true, true, 0x5C), (false, false, 0x12C)].all (fun p => decide (wrapTo 32
      ((100 : Int) + ((List.range 8).map fun k => intOf p.1 4 (element 4 k 0xF8A1) * intOf p.2.1 4 (element 4 k 0x3F2F)).sum) = p.2.2)) =
      true := by decide +kernel

/-- R191: a record of i8 with scale 0.5 and zero point 3. -/
def rec191 : BufRec := ⟨0, 0, .i8, .f32, 0, 1, 0x3F000000, 0x40400000, 0, 0⟩

/-- R191: 10 is 3.5; 3.7 is 10; 70.0 saturates. -/
theorem test_records :
    bufLoadNat rec191 10 = (0x40600000, 0) ∧ bufStoreNat rec191 0x406CCCCD = (10, 0) ∧
    bufStoreNat rec191 0x428C0000 = (127, flagSat) := by decide +kernel

/-- R264: an accumulator of 1000 with ASUM 40, zero point 8 and scale 2^-6; one of 40000. -/
theorem test_epilogue :
    [(Fmt.f32, 0x412A0000), (.bf16, 0x412A), (.e4m3, 0x53), (.i8, 0x0B)].all (fun p =>
      (epilogueNat p.1 0x447A0000 0x42200000 0x3C800000 0x41000000 true true).1 == p.2) = true ∧
    epilogueNat .e4m3 0x471C4000 0x42200000 0x3C800000 0x41000000 true true = (0x7E, flagSat) := by decide +kernel

/-- The check value of CRC-32C. -/
theorem test_crc : crc32c [0x31, 0x32, 0x33, 0x34, 0x35, 0x36, 0x37, 0x38, 0x39] = 0xE3069283 := by decide +kernel

/-- R63: 0x4_5080 is homed by die 1 at its slice 16. -/
theorem test_slice : homeDie 0x45080 = 1 ∧ sliceOf 0x45080 = 48 := by decide +kernel

/-- R37: of stripes 0 to 12 by 4 the victim keeps the lower half. -/
theorem test_steal :
    (after (.stealq 0 4) (stealing (.stealq 0 0 4))).ctrl.map (fun e => e.2) = [.stealg 0 4 [⟨16, 4⟩]] := by decide +kernel

/-- R338: a deficit of 96, and one of 125, at a budget of 4,096. -/
theorem test_window :
    (openWindow { Die.reset with tokbud := 4096, deficit := 96 } 0 64).opened = 4000 ∧
    (openWindow { Die.reset with tokbud := 4096, deficit := 125 } 0 64).opened = 3971 := by decide +kernel

/-- R342: 3,300 with 400 for each of 4 blocks passes a cap of 5, and of one more does not. -/
theorem test_cap :
    (let l := { placedLaunch with cap := 5, kern := { placedKernel with energy := 400 }, energy := [(0, 3300)] }
     capOk stood 0 0 l 3 && !capOk stood 0 0 l 4) = true := by decide +kernel

end Sys2Proof.Tests
end

section
/-! SUPPORT. The fate of a word (R122, R134): what a slot does once its fetch stops or gives a word, once the word decodes or
does not, and once a check at issue fails. -/

namespace Sys2Proof

open Machine

/-! ## The checks at issue -/

/-- R135, R274: in capsule mode an instruction or an operand that is not permitted. -/
theorem wordFate_of_capsule_forbids {h : Here} {i : Instr} (hc : inCapsule h.crew (hMask h) = true)
    (hf : capPermitted i = false ∨ (uses i).any (fun u => !capOperand u) = true) :
    wordFate h i = .trap .capfault 1 := by
  have hfails : (!capPermitted i || !(uses i).all capOperand) = true := by
    rw [List.not_all_eq_any_not]
    rcases hf with hi | hu
    · simp [hi]
    · rw [hu, Bool.or_true]
  simp only [wordFate, hc, hfails, if_true]

/-- Outside capsule mode, and not held back by path age (R302), the fate is that of the registers and channels. -/
theorem wordFate_of_no_capsule {h : Here} {i : Instr} (hc : inCapsule h.crew (hMask h) = false)
    (ha : isTapeWord h.crew i = true → olderRuns h.crew h.k = false) :
    wordFate h i = operandFate h i (guardMask h.crew (guardOf i) (hMask h)) := by
  have hage : (isTapeWord h.crew i && olderRuns h.crew h.k) = false := by
    cases ht : isTapeWord h.crew i with
    | false => rfl
    | true => rw [ha ht]; rfl
  simp [wordFate, hc, hage]

/-- R126: a register beyond the kernel's counts. -/
theorem operandFate_of_beyond_counts {h : Here} {i : Instr} (m : Mask)
    (hu : ∃ u ∈ uses i, inCounts h.blk.kern u = false) : operandFate h i m = .trap .illop 0 := by
  have hcounts : (uses i).all (inCounts h.blk.kern) = false := by simpa using hu
  simp [operandFate, hcounts]

/-- R125: a source channel that is unbound, or a destination channel that is no local queue. -/
theorem operandFate_of_channel {h : Here} {i : Instr} (m : Mask)
    (hu : (∃ u ∈ uses i, ∃ c, chanUse u = some c ∧ (chanOf h.crew c.1).kind.val = 0) ∨
      ∃ u ∈ uses i, ∃ c, chanDst u = some c ∧ (chanOf h.crew c).kind.val ≠ 4) :
    operandFate h i m = .trap .illop 0 := by
  have hchan : (((uses i).filterMap chanUse).any (fun r => (chanOf h.crew r.1).kind.val == 0) ||
      !((uses i).filterMap chanDst).all (pushOk h.crew)) = true := by
    rw [Bool.or_eq_true]
    rcases hu with ⟨u, hmem, c, hc, hk⟩ | ⟨u, hmem, c, hc, hk⟩
    · exact .inl (List.any_eq_true.2 ⟨c, List.mem_filterMap.2 ⟨u, hmem, hc⟩, by simpa using hk⟩)
    · have hpush : pushOk h.crew c = false := by simpa [pushOk] using hk
      rw [List.not_all_eq_any_not]
      exact .inr (List.any_eq_true.2 ⟨c, List.mem_filterMap.2 ⟨u, hmem, hc⟩, by simp [hpush]⟩)
  simp only [operandFate, hchan, if_true, ite_self]

/-! ## Decode -/

/-- R130: a word that decodes is the encoding of a well-formed instruction. -/
theorem decode_ok {w : DWord} {i : Instr} (hd : decode w = .ok i) : i.wf = true ∧ encode i = w := by
  unfold decode at hd
  split at hd
  · cases hd
  · rename_i j _
    split at hd
    · rename_i hj
      have hji : j = i := by
        split at hd
        · exact Decoded.ok.inj hd
        · cases hd
      rw [Bool.and_eq_true, beq_iff_eq] at hj
      exact hji ▸ hj
    · cases hd

/-- R130, R133: of a word that is its instruction's encoding the pair rules alone decide. -/
theorem decode_of_parse {w : DWord} {i : Instr} (hp : parse w = some i) (hw : i.wf = true) (he : encode i = w) :
    decode w = if pairRules i then .ok i else .illpair := by
  simp [decode, hp, hw, he]

theorem isWord_of_wf {i : Instr} (hw : i.wf = true) : i.isWord = true := by
  simp only [Instr.wf, Bool.and_eq_true] at hw
  obtain ⟨⟨⟨hword, -⟩, -⟩, -⟩ := hw
  exact hword

/-! ## A slot with no record due -/

section
variable {s : State} {r : SlotRef} {h : Here} (hh : here (issuing s r) = some h) (hdue : (hSlot h).due = [])
include hh hdue

theorem stepSlot_of_no_word (hf : ∀ w, fetchWord (issuing s r) h ≠ .word w) :
    stepSlot s r = .next (fetchStop (issuing s r) h (fetchWord (issuing s r) h)) := by
  simp only [stepSlot, hh, hdue, ne_eq, not_true_eq_false, if_false]

variable {w : DWord} (hf : fetchWord (issuing s r) h = .word w)
include hf

theorem stepSlot_of_ok {i : Instr} (hd : decode w = .ok i) :
    stepSlot s r = fetchPaid (issuing s r) h (exec i (issuing s r)) := by
  simp only [stepSlot, hh, hdue, hf, hd, ne_eq, not_true_eq_false, if_false]

/-- A word that is ILLOP or ILLPAIR ends as `decodeStop` says. -/
theorem stepSlot_of_not_ok (hd : ∀ i, decode w ≠ .ok i) :
    stepSlot s r = fetchPaid (issuing s r) h (.next (decodeStop (issuing s r) h (decode w))) := by
  simp only [stepSlot, hh, hdue, hf, ne_eq, not_true_eq_false, if_false]

theorem stepSlot_of_illop (hd : decode w = .illop) :
    stepSlot s r = fetchPaid (issuing s r) h (.next (takeTrap (issuing s r) h .illop 0 0)) := by
  rw [stepSlot_of_not_ok hh hdue hf (by simp [hd]), hd]
  rfl

theorem stepSlot_of_illpair (hd : decode w = .illpair) :
    stepSlot s r = fetchPaid (issuing s r) h (.next (takeTrap (issuing s r) h .illpair 0 0)) := by
  rw [stepSlot_of_not_ok hh hdue hf (by simp [hd]), hd]
  rfl

/-- R134: a word that decodes and fails a check at issue takes that check's trap, and nothing else. -/
theorem stepSlot_of_trap {i : Instr} (hd : decode w = .ok i) {c : Cause} {code : Nat}
    (hw : wordFate { h with act := wordLanes h i } i = .trap c code) :
    stepSlot s r = fetchPaid (issuing s r) h
      (.next (takeTrap (issuing s r) { h with act := wordLanes h i } c code 0)) := by
  obtain ⟨body, hexec⟩ := word_exec i (isWord_of_wf (decode_ok hd).1)
  rw [stepSlot_of_ok hh hdue hf hd, hexec, issueWord_traps ⟨h, hh, rfl⟩ hw]

end

/-- Settles O49: each check that fails, in the order of R134, is the one that `stepSlot` comes to first. -/
theorem checksInOrder : Obligations.ChecksInOrder := by
  unfold Obligations.ChecksInOrder
  intro s r h hh hdue
  refine ⟨stepSlot_of_no_word hh hdue, fun w hf => ⟨stepSlot_of_illop hh hdue hf, stepSlot_of_illpair hh hdue hf, ?_⟩⟩
  intro i hd
  refine ⟨fun hc hforbid => ?_, fun hc hage hbroken => ?_⟩
  · exact stepSlot_of_trap hh hdue hf hd (wordFate_of_capsule_forbids hc hforbid)
  · refine stepSlot_of_trap hh hdue hf hd ((wordFate_of_no_capsule hc hage).trans ?_)
    rcases hbroken with hcounts | hchan
    · exact operandFate_of_beyond_counts _ hcounts
    · exact operandFate_of_channel _ hchan

end Sys2Proof
end

section
/-! SUPPORT. Paired words: what the decoder reads from the encoding of a well-formed pair (R131, R132), and the pair rules
one by one (R133). -/

namespace Sys2Proof

open Machine

/-! ## The encoding of an operand and of a half -/

/-- A place that is aligned to its span and ends at or below a limit begins below it, also where it spans no register. -/
theorem lt_of_span_le {k n lim : Nat} (hlim : 0 < lim) (hspan : k + n ≤ lim) (halign : k % n = 0) : k < lim := by
  rcases Nat.eq_zero_or_pos n with rfl | hn
  · rw [Nat.mod_zero] at halign
    omega
  · omega

theorem opndOf_v {k : Nat} (hk : k < 192) : opndOf (opndCode (.v k)) = some (.v k) := by
  simp [opndCode, opndOf, hk]

theorem opndOf_s {k : Nat} (hk : k < 48) : opndOf (opndCode (.s k)) = some (.s k) := by
  have hnv : ¬ 192 + k < 192 := by omega
  have hs : 192 + k < 240 := by omega
  simp [opndCode, opndOf, hnv, hs]

theorem opndOf_chan : ∀ c < 16, ∀ pk, opndOf (opndCode (.chan c pk)) = some (.chan c pk) := by decide

/-- R124, R125: an operand that its place admits and that is no immediate is what its field names. -/
theorem opndOf_opndCode {u : Use} (hu : useOk u = true) (hi : isImm u.o = false) :
    opndOf (opndCode u.o) = some u.o := by
  unfold useOk at hu
  cases ho : u.o with
  | v k =>
    simp only [ho, Bool.and_eq_true, decide_eq_true_eq, beq_iff_eq] at hu
    obtain ⟨⟨-, hspan⟩, halign⟩ := hu
    exact opndOf_v (lt_of_span_le (by decide) hspan halign)
  | s k =>
    simp only [ho, Bool.and_eq_true, decide_eq_true_eq, beq_iff_eq] at hu
    obtain ⟨⟨-, hspan⟩, halign⟩ := hu
    exact opndOf_s (lt_of_span_le (by decide) hspan halign)
  | chan c pk =>
    simp only [ho, Bool.and_eq_true, decide_eq_true_eq] at hu
    obtain ⟨⟨-, hc⟩, -⟩ := hu
    exact opndOf_chan c hc pk
  | imm x => simp [ho, isImm] at hi
  | zero | lane | crew | bx | byIdx | bz | rank | core | clk | ones => rfl

/-- A field that names an operand has nine bits. -/
theorem lt_of_opndOf {n : Nat} {o : Opnd} (h : opndOf n = some o) : n < 512 := by
  by_contra hn
  have hchan : ¬ (256 ≤ n ∧ n < 288) := by omega
  rw [opndOf, if_neg (by omega), if_neg (by omega), if_neg hchan] at h
  · cases h
  all_goals omega

theorem popcodeOf_popcodeCode (o : POp) : popcodeOf (popcodeCode o) = some o := by cases o <;> rfl

theorem popcodeCode_lt (o : POp) : popcodeCode o < 64 := by cases o <;> decide

/-- The operand that the eight bits of a half's D field name (R131). -/
def halfDest (n : Nat) : Opnd := if n < 128 then .v n else .chan (n - 128) false

/-- The 31 bits of a half from its fields (R131). -/
def halfBits (p d s i m : Nat) : Nat := p * 2 ^ 25 + d * 2 ^ 17 + s * 2 ^ 8 + i * 2 ^ 7 + m

/-- R131: what a half reads as is what its fields name. -/
theorem halfOf_halfBits {op : POp} {d s m : Nat} {i : Bool} {o : Opnd} (hd : d < 256) (hs : opndOf s = some o)
    (hm : m < 128) :
    halfOf (halfBits (popcodeCode op) d s (b2n i) m) = some ⟨op, halfDest d, o, i, ⟨m, hm⟩⟩ := by
  have hp := popcodeCode_lt op
  have hs' := lt_of_opndOf hs
  have hi : b2n i < 2 := by cases i <;> decide
  generalize hw : halfBits (popcodeCode op) d s (b2n i) m = w
  unfold halfBits at hw
  have hpf : w / 2 ^ 25 % 64 = popcodeCode op := by omega
  have hdf : w / 2 ^ 17 % 256 = d := by omega
  have hsf : w / 2 ^ 8 % 512 = s := by omega
  have hif : w / 2 ^ 7 % 2 = b2n i := by omega
  have hmf : Fin.ofNat 128 w = ⟨m, hm⟩ := Fin.ext (by simp only [Fin.ofNat]; omega)
  have hib : (b2n i == 1) = i := by cases i <;> rfl
  unfold halfOf
  rw [hpf, popcodeOf_popcodeCode, hsf, hs, hdf, hif, hib, hmf]
  rfl

/-- R131: a half's D field names v0 to v127 or a channel. -/
theorem halfOk_dest {h : Half} (hh : halfOk h = true) :
    (∃ k < 128, h.d = .v k) ∨ ∃ c < 16, h.d = .chan c false := by
  unfold halfOk at hh
  split at hh
  · rw [beq_iff_eq] at hh
    exact .inl ⟨0, by decide, by rw [hh]⟩
  · simp only [Bool.and_eq_true] at hh
    obtain ⟨⟨hd, -⟩, -⟩ := hh
    split at hd
    · rename_i k hk
      exact .inl ⟨k, by simpa using hd, hk⟩
    · rename_i c pk hc
      simp only [Bool.and_eq_true, decide_eq_true_eq, Bool.not_eq_true'] at hd
      exact .inr ⟨c, hd.1, hd.2 ▸ hc⟩
    · cases hd

/-- R131: the S field of a half names its operand; with an immediate in M it is zero. -/
theorem halfOk_source {h : Half} (hh : halfOk h = true) : opndOf (opndCode h.s) = some h.s := by
  unfold halfOk at hh
  split at hh
  · rw [beq_iff_eq] at hh
    rw [hh]
    rfl
  · simp only [Bool.and_eq_true] at hh
    obtain ⟨⟨-, hs⟩, -⟩ := hh
    split at hs
    · simp only [Bool.and_eq_true, beq_iff_eq] at hs
      rw [hs.2]
      rfl
    · refine opndOf_opndCode hs ?_
      cases ho : h.s with
      | imm x => simp [useOk, ho] at hs
      | _ => rfl

/-- R131: the word of a half is its fields side by side. -/
theorem halfWord_eq_halfBits {h : Half} (hh : halfOk h = true) :
    ∃ d < 256, halfDest d = h.d ∧ halfWord h = halfBits (popcodeCode h.op) d (opndCode h.s) (b2n h.imm) h.m.val := by
  rcases halfOk_dest hh with ⟨k, hk, hd⟩ | ⟨c, hc, hd⟩
  · exact ⟨k, by omega, by rw [hd, halfDest, if_pos hk], by simp [halfWord, halfBits, hd, opndCode]⟩
  · exact ⟨128 + c, by omega, by rw [hd, halfDest, if_neg (by omega), Nat.add_sub_cancel_left],
      by simp [halfWord, halfBits, hd]⟩

theorem halfOf_halfWord {h : Half} (hh : halfOk h = true) : halfOf (halfWord h) = some h := by
  obtain ⟨d, hd, hdest, hword⟩ := halfWord_eq_halfBits hh
  rw [hword, halfOf_halfBits hd (halfOk_source hh) h.m.isLt, hdest]

theorem halfWord_lt {h : Half} (hh : halfOk h = true) : halfWord h < 2 ^ 31 := by
  obtain ⟨d, hd, -, hword⟩ := halfWord_eq_halfBits hh
  have hp := popcodeCode_lt h.op
  have hs := lt_of_opndOf (halfOk_source hh)
  have hi : b2n h.imm < 2 := by cases h.imm <;> decide
  have hm := h.m.isLt
  rw [hword, halfBits]
  omega

/-! ## The encoding of a paired word -/

theorem halfOk_of_wf {a b : Half} (hw : (Instr.pairedWord a b).wf = true) : halfOk a = true ∧ halfOk b = true := by
  simp only [Instr.wf, fieldsOk, Bool.and_eq_true] at hw
  exact hw.2

theorem parse_encode_pairedWord {a b : Half} (ha : halfOk a = true) (hb : halfOk b = true) :
    parse (encode (.pairedWord a b)) = some (.pairedWord a b) := by
  have hla := halfWord_lt ha
  have hlb := halfWord_lt hb
  have hn : (encode (.pairedWord a b)).toNat = 2 ^ 63 + halfWord a * 2 ^ 32 + halfWord b * 2 := by
    simp only [encode, BitVec.toNat_ofNat]
    omega
  unfold parse
  generalize (encode (.pairedWord a b)).toNat = n at hn
  have htop : ¬ n / 2 ^ 63 = 0 := by omega
  have hfa : n / 2 ^ 32 % 2 ^ 31 = halfWord a := by omega
  have hfb : n / 2 % 2 ^ 31 = halfWord b := by omega
  rw [if_neg htop, hfa, hfb, halfOf_halfWord ha, halfOf_halfWord hb]
  rfl

/-- R133: a well-formed paired word is ILLPAIR exactly when the decoder's check of the pair rules fails. -/
theorem decode_encode_pairedWord {a b : Half} (hw : (Instr.pairedWord a b).wf = true) :
    decode (encode (.pairedWord a b)) = if pairBad a b then .illpair else .ok (.pairedWord a b) := by
  obtain ⟨ha, hb⟩ := halfOk_of_wf hw
  rw [decode_of_parse (parse_encode_pairedWord ha hb) hw rfl, pairRules]
  by_cases hbad : pairBad a b = true <;> simp [hbad]

/-! ## The pair rules -/

theorem isV_iff {o : Opnd} : isV o = true ↔ ∃ k, o = .v k := by cases o <;> simp [isV]

theorem isS_iff {o : Opnd} : isS o = true ↔ ∃ k, o = .s k := by cases o <;> simp [isS]

theorem isChan_iff {o : Opnd} : isChan o = true ↔ ∃ c pk, o = .chan c pk := by cases o <;> simp [isChan]

/-- Rule 1. -/
theorem pairBank_iff {a b : Half} :
    pairBank a b = true ↔ ∃ x y, halfDst a = some (.v x) ∧ halfDst b = some (.v y) ∧ x % 4 = y % 4 := by
  unfold pairBank
  split
  · rename_i x y hx hy
    simp [hx, hy]
  · rename_i hne
    refine iff_of_false Bool.false_ne_true ?_
    rintro ⟨x, y, hx, hy, -⟩
    exact hne x y hx hy

/-- Rule 2, for one half. -/
theorem pairTouches_iff {a b : Half} :
    pairTouches a b = true ↔ ∃ x, halfDst b = some (.v x) ∧ .v x ∈ (halfDst a).toList ++ halfReads a := by
  unfold pairTouches
  split
  · rename_i d hd
    rw [Bool.and_eq_true, isV_iff, List.contains_iff_mem, hd]
    constructor
    · rintro ⟨⟨k, rfl⟩, hmem⟩
      exact ⟨k, rfl, hmem⟩
    · rintro ⟨k, hk, hmem⟩
      obtain rfl := Option.some.inj hk
      exact ⟨⟨k, rfl⟩, hmem⟩
  · rename_i hd
    simp [hd]

/-- Rule 4. -/
theorem bothScalar_iff {a b : Half} :
    ((halfSrc a).toList.any isS && (halfSrc b).toList.any isS) = true ↔
      ∃ x y, halfSrc a = some (.s x) ∧ halfSrc b = some (.s y) := by
  simp only [Bool.and_eq_true, List.any_eq_true, Option.mem_toList, isS_iff]
  constructor
  · rintro ⟨⟨_, ha, x, rfl⟩, _, hb, y, rfl⟩
    exact ⟨x, y, ha, hb⟩
  · rintro ⟨x, y, ha, hb⟩
    exact ⟨⟨_, ha, x, rfl⟩, _, hb, y, rfl⟩

/-- Rule 6, for one half. -/
theorem chanDest_iff {a : Half} :
    ((halfDst a).toList.any isChan && a.op != .mov) = true ↔ ∃ c pk, halfDst a = some (.chan c pk) ∧ a.op ≠ .mov := by
  simp only [Bool.and_eq_true, List.any_eq_true, Option.mem_toList, isChan_iff, bne_iff_ne]
  constructor
  · rintro ⟨⟨_, hd, c, pk, rfl⟩, hop⟩
    exact ⟨c, pk, hd, hop⟩
  · rintro ⟨c, pk, hd, hop⟩
    exact ⟨⟨_, hd, c, pk, rfl⟩, hop⟩

/-- R133: what the decoder checks is that one of the rules is broken. -/
theorem pairBad_iff {a b : Half} : pairBad a b = true ↔ pairBroken a b := by
  unfold pairBad pairBroken
  simp only [Bool.or_eq_true, pairBank_iff, pairTouches_iff, bothScalar_iff, chanDest_iff]
  simp only [Bool.and_eq_true, or_assoc]

/-- Settles O51: the decoder reads a well-formed pair back from its encoding, so its check of the rules decides; a word that
is ILLPAIR takes that trap alone. -/
theorem pairRulesDecide : Obligations.PairRulesDecide := by
  unfold Obligations.PairRulesDecide
  refine ⟨fun a b hw => ⟨fun hbroken => ?_, fun hkept => ?_⟩, fun s r h w hh hdue hf hd => stepSlot_of_illpair hh hdue hf hd⟩
  · rw [decode_encode_pairedWord hw, if_pos (pairBad_iff.2 hbroken)]
  · rw [decode_encode_pairedWord hw, if_neg (mt pairBad_iff.1 hkept)]

end Sys2Proof
end

section
/-! SUPPORT. Full-format words: what the decoder reads from the encoding of a well-formed instruction (R123 to R130). -/

namespace Sys2Proof

open Machine

/-! ## The fields of a word -/

/-- Every field lies within its bits (R123). -/
structure Raw.Fits (r : Raw) : Prop where
  major : r.major < 128
  gn : r.gn < 2
  gp : r.gp < 8
  d : r.d < 512
  a : r.a < 512
  b : r.b < 512
  c : r.c < 512
  func : r.func < 65536

theorem rawFields_rawWord {r : Raw} (h : r.Fits) : rawFields (rawWord r) = r := by
  obtain ⟨h1, h2, h3, h4, h5, h6, h7, h8⟩ := h
  obtain ⟨major, gn, gp, d, a, b, c, func⟩ := r
  dsimp only at *
  simp only [rawFields, rawWord, Raw.mk.injEq]
  refine ⟨?_, ?_, ?_, ?_, ?_, ?_, ?_, ?_⟩ <;> omega

theorem rawWord_lt {r : Raw} (h : r.Fits) : rawWord r < 2 ^ 63 := by
  obtain ⟨h1, h2, h3, h4, h5, h6, h7, h8⟩ := h
  simp only [rawWord]
  omega

theorem b2n_lt (b : Bool) : b2n b < 2 := by cases b <;> decide

theorem b2n_beq_one (b : Bool) : (b2n b == 1) = b := by cases b <;> rfl

theorem fbit_eq {r : Raw} {k : Nat} {b : Bool} (h : r.func / 2 ^ k % 2 = b2n b) : fbit r k = b := by
  rw [fbit, h, b2n_beq_one]

theorem ofNat_val {n : Nat} [NeZero n] (x : Fin n) : Fin.ofNat n x.val = x := Fin.ext (Nat.mod_eq_of_lt x.isLt)

/-! ## The full format and the immediate form -/

section
variable (m : Nat) (g : Guard) (d a b c f : Nat) (x : Word) (i : Bool)

@[simp] theorem full_major : (full m g d a b c f).major = m := rfl
@[simp] theorem full_d : (full m g d a b c f).d = d := rfl
@[simp] theorem full_a : (full m g d a b c f).a = a := rfl
@[simp] theorem full_b : (full m g d a b c f).b = b := rfl
@[simp] theorem full_c : (full m g d a b c f).c = c := rfl
@[simp] theorem full_func : (full m g d a b c f).func = f := rfl
@[simp] theorem immed_major : (immed m g d a x i).major = m := rfl
@[simp] theorem immed_d : (immed m g d a x i).d = d := rfl
@[simp] theorem immed_a : (immed m g d a x i).a = a := rfl

@[simp] theorem guardR_full : guardR (full m g d a b c f) = g := by
  simp only [guardR, full, b2n_beq_one, ofNat_val]

@[simp] theorem guardR_immed : guardR (immed m g d a x i) = g := by
  simp only [guardR, immed, b2n_beq_one, ofNat_val]

@[simp] theorem rawI_immed : rawI (immed m g d a x i) = true := by
  have := b2n_lt i
  simp only [rawI, immed, beq_iff_eq]
  omega

@[simp] theorem rawImod_immed : rawImod (immed m g d a x i) = i := by
  have := b2n_lt i
  have h : (2 ^ 15 + x.toNat % 2 ^ 14 * 2 + b2n i) % 2 = b2n i := by omega
  simp only [rawImod, immed, h, b2n_beq_one]

/-- R127: the immediate is read back from the places it fills. -/
@[simp] theorem rawImm_immed : rawImm (immed m g d a x i) = x := by
  have := b2n_lt i
  have hx := x.isLt
  apply BitVec.eq_of_toNat_eq
  simp only [rawImm, immed, BitVec.toNat_ofNat]
  omega

@[simp] theorem bOf_immed : bOf (immed m g d a x i) = some (.imm x) := by simp [bOf]

variable {m d a b c f}

theorem full_fits (hm : m < 128) (hd : d < 512) (ha : a < 512) (hb : b < 512) (hc : c < 512) (hf : f < 65536) :
    (full m g d a b c f).Fits := ⟨hm, b2n_lt _, g.p.isLt, hd, ha, hb, hc, hf⟩

theorem immed_fits (hm : m < 128) (hd : d < 512) (ha : a < 512) : (immed m g d a x i).Fits := by
  have := b2n_lt i
  have hx := x.isLt
  refine ⟨hm, b2n_lt _, g.p.isLt, hd, ha, ?_, ?_, ?_⟩ <;> simp only [immed] <;> omega

theorem rawI_full (hf : f < 2 ^ 15) : rawI (full m g d a b c f) = false := by
  have h : f / 2 ^ 15 % 2 = 0 := by omega
  simp only [rawI, full, h]
  rfl

theorem bOf_full (hf : f < 2 ^ 15) : bOf (full m g d a b c f) = opndOf b := by
  simp [bOf, rawI_full g hf]

end

/-! ## Operands -/

/-- The operand is what its field names. -/
abbrev Named (o : Opnd) : Prop := opndOf (opndCode o) = some o

/-- R124, R125: what a well-formed instruction names in a place without immediates is what its field names. -/
theorem named_of_useOk {r : Role} {o : Opnd} {n : Nat} {ch : Bool} (hu : useOk ⟨r, o, n, ch, false⟩ = true) :
    Named o := by
  refine opndOf_opndCode (u := ⟨r, o, n, ch, false⟩) hu ?_
  cases o with
  | imm x => simp [useOk] at hu
  | _ => rfl

/-- The same of a place that admits an immediate and holds none. -/
theorem named_of_useOk_imm {r : Role} {o : Opnd} {n : Nat} {ch im : Bool} (hu : useOk ⟨r, o, n, ch, im⟩ = true)
    (hi : isImm o = false) : Named o := opndOf_opndCode (u := ⟨r, o, n, ch, im⟩) hu hi

theorem Named.lt {o : Opnd} (h : Named o) : opndCode o < 512 := lt_of_opndOf h

end Sys2Proof
end

section
/-! SUPPORT. Codes of the modifiers, and the families of opcodes that share a format (R127, R145 to R192). -/

namespace Sys2Proof

open Machine

/-! ## The codes of the modifiers -/

@[simp] theorem intTyOf_intTyCode (x : IntTy) : intTyOf (intTyCode x) = x := by cases x <;> rfl
@[simp] theorem icmpOf_icmpCode (x : ICmp) : icmpOf (icmpCode x) = some x := by cases x <;> rfl
@[simp] theorem fcmpOf_fcmpCode (x : FCmp) : fcmpOf (fcmpCode x) = some x := by cases x <;> rfl
@[simp] theorem fmtOf_fmtCode (x : Fmt) : fmtOf (fmtCode x) = x := by cases x <;> rfl
@[simp] theorem qfmtOf_qfmtCode (x : QFmt) : qfmtOf (qfmtCode x) = some x := by cases x <;> rfl
@[simp] theorem dqOf_dqCode (x : DqFmt) : dqOf (dqCode x) = some x := by cases x <;> rfl
@[simp] theorem scopeOf_scopeCode (x : Scope) : scopeOf (scopeCode x) = some x := by cases x <;> rfl
@[simp] theorem sizeOf_sizeCode (x : Size) : sizeOf' (sizeCode x) = some x := by cases x <;> rfl
@[simp] theorem elwOf_elwCode (x : ElW) : elwOf (elwCode x) = some x := by cases x <;> rfl
@[simp] theorem satOf_satCode (x : SatMode) : satOf (satCode x) = some x := by cases x <;> rfl
@[simp] theorem shflOf_shflCode (x : ShflMode) : shflOf (shflCode x) = x := by cases x <;> rfl
@[simp] theorem redOpOf_redOpCode (x : RedOp) : redOpOf (redOpCode x) = some x := by cases x <;> rfl
@[simp] theorem redTyOf_redTyCode (x : RedTy) : redTyOf (redTyCode x) = some x := by cases x <;> rfl
@[simp] theorem atomOpOf_atomOpCode (x : AtomOp) : atomOpOf (atomOpCode x) = some x := by cases x <;> rfl
@[simp] theorem atomTyOf_atomTyCode (x : AtomTy) : atomTyOf (atomTyCode x) = some x := by cases x <;> rfl
@[simp] theorem wfmtOf_wfmtCode (x : WFmt) : wfmtOf (wfmtCode x) = some x := by cases x <;> rfl
@[simp] theorem afmtOf_afmtCode (x : AFmt) : afmtOf (afmtCode x) = some x := by cases x <;> rfl
@[simp] theorem popOf_popCode (x : PopKind) : popOf (popCode x) = some x := by cases x <;> rfl
@[simp] theorem tselOf_tselCode (x : TstatSel) : tselOf (tselCode x) = some x := by cases x <;> rfl

theorem intTyCode_lt (x : IntTy) : intTyCode x < 4 := by cases x <;> decide
theorem icmpCode_lt (x : ICmp) : icmpCode x < 6 := by cases x <;> decide
theorem fcmpCode_lt (x : FCmp) : fcmpCode x < 8 := by cases x <;> decide
theorem fmtCode_lt (x : Fmt) : fmtCode x < 16 := by cases x <;> decide
theorem qfmtCode_lt (x : QFmt) : qfmtCode x < 4 := by cases x <;> decide
theorem dqCode_lt (x : DqFmt) : dqCode x < 4 := by cases x <;> decide
theorem scopeCode_lt (x : Scope) : scopeCode x < 8 := by cases x <;> decide
theorem sizeCode_lt (x : Size) : sizeCode x < 8 := by cases x <;> decide
theorem elwCode_lt (x : ElW) : elwCode x < 4 := by cases x <;> decide
theorem satCode_lt (x : SatMode) : satCode x < 4 := by cases x <;> decide
theorem shflCode_lt (x : ShflMode) : shflCode x < 4 := by cases x <;> decide
theorem redOpCode_lt (x : RedOp) : redOpCode x < 8 := by cases x <;> decide
theorem redTyCode_lt (x : RedTy) : redTyCode x < 8 := by cases x <;> decide
theorem atomOpCode_lt (x : AtomOp) : atomOpCode x < 16 := by cases x <;> decide
theorem atomTyCode_lt (x : AtomTy) : atomTyCode x < 8 := by cases x <;> decide
theorem wfmtCode_lt (x : WFmt) : wfmtCode x < 8 := by cases x <;> decide
theorem afmtCode_lt (x : AFmt) : afmtCode x < 8 := by cases x <;> decide
theorem popCode_lt (x : PopKind) : popCode x < 4 := by cases x <;> decide
theorem tselCode_lt (x : TstatSel) : tselCode x < 4 := by cases x <;> decide

theorem voteOf_voteCode (x : VoteMode) : voteOf (voteCode x) = x := by cases x <;> rfl

theorem voteCode_pos_lt (x : VoteMode) : 0 < voteCode x ∧ voteCode x < 4 := by cases x <;> decide

theorem sprOf_sprCode (r : Spr) : sprOf (sprCode r) = some r := by
  cases r with
  | chb n => revert n; decide
  | rrcfg k => revert k; decide
  | _ => rfl

theorem sprCode_lt (r : Spr) : sprCode r < 64 := by
  cases r with
  | chb n => revert n; decide
  | rrcfg k => revert k; decide
  | _ => decide

/-! ## The immediate form and the families -/

theorem isImm_iff {o : Opnd} : isImm o = true ↔ ∃ x, o = .imm x := by cases o <;> simp [isImm]

theorem bform_full (m : Nat) (g : Guard) (d a : Nat) {o : Opnd} (c f : Nat) (i : Bool) (ho : isImm o = false) :
    bform m g d a o c f i = full m g d a (opndCode o) c f := by
  cases o with
  | imm x => simp [isImm] at ho
  | _ => rfl

@[simp] theorem bform_major (m : Nat) (g : Guard) (d a : Nat) (o : Opnd) (c f : Nat) (i : Bool) :
    (bform m g d a o c f i).major = m := by
  cases o <;> rfl

/-- R127: a word that may hold an immediate for B is of the immediate form, or of the full format and names B. -/
theorem bform_cases {r : Role} {n : Nat} {ch im : Bool} {o : Opnd} (hu : useOk ⟨r, o, n, ch, im⟩ = true) (m : Nat)
    (g : Guard)
    (d a c f : Nat) (i : Bool) :
    (∃ w, o = .imm w ∧ bform m g d a o c f i = immed m g d a w i) ∨
      (isImm o = false ∧ Named o ∧ bform m g d a o c f i = full m g d a (opndCode o) c f) := by
  cases ho : isImm o with
  | true =>
    obtain ⟨w, rfl⟩ := isImm_iff.1 ho
    exact .inl ⟨w, rfl, rfl⟩
  | false => exact .inr ⟨rfl, named_of_useOk_imm hu ho, bform_full m g d a c f i ho⟩

theorem decSat_encSat {m : Nat} {x : IntOp} {r : Role} {n : Nat} {ch : Bool} (hm : m < 128) (hd : Named x.d)
    (ha : Named x.a)
    (hb : useOk ⟨r, x.b, n, ch, true⟩ = true) (hi : isImm x.b = true → x.ty = .i32) :
    (encSat m x).Fits ∧ decSat (encSat m x) = some x := by
  obtain ⟨g, d, a, b, ty, sat⟩ := x
  have ht := intTyCode_lt ty
  have hs := b2n_lt sat
  unfold encSat
  dsimp only at *
  generalize hF : intTyCode ty + 4 * b2n sat = F
  rcases bform_cases hb m g (opndCode d) (opndCode a) 0 F sat with ⟨w, rfl, he⟩ | ⟨hbi, hb, he⟩ <;> rw [he]
  · refine ⟨immed_fits _ _ _ hm hd.lt ha.lt, ?_⟩
    simp [decSat, hd, ha, hi rfl]
  · refine ⟨full_fits _ hm hd.lt ha.lt hb.lt (by decide) (by omega), ?_⟩
    have h1 : F % 4 = intTyCode ty := by omega
    have h2 : F / 4 % 2 = b2n sat := by omega
    simp (disch := omega) [decSat, hd, ha, hb, bOf_full, rawI_full, ffld, fbit, h1, h2, b2n_beq_one]

section
variable {m : Nat} (hm : m < 128)
include hm

theorem decTy_encTy {x : IntOp} {r : Role} {n : Nat} {ch : Bool} (hd : Named x.d) (ha : Named x.a)
    (hb : useOk ⟨r, x.b, n, ch, true⟩ = true) (hs : x.sat = false)
    (hi : isImm x.b = true → x.ty = .i32 ∨ x.ty = .n32) :
    (encTy m x).Fits ∧ decTy (encTy m x) = some x := by
  obtain ⟨g, d, a, b, ty, sat⟩ := x
  obtain rfl : sat = false := hs
  have ht := intTyCode_lt ty
  unfold encTy
  dsimp only at *
  generalize hF : intTyCode ty + 4 * b2n false = F
  have hF : F = intTyCode ty := by simp [← hF, b2n]
  rcases bform_cases hb m g (opndCode d) (opndCode a) 0 F (ty == .n32) with ⟨w, rfl, he⟩ | ⟨hbi, hb, he⟩ <;> rw [he]
  · refine ⟨immed_fits _ _ _ hm hd.lt ha.lt, ?_⟩
    rcases hi rfl with rfl | rfl <;> simp [decTy, hd, ha]
  · refine ⟨full_fits _ hm hd.lt ha.lt hb.lt (by decide) (by omega), ?_⟩
    have h1 : F % 4 = intTyCode ty := by omega
    have h2 : F / 4 % 2 = 0 := by omega
    simp (disch := omega) [decTy, hd, ha, hb, bOf_full, rawI_full, ffld, fbit, h1, h2]

theorem decInt3_encInt3 {x : Int3Op} (hd : Named x.d) (ha : Named x.a) (hb : Named x.b) (hc : Named x.c) :
    (encInt3 m x).Fits ∧ decInt3 (encInt3 m x) = some x := by
  have ht := intTyCode_lt x.ty
  have h1 : intTyCode x.ty % 4 = intTyCode x.ty := by omega
  refine ⟨full_fits _ hm hd.lt ha.lt hb.lt hc.lt (by omega), ?_⟩
  simp [decInt3, encInt3, hd, ha, hb, hc, ffld, h1]

theorem decLogic_encLogic {x : LogicOp} {r : Role} {n : Nat} {ch : Bool} (hd : Named x.d) (ha : Named x.a)
    (hb : useOk ⟨r, x.b, n, ch, true⟩ = true) (hi : isImm x.b = true → x.w64 = false) :
    (encLogic m x).Fits ∧ decLogic (encLogic m x) = some x := by
  obtain ⟨g, d, a, b, w64⟩ := x
  have hw := b2n_lt w64
  unfold encLogic
  dsimp only at *
  generalize hF : 2 * b2n w64 = F
  rcases bform_cases hb m g (opndCode d) (opndCode a) 0 F false with ⟨w, rfl, he⟩ | ⟨hbi, hb, he⟩ <;> rw [he]
  · refine ⟨immed_fits _ _ _ hm hd.lt ha.lt, ?_⟩
    simp [decLogic, hd, ha, hi rfl]
  · refine ⟨full_fits _ hm hd.lt ha.lt hb.lt (by decide) (by omega), ?_⟩
    have h1 : F / 2 % 2 = b2n w64 := by omega
    simp (disch := omega) [decLogic, hd, ha, hb, bOf_full, rawI_full, fbit, h1, b2n_beq_one]

theorem dec1_enc1 {x : Op1} (hd : Named x.d) (ha : Named x.a) : (enc1 m x).Fits ∧ dec1 (enc1 m x) = some x :=
  ⟨full_fits _ hm hd.lt ha.lt (by decide) (by decide) (by decide), by simp [dec1, enc1, hd, ha]⟩

theorem dec3_enc3 {x : Op3} (hd : Named x.d) (ha : Named x.a) (hb : Named x.b) (hc : Named x.c) :
    (enc3 m x).Fits ∧ dec3 (enc3 m x) = some x :=
  ⟨full_fits _ hm hd.lt ha.lt hb.lt hc.lt (by decide), by simp [dec3, enc3, hd, ha, hb, hc]⟩

theorem dec3F_enc3F {x : Op3F} (hd : Named x.d) (ha : Named x.a) (hb : Named x.b) (hc : Named x.c) :
    (enc3F m x).Fits ∧ dec3F (enc3F m x) = some x := by
  have hf := b2n_lt x.flag
  have h1 : b2n x.flag % 2 = b2n x.flag := by omega
  exact ⟨full_fits _ hm hd.lt ha.lt hb.lt hc.lt (by omega),
    by simp [dec3F, enc3F, hd, ha, hb, hc, fbit, h1, b2n_beq_one]⟩

end

theorem modsCode_lt (x : FMods) : modsCode x < 32 := by
  have h0 := b2n_lt x.na
  have h1 := b2n_lt x.nb
  have h2 := b2n_lt x.nc
  have h3 := b2n_lt x.aa
  have h4 := b2n_lt x.ab
  unfold modsCode
  omega

/-- R158: the modifiers are read back, whatever stands above them in FUNC. -/
theorem modsOf_of_func {r : Raw} {x : FMods} (h : r.func % 32 = modsCode x) : modsOf r = x := by
  obtain ⟨na, nb, nc, aa, ab⟩ := x
  have h0 := b2n_lt na
  have h1 := b2n_lt nb
  have h2 := b2n_lt nc
  have h3 := b2n_lt aa
  have h4 := b2n_lt ab
  simp only [modsCode] at h
  simp only [modsOf, FMods.mk.injEq]
  exact ⟨fbit_eq (by omega), fbit_eq (by omega), fbit_eq (by omega), fbit_eq (by omega), fbit_eq (by omega)⟩

theorem eq_of_plainMods {x : FMods} (h : plainMods x = true) : x = ⟨false, false, false, false, false⟩ := by
  obtain ⟨na, nb, nc, aa, ab⟩ := x
  simpa [plainMods, and_assoc] using h

section
variable {m : Nat} (hm : m < 128)
include hm

theorem decFp_encFp {x : FpOp} {r : Role} {n : Nat} {ch : Bool} (hd : Named x.d) (ha : Named x.a)
    (hb : useOk ⟨r, x.b, n, ch, true⟩ = true) (hi : isImm x.b = true → plainMods x.m = true) :
    (encFp m x).Fits ∧ decFp (encFp m x) = some x := by
  obtain ⟨g, d, a, b, ms⟩ := x
  have hl := modsCode_lt ms
  unfold encFp
  dsimp only at *
  rcases bform_cases hb m g (opndCode d) (opndCode a) 0 (modsCode ms) false with ⟨w, rfl, he⟩ | ⟨hbi, hb, he⟩ <;>
    rw [he]
  · refine ⟨immed_fits _ _ _ hm hd.lt ha.lt, ?_⟩
    simp [decFp, hd, ha, eq_of_plainMods (hi rfl)]
  · refine ⟨full_fits _ hm hd.lt ha.lt hb.lt (by decide) (by omega), ?_⟩
    have h1 : modsOf (full m g (opndCode d) (opndCode a) (opndCode b) 0 (modsCode ms)) = ms :=
      modsOf_of_func (Nat.mod_eq_of_lt hl)
    simp (disch := omega) [decFp, hd, ha, hb, bOf_full, rawI_full, h1]

theorem decSfu_encSfu {x : SfuOp} (hd : Named x.d) (ha : Named x.a) :
    (encSfu m x).Fits ∧ decSfu (encSfu m x) = some x := by
  have h0 := b2n_lt x.na
  have h3 := b2n_lt x.aa
  have h1 : (b2n x.na + 8 * b2n x.aa) % 2 = b2n x.na := by omega
  have h2 : (b2n x.na + 8 * b2n x.aa) / 8 % 2 = b2n x.aa := by omega
  exact ⟨full_fits _ hm hd.lt ha.lt (by decide) (by decide) (by omega),
    by simp [decSfu, encSfu, hd, ha, fbit, h1, h2, b2n_beq_one]⟩

theorem decH_encH {x : HOp} {r : Role} {n : Nat} {ch : Bool} (hd : Named x.d) (ha : Named x.a)
    (hb : useOk ⟨r, x.b, n, ch, true⟩ = true) (hi : isImm x.b = true → plainMods x.m = true ∧ x.bf = false) :
    (encH m x).Fits ∧ decH (encH m x) = some x := by
  obtain ⟨g, d, a, b, ms, bf⟩ := x
  have hl := modsCode_lt ms
  have hf := b2n_lt bf
  unfold encH
  dsimp only at *
  generalize hF : modsCode ms + 32 * b2n bf = F
  rcases bform_cases hb m g (opndCode d) (opndCode a) 0 F false with ⟨w, rfl, he⟩ | ⟨hbi, hb, he⟩ <;> rw [he]
  · refine ⟨immed_fits _ _ _ hm hd.lt ha.lt, ?_⟩
    obtain ⟨hp, rfl⟩ := hi rfl
    simp [decH, hd, ha, eq_of_plainMods hp]
  · refine ⟨full_fits _ hm hd.lt ha.lt hb.lt (by decide) (by omega), ?_⟩
    have h1 : modsOf (full m g (opndCode d) (opndCode a) (opndCode b) 0 F) = ms :=
      modsOf_of_func (by rw [full_func]; omega)
    have h2 : F / 32 % 2 = b2n bf := by omega
    simp (disch := omega) [decH, hd, ha, hb, bOf_full, rawI_full, h1, fbit, h2, b2n_beq_one]

theorem decIdp_encIdp {x : IdpOp} (hd : Named x.d) (ha : Named x.a) (hb : Named x.b) (hc : Named x.c) :
    (encIdp m x).Fits ∧ decIdp (encIdp m x) = some x := by
  have h0 := b2n_lt x.ua
  have h1 := b2n_lt x.ub
  have h2 := b2n_lt x.sat
  have e0 : (b2n x.ua + 2 * b2n x.ub + 4 * b2n x.sat) % 2 = b2n x.ua := by omega
  have e1 : (b2n x.ua + 2 * b2n x.ub + 4 * b2n x.sat) / 2 % 2 = b2n x.ub := by omega
  have e2 : (b2n x.ua + 2 * b2n x.ub + 4 * b2n x.sat) / 4 % 2 = b2n x.sat := by omega
  exact ⟨full_fits _ hm hd.lt ha.lt hb.lt hc.lt (by omega),
    by simp [decIdp, encIdp, hd, ha, hb, hc, fbit, e0, e1, e2, b2n_beq_one]⟩

theorem decRed_encRed {x : RedLaneOp} (hd : Named x.d) (ha : Named x.a) :
    (encRed m x).Fits ∧ decRed (encRed m x) = some x := by
  have h0 := redOpCode_lt x.op
  have h1 := redTyCode_lt x.ty
  have h2 := b2n_lt x.excl
  have e0 : (redOpCode x.op + 8 * redTyCode x.ty + 64 * b2n x.excl) % 8 = redOpCode x.op := by omega
  have e1 : (redOpCode x.op + 8 * redTyCode x.ty + 64 * b2n x.excl) / 8 % 8 = redTyCode x.ty := by omega
  have e2 : (redOpCode x.op + 8 * redTyCode x.ty + 64 * b2n x.excl) / 64 % 2 = b2n x.excl := by omega
  exact ⟨full_fits _ hm hd.lt ha.lt (by decide) (by decide) (by omega),
    by simp [decRed, encRed, hd, ha, ffld, fbit, e0, e1, e2, b2n_beq_one]⟩

theorem decSend_encSend {x : SendOp} (hd : Named x.d) (ha : Named x.a) (hb : Named x.b) :
    (encSend m x).Fits ∧ decSend (encSend m x) = some x := by
  have h0 := x.ring.isLt
  have e0 : x.ring.val % 4 = x.ring.val := by omega
  exact ⟨full_fits _ hm hd.lt ha.lt hb.lt (by decide) (by omega),
    by simp [decSend, encSend, hd, ha, hb, ffld, e0]⟩

/-- R185, R186: what the fields of a load or store allow, with an immediate and without. -/
theorem decMem_encMem {x : MemOp} {r : Role} {n c : Nat} {ch im : Bool} (hc : c < 512) (hd : Named x.d) (ha : Named x.a)
    (hb : useOk ⟨r, x.b, n, ch, im⟩ = true) (hf : memFieldsOk x = true) :
    (encMem m x c).Fits ∧ decMem (encMem m x c) = some x := by
  obtain ⟨g, d, a, b, sz, sx, buf, sem, sc⟩ := x
  simp only [memFieldsOk, Bool.and_eq_true, Bool.or_eq_true, Bool.not_eq_true', beq_iff_eq] at hf
  obtain ⟨⟨⟨-, -⟩, hsem⟩, himm⟩ := hf
  have h0 := sizeCode_lt sz
  have h1 := b2n_lt sx
  have h2 := buf.isLt
  have h3 := b2n_lt sem
  have h4 := scopeCode_lt sc
  unfold encMem memFunc
  dsimp only at *
  generalize hF : sizeCode sz + 8 * b2n sx + 16 * buf.val + 512 * b2n sem + 2048 * scopeCode sc = F
  rcases bform_cases hb m g (opndCode d) (opndCode a) c F (sz == .b64) with ⟨w, rfl, he⟩ | ⟨hbi, hb, he⟩ <;> rw [he]
  · refine ⟨immed_fits _ _ _ hm hd.lt ha.lt, ?_⟩
    have himm := himm.resolve_left (by simp [isImm])
    obtain ⟨⟨⟨hbuf, rfl⟩, rfl⟩, hsz⟩ := himm
    obtain rfl : buf = 0 := Fin.ext hbuf
    obtain rfl := hsem.resolve_left (by decide)
    rcases hsz with rfl | rfl <;> simp [decMem, hd, ha]
  · refine ⟨full_fits _ hm hd.lt ha.lt hb.lt hc (by omega), ?_⟩
    have e0 : F % 8 = sizeCode sz := by omega
    have e1 : F / 8 % 2 = b2n sx := by omega
    have e2 : F / 16 % 32 = buf.val := by omega
    have e3 : F / 512 % 2 = b2n sem := by omega
    have e4 : F / 2048 % 8 = scopeCode sc := by omega
    simp (disch := omega) [decMem, hd, ha, hb, bOf_full, rawI_full, ffld, fbit, e0, e1, e2, e3, e4, b2n_beq_one]

end

end Sys2Proof
end

section
/-! SUPPORT. Each opcode of a format of its own, read back from its fields (R130). -/

namespace Sys2Proof

open Machine

/-! ## Reading one instruction back -/

/-- The fields of the instruction's encoding lie within their bits, and name the instruction. -/
def Reads (i : Instr) : Prop := (encRaw i).Fits ∧ parseRaw (encRaw i) = some i

theorem wf_parts {i : Instr} (hw : i.wf = true) :
    (∀ u ∈ uses i, useOk u = true) ∧ fieldsOk i = true := by
  simp only [Instr.wf, Bool.and_eq_true, List.all_eq_true] at hw
  obtain ⟨⟨⟨-, hu⟩, -⟩, hf⟩ := hw
  exact ⟨hu, hf⟩

@[simp] theorem opndCode_s (n : Nat) : opndCode (.s n) = 192 + n := rfl

theorem useOk_of_wf {i : Instr} (hw : i.wf = true) : ∀ u ∈ uses i, useOk u = true := (wf_parts hw).1

/-- Every place of a well-formed instruction that admits no immediate names its operand. -/
theorem named_of_wf {i : Instr} (hw : i.wf = true) : ∀ u ∈ uses i, u.im = false → Named u.o := by
  rintro ⟨r, o, n, ch, im⟩ hu rfl
  exact named_of_useOk ((wf_parts hw).1 _ hu)

/-- R124: an optional crew-uniform operand is read back: its field is 0x000 only when it is absent. -/
theorem optOf_optCode {c : Option Opnd} {n : Nat} (h : ∀ o, c = some o → useOk ⟨.srcU, o, n, false, false⟩ = true) :
    optOf (optCode c) = some c ∧ optCode c < 512 := by
  cases c with
  | none => exact ⟨rfl, by decide⟩
  | some o =>
    have hu := h o rfl
    have hn := named_of_useOk hu
    have hne : opndCode o ≠ 0 := by
      cases o with
      | v k => simp [useOk, roleV] at hu
      | imm x => simp [useOk] at hu
      | _ => simp [opndCode]
    exact ⟨by simp [optOf, optCode, hne, hn], hn.lt⟩

theorem tabOf_tab {r : Raw} {k : Nat} {tab : Option (Fin 8 × Fin 16)} (hc : r.c = tabC tab)
    (hf : r.func / 2 ^ k % 2 ^ 4 = tabFn tab) (ht : tabOk tab = true) : tabOf r k = tab := by
  rcases tab with _ | ⟨p, fn⟩
  · simp only [tabFn] at hf
    simp only [tabOf, ffld, hf, if_true]
  · have hne : fn.val ≠ 0 := by simpa [tabOk] using ht
    simp only [tabFn] at hf
    simp only [tabC] at hc
    simp only [tabOf, ffld, hf, hne, hc, if_false, ofNat_val]

theorem tabC_lt (tab : Option (Fin 8 × Fin 16)) : tabC tab < 8 := by
  rcases tab with _ | ⟨p, fn⟩
  · decide
  · exact p.isLt

theorem tabFn_lt (tab : Option (Fin 8 × Fin 16)) : tabFn tab < 16 := by
  rcases tab with _ | ⟨p, fn⟩
  · decide
  · exact fn.isLt

/-! ## Integer, logic and float words -/

theorem reads_iaddc {x : IaddcOp} (hw : (Instr.iaddc x).wf = true) : Reads (.iaddc x) := by
  have hn := named_of_wf hw
  obtain ⟨g, d, a, b, cin, pco⟩ := x
  delta uses at hn
  simp at hn
  obtain ⟨hd, ha, hb⟩ := hn
  have h0 := pco.isLt
  delta Reads encRaw
  dsimp only
  rcases cin with _ | ⟨p, n⟩ <;> dsimp only
  · generalize hF : 0 + 32 * pco.val = F
    have e0 : F / 16 % 2 = 0 := by omega
    have e1 : F / 32 % 8 = pco.val := by omega
    refine ⟨full_fits _ (by decide) hd.lt ha.lt hb.lt (by decide) (by omega), ?_⟩
    change (decIaddc _).map _ = _
    simp [decIaddc, hd, ha, hb, fbit, ffin, ffld, e0, e1]
  · have h1 := p.isLt
    have h2 := b2n_lt n
    generalize hF : p.val + 8 * b2n n + 16 + 32 * pco.val = F
    have e0 : F / 16 % 2 = 1 := by omega
    have e1 : F / 32 % 8 = pco.val := by omega
    have e2 : F / 8 % 2 = b2n n := by omega
    have e3 : F % 8 = p.val := by omega
    refine ⟨full_fits _ (by decide) hd.lt ha.lt hb.lt (by decide) (by omega), ?_⟩
    change (decIaddc _).map _ = _
    simp [decIaddc, hd, ha, hb, fbit, ffin, ffld, e0, e1, e2, e3, b2n_beq_one]


theorem reads_iabs {x : IabsOp} (hw : (Instr.iabs x).wf = true) : Reads (.iabs x) := by
  have hn := named_of_wf hw
  obtain ⟨g, d, a, ty, sat⟩ := x
  delta uses at hn
  simp at hn
  obtain ⟨hd, ha⟩ := hn
  have h0 := intTyCode_lt ty
  have h1 := b2n_lt sat
  delta Reads encRaw
  dsimp only
  generalize hF : intTyCode ty + 4 * b2n sat = F
  have e0 : F % 4 = intTyCode ty := by omega
  have e1 : F / 4 % 2 = b2n sat := by omega
  refine ⟨full_fits _ (by decide) hd.lt ha.lt (by decide) (by decide) (by omega), ?_⟩
  change (_ >>= _) = _
  simp [hd, ha, fbit, ffld, e0, e1, b2n_beq_one]

theorem reads_bfx {x : BfxOp} (hw : (Instr.bfx x).wf = true) : Reads (.bfx x) := by
  have hn := useOk_of_wf hw
  obtain ⟨g, d, a, b, sx⟩ := x
  delta uses at hn
  simp only [uses2, List.forall_mem_cons] at hn
  obtain ⟨hd, ha, hb, -⟩ := hn
  have hd := named_of_useOk hd
  have ha := named_of_useOk ha
  have h1 := b2n_lt sx
  delta Reads encRaw
  dsimp only
  rcases bform_cases hb 0x15 g (opndCode d) (opndCode a) 0 (b2n sx) sx with ⟨w, rfl, he⟩ | ⟨hbi, hb, he⟩ <;> rw [he]
  · refine ⟨immed_fits _ _ _ (by decide) hd.lt ha.lt, ?_⟩
    change (_ >>= _) = _
    simp [hd, ha]
  · refine ⟨full_fits _ (by decide) hd.lt ha.lt hb.lt (by decide) (by omega), ?_⟩
    change (_ >>= _) = _
    have e0 : b2n sx % 2 = b2n sx := by omega
    simp (disch := omega) [hd, ha, hb, bOf_full, rawI_full, fbit, e0, b2n_beq_one]

theorem reads_sel {x : SelOp} (hw : (Instr.sel x).wf = true) : Reads (.sel x) := by
  have hn := named_of_wf hw
  obtain ⟨g, d, a, b, ps, pn⟩ := x
  delta uses at hn
  simp at hn
  obtain ⟨hd, ha, hb⟩ := hn
  have h0 := ps.isLt
  have h1 := b2n_lt pn
  delta Reads encRaw
  dsimp only
  generalize hF : ps.val + 8 * b2n pn = F
  have e0 : F % 8 = ps.val := by omega
  have e1 : F / 8 % 2 = b2n pn := by omega
  refine ⟨full_fits _ (by decide) hd.lt ha.lt hb.lt (by decide) (by omega), ?_⟩
  change (_ >>= _) = _
  simp [hd, ha, hb, fbit, ffin, ffld, b2n_beq_one, e0, e1]

theorem reads_ffma {x : Fp3Op} (hw : (Instr.ffma x).wf = true) : Reads (.ffma x) := by
  have hn := named_of_wf hw
  obtain ⟨g, d, a, b, c, ms⟩ := x
  delta uses at hn
  simp [uses3] at hn
  obtain ⟨hd, ha, hb, hc⟩ := hn
  have h0 := modsCode_lt ms
  delta Reads encRaw
  dsimp only
  refine ⟨full_fits _ (by decide) hd.lt ha.lt hb.lt hc.lt (by omega), ?_⟩
  change (_ >>= _) = _
  simp [hd, ha, hb, hc, modsOf_of_func (r := full 0x23 g (opndCode d) (opndCode a) (opndCode b) (opndCode c)
    (modsCode ms)) (Nat.mod_eq_of_lt h0)]

theorem reads_hfma2 {x : H3Op} (hw : (Instr.hfma2 x).wf = true) : Reads (.hfma2 x) := by
  have hn := named_of_wf hw
  obtain ⟨g, d, a, b, c, ms, bf⟩ := x
  delta uses at hn
  simp [uses3] at hn
  obtain ⟨hd, ha, hb, hc⟩ := hn
  have h0 := modsCode_lt ms
  have h1 := b2n_lt bf
  delta Reads encRaw
  dsimp only
  generalize hF : modsCode ms + 32 * b2n bf = F
  have e0 : F % 32 = modsCode ms := by omega
  have e1 : F / 32 % 2 = b2n bf := by omega
  refine ⟨full_fits _ (by decide) hd.lt ha.lt hb.lt hc.lt (by omega), ?_⟩
  change (_ >>= _) = _
  simp [hd, ha, hb, hc, fbit, b2n_beq_one, modsOf_of_func (r := full 0x32 g (opndCode d) (opndCode a) (opndCode b)
    (opndCode c) F) e0, e1]

theorem reads_fsetp {x : FsetpOp} (hw : (Instr.fsetp x).wf = true) : Reads (.fsetp x) := by
  have hn := named_of_wf hw
  obtain ⟨g, pd, a, b, ms, cmp, tab⟩ := x
  delta uses at hn
  simp at hn
  obtain ⟨ha, hb⟩ := hn
  have h0 := modsCode_lt ms
  have h1 := fcmpCode_lt cmp
  have h2 := tabFn_lt tab
  have h3 := tabC_lt tab
  have h4 := pd.isLt
  delta Reads encRaw
  dsimp only
  generalize hF : modsCode ms + 32 * fcmpCode cmp + 512 * tabFn tab = F
  have e0 : F % 32 = modsCode ms := by omega
  have e1 : F / 32 % 16 = fcmpCode cmp := by omega
  have e2 : F / 2 ^ 9 % 2 ^ 4 = tabFn tab := by omega
  have hf : (!ms.nc && tabOk tab) = true := (wf_parts hw).2
  rw [Bool.and_eq_true] at hf
  refine ⟨full_fits _ (by decide) (by omega) ha.lt hb.lt (by omega) (by omega), ?_⟩
  change (_ >>= _) = _
  simp [ha, hb, ffld, modsOf_of_func (r := full 0x26 g pd.val (opndCode a) (opndCode b) (tabC tab) F) e0, tabOf_tab
    (r := full 0x26 g pd.val (opndCode a) (opndCode b) (tabC tab) F) rfl e2 hf.2, e1]

theorem reads_cvt {x : CvtOp} (hw : (Instr.cvt x).wf = true) : Reads (.cvt x) := by
  have hn := named_of_wf hw
  obtain ⟨g, d, a, df, sf, rz, esel⟩ := x
  delta uses at hn
  simp at hn
  obtain ⟨hd, ha⟩ := hn
  have h0 := fmtCode_lt sf
  have h1 := fmtCode_lt df
  have h2 := b2n_lt rz
  have h3 := esel.isLt
  delta Reads encRaw
  dsimp only
  generalize hF : fmtCode sf + 16 * fmtCode df + 256 * b2n rz + 512 * esel.val = F
  have e0 : F % 16 = fmtCode sf := by omega
  have e1 : F / 16 % 16 = fmtCode df := by omega
  have e2 : F / 256 % 2 = b2n rz := by omega
  have e3 : F / 512 % 8 = esel.val := by omega
  refine ⟨full_fits _ (by decide) hd.lt ha.lt (by decide) (by decide) (by omega), ?_⟩
  change (_ >>= _) = _
  simp [hd, ha, fbit, ffin, ffld, b2n_beq_one, e0, e1, e2, e3]

theorem reads_cvtq {x : CvtqOp} (hw : (Instr.cvtq x).wf = true) : Reads (.cvtq x) := by
  have hn := named_of_wf hw
  obtain ⟨g, d, a, fix, qf⟩ := x
  delta uses at hn
  simp at hn
  obtain ⟨hd, ha, hfix⟩ := hn
  have h0 := qfmtCode_lt qf
  delta Reads encRaw
  dsimp only
  cases fix with
  | none =>
    generalize hF : qfmtCode qf + 4 * b2n (none : Option Opnd).isSome = F
    have hF : F = qfmtCode qf := by simp [← hF, b2n]
    have e0 : F % 4 = qfmtCode qf := by omega
    have e1 : F / 4 % 2 = 0 := by omega
    refine ⟨full_fits _ (by decide) hd.lt ha.lt (by decide) (by decide) (by omega), ?_⟩
    change ite _ _ _ = _
    simp [hd, ha, fbit, ffld, e0, e1]
  | some b =>
    have hb : Named b := by simpa using hfix
    generalize hF : qfmtCode qf + 4 * b2n (some b).isSome = F
    have hF : F = qfmtCode qf + 4 := by simp [← hF, b2n]
    have e0 : F % 4 = qfmtCode qf := by omega
    have e1 : F / 4 % 2 = 1 := by omega
    refine ⟨full_fits _ (by decide) hd.lt ha.lt hb.lt (by decide) (by omega), ?_⟩
    change ite _ _ _ = _
    simp [optCode, hd, ha, hb, fbit, ffld, e0, e1]

theorem reads_cvtdq {x : CvtdqOp} (hw : (Instr.cvtdq x).wf = true) : Reads (.cvtdq x) := by
  have hn := named_of_wf hw
  obtain ⟨g, d, a, qf, dq⟩ := x
  delta uses at hn
  simp at hn
  obtain ⟨hd, ha⟩ := hn
  have h0 := qfmtCode_lt qf
  have h1 := dqCode_lt dq
  delta Reads encRaw
  dsimp only
  generalize hF : qfmtCode qf + 16 * dqCode dq = F
  have e0 : F % 4 = qfmtCode qf := by omega
  have e1 : F / 16 % 4 = dqCode dq := by omega
  refine ⟨full_fits _ (by decide) hd.lt ha.lt (by decide) (by decide) (by omega), ?_⟩
  change (_ >>= _) = _
  simp [hd, ha, ffld, e0, e1]

theorem reads_pack {x : PackOp} (hw : (Instr.pack x).wf = true) : Reads (.pack x) := by
  have hn := named_of_wf hw
  obtain ⟨g, d, a, b, el, w, sm⟩ := x
  delta uses at hn
  simp [uses2] at hn
  obtain ⟨hd, ha, hb⟩ := hn
  have h0 := el.isLt
  have h1 := elwCode_lt w
  have h2 := satCode_lt sm
  delta Reads encRaw
  dsimp only
  generalize hF : el.val + 8 * elwCode w + 32 * satCode sm = F
  have e0 : F % 8 = el.val := by omega
  have e1 : F / 8 % 4 = elwCode w := by omega
  have e2 : F / 32 % 4 = satCode sm := by omega
  refine ⟨full_fits _ (by decide) hd.lt ha.lt hb.lt (by decide) (by omega), ?_⟩
  change (_ >>= _) = _
  simp [hd, ha, hb, ffin, ffld, e0, e1, e2]

theorem reads_unpk {x : UnpkOp} (hw : (Instr.unpk x).wf = true) : Reads (.unpk x) := by
  have hn := named_of_wf hw
  obtain ⟨g, d, a, el, w, sx⟩ := x
  delta uses at hn
  simp [uses1] at hn
  obtain ⟨hd, ha⟩ := hn
  have h0 := el.isLt
  have h1 := elwCode_lt w
  have h2 := b2n_lt sx
  delta Reads encRaw
  dsimp only
  generalize hF : el.val + 8 * elwCode w + 32 * b2n sx = F
  have e0 : F % 8 = el.val := by omega
  have e1 : F / 8 % 4 = elwCode w := by omega
  have e2 : F / 32 % 2 = b2n sx := by omega
  refine ⟨full_fits _ (by decide) hd.lt ha.lt (by decide) (by decide) (by omega), ?_⟩
  change (_ >>= _) = _
  simp [hd, ha, fbit, ffin, ffld, b2n_beq_one, e0, e1, e2]

theorem reads_lutx {x : LutxOp} (hw : (Instr.lutx x).wf = true) : Reads (.lutx x) := by
  have hn := named_of_wf hw
  obtain ⟨g, d, a, sb, hi, f32⟩ := x
  delta uses at hn
  simp at hn
  obtain ⟨hd, ha, hb, -⟩ := hn
  have h0 := b2n_lt hi
  have h1 := b2n_lt f32
  delta Reads encRaw
  dsimp only
  generalize hF : b2n hi + 2 * b2n f32 = F
  have e0 : F % 2 = b2n hi := by omega
  have e1 : F / 2 % 2 = b2n f32 := by omega
  refine ⟨full_fits _ (by decide) hd.lt ha.lt hb.lt (by decide) (by omega), ?_⟩
  change (_ >>= _) = _
  simp [hd, ha, fbit, b2n_beq_one, opndCode_s, e0, e1]

theorem reads_fdp4 {x : Fdp4Op} (hw : (Instr.fdp4 x).wf = true) : Reads (.fdp4 x) := by
  have hn := named_of_wf hw
  obtain ⟨g, d, a, b, c, fa, fb⟩ := x
  delta uses at hn
  simp [uses3] at hn
  obtain ⟨hd, ha, hb, hc⟩ := hn
  have h0 := b2n_lt fa
  have h1 := b2n_lt fb
  delta Reads encRaw
  dsimp only
  generalize hF : b2n fa + 2 * b2n fb = F
  have e0 : F % 2 = b2n fa := by omega
  have e1 : F / 2 % 2 = b2n fb := by omega
  refine ⟨full_fits _ (by decide) hd.lt ha.lt hb.lt hc.lt (by omega), ?_⟩
  change (_ >>= _) = _
  simp [hd, ha, hb, hc, fbit, b2n_beq_one, e0, e1]

theorem reads_matchLanes {x : Op1F} (hw : (Instr.matchLanes x).wf = true) : Reads (.matchLanes x) := by
  have hn := named_of_wf hw
  obtain ⟨g, d, a, fl⟩ := x
  delta uses at hn
  simp at hn
  obtain ⟨hd, ha⟩ := hn
  have h0 := b2n_lt fl
  delta Reads encRaw
  dsimp only
  generalize hF : b2n fl = F
  have e0 : F % 2 = b2n fl := by omega
  refine ⟨full_fits _ (by decide) hd.lt ha.lt (by decide) (by decide) (by omega), ?_⟩
  change (_ >>= _) = _
  simp [hd, ha, fbit, b2n_beq_one, e0]

theorem reads_actm {x : ActmOp} (hw : (Instr.actm x).wf = true) : Reads (.actm x) := by
  have hn := named_of_wf hw
  obtain ⟨g, d, fl⟩ := x
  delta uses at hn
  simp at hn
  have hd := hn
  have h0 := b2n_lt fl
  delta Reads encRaw
  dsimp only
  generalize hF : b2n fl = F
  have e0 : F % 2 = b2n fl := by omega
  refine ⟨full_fits _ (by decide) hd.lt (by decide) (by decide) (by decide) (by omega), ?_⟩
  change (_ >>= _) = _
  simp [hd, fbit, b2n_beq_one, e0]

theorem encRaw_mov_imm (g : Guard) (d : Opnd) (w : Word) (fl : Bool) :
    encRaw (.mov ⟨g, d, .imm w, fl⟩) = immed 0x1F g (opndCode d) 0 w fl := rfl

theorem encRaw_mov {g : Guard} {d a : Opnd} {fl : Bool} (ha : isImm a = false) :
    encRaw (.mov ⟨g, d, a, fl⟩) = full 0x1F g (opndCode d) (opndCode a) 0 0 (2 * b2n fl) := by
  cases a with
  | imm w => simp [isImm] at ha
  | _ => rfl

theorem encRaw_sleep_imm (w : Word) : encRaw (.sleep (.imm w)) = immed 0x52 unguarded 0 0 w false := rfl

theorem encRaw_sleep {a : Opnd} (ha : isImm a = false) :
    encRaw (.sleep a) = full 0x52 unguarded 0 (opndCode a) 0 0 0 := by
  cases a with
  | imm w => simp [isImm] at ha
  | _ => rfl

theorem encRaw_unmoor {d a : Opnd} {wb : Bool} (ha : isImm a = false) :
    encRaw (.unmoor d a wb) = full 0x61 unguarded (opndCode d) (opndCode a) 0 0 (b2n wb) := by
  cases a with
  | imm w => simp [isImm] at ha
  | _ => rfl

theorem reads_prmt {x : Op3} (hw : (Instr.prmt x).wf = true) : Reads (.prmt x) := by
  have hn := useOk_of_wf hw
  obtain ⟨g, d, a, b, c⟩ := x
  have hf : (!isImm b || c == .v 0) = true := (wf_parts hw).2
  delta uses at hn
  delta Reads encRaw
  dsimp only at hn ⊢
  cases hbi : isImm b with
  | true =>
    obtain ⟨w, rfl⟩ := isImm_iff.1 hbi
    simp only [hbi, if_true, uses2, List.forall_mem_cons] at hn
    obtain ⟨hd, ha, -, -⟩ := hn
    have hd := named_of_useOk hd
    have ha := named_of_useOk ha
    obtain rfl : c = .v 0 := by simpa [isImm] using hf
    refine ⟨immed_fits _ _ _ (by decide) hd.lt ha.lt, ?_⟩
    change ite _ _ _ = _
    simp [bform, hd, ha]
  | false =>
    simp only [hbi, Bool.false_eq_true, if_false, uses3, List.forall_mem_cons] at hn
    obtain ⟨hd, ha, hb, hc, -⟩ := hn
    have hd := named_of_useOk hd
    have ha := named_of_useOk ha
    have hb := named_of_useOk hb
    have hc := named_of_useOk hc
    rw [bform_full _ _ _ _ _ _ _ hbi]
    refine ⟨full_fits _ (by decide) hd.lt ha.lt hb.lt hc.lt (by decide), ?_⟩
    change ite _ _ _ = _
    simp (disch := omega) [hd, ha, hb, hc, bOf_full, rawI_full]

theorem reads_lea {x : LeaOp} (hw : (Instr.lea x).wf = true) : Reads (.lea x) := by
  have hn := useOk_of_wf hw
  obtain ⟨g, d, a, b, sh, w64, zx⟩ := x
  delta uses at hn
  simp only [List.forall_mem_cons] at hn
  obtain ⟨hd, ha, hb, -⟩ := hn
  have hd := named_of_useOk hd
  have ha := named_of_useOk ha
  have h0 := sh.isLt
  have h1 := b2n_lt w64
  have h2 := b2n_lt zx
  have hf : ((!zx || w64) && (!isImm b || (sh.val == 0 && !zx))) = true := (wf_parts hw).2
  simp only [Bool.and_eq_true, Bool.or_eq_true, Bool.not_eq_true', beq_iff_eq] at hf
  delta Reads encRaw
  dsimp only
  generalize hF : sh.val + 8 * b2n w64 + 16 * b2n zx = F
  rcases bform_cases hb 0x1C g (opndCode d) (opndCode a) 0 F w64 with ⟨w, rfl, he⟩ | ⟨hbi, hb, he⟩ <;> rw [he]
  · refine ⟨immed_fits _ _ _ (by decide) hd.lt ha.lt, ?_⟩
    obtain ⟨hsh, rfl⟩ := hf.2.resolve_left (by simp [isImm])
    obtain rfl : sh = 0 := Fin.ext hsh
    change (_ >>= _) = _
    simp [hd, ha]
  · refine ⟨full_fits _ (by decide) hd.lt ha.lt hb.lt (by decide) (by omega), ?_⟩
    have e0 : F % 8 = sh.val := by omega
    have e1 : F / 8 % 2 = b2n w64 := by omega
    have e2 : F / 16 % 2 = b2n zx := by omega
    change (_ >>= _) = _
    simp (disch := omega) [hd, ha, hb, bOf_full, rawI_full, fbit, ffin, ffld, b2n_beq_one, e0, e1, e2]

theorem reads_isetp {x : IsetpOp} (hw : (Instr.isetp x).wf = true) : Reads (.isetp x) := by
  have hn := useOk_of_wf hw
  obtain ⟨g, pd, a, b, cmp, ty, tab⟩ := x
  delta uses at hn
  simp only [List.forall_mem_cons] at hn
  obtain ⟨ha, hb, -⟩ := hn
  have ha := named_of_useOk ha
  have h0 := pd.isLt
  have h1 := intTyCode_lt ty
  have h2 := icmpCode_lt cmp
  have h3 := tabFn_lt tab
  have h4 := tabC_lt tab
  have hf : (tabOk tab && (!isImm b || (ty == .i32 && tab == none && (cmp == .eq || cmp == .ne)))) = true :=
    (wf_parts hw).2
  simp only [Bool.and_eq_true, Bool.or_eq_true, Bool.not_eq_true', beq_iff_eq] at hf
  delta Reads encRaw
  dsimp only
  generalize hF : intTyCode ty + 4 * icmpCode cmp + 64 * tabFn tab = F
  rcases bform_cases hb 0x1D g pd.val (opndCode a) (tabC tab) F (cmp == .ne) with ⟨w, rfl, he⟩ | ⟨hbi, hb, he⟩ <;>
    rw [he]
  · refine ⟨immed_fits _ _ _ (by decide) (by omega) ha.lt, ?_⟩
    obtain ⟨⟨rfl, rfl⟩, rfl | rfl⟩ := hf.2.resolve_left (by simp [isImm])
    · change (_ >>= _) = _
      simp [‹Named a›]
    · change (_ >>= _) = _
      simp [‹Named a›]
  · refine ⟨full_fits _ (by decide) (by omega) ha.lt hb.lt (by omega) (by omega), ?_⟩
    have e0 : F % 4 = intTyCode ty := by omega
    have e1 : F / 4 % 16 = icmpCode cmp := by omega
    have e2 : F / 2 ^ 6 % 2 ^ 4 = tabFn tab := by omega
    change (_ >>= _) = _
    simp (disch := omega) [ha, hb, bOf_full, rawI_full, ffld, tabOf_tab (r := full 0x1D g pd.val (opndCode a)
      (opndCode b) (tabC tab) F) rfl e2 hf.1, e0, e1]

theorem reads_mov {x : Op1F} (hw : (Instr.mov x).wf = true) : Reads (.mov x) := by
  have hn := useOk_of_wf hw
  obtain ⟨g, d, a, fl⟩ := x
  delta uses at hn
  simp only [List.forall_mem_cons] at hn
  obtain ⟨hd, ha, -⟩ := hn
  have hd := named_of_useOk hd
  have h0 := b2n_lt fl
  cases hai : isImm a with
  | true =>
    obtain ⟨w, rfl⟩ := isImm_iff.1 hai
    refine ⟨immed_fits _ _ _ (by decide) hd.lt (by decide), ?_⟩
    change (opndOf (opndCode d) >>= _) = _
    rw [hd, encRaw_mov_imm]
    simp
  | false =>
    have ha := named_of_useOk_imm ha hai
    delta Reads
    rw [encRaw_mov hai]
    generalize hF : 2 * b2n fl = F
    have e0 : F / 2 % 2 = b2n fl := by omega
    refine ⟨full_fits _ (by decide) hd.lt ha.lt (by decide) (by decide) (by omega), ?_⟩
    change (_ >>= _) = _
    simp (disch := omega) [hd, ha, rawI_full, fbit, e0, b2n_beq_one]

theorem reads_hmnmx2 {x : HmOp} (hw : (Instr.hmnmx2 x).wf = true) : Reads (.hmnmx2 x) := by
  have hn := useOk_of_wf hw
  obtain ⟨g, d, a, b, ms, bf, mx⟩ := x
  delta uses at hn
  simp only [uses2, List.forall_mem_cons] at hn
  obtain ⟨hd, ha, hb, -⟩ := hn
  have hd := named_of_useOk hd
  have ha := named_of_useOk ha
  have h0 := modsCode_lt ms
  have h1 := b2n_lt bf
  have h2 := b2n_lt mx
  have hf : (!ms.nc && (!isImm b || (plainMods ms && !bf))) = true := (wf_parts hw).2
  simp only [Bool.and_eq_true, Bool.or_eq_true, Bool.not_eq_true'] at hf
  delta Reads encRaw
  dsimp only
  generalize hF : modsCode ms + 32 * b2n bf + 64 * b2n mx = F
  rcases bform_cases hb 0x33 g (opndCode d) (opndCode a) 0 F mx with ⟨w, rfl, he⟩ | ⟨hbi, hb, he⟩ <;> rw [he]
  · refine ⟨immed_fits _ _ _ (by decide) hd.lt ha.lt, ?_⟩
    obtain ⟨hp, rfl⟩ := hf.2.resolve_left (by simp [isImm])
    obtain rfl := eq_of_plainMods hp
    change (_ >>= _) = _
    simp [hd, ha]
  · refine ⟨full_fits _ (by decide) hd.lt ha.lt hb.lt (by decide) (by omega), ?_⟩
    have e0 : F % 32 = modsCode ms := by omega
    have e1 : F / 32 % 2 = b2n bf := by omega
    have e2 : F / 64 % 2 = b2n mx := by omega
    change (_ >>= _) = _
    simp (disch := omega) [hd, ha, hb, bOf_full, rawI_full, fbit, b2n_beq_one, modsOf_of_func (r := full 0x33 g
      (opndCode d) (opndCode a) (opndCode b) 0 F) e0, e1, e2]

theorem reads_shfl {x : ShflOp} (hw : (Instr.shfl x).wf = true) : Reads (.shfl x) := by
  have hn := useOk_of_wf hw
  obtain ⟨g, d, a, b, md, seg⟩ := x
  delta uses at hn
  simp only [List.forall_mem_cons] at hn
  obtain ⟨hd, ha, hb, -⟩ := hn
  have hd := named_of_useOk hd
  have ha := named_of_useOk ha
  have h0 := shflCode_lt md
  have h1 := seg.isLt
  have hf : (!isImm b || (md == .idx && seg.val == 0)) = true := (wf_parts hw).2
  simp only [Bool.and_eq_true, Bool.or_eq_true, Bool.not_eq_true', beq_iff_eq] at hf
  delta Reads encRaw
  dsimp only
  generalize hF : shflCode md + 4 * seg.val = F
  rcases bform_cases hb 0x40 g (opndCode d) (opndCode a) 0 F false with ⟨w, rfl, he⟩ | ⟨hbi, hb, he⟩ <;> rw [he]
  · refine ⟨immed_fits _ _ _ (by decide) hd.lt ha.lt, ?_⟩
    obtain ⟨rfl, hseg⟩ := hf.resolve_left (by simp [isImm])
    obtain rfl : seg = 0 := Fin.ext hseg
    change (_ >>= _) = _
    simp [hd, ha]
  · refine ⟨full_fits _ (by decide) hd.lt ha.lt hb.lt (by decide) (by omega), ?_⟩
    have e0 : F % 4 = shflCode md := by omega
    have e1 : F / 4 % 8 = seg.val := by omega
    change (_ >>= _) = _
    simp (disch := omega) [hd, ha, hb, bOf_full, rawI_full, ffld, h1, e0, e1]

theorem reads_pref {x : PrefOp} (hw : (Instr.pref x).wf = true) : Reads (.pref x) := by
  have hn := useOk_of_wf hw
  obtain ⟨g, a, b, l2⟩ := x
  delta uses at hn
  simp only [List.forall_mem_cons] at hn
  obtain ⟨ha, hb, -⟩ := hn
  have ha := named_of_useOk ha
  have h0 := b2n_lt l2
  have hf : (!isImm b || !l2) = true := (wf_parts hw).2
  delta Reads encRaw
  dsimp only
  generalize hF : b2n l2 = F
  rcases bform_cases hb 0x5D g 0 (opndCode a) 0 F false with ⟨w, rfl, he⟩ | ⟨hbi, hb, he⟩ <;> rw [he]
  · refine ⟨immed_fits _ _ _ (by decide) (by decide) ha.lt, ?_⟩
    obtain rfl : l2 = false := by simpa [isImm] using hf
    change (_ >>= _) = _
    simp [ha]
  · refine ⟨full_fits _ (by decide) (by decide) ha.lt hb.lt (by decide) (by omega), ?_⟩
    have e0 : F % 2 = b2n l2 := by omega
    change (_ >>= _) = _
    simp (disch := omega) [ha, hb, bOf_full, rawI_full, fbit, b2n_beq_one, e0]

theorem reads_mwb {d a b : Opnd} (hw : (Instr.mwb d a b).wf = true) : Reads (.mwb d a b) := by
  have hn : ∀ u ∈ uses (.mwb d a b), useOk u = true := useOk_of_wf hw
  delta uses at hn
  simp only [List.forall_mem_cons] at hn
  obtain ⟨hd, ha, hb, -⟩ := hn
  have hd := named_of_useOk hd
  have ha := named_of_useOk ha
  delta Reads encRaw
  dsimp only
  rcases bform_cases hb 0x62 unguarded (opndCode d) (opndCode a) 0 0 false with ⟨w, rfl, he⟩ | ⟨hbi, hb, he⟩ <;> rw [he]
  · refine ⟨immed_fits _ _ _ (by decide) hd.lt ha.lt, ?_⟩
    change (_ >>= _) = _
    simp [hd, ha]
  · refine ⟨full_fits _ (by decide) hd.lt ha.lt hb.lt (by decide) (by decide), ?_⟩
    change (_ >>= _) = _
    simp (disch := omega) [hd, ha, hb, bOf_full]

theorem reads_barv {d a b : Opnd} (hw : (Instr.barv d a b).wf = true) : Reads (.barv d a b) := by
  have hn : ∀ u ∈ uses (.barv d a b), useOk u = true := useOk_of_wf hw
  delta uses at hn
  simp only [List.forall_mem_cons] at hn
  obtain ⟨hd, ha, hb, -⟩ := hn
  have hd := named_of_useOk hd
  have ha := named_of_useOk ha
  delta Reads encRaw
  dsimp only
  rcases bform_cases hb 0x6D unguarded (opndCode d) (opndCode a) 0 0 false with ⟨w, rfl, he⟩ | ⟨hbi, hb, he⟩ <;> rw [he]
  · refine ⟨immed_fits _ _ _ (by decide) hd.lt ha.lt, ?_⟩
    change (_ >>= _) = _
    simp [hd, ha]
  · refine ⟨full_fits _ (by decide) hd.lt ha.lt hb.lt (by decide) (by decide), ?_⟩
    change (_ >>= _) = _
    simp (disch := omega) [hd, ha, hb, bOf_full]

theorem reads_cwb {a b : Opnd} {sc : Scope} (hw : (Instr.cwb a b sc).wf = true) : Reads (.cwb a b sc) := by
  have hn : ∀ u ∈ uses (.cwb a b sc), useOk u = true := useOk_of_wf hw
  delta uses at hn
  simp only [List.forall_mem_cons] at hn
  obtain ⟨ha, hb, -⟩ := hn
  have ha := named_of_useOk ha
  have h0 := scopeCode_lt sc
  have hf : (!isImm b || sc == .dev) = true := (wf_parts hw).2
  delta Reads encRaw
  dsimp only
  generalize hF : 512 * scopeCode sc = F
  rcases bform_cases hb 0x5E unguarded 0 (opndCode a) 0 F false with ⟨w, rfl, he⟩ | ⟨hbi, hb, he⟩ <;> rw [he]
  · refine ⟨immed_fits _ _ _ (by decide) (by decide) ha.lt, ?_⟩
    obtain rfl : sc = .dev := by simpa [isImm] using hf
    change (ite _ _ _) = _
    simp [ha]
  · refine ⟨full_fits _ (by decide) (by decide) ha.lt hb.lt (by decide) (by omega), ?_⟩
    have e0 : F / 512 % 8 = scopeCode sc := by omega
    change (ite _ _ _) = _
    simp (disch := omega) [ha, hb, bOf_full, rawI_full, ffld, e0]

theorem reads_cinv {a b : Opnd} {sc : Scope} (hw : (Instr.cinv a b sc).wf = true) : Reads (.cinv a b sc) := by
  have hn : ∀ u ∈ uses (.cinv a b sc), useOk u = true := useOk_of_wf hw
  delta uses at hn
  simp only [List.forall_mem_cons] at hn
  obtain ⟨ha, hb, -⟩ := hn
  have ha := named_of_useOk ha
  have h0 := scopeCode_lt sc
  have hf : (!isImm b || sc == .dev) = true := (wf_parts hw).2
  delta Reads encRaw
  dsimp only
  generalize hF : 512 * scopeCode sc = F
  rcases bform_cases hb 0x5F unguarded 0 (opndCode a) 0 F false with ⟨w, rfl, he⟩ | ⟨hbi, hb, he⟩ <;> rw [he]
  · refine ⟨immed_fits _ _ _ (by decide) (by decide) ha.lt, ?_⟩
    obtain rfl : sc = .dev := by simpa [isImm] using hf
    change (ite _ _ _) = _
    simp [ha]
  · refine ⟨full_fits _ (by decide) (by decide) ha.lt hb.lt (by decide) (by omega), ?_⟩
    have e0 : F / 512 % 8 = scopeCode sc := by omega
    change (ite _ _ _) = _
    simp (disch := omega) [ha, hb, bOf_full, rawI_full, ffld, e0]

theorem reads_sleep {a : Opnd} (hw : (Instr.sleep a).wf = true) : Reads (.sleep a) := by
  have hn : ∀ u ∈ uses (.sleep a), useOk u = true := useOk_of_wf hw
  delta uses at hn
  simp only [List.forall_mem_cons] at hn
  cases hai : isImm a with
  | true =>
    obtain ⟨w, rfl⟩ := isImm_iff.1 hai
    refine ⟨immed_fits _ _ _ (by decide) (by decide) (by decide), ?_⟩
    change ite _ _ _ = _
    rw [encRaw_sleep_imm]
    simp
  | false =>
    have ha := named_of_useOk_imm hn.1 hai
    delta Reads
    rw [encRaw_sleep hai]
    refine ⟨full_fits _ (by decide) (by decide) ha.lt (by decide) (by decide) (by decide), ?_⟩
    change ite _ _ _ = _
    simp (disch := omega) [ha, rawI_full]

theorem reads_unmoor {d a : Opnd} {wb : Bool} (hw : (Instr.unmoor d a wb).wf = true) : Reads (.unmoor d a wb) := by
  have hn : ∀ u ∈ uses (.unmoor d a wb), useOk u = true := useOk_of_wf hw
  delta uses at hn
  simp only [List.forall_mem_cons] at hn
  obtain ⟨hd, ha, -⟩ := hn
  have hd := named_of_useOk hd
  have h0 := b2n_lt wb
  cases hai : isImm a with
  | true =>
    obtain ⟨w, rfl⟩ := isImm_iff.1 hai
    refine ⟨immed_fits _ _ _ (by decide) hd.lt (by decide), ?_⟩
    change (opndOf (opndCode d) >>= _) = _
    rw [hd, show encRaw (.unmoor d (.imm w) wb) = immed 0x61 unguarded (opndCode d) 0 w wb from rfl]
    simp
  | false =>
    have ha := named_of_useOk_imm ha hai
    delta Reads
    rw [encRaw_unmoor hai]
    have e0 : b2n wb % 2 = b2n wb := by omega
    refine ⟨full_fits _ (by decide) hd.lt ha.lt (by decide) (by decide) (by omega), ?_⟩
    change (_ >>= _) = _
    simp (disch := omega) [hd, ha, rawI_full, fbit, e0, b2n_beq_one]

theorem not_isImm_of_useOk {r : Role} {o : Opnd} {n : Nat} {ch : Bool} (hu : useOk ⟨r, o, n, ch, false⟩ = true) :
    isImm o = false := by
  cases o with
  | imm x => simp [useOk] at hu
  | _ => rfl

theorem reads_vote {x : VoteOp} (hw : (Instr.vote x).wf = true) : Reads (.vote x) := by
  have hn := named_of_wf hw
  obtain ⟨g, dst, pc, pn⟩ := x
  have h0 := pc.isLt
  have h1 := b2n_lt pn
  have h2 : (pc.val + 8 * b2n pn) / 8 % 2 = b2n pn := by omega
  have h3 : (pc.val + 8 * b2n pn) % 8 = pc.val := by omega
  have h4 : (Fin.ofNat 8 (pc.val + 8 * b2n pn)) = pc := Fin.ext h3
  delta uses at hn
  delta Reads encRaw
  dsimp only at hn ⊢
  cases dst with
  | ballot d =>
    have hd : Named d := by simpa using hn
    refine ⟨full_fits _ (by decide) hd.lt (by decide) (by decide) (by omega) (by decide), ?_⟩
    change ite _ _ _ = _
    rw [full_c, h2, h4]
    simp [ffld, hd, b2n_beq_one]
  | pred m pd =>
    have h5 := voteCode_pos_lt m
    have h6 := pd.isLt
    have h7 : voteCode m % 4 = voteCode m := by omega
    have h8 : voteCode m ≠ 0 := by omega
    refine ⟨full_fits _ (by decide) (by omega) (by decide) (by decide) (by omega) (by omega), ?_⟩
    change ite _ _ _ = _
    rw [full_c, h2, h4]
    simp [ffld, h7, h8, voteOf_voteCode, b2n_beq_one]

theorem reads_atom {x : AtomOpnds} (hw : (Instr.atom x).wf = true) : Reads (.atom x) := by
  have hn := named_of_wf hw
  obtain ⟨g, d, a, b, c, op, ty, ⟨acq, rel⟩, sc⟩ := x
  have hf : (!(ty == .f32 && (op == .and || op == .or || op == .xor || op == .cas || op == .inc || op == .dec)) &&
      !((op == .inc || op == .dec) && (ty == .i32 || ty == .i64)) && (acq || rel || sc == .dev) &&
      (op == .cas || c == .v 0)) = true := (wf_parts hw).2
  delta uses at hn
  simp only [List.forall_mem_append, List.forall_mem_cons, forall_const] at hn
  obtain ⟨⟨hd, ha, hb, -⟩, hc⟩ := hn
  have hc : Named c := by
    rw [Bool.and_eq_true, Bool.or_eq_true, beq_iff_eq, beq_iff_eq] at hf
    rcases hf.2 with rfl | rfl
    · simpa using hc
    · rfl
  have h0 := atomOpCode_lt op
  have h1 := atomTyCode_lt ty
  have h2 := b2n_lt acq
  have h3 := b2n_lt rel
  have h4 := scopeCode_lt sc
  delta Reads encRaw
  dsimp only
  generalize hF : atomOpCode op + 16 * atomTyCode ty + 128 * b2n acq + 256 * b2n rel + 512 * scopeCode sc = F
  have e0 : F % 16 = atomOpCode op := by omega
  have e1 : F / 16 % 8 = atomTyCode ty := by omega
  have e2 : F / 128 % 2 = b2n acq := by omega
  have e3 : F / 256 % 2 = b2n rel := by omega
  have e4 : F / 512 % 8 = scopeCode sc := by omega
  refine ⟨full_fits _ (by decide) (Named.lt hd) (Named.lt ha) (Named.lt hb) hc.lt (by omega), ?_⟩
  change (_ >>= _) = _
  simp [hd, ha, hb, hc, fbit, ffld, e0, e1, e2, e3, e4, b2n_beq_one]

theorem reads_red {x : RedMemOp} (hw : (Instr.red x).wf = true) : Reads (.red x) := by
  have hn := named_of_wf hw
  obtain ⟨g, a, b, op, ty, rel, sc⟩ := x
  delta uses at hn
  simp at hn
  obtain ⟨ha, hb⟩ := hn
  have h0 := redOpCode_lt op
  have h1 := atomTyCode_lt ty
  have h2 := b2n_lt rel
  have h3 := scopeCode_lt sc
  delta Reads encRaw
  dsimp only
  generalize hF : redOpCode op + 16 * atomTyCode ty + 256 * b2n rel + 512 * scopeCode sc = F
  have e0 : F % 16 = redOpCode op := by omega
  have e1 : F / 16 % 8 = atomTyCode ty := by omega
  have e2 : F / 256 % 2 = b2n rel := by omega
  have e3 : F / 512 % 8 = scopeCode sc := by omega
  refine ⟨full_fits _ (by decide) (by decide) ha.lt hb.lt (by decide) (by omega), ?_⟩
  change (_ >>= _) = _
  simp [ha, hb, fbit, ffld, b2n_beq_one, e0, e1, e2, e3]

theorem reads_fence (sc : Scope) : Reads (.fence sc) := by
  have h0 := scopeCode_lt sc
  delta Reads encRaw
  dsimp only
  generalize hF : 512 * scopeCode sc = F
  have e0 : F % 2 = 0 := by omega
  have e1 : F / 512 % 8 = scopeCode sc := by omega
  refine ⟨full_fits _ (by decide) (by decide) (by decide) (by decide) (by decide) (by omega), ?_⟩
  change (ite _ _ _) = _
  simp [fbit, ffld, e0, e1]

theorem reads_cpy {x : CpyOp} (hw : (Instr.cpy x).wf = true) : Reads (.cpy x) := by
  have hn := named_of_wf hw
  obtain ⟨g, d, a, b, sz, bar⟩ := x
  have h0 := sz.isLt
  delta uses at hn
  simp only [List.forall_mem_append, List.forall_mem_cons, forall_const] at hn
  obtain ⟨⟨hd, ha, hb, -⟩, hbar⟩ := hn
  delta Reads encRaw
  dsimp only
  cases bar with
  | none =>
    generalize hF : sz.val + 4 * b2n (none : Option Opnd).isSome = F
    have hF : F = sz.val := by simp [← hF, b2n]
    have e0 : F % 4 = sz.val := by omega
    have e1 : F / 4 % 2 = 0 := by omega
    refine ⟨full_fits _ (by decide) (Named.lt hd) (Named.lt ha) (Named.lt hb) (by decide) (by omega), ?_⟩
    change ite _ _ _ = _
    simp [hd, ha, hb, fbit, ffld, e0, e1, h0]
  | some c =>
    have hc : Named c := by simpa using hbar
    generalize hF : sz.val + 4 * b2n (some c).isSome = F
    have hF : F = sz.val + 4 := by simp [← hF, b2n]
    have e0 : F % 4 = sz.val := by omega
    have e1 : F / 4 % 2 = 1 := by omega
    refine ⟨full_fits _ (by decide) (Named.lt hd) (Named.lt ha) (Named.lt hb) hc.lt (by omega), ?_⟩
    change ite _ _ _ = _
    simp [optCode, hd, ha, hb, hc, fbit, ffld, e0, e1, h0]

theorem reads_redpArm {d a : Opnd} {id : Fin 4} (hw : (Instr.redpArm d a id).wf = true) : Reads (.redpArm d a id) := by
  have hn : ∀ u ∈ uses (.redpArm d a id), u.im = false → Named u.o := named_of_wf hw
  delta uses at hn
  simp at hn
  obtain ⟨hd, ha⟩ := hn
  have h0 := id.isLt
  delta Reads encRaw
  dsimp only
  generalize hF : 1 + 4 * id.val = F
  have e0 : F % 4 = 1 := by omega
  have e1 : F / 4 % 4 = id.val := by omega
  refine ⟨full_fits _ (by decide) hd.lt ha.lt (by decide) (by decide) (by omega), ?_⟩
  change (ite _ _ _) = _
  simp [hd, ha, ffld, e0, e1]

theorem reads_redpContribute {d a : Opnd} {id : Fin 4} (hw : (Instr.redpContribute d a id).wf = true) :
    Reads (.redpContribute d a id) := by
  have hn : ∀ u ∈ uses (.redpContribute d a id), u.im = false → Named u.o := named_of_wf hw
  delta uses at hn
  simp at hn
  obtain ⟨hd, ha⟩ := hn
  have h0 := id.isLt
  delta Reads encRaw
  dsimp only
  generalize hF : 4 * id.val = F
  have e0 : F % 4 = 0 := by omega
  have e1 : F / 4 % 4 = id.val := by omega
  refine ⟨full_fits _ (by decide) hd.lt ha.lt (by decide) (by decide) (by omega), ?_⟩
  change (ite _ _ _) = _
  simp [hd, ha, ffld, e0, e1]

theorem reads_remit {g : Guard} {i : Fin 16} {a : Opnd} (hw : (Instr.remit g i a).wf = true) :
    Reads (.remit g i a) := by
  have hn : ∀ u ∈ uses (.remit g i a), u.im = false → Named u.o := named_of_wf hw
  delta uses at hn
  simp at hn
  have ha := hn
  have h0 := i.isLt
  delta Reads encRaw
  dsimp only
  generalize hF : i.val = F
  have e0 : F % 16 = i.val := by omega
  refine ⟨full_fits _ (by decide) (by decide) ha.lt (by decide) (by decide) (by omega), ?_⟩
  change (_ >>= _) = _
  simp [ha, ffld, e0]

theorem reads_bpar {pd : Fin 8} {a : Opnd} (hw : (Instr.bpar pd a).wf = true) : Reads (.bpar pd a) := by
  have hn : ∀ u ∈ uses (.bpar pd a), u.im = false → Named u.o := named_of_wf hw
  delta uses at hn
  simp at hn
  have ha := hn
  have h0 := pd.isLt
  delta Reads encRaw
  dsimp only
  refine ⟨full_fits _ (by decide) (by omega) ha.lt (by decide) (by decide) (by decide), ?_⟩
  change (_ >>= _) = _
  simp [ha]

theorem reads_binit {a b : Opnd} {c : Option Opnd} (hw : (Instr.binit a b c).wf = true) : Reads (.binit a b c) := by
  have hn : ∀ u ∈ uses (.binit a b c), useOk u = true := useOk_of_wf hw
  have hf : (!isImm b || c == none) = true := (wf_parts hw).2
  delta uses at hn
  simp only [List.forall_mem_append, List.forall_mem_cons] at hn
  obtain ⟨⟨ha, hb, -⟩, hc⟩ := hn
  have ha := named_of_useOk ha
  obtain ⟨hc, hcl⟩ := optOf_optCode (c := c) (n := 1) (by rintro o rfl; simpa using hc)
  delta Reads encRaw
  dsimp only
  rcases bform_cases hb 0x6C unguarded 0 (opndCode a) (optCode c) 0 false with ⟨w, rfl, he⟩ | ⟨hbi, hb, he⟩ <;> rw [he]
  · refine ⟨immed_fits _ _ _ (by decide) (by decide) ha.lt, ?_⟩
    obtain rfl : c = none := by simpa [isImm] using hf
    change (_ >>= _) = _
    simp [ha]
  · refine ⟨full_fits _ (by decide) (by decide) ha.lt hb.lt hcl (by decide), ?_⟩
    change (_ >>= _) = _
    simp (disch := omega) [ha, hb, hc, bOf_full, rawI_full]

theorem reads_waitBar {pd : Fin 8} {a b : Opnd} {c : Option Opnd} (hw : (Instr.waitBar pd a b c).wf = true) :
    Reads (.waitBar pd a b c) := by
  have hn : ∀ u ∈ uses (.waitBar pd a b c), useOk u = true := useOk_of_wf hw
  have hf : (!isImm b || c == none) = true := (wf_parts hw).2
  delta uses at hn
  simp only [List.forall_mem_append, List.forall_mem_cons] at hn
  obtain ⟨⟨ha, hb, -⟩, hc⟩ := hn
  have ha := named_of_useOk ha
  obtain ⟨hc, hcl⟩ := optOf_optCode (c := c) (n := 1) (by rintro o rfl; simpa using hc)
  have h0 := pd.isLt
  delta Reads encRaw
  dsimp only [encWait]
  rcases bform_cases hb 0x6F unguarded pd.val (opndCode a) (optCode c) 0 false with ⟨w, rfl, he⟩ |
    ⟨hbi, hb, he⟩ <;> rw [he]
  · refine ⟨immed_fits _ _ _ (by decide) (by omega) ha.lt, ?_⟩
    obtain rfl : c = none := by simpa [isImm] using hf
    change decWait _ = _
    simp [decWait, ha]
  · refine ⟨full_fits _ (by decide) (by omega) ha.lt hb.lt hcl (by decide), ?_⟩
    change decWait _ = _
    simp (disch := omega) [decWait, ffld, ha, hb, hc, rawI_full]

theorem reads_waitBmp {pd : Fin 8} {a b : Opnd} {c : Option Opnd} (hw : (Instr.waitBmp pd a b c).wf = true) :
    Reads (.waitBmp pd a b c) := by
  have hn : ∀ u ∈ uses (.waitBmp pd a b c), useOk u = true := useOk_of_wf hw
  delta uses at hn
  simp only [List.forall_mem_append, List.forall_mem_cons] at hn
  obtain ⟨⟨ha, hb, -⟩, hc⟩ := hn
  have ha := named_of_useOk ha
  have hbi := not_isImm_of_useOk hb
  have hb := named_of_useOk hb
  obtain ⟨hc, hcl⟩ := optOf_optCode (c := c) (n := 1) (by rintro o rfl; simpa using hc)
  have h0 := pd.isLt
  delta Reads encRaw
  dsimp only [encWait]
  rw [bform_full _ _ _ _ _ _ _ hbi]
  refine ⟨full_fits _ (by decide) (by omega) ha.lt hb.lt hcl (by decide), ?_⟩
  change decWait _ = _
  simp (disch := omega) [decWait, ffld, ha, hb, hc, rawI_full]

theorem reads_waitTl {pd : Fin 8} {a b : Opnd} {c : Option Opnd} (hw : (Instr.waitTl pd a b c).wf = true) :
    Reads (.waitTl pd a b c) := by
  have hn : ∀ u ∈ uses (.waitTl pd a b c), useOk u = true := useOk_of_wf hw
  delta uses at hn
  simp only [List.forall_mem_append, List.forall_mem_cons] at hn
  obtain ⟨⟨ha, hb, -⟩, hc⟩ := hn
  have ha := named_of_useOk ha
  have hbi := not_isImm_of_useOk hb
  have hb := named_of_useOk hb
  obtain ⟨hc, hcl⟩ := optOf_optCode (c := c) (n := 1) (by rintro o rfl; simpa using hc)
  have h0 := pd.isLt
  delta Reads encRaw
  dsimp only [encWait]
  rw [bform_full _ _ _ _ _ _ _ hbi]
  refine ⟨full_fits _ (by decide) (by omega) ha.lt hb.lt hcl (by decide), ?_⟩
  change decWait _ = _
  simp (disch := omega) [decWait, ffld, ha, hb, hc, rawI_full]

theorem reads_waitAc {pd : Fin 8} {n : Fin 16} {c : Option Opnd} (hw : (Instr.waitAc pd n c).wf = true) :
    Reads (.waitAc pd n c) := by
  have hn : ∀ u ∈ uses (.waitAc pd n c), useOk u = true := useOk_of_wf hw
  delta uses at hn
  obtain ⟨hc, hcl⟩ := optOf_optCode (c := c) (n := 1) (by rintro o rfl; simpa using hn)
  have h0 := pd.isLt
  have h1 := n.isLt
  delta Reads encRaw
  dsimp only
  generalize hF : 2 + 4 * n.val = F
  have e0 : F % 4 = 2 := by omega
  have e1 : F / 4 % 16 = n.val := by omega
  refine ⟨full_fits _ (by decide) (by omega) (by decide) (by decide) hcl (by omega), ?_⟩
  change decWait _ = _
  simp (disch := omega) [decWait, ffld, hc, rawI_full, e0, e1]

theorem reads_mldw {a b : Opnd} {wf : WFmt} (hw : (Instr.mldw a b wf).wf = true) : Reads (.mldw a b wf) := by
  have hn : ∀ u ∈ uses (.mldw a b wf), u.im = false → Named u.o := named_of_wf hw
  delta uses at hn
  simp at hn
  obtain ⟨ha, hb⟩ := hn
  have h0 := wfmtCode_lt wf
  delta Reads encRaw
  dsimp only
  generalize hF : wfmtCode wf = F
  have e0 : F % 8 = wfmtCode wf := by omega
  refine ⟨full_fits _ (by decide) (by decide) ha.lt hb.lt (by decide) (by omega), ?_⟩
  change (_ >>= _) = _
  simp [ha, hb, ffld, e0]

theorem reads_mlut {sb : Nat} (hw : (Instr.mlut sb).wf = true) : Reads (.mlut sb) := by
  have hn : ∀ u ∈ uses (.mlut sb), u.im = false → Named u.o := named_of_wf hw
  delta uses at hn
  simp only [List.forall_mem_cons, forall_const] at hn
  delta Reads encRaw
  dsimp only
  generalize hF : 0x1000 = F
  refine ⟨full_fits _ (by decide) (by decide) (by decide) (Named.lt hn.1) (by decide) (by omega), ?_⟩
  have ek : F / 2 ^ 12 % 2 ^ 4 = 1 := by omega
  change (match F / 2 ^ 12 % 2 ^ 4 with | 0 => _ | 1 => _ | 2 => _ | _ => _) = _
  rw [ek]
  simp

theorem reads_mzero (g : Guard) (t : Fin 8) : Reads (.mzero g t) := by
  have h0 := t.isLt
  delta Reads encRaw
  dsimp only
  generalize hF : 0x2000 + t.val = F
  have e0 : F % 8 = t.val := by omega
  refine ⟨full_fits _ (by decide) (by decide) (by decide) (by decide) (by decide) (by omega), ?_⟩
  have e1 : F / 2 ^ 12 % 2 ^ 4 = 2 := by omega
  change (match F / 2 ^ 12 % 2 ^ 4 with | 0 => _ | 1 => _ | 2 => _ | _ => _) = _
  rw [e1]
  simp [ffin, ffld, e0]

theorem reads_mma {x : MmaOp} (hw : (Instr.mma x).wf = true) : Reads (.mma x) := by
  have hn := named_of_wf hw
  obtain ⟨g, a, tile, af, zpm, kh⟩ := x
  delta uses at hn
  simp at hn
  have ha := hn
  have h0 := tile.isLt
  have h1 := afmtCode_lt af
  have h2 := b2n_lt zpm
  have h3 := b2n_lt kh
  delta Reads encRaw
  dsimp only
  generalize hF : tile.val + 8 * afmtCode af + 64 * b2n zpm + 128 * b2n kh = F
  have e0 : F % 8 = tile.val := by omega
  have e1 : F / 8 % 8 = afmtCode af := by omega
  have e2 : F / 64 % 2 = b2n zpm := by omega
  have e3 : F / 128 % 2 = b2n kh := by omega
  refine ⟨full_fits _ (by decide) (by decide) ha.lt (by decide) (by decide) (by omega), ?_⟩
  change (_ >>= _) = _
  simp [ha, fbit, ffin, ffld, e0, e1, e2, e3, b2n_beq_one]

theorem reads_mrd {x : MrdOp} (hw : (Instr.mrd x).wf = true) : Reads (.mrd x) := by
  have hn := named_of_wf hw
  obtain ⟨g, d, tile, col, wc⟩ := x
  delta uses at hn
  simp at hn
  have hd := hn
  have h0 := tile.isLt
  have h1 := col.isLt
  have h2 := wc.isLt
  delta Reads encRaw
  dsimp only
  generalize hF : tile.val + 8 * col.val + 512 * wc.val = F
  have e0 : F % 8 = tile.val := by omega
  have e1 : F / 8 % 64 = col.val := by omega
  have e2 : F / 512 % 4 = wc.val := by omega
  refine ⟨full_fits _ (by decide) hd.lt (by decide) (by decide) (by decide) (by omega), ?_⟩
  change (ite _ _ _) = _
  simp [hd, ffin, ffld, h2, e0, e1, e2]

theorem reads_mst {x : MstOp} (hw : (Instr.mst x).wf = true) : Reads (.mst x) := by
  have hn := useOk_of_wf hw
  obtain ⟨g, a, b, c, tile, sc, zpe, ofmt⟩ := x
  delta uses at hn
  simp only [List.forall_mem_append, List.forall_mem_cons] at hn
  obtain ⟨⟨ha, hb, -⟩, hc⟩ := hn
  have ha := named_of_useOk ha
  have hb := named_of_useOk hb
  obtain ⟨hc, hcl⟩ := optOf_optCode (c := c) (n := 1) (by rintro o rfl; simpa using hc)
  have h0 := tile.isLt
  have h1 := b2n_lt sc
  have h2 := b2n_lt zpe
  have h3 := fmtCode_lt ofmt
  delta Reads encRaw
  dsimp only
  generalize hF : tile.val + 8 * b2n sc + 16 * b2n zpe + 32 * fmtCode ofmt = F
  have e0 : F % 8 = tile.val := by omega
  have e1 : F / 8 % 2 = b2n sc := by omega
  have e2 : F / 16 % 2 = b2n zpe := by omega
  have e3 : F / 32 % 16 = fmtCode ofmt := by omega
  refine ⟨full_fits _ (by decide) (by decide) ha.lt hb.lt hcl (by omega), ?_⟩
  change (_ >>= _) = _
  simp [ha, hb, hc, fbit, ffin, ffld, e0, e1, e2, e3, b2n_beq_one]

theorem reads_capenter {x : CapenterOp} (hw : (Instr.capenter x).wf = true) : Reads (.capenter x) := by
  have hn := named_of_wf hw
  obtain ⟨d, a, b, c, lbl⟩ := x
  delta uses at hn
  simp at hn
  obtain ⟨hd, ha, hb, hc⟩ := hn
  have h0 := lbl.isLt
  delta Reads encRaw
  dsimp only
  generalize hF : lbl.toNat = F
  have e0 : F % 4096 = lbl.toNat := by omega
  refine ⟨full_fits _ (by decide) hd.lt ha.lt hb.lt hc.lt (by omega), ?_⟩
  have ek : F / 2 ^ 12 % 2 ^ 4 = 0 := by omega
  change (match F / 2 ^ 12 % 2 ^ 4 with | 0 => _ | 1 => _ | 2 => _ | _ => _) = _
  rw [ek]
  simp [hd, ha, hb, hc, ffld, e0]

theorem reads_capadopt {d a : Opnd} (hw : (Instr.capadopt d a).wf = true) : Reads (.capadopt d a) := by
  have hn : ∀ u ∈ uses (.capadopt d a), u.im = false → Named u.o := named_of_wf hw
  delta uses at hn
  simp at hn
  obtain ⟨hd, ha⟩ := hn
  delta Reads encRaw
  dsimp only
  generalize hF : 0x1000 = F
  refine ⟨full_fits _ (by decide) hd.lt ha.lt (by decide) (by decide) (by omega), ?_⟩
  have ek : F / 2 ^ 12 % 2 ^ 4 = 1 := by omega
  change (match F / 2 ^ 12 % 2 ^ 4 with | 0 => _ | 1 => _ | 2 => _ | _ => _) = _
  rw [ek]
  simp [hd, ha]

theorem reads_capstat {d a : Opnd} (hw : (Instr.capstat d a).wf = true) : Reads (.capstat d a) := by
  have hn : ∀ u ∈ uses (.capstat d a), u.im = false → Named u.o := named_of_wf hw
  delta uses at hn
  simp at hn
  obtain ⟨hd, ha⟩ := hn
  delta Reads encRaw
  dsimp only
  generalize hF : 0x2000 = F
  refine ⟨full_fits _ (by decide) hd.lt ha.lt (by decide) (by decide) (by omega), ?_⟩
  have ek : F / 2 ^ 12 % 2 ^ 4 = 2 := by omega
  change (match F / 2 ^ 12 % 2 ^ 4 with | 0 => _ | 1 => _ | 2 => _ | _ => _) = _
  rw [ek]
  simp [hd, ha]

theorem reads_capstep (lbl : BitVec 12) : Reads (.capstep lbl) := by
  have h0 := lbl.isLt
  delta Reads encRaw
  dsimp only
  generalize hF : lbl.toNat = F
  have e0 : F % 4096 = lbl.toNat := by omega
  refine ⟨full_fits _ (by decide) (by decide) (by decide) (by decide) (by decide) (by omega), ?_⟩
  have ek : F / 2 ^ 12 % 2 ^ 4 = 0 := by omega
  change (match F / 2 ^ 12 % 2 ^ 4 with | 0 => _ | 1 => _ | 2 => _ | _ => _) = _
  rw [ek]
  simp [ffld, e0]

theorem reads_tbindCh (n : Fin 16) (tag : Byte) : Reads (.tbindCh n tag) := by
  have h0 := n.isLt
  have h1 := tag.isLt
  delta Reads encRaw
  dsimp only
  generalize hF : 2 + 4 * tag.toNat = F
  have e0 : F % 4 = 2 := by omega
  have e1 : F / 4 % 256 = tag.toNat := by omega
  have e2 : (256 + n.val) % 16 = n.val := by omega
  refine ⟨full_fits _ (by decide) (by omega) (by decide) (by decide) (by decide) (by omega), ?_⟩
  have ek : F / 2 ^ 12 % 2 ^ 4 = 0 := by omega
  change (match F / 2 ^ 12 % 2 ^ 4 with | 0 => _ | 1 => _ | 2 => _ | _ => _) = _
  rw [ek]
  simp [ffld, Fin.ofNat_eq_cast, Fin.ext_iff, e0, e1, e2]

theorem reads_tbindAt {a : Opnd} (hw : (Instr.tbindAt a).wf = true) : Reads (.tbindAt a) := by
  have hn : ∀ u ∈ uses (.tbindAt a), u.im = false → Named u.o := named_of_wf hw
  delta uses at hn
  simp at hn
  have ha := hn
  delta Reads encRaw
  dsimp only
  generalize hF : 1 = F
  have e0 : F % 4 = 1 := by omega
  refine ⟨full_fits _ (by decide) (by decide) ha.lt (by decide) (by decide) (by omega), ?_⟩
  have ek : F / 2 ^ 12 % 2 ^ 4 = 0 := by omega
  change (match F / 2 ^ 12 % 2 ^ 4 with | 0 => _ | 1 => _ | 2 => _ | _ => _) = _
  rw [ek]
  simp [ha, ffld, e0]

theorem reads_trec {x : TrecOp} (hw : (Instr.trec x).wf = true) : Reads (.trec x) := by
  have hn := named_of_wf hw
  obtain ⟨g, a, tag, h16⟩ := x
  delta uses at hn
  simp at hn
  have ha := hn
  have h0 := tag.isLt
  have h1 := b2n_lt h16
  delta Reads encRaw
  dsimp only
  generalize hF : 0x1000 + tag.toNat + 256 * b2n h16 = F
  have e0 : F % 256 = tag.toNat := by omega
  have e1 : F / 256 % 2 = b2n h16 := by omega
  refine ⟨full_fits _ (by decide) (by decide) ha.lt (by decide) (by decide) (by omega), ?_⟩
  have ek : F / 2 ^ 12 % 2 ^ 4 = 1 := by omega
  change (match F / 2 ^ 12 % 2 ^ 4 with | 0 => _ | 1 => _ | 2 => _ | _ => _) = _
  rw [ek]
  simp [ha, ffld, fbit, b2n_beq_one, e0, e1]

theorem reads_tmark {tag : Byte} {a : Opnd} (hw : (Instr.tmark tag a).wf = true) : Reads (.tmark tag a) := by
  have hn : ∀ u ∈ uses (.tmark tag a), u.im = false → Named u.o := named_of_wf hw
  delta uses at hn
  simp at hn
  have ha := hn
  have h0 := tag.isLt
  delta Reads encRaw
  dsimp only
  generalize hF : 0x2000 + tag.toNat = F
  have e0 : F % 256 = tag.toNat := by omega
  refine ⟨full_fits _ (by decide) (by decide) ha.lt (by decide) (by decide) (by omega), ?_⟩
  have ek : F / 2 ^ 12 % 2 ^ 4 = 2 := by omega
  change (match F / 2 ^ 12 % 2 ^ 4 with | 0 => _ | 1 => _ | 2 => _ | _ => _) = _
  rw [ek]
  simp [ha, ffld, e0]

theorem reads_tback {x : TbackOp} (hw : (Instr.tback x).wf = true) : Reads (.tback x) := by
  have hn := named_of_wf hw
  obtain ⟨g, d, kind, tag, peek⟩ := x
  delta uses at hn
  simp at hn
  have hd := hn
  have h0 := tag.isLt
  have h1 := popCode_lt kind
  have h2 := b2n_lt peek
  delta Reads encRaw
  dsimp only
  generalize hF : tag.toNat + 256 * popCode kind + 1024 * b2n peek = F
  have e0 : F % 256 = tag.toNat := by omega
  have e1 : F / 256 % 4 = popCode kind := by omega
  have e2 : F / 1024 % 2 = b2n peek := by omega
  refine ⟨full_fits _ (by decide) hd.lt (by decide) (by decide) (by decide) (by omega), ?_⟩
  have ek : F / 2 ^ 12 % 2 ^ 4 = 0 := by omega
  change (match F / 2 ^ 12 % 2 ^ 4 with | 0 => _ | 1 => _ | 2 => _ | _ => _) = _
  rw [ek]
  simp [hd, ffld, fbit, b2n_beq_one, e0, e1, e2]

theorem reads_tbpop (x : TbpopOp) : Reads (.tbpop x) := by
  obtain ⟨g, pd, tag, peek⟩ := x
  have h0 := pd.isLt
  have h1 := tag.isLt
  have h2 := b2n_lt peek
  delta Reads encRaw
  dsimp only
  generalize hF : 0x1000 + tag.toNat + 256 * b2n peek = F
  have e0 : F % 256 = tag.toNat := by omega
  have e1 : F / 256 % 2 = b2n peek := by omega
  refine ⟨full_fits _ (by decide) (by omega) (by decide) (by decide) (by decide) (by omega), ?_⟩
  have ek : F / 2 ^ 12 % 2 ^ 4 = 1 := by omega
  change (match F / 2 ^ 12 % 2 ^ 4 with | 0 => _ | 1 => _ | 2 => _ | _ => _) = _
  rw [ek]
  simp [ffld, fbit, b2n_beq_one, e0, e1]

theorem reads_tstat {g : Guard} {d : Opnd} {sel : TstatSel} (hw : (Instr.tstat g d sel).wf = true) :
    Reads (.tstat g d sel) := by
  have hn : ∀ u ∈ uses (.tstat g d sel), u.im = false → Named u.o := named_of_wf hw
  delta uses at hn
  simp at hn
  have hd := hn
  have h0 := tselCode_lt sel
  delta Reads encRaw
  dsimp only
  generalize hF : 0x2000 + tselCode sel = F
  have e0 : F % 4 = tselCode sel := by omega
  refine ⟨full_fits _ (by decide) hd.lt (by decide) (by decide) (by decide) (by omega), ?_⟩
  have ek : F / 2 ^ 12 % 2 ^ 4 = 2 := by omega
  change (match F / 2 ^ 12 % 2 ^ 4 with | 0 => _ | 1 => _ | 2 => _ | _ => _) = _
  rw [ek]
  simp [hd, ffld, e0]

theorem reads_movspr {g : Guard} {d : Opnd} {r : Spr} (hw : (Instr.movspr g d r).wf = true) :
    Reads (.movspr g d r) := by
  have hn : ∀ u ∈ uses (.movspr g d r), u.im = false → Named u.o := named_of_wf hw
  delta uses at hn
  simp at hn
  have hd := hn
  have h0 := sprCode_lt r
  delta Reads encRaw
  dsimp only
  generalize hF : sprCode r = F
  have e0 : F % 1024 = sprCode r := by omega
  refine ⟨full_fits _ (by decide) hd.lt (by decide) (by decide) (by decide) (by omega), ?_⟩
  have ek : F / 2 ^ 12 % 2 ^ 4 = 0 := by omega
  change (match F / 2 ^ 12 % 2 ^ 4 with | 0 => _ | 1 => _ | _ => _) = _
  rw [ek]
  simp [hd, ffld, sprOf_sprCode, e0]

theorem reads_wrspr {r : Spr} {a : Opnd} (hw : (Instr.wrspr r a).wf = true) : Reads (.wrspr r a) := by
  have hn : ∀ u ∈ uses (.wrspr r a), u.im = false → Named u.o := named_of_wf hw
  delta uses at hn
  simp at hn
  have ha := hn
  have h0 := sprCode_lt r
  delta Reads encRaw
  dsimp only
  generalize hF : 0x1000 + sprCode r = F
  have e0 : F % 1024 = sprCode r := by omega
  refine ⟨full_fits _ (by decide) (by decide) ha.lt (by decide) (by decide) (by omega), ?_⟩
  have ek : F / 2 ^ 12 % 2 ^ 4 = 1 := by omega
  change (match F / 2 ^ 12 % 2 ^ 4 with | 0 => _ | 1 => _ | _ => _) = _
  rw [ek]
  simp [ha, ffld, sprOf_sprCode, e0]

theorem reads_tlinc {a b : Opnd} {err : Bool} (hw : (Instr.tlinc a b err).wf = true) : Reads (.tlinc a b err) := by
  have hn : ∀ u ∈ uses (.tlinc a b err), u.im = false → Named u.o := named_of_wf hw
  delta uses at hn
  simp at hn
  obtain ⟨ha, hb⟩ := hn
  have h0 := b2n_lt err
  delta Reads encRaw
  dsimp only
  generalize hF : b2n err = F
  have e0 : F % 2 = b2n err := by omega
  refine ⟨full_fits _ (by decide) (by decide) ha.lt hb.lt (by decide) (by omega), ?_⟩
  have ek : F / 2 ^ 12 % 2 ^ 4 = 0 := by omega
  change (match F / 2 ^ 12 % 2 ^ 4 with | 0 => _ | 1 => _ | _ => _) = _
  rw [ek]
  simp [ha, hb, fbit, b2n_beq_one, e0]

theorem reads_gettl {g : Guard} {d a : Opnd} {err : Bool} (hw : (Instr.gettl g d a err).wf = true) :
    Reads (.gettl g d a err) := by
  have hn : ∀ u ∈ uses (.gettl g d a err), u.im = false → Named u.o := named_of_wf hw
  delta uses at hn
  simp at hn
  obtain ⟨hd, ha⟩ := hn
  have h0 := b2n_lt err
  delta Reads encRaw
  dsimp only
  generalize hF : 0x1000 + b2n err = F
  have e0 : F % 2 = b2n err := by omega
  refine ⟨full_fits _ (by decide) hd.lt ha.lt (by decide) (by decide) (by omega), ?_⟩
  have ek : F / 2 ^ 12 % 2 ^ 4 = 1 := by omega
  change (match F / 2 ^ 12 % 2 ^ 4 with | 0 => _ | 1 => _ | _ => _) = _
  rw [ek]
  simp [hd, ha, fbit, b2n_beq_one, e0]

theorem reads_bkpt (g : Guard) (code : BitVec 12) : Reads (.bkpt g code) := by
  have h0 := code.isLt
  delta Reads encRaw
  dsimp only
  generalize hF : code.toNat = F
  have e0 : F % 4096 = code.toNat := by omega
  refine ⟨full_fits _ (by decide) (by decide) (by decide) (by decide) (by decide) (by omega), ?_⟩
  have ek : F / 2 ^ 12 % 2 ^ 4 = 0 := by omega
  change (match F / 2 ^ 12 % 2 ^ 4 with | 0 => _ | 1 => _ | _ => _) = _
  rw [ek]
  simp [ffld, e0]

theorem reads_resphase {a : Opnd} (hw : (Instr.resphase a).wf = true) : Reads (.resphase a) := by
  have hn : ∀ u ∈ uses (.resphase a), u.im = false → Named u.o := named_of_wf hw
  delta uses at hn
  simp at hn
  have ha := hn
  delta Reads encRaw
  dsimp only
  generalize hF : 0x1000 = F
  refine ⟨full_fits _ (by decide) (by decide) ha.lt (by decide) (by decide) (by omega), ?_⟩
  have ek : F / 2 ^ 12 % 2 ^ 4 = 1 := by omega
  change (match F / 2 ^ 12 % 2 ^ 4 with | 0 => _ | 1 => _ | _ => _) = _
  rw [ek]
  simp [ha]

end Sys2Proof
end

section
/-! # Encoding and decoding. The families of opcodes, the words of no family, and every instruction. -/

namespace Sys2Proof

open Machine

/-! ## The families -/

section
variable {α : Type} {C : α → Instr} {dec : Raw → Option α} {x : α} {r : Raw} {m : Nat}

/-- An instruction of a family, whose fields one function of the opcode's family reads. -/
theorem reads_of_family (hr : encRaw (C x) = r) (hp : ∀ r, r.major = m → parseRaw r = (dec r).map C) (hm : r.major = m)
    (h : r.Fits ∧ dec r = some x) : Reads (C x) := by
  subst hr
  exact ⟨h.1, by rw [hp _ hm, h.2, Option.map_some]⟩

end

section
variable {m : Nat} (hm : m < 128)
include hm

theorem reads_sat {C : IntOp → Instr} {x : IntOp} (hu : ∀ u ∈ intUses x true, useOk u = true)
    (hf : (!isImm x.b || x.ty == .i32) = true) (hr : encRaw (C x) = encSat m x)
    (hp : ∀ r, r.major = m → parseRaw r = (decSat r).map C) : Reads (C x) := by
  simp only [intUses, List.forall_mem_cons] at hu
  obtain ⟨hd, ha, hb, -⟩ := hu
  refine reads_of_family hr hp (bform_major ..) (decSat_encSat hm (named_of_useOk hd) (named_of_useOk ha) hb fun hi =>
    ?_)
  simpa [hi] using hf

theorem reads_ty {C : IntOp → Instr} {x : IntOp} (hu : ∀ u ∈ intUses x true, useOk u = true)
    (hf : (!x.sat && (!isImm x.b || x.ty == .i32 || x.ty == .n32)) = true) (hr : encRaw (C x) = encTy m x)
    (hp : ∀ r, r.major = m → parseRaw r = (decTy r).map C) : Reads (C x) := by
  simp only [intUses, List.forall_mem_cons] at hu
  obtain ⟨hd, ha, hb, -⟩ := hu
  simp only [Bool.and_eq_true, Bool.not_eq_true'] at hf
  refine reads_of_family hr hp (bform_major ..)
    (decTy_encTy hm (named_of_useOk hd) (named_of_useOk ha) hb hf.1 fun hi => ?_)
  simpa [hi] using hf.2

theorem reads_int3 {C : Int3Op → Instr} {x : Int3Op} (hn : Named x.d ∧ Named x.a ∧ Named x.b ∧ Named x.c)
    (hr : encRaw (C x) = encInt3 m x) (hp : ∀ r, r.major = m → parseRaw r = (decInt3 r).map C) : Reads (C x) := by
  obtain ⟨hd, ha, hb, hc⟩ := hn
  exact reads_of_family hr hp rfl (decInt3_encInt3 hm hd ha hb hc)

theorem reads_logic {C : LogicOp → Instr} {x : LogicOp} {n : Nat} (hu : ∀ u ∈ logicUses x n, useOk u = true)
    (hf : (!isImm x.b || !x.w64) = true) (hr : encRaw (C x) = encLogic m x)
    (hp : ∀ r, r.major = m → parseRaw r = (decLogic r).map C) : Reads (C x) := by
  simp only [logicUses, List.forall_mem_cons] at hu
  obtain ⟨hd, ha, hb, -⟩ := hu
  refine reads_of_family hr hp (bform_major ..)
    (decLogic_encLogic hm (named_of_useOk hd) (named_of_useOk ha) hb fun hi => ?_)
  simpa [hi] using hf

theorem reads_op1 {C : Op1 → Instr} {x : Op1} (hn : Named x.d ∧ Named x.a)
    (hr : encRaw (C x) = enc1 m x) (hp : ∀ r, r.major = m → parseRaw r = (dec1 r).map C) : Reads (C x) :=
  reads_of_family hr hp rfl (dec1_enc1 hm hn.1 hn.2)

theorem reads_op3 {C : Op3 → Instr} {x : Op3} (hn : Named x.d ∧ Named x.a ∧ Named x.b ∧ Named x.c)
    (hr : encRaw (C x) = enc3 m x) (hp : ∀ r, r.major = m → parseRaw r = (dec3 r).map C) : Reads (C x) := by
  obtain ⟨hd, ha, hb, hc⟩ := hn
  exact reads_of_family hr hp rfl (dec3_enc3 hm hd ha hb hc)

theorem reads_op3F {C : Op3F → Instr} {x : Op3F} (hu : ∀ u ∈ uses3 x.d x.a x.b x.c false, useOk u = true)
    (hr : encRaw (C x) = enc3F m x) (hp : ∀ r, r.major = m → parseRaw r = (dec3F r).map C) : Reads (C x) := by
  simp only [uses3, List.forall_mem_cons] at hu
  obtain ⟨hd, ha, hb, hc, -⟩ := hu
  exact reads_of_family hr hp rfl
    (dec3F_enc3F hm (named_of_useOk hd) (named_of_useOk ha) (named_of_useOk hb) (named_of_useOk hc))

theorem reads_fp {C : FpOp → Instr} {x : FpOp} (hu : ∀ u ∈ uses2 x.d x.a x.b true, useOk u = true)
    (hf : (!x.m.nc && (!isImm x.b || plainMods x.m)) = true) (hr : encRaw (C x) = encFp m x)
    (hp : ∀ r, r.major = m → parseRaw r = (decFp r).map C) : Reads (C x) := by
  simp only [uses2, List.forall_mem_cons] at hu
  obtain ⟨hd, ha, hb, -⟩ := hu
  rw [Bool.and_eq_true] at hf
  refine reads_of_family hr hp (bform_major ..)
    (decFp_encFp hm (named_of_useOk hd) (named_of_useOk ha) hb fun hi => ?_)
  simpa [hi] using hf.2

theorem reads_sfu {C : SfuOp → Instr} {x : SfuOp} (hu : ∀ u ∈ uses1 x.d x.a, useOk u = true)
    (hr : encRaw (C x) = encSfu m x) (hp : ∀ r, r.major = m → parseRaw r = (decSfu r).map C) : Reads (C x) := by
  simp only [uses1, List.forall_mem_cons] at hu
  obtain ⟨hd, ha, -⟩ := hu
  exact reads_of_family hr hp rfl (decSfu_encSfu hm (named_of_useOk hd) (named_of_useOk ha))

theorem reads_h {C : HOp → Instr} {x : HOp} (hu : ∀ u ∈ uses2 x.d x.a x.b true, useOk u = true)
    (hf : (!x.m.nc && (!isImm x.b || (plainMods x.m && !x.bf))) = true) (hr : encRaw (C x) = encH m x)
    (hp : ∀ r, r.major = m → parseRaw r = (decH r).map C) : Reads (C x) := by
  simp only [uses2, List.forall_mem_cons] at hu
  obtain ⟨hd, ha, hb, -⟩ := hu
  rw [Bool.and_eq_true] at hf
  refine reads_of_family hr hp (bform_major ..)
    (decH_encH hm (named_of_useOk hd) (named_of_useOk ha) hb fun hi => ?_)
  simpa [hi] using hf.2

theorem reads_idp {C : IdpOp → Instr} {x : IdpOp} (hu : ∀ u ∈ uses3 x.d x.a x.b x.c false, useOk u = true)
    (hr : encRaw (C x) = encIdp m x) (hp : ∀ r, r.major = m → parseRaw r = (decIdp r).map C) : Reads (C x) := by
  simp only [uses3, List.forall_mem_cons] at hu
  obtain ⟨hd, ha, hb, hc, -⟩ := hu
  exact reads_of_family hr hp rfl
    (decIdp_encIdp hm (named_of_useOk hd) (named_of_useOk ha) (named_of_useOk hb) (named_of_useOk hc))

theorem reads_red_lanes {C : RedLaneOp → Instr} {x : RedLaneOp} (hn : Named x.d ∧ Named x.a)
    (hr : encRaw (C x) = encRed m x) (hp : ∀ r, r.major = m → parseRaw r = (decRed r).map C) : Reads (C x) :=
  reads_of_family hr hp rfl (decRed_encRed hm hn.1 hn.2)

theorem reads_message {C : SendOp → Instr} {x : SendOp} (hn : Named x.d ∧ Named x.a ∧ Named x.b)
    (hr : encRaw (C x) = encSend m x) (hp : ∀ r, r.major = m → parseRaw r = (decSend r).map C) : Reads (C x) := by
  obtain ⟨hd, ha, hb⟩ := hn
  exact reads_of_family hr hp rfl (decSend_encSend hm hd ha hb)

theorem reads_mem {C : MemOp → Instr} {x : MemOp} {r : Role} {n : Nat} {ch im : Bool}
    (hu : ∀ u ∈ memUses x r n ch im, useOk u = true) (hf : memFieldsOk x = true) (hr : encRaw (C x) = encMem m x 0)
    (hp : ∀ r, r.major = m → parseRaw r = (decMem r).map C) : Reads (C x) := by
  simp only [memUses, List.forall_mem_cons] at hu
  obtain ⟨hd, ha, hb, -⟩ := hu
  exact reads_of_family hr hp (bform_major ..)
    (decMem_encMem hm (by decide) (named_of_useOk hd) (named_of_useOk ha) hb hf)

end

theorem reads_ldsp {x : MemOp} {ac : Fin 16} (hw : (Instr.ldsp x ac).wf = true) : Reads (.ldsp x ac) := by
  have hu : ∀ u ∈ memUses x .dst 2 false false, useOk u = true := useOk_of_wf hw
  simp only [memUses, List.forall_mem_cons] at hu
  obtain ⟨hd, ha, hb, -⟩ := hu
  have hb' := not_isImm_of_useOk hb
  have hac := ac.isLt
  obtain ⟨hfits, hdec⟩ := decMem_encMem (m := 0x59) (c := ac.val) (by decide) (by omega) (named_of_useOk hd)
    (named_of_useOk ha) hb (wf_parts hw).2
  have h0 := sizeCode_lt x.sz
  have h1 := b2n_lt x.sx
  have h2 := x.buf.isLt
  have h3 := b2n_lt x.sem
  have h4 := scopeCode_lt x.scope
  have he : encMem 0x59 x ac.val
      = full 0x59 x.g (opndCode x.d) (opndCode x.a) (opndCode x.b) ac.val (memFunc x) := bform_full _ _ _ _ _ _ _ hb'
  have hi : rawI (encMem 0x59 x ac.val) = false := by
    rw [he]
    exact rawI_full _ (by unfold memFunc; omega)
  have hc : (encMem 0x59 x ac.val).c = ac.val := by rw [he, full_c]
  have hp : parseRaw (encMem 0x59 x ac.val)
      = if rawI (encMem 0x59 x ac.val) then none
        else (decMem (encMem 0x59 x ac.val)).bind fun y => some (.ldsp y (Fin.ofNat 16 (encMem 0x59 x ac.val).c)) := by
    rw [he]
    rfl
  refine ⟨hfits, hp.trans ?_⟩
  rw [hi, hdec, hc, ofNat_val]
  rfl

/-! ## Words of no family -/

section
variable {g : Guard} {d a : Opnd}

theorem reads_immed {i : Instr} {m k : Nat} {w : Word} {b : Bool} (hr : encRaw i = immed m g k 0 w b) (hm : m < 128)
    (hk : k < 512) (hp : parseRaw (immed m g k 0 w b) = some i) : Reads i :=
  ⟨hr ▸ immed_fits _ _ _ hm hk (by decide), hr ▸ hp⟩

theorem reads_full {i : Instr} {m k l f : Nat} (hr : encRaw i = full m g k l 0 0 f) (hm : m < 128) (hk : k < 512)
    (hl : l < 512) (hf : f < 65536) (hp : parseRaw (full m g k l 0 0 f) = some i) : Reads i :=
  ⟨hr ▸ full_fits _ hm hk hl (by decide) (by decide) hf, hr ▸ hp⟩

theorem reads_bra (off : Word) : Reads (.bra g off) := by
  refine reads_immed rfl (by decide) (by decide) ?_
  change (ite _ _ (ite _ _ _)) = _
  simp

theorem reads_braT (off : Word) (tag : Byte) : Reads (.braT g off tag) := by
  have ht := tag.isLt
  have hr : encRaw (.braT g off tag) = immed 0x48 g 0 tag.toNat off true := rfl
  refine ⟨hr ▸ immed_fits _ _ _ (by decide) (by decide) (by omega), ?_⟩
  rw [hr]
  change (ite _ _ (ite _ _ _)) = _
  simp

theorem reads_brx (ha : Named a) : Reads (.brx g a) := by
  refine reads_full rfl (by decide) (by decide) ha.lt (by decide) ?_
  change Option.bind _ _ = _
  simp [ha]

theorem reads_call (off : Word) (hd : Named d) : Reads (.call g d off) := by
  refine reads_immed rfl (by decide) hd.lt ?_
  change Option.bind _ _ = _
  simp [hd]

theorem reads_callx (hd : Named d) (ha : Named a) : Reads (.callx g d a) := by
  refine reads_full rfl (by decide) hd.lt ha.lt (by decide) ?_
  change Option.bind _ _ = _
  simp [hd, ha]

theorem reads_ret (ha : Named a) : Reads (.ret g a) := by
  refine reads_full rfl (by decide) (by decide) ha.lt (by decide) ?_
  change Option.bind _ _ = _
  simp [ha]

theorem reads_join (off : Word) : Reads (.join off) := by
  refine reads_immed rfl (by decide) (by decide) ?_
  change some _ = _
  simp

theorem reads_exit : Reads (.exit g) := by
  refine reads_full rfl (by decide) (by decide) (by decide) (by decide) ?_
  change some _ = _
  simp

theorem reads_trap (code : BitVec 16) : Reads (.trap g code) := by
  refine reads_immed rfl (by decide) (by decide) ?_
  change some _ = _
  simp

theorem reads_chkpt (n : BitVec 16) : Reads (.chkpt n) := by
  refine reads_immed rfl (by decide) (by decide) ?_
  change some _ = _
  simp

theorem reads_yieldSlot : Reads (.yieldSlot g) := by
  refine reads_full rfl (by decide) (by decide) (by decide) (by decide) ?_
  change some _ = _
  simp

theorem reads_nop : Reads (.nop g) := by
  refine reads_full rfl (by decide) (by decide) (by decide) (by decide) ?_
  change some _ = _
  simp

theorem reads_moor (hd : Named d) (ha : Named a) : Reads (.moor d a) := by
  refine reads_full rfl (by decide) hd.lt ha.lt (by decide) ?_
  change Option.bind _ _ = _
  simp [hd, ha]

theorem reads_cpyt (hd : Named d) (ha : Named a) : Reads (.cpyt d a) := by
  refine reads_full rfl (by decide) hd.lt ha.lt (by decide) ?_
  change Option.bind _ _ = _
  simp [hd, ha]

theorem reads_cpyq (hd : Named d) (ha : Named a) : Reads (.cpyq d a) := by
  refine reads_full rfl (by decide) hd.lt ha.lt (by decide) ?_
  change Option.bind _ _ = _
  simp [hd, ha]

theorem reads_mswap (hd : Named d) : Reads (.mswap d) := by
  delta Reads encRaw
  dsimp only
  generalize hF : 0 = F
  have ek : F / 2 ^ 12 % 2 ^ 4 = 0 := by omega
  refine ⟨full_fits _ (by decide) hd.lt (by omega) (by omega) (by omega) (by omega), ?_⟩
  change (match F / 2 ^ 12 % 2 ^ 4 with | 0 => _ | 1 => _ | 2 => _ | _ => _) = _
  rw [ek]
  simp [hd]

theorem reads_mfence (hd : Named d) : Reads (.mfence d) := by
  refine reads_full rfl (by decide) hd.lt (by decide) (by decide) ?_
  change Option.bind _ _ = _
  simp [hd]

end

/-! ## Every instruction -/

theorem parse_of_reads {i : Instr} (h : Reads i) (he : encode i = BitVec.ofNat 64 (rawWord (encRaw i))) :
    parse (encode i) = some i := by
  obtain ⟨hfits, hraw⟩ := h
  have hlt := rawWord_lt hfits
  have hn : (encode i).toNat = rawWord (encRaw i) := by
    rw [he, BitVec.toNat_ofNat]
    exact Nat.mod_eq_of_lt (by omega)
  unfold parse
  rw [hn, if_pos (by omega), rawFields_rawWord hfits, hraw]


section
variable {u v w y : Use} {us : List Use}

theorem named_one (h : ∀ z ∈ u :: us, z.im = false → Named z.o) (hu : u.im = false) : Named u.o :=
  h u List.mem_cons_self hu

theorem named_two (h : ∀ z ∈ u :: v :: us, z.im = false → Named z.o) (hu : u.im = false) (hv : v.im = false) :
    Named u.o ∧ Named v.o :=
  ⟨named_one h hu, named_one (fun z hz => h z (.tail _ hz)) hv⟩

theorem named_three (h : ∀ z ∈ u :: v :: w :: us, z.im = false → Named z.o) (hu : u.im = false) (hv : v.im = false)
    (hw : w.im = false) : Named u.o ∧ Named v.o ∧ Named w.o :=
  ⟨named_one h hu, named_two (fun z hz => h z (.tail _ hz)) hv hw⟩

theorem named_four (h : ∀ z ∈ u :: v :: w :: y :: us, z.im = false → Named z.o) (hu : u.im = false) (hv : v.im = false)
    (hw : w.im = false) (hy : y.im = false) : Named u.o ∧ Named v.o ∧ Named w.o ∧ Named y.o :=
  ⟨named_one h hu, named_three (fun z hz => h z (.tail _ hz)) hv hw hy⟩

end

theorem left_of_and {a b : Bool} (h : (a && b) = true) : a = true := (Bool.and_eq_true _ _ ▸ h).1

/-- Every well-formed full-format instruction is read back from its encoding's fields. -/
theorem reads_of_wf {i : Instr} (hw : i.wf = true) (hp : ∀ a b, i ≠ .pairedWord a b) : Reads i := by
  have hn := named_of_wf hw
  cases i with
  | iadd x => exact reads_sat (m := 0x01) (by decide) (useOk_of_wf hw) (wf_parts hw).2 rfl (by rintro ⟨⟩ rfl; rfl)
  | isub x => exact reads_sat (m := 0x02) (by decide) (useOk_of_wf hw) (wf_parts hw).2 rfl (by rintro ⟨⟩ rfl; rfl)
  | iaddc x => exact reads_iaddc hw
  | imul x => exact reads_ty (m := 0x04) (by decide) (useOk_of_wf hw) (wf_parts hw).2 rfl (by rintro ⟨⟩ rfl; rfl)
  | imulhi x => exact reads_ty (m := 0x05) (by decide) (useOk_of_wf hw) (wf_parts hw).2 rfl (by rintro ⟨⟩ rfl; rfl)
  | imad x => exact reads_int3 (m := 0x06) (by decide) (named_four hn rfl rfl rfl rfl) rfl (by rintro ⟨⟩ rfl; rfl)
  | imadw x => exact reads_int3 (m := 0x07) (by decide) (named_four hn rfl rfl rfl rfl) rfl (by rintro ⟨⟩ rfl; rfl)
  | imin x => exact reads_ty (m := 0x08) (by decide) (useOk_of_wf hw) (wf_parts hw).2 rfl (by rintro ⟨⟩ rfl; rfl)
  | imax x => exact reads_ty (m := 0x09) (by decide) (useOk_of_wf hw) (wf_parts hw).2 rfl (by rintro ⟨⟩ rfl; rfl)
  | iabs x => exact reads_iabs hw
  | and x => exact reads_logic (m := 0x0B) (by decide) (useOk_of_wf hw) (wf_parts hw).2 rfl (by rintro ⟨⟩ rfl; rfl)
  | or x => exact reads_logic (m := 0x0C) (by decide) (useOk_of_wf hw) (wf_parts hw).2 rfl (by rintro ⟨⟩ rfl; rfl)
  | xor x => exact reads_logic (m := 0x0D) (by decide) (useOk_of_wf hw) (wf_parts hw).2 rfl (by rintro ⟨⟩ rfl; rfl)
  | andn x => exact reads_logic (m := 0x0E) (by decide) (useOk_of_wf hw) (wf_parts hw).2 rfl (by rintro ⟨⟩ rfl; rfl)
  | orn x => exact reads_logic (m := 0x0F) (by decide) (useOk_of_wf hw) (wf_parts hw).2 rfl (by rintro ⟨⟩ rfl; rfl)
  | shl x => exact reads_logic (m := 0x10) (by decide) (useOk_of_wf hw) (wf_parts hw).2 rfl (by rintro ⟨⟩ rfl; rfl)
  | shr x => exact reads_logic (m := 0x11) (by decide) (useOk_of_wf hw) (wf_parts hw).2 rfl (by rintro ⟨⟩ rfl; rfl)
  | sar x => exact reads_logic (m := 0x12) (by decide) (useOk_of_wf hw) (wf_parts hw).2 rfl (by rintro ⟨⟩ rfl; rfl)
  | rotl x => exact reads_logic (m := 0x13) (by decide) (useOk_of_wf hw) (wf_parts hw).2 rfl (by rintro ⟨⟩ rfl; rfl)
  | fshf x => exact reads_op3F (m := 0x14) (by decide) (useOk_of_wf hw) rfl (by rintro ⟨⟩ rfl; rfl)
  | bfx x => exact reads_bfx hw
  | bfi x => exact reads_op3 (m := 0x16) (by decide) (named_four hn rfl rfl rfl rfl) rfl (by rintro ⟨⟩ rfl; rfl)
  | popc x => exact reads_op1 (m := 0x17) (by decide) (named_two hn rfl rfl) rfl (by rintro ⟨⟩ rfl; rfl)
  | clz x => exact reads_op1 (m := 0x18) (by decide) (named_two hn rfl rfl) rfl (by rintro ⟨⟩ rfl; rfl)
  | ctz x => exact reads_op1 (m := 0x19) (by decide) (named_two hn rfl rfl) rfl (by rintro ⟨⟩ rfl; rfl)
  | brev x => exact reads_op1 (m := 0x1A) (by decide) (named_two hn rfl rfl) rfl (by rintro ⟨⟩ rfl; rfl)
  | prmt x => exact reads_prmt hw
  | lea x => exact reads_lea hw
  | isetp x => exact reads_isetp hw
  | sel x => exact reads_sel hw
  | mov x => exact reads_mov hw
  | fadd x => exact reads_fp (m := 0x20) (by decide) (useOk_of_wf hw) (wf_parts hw).2 rfl (by rintro ⟨⟩ rfl; rfl)
  | fsub x => exact reads_fp (m := 0x21) (by decide) (useOk_of_wf hw) (wf_parts hw).2 rfl (by rintro ⟨⟩ rfl; rfl)
  | fmul x => exact reads_fp (m := 0x22) (by decide) (useOk_of_wf hw) (wf_parts hw).2 rfl (by rintro ⟨⟩ rfl; rfl)
  | ffma x => exact reads_ffma hw
  | fmin x => exact reads_fp (m := 0x24) (by decide) (useOk_of_wf hw) (wf_parts hw).2 rfl (by rintro ⟨⟩ rfl; rfl)
  | fmax x => exact reads_fp (m := 0x25) (by decide) (useOk_of_wf hw) (wf_parts hw).2 rfl (by rintro ⟨⟩ rfl; rfl)
  | fsetp x => exact reads_fsetp hw
  | fclass x => exact reads_op1 (m := 0x27) (by decide) (named_two hn rfl rfl) rfl (by rintro ⟨⟩ rfl; rfl)
  | frcp x => exact reads_sfu (m := 0x28) (by decide) (useOk_of_wf hw) rfl (by rintro ⟨⟩ rfl; rfl)
  | frsq x => exact reads_sfu (m := 0x29) (by decide) (useOk_of_wf hw) rfl (by rintro ⟨⟩ rfl; rfl)
  | fsqrt x => exact reads_sfu (m := 0x2A) (by decide) (useOk_of_wf hw) rfl (by rintro ⟨⟩ rfl; rfl)
  | fex2 x => exact reads_sfu (m := 0x2B) (by decide) (useOk_of_wf hw) rfl (by rintro ⟨⟩ rfl; rfl)
  | flg2 x => exact reads_sfu (m := 0x2C) (by decide) (useOk_of_wf hw) rfl (by rintro ⟨⟩ rfl; rfl)
  | fsin x => exact reads_sfu (m := 0x2D) (by decide) (useOk_of_wf hw) rfl (by rintro ⟨⟩ rfl; rfl)
  | fcos x => exact reads_sfu (m := 0x2E) (by decide) (useOk_of_wf hw) rfl (by rintro ⟨⟩ rfl; rfl)
  | ftanh x => exact reads_sfu (m := 0x2F) (by decide) (useOk_of_wf hw) rfl (by rintro ⟨⟩ rfl; rfl)
  | hadd2 x => exact reads_h (m := 0x30) (by decide) (useOk_of_wf hw) (wf_parts hw).2 rfl (by rintro ⟨⟩ rfl; rfl)
  | hmul2 x => exact reads_h (m := 0x31) (by decide) (useOk_of_wf hw) (wf_parts hw).2 rfl (by rintro ⟨⟩ rfl; rfl)
  | hfma2 x => exact reads_hfma2 hw
  | hmnmx2 x => exact reads_hmnmx2 hw
  | cvt x => exact reads_cvt hw
  | cvtq x => exact reads_cvtq hw
  | cvtdq x => exact reads_cvtdq hw
  | pack x => exact reads_pack hw
  | unpk x => exact reads_unpk hw
  | lutx x => exact reads_lutx hw
  | idp4 x => exact reads_idp (m := 0x3A) (by decide) (useOk_of_wf hw) rfl (by rintro ⟨⟩ rfl; rfl)
  | idp8 x => exact reads_idp (m := 0x3B) (by decide) (useOk_of_wf hw) rfl (by rintro ⟨⟩ rfl; rfl)
  | fdp4 x => exact reads_fdp4 hw
  | fdp2 x => exact reads_op3F (m := 0x3D) (by decide) (useOk_of_wf hw) rfl (by rintro ⟨⟩ rfl; rfl)
  | pairedWord h0 h1 => exact absurd rfl (hp h0 h1)
  | shfl x => exact reads_shfl hw
  | vote x => exact reads_vote hw
  | matchLanes x => exact reads_matchLanes hw
  | cred x => exact reads_red_lanes (m := 0x43) (by decide) (named_two hn rfl rfl) rfl (by rintro ⟨⟩ rfl; rfl)
  | cscan x => exact reads_red_lanes (m := 0x44) (by decide) (named_two hn rfl rfl) rfl (by rintro ⟨⟩ rfl; rfl)
  | lser => exact ⟨full_fits _ (by decide) (by decide) (by decide) (by decide) (by decide) (by decide), rfl⟩
  | lsend => exact ⟨full_fits _ (by decide) (by decide) (by decide) (by decide) (by decide) (by decide), rfl⟩
  | actm x => exact reads_actm hw
  | bra g off => exact reads_bra off
  | braT g off tag => exact reads_braT off tag
  | brx g a => exact reads_brx (named_one hn rfl)
  | call g d off => exact reads_call off (named_one hn rfl)
  | callx g d a =>
    obtain ⟨hd, ha⟩ := named_two hn rfl rfl
    exact reads_callx hd ha
  | ret g a => exact reads_ret (named_one hn rfl)
  | join off => exact reads_join off
  | exit g => exact reads_exit
  | trap g code => exact reads_trap code
  | chkpt n => exact reads_chkpt n
  | yieldSlot g => exact reads_yieldSlot
  | sleep a => exact reads_sleep hw
  | nop g => exact reads_nop
  | ld x => exact reads_mem (m := 0x54) (by decide) (useOk_of_wf hw) (wf_parts hw).2 rfl (by rintro ⟨⟩ rfl; rfl)
  | st x =>
    exact reads_mem (m := 0x55) (by decide) (useOk_of_wf hw) (left_of_and (wf_parts hw).2) rfl
      (by rintro ⟨⟩ rfl; rfl)
  | lds x =>
    exact reads_mem (m := 0x56) (by decide) (useOk_of_wf hw) (left_of_and (left_of_and (wf_parts hw).2)) rfl
      (by rintro ⟨⟩ rfl; rfl)
  | sts x =>
    exact reads_mem (m := 0x57) (by decide) (useOk_of_wf hw)
      (left_of_and (left_of_and (left_of_and (wf_parts hw).2))) rfl (by rintro ⟨⟩ rfl; rfl)
  | ldro x =>
    exact reads_mem (m := 0x58) (by decide) (useOk_of_wf hw) (left_of_and (wf_parts hw).2) rfl
      (by rintro ⟨⟩ rfl; rfl)
  | ldsp x ac => exact reads_ldsp hw
  | atom x => exact reads_atom hw
  | red x => exact reads_red hw
  | fence scope => exact reads_fence scope
  | fenceRo => exact ⟨full_fits _ (by decide) (by decide) (by decide) (by decide) (by decide) (by decide), rfl⟩
  | pref x => exact reads_pref hw
  | cwb a b scope => exact reads_cwb hw
  | cinv a b scope => exact reads_cinv hw
  | moor d a =>
    obtain ⟨hd, ha⟩ := named_two hn rfl rfl
    exact reads_moor hd ha
  | unmoor d a wb => exact reads_unmoor hw
  | mwb d a b => exact reads_mwb hw
  | mqry x => exact reads_op1 (m := 0x63) (by decide) (named_two hn rfl rfl) rfl (by rintro ⟨⟩ rfl; rfl)
  | binit a b c => exact reads_binit hw
  | barv d a b => exact reads_barv hw
  | bpar pd a => exact reads_bpar hw
  | waitBar pd a b c => exact reads_waitBar hw
  | waitBmp pd a b c => exact reads_waitBmp hw
  | waitAc pd n c => exact reads_waitAc hw
  | waitTl pd a b c => exact reads_waitTl hw
  | cpy x => exact reads_cpy hw
  | cpyt d a =>
    obtain ⟨hd, ha⟩ := named_two hn rfl rfl
    exact reads_cpyt hd ha
  | cpyq d a =>
    obtain ⟨hd, ha⟩ := named_two hn rfl rfl
    exact reads_cpyq hd ha
  | send x => exact reads_message (m := 0x67) (by decide) (named_three hn rfl rfl rfl) rfl (by rintro ⟨⟩ rfl; rfl)
  | mcast x => exact reads_message (m := 0x68) (by decide) (named_three hn rfl rfl rfl) rfl (by rintro ⟨⟩ rfl; rfl)
  | redpArm d a id => exact reads_redpArm hw
  | redpContribute d a id => exact reads_redpContribute hw
  | remit g i a => exact reads_remit hw
  | radv => exact ⟨full_fits _ (by decide) (by decide) (by decide) (by decide) (by decide) (by decide), rfl⟩
  | xdec x => exact reads_op3 (m := 0x70) (by decide) (named_four hn rfl rfl rfl rfl) rfl (by rintro ⟨⟩ rfl; rfl)
  | xbmp x => exact reads_op1 (m := 0x71) (by decide) (named_two hn rfl rfl) rfl (by rintro ⟨⟩ rfl; rfl)
  | movspr g d r => exact reads_movspr hw
  | wrspr r a => exact reads_wrspr hw
  | tlinc a b err => exact reads_tlinc hw
  | gettl g d a err => exact reads_gettl hw
  | bkpt g code => exact reads_bkpt g code
  | resphase a => exact reads_resphase hw
  | mldw a b wf => exact reads_mldw hw
  | mswap d => exact reads_mswap (named_one hn rfl)
  | mlut sb => exact reads_mlut hw
  | mzero g tile => exact reads_mzero g tile
  | mma x => exact reads_mma hw
  | mrd x => exact reads_mrd hw
  | mst x => exact reads_mst hw
  | mfence d => exact reads_mfence (named_one hn rfl)
  | capenter x => exact reads_capenter hw
  | capadopt d a => exact reads_capadopt hw
  | capstat d a => exact reads_capstat hw
  | capstep lbl => exact reads_capstep lbl
  | capexit => exact ⟨full_fits _ (by decide) (by decide) (by decide) (by decide) (by decide) (by decide), rfl⟩
  | capabort => exact ⟨full_fits _ (by decide) (by decide) (by decide) (by decide) (by decide) (by decide), rfl⟩
  | tbindNew => exact ⟨full_fits _ (by decide) (by decide) (by decide) (by decide) (by decide) (by decide), rfl⟩
  | tbindAt a => exact reads_tbindAt hw
  | tbindCh n tag => exact reads_tbindCh n tag
  | trec x => exact reads_trec hw
  | tmark tag a => exact reads_tmark hw
  | tback x => exact reads_tback hw
  | tbpop x => exact reads_tbpop x
  | tstat g d sel => exact reads_tstat hw
  | _ => exact absurd (isWord_of_wf hw) Bool.false_ne_true

theorem encode_eq_rawWord {i : Instr} (hp : ∀ a b, i ≠ .pairedWord a b) :
    encode i = BitVec.ofNat 64 (rawWord (encRaw i)) := by
  cases i with
  | pairedWord a b => exact absurd rfl (hp a b)
  | _ => rfl

/-- Settles O53: a paired word by its halves; every other word's fields lie within their bits, so the decoder sees
them as the encoder wrote them, and each opcode's fields name its operands. -/
theorem decodeOfEncode : Obligations.DecodeOfEncode := by
  intro i hw
  by_cases hp : ∀ a b, i ≠ .pairedWord a b
  · exact decode_of_parse (parse_of_reads (reads_of_wf hw hp) (encode_eq_rawWord hp)) hw rfl
  · simp only [not_forall, not_not] at hp
    obtain ⟨a, b, rfl⟩ := hp
    rw [decode_encode_pairedWord hw, pairRules]
    cases pairBad a b <;> rfl

/-- Settles O52: the decoder gives an instruction, or names the rule of a pair that is broken, only for a word that
the encoder gives back. -/
theorem onlyEncodingsAreLegal : Obligations.OnlyEncodingsAreLegal := by
  refine fun w => ⟨?_, fun i => decode_ok⟩
  unfold decode
  cases parse w with
  | none => exact .inl rfl
  | some i =>
    by_cases h : (i.wf && encode i == w) = true
    · rw [Bool.and_eq_true, beq_iff_eq] at h
      exact .inr ⟨i, h⟩
    · exact .inl (if_neg h)

end Sys2Proof
end

section
/-! # Steps and words: what a step runs, the spec's example words, and what reset leaves. -/

namespace Sys2Proof

open Machine

/-! ## Fetch -/

/-- R135: a program counter in the global window is read through the translation found. -/
theorem routeOf_of_global {pc : DWord} (h8 : pc.toNat % 8 = 0) (hg : ¬ notGlobal pc.toNat) :
    routeOf pc.toNat 8 = .global := by
  rw [routeOf_global _ h8 pc.isLt, windowOf_global]
  unfold notGlobal at hg
  omega

section
variable {s : State} {h : Here} {t : Tlb} (h8 : (hPc h).toNat % 8 = 0) (hg : ¬ notGlobal (hPc h).toNat)
  (hf : tlbFind s h.blk.core (ctxOf s h.blk) (hPc h).toNat = some t) (hx : t.attr.ex = true)
include h8 hg hf hx

theorem fetchWord_remote (hr : isRemote (tlbPa t (hPc h).toNat) = true) :
    fetchWord s h = fetchRemote s h (tlbPa t (hPc h).toNat) (hPc h).toNat := by
  simp only [fetchWord, h8, routeOf_of_global h8 hg, hf, rightFault, hx, hr, ne_eq, not_true_eq_false, if_false,
    if_true]

theorem fetchWord_here (hr : isRemote (tlbPa t (hPc h).toNat) = false)
    (hs : sendTo s h.blk.core (sliceOf (tlbPa t (hPc h).toNat)) = true ∨ Config.fetchMisses s.free = false)
    (hq : turnAt s (lineNo (tlbPa t (hPc h).toNat)) = true) (hl : (lineOf s (lineNo (tlbPa t
      (hPc h).toNat))).st ≠ .busy)
    (hp : poisoned s (lineNo (tlbPa t (hPc h).toNat)) = false) :
    fetchWord s h = .word (BitVec.ofNat 64 (leNat ((List.range 8).map fun k =>
      newestByte s (tlbPa t (hPc h).toNat + k)))) := by
  have hslots : (!sendTo s h.blk.core (sliceOf (tlbPa t (hPc h).toNat)) && Config.fetchMisses s.free) = false := by
    rcases hs with hs | hs <;> simp [hs]
  simp [fetchWord, h8, routeOf_of_global h8 hg, hf, rightFault, hx, hr, hslots, hq, hl, hp]

end

theorem fetchRemote_none {s : State} {h : Here} {pa pc : Nat} (hp : remotePlace s pa false = none) :
    fetchRemote s h pa pc = .fault ⟨.accf, 8, pc⟩ := by simp only [fetchRemote, hp]

theorem fetchRemote_word {s : State} {h : Here} {pa pc : Nat} {p : Place} (hp : remotePlace s pa false = some p)
    (hs : sendTo s h.blk.core (sliceOf pa) = true) (hh : (remoteHops s h.blk.core pa).all (hopFree s) = true)
    (he : s.remoteEnds.any (fun e => e.who == s.actor && e.va == pc && e.ok) = true ∨
      (Config.fetchAnswered s.free = true ∧ routeOk s pa = true)) :
    fetchRemote s h pa pc = .word (BitVec.ofNat 64 (numAt s p 8)) := by
  have hans : (s.remoteEnds.any (fun e => e.who == s.actor && e.va == pc && e.ok) ||
      (Config.fetchAnswered s.free && routeOk s pa)) = true := by
    simpa only [Bool.or_eq_true, Bool.and_eq_true] using he
  simp only [fetchRemote, hp, hs, hh, hans, Bool.and_self, Bool.not_true, Bool.false_eq_true, if_false, if_true]

/-! ## Steps -/

theorem step_of_chosen {s : State} {c : Choice} (hc : chosen s = some c) : step s = timed (stepChoice s c) := by
  simp only [step, hc]

/-- Settles O55: the choice names the step, and an issue fetches, decodes and runs its word. -/
theorem stepRunsDecoded : Obligations.StepRunsDecoded := by
  unfold Obligations.StepRunsDecoded
  refine ⟨?issue, ?fetch, ?event, ?ahead, ?mark, ?idle⟩
  case issue =>
    intro s r h w i hc hh hdue hf hd
    rw [step_of_chosen hc, stepChoice]
    simp only [stepSlot, hh, hdue, hf, hd, ne_eq, not_true_eq_false, if_false]
  case fetch =>
    refine fun s h t h8 hg ht hx => ⟨fetchWord_here h8 hg ht hx, fun hr hp => ?_, fun p hr hp hs hh he => ?_⟩
    · rw [fetchWord_remote h8 hg ht hx hr, fetchRemote_none hp]
    · rw [fetchWord_remote h8 hg ht hx hr, fetchRemote_word hp hs hh he]
  case event =>
    intro s n i hc hn
    rw [step_of_chosen hc]
    simp only [stepChoice, hn]
  case ahead =>
    intro s r hc
    rw [step_of_chosen hc]
    rfl
  case mark =>
    intro s i hc
    rw [step_of_chosen hc]
    rfl
  case idle =>
    intro s hc
    simp only [step, hc]

/-- Settles O54: each word is decoded. -/
theorem exampleWordsDecode : Obligations.ExampleWordsDecode := by
  unfold Obligations.ExampleWordsDecode
  decide

/-! ## Reset -/

theorem crewOf_reset (b c : Nat) : crewOf State.reset b c = none := rfl

theorem crewsLegal_reset : crewsLegal State.reset := by
  refine ⟨fun b c y hy => ?_, fun b x hx => ?_⟩
  · rw [crewOf_reset] at hy
    cases hy
  · cases hx

/-- R339: every die is as its reset leaves it. -/
theorem dieOf_reset (d : Nat) : dieOf State.reset d = Die.reset := rfl

theorem qiOf_reset (q : QiRef) : qiOf State.reset q = Qi.reset := rfl

theorem registersLegal_reset : registersLegal State.reset := by
  refine ⟨fun d => ?_, fun q hq => ?_, by decide, fun n w hw => ?_⟩
  · rw [dieOf_reset]
    decide
  · rw [qiOf_reset] at hq
    exact absurd hq (by decide)
  · cases hw

/-- Settles O60: each part of the reset state is written out in the model. -/
theorem resetLeaves : Obligations.ResetLeaves := by
  unfold Obligations.ResetLeaves
  dsimp only
  refine ⟨rfl, rfl, rfl, rfl, rfl, fun d _ => ?_, fun q => ?_, crewsLegal_reset, registersLegal_reset, rfl, rfl, rfl,
    fun k _ => rfl⟩
  · rw [waitingRecs, dieOf_reset]
    decide
  · rw [qiOf_reset]
    decide

end Sys2Proof
end

section
/-! # A step that does not keep saved blocks with their images. -/

namespace Sys2Proof

open Machine

/-- Two blocks of one fleet under one key, the second, which no look-up by its key finds, with an image though it runs;
and a message of the first to the second, about to be delivered. -/
def twoBlocksUnderOneKey : State :=
  let x : Block := beginBlock 0 { placedKernel with fleet := 2 } 0 0 0 0
  { State.reset with
    blocks := [(0, x), (0, { x with rank := 1, image := some 0, rings := [(0, ⟨1, 0, 0, []⟩)] })]
    msgs := [(0, ⟨0, 0, none, [], 0, [1], 0, false, 0, [], 0⟩)]
    agenda := [.sendDelivery 0 1] }

/-- What O58 asks of the block that a look-up under a key finds: saved exactly while it has an image. -/
def imagedBlock (s : State) (b : Nat) : Option (BlkSt × Option Nat) := (s.blocks.find b).map fun x => (x.st, x.image)

theorem crewsLegal_twoBlocksUnderOneKey : crewsLegal twoBlocksUnderOneKey := by
  have hfind : ∀ b x, twoBlocksUnderOneKey.blocks.find b = some x →
      x = beginBlock 0 { placedKernel with fleet := 2 } 0 0 0 0 := by
    intro b x h
    by_cases hb : 0 = b
    · subst hb
      exact (Option.some.inj h).symm
    · simp [twoBlocksUnderOneKey, Table.find, hb] at h
  refine ⟨fun b c y h => ?_, fun b x h => ?_⟩
  · obtain ⟨x, hx, hy⟩ := Option.bind_eq_some_iff.mp h
    rw [hfind b x hx] at hy
    cases hy
  · rw [hfind b x h]
    decide

/-- The delivery keeps the block that it found, by its rank, in the place of the one that a look-up finds. -/
theorem step_twoBlocksUnderOneKey :
    ∃ t, step twoBlocksUnderOneKey = .next t ∧ imagedBlock t 0 = some (.running, some 0) := ⟨_, rfl, rfl⟩

/-- Refutes O58: of two blocks under one key only the first is looked up, but a message is delivered to the one whose
rank it names, which the delivery then keeps under that key, in the first one's place: it runs and has an image. -/
theorem not_crewsAndBlocksStayLegal : ¬ Obligations.CrewsAndBlocksStayLegal := by
  intro h
  obtain ⟨t, ht, himg⟩ := step_twoBlocksUnderOneKey
  obtain ⟨x, hx, hst⟩ := Option.map_eq_some_iff.mp himg
  have hsaved := ((h _ t crewsLegal_twoBlocksUnderOneKey ht).2 0 x hx).mpr
  simp_all

end Sys2Proof
end

section
/-! # Invariants of the state: what every step keeps, and the rules of the named operations.

One relation covers the invariants of memory and of the registers. A claim says which of them are in question;
`Keeps κ s` says that what is in question holds of a state. Every function of the model is shown once to keep it. -/

namespace Sys2Proof

open Machine

set_option Elab.async false

/-! ## What is kept -/

/-- Which invariants are in question: the canonical form of memory, and the ranges of the registers. -/
structure Claim where
  mem : Prop
  regs : Prop

/-- The registers of a die are within their ranges. -/
def DieOk (κ : Claim) (d : Die) : Prop :=
  κ.regs → 4096 ≤ d.eff ∧ d.eff ≤ 34048 ∧ d.left ≤ d.eff ∧ d.tshift ≤ 4 ∧ d.thrw ≤ 65535

/-- The control register of a queue interface is within its ranges. -/
def QiOk (κ : Claim) (q : Qi) : Prop :=
  κ.regs → nbit q.ctl.toNat 0 = true → 6 ≤ nfield q.ctl.toNat 4 4 ∧ nfield q.ctl.toNat 4 4 ≤ 12 ∧
    1 ≤ nfield q.ctl.toNat 16 13 ∧ nfield q.ctl.toNat 16 13 ≤ 4096

/-- No token given is zero or still to be given. -/
def TokensOk (κ : Claim) (next : Nat) (tokens : Table TokenOf) : Prop :=
  κ.regs → 1 ≤ next ∧ ∀ n w, tokens.find n = some w → n ≠ 0 ∧ n < next

/-- What the claim has in question holds of the state. -/
structure Keeps (κ : Claim) (s : State) : Prop where
  mem : κ.mem → Memory.wf s.mem = true
  dies : ∀ d, DieOk κ (dieOf s d)
  qis : ∀ q, QiOk κ (qiOf s q)
  tokens : TokensOk κ s.regs.nextToken s.tokens

section
variable {κ : Claim} {s t : State} {b c : Nat}

/-- A state that agrees in what the claims speak of. -/
theorem Keeps.same (h : Keeps κ s) (hm : t.mem = s.mem := by rfl)
    (hd : t.dies = s.dies := by rfl) (hq : t.qis = s.qis := by rfl) (hr : t.regs.nextToken = s.regs.nextToken := by rfl)
    (ht : t.tokens = s.tokens := by rfl) : Keeps κ t := by
  obtain ⟨h1, h3, h4, h5⟩ := h
  refine ⟨hm ▸ h1, fun d => ?_, fun q => ?_, by rw [hr, ht]; exact h5⟩
  · rw [dieOf, hd]
    exact h3 d
  · rw [qiOf, hq]
    exact h4 q

/-! A change of one part that the claims do not speak of. -/

theorem Keeps.set_launches (h : Keeps κ s) {v : Table Launch} : Keeps κ { s with launches := v } := h.same

theorem Keeps.set_capMsgs (h : Keeps κ s) {v : Table CapMsg} : Keeps κ { s with capMsgs := v } := h.same

theorem Keeps.set_bars (h : Keeps κ s) {v : Table BarSync} : Keeps κ { s with bars := v } := h.same

theorem Keeps.set_bits (h : Keeps κ s) {v : Table Nat} : Keeps κ { s with bits := v } := h.same

theorem Keeps.set_reqs (h : Keeps κ s) {v : Table Req} : Keeps κ { s with reqs := v } := h.same

theorem Keeps.set_actor (h : Keeps κ s) {v : Actor} : Keeps κ { s with actor := v } := h.same

theorem keeps_id (h : Keeps κ s) : Keeps κ (id s) := h

theorem DieOk.same {d e : Die} (h : DieOk κ d) (he : e.eff = d.eff := by rfl) (hl : e.left = d.left := by rfl)
    (ht : e.tshift = d.tshift := by rfl) (hw : e.thrw = d.thrw := by rfl) : DieOk κ e := by
  unfold DieOk
  rw [he, hl, ht, hw]
  exact h

theorem DieOk.ite {p : Prop} [Decidable p] {d e : Die} (hd : DieOk κ d) (he : DieOk κ e) :
    DieOk κ (if p then d else e) := by
  split
  · exact hd
  · exact he

theorem QiOk.same {q r : Qi} (h : QiOk κ q) (he : r.ctl = q.ctl := by rfl) : QiOk κ r := by
  unfold QiOk
  rw [he]
  exact h

/-! ## Writing parts of a state -/

theorem keeps_writePlace (h : Keeps κ s) {p : Place} {bs : List Byte} : Keeps κ (writePlace s p bs) :=
  ⟨fun hk => writePlace_wf s p bs (h.mem hk), h.dies, h.qis, h.tokens⟩

theorem keeps_setBlock (h : Keeps κ s) {x : Block} : Keeps κ (setBlock s b x) := h.same

theorem keeps_updBlock (h : Keeps κ s) {f : Block → Block} : Keeps κ (updBlock s b f) := by
  unfold updBlock
  split
  · exact keeps_setBlock h
  · exact h

theorem keeps_setCrew (h : Keeps κ s) {y : Crew} : Keeps κ (setCrew s b c y) := keeps_updBlock h

theorem keeps_updCrew (h : Keeps κ s) {f : Crew → Crew} : Keeps κ (updCrew s b c f) := keeps_updBlock h

theorem keeps_setDie (h : Keeps κ s) {d : Nat} {x : Die} (hx : DieOk κ x) : Keeps κ (setDie s d x) := by
  refine ⟨h.mem, fun e => ?_, h.qis, h.tokens⟩
  rw [dieOf, setDie, Table.getD_put]
  split
  · exact hx
  · exact h.dies e

theorem keeps_setQi (h : Keeps κ s) {q : QiRef} {x : Qi} (hx : QiOk κ x) : Keeps κ (setQi s q x) := by
  refine ⟨h.mem, h.dies, fun e => ?_, h.tokens⟩
  rw [qiOf, setQi, Table.getD_put]
  split
  · exact hx
  · exact h.qis e

/-! ## Ways through a function -/

theorem Keeps.ite {p : Prop} [Decidable p] (hs : Keeps κ s) (ht : Keeps κ t) : Keeps κ (if p then s else t) := by
  split
  · exact hs
  · exact ht

theorem Keeps.snd_of {α : Type} {p : α × State} {a : α} (h : Keeps κ p.2) (e : p = (a, t)) : Keeps κ t := by
  subst e
  exact h

theorem Keeps.ite_snd {α : Type} {p : Prop} [Decidable p] {u v : α × State} (hu : Keeps κ u.2) (hv : Keeps κ v.2) :
    Keeps κ (if p then u else v).2 := by
  split
  · exact hu
  · exact hv

theorem keeps_foldl_snd {α β : Type} {f : α × State → β → α × State} (hf : ∀ p b, Keeps κ p.2 → Keeps κ (f p b).2)
    (l : List β) {p : α × State} (h : Keeps κ p.2) : Keeps κ (l.foldl f p).2 := by
  induction l generalizing p with
  | nil => exact h
  | cons a l ih => exact ih (hf p a h)

theorem keeps_foldl {α : Type} {f : State → α → State} (hf : ∀ s a, Keeps κ s → Keeps κ (f s a)) (l : List α)
    (h : Keeps κ s) : Keeps κ (l.foldl f s) := by
  induction l generalizing s with
  | nil => exact h
  | cons a l ih => exact ih (hf s a h)

end

end Sys2Proof
end

section
/-! # Invariants: the operations over memory, registers, slots and blocks, traps and faults. -/

namespace Sys2Proof

open Machine

set_option Elab.async false

variable {κ : Claim} {s : State}

theorem keeps_setCore {c : Nat} {x : Core} (hs : Keeps κ s) : Keeps κ (setCore s c x) := by
  unfold setCore
  exact hs.same

theorem keeps_setLine {l : Nat} {x : Line} (hs : Keeps κ s) : Keeps κ (setLine s l x) := by
  unfold setLine
  exact hs.same

theorem keeps_updLaunch {l : Nat} {f : Launch → Launch} (hs : Keeps κ s) : Keeps κ (updLaunch s l f) := by
  unfold updLaunch
  split
  · exact hs.same
  · exact hs

theorem keeps_throttle {die : Nat} (hs : Keeps κ s) : Keeps κ (throttle s die) := by
  unfold throttle
  dsimp only
  split
  · exact hs
  · exact keeps_setDie hs (hs.dies _).same

theorem keeps_throttleTo {a b : Nat} (hs : Keeps κ s) : Keeps κ (throttleTo s a b) := by
  unfold throttleTo
  split
  · exact keeps_throttle hs
  · exact hs

theorem keeps_claimed {die rank : Nat} (hs : Keeps κ s) : Keeps κ (claimed s die rank) := by
  unfold claimed
  dsimp only
  exact keeps_setDie hs (hs.dies _).same

theorem keeps_chargeLaunch {launch n : Nat} (hs : Keeps κ s) : Keeps κ (chargeLaunch s launch n) := by
  unfold chargeLaunch
  exact keeps_updLaunch hs

theorem keeps_drawTokens {n : Nat} {launch : Option Nat} {die : Nat} (hs : Keeps κ s) :
    Keeps κ (drawTokens n launch s die) := by
  have hd : DieOk κ { dieOf s die with
      left := (dieOf s die).left - n, deficit := (dieOf s die).deficit + (n - (dieOf s die).left) } := by
    intro hr
    obtain ⟨h1, h2, h3, h4, h5⟩ := hs.dies die hr
    exact ⟨h1, h2, (Nat.sub_le ..).trans h3, h4, h5⟩
  unfold drawTokens
  dsimp only
  split
  · exact keeps_chargeLaunch (keeps_setDie hs hd)
  · exact keeps_setDie hs hd

theorem keeps_drawPacket {a b n : Nat} {launch : Option Nat} (hs : Keeps κ s) :
    Keeps κ (drawPacket s a b n launch) := by
  unfold drawPacket
  exact keeps_foldl (fun _ _ h => keeps_drawTokens h) _ hs

theorem keeps_exchanges {asker home n : Nat} {launch : Option Nat} (hs : Keeps κ s) :
    Keeps κ (exchanges s asker home n launch) := by
  unfold exchanges
  exact keeps_drawPacket (keeps_drawPacket hs)

theorem keeps_exchange {asker home : Nat} {launch : Option Nat} (hs : Keeps κ s) :
    Keeps κ (exchange s asker home launch) := by
  unfold exchange
  exact keeps_exchanges hs

theorem keeps_updSlot {b c k : Nat} {f : Slot → Slot} (hs : Keeps κ s) : Keeps κ (updSlot s b c k f) := by
  unfold updSlot
  exact keeps_updCrew hs

theorem keeps_later {e : Instr} (hs : Keeps κ s) : Keeps κ (later s e) := by
  unfold later
  exact hs.same

theorem keeps_laterOnce {e : Instr} (hs : Keeps κ s) : Keeps κ (laterOnce s e) := by
  unfold laterOnce
  split
  · exact hs
  · exact keeps_later hs

theorem keeps_freshId (hs : Keeps κ s) : Keeps κ (freshId s).2 := by
  unfold freshId
  dsimp only
  exact hs.same

theorem keeps_freeChoice {n : Nat} (hs : Keeps κ s) : Keeps κ (freeChoice s n).2 := by
  unfold freeChoice
  dsimp only
  exact hs.same

theorem keeps_openCode {cause : Cause} {code : Nat} (hs : Keeps κ s) : Keeps κ (openCode s cause code).2 := by
  unfold openCode
  split
  · dsimp only
    exact hs
  · exact keeps_freeChoice hs

theorem keeps_postRec {die : Nat} {r : FRec} (hs : Keeps κ s) : Keeps κ (postRec s die r) := by
  unfold postRec
  dsimp only
  exact keeps_later (keeps_setDie (keeps_openCode hs) ((keeps_openCode hs).dies _).same)

theorem keeps_postAck {die : Nat} {r : FRec} {t : TokenOf} (hs : Keeps κ s) : Keeps κ (postAck s die r t).2 := by
  refine keeps_postRec ⟨hs.mem, hs.dies, hs.qis, fun hr => ⟨Nat.le_add_left 1 _, fun n w hw => ?_⟩⟩
  obtain ⟨hpos, hold⟩ := hs.tokens hr
  rw [Table.find_put] at hw
  split at hw
  · next hn => exact hn ▸ ⟨by omega, Nat.lt_succ_self _⟩
  · obtain ⟨h0, hlt⟩ := hold n w hw
    exact ⟨h0, hlt.trans (Nat.lt_succ_self _)⟩

theorem keeps_beginSaveOne {b : Nat} {cause : Nat} (hs : Keeps κ s) : Keeps κ (beginSaveOne s b cause) := by
  unfold beginSaveOne
  dsimp only
  split
  · exact hs
  · split
    · exact keeps_later (keeps_setBlock hs)
    · exact keeps_setBlock hs

theorem keeps_joinSave {b : Nat} {cause : Nat} (hs : Keeps κ s) : Keeps κ (joinSave s b cause) := by
  unfold joinSave
  split
  · exact hs
  · split
    · exact keeps_setBlock hs
    · exact keeps_beginSaveOne hs

theorem keeps_beginSave {b : Nat} {cause : Nat} (hs : Keeps κ s) : Keeps κ (beginSave s b cause) := by
  unfold beginSave
  split
  · exact hs
  · exact keeps_foldl (fun _ _ h => .ite (keeps_beginSaveOne h) (keeps_joinSave h)) _ hs

theorem keeps_sendCap {rec b c : Nat} {h : Holding} {k : CapKind} (hs : Keeps κ s) :
    Keeps κ (sendCap s rec b c h k).2 := by
  unfold sendCap
  split
  · next e =>
    dsimp only
    exact ((keeps_freshId hs).snd_of e).same

theorem keeps_parkCrew {b c : Nat} (hs : Keeps κ s) : Keeps κ (parkCrew s b c) := by
  unfold parkCrew
  split
  · exact hs
  · split
    · exact hs
    · split
      · exact hs
      · split
        · next e3 =>
          exact keeps_later (keeps_setCrew ((keeps_sendCap hs).snd_of e3))

theorem keeps_parkBlock {b : Nat} (hs : Keeps κ s) : Keeps κ (parkBlock s b) := by
  unfold parkBlock
  split
  · exact hs
  · exact keeps_foldl (fun _ _ h => keeps_parkCrew h) _ hs

theorem keeps_postEnded {b : Nat} (hs : Keeps κ s) : Keeps κ (postEnded s b) := by
  unfold postEnded
  split
  · exact hs
  · exact keeps_foldl (fun _ _ h => keeps_postRec h) _ (keeps_setBlock hs)

theorem keeps_stopBlock {b : Nat} (hs : Keeps κ s) : Keeps κ (stopBlock s b) := by
  unfold stopBlock
  exact keeps_later (keeps_parkBlock (keeps_postEnded hs))

theorem keeps_endCopies {launch : Nat} (hs : Keeps κ s) : Keeps κ (endCopies s launch) := by
  unfold endCopies
  dsimp only
  exact keeps_foldl (fun _ _ h => keeps_later h) _ hs.same

theorem keeps_endGrid {launch : Nat} (hs : Keeps κ s) : Keeps κ (endGrid s launch) := by
  unfold endGrid
  dsimp only
  split
  · exact hs
  · split
    · exact hs
    · exact keeps_later (keeps_foldl (fun _ _ h => keeps_stopBlock h) _ (keeps_endCopies hs.same))

theorem keeps_popLater {b c : Nat} (hs : Keeps κ s) : Keeps κ (popLater s b c) := by
  unfold popLater
  split
  · exact hs
  · split
    · exact keeps_later hs
    · exact hs

theorem keeps_putCrew {b c : Nat} {y : Crew} (hs : Keeps κ s) : Keeps κ (putCrew s b c y) := by
  unfold putCrew
  exact keeps_popLater (keeps_setCrew hs)

theorem keeps_jumpTo {h : Here} {pc : DWord} (hs : Keeps κ s) : Keeps κ (jumpTo s h pc) := by
  unfold jumpTo
  split
  · exact hs
  · exact keeps_putCrew hs

theorem keeps_nextWord {h : Here} (hs : Keeps κ s) : Keeps κ (nextWord s h) := by
  unfold nextWord
  exact keeps_jumpTo hs

theorem keeps_waitSlot {h : Here} {c : Cond} (hs : Keeps κ s) : Keeps κ (waitSlot s h c) := by
  unfold waitSlot
  exact keeps_updSlot hs

theorem keeps_trapCapsule {h : Here} (hs : Keeps κ s) : Keeps κ (trapCapsule s h) := by
  unfold trapCapsule
  split
  · exact keeps_parkCrew hs
  · exact hs

theorem keeps_endWithRecord {h : Here} {cause : Cause} {code : Nat} {mask : Mask} {at10 : DWord} (hs : Keeps κ s) :
    Keeps κ (endWithRecord s h cause code mask at10) := by
  unfold endWithRecord
  dsimp only
  exact keeps_endGrid (keeps_postRec hs)

theorem keeps_storeSpill {blk : Block} {c depth : Nat} {p : Spill} (hs : Keeps κ s) :
    Keeps κ (storeSpill s blk c depth p) := by
  unfold storeSpill
  exact keeps_writePlace hs

theorem keeps_enterHandler {h : Here} {cause : Cause} {m : Mask} (hs : Keeps κ s) :
    Keeps κ (enterHandler s h cause m) := by
  unfold enterHandler
  dsimp only
  exact keeps_updCrew (.ite hs (keeps_storeSpill hs))

theorem keeps_handlerTrap {h : Here} {cause : Cause} {code : Nat} {at10 : DWord} {m : Mask} (hs : Keeps κ s) :
    Keeps κ (handlerTrap s h cause code at10 m) := by
  unfold handlerTrap
  split
  · next e =>
    exact keeps_enterHandler (keeps_writePlace ((keeps_openCode hs).snd_of e))

theorem keeps_takeTrapMask {h : Here} {cause : Cause} {code : Nat} {at10 : DWord} {m : Mask} (hs : Keeps κ s) :
    Keeps κ (takeTrapMask s h cause code at10 m) := by
  unfold takeTrapMask
  dsimp only
  split
  · exact keeps_endWithRecord (keeps_trapCapsule hs)
  · split
    · split
      · exact keeps_handlerTrap (keeps_trapCapsule hs)
      · exact keeps_handlerTrap (keeps_trapCapsule hs)
    · exact keeps_endWithRecord (keeps_trapCapsule hs)

theorem keeps_takeTrap {h : Here} {cause : Cause} {code : Nat} {at10 : DWord} (hs : Keeps κ s) :
    Keeps κ (takeTrap s h cause code at10) := by
  unfold takeTrap
  exact keeps_takeTrapMask hs

theorem keeps_takeFault {h : Here} {cause : Cause} {code : Nat} {addr : DWord} {kind : Nat} (hs : Keeps κ s) :
    Keeps κ (takeFault s h cause code addr kind) := by
  unfold takeFault
  dsimp only
  exact keeps_beginSave (keeps_updBlock hs)

theorem keeps_takeStoreFault {h : Here} {cause : Cause} {code : Nat} {addr : DWord} (hs : Keeps κ s) :
    Keeps κ (takeStoreFault s h cause code addr) := by
  unfold takeStoreFault
  dsimp only
  exact keeps_beginSave (keeps_updBlock hs)

theorem keeps_endHandler {b c : Nat} (hs : Keeps κ s) : Keeps κ (endHandler s b c) := by
  unfold endHandler
  split
  · exact hs
  · exact keeps_putCrew hs

theorem keeps_returnFromHandler {h : Here} {hd : Handler} {target : DWord} (hs : Keeps κ s) :
    Keeps κ (returnFromHandler s h hd target) := by
  unfold returnFromHandler
  dsimp only
  exact keeps_endHandler (keeps_updSlot (.ite (keeps_updCrew hs) (keeps_updSlot hs)))

end Sys2Proof
end

section
/-! # Invariants: the effects of a word, and what an outcome keeps. -/

namespace Sys2Proof

open Machine

set_option Elab.async false

/-! ## Effects -/

/-- Effects that keep a claim: what they leave when they go on, with a fact of their value, and when they stop. -/
structure KeepsE {α : Type} (κ : Claim) (Q : α → Prop) (x : Exec α) : Prop where
  ok : ∀ {s t a}, Keeps κ s → x.run s = .ok (a, t) → Q a ∧ Keeps κ t
  stop : ∀ {s t}, Keeps κ s → x.run s = .error t → Keeps κ t

section
variable {κ : Claim} {s : State} {h : Here} {α β : Type} {Q : α → Prop} {R : β → Prop} {x : Exec α} {f : α → Exec β}

theorem keepsE_bind (hx : KeepsE κ Q x) (hf : ∀ a, Q a → KeepsE κ R (f a)) : KeepsE κ R (x >>= f) := by
  refine ⟨fun {s t b} hs hr => ?_, fun {s t} hs hr => ?_⟩ <;> rw [run_bind] at hr <;> split at hr
  · next a u hu => exact (hf a (hx.ok hs hu).1).ok (hx.ok hs hu).2 hr
  · cases hr
  · next a u hu => exact (hf a (hx.ok hs hu).1).stop (hx.ok hs hu).2 hr
  · next u hu =>
    cases hr
    exact hx.stop hs hu

theorem keepsE_pure {a : α} (ha : Q a) : KeepsE κ Q (pure a) := by
  refine ⟨fun hs hr => ?_, fun _ hr => ?_⟩ <;> rw [run_pure] at hr <;> cases hr
  exact ⟨ha, hs⟩

theorem keepsE_pure_true {a : α} : KeepsE κ (fun _ => True) (pure a) := keepsE_pure trivial

theorem keepsE_getE : KeepsE κ (Keeps κ) getE := by
  refine ⟨fun hs hr => ?_, fun _ hr => ?_⟩ <;> rw [run_getE] at hr <;> cases hr
  exact ⟨hs, hs⟩

theorem keepsE_modifyE {g : State → State} (hg : ∀ s, Keeps κ s → Keeps κ (g s)) :
    KeepsE κ (fun _ => True) (modifyE g) := by
  refine ⟨fun hs hr => ?_, fun _ hr => ?_⟩ <;> rw [run_modifyE] at hr <;> cases hr
  exact ⟨trivial, hg _ hs⟩

theorem keepsE_stopWith {g : State → State} (hg : ∀ s, Keeps κ s → Keeps κ (g s)) : KeepsE κ Q (stopWith g) := by
  refine ⟨fun _ hr => ?_, fun hs hr => ?_⟩ <;> rw [run_stopWith] at hr <;> cases hr
  exact hg _ hs

theorem keepsE_waitE {c : Cond} : KeepsE κ Q (waitE h c) := keepsE_stopWith fun _ hs => keeps_waitSlot hs

theorem keepsE_trapE {c : Cause} {code : Nat} {at10 : DWord} : KeepsE κ Q (trapE h c code at10) :=
  keepsE_stopWith fun _ hs => keeps_takeTrap hs

theorem keepsE_faultE {c : Cause} {code kind : Nat} {a : DWord} : KeepsE κ Q (faultE h c code a kind) :=
  keepsE_stopWith fun _ hs => keeps_takeFault hs

theorem keepsE_crewE : KeepsE κ (fun _ => True) (crewE h) := by
  refine ⟨fun hs hr => ?_, fun _ hr => ?_⟩ <;> rw [run_crewE] at hr <;> cases hr
  exact ⟨trivial, hs⟩

theorem keepsE_updCrewE {g : Crew → Crew} :
    KeepsE κ (fun _ => True) (updCrewE h g) := keepsE_modifyE fun _ hs => keeps_updCrew hs

theorem keepsE_nextE : KeepsE κ (fun _ => True) (nextE h) := keepsE_modifyE fun _ hs => keeps_nextWord hs

theorem KeepsE.ite {p : Prop} [Decidable p] {y : Exec α} (hx : KeepsE κ Q x) (hy : KeepsE κ Q y) :
    KeepsE κ Q (if p then x else y) := by
  split
  · exact hx
  · exact hy

/-- A check before the rest. -/
theorem keepsE_guard {p : Prop} [Decidable p] {y : Exec Unit} {g : Unit → Exec β} (hy : KeepsE κ (fun _ => True) y)
    (hg : ∀ u, KeepsE κ R (g u)) : KeepsE κ R (if p then y >>= g else g ()) := .ite (keepsE_bind hy fun u _ => hg u)
      (hg ())

theorem keepsE_mapM {γ : Type} {g : γ → Exec α} (hg : ∀ a, KeepsE κ (fun _ => True) (g a)) (l : List γ) :
    KeepsE κ (fun _ => True) (l.mapM g) := by
  induction l with
  | nil => exact keepsE_pure trivial
  | cons a l ih =>
    rw [List.mapM_cons]
    exact keepsE_bind (hg a) fun _ _ => keepsE_bind ih fun _ _ => keepsE_pure trivial

theorem keepsE_forIn {γ δ : Type} {g : γ → δ → Exec (ForInStep δ)} (hg : ∀ a b, KeepsE κ (fun _ => True) (g a b))
    (l : List γ)
    {b : δ} : KeepsE κ (fun _ => True) (forIn l b g) := by
  induction l generalizing b with
  | nil => exact keepsE_pure trivial
  | cons a l ih =>
    rw [List.forIn_cons]
    refine keepsE_bind (hg a b) fun r _ => ?_
    split
    · exact keepsE_pure trivial
    · exact ih

/-- An effect that always goes on. -/
theorem keepsE_of_goes_on (hx : ∀ s, Keeps κ s → ∃ a t, x.run s = .ok (a, t) ∧ Keeps κ t) :
    KeepsE κ (fun _ => True) x := by
  refine ⟨fun hs hr => ?_, fun hs hr => ?_⟩ <;> obtain ⟨b, u, hu, hk⟩ := hx _ hs <;> rw [hu] at hr <;> cases hr
  exact ⟨trivial, hk⟩

theorem keepsE_forM {γ : Type} {g : γ → Exec PUnit} (hg : ∀ a, KeepsE κ (fun _ => True) (g a)) (l : List γ) :
    KeepsE κ (fun _ => True) (l.forM g) := by
  induction l with
  | nil => exact keepsE_pure trivial
  | cons a l ih =>
    exact keepsE_bind (hg a) fun _ _ => ih

end

/-! ## Outcomes -/

/-- The outcome goes on, and keeps the claim. -/
def Ends (κ : Claim) (o : Host.Outcome State Fault Refusal) : Prop := ∃ t, o = .next t ∧ Keeps κ t

/-- Where the outcome goes on it keeps the claim. -/
def Stays (κ : Claim) (o : Host.Outcome State Fault Refusal) : Prop := ∀ t, o = .next t → Keeps κ t

section
variable {κ : Claim} {s t : State} {o p : Host.Outcome State Fault Refusal}

theorem ends_next (h : Keeps κ t) : Ends κ (.next t) := ⟨t, rfl, h⟩

theorem Ends.ite {c : Prop} [Decidable c] (ho : Ends κ o) (hp : Ends κ p) : Ends κ (if c then o else p) := by
  split
  · exact ho
  · exact hp

theorem Ends.stays (h : Ends κ o) : Stays κ o := by
  obtain ⟨u, rfl, hu⟩ := h
  intro t ht
  cases ht
  exact hu

theorem ends_finish {m : Exec Unit} (hm : KeepsE κ (fun _ => True) m) (hs : Keeps κ s) : Ends κ (finish m s) := by
  unfold finish
  split
  · next u t hr => exact ends_next (hm.ok hs hr).2
  · next t hr => exact ends_next (hm.stop hs hr)

/-! ## Words -/

theorem keepsE_countWord {h : Here} : KeepsE κ (fun _ => True) (countWord h) := by
  unfold countWord
  exact .ite keepsE_updCrewE (keepsE_pure trivial)

/-- Every word: the checks at issue trap or wait, and the word's effects run. -/
theorem stays_issueWord {i : Instr} {body : Here → Exec Unit} (hs : Keeps κ s)
    (hb : ∀ h : Here, KeepsE κ (fun _ => True) (body h)) : Stays κ (issueWord i s body) := by
  unfold issueWord
  split
  · intro t ht
    cases ht
  · next h _ =>
    dsimp only
    split
    · exact (ends_next (keeps_takeTrap hs)).stays
    · exact (ends_next (keeps_waitSlot hs)).stays
    · exact (ends_finish (keepsE_bind (hb _) fun _ _ => keepsE_countWord) hs).stays

end

/-! ## Touches of moored lines -/

/-- The states in which a touch goes on or waits keep the claim. -/
def TouchOk (κ : Claim) (t : Touch) : Prop :=
  match t with
  | .ok s | .wait _ s => Keeps κ s
  | .miss _ _ | .fault _ => True

section
variable {κ : Claim} {s : State} {t : Touch} {r : Retry}

theorem touchOk_ok (hs : Keeps κ s) : TouchOk κ (.ok s) := hs

theorem touchOk_wait (hs : Keeps κ s) : TouchOk κ (.wait r s) := hs

theorem touchOk_miss {c : Ctx} {va : Nat} : TouchOk κ (.miss c va) := trivial

theorem touchOk_fault {x : Xf} : TouchOk κ (.fault x) := trivial

theorem TouchOk.of_ok (ht : TouchOk κ t) (e : t = .ok s) : Keeps κ s := by
  subst e
  exact ht

theorem TouchOk.of_wait (ht : TouchOk κ t) (e : t = .wait r s) : Keeps κ s := by
  subst e
  exact ht

end

end Sys2Proof
end

section
/-! # Invariants: translation, homes, stashes and accesses of lanes. -/

namespace Sys2Proof

open Machine

set_option Elab.async false

variable {κ : Claim} {s : State}

theorem keeps_tlbInsert {core : Nat} {t : Tlb} (hs : Keeps κ s) : Keeps κ (tlbInsert s core t) := by
  unfold tlbInsert
  dsimp only
  split
  · exact keeps_setCore hs
  · exact keeps_setCore (keeps_freeChoice hs)

theorem keeps_dropWalkEnd (hs : Keeps κ s) : Keeps κ (dropWalkEnd s) := by
  unfold dropWalkEnd
  exact hs.same

theorem keeps_startWalk {die : Nat} {c : Ctx} {va : Nat} (hs : Keeps κ s) : Keeps κ (startWalk s die c va).2 := by
  unfold startWalk
  dsimp only
  split
  · dsimp only
    exact hs.same
  · dsimp only
    exact keeps_later (keeps_freshId hs).same

theorem keepsE_pageE {h : Here} {va : Nat} {r : Right} {kind : Nat} : KeepsE κ (fun _ => True) (pageE h va r kind) := by
  unfold pageE
  dsimp only
  exact keepsE_bind keepsE_getE (fun _ _ => by
      split
      · split
        · exact keepsE_pure_true
        · exact keepsE_faultE
      · exact keepsE_stopWith (fun _ h2 => keeps_waitSlot (keeps_startWalk h2)))

theorem keeps_updLine {g : Nat} {f : Line → Line} (hs : Keeps κ s) : Keeps κ (updLine s g f) := by
  unfold updLine
  exact keeps_setLine hs

theorem keeps_joinQueue {g : Nat} (hs : Keeps κ s) : Keeps κ (joinQueue s g) := by
  unfold joinQueue
  dsimp only
  exact keeps_updLine hs

theorem keeps_leaveQueue {g : Nat} (hs : Keeps κ s) : Keeps κ (leaveQueue s g) := by
  unfold leaveQueue
  split
  · exact hs
  · exact keeps_updLine hs

theorem keeps_raiseFloor {pa t : Nat} (hs : Keeps κ s) : Keeps κ (raiseFloor s pa t) := by
  unfold raiseFloor
  exact hs.same

theorem keeps_cxlEvict {g : Nat} (hs : Keeps κ s) : Keeps κ (cxlEvict s g) := by
  unfold cxlEvict
  split
  · exact hs.same
  · exact hs.same
  · exact hs.same
  · exact hs

theorem keeps_leaveL2 {g : Nat} (hs : Keeps κ s) : Keeps κ (leaveL2 s g) := by
  unfold leaveL2
  dsimp only
  exact keeps_setLine (keeps_raiseFloor hs)

theorem keeps_evictLine {g : Nat} (hs : Keeps κ s) : Keeps κ (evictLine s g) := by
  unfold evictLine
  exact keeps_leaveL2 (.ite (keeps_cxlEvict hs) hs)

theorem keeps_sweepCxl (hs : Keeps κ s) : Keeps κ (sweepCxl s) := by
  unfold sweepCxl
  exact keeps_foldl (fun _ _ h => keeps_updLine (keeps_cxlEvict h)) _ hs

theorem keeps_cxlFetch {g : Nat} {own : Bool} (hs : Keeps κ s) : Keeps κ (cxlFetch s g own) := by
  unfold cxlFetch
  dsimp only
  split
  · split
    · exact hs
    · exact keeps_updLine hs.same
  · exact hs

theorem keeps_takeWay {g : Nat} {a : Attr} (hs : Keeps κ s) : Keeps κ (takeWay s g a) := by
  unfold takeWay
  dsimp only
  exact keeps_cxlFetch (keeps_setLine (keeps_freshId hs))

theorem keeps_cxlCurrent {g : Nat} (hs : Keeps κ s) : Keeps κ (cxlCurrent s g) := by
  unfold cxlCurrent
  split
  · exact hs.same
  · exact hs

theorem keeps_fillL2 {g : Nat} {a : Attr} (hs : Keeps κ s) : Keeps κ (fillL2 s g a) := by
  unfold fillL2
  split
  · exact hs
  · split
    · exact keeps_cxlCurrent hs
    · split
      · exact keeps_takeWay hs
      · split
        · exact keeps_takeWay (keeps_evictLine hs)
        · exact hs

theorem keeps_raiseLE {g le : Nat} (hs : Keeps κ s) : Keeps κ (raiseLE s g le) := by
  unfold raiseLE
  split
  · exact keeps_updLine hs
  · exact keeps_raiseFloor hs

theorem keeps_writeBytes {bs : List (Nat × Byte)} (hs : Keeps κ s) : Keeps κ (writeBytes s bs) := by
  unfold writeBytes
  exact keeps_foldl (fun _ _ h => keeps_writePlace h) _ hs

theorem keeps_plainMarks {keys : List Nat} (hs : Keeps κ s) : Keeps κ (plainMarks s keys) := by
  unfold plainMarks
  exact hs.same

theorem keeps_atomicMarks {keys : List Nat} (hs : Keeps κ s) : Keeps κ (atomicMarks s keys) := by
  unfold atomicMarks
  exact hs.same

theorem keeps_markBytes {keys : List Nat} {m : Mark} (hs : Keeps κ s) : Keeps κ (markBytes s keys m) := by
  unfold markBytes
  exact keeps_foldl (fun _ _ h => h.same) _ hs

theorem keeps_takeTw {g t : Nat} (hs : Keeps κ s) : Keeps κ (takeTw s g t).2 := by
  unfold takeTw
  dsimp only
  split
  · dsimp only
    exact keeps_updLine hs
  · dsimp only
    exact keeps_raiseFloor hs

theorem keeps_cxlWritten {g : Nat} {so : Bool} (hs : Keeps κ s) : Keeps κ (cxlWritten s g so) := by
  unfold cxlWritten
  split
  · split
    · exact hs.same
    · exact keeps_updLine (keeps_cxlFetch hs)
  · exact hs

theorem keeps_recordFreed {g : Nat} (hs : Keeps κ s) : Keeps κ (recordFreed s g) := by
  unfold recordFreed
  split
  · split
    · exact hs.same
    · exact hs
  · exact hs

theorem keeps_homePut {g : Nat} {bs : List (Nat × Byte)} {a : Attr} {t : Nat} {alloc : Bool} (hs : Keeps κ s) :
    Keeps κ (homePut s g bs a t alloc).2 := by
  unfold homePut
  dsimp only
  split
  · split
    · dsimp only
      exact keeps_recordFreed (keeps_cxlWritten (keeps_writeBytes (keeps_takeTw (keeps_fillL2 hs))))
    · dsimp only
      exact keeps_updLine (keeps_recordFreed (keeps_cxlWritten (keeps_writeBytes (keeps_takeTw (keeps_fillL2 hs)))))
  · split
    · dsimp only
      exact keeps_recordFreed (keeps_cxlWritten (keeps_writeBytes (keeps_takeTw hs)))
    · dsimp only
      exact keeps_updLine (keeps_recordFreed (keeps_cxlWritten (keeps_writeBytes (keeps_takeTw hs))))

theorem keeps_homeWrite {g : Nat} {bs : List (Nat × Byte)} {a : Attr} {t : Nat} {alloc : Bool} (hs : Keeps κ s) :
    Keeps κ (homeWrite s g bs a t alloc).2 := by
  unfold homeWrite
  split
  · next e =>
    dsimp only
    exact keeps_plainMarks ((keeps_homePut hs).snd_of e)

theorem keeps_setMLine {core e l : Nat} {x : MLine} (hs : Keeps κ s) : Keeps κ (setMLine s core e l x) := by
  unfold setMLine
  dsimp only
  split
  · exact keeps_setCore hs
  · exact hs

theorem keeps_postLate {pa agent : Nat} (hs : Keeps κ s) : Keeps κ (postLate s pa agent) := by
  unfold postLate
  exact keeps_postRec hs

theorem keeps_mergeMasked {core : Nat} {x : MLine} (hs : Keeps κ s) : Keeps κ (mergeMasked s core x) := by
  unfold mergeMasked
  exact keeps_foldl (fun _ _ h => .ite (keeps_homePut h) (keeps_postLate h)) _ hs

theorem keeps_releaseHomes {core : Nat} {x : MLine} (hs : Keeps κ s) : Keeps κ (releaseHomes s core x) := by
  unfold releaseHomes
  exact keeps_foldl (fun _ _ h => .ite (keeps_updLine h) h) _ hs

theorem keeps_shareHomes {core : Nat} {x : MLine} (hs : Keeps κ s) : Keeps κ (shareHomes s core x) := by
  unfold shareHomes
  exact keeps_foldl (fun _ _ h => .ite h (keeps_updLine h)) _ hs

theorem keeps_mlineToInv {core e l : Nat} (hs : Keeps κ s) : Keeps κ (mlineToInv s core e l) := by
  unfold mlineToInv
  dsimp only
  exact keeps_releaseHomes (keeps_setMLine hs)

theorem keeps_mlineToShr {core e l : Nat} (hs : Keeps κ s) : Keeps κ (mlineToShr s core e l) := by
  unfold mlineToShr
  dsimp only
  exact keeps_shareHomes (keeps_setMLine hs)

theorem keeps_probeLine {core e l : Nat} {inval : Bool} (hs : Keeps κ s) : Keeps κ (probeLine s core e l inval) := by
  unfold probeLine
  dsimp only
  split
  · exact hs
  · exact hs
  · exact keeps_setMLine hs
  · split
    · exact keeps_setMLine hs
    · split
      · exact keeps_mlineToInv hs
      · exact hs
  · split
    · exact keeps_mlineToInv hs
    · exact keeps_mlineToShr hs
  · split
    · exact keeps_mlineToInv (keeps_mergeMasked hs)
    · exact keeps_mlineToShr (keeps_mergeMasked hs)
  · split
    · exact keeps_mlineToInv (keeps_mergeMasked hs)
    · exact keeps_mlineToShr (keeps_mergeMasked hs)

theorem keeps_snoopHost {g a : Nat} {inval : Bool} (hs : Keeps κ s) : Keeps κ (snoopHost s g a inval) := by
  unfold snoopHost
  split
  · exact hs
  · exact hs.same

theorem keeps_probeAgent {g a : Nat} {inval : Bool} (hs : Keeps κ s) : Keeps κ (probeAgent s g a inval) := by
  unfold probeAgent
  dsimp only
  split
  · split
    · exact keeps_updLine (keeps_foldl (fun _ _ h => keeps_probeLine h) _ hs)
    · exact keeps_foldl (fun _ _ h => keeps_probeLine h) _ hs
  · split
    · exact keeps_updLine hs
    · exact keeps_updLine hs

theorem keeps_refused {agent die slice : Nat} (hs : Keeps κ s) : Keeps κ (refused s agent die slice) := by
  unfold refused
  split
  · exact hs
  · exact keeps_throttleTo hs

theorem keeps_holdBusy {g a : Nat} {inval : Bool} (hs : Keeps κ s) : Keeps κ (holdBusy s g a inval) := by
  unfold holdBusy
  dsimp only
  split
  · exact keeps_later (keeps_updLine hs)
  · exact keeps_later (keeps_snoopHost (keeps_updLine hs))

theorem keeps_grab {g : Nat} {who : Option Nat} {inval : Bool} (hs : Keeps κ s) : Keeps κ (grab s g who inval).2 := by
  unfold grab
  dsimp only
  split
  · dsimp only
    exact keeps_joinQueue hs
  · split
    · dsimp only
      exact keeps_leaveQueue hs
    · split
      · dsimp only
        exact keeps_joinQueue hs
      · split
        · dsimp only
          exact keeps_joinQueue (keeps_foldl (fun _ _ h => keeps_throttleTo h) _ hs)
        · split
          · dsimp only
            exact keeps_joinQueue (keeps_holdBusy (keeps_exchange hs))
          · dsimp only
            exact keeps_updLine (keeps_foldl (fun _ _ h => keeps_probeAgent (keeps_snoopHost (keeps_exchange h))) _
              (keeps_leaveQueue hs))

theorem keeps_pinRoom {g : Nat} (hs : Keeps κ s) : Keeps κ (pinRoom s g).2 := by
  unfold pinRoom
  dsimp only
  split
  · dsimp only
    exact hs
  · split
    · exact keeps_grab hs
    · dsimp only
      exact hs

theorem keeps_setOwner {core g : Nat} {pin : Bool} (hs : Keeps κ s) : Keeps κ (setOwner s core g pin) := by
  unfold setOwner
  dsimp only
  exact keeps_updLine (keeps_cxlFetch (keeps_freshId hs))

theorem keeps_ownHome {core g : Nat} {m : Mooring} {x : MLine} (hs : Keeps κ s) : Keeps κ (ownHome s core g m x).2 := by
  unfold ownHome
  dsimp only
  split
  · dsimp only
    exact keeps_grab hs
  · split
    · split
      · dsimp only
        exact keeps_pinRoom (keeps_grab hs)
      · dsimp only
        exact keeps_setOwner (keeps_fillL2 (keeps_pinRoom (keeps_grab hs)))
    · split
      · dsimp only
        exact keeps_grab hs
      · dsimp only
        exact keeps_setOwner (keeps_fillL2 (keeps_grab hs))

theorem keeps_shareHome {core g : Nat} {x : MLine} (hs : Keeps κ s) : Keeps κ (shareHome s core g x).2 := by
  unfold shareHome
  dsimp only
  split
  · dsimp only
    exact hs
  · split
    · dsimp only
      exact keeps_grab hs
    · dsimp only
      exact keeps_updLine (keeps_fillL2 (keeps_grab hs))

theorem keeps_dropEntry {core e : Nat} (hs : Keeps κ s) : Keeps κ (dropEntry s core e) := by
  unfold dropEntry
  dsimp only
  split
  · exact hs
  · exact keeps_setCore (keeps_foldl (fun _ _ h => keeps_mlineToInv h) _ hs)

theorem keeps_askHomes {core : Nat} {gs : List Nat} (hs : Keeps κ s) : Keeps κ (askHomes s core gs) := by
  unfold askHomes
  exact keeps_foldl (fun _ _ h => keeps_exchange h) _ hs

theorem keeps_startWriteBack {core e l : Nat} {toInv : Bool} (hs : Keeps κ s) :
    Keeps κ (startWriteBack s core e l toInv) := by
  unfold startWriteBack
  dsimp only
  split
  · exact keeps_later (keeps_setMLine (keeps_askHomes hs))
  · split
    · exact keeps_refused hs
    · exact hs

theorem keeps_fillHomes {core : Nat} {m : Mooring} {x : MLine} {gs : List Nat} (hs : Keeps κ s) :
    Keeps κ (fillHomes s core m x gs).2 := by
  induction gs generalizing s with
  | nil => exact hs
  | cons g r ih =>
    unfold fillHomes
    split
    next ok s1 e =>
      have h1 : Keeps κ s1 := Keeps.snd_of (.ite_snd (keeps_grab hs) (.ite_snd (keeps_ownHome hs)
        (keeps_shareHome hs))) e
      split
      · exact h1
      · exact ih h1

theorem touchOk_of_fillMap {core : Nat} {m : Mooring} {ps : List (Nat × Nat)} {t : Touch}
    (e : fillMap s core m ps = .error t) :
    TouchOk κ t := by
  induction ps with
  | nil => cases e
  | cons p r ih =>
    unfold fillMap at e
    split at e
    · next u hu =>
      cases e
      unfold fillPage at hu
      split at hu
      · cases hu
        exact touchOk_miss
      · split at hu
        · cases hu
          exact touchOk_fault
        · split at hu
          · cases hu
            exact touchOk_fault
          · cases hu
    · split at e
      · next u hu =>
        cases e
        exact ih hu
      · cases e

theorem touchOk_startFill {core e l : Nat} {m : Mooring} {wr : Bool} (hs : Keeps κ s) :
    TouchOk κ (startFill s core e l m wr) := by
  unfold startFill
  split
  · next e1 => exact touchOk_of_fillMap e1
  · dsimp only
    split
    · exact touchOk_fault
    · split
      · exact touchOk_wait (keeps_refused hs)
      · split
        · next e1 => exact touchOk_wait ((keeps_fillHomes hs).snd_of e1)
        · next e1 =>
          exact touchOk_wait (keeps_later (keeps_setMLine (keeps_askHomes
            (keeps_foldl (fun _ _ h => keeps_writePlace h) _ ((keeps_fillHomes hs).snd_of e1)))))

theorem keeps_upgradeHomes {core : Nat} {m : Mooring} {x : MLine} {gs : List Nat} (hs : Keeps κ s) :
    Keeps κ (upgradeHomes s core m x gs).2 := by
  induction gs generalizing s with
  | nil => exact hs
  | cons g r ih =>
    unfold upgradeHomes
    split
    next ok s1 e =>
      have h1 : Keeps κ s1 := (keeps_ownHome hs).snd_of e
      split
      · exact h1
      · exact ih h1

theorem keeps_addReader {core e l : Nat} (hs : Keeps κ s) : Keeps κ (addReader s core e l) := by
  unfold addReader
  dsimp only
  split
  · exact hs
  · exact keeps_setMLine hs

theorem keeps_dropReader {core e l : Nat} (hs : Keeps κ s) : Keeps κ (dropReader s core e l) := by
  unfold dropReader
  dsimp only
  split
  · exact hs
  · exact keeps_setMLine hs

theorem touchOk_touchLine {core e l va : Nat} {wr : Bool} (hs : Keeps κ s) :
    TouchOk κ (touchLine s core e l va wr) := by
  unfold touchLine
  dsimp only
  split
  · exact touchOk_ok hs
  · split
    · exact touchOk_startFill hs
    · exact touchOk_wait (.ite hs (keeps_addReader hs))
    · split
      · exact touchOk_fault
      · split
        · exact touchOk_wait hs
        · split
          · exact touchOk_ok (keeps_dropReader hs)
          · split
            · exact touchOk_wait (keeps_refused hs)
            · split
              · next e7 =>
                exact touchOk_wait ((keeps_upgradeHomes hs).snd_of e7)
              · next e7 =>
                exact touchOk_ok (keeps_setMLine (keeps_askHomes ((keeps_upgradeHomes hs).snd_of e7)))
    · split
      · exact touchOk_fault
      · split
        · exact touchOk_ok (keeps_setMLine hs)
        · exact touchOk_ok hs
    · exact touchOk_ok hs
    · split
      · exact touchOk_wait hs
      · exact touchOk_ok hs
    · split
      · exact touchOk_fault
      · exact touchOk_ok hs

theorem touchOk_touchAll {core va : Nat} {wr : Bool} {ls : List (Nat × Nat)} (hs : Keeps κ s) :
    TouchOk κ (touchAll s core va wr ls) := by
  induction ls generalizing s with
  | nil => exact hs
  | cons p r ih =>
    have hl : TouchOk κ (touchLine s core p.1 p.2 va wr) := touchOk_touchLine hs
    unfold touchAll
    split
    · next e => exact ih (hl.of_ok e)
    · exact hl

theorem touchOk_touchStash {core o n va : Nat} {wr : Bool} (hs : Keeps κ s) :
    TouchOk κ (touchStash s core o n va wr) := by
  unfold touchStash
  split
  · next e =>
    split
    · split
      · exact touchOk_wait ((touchOk_touchAll hs).of_ok e)
      · exact touchOk_ok ((touchOk_touchAll hs).of_ok e)
    · exact touchOk_ok ((touchOk_touchAll hs).of_ok e)
  · exact touchOk_touchAll hs

theorem keeps_mooredTw {core o n t : Nat} (hs : Keeps κ s) : Keeps κ (mooredTw s core o n t).2 := by
  unfold mooredTw
  exact keeps_foldl_snd (fun _ _ h => by
      split
      · next e =>
        dsimp only
        split
        · exact keeps_updLine ((keeps_takeTw h).snd_of e)
        · exact (keeps_takeTw h).snd_of e) _ hs

theorem keeps_stashPut {core o : Nat} {bs : List Byte} {t : Nat} (hs : Keeps κ s) :
    Keeps κ (stashPut s core o bs t).2 := by
  unfold stashPut
  split
  · next e =>
    dsimp only
    exact keeps_plainMarks (keeps_writePlace ((keeps_mooredTw hs).snd_of e))

theorem keeps_raiseT {b c t : Nat} (hs : Keeps κ s) : Keeps κ (raiseT s b c t) := by
  unfold raiseT
  exact keeps_updCrew hs

theorem keeps_markRels {me : Party} {key lane tw : Nat} {rs : List Release} (hs : Keeps κ s) :
    Keeps κ (markRels s me key lane tw rs) := by
  unfold markRels
  exact keeps_foldl (fun _ _ h => keeps_markBytes h) _ hs

theorem keepsE_segsE {h : Here} {va n : Nat} {r : Right} {kind : Nat} :
    KeepsE κ (fun _ => True) (segsE h va n r kind) := by
  unfold segsE
  exact keepsE_mapM (fun _ => keepsE_bind keepsE_pageE (fun _ _ => keepsE_pure_true)) _

theorem keepsE_orderE {h : Here} {m : Mask} {xs : List Acc} : KeepsE κ (fun _ => True) (orderE h m xs) := by
  unfold orderE
  exact keepsE_bind keepsE_getE (fun _ _ => .ite keepsE_waitE keepsE_pure_true)

theorem keepsE_orderLoadE {h : Here} {m : Mask} {va pa n ord : Nat} :
    KeepsE κ (fun _ => True) (orderLoadE h m va pa n ord) := by
  unfold orderLoadE
  exact keepsE_bind keepsE_getE (fun _ _ => .ite keepsE_waitE keepsE_pure_true)

theorem keepsE_afterAcquireE {h : Here} {m : Mask} : KeepsE κ (fun _ => True) (afterAcquireE h m) := by
  unfold afterAcquireE
  exact keepsE_bind keepsE_getE (fun _ _ => .ite keepsE_waitE keepsE_pure_true)

theorem keeps_acquireAt {b c : Nat} {m : Mask} {t : Nat} (hs : Keeps κ s) : Keeps κ (acquireAt s b c m t) := by
  unfold acquireAt
  dsimp only
  exact keeps_raiseT (keeps_updCrew hs.same)

theorem keeps_readMarks {b c : Nat} {m : Mask} {md : LoadMode} {ms : List Mark} (hs : Keeps κ s) :
    Keeps κ (readMarks s b c m md ms) := by
  unfold readMarks
  dsimp only
  split
  · exact hs
  · split
    · exact hs
    · exact keeps_updCrew hs
  · exact keeps_acquireAt (.ite hs (keeps_updCrew hs))

theorem keepsE_sendE {h : Here} {pa : Nat} : KeepsE κ (fun _ => True) (sendE h pa) := by
  unfold sendE
  dsimp only
  exact keepsE_bind keepsE_getE (fun _ _ => .ite (keepsE_bind (keepsE_modifyE (fun _ h2 => keeps_refused h2))
    (fun _ _ => keepsE_waitE)) keepsE_pure_true)

theorem keeps_sentBy {h : Here} {pa : Nat} (hs : Keeps κ s) : Keeps κ (sentBy h pa s) := by
  unfold sentBy
  exact keeps_exchange hs

theorem keepsE_homeLineE {h : Here} {g va kind : Nat} {a : Attr} :
    KeepsE κ (fun _ => True) (homeLineE h g va kind a) := by
  unfold homeLineE
  exact keepsE_bind keepsE_sendE (fun _ _ => keepsE_bind keepsE_getE (fun _ h2 => keepsE_bind (keepsE_modifyE
    (fun _ _ => keeps_grab h2)) (fun _ _ => .ite keepsE_waitE (.ite keepsE_faultE (keepsE_bind (keepsE_modifyE
    (fun _ h4 => keeps_fillL2 (keeps_sentBy h4))) (fun _ _ => keepsE_pure_true))))))

theorem keeps_insertLease {core g : Nat} {x : LeaseLine} (hs : Keeps κ s) : Keeps κ (insertLease s core g x) := by
  unfold insertLease
  dsimp only
  split
  · exact keeps_setCore hs
  · exact keeps_setCore (keeps_freeChoice hs)

theorem keeps_insertRo {core g : Nat} {x : RoLine} (hs : Keeps κ s) : Keeps κ (insertRo s core g x) := by
  unfold insertRo
  dsimp only
  split
  · exact keeps_setCore hs
  · exact keeps_setCore (keeps_freeChoice hs)

theorem keepsE_glimpseE {h : Here} {md : LoadMode} {pa n : Nat} : KeepsE κ (fun _ => True) (glimpseE h md pa n) := by
  unfold glimpseE
  refine keepsE_bind keepsE_crewE fun y _ => ?_
  split
  · exact keepsE_pure trivial
  · split
    · exact keepsE_pure trivial
    · exact keepsE_of_goes_on fun s hs => ⟨_, _, rfl, keeps_freeChoice (n := 2) hs⟩

theorem keeps_leaseFill {core g t len : Nat} {d : List Byte} (hs : Keeps κ s) :
    Keeps κ (leaseFill s core g t len d) := by
  unfold leaseFill
  dsimp only
  exact keeps_insertLease (keeps_raiseLE (keeps_freshId hs))

theorem keepsE_leaseLineE {h : Here} {g va kind : Nat} {a : Attr} :
    KeepsE κ (fun _ => True) (leaseLineE h g va kind a) := by
  unfold leaseLineE
  exact keepsE_bind keepsE_getE (fun _ _ => keepsE_bind keepsE_crewE (fun _ _ => by
      split
      · exact keepsE_pure_true
      · exact keepsE_bind keepsE_homeLineE (fun _ _ => keepsE_bind (keepsE_modifyE (fun _ h4 => keeps_leaseFill h4))
          (fun _ _ => keepsE_bind keepsE_getE (fun _ _ => keepsE_pure_true)))))

theorem keepsE_roLineE {h : Here} {g va kind : Nat} {a : Attr} : KeepsE κ (fun _ => True) (roLineE h g va kind a) := by
  unfold roLineE
  dsimp only
  exact keepsE_bind keepsE_getE (fun _ _ => keepsE_bind keepsE_crewE (fun _ _ => by
      split
      · exact keepsE_pure_true
      · exact keepsE_bind keepsE_homeLineE (fun _ _ => keepsE_bind keepsE_getE (fun _ h4 => keepsE_bind (keepsE_modifyE
          (fun _ _ => keeps_insertRo (keeps_freshId h4))) (fun _ _ => keepsE_pure_true)))))

theorem keepsE_remoteSlotsE {h : Here} {pa : Nat} : KeepsE κ (fun _ => True) (remoteSlotsE h pa) := by
  unfold remoteSlotsE
  exact keepsE_bind keepsE_sendE (fun _ _ => keepsE_bind keepsE_getE (fun _ _ => .ite keepsE_waitE keepsE_pure_true))

theorem keeps_remoteFate {pa va : Nat} (hs : Keeps κ s) : Keeps κ (remoteFate s pa va).2 := by
  unfold remoteFate
  split
  · dsimp only
    exact hs
  · split
    · dsimp only
      exact hs
    · split
      · next e2 =>
        dsimp only
        exact (keeps_freeChoice hs).snd_of e2

theorem keeps_askRemote {req : Option Nat} {kind pa va : Nat} {act : Mask} {hops : List (Nat × Nat)} (hs : Keeps κ s) :
    Keeps κ (askRemote s req kind pa va act hops).2 := by
  unfold askRemote
  dsimp only
  split
  · dsimp only
    exact hs
  · dsimp only
    exact keeps_later (keeps_freshId hs).same

theorem keeps_awaitRemote {h : Here} {kind pa va : Nat} (hs : Keeps κ s) : Keeps κ (awaitRemote s h kind pa va) := by
  unfold awaitRemote
  split
  · next e =>
    exact keeps_waitSlot ((keeps_askRemote hs).snd_of e)

theorem keepsE_remoteAnswerE {h : Here} {pa va kind : Nat} : KeepsE κ (fun _ => True) (remoteAnswerE h pa va kind) := by
  unfold remoteAnswerE
  exact keepsE_bind keepsE_remoteSlotsE (fun _ _ => keepsE_bind keepsE_getE (fun _ h2 => by
      split
      · next e =>
        exact keepsE_modifyE (fun _ _ => keeps_sentBy ((keeps_remoteFate h2).snd_of e))
      · exact keepsE_faultE
      · next e =>
        exact keepsE_stopWith (fun _ _ => keeps_awaitRemote ((keeps_remoteFate h2).snd_of e))))

/-- Two ways to come to the same rest. -/
theorem keepsE_ite_bind {α β : Type} {Q : β → Prop} {p : Prop} [Decidable p] {x y : Exec α} {f : α → Exec β}
    (hx : KeepsE κ (fun _ => True) x) (hy : KeepsE κ (fun _ => True) y) (hf : ∀ a, KeepsE κ Q (f a)) :
    KeepsE κ Q (if p then x >>= f else y >>= f) :=
  .ite (keepsE_bind hx fun a _ => hf a) (keepsE_bind hy fun a _ => hf a)

/-- R89: a read after which the crew has seen the marks of what it read. -/
theorem keepsE_markedRead {α : Type} {b c : Nat} {m : Mask} {md : LoadMode} {ms : State → List Mark} {a : α} :
    KeepsE κ (fun _ => True) (do modifyE fun s => readMarks s b c m md (ms s); pure a) :=
  keepsE_bind (keepsE_modifyE fun _ hs => keeps_readMarks hs) fun _ _ => keepsE_pure_true

theorem keepsE_loadSegE {h : Here} {m : Mask} {kind : Nat} {md : LoadMode} {x : Seg} :
    KeepsE κ (fun _ => True) (loadSegE h m kind md x) := by
  unfold loadSegE
  dsimp only
  refine keepsE_ite_bind keepsE_orderLoadE keepsE_afterAcquireE fun _ => ?_
  refine keepsE_bind keepsE_getE fun _ _ => keepsE_bind keepsE_crewE fun _ _ => ?_
  refine .ite ?remote (.ite ?ordered (.ite ?readOnly ?leased))
  case remote =>
    split
    · exact keepsE_faultE
    · exact keepsE_bind keepsE_remoteAnswerE fun _ _ => keepsE_bind keepsE_getE fun _ _ => keepsE_markedRead
  case ordered => exact keepsE_bind keepsE_homeLineE fun _ _ => keepsE_bind keepsE_getE fun _ _ => keepsE_markedRead
  case readOnly => exact keepsE_guard keepsE_waitE fun _ => keepsE_bind keepsE_roLineE fun _ _ => keepsE_pure_true
  case leased =>
    refine keepsE_bind keepsE_glimpseE fun _ _ => ?_
    split
    · exact keepsE_markedRead
    · refine keepsE_bind keepsE_leaseLineE fun _ _ => keepsE_bind keepsE_updCrewE fun _ _ => ?_
      exact keepsE_bind keepsE_getE fun _ _ => keepsE_markedRead

theorem keepsE_touchE {h : Here} {kind : Nat} {t : State → Touch} (ht : ∀ s, Keeps κ s → TouchOk κ (t s)) :
    KeepsE κ (fun _ => True) (touchE h kind t) := by
  unfold touchE
  refine keepsE_bind keepsE_getE fun s hs => ?_
  have hok := ht s hs
  split
  · next e => exact keepsE_modifyE fun _ _ => hok.of_ok e
  · next e => exact keepsE_stopWith fun _ _ => keeps_waitSlot (hok.of_wait e)
  · exact keepsE_stopWith fun _ h1 => keeps_waitSlot (keeps_startWalk h1)
  · exact keepsE_faultE

theorem keeps_flushLine {core e l : Nat} (hs : Keeps κ s) : Keeps κ (flushLine s core e l) := by
  unfold flushLine
  dsimp only
  exact keeps_setMLine (keeps_mergeMasked hs)

theorem keepsE_homesE {h : Here} {core : Nat} {xs : List MLine} : KeepsE κ (fun _ => True) (homesE h core xs) := by
  unfold homesE
  exact keepsE_bind keepsE_getE (fun _ _ => by
      split
      · exact keepsE_bind (keepsE_modifyE (fun _ h2 => keeps_refused h2)) (fun _ _ => keepsE_waitE)
      · exact keepsE_modifyE (fun _ h2 => keeps_foldl (fun _ _ h3 => keeps_askHomes h3) _ h2))

theorem keepsE_flushE {h : Here} {core : Nat} {ls : List (Nat × Nat)} :
    KeepsE κ (fun _ => True) (flushE h core ls) := by
  unfold flushE
  exact keepsE_bind keepsE_getE (fun _ _ => by
      split
      · exact keepsE_waitE
      · exact keepsE_bind keepsE_homesE (fun _ _ => keepsE_modifyE (fun _ h3 => keeps_foldl (fun _ _ h4 =>
          keeps_flushLine h4) _ h3)))

theorem keepsE_meshE {h : Here} {core : Nat} : KeepsE κ (fun _ => True) (meshE h core) := by
  unfold meshE
  dsimp only
  exact keepsE_bind keepsE_getE (fun _ _ => .ite (keepsE_bind (keepsE_modifyE (fun _ h2 => keeps_throttle h2))
    (fun _ _ => keepsE_waitE)) keepsE_pure_true)

theorem keeps_meshSent {h : Here} {core : Nat} (hs : Keeps κ s) : Keeps κ (meshSent h core s) := by
  unfold meshSent
  split
  · exact hs
  · exact keeps_exchange hs

theorem keepsE_stashE {h : Here} {w : Window} {va n : Nat} {wr : Bool} {m : Mask} :
    KeepsE κ (fun _ => True) (stashE h w va n wr m) := by
  unfold stashE
  dsimp only
  split
  · split
    · exact keepsE_faultE
    · exact keepsE_bind (keepsE_touchE (fun _ h1 => touchOk_touchStash h1)) (fun _ _ => keepsE_bind keepsE_getE
        (fun _ _ => keepsE_bind keepsE_orderE (fun _ _ => keepsE_bind keepsE_afterAcquireE (fun _ _ =>
        keepsE_pure_true))))
  · exact keepsE_bind keepsE_meshE (fun _ _ => keepsE_bind (keepsE_touchE (fun _ h2 => touchOk_touchStash h2))
      (fun _ _ => keepsE_bind keepsE_getE (fun _ _ => keepsE_bind keepsE_orderE (fun _ _ =>
      keepsE_bind keepsE_afterAcquireE (fun _ _ => keepsE_pure_true)))))
  · exact keepsE_faultE

theorem keepsE_stashReadE {h : Here} {m : Mask} {md : LoadMode} {n : Nat} {p : Nat × Nat} :
    KeepsE κ (fun _ => True) (stashReadE h m md n p) := by
  unfold stashReadE
  dsimp only
  refine keepsE_bind keepsE_getE fun _ _ => keepsE_ite_bind keepsE_glimpseE keepsE_pure_true fun _ => ?_
  refine keepsE_bind (keepsE_modifyE fun _ h3 => keeps_meshSent h3) fun _ _ => ?_
  split
  · exact keepsE_markedRead
  · exact keepsE_bind keepsE_updCrewE fun _ _ => keepsE_bind keepsE_getE fun _ _ => keepsE_markedRead

theorem keepsE_loadBytesE {h : Here} {m : Mask} {va n : Nat} {md : LoadMode} :
    KeepsE κ (fun _ => True) (loadBytesE h m va n md) := by
  unfold loadBytesE
  dsimp only
  split
  · exact keepsE_faultE
  · exact keepsE_bind keepsE_segsE (fun _ _ => keepsE_bind (keepsE_mapM (fun _ => keepsE_loadSegE) _) (fun _ _ =>
      keepsE_pure_true))
  · exact keepsE_guard keepsE_trapE (fun _ => keepsE_bind keepsE_stashE (fun _ _ => keepsE_stashReadE))

theorem keeps_stashStore {h : Here} {core o l : Nat} {bs : List Byte} {sem : Option Scope} (hs : Keeps κ s) :
    Keeps κ (stashStore s h core o l bs sem) := by
  unfold stashStore
  dsimp only
  exact keeps_raiseT (keeps_foldl (fun _ _ h1 => keeps_markRels h1) _ (keeps_updCrew (keeps_stashPut hs)))

theorem keeps_addReq {r : Req} (hs : Keeps κ s) : Keeps κ (addReq s r) := by
  unfold addReq
  dsimp only
  split
  · exact keeps_later ((keeps_freshId hs).set_reqs)
  · exact (keeps_freshId hs).set_reqs
  · exact keeps_later ((keeps_freshId hs).set_reqs)
  · exact keeps_later ((keeps_freshId hs).set_reqs)

theorem keepsE_storeLineE {h : Here} {entry : Nat} {m : Mask} {rels : List Release} {x : LineStore} :
    KeepsE κ (fun _ => True) (storeLineE h entry m rels x) := by
  unfold storeLineE
  dsimp only
  exact keepsE_modifyE (fun _ h1 => by
      split
      · exact keeps_addReq (keeps_startWalk (keeps_updCrew h1))
      · exact keeps_addReq (keeps_updCrew h1))

theorem keepsE_storeGlobalE {h : Here} {m : Mask} {sem : Option Scope} {ls : List LaneStore} :
    KeepsE κ (fun _ => True) (storeGlobalE h m sem ls) := by
  unfold storeGlobalE
  split
  · exact keepsE_pure_true
  · exact keepsE_bind keepsE_crewE (fun _ _ => keepsE_bind keepsE_getE (fun _ h2 => keepsE_bind (keepsE_modifyE
      (fun _ _ => keeps_freshId h2)) (fun _ _ => keepsE_forM (fun _ => keepsE_storeLineE) _)))

theorem keeps_stashLater {h : Here} {m : Mask} {sem : Option Scope} {ls : List StashStore} (hs : Keeps κ s) :
    Keeps κ (stashLater s h m sem ls) := by
  unfold stashLater
  dsimp only
  exact keeps_foldl (fun _ _ h1 => keeps_addReq (keeps_updCrew h1)) _ (keeps_freshId hs)

theorem keeps_putStashes {h : Here} {m : Mask} {sem : Option Scope} {ls : List StashStore} (hs : Keeps κ s) :
    Keeps κ (putStashes h m sem ls s) := by
  unfold putStashes
  split
  · exact hs
  · split
    · next e1 =>
      split
      · exact keeps_stashLater ((keeps_freeChoice (keeps_foldl (fun _ _ h1 => keeps_meshSent h1) _ hs)).snd_of e1)
      · exact keeps_foldl (fun _ _ h1 => keeps_stashStore h1) _ ((keeps_freeChoice (keeps_foldl (fun _ _ h1 =>
          keeps_meshSent h1) _ hs)).snd_of e1)

theorem keepsE_storeStashE {h : Here} {win : LaneStore → Window} {ls : List LaneStore} :
    KeepsE κ (fun _ => True) (storeStashE h win ls) := by
  unfold storeStashE
  exact keepsE_mapM (fun _ => keepsE_bind keepsE_stashE (fun _ _ => keepsE_pure_true)) _

theorem keepsE_drainE {h : Here} {m : Mask} : KeepsE κ (fun _ => True) (drainE h m) := by
  unfold drainE
  exact keepsE_bind keepsE_getE (fun _ _ => .ite keepsE_waitE keepsE_pure_true)

theorem keepsE_capStoreE {h : Here} {entry va : Nat} {bs : List Byte} :
    KeepsE κ (fun _ => True) (capStoreE h entry va bs) := by
  unfold capStoreE
  dsimp only
  exact keepsE_bind keepsE_crewE (fun _ _ => by
      split
      · exact keepsE_pure_true
      · split
        · exact keepsE_bind keepsE_segsE (fun _ _ => keepsE_bind keepsE_getE (fun _ _ => keepsE_guard keepsE_trapE (fun _ => by
              split
              · exact keepsE_faultE
              · exact keepsE_guard keepsE_trapE (fun _ => .ite keepsE_updCrewE (by
                    split
                    · exact keepsE_waitE
                    · exact keepsE_bind (keepsE_forM (fun _ => keepsE_sendE) _) (fun _ _ => keepsE_bind (keepsE_forIn
                        (fun _ _ => keepsE_bind (keepsE_modifyE (fun _ h6 => keeps_later (keeps_sendCap
                        (keeps_sentBy h6)))) (fun _ _ => keepsE_pure_true)) _) (fun _ _ => keepsE_updCrewE)))))))
        · exact keepsE_faultE
        · exact keepsE_trapE)

theorem keepsE_storeLanesE {h : Here} {m : Mask} {sem : Option Scope} {ls : List LaneStore} :
    KeepsE κ (fun _ => True) (storeLanesE h m sem ls) := by
  unfold storeLanesE
  split
  · exact keepsE_faultE
  · exact .ite (keepsE_bind keepsE_getE (fun _ h1 => keepsE_bind (keepsE_modifyE (fun _ _ => keeps_freshId h1))
      (fun _ _ => keepsE_forM (fun _ => keepsE_capStoreE) _))) (keepsE_bind keepsE_afterAcquireE (fun _ _ =>
      keepsE_bind keepsE_storeStashE (fun _ _ => keepsE_bind keepsE_storeGlobalE (fun _ _ => keepsE_modifyE
      (fun _ h4 => keeps_putStashes h4)))))

end Sys2Proof
end

section
/-! # Invariants: engines, the tape, channels, and the words that compute. -/

namespace Sys2Proof

open Machine

set_option Elab.async false

variable {κ : Claim} {s : State}

theorem keeps_heldBy {g : Nat} {inval : Bool} (hs : Keeps κ s) : Keeps κ (heldBy s g inval) := by
  unfold heldBy
  split
  · exact hs
  · exact keeps_grab hs

theorem keeps_engSent {core pa : Nat} (hs : Keeps κ s) : Keeps κ (engSent s core pa) := by
  unfold engSent
  exact keeps_exchange hs

theorem keeps_engRemote {ag core : Nat} {x : Seg} {t : State} (hs : Keeps κ s) (e : engRemote s ag core x = .ok t) :
    Keeps κ t := by
  unfold engRemote at e
  split at e
  · cases e
  · split at e
    · next e2 =>
      cases e
      exact keeps_engSent ((keeps_remoteFate hs).snd_of e2)
    · cases e
    · cases e

theorem keeps_readSeg {ag core : Nat} {x : Seg} {t : State} {w : List Byte} (hs : Keeps κ s)
    (e : readSeg s ag core x = .ok (w, t)) : Keeps κ t := by
  unfold readSeg at e
  split at e
  · split at e
    · split at e
      · cases e
      · next e3 =>
        cases e
        exact keeps_engRemote hs e3
    · cases e
  · split at e
    · cases e
    · split at e
      · cases e
      · next e3 =>
        split at e
        · cases e
        · cases e
          exact keeps_engSent ((keeps_grab hs).snd_of e3)

theorem keeps_readSegs {ag core : Nat} {xs : List Seg} {t : State} {w : List Byte} (hs : Keeps κ s)
    (e : readSegs s ag core xs = .ok (w, t)) : Keeps κ t := by
  induction xs generalizing s w with
  | nil =>
    cases e
    exact hs
  | cons x r ih =>
    unfold readSegs at e
    split at e
    · cases e
    · next e1 =>
      split at e
      · cases e
      · next e2 =>
        cases e
        exact ih (keeps_readSeg hs e1) e2

theorem keeps_engRead {core : Nat} {c : Ctx} {va n : Nat} {ag : Nat} {t : State} {w : List Byte} (hs : Keeps κ s)
    (e : engRead s core c va n ag = .ok (w, t)) : Keeps κ t := by
  unfold engRead at e
  split at e
  · cases e
  · exact keeps_readSegs hs e

theorem keeps_remotePut {p : Place} {bs : List Byte} (hs : Keeps κ s) : Keeps κ (remotePut s p bs) := by
  unfold remotePut
  exact keeps_plainMarks (keeps_writePlace hs)

theorem keeps_writeSeg {copy : Bool} {ag core : Nat} {x : Seg} {bs : List Byte} {t : Nat} {u : State} {w : Nat}
    (hs : Keeps κ s) (e : writeSeg s copy ag core x bs t = .ok (w, u)) : Keeps κ u := by
  unfold writeSeg at e
  dsimp only at e
  split at e
  · split at e
    · split at e
      · cases e
      · next e3 =>
        cases e
        exact keeps_remotePut (keeps_engRemote hs e3)
    · cases e
  · split at e
    · cases e
    · split at e
      · cases e
      · split at e
        · cases e
        · next e4 =>
          split at e
          · cases e
          · replace e := Except.ok.inj e
            exact (keeps_homeWrite (keeps_engSent (.ite (keeps_updLine ((keeps_grab hs).snd_of e4))
              ((keeps_grab hs).snd_of e4)))).snd_of e

theorem keeps_writeSegs {copy : Bool} {ag core : Nat} {xs : List Seg} {bs : List Byte} {n : Nat} {t : State} {w : Nat}
    (hs : Keeps κ s) (e : writeSegs s copy ag core xs bs n = .ok (w, t)) : Keeps κ t := by
  induction xs generalizing s w bs with
  | nil =>
    cases e
    exact hs
  | cons x r ih =>
    unfold writeSegs at e
    split at e
    · cases e
    · next e1 =>
      split at e
      · cases e
      · next e2 =>
        cases e
        exact ih (keeps_writeSeg hs e1) e2

theorem keeps_engWrite {copy : Bool} {core : Nat} {c : Ctx} {va : Nat} {bs : List Byte} {ag : Nat} {t : State}
    {w : Nat} (hs : Keeps κ s) (e : engWrite s copy core c va bs ag = .ok (w, t)) : Keeps κ t := by
  unfold engWrite at e
  split at e
  · cases e
  · exact keeps_writeSegs hs e

theorem keeps_engPut {core : Nat} {c : Ctx} {va : Nat} {bs : List Byte} {t : State} {w : Nat} (hs : Keeps κ s)
    (e : engPut s core c va bs = .ok (w, t)) : Keeps κ t := by
  unfold engPut at e
  exact keeps_engWrite hs e

theorem keepsE_engE {α : Type} {h : Here} {kind : Nat} {f : State → Except EngErr (α × State)}
    (hf : ∀ s a t, Keeps κ s → f s = .ok (a, t) → Keeps κ t) : KeepsE κ (fun _ => True) (engE h kind f) := by
  unfold engE
  refine keepsE_bind keepsE_getE fun s hs => ?_
  split
  · next e => exact keepsE_bind (keepsE_modifyE fun _ _ => hf _ _ _ hs e) fun _ _ => keepsE_pure_true
  · exact keepsE_bind (keepsE_modifyE fun _ h1 => keeps_heldBy h1) fun _ _ => keepsE_waitE
  · exact keepsE_bind (keepsE_modifyE fun _ h1 => keeps_throttleTo h1) fun _ _ => keepsE_waitE
  · exact keepsE_stopWith fun _ h1 => keeps_awaitRemote h1
  · exact keepsE_stopWith fun _ h1 => keeps_waitSlot (keeps_startWalk h1)
  · exact .ite (keepsE_stopWith fun _ h1 => keeps_takeStoreFault h1) keepsE_faultE

theorem keeps_engAgain {die : Nat} {e : EngErr} (hs : Keeps κ s) : Keeps κ (engAgain s die e) := by
  unfold engAgain
  split
  · exact keeps_heldBy hs
  · exact keeps_startWalk hs
  · exact keeps_throttleTo hs
  · exact keeps_askRemote hs
  · exact hs

theorem keepsE_engReadE {h : Here} {va n : Nat} : KeepsE κ (fun _ => True) (engReadE h va n) := by
  unfold engReadE
  exact keepsE_engE (fun _ _ _ h1 h2 => keeps_engRead h1 h2)

theorem keepsE_engWriteE {h : Here} {va : Nat} {bs : List Byte} : KeepsE κ (fun _ => True) (engWriteE h va bs) := by
  unfold engWriteE
  exact keepsE_bind (keepsE_engE (fun _ _ _ h1 h2 => keeps_engPut h1 h2)) (fun _ _ => keepsE_modifyE (fun _ h2 =>
    keeps_raiseT h2))

theorem keepsE_tapeWordE {h : Here} {va : Nat} : KeepsE κ (fun _ => True) (tapeWordE h va) := by
  unfold tapeWordE
  exact keepsE_bind keepsE_crewE (fun _ _ => by
      split
      · exact keepsE_pure_true
      · exact keepsE_bind keepsE_engReadE (fun _ _ => keepsE_pure_true))

theorem keepsE_tapeWordsE {h : Here} {va : Nat} {n : Nat} : KeepsE κ (fun _ => True) (tapeWordsE h va n) := by
  unfold tapeWordsE
  exact keepsE_mapM (fun _ => keepsE_tapeWordE) _

theorem keepsE_recAtE {h : Here} {top : Nat} : KeepsE κ (fun _ => True) (recAtE h top) := by
  unfold recAtE
  dsimp only
  exact keepsE_bind keepsE_tapeWordE (fun _ _ => .ite keepsE_pure_true (keepsE_bind keepsE_tapeWordsE (fun _ _ =>
    keepsE_pure_true)))

theorem keepsE_resolveE {h : Here} {fuel top : Nat} {r : TRec} :
    KeepsE κ (fun _ => True) (resolveE h fuel top r) := by
  induction fuel generalizing top r with
  | zero => exact keepsE_pure_true
  | succ n ih =>
    unfold resolveE
    refine .ite keepsE_pure_true (.ite keepsE_pure_true (keepsE_bind keepsE_recAtE fun q _ => ?_))
    split
    · exact keepsE_pure_true
    · exact ih

theorem keepsE_updTapeE {h : Here} {f : Tape → Tape} : KeepsE κ (fun _ => True) (updTapeE h f) := by
  unfold updTapeE
  exact keepsE_updCrewE

theorem keepsE_bindFirstE {h : Here} : KeepsE κ (fun _ => True) (bindFirstE h) := by
  unfold bindFirstE
  dsimp only
  exact keepsE_bind keepsE_crewE (fun _ _ => .ite (keepsE_bind keepsE_engReadE (fun _ _ => .ite
    (keepsE_bind keepsE_updTapeE (fun _ _ => keepsE_trapE)) keepsE_updTapeE)) keepsE_pure_true)

theorem keepsE_needTapeE {h : Here} : KeepsE κ (fun _ => True) (needTapeE h) := by
  unfold needTapeE
  exact keepsE_bind keepsE_bindFirstE (fun _ _ => keepsE_bind keepsE_crewE (fun _ _ =>
    .ite keepsE_pure_true keepsE_trapE))

theorem keepsE_tapeFlagE {h : Here} : KeepsE κ (fun _ => True) (tapeFlagE h) := by
  unfold tapeFlagE
  exact keepsE_bind keepsE_getE (fun _ _ => .ite keepsE_pure_true keepsE_trapE)

theorem keeps_stagedPart {r : Staged} (hs : Keeps κ s) : Keeps κ (stagedPart s r).2 := by
  unfold stagedPart
  dsimp only
  exact keeps_freeChoice (keeps_freeChoice hs)

theorem keeps_writeOutPart {b c : Nat} {t : State} (hs : Keeps κ s) (e : writeOutPart s b c = .ok t) : Keeps κ t := by
  unfold writeOutPart at e
  split at e
  · split at e
    · cases e
      exact hs
    · split at e
      · next e4 =>
        split at e
        · cases e
        · next e5 =>
          cases e
          exact keeps_updCrew (keeps_writeSeg ((keeps_stagedPart hs).snd_of e4) e5)
  · cases e
    exact hs

theorem keepsE_writeOutE {h : Here} {c : Nat} : KeepsE κ (fun _ => True) (writeOutE h c) := by
  unfold writeOutE
  refine keepsE_bind (keepsE_engE fun s a t hs e => ?_) fun _ _ => keepsE_waitE
  split at e
  · next e1 =>
    cases e
    exact keeps_writeOutPart hs e1
  · cases e

theorem keeps_writeOutFault {b c : Nat} {f : Xf} (hs : Keeps κ s) : Keeps κ (writeOutFault s b c f) := by
  unfold writeOutFault
  dsimp only
  split
  · exact keeps_beginSave (keeps_updBlock hs)
  · exact hs

theorem keeps_writeOutStep {b c : Nat} (hs : Keeps κ s) : Keeps κ (writeOutStep s b c) := by
  unfold writeOutStep
  split
  · next e =>
    exact keeps_dropWalkEnd (keeps_writeOutPart hs e)
  · exact keeps_writeOutFault (keeps_dropWalkEnd hs)
  · split
    · exact keeps_engAgain hs
    · exact hs

theorem keepsE_roomE {h : Here} {n : Nat} : KeepsE κ (fun _ => True) (roomE h n) := by
  unfold roomE
  dsimp only
  exact keepsE_bind keepsE_getE (fun _ _ => .ite (by
      split
      · exact keepsE_bind keepsE_writeOutE (fun _ _ => .ite keepsE_waitE keepsE_pure_true)
      · split
        · exact keepsE_waitE
        · exact keepsE_pure_true) (.ite keepsE_waitE keepsE_pure_true))

theorem keepsE_stagePageE {h : Here} {va : Nat} : KeepsE κ (fun _ => True) (stagePageE h va) := by
  unfold stagePageE
  exact keepsE_bind keepsE_crewE (fun _ _ => keepsE_bind keepsE_getE (fun _ _ => by
      split
      · exact keepsE_pure_true
      · exact keepsE_bind keepsE_pageE (fun _ _ => keepsE_bind keepsE_updTapeE (fun _ _ => keepsE_pure_true))))

theorem keepsE_stageE {h : Here} {ws : List Nat} {num : Option Nat} : KeepsE κ (fun _ => True) (stageE h ws num) := by
  unfold stageE
  dsimp only
  exact keepsE_bind keepsE_crewE (fun _ _ => keepsE_bind (keepsE_mapM (fun _ => keepsE_bind keepsE_stagePageE
    (fun _ _ => keepsE_pure_true)) _) (fun _ _ => keepsE_bind keepsE_roomE (fun _ _ => keepsE_bind keepsE_getE
    (fun _ h4 => keepsE_bind (keepsE_modifyE (fun _ _ => keeps_freshId h4)) (fun _ _ => keepsE_updTapeE)))))

theorem keepsE_tapeTrapE {α : Type} {h : Here} {cause : Cause} {code : Nat} {Q : α → Prop} :
    KeepsE κ Q (tapeTrapE h cause code) := by
  unfold tapeTrapE
  exact keepsE_bind keepsE_crewE (fun _ _ => keepsE_trapE)

theorem keepsE_recTrapE {α : Type} {h : Here} {n : Nat} {cause : Cause} {code : Nat} {Q : α → Prop} :
    KeepsE κ Q (recTrapE h n cause code) := by
  unfold recTrapE
  exact keepsE_bind keepsE_updTapeE (fun _ _ => keepsE_tapeTrapE)

theorem keepsE_completeE {h : Here} {n : Nat} : KeepsE κ (fun _ => True) (completeE h n) := by
  unfold completeE
  exact keepsE_updTapeE

theorem keepsE_belowE {h : Here} {top : Nat} : KeepsE κ (fun _ => True) (belowE h top) := by
  unfold belowE
  split
  · exact keepsE_pure_true
  · exact keepsE_bind keepsE_recAtE (fun _ _ => by
        split
        · exact keepsE_pure_true
        · exact keepsE_resolveE)

theorem keepsE_takeSegmentE {h : Here} {d : TapeDesc} {num : Nat} {room : Exec Unit}
    (hroom : KeepsE κ (fun _ => True) room) : KeepsE κ (fun _ => True) (takeSegmentE h d num room) := by
  unfold takeSegmentE
  dsimp only
  split
  · exact keepsE_recTrapE
  · exact keepsE_bind keepsE_engReadE (fun _ _ => .ite (keepsE_bind keepsE_engWriteE (fun _ _ => keepsE_recTrapE))
      (keepsE_bind keepsE_engReadE (fun _ _ => .ite (keepsE_bind keepsE_engWriteE (fun _ _ => keepsE_recTrapE))
      (keepsE_bind keepsE_stagePageE (fun _ _ => keepsE_bind hroom (fun _ _ => keepsE_bind keepsE_engWriteE (fun _ _ =>
      keepsE_pure_true)))))))

theorem keepsE_putRecordE {h : Here} {kind tag : Nat} {h16 : Bool} {m : Mask} {vals : List Nat} {num : Nat} :
    KeepsE κ (fun _ => True) (putRecordE h kind tag h16 m vals num) := by
  unfold putRecordE
  dsimp only
  exact keepsE_bind keepsE_crewE (fun _ _ => keepsE_bind keepsE_belowE (fun _ _ => .ite (by
      split
      · exact keepsE_bind keepsE_updTapeE (fun _ _ => keepsE_completeE)
      · exact keepsE_bind keepsE_engWriteE (fun _ _ => keepsE_completeE)) (.ite keepsE_stageE (by
      split
      · exact keepsE_bind keepsE_stagePageE (fun _ _ => keepsE_bind (keepsE_takeSegmentE keepsE_roomE) (fun _ _ =>
          keepsE_bind keepsE_stageE (fun _ _ => keepsE_bind keepsE_crewE (fun _ _ => keepsE_bind keepsE_updTapeE
          (fun _ _ => keepsE_bind keepsE_stageE (fun _ _ => keepsE_bind keepsE_stageE (fun _ _ => keepsE_updCrewE)))))))
      · exact keepsE_recTrapE
      · exact keepsE_bind keepsE_stageE (fun _ _ => keepsE_bind keepsE_updCrewE (fun _ _ => keepsE_completeE))))))

theorem keepsE_recordE {h : Here} {x : Option (Nat × Nat × Bool × Mask × List Nat)} :
    KeepsE κ (fun _ => True) (recordE h x) := by
  unfold recordE
  dsimp only
  exact keepsE_bind keepsE_crewE (fun _ _ => by
      split
      · exact keepsE_updTapeE
      · split
        · exact keepsE_updTapeE
        · exact keepsE_bind keepsE_putRecordE (fun _ _ => keepsE_updTapeE))

theorem keepsE_afterPopE {h : Here} {top : Nat} {r : TRec} : KeepsE κ (fun _ => True) (afterPopE h top r) := by
  unfold afterPopE
  dsimp only
  exact .ite (keepsE_bind keepsE_tapeWordsE (fun _ _ => by
      split
      · split
        · exact keepsE_pure_true
        · exact keepsE_pure_true
      · exact keepsE_pure_true)) keepsE_pure_true

theorem keepsE_popE {h : Here} {kind tag : Nat} {peek : Bool} {m : Mask} :
    KeepsE κ (fun _ => True) (popE h kind tag peek m) := by
  unfold popE
  dsimp only
  refine keepsE_bind keepsE_needTapeE fun _ _ => keepsE_bind keepsE_crewE fun _ _ => .ite keepsE_tapeTrapE ?_
  refine keepsE_bind keepsE_recAtE fun _ _ => ?_
  split
  · exact keepsE_tapeTrapE
  · split
    · exact keepsE_tapeTrapE
    · split
      · exact keepsE_tapeTrapE
      · split
        · exact keepsE_tapeTrapE
        · refine keepsE_bind keepsE_resolveE fun _ _ => ?_
          split
          · exact keepsE_tapeTrapE
          · refine keepsE_guard keepsE_tapeTrapE fun _ => keepsE_guard keepsE_tapeTrapE fun _ => ?_
            refine keepsE_bind (.ite keepsE_pure_true (keepsE_bind keepsE_afterPopE fun _ _ => keepsE_pure_true))
              fun _ _ => keepsE_guard keepsE_updCrewE fun _ => ?_
            split
            · exact keepsE_pure_true
            · split
              · exact keepsE_bind keepsE_completeE fun _ _ => keepsE_bind keepsE_updTapeE fun _ _ => keepsE_pure_true
              · exact keepsE_bind keepsE_updTapeE fun _ _ => keepsE_pure_true

theorem keepsE_putAttachedE {h : Here} {r : BrRec} {drop : Crew → Crew} :
    KeepsE κ (fun _ => True) (putAttachedE h r drop) := by
  have hp : KeepsE κ (fun _ => True)
    (putRecordE h tkBr r.tag.toNat false r.mask [r.taken.toNat] r.num) := keepsE_putRecordE
  refine ⟨fun {s t a} hs hr => ?_, fun {s t} hs hr => ?_⟩ <;> unfold putAttachedE at hr <;>
    rw [StateT.run] at hr <;> split at hr
  · next e =>
    cases hr
    exact hp.ok hs e
  · cases hr
  · cases hr
  · next e =>
    cases hr
    exact .ite (keeps_updCrew (hp.stop hs e)) (hp.stop hs e)

theorem keepsE_writeDueE {h : Here} : KeepsE κ (fun _ => True) (writeDueE h) := by
  unfold writeDueE
  split
  · exact keepsE_pure_true
  · exact keepsE_bind keepsE_putAttachedE (fun _ _ => keepsE_updCrewE)

theorem keepsE_regsReadyE {h : Here} {codes : List Nat} : KeepsE κ (fun _ => True) (regsReadyE h codes) := by
  unfold regsReadyE
  dsimp only
  exact keepsE_bind keepsE_crewE (fun _ _ => keepsE_guard keepsE_trapE (fun _ => by
      split
      · exact keepsE_waitE
      · exact keepsE_pure_true))

theorem keepsE_acquireE {h : Here} {m : Mask} {t : Nat} : KeepsE κ (fun _ => True) (acquireE h m t) := by
  unfold acquireE
  exact keepsE_modifyE (fun _ h1 => keeps_acquireAt h1)

theorem keepsE_ringPopE {h : Here} {m : Mask} {k : Nat} {peek : Bool} :
    KeepsE κ (fun _ => True) (ringPopE h m k peek) := by
  unfold ringPopE
  dsimp only
  exact keepsE_bind keepsE_getE (fun _ _ => by
      split
      · exact keepsE_pure_true
      · exact .ite (keepsE_bind keepsE_acquireE (fun _ _ => keepsE_bind (keepsE_modifyE (fun _ h3 =>
          keeps_updBlock h3)) (fun _ _ => keepsE_pure_true))) keepsE_pure_true)

theorem keepsE_batchPopE {h : Here} {m : Mask} {peek : Bool} : KeepsE κ (fun _ => True) (batchPopE h m peek) := by
  unfold batchPopE
  dsimp only
  exact keepsE_bind keepsE_getE (fun _ _ => by
      split
      · exact keepsE_pure_true
      · split
        · exact keepsE_pure_true
        · exact keepsE_bind (keepsE_mapM (fun _ => .ite (keepsE_bind keepsE_engReadE (fun _ _ =>
            keepsE_pure_true)) keepsE_pure_true) _) (fun _ _ => keepsE_guard keepsE_acquireE (fun _ => keepsE_guard
            (keepsE_modifyE (fun _ h3 => keeps_updBlock h3)) (fun _ => keepsE_pure_true))))

theorem keepsE_tapePopChanE {h : Here} {tag : Nat} {peek : Bool} {m : Mask} :
    KeepsE κ (fun _ => True) (tapePopChanE h tag peek m) := by
  unfold tapePopChanE
  exact keepsE_bind keepsE_popE (fun _ _ => keepsE_pure_true)

theorem keepsE_queuePopE {h : Here} {c : Nat} {peek : Bool} : KeepsE κ (fun _ => True) (queuePopE h c peek) := by
  unfold queuePopE
  dsimp only
  exact keepsE_bind keepsE_crewE (fun _ _ => keepsE_guard keepsE_updCrewE (fun _ => keepsE_pure_true))

theorem keepsE_chanReadE {h : Here} {c : Nat} {peek : Bool} {m : Mask} :
    KeepsE κ (fun _ => True) (chanReadE h c peek m) := by
  unfold chanReadE
  dsimp only
  exact keepsE_bind keepsE_crewE (fun _ _ => by
      split
      · exact keepsE_ringPopE
      · exact keepsE_batchPopE
      · exact keepsE_tapePopChanE
      · exact keepsE_queuePopE)

theorem keepsE_readSrcE {h : Here} {m : Mask} {o : Opnd} {n : Nat} : KeepsE κ (fun _ => True) (readSrcE h m o n) := by
  unfold readSrcE
  split
  · exact keepsE_bind keepsE_chanReadE (fun _ _ => keepsE_pure_true)
  · exact keepsE_bind keepsE_getE (fun _ _ => keepsE_pure_true)

theorem keeps_undoPops {s0 s1 : State} {h : Here} (hs : Keeps κ s1) : Keeps κ (undoPops s0 h s1) := by
  unfold undoPops
  split
  · exact keeps_updBlock (keeps_updCrew hs)
  · exact hs

theorem keepsE_readListE {h : Here} {m : Mask} {os : List (Opnd × Nat)} :
    KeepsE κ (fun _ => True) (readListE h m os) := by
  induction os with
  | nil => exact keepsE_pure_true
  | cons o r ih =>
    unfold readListE
    exact keepsE_bind keepsE_readSrcE fun _ _ => keepsE_bind ih fun _ _ => keepsE_pure_true

theorem keepsE_undoE {α : Type} {Q : α → Prop} {h : Here} {x : Exec α} (hx : KeepsE κ Q x) :
    KeepsE κ Q (undoE h x) := by
  refine ⟨fun {s t a} hs hr => ?_, fun {s t} hs hr => ?_⟩ <;> unfold undoE at hr <;> rw [StateT.run] at hr <;>
    split at hr
  · next e =>
    cases hr
    exact hx.ok hs e
  · cases hr
  · cases hr
  · next e =>
    cases hr
    exact keeps_undoPops (hx.stop hs e)

theorem keepsE_readSrcsE {h : Here} {m : Mask} {os : List (Opnd × Nat)} :
    KeepsE κ (fun _ => True) (readSrcsE h m os) := by
  unfold readSrcsE
  split
  · exact keepsE_undoE keepsE_readListE
  · exact keepsE_readListE

theorem keepsE_runLanes {h : Here} {g : Guard} {d : Opnd} {dn : Nat} {srcs : List (Opnd × Nat)}
    {f : Nat → List Nat → Nat × FlagSet} : KeepsE κ (fun _ => True) (runLanes h g d dn srcs f) := by
  unfold runLanes
  dsimp only
  split
  · exact keepsE_nextE
  · exact keepsE_bind keepsE_readSrcsE (fun _ _ => keepsE_bind keepsE_updCrewE (fun _ _ => keepsE_nextE))

theorem keepsE_runPred {h : Here} {g : Guard} {pd : Nat} {srcs : List (Opnd × Nat)}
    {f : Nat → List Nat → Bool × FlagSet} : KeepsE κ (fun _ => True) (runPred h g pd srcs f) := by
  unfold runPred
  dsimp only
  split
  · exact keepsE_nextE
  · exact keepsE_bind keepsE_readSrcsE (fun _ _ => keepsE_bind keepsE_updCrewE (fun _ _ => keepsE_nextE))

theorem keepsE_intBody {x : IntOp} {f : Int → Int → Int} {h : Here} : KeepsE κ (fun _ => True) (intBody x f h) := by
  unfold intBody
  dsimp only
  exact keepsE_runLanes

theorem stays_execIadd {x : IntOp} (hs : Keeps κ s) : Stays κ (execIadd x s) := by
  unfold execIadd
  exact stays_issueWord hs (fun _ => keepsE_intBody)

theorem stays_execIsub {x : IntOp} (hs : Keeps κ s) : Stays κ (execIsub x s) := by
  unfold execIsub
  exact stays_issueWord hs (fun _ => keepsE_intBody)

theorem stays_execImul {x : IntOp} (hs : Keeps κ s) : Stays κ (execImul x s) := by
  unfold execImul
  exact stays_issueWord hs (fun _ => keepsE_intBody)

theorem stays_execImulhi {x : IntOp} (hs : Keeps κ s) : Stays κ (execImulhi x s) := by
  unfold execImulhi
  exact stays_issueWord hs (fun _ => keepsE_intBody)

theorem stays_execImin {x : IntOp} (hs : Keeps κ s) : Stays κ (execImin x s) := by
  unfold execImin
  exact stays_issueWord hs (fun _ => keepsE_intBody)

theorem stays_execImax {x : IntOp} (hs : Keeps κ s) : Stays κ (execImax x s) := by
  unfold execImax
  exact stays_issueWord hs (fun _ => keepsE_intBody)

theorem stays_execIaddc {x : IaddcOp} (hs : Keeps κ s) : Stays κ (execIaddc x s) := by
  unfold execIaddc
  dsimp only
  exact stays_issueWord hs (fun _ => .ite keepsE_nextE (keepsE_bind keepsE_readSrcsE (fun _ _ =>
    keepsE_bind keepsE_updCrewE (fun _ _ => keepsE_nextE))))

theorem stays_execImad {x : Int3Op} (hs : Keeps κ s) : Stays κ (execImad x s) := by
  unfold execImad
  dsimp only
  exact stays_issueWord hs (fun _ => keepsE_runLanes)

theorem stays_execImadw {x : Int3Op} (hs : Keeps κ s) : Stays κ (execImadw x s) := by
  unfold execImadw
  exact stays_issueWord hs (fun _ => keepsE_runLanes)

theorem stays_execIabs {x : IabsOp} (hs : Keeps κ s) : Stays κ (execIabs x s) := by
  unfold execIabs
  dsimp only
  exact stays_issueWord hs (fun _ => keepsE_runLanes)

theorem keepsE_logicBody {x : LogicOp} {f : Nat → Nat → Nat} {h : Here} :
    KeepsE κ (fun _ => True) (logicBody x f h) := by
  unfold logicBody
  dsimp only
  exact keepsE_runLanes

theorem stays_execAnd {x : LogicOp} (hs : Keeps κ s) : Stays κ (execAnd x s) := by
  unfold execAnd
  exact stays_issueWord hs (fun _ => keepsE_logicBody)

theorem stays_execOr {x : LogicOp} (hs : Keeps κ s) : Stays κ (execOr x s) := by
  unfold execOr
  exact stays_issueWord hs (fun _ => keepsE_logicBody)

theorem stays_execXor {x : LogicOp} (hs : Keeps κ s) : Stays κ (execXor x s) := by
  unfold execXor
  exact stays_issueWord hs (fun _ => keepsE_logicBody)

theorem stays_execAndn {x : LogicOp} (hs : Keeps κ s) : Stays κ (execAndn x s) := by
  unfold execAndn
  exact stays_issueWord hs (fun _ => keepsE_logicBody)

theorem stays_execOrn {x : LogicOp} (hs : Keeps κ s) : Stays κ (execOrn x s) := by
  unfold execOrn
  exact stays_issueWord hs (fun _ => keepsE_logicBody)

theorem keepsE_shiftBody {x : LogicOp} {f : Nat → Nat → Nat → Nat} {h : Here} :
    KeepsE κ (fun _ => True) (shiftBody x f h) := by
  unfold shiftBody
  dsimp only
  exact keepsE_runLanes

theorem stays_execShl {x : LogicOp} (hs : Keeps κ s) : Stays κ (execShl x s) := by
  unfold execShl
  exact stays_issueWord hs (fun _ => keepsE_shiftBody)

theorem stays_execShr {x : LogicOp} (hs : Keeps κ s) : Stays κ (execShr x s) := by
  unfold execShr
  exact stays_issueWord hs (fun _ => keepsE_shiftBody)

theorem stays_execSar {x : LogicOp} (hs : Keeps κ s) : Stays κ (execSar x s) := by
  unfold execSar
  exact stays_issueWord hs (fun _ => keepsE_shiftBody)

theorem stays_execRotl {x : LogicOp} (hs : Keeps κ s) : Stays κ (execRotl x s) := by
  unfold execRotl
  exact stays_issueWord hs (fun _ => keepsE_shiftBody)

theorem stays_execFshf {x : Op3F} (hs : Keeps κ s) : Stays κ (execFshf x s) := by
  unfold execFshf
  exact stays_issueWord hs (fun _ => keepsE_runLanes)

theorem stays_execBfx {x : BfxOp} (hs : Keeps κ s) : Stays κ (execBfx x s) := by
  unfold execBfx
  exact stays_issueWord hs (fun _ => keepsE_runLanes)

theorem stays_execBfi {x : Op3} (hs : Keeps κ s) : Stays κ (execBfi x s) := by
  unfold execBfi
  exact stays_issueWord hs (fun _ => keepsE_runLanes)

theorem stays_execPrmt {x : Op3} (hs : Keeps κ s) : Stays κ (execPrmt x s) := by
  unfold execPrmt
  dsimp only
  exact stays_issueWord hs (fun _ => keepsE_runLanes)

theorem keepsE_oneBody {x : Op1} {f : Nat → Nat} {h : Here} : KeepsE κ (fun _ => True) (oneBody x f h) := by
  unfold oneBody
  exact keepsE_runLanes

theorem stays_execPopc {x : Op1} (hs : Keeps κ s) : Stays κ (execPopc x s) := by
  unfold execPopc
  exact stays_issueWord hs (fun _ => keepsE_oneBody)

theorem stays_execClz {x : Op1} (hs : Keeps κ s) : Stays κ (execClz x s) := by
  unfold execClz
  exact stays_issueWord hs (fun _ => keepsE_oneBody)

theorem stays_execCtz {x : Op1} (hs : Keeps κ s) : Stays κ (execCtz x s) := by
  unfold execCtz
  exact stays_issueWord hs (fun _ => keepsE_oneBody)

theorem stays_execBrev {x : Op1} (hs : Keeps κ s) : Stays κ (execBrev x s) := by
  unfold execBrev
  exact stays_issueWord hs (fun _ => keepsE_oneBody)

theorem stays_execLea {x : LeaOp} (hs : Keeps κ s) : Stays κ (execLea x s) := by
  unfold execLea
  dsimp only
  exact stays_issueWord hs (fun _ => keepsE_runLanes)

theorem stays_execIsetp {x : IsetpOp} (hs : Keeps κ s) : Stays κ (execIsetp x s) := by
  unfold execIsetp
  dsimp only
  exact stays_issueWord hs (fun _ => keepsE_runPred)

theorem stays_execSel {x : SelOp} (hs : Keeps κ s) : Stays κ (execSel x s) := by
  unfold execSel
  exact stays_issueWord hs (fun _ => keepsE_runLanes)

theorem stays_execMov {x : Op1F} (hs : Keeps κ s) : Stays κ (execMov x s) := by
  unfold execMov
  dsimp only
  exact stays_issueWord hs (fun _ => keepsE_runLanes)

theorem keepsE_fpBody {x : FpOp} {o : FOp} {h : Here} : KeepsE κ (fun _ => True) (fpBody x o h) := by
  unfold fpBody
  exact keepsE_runLanes

theorem stays_execFadd {x : FpOp} (hs : Keeps κ s) : Stays κ (execFadd x s) := by
  unfold execFadd
  exact stays_issueWord hs (fun _ => keepsE_fpBody)

theorem stays_execFsub {x : FpOp} (hs : Keeps κ s) : Stays κ (execFsub x s) := by
  unfold execFsub
  exact stays_issueWord hs (fun _ => keepsE_fpBody)

theorem stays_execFmul {x : FpOp} (hs : Keeps κ s) : Stays κ (execFmul x s) := by
  unfold execFmul
  exact stays_issueWord hs (fun _ => keepsE_fpBody)

theorem stays_execFmin {x : FpOp} (hs : Keeps κ s) : Stays κ (execFmin x s) := by
  unfold execFmin
  exact stays_issueWord hs (fun _ => keepsE_fpBody)

theorem stays_execFmax {x : FpOp} (hs : Keeps κ s) : Stays κ (execFmax x s) := by
  unfold execFmax
  exact stays_issueWord hs (fun _ => keepsE_fpBody)

theorem stays_execFfma {x : Fp3Op} (hs : Keeps κ s) : Stays κ (execFfma x s) := by
  unfold execFfma
  exact stays_issueWord hs (fun _ => keepsE_runLanes)

theorem stays_execFsetp {x : FsetpOp} (hs : Keeps κ s) : Stays κ (execFsetp x s) := by
  unfold execFsetp
  dsimp only
  exact stays_issueWord hs (fun _ => keepsE_runPred)

theorem stays_execFclass {x : Op1} (hs : Keeps κ s) : Stays κ (execFclass x s) := by
  unfold execFclass
  exact stays_issueWord hs (fun _ => keepsE_oneBody)

theorem keepsE_sfuBody {x : SfuOp} {f : Nat → Nat × FlagSet} {h : Here} : KeepsE κ (fun _ => True) (sfuBody x f h) := by
  unfold sfuBody
  exact keepsE_runLanes

theorem stays_execFrcp {x : SfuOp} (hs : Keeps κ s) : Stays κ (execFrcp x s) := by
  unfold execFrcp
  exact stays_issueWord hs (fun _ => keepsE_sfuBody)

theorem stays_execFrsq {x : SfuOp} (hs : Keeps κ s) : Stays κ (execFrsq x s) := by
  unfold execFrsq
  exact stays_issueWord hs (fun _ => keepsE_sfuBody)

theorem stays_execFsqrt {x : SfuOp} (hs : Keeps κ s) : Stays κ (execFsqrt x s) := by
  unfold execFsqrt
  exact stays_issueWord hs (fun _ => keepsE_sfuBody)

theorem stays_execFex2 {x : SfuOp} (hs : Keeps κ s) : Stays κ (execFex2 x s) := by
  unfold execFex2
  exact stays_issueWord hs (fun _ => keepsE_sfuBody)

theorem stays_execFlg2 {x : SfuOp} (hs : Keeps κ s) : Stays κ (execFlg2 x s) := by
  unfold execFlg2
  exact stays_issueWord hs (fun _ => keepsE_sfuBody)

theorem stays_execFsin {x : SfuOp} (hs : Keeps κ s) : Stays κ (execFsin x s) := by
  unfold execFsin
  exact stays_issueWord hs (fun _ => keepsE_sfuBody)

theorem stays_execFcos {x : SfuOp} (hs : Keeps κ s) : Stays κ (execFcos x s) := by
  unfold execFcos
  exact stays_issueWord hs (fun _ => keepsE_sfuBody)

theorem stays_execFtanh {x : SfuOp} (hs : Keeps κ s) : Stays κ (execFtanh x s) := by
  unfold execFtanh
  exact stays_issueWord hs (fun _ => keepsE_sfuBody)

theorem keepsE_hBody {x : HOp} {o : FOp} {h : Here} : KeepsE κ (fun _ => True) (hBody x o h) := by
  unfold hBody
  dsimp only
  exact keepsE_runLanes

theorem stays_execHadd2 {x : HOp} (hs : Keeps κ s) : Stays κ (execHadd2 x s) := by
  unfold execHadd2
  exact stays_issueWord hs (fun _ => keepsE_hBody)

theorem stays_execHmul2 {x : HOp} (hs : Keeps κ s) : Stays κ (execHmul2 x s) := by
  unfold execHmul2
  exact stays_issueWord hs (fun _ => keepsE_hBody)

theorem stays_execHfma2 {x : H3Op} (hs : Keeps κ s) : Stays κ (execHfma2 x s) := by
  unfold execHfma2
  dsimp only
  exact stays_issueWord hs (fun _ => keepsE_runLanes)

theorem stays_execHmnmx2 {x : HmOp} (hs : Keeps κ s) : Stays κ (execHmnmx2 x s) := by
  unfold execHmnmx2
  dsimp only
  exact stays_issueWord hs (fun _ => keepsE_runLanes)

theorem stays_execCvt {x : CvtOp} (hs : Keeps κ s) : Stays κ (execCvt x s) := by
  unfold execCvt
  dsimp only
  exact stays_issueWord hs (fun _ => keepsE_runLanes)

theorem stays_execCvtq {x : CvtqOp} (hs : Keeps κ s) : Stays κ (execCvtq x s) := by
  unfold execCvtq
  dsimp only
  exact stays_issueWord hs (fun _ => keepsE_runLanes)

theorem stays_execCvtdq {x : CvtdqOp} (hs : Keeps κ s) : Stays κ (execCvtdq x s) := by
  unfold execCvtdq
  dsimp only
  exact stays_issueWord hs (fun _ => keepsE_runLanes)

theorem stays_execPack {x : PackOp} (hs : Keeps κ s) : Stays κ (execPack x s) := by
  unfold execPack
  dsimp only
  exact stays_issueWord hs (fun _ => keepsE_runLanes)

theorem stays_execUnpk {x : UnpkOp} (hs : Keeps κ s) : Stays κ (execUnpk x s) := by
  unfold execUnpk
  exact stays_issueWord hs (fun _ => keepsE_runLanes)

theorem stays_execLutx {x : LutxOp} (hs : Keeps κ s) : Stays κ (execLutx x s) := by
  unfold execLutx
  dsimp only
  exact stays_issueWord hs (fun _ => keepsE_runLanes)

theorem keepsE_idpBody {w n : Nat} {x : IdpOp} {h : Here} : KeepsE κ (fun _ => True) (idpBody w n x h) := by
  unfold idpBody
  exact keepsE_runLanes

theorem stays_execIdp4 {x : IdpOp} (hs : Keeps κ s) : Stays κ (execIdp4 x s) := by
  unfold execIdp4
  exact stays_issueWord hs (fun _ => keepsE_idpBody)

theorem stays_execIdp8 {x : IdpOp} (hs : Keeps κ s) : Stays κ (execIdp8 x s) := by
  unfold execIdp8
  exact stays_issueWord hs (fun _ => keepsE_idpBody)

theorem stays_execFdp4 {x : Fdp4Op} (hs : Keeps κ s) : Stays κ (execFdp4 x s) := by
  unfold execFdp4
  exact stays_issueWord hs (fun _ => keepsE_runLanes)

theorem stays_execFdp2 {x : Op3F} (hs : Keeps κ s) : Stays κ (execFdp2 x s) := by
  unfold execFdp2
  exact stays_issueWord hs (fun _ => keepsE_runLanes)

end Sys2Proof
end

section
/-! # Invariants: the effects of an engine beside the crews. -/

namespace Sys2Proof

open Machine

set_option Elab.async false

/-- Effects of an engine that keep a claim, with a fact of their value. -/
structure KeepsM {α : Type} (κ : Claim) (Q : α → Prop) (x : EngM α) : Prop where
  ok : ∀ {s t a}, Keeps κ s → x.run s = .ok (a, t) → Q a ∧ Keeps κ t
  again : ∀ {s t}, Keeps κ s → x.run s = .error (.again t) → Keeps κ t

section
variable {κ : Claim} {s : State} {α β : Type} {Q : α → Prop} {R : β → Prop} {x : EngM α} {f : α → EngM β}

theorem runM_bind (x : EngM α) (f : α → EngM β) (s : State) :
    (x >>= f).run s = match x.run s with
      | .ok (a, t) => (f a).run t
      | .error e => .error e := by
  simp only [bind, StateT.bind, StateT.run, Except.bind]
  cases x s <;> rfl

theorem keepsM_bind (hx : KeepsM κ Q x) (hf : ∀ a, Q a → KeepsM κ R (f a)) : KeepsM κ R (x >>= f) := by
  refine ⟨fun {s t b} hs hr => ?_, fun {s t} hs hr => ?_⟩ <;> rw [runM_bind] at hr <;> split at hr
  · next a u hu => exact (hf a (hx.ok hs hu).1).ok (hx.ok hs hu).2 hr
  · cases hr
  · next a u hu => exact (hf a (hx.ok hs hu).1).again (hx.ok hs hu).2 hr
  · next u hu =>
    cases hr
    exact hx.again hs hu

theorem keepsM_pure {a : α} (ha : Q a) : KeepsM κ Q (pure a) := by
  refine ⟨fun hs hr => ?_, fun _ hr => ?_⟩ <;> cases hr
  exact ⟨ha, hs⟩

theorem keepsM_pure_true {a : α} : KeepsM κ (fun _ => True) (pure a) := keepsM_pure trivial

theorem keepsM_getM : KeepsM κ (Keeps κ) getM := by
  refine ⟨fun hs hr => ?_, fun _ hr => ?_⟩ <;> cases hr
  exact ⟨hs, hs⟩

theorem keepsM_modifyM {g : State → State} (hg : ∀ s, Keeps κ s → Keeps κ (g s)) :
    KeepsM κ (fun _ => True) (modifyM g) := by
  refine ⟨fun hs hr => ?_, fun _ hr => ?_⟩ <;> cases hr
  exact ⟨trivial, hg _ hs⟩

theorem keepsM_faultM {v : Xf} {kind : Nat} : KeepsM κ Q (faultM v kind) := by
  refine ⟨fun _ hr => ?_, fun _ hr => ?_⟩ <;> cases hr

theorem keepsM_againM {g : State → State} (hg : ∀ s, Keeps κ s → Keeps κ (g s)) : KeepsM κ Q (againM g) := by
  refine ⟨fun _ hr => ?_, fun hs hr => ?_⟩ <;> cases hr
  exact hg _ hs

theorem KeepsM.ite {p : Prop} [Decidable p] {y : EngM α} (hx : KeepsM κ Q x) (hy : KeepsM κ Q y) :
    KeepsM κ Q (if p then x else y) := by
  split
  · exact hx
  · exact hy

theorem keepsM_guard {p : Prop} [Decidable p] {y : EngM Unit} {g : Unit → EngM β} (hy : KeepsM κ (fun _ => True) y)
    (hg : ∀ u, KeepsM κ R (g u)) : KeepsM κ R (if p then y >>= g else g ()) := .ite (keepsM_bind hy fun u _ => hg u)
      (hg ())

theorem keepsM_mapM {γ : Type} {g : γ → EngM α} (hg : ∀ a, KeepsM κ (fun _ => True) (g a)) (l : List γ) :
    KeepsM κ (fun _ => True) (l.mapM g) := by
  induction l with
  | nil => exact keepsM_pure trivial
  | cons a l ih =>
    rw [List.mapM_cons]
    exact keepsM_bind (hg a) fun _ _ => keepsM_bind ih fun _ _ => keepsM_pure trivial

theorem keepsM_forM {γ : Type} {g : γ → EngM PUnit} (hg : ∀ a, KeepsM κ (fun _ => True) (g a)) (l : List γ) :
    KeepsM κ (fun _ => True) (l.forM g) := by
  induction l with
  | nil => exact keepsM_pure trivial
  | cons a l ih => exact keepsM_bind (hg a) fun _ _ => ih

theorem keepsM_touchM {die kind : Nat} {t : State → Touch} (ht : ∀ s, Keeps κ s → TouchOk κ (t s)) :
    KeepsM κ (fun _ => True) (touchM die kind t) := by
  refine ⟨fun {s u a} hs hr => ?_, fun {s u} hs hr => ?_⟩ <;> unfold touchM at hr <;> rw [StateT.run] at hr <;>
    split at hr
  · next e =>
    cases hr
    exact ⟨trivial, (ht s hs).of_ok e⟩
  · cases hr
  · cases hr
  · cases hr
  · cases hr
  · next e =>
    cases hr
    exact (ht s hs).of_wait e
  · cases hr
    exact keeps_startWalk hs
  · cases hr

theorem keepsM_engM {blk : Block} {kind : Nat} {f : State → Except EngErr (α × State)}
    (hf : ∀ s a t, Keeps κ s → f s = .ok (a, t) → Keeps κ t) : KeepsM κ (fun _ => True) (engM blk kind f) := by
  refine ⟨fun {s u a} hs hr => ?_, fun {s u} hs hr => ?_⟩ <;> unfold engM at hr <;> rw [StateT.run] at hr <;>
    split at hr
  · next e =>
    cases hr
    exact ⟨trivial, hf _ _ _ hs e⟩
  · cases hr
  · cases hr
  · cases hr
  · cases hr
  · cases hr
    exact keeps_engAgain hs

end

end Sys2Proof
end

section
/-! # Invariants: fetches, objects, copies, messages, armatures and control flow. -/

namespace Sys2Proof

open Machine

set_option Elab.async false

variable {κ : Claim} {s : State}

theorem keeps_settleParked {b : Nat} (hs : Keeps κ s) : Keeps κ (settleParked s b) := by
  unfold settleParked
  exact keeps_updBlock hs

theorem keeps_fetchStop {h : Here} {f : Fetched} (hs : Keeps κ s) : Keeps κ (fetchStop s h f) := by
  unfold fetchStop
  split
  · exact hs
  · exact keeps_takeTrap hs
  · exact keeps_takeFault hs
  · split
    · next e =>
      exact keeps_waitSlot ((keeps_startWalk hs).snd_of e)
  · exact keeps_waitSlot (keeps_joinQueue hs)
  · exact keeps_waitSlot hs
  · exact keeps_awaitRemote hs

theorem keeps_decodeStop {h : Here} {d : Decoded} (hs : Keeps κ s) : Keeps κ (decodeStop s h d) := by
  unfold decodeStop
  split
  · exact hs
  · exact keeps_takeTrap hs
  · exact keeps_takeTrap hs

theorem keeps_writeBar {core off : Nat} {b : Barrier} (hs : Keeps κ s) : Keeps κ (writeBar s core off b) := by
  unfold writeBar
  exact keeps_writePlace hs

theorem keeps_creditBar {core off arrivals bytes t : Nat} (hs : Keeps κ s) :
    Keeps κ (creditBar s core off arrivals bytes t) := by
  unfold creditBar
  dsimp only
  split
  · exact hs
  · exact (keeps_writeBar hs).set_bars

theorem keeps_markWait {core off c : Nat} {on : Bool} (hs : Keeps κ s) : Keeps κ (markWait s core off c on) := by
  unfold markWait
  dsimp only
  split
  · exact hs
  · exact keeps_writeBar hs

theorem keeps_postQref {qi : QiRef} {ltag : Word} {addr code pasid : Nat} (hs : Keeps κ s) :
    Keeps κ (postQref s qi ltag addr code pasid) := by
  unfold postQref
  exact keeps_postRec hs

theorem keeps_irqRefused {c : Ctx} (hs : Keeps κ s) : Keeps κ (irqRefused s c) := by
  unfold irqRefused
  split
  · next e =>
    split
    · next e1 =>
      exact keeps_postQref ((keeps_freeChoice ((keeps_freeChoice hs).snd_of e)).snd_of e1)

theorem keeps_unmark {h : Here} {o : WaitObj} (hs : Keeps κ s) : Keeps κ (unmark s h o) := by
  unfold unmark
  split
  · split
    · exact hs
    · exact keeps_markWait hs
  · exact hs

theorem keeps_waitWins {h : Here} {o : WaitObj} (hs : Keeps κ s) : Keeps κ (waitWins s h o) := by
  unfold waitWins
  dsimp only
  split
  · exact keeps_acquireAt (by
        split
        · exact keeps_updCrew hs
        · exact hs)
  · split
    · exact keeps_updCrew hs
    · exact hs

theorem keeps_endWait {h : Here} {o : WaitObj} {pd : Nat} {ok : Bool} (hs : Keeps κ s) :
    Keeps κ (endWait s h o pd ok) := by
  unfold endWait
  dsimp only
  exact keeps_nextWord (keeps_updCrew (.ite (keeps_waitWins (keeps_unmark hs)) (keeps_unmark hs)))

theorem keepsM_placeM {blk : Block} {va n : Nat} {wr : Bool} {kind : Nat} :
    KeepsM κ (fun _ => True) (placeM blk va n wr kind) := by
  unfold placeM
  dsimp only
  split
  · split
    · exact keepsM_faultM
    · exact keepsM_bind (keepsM_touchM (fun _ h => touchOk_touchStash h)) (fun _ _ => keepsM_pure_true)
  · exact keepsM_bind (keepsM_touchM (fun _ h => touchOk_touchStash h)) (fun _ _ => keepsM_pure_true)
  · exact keepsM_pure_true
  · exact keepsM_faultM

theorem keepsM_readM {blk : Block} {va n kind : Nat} {ag : Nat} :
    KeepsM κ (fun _ => True) (readM blk va n kind ag) := by
  unfold readM
  exact keepsM_bind keepsM_placeM (fun _ _ => by
      split
      · exact keepsM_bind keepsM_getM (fun _ _ => keepsM_pure_true)
      · exact keepsM_engM (fun _ _ _ h1 h2 => keeps_engRead h1 h2))

theorem keepsM_readySegM {ag : Nat} {blk : Block} {x : Seg} {kind : Nat} :
    KeepsM κ (fun _ => True) (readySegM ag blk x kind) := by
  unfold readySegM
  dsimp only
  exact keepsM_bind keepsM_getM (fun _ h => .ite (.ite keepsM_faultM keepsM_pure_true) (.ite (keepsM_againM
    (fun _ h1 => keeps_id h1)) (.ite (keepsM_againM (fun _ h1 => keeps_throttleTo h1)) (by
      split
      · next e =>
        exact keepsM_againM (fun _ _ => (keeps_grab h).snd_of e)
      · next e =>
        exact keepsM_modifyM (fun _ _ => (keeps_grab h).snd_of e)))))

theorem keepsM_segsM {blk : Block} {va n kind : Nat} : KeepsM κ (fun _ => True) (segsM blk va n kind) := by
  unfold segsM
  refine keepsM_bind keepsM_placeM fun _ _ => ?_
  split
  · exact keepsM_pure_true
  · refine keepsM_engM fun s _ _ hs e => ?_
    split at e
    · cases e
    · cases e
      exact hs

theorem keepsM_readyM {blk : Block} {va n kind : Nat} {ag : Nat} :
    KeepsM κ (fun _ => True) (readyM blk va n kind ag) := by
  unfold readyM
  exact keepsM_bind keepsM_segsM (fun _ _ => keepsM_forM (fun _ => keepsM_readySegM) _)

theorem keepsM_of_goes_on {α : Type} {x : EngM α} (hx : ∀ s, Keeps κ s → ∃ a t, x.run s = .ok (a, t) ∧ Keeps κ t) :
    KeepsM κ (fun _ => True) x := by
  refine ⟨fun hs hr => ?_, fun hs hr => ?_⟩ <;> obtain ⟨b, u, hu, hk⟩ := hx _ hs <;> rw [hu] at hr <;> cases hr
  exact ⟨trivial, hk⟩

theorem keepsM_writeM {blk : Block} {va kind : Nat} {bs : List Byte} {ag : Nat} :
    KeepsM κ (fun _ => True) (writeM blk va kind bs ag) := by
  unfold writeM
  refine keepsM_bind keepsM_placeM fun _ _ => ?_
  split
  · exact keepsM_of_goes_on fun s hs => ⟨_, _, rfl, keeps_stashPut hs⟩
  · exact keepsM_engM fun _ _ _ hs e => keeps_engWrite hs e

theorem keepsM_maskM {blk : Block} {d : TileDesc} {have' : List Byte} {n : Nat} :
    KeepsM κ (fun _ => True) (maskM blk d have' n) := by
  induction n generalizing have' with
  | zero => exact keepsM_pure_true
  | succ k ih =>
    have hread : KeepsM κ (fun _ => True) (readM blk ((d.aux + have'.length) % 2 ^ 64) 1 4
      (engineAgent blk)) := keepsM_readM
    refine ⟨fun {s u a} hs hr => ?_, fun {s u} hs hr => ?_⟩ <;> unfold maskM at hr <;> rw [StateT.run] at hr <;>
      split at hr
    · next e => exact ih.ok (hread.ok hs e).2 hr
    · cases hr
      exact ⟨trivial, hs⟩
    · cases hr
    · next e => exact ih.again (hread.ok hs e).2 hr
    · cases hr
    · next e =>
      cases hr
      exact hread.again hs e

theorem keepsM_presentM {blk : Block} {c : Copy} {d : TileDesc} {i : Nat} :
    KeepsM κ (fun _ => True) (presentM blk c d i) := by
  unfold presentM
  split
  · exact keepsM_pure_true
  · split
    · exact keepsM_pure_true
    · exact keepsM_bind keepsM_readM (fun _ _ => .ite keepsM_pure_true (keepsM_bind keepsM_readM (fun _ _ =>
        keepsM_againM (fun _ h2 => keeps_id h2))))

theorem keepsM_elemM {blk : Block} {c : Copy} {i : Nat} : KeepsM κ (fun _ => True) (elemM blk c i) := by
  unfold elemM
  dsimp only
  split
  · exact keepsM_bind keepsM_presentM (fun _ _ => by
        split
        · split
          · exact keepsM_bind keepsM_pure_true (fun _ _ => keepsM_pure_true)
          · exact keepsM_bind keepsM_readM (fun _ _ => keepsM_pure_true)
        · exact keepsM_pure_true)
  · exact keepsM_bind keepsM_pure_true (fun _ _ => by
        split
        · split
          · exact keepsM_bind keepsM_pure_true (fun _ _ => keepsM_pure_true)
          · exact keepsM_bind keepsM_readM (fun _ _ => keepsM_pure_true)
        · exact keepsM_pure_true)

theorem keepsM_residualM {blk : Block} {c : Copy} {d : TileDesc} {i : Nat} :
    KeepsM κ (fun _ => True) (residualM blk c d i) := by
  unfold residualM
  split
  · split
    · exact keepsM_pure_true
    · exact keepsM_readM
  · exact keepsM_readM

theorem keepsM_destM {blk : Block} {va n : Nat} : KeepsM κ (fun _ => True) (destM blk va n) := by
  unfold destM
  exact keepsM_bind keepsM_segsM (fun _ _ => keepsM_bind keepsM_getM (fun _ _ => by
      split
      · exact keepsM_faultM
      · exact keepsM_pure_true))

theorem keepsM_elementM {blk : Block} {c : Copy} {i : Nat} : KeepsM κ (fun _ => True) (elementM blk c i) := by
  unfold elementM
  dsimp only
  exact keepsM_bind keepsM_elemM (fun _ _ => by
      split
      · exact keepsM_pure_true
      · split
        · exact .ite (keepsM_bind keepsM_pure_true (fun _ _ => keepsM_guard keepsM_destM (fun _ => keepsM_pure_true)))
            (keepsM_bind keepsM_residualM (fun _ _ => keepsM_guard keepsM_destM (fun _ => keepsM_pure_true)))
        · split
          · exact keepsM_pure_true
          · split
            · exact keepsM_pure_true
            · exact keepsM_bind keepsM_readM (fun _ _ => keepsM_pure_true))

theorem keepsM_tryM {α : Type} {Q : α → Prop} {m : EngM α} (hm : KeepsM κ Q m) :
    KeepsM κ (fun _ => True) (Machine.tryM m) := by
  refine ⟨fun {s u a} hs hr => ?_, fun {s u} hs hr => ?_⟩ <;> unfold Machine.tryM at hr <;>
    rw [StateT.run] at hr <;> split at hr
  · next e =>
    cases hr
    exact ⟨trivial, (hm.ok hs e).2⟩
  · cases hr
    exact ⟨trivial, hs⟩
  · cases hr
  · cases hr
  · cases hr
  · next e =>
    cases hr
    exact hm.again hs e

theorem keepsM_elementsM {blk : Block} {c : Copy} {is : List Nat} : KeepsM κ (fun _ => True) (elementsM blk c is) := by
  unfold elementsM
  exact keepsM_mapM (fun _ => keepsM_bind (keepsM_tryM keepsM_elementM) (fun _ _ => keepsM_pure_true)) _

theorem keepsM_unitM {blk : Block} {w : CopyWork} {u : Nat} {l : Except (Xf × Nat) Landing} :
    KeepsM κ (fun _ => True) (unitM blk w u l) := by
  unfold unitM
  split
  · exact keepsM_pure_true
  · split
    · exact keepsM_bind (keepsM_tryM keepsM_destM) (fun _ _ => keepsM_pure_true)

theorem keeps_creditLanded {blk : Block} {c : Copy} {n : Nat} (hs : Keeps κ s) : Keeps κ (creditLanded s blk c n) := by
  unfold creditLanded
  split
  · exact keeps_creditBar hs
  · exact hs

theorem keeps_writeRecord {blk : Block} {c : Copy} (hs : Keeps κ s) : Keeps κ (writeRecord s blk c) := by
  unfold writeRecord
  split
  · exact hs
  · split
    · exact keeps_writePlace hs
    · exact hs

theorem keeps_landNow {blk : Block} {c : Copy} {ls : List (Nat × Landing)} (hs : Keeps κ s) :
    Keeps κ (landNow s blk c ls).2 := by
  unfold landNow
  split
  · dsimp only
    exact hs
  · split
    · next e1 =>
      dsimp only
      exact (keeps_freeChoice hs).snd_of e1

theorem keepsM_writeRunsM {blk : Block} {c : Copy} {rs : List (Nat × List Byte)} :
    KeepsM κ (fun _ => True) (writeRunsM blk c rs) := by
  induction rs generalizing c with
  | nil => exact keepsM_pure_true
  | cons r q ih => exact keepsM_bind keepsM_writeM fun _ _ => ih

theorem keepsM_writeResidualsM {blk : Block} {c : Copy} {rs : List (Nat × List Byte)} :
    KeepsM κ (fun _ => True) (writeResidualsM blk c rs) := by
  induction rs generalizing c with
  | nil => exact keepsM_pure_true
  | cons r q ih => exact keepsM_bind keepsM_writeM fun _ _ => ih

theorem keepsM_landLineM {blk : Block} {c : Copy} {us : List Nat} : KeepsM κ (fun _ => True) (landLineM blk c us) := by
  unfold landLineM
  dsimp only
  exact keepsM_bind keepsM_elementsM (fun _ _ => keepsM_bind (keepsM_mapM (fun _ => keepsM_unitM) _) (fun _ _ =>
    keepsM_bind keepsM_getM (fun _ h2 => keepsM_bind (keepsM_modifyM (fun _ _ => keeps_landNow h2)) (fun _ _ =>
    keepsM_bind (keepsM_forM (fun _ => keepsM_readyM) _) (fun _ _ => keepsM_bind keepsM_writeRunsM (fun _ _ =>
    keepsM_bind keepsM_writeResidualsM (fun _ _ => keepsM_bind (keepsM_modifyM (fun _ h7 => keeps_creditLanded (.ite
    (keeps_writeRecord h7) h7))) (fun _ _ => keepsM_pure_true))))))))

theorem keepsM_chunkBitM {blk : Block} {c : Copy} {d : TileDesc} {k : Nat} :
    KeepsM κ (fun _ => True) (chunkBitM blk c d k) := by
  unfold chunkBitM
  dsimp only
  refine keepsM_bind keepsM_readM fun _ _ => keepsM_bind keepsM_readyM fun _ _ => keepsM_bind keepsM_writeM fun _ _ => ?_
  refine keepsM_bind (keepsM_modifyM fun _ h3 => ?_) fun _ _ => keepsM_pure_true
  split
  · exact h3
  · exact (keeps_markBytes (keeps_atomicMarks h3)).set_bits

theorem keepsM_setChunks {blk : Block} {c : Copy} {ks : List Nat} : KeepsM κ (fun _ => True) (setChunks blk c ks) := by
  induction ks generalizing c with
  | nil =>
    unfold setChunks
    exact keepsM_pure_true
  | cons k r ih =>
    unfold setChunks
    split
    · next k' r' d hk _ =>
      cases hk
      have hbit : KeepsM κ (fun _ => True) (chunkBitM blk c d k) := keepsM_chunkBitM
      refine keepsM_bind (Q := fun _ => True) ⟨fun {s u a} hs hr => ?_, fun {s u} hs hr => ?_⟩ fun _ _ => ih <;>
        rw [StateT.run] at hr <;> split at hr
      · next e =>
        cases hr
        exact ⟨trivial, (hbit.ok hs e).2⟩
      · cases hr
        exact ⟨trivial, hs⟩
      · cases hr
      · cases hr
      · cases hr
      · next e =>
        cases hr
        exact hbit.again hs e
    · exact keepsM_pure_true

theorem keeps_postOne {id : Nat} {blk : Block} {c : Copy} {f : CopyFault} (hs : Keeps κ s) :
    Keeps κ (postOne s id blk c f).2 := by
  unfold postOne
  dsimp only
  split
  · dsimp only
    exact keeps_postRec hs
  · dsimp only
    exact keeps_postAck hs

theorem keeps_postFaults {id : Nat} {blk : Block} {c : Copy} {fs : List CopyFault} (hs : Keeps κ s) :
    Keeps κ (postFaults s id blk c fs).2 := by
  induction fs generalizing s with
  | nil => exact hs
  | cons f r ih => exact ih (.ite_snd (keeps_postOne hs) hs)

theorem keeps_postCopies {b : Nat} (hs : Keeps κ s) : Keeps κ (postCopies s b) := by
  unfold postCopies
  dsimp only
  split
  · exact hs
  · exact keeps_foldl (fun _ _ h => (keeps_postFaults h).same) _ hs

theorem keeps_finishCopy {id : Nat} {c : Copy} (hs : Keeps κ s) : Keeps κ (finishCopy s id c) := by
  unfold finishCopy
  dsimp only
  exact keeps_later (keeps_updCrew hs.same)

theorem keeps_nextPiece {blk : Block} {c : Copy} {t : State} {w : Nat} (hs : Keeps κ s)
    (e : nextPiece s blk c = some (w, t)) : Keeps κ t := by
  unfold nextPiece at e
  dsimp only at e
  split at e
  · cases e
  · split at e
    · cases e
      exact keeps_freeChoice hs
    · cases e
      exact keeps_freeChoice hs

theorem keeps_copyNext {id : Nat} {blk : Block} {c : Copy} (hs : Keeps κ s) : Keeps κ (copyNext s id blk c) := by
  unfold copyNext
  dsimp only
  split
  · exact keeps_finishCopy (keeps_postFaults hs)
  · split
    · next e1 =>
      exact keeps_later (keeps_nextPiece (keeps_postFaults hs).same e1)
    · exact (keeps_postFaults hs).same

theorem keeps_rotated {us : List Nat} (hs : Keeps κ s) : Keeps κ (rotated s us).2 := by
  unfold rotated
  split
  · dsimp only
    exact hs
  · split
    · next e1 =>
      dsimp only
      exact (keeps_freeChoice hs).snd_of e1

theorem keepsM_maskForM {blk : Block} {c : Copy} {us : List Nat} : KeepsM κ (fun _ => True) (maskForM blk c us) := by
  unfold maskForM
  split
  · exact keepsM_pure_true
  · split
    · exact keepsM_pure_true
    · exact keepsM_bind keepsM_maskM (fun _ _ => keepsM_pure_true)

theorem keepsM_holdM {blk : Block} {c : Copy} {i : Nat} : KeepsM κ (fun _ => True) (holdM blk c i) := by
  have helem : KeepsM κ (fun _ => True) (elemM blk c i) := keepsM_elemM
  refine ⟨fun {s u a} hs hr => ?_, fun {s u} hs hr => ?_⟩ <;> unfold holdM at hr <;> rw [StateT.run] at hr <;>
    split at hr
  · next e =>
    cases hr
    exact ⟨trivial, (helem.ok hs e).2⟩
  · cases hr
    exact ⟨trivial, hs⟩
  · cases hr
  · cases hr
  · cases hr
  · next e =>
    cases hr
    exact helem.again hs e

theorem keepsM_landPieceM {blk : Block} {c : Copy} {us : List Nat} :
    KeepsM κ (fun _ => True) (landPieceM blk c us) := by
  unfold landPieceM
  dsimp only
  exact keepsM_bind keepsM_maskForM (fun _ _ => keepsM_bind keepsM_getM (fun _ _ => by
      split
      · exact keepsM_bind keepsM_holdM (fun _ _ => keepsM_setChunks)
      · exact .ite (keepsM_bind keepsM_pure_true (fun _ _ => keepsM_setChunks)) (keepsM_bind keepsM_landLineM
          (fun _ _ => keepsM_setChunks))))

theorem ends_execCopyLineLand {id piece : Nat} (hs : Keeps κ s) : Ends κ (execCopyLineLand id piece s) := by
  unfold execCopyLineLand
  split
  · exact ends_next hs
  · split
    · exact ends_next hs
    · dsimp only
      split
      · exact ends_next (keeps_later hs)
      · split
        · next e => exact ends_next (keeps_copyNext (keeps_dropWalkEnd (keepsM_landPieceM.ok (keeps_rotated hs) e).2))
        · next e => exact ends_next (keeps_later (keepsM_landPieceM.again (keeps_rotated hs) e))
        · exact ends_next (keeps_later (keeps_dropWalkEnd (keeps_rotated hs)))

theorem keeps_replayCopy {id token : Nat} (hs : Keeps κ s) : Keeps κ (replayCopy s id token) := by
  unfold replayCopy
  dsimp only
  split
  · exact hs
  · split
    · exact hs
    · exact keeps_later hs.same

theorem keeps_startCopy {h : Here} {n : Nat} {m : Mask} {w : CopyWork} (hs : Keeps κ s) :
    Keeps κ (startCopy s h n m w) := by
  unfold startCopy
  dsimp only
  split
  · next e =>
    exact keeps_later (keeps_nextPiece (keeps_freshId hs) e).same
  · exact keeps_freshId hs

theorem keeps_issueCopy {h : Here} {d : Opnd} {m : Mask} {w : CopyWork} (hs : Keeps κ s) :
    Keeps κ (issueCopy s h d m w) := by
  unfold issueCopy
  dsimp only
  split
  · exact keeps_updCrew (keeps_updCrew hs)
  · exact keeps_startCopy (keeps_updCrew hs)

theorem keepsE_copyRoomE {h : Here} : KeepsE κ (fun _ => True) (copyRoomE h) := by
  unfold copyRoomE
  exact keepsE_bind keepsE_getE (fun _ _ => .ite keepsE_waitE keepsE_pure_true)

theorem keepsE_ownBarE {h : Here} {o : Option Opnd} : KeepsE κ (fun _ => True) (ownBarE h o) := by
  unfold ownBarE
  dsimp only
  split
  · exact keepsE_pure_true
  · exact keepsE_bind keepsE_getE (fun _ _ => .ite keepsE_trapE keepsE_pure_true)

theorem stays_execCpy {x : CpyOp} (hs : Keeps κ s) : Stays κ (execCpy x s) := by
  unfold execCpy
  dsimp only
  refine stays_issueWord hs fun _ => keepsE_bind keepsE_getE fun _ _ => keepsE_bind keepsE_copyRoomE fun _ _ => ?_
  refine keepsE_ite_bind keepsE_pure_true keepsE_ownBarE fun _ => ?_
  split
  · exact keepsE_faultE
  · split
    · exact keepsE_faultE
    · refine keepsE_bind keepsE_drainE fun _ _ => ?_
      exact keepsE_bind (keepsE_modifyE fun _ h5 => keeps_issueCopy h5) fun _ _ => keepsE_nextE

theorem keepsE_tileBody {d a : Opnd} {q : Bool} {h : Here} : KeepsE κ (fun _ => True) (tileBody d a q h) := by
  unfold tileBody
  dsimp only
  exact keepsE_bind keepsE_getE (fun _ _ => keepsE_bind keepsE_copyRoomE (fun _ _ => .ite keepsE_faultE
    (keepsE_bind keepsE_stashE (fun _ _ => keepsE_bind keepsE_getE (fun _ _ => .ite keepsE_faultE (by
      split
      · exact keepsE_faultE
      · exact keepsE_bind keepsE_drainE (fun _ _ => keepsE_bind (keepsE_modifyE (fun _ h6 => keeps_issueCopy h6))
          (fun _ _ => keepsE_nextE))))))))

theorem stays_execCpyt {d a : Opnd} (hs : Keeps κ s) : Stays κ (execCpyt d a s) := by
  unfold execCpyt
  exact stays_issueWord hs (fun _ => keepsE_tileBody)

theorem stays_execCpyq {d a : Opnd} (hs : Keeps κ s) : Stays κ (execCpyq d a s) := by
  unfold execCpyq
  exact stays_issueWord hs (fun _ => keepsE_tileBody)

theorem stays_execShfl {x : ShflOp} (hs : Keeps κ s) : Stays κ (execShfl x s) := by
  unfold execShfl
  dsimp only
  exact stays_issueWord hs (fun _ => .ite keepsE_nextE (keepsE_bind keepsE_getE (fun _ _ => keepsE_bind keepsE_updCrewE
    (fun _ _ => keepsE_nextE))))

theorem stays_execVote {x : VoteOp} (hs : Keeps κ s) : Stays κ (execVote x s) := by
  unfold execVote
  dsimp only
  exact stays_issueWord hs (fun _ => .ite keepsE_nextE (keepsE_bind keepsE_updCrewE (fun _ _ => keepsE_nextE)))

theorem stays_execMatchLanes {x : Op1F} (hs : Keeps κ s) : Stays κ (execMatchLanes x s) := by
  unfold execMatchLanes
  dsimp only
  exact stays_issueWord hs (fun _ => .ite keepsE_nextE (keepsE_bind keepsE_getE (fun _ _ => keepsE_bind keepsE_updCrewE
    (fun _ _ => keepsE_nextE))))

theorem stays_execCred {x : RedLaneOp} (hs : Keeps κ s) : Stays κ (execCred x s) := by
  unfold execCred
  dsimp only
  exact stays_issueWord hs (fun _ => .ite keepsE_nextE (keepsE_bind keepsE_getE (fun _ _ => keepsE_bind keepsE_updCrewE
    (fun _ _ => keepsE_nextE))))

theorem stays_execCscan {x : RedLaneOp} (hs : Keeps κ s) : Stays κ (execCscan x s) := by
  unfold execCscan
  dsimp only
  exact stays_issueWord hs (fun _ => .ite keepsE_nextE (keepsE_bind keepsE_getE (fun _ _ => keepsE_bind keepsE_updCrewE
    (fun _ _ => keepsE_nextE))))

theorem stays_execActm {x : ActmOp} (hs : Keeps κ s) : Stays κ (execActm x s) := by
  unfold execActm
  dsimp only
  exact stays_issueWord hs (fun _ => .ite keepsE_nextE (keepsE_bind keepsE_updCrewE (fun _ _ => keepsE_nextE)))

theorem keeps_startMsg {h : Here} {x : SendOp} {mcast : Bool} {ranks : List Nat} {m : Mask} (hs : Keeps κ s) :
    Keeps κ (startMsg s h x mcast ranks m) := by
  unfold startMsg
  dsimp only
  exact keeps_foldl (fun _ _ h1 => keeps_later h1) _ (keeps_updCrew (keeps_freshId hs).same)

theorem keepsE_sendBody {x : SendOp} {mcast : Bool} {ranks : Nat → List Nat} {h : Here} :
    KeepsE κ (fun _ => True) (sendBody x mcast ranks h) := by
  unfold sendBody
  dsimp only
  exact keepsE_bind keepsE_getE (fun _ _ => .ite keepsE_waitE (keepsE_bind keepsE_drainE (fun _ _ => keepsE_bind
    (keepsE_modifyE (fun _ h3 => keeps_startMsg h3)) (fun _ _ => keepsE_nextE))))

theorem stays_execSend {x : SendOp} (hs : Keeps κ s) : Stays κ (execSend x s) := by
  unfold execSend
  exact stays_issueWord hs (fun _ => keepsE_sendBody)

theorem keeps_deliver {src : Block} {rank : Nat} {g : Msg} (hs : Keeps κ s) : Keeps κ (deliver s src rank g).2 := by
  unfold deliver
  dsimp only
  split
  · dsimp only
    exact hs
  · split
    · dsimp only
      exact hs
    · split
      · dsimp only
        exact keeps_exchange hs
      · split
        · dsimp only
          exact keeps_exchange hs
        · split
          · dsimp only
            exact keeps_exchange hs
          · split
            · dsimp only
              exact keeps_exchange hs
            · dsimp only
              exact keeps_setBlock (keeps_writePlace (keeps_exchange hs))

theorem keeps_landReg {b c : Nat} {code : Option Nat} {x : Nat} (hs : Keeps κ s) : Keeps κ (landReg s b c code x) := by
  unfold landReg
  dsimp only
  split
  · exact hs
  · exact keeps_updCrew hs

theorem keeps_settleMsg {id : Nat} {g : Msg} (hs : Keeps κ s) : Keeps κ (settleMsg s id g) := by
  unfold settleMsg
  split
  · exact keeps_later (keeps_landReg hs.same)
  · exact hs.same

theorem keeps_rankRetried {id : Nat} {g : Msg} {rank : Nat} (hs : Keeps κ s) : Keeps κ (rankRetried s id g rank) := by
  unfold rankRetried
  exact keeps_laterOnce hs.same

theorem ends_execSendDelivery {msg rank : Nat} (hs : Keeps κ s) : Ends κ (execSendDelivery msg rank s) := by
  unfold execSendDelivery
  split
  · exact ends_next hs
  · split
    · exact ends_next hs
    · split
      · exact ends_next hs
      · split
        · exact ends_next (keeps_later (keeps_throttle hs))
        · split
          · next e4 =>
            exact ends_next (keeps_settleMsg ((keeps_deliver hs).snd_of e4))
          · next e4 =>
            exact ends_next (keeps_settleMsg ((keeps_deliver hs).snd_of e4))
          · next e4 =>
            exact ends_next (keeps_rankRetried ((keeps_deliver hs).snd_of e4))

theorem keeps_retryMsg {id : Nat} (hs : Keeps κ s) : Keeps κ (retryMsg s id) := by
  unfold retryMsg
  dsimp only
  split
  · exact hs
  · split
    · exact keeps_laterOnce (keeps_foldl (fun _ _ h => keeps_later h) _ hs.same)
    · exact keeps_foldl (fun _ _ h => keeps_later h) _ hs.same

theorem ends_execSendRetry {msg : Nat} (hs : Keeps κ s) : Ends κ (execSendRetry msg s) := by
  unfold execSendRetry
  exact ends_next (keeps_retryMsg hs)

theorem ends_execMcastBranchRetry {msg : Nat} (hs : Keeps κ s) : Ends κ (execMcastBranchRetry msg s) := by
  unfold execMcastBranchRetry
  exact ends_next (keeps_retryMsg hs)

theorem keepsE_emptyMsgE {h : Here} {d : Opnd} : KeepsE κ (fun _ => True) (emptyMsgE h d) := by
  unfold emptyMsgE
  exact keepsE_updCrewE

theorem stays_execMcast {x : SendOp} (hs : Keeps κ s) : Stays κ (execMcast x s) := by
  unfold execMcast
  exact stays_issueWord hs (fun _ => keepsE_bind keepsE_getE (fun _ _ => .ite (keepsE_bind keepsE_drainE (fun _ _ =>
    keepsE_bind keepsE_emptyMsgE (fun _ _ => keepsE_nextE))) keepsE_sendBody))

theorem keeps_putArm {a : Arm} (hs : Keeps κ s) : Keeps κ (putArm s a) := by
  unfold putArm
  exact hs.same

theorem keeps_beginArm {h : Here} {id : Nat} {new : Arm} (hs : Keeps κ s) : Keeps κ (beginArm s h id new) := by
  unfold beginArm
  exact keeps_foldl (fun _ _ h1 => keeps_updBlock h1) _ (keeps_putArm hs)

theorem stays_execRedpArm {d a : Opnd} {id : Fin 4} (hs : Keeps κ s) : Stays κ (execRedpArm d a id s) := by
  unfold execRedpArm
  dsimp only
  exact stays_issueWord hs (fun _ => keepsE_bind keepsE_getE (fun _ _ => .ite (keepsE_bind keepsE_updCrewE (fun _ _ =>
    keepsE_nextE)) (keepsE_bind keepsE_stashE (fun _ _ => keepsE_bind keepsE_getE (fun _ _ => .ite
    (keepsE_bind keepsE_updCrewE (fun _ _ => keepsE_nextE)) (.ite (keepsE_bind keepsE_updCrewE (fun _ _ =>
    keepsE_nextE)) (keepsE_bind (keepsE_modifyE (fun _ h4 => keeps_beginArm h4)) (fun _ _ =>
    keepsE_bind keepsE_updCrewE (fun _ _ => keepsE_nextE)))))))))

theorem keeps_writeResult {a : Arm} {round : Nat} {vals : List Word} {missing flags tw : Nat} (hs : Keeps κ s) :
    Keeps κ (writeResult s a round vals missing flags tw).2 := by
  unfold writeResult
  dsimp only
  split
  · dsimp only
    exact hs
  · split
    · dsimp only
      exact hs
    · dsimp only
      split
      · exact keeps_creditBar (keeps_stashPut hs)
      · exact keeps_stashPut hs

theorem keeps_sendInput {i : ArmInput} (hs : Keeps κ s) : Keeps κ (sendInput s i) := by
  unfold sendInput
  split
  · next e =>
    exact keeps_later ((keeps_freshId hs).snd_of e).same

theorem keeps_startTimer {a : Arm} {r : Nat} (hs : Keeps κ s) : Keeps κ (startTimer s a r).2 := by
  unfold startTimer
  dsimp only
  split
  · dsimp only
    exact keeps_later hs
  · dsimp only
    exact hs

theorem keeps_forward {a : Arm} {r : Nat} {timedOut : Bool} (hs : Keeps κ s) : Keeps κ (forward s a r timedOut).2 := by
  unfold forward
  dsimp only
  exact keeps_startTimer (Keeps.ite_snd (keeps_writeResult hs) (keeps_sendInput hs))

theorem keeps_forwardFull {fuel : Nat} {a : Arm} {r : Nat} (hs : Keeps κ s) : Keeps κ (forwardFull fuel s a r).2 := by
  induction fuel generalizing s a with
  | zero => exact hs
  | succ k ih =>
    unfold forwardFull
    split
    · exact ih (keeps_forward hs)
    · exact hs

theorem keeps_roundsOver {a : Arm} (hs : Keeps κ s) : Keeps κ (roundsOver s a) := by
  unfold roundsOver
  exact keeps_foldl (fun _ _ h => keeps_later h) _ hs

theorem keeps_arrive {a : Arm} {i : ArmInput} (hs : Keeps κ s) : Keeps κ (arrive s a i) := by
  unfold arrive
  dsimp only
  split
  · exact keeps_putArm hs
  · exact keeps_putArm (keeps_forwardFull (keeps_startTimer hs))

theorem keeps_inputRefused {i : ArmInput} (hs : Keeps κ s) : Keeps κ (inputRefused s i) := by
  unfold inputRefused
  split
  · exact keeps_throttle hs
  · exact hs

theorem keeps_inputSent {i : ArmInput} (hs : Keeps κ s) : Keeps κ (inputSent s i) := by
  unfold inputSent
  split
  · exact keeps_exchange hs
  · exact hs

theorem ends_execArmatureInput {id : Nat} (hs : Keeps κ s) : Ends κ (execArmatureInput id s) := by
  unfold execArmatureInput
  dsimp only
  split
  · exact ends_next hs
  · split
    · exact ends_next (keeps_later (keeps_inputRefused hs))
    · split
      · exact ends_next (keeps_inputSent hs).same
      · exact ends_next (keeps_roundsOver (keeps_arrive (keeps_inputSent hs).same))

theorem keeps_timeoutNode {a : Arm} {rank : Nat} (hs : Keeps κ s) : Keeps κ (timeoutNode s a rank) := by
  unfold timeoutNode
  split
  · next e =>
    split
    · next e1 =>
      exact keeps_roundsOver (keeps_putArm ((keeps_forwardFull ((keeps_forward hs).snd_of e)).snd_of e1))

theorem ends_execArmatureTimeout {n : ArmRef} (hs : Keeps κ s) : Ends κ (execArmatureTimeout n s) := by
  unfold execArmatureTimeout
  split
  · exact ends_next hs
  · split
    · exact ends_next hs
    · split
      · exact ends_next (keeps_later hs)
      · exact ends_next (keeps_timeoutNode hs)

theorem keeps_contribute {h : Here} {id : Nat} {vs : List Word} (hs : Keeps κ s) : Keeps κ (contribute s h id vs) := by
  unfold contribute
  dsimp only
  exact keeps_sendInput (keeps_updBlock hs)

theorem stays_execRedpContribute {d a : Opnd} {id : Fin 4} (hs : Keeps κ s) :
    Stays κ (execRedpContribute d a id s) := by
  unfold execRedpContribute
  exact stays_issueWord hs (fun _ => keepsE_bind keepsE_getE (fun _ _ => by
      split
      · exact keepsE_trapE
      · split
        · exact keepsE_trapE
        · split
          · exact keepsE_waitE
          · exact keepsE_bind keepsE_drainE (fun _ _ => keepsE_bind (keepsE_modifyE (fun _ h3 => keeps_contribute h3))
              (fun _ _ => keepsE_bind keepsE_updCrewE (fun _ _ => keepsE_nextE)))))

theorem keeps_diverge {h : Here} {t : Mask} {target stay : DWord} (hs : Keeps κ s) :
    Keeps κ (diverge s h t target stay) := by
  unfold diverge
  dsimp only
  split
  · exact keeps_freshId hs
  · exact keeps_settleParked (keeps_putCrew (.ite (keeps_freshId hs) (keeps_storeSpill (keeps_freshId hs))))

theorem keepsE_transferReadyE {h : Here} {t : Mask} : KeepsE κ (fun _ => True) (transferReadyE h t) := by
  unfold transferReadyE
  dsimp only
  split
  · exact keepsE_guard keepsE_trapE (fun _ => keepsE_guard keepsE_waitE (fun _ => .ite keepsE_trapE keepsE_pure_true))
  · exact keepsE_pure_true

theorem keepsE_transferE {h : Here} {t : Mask} {target stay : DWord} :
    KeepsE κ (fun _ => True) (transferE h t target stay) := by
  unfold transferE
  exact keepsE_modifyE (fun _ h1 => .ite (keeps_nextWord h1) (.ite (keeps_jumpTo h1) (keeps_diverge h1)))

theorem stays_execBra {g : Guard} {off : Word} (hs : Keeps κ s) : Stays κ (execBra g off s) := by
  unfold execBra
  dsimp only
  exact stays_issueWord hs (fun _ => keepsE_bind keepsE_transferReadyE (fun _ _ => keepsE_transferE))

theorem keepsE_branchRecordE {h : Here} {tag : Byte} {t : Mask} : KeepsE κ (fun _ => True) (branchRecordE h tag t) := by
  unfold branchRecordE
  dsimp only
  exact keepsE_bind keepsE_crewE (fun _ _ => by
      split
      · exact keepsE_recordE
      · split
        · exact keepsE_updTapeE
        · split
          · exact keepsE_recTrapE
          · exact keepsE_updCrewE)

theorem stays_execBraT {g : Guard} {off : Word} {tag : Byte} (hs : Keeps κ s) : Stays κ (execBraT g off tag s) := by
  unfold execBraT
  dsimp only
  exact stays_issueWord hs (fun _ => keepsE_bind keepsE_tapeFlagE (fun _ _ => keepsE_bind keepsE_needTapeE (fun _ _ =>
    keepsE_bind keepsE_transferReadyE (fun _ _ => keepsE_bind keepsE_branchRecordE (fun _ _ => keepsE_transferE)))))

theorem stays_execBrx {g : Guard} {a : Opnd} (hs : Keeps κ s) : Stays κ (execBrx g a s) := by
  unfold execBrx
  dsimp only
  exact stays_issueWord hs (fun _ => keepsE_bind keepsE_getE (fun _ _ => keepsE_bind keepsE_transferReadyE (fun _ _ =>
    keepsE_transferE)))

theorem keepsE_linkE {h : Here} {d : Opnd} {m : Mask} : KeepsE κ (fun _ => True) (linkE h d m) := by
  unfold linkE
  exact keepsE_updCrewE

theorem stays_execCall {g : Guard} {d : Opnd} {off : Word} (hs : Keeps κ s) : Stays κ (execCall g d off s) := by
  unfold execCall
  dsimp only
  exact stays_issueWord hs (fun _ => keepsE_bind keepsE_transferReadyE (fun _ _ => keepsE_bind keepsE_linkE (fun _ _ =>
    keepsE_transferE)))

theorem stays_execCallx {g : Guard} {d a : Opnd} (hs : Keeps κ s) : Stays κ (execCallx g d a s) := by
  unfold execCallx
  dsimp only
  exact stays_issueWord hs (fun _ => keepsE_bind keepsE_getE (fun _ _ => keepsE_bind keepsE_transferReadyE (fun _ _ =>
    keepsE_bind keepsE_linkE (fun _ _ => keepsE_transferE))))

theorem stays_execRet {g : Guard} {a : Opnd} (hs : Keeps κ s) : Stays κ (execRet g a s) := by
  unfold execRet
  dsimp only
  exact stays_issueWord hs (fun _ => keepsE_bind keepsE_getE (fun _ _ => keepsE_bind keepsE_transferReadyE (fun _ _ => by
      split
      · split
        · exact keepsE_modifyE (fun _ h3 => keeps_returnFromHandler h3)
        · exact keepsE_transferE
      · exact keepsE_transferE)))

theorem keepsE_notInHandlerE {h : Here} : KeepsE κ (fun _ => True) (notInHandlerE h) := by
  unfold notInHandlerE
  split
  · exact keepsE_trapE
  · exact keepsE_pure_true

theorem stays_execJoin {off : Word} (hs : Keeps κ s) : Stays κ (execJoin off s) := by
  unfold execJoin
  dsimp only
  exact stays_issueWord hs (fun _ => keepsE_bind keepsE_notInHandlerE (fun _ _ => keepsE_guard keepsE_trapE (fun _ =>
    keepsE_guard keepsE_trapE (fun _ => keepsE_bind keepsE_updCrewE (fun _ _ => keepsE_nextE)))))

theorem stays_execLser (hs : Keeps κ s) : Stays κ (execLser s) := by
  unfold execLser
  dsimp only
  exact stays_issueWord hs (fun _ => keepsE_bind keepsE_notInHandlerE (fun _ _ => keepsE_guard keepsE_trapE (fun _ =>
    keepsE_bind keepsE_updCrewE (fun _ _ => keepsE_nextE))))

theorem stays_execLsend (hs : Keeps κ s) : Stays κ (execLsend s) := by
  unfold execLsend
  dsimp only
  exact stays_issueWord hs (fun _ => by
      split
      · exact keepsE_trapE
      · exact keepsE_bind keepsE_drainE (fun _ _ => keepsE_bind keepsE_updCrewE (fun _ _ => keepsE_modifyE (fun _ h3 =>
          keeps_jumpTo h3))))

theorem keeps_exitedSlot {h : Here} (hs : Keeps κ s) : Keeps κ (exitedSlot s h) := by
  unfold exitedSlot
  dsimp only
  split
  · exact keeps_endHandler (by
        split
        · exact keeps_updCrew hs.same
        · exact keeps_updCrew hs)
  · exact keeps_updCrew hs

theorem keepsE_writeTopE {h : Here} : KeepsE κ (fun _ => True) (writeTopE h) := by
  unfold writeTopE
  exact keepsE_bind keepsE_crewE (fun _ _ => by
      split
      · split
        · exact keepsE_pure_true
        · exact keepsE_storeGlobalE
      · exact keepsE_pure_true)

theorem keepsE_leaveStreamE {h : Here} : KeepsE κ (fun _ => True) (leaveStreamE h) := by
  unfold leaveStreamE
  dsimp only
  exact keepsE_bind keepsE_crewE (fun _ _ => keepsE_guard keepsE_writeOutE (fun _ => keepsE_writeTopE))

theorem keepsE_orphansE {h : Here} {t : Mask} : KeepsE κ (fun _ => True) (orphansE h t) := by
  unfold orphansE
  dsimp only
  exact keepsE_forM (fun _ => keepsE_bind keepsE_putAttachedE (fun _ _ => keepsE_updCrewE)) _

theorem keeps_crewRetired {h : Here} (hs : Keeps κ s) : Keeps κ (crewRetired s h) := by
  unfold crewRetired
  exact keeps_later hs

theorem stays_execExit {g : Guard} (hs : Keeps κ s) : Stays κ (execExit g s) := by
  unfold execExit
  dsimp only
  exact stays_issueWord hs (fun _ => keepsE_guard keepsE_trapE (fun _ => .ite keepsE_nextE (keepsE_bind keepsE_orphansE
    (fun _ _ => keepsE_guard keepsE_leaveStreamE (fun _ => keepsE_bind keepsE_updCrewE (fun _ _ => .ite (keepsE_bind
    (keepsE_modifyE (fun _ h3 => keeps_popLater (keeps_exitedSlot h3))) (fun _ _ => keepsE_bind keepsE_crewE
    (fun _ _ => .ite (keepsE_modifyE (fun _ h5 => keeps_crewRetired h5)) keepsE_pure_true))) (keepsE_bind keepsE_nextE
    (fun _ _ => keepsE_bind keepsE_crewE (fun _ _ => .ite (keepsE_modifyE (fun _ h5 =>
    keeps_crewRetired h5)) keepsE_pure_true)))))))))

theorem stays_execTrap {g : Guard} {code : BitVec 16} (hs : Keeps κ s) : Stays κ (execTrap g code s) := by
  unfold execTrap
  dsimp only
  exact stays_issueWord hs (fun _ => .ite keepsE_nextE (keepsE_stopWith (fun _ h1 => keeps_takeTrapMask h1)))

theorem keeps_endWindow {b : Nat} (hs : Keeps κ s) : Keeps κ (endWindow s b) := by
  unfold endWindow
  exact keeps_beginSaveOne hs

theorem keeps_stopAtChkpt {h : Here} {n : Nat} (hs : Keeps κ s) : Keeps κ (stopAtChkpt s h n) := by
  unfold stopAtChkpt
  dsimp only
  split
  · split
    · exact keeps_endWindow (keeps_waitSlot hs)
    · exact keeps_waitSlot hs
  · exact keeps_waitSlot hs

theorem stays_execChkpt {n : BitVec 16} (hs : Keeps κ s) : Stays κ (execChkpt n s) := by
  unfold execChkpt
  exact stays_issueWord hs (fun _ => .ite (keepsE_modifyE (fun _ h1 => keeps_stopAtChkpt h1)) keepsE_nextE)

theorem stays_execYieldSlot {g : Guard} (hs : Keeps κ s) : Stays κ (execYieldSlot g s) := by
  unfold execYieldSlot
  dsimp only
  exact stays_issueWord hs (fun _ => keepsE_guard (keepsE_modifyE (fun _ h1 => keeps_updSlot h1)) (fun _ =>
    keepsE_nextE))

theorem stays_execSleep {a : Opnd} (hs : Keeps κ s) : Stays κ (execSleep a s) := by
  unfold execSleep
  dsimp only
  exact stays_issueWord hs (fun _ => keepsE_bind keepsE_getE (fun _ _ => .ite keepsE_nextE (keepsE_modifyE (fun _ h2 =>
    keeps_later (keeps_waitSlot h2)))))

theorem stays_execNop {g : Guard} (hs : Keeps κ s) : Stays κ (execNop g s) := by
  unfold execNop
  exact stays_issueWord hs (fun _ => keepsE_nextE)

end Sys2Proof
end

section
/-! # Invariants: the homes of capsules, moorings, slipways, placement and launches. -/

namespace Sys2Proof

open Machine

set_option Elab.async false

variable {κ : Claim} {s : State}

theorem keeps_claimLine {g : Nat} (hs : Keeps κ s) : Keeps κ (claimLine s g).2 := by
  unfold claimLine
  exact keeps_grab hs

theorem keeps_claimLines {gs : List Nat} (hs : Keeps κ s) : Keeps κ (claimLines s gs).2 := by
  induction gs generalizing s with
  | nil => exact hs
  | cons g r ih =>
    unfold claimLines
    split
    · next e => exact ih ((keeps_claimLine hs).snd_of e)
    · next e => exact (keeps_claimLine hs).snd_of e

theorem keeps_writeLines {gs : List Nat} {at' : Nat → Attr} {bs : List (Nat × Byte)} {t : Nat} (hs : Keeps κ s) :
    Keeps κ (writeLines s gs at' bs t).2 := by
  unfold writeLines
  split
  · next e =>
    refine keeps_foldl (fun _ _ h => .ite (keeps_updLine h) (keeps_raiseFloor h)) _
      ((keeps_foldl_snd (fun p g h => ?_) _ hs).snd_of e)
    exact keeps_homeWrite h

theorem keeps_releaseLines {m : CapMsg} {gs : List Nat} {at' : Nat → Attr} {bs : List (Nat × Byte)} (hs : Keeps κ s) :
    Keeps κ (releaseLines s m gs at' bs).2 := by
  unfold releaseLines
  split
  · next e =>
    dsimp only
    exact keeps_raiseT (keeps_markBytes ((keeps_writeLines hs).snd_of e))

theorem keeps_writeRec {m : CapMsg} {off : Nat} {bs : List Byte} (hs : Keeps κ s) : Keeps κ (writeRec s m off bs) := by
  unfold writeRec
  split
  · next e =>
    exact keeps_raiseT ((keeps_writeLines hs).snd_of e)

theorem keeps_setCapHome {line : Nat} {x : CapHome} (hs : Keeps κ s) : Keeps κ (setCapHome s line x) := by
  unfold setCapHome
  exact hs.same

theorem keeps_dropVersions {m : CapMsg} (hs : Keeps κ s) : Keeps κ (dropVersions s m) := by
  unfold dropVersions
  exact hs.same

theorem keeps_dropRecordVersions {record : Nat} (hs : Keeps κ s) : Keeps κ (dropRecordVersions s record) := by
  unfold dropRecordVersions
  exact hs.same

theorem keeps_storeSpills {b c : Nat} {y : Crew} (hs : Keeps κ s) : Keeps κ (storeSpills s b c y) := by
  unfold storeSpills
  split
  · exact hs
  · exact keeps_foldl (fun _ _ h => keeps_storeSpill h) _ hs

theorem keeps_putMoved {b c : Nat} {before after : Crew} (hs : Keeps κ s) : Keeps κ (putMoved s b c before after) := by
  unfold putMoved
  split
  · exact keeps_putCrew hs
  · exact keeps_storeSpills (keeps_putCrew hs)

theorem keeps_exitCapsule {b c status : Nat} (hs : Keeps κ s) : Keeps κ (exitCapsule s b c status) := by
  unfold exitCapsule
  split
  · exact hs
  · split
    · exact hs
    · exact keeps_putMoved hs

theorem keeps_beginStep {b c : Nat} {ks : List Word} {gen : Word} {step exec : Nat} {resume : DWord} (hs : Keeps κ s) :
    Keeps κ (beginStep s b c ks gen step exec resume) := by
  unfold beginStep
  dsimp only
  split
  · exact hs
  · split
    · exact hs
    · split
      · exact keeps_setCrew hs
      · exact keeps_storeSpills (keeps_setCrew hs)

theorem keeps_dropMsg {n : Nat} (hs : Keeps κ s) : Keeps κ (dropMsg s n) := by
  unfold dropMsg
  exact hs.same

theorem keeps_answerStatus {m : CapMsg} {w : Asker} {status : Nat} (hs : Keeps κ s) :
    Keeps κ (answerStatus s m w status) := by
  unfold answerStatus
  split
  · exact hs
  · exact keeps_nextWord (keeps_updCrew hs)

theorem keeps_enterMode {m : CapMsg} {w : Asker} {exec : Nat} {gen : Word} {step : Nat} {ks : List Word} {pc : DWord}
    (hs : Keeps κ s) : Keeps κ (enterMode s m w exec gen step ks pc) := by
  unfold enterMode
  dsimp only
  split
  · exact hs
  · exact keeps_acquireAt (keeps_beginStep (keeps_updCrew hs))

theorem keeps_answerTrap {m : CapMsg} {w : Asker} (hs : Keeps κ s) : Keeps κ (answerTrap s m w) := by
  unfold answerTrap
  split
  · exact hs
  · exact keeps_takeTrap hs

theorem keeps_answerPoison {m : CapMsg} {w : Asker} {va : DWord} (hs : Keeps κ s) :
    Keeps κ (answerPoison s m w va) := by
  unfold answerPoison
  split
  · exact hs
  · exact keeps_takeFault hs

theorem keeps_acceptEnter {m : CapMsg} {w : Asker} {slotPa : Nat} {entry : DWord} {ks : List Word} {slotVa : DWord}
    {slotAttr : Attr} (hs : Keeps κ s) : Keeps κ (acceptEnter s m w slotPa entry ks slotVa slotAttr) := by
  unfold acceptEnter
  dsimp only
  exact keeps_enterMode (keeps_setCapHome (keeps_writeRec (keeps_writeLines hs)))

theorem ends_execEnter {msg : Nat} (hs : Keeps κ s) : Ends κ (execEnter msg s) := by
  unfold execEnter
  dsimp only
  split
  · exact ends_next hs
  · split
    · split
      · exact ends_next (keeps_dropMsg hs)
      · split
        · next e3 =>
          exact ends_next (keeps_later ((keeps_claimLines hs).snd_of e3))
        · next e3 =>
          split
          · exact ends_next (keeps_answerPoison (keeps_dropMsg ((keeps_claimLines hs).snd_of e3)))
          · split
            · exact ends_next (keeps_answerTrap (keeps_dropMsg ((keeps_claimLines hs).snd_of e3)))
            · split
              · exact ends_next (keeps_answerStatus (keeps_dropMsg ((keeps_claimLines hs).snd_of e3)))
              · split
                · exact ends_next (keeps_answerPoison (keeps_dropMsg ((keeps_claimLines hs).snd_of e3)))
                · split
                  · exact ends_next (keeps_later ((keeps_claimLines hs).snd_of e3))
                  · exact ends_next (keeps_acceptEnter (keeps_dropMsg ((keeps_claimLines hs).snd_of e3)))
    · exact ends_next hs

theorem keeps_acceptAdopt {m : CapMsg} {w : Asker} (hs : Keeps κ s) : Keeps κ (acceptAdopt s m w) := by
  unfold acceptAdopt
  dsimp only
  exact keeps_enterMode (keeps_setCapHome (keeps_writeRec (keeps_writeRec hs)))

theorem ends_execAdopt {msg : Nat} (hs : Keeps κ s) : Ends κ (execAdopt msg s) := by
  unfold execAdopt
  dsimp only
  split
  · exact ends_next hs
  · split
    · split
      · exact ends_next (keeps_dropMsg hs)
      · split
        · next e3 =>
          exact ends_next (keeps_later ((keeps_claimLine hs).snd_of e3))
        · next e3 =>
          split
          · exact ends_next (keeps_answerPoison (keeps_dropMsg ((keeps_claimLine hs).snd_of e3)))
          · split
            · exact ends_next (keeps_answerTrap (keeps_dropMsg ((keeps_claimLine hs).snd_of e3)))
            · split
              · exact ends_next (keeps_answerStatus (keeps_dropMsg ((keeps_claimLine hs).snd_of e3)))
              · exact ends_next (keeps_acceptAdopt (keeps_dropMsg ((keeps_claimLine hs).snd_of e3)))
    · exact ends_next hs

theorem keeps_closeRecord {m : CapMsg} {ks : List Word} {done status : Nat} (hs : Keeps κ s) :
    Keeps κ (closeRecord s m ks done status) := by
  unfold closeRecord
  dsimp only
  exact keeps_later (keeps_setCapHome (by
      split
      · exact keeps_releaseLines (keeps_writeRec hs)
      · dsimp only
        exact keeps_writeRec hs))

theorem keeps_installStep {m : CapMsg} {ks : List Word} {ctl : List Byte} (hs : Keeps κ s) :
    Keeps κ (installStep s m ks ctl) := by
  unfold installStep
  dsimp only
  exact keeps_setCapHome (keeps_dropVersions (keeps_releaseLines hs))

theorem keeps_commitAccepted {m : CapMsg} {kind : Fin 3} {ks : List Word} {ra : DWord} (hs : Keeps κ s) :
    Keeps κ (commitAccepted s m kind ks ra) := by
  unfold commitAccepted
  dsimp only
  split
  · exact keeps_beginStep (keeps_installStep hs)
  · exact keeps_closeRecord (keeps_installStep hs)
  · exact keeps_closeRecord (keeps_dropVersions hs)

theorem keeps_commitTrap {m : CapMsg} (hs : Keeps κ s) : Keeps κ (commitTrap s m) := by
  unfold commitTrap
  split
  · exact hs
  · exact keeps_takeTrap (keeps_dropVersions hs)

theorem keeps_commitPoison {m : CapMsg} (hs : Keeps κ s) : Keeps κ (commitPoison s m) := by
  unfold commitPoison
  split
  · exact hs
  · exact keeps_takeFault hs

theorem keeps_commitAt {m : CapMsg} {kind : Fin 3} {ks : List Word} {ra : DWord} (hs : Keeps κ s) :
    Keeps κ (commitAt s m kind ks ra) := by
  unfold commitAt
  split
  · exact keeps_commitPoison hs
  · exact keeps_commitAccepted hs

theorem ends_execCommit {msg : Nat} (hs : Keeps κ s) : Ends κ (execCommit msg s) := by
  unfold execCommit
  split
  · exact ends_next hs
  · split
    · split
      · exact ends_next (keeps_later hs)
      · split
        · next e3 =>
          exact ends_next (keeps_later ((keeps_claimLine hs).snd_of e3))
        · next e3 =>
          split
          · exact ends_next (keeps_commitPoison (keeps_dropMsg ((keeps_claimLine hs).snd_of e3)))
          · split
            · exact ends_next (keeps_commitTrap (keeps_dropMsg ((keeps_claimLine hs).snd_of e3)))
            · split
              · exact ends_next (keeps_exitCapsule (keeps_dropVersions (keeps_dropMsg
                  ((keeps_claimLine hs).snd_of e3))))
              · split
                · exact ends_next (keeps_later ((keeps_claimLine hs).snd_of e3))
                · split
                  · next e8 =>
                    exact ends_next (keeps_later ((keeps_claimLines ((keeps_claimLine hs).snd_of e3)).snd_of e8))
                  · next e8 =>
                    exact ends_next (keeps_commitAt (keeps_dropMsg ((keeps_claimLines
                      ((keeps_claimLine hs).snd_of e3)).snd_of e8)))
    · exact ends_next hs

theorem keeps_freeRecord {line : Nat} (hs : Keeps κ s) : Keeps κ (freeRecord s line) := by
  unfold freeRecord
  dsimp only
  exact keeps_setCapHome (keeps_writeLines hs)

theorem ends_execCloseAck {line : Nat} (hs : Keeps κ s) : Ends κ (execCloseAck line s) := by
  unfold execCloseAck
  split
  · exact ends_next hs
  · split
    · exact ends_next hs
    · split
      · next e2 =>
        exact ends_next (keeps_later ((keeps_claimLine hs).snd_of e2))
      · next e2 =>
        exact ends_next (keeps_laterOnce (keeps_exitCapsule (keeps_freeRecord ((keeps_claimLine hs).snd_of e2))))

theorem keeps_parkRecord {m : CapMsg} (hs : Keeps κ s) : Keeps κ (parkRecord s m) := by
  unfold parkRecord
  exact keeps_writeRec (keeps_dropRecordVersions hs)

theorem keeps_noticeRefused {m : CapMsg} (hs : Keeps κ s) : Keeps κ (noticeRefused s m) := by
  unfold noticeRefused
  split
  · exact keeps_refused hs
  · exact hs

theorem keeps_noticeSent {m : CapMsg} (hs : Keeps κ s) : Keeps κ (noticeSent s m) := by
  unfold noticeSent
  split
  · exact keeps_exchange hs
  · exact hs

theorem ends_execPark {msg : Nat} (hs : Keeps κ s) : Ends κ (execPark msg s) := by
  unfold execPark
  dsimp only
  split
  · exact ends_next hs
  · split
    · split
      · exact ends_next (keeps_later (keeps_noticeRefused hs))
      · split
        · next e3 =>
          exact ends_next (keeps_later ((keeps_claimLine hs).snd_of e3))
        · next e3 =>
          exact ends_next (.ite (keeps_parkRecord (keeps_noticeSent (keeps_dropMsg ((keeps_claimLine hs).snd_of e3))))
            (keeps_noticeSent (keeps_dropMsg ((keeps_claimLine hs).snd_of e3))))
    · exact ends_next hs

theorem keeps_runIfReady {b : Nat} (hs : Keeps κ s) : Keeps κ (runIfReady s b) := by
  unfold runIfReady
  split
  · exact hs
  · exact keeps_later (keeps_updBlock hs)

theorem keeps_displace {b c : Nat} (hs : Keeps κ s) : Keeps κ (displace s b c) := by
  unfold displace
  exact keeps_updCrew hs

theorem keeps_reclaimRecord {m : CapMsg} {n : Nat} (hs : Keeps κ s) : Keeps κ (reclaimRecord s m n) := by
  unfold reclaimRecord
  dsimp only
  exact keeps_runIfReady (keeps_beginStep (keeps_writeRec (keeps_writeRec hs)))

theorem ends_execReclaim {msg : Nat} (hs : Keeps κ s) : Ends κ (execReclaim msg s) := by
  unfold execReclaim
  dsimp only
  split
  · exact ends_next hs
  · split
    · split
      · exact ends_next (keeps_dropMsg hs)
      · split
        · exact ends_next (keeps_later (keeps_noticeRefused hs))
        · split
          · next e4 =>
            exact ends_next (keeps_later ((keeps_claimLine hs).snd_of e4))
          · next e4 =>
            exact ends_next (.ite (keeps_reclaimRecord (keeps_noticeSent (keeps_dropMsg
              ((keeps_claimLine hs).snd_of e4)))) (keeps_runIfReady (keeps_displace (keeps_noticeSent (keeps_dropMsg
              ((keeps_claimLine hs).snd_of e4))))))
    · exact ends_next hs

theorem keeps_sendReclaim {b : Nat} {c : Nat} (hs : Keeps κ s) : Keeps κ (sendReclaim b s c) := by
  unfold sendReclaim
  split
  · exact hs
  · split
    · exact hs
    · split
      · exact hs
      · split
        · next e3 =>
          exact keeps_later ((keeps_sendCap hs).snd_of e3)

theorem keeps_resumeBlock {b : Nat} (hs : Keeps κ s) : Keeps κ (resumeBlock s b) := by
  unfold resumeBlock
  split
  · exact hs
  · exact keeps_runIfReady (keeps_foldl (fun _ _ h => keeps_sendReclaim h) _ hs)

theorem keeps_discardStep {m : CapMsg} (hs : Keeps κ s) : Keeps κ (discardStep s m) := by
  unfold discardStep
  dsimp only
  exact (keeps_dropVersions hs).set_capMsgs

theorem keeps_conflict {m : CapMsg} (hs : Keeps κ s) : Keeps κ (conflict s m) := by
  unfold conflict
  dsimp only
  split
  · exact keeps_later (keeps_discardStep hs)
  · exact keeps_later (keeps_updCrew (keeps_discardStep hs))

theorem keeps_restartStep {b c : Nat} {h : Holding} (hs : Keeps κ s) : Keeps κ (restartStep s b c h) := by
  unfold restartStep
  exact keeps_updCrew (keeps_beginStep hs)

theorem keeps_addVersion {m : CapMsg} {line : Nat} {bs : List (Nat × Byte)} {a : Attr} (hs : Keeps κ s) :
    Keeps κ (addVersion s m line bs a) := by
  unfold addVersion
  split
  · exact hs.same
  · exact hs.same

theorem ends_execCapsuleStore {msg : Nat} (hs : Keeps κ s) : Ends κ (execCapsuleStore msg s) := by
  unfold execCapsuleStore
  split
  · exact ends_next hs
  · split
    · split
      · exact ends_next (keeps_laterOnce (keeps_dropMsg hs))
      · split
        · exact ends_next (keeps_later hs)
        · split
          · split
            · exact ends_next (keeps_later hs)
            · exact ends_next (keeps_conflict hs)
          · exact ends_next (keeps_addVersion (keeps_dropMsg hs))
    · exact ends_next hs

theorem ends_execConflictRestart {blk crew : Nat} (hs : Keeps κ s) : Ends κ (execConflictRestart blk crew s) := by
  unfold execConflictRestart
  split
  · split
    · exact ends_next hs
    · split
      · split
        · exact ends_next (keeps_later hs)
        · exact ends_next (keeps_restartStep hs)
      · exact ends_next hs
  · exact ends_next hs

theorem keeps_startFlush {core e : Nat} (hs : Keeps κ s) : Keeps κ (startFlush s core e) := by
  unfold startFlush
  split
  · exact hs
  · exact keeps_foldl (fun _ _ h => keeps_startWriteBack h) _ hs

theorem keeps_releaseEntry {core e : Nat} (hs : Keeps κ s) : Keeps κ (releaseEntry s core e) := by
  unfold releaseEntry
  exact keeps_dropEntry (keeps_foldl (fun _ _ h => keeps_askHomes h) _ hs)

theorem keeps_flushEntries {core : Nat} {es : List Nat} (hs : Keeps κ s) : Keeps κ (flushEntries s core es) := by
  unfold flushEntries
  dsimp only
  split
  · exact keeps_refused (keeps_foldl (fun _ _ h => keeps_startFlush h) _ hs)
  · exact keeps_foldl (fun _ _ h => keeps_startFlush h) _ hs

theorem keeps_dropsWait {before after t : State} {cores : List Nat} (hs : Keeps κ before)
    (e : dropsWait before after cores = some t) : Keeps κ t := by
  unfold dropsWait at e
  split at e
  · cases e
  · cases e
    exact keeps_foldl (fun _ _ h => keeps_flushEntries h) _ hs

theorem keepsE_dropE {h : Here} {core : Nat} {es : List Nat} : KeepsE κ (fun _ => True) (dropE h core es) := by
  unfold dropE
  exact keepsE_bind keepsE_getE (fun _ _ => keepsE_bind keepsE_homesE (fun _ _ => keepsE_modifyE (fun _ h3 =>
    keeps_foldl (fun _ _ h4 => keeps_dropEntry h4) _ h3)))

theorem keepsE_flushDropE {h : Here} {core : Nat} {es : List Nat} :
    KeepsE κ (fun _ => True) (flushDropE h core es) := by
  unfold flushDropE
  exact keepsE_bind keepsE_getE (fun _ _ => by
      split
      · exact keepsE_stopWith (fun _ h2 => keeps_waitSlot (keeps_foldl (fun _ _ h3 => keeps_startFlush h3) _ h2))
      · exact keepsE_dropE)

theorem keepsE_statusE {h : Here} {d : Opnd} {n x : Nat} : KeepsE κ (fun _ => True) (statusE h d n x) := by
  unfold statusE
  exact keepsE_updCrewE

theorem keeps_makeEntry {core i : Nat} {r : MoorRec} {base : Nat} {owner : Option Nat} {c : Ctx} (hs : Keeps κ s) :
    Keeps κ (makeEntry s core i r base owner c) := by
  unfold makeEntry
  dsimp only
  exact keeps_setCore (keeps_freshId hs)

theorem keeps_ownEntry {core i b : Nat} (hs : Keeps κ s) : Keeps κ (ownEntry s core i b) := by
  unfold ownEntry
  dsimp only
  split
  · exact keeps_setCore hs
  · exact hs

theorem stays_execMoor {d a : Opnd} (hs : Keeps κ s) : Stays κ (execMoor d a s) := by
  unfold execMoor
  dsimp only
  have hstatus : ∀ {h : Here} {x : Nat}, KeepsE κ (fun _ => True) (do statusE h d 1 x; nextE h) :=
    keepsE_bind keepsE_statusE fun _ _ => keepsE_nextE
  refine stays_issueWord hs fun _ => keepsE_bind keepsE_getE fun _ _ => .ite hstatus ?_
  refine keepsE_bind keepsE_loadBytesE fun _ _ => .ite hstatus (keepsE_bind keepsE_getE fun _ _ => ?_)
  split
  · exact hstatus
  · exact hstatus
  · exact hstatus
  · exact keepsE_bind (keepsE_modifyE fun _ h4 => keeps_ownEntry h4) fun _ _ => hstatus
  · refine keepsE_bind keepsE_flushDropE fun _ _ => keepsE_bind keepsE_getE fun _ _ => ?_
    split
    · exact hstatus
    · exact keepsE_bind (keepsE_modifyE fun _ h6 => keeps_makeEntry h6) fun _ _ => hstatus

theorem stays_execUnmoor {d a : Opnd} {wb : Bool} (hs : Keeps κ s) : Stays κ (execUnmoor d a wb s) := by
  unfold execUnmoor
  dsimp only
  exact stays_issueWord hs (fun _ => keepsE_bind keepsE_getE (fun _ _ => .ite (keepsE_bind keepsE_statusE (fun _ _ =>
    keepsE_nextE)) (.ite (keepsE_bind keepsE_flushDropE (fun _ _ => keepsE_bind keepsE_statusE (fun _ _ =>
    keepsE_nextE))) (.ite (keepsE_bind keepsE_waitE (fun _ h2 => h2)) (keepsE_bind keepsE_dropE (fun _ _ =>
    keepsE_bind keepsE_statusE (fun _ _ => keepsE_nextE)))))))

theorem stays_execMwb {d a b : Opnd} (hs : Keeps κ s) : Stays κ (execMwb d a b s) := by
  unfold execMwb
  dsimp only
  exact stays_issueWord hs (fun _ => keepsE_bind keepsE_getE (fun _ _ => keepsE_bind keepsE_flushE (fun _ _ =>
    keepsE_bind keepsE_statusE (fun _ _ => keepsE_nextE))))

theorem stays_execMqry {x : Op1} (hs : Keeps κ s) : Stays κ (execMqry x s) := by
  unfold execMqry
  dsimp only
  exact stays_issueWord hs (fun _ => keepsE_bind keepsE_getE (fun _ _ => .ite keepsE_nextE (by
      split
      · exact keepsE_faultE
      · exact keepsE_bind keepsE_updCrewE (fun _ _ => keepsE_nextE))))

theorem keeps_writeRecords {blk : Block} {y : Crew} {w : Slipway} {r n : Nat} {ls : List Nat} {t : State}
    {ts : Table Nat}
    (hs : Keeps κ s) (e : writeRecords s blk y w r n ls = .ok (ts, t)) : Keeps κ t := by
  induction ls generalizing s n ts with
  | nil =>
    cases e
    exact hs
  | cons l q ih =>
    unfold writeRecords at e
    split at e
    · cases e
    · next e1 =>
      split at e
      · cases e
      · next e2 =>
        cases e
        exact ih (keeps_engPut hs e1) e2

theorem keeps_slipWritten {id t : Nat} {ts : Table Nat} (hs : Keeps κ s) : Keeps κ (slipWritten s id t ts) := by
  unfold slipWritten
  dsimp only
  split
  · exact hs
  · split
    · exact keeps_later hs.same
    · exact keeps_later (keeps_later hs.same)

theorem keeps_emit {blk : Block} {y : Crew} {t id r : Nat} {left : Mask} {u : State} {w : Mask × Nat} (hs : Keeps κ s)
    (e : emit s blk y t id r left = .ok (w, u)) : Keeps κ u := by
  unfold emit at e
  dsimp only at e
  split at e
  · cases e
    exact hs
  · split at e
    · cases e
    · next e1 =>
      cases e
      exact keeps_slipWritten (keeps_writeRecords hs e1)

theorem keeps_parkSlot {h : Here} {id r : Nat} {left : Mask} (hs : Keeps κ s) : Keeps κ (parkSlot s h id r left) := by
  unfold parkSlot
  dsimp only
  split
  · exact keeps_later (keeps_updSlot hs)
  · exact keeps_updBlock (keeps_later (keeps_updSlot hs))

theorem stays_execRemit {g : Guard} {i : Fin 16} {a : Opnd} (hs : Keeps κ s) : Stays κ (execRemit g i a s) := by
  unfold execRemit
  dsimp only
  exact stays_issueWord hs (fun _ => keepsE_bind keepsE_getE (fun _ _ => by
      split
      · split
        · exact keepsE_trapE
        · split
          · exact keepsE_trapE
          · exact keepsE_bind keepsE_regsReadyE (fun _ _ => keepsE_bind keepsE_drainE (fun _ _ => .ite keepsE_nextE
              (keepsE_bind (keepsE_engE (fun _ _ _ h4 h5 => keeps_emit h4 h5)) (fun _ _ => keepsE_bind (keepsE_modifyE
              (fun _ h5 => keeps_raiseT h5)) (fun _ _ => .ite keepsE_nextE (keepsE_modifyE (fun _ h6 =>
              keeps_parkSlot h6)))))))
      · exact keepsE_trapE))

theorem ends_execRemitUnpark {r : SlotRef} (hs : Keeps κ s) : Ends κ (execRemitUnpark r s) := by
  unfold execRemitUnpark
  dsimp only
  split
  · exact ends_next hs
  · split
    · split
      · exact ends_next (keeps_later hs)
      · split
        · exact ends_next hs
        · split
          · exact ends_next (keeps_later hs)
          · split
            · next e5 =>
              split
              · exact ends_next (keeps_settleParked (keeps_nextWord (keeps_raiseT (keeps_dropWalkEnd
                  (keeps_emit hs e5)))))
              · exact ends_next (keeps_later (keeps_updSlot (keeps_raiseT (keeps_dropWalkEnd (keeps_emit hs e5)))))
            · exact ends_next (keeps_later (.ite (keeps_takeStoreFault (keeps_dropWalkEnd hs)) (keeps_takeFault
                (keeps_dropWalkEnd hs))))
            · exact ends_next (keeps_later (keeps_engAgain hs))
    · exact ends_next hs

theorem keeps_freeRecords {bt : Batch} {a b : Nat} (hs : Keeps κ s) : Keeps κ (freeRecords s bt a b) := by
  unfold freeRecords
  dsimp only
  split
  · exact hs
  · exact hs.same

theorem keeps_freePopped {h : Here} (hs : Keeps κ s) : Keeps κ (freePopped s h) := by
  unfold freePopped
  dsimp only
  split
  · exact hs
  · split
    · exact hs
    · exact keeps_updBlock (keeps_freeRecords hs)

theorem stays_execRadv (hs : Keeps κ s) : Stays κ (execRadv s) := by
  unfold execRadv
  exact stays_issueWord hs (fun _ => .ite keepsE_trapE (keepsE_bind (keepsE_modifyE (fun _ h1 => keeps_freePopped h1))
    (fun _ _ => keepsE_nextE)))

theorem keeps_dropEntries {core : Nat} {es : List Nat} (hs : Keeps κ s) : Keeps κ (dropEntries s core es) := by
  unfold dropEntries
  exact keeps_foldl (fun _ _ h => keeps_releaseEntry h) _ hs

theorem keeps_changeContext {core : Nat} {c : Ctx} (hs : Keeps κ s) : Keeps κ (changeContext s core c) := by
  unfold changeContext
  dsimp only
  exact keeps_setCore (keeps_dropEntries hs)

theorem keeps_clearOverlaps {core base n : Nat} {rs : List MoorRec} (hs : Keeps κ s) :
    Keeps κ (clearOverlaps s core base n rs) := by
  unfold clearOverlaps
  exact keeps_dropEntries hs

theorem keeps_resetUnits {core : Nat} {k : Kernel} (hs : Keeps κ s) : Keeps κ (resetUnits s core k) := by
  unfold resetUnits
  dsimp only
  split
  · exact hs
  · exact keeps_setCore hs

theorem keeps_placeBlock {launch : Nat} {k : Kernel} {c : Ctx} {plan : List MoorRec} {w : Where} {r : Room}
    (hs : Keeps κ s) : Keeps κ (placeBlock s launch k c plan w r) := by
  unfold placeBlock
  dsimp only
  exact keeps_setBlock (keeps_setDie (keeps_resetUnits (keeps_clearOverlaps (keeps_changeContext (keeps_freshId hs))))
    ((keeps_resetUnits (keeps_clearOverlaps (keeps_changeContext (keeps_freshId hs)))).dies _).same)

theorem keeps_submissionTag {w : NotifyWrite} (hs : Keeps κ s) : Keeps κ (submissionTag s w).2 := by
  unfold submissionTag
  split
  · dsimp only
    exact hs
  · split
    · next e1 =>
      dsimp only
      exact (keeps_freeChoice hs).snd_of e1

theorem keeps_submissionPasid {w : NotifyWrite} (hs : Keeps κ s) : Keeps κ (submissionPasid s w).2 := by
  unfold submissionPasid
  split
  · dsimp only
    exact hs
  · exact keeps_freeChoice hs

theorem ends_execSubmission {w : NotifyWrite} (hs : Keeps κ s) : Ends κ (execSubmission w s) := by
  unfold execSubmission
  dsimp only
  split
  · exact ends_next hs
  · split
    · exact ends_next (keeps_postQref (keeps_submissionPasid (keeps_submissionTag hs)))
    · exact ends_next (keeps_later (keeps_setQi (keeps_freshId hs) (hs.qis _).same))

theorem ends_execSubmissionDecode {qi : QiRef} (hs : Keeps κ s) : Ends κ (execSubmissionDecode qi s) := by
  unfold execSubmissionDecode
  dsimp only
  split
  · exact ends_next hs
  · split
    · exact ends_next (keeps_later hs)
    · split
      · exact ends_next (keeps_postQref (keeps_setQi hs (hs.qis _).same))
      · exact ends_next (keeps_later ((keeps_freshId (keeps_setQi hs (hs.qis _).same)).set_launches))

theorem keeps_refuseLaunch {id : Nat} {l : Launch} {code addr : Nat} (hs : Keeps κ s) :
    Keeps κ (refuseLaunch s id l code addr) := by
  unfold refuseLaunch
  exact keeps_postRec hs.same

theorem keeps_useSlipway {launch : Nat} {w : Slipway} (hs : Keeps κ s) : Keeps κ (useSlipway launch s w) := by
  unfold useSlipway
  dsimp only
  split
  · exact hs.same
  · exact (keeps_freshId hs).same

theorem keeps_beginLaunch {id : Nat} (hs : Keeps κ s) : Keeps κ (beginLaunch s id) := by
  unfold beginLaunch
  dsimp only
  exact keeps_later (keeps_foldl (fun _ _ h => keeps_laterOnce h) _ (keeps_updLaunch (keeps_freshId hs)))

theorem keeps_acceptLaunch {id : Nat} {l : Launch} {k : Kernel} {ws : List Slipway} (hs : Keeps κ s) :
    Keeps κ (acceptLaunch s id l k ws) := by
  unfold acceptLaunch
  dsimp only
  split
  · exact keeps_beginLaunch ((keeps_foldl (fun _ _ h => keeps_useSlipway h) _ (keeps_freshId hs)).set_launches)
  · exact keeps_later ((keeps_foldl (fun _ _ h => keeps_useSlipway h) _ (keeps_freshId hs)).set_launches)

theorem ends_execLaunchAccept {die : Fin 4} (hs : Keeps κ s) : Ends κ (execLaunchAccept die s) := by
  unfold execLaunchAccept
  split
  · exact ends_next hs
  · split
    · exact ends_next (keeps_acceptLaunch hs)
    · exact ends_next (keeps_refuseLaunch hs)
    · exact ends_next (keeps_later (keeps_engAgain hs))

theorem keeps_acquireWait {id : Nat} {l : Launch} (hs : Keeps κ s) : Keeps κ (acquireWait s id l) := by
  unfold acquireWait
  split
  · exact hs
  · exact keeps_updLaunch hs

theorem keeps_forgetSlipways (hs : Keeps κ s) : Keeps κ (forgetSlipways s) := by
  unfold forgetSlipways
  exact hs.same

theorem keeps_wakeSlipways (hs : Keeps κ s) : Keeps κ (wakeSlipways s) := by
  unfold wakeSlipways
  exact keeps_foldl (fun _ _ h => keeps_laterOnce h) _ hs

theorem keeps_doneLaunch {id : Nat} (hs : Keeps κ s) : Keeps κ (doneLaunch s id) := by
  unfold doneLaunch
  exact keeps_wakeSlipways (keeps_forgetSlipways (keeps_updLaunch hs))

theorem keeps_signalPoisoned {l : Launch} {pa : Nat} (hs : Keeps κ s) : Keeps κ (signalPoisoned s l pa) := by
  unfold signalPoisoned
  exact keeps_postRec hs

theorem keeps_signalSent {id : Nat} {l : Launch} (hs : Keeps κ s) : Keeps κ (signalSent s id l) := by
  unfold signalSent
  exact keeps_exchange hs

theorem keeps_raiseIrq {c : Ctx} {i tw k : Nat} {t : State} (hs : Keeps κ s) (e : raiseIrq s c i tw = .done k t) :
    Keeps κ t := by
  unfold raiseIrq at e
  dsimp only at e
  split at e
  · cases e
    exact hs
  · split at e
    · cases e
      exact keeps_irqRefused hs
    · split at e
      · cases e
      · split at e
        · cases e
          exact keeps_irqRefused hs
        · split at e
          · cases e
            exact hs.same
          · split at e
            · cases e
            · split at e
              · cases e
              · next e1 =>
                split at e
                · cases e
                · cases e
                  exact keeps_homeWrite ((keeps_grab hs).snd_of e1)

theorem keeps_raiseTl {c : Ctx} {i v t k : Nat} {err : Bool} {me : Party} {sc : Scope} {u : State} (hs : Keeps κ s)
    (e : raiseTl s c i v err t me sc = .done k u) : Keeps κ u := by
  unfold raiseTl at e
  dsimp only at e
  split at e
  · cases e
  · split at e
    · cases e
    · next e1 =>
      have h1 := (keeps_grab hs).snd_of e1
      split at e
      · cases e
      · split at e
        · cases e
          exact h1
        · split at e
          · exact keeps_raiseIrq (keeps_markBytes (keeps_atomicMarks (keeps_homePut h1))) e
          · cases e
            exact keeps_markBytes (keeps_atomicMarks (keeps_homePut h1))

theorem keeps_completeGrid {id : Nat} {l : Launch} (hs : Keeps κ s) : Keeps κ (completeGrid s id l) := by
  unfold completeGrid
  split
  · exact keeps_doneLaunch hs
  · split
    · exact keeps_later (keeps_refused hs)
    · split
      · next e => exact keeps_doneLaunch (keeps_signalSent (keeps_raiseTl hs e))
      · exact keeps_doneLaunch (keeps_signalPoisoned hs)
      · exact keeps_later (keeps_refused hs)
      · exact keeps_later (keeps_heldBy hs)

theorem ends_execLaunchStart {launch : Nat} (hs : Keeps κ s) : Ends κ (execLaunchStart launch s) := by
  unfold execLaunchStart
  split
  · exact ends_next hs
  · split
    · exact ends_next (.ite (keeps_beginLaunch (keeps_acquireWait hs)) (keeps_later hs))
    · split
      · exact ends_next (keeps_completeGrid hs)
      · exact ends_next hs

theorem keeps_placeFleet {die id : Nat} {l : Launch} {plan : List MoorRec} {rs : List Room} (hs : Keeps κ s) :
    Keeps κ (placeFleet s die id l plan rs) := by
  unfold placeFleet
  dsimp only
  split
  · exact hs
  · exact keeps_foldl (fun _ _ h => keeps_placeBlock h) _ (keeps_updLaunch hs)

theorem keeps_setShare {id die : Nat} {x : Share} (hs : Keeps κ s) : Keeps κ (setShare s id die x) := by
  unfold setShare
  exact keeps_updLaunch hs

theorem keeps_sendCtrl {m : CtrlMsg} (hs : Keeps κ s) : Keeps κ (sendCtrl s m) := by
  unfold sendCtrl
  split
  · next e =>
    exact keeps_later ((keeps_freshId (keeps_drawPacket hs)).snd_of e).same

theorem keeps_askDies {thief id : Nat} {x : Share} {ds : List Nat} (hs : Keeps κ s) :
    Keeps κ (askDies s thief id x ds) := by
  unfold askDies
  split
  · exact keeps_setShare hs
  · split
    · exact keeps_setShare hs
    · exact keeps_sendCtrl (keeps_setShare hs)

theorem keeps_beginSteal {die : Nat} {e : Nat × Launch} (hs : Keeps κ s) : Keeps κ (beginSteal die s e) := by
  unfold beginSteal
  dsimp only
  split
  · exact keeps_askDies hs
  · split
    · exact hs
    · exact keeps_askDies hs

theorem keeps_dropsWait_getD {before after : State} {cores : List Nat} (hs : Keeps κ before) (ht : Keeps κ after) :
    Keeps κ ((dropsWait before after cores).getD after) := by
  cases e : dropsWait before after cores with
  | none => exact ht
  | some t => exact keeps_dropsWait hs e

theorem ends_execBlockPlace {die : Fin 4} (hs : Keeps κ s) : Ends κ (execBlockPlace die s) := by
  unfold execBlockPlace
  have again : ∀ t, Keeps κ t → Keeps κ (if moreToPlace t die.val then laterOnce t (.blockPlace die) else t) :=
    fun t ht => .ite (keeps_laterOnce ht) ht
  dsimp only
  split
  · split
    · exact ends_next (again _ hs)
    · split
      · exact ends_next (again _ (keeps_engAgain hs))
      · exact ends_next (again _ (keeps_dropsWait_getD hs (keeps_placeFleet hs)))
  · exact ends_next (again _ (keeps_laterOnce (keeps_foldl (fun _ _ h => keeps_beginSteal h) _ hs)))

theorem ends_execStealq {thief : Fin 4} {launch : Nat} (hs : Keeps κ s) : Ends κ (execStealq thief launch s) := by
  unfold execStealq
  dsimp only
  split
  · split
    · exact ends_next (keeps_sendCtrl hs.same)
    · exact ends_next (keeps_sendCtrl (keeps_setShare hs.same))
  · exact ends_next hs.same
  · exact ends_next hs

theorem ends_execStealg {thief : Fin 4} {launch : Nat} (hs : Keeps κ s) : Ends κ (execStealg thief launch s) := by
  unfold execStealg
  dsimp only
  split
  · exact ends_next (keeps_laterOnce (keeps_setShare hs.same))
  · exact ends_next hs.same
  · exact ends_next hs

theorem ends_execStealn {thief : Fin 4} {launch : Nat} (hs : Keeps κ s) : Ends κ (execStealn thief launch s) := by
  unfold execStealn
  dsimp only
  split
  · exact ends_next (keeps_laterOnce (keeps_askDies hs.same))
  · exact ends_next hs.same
  · exact ends_next hs

theorem ends_execControlMessage {id : Nat} (hs : Keeps κ s) : Ends κ (execControlMessage id s) := by
  unfold execControlMessage
  split
  · exact ends_next (keeps_later hs)
  · split
    · exact ends_next hs
    · exact ends_next (keeps_later hs)
    · exact ends_next (keeps_later hs)
    · exact ends_next (keeps_later hs)

theorem keeps_launchBatch {i : Nat} {w : Slipway} (hs : Keeps κ s) : Keeps κ (launchBatch s i w) := by
  unfold launchBatch
  dsimp only
  exact keeps_beginLaunch (keeps_freshId (keeps_freshId hs)).same

theorem ends_execSlipwayBatchLaunch {i : Nat} (hs : Keeps κ s) : Ends κ (execSlipwayBatchLaunch i s) := by
  unfold execSlipwayBatchLaunch
  split
  · exact ends_next hs
  · split
    · exact ends_next (keeps_laterOnce (keeps_launchBatch hs))
    · exact ends_next (keeps_forgetSlipways hs)

theorem ends_execSlipwayFlush {i : Nat} (hs : Keeps κ s) : Ends κ (execSlipwayFlush i s) := by
  unfold execSlipwayFlush
  split
  · exact ends_next hs
  · split
    · exact ends_next hs
    · split
      · exact ends_next (keeps_laterOnce (keeps_launchBatch hs))
      · exact ends_next (keeps_laterOnce hs)

theorem keeps_releaseMoorings {b core : Nat} (hs : Keeps κ s) : Keeps κ (releaseMoorings s b core) := by
  unfold releaseMoorings
  dsimp only
  exact keeps_setCore hs

theorem keeps_dropSnapshot {x : Block} (hs : Keeps κ s) : Keeps κ (dropSnapshot s x) := by
  unfold dropSnapshot
  exact keeps_dropEntries hs

theorem keeps_discardSaved {b : Nat} {x : Block} (hs : Keeps κ s) : Keeps κ (discardSaved s b x) := by
  unfold discardSaved
  dsimp only
  exact (keeps_setBlock (keeps_dropSnapshot hs)).same

theorem keeps_releaseBatch {x : Block} (hs : Keeps κ s) : Keeps κ (releaseBatch s x) := by
  unfold releaseBatch
  split
  · exact hs
  · exact keeps_freeRecords hs

theorem keeps_wakeDies (hs : Keeps κ s) : Keeps κ (wakeDies s) := by
  unfold wakeDies
  exact keeps_foldl (fun _ _ h => keeps_laterOnce h) _ hs

theorem keeps_retireBlock {b : Nat} {x : Block} (hs : Keeps κ s) : Keeps κ (retireBlock s b x) := by
  unfold retireBlock
  dsimp only
  exact keeps_later (keeps_wakeSlipways (keeps_wakeDies (keeps_updLaunch ((keeps_setBlock (keeps_releaseBatch
    (keeps_releaseMoorings hs))).set_reqs))))

theorem ends_execBlockRetire {b : Nat} (hs : Keeps κ s) : Ends κ (execBlockRetire b s) := by
  unfold execBlockRetire
  dsimp only
  split
  · exact ends_next hs
  · split
    · refine ends_next ?_
      cases e : dropsWait s _ _ with
      | none => exact keeps_wakeDies (keeps_later (keeps_discardSaved hs))
      | some t => exact keeps_later (keeps_dropsWait hs e)
    · split
      · split
        · exact ends_next (keeps_later (keeps_flushEntries hs))
        · exact ends_next (keeps_retireBlock hs)
      · split
        · exact ends_next (keeps_later hs)
        · exact ends_next hs

end Sys2Proof
end

section
/-! # Invariants: the matrix unit's words, images of blocks, saves and restores. -/

namespace Sys2Proof

open Machine

set_option Elab.async false

variable {κ : Claim} {s : State}

theorem keeps_setUnit {core part : Nat} {u : MatUnit} (hs : Keeps κ s) : Keeps κ (setUnit s core part u) := by
  unfold setUnit
  dsimp only
  exact keeps_setCore hs

theorem keepsE_tilesE {h : Here} {n : Nat} : KeepsE κ (fun _ => True) (tilesE h n) := by
  unfold tilesE
  split
  · exact keepsE_trapE
  · exact keepsE_pure_true

theorem keepsE_queueE {h : Here} : KeepsE κ (fun _ => True) (queueE h) := by
  unfold queueE
  exact keepsE_bind keepsE_getE (fun _ _ => .ite keepsE_waitE keepsE_pure_true)

theorem keepsE_matRangeE {h : Here} {o n : Nat} {wr : Bool} : KeepsE κ (fun _ => True) (matRangeE h o n wr) := by
  unfold matRangeE
  dsimp only
  split
  · exact keepsE_faultE
  · exact keepsE_touchE (fun _ h1 => touchOk_touchStash h1)

theorem keeps_enqueue {h : Here} {id : Nat} {op : MatOp} {ev : Instr} (hs : Keeps κ s) :
    Keeps κ (enqueue s h id op ev) := by
  unfold enqueue
  dsimp only
  exact keeps_later (keeps_updCrew (keeps_setUnit hs))

theorem keeps_enter {h : Here} {op : MatOp} {ev : Instr} (hs : Keeps κ s) : Keeps κ (enter s h op ev) := by
  unfold enter
  split
  · next e =>
    exact keeps_enqueue ((keeps_freshId hs).snd_of e)

theorem keepsE_enqueueE {h : Here} {op : MatOp} {ev : Instr} : KeepsE κ (fun _ => True) (enqueueE h op ev) := by
  unfold enqueueE
  exact keepsE_modifyE (fun _ h1 => keeps_enter h1)

theorem keeps_retag {h : Here} {f : MatUnit → MatUnit} (hs : Keeps κ s) : Keeps κ (retag s h f) := by
  unfold retag
  exact keeps_setUnit hs

theorem stays_execMldw {a b : Opnd} {wf : WFmt} (hs : Keeps κ s) : Stays κ (execMldw a b wf s) := by
  unfold execMldw
  dsimp only
  exact stays_issueWord hs (fun _ => keepsE_bind keepsE_getE (fun _ _ => keepsE_bind keepsE_tilesE (fun _ _ =>
    keepsE_bind (keepsE_forM (fun _ => keepsE_matRangeE) _) (fun _ _ => keepsE_bind keepsE_queueE (fun _ _ =>
    keepsE_bind keepsE_drainE (fun _ _ => keepsE_bind keepsE_enqueueE (fun _ _ => keepsE_bind (keepsE_modifyE
    (fun _ h7 => keeps_retag h7)) (fun _ _ => keepsE_nextE))))))))

theorem keepsE_pendE {h : Here} {cs : List Nat} : KeepsE κ (fun _ => True) (pendE h cs) := by
  unfold pendE
  exact keepsE_updCrewE

theorem stays_execMswap {d : Opnd} (hs : Keeps κ s) : Stays κ (execMswap d s) := by
  unfold execMswap
  exact stays_issueWord hs (fun _ => keepsE_bind keepsE_tilesE (fun _ _ => keepsE_bind keepsE_queueE (fun _ _ =>
    keepsE_bind keepsE_enqueueE (fun _ _ => keepsE_bind (keepsE_modifyE (fun _ h4 => keeps_retag h4)) (fun _ _ =>
    keepsE_bind keepsE_pendE (fun _ _ => keepsE_nextE))))))

theorem stays_execMlut {sb : Nat} (hs : Keeps κ s) : Stays κ (execMlut sb s) := by
  unfold execMlut
  exact stays_issueWord hs (fun _ => keepsE_bind keepsE_tilesE (fun _ _ => keepsE_bind keepsE_queueE (fun _ _ =>
    keepsE_bind keepsE_crewE (fun _ _ => keepsE_bind keepsE_enqueueE (fun _ _ => keepsE_nextE)))))

theorem stays_execMzero {g : Guard} {tile : Fin 8} (hs : Keeps κ s) : Stays κ (execMzero g tile s) := by
  unfold execMzero
  exact stays_issueWord hs (fun _ => keepsE_bind keepsE_tilesE (fun _ _ => keepsE_bind keepsE_queueE (fun _ _ =>
    keepsE_bind keepsE_enqueueE (fun _ _ => keepsE_nextE))))

theorem keeps_quarter {h : Here} {x : MmaOp} {id : Nat} {tile : Nat} {q : Nat × List (Nat × Nat)} (hs : Keeps κ s) :
    Keeps κ (quarter h x id tile s q) := by
  unfold quarter
  dsimp only
  split
  · split
    · split
      · split
        · exact keeps_setUnit hs
        · exact keeps_updCrew (keeps_setUnit hs)
      · split
        · exact keeps_setUnit hs
        · exact keeps_updCrew (keeps_setUnit hs)
    · exact hs
  · exact keeps_enqueue hs

theorem keeps_enterQuarters {h : Here} {x : MmaOp} {m : Mask} {off : Nat → Nat} (hs : Keeps κ s) :
    Keeps κ (enterQuarters s h x m off) := by
  unfold enterQuarters
  split
  · next e =>
    split
    · exact keeps_enqueue ((keeps_freshId hs).snd_of e)
    · split
      · exact keeps_enqueue ((keeps_freshId hs).snd_of e)
      · exact keeps_foldl (fun _ _ h1 => keeps_quarter h1) _ ((keeps_freshId hs).snd_of e)

theorem stays_execMma {x : MmaOp} (hs : Keeps κ s) : Stays κ (execMma x s) := by
  unfold execMma
  dsimp only
  exact stays_issueWord hs (fun _ => keepsE_bind keepsE_getE (fun _ _ => keepsE_bind keepsE_tilesE (fun _ _ =>
    keepsE_guard keepsE_trapE (fun _ => keepsE_bind (keepsE_forM (fun _ => keepsE_matRangeE) _) (fun _ _ =>
    keepsE_bind keepsE_queueE (fun _ _ => keepsE_bind keepsE_drainE (fun _ _ => keepsE_bind (keepsE_modifyE
    (fun _ h6 => keeps_enterQuarters h6)) (fun _ _ => keepsE_nextE))))))))

theorem stays_execMrd {x : MrdOp} (hs : Keeps κ s) : Stays κ (execMrd x s) := by
  unfold execMrd
  dsimp only
  exact stays_issueWord hs (fun _ => keepsE_bind keepsE_tilesE (fun _ _ => keepsE_bind keepsE_queueE (fun _ _ =>
    keepsE_bind keepsE_enqueueE (fun _ _ => keepsE_guard keepsE_pendE (fun _ => keepsE_nextE)))))

theorem stays_execMst {x : MstOp} (hs : Keeps κ s) : Stays κ (execMst x s) := by
  unfold execMst
  dsimp only
  exact stays_issueWord hs (fun _ => keepsE_bind keepsE_getE (fun _ _ => keepsE_bind keepsE_tilesE (fun _ _ =>
    keepsE_guard keepsE_matRangeE (fun _ => keepsE_guard keepsE_matRangeE (fun _ => keepsE_bind (keepsE_forM (fun _ =>
    keepsE_matRangeE) _) (fun _ _ => keepsE_bind keepsE_queueE (fun _ _ => keepsE_bind keepsE_drainE (fun _ _ =>
    keepsE_bind keepsE_enqueueE (fun _ _ => keepsE_nextE)))))))))

theorem stays_execMfence {d : Opnd} (hs : Keeps κ s) : Stays κ (execMfence d s) := by
  unfold execMfence
  exact stays_issueWord hs (fun _ => keepsE_bind keepsE_tilesE (fun _ _ => keepsE_bind keepsE_queueE (fun _ _ =>
    keepsE_bind keepsE_enqueueE (fun _ _ => keepsE_bind keepsE_updCrewE (fun _ _ => keepsE_nextE)))))

theorem keeps_readArms {x : Block} {bs : List Byte} {o : Nat} (hs : Keeps κ s) : Keeps κ (readArms s x bs o) := by
  unfold readArms
  split
  · exact hs.same
  · exact hs

theorem keeps_preemptBlock {b : Nat} (hs : Keeps κ s) : Keeps κ (preemptBlock s b) := by
  unfold preemptBlock
  split
  · exact hs
  · split
    · exact keeps_setBlock hs
    · split
      · exact keeps_later (keeps_setBlock hs)
      · exact keeps_beginSaveOne hs

theorem ends_execPreempt {die : Fin 4} (hs : Keeps κ s) : Ends κ (execPreempt die s) := by
  unfold execPreempt
  split
  · exact ends_next hs
  · split
    · exact ends_next (keeps_laterOnce hs)
    · split
      · exact ends_next hs
      · split
        · next e3 =>
          split
          · exact ends_next (keeps_foldl (fun _ _ h => keeps_preemptBlock h) _ ((Keeps.ite_snd hs
              (keeps_freeChoice hs)).snd_of e3))
          · exact ends_next hs

theorem keeps_preemptToo {before : State} {b core : Nat} (hs : Keeps κ s) : Keeps κ (preemptToo before b core s) := by
  unfold preemptToo
  dsimp only
  split
  · exact hs
  · split
    · exact hs
    · split
      · split
        · exact keeps_foldl (fun _ _ h => keeps_preemptBlock h) _ (keeps_freeChoice hs)
        · exact keeps_freeChoice hs
      · exact keeps_freeChoice hs

theorem ends_execCheckpointWindowExpiry {b : Nat} (hs : Keeps κ s) : Ends κ (execCheckpointWindowExpiry b s) := by
  unfold execCheckpointWindowExpiry
  split
  · exact ends_next hs
  · split
    · exact ends_next hs
    · split
      · exact ends_next (keeps_later hs)
      · split
        · exact ends_next hs
        · split
          · exact ends_next (keeps_endWindow hs)
          · exact ends_next (keeps_later hs)

theorem ends_execParkSaveTimeout {b : Nat} (hs : Keeps κ s) : Ends κ (execParkSaveTimeout b s) := by
  unfold execParkSaveTimeout
  dsimp only
  split
  · exact ends_next hs
  · split
    · exact ends_next (keeps_preemptToo (keeps_beginSave (by
          split
          · exact keeps_setBlock hs
          · exact hs)))
    · exact ends_next hs

theorem keeps_countOutside (hs : Keeps κ s) : Keeps κ (countOutside s) := by
  unfold countOutside
  dsimp only
  exact hs.same

theorem ends_execOutsideWaitSave {b : Nat} (hs : Keeps κ s) : Ends κ (execOutsideWaitSave b s) := by
  unfold execOutsideWaitSave
  split
  · exact ends_next hs
  · split
    · split
      · exact ends_next (keeps_preemptToo (keeps_beginSave (keeps_setBlock hs)))
    · exact ends_next hs

theorem keeps_takeSnapshot {b core : Nat} (hs : Keeps κ s) : Keeps κ (takeSnapshot s b core).2 := by
  unfold takeSnapshot
  dsimp only
  exact keeps_foldl (fun _ _ h => keeps_setCore h) _ hs

theorem keeps_postSaved {b die : Nat} {addr : DWord} {rs : List FRec} (hs : Keeps κ s) :
    Keeps κ (postSaved s b die addr rs).2 := by
  induction rs generalizing s with
  | nil => exact hs
  | cons r q ih => exact ih (keeps_postAck hs)

theorem keeps_reportPool {before after : State} (hafter : Keeps κ after) : Keeps κ (reportPool before after) := by
  unfold reportPool
  split
  · exact keeps_postRec hafter
  · exact hafter

theorem keeps_moveStash {core off core' off' n : Nat} (hs : Keeps κ s) :
    Keeps κ (moveStash s core off core' off' n) := by
  unfold moveStash
  dsimp only
  exact hs.same

theorem Keeps.set_poolUsed (h : Keeps κ s) {n : Nat} {l : List Nat} :
    Keeps κ { s with free := n, regs := { s.regs with poolUsed := l } } := h.same

theorem keeps_completeSave {b slot : Nat} {x : Block} (hs : Keeps κ s) : Keeps κ (completeSave s b slot x) := by
  unfold completeSave
  dsimp only
  exact keeps_wakeDies (keeps_later (keeps_postCopies (keeps_setBlock (keeps_moveStash (keeps_postSaved
    (keeps_reportPool (keeps_writePlace (keeps_takeSnapshot hs)).set_poolUsed))))))

theorem ends_execSaveComplete {b : Nat} (hs : Keeps κ s) : Ends κ (execSaveComplete b s) := by
  unfold execSaveComplete
  dsimp only
  split
  · exact ends_next hs
  · split
    · exact ends_next hs
    · split
      · exact ends_next (keeps_later hs)
      · split
        · exact ends_next (keeps_later (keeps_foldl (fun _ _ h => keeps_startFlush h) _ (keeps_parkBlock hs)))
        · split
          · exact ends_next (keeps_parkBlock hs)
          · split
            · exact ends_next (keeps_later (keeps_parkBlock hs))
            · split
              · exact ends_next (keeps_completeSave (keeps_parkBlock hs))
              · exact ends_next (keeps_later (keeps_engAgain (keeps_parkBlock hs)))
              · exact ends_next (keeps_later (keeps_parkBlock hs))

theorem keeps_restoreEntry {core base b : Nat} {c : Ctx} {e : Nat × MoorRec} (hs : Keeps κ s) :
    Keeps κ (restoreEntry core base b c s e) := by
  unfold restoreEntry
  dsimp only
  split
  · exact keeps_ownEntry hs
  · split
    · exact keeps_makeEntry (by
          split
          · exact keeps_releaseEntry hs
          · exact hs)
    · exact by
          split
          · exact keeps_releaseEntry hs
          · exact hs

theorem keeps_sendStore {n : Nat} {r : Req} {t : Tlb} (hs : Keeps κ s) : Keeps κ (sendStore s n r t) := by
  unfold sendStore
  dsimp only
  split
  · exact keeps_later hs.same
  · exact hs
  · exact hs

theorem keeps_replayStore {b : Nat} {x : Block} {e : Nat × Req} (hs : Keeps κ s) : Keeps κ (replayStore s b x e) := by
  unfold replayStore
  dsimp only
  split
  · exact hs.same
  · split
    · exact keeps_sendStore hs
    · exact (keeps_startWalk hs).set_reqs
  · exact hs
  · exact hs

theorem keeps_replayLost {ms : List Moved} {b : Nat} {x : Block} (hs : Keeps κ s) : Keeps κ (replayLost ms s b x) := by
  unfold replayLost
  dsimp only
  exact keeps_foldl (fun _ _ h => keeps_later h.same) _ hs

theorem keeps_loadStash {bs : List Byte} {x : Block} {core base : Nat} (hs : Keeps κ s) :
    Keeps κ (loadStash s bs x core base) := by
  unfold loadStash
  dsimp only
  exact keeps_writePlace (keeps_foldl (fun _ _ h => .ite h (keeps_writePlace h)) _ hs)

theorem keeps_loadImage {b : Nat} {bs : List Byte} {x : Block} {core base : Nat} (hs : Keeps κ s) :
    Keeps κ (loadImage s b bs x core base).2 := by
  unfold loadImage
  dsimp only
  split
  · dsimp only
    exact keeps_foldl (fun _ _ h => h.same) _ (keeps_readArms (keeps_loadStash hs))
  · dsimp only
    exact keeps_foldl (fun _ _ h => keeps_setUnit h) _ (keeps_foldl (fun _ _ h => h.same) _ (keeps_readArms
      (keeps_loadStash hs)))

theorem keeps_moveMark {x : Block} {core : Nat} (hs : Keeps κ s) : Keeps κ (moveMark s x core).2 := by
  unfold moveMark
  split
  · dsimp only
    exact hs
  · split
    · next e1 =>
      dsimp only
      exact (keeps_freshId hs).snd_of e1

theorem keeps_tookImage {x : Block} {core : Nat} (hs : Keeps κ s) : Keeps κ (tookImage s x core) := by
  unfold tookImage
  dsimp only
  exact keeps_setDie hs.same (hs.same.dies _).same

theorem keeps_restoreBlock {ms : List Moved} {p : (Nat × Room) × List MoorRec} (hs : Keeps κ s) :
    Keeps κ (restoreBlock ms s p) := by
  unfold restoreBlock
  dsimp only
  split
  · exact hs
  · exact keeps_later (keeps_foldl (fun _ _ h => keeps_replayStore h) _ (keeps_replayLost (keeps_setBlock
      (keeps_tookImage (keeps_moveMark (keeps_foldl (fun _ _ h => keeps_restoreEntry h) _ (keeps_loadImage
      (keeps_moveStash (keeps_clearOverlaps (keeps_changeContext hs))))))))))

theorem keeps_finishRestore {b : Nat} {x : Block} (hs : Keeps κ s) : Keeps κ (finishRestore s b x) := by
  unfold finishRestore
  split
  · exact keeps_later hs
  · split
    · exact keeps_resumeBlock hs
    · exact keeps_later (keeps_writeOutStep hs)

theorem keeps_dockBad {b : Nat} {x : Block} {core : Nat} (hs : Keeps κ s) : Keeps κ (dockBad s b x core) := by
  unfold dockBad
  dsimp only
  exact keeps_endGrid (keeps_postRec hs)

theorem ends_execBlockRestore {b : Nat} (hs : Keeps κ s) : Ends κ (execBlockRestore b s) := by
  unfold execBlockRestore
  dsimp only
  split
  · exact ends_next hs
  · split
    · exact ends_next hs
    · split
      · exact ends_next (keeps_finishRestore hs)
      · split
        · exact ends_next hs
        · split
          · split
            · exact ends_next (keeps_later (keeps_setBlock (keeps_freshId hs)))
            · exact ends_next (keeps_later hs)
          · split
            · exact ends_next (keeps_later hs)
            · split
              · exact ends_next (keeps_dockBad hs)
              · split
                · exact ends_next (keeps_later (keeps_engAgain hs))
                · refine ends_next ?_
                  cases e : dropsWait s _ _ with
                  | none => exact keeps_wakeDies (keeps_foldl (fun _ _ h => keeps_restoreBlock h) _ hs)
                  | some t => exact keeps_later (keeps_dropsWait hs e)

end Sys2Proof
end

section
/-! # Invariants: time, the agenda, loads, stores and atomics. -/

namespace Sys2Proof

open Machine

set_option Elab.async false

variable {κ : Claim} {s : State}

theorem keepsE_barE {h : Here} {a : Opnd} : KeepsE κ (fun _ => True) (barE h a) := by
  unfold barE
  exact keepsE_bind keepsE_getE (fun _ _ => by
      split
      · exact keepsE_bind keepsE_meshE (fun _ _ => keepsE_bind keepsE_orderE (fun _ _ => keepsE_bind keepsE_updCrewE
          (fun _ _ => keepsE_pure_true)))
      · exact keepsE_trapE)

theorem keepsE_goodBarE {h : Here} {a : Opnd} : KeepsE κ (fun _ => True) (goodBarE h a) := by
  unfold goodBarE
  exact keepsE_bind keepsE_barE (fun _ _ => keepsE_bind keepsE_getE (fun _ _ => .ite keepsE_pure_true keepsE_trapE))

theorem stays_execBinit {a b : Opnd} {c : Option Opnd} (hs : Keeps κ s) : Stays κ (execBinit a b c s) := by
  unfold execBinit
  dsimp only
  exact stays_issueWord hs (fun _ => keepsE_bind keepsE_barE (fun _ _ => keepsE_bind keepsE_getE (fun _ _ =>
    .ite keepsE_trapE (keepsE_bind (keepsE_modifyE (fun _ h3 => (keeps_writeBar (keeps_meshSent h3)).set_bars))
    (fun _ _ => keepsE_nextE)))))

theorem stays_execBarv {d a b : Opnd} (hs : Keeps κ s) : Stays κ (execBarv d a b s) := by
  unfold execBarv
  dsimp only
  exact stays_issueWord hs (fun _ => keepsE_bind keepsE_goodBarE (fun _ _ => keepsE_bind keepsE_getE (fun _ _ =>
    .ite keepsE_trapE (keepsE_bind keepsE_drainE (fun _ _ => keepsE_bind (keepsE_modifyE (fun _ h4 => keeps_creditBar
    (keeps_meshSent h4))) (fun _ _ => keepsE_bind keepsE_updCrewE (fun _ _ => keepsE_nextE)))))))

theorem stays_execBpar {pd : Fin 8} {a : Opnd} (hs : Keeps κ s) : Stays κ (execBpar pd a s) := by
  unfold execBpar
  exact stays_issueWord hs (fun _ => keepsE_bind keepsE_goodBarE (fun _ _ => keepsE_bind keepsE_getE (fun _ _ =>
    keepsE_bind (keepsE_modifyE (fun _ h3 => keeps_meshSent h3)) (fun _ _ => keepsE_bind keepsE_updCrewE (fun _ _ =>
    keepsE_nextE)))))

theorem keeps_startWait {h : Here} {o : WaitObj} {pd : Fin 8} {dl : Option Nat} (hs : Keeps κ s) :
    Keeps κ (startWait s h o pd dl) := by
  unfold startWait
  dsimp only
  exact keeps_waitSlot (by
      split
      · exact keeps_later hs
      · split
        · exact keeps_markWait (keeps_meshSent hs)
        · exact hs)

theorem keepsE_waitBody {pd : Fin 8} {c : Option Opnd} {obj : Here → Exec WaitObj} {h : Here}
    (hobj : ∀ a', KeepsE κ (fun _ => True) (obj a')) : KeepsE κ (fun _ => True) (waitBody pd c obj h) := by
  unfold waitBody
  split
  · exact keepsE_trapE
  · exact keepsE_bind (hobj _) (fun _ _ => keepsE_modifyE (fun _ h2 => .ite (keeps_endWait h2) (keeps_startWait h2)))

theorem stays_execWaitBar {pd : Fin 8} {a b : Opnd} {c : Option Opnd} (hs : Keeps κ s) :
    Stays κ (execWaitBar pd a b c s) := by
  unfold execWaitBar
  exact stays_issueWord hs (fun _ => keepsE_waitBody (fun _ => keepsE_bind keepsE_goodBarE (fun _ _ =>
    keepsE_bind keepsE_getE (fun _ _ => keepsE_pure_true))))

theorem keepsE_bmpReadyE {h : Here} {va : Nat} : KeepsE κ (fun _ => True) (bmpReadyE h va) := by
  unfold bmpReadyE
  split
  · exact keepsE_bind keepsE_engReadE (fun _ _ => keepsE_pure_true)
  · exact keepsE_bind keepsE_stashE (fun _ _ => keepsE_pure_true)

theorem stays_execWaitBmp {pd : Fin 8} {a b : Opnd} {c : Option Opnd} (hs : Keeps κ s) :
    Stays κ (execWaitBmp pd a b c s) := by
  unfold execWaitBmp
  dsimp only
  exact stays_issueWord hs (fun _ => keepsE_waitBody (fun _ => keepsE_bind keepsE_getE (fun _ _ => .ite keepsE_trapE
    (keepsE_bind keepsE_bmpReadyE (fun _ _ => keepsE_pure_true)))))

theorem stays_execWaitAc {pd : Fin 8} {n : Fin 16} {c : Option Opnd} (hs : Keeps κ s) :
    Stays κ (execWaitAc pd n c s) := by
  unfold execWaitAc
  exact stays_issueWord hs (fun _ => keepsE_waitBody (fun _ => keepsE_pure_true))

theorem stays_execWaitTl {pd : Fin 8} {a b : Opnd} {c : Option Opnd} (hs : Keeps κ s) :
    Stays κ (execWaitTl pd a b c s) := by
  unfold execWaitTl
  exact stays_issueWord hs (fun _ => keepsE_waitBody (fun _ => keepsE_bind keepsE_getE (fun _ _ => by
      split
      · exact keepsE_pure_true
      · exact keepsE_trapE)))

theorem ends_notYet {i : Instr} (hs : Keeps κ s) : Ends κ (notYet s i) := by
  unfold notYet
  exact ends_next (keeps_later hs)

theorem ends_execWaitWake {r : SlotRef} (hs : Keeps κ s) : Ends κ (execWaitWake r s) := by
  unfold execWaitWake
  split
  · exact ends_next hs
  · split
    · split
      · exact ends_next (keeps_endWait hs)
      · exact ends_next hs
    · exact ends_next hs

theorem ends_execWaitTimeout {r : SlotRef} (hs : Keeps κ s) : Ends κ (execWaitTimeout r s) := by
  unfold execWaitTimeout
  split
  · exact ends_next hs
  · split
    · split
      · exact ends_next (keeps_endWait hs)
      · exact ends_next hs
    · exact ends_next hs

theorem ends_execSleepExpiry {r : SlotRef} (hs : Keeps κ s) : Ends κ (execSleepExpiry r s) := by
  unfold execSleepExpiry
  split
  · exact ends_next hs
  · split
    · split
      · exact ends_next (keeps_nextWord hs)
      · exact ends_notYet hs
    · exact ends_next hs

theorem ends_execStarvationIssue {r : SlotRef} (hs : Keeps κ s) : Ends κ (execStarvationIssue r s) := by
  unfold execStarvationIssue
  dsimp only
  split
  · exact ends_next hs
  · split
    · exact ends_next (keeps_updSlot hs)
    · exact ends_next hs

theorem ends_execFairnessPrecedence {r : SlotRef} (hs : Keeps κ s) : Ends κ (execFairnessPrecedence r s) := by
  unfold execFairnessPrecedence
  dsimp only
  split
  · exact ends_next hs
  · split
    · exact ends_next (keeps_updSlot hs)
    · exact ends_next hs

theorem ends_execDivergencePop {blk crew : Nat} (hs : Keeps κ s) : Ends κ (execDivergencePop blk crew s) := by
  unfold execDivergencePop
  split
  · exact ends_next (.ite (keeps_putCrew hs) hs)
  · exact ends_next hs

theorem keeps_passTime (hs : Keeps κ s) : Keeps κ (passTime s) := by
  unfold passTime
  dsimp only
  exact (keeps_sweepCxl (keeps_countOutside hs)).same

theorem keeps_glimpse {h : Here} {g : Nat} {p : Place} (hs : Keeps κ s) : Keeps κ (glimpse s h g p) := by
  unfold glimpse
  exact keeps_updCrew hs

theorem keeps_glimpseStash {h : Here} (hs : Keeps κ s) : Keeps κ (glimpseStash s h) := by
  unfold glimpseStash
  dsimp only
  split
  · exact keeps_freeChoice hs
  · exact keeps_glimpse (keeps_freeChoice hs)

theorem keeps_glimpseHome {h : Here} {p : Tlb} {ps : List Tlb} (hs : Keeps κ s) : Keeps κ (glimpseHome s h p ps) := by
  unfold glimpseHome
  dsimp only
  split
  · exact keeps_freeChoice (keeps_freeChoice hs)
  · split
    · next e1 =>
      exact (keeps_grab ((keeps_freeChoice (keeps_freeChoice hs)).set_actor)).snd_of e1
    · next e1 =>
      exact keeps_glimpse (keeps_leaseFill (keeps_fillL2 (keeps_sentBy ((keeps_grab ((keeps_freeChoice
        (keeps_freeChoice hs)).set_actor)).snd_of e1))))

theorem keeps_readAhead {r : SlotRef} (hs : Keeps κ s) : Keeps κ (readAhead s r) := by
  unfold readAhead
  split
  · exact hs
  · split
    · next e1 =>
      split
      · split
        · exact keeps_glimpseHome ((keeps_freeChoice hs).snd_of e1)
        · exact keeps_glimpseStash ((keeps_freeChoice hs).snd_of e1)
      · exact keeps_glimpseStash ((keeps_freeChoice hs).snd_of e1)

theorem keeps_issuing {r : SlotRef} (hs : Keeps κ s) : Keeps κ (issuing s r) := by
  unfold issuing
  exact hs.same

theorem keeps_taken {n : Nat} {i : Instr} (hs : Keeps κ s) : Keeps κ (taken s n i) := by
  unfold taken
  exact hs.same

theorem keeps_takeRecordFault {h : Here} {va : Nat} (hs : Keeps κ s) : Keeps κ (takeRecordFault s h va) := by
  unfold takeRecordFault
  dsimp only
  exact keeps_takeStoreFault ((keeps_freshId hs).set_reqs)

theorem keepsE_bufRecE {h : Here} {x : MemOp} {wr : Bool} : KeepsE κ (fun _ => True) (bufRecE h x wr) := by
  unfold bufRecE
  dsimp only
  split
  · exact keepsE_pure_true
  · exact keepsE_bind keepsE_getE (fun _ _ => keepsE_bind keepsE_engReadE (fun _ _ => .ite keepsE_pure_true (.ite
      (keepsE_stopWith (fun _ h3 => keeps_takeRecordFault h3)) keepsE_faultE)))

theorem keepsE_bufPairE {h : Here} {x : MemOp} {b : Option BufRec} : KeepsE κ (fun _ => True) (bufPairE h x b) := by
  unfold bufPairE
  dsimp only
  split
  · split
    · exact keepsE_trapE
    · split
      · exact keepsE_trapE
      · exact keepsE_pure_true
  · split
    · exact keepsE_trapE
    · split
      · exact keepsE_regsReadyE
      · exact keepsE_pure_true

theorem keepsE_bufOutE {α : Type} {h : Here} {va : Nat} {wr : Bool} {Q : α → Prop} : KeepsE κ Q (bufOutE h va wr) := by
  unfold bufOutE
  refine keepsE_stopWith fun s hs => ?_
  split
  next e =>
    exact .ite (keeps_takeStoreFault ((keeps_freeChoice hs).snd_of e)) (keeps_takeFault
      ((keeps_freeChoice hs).snd_of e))

theorem keepsE_loadVaE {h : Here} {x : MemOp} {b : Option BufRec} {l : Nat} :
    KeepsE κ (fun _ => True) (loadVaE h x b l) := by
  unfold loadVaE
  exact keepsE_bind keepsE_getE (fun _ _ => by
      split
      · exact keepsE_pure_true
      · split
        · exact keepsE_pure_true
        · exact keepsE_pure_true
        · exact keepsE_bufOutE)

theorem keepsE_piecesE {h : Here} {d : Opnd} {m : Mask} {l va n : Nat} {xs : List Seg} :
    KeepsE κ (fun _ => True) (piecesE h d m l va n xs) := by
  unfold piecesE
  exact keepsE_bind (keepsE_mapM (fun _ => keepsE_bind keepsE_getE (fun _ _ => .ite keepsE_faultE
    (.ite keepsE_faultE keepsE_pure_true))) _) (fun _ _ => keepsE_pure_true)

theorem keepsE_splitLaneE {h : Here} {d : Opnd} {m : Mask} {md : LoadMode} {l va n : Nat} :
    KeepsE κ (fun _ => True) (splitLaneE h d m md l va n) := by
  unfold splitLaneE
  split
  · exact keepsE_bind keepsE_segsE (fun _ _ => .ite keepsE_pure_true keepsE_piecesE)
  · exact keepsE_faultE
  · split
    · exact keepsE_pure_true
    · exact keepsE_bind keepsE_stashE (fun _ _ => keepsE_pure_true)

theorem keepsE_loadVasE {h : Here} {x : MemOp} {b : Option BufRec} {m : Mask} :
    KeepsE κ (fun _ => True) (loadVasE h x b m) := by
  unfold loadVasE
  exact keepsE_bind (keepsE_mapM (fun _ => keepsE_bind keepsE_loadVaE (fun _ _ => keepsE_pure_true)) _) (fun _ _ =>
    keepsE_pure_true)

theorem keepsE_readNowE {h : Here} {x : MemOp} {b : Option BufRec} {md : LoadMode} {m : Mask} {vs : List (Nat × Nat)} :
    KeepsE κ (fun _ => True) (readNowE h x b md m vs) := by
  unfold readNowE
  exact keepsE_mapM (fun _ => keepsE_bind keepsE_loadBytesE (fun _ _ => keepsE_pure_true)) _

theorem keepsE_gatherE {h : Here} {x : MemOp} {b : Option BufRec} {md : LoadMode} {m : Mask}
    {later : List Piece → Exec Bool} (hlater : ∀ a', KeepsE κ (fun _ => True) (later a')) : KeepsE κ (fun _ => True)
    (gatherE h x b md m later) := by
  unfold gatherE
  exact keepsE_bind keepsE_loadVasE (fun _ _ => keepsE_bind (keepsE_mapM (fun _ => keepsE_splitLaneE) _) (fun _ _ =>
    keepsE_bind (hlater _) (fun _ _ => .ite (keepsE_bind keepsE_readNowE (fun _ _ => keepsE_pure_true))
    (keepsE_bind keepsE_readNowE (fun _ _ => keepsE_pure_true)))))

theorem keepsE_anyTimeE {α : Type} {ps : List α} : KeepsE κ (fun _ => True) (anyTimeE ps) := by
  unfold anyTimeE
  split
  · exact keepsE_pure_true
  · exact keepsE_of_goes_on fun s hs => ⟨_, _, rfl, keeps_freeChoice (n := 2) hs⟩

theorem keeps_loadMesh {h : Here} {ps : List Piece} (hs : Keeps κ s) : Keeps κ (loadMesh h ps s) := by
  unfold loadMesh
  exact keeps_foldl (fun _ _ h1 => keeps_meshSent h1) _ hs

theorem keeps_finishLoad {h : Here} {x : MemOp} {b : Option BufRec} {m : Mask} {g : Gather} (hs : Keeps κ s) :
    Keeps κ (finishLoad s h x b m g) := by
  unfold finishLoad
  split
  · exact keeps_updCrew hs
  · exact keeps_addReq (keeps_updCrew (keeps_loadMesh hs))

theorem keepsE_loadBody {x : MemOp} {md : LoadMode} {h : Here} : KeepsE κ (fun _ => True) (loadBody x md h) := by
  unfold loadBody
  dsimp only
  split
  · exact keepsE_nextE
  · exact keepsE_bind keepsE_bufRecE (fun _ _ => keepsE_bind keepsE_bufPairE (fun _ _ => keepsE_bind (keepsE_gatherE
      (fun _ => keepsE_anyTimeE)) (fun _ _ => keepsE_bind (keepsE_modifyE (fun _ h4 => keeps_finishLoad h4))
      (fun _ _ => keepsE_nextE))))

theorem stays_execLd {x : MemOp} (hs : Keeps κ s) : Stays κ (execLd x s) := by
  unfold execLd
  exact stays_issueWord hs (fun _ => keepsE_loadBody)

theorem stays_execLdro {x : MemOp} (hs : Keeps κ s) : Stays κ (execLdro x s) := by
  unfold execLdro
  exact stays_issueWord hs (fun _ => keepsE_loadBody)

theorem keepsE_gatherStashE {h : Here} {x : MemOp} {m : Mask} : KeepsE κ (fun _ => True) (gatherStashE h x m) := by
  unfold gatherStashE
  dsimp only
  exact keepsE_bind keepsE_getE (fun _ _ => keepsE_bind (keepsE_mapM (fun _ => keepsE_bind keepsE_stashE (fun _ _ =>
    keepsE_pure_true)) _) (fun _ _ => keepsE_bind keepsE_anyTimeE (fun _ _ => .ite keepsE_pure_true (keepsE_bind
    (keepsE_mapM (fun _ => keepsE_bind keepsE_stashReadE (fun _ _ => keepsE_pure_true)) _) (fun _ _ =>
    keepsE_pure_true)))))

theorem stays_execLds {x : MemOp} (hs : Keeps κ s) : Stays κ (execLds x s) := by
  unfold execLds
  dsimp only
  exact stays_issueWord hs (fun _ => .ite keepsE_nextE (keepsE_bind keepsE_gatherStashE (fun _ _ => keepsE_bind
    (keepsE_modifyE (fun _ h2 => keeps_finishLoad h2)) (fun _ _ => keepsE_nextE))))

theorem keepsE_storeLaneE {h : Here} {x : MemOp} {b : Option BufRec} {l : Nat} :
    KeepsE κ (fun _ => True) (storeLaneE h x b l) := by
  unfold storeLaneE
  dsimp only
  exact keepsE_bind keepsE_getE (fun _ _ => by
      split
      · exact keepsE_pure_true
      · split
        · exact keepsE_pure_true
        · exact keepsE_pure_true
        · exact keepsE_bufOutE)

theorem keepsE_originE {h : Here} : KeepsE κ (fun _ => True) (originE h) := by
  unfold originE
  exact keepsE_bind keepsE_getE (fun _ _ => .ite keepsE_waitE keepsE_pure_true)

theorem stays_execSt {x : MemOp} (hs : Keeps κ s) : Stays κ (execSt x s) := by
  unfold execSt
  dsimp only
  exact stays_issueWord hs (fun _ => .ite keepsE_nextE (keepsE_bind keepsE_originE (fun _ _ =>
    keepsE_bind keepsE_bufRecE (fun _ _ => keepsE_bind keepsE_bufPairE (fun _ _ => keepsE_guard keepsE_drainE (fun _ =>
    keepsE_bind (keepsE_mapM (fun _ => keepsE_storeLaneE) _) (fun _ _ => keepsE_bind keepsE_storeLanesE (fun _ _ =>
    keepsE_bind keepsE_updCrewE (fun _ _ => keepsE_nextE)))))))))

theorem stays_execSts {x : MemOp} (hs : Keeps κ s) : Stays κ (execSts x s) := by
  unfold execSts
  dsimp only
  exact stays_issueWord hs (fun _ => .ite keepsE_nextE (keepsE_bind keepsE_getE (fun _ _ =>
    keepsE_bind keepsE_storeStashE (fun _ _ => keepsE_bind (keepsE_modifyE (fun _ h3 => keeps_putStashes h3))
    (fun _ _ => keepsE_nextE)))))

theorem stays_execLdsp {x : MemOp} {ac : Fin 16} (hs : Keeps κ s) : Stays κ (execLdsp x ac s) := by
  unfold execLdsp
  dsimp only
  exact stays_issueWord hs (fun _ => .ite keepsE_nextE (keepsE_guard keepsE_waitE (fun _ => keepsE_bind keepsE_bufRecE
    (fun _ _ => keepsE_bind keepsE_bufPairE (fun _ _ => keepsE_bind (keepsE_gatherE (fun _ => keepsE_pure_true))
    (fun _ _ => keepsE_bind keepsE_updCrewE (fun _ _ => keepsE_bind (keepsE_modifyE (fun _ h5 => keeps_addReq
    (keeps_loadMesh h5))) (fun _ _ => keepsE_nextE))))))))

theorem keepsE_homeReadyE {h : Here} {m : Mask} {pa n va kind : Nat} {a : Attr} :
    KeepsE κ (fun _ => True) (homeReadyE h m pa n va kind a) := by
  unfold homeReadyE
  refine keepsE_bind keepsE_orderE fun _ _ => keepsE_bind keepsE_getE fun s hs => keepsE_bind keepsE_sendE fun _ _ => ?_
  refine keepsE_guard keepsE_waitE fun _ => ?_
  split
  next e =>
    refine keepsE_bind (keepsE_modifyE fun _ _ => (keeps_grab hs).snd_of e) fun _ _ => ?_
    exact keepsE_guard keepsE_waitE fun _ => keepsE_guard keepsE_faultE fun _ =>
      .ite (keepsE_modifyE fun _ h1 => keeps_cxlFetch h1) keepsE_pure_true

theorem keepsE_atomToE {h : Here} {va n : Nat} : KeepsE κ (fun _ => True) (atomToE h va n) := by
  unfold atomToE
  dsimp only
  exact keepsE_bind keepsE_getE (fun _ _ => by
      split
      · exact keepsE_faultE
      · split
        · exact keepsE_faultE
        · split
          · split
            · exact keepsE_faultE
            · split
              · exact keepsE_faultE
              · exact keepsE_pure_true
          · split
            · exact keepsE_faultE
            · exact keepsE_pure_true
          · exact keepsE_bind keepsE_pageE (fun _ _ => .ite keepsE_faultE keepsE_pure_true))

theorem keepsE_stashReadyE {h : Here} {m : Mask} {core o n : Nat} :
    KeepsE κ (fun _ => True) (stashReadyE h m core o n) := by
  unfold stashReadyE
  exact keepsE_bind keepsE_meshE (fun _ _ => keepsE_bind keepsE_orderE (fun _ _ => keepsE_afterAcquireE))

theorem keepsE_atomReadyE {h : Here} {m : Mask} {va n : Nat} : KeepsE κ (fun _ => True) (atomReadyE h m va n) := by
  unfold atomReadyE
  exact keepsE_bind keepsE_atomToE (fun _ _ => by
      split
      · exact keepsE_bind keepsE_stashReadyE (fun _ _ => keepsE_pure_true)
      · exact keepsE_bind keepsE_getE (fun _ _ => by
            split
            · exact keepsE_bind keepsE_orderE (fun _ _ => keepsE_bind keepsE_remoteAnswerE (fun _ _ =>
                keepsE_pure_true))
            · exact keepsE_bind keepsE_homeReadyE (fun _ _ => keepsE_pure_true)))

theorem keeps_dropL1 {core g : Nat} (hs : Keeps κ s) : Keeps κ (dropL1 s core g) := by
  unfold dropL1
  dsimp only
  exact keeps_setCore hs

theorem keeps_atomPut {core t : Nat} {at' : AtomAt} {n : Nat} {f : Nat → Nat} (hs : Keeps κ s) :
    Keeps κ (atomPut s core t at' n f).2.2 := by
  unfold atomPut
  split
  · exact keeps_writePlace hs
  · exact keeps_writePlace hs
  · exact keeps_dropL1 (keeps_homePut hs)

theorem keeps_atomSent {h : Here} {at' : AtomAt} (hs : Keeps κ s) : Keeps κ (atomSent h at' s) := by
  unfold atomSent
  split
  · exact keeps_sentBy hs
  · exact keeps_meshSent hs
  · exact hs

theorem keeps_atomOne {h : Here} {l : Nat} {m : Mask} {sem : AtomSem} {at' : AtomAt} {n : Nat} {f : Nat → Nat}
    (hs : Keeps κ s) : Keeps κ (atomOne s h l m sem at' n f).2 := by
  unfold atomOne
  dsimp only
  exact keeps_raiseT (.ite (keeps_readMarks (keeps_updCrew (keeps_foldl (fun _ _ h1 => keeps_markRels h1) _ (.ite
    (keeps_atomicMarks (keeps_atomPut (keeps_atomSent hs))) (keeps_plainMarks (keeps_atomPut (keeps_atomSent hs)))))))
    (keeps_updCrew (keeps_foldl (fun _ _ h1 => keeps_markRels h1) _ (.ite (keeps_atomicMarks (keeps_atomPut
    (keeps_atomSent hs))) (keeps_plainMarks (keeps_atomPut (keeps_atomSent hs)))))))

theorem keepsE_atomLanesE {h : Here} {n : Nat} {sem : AtomSem} {ls : List AtomLane} :
    KeepsE κ (fun _ => True) (atomLanesE h n sem ls) := by
  unfold atomLanesE
  dsimp only
  exact keepsE_bind (keepsE_mapM (fun _ => keepsE_bind keepsE_atomReadyE (fun _ _ => keepsE_pure_true)) _) (fun _ _ =>
    keepsE_mapM (fun _ => keepsE_bind keepsE_getE (fun _ h2 => keepsE_bind (keepsE_modifyE (fun _ _ =>
    keeps_atomOne h2)) (fun _ _ => keepsE_pure_true))) _)

theorem stays_execAtom {x : AtomOpnds} (hs : Keeps κ s) : Stays κ (execAtom x s) := by
  unfold execAtom
  dsimp only
  exact stays_issueWord hs (fun _ => .ite keepsE_nextE (keepsE_guard keepsE_drainE (fun _ => keepsE_bind keepsE_getE
    (fun _ _ => keepsE_bind keepsE_atomLanesE (fun _ _ => keepsE_bind keepsE_updCrewE (fun _ _ => keepsE_nextE))))))

theorem keepsE_redPieceE {h : Here} {x : RedMemOp} {l : Nat} : KeepsE κ (fun _ => True) (redPieceE h x l) := by
  unfold redPieceE
  dsimp only
  exact keepsE_bind keepsE_getE (fun _ _ => keepsE_bind keepsE_atomToE (fun _ _ => by
      split
      · exact keepsE_bind keepsE_stashReadyE (fun _ _ => keepsE_pure_true)
      · exact keepsE_pure_true))

theorem keeps_redLater {h : Here} {m : Mask} {rel : Option Scope} {ps : List RedPiece} (hs : Keeps κ s) :
    Keeps κ (redLater s h m rel ps) := by
  unfold redLater
  dsimp only
  exact keeps_addReq (keeps_updCrew (keeps_foldl (fun _ _ h1 => keeps_meshSent h1) _ hs))

theorem stays_execRed {x : RedMemOp} (hs : Keeps κ s) : Stays κ (execRed x s) := by
  unfold execRed
  dsimp only
  exact stays_issueWord hs (fun _ => .ite keepsE_nextE (keepsE_guard keepsE_drainE (fun _ => keepsE_bind keepsE_getE
    (fun _ _ => keepsE_bind keepsE_anyTimeE (fun _ _ => .ite (keepsE_bind (keepsE_mapM (fun _ => keepsE_redPieceE) _)
    (fun _ _ => keepsE_bind (keepsE_modifyE (fun _ h4 => keeps_redLater h4)) (fun _ _ => keepsE_nextE)))
    (keepsE_bind keepsE_atomLanesE (fun _ _ => keepsE_nextE)))))))

theorem keeps_fenceDone {b c : Nat} {m : Mask} {sc : Scope} (hs : Keeps κ s) : Keeps κ (fenceDone s b c m sc) := by
  unfold fenceDone
  dsimp only
  exact keeps_updCrew (keeps_acquireAt hs)

theorem stays_execFence {sc : Scope} (hs : Keeps κ s) : Stays κ (execFence sc s) := by
  unfold execFence
  exact stays_issueWord hs (fun _ => keepsE_bind keepsE_drainE (fun _ _ => keepsE_bind (keepsE_modifyE (fun _ h2 =>
    keeps_fenceDone h2)) (fun _ _ => keepsE_nextE)))

theorem stays_execFenceRo (hs : Keeps κ s) : Stays κ (execFenceRo s) := by
  unfold execFenceRo
  exact stays_issueWord hs (fun _ => keepsE_bind keepsE_getE (fun _ h1 => keepsE_bind (keepsE_modifyE (fun _ _ =>
    keeps_freshId h1)) (fun _ _ => keepsE_bind keepsE_updCrewE (fun _ _ => keepsE_nextE))))

theorem keeps_prefTouch {core o va : Nat} (hs : Keeps κ s) : Keeps κ (prefTouch s core o va) := by
  unfold prefTouch
  split
  · next e =>
    exact ((touchOk_touchStash hs.same).of_ok e).same
  · next e =>
    exact ((touchOk_touchStash hs.same).of_wait e).same
  · exact keeps_startWalk hs
  · exact hs

theorem keeps_prefLane {h : Here} {l2 : Bool} {va : Nat} (hs : Keeps κ s) : Keeps κ (prefLane s h l2 va) := by
  unfold prefLane
  dsimp only
  split
  · split
    · exact keeps_startWalk hs
    · split
      · exact hs
      · split
        · next e3 =>
          exact ((keeps_grab hs.same).snd_of e3).same
        · next e3 =>
          split
          · exact keeps_fillL2 (keeps_sentBy ((keeps_grab hs.same).snd_of e3).same)
          · exact keeps_leaseFill (keeps_fillL2 (keeps_sentBy ((keeps_grab hs.same).snd_of e3).same))
  · split
    · exact hs
    · exact keeps_prefTouch hs
  · exact keeps_prefTouch hs
  · exact hs

theorem stays_execPref {x : PrefOp} (hs : Keeps κ s) : Stays κ (execPref x s) := by
  unfold execPref
  dsimp only
  exact stays_issueWord hs (fun _ => keepsE_bind keepsE_getE (fun _ _ => keepsE_bind (keepsE_modifyE (fun _ h2 =>
    keeps_foldl (fun _ _ h3 => keeps_prefLane h3) _ h2)) (fun _ _ => keepsE_nextE)))

theorem keepsE_rangeLineE {h : Here} {va i : Nat} : KeepsE κ (fun _ => True) (rangeLineE h va i) := by
  unfold rangeLineE
  dsimp only
  exact keepsE_bind keepsE_pageE (fun _ _ => keepsE_bind keepsE_getE (fun _ _ => keepsE_guard keepsE_waitE (fun _ =>
    keepsE_pure_true)))

theorem keeps_cleanLine {g : Nat} {clean evict : Bool} (hs : Keeps κ s) : Keeps κ (cleanLine s g clean evict) := by
  unfold cleanLine
  dsimp only
  split
  · split
    · exact keeps_evictLine hs
    · exact hs
  · split
    · exact keeps_updLine hs
    · exact hs

theorem keepsE_homeCleanE {h : Here} {inval clean evict : Bool} {x : RangeLine} :
    KeepsE κ (fun _ => True) (homeCleanE h inval clean evict x) := by
  unfold homeCleanE
  dsimp only
  split
  · exact keepsE_pure_true
  · exact keepsE_bind keepsE_sendE (fun _ _ => keepsE_bind keepsE_getE (fun _ h2 => keepsE_bind (keepsE_modifyE
      (fun _ _ => keeps_grab h2)) (fun _ _ => .ite keepsE_waitE (keepsE_modifyE (fun _ h4 => keeps_cleanLine
      (keeps_sentBy h4))))))

theorem keepsE_rangeE {h : Here} {a b : Opnd} {f : Nat → Nat → RangeLine → Exec Unit}
    (hf : ∀ a' b' c', KeepsE κ (fun _ => True) (f a' b' c')) : KeepsE κ (fun _ => True) (rangeE h a b f) := by
  unfold rangeE
  dsimp only
  exact keepsE_bind keepsE_getE (fun _ _ => .ite keepsE_pure_true (.ite keepsE_faultE (keepsE_forM (fun _ =>
    keepsE_bind keepsE_rangeLineE (fun _ _ => keepsE_bind (hf _ _ _) (fun _ _ => keepsE_updCrewE))) _)))

theorem stays_execCwb {a b : Opnd} {sc : Scope} (hs : Keeps κ s) : Stays κ (execCwb a b sc s) := by
  unfold execCwb
  exact stays_issueWord hs (fun _ => keepsE_bind (keepsE_rangeE (fun _ _ _ => .ite (keepsE_bind keepsE_getE (fun _ _ =>
    keepsE_flushE)) keepsE_homeCleanE)) (fun _ _ => keepsE_nextE))

theorem stays_execCinv {a b : Opnd} {sc : Scope} (hs : Keeps κ s) : Stays κ (execCinv a b sc s) := by
  unfold execCinv
  exact stays_issueWord hs (fun _ => keepsE_bind (keepsE_rangeE (fun _ _ _ => keepsE_bind keepsE_updCrewE (fun _ _ =>
    .ite (keepsE_modifyE (fun _ h2 => keeps_dropL1 h2)) keepsE_homeCleanE))) (fun _ _ => keepsE_nextE))

end Sys2Proof
end

section
/-! # Invariants: capsules, faults, the matrix unit's events and the network. -/

namespace Sys2Proof

open Machine

set_option Elab.async false

variable {κ : Claim} {s : State}

theorem keepsE_capFlagE {h : Here} : KeepsE κ (fun _ => True) (capFlagE h) := by
  unfold capFlagE
  exact keepsE_bind keepsE_getE (fun _ _ => .ite keepsE_pure_true keepsE_trapE)

theorem keepsE_askLaneE {h : Here} : KeepsE κ (fun _ => True) (askLaneE h) := by
  unfold askLaneE
  exact keepsE_bind keepsE_capFlagE (fun _ _ => .ite keepsE_trapE (.ite keepsE_trapE
    (.ite keepsE_waitE keepsE_pure_true)))

theorem keepsE_capRecordE {h : Here} {va : Nat} : KeepsE κ (fun _ => True) (capRecordE h va) := by
  unfold capRecordE
  dsimp only
  split
  · exact keepsE_faultE
  · split
    · exact keepsE_trapE
    · exact keepsE_bind keepsE_pageE (fun _ _ => .ite keepsE_faultE (.ite keepsE_trapE keepsE_pure_true))
  · exact keepsE_trapE

theorem keepsE_slotE {h : Here} {va : Nat} {r : Right} {kind : Nat} : KeepsE κ (fun _ => True) (slotE h va r kind) := by
  unfold slotE
  split
  · exact keepsE_faultE
  · split
    · exact keepsE_trapE
    · exact keepsE_bind keepsE_pageE (fun _ _ => .ite keepsE_trapE keepsE_pure_true)
  · exact keepsE_trapE

theorem keeps_ask {h : Here} {line lane : Nat} {a : Attr} {k : CapKind} {ev : Nat → Instr} (hs : Keeps κ s) :
    Keeps κ (ask s h line lane a k ev) := by
  unfold ask
  dsimp only
  exact keeps_later (keeps_waitSlot (keeps_sentBy ((keeps_freshId hs).set_capMsgs)))

theorem keepsE_capSlotE {h : Here} {line : Nat} : KeepsE κ (fun _ => True) (capSlotE h line) := by
  unfold capSlotE
  exact keepsE_sendE

theorem keepsE_askE {h : Here} {line lane : Nat} {a : Attr} {k : CapKind} {ev : Nat → Instr} :
    KeepsE κ (fun _ => True) (askE h line lane a k ev) := by
  unfold askE
  exact keepsE_bind keepsE_capSlotE (fun _ _ => keepsE_stopWith (fun _ h2 => keeps_ask h2))

theorem stays_execCapenter {x : CapenterOp} (hs : Keeps κ s) : Stays κ (execCapenter x s) := by
  unfold execCapenter
  dsimp only
  exact stays_issueWord hs (fun _ => keepsE_bind keepsE_getE (fun _ _ => keepsE_bind keepsE_askLaneE (fun _ _ =>
    keepsE_bind keepsE_capRecordE (fun _ _ => keepsE_bind keepsE_slotE (fun _ _ => keepsE_askE)))))

theorem stays_execCapadopt {d a : Opnd} (hs : Keeps κ s) : Stays κ (execCapadopt d a s) := by
  unfold execCapadopt
  dsimp only
  exact stays_issueWord hs (fun _ => keepsE_bind keepsE_getE (fun _ _ => keepsE_bind keepsE_askLaneE (fun _ _ =>
    keepsE_bind keepsE_capRecordE (fun _ _ => keepsE_askE))))

theorem keepsE_readSlotE {h : Here} {va : Nat} {l : Nat} : KeepsE κ (fun _ => True) (readSlotE h va l) := by
  unfold readSlotE
  exact keepsE_bind keepsE_slotE (fun _ _ => keepsE_bind keepsE_engReadE (fun _ _ => .ite keepsE_waitE (keepsE_bind
    (keepsE_modifyE (fun _ h3 => keeps_readMarks h3)) (fun _ _ => keepsE_pure_true))))

theorem keepsE_slotLaneE {h : Here} {a : Opnd} {l : Nat} : KeepsE κ (fun _ => True) (slotLaneE s h a l) := by
  unfold slotLaneE
  exact keepsE_bind keepsE_readSlotE (fun _ _ => keepsE_pure_true)

theorem stays_execCapstat {d a : Opnd} (hs : Keeps κ s) : Stays κ (execCapstat d a s) := by
  unfold execCapstat
  exact stays_issueWord hs (fun _ => keepsE_bind keepsE_getE (fun _ _ => keepsE_bind keepsE_capFlagE (fun _ _ =>
    keepsE_bind (keepsE_mapM (fun _ => keepsE_slotLaneE) _) (fun _ _ => keepsE_bind keepsE_updCrewE (fun _ _ =>
    keepsE_nextE)))))

theorem keeps_askCommit {h : Here} {k : Holding} {kind : Fin 3} {ra : DWord} (hs : Keeps κ s) :
    Keeps κ (askCommit s h k kind ra) := by
  unfold askCommit
  dsimp only
  exact keeps_later (keeps_waitSlot (keeps_sentBy (keeps_sendCap hs)))

theorem keepsE_commitE {h : Here} {kind : Fin 3} {ra : DWord} : KeepsE κ (fun _ => True) (commitE h kind ra) := by
  unfold commitE
  dsimp only
  exact keepsE_bind keepsE_capFlagE (fun _ _ => by
      split
      · exact keepsE_trapE
      · split
        · exact keepsE_trapE
        · split
          · exact keepsE_trapE
          · split
            · exact keepsE_stopWith (fun _ h3 => keeps_exitCapsule h3)
            · exact keepsE_bind keepsE_getE (fun _ _ => keepsE_guard keepsE_waitE (fun _ => keepsE_bind keepsE_drainE
                (fun _ _ => keepsE_bind keepsE_capSlotE (fun _ _ => keepsE_stopWith (fun _ h6 =>
                keeps_askCommit h6))))))

theorem stays_execCapstep {lbl : BitVec 12} (hs : Keeps κ s) : Stays κ (execCapstep lbl s) := by
  unfold execCapstep
  exact stays_issueWord hs (fun _ => keepsE_commitE)

theorem stays_execCapexit (hs : Keeps κ s) : Stays κ (execCapexit s) := by
  unfold execCapexit
  exact stays_issueWord hs (fun _ => keepsE_commitE)

theorem stays_execCapabort (hs : Keeps κ s) : Stays κ (execCapabort s) := by
  unfold execCapabort
  exact stays_issueWord hs (fun _ => keepsE_commitE)

theorem keeps_tellStore {r : Req} (hs : Keeps κ s) : Keeps κ (tellStore s r) := by
  unfold tellStore
  dsimp only
  exact hs.same

theorem ends_execStoreFault {req : Nat} (hs : Keeps κ s) : Ends κ (execStoreFault req s) := by
  unfold execStoreFault
  dsimp only
  split
  · exact ends_next hs
  · split
    · exact ends_next hs.same
    · split
      · exact ends_next hs
      · split
        · exact ends_next (.ite (keeps_later ((keeps_tellStore hs).set_reqs)) (keeps_postRec (keeps_later
            ((keeps_tellStore hs).set_reqs))))
        · split
          · exact ends_next hs
          · exact ends_next (keeps_beginSave (keeps_setBlock (keeps_tellStore hs)))

theorem keeps_poisonedWrite {pa agent : Nat} (hs : Keeps κ s) : Keeps κ (poisonedWrite s pa agent) := by
  unfold poisonedWrite
  dsimp only
  exact keeps_postRec hs

theorem keeps_ringPoison {die : Nat} (hs : Keeps κ s) : Keeps κ (ringPoison s die) := by
  unfold ringPoison
  dsimp only
  split
  · exact hs
  · exact keeps_poisonedWrite hs

theorem keeps_writeRing {r : FRec} {t : State} (hs : Keeps κ s) (e : writeRing s r = some t) : Keeps κ t := by
  unfold writeRing at e
  dsimp only at e
  split at e
  · cases e
  · split at e
    · cases e
    · next e2 =>
      split at e
      · cases e
      · cases e
        exact keeps_homeWrite ((keeps_grab hs).snd_of e2)

theorem keeps_faultIrq (hs : Keeps κ s) : Keeps κ (faultIrq s) := by
  unfold faultIrq
  dsimp only
  exact keeps_foldl (fun _ _ h => .ite h h.same) _ hs

theorem keeps_recordWritten {die : Nat} {rest : List FRec} (hs : Keeps κ s) : Keeps κ (recordWritten s die rest) := by
  unfold recordWritten
  dsimp only
  split
  · exact keeps_faultIrq (keeps_setDie hs.same (hs.dies _).same)
  · exact keeps_setDie hs.same (hs.dies _).same

theorem ends_execFaultRecordWrite {die : Fin 4} (hs : Keeps κ s) : Ends κ (execFaultRecordWrite die s) := by
  unfold execFaultRecordWrite
  split
  · exact ends_next hs
  · split
    · exact ends_next (keeps_later hs)
    · split
      · exact ends_next (keeps_later (keeps_refused hs))
      · split
        · next e3 =>
          exact ends_next (keeps_recordWritten (keeps_exchange (keeps_writeRing hs e3)))
        · exact ends_next (keeps_later (keeps_ringPoison (keeps_heldBy hs)))

theorem keeps_ackError (hs : Keeps κ s) : Keeps κ (ackError s) := by
  unfold ackError
  dsimp only
  exact hs.same

theorem keeps_dropToken {t : Nat} (hs : Keeps κ s) : Keeps κ (dropToken s t) := by
  refine ⟨hs.mem, hs.dies, hs.qis, fun hr => ⟨(hs.tokens hr).1, fun n w hw => ?_⟩⟩
  by_cases hn : n = t
  · rw [hn, dropToken, Table.find_drop_same] at hw
    cases hw
  · rw [dropToken, Table.find_drop_other _ hn] at hw
    exact (hs.tokens hr).2 n w hw

theorem keeps_settleToken {b t : Nat} (hs : Keeps κ s) : Keeps κ (settleToken s b t) := by
  unfold settleToken
  exact keeps_updBlock hs

theorem keeps_replayHalt {b t : Nat} (hs : Keeps κ s) : Keeps κ (replayHalt s b t) := by
  unfold replayHalt
  split
  · split
    · exact keeps_settleToken hs
    · split
      · exact keeps_beginSaveOne (keeps_setBlock hs)
      · exact keeps_resumeBlock hs
  · exact hs

theorem ends_execFqackReplay {token : Word} (hs : Keeps κ s) : Ends κ (execFqackReplay token s) := by
  unfold execFqackReplay
  dsimp only
  split
  · exact ends_next hs
  · split
    · exact ends_next (keeps_ackError hs)
    · exact ends_next (keeps_settleToken (keeps_dropToken hs))
    · exact ends_next (keeps_replayCopy (keeps_dropToken hs))
    · exact ends_next (keeps_replayHalt (keeps_dropToken hs))
    · exact ends_next (keeps_settleToken (keeps_dropToken hs))

theorem ends_execFqackKill {token : Word} (hs : Keeps κ s) : Ends κ (execFqackKill token s) := by
  unfold execFqackKill
  dsimp only
  split
  · exact ends_next hs
  · split
    · exact ends_next (keeps_ackError hs)
    · split
      · exact ends_next (keeps_endGrid (keeps_dropToken hs))
      · exact ends_next (keeps_dropToken hs)

theorem keeps_dockBlock {b t : Nat} (hs : Keeps κ s) : Keeps κ (dockBlock s b t) := by
  unfold dockBlock
  dsimp only
  split
  · exact hs
  · split
    · exact hs
    · split
      · exact keeps_setBlock (keeps_postAck hs)
      · split
        · exact keeps_beginSave (keeps_setBlock hs)
        · exact keeps_setBlock hs

theorem ends_execFqackDock {token : Word} (hs : Keeps κ s) : Ends κ (execFqackDock token s) := by
  unfold execFqackDock
  dsimp only
  split
  · exact ends_next hs
  · split
    · exact ends_next (keeps_dockBlock (keeps_dropToken hs))
    · exact ends_next (keeps_ackError hs)

theorem keeps_haltBlock {b : Nat} {h : Halt} (hs : Keeps κ s) : Keeps κ (haltBlock s b h) := by
  unfold haltBlock
  dsimp only
  split
  · exact keeps_parkBlock hs
  · exact keeps_postAck (keeps_setBlock (keeps_parkBlock hs))

theorem ends_execHaltComplete {b : Nat} (hs : Keeps κ s) : Ends κ (execHaltComplete b s) := by
  unfold execHaltComplete
  split
  · exact ends_next hs
  · split
    · exact ends_next hs
    · split
      · exact ends_next hs
      · split
        · exact ends_next (keeps_later hs)
        · exact ends_next (keeps_haltBlock hs)

theorem DieOk.less {d e : Die} (h : DieOk κ d) (hl : e.left ≤ d.left) (he : e.eff = d.eff := by rfl)
    (ht : e.tshift = d.tshift := by rfl) (hw : e.thrw = d.thrw := by rfl) : DieOk κ e := by
  intro hr
  obtain ⟨h1, h2, h3, h4, h5⟩ := h hr
  rw [he, ht, hw]
  exact ⟨h1, h2, hl.trans h3, h4, h5⟩

theorem keeps_claimPass {core blk n : Nat} (hs : Keeps κ s) : Keeps κ (claimPass s core blk n).2 := by
  unfold claimPass
  dsimp only
  split
  · exact keeps_chargeLaunch (keeps_setDie hs ((hs.dies _).less (Nat.sub_le ..)))
  · split
    · exact keeps_chargeLaunch (keeps_setDie hs ((hs.dies _).less (Nat.zero_le _)))
    · exact keeps_setDie hs (hs.dies _).same

theorem keeps_completeEntry {core part i : Nat} (hs : Keeps κ s) : Keeps κ (completeEntry s core part i) := by
  unfold completeEntry
  dsimp only
  split
  · exact hs
  · exact keeps_later (keeps_foldl (fun _ _ h => keeps_updCrew h) _ (keeps_setUnit hs))

theorem ends_execMatrixPassStart {core part : Nat} (hs : Keeps κ s) : Ends κ (execMatrixPassStart core part s) := by
  unfold execMatrixPassStart
  dsimp only
  split
  · exact ends_next hs
  · split
    · exact ends_next (keeps_later hs)
    · split
      · exact ends_next (keeps_later hs)
      · split
        · exact ends_next (keeps_later (keeps_setUnit (keeps_claimed (keeps_claimPass hs))))
        · exact ends_next (keeps_later (keeps_claimPass hs))

theorem keepsM_landRowsM {blk : Block} {core part t : Nat} {af : AFmt} {zpm kh : Bool} {rows : List (Nat × Nat)} :
    KeepsM κ (fun _ => True) (landRowsM blk core part t af zpm kh rows) := by
  unfold landRowsM
  exact keepsM_bind (keepsM_mapM (fun _ => keepsM_readM) _) (fun _ _ => keepsM_modifyM (fun _ h1 => keeps_setUnit h1))

theorem ends_unitStep {e : MatEntry} {again : Instr} {act : Block → EngM Unit} {k : State → State} (hs : Keeps κ s)
    (hk : ∀ s, Keeps κ s → Keeps κ (k s)) (hact : ∀ b', KeepsM κ (fun _ => True) (act b')) : Ends κ
    (unitStep s e again act k) := by
  unfold unitStep
  split
  · exact ends_next (hk _ hs)
  · split
    · next e2 =>
      exact ends_next (hk _ (keeps_dropWalkEnd (((hact _).ok hs e2).2)))
    · next e2 =>
      exact ends_next (keeps_later ((hact _).again hs e2))
    · exact ends_next (keeps_later (keeps_dropWalkEnd hs))

theorem ends_execMatrixPassDone {core part : Nat} (hs : Keeps κ s) : Ends κ (execMatrixPassDone core part s) := by
  unfold execMatrixPassDone
  dsimp only
  split
  · exact ends_next hs
  · split
    · exact ends_next (keeps_later hs)
    · split
      · exact ends_unitStep hs (fun _ h => keeps_completeEntry h) (fun _ => keepsM_landRowsM)
      · exact ends_next hs

theorem keepsM_loadPlaneM {blk : Block} {core part off stride : Nat} {wf : WFmt} :
    KeepsM κ (fun _ => True) (loadPlaneM blk core part off stride wf) := by
  unfold loadPlaneM
  dsimp only
  exact keepsM_bind (keepsM_mapM (fun _ => keepsM_readM) _) (fun _ _ => keepsM_modifyM (fun _ h1 => keeps_setUnit h1))

theorem ends_execMldwDone {core part : Nat} (hs : Keeps κ s) : Ends κ (execMldwDone core part s) := by
  unfold execMldwDone
  dsimp only
  split
  · exact ends_next hs
  · split
    · exact ends_next (keeps_later hs)
    · split
      · exact ends_unitStep hs (fun _ h => keeps_completeEntry h) (fun _ => keepsM_loadPlaneM)
      · exact ends_next (keeps_completeEntry (keeps_setUnit hs))
      · exact ends_next hs

theorem keeps_landSwap {e : MatEntry} {d : Option Nat} {x : Word} (hs : Keeps κ s) : Keeps κ (landSwap s e d x) := by
  unfold landSwap
  dsimp only
  split
  · exact hs
  · exact keeps_updCrew hs

theorem ends_execMswapPoint {core part : Nat} (hs : Keeps κ s) : Ends κ (execMswapPoint core part s) := by
  unfold execMswapPoint
  dsimp only
  split
  · exact ends_next hs
  · split
    · exact ends_next (keeps_later hs)
    · split
      · exact ends_next (keeps_completeEntry (keeps_landSwap (keeps_setUnit hs)))
      · exact ends_next hs

theorem keeps_readTile {e : MatEntry} {u : MatUnit} {t col w d : Nat} {m : Mask} (hs : Keeps κ s) :
    Keeps κ (readTile s e u t col w d m) := by
  unfold readTile
  dsimp only
  split
  · exact hs
  · exact keeps_updCrew hs

theorem keepsM_takeTileM {blk : Block} {u : MatUnit} {t vec : Nat} {sc zpe : Bool} {m : Mask} :
    KeepsM κ (fun _ => True) (takeTileM blk u t vec sc zpe m) := by
  unfold takeTileM
  dsimp only
  exact .ite (keepsM_bind keepsM_readM (fun _ _ => .ite (keepsM_bind keepsM_readM (fun _ _ => keepsM_pure_true))
    (keepsM_bind keepsM_pure_true (fun _ _ => keepsM_pure_true)))) (keepsM_bind keepsM_pure_true (fun _ _ => .ite
    (keepsM_bind keepsM_readM (fun _ _ => keepsM_pure_true)) (keepsM_bind keepsM_pure_true (fun _ _ =>
    keepsM_pure_true))))

theorem ends_execTileOpPoint {core part : Nat} (hs : Keeps κ s) : Ends κ (execTileOpPoint core part s) := by
  unfold execTileOpPoint
  dsimp only
  split
  · exact ends_next hs
  · split
    · exact ends_next (keeps_later hs)
    · split
      · exact ends_next (keeps_completeEntry hs)
      · exact ends_next (keeps_completeEntry (keeps_setUnit hs))
      · exact ends_next (keeps_completeEntry (keeps_readTile hs))
      · split
        · exact ends_next (keeps_completeEntry hs)
        · split
          · next e5 =>
            exact ends_next (keeps_later (keeps_setUnit (keeps_dropWalkEnd ((keepsM_takeTileM.ok hs e5).2))))
          · next e5 =>
            exact ends_next (keeps_later (keepsM_takeTileM.again hs e5))
          · exact ends_next (keeps_later (keeps_dropWalkEnd hs))
      · exact ends_next hs

theorem keepsM_writeRowsM {blk : Block} {rows : List (Nat × List Byte)} :
    KeepsM κ (fun _ => True) (writeRowsM blk rows) := by
  induction rows with
  | nil => exact keepsM_pure_true
  | cons r q ih => exact keepsM_bind keepsM_writeM fun _ _ => keepsM_bind ih fun _ _ => keepsM_pure_true

theorem keepsM_storeTileM {e : MatEntry} {blk : Block} {c : TileCopy} {off st : Nat} {f : Fmt} {sc zpe : Bool}
    {m : Mask} : KeepsM κ (fun _ => True) (storeTileM e blk c off st f sc zpe m) := by
  unfold storeTileM
  exact keepsM_bind (keepsM_forM (fun _ => keepsM_readyM) _) (fun _ _ => keepsM_bind keepsM_writeRowsM (fun _ _ =>
    keepsM_modifyM (fun _ h2 => keeps_updCrew h2)))

theorem ends_execMstDone {core part : Nat} (hs : Keeps κ s) : Ends κ (execMstDone core part s) := by
  unfold execMstDone
  dsimp only
  split
  · exact ends_next hs
  · split
    · exact ends_next (keeps_later hs)
    · split
      · exact ends_unitStep hs (fun _ h => keeps_completeEntry (keeps_updCrew h)) (fun _ => keepsM_storeTileM)
      · exact ends_next hs

theorem stays_execXdec {x : Op3} (hs : Keeps κ s) : Stays κ (execXdec x s) := by
  unfold execXdec
  dsimp only
  exact stays_issueWord hs (fun _ => .ite keepsE_nextE (keepsE_bind keepsE_getE (fun _ _ => keepsE_bind keepsE_updCrewE
    (fun _ _ => keepsE_nextE))))

theorem stays_execXbmp {x : Op1} (hs : Keeps κ s) : Stays κ (execXbmp x s) := by
  unfold execXbmp
  dsimp only
  exact stays_issueWord hs (fun _ => .ite keepsE_nextE (keepsE_bind keepsE_getE (fun _ _ => keepsE_bind keepsE_updCrewE
    (fun _ _ => keepsE_nextE))))

theorem keepsE_sprReadyE {h : Here} {r : Spr} : KeepsE κ (fun _ => True) (sprReadyE h r) := by
  unfold sprReadyE
  exact keepsE_bind keepsE_getE (fun _ _ => .ite keepsE_waitE keepsE_pure_true)

theorem stays_execMovspr {g : Guard} {d : Opnd} {r : Spr} (hs : Keeps κ s) : Stays κ (execMovspr g d r s) := by
  unfold execMovspr
  dsimp only
  exact stays_issueWord hs (fun _ => .ite keepsE_nextE (keepsE_bind keepsE_sprReadyE (fun _ _ =>
    keepsE_bind keepsE_getE (fun _ _ => keepsE_bind keepsE_updCrewE (fun _ _ => keepsE_nextE)))))

theorem stays_execWrspr {r : Spr} {a : Opnd} (hs : Keeps κ s) : Stays κ (execWrspr r a s) := by
  unfold execWrspr
  dsimp only
  exact stays_issueWord hs (fun _ => keepsE_bind keepsE_sprReadyE (fun _ _ => keepsE_bind keepsE_getE (fun _ _ => by
      split
      · exact keepsE_bind keepsE_updCrewE (fun _ _ => keepsE_nextE)
      · exact keepsE_bind keepsE_updCrewE (fun _ _ => keepsE_nextE)
      · exact keepsE_bind keepsE_updCrewE (fun _ _ => keepsE_nextE)
      · split
        · exact keepsE_bind keepsE_updCrewE (fun _ _ => keepsE_nextE)
        · exact keepsE_bind keepsE_trapE (fun _ h3 => h3)
      · split
        · exact keepsE_bind (keepsE_modifyE (fun _ h3 => keeps_updBlock h3)) (fun _ _ => keepsE_nextE)
        · exact keepsE_bind keepsE_trapE (fun _ h3 => h3)
      · exact keepsE_bind keepsE_trapE (fun _ h3 => h3)
      · exact keepsE_bind keepsE_trapE (fun _ h3 => h3)
      · exact keepsE_bind keepsE_trapE (fun _ h3 => h3)
      · exact keepsE_bind keepsE_trapE (fun _ h3 => h3)
      · exact keepsE_bind keepsE_trapE (fun _ h3 => h3)
      · exact keepsE_bind keepsE_trapE (fun _ h3 => h3)
      · exact keepsE_bind keepsE_trapE (fun _ h3 => h3)
      · exact keepsE_bind keepsE_trapE (fun _ h3 => h3))))

theorem stays_execTlinc {a b : Opnd} {err : Bool} (hs : Keeps κ s) : Stays κ (execTlinc a b err s) := by
  unfold execTlinc
  dsimp only
  refine stays_issueWord hs fun _ => keepsE_bind keepsE_getE fun _ _ => .ite keepsE_trapE ?_
  refine keepsE_bind keepsE_drainE fun _ _ => keepsE_bind keepsE_sendE fun _ _ => keepsE_bind keepsE_getE fun _ h4 => ?_
  split
  · exact keepsE_bind (keepsE_modifyE fun _ h5 => keeps_heldBy h5) fun _ _ => keepsE_waitE
  · exact keepsE_bind (keepsE_modifyE fun _ h5 => keeps_refused h5) fun _ _ => keepsE_waitE
  · exact keepsE_stopWith fun _ h5 => keeps_takeStoreFault h5
  · next e =>
    refine keepsE_bind (keepsE_modifyE fun _ _ => keeps_sentBy (keeps_raiseTl h4 e)) fun _ _ => ?_
    exact keepsE_bind (keepsE_modifyE fun _ h6 => keeps_raiseT h6) fun _ _ => keepsE_nextE

theorem keepsE_gettlE {h : Here} {sel : Nat} {err : Bool} : KeepsE κ (fun _ => True) (gettlE h sel err) := by
  unfold gettlE
  dsimp only
  exact keepsE_bind keepsE_getE (fun _ h1 => by
      split
      · exact .ite (keepsE_bind (keepsE_modifyE (fun _ _ => keeps_freeChoice h1)) (fun _ _ =>
          keepsE_pure_true)) keepsE_pure_true
      · split
        · exact .ite (keepsE_bind (keepsE_modifyE (fun _ _ => keeps_freeChoice h1)) (fun _ _ => keepsE_pure_true))
            (.ite keepsE_pure_true keepsE_pure_true)
        · exact keepsE_trapE)

theorem stays_execGettl {g : Guard} {d a : Opnd} {err : Bool} (hs : Keeps κ s) : Stays κ (execGettl g d a err s) := by
  unfold execGettl
  dsimp only
  exact stays_issueWord hs (fun _ => .ite keepsE_nextE (keepsE_bind keepsE_getE (fun _ _ => keepsE_bind keepsE_gettlE
    (fun _ _ => keepsE_bind keepsE_updCrewE (fun _ _ => keepsE_nextE)))))

theorem keeps_haltAt {h : Here} {code : Nat} {m : Mask} (hs : Keeps κ s) : Keeps κ (haltAt s h code m) := by
  unfold haltAt
  dsimp only
  exact keeps_updBlock (keeps_nextWord hs)

theorem keeps_startHalt {h : Here} {code : Nat} {m : Mask} (hs : Keeps κ s) : Keeps κ (startHalt s h code m) := by
  unfold startHalt
  dsimp only
  exact keeps_later (keeps_foldl (fun _ _ h1 => .ite (keeps_freeChoice h1) (keeps_haltAt (keeps_freeChoice h1))) _
    (keeps_haltAt hs))

theorem stays_execBkpt {g : Guard} {code : BitVec 12} (hs : Keeps κ s) : Stays κ (execBkpt g code s) := by
  unfold execBkpt
  dsimp only
  exact stays_issueWord hs (fun _ => keepsE_bind keepsE_getE (fun _ _ => .ite keepsE_nextE (keepsE_modifyE (fun _ h2 =>
    keeps_startHalt h2))))

theorem stays_execResphase {a : Opnd} (hs : Keeps κ s) : Stays κ (execResphase a s) := by
  unfold execResphase
  dsimp only
  exact stays_issueWord hs (fun _ => keepsE_bind (keepsE_modifyE (fun _ h1 => keeps_setDie h1 (h1.dies _).same))
    (fun _ _ => keepsE_nextE))

theorem keeps_claimRequest {r : Req} (hs : Keeps κ s) : Keeps κ (claimRequest s r).2 := by
  unfold claimRequest
  dsimp only
  split
  · dsimp only
    exact keeps_claimed (keeps_drawPacket hs)
  · dsimp only
    exact keeps_throttleTo hs

theorem ends_execRequestInject {req : Nat} (hs : Keeps κ s) : Ends κ (execRequestInject req s) := by
  unfold execRequestInject
  split
  · exact ends_next hs
  · split
    · exact ends_next hs
    · split
      · exact ends_next (keeps_later hs)
      · split
        · next e3 =>
          exact ends_next (keeps_later ((keeps_claimRequest hs).snd_of e3).same)
        · next e3 =>
          exact ends_next (keeps_later ((keeps_claimRequest hs).snd_of e3).same)

theorem keeps_dropLate {req : Nat} {r : Req} (hs : Keeps κ s) : Keeps κ (dropLate s req r) := by
  unfold dropLate
  exact keeps_later (keeps_postLate hs.same)

theorem keeps_faultReq {req : Nat} {r : Req} {cause : Cause} {code va : Nat} (hs : Keeps κ s) :
    Keeps κ (faultReq s req r cause code va) := by
  unfold faultReq
  exact keeps_later hs.same

theorem keeps_answerReq {req : Nat} {r : Req} (hs : Keeps κ s) : Keeps κ (answerReq s req r) := by
  unfold answerReq
  exact keeps_later hs.same

theorem keeps_goOn {req : Nat} {r : Req} (hs : Keeps κ s) : Keeps κ (goOn s req r) := by
  unfold goOn
  exact keeps_later hs.same

theorem keeps_pickOne {n : Nat} (hs : Keeps κ s) : Keeps κ (pickOne s n).2 := by
  unfold pickOne
  split
  · dsimp only
    exact hs
  · exact keeps_freeChoice hs

theorem keeps_updateL1 {core g tw : Nat} {bs : List (Nat × Byte)} (hs : Keeps κ s) :
    Keeps κ (updateL1 s core g tw bs) := by
  unfold updateL1
  dsimp only
  exact keeps_setCore hs

theorem keeps_remark {req : Nat} {r : Req} (hs : Keeps κ s) : Keeps κ (remark s req r) := by
  unfold remark
  split
  · split
    · split
      · next e2 =>
        exact keeps_updCrew ((keeps_freshId hs).snd_of e2)
    · exact hs
  · exact hs

theorem keeps_storeMarks {r : Req} {bs : List (Nat × Byte)} {key : Nat → Nat} {tw : Nat} (hs : Keeps κ s) :
    Keeps κ (storeMarks s r bs key tw) := by
  unfold storeMarks
  exact keeps_foldl (fun _ _ h => keeps_markRels h) _ hs

theorem keeps_groupDone {req : Nat} {r : Req} {va : Nat} {gs : List (List (Nat × Byte))} {a : Attr} {tw k w : Nat}
    (hs : Keeps κ s) : Keeps κ (groupDone s req r va gs a tw k w) := by
  unfold groupDone
  dsimp only
  split
  · exact keeps_answerReq hs
  · exact keeps_goOn hs

theorem keeps_remoteStore {req : Nat} {r : Req} {va : Nat} {gs : List (List (Nat × Byte))} {a : Attr} {tw k : Nat}
    (hs : Keeps κ s) : Keeps κ (remoteStore s req r va gs a tw k) := by
  unfold remoteStore
  dsimp only
  split
  · exact keeps_faultReq hs
  · split
    · exact keeps_later hs
    · split
      · next e2 =>
        exact keeps_groupDone (keeps_storeMarks (keeps_plainMarks (keeps_foldl (fun _ _ h => by
            split
            · exact keeps_writePlace h
            · exact h) _ ((keeps_remoteFate hs).snd_of e2))))
      · exact keeps_faultReq hs
      · next e2 =>
        exact keeps_askRemote ((keeps_remoteFate hs).snd_of e2)

theorem keeps_lostReq {req : Nat} {r : Req} {cause : Cause} {code va kind : Nat} (hs : Keeps κ s) :
    Keeps κ (lostReq s req r cause code va kind) := by
  unfold lostReq
  dsimp only
  split
  · exact hs.same
  · split
    · exact keeps_later hs.same
    · exact keeps_beginSave (keeps_setBlock hs.same)

theorem keeps_touchReq {req : Nat} {r : Req} {pa va n : Nat} {kind : Nat} {go : State → State} (hs : Keeps κ s)
    (hgo : ∀ s, Keeps κ s → Keeps κ (go s)) : Keeps κ (touchReq s req r pa va n kind go) := by
  unfold touchReq
  split
  · next e =>
    exact hgo _ ((touchOk_touchStash hs).of_ok e)
  · next e =>
    exact keeps_later ((touchOk_touchStash hs).of_wait e)
  · exact keeps_later (keeps_startWalk hs)
  · exact keeps_lostReq hs

/-- A touch of every byte before the rest, the last byte first. -/
theorem keeps_touchReqs {req : Nat} {r : Req} {va : Nat} {bs : List (Nat × Byte)} {go : State → State}
    (hgo : ∀ s, Keeps κ s → Keeps κ (go s)) (hs : Keeps κ s) :
    Keeps κ (bs.foldr (fun b (go : State → State) s => touchReq s req r b.1 va 1 1 go) go s) := by
  induction bs generalizing s with
  | nil => exact hgo s hs
  | cons b q ih => exact keeps_touchReq hs fun _ => ih

theorem keeps_stashGroup {req : Nat} {r : Req} {va : Nat} {gs : List (List (Nat × Byte))} {a : Attr} {tw k : Nat}
    (hs : Keeps κ s) : Keeps κ (stashGroup s req r va gs a tw k) := by
  unfold stashGroup
  refine keeps_touchReqs (fun s hs => ?_) hs
  split
  next e =>
    exact keeps_groupDone (keeps_storeMarks ((keeps_foldl_snd (fun _ _ h => keeps_stashPut h) _ hs).snd_of e))

theorem keeps_storeGroup {req : Nat} {r : Req} {va : Nat} {gs : List (List (Nat × Byte))} {a : Attr} {tw k : Nat}
    (hs : Keeps κ s) : Keeps κ (storeGroup s req r va gs a tw k) := by
  unfold storeGroup
  dsimp only
  exact keeps_groupDone (.ite (keeps_remark (keeps_storeMarks (keeps_homeWrite hs))) (keeps_updateL1 (keeps_remark
    (keeps_storeMarks (keeps_homeWrite hs)))))

theorem keeps_homeStore {req : Nat} {r : Req} {va : Nat} {gs : List (List (Nat × Byte))} {a : Attr} {tw : Nat}
    (hs : Keeps κ s) : Keeps κ (homeStore s req r va gs a tw) := by
  unfold homeStore
  dsimp only
  split
  · exact keeps_stashGroup (keeps_pickOne hs)
  · split
    · exact keeps_remoteStore (keeps_pickOne hs)
    · split
      · exact keeps_later (keeps_pickOne hs)
      · split
        · next e3 =>
          exact keeps_later ((keeps_grab (keeps_pickOne hs)).snd_of e3)
        · next e3 =>
          split
          · exact keeps_faultReq ((keeps_grab (keeps_pickOne hs)).snd_of e3)
          · exact keeps_storeGroup ((keeps_grab (keeps_pickOne hs)).snd_of e3)

theorem keeps_claimReply {r : Req} (hs : Keeps κ s) : Keeps κ (claimReply s r) := by
  unfold claimReply
  exact keeps_claimed (keeps_drawPacket hs)

theorem keeps_redirect {req : Nat} {r : Req} {slice : Nat} (hs : Keeps κ s) : Keeps κ (redirect s req r slice) := by
  unfold redirect
  dsimp only
  exact keeps_later ((keeps_claimReply hs).set_reqs)

theorem keeps_pieceDone {req : Nat} {r : Req} {ps : List Piece} {p : Piece} {k : Nat} {bytes : List (Nat × Nat × Byte)}
    {f : LoadForm} {ac : Option Nat} {acq : Option Scope} (hs : Keeps κ s) : Keeps κ
    (pieceDone s req r ps p k bytes f ac acq) := by
  unfold pieceDone
  dsimp only
  split
  · exact keeps_answerReq hs
  · exact keeps_goOn hs

theorem keeps_takePiece {req : Nat} {r : Req} {x : LoadRest} {k : Nat} {p : Piece} {bs : List Byte} {ms : List Mark}
    {lines : List Nat} (hs : Keeps κ s) : Keeps κ (takePiece s req r x k p bs ms lines) := by
  unfold takePiece
  dsimp only
  exact keeps_pieceDone (keeps_updCrew (keeps_readMarks hs))

theorem keeps_stashPiece {req : Nat} {r : Req} {x : LoadRest} {k : Nat} {p : Piece} (hs : Keeps κ s) :
    Keeps κ (stashPiece s req r x k p) := by
  unfold stashPiece
  dsimp only
  exact keeps_touchReq hs (fun _ h => keeps_takePiece h)

theorem keeps_remoteReq {req : Nat} {r : Req} {pa va kind : Nat} {go : Place → State → State} (hs : Keeps κ s)
    (hgo : ∀ p' s, Keeps κ s → Keeps κ (go p' s)) : Keeps κ (remoteReq s req r pa va kind go) := by
  unfold remoteReq
  split
  · exact keeps_lostReq hs
  · split
    · exact keeps_later hs
    · split
      · next e2 =>
        exact hgo _ _ ((keeps_remoteFate hs).snd_of e2)
      · next e2 =>
        exact keeps_lostReq ((keeps_remoteFate hs).snd_of e2)
      · next e2 =>
        exact keeps_askRemote ((keeps_remoteFate hs).snd_of e2)

theorem keeps_remotePiece {req : Nat} {r : Req} {x : LoadRest} {k : Nat} {p : Piece} (hs : Keeps κ s) :
    Keeps κ (remotePiece s req r x k p) := by
  unfold remotePiece
  exact keeps_remoteReq hs (fun _ _ h => keeps_takePiece h)

theorem keeps_homePiece {req : Nat} {r : Req} {x : LoadRest} {k : Nat} {p : Piece} (hs : Keeps κ s) :
    Keeps κ (homePiece s req r x k p) := by
  unfold homePiece
  dsimp only
  split
  · exact keeps_takePiece hs
  · split
    · next e1 =>
      exact keeps_later ((keeps_grab hs).snd_of e1)
    · next e1 =>
      split
      · exact keeps_lostReq ((keeps_grab hs).snd_of e1)
      · exact keeps_takePiece (.ite (keeps_fillL2 ((keeps_grab hs).snd_of e1)) (keeps_leaseFill (keeps_fillL2
          ((keeps_grab hs).snd_of e1))))

theorem keeps_elsewhere {req : Nat} {r : Req} {pa : Nat} {t : State} (hs : Keeps κ s)
    (e : elsewhere s req r pa = some t) : Keeps κ t := by
  unfold elsewhere at e
  split at e
  · cases e
  · cases e
    split
    · exact keeps_later hs
    · exact keeps_redirect hs

theorem keeps_homeLoad {req : Nat} {r : Req} {x : LoadRest} (hs : Keeps κ s) : Keeps κ (homeLoad s req r x) := by
  unfold homeLoad
  split
  · next e =>
    split
    · exact keeps_answerReq ((keeps_pickOne hs).snd_of e)
    · split
      · exact keeps_stashPiece ((keeps_pickOne hs).snd_of e)
      · split
        · next e3 =>
          exact keeps_elsewhere ((keeps_pickOne hs).snd_of e) e3
        · split
          · exact keeps_remotePiece ((keeps_pickOne hs).snd_of e)
          · exact keeps_homePiece ((keeps_pickOne hs).snd_of e)

theorem keeps_redDone {req : Nat} {r : Req} {ps : List RedPiece} {tw k : Nat} {p : RedPiece} {at' : AtomAt}
    (hs : Keeps κ s) : Keeps κ (redDone s req r ps tw k p at') := by
  unfold redDone
  dsimp only
  split
  · exact keeps_answerReq (keeps_foldl (fun _ _ h => keeps_markRels h) _ (keeps_plainMarks (keeps_atomPut hs)))
  · exact keeps_goOn (keeps_foldl (fun _ _ h => keeps_markRels h) _ (keeps_plainMarks (keeps_atomPut hs)))

theorem keeps_redHome {req : Nat} {r : Req} {ps : List RedPiece} {tw k : Nat} {p : RedPiece} (hs : Keeps κ s) :
    Keeps κ (redHome s req r ps tw k p) := by
  unfold redHome
  dsimp only
  split
  · exact keeps_later hs
  · split
    · next e1 =>
      exact keeps_later ((keeps_grab hs).snd_of e1)
    · next e1 =>
      split
      · exact keeps_lostReq ((keeps_grab hs).snd_of e1)
      · exact keeps_redDone (.ite (keeps_cxlFetch ((keeps_grab hs).snd_of e1)) ((keeps_grab hs).snd_of e1))

theorem keeps_homeRed {req : Nat} {r : Req} {ps : List RedPiece} {tw : Nat} (hs : Keeps κ s) :
    Keeps κ (homeRed s req r ps tw) := by
  unfold homeRed
  dsimp only
  split
  · exact keeps_answerReq (keeps_pickOne hs)
  · split
    · exact keeps_redDone (keeps_pickOne hs)
    · split
      · next e2 =>
        exact keeps_elsewhere (keeps_pickOne hs) e2
      · split
        · exact keeps_remoteReq (keeps_pickOne hs) (fun _ _ h => keeps_redDone h)
        · exact keeps_redHome (keeps_pickOne hs)

theorem ends_execHomeSliceRequest {req : Nat} (hs : Keeps κ s) : Ends κ (execHomeSliceRequest req s) := by
  unfold execHomeSliceRequest
  split
  · exact ends_next hs
  · split
    · exact ends_next hs
    · split
      · exact ends_next (keeps_dropLate hs)
      · split
        · exact ends_next (keeps_homeStore hs)
        · exact ends_next (keeps_homeLoad hs)
        · exact ends_next (keeps_homeRed hs)

theorem keeps_sinkReply {r : Req} (hs : Keeps κ s) : Keeps κ (sinkReply s r) := by
  unfold sinkReply
  split
  · exact keeps_raiseT hs
  · exact keeps_raiseT hs
  · exact keeps_updCrew hs

theorem ends_execReplySink {req : Nat} (hs : Keeps κ s) : Ends κ (execReplySink req s) := by
  unfold execReplySink
  split
  · exact ends_next hs
  · split
    · exact ends_next hs
    · split
      · exact ends_next (keeps_later (keeps_sinkReply hs.same))
      · split
        · exact ends_next (keeps_dropLate hs)
        · split
          · exact ends_next (keeps_later hs)
          · exact ends_next (keeps_later (keeps_sinkReply (keeps_claimReply hs.same)))

theorem keeps_endBusy {g a : Nat} (hs : Keeps κ s) : Keeps κ (endBusy s g a) := by
  unfold endBusy
  exact keeps_updLine hs

theorem keeps_wakeCore {core : Nat} (hs : Keeps κ s) : Keeps κ (wakeCore s core) := by
  unfold wakeCore
  dsimp only
  split
  · exact keeps_setCore hs
  · exact hs

theorem ends_execProbe {core line : Nat} {inval : Bool} (hs : Keeps κ s) : Ends κ (execProbe core line inval s) := by
  unfold execProbe
  split
  · exact ends_next hs
  · split
    · exact ends_next (keeps_later hs)
    · exact ends_next (keeps_probeAgent (keeps_endBusy (keeps_wakeCore hs)))

theorem keeps_scrubSlice {slice a : Nat} (hs : Keeps κ s) : Keeps κ (scrubSlice s slice a) := by
  unfold scrubSlice
  exact hs.same

theorem keeps_parkDead {slice a : Nat} (hs : Keeps κ s) : Keeps κ (parkDead s slice a) := by
  unfold parkDead
  dsimp only
  exact keeps_foldl (fun _ _ h => keeps_homeWrite (keeps_dropRecordVersions h)) _ hs

theorem keeps_killCore {core : Nat} (hs : Keeps κ s) : Keeps κ (killCore s core) := by
  unfold killCore
  dsimp only
  exact keeps_foldl (fun _ _ h => keeps_endGrid h) _ (keeps_setCore hs)

theorem keeps_dropLateCaps {slice a : Nat} (hs : Keeps κ s) : Keeps κ (dropLateCaps s slice a) := by
  unfold dropLateCaps
  exact keeps_foldl (fun _ _ h => keeps_later (keeps_postLate h.same)) _ hs

theorem keeps_declareDead {a g : Nat} (hs : Keeps κ s) : Keeps κ (declareDead s a g) := by
  unfold declareDead
  dsimp only
  split
  · exact keeps_killCore (keeps_postRec (keeps_dropLateCaps (keeps_parkDead (keeps_scrubSlice hs))).same)
  · exact keeps_postRec (keeps_dropLateCaps (keeps_parkDead (keeps_scrubSlice hs))).same

theorem ends_execProbeTimeout {agent line : Nat} (hs : Keeps κ s) : Ends κ (execProbeTimeout agent line s) := by
  unfold execProbeTimeout
  dsimp only
  split
  · exact ends_next hs
  · split
    · exact ends_next (keeps_later hs)
    · split
      · exact ends_next (keeps_later (keeps_later (keeps_setLine hs)))
      · exact ends_next (keeps_declareDead hs)

theorem keeps_applyKept {core e l : Nat} {x : MLine} (hs : Keeps κ s) : Keeps κ (applyKept s core e l x) := by
  unfold applyKept
  dsimp only
  split
  · exact keeps_setMLine hs
  · exact keeps_mlineToShr (keeps_setMLine hs)
  · exact keeps_mlineToInv (keeps_setMLine hs)

theorem ends_execMooringFillLand {core entry line : Nat} (hs : Keeps κ s) :
    Ends κ (execMooringFillLand core entry line s) := by
  unfold execMooringFillLand
  dsimp only
  split
  · exact ends_next hs
  · split
    · split
      · exact ends_next (keeps_setMLine hs)
      · exact ends_next (keeps_later (keeps_setMLine hs))
    · split
      · split
        · exact ends_next (keeps_later hs)
        · exact ends_next (keeps_applyKept hs)
      · exact ends_next hs

theorem keeps_endWriteBack {core e l : Nat} {x : MLine} (hs : Keeps κ s) : Keeps κ (endWriteBack s core e l x) := by
  unfold endWriteBack
  dsimp only
  split
  · exact keeps_mlineToInv (keeps_mergeMasked hs)
  · exact keeps_setMLine (keeps_mergeMasked hs)

theorem ends_execWritebackAck {core entry line : Nat} (hs : Keeps κ s) :
    Ends κ (execWritebackAck core entry line s) := by
  unfold execWritebackAck
  dsimp only
  split
  · exact ends_next hs
  · split
    · exact ends_next (keeps_later hs)
    · exact ends_next (keeps_endWriteBack hs)

theorem keeps_readySlot {r : SlotRef} (hs : Keeps κ s) : Keeps κ (readySlot s r) := by
  unfold readySlot
  exact keeps_updSlot hs

theorem keeps_walkFound {n : Nat} {w : Walk} {t : Tlb} (hs : Keeps κ s) : Keeps κ (walkFound s n w t) := by
  unfold walkFound
  dsimp only
  exact (keeps_foldl (fun _ _ h => .ite (keeps_sendStore h) h) _ (keeps_foldl (fun _ _ h => .ite
    (keeps_readySlot h) h) _ (keeps_foldl (fun _ _ h => .ite h (keeps_tlbInsert h)) _ hs))).same

theorem keeps_walkFaults {cause : Cause} {code : Nat} {kind : Nat → Nat} {x : SlotRef × Nat × Nat × DWord × Mask}
    (hs : Keeps κ s) : Keeps κ (walkFaults cause code kind s x) := by
  unfold walkFaults
  split
  · exact hs
  · exact keeps_takeFault (keeps_readySlot hs)

theorem keeps_walkFailed {n : Nat} {w : Walk} {cause : Cause} {code : Nat} {kind : Nat → Nat} (hs : Keeps κ s) :
    Keeps κ (walkFailed s n w cause code kind) := by
  unfold walkFailed
  dsimp only
  exact keeps_foldl (fun _ _ h => keeps_faultReq h) _ (keeps_foldl (fun _ _ h => keeps_walkFaults h) _ hs.same)

theorem keeps_walkPaid {w : Walk} (hs : Keeps κ s) : Keeps κ (walkPaid s w) := by
  unfold walkPaid
  exact keeps_foldl (fun _ _ h => keeps_exchange h) _ hs

theorem ends_execWalkComplete {walk : Nat} (hs : Keeps κ s) : Ends κ (execWalkComplete walk s) := by
  unfold execWalkComplete
  split
  · exact ends_next hs
  · split
    · exact ends_next (keeps_later hs)
    · split
      · exact ends_next (keeps_later (keeps_throttleTo hs))
      · split
        · exact ends_next (keeps_walkFound (keeps_walkPaid hs))
        · exact ends_next (keeps_later (keeps_grab hs))
        · exact ends_next (keeps_later hs)
        · exact ends_next (keeps_walkFailed (keeps_walkPaid hs))
        · exact ends_next (keeps_walkFailed (keeps_walkPaid hs))

theorem keeps_writeEvsl {die : Nat} {v : DWord} (hs : Keeps κ s) : Keeps κ (writeEvsl s die v) := by
  unfold writeEvsl
  dsimp only
  split
  · exact keeps_later (keeps_setDie hs (hs.dies _).same)
  · exact keeps_setDie hs (hs.dies _).same

theorem ends_execEvslLoad {die : Fin 4} {value : DWord} (hs : Keeps κ s) : Ends κ (execEvslLoad die value s) := by
  unfold execEvslLoad
  split
  · exact ends_next hs
  · exact ends_next (keeps_writeEvsl hs)

theorem keeps_loadSchedule {die : Nat} (hs : Keeps κ s) : Keeps κ (loadSchedule s die) := by
  unfold loadSchedule
  dsimp only
  split
  · exact keeps_setDie hs (hs.dies _).same
  · exact keeps_setDie hs (hs.dies _).same

theorem ends_execEvslLoadDone {die : Fin 4} (hs : Keeps κ s) : Ends κ (execEvslLoadDone die s) := by
  unfold execEvslLoadDone
  dsimp only
  split
  · exact ends_next hs
  · split
    · exact ends_next (keeps_later (keeps_foldl (fun _ _ h => keeps_refused h) _ hs))
    · exact ends_next (keeps_loadSchedule (keeps_foldl (fun _ _ h => keeps_exchange h) _ hs))

theorem ends_execEvphWrite {die : Fin 4} {writes : List (Nat × DWord)} (hs : Keeps κ s) :
    Ends κ (execEvphWrite die writes s) := by
  unfold execEvphWrite
  dsimp only
  split
  · exact ends_next hs
  · exact ends_next (keeps_setDie hs (hs.dies _).same)

theorem ends_execUcieLinkFailure {l : UcieLink} (hs : Keeps κ s) : Ends κ (execUcieLinkFailure l s) := by
  unfold execUcieLinkFailure
  exact ends_next (.ite hs hs.same)

theorem ends_execCorePowerGating {core : Nat} (hs : Keeps κ s) : Ends κ (execCorePowerGating core s) := by
  unfold execCorePowerGating
  dsimp only
  split
  · exact ends_next (keeps_setCore hs)
  · exact ends_next hs

end Sys2Proof
end

section
/-! # Invariants: the control register of a queue interface, and the window of a die. -/

namespace Sys2Proof

open Machine

set_option Elab.async false

variable {κ : Claim} {s : State}

theorem getLsbD_setBit {x : DWord} {k i : Nat} {b : Bool} (hi : i < 64) :
    (setBit x k b).getLsbD i = if k = i then b else x.getLsbD i := by
  have hm : (BitVec.ofNat 64 (2 ^ k)).getLsbD i = decide (k = i) := by
    rw [BitVec.getLsbD_ofNat, Nat.testBit_two_pow, decide_eq_true hi, Bool.true_and]
  unfold setBit
  split
  · next hb =>
    rw [BitVec.getLsbD_or, hm, hb]
    by_cases h : k = i <;> simp [h]
  · next hb =>
    rw [BitVec.getLsbD_and, BitVec.getLsbD_not, hm, eq_false_of_ne_true hb]
    by_cases h : k = i <;> simp [h, hi]

theorem getLsbD_setBit_other {x : DWord} {k i : Nat} {b : Bool} (h : i ≠ k) :
    (setBit x k b).getLsbD i = x.getLsbD i := by
  by_cases hi : i < 64
  · rw [getLsbD_setBit hi, if_neg h.symm]
  · rw [BitVec.getLsbD_of_ge _ _ (Nat.le_of_not_lt hi), BitVec.getLsbD_of_ge _ _ (Nat.le_of_not_lt hi)]

theorem nfield_setBit {x : DWord} {k lo w : Nat} {b : Bool} (h : k < lo ∨ lo + w ≤ k) :
    nfield (setBit x k b).toNat lo w = nfield x.toNat lo w := by
  refine Nat.eq_of_testBit_eq fun i => ?_
  simp only [nfield, Nat.testBit_mod_two_pow, Nat.testBit_div_two_pow]
  by_cases hi : i < w
  · have := getLsbD_setBit_other (x := x) (b := b) (k := k) (i := i + lo) (by omega)
    simp only [BitVec.getLsbD] at this
    rw [this]
  · simp [hi]

theorem nbit_setBit_false {x : DWord} {k : Nat} (hk : k < 64) : nbit (setBit x k false).toNat k = false := by
  rw [nbit_test, BitVec.testBit_toNat, getLsbD_setBit hk, if_pos rfl]

theorem nbit_setBit_other {x : DWord} {k i : Nat} {b : Bool} (h : i ≠ k) :
    nbit (setBit x k b).toNat i = nbit x.toNat i := by
  simp only [nbit_test, BitVec.testBit_toNat, getLsbD_setBit_other h]

/-- The fields of a control register put together from its flags, LEASE and TLCNT. -/
theorem qictl_fields {a p c l t : Nat} (ha : a ≤ 1) (hp : p < 2) (hc : c = 0 ∨ c = 4) (hl : l < 16) (ht : t ≤ 4096) :
    let x := (BitVec.ofNat 64 (a + p * 2 ^ 1 + c + l * 2 ^ 4 + t * 2 ^ 16)).toNat
    nbit x 0 = (a == 1) ∧ nfield x 4 4 = l ∧ nfield x 16 13 = t := by
  have hlt : a + p * 2 ^ 1 + c + l * 2 ^ 4 + t * 2 ^ 16 < 2 ^ 64 := by omega
  simp only [BitVec.toNat_ofNat, Nat.mod_eq_of_lt hlt, nbit, nfield]
  refine ⟨?_, by omega, by omega⟩
  rw [Bool.eq_iff_iff, beq_iff_eq, beq_iff_eq]
  omega

theorem qiOk_qictlAfter {q : Qi} {v : DWord} (hq : QiOk κ q) : QiOk κ { q with ctl := qictlAfter q.ctl v } := by
  intro hr hen
  dsimp only at hen ⊢
  unfold qictlAfter at hen ⊢
  by_cases hx : nbit q.ctl.toNat 0 = true
  · rw [if_pos hx] at hen ⊢
    by_cases hv : nbit v.toNat 0 = true
    · rw [if_pos hv]
      exact hq hr hx
    · rw [if_neg hv, nbit_setBit_false (by decide)] at hen
      cases hen
  · rw [if_neg hx] at hen ⊢
    dsimp only at hen ⊢
    have hlt : ∀ k w, nfield v.toNat k w < 2 ^ w := fun k w => Nat.mod_lt _ (by positivity)
    have ht : tlcntOf v ≤ 4096 := Nat.min_le_left ..
    generalize hbad : (nbit v.toNat 0 && (decide
      (nfield v.toNat 4 4 < 6 ∨ 12 < nfield v.toNat 4 4) || tlcntOf v == 0)) = bad at *
    obtain ⟨h0, h4, h16⟩ := qictl_fields (a := if (nbit v.toNat 0 && !bad) = true then 1 else 0)
      (p := nfield v.toNat 1 1)
      (c := if (bad || nbit q.ctl.toNat 2 && !nbit v.toNat 2) = true then 4 else 0) (l := nfield v.toNat 4 4)
        (t := tlcntOf v)
      (by split <;> decide) (hlt 1 1) (by split <;> simp) (hlt 4 4) ht
    simp only [keepBits] at hen ⊢
    rw [h0] at hen
    rw [h4, h16]
    have hgood : nbit v.toNat 0 = true ∧ bad = false := by
      by_contra hno
      rw [if_neg (by simpa using hno)] at hen
      cases hen
    rw [hgood.1, hgood.2] at hbad
    simp at hbad
    omega

theorem qiOk_setErr {q : Qi} {b : Bool} (hq : QiOk κ q) : QiOk κ { q with ctl := setBit q.ctl 2 b } := by
  intro hr hen
  dsimp only at hen ⊢
  rw [nbit_setBit_other (by decide)] at hen
  rw [nfield_setBit (.inl (by decide)), nfield_setBit (.inl (by decide))]
  exact hq hr hen

theorem dieOk_openWindow {d : Die} {temp clock : Nat} : DieOk κ (openWindow d temp clock) := by
  intro hr
  have hb : ∀ tok n, effBudget tok n ≤ 34048 := fun tok n =>
    Nat.max_le.2 ⟨by decide, (Nat.div_le_self ..).trans (Nat.min_le_left ..)⟩
  refine ⟨Nat.le_max_left .., hb _ _, Nat.sub_le .., Nat.min_le_left .., ?_⟩
  unfold openWindow
  dsimp only
  split
  · exact Nat.min_le_left ..
  · exact Nat.zero_le _

end Sys2Proof
end

section
/-! # Invariants: hosts, power, management and the tape's words. -/

namespace Sys2Proof

open Machine

set_option Elab.async false

variable {κ : Claim} {s : State}

theorem keeps_setHsem {k : Nat} {x : DWord} (hs : Keeps κ s) : Keeps κ (setHsem s k x) := by
  unfold setHsem
  dsimp only
  exact hs.same

theorem keeps_claimHsem {k : Nat} {p : Port} (hs : Keeps κ s) : Keeps κ (claimHsem s k p) := by
  unfold claimHsem
  dsimp only
  split
  · exact keeps_setHsem hs
  · exact hs

theorem keeps_freeHsem {k : Nat} {p : Port} (hs : Keeps κ s) : Keeps κ (freeHsem s k p) := by
  unfold freeHsem
  split
  · exact keeps_setHsem hs
  · exact hs

theorem keeps_tagHsem {k : Nat} {p : Port} {v : DWord} (hs : Keeps κ s) : Keeps κ (tagHsem s k p v) := by
  unfold tagHsem
  split
  · exact keeps_setHsem hs
  · exact hs

theorem keeps_writeHsem {k : Nat} {p : Port} {v : DWord} (hs : Keeps κ s) : Keeps κ (writeHsem s k p v) := by
  unfold writeHsem
  dsimp only
  split
  · exact hs
  · split
    · exact keeps_claimHsem (keeps_tagHsem hs)
    · split
      · exact keeps_freeHsem (keeps_tagHsem hs)
      · exact keeps_tagHsem hs

theorem keeps_semNoted {p : Port} (hs : Keeps κ s) : Keeps κ (semNoted s p) := by
  unfold semNoted
  dsimp only
  split
  · exact hs
  · exact hs.same

theorem ends_semWrite {p : Port} {i : Instr} {f : State → State} (hs : Keeps κ s)
    (hf : ∀ s, Keeps κ s → Keeps κ (f s)) :
    Ends κ (semWrite s p i f) := by
  unfold semWrite
  split
  · exact ends_next hs
  · split
    · exact ends_next (keeps_semNoted (hf _ hs))
    · exact ends_next (keeps_later hs)

theorem ends_execHsemClaim {k : Fin 32} {port : Port} (hs : Keeps κ s) : Ends κ (execHsemClaim k port s) := by
  unfold execHsemClaim
  exact ends_semWrite hs (fun _ h => keeps_claimHsem h)

theorem ends_execHsemRel {k : Fin 32} {port : Port} (hs : Keeps κ s) : Ends κ (execHsemRel k port s) := by
  unfold execHsemRel
  exact ends_semWrite hs (fun _ h => keeps_freeHsem h)

theorem ends_execPortReset {port : Port} (hs : Keeps κ s) : Ends κ (execPortReset port s) := by
  unfold execPortReset
  exact ends_next (keeps_foldl (fun _ _ h => keeps_freeHsem h) _ hs)

theorem ends_execQictlWrite {qi : QiRef} {value : DWord} (hs : Keeps κ s) : Ends κ (execQictlWrite qi value s) := by
  unfold execQictlWrite
  split
  · exact ends_next hs
  · exact ends_next (keeps_setQi hs (qiOk_qictlAfter (hs.qis _)))

theorem keeps_writeQiReg {qi : QiRef} {f : Qi → Qi} (hs : Keeps κ s) (hf : ∀ x, (f x).ctl = x.ctl) :
    Keeps κ (writeQiReg s qi f) := by
  unfold writeQiReg
  split
  · exact hs
  · exact keeps_setQi hs ((hs.qis _).same (hf _))

theorem keeps_dropTlbs {qi : QiRef} {inv : DWord} (hs : Keeps κ s) : Keeps κ (dropTlbs s qi inv) := by
  unfold dropTlbs
  dsimp only
  exact hs.same

theorem keeps_startInv {qi : QiRef} {op pasid : Nat} (hs : Keeps κ s) : Keeps κ (startInv s qi op pasid) := by
  have hinv : ∀ (x : Qi) (v : DWord), QiOk κ x → QiOk κ { x with inv := v } := fun _ _ hx => hx.same
  unfold startInv
  dsimp only
  split
  · exact keeps_setQi hs (qiOk_setErr (hs.qis _))
  · exact keeps_later (keeps_dropTlbs (keeps_setQi hs (hinv _ _ (hs.qis _))))

theorem ends_startInvReady {qi : QiRef} {op pasid : Nat} (hs : Keeps κ s) : Ends κ (startInvReady s qi op pasid) := by
  unfold startInvReady
  split
  · exact ends_next (keeps_startInv hs)
  · exact ends_next hs

theorem ends_execQiinvFirstStage {qi : QiRef} {pasid : Nat} (hs : Keeps κ s) :
    Ends κ (execQiinvFirstStage qi pasid s) := by
  unfold execQiinvFirstStage
  exact ends_startInvReady hs

theorem ends_execQiinvInterface {qi : QiRef} (hs : Keeps κ s) : Ends κ (execQiinvInterface qi s) := by
  unfold execQiinvInterface
  exact ends_startInvReady hs

theorem ends_execQiinvRevoke {qi : QiRef} {pasid : Nat} (hs : Keeps κ s) : Ends κ (execQiinvRevoke qi pasid s) := by
  unfold execQiinvRevoke
  exact ends_startInvReady hs

theorem ends_execQiinvSecondStage {qi : QiRef} (hs : Keeps κ s) : Ends κ (execQiinvSecondStage qi s) := by
  unfold execQiinvSecondStage
  exact ends_startInvReady hs

theorem ends_execQiinvDone {qi : QiRef} (hs : Keeps κ s) : Ends κ (execQiinvDone qi s) := by
  unfold execQiinvDone
  dsimp only
  split
  · exact ends_next hs
  · split
    · exact ends_next (keeps_later hs)
    · exact ends_next (keeps_dropTlbs (keeps_setQi hs (hs.qis _).same))

theorem keeps_writeQiinv {qi : QiRef} {v : DWord} (hs : Keeps κ s) : Keeps κ (writeQiinv s qi v) := by
  unfold writeQiinv
  dsimp only
  split
  · exact keeps_startInv hs
  · exact keeps_setQi hs (hs.qis _).same

theorem keeps_hostReady {die g : Nat} {who : Option Nat} {inval : Bool} {t : State} (hs : Keeps κ s)
    (e : hostReady s die g who inval = some t) : Keeps κ t := by
  unfold hostReady at e
  split at e
  · cases e
  · split at e
    · next e2 =>
      cases e
      exact keeps_exchange ((keeps_grab hs).snd_of e2)
    · cases e

theorem keeps_outsideHeld {g : Nat} {who : Option Nat} {inval : Bool} (hs : Keeps κ s) :
    Keeps κ (outsideHeld s g who inval) := by
  unfold outsideHeld
  split
  · exact hs
  · exact keeps_grab hs

theorem keeps_hostKeeps {k g a : Nat} (hs : Keeps κ s) : Keeps κ (hostKeeps s k g a) := by
  unfold hostKeeps
  split
  · exact hs
  · split
    · exact hs
    · exact keeps_updLine hs
    · exact keeps_updLine hs

theorem keeps_hostRead {x : HostAccess} {k : Nat} (hs : Keeps κ s) : Keeps κ (hostRead s x k) := by
  unfold hostRead
  dsimp only
  exact (keeps_hostKeeps hs).same

theorem keeps_outsideMarks {bs : List (Nat × Byte)} {tw : Nat} (hs : Keeps κ s) : Keeps κ (outsideMarks s bs tw) := by
  unfold outsideMarks
  exact keeps_markBytes hs

theorem keeps_outsideWrite {pa agent : Nat} {bs : List (Nat × Byte)} (hs : Keeps κ s) :
    Keeps κ (outsideWrite s pa agent bs) := by
  unfold outsideWrite
  dsimp only
  split
  · exact keeps_poisonedWrite hs
  · exact keeps_outsideMarks (keeps_plainMarks (keeps_atomicMarks (keeps_homePut hs)))

theorem ends_execHostMemAccess {x : HostAccess} (hs : Keeps κ s)
    (hm : ¬ (portUp s x.port = true ∧ Config.deviceBytes < x.pa + hostLen x)) : Ends κ (execHostMemAccess x s) := by
  unfold execHostMemAccess
  dsimp only
  split
  · exact ends_next hs
  · next hup =>
    split
    · next hlt => exact absurd ⟨by simpa using hup, hlt⟩ hm
    · split
      · exact ends_next (keeps_outsideWrite hs)
      · split
        · exact ends_next (keeps_later (keeps_refused hs))
        · split
          · exact ends_next (keeps_later (keeps_outsideHeld (keeps_freeChoice hs)))
          · next e =>
            have h1 := keeps_hostReady (keeps_freeChoice hs) e
            split
            · exact ends_next (keeps_hostRead h1)
            · exact ends_next (keeps_outsideWrite h1)

theorem keeps_leaveModule {g : Nat} (hs : Keeps κ s) : Keeps κ (leaveModule s g) := by
  unfold leaveModule
  exact keeps_updLine (.ite (keeps_leaveL2 hs) hs)

theorem keeps_shareHost {g : Nat} (hs : Keeps κ s) : Keeps κ (shareHost s g) := by
  unfold shareHost
  exact keeps_updLine hs

theorem keeps_afterSnoop {g : Nat} {kind : SnoopKind} (hs : Keeps κ s) : Keeps κ (afterSnoop s g kind) := by
  unfold afterSnoop
  split
  · exact keeps_leaveModule hs
  · exact keeps_shareHost hs
  · exact hs

theorem keeps_answerSnoop {port : Port} {pa : Nat} {d : Option (List Byte)} {bad : Bool} (hs : Keeps κ s) :
    Keeps κ (answerSnoop s port pa d bad) := by
  unfold answerSnoop
  exact hs.same

theorem keeps_snoopDown {port : Port} {pa g : Nat} (hs : Keeps κ s) : Keeps κ (snoopDown s port pa g) := by
  unfold snoopDown
  split
  · exact keeps_answerSnoop hs
  · exact keeps_answerSnoop hs

theorem ends_execHostSnoop {port : Port} {pa : Nat} {kind : SnoopKind} (hs : Keeps κ s) :
    Ends κ (execHostSnoop port pa kind s) := by
  unfold execHostSnoop
  dsimp only
  split
  · exact ends_next hs
  · split
    · exact ends_next (keeps_snoopDown hs)
    · split
      · exact ends_next (keeps_answerSnoop hs)
      · split
        · exact ends_next (keeps_later (keeps_refused hs))
        · split
          · exact ends_next (keeps_later (keeps_outsideHeld hs))
          · next e4 =>
            exact ends_next (keeps_afterSnoop (keeps_answerSnoop (keeps_hostReady hs e4)))

theorem keeps_remoteEnded {x : Remote} {who : Actor} {ok : Bool} (hs : Keeps κ s) :
    Keeps κ (remoteEnded s x who ok) := by
  unfold remoteEnded
  exact hs.same

theorem keeps_remotePoison {id : Nat} {x : Remote} (hs : Keeps κ s) : Keeps κ (remotePoison s id x) := by
  unfold remotePoison
  dsimp only
  split
  · exact by
        split
        · split
          · exact keeps_faultReq hs.same
          · exact keeps_lostReq hs.same
        · exact hs.same
  · split
    · split
      · exact keeps_takeFault (keeps_readySlot hs.same)
      · exact hs.same
    · exact hs.same
  · exact keeps_remoteEnded hs.same

theorem keeps_remoteAnswer {id : Nat} {x : Remote} (hs : Keeps κ s) : Keeps κ (remoteAnswer s id x) := by
  unfold remoteAnswer
  dsimp only
  split
  · exact keeps_later (keeps_remoteEnded hs.same)
  · split
    · split
      · exact keeps_readySlot (keeps_remoteEnded hs.same)
      · exact hs.same
    · exact hs.same
  · exact keeps_remoteEnded hs.same

theorem ends_execRemoteTimeout {req : Nat} (hs : Keeps κ s) : Ends κ (execRemoteTimeout req s) := by
  unfold execRemoteTimeout
  split
  · exact ends_next hs
  · split
    · next e1 =>
      split
      · exact ends_next (keeps_remoteAnswer ((keeps_freeChoice hs).snd_of e1))
      · split
        · exact ends_next (keeps_later ((keeps_freeChoice hs).snd_of e1))
        · split
          · exact ends_next (keeps_remotePoison ((keeps_freeChoice hs).snd_of e1))
          · exact ends_next (keeps_later ((keeps_freeChoice hs).snd_of e1).same)

theorem ends_execFlitReplay {_flit : Nat} (hs : Keeps κ s) : Ends κ (execFlitReplay _flit s) := by
  unfold execFlitReplay
  exact ends_next hs

theorem keeps_sendRemote {x : RemoteReq} {d : List Byte} (hs : Keeps κ s) : Keeps κ (sendRemote s x d) := by
  unfold sendRemote
  exact hs.same

theorem keeps_outsideAtom {pa agent : Nat} {bs : List (Nat × Byte)} (hs : Keeps κ s) :
    Keeps κ (outsideAtom s pa agent bs) := by
  unfold outsideAtom
  split
  · exact keeps_poisonedWrite hs
  · split
    · next e1 =>
      exact keeps_outsideMarks (keeps_atomicMarks ((keeps_homePut hs).snd_of e1))

theorem keeps_remoteAccess {x : RemoteReq} (hs : Keeps κ s) : Keeps κ (remoteAccess s x) := by
  unfold remoteAccess
  dsimp only
  split
  · exact keeps_sendRemote hs
  · exact keeps_sendRemote (keeps_outsideWrite hs)
  · exact keeps_sendRemote (keeps_outsideAtom hs)

theorem ends_execCrilvonRemoteRequest {x : RemoteReq} (hs : Keeps κ s)
    (hm : ¬ Config.deviceBytes < x.pa + remoteLen x) :
    Ends κ (execCrilvonRemoteRequest x s) := by
  unfold execCrilvonRemoteRequest
  rw [if_neg hm]
  split
  · exact ends_next (keeps_later (keeps_refused hs))
  · split
    · exact ends_next (keeps_later (keeps_outsideHeld hs))
    · next e => exact ends_next (keeps_remoteAccess (keeps_hostReady hs e))

theorem ends_execPatrolScrub {line : Nat} {uncorrectable : Bool} (hs : Keeps κ s) :
    Ends κ (execPatrolScrub line uncorrectable s) := by
  unfold execPatrolScrub
  split
  · exact ends_next hs
  · split
    · exact ends_next (keeps_later hs)
    · exact ends_next (keeps_updLine hs)

theorem keepsE_halfSrcE {h : Here} {m : Mask} {x : Half} : KeepsE κ (fun _ => True) (halfSrcE h m x) := by
  unfold halfSrcE
  split
  · exact keepsE_pure_true
  · split
    · exact keepsE_pure_true
    · exact keepsE_bind keepsE_readSrcsE (fun _ _ => by
          split
          · exact keepsE_pure_true
          · exact keepsE_pure_true)

theorem keepsE_halfLoadE {h : Here} {m : Mask} {x : Half} {v : Nat → Nat} :
    KeepsE κ (fun _ => True) (halfLoadE h m x v) := by
  unfold halfLoadE
  dsimp only
  exact keepsE_mapM (fun _ => keepsE_bind keepsE_stashE (fun _ _ => keepsE_bind keepsE_stashReadE (fun _ _ =>
    keepsE_pure_true))) _

theorem keepsE_halfReadyE {h : Here} {m : Mask} {x : Half} {v : Nat → Nat} :
    KeepsE κ (fun _ => True) (halfReadyE h m x v) := by
  unfold halfReadyE
  dsimp only
  exact keepsE_forM (fun _ => keepsE_bind keepsE_stashE (fun _ _ => keepsE_pure_true)) _

theorem keepsE_halfValE {h : Here} {m : Mask} {x : Half} {v : Nat → Nat} :
    KeepsE κ (fun _ => True) (halfValE h m x v) := by
  unfold halfValE
  exact keepsE_bind keepsE_getE (fun _ _ => .ite (keepsE_bind keepsE_halfLoadE (fun _ _ =>
    keepsE_pure_true)) keepsE_pure_true)

theorem keeps_storeHalf {h : Here} {m : Mask} {x : Half} {v : Nat → Nat} (hs : Keeps κ s) :
    Keeps κ (storeHalf h m x v s) := by
  unfold storeHalf
  split
  · exact keeps_putStashes hs
  · exact hs

theorem keepsE_halvesE {h : Here} {m : Mask} {a b : Half} : KeepsE κ (fun _ => True) (halvesE h m a b) := by
  unfold halvesE
  dsimp only
  exact keepsE_bind keepsE_halfSrcE (fun _ _ => keepsE_bind keepsE_halfSrcE (fun _ _ => keepsE_bind keepsE_halfValE
    (fun _ _ => keepsE_bind keepsE_halfValE (fun _ _ => keepsE_guard keepsE_halfReadyE (fun _ =>
    keepsE_guard keepsE_halfReadyE (fun _ => keepsE_pure_true))))))

theorem stays_execPairedWord {a b : Half} (hs : Keeps κ s) : Stays κ (execPairedWord a b s) := by
  unfold execPairedWord
  dsimp only
  exact stays_issueWord hs (fun _ => keepsE_bind (keepsE_undoE keepsE_halvesE) (fun _ _ => keepsE_bind (keepsE_modifyE
    (fun _ h2 => keeps_storeHalf (keeps_storeHalf h2))) (fun _ _ => keepsE_bind keepsE_updCrewE (fun _ _ =>
    keepsE_nextE))))

theorem keeps_updateAccounts {die : Nat} (hs : Keeps κ s) : Keeps κ (updateAccounts s die) := by
  unfold updateAccounts
  dsimp only
  exact hs.same

theorem keeps_afterWindow {die : Fin 4} (hs : Keeps κ s) : Keeps κ (afterWindow s die) := by
  unfold afterWindow
  exact keeps_laterOnce hs

theorem ends_execTokenWindow {die : Fin 4} (hs : Keeps κ s) : Ends κ (execTokenWindow die s) := by
  unfold execTokenWindow
  dsimp only
  exact ends_next (keeps_afterWindow (keeps_updateAccounts (keeps_setDie hs.same dieOk_openWindow)))

theorem keeps_writeTokbud {die : Nat} {v : DWord} (hs : Keeps κ s) : Keeps κ (writeTokbud s die v) := by
  unfold writeTokbud
  dsimp only
  exact keeps_setDie hs (hs.dies _).same

theorem ends_execTokbudWrite {die : Fin 4} {value : DWord} (hs : Keeps κ s) : Ends κ (execTokbudWrite die value s) := by
  unfold execTokbudWrite
  split
  · exact ends_next (keeps_writeTokbud hs)
  · exact ends_next hs

theorem ends_execTshiftDecay {die : Fin 4} (hs : Keeps κ s) : Ends κ (execTshiftDecay die s) := by
  unfold execTshiftDecay
  dsimp only
  split
  · exact ends_next hs
  · split
    · exact ends_next hs
    · split
      · exact ends_next hs
      · refine ends_next (keeps_setDie hs fun hr => ?_)
        obtain ⟨h1, h2, h3, h4, h5⟩ := hs.dies die.val hr
        exact ⟨h1, h2, h3, (Nat.sub_le ..).trans h4, h5⟩

theorem keeps_resetModule {lost : List Nat} {down : Bool} (hs : Keeps κ s) : Keeps κ (resetModule s lost down) := by
  refine ⟨hs.mem, fun d _ => ?_, fun q _ hen => ?_, fun _ => ⟨Nat.le_refl 1, fun n w hw => ?_⟩⟩
  · have hd : dieOf (resetModule s lost down) d = Die.reset := rfl
    rw [hd]
    decide
  · have hq : qiOf (resetModule s lost down) q = Qi.reset := rfl
    rw [hq] at hen
    exact absurd hen (by decide)
  · cases hw

theorem ends_execThermalTrip {die : Fin 4} (hs : Keeps κ s) : Ends κ (execThermalTrip die s) := by
  unfold execThermalTrip
  split
  · exact ends_next hs
  · exact ends_next (keeps_resetModule hs)

theorem keeps_returnHostLines {core : Nat} (hs : Keeps κ s) : Keeps κ (returnHostLines s core) := by
  unfold returnHostLines
  exact keeps_foldl (fun _ _ h => keeps_foldl (fun _ _ h1 => keeps_mergeMasked h1) _ h) _ hs

theorem keeps_evictHostLines (hs : Keeps κ s) : Keeps κ (evictHostLines s) := by
  unfold evictHostLines
  exact keeps_foldl (fun _ _ h => keeps_evictLine h) _ hs

theorem keeps_orderlyReset (hs : Keeps κ s) : Keeps κ (orderlyReset s) := by
  unfold orderlyReset
  exact keeps_resetModule (keeps_evictHostLines (keeps_foldl (fun _ _ h => keeps_returnHostLines h) _ hs))

theorem ends_execRstreq (hs : Keeps κ s) : Ends κ (execRstreq s) := by
  unfold execRstreq
  exact ends_next (keeps_orderlyReset hs)

theorem keeps_setDevrdy {x : DWord} (hs : Keeps κ s) : Keeps κ (setDevrdy s x) := by
  unfold setDevrdy
  dsimp only
  exact hs.same

theorem keeps_trainPorts (hs : Keeps κ s) : Keeps κ (trainPorts s) := by
  unfold trainPorts
  dsimp only
  exact keeps_setDevrdy hs.same

theorem keeps_opticalDone {optdeg : Bool} (hs : Keeps κ s) : Keeps κ (opticalDone s optdeg) := by
  unfold opticalDone
  exact keeps_setDevrdy hs

theorem keeps_becomeReady (hs : Keeps κ s) : Keeps κ (becomeReady s) := by
  unfold becomeReady
  dsimp only
  exact keeps_setDevrdy hs

theorem ends_execPowerGood {images : List FwImage} {hbm links ports : List Bool} (hs : Keeps κ s) :
    Ends κ (execPowerGood images hbm links ports s) := by
  unfold execPowerGood
  dsimp only
  split
  · exact ends_next (keeps_later (keeps_setDevrdy hs.same))
  · exact ends_next (keeps_later (keeps_trainPorts hs))
  · split
    · exact ends_next (keeps_later (keeps_opticalDone (keeps_freeChoice hs)))
    · exact ends_next (keeps_laterOnce (keeps_freeChoice hs))
  · exact ends_next (keeps_becomeReady hs)
  · split
    · exact ends_next hs
    · split
      · exact ends_next (keeps_setDevrdy hs)
      · exact ends_next (keeps_later (keeps_setDevrdy hs))

theorem ends_execOpticalTrainTimeout (hs : Keeps κ s) : Ends κ (execOpticalTrainTimeout s) := by
  unfold execOpticalTrainTimeout
  split
  · exact ends_next (keeps_later (keeps_opticalDone hs))
  · exact ends_next hs

theorem ends_answerSpdm {x : SpdmReq} {a : SpdmAnswer} (hs : Keeps κ s) : Ends κ (answerSpdm s x a) := by
  unfold answerSpdm
  exact ends_next (.ite hs.same hs)

theorem ends_execGetVersion {x : SpdmReq} (hs : Keeps κ s) : Ends κ (execGetVersion x s) := by
  unfold execGetVersion
  exact ends_answerSpdm hs

theorem ends_execGetCapabilities {x : SpdmReq} (hs : Keeps κ s) : Ends κ (execGetCapabilities x s) := by
  unfold execGetCapabilities
  exact ends_answerSpdm hs

theorem ends_execNegotiateAlgorithms {x : SpdmReq} (hs : Keeps κ s) : Ends κ (execNegotiateAlgorithms x s) := by
  unfold execNegotiateAlgorithms
  exact ends_answerSpdm hs

theorem ends_execGetDigests {x : SpdmReq} (hs : Keeps κ s) : Ends κ (execGetDigests x s) := by
  unfold execGetDigests
  exact ends_answerSpdm hs

theorem ends_execGetCertificate {x : SpdmReq} (hs : Keeps κ s) : Ends κ (execGetCertificate x s) := by
  unfold execGetCertificate
  exact ends_answerSpdm hs

theorem ends_execChallenge {x : SpdmReq} (hs : Keeps κ s) : Ends κ (execChallenge x s) := by
  unfold execChallenge
  exact ends_answerSpdm hs

theorem ends_execGetMeasurements {x : SpdmReq} (hs : Keeps κ s) : Ends κ (execGetMeasurements x s) := by
  unfold execGetMeasurements
  exact ends_answerSpdm hs

theorem keeps_updRegs {f : Regs → Regs} (hs : Keeps κ s) (hf : ∀ g, (f g).nextToken = g.nextToken) :
    Keeps κ (updRegs s f) := hs.same rfl rfl rfl (hf _)

theorem ends_writeFqack {v : DWord} (hs : Keeps κ s) : Ends κ (writeFqack s v) := by
  unfold writeFqack
  dsimp only
  split
  · exact ends_next (.ite (keeps_updRegs hs (fun _ => rfl)) hs)
  · split
    · exact ends_execFqackReplay (.ite (keeps_updRegs hs (fun _ => rfl)) hs)
    · exact ends_execFqackKill (.ite (keeps_updRegs hs (fun _ => rfl)) hs)
    · exact ends_execFqackDock (.ite (keeps_updRegs hs (fun _ => rfl)) hs)
    · exact ends_next (keeps_ackError (.ite (keeps_updRegs hs (fun _ => rfl)) hs))

theorem keeps_writeDkpool {v : DWord} (hs : Keeps κ s) : Keeps κ (writeDkpool s v) := by
  unfold writeDkpool
  exact keeps_wakeDies (keeps_reportPool (keeps_updRegs hs (fun _ => rfl)))

theorem keeps_writeDevrdy {v : DWord} (hs : Keeps κ s) : Keeps κ (writeDevrdy s v) := by
  unfold writeDevrdy
  split
  · exact keeps_laterOnce (keeps_setDevrdy hs)
  · exact hs

theorem keeps_writeQi {p : Port} {qi : QiRef} {f : State → State} (hs : Keeps κ s)
    (hf : ∀ s, Keeps κ s → Keeps κ (f s)) : Keeps κ (writeQi s p qi f) := by
  unfold writeQi
  split
  · exact hf _ hs
  · exact hs

theorem keeps_writeMsix {p : Port} {v : Nat} {ctl : Bool} {x : DWord} (hs : Keeps κ s) :
    Keeps κ (writeMsix s p v ctl x) := by
  unfold writeMsix
  dsimp only
  exact keeps_updRegs hs (fun _ => rfl)

theorem ends_writeReg {p : Port} {a : RegAddr} {v : DWord} (hs : Keeps κ s) : Ends κ (writeReg s p a v) := by
  unfold writeReg
  split
  · exact ends_next (keeps_writeDevrdy hs)
  · exact ends_next (keeps_updRegs hs fun _ => rfl)
  · exact ends_next (keeps_updRegs hs fun _ => rfl)
  · exact ends_writeFqack hs
  · exact ends_next (keeps_writeDkpool hs)
  · exact ends_next (keeps_writeEvsl hs)
  · exact ends_next (keeps_setDie hs (hs.dies _).same)
  · exact ends_next (keeps_updRegs hs fun _ => rfl)
  · exact ends_next (keeps_updRegs hs fun _ => rfl)
  · exact ends_next (keeps_updRegs hs fun _ => rfl)
  · exact ends_next (keeps_writeTokbud hs)
  · exact ends_next hs
  · exact ends_semWrite hs fun _ h1 => keeps_writeHsem h1
  · exact ends_next (keeps_writeQi hs fun _ h1 => keeps_setQi h1 (qiOk_qictlAfter (h1.qis _)))
  · exact ends_next (keeps_writeQi hs fun _ h1 => keeps_writeQiReg h1 fun _ => rfl)
  · exact ends_next (keeps_writeQi hs fun _ h1 => keeps_writeQiReg h1 fun _ => rfl)
  · exact ends_next (keeps_writeQi hs fun _ h1 => keeps_writeQiReg h1 fun _ => rfl)
  · exact ends_next (keeps_writeQi hs fun _ h1 => keeps_writeQiReg h1 fun _ => rfl)
  · exact ends_next (keeps_writeQi hs fun _ h1 => keeps_writeQiinv h1)
  · exact ends_next (keeps_writeMsix hs)
  · exact ends_next hs

theorem ends_execRegisterWrite {port : Port} {r : RegAddr} {value : DWord} (hs : Keeps κ s) :
    Ends κ (execRegisterWrite port r value s) := by
  unfold execRegisterWrite
  split
  · exact ends_writeReg hs
  · split
    · exact ends_next hs
    · split
      · exact ends_next (keeps_writeDevrdy hs)
      · exact ends_next hs

theorem keepsE_mayRebindE {h : Here} : KeepsE κ (fun _ => True) (mayRebindE h) := by
  unfold mayRebindE
  exact keepsE_bind keepsE_crewE (fun _ _ => .ite keepsE_trapE keepsE_pure_true)

theorem stays_execTbindNew (hs : Keeps κ s) : Stays κ (execTbindNew s) := by
  unfold execTbindNew
  exact stays_issueWord hs (fun _ => keepsE_bind keepsE_tapeFlagE (fun _ _ => keepsE_bind keepsE_mayRebindE (fun _ _ =>
    keepsE_bind keepsE_bindFirstE (fun _ _ => keepsE_bind keepsE_leaveStreamE (fun _ _ => keepsE_bind keepsE_updTapeE
    (fun _ _ => keepsE_nextE))))))

theorem stays_execTbindAt {a : Opnd} (hs : Keeps κ s) : Stays κ (execTbindAt a s) := by
  unfold execTbindAt
  dsimp only
  exact stays_issueWord hs (fun _ => keepsE_bind keepsE_getE (fun _ _ => keepsE_bind keepsE_tapeFlagE (fun _ _ =>
    keepsE_bind keepsE_mayRebindE (fun _ _ => keepsE_bind keepsE_bindFirstE (fun _ _ => .ite keepsE_tapeTrapE
    (keepsE_bind keepsE_leaveStreamE (fun _ _ => keepsE_bind keepsE_updTapeE (fun _ _ => keepsE_nextE))))))))

theorem stays_execTbindCh {n : Fin 16} {tag : Byte} (hs : Keeps κ s) : Stays κ (execTbindCh n tag s) := by
  unfold execTbindCh
  exact stays_issueWord hs (fun _ => keepsE_bind keepsE_tapeFlagE (fun _ _ => keepsE_bind keepsE_bindFirstE (fun _ _ =>
    keepsE_bind keepsE_updCrewE (fun _ _ => keepsE_nextE))))

theorem stays_execTrec {x : TrecOp} (hs : Keeps κ s) : Stays κ (execTrec x s) := by
  unfold execTrec
  exact stays_issueWord hs (fun _ => keepsE_bind keepsE_getE (fun _ _ => keepsE_bind keepsE_tapeFlagE (fun _ _ =>
    keepsE_bind keepsE_needTapeE (fun _ _ => keepsE_bind keepsE_recordE (fun _ _ => keepsE_nextE)))))

theorem stays_execTmark {tag : Byte} {a : Opnd} (hs : Keeps κ s) : Stays κ (execTmark tag a s) := by
  unfold execTmark
  exact stays_issueWord hs (fun _ => keepsE_bind keepsE_getE (fun _ _ => keepsE_bind keepsE_tapeFlagE (fun _ _ =>
    keepsE_bind keepsE_needTapeE (fun _ _ => keepsE_bind keepsE_recordE (fun _ _ => keepsE_nextE)))))

theorem stays_execTback {x : TbackOp} (hs : Keeps κ s) : Stays κ (execTback x s) := by
  unfold execTback
  dsimp only
  exact stays_issueWord hs (fun _ => keepsE_bind keepsE_tapeFlagE (fun _ _ => .ite keepsE_nextE
    (keepsE_bind keepsE_popE (fun _ _ => keepsE_bind keepsE_updCrewE (fun _ _ => keepsE_nextE)))))

theorem stays_execTbpop {x : TbpopOp} (hs : Keeps κ s) : Stays κ (execTbpop x s) := by
  unfold execTbpop
  dsimp only
  exact stays_issueWord hs (fun _ => keepsE_bind keepsE_tapeFlagE (fun _ _ => .ite keepsE_nextE
    (keepsE_bind keepsE_popE (fun _ _ => keepsE_bind keepsE_updCrewE (fun _ _ => keepsE_nextE)))))

theorem keepsE_topHeaderE {h : Here} {t : Tape} : KeepsE κ (fun _ => True) (topHeaderE h t) := by
  unfold topHeaderE
  split
  · exact keepsE_pure_true
  · exact keepsE_tapeWordE

theorem keepsE_tstatE {h : Here} {sel : TstatSel} : KeepsE κ (fun _ => True) (tstatE h sel) := by
  unfold tstatE
  exact keepsE_bind keepsE_crewE (fun _ _ => by
      split
      · exact keepsE_pure_true
      · exact keepsE_topHeaderE
      · exact keepsE_pure_true)

theorem stays_execTstat {g : Guard} {d : Opnd} {sel : TstatSel} (hs : Keeps κ s) : Stays κ (execTstat g d sel s) := by
  unfold execTstat
  dsimp only
  exact stays_issueWord hs (fun _ => keepsE_bind keepsE_tapeFlagE (fun _ _ => .ite keepsE_nextE
    (keepsE_bind keepsE_bindFirstE (fun _ _ => keepsE_bind keepsE_tstatE (fun _ _ => keepsE_bind keepsE_updCrewE
    (fun _ _ => keepsE_nextE))))))

theorem ends_execTapeWriteOut {blk crew : Nat} (hs : Keeps κ s) : Ends κ (execTapeWriteOut blk crew s) := by
  unfold execTapeWriteOut
  split
  · exact ends_next hs
  · split
    · exact ends_next (keeps_dropWalkEnd hs)
    · split
      · exact ends_next (keeps_later hs)
      · exact ends_next (keeps_laterOnce (keeps_writeOutStep hs))

end Sys2Proof
end

section
/-! # Every instruction and every step keeps the claims. -/

namespace Sys2Proof

open Machine

set_option Elab.async false

section
variable {κ : Claim} {s : State}

/-! ## Instructions -/

/-- Every word keeps the claim where it goes on. -/
theorem stays_exec_word {i : Instr} (hi : i.isWord = true) (hs : Keeps κ s) : Stays κ (exec i s) := by
  cases i with
  | iadd _ => exact stays_execIadd hs
  | isub _ => exact stays_execIsub hs
  | iaddc _ => exact stays_execIaddc hs
  | imul _ => exact stays_execImul hs
  | imulhi _ => exact stays_execImulhi hs
  | imad _ => exact stays_execImad hs
  | imadw _ => exact stays_execImadw hs
  | imin _ => exact stays_execImin hs
  | imax _ => exact stays_execImax hs
  | iabs _ => exact stays_execIabs hs
  | and _ => exact stays_execAnd hs
  | or _ => exact stays_execOr hs
  | xor _ => exact stays_execXor hs
  | andn _ => exact stays_execAndn hs
  | orn _ => exact stays_execOrn hs
  | shl _ => exact stays_execShl hs
  | shr _ => exact stays_execShr hs
  | sar _ => exact stays_execSar hs
  | rotl _ => exact stays_execRotl hs
  | fshf _ => exact stays_execFshf hs
  | bfx _ => exact stays_execBfx hs
  | bfi _ => exact stays_execBfi hs
  | popc _ => exact stays_execPopc hs
  | clz _ => exact stays_execClz hs
  | ctz _ => exact stays_execCtz hs
  | brev _ => exact stays_execBrev hs
  | prmt _ => exact stays_execPrmt hs
  | lea _ => exact stays_execLea hs
  | isetp _ => exact stays_execIsetp hs
  | sel _ => exact stays_execSel hs
  | mov _ => exact stays_execMov hs
  | fadd _ => exact stays_execFadd hs
  | fsub _ => exact stays_execFsub hs
  | fmul _ => exact stays_execFmul hs
  | ffma _ => exact stays_execFfma hs
  | fmin _ => exact stays_execFmin hs
  | fmax _ => exact stays_execFmax hs
  | fsetp _ => exact stays_execFsetp hs
  | fclass _ => exact stays_execFclass hs
  | frcp _ => exact stays_execFrcp hs
  | frsq _ => exact stays_execFrsq hs
  | fsqrt _ => exact stays_execFsqrt hs
  | fex2 _ => exact stays_execFex2 hs
  | flg2 _ => exact stays_execFlg2 hs
  | fsin _ => exact stays_execFsin hs
  | fcos _ => exact stays_execFcos hs
  | ftanh _ => exact stays_execFtanh hs
  | hadd2 _ => exact stays_execHadd2 hs
  | hmul2 _ => exact stays_execHmul2 hs
  | hfma2 _ => exact stays_execHfma2 hs
  | hmnmx2 _ => exact stays_execHmnmx2 hs
  | cvt _ => exact stays_execCvt hs
  | cvtq _ => exact stays_execCvtq hs
  | cvtdq _ => exact stays_execCvtdq hs
  | pack _ => exact stays_execPack hs
  | unpk _ => exact stays_execUnpk hs
  | lutx _ => exact stays_execLutx hs
  | idp4 _ => exact stays_execIdp4 hs
  | idp8 _ => exact stays_execIdp8 hs
  | fdp4 _ => exact stays_execFdp4 hs
  | fdp2 _ => exact stays_execFdp2 hs
  | pairedWord _ _ => exact stays_execPairedWord hs
  | shfl _ => exact stays_execShfl hs
  | vote _ => exact stays_execVote hs
  | matchLanes _ => exact stays_execMatchLanes hs
  | cred _ => exact stays_execCred hs
  | cscan _ => exact stays_execCscan hs
  | lser => exact stays_execLser hs
  | lsend => exact stays_execLsend hs
  | actm _ => exact stays_execActm hs
  | bra _ _ => exact stays_execBra hs
  | braT _ _ _ => exact stays_execBraT hs
  | brx _ _ => exact stays_execBrx hs
  | call _ _ _ => exact stays_execCall hs
  | callx _ _ _ => exact stays_execCallx hs
  | ret _ _ => exact stays_execRet hs
  | join _ => exact stays_execJoin hs
  | exit _ => exact stays_execExit hs
  | trap _ _ => exact stays_execTrap hs
  | chkpt _ => exact stays_execChkpt hs
  | yieldSlot _ => exact stays_execYieldSlot hs
  | sleep _ => exact stays_execSleep hs
  | nop _ => exact stays_execNop hs
  | ld _ => exact stays_execLd hs
  | st _ => exact stays_execSt hs
  | lds _ => exact stays_execLds hs
  | sts _ => exact stays_execSts hs
  | ldro _ => exact stays_execLdro hs
  | ldsp _ _ => exact stays_execLdsp hs
  | atom _ => exact stays_execAtom hs
  | red _ => exact stays_execRed hs
  | fence _ => exact stays_execFence hs
  | fenceRo => exact stays_execFenceRo hs
  | pref _ => exact stays_execPref hs
  | cwb _ _ _ => exact stays_execCwb hs
  | cinv _ _ _ => exact stays_execCinv hs
  | moor _ _ => exact stays_execMoor hs
  | unmoor _ _ _ => exact stays_execUnmoor hs
  | mwb _ _ _ => exact stays_execMwb hs
  | mqry _ => exact stays_execMqry hs
  | binit _ _ _ => exact stays_execBinit hs
  | barv _ _ _ => exact stays_execBarv hs
  | bpar _ _ => exact stays_execBpar hs
  | waitBar _ _ _ _ => exact stays_execWaitBar hs
  | waitBmp _ _ _ _ => exact stays_execWaitBmp hs
  | waitAc _ _ _ => exact stays_execWaitAc hs
  | waitTl _ _ _ _ => exact stays_execWaitTl hs
  | cpy _ => exact stays_execCpy hs
  | cpyt _ _ => exact stays_execCpyt hs
  | cpyq _ _ => exact stays_execCpyq hs
  | send _ => exact stays_execSend hs
  | mcast _ => exact stays_execMcast hs
  | redpArm _ _ _ => exact stays_execRedpArm hs
  | redpContribute _ _ _ => exact stays_execRedpContribute hs
  | remit _ _ _ => exact stays_execRemit hs
  | radv => exact stays_execRadv hs
  | xdec _ => exact stays_execXdec hs
  | xbmp _ => exact stays_execXbmp hs
  | movspr _ _ _ => exact stays_execMovspr hs
  | wrspr _ _ => exact stays_execWrspr hs
  | tlinc _ _ _ => exact stays_execTlinc hs
  | gettl _ _ _ _ => exact stays_execGettl hs
  | bkpt _ _ => exact stays_execBkpt hs
  | resphase _ => exact stays_execResphase hs
  | mldw _ _ _ => exact stays_execMldw hs
  | mswap _ => exact stays_execMswap hs
  | mlut _ => exact stays_execMlut hs
  | mzero _ _ => exact stays_execMzero hs
  | mma _ => exact stays_execMma hs
  | mrd _ => exact stays_execMrd hs
  | mst _ => exact stays_execMst hs
  | mfence _ => exact stays_execMfence hs
  | capenter _ => exact stays_execCapenter hs
  | capadopt _ _ => exact stays_execCapadopt hs
  | capstat _ _ => exact stays_execCapstat hs
  | capstep _ => exact stays_execCapstep hs
  | capexit => exact stays_execCapexit hs
  | capabort => exact stays_execCapabort hs
  | tbindNew => exact stays_execTbindNew hs
  | tbindAt _ => exact stays_execTbindAt hs
  | tbindCh _ _ => exact stays_execTbindCh hs
  | trec _ => exact stays_execTrec hs
  | tmark _ _ => exact stays_execTmark hs
  | tback _ => exact stays_execTback hs
  | tbpop _ => exact stays_execTbpop hs
  | tstat _ _ _ => exact stays_execTstat hs
  | _ => exact absurd hi Bool.false_ne_true

/-- Every event goes on, but for an access beyond the device memory, and keeps the claim. -/
theorem ends_exec_event {i : Instr} (hi : i.isWord = false) (hm : ¬ beyondMemory i s) (hs : Keeps κ s) :
    Ends κ (exec i s) := by
  cases i with
  | starvationIssue _ => exact ends_execStarvationIssue hs
  | fairnessPrecedence _ => exact ends_execFairnessPrecedence hs
  | divergencePop _ _ => exact ends_execDivergencePop hs
  | sleepExpiry _ => exact ends_execSleepExpiry hs
  | waitWake _ => exact ends_execWaitWake hs
  | waitTimeout _ => exact ends_execWaitTimeout hs
  | submission _ => exact ends_execSubmission hs
  | submissionDecode _ => exact ends_execSubmissionDecode hs
  | launchAccept _ => exact ends_execLaunchAccept hs
  | launchStart _ => exact ends_execLaunchStart hs
  | blockPlace _ => exact ends_execBlockPlace hs
  | blockRetire _ => exact ends_execBlockRetire hs
  | stealq _ _ => exact ends_execStealq hs
  | stealg _ _ => exact ends_execStealg hs
  | stealn _ _ => exact ends_execStealn hs
  | preempt _ => exact ends_execPreempt hs
  | slipwayBatchLaunch _ => exact ends_execSlipwayBatchLaunch hs
  | slipwayFlush _ => exact ends_execSlipwayFlush hs
  | remitUnpark _ => exact ends_execRemitUnpark hs
  | parkSaveTimeout _ => exact ends_execParkSaveTimeout hs
  | outsideWaitSave _ => exact ends_execOutsideWaitSave hs
  | blockRestore _ => exact ends_execBlockRestore hs
  | checkpointWindowExpiry _ => exact ends_execCheckpointWindowExpiry hs
  | saveComplete _ => exact ends_execSaveComplete hs
  | storeFault _ => exact ends_execStoreFault hs
  | faultRecordWrite _ => exact ends_execFaultRecordWrite hs
  | fqackReplay _ => exact ends_execFqackReplay hs
  | fqackKill _ => exact ends_execFqackKill hs
  | fqackDock _ => exact ends_execFqackDock hs
  | haltComplete _ => exact ends_execHaltComplete hs
  | requestInject _ => exact ends_execRequestInject hs
  | replySink _ => exact ends_execReplySink hs
  | controlMessage _ => exact ends_execControlMessage hs
  | probe _ _ _ => exact ends_execProbe hs
  | mooringFillLand _ _ _ => exact ends_execMooringFillLand hs
  | writebackAck _ _ _ => exact ends_execWritebackAck hs
  | probeTimeout _ _ => exact ends_execProbeTimeout hs
  | walkComplete _ => exact ends_execWalkComplete hs
  | evslLoad _ _ => exact ends_execEvslLoad hs
  | evslLoadDone _ => exact ends_execEvslLoadDone hs
  | evphWrite _ _ => exact ends_execEvphWrite hs
  | copyLineLand _ _ => exact ends_execCopyLineLand hs
  | sendDelivery _ _ => exact ends_execSendDelivery hs
  | sendRetry _ => exact ends_execSendRetry hs
  | mcastBranchRetry _ => exact ends_execMcastBranchRetry hs
  | armatureInput _ => exact ends_execArmatureInput hs
  | armatureTimeout _ => exact ends_execArmatureTimeout hs
  | matrixPassStart _ _ => exact ends_execMatrixPassStart hs
  | matrixPassDone _ _ => exact ends_execMatrixPassDone hs
  | mswapPoint _ _ => exact ends_execMswapPoint hs
  | tileOpPoint _ _ => exact ends_execTileOpPoint hs
  | mldwDone _ _ => exact ends_execMldwDone hs
  | mstDone _ _ => exact ends_execMstDone hs
  | enter _ => exact ends_execEnter hs
  | adopt _ => exact ends_execAdopt hs
  | commit _ => exact ends_execCommit hs
  | closeAck _ => exact ends_execCloseAck hs
  | park _ => exact ends_execPark hs
  | reclaim _ => exact ends_execReclaim hs
  | capsuleStore _ => exact ends_execCapsuleStore hs
  | conflictRestart _ _ => exact ends_execConflictRestart hs
  | tapeWriteOut _ _ => exact ends_execTapeWriteOut hs
  | qictlWrite _ _ => exact ends_execQictlWrite hs
  | qiinvFirstStage _ _ => exact ends_execQiinvFirstStage hs
  | qiinvInterface _ => exact ends_execQiinvInterface hs
  | qiinvRevoke _ _ => exact ends_execQiinvRevoke hs
  | qiinvSecondStage _ => exact ends_execQiinvSecondStage hs
  | qiinvDone _ => exact ends_execQiinvDone hs
  | hsemClaim _ _ => exact ends_execHsemClaim hs
  | hsemRel _ _ => exact ends_execHsemRel hs
  | portReset _ => exact ends_execPortReset hs
  | hostMemAccess x => exact ends_execHostMemAccess hs fun h => hm (.inl ⟨x, rfl, h⟩)
  | hostSnoop _ _ _ => exact ends_execHostSnoop hs
  | remoteTimeout _ => exact ends_execRemoteTimeout hs
  | flitReplay x => exact ends_execFlitReplay (_flit := x) hs
  | tokenWindow _ => exact ends_execTokenWindow hs
  | tokbudWrite _ _ => exact ends_execTokbudWrite hs
  | tshiftDecay _ => exact ends_execTshiftDecay hs
  | thermalTrip _ => exact ends_execThermalTrip hs
  | powerGood _ _ _ _ => exact ends_execPowerGood hs
  | opticalTrainTimeout => exact ends_execOpticalTrainTimeout hs
  | rstreq => exact ends_execRstreq hs
  | getVersion _ => exact ends_execGetVersion hs
  | getCapabilities _ => exact ends_execGetCapabilities hs
  | negotiateAlgorithms _ => exact ends_execNegotiateAlgorithms hs
  | getDigests _ => exact ends_execGetDigests hs
  | getCertificate _ => exact ends_execGetCertificate hs
  | challenge _ => exact ends_execChallenge hs
  | getMeasurements _ => exact ends_execGetMeasurements hs
  | patrolScrub _ _ => exact ends_execPatrolScrub hs
  | registerWrite _ _ _ => exact ends_execRegisterWrite hs
  | homeSliceRequest _ => exact ends_execHomeSliceRequest hs
  | crilvonRemoteRequest x => exact ends_execCrilvonRemoteRequest hs fun h => hm (.inr ⟨x, rfl, h⟩)
  | ucieLinkFailure _ => exact ends_execUcieLinkFailure hs
  | corePowerGating _ => exact ends_execCorePowerGating hs
  | _ => exact absurd hi.symm Bool.false_ne_true

/-- Past the device memory an access faults. -/
theorem exec_beyondMemory {i : Instr} (hm : beyondMemory i s) : exec i s = .fault .noSuchByte := by
  rcases hm with ⟨x, rfl, hup, hlt⟩ | ⟨x, rfl, hlt⟩
  · change execHostMemAccess x s = _
    rw [execHostMemAccess, if_neg (by simp [hup]), if_pos hlt]
  · change execCrilvonRemoteRequest x s = _
    rw [execCrilvonRemoteRequest, if_pos hlt]

/-- Every instruction keeps the claim where it goes on. -/
theorem stays_exec {i : Instr} (hs : Keeps κ s) : Stays κ (exec i s) := by
  cases hi : i.isWord with
  | true => exact stays_exec_word hi hs
  | false =>
    by_cases hm : beyondMemory i s
    · rw [exec_beyondMemory hm]
      exact fun _ h => nomatch h
    · exact (ends_exec_event hi hm hs).stays

/-! ## Steps -/

/-- What a fetch charges is all that it changes beside its word. -/
theorem stays_fetchPaid {s0 : State} {h : Here} {o : Host.Outcome State Fault Refusal} (ho : Stays κ o) :
    Stays κ (fetchPaid s0 h o) := by
  unfold fetchPaid
  split
  · next s t _ => exact (ends_next (keeps_exchanges (ho s rfl))).stays
  · exact ho

theorem stays_stepSlot {r : SlotRef} (hs : Keeps κ s) : Stays κ (stepSlot s r) := by
  have h1 : Keeps κ (issuing s r) := keeps_issuing hs
  unfold stepSlot
  split
  · exact (ends_next hs).stays
  · split
    · exact (ends_finish keepsE_writeDueE h1).stays
    · split
      · refine stays_fetchPaid ?_
        split
        · exact stays_exec h1
        · exact (ends_next (keeps_decodeStop h1)).stays
      · exact (ends_next (keeps_fetchStop h1)).stays

theorem stays_stepChoice {c : Choice} (hs : Keeps κ s) : Stays κ (stepChoice s c) := by
  cases c with
  | issue r => exact stays_stepSlot hs
  | mark i => exact stays_exec hs
  | event n =>
    unfold stepChoice
    dsimp only
    split
    · exact stays_exec (keeps_taken hs)
    · exact (ends_next hs).stays
  | ahead r => exact (ends_next (keeps_readAhead hs)).stays

theorem stays_timed {o : Host.Outcome State Fault Refusal} (ho : Stays κ o) : Stays κ (timed o) := by
  cases o with
  | next s => exact (ends_next (keeps_passTime (ho s rfl))).stays
  | fault r => exact fun _ h => nomatch h
  | refused r => exact fun _ h => nomatch h

theorem stays_step (hs : Keeps κ s) : Stays κ (step s) := by
  unfold step
  split
  · exact stays_timed (stays_stepChoice hs)
  · exact (ends_next (keeps_passTime hs)).stays

end

/-! ## The claims of the invariants -/

/-- The canonical form of memory alone is in question. -/
def memClaim : Claim := ⟨True, False⟩

/-- The ranges of the registers alone are in question. -/
def regClaim : Claim := ⟨False, True⟩

/-- Nothing is in question. -/
def noClaim : Claim := ⟨False, False⟩

theorem keeps_memClaim {s : State} : Keeps memClaim s ↔ Memory.wf s.mem = true :=
  ⟨fun h => h.mem trivial, fun h => ⟨fun _ => h, fun _ => False.elim, fun _ => False.elim, False.elim⟩⟩

theorem keeps_regClaim {s : State} : Keeps regClaim s ↔ registersLegal s :=
  ⟨fun h => ⟨fun d => h.dies d trivial, fun q => h.qis q trivial, h.tokens trivial⟩,
    fun ⟨hd, hq, ht⟩ => ⟨False.elim, fun d _ => hd d, fun q _ => hq q, fun _ => ht⟩⟩

theorem keeps_noClaim {s : State} : Keeps noClaim s :=
  ⟨False.elim, fun _ => False.elim, fun _ => False.elim, False.elim⟩

/-- Settles O57: memory is written by `writePlace` alone, which keeps its canonical form, so every step keeps it. -/
theorem memoryStaysCanonical : Obligations.MemoryStaysCanonical :=
  fun _ t hs ht => keeps_memClaim.1 (stays_step (keeps_memClaim.2 hs) t ht)

/-- Settles O59: every write of a die's window, of an interface's control register and of the token table keeps its
range, so every step does. -/
theorem registersStayLegal : Obligations.RegistersStayLegal :=
  fun _ t hs ht => keeps_regClaim.1 (stays_step (keeps_regClaim.2 hs) t ht)

/-- Settles O56: a word traps, waits or runs to its end, whatever it does there; an event goes on in every state but past
the device memory. -/
theorem noInstructionStops : Obligations.NoInstructionStops := by
  refine ⟨fun i s h hw hh => ?_, fun i s hi hm => ?_, fun i s hm => exec_beyondMemory hm⟩
  · obtain ⟨body, hexec⟩ := word_exec i hw
    rw [hexec s]
    exact issueWord_next body hh
  · obtain ⟨t, ht, -⟩ := ends_exec_event hi hm keeps_noClaim
    exact ⟨t, ht⟩

end Sys2Proof
end

section
/-! # The meaning of each instruction, by its name. -/

namespace Sys2Proof

open Machine

set_option Elab.async false

variable {s : State}

theorem exec_iadd {x} : exec (.iadd x) s = execIadd x s := rfl

theorem exec_isub {x} : exec (.isub x) s = execIsub x s := rfl

theorem exec_iaddc {x} : exec (.iaddc x) s = execIaddc x s := rfl

theorem exec_imul {x} : exec (.imul x) s = execImul x s := rfl

theorem exec_imulhi {x} : exec (.imulhi x) s = execImulhi x s := rfl

theorem exec_imad {x} : exec (.imad x) s = execImad x s := rfl

theorem exec_imadw {x} : exec (.imadw x) s = execImadw x s := rfl

theorem exec_imin {x} : exec (.imin x) s = execImin x s := rfl

theorem exec_imax {x} : exec (.imax x) s = execImax x s := rfl

theorem exec_iabs {x} : exec (.iabs x) s = execIabs x s := rfl

theorem exec_and {x} : exec (.and x) s = execAnd x s := rfl

theorem exec_or {x} : exec (.or x) s = execOr x s := rfl

theorem exec_xor {x} : exec (.xor x) s = execXor x s := rfl

theorem exec_andn {x} : exec (.andn x) s = execAndn x s := rfl

theorem exec_orn {x} : exec (.orn x) s = execOrn x s := rfl

theorem exec_shl {x} : exec (.shl x) s = execShl x s := rfl

theorem exec_shr {x} : exec (.shr x) s = execShr x s := rfl

theorem exec_sar {x} : exec (.sar x) s = execSar x s := rfl

theorem exec_rotl {x} : exec (.rotl x) s = execRotl x s := rfl

theorem exec_fshf {x} : exec (.fshf x) s = execFshf x s := rfl

theorem exec_bfx {x} : exec (.bfx x) s = execBfx x s := rfl

theorem exec_bfi {x} : exec (.bfi x) s = execBfi x s := rfl

theorem exec_popc {x} : exec (.popc x) s = execPopc x s := rfl

theorem exec_clz {x} : exec (.clz x) s = execClz x s := rfl

theorem exec_ctz {x} : exec (.ctz x) s = execCtz x s := rfl

theorem exec_brev {x} : exec (.brev x) s = execBrev x s := rfl

theorem exec_prmt {x} : exec (.prmt x) s = execPrmt x s := rfl

theorem exec_lea {x} : exec (.lea x) s = execLea x s := rfl

theorem exec_isetp {x} : exec (.isetp x) s = execIsetp x s := rfl

theorem exec_sel {x} : exec (.sel x) s = execSel x s := rfl

theorem exec_mov {x} : exec (.mov x) s = execMov x s := rfl

theorem exec_fadd {x} : exec (.fadd x) s = execFadd x s := rfl

theorem exec_fsub {x} : exec (.fsub x) s = execFsub x s := rfl

theorem exec_fmul {x} : exec (.fmul x) s = execFmul x s := rfl

theorem exec_ffma {x} : exec (.ffma x) s = execFfma x s := rfl

theorem exec_fmin {x} : exec (.fmin x) s = execFmin x s := rfl

theorem exec_fmax {x} : exec (.fmax x) s = execFmax x s := rfl

theorem exec_fsetp {x} : exec (.fsetp x) s = execFsetp x s := rfl

theorem exec_fclass {x} : exec (.fclass x) s = execFclass x s := rfl

theorem exec_frcp {x} : exec (.frcp x) s = execFrcp x s := rfl

theorem exec_frsq {x} : exec (.frsq x) s = execFrsq x s := rfl

theorem exec_fsqrt {x} : exec (.fsqrt x) s = execFsqrt x s := rfl

theorem exec_fex2 {x} : exec (.fex2 x) s = execFex2 x s := rfl

theorem exec_flg2 {x} : exec (.flg2 x) s = execFlg2 x s := rfl

theorem exec_fsin {x} : exec (.fsin x) s = execFsin x s := rfl

theorem exec_fcos {x} : exec (.fcos x) s = execFcos x s := rfl

theorem exec_ftanh {x} : exec (.ftanh x) s = execFtanh x s := rfl

theorem exec_hadd2 {x} : exec (.hadd2 x) s = execHadd2 x s := rfl

theorem exec_hmul2 {x} : exec (.hmul2 x) s = execHmul2 x s := rfl

theorem exec_hfma2 {x} : exec (.hfma2 x) s = execHfma2 x s := rfl

theorem exec_hmnmx2 {x} : exec (.hmnmx2 x) s = execHmnmx2 x s := rfl

theorem exec_cvt {x} : exec (.cvt x) s = execCvt x s := rfl

theorem exec_cvtq {x} : exec (.cvtq x) s = execCvtq x s := rfl

theorem exec_cvtdq {x} : exec (.cvtdq x) s = execCvtdq x s := rfl

theorem exec_pack {x} : exec (.pack x) s = execPack x s := rfl

theorem exec_unpk {x} : exec (.unpk x) s = execUnpk x s := rfl

theorem exec_lutx {x} : exec (.lutx x) s = execLutx x s := rfl

theorem exec_idp4 {x} : exec (.idp4 x) s = execIdp4 x s := rfl

theorem exec_idp8 {x} : exec (.idp8 x) s = execIdp8 x s := rfl

theorem exec_fdp4 {x} : exec (.fdp4 x) s = execFdp4 x s := rfl

theorem exec_fdp2 {x} : exec (.fdp2 x) s = execFdp2 x s := rfl

theorem exec_pairedWord {h0} {h1} : exec (.pairedWord h0 h1) s = execPairedWord h0 h1 s := rfl

theorem exec_shfl {x} : exec (.shfl x) s = execShfl x s := rfl

theorem exec_vote {x} : exec (.vote x) s = execVote x s := rfl

theorem exec_matchLanes {x} : exec (.matchLanes x) s = execMatchLanes x s := rfl

theorem exec_cred {x} : exec (.cred x) s = execCred x s := rfl

theorem exec_cscan {x} : exec (.cscan x) s = execCscan x s := rfl

theorem exec_lser : exec .lser s = execLser s := rfl

theorem exec_lsend : exec .lsend s = execLsend s := rfl

theorem exec_actm {x} : exec (.actm x) s = execActm x s := rfl

theorem exec_bra {g} {off} : exec (.bra g off) s = execBra g off s := rfl

theorem exec_braT {g} {off} {tag} : exec (.braT g off tag) s = execBraT g off tag s := rfl

theorem exec_brx {g} {a} : exec (.brx g a) s = execBrx g a s := rfl

theorem exec_call {g} {d} {off} : exec (.call g d off) s = execCall g d off s := rfl

theorem exec_callx {g} {d} {a} : exec (.callx g d a) s = execCallx g d a s := rfl

theorem exec_ret {g} {a} : exec (.ret g a) s = execRet g a s := rfl

theorem exec_join {off} : exec (.join off) s = execJoin off s := rfl

theorem exec_exit {g} : exec (.exit g) s = execExit g s := rfl

theorem exec_trap {g} {code} : exec (.trap g code) s = execTrap g code s := rfl

theorem exec_chkpt {n} : exec (.chkpt n) s = execChkpt n s := rfl

theorem exec_yieldSlot {g} : exec (.yieldSlot g) s = execYieldSlot g s := rfl

theorem exec_sleep {a} : exec (.sleep a) s = execSleep a s := rfl

theorem exec_nop {g} : exec (.nop g) s = execNop g s := rfl

theorem exec_ld {x} : exec (.ld x) s = execLd x s := rfl

theorem exec_st {x} : exec (.st x) s = execSt x s := rfl

theorem exec_lds {x} : exec (.lds x) s = execLds x s := rfl

theorem exec_sts {x} : exec (.sts x) s = execSts x s := rfl

theorem exec_ldro {x} : exec (.ldro x) s = execLdro x s := rfl

theorem exec_ldsp {x} {ac} : exec (.ldsp x ac) s = execLdsp x ac s := rfl

theorem exec_atom {x} : exec (.atom x) s = execAtom x s := rfl

theorem exec_red {x} : exec (.red x) s = execRed x s := rfl

theorem exec_fence {scope} : exec (.fence scope) s = execFence scope s := rfl

theorem exec_fenceRo : exec .fenceRo s = execFenceRo s := rfl

theorem exec_pref {x} : exec (.pref x) s = execPref x s := rfl

theorem exec_cwb {a} {b} {scope} : exec (.cwb a b scope) s = execCwb a b scope s := rfl

theorem exec_cinv {a} {b} {scope} : exec (.cinv a b scope) s = execCinv a b scope s := rfl

theorem exec_moor {d} {a} : exec (.moor d a) s = execMoor d a s := rfl

theorem exec_unmoor {d} {a} {wb} : exec (.unmoor d a wb) s = execUnmoor d a wb s := rfl

theorem exec_mwb {d} {a} {b} : exec (.mwb d a b) s = execMwb d a b s := rfl

theorem exec_mqry {x} : exec (.mqry x) s = execMqry x s := rfl

theorem exec_binit {a} {b} {c} : exec (.binit a b c) s = execBinit a b c s := rfl

theorem exec_barv {d} {a} {b} : exec (.barv d a b) s = execBarv d a b s := rfl

theorem exec_bpar {pd} {a} : exec (.bpar pd a) s = execBpar pd a s := rfl

theorem exec_waitBar {pd} {a} {b} {c} : exec (.waitBar pd a b c) s = execWaitBar pd a b c s := rfl

theorem exec_waitBmp {pd} {a} {b} {c} : exec (.waitBmp pd a b c) s = execWaitBmp pd a b c s := rfl

theorem exec_waitAc {pd} {n} {c} : exec (.waitAc pd n c) s = execWaitAc pd n c s := rfl

theorem exec_waitTl {pd} {a} {b} {c} : exec (.waitTl pd a b c) s = execWaitTl pd a b c s := rfl

theorem exec_cpy {x} : exec (.cpy x) s = execCpy x s := rfl

theorem exec_cpyt {d} {a} : exec (.cpyt d a) s = execCpyt d a s := rfl

theorem exec_cpyq {d} {a} : exec (.cpyq d a) s = execCpyq d a s := rfl

theorem exec_send {x} : exec (.send x) s = execSend x s := rfl

theorem exec_mcast {x} : exec (.mcast x) s = execMcast x s := rfl

theorem exec_redpArm {d} {a} {id} : exec (.redpArm d a id) s = execRedpArm d a id s := rfl

theorem exec_redpContribute {d} {a} {id} : exec (.redpContribute d a id) s = execRedpContribute d a id s := rfl

theorem exec_remit {g} {idx} {a} : exec (.remit g idx a) s = execRemit g idx a s := rfl

theorem exec_radv : exec .radv s = execRadv s := rfl

theorem exec_xdec {x} : exec (.xdec x) s = execXdec x s := rfl

theorem exec_xbmp {x} : exec (.xbmp x) s = execXbmp x s := rfl

theorem exec_movspr {g} {d} {r} : exec (.movspr g d r) s = execMovspr g d r s := rfl

theorem exec_wrspr {r} {a} : exec (.wrspr r a) s = execWrspr r a s := rfl

theorem exec_tlinc {a} {b} {err} : exec (.tlinc a b err) s = execTlinc a b err s := rfl

theorem exec_gettl {g} {d} {a} {err} : exec (.gettl g d a err) s = execGettl g d a err s := rfl

theorem exec_bkpt {g} {code} : exec (.bkpt g code) s = execBkpt g code s := rfl

theorem exec_resphase {a} : exec (.resphase a) s = execResphase a s := rfl

theorem exec_mldw {a} {b} {wf} : exec (.mldw a b wf) s = execMldw a b wf s := rfl

theorem exec_mswap {d} : exec (.mswap d) s = execMswap d s := rfl

theorem exec_mlut {sb} : exec (.mlut sb) s = execMlut sb s := rfl

theorem exec_mzero {g} {tile} : exec (.mzero g tile) s = execMzero g tile s := rfl

theorem exec_mma {x} : exec (.mma x) s = execMma x s := rfl

theorem exec_mrd {x} : exec (.mrd x) s = execMrd x s := rfl

theorem exec_mst {x} : exec (.mst x) s = execMst x s := rfl

theorem exec_mfence {d} : exec (.mfence d) s = execMfence d s := rfl

theorem exec_capenter {x} : exec (.capenter x) s = execCapenter x s := rfl

theorem exec_capadopt {d} {a} : exec (.capadopt d a) s = execCapadopt d a s := rfl

theorem exec_capstat {d} {a} : exec (.capstat d a) s = execCapstat d a s := rfl

theorem exec_capstep {lbl} : exec (.capstep lbl) s = execCapstep lbl s := rfl

theorem exec_capexit : exec .capexit s = execCapexit s := rfl

theorem exec_capabort : exec .capabort s = execCapabort s := rfl

theorem exec_tbindNew : exec .tbindNew s = execTbindNew s := rfl

theorem exec_tbindAt {a} : exec (.tbindAt a) s = execTbindAt a s := rfl

theorem exec_tbindCh {n} {tag} : exec (.tbindCh n tag) s = execTbindCh n tag s := rfl

theorem exec_trec {x} : exec (.trec x) s = execTrec x s := rfl

theorem exec_tmark {tag} {a} : exec (.tmark tag a) s = execTmark tag a s := rfl

theorem exec_tback {x} : exec (.tback x) s = execTback x s := rfl

theorem exec_tbpop {x} : exec (.tbpop x) s = execTbpop x s := rfl

theorem exec_tstat {g} {d} {sel} : exec (.tstat g d sel) s = execTstat g d sel s := rfl

theorem exec_starvationIssue {r} : exec (.starvationIssue r) s = execStarvationIssue r s := rfl

theorem exec_fairnessPrecedence {r} : exec (.fairnessPrecedence r) s = execFairnessPrecedence r s := rfl

theorem exec_divergencePop {blk} {crew} : exec (.divergencePop blk crew) s = execDivergencePop blk crew s := rfl

theorem exec_sleepExpiry {r} : exec (.sleepExpiry r) s = execSleepExpiry r s := rfl

theorem exec_waitWake {r} : exec (.waitWake r) s = execWaitWake r s := rfl

theorem exec_waitTimeout {r} : exec (.waitTimeout r) s = execWaitTimeout r s := rfl

theorem exec_submission {w} : exec (.submission w) s = execSubmission w s := rfl

theorem exec_submissionDecode {qi} : exec (.submissionDecode qi) s = execSubmissionDecode qi s := rfl

theorem exec_launchAccept {die} : exec (.launchAccept die) s = execLaunchAccept die s := rfl

theorem exec_launchStart {launch} : exec (.launchStart launch) s = execLaunchStart launch s := rfl

theorem exec_blockPlace {die} : exec (.blockPlace die) s = execBlockPlace die s := rfl

theorem exec_blockRetire {blk} : exec (.blockRetire blk) s = execBlockRetire blk s := rfl

theorem exec_stealq {thief} {launch} : exec (.stealq thief launch) s = execStealq thief launch s := rfl

theorem exec_stealg {thief} {launch} : exec (.stealg thief launch) s = execStealg thief launch s := rfl

theorem exec_stealn {thief} {launch} : exec (.stealn thief launch) s = execStealn thief launch s := rfl

theorem exec_preempt {die} : exec (.preempt die) s = execPreempt die s := rfl

theorem exec_slipwayBatchLaunch {w} : exec (.slipwayBatchLaunch w) s = execSlipwayBatchLaunch w s := rfl

theorem exec_slipwayFlush {w} : exec (.slipwayFlush w) s = execSlipwayFlush w s := rfl

theorem exec_remitUnpark {r} : exec (.remitUnpark r) s = execRemitUnpark r s := rfl

theorem exec_parkSaveTimeout {blk} : exec (.parkSaveTimeout blk) s = execParkSaveTimeout blk s := rfl

theorem exec_outsideWaitSave {blk} : exec (.outsideWaitSave blk) s = execOutsideWaitSave blk s := rfl

theorem exec_blockRestore {blk} : exec (.blockRestore blk) s = execBlockRestore blk s := rfl

theorem exec_checkpointWindowExpiry {blk} : exec (.checkpointWindowExpiry blk) s = execCheckpointWindowExpiry blk s :=
    rfl

theorem exec_saveComplete {blk} : exec (.saveComplete blk) s = execSaveComplete blk s := rfl

theorem exec_storeFault {req} : exec (.storeFault req) s = execStoreFault req s := rfl

theorem exec_faultRecordWrite {die} : exec (.faultRecordWrite die) s = execFaultRecordWrite die s := rfl

theorem exec_fqackReplay {token} : exec (.fqackReplay token) s = execFqackReplay token s := rfl

theorem exec_fqackKill {token} : exec (.fqackKill token) s = execFqackKill token s := rfl

theorem exec_fqackDock {token} : exec (.fqackDock token) s = execFqackDock token s := rfl

theorem exec_haltComplete {blk} : exec (.haltComplete blk) s = execHaltComplete blk s := rfl

theorem exec_requestInject {req} : exec (.requestInject req) s = execRequestInject req s := rfl

theorem exec_replySink {req} : exec (.replySink req) s = execReplySink req s := rfl

theorem exec_controlMessage {id} : exec (.controlMessage id) s = execControlMessage id s := rfl

theorem exec_probe {core} {line} {inval} : exec (.probe core line inval) s = execProbe core line inval s := rfl

theorem exec_mooringFillLand {core} {entry} {line} : exec (.mooringFillLand core entry line) s = execMooringFillLand
    core entry line s := rfl

theorem exec_writebackAck {core} {entry} {line} : exec (.writebackAck core entry line) s = execWritebackAck core entry
    line s := rfl

theorem exec_probeTimeout {agent} {line} : exec (.probeTimeout agent line) s = execProbeTimeout agent line s := rfl

theorem exec_walkComplete {walk} : exec (.walkComplete walk) s = execWalkComplete walk s := rfl

theorem exec_evslLoad {die} {value} : exec (.evslLoad die value) s = execEvslLoad die value s := rfl

theorem exec_evslLoadDone {die} : exec (.evslLoadDone die) s = execEvslLoadDone die s := rfl

theorem exec_evphWrite {die} {writes} : exec (.evphWrite die writes) s = execEvphWrite die writes s := rfl

theorem exec_copyLineLand {copy} {piece} : exec (.copyLineLand copy piece) s = execCopyLineLand copy piece s := rfl

theorem exec_sendDelivery {msg} {rank} : exec (.sendDelivery msg rank) s = execSendDelivery msg rank s := rfl

theorem exec_sendRetry {msg} : exec (.sendRetry msg) s = execSendRetry msg s := rfl

theorem exec_mcastBranchRetry {msg} : exec (.mcastBranchRetry msg) s = execMcastBranchRetry msg s := rfl

theorem exec_armatureInput {id} : exec (.armatureInput id) s = execArmatureInput id s := rfl

theorem exec_armatureTimeout {n} : exec (.armatureTimeout n) s = execArmatureTimeout n s := rfl

theorem exec_matrixPassStart {core} {part} : exec (.matrixPassStart core part) s = execMatrixPassStart core part s :=
    rfl

theorem exec_matrixPassDone {core} {part} : exec (.matrixPassDone core part) s = execMatrixPassDone core part s := rfl

theorem exec_mswapPoint {core} {part} : exec (.mswapPoint core part) s = execMswapPoint core part s := rfl

theorem exec_tileOpPoint {core} {part} : exec (.tileOpPoint core part) s = execTileOpPoint core part s := rfl

theorem exec_mldwDone {core} {part} : exec (.mldwDone core part) s = execMldwDone core part s := rfl

theorem exec_mstDone {core} {part} : exec (.mstDone core part) s = execMstDone core part s := rfl

theorem exec_enter {msg} : exec (.enter msg) s = execEnter msg s := rfl

theorem exec_adopt {msg} : exec (.adopt msg) s = execAdopt msg s := rfl

theorem exec_commit {msg} : exec (.commit msg) s = execCommit msg s := rfl

theorem exec_closeAck {line} : exec (.closeAck line) s = execCloseAck line s := rfl

theorem exec_park {msg} : exec (.park msg) s = execPark msg s := rfl

theorem exec_reclaim {msg} : exec (.reclaim msg) s = execReclaim msg s := rfl

theorem exec_capsuleStore {msg} : exec (.capsuleStore msg) s = execCapsuleStore msg s := rfl

theorem exec_conflictRestart {blk} {crew} : exec (.conflictRestart blk crew) s = execConflictRestart blk crew s := rfl

theorem exec_tapeWriteOut {blk} {crew} : exec (.tapeWriteOut blk crew) s = execTapeWriteOut blk crew s := rfl

theorem exec_qictlWrite {qi} {value} : exec (.qictlWrite qi value) s = execQictlWrite qi value s := rfl

theorem exec_qiinvFirstStage {qi} {pasid} : exec (.qiinvFirstStage qi pasid) s = execQiinvFirstStage qi pasid s := rfl

theorem exec_qiinvInterface {qi} : exec (.qiinvInterface qi) s = execQiinvInterface qi s := rfl

theorem exec_qiinvRevoke {qi} {pasid} : exec (.qiinvRevoke qi pasid) s = execQiinvRevoke qi pasid s := rfl

theorem exec_qiinvSecondStage {qi} : exec (.qiinvSecondStage qi) s = execQiinvSecondStage qi s := rfl

theorem exec_qiinvDone {qi} : exec (.qiinvDone qi) s = execQiinvDone qi s := rfl

theorem exec_hsemClaim {k} {port} : exec (.hsemClaim k port) s = execHsemClaim k port s := rfl

theorem exec_hsemRel {k} {port} : exec (.hsemRel k port) s = execHsemRel k port s := rfl

theorem exec_portReset {port} : exec (.portReset port) s = execPortReset port s := rfl

theorem exec_hostMemAccess {x} : exec (.hostMemAccess x) s = execHostMemAccess x s := rfl

theorem exec_hostSnoop {port} {pa} {kind} : exec (.hostSnoop port pa kind) s = execHostSnoop port pa kind s := rfl

theorem exec_remoteTimeout {req} : exec (.remoteTimeout req) s = execRemoteTimeout req s := rfl

theorem exec_flitReplay {flit} : exec (.flitReplay flit) s = execFlitReplay flit s := rfl

theorem exec_tokenWindow {die} : exec (.tokenWindow die) s = execTokenWindow die s := rfl

theorem exec_tokbudWrite {die} {value} : exec (.tokbudWrite die value) s = execTokbudWrite die value s := rfl

theorem exec_tshiftDecay {die} : exec (.tshiftDecay die) s = execTshiftDecay die s := rfl

theorem exec_thermalTrip {die} : exec (.thermalTrip die) s = execThermalTrip die s := rfl

theorem exec_powerGood {images} {hbm} {links} {ports} : exec (.powerGood images hbm links ports) s = execPowerGood
    images hbm links ports s := rfl

theorem exec_opticalTrainTimeout : exec .opticalTrainTimeout s = execOpticalTrainTimeout s := rfl

theorem exec_rstreq : exec .rstreq s = execRstreq s := rfl

theorem exec_patrolScrub {line} {uncorrectable} : exec (.patrolScrub line uncorrectable) s = execPatrolScrub line
    uncorrectable s := rfl

theorem exec_registerWrite {port} {r} {value} : exec (.registerWrite port r value) s = execRegisterWrite port r value s
    := rfl

theorem exec_homeSliceRequest {req} : exec (.homeSliceRequest req) s = execHomeSliceRequest req s := rfl

theorem exec_crilvonRemoteRequest {x} : exec (.crilvonRemoteRequest x) s = execCrilvonRemoteRequest x s := rfl

theorem exec_ucieLinkFailure {l} : exec (.ucieLinkFailure l) s = execUcieLinkFailure l s := rfl

theorem exec_corePowerGating {core} : exec (.corePowerGating core) s = execCorePowerGating core s := rfl

end Sys2Proof
end

section
/-! # Words that compute lane by lane: that they complete. -/

namespace Sys2Proof

open Machine

set_option Elab.async false

/-- The word runs `runLanes` over the places of the shape. -/
def runsLanes (i : Instr) (w : LaneShape) : Prop :=
  ∃ body : Here → Exec Unit, (∀ s, exec i s = issueWord i s body) ∧ ∀ h, ∃ f, body h = runLanes h w.g w.d w.n w.srcs f

/-! The bodies that several words share. -/

theorem runsLanes_int {i : Instr} {x : IntOp} {f : Int → Int → Int} (he : ∀ s, exec i s = issueWord i s (intBody x f)) :
    runsLanes i ⟨x.g, x.d, intRegs x.ty, [(x.a, intRegs x.ty), (x.b, intRegs x.ty)]⟩ := by
  refine ⟨_, he, fun _ => ?_⟩
  unfold intBody
  exact ⟨_, rfl⟩

theorem runsLanes_logic {i : Instr} {x : LogicOp} {f : Nat → Nat → Nat}
    (he : ∀ s, exec i s = issueWord i s (logicBody x f)) :
    runsLanes i ⟨x.g, x.d, widthRegs x.w64, [(x.a, widthRegs x.w64), (x.b, widthRegs x.w64)]⟩ := by
  refine ⟨_, he, fun _ => ?_⟩
  unfold logicBody
  exact ⟨_, rfl⟩

theorem runsLanes_shift {i : Instr} {x : LogicOp} {f : Nat → Nat → Nat → Nat}
    (he : ∀ s, exec i s = issueWord i s (shiftBody x f)) :
    runsLanes i ⟨x.g, x.d, widthRegs x.w64, [(x.a, widthRegs x.w64), (x.b, 1)]⟩ := by
  refine ⟨_, he, fun _ => ?_⟩
  unfold shiftBody
  exact ⟨_, rfl⟩

theorem runsLanes_one {i : Instr} {x : Op1} {f : Nat → Nat} (he : ∀ s, exec i s = issueWord i s (oneBody x f)) :
    runsLanes i ⟨x.g, x.d, 1, [(x.a, 1)]⟩ := by
  refine ⟨_, he, fun _ => ?_⟩
  unfold oneBody
  exact ⟨_, rfl⟩

theorem runsLanes_fp {i : Instr} {x : FpOp} {o : FOp} (he : ∀ s, exec i s = issueWord i s (fpBody x o)) :
    runsLanes i ⟨x.g, x.d, 1, [(x.a, 1), (x.b, 1)]⟩ := by
  refine ⟨_, he, fun _ => ?_⟩
  unfold fpBody
  exact ⟨_, rfl⟩

theorem runsLanes_sfu {i : Instr} {x : SfuOp} {f : Nat → Nat × FlagSet}
    (he : ∀ s, exec i s = issueWord i s (sfuBody x f)) :
    runsLanes i ⟨x.g, x.d, 1, [(x.a, 1)]⟩ := by
  refine ⟨_, he, fun _ => ?_⟩
  unfold sfuBody
  exact ⟨_, rfl⟩

theorem runsLanes_half {i : Instr} {x : HOp} {o : FOp} (he : ∀ s, exec i s = issueWord i s (hBody x o)) :
    runsLanes i ⟨x.g, x.d, 1, [(x.a, 1), (x.b, 1)]⟩ := by
  refine ⟨_, he, fun _ => ?_⟩
  unfold hBody
  exact ⟨_, rfl⟩

theorem runsLanes_idp {i : Instr} {x : IdpOp} {w n : Nat} (he : ∀ s, exec i s = issueWord i s (idpBody w n x)) :
    runsLanes i ⟨x.g, x.d, 1, [(x.a, 1), (x.b, 1), (x.c, 1)]⟩ := by
  refine ⟨_, he, fun _ => ?_⟩
  unfold idpBody
  exact ⟨_, rfl⟩

theorem runsLanes_cvtq {x : CvtqOp} :
    runsLanes (.cvtq x) ⟨x.g, x.d, qRegs x.qf, [(x.a, 4)] ++ (x.fix.map fun b => (b, 1)).toList⟩ := by
  obtain ⟨g, d, a, fix, qf⟩ := x
  refine ⟨_, fun _ => (exec_cvtq (x := ⟨g, d, a, fix, qf⟩)).trans (by rw [execCvtq]), fun _ => ?_⟩
  cases fix <;> exact ⟨_, rfl⟩

/-- Every word of a shape runs `runLanes` over it. -/
theorem runsLanes_of_laneShape {i : Instr} {w : LaneShape} (hw : laneShape i = some w) : runsLanes i w := by
  cases i with
  | iadd x => cases hw; exact runsLanes_int fun _ => exec_iadd
  | isub x => cases hw; exact runsLanes_int fun _ => exec_isub
  | imul x => cases hw; exact runsLanes_int fun _ => exec_imul
  | imulhi x => cases hw; exact runsLanes_int fun _ => exec_imulhi
  | imin x => cases hw; exact runsLanes_int fun _ => exec_imin
  | imax x => cases hw; exact runsLanes_int fun _ => exec_imax
  | and x => cases hw; exact runsLanes_logic fun _ => exec_and
  | or x => cases hw; exact runsLanes_logic fun _ => exec_or
  | xor x => cases hw; exact runsLanes_logic fun _ => exec_xor
  | andn x => cases hw; exact runsLanes_logic fun _ => exec_andn
  | orn x => cases hw; exact runsLanes_logic fun _ => exec_orn
  | shl x => cases hw; exact runsLanes_shift fun _ => exec_shl
  | shr x => cases hw; exact runsLanes_shift fun _ => exec_shr
  | sar x => cases hw; exact runsLanes_shift fun _ => exec_sar
  | rotl x => cases hw; exact runsLanes_shift fun _ => exec_rotl
  | popc x => cases hw; exact runsLanes_one fun _ => exec_popc
  | clz x => cases hw; exact runsLanes_one fun _ => exec_clz
  | ctz x => cases hw; exact runsLanes_one fun _ => exec_ctz
  | brev x => cases hw; exact runsLanes_one fun _ => exec_brev
  | fclass x => cases hw; exact runsLanes_one fun _ => exec_fclass
  | fadd x => cases hw; exact runsLanes_fp fun _ => exec_fadd
  | fsub x => cases hw; exact runsLanes_fp fun _ => exec_fsub
  | fmul x => cases hw; exact runsLanes_fp fun _ => exec_fmul
  | fmin x => cases hw; exact runsLanes_fp fun _ => exec_fmin
  | fmax x => cases hw; exact runsLanes_fp fun _ => exec_fmax
  | frcp x => cases hw; exact runsLanes_sfu fun _ => exec_frcp
  | frsq x => cases hw; exact runsLanes_sfu fun _ => exec_frsq
  | fsqrt x => cases hw; exact runsLanes_sfu fun _ => exec_fsqrt
  | fex2 x => cases hw; exact runsLanes_sfu fun _ => exec_fex2
  | flg2 x => cases hw; exact runsLanes_sfu fun _ => exec_flg2
  | fsin x => cases hw; exact runsLanes_sfu fun _ => exec_fsin
  | fcos x => cases hw; exact runsLanes_sfu fun _ => exec_fcos
  | ftanh x => cases hw; exact runsLanes_sfu fun _ => exec_ftanh
  | hadd2 x => cases hw; exact runsLanes_half fun _ => exec_hadd2
  | hmul2 x => cases hw; exact runsLanes_half fun _ => exec_hmul2
  | idp4 x => cases hw; exact runsLanes_idp fun _ => exec_idp4
  | idp8 x => cases hw; exact runsLanes_idp fun _ => exec_idp8
  | imad x => cases hw; exact ⟨_, fun _ => by rw [exec_imad, execImad], fun _ => ⟨_, rfl⟩⟩
  | imadw x => cases hw; exact ⟨_, fun _ => by rw [exec_imadw, execImadw], fun _ => ⟨_, rfl⟩⟩
  | iabs x => cases hw; exact ⟨_, fun _ => by rw [exec_iabs, execIabs], fun _ => ⟨_, rfl⟩⟩
  | fshf x => cases hw; exact ⟨_, fun _ => by rw [exec_fshf, execFshf], fun _ => ⟨_, rfl⟩⟩
  | fdp2 x => cases hw; exact ⟨_, fun _ => by rw [exec_fdp2, execFdp2], fun _ => ⟨_, rfl⟩⟩
  | bfx x => cases hw; exact ⟨_, fun _ => by rw [exec_bfx, execBfx], fun _ => ⟨_, rfl⟩⟩
  | bfi x => cases hw; exact ⟨_, fun _ => by rw [exec_bfi, execBfi], fun _ => ⟨_, rfl⟩⟩
  | prmt x => cases hw; exact ⟨_, fun _ => by rw [exec_prmt, execPrmt], fun _ => ⟨_, rfl⟩⟩
  | lea x => cases hw; exact ⟨_, fun _ => by rw [exec_lea, execLea], fun _ => ⟨_, rfl⟩⟩
  | sel x => cases hw; exact ⟨_, fun _ => by rw [exec_sel, execSel], fun _ => ⟨_, rfl⟩⟩
  | mov x => cases hw; exact ⟨_, fun _ => by rw [exec_mov, execMov], fun _ => ⟨_, rfl⟩⟩
  | ffma x => cases hw; exact ⟨_, fun _ => by rw [exec_ffma, execFfma], fun _ => ⟨_, rfl⟩⟩
  | hfma2 x => cases hw; exact ⟨_, fun _ => by rw [exec_hfma2, execHfma2], fun _ => ⟨_, rfl⟩⟩
  | hmnmx2 x => cases hw; exact ⟨_, fun _ => by rw [exec_hmnmx2, execHmnmx2], fun _ => ⟨_, rfl⟩⟩
  | cvt x => cases hw; exact ⟨_, fun _ => by rw [exec_cvt, execCvt], fun _ => ⟨_, rfl⟩⟩
  | cvtdq x => cases hw; exact ⟨_, fun _ => by rw [exec_cvtdq, execCvtdq], fun _ => ⟨_, rfl⟩⟩
  | pack x => cases hw; exact ⟨_, fun _ => by rw [exec_pack, execPack], fun _ => ⟨_, rfl⟩⟩
  | unpk x => cases hw; exact ⟨_, fun _ => by rw [exec_unpk, execUnpk], fun _ => ⟨_, rfl⟩⟩
  | lutx x => cases hw; exact ⟨_, fun _ => by rw [exec_lutx, execLutx], fun _ => ⟨_, rfl⟩⟩
  | fdp4 x => cases hw; exact ⟨_, fun _ => by rw [exec_fdp4, execFdp4], fun _ => ⟨_, rfl⟩⟩
  | cvtq x => cases hw; exact runsLanes_cvtq
  | _ => cases hw

/-- Settles O1: each such word runs `runLanes` over its shape. -/
theorem laneWordsComplete : Obligations.LaneWordsComplete := by
  intro i w s h hw hp
  obtain ⟨body, he, hb⟩ := runsLanes_of_laneShape hw
  rw [he]
  exact lane_shared w (hb h) hp

end Sys2Proof
end

section
/-! # Predicate words, words that combine lanes, paired words. -/

namespace Sys2Proof

open Machine

set_option Elab.async false

/-! ## ISETP, FSETP, IADDC -/

/-- Settles O2: the words run `runPred`, or, for `IADDC`, its shape with two destinations. -/
theorem predicateWordsComplete : Obligations.PredicateWordsComplete := by
  refine ⟨fun x s h hp => ?_, fun x s h hp => ?_, fun x s h hp => ?_⟩
  · rw [completesBy, exec_isetp, execIsetp]
    refine completesBy_of hp ?_
    simp only [runPred, lanesFlags_none, setFstat_none]
    rfl
  · rw [completesBy, exec_fsetp]
    exact completesBy_of hp rfl
  · rw [completesBy, exec_iaddc]
    exact completesBy_of hp rfl

/-! ## Words that combine lanes -/

section
variable {i : Instr} {s : State} {h : Here} {body : Here → Exec Unit} {m : Mask}

/-- A word that, with a lane active, changes its crew alone. -/
theorem completes_if {f : Crew → Crew} {e : Exec Unit} (hp : passes i s h) (hb : body h = if m = 0 then nextE h else e)
    (he : e.run s = .ok ((), nextWord (updCrew s h.b h.c f) h)) :
    issueWord i s body = .next (if m = 0 then counted h (nextWord s h) else wordDone s h f) :=
  completes_of hp (fun hm => by rw [hb, if_pos hm]; rfl) (fun hm => by rw [hb, if_neg hm, he])

end

/-- R220: a lane whose bit is set takes the element that its rank names, and a lane with none takes 0. -/
theorem xdec_lane {b c l : Nat} {a : Nat → Nat} :
    (if nbit b l then if c + popBelow b l < 32 then a (c + popBelow b l) else 0 else 0) =
      if !nbit b l then 0 else let j := c + popBelow b l; if j < 32 then a j else 0 := by
  cases nbit b l <;> rfl

/-- Settles O3: every such word reads the state as it stands and changes its crew alone; `MQRY` once its offsets lie within
the stash. -/
theorem crossLaneWordsComplete : Obligations.CrossLaneWordsComplete := by
  refine ⟨fun x s h hp => ?_, fun g d pc pn s h hp => ?_, fun g md pd pc pn s h hp => ?_, fun x s h hp => ?_,
    fun x s h hp => ?_, fun x s h hp => ?_, fun x s h hp => ?_, fun x s h hp => ?_, fun x s h hp => ?_,
    fun x s h hp ho => ?_⟩
  · rw [completes, exec_shfl, execShfl]
    exact completes_if hp rfl rfl
  · rw [completes, exec_vote, execVote]
    exact completes_if hp rfl rfl
  · rw [completes, exec_vote, execVote]
    exact completes_if hp rfl rfl
  · rw [completes, exec_matchLanes, execMatchLanes]
    exact completes_if hp rfl rfl
  · rw [completes, exec_cred, execCred]
    exact completes_if hp rfl rfl
  · rw [completes, exec_cscan, execCscan]
    exact completes_if hp rfl rfl
  · rw [completes, exec_actm, execActm]
    exact completes_if hp rfl rfl
  · simp only [xdec_lane]
    rw [completes, exec_xdec, execXdec]
    exact completes_if hp rfl rfl
  · rw [completes, exec_xbmp, execXbmp]
    exact completes_if hp rfl rfl
  · rw [completes, exec_mqry, execMqry]
    have hin : (lanesOf (activeMask h x.g)).find? (fun l => decide (h.blk.kern.stash ≤ srcNum s h x.a 1 l)) = none := by
      rw [List.find?_eq_none]
      intro l hl
      simpa using ho l (List.mem_filter.1 hl).2
    refine completes_of hp (fun hm => ?_) (fun hm => ?_)
    · dsimp only
      rw [run_bind_ok (run_getE s), if_pos hm]
      rfl
    · dsimp only
      rw [run_bind_ok (run_getE s), if_neg hm, hin]
      rfl

/-- Settles O4 -/
theorem pairedWordCompletes : Obligations.PairedWordCompletes := by
  intro a b s h r t hp hr
  rw [exec_pairedWord]
  refine issueWord_runs hp ?_
  dsimp only
  rw [run_bind_ok (undoE_runs hr)]
  rfl
end Sys2Proof
end

section
/-! # Transfers of control, paths, and words that idle. -/

namespace Sys2Proof

open Machine

set_option Elab.async false

/-! ## BRA, BRX, CALL, CALLX, RET -/

/-- Settles O5: the checks of a transfer stop nothing where the lanes may leave; then its link or record is written and
the lanes move. -/
theorem transfersComplete : Obligations.TransfersComplete := by
  refine ⟨fun g off s h hp hm => ?_, fun g off tag s h q s1 s2 s3 hp hm h1 h2 h3 => ?_, fun g a s h hp hm => ?_,
    fun g d off s h hp hm => ?_, fun g d a s h hp hm => ?_, fun g a s h hp hm => ?_⟩
  · rw [exec_bra]
    refine issueWord_runs hp ?_
    dsimp only
    rw [run_bind_ok (transferReady_runs hm)]
    rfl
  · rw [exec_braT]
    refine issueWord_runs hp ?_
    dsimp only
    rw [run_bind_ok h1, run_bind_ok h2, run_bind_ok (transferReady_runs hm), run_bind_ok h3]
    rfl
  · rw [exec_brx]
    refine issueWord_runs hp ?_
    dsimp only
    rw [run_bind_ok (run_getE s), run_bind_ok (transferReady_runs hm)]
    rfl
  · rw [exec_call]
    refine issueWord_runs hp ?_
    dsimp only
    rw [run_bind_ok (transferReady_runs hm)]
    rfl
  · rw [exec_callx]
    refine issueWord_runs hp ?_
    dsimp only
    rw [run_bind_ok (run_getE s), run_bind_ok (transferReady_runs hm)]
    rfl
  · rw [exec_ret]
    refine issueWord_runs hp ?_
    dsimp only
    rw [run_bind_ok (run_getE s), run_bind_ok (transferReady_runs hm)]
    cases h.crew.handler with
    | none => rfl
    | some hd =>
      dsimp only
      split <;> rfl

/-! ## JOIN, LSER, LSEND, EXIT -/

theorem notInHandler_runs {s : State} {h : Here} (hh : h.crew.handler = none) :
    (notInHandlerE h).run s = .ok ((), s) := by
  unfold notInHandlerE
  rw [hh]
  rfl

theorem onlyMore_popLater {s : State} {b c : Nat} : onlyMoreToCome s (popLater s b c) := by
  unfold popLater
  split
  · exact onlyMore_refl s
  · split
    · exact ⟨_, rfl⟩
    · exact onlyMore_refl s

/-- A check that a slot serializes no region passes. -/
theorem noRegion {h : Here} (hr : (hSlot h).region = none) : ¬ (hSlot h).region.isSome = true := by
  rw [hr]
  exact Bool.false_ne_true

/-- An effect that a word needs only at times, before the rest. -/
theorem run_ite_before {β : Type} {p : Prop} [Decidable p] {x : Exec Unit} {k : Unit → Exec β} {s t : State}
    (hx : (if p then x else pure ()).run s = .ok ((), t)) : (if p then x >>= k else k ()).run s = (k ()).run t := by
  by_cases hp : p
  · rw [if_pos hp] at hx ⊢
    rw [run_bind_ok hx]
  · rw [if_neg hp] at hx ⊢
    cases hx
    rfl

/-- What an `EXIT` of some lanes leaves. -/
theorem exit_some_lanes {g : Guard} {s s1 t : State} {h : Here} (hp : passes (.exit g) s h)
    (hr : (hSlot h).region = none)
    (h0 : activeMask h g ≠ 0) (h1 : runs (orphansE h (activeMask h g)) s () s1)
    (h2 : runs (if crewDone (exitLanes h.crew h.k (activeMask h g)) then leaveStreamE h else pure ()) s1 () t) :
    let v := updCrew t h.b h.c fun y => dropHeld (activeMask h g) (exitLanes y h.k (activeMask h g))
    let w := if activeMask h g = hMask h then popLater (exitedSlot v h) h.b h.c else nextWord v h
    exec (.exit g) s = .next (counted h (if crewDone ((crewOf w h.b h.c).getD h.crew) then crewRetired w h else w)) := by
  rw [exec_exit]
  refine issueWord_runs hp ?_
  dsimp only
  rw [if_neg (noRegion hr), if_neg h0, run_bind_ok h1]
  refine (run_ite_before h2).trans ?_
  rw [run_bind_ok (run_updCrewE ..)]
  split
  · rw [run_bind_ok (run_modifyE ..), run_bind_ok (run_crewE ..)]
    split <;> rfl
  · rw [run_bind_ok (run_nextE ..), run_bind_ok (run_crewE ..)]
    split <;> rfl

/-- Settles O6: the checks of the word stop nothing; what an `EXIT` leaves to come is the pop of a spilled path and, with
the crew's last lane, its retirement. -/
theorem pathWordsComplete : Obligations.PathWordsComplete := by
  refine ⟨fun off s h hp hh hr hj => ?_, fun s h hp hh hr => ?_, fun s h r hp hr hd => ?_, fun g s h hp hr h0 => ?_,
    fun g s s1 t h hp hr h0 h1 h2 => ?_⟩
  · rw [exec_join]
    refine issueWord_runs hp ?_
    dsimp only
    rw [run_bind_ok (notInHandler_runs hh), if_neg (noRegion hr), if_neg (Nat.not_le.2 hj)]
    rfl
  · rw [exec_lser]
    refine issueWord_runs hp ?_
    dsimp only
    rw [run_bind_ok (notInHandler_runs hh), if_neg (noRegion hr)]
    rfl
  · rw [exec_lsend]
    refine issueWord_runs hp ?_
    dsimp only
    rw [hr]
    dsimp only
    rw [run_bind_ok (drain_runs hd)]
    rfl
  · rw [exec_exit]
    refine issueWord_runs hp ?_
    dsimp only
    rw [if_neg (noRegion hr), if_pos h0]
    rfl
  · refine ⟨_, exit_some_lanes hp hr h0 h1 h2, fun hm => ?_, fun hm => ?_⟩
    · rw [if_neg hm]
      split
      · exact ⟨_, rfl⟩
      · exact onlyMore_refl _
    · rw [if_pos hm]
      split
      · exact onlyMore_trans onlyMore_popLater ⟨_, rfl⟩
      · exact onlyMore_popLater

/-! ## NOP, YIELD, SLEEP, CHKPT, BKPT -/

/-- Settles O7: each word is its one effect, or the move to the next word. -/
theorem idleWordsComplete : Obligations.IdleWordsComplete := by
  refine ⟨fun g s h hp => ?_, fun g s h hp => ?_, fun a s h hp => ?_, fun n s h hp => ?_, fun g code s h hp => ?_⟩
  · rw [exec_nop]
    exact issueWord_runs hp rfl
  · rw [completes, exec_yieldSlot, execYieldSlot]
    refine completes_of hp (fun hm => ?_) (fun hm => ?_)
    · dsimp only
      rw [if_neg (not_not.2 hm)]
      rfl
    · dsimp only
      rw [if_pos hm]
      rfl
  · rw [exec_sleep]
    refine issueWord_runs hp ?_
    dsimp only
    rw [run_bind_ok (run_getE s)]
    split <;> rfl
  · rw [exec_chkpt]
    refine issueWord_runs hp ?_
    split <;> rfl
  · rw [exec_bkpt]
    refine issueWord_runs hp ?_
    dsimp only
    rw [run_bind_ok (run_getE s)]
    by_cases hm : activeMask h g = 0
    · rw [if_pos (.inl hm), if_neg fun hc => hc.1 hm]
      rfl
    · cases hb : bkptOn s (ctxOf s h.blk) with
      | true =>
        rw [if_neg (fun hc => hc.elim hm fun hf => Bool.false_ne_true hf), if_pos ⟨hm, rfl⟩]
        rfl
      | false =>
        rw [if_pos (by simp), if_neg fun hc => Bool.false_ne_true hc.2]
        rfl

end Sys2Proof
end

section
/-! # Loads, stores, atomics and fences. -/

namespace Sys2Proof

open Machine

set_option Elab.async false

/-! ## Loads and stores -/

/-- A drain that only `.rel` asks for. -/
theorem drain_if_runs {h : Here} {m : Mask} {s : State} {b : Bool} (hd : b = true → outstanding s h.b h.c m = false) :
    (if b then drainE h m else pure ()).run s = .ok ((), s) := by
  split
  · next hb => exact drain_runs (hd hb)
  · rfl

/-- What the buffer record's needs ran through. -/
theorem bufNeeds_inv {h : Here} {x : MemOp} {wr : Bool} {s t : State} {b : Option BufRec}
    (hr : runs (bufNeeds h x wr) s b t) :
    ∃ u, (bufRecE h x wr).run s = .ok (b, u) ∧ (bufPairE h x b).run u = .ok ((), t) := by
  obtain ⟨b', u, h1, h2⟩ := run_bind_inv hr
  obtain ⟨⟨⟩, v, h3, h4⟩ := run_bind_inv h2
  cases h4
  exact ⟨u, h1, h3⟩

theorem loadNeeds_inv {h : Here} {x : MemOp} {md : LoadMode} {m : Mask} {later : List Piece → Exec Bool} {s t : State}
    {b : Option BufRec} {q : Gather} (hr : runs (loadNeeds h x md m later) s (b, q) t) :
    ∃ u, runs (bufNeeds h x false) s b u ∧ (gatherE h x b md m later).run u = .ok (q, t) := by
  obtain ⟨b', u, h1, h2⟩ := run_bind_inv hr
  obtain ⟨g, v, h3, h4⟩ := run_bind_inv h2
  cases h4
  exact ⟨u, h1, h3⟩

theorem stashNeeds_inv {h : Here} {x : MemOp} {m : Mask} {s t : State} {b : Option BufRec} {q : Gather}
    (hr : runs (stashNeeds h x m) s (b, q) t) : b = none ∧ (gatherStashE h x m).run s = .ok (q, t) := by
  obtain ⟨g, v, h3, h4⟩ := run_bind_inv hr
  cases h4
  exact ⟨rfl, h3⟩

theorem lds_loads {x : MemOp} {s : State} {h : Here} (hp : passes (.lds x) s h) :
    loadsBy (.lds x) s h x (stashNeeds h x (activeMask h x.g)) := by
  refine loads_of hp exec_lds (fun hm => ?_) fun b q t hm hr => ?_
  · dsimp only
    rw [if_pos hm]
    rfl
  · obtain ⟨rfl, hg⟩ := stashNeeds_inv hr
    dsimp only
    rw [if_neg hm, run_bind_ok hg]
    rfl

theorem issue_off {i : Instr} {s : State} {h : Here} {body : Here → Exec Unit} {m : Mask} {e : Exec Unit}
    (hp : passes i s h)
    (hb : body h = if m = 0 then nextE h else e) (hm : m = 0) : issueWord i s body = .next (wordOver s h) :=
  issueWord_runs hp (by rw [hb, if_pos hm]; rfl)

theorem issue_on {i : Instr} {s t : State} {h : Here} {body : Here → Exec Unit} {m : Mask} {e : Exec Unit}
    (hp : passes i s h)
    (hb : body h = if m = 0 then nextE h else e) (hm : m ≠ 0) (he : e.run s = .ok ((), t)) :
    issueWord i s body = .next (counted h t) :=
  issueWord_runs hp (by rw [hb, if_neg hm, he])

/-- Settles O8: each word reads its buffer record, gathers or checks its lanes, and then loads land or set out and stores
are performed or set out. -/
theorem loadStoreWordsComplete : Obligations.LoadStoreWordsComplete := by
  refine ⟨fun x s h hp => load_shared hp exec_ld, fun x s h hp => load_shared hp exec_ldro, fun x s h hp =>
    lds_loads hp,
    fun x ac s h hp => ?_, fun x s h hp => ?_, fun x s h hp => ?_⟩
  · rw [exec_ldsp, execLdsp]
    refine ⟨issue_off hp rfl, fun b q t hm hac hr => ?_⟩
    obtain ⟨u, hb, hg⟩ := loadNeeds_inv hr
    obtain ⟨v, hb1, hb2⟩ := bufNeeds_inv hb
    refine issue_on hp rfl hm ?_
    rw [if_neg (Nat.not_le.2 hac), run_bind_ok hb1, run_bind_ok hb2, run_bind_ok hg]
    rfl
  · rw [exec_st, execSt]
    refine ⟨issue_off hp rfl, fun b rs s1 s2 t hm hroom hb hd hl hs => ?_⟩
    obtain ⟨v, hb1, hb2⟩ := bufNeeds_inv hb
    have horigin : (originE h).run s = .ok ((), s) := by
      unfold originE
      rw [run_bind_ok (run_getE s), if_neg (Nat.not_le.2 hroom)]
      rfl
    refine issue_on hp rfl hm ?_
    rw [run_bind_ok horigin, run_bind_ok hb1, run_bind_ok hb2]
    refine (run_ite_before (drain_if_runs hd)).trans ?_
    rw [run_bind_ok hl, run_bind_ok hs]
    rfl
  · rw [exec_sts, execSts]
    refine ⟨issue_off hp rfl, fun ps t hm hs => issue_on hp rfl hm ?_⟩
    rw [run_bind_ok (run_getE s)]
    dsimp only
    unfold runs stashStores at hs
    rw [run_bind_ok hs]
    rfl

/-! ## Atomics -/

theorem anyTimeE_runs {α : Type} {l : List α} {s : State} :
    ∃ (late : Bool) (u : State), u = { s with free := u.free } ∧ (anyTimeE l).run s = .ok (late, u) := by
  unfold anyTimeE
  split
  · exact ⟨false, s, rfl, rfl⟩
  · exact ⟨_, _, rfl, rfl⟩

/-- Settles O9: the lanes' accesses run in order, those of a `RED` when it issues or, by the free choice, later. -/
theorem atomicsComplete : Obligations.AtomicsComplete := by
  refine ⟨fun x s h hp => ?_, fun x s h hp => ?_⟩
  · rw [exec_atom, execAtom]
    refine ⟨issue_off hp rfl, fun olds t hm hd hl => issue_on hp rfl hm ?_⟩
    refine (run_ite_before (drain_if_runs hd)).trans ?_
    rw [run_bind_ok (run_getE s)]
    dsimp only
    unfold runs atomLanes at hl
    rw [run_bind_ok hl]
    rfl
  · rw [exec_red, execRed]
    refine ⟨issue_off hp rfl, fun hm hd => ?_⟩
    obtain ⟨late, u, hu, hlate⟩ := anyTimeE_runs (l := lanesOf (activeMask h x.g)) (s := s)
    refine ⟨late, u, hu, ?_, ?_⟩
    · rintro rfl olds t hl
      refine issue_on hp rfl hm ?_
      refine (run_ite_before (drain_if_runs hd)).trans ?_
      rw [run_bind_ok (run_getE s), run_bind_ok hlate, if_neg Bool.false_ne_true]
      unfold runs redSem redLanes at hl
      dsimp only
      rw [run_bind_ok hl]
      rfl
    · rintro rfl ps t hl
      refine issue_on hp rfl hm ?_
      refine (run_ite_before (drain_if_runs hd)).trans ?_
      rw [run_bind_ok (run_getE s), run_bind_ok hlate, if_pos rfl]
      unfold runs at hl
      rw [run_bind_ok hl]
      rfl

/-! ## Fences -/

/-- A word whose body runs over the lines of a range. -/
theorem overRange_of {i : Instr} {s : State} {h : Here} {body : Here → Exec Unit} {a b : Opnd}
    {f : Nat → Nat → RangeLine → Exec Unit} (hp : passes i s h) (he : exec i s = issueWord i s body)
    (hb : body h = do rangeE h a b f; nextE h) : overRange i s h a b f := by
  refine ⟨fun h0 => ?_, fun t h0 hg hf => ?_⟩
  · rw [he]
    exact issueWord_runs hp (by rw [hb, run_bind_ok (range_none h0)]; rfl)
  · rw [he]
    exact issueWord_runs hp (by rw [hb, run_bind_ok (range_runs h0 hg hf)]; rfl)

/-- Settles O10: a fence drains its lanes; `CWB` and `CINV` run over the lines of their range, by their scope. -/
theorem fencesComplete : Obligations.FencesComplete := by
  refine ⟨fun sc s h hp hd => ?_, fun s h hp => ?_, fun x s h hp => ?_, fun a b sc s h hp => ?_, fun a b sc s h hp =>
    ?_⟩
  · rw [exec_fence]
    refine issueWord_runs hp ?_
    rw [run_bind_ok (drain_runs hd)]
    rfl
  · rw [exec_fenceRo]
    exact issueWord_runs hp rfl
  · rw [exec_pref]
    exact issueWord_runs hp rfl
  · refine ⟨fun hn => overRange_of hp exec_cwb ?_, fun hn => overRange_of hp exec_cwb ?_⟩ <;> simp only [hn] <;> rfl
  · refine ⟨fun hn => overRange_of hp exec_cinv ?_, fun hn => overRange_of hp exec_cinv ?_⟩ <;> simp only [hn] <;> rfl

end Sys2Proof
end

section
/-! # Moorings, barrier objects, waits and copies. -/

namespace Sys2Proof

open Machine

set_option Elab.async false

/-! ## MOOR, UNMOOR, MWB -/

theorem homesE_runs {h : Here} {core : Nat} {xs : List MLine} {s : State}
    (hf : xs.findSome? (homesBusy s core) = none) :
    (homesE h core xs).run s = .ok ((), xs.foldl (fun s x => askHomes s core (mlineHomes x)) s) := by
  unfold homesE
  rw [run_bind_ok (run_getE s), hf]
  rfl

theorem dropE_runs {h : Here} {core : Nat} {es : List Nat} {s : State} (hf : releaseBusy s core es = none) :
    (dropE h core es).run s = .ok ((), droppedEntries s core es) := by
  unfold dropE
  rw [run_bind_ok (run_getE s), run_bind_ok (homesE_runs hf)]
  rfl

theorem flushDropE_runs {h : Here} {core : Nat} {es : List Nat} {s : State} (hr : readyToDrop s core es = true) :
    (flushDropE h core es).run s = .ok ((), droppedEntries s core es) := by
  rw [readyToDrop, Bool.and_eq_true, Bool.not_eq_true', Option.isNone_iff_eq_none] at hr
  obtain ⟨hclean, hfree⟩ := hr
  have hfind : es.find? (fun e => unflushed s core e) = none := by
    rw [List.find?_eq_none]
    exact fun e he => List.any_eq_false.1 hclean e he
  unfold flushDropE
  rw [run_bind_ok (run_getE s), hfind]
  exact dropE_runs hfree

theorem flushE_runs {h : Here} {core : Nat} {ls : List (Nat × Nat)} {s : State}
    (hv : ∀ x ∈ ls.map fun p => mlineOf s core p.1 p.2, ∀ g ∈ mlineHomes x, versioned s g = false)
    (hf : ∀ x ∈ ls.map fun p => mlineOf s core p.1 p.2, homesBusy s core x = none) :
    (flushE h core ls).run s = .ok ((), ls.foldl (fun u p => flushLine u core p.1 p.2)
      ((ls.map fun p => mlineOf s core p.1 p.2).foldl (fun u x => askHomes u core (mlineHomes x)) s)) := by
  have hfind : (ls.flatMap fun p => mlineHomes (mlineOf s core p.1 p.2)).find? (versioned s) = none := by
    rw [List.find?_eq_none]
    intro g hg
    obtain ⟨p, hp, hg⟩ := List.mem_flatMap.1 hg
    rw [hv _ (List.mem_map_of_mem hp) g hg]
    exact Bool.false_ne_true
  unfold flushE
  rw [run_bind_ok (run_getE s), hfind]
  dsimp only
  rw [run_bind_ok (homesE_runs (List.findSome?_eq_none_iff.2 hf))]
  rfl

theorem moor_completes {d a : Opnd} {s t : State} {h : Here} {bs : List Byte} (hp : passes (.moor d a) s h)
    (h32 : srcNum s h a 2 0 % 32 = 0) (hb : runs (loadBytesE h (hMask h) (srcNum s h a 2 0) 32 .plain) s bs t)
    (hok : moorRecOk (moorRecOf (leNat bs)) (leNat bs) h.blk.kern.stash = true) :
    let r := moorRecOf (leNat bs)
    let base := h.blk.base + r.lbase
    (moorPlan (coreOf t h.blk.core) r base = .aliased → exec (.moor d a) s = .next (wordDone t h (putOnce h d 1 4))) ∧
    (moorPlan (coreOf t h.blk.core) r base = .full → exec (.moor d a) s = .next (wordDone t h (putOnce h d 1 3))) ∧
    (∀ i, moorPlan (coreOf t h.blk.core) r base = .reuse i →
      exec (.moor d a) s = .next (wordDone (ownEntry t h.blk.core i h.b) h (putOnce h d 1 (1 + 8 * i)))) ∧
    ∀ lost room i, moorPlan (coreOf t h.blk.core) r base = .make lost room →
      readyToDrop t h.blk.core (lost ++ room.toList) = true →
      let u := droppedEntries t h.blk.core (lost ++ room.toList)
      freeIndex (coreOf u h.blk.core) = some i →
      exec (.moor d a) s = .next (wordDone (makeEntry u h.blk.core i r base (some h.b) (ctxOf u h.blk)) h
        (putOnce h d 1 ((if lost.isEmpty then 0 else 2) + 8 * i))) := by
  have hok' : ¬ (!moorRecOk (moorRecOf (leNat bs)) (leNat bs) h.blk.kern.stash) = true := by simp [hok]
  refine ⟨fun hpl => ?_, fun hpl => ?_, fun i hpl => ?_, fun lost room i hpl hdrop hi => ?_⟩
  all_goals
    rw [exec_moor]
    refine issueWord_runs hp ?_
    dsimp only
    rw [run_bind_ok (run_getE s), if_neg (not_not.2 h32), run_bind_ok hb, if_neg hok', run_bind_ok (run_getE t), hpl]
    dsimp only
  · rfl
  · rfl
  · rfl
  · rw [run_bind_ok (flushDropE_runs hdrop), run_bind_ok (run_getE _), hi]
    rfl

/-- Settles O11: the plan of the table chooses the status, and what must be dropped is dropped once it may be. -/
theorem mooringWordsComplete : Obligations.MooringWordsComplete := by
  refine ⟨fun d a s h hp => ⟨fun h32 => ?_, fun bs t h32 hb => ⟨fun hbad => ?_, moor_completes hp h32 hb⟩⟩,
    fun d a wb s h hp => ⟨fun hown => ?_, fun hown hwb hnwb hfree => ?_⟩, fun d a b s h hp hv hf => ?_⟩
  · rw [exec_moor]
    refine issueWord_runs hp ?_
    dsimp only
    rw [run_bind_ok (run_getE s), if_pos h32]
    rfl
  · rw [exec_moor]
    refine issueWord_runs hp ?_
    dsimp only
    rw [run_bind_ok (run_getE s), if_neg (not_not.2 h32), run_bind_ok hb, if_pos (by simpa using hbad)]
    rfl
  · rw [exec_unmoor]
    refine issueWord_runs hp ?_
    dsimp only
    rw [run_bind_ok (run_getE s), if_pos (by simp [hown])]
    rfl
  · rw [exec_unmoor]
    refine issueWord_runs hp ?_
    dsimp only
    rw [run_bind_ok (run_getE s), if_neg (by simp [hown])]
    cases wb with
    | true =>
      have hready : readyToDrop s h.blk.core [srcNum s h a 1 0] = true := by simp [readyToDrop, hwb rfl, hfree]
      rw [if_pos rfl, run_bind_ok (flushDropE_runs hready)]
      rfl
    | false =>
      rw [if_neg Bool.false_ne_true, if_neg (by simp [hnwb rfl]), run_bind_ok (dropE_runs hfree)]
      rfl
  · rw [exec_mwb]
    refine issueWord_runs hp ?_
    dsimp only
    rw [run_bind_ok (run_getE s), run_bind_ok (flushE_runs hv hf)]
    rfl

/-! ## BINIT, BARV, BPAR -/

/-- Settles O12: the object is found and may be read; then it is written, credited or read. -/
theorem barrierWordsComplete : Obligations.BarrierWordsComplete := by
  refine ⟨fun a b c s h core off hp hb hr hw hnk => ?_, fun d a b s h core off hp hb hr hk hx hd => ?_,
    fun pd a s h core off hp hb hr hk => ?_⟩
  · rw [exec_binit]
    refine issueWord_runs hp ?_
    dsimp only
    rw [run_bind_ok (bar_runs hb hr), run_bind_ok (run_getE _)]
    cases c <;>
    · rw [if_neg (by rintro (⟨hn, hk⟩ | hwait); exacts [hnk.elim (· hn) (· hk), hwait hw])]
      rfl
  · rw [exec_barv]
    refine issueWord_runs hp ?_
    dsimp only
    rw [run_bind_ok (goodBar_runs hb hr hk), run_bind_ok (run_getE _), if_neg (by tauto), run_bind_ok (drain_runs hd)]
    rfl
  · rw [exec_bpar]
    refine issueWord_runs hp ?_
    rw [run_bind_ok (goodBar_runs hb hr hk), run_bind_ok (run_getE _)]
    rfl

/-! ## WAIT -/

/-- Settles O13: the object is found; a `WAIT` of it ends when its condition is met, and else waits. -/
theorem waitsComplete : Obligations.WaitsComplete := by
  refine ⟨fun pd a b c s h core off hp hh hb hr hk => ?_, fun pd a b c s t h hp hh h4 hb => ?_, fun pd n c s h hp hh =>
    ?_,
    fun pd a b c s h o hp hh ho => ?_⟩
  · rw [waits, exec_waitBar]
    refine wait_shared hp hh ?_
    rw [run_bind_ok (goodBar_runs hb hr hk)]
    rfl
  · rw [waits, exec_waitBmp]
    refine wait_shared hp hh ?_
    dsimp only
    rw [run_bind_ok (run_getE s), if_neg (not_not.2 h4), run_bind_ok hb]
    rfl
  · rw [waits, exec_waitAc]
    exact wait_shared hp hh rfl
  · rw [waits, exec_waitTl]
    refine wait_shared hp hh ?_
    rw [run_bind_ok (run_getE s), ho]
    rfl

end Sys2Proof
end

section
/-! # Copies, messages, armatures and records. -/

namespace Sys2Proof

open Machine

set_option Elab.async false

/-! ## Copies -/

/-- Addresses aligned to the size, in windows that exist, stop no copy. -/
theorem find_bad_address {es : List (Nat × Nat)} {va : Nat × Nat → Nat} {n : Nat}
    (h : ∀ e ∈ es, va e % n = 0 ∧ routeOf (va e) n ≠ .bad) :
    es.find? (fun e => va e % n != 0 || routeOf (va e) n == .bad) = none := by
  rw [List.find?_eq_none]
  intro e he
  simp [h e he]

/-- R202: an object within the stash, aligned, is a copy's own. -/
theorem ownBar_runs {h : Here} {o : Option Opnd} {s : State}
    (hv : ∀ v, (o.map fun c => srcNum s h c 1 0) = some v → v % 32 = 0 ∧ v + 32 ≤ h.blk.kern.stash) :
    (ownBarE h o).run s = .ok (o.map fun c => srcNum s h c 1 0, s) := by
  unfold ownBarE
  cases o with
  | none => rfl
  | some c =>
    obtain ⟨h32, hin⟩ := hv _ rfl
    dsimp only at h32 hin ⊢
    rw [run_bind_ok (run_getE s), if_neg (by omega)]
    rfl

/-- Two ways to a value before the same rest. -/
theorem run_ite_bind {α β : Type} {p : Prop} [Decidable p] {x y : Exec α} {k : α → Exec β} {s t : State} {a : α}
    (hx : (if p then x else y).run s = .ok (a, t)) : (if p then x >>= k else y >>= k).run s = (k a).run t := by
  by_cases hp : p
  · rw [if_pos hp] at hx ⊢
    rw [run_bind_ok hx]
  · rw [if_neg hp] at hx ⊢
    rw [run_bind_ok hx]

theorem cpy_completes {x : CpyOp} {s : State} {h : Here} (hp : passes (.cpy x) s h)
    (hroom : openCopies s h.b h.c < 64) (hd : outstanding s h.b h.c (activeMask h x.g) = false)
    (hbar : ∀ v, (if activeMask h x.g = 0 then none else x.bar.map fun c => srcNum s h c 1 0) = some v →
      v % 32 = 0 ∧ v + 32 ≤ h.blk.kern.stash)
    (hes : ∀ e ∈ (lanesOf (activeMask h x.g)).map fun l => (srcNum s h x.a 2 l, srcNum s h x.b 2 l),
      e.1 % (4 * 2 ^ x.sz.val) = 0 ∧ e.2 % (4 * 2 ^ x.sz.val) = 0 ∧ routeOf e.1 (4 * 2 ^ x.sz.val) ≠ .bad ∧
        routeOf e.2 (4 * 2 ^ x.sz.val) ≠ .bad) :
    exec (.cpy x) s = .next (wordOver (issueCopy s h x.d (activeMask h x.g)
      (.lanes ((lanesOf (activeMask h x.g)).map fun l => (srcNum s h x.a 2 l, srcNum s h x.b 2 l)) (4 * 2 ^ x.sz.val)
        (if activeMask h x.g = 0 then none else x.bar.map fun c => srcNum s h c 1 0))) h) := by
  have hown : (if activeMask h x.g = 0 then pure none else ownBarE h x.bar : Exec (Option Nat)).run s =
      .ok (if activeMask h x.g = 0 then none else x.bar.map fun c => srcNum s h c 1 0, s) := by
    split
    · rfl
    · next hm => exact ownBar_runs fun v hv => hbar v (by rw [if_neg hm]; exact hv)
  rw [exec_cpy]
  refine issueWord_runs hp ?_
  dsimp only
  rw [run_bind_ok (run_getE s), run_bind_ok (copyRoom_runs hroom)]
  refine (run_ite_bind hown).trans ?_
  rw [find_bad_address (va := Prod.fst) fun e he => ⟨(hes e he).1, (hes e he).2.2.1⟩]
  dsimp only
  rw [find_bad_address (va := Prod.snd) fun e he => ⟨(hes e he).2.1, (hes e he).2.2.2⟩]
  dsimp only
  rw [run_bind_ok (drain_runs hd)]
  rfl

/-- Settles O14: the addresses and the object or the descriptor are checked, the lanes drained, and the copy issued. -/
theorem copiesComplete : Obligations.CopiesComplete := by
  refine ⟨fun x s h hp hroom hd hbar hes => cpy_completes hp hroom hd hbar hes, fun d a s t h p hp hi => ?_,
    fun d a s t h p hp hi => ?_⟩
  · rw [exec_cpyt]
    exact tile_shared hp hi
  · rw [exec_cpyq]
    exact tile_shared hp hi

/-! ## SEND, MCAST, REDP -/

/-- Settles O15: a message sets out once its lanes are drained; an armature is armed, and contributed to, as it stands. -/
theorem messageWordsComplete : Obligations.MessageWordsComplete := by
  refine ⟨fun x s h hp h8 hd => ?_, fun x s h hp hd => ⟨fun h0 => ?_, fun h0 h8 => ?_⟩,
    fun d a id s h hp => ⟨fun h64 => ?_, fun p t h64 hr => ⟨fun hbad => ?_, fun hok htaken => ?_, fun hok hfree => ?_⟩⟩,
    fun d a id s h arm hp harm hrank hroot hopen hd => ?_⟩
  · rw [exec_send]
    exact issueWord_runs hp (send_on h8 hd)
  · rw [exec_mcast]
    refine issueWord_runs hp ?_
    rw [run_bind_ok (run_getE s), if_pos h0, run_bind_ok (drain_runs hd)]
    rfl
  · rw [exec_mcast]
    refine issueWord_runs hp ?_
    rw [run_bind_ok (run_getE s), if_neg h0]
    exact send_on h8 hd
  · rw [exec_redpArm]
    refine issueWord_runs hp ?_
    dsimp only
    rw [run_bind_ok (run_getE s), if_pos h64]
    rfl
  · rw [exec_redpArm]
    refine issueWord_runs hp ?_
    dsimp only
    unfold runs at hr
    rw [run_bind_ok (run_getE s), if_neg (not_not.2 h64), run_bind_ok hr, run_bind_ok (run_getE t), if_pos
      (by simp [hbad])]
    rfl
  · rw [exec_redpArm]
    refine issueWord_runs hp ?_
    dsimp only
    unfold runs at hr
    rw [run_bind_ok (run_getE s), if_neg (not_not.2 h64), run_bind_ok hr, run_bind_ok (run_getE t), if_neg
      (by simp [hok]),
      if_pos htaken]
    rfl
  · rw [exec_redpArm]
    refine issueWord_runs hp ?_
    dsimp only
    unfold runs at hr
    rw [run_bind_ok (run_getE s), if_neg (not_not.2 h64), run_bind_ok hr, run_bind_ok (run_getE t), if_neg
      (by simp [hok]),
      if_neg (by simp [hfree])]
    rfl
  · rw [exec_redpContribute]
    refine issueWord_runs hp ?_
    rw [run_bind_ok (run_getE s), harm]
    dsimp only
    rw [if_neg (by simp [hroot, Nat.not_le.2 hrank]), if_neg (by simp [hopen]), run_bind_ok (drain_runs hd)]
    rfl

/-! ## REMIT, RADV -/

theorem engE_runs {α : Type} {h : Here} {kind : Nat} {f : State → Except EngErr (α × State)} {s t : State} {a : α}
    (hf : f s = .ok (a, t)) : (engE h kind f).run s = .ok (a, t) := by
  unfold engE
  rw [run_bind_ok (run_getE s), hf]
  rfl

/-- Settles O16: the slipway is found and its registers are free; the lanes that find a slot emit, and those left park. -/
theorem recordWordsComplete : Obligations.RecordWordsComplete := by
  refine ⟨fun g i a s h id r w hp hi hr hw hal hreg hready hd => ?_, fun s h hp hc hn => ?_⟩
  · have hfit : ¬ (r % min (w.size / 4) 4 ≠ 0 ∨ h.blk.kern.vregs < r + w.size / 4) := by omega
    unfold runs at hready
    refine ⟨fun hm => ?_, fun left tw t hm he => ?_⟩
    · rw [exec_remit]
      refine issueWord_runs hp ?_
      dsimp only
      rw [run_bind_ok (run_getE s), hi, hr]
      dsimp only
      rw [hw]
      dsimp only
      rw [if_neg hfit, run_bind_ok hready, run_bind_ok (drain_runs hd), if_pos hm]
      rfl
    · rw [exec_remit]
      refine (issueWord_runs (t := if left = 0 then nextWord (raiseT t h.b h.c tw) h else parkSlot
        (raiseT t h.b h.c tw) h id r left)
        hp ?_).trans (by split <;> rfl)
      dsimp only
      rw [run_bind_ok (run_getE s), hi, hr]
      dsimp only
      rw [hw]
      dsimp only
      rw [if_neg hfit, run_bind_ok hready, run_bind_ok (drain_runs hd), if_neg hm, run_bind_ok (engE_runs he)]
      dsimp only
      rw [run_bind_ok (run_modifyE ..)]
      split <;> rfl
  · rw [exec_radv]
    refine issueWord_runs hp ?_
    rw [if_neg (by simp [hc, hn])]
    rfl

end Sys2Proof
end

section
/-! # Matrix, capsule and tape words (O17 to O19) -/
namespace Sys2Proof
open Machine
set_option Elab.async false

/-! ## The words of the matrix units -/

theorem crewE_runs {i : Instr} {s : State} {h : Here} (hp : passes i s h) : (crewE h).run s = .ok (h.crew, s) := by
  obtain ⟨hb, hc⟩ := issuesAt_finds hp.1
  change Except.ok ((crewOf s h.b h.c).getD h.crew, s) = _
  rw [crewOf_of_finds hb hc]
  rfl

theorem mma_completes {x : MmaOp} {s t : State} {h : Here} (hp : passes (.mma x) s h)
    (ht : x.tile.val < h.blk.kern.tiles)
    (hl : passLegal (unitOf s h.blk.core (partOf h)).activeTag x.af x.kh = true)
    (hr : runs ((lanesOf (activeMask h x.g)).forM fun l => matRangeE h (rowOff (srcNum s h x.a 1 l))
      (actBytes x.af) false)
      s () t)
    (hroom : unitRoom t h) (hd : outstanding t h.b h.c (activeMask h x.g) = false) :
    exec (.mma x) s =
      .next (wordOver (enterQuarters t h x (activeMask h x.g) fun l => rowOff (srcNum s h x.a 1 l)) h) := by
  rw [exec_mma]
  refine issueWord_runs hp ?_
  dsimp only
  unfold runs at hr
  rw [run_bind_ok (run_getE s), run_bind_ok (tiles_runs ht), if_neg (by simp [hl]), run_bind_ok hr,
    run_bind_ok (queue_runs hroom), run_bind_ok (drain_runs hd)]
  rfl

theorem mrd_completes {x : MrdOp} {s : State} {h : Here} (hp : passes (.mrd x) s h) (ht : x.tile.val < h.blk.kern.tiles)
    (hroom : unitRoom s h) :
    let u := enter s h (.read (physTile h x.tile.val) x.col.val (mrdRegs x.wc) ((regCode x.d).getD 0)
      (activeMask h x.g))
      (.tileOpPoint h.blk.core (partOf h))
    exec (.mrd x) s = .next (if activeMask h x.g = 0 then wordOver u h
      else wordDone u h fun y => { y with pending := y.pending ++ regCodes x.d (mrdRegs x.wc) }) := by
  intro u
  rw [exec_mrd]
  by_cases hm : activeMask h x.g = 0
  · rw [if_pos hm]
    refine issueWord_runs hp ?_
    dsimp only
    rw [run_bind_ok (tiles_runs ht), run_bind_ok (queue_runs hroom), enqueueE, run_bind_ok (run_modifyE ..), if_neg
      (not_not.2 hm)]
    rfl
  · rw [if_neg hm]
    refine issueWord_runs hp ?_
    dsimp only
    rw [run_bind_ok (tiles_runs ht), run_bind_ok (queue_runs hroom), enqueueE, run_bind_ok (run_modifyE ..), if_pos hm]
    rfl

theorem mst_completes {x : MstOp} {s s1 s2 t : State} {h : Here} {o st c : Nat} (hp : passes (.mst x) s h)
    (ht : x.tile.val < h.blk.kern.tiles) (ho : o = low5 (srcNum s h x.a 1 0)) (hst : st = low5 (srcNum s h x.b 1 0))
    (hc : c = (x.c.map fun k => low5 (srcNum s h k 1 0)).getD 0)
    (h1 : runs (if activeMask h x.g ≠ 0 ∧ x.sc then matRangeE h c 256 false else pure ()) s () s1)
    (h2 : runs (if activeMask h x.g ≠ 0 ∧ x.zpe then matRangeE h (c + 256) 256 false else pure ()) s1 () s2)
    (h3 : runs ((lanesOf (activeMask h x.g)).forM fun l => matRangeE h (o + l * st) (outBytes x.ofmt) true) s2 () t)
    (hroom : unitRoom t h) (hd : outstanding t h.b h.c (activeMask h x.g) = false) :
    exec (.mst x) s = .next (wordOver
      (enter t h (.store (physTile h x.tile.val) o st c x.sc x.zpe x.ofmt (activeMask h x.g) none)
        (.tileOpPoint h.blk.core (partOf h))) h) := by
  subst ho hst hc
  rw [exec_mst]
  refine issueWord_runs hp ?_
  dsimp only
  unfold runs at h1 h2 h3
  rw [run_bind_ok (run_getE s), run_bind_ok (tiles_runs ht)]
  refine (run_ite_before h1).trans ?_
  refine (run_ite_before h2).trans ?_
  rw [run_bind_ok h3, run_bind_ok (queue_runs hroom), run_bind_ok (drain_runs hd)]
  rfl

/-- Settles O17: each word finds its tile, its bytes of the stash and room in the queue, and enters. -/
theorem matrixWordsComplete : Obligations.MatrixWordsComplete := by
  refine ⟨fun a b wf s t h hp ht hr hroom hd => ?_, fun d s h hp ht hroom => ?_, fun sb s h hp ht hroom => ?_,
    fun g tile s h hp ht hroom => ?_, fun x s t h hp ht hl hr hroom hd => mma_completes hp ht hl hr hroom hd,
    fun x s h hp ht hroom => mrd_completes hp ht hroom,
    fun x s s1 s2 t h hp ht h1 h2 h3 hroom hd => mst_completes hp ht rfl rfl rfl h1 h2 h3 hroom hd,
    fun d s h hp ht hroom => ?_⟩
  · rw [exec_mldw]
    refine issueWord_runs hp ?_
    dsimp only
    unfold runs at hr
    rw [run_bind_ok (run_getE s), run_bind_ok (tiles_runs ht), run_bind_ok hr, run_bind_ok (queue_runs hroom),
      run_bind_ok (drain_runs hd)]
    rfl
  · rw [exec_mswap]
    refine issueWord_runs hp ?_
    rw [run_bind_ok (tiles_runs ht), run_bind_ok (queue_runs hroom)]
    rfl
  · rw [exec_mlut]
    refine issueWord_runs hp ?_
    rw [run_bind_ok (tiles_runs ht), run_bind_ok (queue_runs hroom), run_bind_ok (crewE_runs hp)]
    rfl
  · rw [exec_mzero]
    refine issueWord_runs hp ?_
    rw [run_bind_ok (tiles_runs ht), run_bind_ok (queue_runs hroom)]
    rfl
  · rw [exec_mfence]
    refine issueWord_runs hp ?_
    rw [run_bind_ok (tiles_runs ht), run_bind_ok (queue_runs hroom)]
    rfl

/-! ## The capsule words -/

theorem capFlag_runs {s : State} {h : Here} (hf : nbit (flagsOf s h.blk) 1 = true) :
    (capFlagE h).run s = .ok ((), s) := by
  unfold capFlagE
  rw [run_bind_ok (run_getE s), if_pos hf]
  rfl

theorem askE_stops {h : Here} {line lane : Nat} {a : Attr} {k : CapKind} {ev : Nat → Instr} {s : State}
    (hs : sendTo s h.blk.core (sliceOf (128 * line)) = true) :
    (askE h line lane a k ev).run s = .error (Machine.ask s h line lane a k ev) := by
  have hc : (capSlotE h line).run s = .ok ((), s) := sendE_runs hs
  unfold askE
  rw [run_bind_ok hc]
  rfl

/-- Settles O18: a question and a commit stop with their slot waiting for the home's answer; `CAPSTAT` reads its slots. -/
theorem capsuleWordsComplete : Obligations.CapsuleWordsComplete := by
  refine ⟨fun x s s1 t h line pa ra sa hp hm hr hs hsend => ?_, fun d a s t h line ra hp hm hr hsend => ?_,
    fun d a s t h rs hp hf hr => ?_, fun lbl s h k hp hm h63 hf => ?_, fun s h k hp hm hf => ?_, fun s h k hp hm hf =>
      ?_⟩
  · rw [exec_capenter]
    refine issueWord_stops hp ?_
    unfold runs at hr hs
    rw [run_bind_ok (run_getE s), run_bind_ok (ask_runs hm), run_bind_ok hr]
    dsimp only
    rw [run_bind_ok hs]
    dsimp only
    exact askE_stops hsend
  · rw [exec_capadopt]
    refine issueWord_stops hp ?_
    unfold runs at hr
    rw [run_bind_ok (run_getE s), run_bind_ok (ask_runs hm), run_bind_ok hr]
    dsimp only
    exact askE_stops hsend
  · rw [exec_capstat]
    refine issueWord_runs hp ?_
    unfold runs at hr
    rw [run_bind_ok (run_getE s), run_bind_ok (capFlag_runs hf), run_bind_ok hr]
    rfl
  · rw [exec_capstep]
    exact issueWord_stops hp (commit_stops hm hf fun _ => h63)
  · rw [exec_capexit]
    exact issueWord_stops hp (commit_stops hm hf fun h0 => absurd h0 (by decide))
  · rw [exec_capabort]
    exact issueWord_stops hp (commit_stops hm hf fun h0 => absurd h0 (by decide))

/-! ## The tape words -/

/-- Settles O19: with the flag set each word meets what it needs of the tape and then only writes. -/
theorem tapeWordsComplete : Obligations.TapeWordsComplete := by
  unfold Obligations.TapeWordsComplete runs
  refine ⟨fun s s1 s2 t h hp hf h1 h2 h3 => ?_, fun a s s1 s2 t h hp hf h1 h2 h4 h3 => ?_, fun n tag s t h hp hf h1 =>
    ?_,
    fun x s s1 t h q hp hf h1 h2 => ?_, fun tag a s s1 t h q hp hf h1 h2 => ?_, fun x s h hp hf => ?_,
    fun x s h hp hf => ?_, fun g d sel s h hp hf => ?_⟩
  · rw [exec_tbindNew]
    refine issueWord_runs hp ?_
    rw [run_bind_ok hf, run_bind_ok h1, run_bind_ok h2, run_bind_ok h3]
    rfl
  · rw [exec_tbindAt]
    refine issueWord_runs hp ?_
    dsimp only
    rw [run_bind_ok (run_getE s), run_bind_ok hf, run_bind_ok h1, run_bind_ok h2, if_neg (not_not.2 h4), run_bind_ok h3]
    rfl
  · rw [exec_tbindCh]
    refine issueWord_runs hp ?_
    rw [run_bind_ok hf, run_bind_ok h1]
    rfl
  · rw [exec_trec]
    refine issueWord_runs hp ?_
    rw [run_bind_ok (run_getE s), run_bind_ok hf, run_bind_ok h1, run_bind_ok h2]
    rfl
  · rw [exec_tmark]
    refine issueWord_runs hp ?_
    rw [run_bind_ok (run_getE s), run_bind_ok hf, run_bind_ok h1, run_bind_ok h2]
    rfl
  · rw [completesBy, exec_tback, execTback]
    refine ⟨fun hm => issueWord_runs hp ?_, fun a t hm hr => issueWord_runs hp ?_⟩ <;> rw [run_bind_ok hf]
    · rw [if_pos hm]; rfl
    · unfold runs at hr; rw [if_neg hm, run_bind_ok hr]; rfl
  · rw [completesBy, exec_tbpop, execTbpop]
    refine ⟨fun hm => issueWord_runs hp ?_, fun a t hm hr => issueWord_runs hp ?_⟩ <;> rw [run_bind_ok hf]
    · rw [if_pos hm]; rfl
    · unfold runs at hr; rw [if_neg hm, run_bind_ok hr]; rfl
  · rw [exec_tstat]
    refine ⟨fun hm => issueWord_runs hp ?_, fun s1 t x hm h1 h2 => issueWord_runs hp ?_⟩ <;> rw [run_bind_ok hf]
    · rw [if_pos hm]; rfl
    · rw [if_neg hm, run_bind_ok h1, run_bind_ok h2]; rfl

end Sys2Proof
end

section
/-! # Special registers and timelines (O20) -/
namespace Sys2Proof
open Machine
set_option Elab.async false

theorem sprReady_runs {s : State} {h : Here} {r : Spr}
    (hf : r = .fstat → storeQueued s h.blk.core h.b h.c h.k = false ∧ loadQueued s h.b h.c h.k = false) :
    (sprReadyE h r).run s = .ok ((), s) := by
  unfold sprReadyE
  rw [run_bind_ok (run_getE s), if_neg]
  · rfl
  · rintro ⟨hr, hq⟩
    obtain ⟨h1, h2⟩ := hf hr
    rw [h1, h2] at hq
    exact absurd hq (by decide)

theorem sprReady_runs_of_ne {s : State} {h : Here} {r : Spr} (hr : r ≠ .fstat) : (sprReadyE h r).run s = .ok ((), s) :=
  sprReady_runs fun he => absurd he hr

/-- `GETTL` completes with what `gettlE` reads, in the state that it leaves. -/
theorem gettl_completes {g : Guard} {d a : Opnd} {err : Bool} {s t : State} {h : Here} {n : Nat}
    (hp : passes (.gettl g d a err) s h)
    (hr : (gettlE h (srcNum s h a 1 0) err).run s = .ok (n, t)) :
    exec (.gettl g d a err) s = .next (if activeMask h g = 0 then wordOver s h
      else wordDone t h (put d (if err then 1 else 2) (activeMask h g) fun _ => n)) := by
  rw [exec_gettl]
  by_cases hm : activeMask h g = 0
  · rw [if_pos hm]
    exact issueWord_runs hp (by dsimp only; rw [if_pos hm]; rfl)
  · rw [if_neg hm]
    refine issueWord_runs hp ?_
    dsimp only
    rw [if_neg hm, run_bind_ok (run_getE s), run_bind_ok hr]
    rfl

theorem gettlE_engine {s : State} {h : Here} {sel n : Nat} (he : engineCounter h.crew sel = some n) :
    (gettlE h sel false).run s = .ok (n, s) := by
  unfold gettlE
  rw [run_bind_ok (run_getE s), he]
  rfl

theorem gettlE_engine_err {s : State} {h : Here} {sel n : Nat} (he : engineCounter h.crew sel = some n) :
    (gettlE h sel true).run s = .ok (freeChoice s 2) := by
  unfold gettlE
  rw [run_bind_ok (run_getE s), he]
  rfl

theorem engineCounter_timeline (y : Crew) (i : Nat) : engineCounter y (0x10000 + i) = none := by
  unfold engineCounter
  split <;> grind

theorem gettlE_timeline {s : State} {h : Here} {i : Nat} (err : Bool) (hi : i < tlCount s (ctxOf s h.blk))
    (hok : tlEntryOk s (ctxOf s h.blk) i = true) :
    (gettlE h (0x10000 + i) err).run s =
      .ok (if err then (if tlErr s (ctxOf s h.blk) i then 1 else 0) else tlValue s (ctxOf s h.blk) i, s) := by
  unfold gettlE
  rw [run_bind_ok (run_getE s), engineCounter_timeline]
  dsimp only
  rw [Nat.add_sub_cancel_left, if_pos ⟨Nat.le_add_right _ _, hi⟩, if_neg (by simp [hok])]
  cases err <;> rfl

theorem gettlE_timeline_free {s : State} {h : Here} {i : Nat} (err : Bool) (hi : i < tlCount s (ctxOf s h.blk))
    (hok : tlEntryOk s (ctxOf s h.blk) i = false) :
    (gettlE h (0x10000 + i) err).run s = .ok (freeChoice s (if err then 2 else 2 ^ 64)) := by
  unfold gettlE
  rw [run_bind_ok (run_getE s), engineCounter_timeline]
  dsimp only
  rw [Nat.add_sub_cancel_left, if_pos ⟨Nat.le_add_right _ _, hi⟩, if_pos (by simp [hok])]
  rfl

/-- Settles O20: the writes differ only in what they change; a read of a counter or a timeline is `gettlE` of its kind. -/
theorem specialWordsComplete : Obligations.SpecialWordsComplete := by
  refine ⟨fun g d r s h hp hf => ?_, fun a s h hp h1 h2 => ?_, fun a s h hp => ?_, fun a s h hp => ?_,
    fun n a s h c hp hc => ?_, fun k a s h g hp hg => ?_, fun a s h hp => ?_,
    fun a b err s t h tw hp hlt hd hs hr => ?_, fun g d a s h n hp he => gettl_completes hp (gettlE_engine he),
    fun g d a s h n hp he => ⟨(freeChoice s 2).1, Nat.mod_lt _ (by decide), gettl_completes hp (gettlE_engine_err he)⟩,
    fun g d a err s h i hp hi hlt => ⟨fun hok => ?_, fun hok => ?_⟩⟩
  · rw [completes, exec_movspr]
    refine completes_if hp rfl ?_
    rw [run_bind_ok (sprReady_runs hf)]
    rfl
  · rw [exec_wrspr]
    refine issueWord_runs hp ?_
    rw [run_bind_ok (sprReady_runs fun _ => ⟨h1, h2⟩)]
    rfl
  · rw [exec_wrspr]
    refine issueWord_runs hp ?_
    rw [run_bind_ok (sprReady_runs_of_ne (by decide))]
    rfl
  · rw [exec_wrspr]
    refine issueWord_runs hp ?_
    rw [run_bind_ok (sprReady_runs_of_ne (by decide))]
    rfl
  · rw [exec_wrspr]
    refine issueWord_runs hp ?_
    rw [run_bind_ok (sprReady_runs_of_ne (by simp)), run_bind_ok (run_getE s)]
    dsimp only
    rw [hc]
    rfl
  · rw [exec_wrspr]
    refine issueWord_runs hp ?_
    rw [run_bind_ok (sprReady_runs_of_ne (by simp)), run_bind_ok (run_getE s)]
    dsimp only
    rw [hg]
    rfl
  · rw [exec_resphase]
    exact issueWord_runs hp rfl
  · rw [exec_tlinc]
    refine issueWord_runs hp ?_
    dsimp only
    rw [run_bind_ok (run_getE s), if_neg (Nat.not_le.2 hlt), run_bind_ok (drain_runs hd), run_bind_ok (sendE_runs hs),
      run_bind_ok (run_getE s), hr]
    rfl
  · exact gettl_completes hp (hi ▸ gettlE_timeline err hlt hok)
  · exact ⟨_, gettl_completes hp (hi ▸ gettlE_timeline_free err hlt hok)⟩

end Sys2Proof
end

section
/-! # Issue, launch and placement events (O21 to O23) -/
namespace Sys2Proof
open Machine
set_option Elab.async false

/-! ## Marks, spilled paths, sleeps and waits -/

theorem popSpill_slot0 {s : State} {x : Block} {c : Nat} {y : Crew} {p : Spill} {r : List Spill}
    (hs : y.spills = p :: r)
    (h0 : y.slot0.mask = 0) :
    popSpill s x c y = { y with slot0 := poppedSlot s y (storedSpill s x c p r.length), spills := r } := by
  unfold popSpill
  rw [hs]
  dsimp only
  rw [if_pos h0]
  rfl

theorem popSpill_slot1 {s : State} {x : Block} {c : Nat} {y : Crew} {p : Spill} {r : List Spill}
    (hs : y.spills = p :: r)
    (h0 : y.slot0.mask ≠ 0) (h1 : y.slot1.mask = 0) :
    popSpill s x c y = { y with slot1 := poppedSlot s y (storedSpill s x c p r.length), spills := r } := by
  unfold popSpill
  rw [hs]
  dsimp only
  rw [if_neg h0, if_pos h1]
  rfl

theorem divergencePop_pops {b c : Nat} {s : State} {x : Block} {y : Crew} (hb : s.blocks.find b = some x)
    (hc : crewOf s b c = some y) (hh : y.handler = none) :
    exec (.divergencePop b c) s = .next (putCrew s b c (popSpill s x c y)) := by
  rw [exec_divergencePop, execDivergencePop, hb, hc]
  dsimp only
  rw [hh]
  rfl

/-- Settles O21: each event finds its slot in the state that its condition names. -/
theorem issueEventsComplete : Obligations.IssueEventsComplete := by
  refine ⟨fun r s h hr hsel ht => ?_, fun r s h hr hsel ht => ?_, fun b c s x y p r hb hc hh hs => ⟨fun h0 =>
    ?_, fun h0 h1 => ?_⟩,
    fun r s h till hr hb hs ht => ?_, fun r s h o pd dl hr hb hs hw => ?_, fun r s h o pd dl hr hb hs ht => ?_⟩
  · rw [exec_starvationIssue, execStarvationIssue, hr]
    exact if_pos (Bool.and_eq_true_iff.2 ⟨hsel, decide_eq_true ht⟩)
  · rw [exec_fairnessPrecedence, execFairnessPrecedence, hr]
    exact if_pos (Bool.and_eq_true_iff.2 ⟨hsel, decide_eq_true ht⟩)
  · rw [divergencePop_pops hb hc hh, popSpill_slot0 hs h0]
  · rw [divergencePop_pops hb hc hh, popSpill_slot1 hs h0 h1]
  · rw [exec_sleepExpiry, execSleepExpiry, slotNow, hr]
    dsimp only
    rw [hs]
    exact if_pos (by simp [hb, ht])
  · rw [exec_waitWake, execWaitWake, slotNow, hr]
    dsimp only
    rw [hs]
    exact if_pos (by simp [hb, hw])
  · rw [exec_waitTimeout, execWaitTimeout, slotNow, hr]
    dsimp only
    rw [hs]
    exact if_pos (by simp [hb, ht])

/-! ## Submissions and launches -/

/-- States that differ only in how many free values have been used. -/
def SameButFree (s u : State) : Prop := u = { s with free := u.free }

theorem sameButFree_choice (s : State) (n : Nat) : SameButFree s (freeChoice s n).2 := rfl

theorem submissionTag_same (s : State) (w : NotifyWrite) : SameButFree s (submissionTag s w).2 := by
  unfold submissionTag
  split
  · rfl
  · exact sameButFree_choice s (2 ^ 32)

theorem submissionPasid_same (s : State) (w : NotifyWrite) : SameButFree s (submissionPasid s w).2 := by
  unfold submissionPasid
  split
  · rfl
  · exact sameButFree_choice s (2 ^ 20)

theorem sameButFree_trans {s t u : State} (h : SameButFree s t) (h' : SameButFree t u) : SameButFree s u := by
  unfold SameButFree at *
  rw [h'] ; rw [h]

theorem submissionTag_whole {s : State} {w : NotifyWrite} (hl : 64 ≤ w.len) :
    (submissionTag s w).1 = BitVec.ofNat 32 (nfield w.data.toNat 480 32) := by
  rw [submissionTag, if_pos hl]

theorem submissionPasid_given {s : State} {w : NotifyWrite} {q : Nat} (hq : w.pasid = some q) :
    (submissionPasid s w).1 = q := by
  rw [submissionPasid, hq]

theorem submission_refused {w : NotifyWrite} {s : State} {k : Nat} (hp : portReady s w.port = true)
    (ho : w.off < 64 * 4096)
    (hk : submissionCode s w = some k) :
    exec (.submission w) s = .next (postQref (submissionPasid (submissionTag s w).2 w).2 (notifyQi w)
      (submissionTag s w).1
      w.off k (submissionPasid (submissionTag s w).2 w).1) := by
  rw [exec_submission, execSubmission, if_neg (by simp [hp, ho]), hk]

theorem submission_queued {w : NotifyWrite} {s : State} (hp : portReady s w.port = true) (ho : w.off < 64 * 4096)
    (hk : submissionCode s w = none) :
    exec (.submission w) s = .next (later (setQi { s with nextId := s.nextId + 1 } (notifyQi w) { qiOf s
      (notifyQi w) with
      queue := (qiOf s (notifyQi w)).queue ++ [⟨w.data, w.pasid.getD 0, w.off, s.nextId⟩] })
      (.submissionDecode (notifyQi w))) := by
  rw [exec_submission, execSubmission, if_neg (by simp [hp, ho]), hk]
  rfl

theorem completeGrid_unsignalled {s : State} {id : Nat} {l : Launch} (hs : l.sigIdx = 0xFFFF) :
    completeGrid s id l = doneLaunch s id := by
  rw [completeGrid, if_pos hs]

theorem completeGrid_signals {s t : State} {id tw : Nat} {l : Launch} (hs : l.sigIdx ≠ 0xFFFF)
    (ha : agentSlot s (islandAgent l.die) l.die (tlAddr s l.ctx l.sigIdx) = true)
    (hr : raiseTl s l.ctx l.sigIdx l.sigVal l.error (max s.clock l.relTw) .device .dev = .done tw t) :
    completeGrid s id l = doneLaunch (signalSent t id l) id := by
  rw [completeGrid, if_neg hs, if_neg (by simp [ha]), hr]

/-- Settles O22: a submission, its decode, its acceptance, its start and the end of its grid. -/
theorem launchEventsComplete : Obligations.LaunchEventsComplete := by
  refine ⟨fun w s hp ho => ⟨fun hk => submission_queued hp ho hk, fun k hk => ?_⟩, fun qi s x r hq hw => ⟨fun hp =>
    ?_, fun hp => ?_⟩,
    fun die s id l ho => ⟨fun k ws hc => ?_, fun code addr hc => ?_⟩,
    fun id s l hl => ⟨fun hst hr => ?_, fun hst hg => ⟨fun hs => ?_, fun tw t hs ha hr => ?_⟩⟩⟩
  · exact ⟨_, _, _, sameButFree_trans (submissionTag_same s w) (submissionPasid_same _ w), submission_refused hp ho hk,
      fun hl => submissionTag_whole hl, fun q hq => submissionPasid_given hq⟩
  · rw [exec_submissionDecode, execSubmissionDecode, hq]
    dsimp only
    rw [if_neg (by simp [hw]), if_pos (by simp [hp])]
  · rw [exec_submissionDecode, execSubmissionDecode, hq]
    dsimp only
    rw [if_neg (by simp [hw]), if_neg (by simp [hp])]
    rfl
  · rw [exec_launchAccept, execLaunchAccept, ho]
    dsimp only
    rw [hc]
  · rw [exec_launchAccept, execLaunchAccept, ho]
    dsimp only
    rw [hc]
  · rw [exec_launchStart, execLaunchStart, hl]
    dsimp only
    rw [if_pos hst, if_pos hr]
  · rw [exec_launchStart, execLaunchStart, hl]
    dsimp only
    rw [if_neg hst, if_pos hg, completeGrid_unsignalled hs]
  · rw [exec_launchStart, execLaunchStart, hl]
    dsimp only
    rw [if_neg hst, if_pos hg, completeGrid_signals hs ha hr]

/-! ## Placement and stealing -/

theorem onlyMore_if {p : Prop} [Decidable p] (s : State) (i : Instr) :
    onlyMoreToCome s (if p then laterOnce s i else s) := by
  split
  · exact onlyMore_once s i
  · exact onlyMore_refl s

theorem blockPlace_places {die : Fin 4} {s : State} {id : Nat} {l : Launch} {rs : List Room} {plan : List MoorRec}
    (hc : placeCandidate s die.val = some (id, l, rs)) (hb : savedBefore s die.val l = false)
    (hp : planOf s die.val l.ctx l.kern = .ok plan)
    (hd : dropsWait s (placeFleet s die.val id l plan rs) (rs.map (·.core)) = none) :
    ∃ t, exec (.blockPlace die) s = .next t ∧ onlyMoreToCome (placeFleet s die.val id l plan rs) t := by
  rw [exec_blockPlace, execBlockPlace, hc]
  dsimp only
  rw [if_neg (by simp [hb]), hp]
  dsimp only
  rw [hd]
  exact ⟨_, rfl, onlyMore_if ..⟩

theorem blockPlace_starves {die : Fin 4} {s : State} (hc : placeCandidate s die.val = none) :
    ∃ t, exec (.blockPlace die) s = .next t ∧ onlyMoreToCome (s.launches.foldl (beginSteal die.val) s) t := by
  rw [exec_blockPlace, execBlockPlace, hc]
  refine ⟨_, rfl, onlyMore_trans (onlyMore_once _ (.preempt die)) ?_⟩
  dsimp only
  exact onlyMore_if _ _

/-- Settles O23: the first candidate is placed, or the dry die asks; each message of stealing acts on its launch. -/
theorem placementEventsComplete : Obligations.PlacementEventsComplete := by
  refine ⟨fun die s => ⟨fun id l rs plan hc hb hp hd => blockPlace_places hc hb hp hd, fun hc => blockPlace_starves hc⟩,
    fun n s m hm hcut => ?_, fun thief launch s n t0 victim l0 l hm hl => ⟨fun hk => ?_, fun hk => ?_⟩,
    fun thief launch s n t0 l0 give l hm hl => ?_, fun thief launch s n m l hm hl => ?_⟩
  · rw [exec_controlMessage, execControlMessage, hm, if_neg (by simp [hcut])]
    cases m <;> rfl
  · rw [exec_stealq, execStealq, hm, hl]
    exact if_pos hk
  · rw [exec_stealq, execStealq, hm, hl]
    exact if_neg hk
  · rw [exec_stealg, execStealg, hm, hl]
  · rw [exec_stealn, execStealn, hm, hl]

end Sys2Proof
end

section
/-! # Saves, retirements and faults (O24 to O26) -/
namespace Sys2Proof
open Machine
set_option Elab.async false

/-! ## Pre-emption and the causes of a save -/

/-- One of the sets is taken: the first when there is no choice, else a free one. -/
theorem preempt_takes {die : Fin 4} {s : State} {xs : List (List Nat × List Nat)} (hpool : poolFree s ≠ none)
    (hd : dieSaving s die.val = false) (hx : preemptFor s die.val = some xs) (hne : xs ≠ []) :
    ∃ x ∈ xs, ∃ u, SameButFree s u ∧ exec (.preempt die) s = .next (x.2.foldl preemptBlock u) := by
  have hlen : 0 < xs.length := List.length_pos_iff.2 hne
  rw [exec_preempt, execPreempt, if_neg (by simpa using hpool), if_neg (by simp [hd]), hx]
  dsimp only
  by_cases h1 : xs.length ≤ 1
  · rw [if_pos h1]
    refine ⟨xs[0], List.getElem_mem hlen, s, rfl, ?_⟩
    rw [List.getElem?_eq_getElem hlen]
  · have hk : (freeChoice s xs.length).1 < xs.length := Nat.mod_lt _ hlen
    rw [if_neg h1]
    refine ⟨xs[(freeChoice s xs.length).1], List.getElem_mem hk, _, sameButFree_choice s xs.length, ?_⟩
    rw [List.getElem?_eq_getElem hk]

theorem parkDue_of {s : State} {b t : Nat} {x : Block} (ht : x.parkedSince = some t) (hst : x.st = .running)
    (hl : launchLive s x.launch = true) (hn : noneHalted s b = true) (hp : poolFree s ≠ none)
    (hr : ∀ e ∈ slotsOf x, parkedRoom s e.2.2 = false) : parkDue s b x = some (t + 2048) := by
  have hany : (slotsOf x).any (fun e => parkedRoom s e.2.2) = false := by simpa using hr
  rw [parkDue, hst, hl, hn, Option.isSome_iff_ne_none.2 hp, hany, ht]
  rfl

theorem outsideDue_of {s : State} {b t : Nat} {x : Block} (ht : x.outsideSince = some t)
    (hl : launchLive s x.launch = true)
    (ho : outsideHolds s b x = true) (hp : poolFree s ≠ none) : outsideDue s b x = some (t + 65536) := by
  rw [outsideDue, ht, hl, ho, Option.isSome_iff_ne_none.2 hp]
  rfl

theorem isDue_some {s : State} {t : Nat} (ht : t ≤ s.clock) : isDue s (some t) = true := decide_eq_true ht

/-! ## The end of a save, and restores -/

theorem saveComplete_completes {b slot : Nat} {s : State} {x y z : Block} (hb : s.blocks.find b = some x)
    (hst : x.st = .saving)
    (hl : launchLive s x.launch = true) (hq : saveQuiet s b x = true)
    (hf : ∀ e ∈ ownedEntries (parkBlock s b) b x.core, unflushed (parkBlock s b) x.core e.1 = false)
    (hy : (parkBlock s b).blocks.find b = some y) (hh : saveHeld (parkBlock s b) y = false)
    (hp : poolFree (parkBlock s b) = some slot) (hz : blockToSave (parkBlock s b) y = .ok z) :
    exec (.saveComplete b) s = .next (completeSave (parkBlock s b) b slot z) := by
  have hany : ((ownedEntries (parkBlock s b) b x.core).map (·.1)).any (unflushed (parkBlock s b) x.core) = false := by
    simpa using hf
  rw [exec_saveComplete, execSaveComplete, hb]
  dsimp only
  rw [if_neg (by simp [hst, hl]), if_neg (by simp [hq]), if_neg (by simp [hany]), hy]
  dsimp only
  rw [if_neg (by simp [hh]), hp, hz]

/-- A live block that is not being restored, at its restore. -/
theorem blockRestore_saved {b : Nat} {s : State} {x : Block} (hb : s.blocks.find b = some x) (hst : x.st = .saved)
    (hl : launchLive s x.launch = true) (hc : causesMet s b x = true) (hn : x.placeable = none) :
    exec (.blockRestore b) s = .next (later
      (setBlock { s with nextId := s.nextId + 1 } b { x with placeable := some s.nextId }) (.blockRestore b)) := by
  rw [exec_blockRestore, execBlockRestore, hb]
  dsimp only
  rw [if_neg (by simp [hl]), if_neg (by simp [hst]), if_neg (by simp [hst]), if_pos (by simp [hn]), if_pos hc]
  rfl

theorem blockRestore_bad {b : Nat} {s : State} {x : Block} {ms : List (Nat × Block)} {rs : List (Nat × Room)}
    {e : Nat × Block}
    (hb : s.blocks.find b = some x) (hst : x.st = .saved) (hl : launchLive s x.launch = true) (hn : x.placeable ≠ none)
    (hr : restoreNow s b x = some (ms, rs)) (he : (ms.find? fun e => !imageGood s e.1 e.2
      (readImage s e.1 e.2)) = some e) :
    exec (.blockRestore b) s = .next (dockBad s e.1 e.2 ((rs.headD (b, ⟨[], 0, 0⟩)).2.core)) := by
  rw [exec_blockRestore, execBlockRestore, hb]
  dsimp only
  rw [if_neg (by simp [hl]), if_neg (by simp [hst]), if_neg (by simp [hst]), if_neg (by simp [hn]), hr]
  dsimp only
  rw [he]

theorem blockRestore_good {b : Nat} {s : State} {x : Block} {ms : List (Nat × Block)} {rs : List (Nat × Room)}
    {plans : List (List MoorRec)} {mv : List Moved} (hmv : mv = rs.filterMap fun p => (s.blocks.find p.1).map fun y =>
      (⟨y.core, y.base, y.kern.stash, p.2.core, p.2.base⟩ : Moved))
    (hb : s.blocks.find b = some x) (hst : x.st = .saved) (hl : launchLive s x.launch = true) (hn : x.placeable ≠ none)
    (hr : restoreNow s b x = some (ms, rs)) (he : ∀ e ∈ ms, imageGood s e.1 e.2 (readImage s e.1 e.2) = true)
    (hp : rs.mapM (restorePlan s) = .ok plans)
    (hd : dropsWait s (wakeDies ((rs.zip plans).foldl (restoreBlock mv) s)) (rs.map fun q => q.2.core) = none) :
    exec (.blockRestore b) s = .next (wakeDies ((rs.zip plans).foldl (restoreBlock mv) s)) := by
  have hf : (ms.find? fun e => !imageGood s e.1 e.2 (readImage s e.1 e.2)) = none :=
    List.find?_eq_none.2 fun e hm => by simp [he e hm]
  subst hmv
  rw [exec_blockRestore, execBlockRestore, hb]
  dsimp only
  rw [if_neg (by simp [hl]), if_neg (by simp [hst]), if_neg (by simp [hst]), if_neg (by simp [hn]), hr]
  dsimp only
  rw [hf]
  dsimp only
  rw [hp]
  dsimp only
  rw [hd]
  rfl

theorem blockRestore_restoring {b : Nat} {s : State} {x : Block} (hb : s.blocks.find b = some x)
    (hst : x.st = .restoring)
    (hl : launchLive s x.launch = true) : exec (.blockRestore b) s = .next (finishRestore s b x) := by
  rw [exec_blockRestore, execBlockRestore, hb]
  dsimp only
  rw [if_neg (by simp [hl]), if_pos hst]

theorem noRequest {s : State} {b : Nat} (hq : ∀ e ∈ s.reqs, e.2.blk ≠ b) :
    ¬ (s.reqs.any fun e => e.2.blk == b) = true := by
  simpa using fun k r hm => hq (k, r) hm

theorem finishRestore_resumes {s : State} {b : Nat} {x : Block} (hq : ∀ e ∈ s.reqs, e.2.blk ≠ b)
    (hn : shedding s b x = none) :
    finishRestore s b x = resumeBlock s b := by
  rw [finishRestore, if_neg (noRequest hq), hn]

theorem finishRestore_writesOut {s : State} {b c : Nat} {x : Block} (hq : ∀ e ∈ s.reqs, e.2.blk ≠ b)
    (hc : shedding s b x = some c) : finishRestore s b x = later (writeOutStep s b c) (.blockRestore b) := by
  rw [finishRestore, if_neg (noRequest hq), hc]

/-- Settles O24: what begins a save, what ends one, and each step of a restore. -/
theorem saveEventsComplete : Obligations.SaveEventsComplete := by
  refine ⟨fun die s xs hpool hd hx hne => preempt_takes hpool hd hx hne, fun b s x t hb ht hst hh hor => ?_,
    fun b s x t w hb ht hst hl hdue hn hp hr hw => ?_, fun b s x t hb ht hl ho hdue hp => ?_,
    fun b s x y z slot hb hst hl hq hf hy hh hp hz => saveComplete_completes hb hst hl hq hf hy hh hp hz,
    fun b s x hb hst hl hq => ⟨fun hn => ?_, fun c hc => ?_⟩,
    fun b s x hb hst hl => ⟨fun hn hc => blockRestore_saved hb hst hl hc hn, fun ms rs hn hr =>
      ⟨fun e he => blockRestore_bad hb hst hl hn hr he, fun plans he hp hd =>
        blockRestore_good rfl hb hst hl hn hr he hp hd⟩⟩⟩
  · rw [exec_checkpointWindowExpiry, execCheckpointWindowExpiry, hb]
    dsimp only
    rw [ht]
    dsimp only
    rw [if_neg (by simp [hst]), if_neg (by simp [hst]), if_pos ⟨by simp [hh], hor⟩]
  · rw [exec_parkSaveTimeout, execParkSaveTimeout, hb]
    dsimp only
    rw [parkDue_of ht hst hl hn hp hr, if_pos (isDue_some hdue), hw]
  · rw [exec_outsideWaitSave, execOutsideWaitSave, hb]
    dsimp only
    rw [outsideDue_of ht hl ho hp, if_pos (isDue_some hdue)]
  · rw [blockRestore_restoring hb hst hl, finishRestore_resumes hq hn]
  · rw [blockRestore_restoring hb hst hl, finishRestore_writesOut hq hc]

/-! ## Retirements, slipways and parked slots -/

/-- What an ended grid may retire still holds its core, and a saved block does not. -/
theorem notSaved_of_mayRetire {s : State} {b : Nat} {x : Block} (hr : mayRetire s b x = true) :
    ¬ ((!launchLive s x.launch) = true ∧ x.st = .saved) := by
  rintro ⟨hl, hst⟩
  rw [mayRetire, if_pos hl, holdsCore, hst] at hr
  exact absurd hr (by simp)

/-- Settles O25: a block retires, a slipway launches its batch, a parked slot emits. -/
theorem retireEventsComplete : Obligations.RetireEventsComplete := by
  refine ⟨fun b s x hb hr hf => ?_, fun i s w hw hk => ?_, fun i s w hw hu hd => ?_,
    fun r s t h i reg tw left rest w hr hst hb hw he hem => ?_⟩
  · have hany : (wbpEntries s b x.core).any (unflushed s x.core) = false := by simpa using hf
    rw [exec_blockRetire, execBlockRetire, hb]
    dsimp only
    rw [if_neg (notSaved_of_mayRetire hr), if_pos hr, if_neg (by simp [hany])]
  · rw [exec_slipwayBatchLaunch, execSlipwayBatchLaunch, hw]
    exact if_pos hk
  · rw [exec_slipwayFlush, execSlipwayFlush, hw]
    dsimp only
    rw [if_neg hu, if_pos hd]
  · rw [exec_remitUnpark, execRemitUnpark, hr]
    dsimp only
    rw [hst]
    dsimp only
    rw [if_neg (by simp [hb]), hw]
    dsimp only
    rw [if_neg (by simpa using he), hem]
    dsimp only
    split <;> rfl

/-! ## Store faults, the fault ring, verdicts and halts -/

theorem verdict_heard {t : Nat} {s : State} (hm : moduleReady s = true) (ht : t ≠ 0) :
    ¬ (t = 0 ∨ moduleReady s = false) := by
  simp [hm, ht]

/-- Settles O26: a store's fault, the record's way into the ring, the verdicts on its token, and a halt. -/
theorem faultEventsComplete : Obligations.FaultEventsComplete := by
  refine ⟨fun q s r x hq hb hst ht => ⟨fun hl => ?_, fun hl => ?_⟩, fun die s t r q hw hen hfull hslot hring => ?_,
    fun token s hm => ⟨fun h0 hn => ⟨?_, ?_, ?_⟩, fun h0 b hf => ?_, fun h0 c hf => ?_, fun h0 b hf => ⟨?_, ?_⟩,
      fun h0 b hf => ?_, fun h0 w l hf hl => ?_⟩, fun b s x h hb hh hst hl hp hc => ?_⟩
  · rw [exec_storeFault, execStoreFault, hq]
    dsimp only
    rw [hb]
    dsimp only
    rw [if_neg (by simp [hst]), if_neg (by simp [hl]), if_neg (by simp [ht])]
  · rw [exec_storeFault, execStoreFault, hq]
    dsimp only
    rw [hb]
    dsimp only
    rw [if_neg (by simp [hst]), if_pos (by simp [hl]), if_neg (by simp [ht])]
  · rw [exec_faultRecordWrite, execFaultRecordWrite, hw]
    dsimp only
    rw [if_neg (by simp [hen, hfull]), if_neg (by simp [hslot]), hring]
  · rw [exec_fqackReplay, execFqackReplay, if_neg (verdict_heard hm h0), hn]
  · rw [exec_fqackKill, execFqackKill, if_neg (verdict_heard hm h0), hn]
  · rw [exec_fqackDock, execFqackDock, if_neg (verdict_heard hm h0), hn]
  · rw [exec_fqackReplay, execFqackReplay, if_neg (verdict_heard hm h0), hf]
  · rw [exec_fqackReplay, execFqackReplay, if_neg (verdict_heard hm h0), hf]
  · rw [exec_fqackReplay, execFqackReplay, if_neg (verdict_heard hm h0), hf]
  · rw [exec_fqackDock, execFqackDock, if_neg (verdict_heard hm h0), hf]
  · rw [exec_fqackReplay, execFqackReplay, if_neg (verdict_heard hm h0), hf]
  · rw [exec_fqackKill, execFqackKill, if_neg (verdict_heard hm h0), hf]
    dsimp only
    rw [hl]
  · rw [exec_haltComplete, execHaltComplete, hb]
    dsimp only
    rw [hh]
    dsimp only
    rw [if_neg (by simp [hst, hl]), if_neg (by simp [hp, hc])]

end Sys2Proof
end

section
/-! # Requests, coherence and dies (O27 to O29) -/
namespace Sys2Proof
open Machine
set_option Elab.async false

/-! ## Requests -/

/-- A request that is injected, and not answered too late, reaches what its kind does. -/
theorem homeSlice_reaches {q : Nat} {s : State} {r : Req} (hq : s.reqs.find q = some r) (hst : r.st = .injected)
    (hl : r.homed = true → lateReq s r = false) : exec (.homeSliceRequest q) s = .next (match r.kind with
      | .store va gs a tw => homeStore s q r va gs a tw
      | .load ps bytes f ac acq => homeLoad s q r ⟨ps, bytes, f, ac, acq⟩
      | .red ps tw => homeRed s q r ps tw) := by
  have hlate : ¬ (r.homed && lateReq s r) = true := by
    cases hh : r.homed with
    | false => simp
    | true => simp [hl hh]
  rw [exec_homeSliceRequest, execHomeSliceRequest, hq]
  dsimp only
  rw [if_neg (not_not.2 hst), if_neg hlate]
  cases r.kind <;> rfl

theorem elsewhere_here {s : State} {q : Nat} {r : Req} {pa : Nat} (hd : sliceOf pa = r.dest) :
    elsewhere s q r pa = none := by
  rw [elsewhere, if_pos hd]

section
variable {q k : Nat} {s s0 t : State} {r : Req}

theorem homeStore_stash {va tw : Nat} {gs : List (List (Nat × Byte))} {a : Attr} (hk : pickOne s gs.length = (k, s0))
    (hs : isStashPa ((gs.getD k []).headD (0, 0)).1 = true) :
    homeStore s q r va gs a tw = stashGroup s0 q r va gs a tw k := by
  rw [homeStore, hk]
  dsimp only
  rw [if_pos hs]

theorem homeStore_home {va tw pa : Nat} {gs : List (List (Nat × Byte))} {a : Attr} (hk : pickOne s gs.length = (k, s0))
    (hpa : pa = ((gs.getD k []).headD (0, 0)).1) (hs : isStashPa pa = false) (hr : isRemote pa = false)
    (hv : versioned s0 (lineNo pa) = false) (hg : grab s0 (lineNo pa) none true = (true, t))
    (hp : poisoned t (lineNo pa) = false) : homeStore s q r va gs a tw = storeGroup t q r va gs a tw k := by
  subst hpa
  rw [homeStore, hk]
  dsimp only
  rw [if_neg (Bool.eq_false_iff.1 hs), if_neg (Bool.eq_false_iff.1 hr), if_neg (Bool.eq_false_iff.1 hv), hg]
  dsimp only
  rw [if_neg (Bool.eq_false_iff.1 hp)]

theorem homeLoad_stash {x : LoadRest} {p : Piece} (hk : pickOne s x.pieces.length = (k, s0))
    (hp : x.pieces[k]? = some p)
    (hs : isStashPa p.pa = true) : homeLoad s q r x = stashPiece s0 q r x k p := by
  rw [homeLoad, hk]
  dsimp only
  rw [hp]
  dsimp only
  rw [if_pos hs]

theorem homeLoad_home {x : LoadRest} {p : Piece} (hk : pickOne s x.pieces.length = (k, s0)) (hp : x.pieces[k]? = some p)
    (hs : isStashPa p.pa = false) (hd : sliceOf p.pa = r.dest) (hr : isRemote p.pa = false) :
    homeLoad s q r x = homePiece s0 q r x k p := by
  rw [homeLoad, hk]
  dsimp only
  rw [hp]
  dsimp only
  rw [if_neg (by simp [hs]), elsewhere_here hd]
  exact if_neg (by simp [hr])

theorem homePiece_copied {x : LoadRest} {p : Piece} {c : LeaseLine} (hc : pieceCopy s0 r p = some c) :
    homePiece s0 q r x k p =
      takePiece s0 q r x k p ((c.data.drop (p.pa % 128)).take p.n) (copyMarks c (p.pa % 128) p.n) [lineNo p.pa] := by
  rw [homePiece, hc]

theorem homeRed_stash {ps : List RedPiece} {tw i : Nat} {p : RedPiece} (hi : pickOne s (redNext ps).length = (i, s0))
    (hk : (redNext ps).getD i 0 = k) (hp : ps[k]? = some p) (hs : isStashPa p.pa = true) :
    homeRed s q r ps tw = redDone s0 q r ps tw k p (.stash (.stash (stashPaCore p.pa) (stashPaOff p.pa))) := by
  subst hk
  rw [homeRed, hi]
  dsimp only
  rw [hp]
  dsimp only
  rw [if_pos hs]

theorem homeRed_home {ps : List RedPiece} {tw i : Nat} {p : RedPiece} (hi : pickOne s (redNext ps).length = (i, s0))
    (hk : (redNext ps).getD i 0 = k) (hp : ps[k]? = some p) (hs : isStashPa p.pa = false) (hd : sliceOf p.pa = r.dest)
    (hr : isRemote p.pa = false) : homeRed s q r ps tw = redHome s0 q r ps tw k p := by
  subst hk
  rw [homeRed, hi]
  dsimp only
  rw [hp]
  dsimp only
  rw [if_neg (by simp [hs]), elsewhere_here hd]
  exact if_neg (by simp [hr])

theorem redHome_done {ps : List RedPiece} {tw : Nat} {p : RedPiece} (hc : p.attr.hc = false)
    (hv : versioned s0 (lineNo p.pa) = false) (hg : grab s0 (lineNo p.pa) none true = (true, t))
    (hp : poisoned t (lineNo p.pa) = false) : redHome s0 q r ps tw k p = redDone t q r ps tw k p (.home p.pa p.attr) := by
  rw [redHome]
  rw [if_neg (by simp [hv]), hg]
  dsimp only
  rw [if_neg (by simp [hp]), if_neg (by simp [hc])]

end

/-- Settles O27: a request's injection, what its home does with each kind, and its reply. -/
theorem requestEventsComplete : Obligations.RequestEventsComplete := by
  refine ⟨fun q s t r hq hst hm hslot hf hc hcl => ?_,
    fun q s s0 t r va k gs a tw hq hst hl hk hpick => ⟨fun hs => ?_, fun hs hr hv hg hp => ?_⟩,
    fun q s s0 r p ps k got f ac acq hq hst hl hk hpick hp => ⟨fun t hs ht => ?_, fun hs hd hr => ⟨fun c hc =>
      ?_, fun t hc hg hpo => ?_⟩⟩,
    fun q s s0 t r ps tw i k p hq hst hl hk hpick hi hp => ⟨fun hs => ?_, fun hs hd hr hc hv hg hpo => ?_⟩,
    fun q s r hq hst => ⟨fun hh => ?_, fun hh hl hc => ?_⟩⟩
  · rw [exec_requestInject, execRequestInject, hq]
    dsimp only
    rw [if_neg (not_not.2 hst), if_neg (by simp [hm, hslot, hf, hc]), hcl]
  · rw [homeSlice_reaches hq hst hl, hk]
    dsimp only
    rw [homeStore_stash hpick hs]
  · rw [homeSlice_reaches hq hst hl, hk]
    dsimp only
    rw [homeStore_home hpick rfl hs hr hv hg hp]
  · rw [homeSlice_reaches hq hst hl, hk]
    dsimp only
    rw [homeLoad_stash hpick hp hs, stashPiece]
    rw [touchReq]
    have : (0 == 1) = false := rfl
    rw [this, ht]
  · rw [homeSlice_reaches hq hst hl, hk]
    dsimp only
    rw [homeLoad_home hpick hp hs hd hr, homePiece_copied hc]
  · rw [homeSlice_reaches hq hst hl, hk]
    dsimp only
    rw [homeLoad_home hpick hp hs hd hr, homePiece, hc]
    dsimp only
    rw [hg]
    dsimp only
    rw [if_neg (by simp [hpo])]
  · rw [homeSlice_reaches hq hst hl, hk]
    dsimp only
    rw [homeRed_stash hpick hi hp hs]
  · rw [homeSlice_reaches hq hst hl, hk]
    dsimp only
    rw [homeRed_home hpick hi hp hs hd hr, redHome_done hc hv hg hpo]
  · rw [exec_replySink, execReplySink, hq]
    dsimp only
    rw [if_neg (not_not.2 hst), if_pos (by simp [hh])]
  · rw [exec_replySink, execReplySink, hq]
    dsimp only
    rw [if_neg (not_not.2 hst), if_neg (by simp [hh]), if_neg (by simp [hl]), if_neg (by simp [hc])]

/-! ## Probes, fills, write-backs and walks -/

theorem walkComplete_reads {n : Nat} {s : State} {w : Walk} (hw : s.walks.find n = some w)
    (hb : walksBefore s n w.die < Config.walksInFlight) (hr : walkRefused s w = none) :
    exec (.walkComplete n) s = .next (match walkTables s w.die w.ctx w.va with
      | .ok t => walkFound (walkPaid s w) n w t
      | .error (.held g) => later (grab s g none false).2 (.walkComplete n)
      | .error (.cut _) => later s (.walkComplete n)
      | .error (.page l) => walkFailed (walkPaid s w) n w .pagef l id
      | .error (.poison _) => walkFailed (walkPaid s w) n w .poison 0 fun _ => 6) := by
  rw [exec_walkComplete, execWalkComplete, hw]
  dsimp only
  rw [if_neg (Nat.not_le.2 hb), hr]
  dsimp only
  rcases walkTables s w.die w.ctx w.va with (_ | _ | _ | _) | _ <;> rfl

/-- Settles O28: each event of a line meets the state its condition names. -/
theorem coherenceEventsComplete : Obligations.CoherenceEventsComplete := by
  refine ⟨fun core line inval s => ?_, fun agent line s hst hp hd => ⟨fun hn => ?_, fun hn => ?_⟩,
    fun core e l s m hm hst hk => ?_, fun core e l s m hm hst hk hf => ?_, fun core e l s hst hv => ?_,
    fun n s w hw hb hr => ⟨fun t ht => ?_, fun l ht => ?_, fun g ht => ?_⟩⟩
  · rw [exec_probe, execProbe]
    split
    · rfl
    · split <;> rfl
  · rw [exec_probeTimeout, execProbeTimeout]
    dsimp only
    rw [if_neg (by simp [hst, hp]), if_neg (Nat.not_lt.2 hd), if_pos hn]
  · rw [exec_probeTimeout, execProbeTimeout]
    rw [if_neg (by simp [hst, hp]), if_neg (Nat.not_lt.2 hd), if_neg (Nat.not_lt.2 hn)]
  · rw [exec_mooringFillLand, execMooringFillLand, hm]
    dsimp only
    rw [if_pos hst, if_pos (.inl hk), hk]
  · rw [exec_mooringFillLand, execMooringFillLand, hm]
    dsimp only
    rw [if_neg (by simp [hst]), if_pos ⟨hst, hk⟩, if_neg (by simp [hf])]
  · have hany : (mlineHomes (mlineOf s core e l)).any (versioned s) = false := by simpa using hv
    rw [exec_writebackAck, execWritebackAck]
    rw [if_neg (not_not.2 hst), if_neg (by simp [hany])]
  · rw [walkComplete_reads hw hb hr, ht]
  · rw [walkComplete_reads hw hb hr, ht]
  · rw [walkComplete_reads hw hb hr, ht]

/-! ## Schedules, phases, links, cores and scrubs -/

theorem evslLoadDone_loads {die : Fin 4} {s : State} {pa : Nat} (hl : (dieOf s die.val).loading = some pa)
    (ha : ∀ a ∈ [pa, pa + 71], (lineOf s (lineNo a)).st ≠ .busy ∧ agentSlot s (islandAgent die.val) die.val a = true) :
    exec (.evslLoadDone die) s = .next (loadSchedule
      ([pa, pa + 71].foldl (fun u a => exchange u die.val (homeDie a) none) s) die.val) := by
  have hb : [pa, pa + 71].any (fun a => (lineOf s (lineNo a)).st == .busy) = false := by
    rw [List.any_eq_false]
    exact fun a hm => by simp [(ha a hm).1]
  have hs : [pa, pa + 71].any (fun a => !agentSlot s (islandAgent die.val) die.val a) = false := by
    rw [List.any_eq_false]
    exact fun a hm => by simp [(ha a hm).2]
  rw [exec_evslLoadDone, execEvslLoadDone, hl]
  dsimp only
  rw [if_neg (by simp only [hb, hs]; decide)]

theorem ucieLinkFailure_fails (l : UcieLink) (s : State) : ∃ t, exec (.ucieLinkFailure l) s = .next t ∧
    t = { s with linksDown := t.linksDown } ∧ ∀ k, k ∈ t.linksDown ↔ k = l ∨ k ∈ s.linksDown := by
  rw [exec_ucieLinkFailure, execUcieLinkFailure]
  refine ⟨_, rfl, ?_⟩
  by_cases hc : s.linksDown.contains l = true
  · rw [if_pos hc]
    refine ⟨rfl, fun k => ⟨.inr, ?_⟩⟩
    rintro (rfl | hk)
    · simpa using hc
    · exact hk
  · rw [if_neg hc]
    exact ⟨rfl, fun k => List.mem_cons⟩

/-- Settles O29: each event of a die meets the state its condition names. -/
theorem dieEventsComplete : Obligations.DieEventsComplete := by
  refine ⟨fun die v s hm => ?_, fun die s pa hl ha => evslLoadDone_loads hl ha, fun die ws s w hw => ?_,
    fun l s => ucieLinkFailure_fails l s, fun core s hc hh => ?_, fun line s => ⟨?_, fun hb => ?_⟩⟩
  · rw [exec_evslLoad, execEvslLoad, if_neg (by simp [hm])]
  · rw [exec_evphWrite, execEvphWrite, hw]
  · rw [exec_corePowerGating, execCorePowerGating, if_pos (by simp [hc, hh])]
  · rw [exec_patrolScrub, execPatrolScrub]
    rfl
  · rw [exec_patrolScrub, execPatrolScrub]
    exact if_neg hb

end Sys2Proof
end

section
/-! # Engines and matrix units (O30, O31) -/
namespace Sys2Proof
open Machine
set_option Elab.async false

/-! ## Copies, messages and armatures -/

/-- When every rank that waits to be tried again is due, each is delivered again and none waits on. -/
theorem retryMsg_allDue {id : Nat} {s : State} {g : Msg} (hg : s.msgs.find id = some g)
    (hd : ∀ e ∈ g.retry, e.2 ≠ 0 ∧ e.2 ≤ s.clock) :
    retryMsg s id = g.retry.foldl (fun s e => later s (.sendDelivery id e.1))
      { s with msgs := s.msgs.put id { g with retry := g.retry.map fun e => (e.1, 0) } } := by
  have hdue : (g.retry.filter fun e => e.2 != 0 && decide (e.2 ≤ s.clock)) = g.retry :=
    List.filter_eq_self.2 fun e he => by simp [hd e he]
  have hmap : (g.retry.map fun e => if g.retry.contains e then (e.1, 0) else e) = g.retry.map fun e => (e.1, 0) :=
    List.map_congr_left fun e he => if_pos (List.contains_iff_mem.2 he)
  have hnone : (g.retry.any fun e => e.2 != 0 && !g.retry.contains e) = false :=
    List.any_eq_false.2 fun e he => by simp [he]
  rw [retryMsg, hg]
  dsimp only
  rw [hdue, hmap, hnone]
  rfl

/-- Settles O30: each step of an engine follows from what its piece, its delivery or its input does. -/
theorem engineEventsComplete : Obligations.EngineEventsComplete := by
  refine ⟨fun id piece s t c c1 blk hc hb hr hl => ?_, fun id rank s t g src d hg hb hm ht hd => ?_,
    fun id s => by rw [exec_sendRetry, execSendRetry], fun id s => by rw [exec_mcastBranchRetry, execMcastBranchRetry],
    fun id s g hg hd => retryMsg_allDue hg hd, fun id s i a hi hin ha => ?_, fun n s a t ha ht hc => ?_⟩
  · rw [exec_copyLineLand, execCopyLineLand, hc]
    dsimp only
    rw [hb]
    dsimp only
    rw [if_neg (by simp [hr]), hl]
  · rw [exec_sendDelivery, execSendDelivery, hg]
    dsimp only
    rw [hb]
    dsimp only
    rw [if_neg (by simp [hm]), if_neg (by simp [ht]), hd]
    cases d <;> rfl
  · rw [exec_armatureInput, execArmatureInput, hi]
    dsimp only
    rw [if_neg (by simp [hin]), ha]
  · rw [exec_armatureTimeout, execArmatureTimeout, ha]
    dsimp only
    rw [ht]
    exact if_neg (Nat.not_lt.2 hc)

/-! ## The matrix units -/

/-- A step of a unit whose block is there and whose bytes answer. -/
theorem unitStep_done {s t : State} {e : MatEntry} {again : Instr} {act : Block → EngM Unit} {k : State → State}
    {blk : Block}
    (hb : s.blocks.find e.blk = some blk) (hr : (act blk).run s = .ok ((), t)) :
    unitStep s e again act k = .next (k (dropWalkEnd t)) := by
  rw [unitStep, hb]
  dsimp only
  rw [hr]

theorem someEntry {es : List MatEntry} {p : MatEntry → Bool} (h : es.any p = true) : ¬ (!es.any p) = true := by
  simp only [h]
  decide

/-- Settles O31: the first entry that may take a step takes it. -/
theorem matrixEventsComplete : Obligations.MatrixEventsComplete := by
  refine ⟨fun core part s t i e hf ha hc hp =>
    ?_, fun core part s t i e blk tile af zpm kh rows t0 bg hf ha ho hb hr => ?_,
    fun core part s t i e blk off st wf hf ha ho hb hr => ?_, fun core part s i e book hf ha ho => ?_,
    fun core part s i e d hf ha ho => ?_,
    fun core part s i e hf ha => ⟨fun ho => ?_, fun t ho => ?_, fun t col w d m ho => ?_,
      fun t off st vec sc zpe f m cp blk c u ho hb hr => ?_⟩,
    fun core part s t i e blk t0 off st vec sc zpe f m c hf ha ho hb hr => ?_⟩
  · rw [exec_matrixPassStart, execMatrixPassStart]
    dsimp only
    rw [if_neg (someEntry ha), hf]
    dsimp only
    rw [if_neg (by simp [hc]), hp]
    rfl
  · rw [exec_matrixPassDone, execMatrixPassDone]
    rw [if_neg (someEntry ha), hf]
    dsimp only
    rw [ho]
    exact unitStep_done hb hr
  · rw [exec_mldwDone, execMldwDone]
    dsimp only
    rw [if_neg (someEntry ha), hf]
    dsimp only
    rw [ho]
    exact unitStep_done hb hr
  · rw [exec_mldwDone, execMldwDone]
    dsimp only
    rw [if_neg (someEntry ha), hf]
    dsimp only
    rw [ho]
  · rw [exec_mswapPoint, execMswapPoint]
    dsimp only
    rw [if_neg (someEntry ha), hf]
    dsimp only
    rw [ho]
  · rw [exec_tileOpPoint, execTileOpPoint]
    dsimp only
    rw [if_neg (someEntry ha), hf]
    dsimp only
    rw [ho]
  · rw [exec_tileOpPoint, execTileOpPoint]
    dsimp only
    rw [if_neg (someEntry ha), hf]
    dsimp only
    rw [ho]
  · rw [exec_tileOpPoint, execTileOpPoint]
    dsimp only
    rw [if_neg (someEntry ha), hf]
    dsimp only
    rw [ho]
  · rw [exec_tileOpPoint, execTileOpPoint]
    dsimp only
    rw [if_neg (someEntry ha), hf]
    dsimp only
    rw [ho]
    dsimp only
    rw [hb]
    dsimp only
    rw [hr]
  · rw [exec_mstDone, execMstDone]
    rw [if_neg (someEntry ha), hf]
    dsimp only
    rw [ho]
    exact unitStep_done hb hr

end Sys2Proof
end

section
/-! # Capsule records, queue interfaces and hosts (O32 to O34) -/
namespace Sys2Proof
open Machine
set_option Elab.async false

/-! ## What a record's home does -/

theorem enter_reaches {n : Nat} {s t : State} {m : CapMsg} {w : Asker} {pa : Nat} {entry : DWord} {ks : List Word}
    {va : DWord}
    {sa : Attr} (hm : s.capMsgs.find n = some m) (hk : m.kind = .enter w pa entry ks va sa) (hl : msgLive s m = true)
    (hc : claimLines s [m.record, lineNo pa] = (true, t)) (hp : poisoned t m.record = false) :
    exec (.enter n) s = .next (if recBad t m.record then answerTrap (dropMsg t n) m w
      else if recState t m.record ≠ capFree then answerStatus (dropMsg t n) m w (recState t m.record)
      else if poisoned t (lineNo pa) then answerPoison (dropMsg t n) m w va
      else if versioned t (lineNo pa) then later t (.enter n)
      else acceptEnter (dropMsg t n) m w pa entry ks va sa) := by
  rw [exec_enter, execEnter, hm]
  dsimp only
  rw [hk]
  dsimp only
  rw [if_neg (by simp [hl]), hc]
  dsimp only
  rw [if_neg (by simp [hp])]
  split_ifs <;> rfl

theorem adopt_reaches {n : Nat} {s t : State} {m : CapMsg} {w : Asker} (hm : s.capMsgs.find n = some m)
    (hk : m.kind = .adopt w)
    (hl : msgLive s m = true) (hc : claimLine s m.record = (true, t)) (hp : poisoned t m.record = false) :
    exec (.adopt n) s = .next (if recBad t m.record then answerTrap (dropMsg t n) m w
      else if recState t m.record ≠ capParked then answerStatus (dropMsg t n) m w (adoptStatus (recState t m.record))
      else acceptAdopt (dropMsg t n) m w) := by
  rw [exec_adopt, execAdopt, hm]
  dsimp only
  rw [hk]
  dsimp only
  rw [if_neg (by simp [hl]), hc]
  dsimp only
  rw [if_neg (by simp [hp])]
  split_ifs <;> rfl

theorem commit_reaches {n : Nat} {s t : State} {m : CapMsg} {kind : Fin 3} {ks : List Word} {ra : DWord}
    (hm : s.capMsgs.find n = some m) (hk : m.kind = .commit kind ks ra) (hw : commitWaits s m = false)
    (hc : claimLine s m.record = (true, t)) (hp : poisoned t m.record = false) :
    exec (.commit n) s = .next (if recBad t m.record then commitTrap (dropMsg t n) m
      else if staleTag t m then exitCapsule (dropVersions (dropMsg t n) m) m.blk m.crew 5
      else if kind ≠ 0 ∧ slotHeld t m then later t (.commit n)
      else match claimLines t (commitLines t m (decide (kind ≠ 0))) with
        | (false, u) => later u (.commit n)
        | (true, u) => commitAt (dropMsg u n) m kind ks ra) := by
  rw [exec_commit, execCommit, hm]
  dsimp only
  rw [hk]
  dsimp only
  rw [if_neg (by simp [hw]), hc]
  dsimp only
  rw [if_neg (by simp [hp])]
  split_ifs
  · rfl
  · rfl
  · rfl
  · rcases claimLines t (commitLines t m (decide (kind ≠ 0))) with ⟨_ | _, u⟩ <;> rfl

theorem commitAt_accepted {s : State} {m : CapMsg} {kind : Fin 3} {ks : List Word} {ra : DWord}
    (hp : ∀ g ∈ commitLines s m (decide (kind ≠ 0)), poisoned s g = false) :
    commitAt s m kind ks ra = commitAccepted s m kind ks ra := by
  have hany : (commitLines s m (decide (kind ≠ 0))).any (poisoned s) = false := by simpa using hp
  rw [commitAt, hany]
  rfl

theorem capsuleStore_reaches {n : Nat} {s : State} {m : CapMsg} {line : Nat} {bs : List (Nat × Byte)} {a : Attr}
    {entry : Nat}
    (hm : s.capMsgs.find n = some m) (hk : m.kind = .store line bs a entry) (hs : staleTag s m = false)
    (he : earlierStore s n m line = false) (hb : (lineOf s line).st ≠ .busy) :
    exec (.capsuleStore n) s = .next (match s.versions.find? fun v => v.line == line && v.record != m.record with
      | some v => if m.record < v.record then later s (.capsuleStore n) else conflict s m
      | none => addVersion (dropMsg s n) m line bs a) := by
  rw [exec_capsuleStore, execCapsuleStore, hm]
  dsimp only
  rw [hk]
  dsimp only
  rw [if_neg (by simp [hs]), if_neg (by simp [he, hb])]
  cases s.versions.find? fun v => v.line == line && v.record != m.record with
  | none => rfl
  | some v => dsimp only; split <;> rfl

/-- Settles O32: each message acts on its record as the lines that it claims stand. -/
theorem capsuleEventsComplete : Obligations.CapsuleEventsComplete := by
  refine ⟨fun n s t m w pa entry ks va sa hm hk hl hc hp => ⟨fun hb => ?_, fun hb hs => ?_, fun hb hs hp' hv => ?_⟩,
    fun n s t m w hm hk hl hc hp => ⟨fun hb => ?_, fun hb hs => ?_, fun hb hs => ?_⟩,
    fun n s t m kind ks ra hm hk hw hc hp => ⟨fun hb => ?_, fun hb hs => ?_, fun u hb hs hh hu hpu => ?_⟩,
    fun line s t h b c status hh hcl hc => ?_, fun n s t m hm hk hco hn hc => ?_, fun n s t m e hm hk hl hpa hn hc =>
      ?_,
    fun n s m line bs a entry hm hk => ⟨fun hs => ?_, fun hs he hb => ⟨fun hv => ?_, fun v hv hle => ?_⟩⟩,
    fun b c s x y h till hb hc hh hr hst ht => ?_, fun b c s x hb => ⟨fun hw => ?_, fun hw hst => ?_⟩⟩
  · rw [enter_reaches hm hk hl hc hp, if_pos hb]
  · rw [enter_reaches hm hk hl hc hp, if_neg (by simp [hb]), if_pos hs]
  · rw [enter_reaches hm hk hl hc hp, if_neg (by simp [hb]), if_neg (not_not.2 hs), if_neg (by simp [hp']),
      if_neg (by simp [hv])]
  · rw [adopt_reaches hm hk hl hc hp, if_pos hb]
  · rw [adopt_reaches hm hk hl hc hp, if_neg (by simp [hb]), if_pos hs]
  · rw [adopt_reaches hm hk hl hc hp, if_neg (by simp [hb]), if_neg (not_not.2 hs)]
  · rw [commit_reaches hm hk hw hc hp, if_pos hb]
  · rw [commit_reaches hm hk hw hc hp, if_neg (by simp [hb]), if_pos hs]
  · rw [commit_reaches hm hk hw hc hp, if_neg (by simp [hb]), if_neg (by simp [hs]),
      if_neg (by rcases hh with hh | hh <;> simp [hh]), hu]
    dsimp only
    rw [commitAt_accepted hpu]
  · rw [exec_closeAck, execCloseAck, hh]
    dsimp only
    rw [hcl]
    dsimp only
    rw [hc]
  · rw [exec_park, execPark, hm]
    dsimp only
    rw [hk]
    dsimp only
    rw [if_neg (by simp [hco, hn]), hc]
  · rw [exec_reclaim, execReclaim, hm]
    dsimp only
    rw [hk]
    dsimp only
    rw [if_neg (by simp [hl]), if_neg (by simp [hpa, hn]), hc]
  · rw [exec_capsuleStore, execCapsuleStore, hm]
    dsimp only
    rw [hk]
    exact if_pos hs
  · have hnone : (s.versions.find? fun v => v.line == line && v.record != m.record) = none :=
      List.find?_eq_none.2 fun v hm' => by simpa using hv v hm'
    rw [capsuleStore_reaches hm hk hs he hb, hnone]
  · rw [capsuleStore_reaches hm hk hs he hb, hv]
    dsimp only
    rw [if_neg (Nat.not_lt.2 hle)]
  · rw [exec_conflictRestart, execConflictRestart, hb, hc]
    dsimp only
    rw [hh]
    dsimp only
    rw [hr]
    dsimp only
    rw [if_neg (by simp [hst, ht])]
  · rw [exec_tapeWriteOut, execTapeWriteOut, hb]
    dsimp only
    rw [if_pos (by simp [hw])]
  · rw [exec_tapeWriteOut, execTapeWriteOut, hb]
    dsimp only
    rw [if_neg (by simp [hw]), if_neg (by rcases hst with hst | hst <;> simp [hst])]

/-! ## Queue interfaces and semaphores -/

theorem semTurn_of {s : State} {p : Port} (h : p = .b ∨ s.regs.semTill ≤ s.clock) : semTurn s p = true := by
  cases p with
  | a => exact decide_eq_true (h.resolve_left (by decide))
  | b => rfl

theorem semWrite_turn {s : State} {p : Port} {i : Instr} {f : State → State} (hp : portReady s p = true)
    (ht : p = .b ∨ s.regs.semTill ≤ s.clock) : semWrite s p i f = .next (semNoted (f s) p) := by
  rw [semWrite, if_neg (by simp [hp]), if_pos (semTurn_of ht)]

theorem semWrite_later {s : State} {i : Instr} {f : State → State} (hp : portReady s .a = true)
    (ht : s.clock < s.regs.semTill) :
    semWrite s .a i f = .next (later s i) := by
  have : semTurn s .a = false := decide_eq_false (Nat.not_le.2 ht)
  rw [semWrite, if_neg (by simp [hp]), if_neg (by simp [this])]

/-- R326: a port that resets frees those of the semaphores that it owns, and changes registers alone. -/
theorem freeHsems_of (p : Port) (ks : List Nat) (s : State) :
    (∀ j, hsemOf (ks.foldl (fun s k => freeHsem s k p) s) j =
      if j ∈ ks ∧ hsemOwner (hsemOf s j) = portNumber p then 0 else hsemOf s j) ∧
    ks.foldl (fun s k => freeHsem s k p) s = { s with regs := (ks.foldl (fun s k => freeHsem s k p) s).regs } := by
  induction ks generalizing s with
  | nil => exact ⟨fun j => by simp, rfl⟩
  | cons k ks ih =>
    obtain ⟨hsem, hrest⟩ := ih (freeHsem s k p)
    have hregs : freeHsem s k p = { s with regs := (freeHsem s k p).regs } := by
      unfold freeHsem
      split <;> rfl
    refine ⟨fun j => ?_, ?_⟩
    · rw [List.foldl_cons, hsem j, freeHsem_of]
      by_cases hj : j = k
      · subst hj
        by_cases ho : hsemOwner (hsemOf s j) = portNumber p <;> simp [ho]
      · simp [hj]
    · rw [List.foldl_cons, hrest, hregs]

/-- Settles O33: the writes of a READY module's port act, in the ports' order, and a reset port's semaphores are freed. -/
theorem interfaceEventsComplete : Obligations.InterfaceEventsComplete := by
  refine ⟨fun qi v s hp => ?_, fun qi pasid s hp => ⟨?_, ?_, ?_, ?_⟩, fun qi s hb hpend => ?_,
    fun k p s hp ht => ⟨fun ho => ?_, fun ho => ?_, fun ho => ?_, fun ho => ?_⟩, fun k s hp ht => ⟨?_, ?_⟩, fun p s =>
      ?_⟩
  · rw [exec_qictlWrite, execQictlWrite, if_neg (by simp [hp])]
  · rw [exec_qiinvFirstStage, execQiinvFirstStage, startInvReady, if_pos hp]
  · rw [exec_qiinvInterface, execQiinvInterface, startInvReady, if_pos hp]
  · rw [exec_qiinvRevoke, execQiinvRevoke, startInvReady, if_pos hp]
  · rw [exec_qiinvSecondStage, execQiinvSecondStage, startInvReady, if_pos hp]
  · rw [exec_qiinvDone, execQiinvDone]
    dsimp only
    rw [if_neg (by simp [hb]), if_neg (by simp [hpend])]
  · rw [exec_hsemClaim, execHsemClaim, semWrite_turn hp ht, claimHsem]
    rw [if_pos ho]
  · rw [exec_hsemClaim, execHsemClaim, semWrite_turn hp ht, claimHsem]
    rw [if_neg ho]
  · rw [exec_hsemRel, execHsemRel, semWrite_turn hp ht, freeHsem, if_pos ho]
  · rw [exec_hsemRel, execHsemRel, semWrite_turn hp ht, freeHsem, if_neg ho]
  · rw [exec_hsemClaim, execHsemClaim, semWrite_later hp ht]
  · rw [exec_hsemRel, execHsemRel, semWrite_later hp ht]
  · obtain ⟨hsem, hrest⟩ := freeHsems_of p (List.range 32) s
    refine ⟨_, by rw [exec_portReset, execPortReset], hrest, fun k hk => ?_⟩
    rw [hsem k]
    simp [hk]

/-! ## Hosts and other modules -/

theorem remoteTimeout_next (q : Nat) (s : State) : ∃ t, exec (.remoteTimeout q) s = .next t := by
  rw [exec_remoteTimeout, execRemoteTimeout]
  cases s.remotes.find q with
  | none => exact ⟨_, rfl⟩
  | some x =>
    dsimp only
    split_ifs <;> exact ⟨_, rfl⟩

/-- R331: an access whose time is over is answered, when its turn comes and its route stands, or is tried again or poisoned. -/
theorem remoteTimeout_over {q : Nat} {s : State} {x : Remote} (hq : s.remotes.find q = some x)
    (ht : x.since + Config.remoteWait ≤ s.clock) :
    let u := { s with free := s.free + 1 }
    (x.routed = true ∧ exec (.remoteTimeout q) s = .next (remoteAnswer u q x)) ∨
    exec (.remoteTimeout q) s = .next (if 2 ≤ x.timeouts then remotePoison u q x
      else later { u with remotes := u.remotes.put q { x with timeouts := x.timeouts + 1, since := u.clock } }
        (.remoteTimeout q)) := by
  intro u
  have hu : (freeChoice s 2).2 = u := rfl
  rw [exec_remoteTimeout, execRemoteTimeout, hq]
  dsimp only
  rw [hu]
  by_cases hk : (freeChoice s 2).1 = 0 ∧ x.routed = true
  · exact .inl ⟨hk.2, by rw [if_pos hk]⟩
  · refine .inr ?_
    rw [if_neg hk, if_neg (Nat.not_lt.2 ht)]
    split <;> rfl

/-- Settles O34: what finds its slot and a line that answers is performed. -/
theorem hostEventsComplete : Obligations.HostEventsComplete := by
  refine ⟨fun x s s0 t k hp hlen => ⟨fun hs => ?_, fun hs ha hk hr => ⟨fun hw => ?_, fun d hw => ?_⟩⟩,
    fun p pa kind s hp hd => ⟨fun hh => ?_, fun t hh ha hr => ?_⟩, fun q s x hq ht => remoteTimeout_over hq ht,
    remoteTimeout_next, fun n s => by rw [exec_flitReplay, execFlitReplay], fun x s t hlen ha hr => ?_⟩
  · rw [exec_hostMemAccess, execHostMemAccess, if_neg (by simp [hp]), if_neg (Nat.not_lt.2 hlen), if_pos hs]
  · rw [exec_hostMemAccess, execHostMemAccess, if_neg (by simp [hp]), if_neg (Nat.not_lt.2 hlen), if_neg (by simp [hs]),
      if_neg (by simp [ha])]
    dsimp only
    rw [hk]
    dsimp only
    rw [hr]
    dsimp only
    rw [hw]
  · rw [exec_hostMemAccess, execHostMemAccess, if_neg (by simp [hp]), if_neg (Nat.not_lt.2 hlen), if_neg (by simp [hs]),
      if_neg (by simp [ha])]
    dsimp only
    rw [hk]
    dsimp only
    rw [hr]
    dsimp only
    rw [hw]
  · rw [exec_hostSnoop, execHostSnoop]
    dsimp only
    rw [if_neg (by simp [hp]), if_neg (by simp [hd]), if_pos (by simp [hh])]
  · rw [exec_hostSnoop, execHostSnoop]
    dsimp only
    rw [if_neg (by simp [hp]), if_neg (by simp [hd]), if_neg (by simp [hh]), if_neg (by simp [ha]), hr]
  · rw [exec_crilvonRemoteRequest, execCrilvonRemoteRequest, if_neg (Nat.not_lt.2 hlen), if_neg (by simp [ha]), hr]

end Sys2Proof
end

section
/-! # Power, bring-up and management (O35, O36) -/
namespace Sys2Proof
open Machine
set_option Elab.async false

/-! ## Bring-up -/

theorem bringParts_failed {step code i : Nat} {rs : List Bool} (h : firstFail rs = some i) :
    bringParts step code rs = BitVec.ofNat 64 (step + 32 + 256 * (code + i)) := by
  rw [bringParts, h]
  change BitVec.ofNat 64 (step + 0 + 32 + (code + i) * 2 ^ 8 + 0) = _
  congr 1
  omega

theorem bringParts_good {step code : Nat} {rs : List Bool} (h : firstFail rs = none) :
    bringParts step code rs = BitVec.ofNat 64 (step + 1) := by
  rw [bringParts, h]
  rfl

/-- R343: DEVRDY once the module is READY: its step and its bit 4, whatever FCODE and the optical bit hold. -/
theorem becomeReady_devrdy (s : State) :
    ∃ f < 256, ∃ o < 2, (becomeReady s).regs.devrdy.toNat = 7 + 16 + f * 256 + o * 65536 := by
  refine ⟨nfield s.regs.devrdy.toNat 8 8, Nat.mod_lt _ (by decide), if nbit s.regs.devrdy.toNat 16 then 1 else 0,
    by split <;> decide, ?_⟩
  have hf : nfield s.regs.devrdy.toNat 8 8 < 256 := Nat.mod_lt _ (by decide)
  rw [becomeReady, setDevrdy, devrdyOf]
  dsimp only
  rw [BitVec.toNat_ofNat, if_pos rfl, if_neg (by decide)]
  generalize nfield s.regs.devrdy.toNat 8 8 = f at hf ⊢
  split <;> omega

theorem becomeReady_ready (s : State) : moduleReady (becomeReady s) = true := by
  obtain ⟨f, hf, o, ho, he⟩ := becomeReady_devrdy s
  rw [moduleReady, nbit, he, beq_iff_eq]
  omega

theorem becomeReady_step (s : State) : devStep (becomeReady s) = 7 := by
  obtain ⟨f, hf, o, ho, he⟩ := becomeReady_devrdy s
  rw [devStep, nfield, he]
  omega

/-- The steps 1 to 3 of R343 take the next part. -/
theorem powerGood_brings {images : List FwImage} {hbm links ports : List Bool} {s : State} (h1 : 1 ≤ devStep s)
    (h3 : devStep s ≤ 3) (hf : devFailed s = false) :
    exec (.powerGood images hbm links ports) s = .next (if nbit (bringNext s).toNat 5 then setDevrdy s (bringNext s)
      else later (setDevrdy s (bringNext s)) (.powerGood images hbm links ports)) := by
  rw [exec_powerGood, execPowerGood]
  dsimp only
  split
  case h_5 =>
    rw [if_neg (by simp [hf, h3])]
    split <;> rfl
  all_goals omega

theorem powerGood_optical {images : List FwImage} {hbm links ports : List Bool} {s : State} (h5 : devStep s = 5) :
    let u := { s with free := s.free + 1 }
    exec (.powerGood images hbm links ports) s = .next (later (opticalDone u false)
      (.powerGood images hbm links ports)) ∨
      exec (.powerGood images hbm links ports) s = .next (laterOnce u .opticalTrainTimeout) := by
  intro u
  have hu : (freeChoice s 2).2 = u := rfl
  rw [exec_powerGood, execPowerGood, h5]
  dsimp only
  rw [hu]
  by_cases hk : (freeChoice s 2).1 = 0
  · exact .inl (if_pos hk)
  · exact .inr (if_neg hk)

/-- Settles O35: windows, budgets, heat and resets, and the steps of R343 one after the other. -/
theorem powerEventsComplete : Obligations.PowerEventsComplete := by
  refine ⟨fun die s => ⟨_, Nat.mod_lt _ (by decide), by rw [exec_tokenWindow, execTokenWindow]⟩, fun die v s hm => ?_,
    fun die s t hc ht hd => ?_, fun die s ht => ?_, fun s => by rw [exec_rstreq, execRstreq],
    fun images hbm links ports s => noInstructionStops.2.1 _ s rfl (by simp [beyondMemory]),
    fun images hbm links ports s => ⟨fun h => ?_, fun h1 h3 hf => powerGood_brings h1 h3 hf, fun h => ?_,
      fun h => powerGood_optical h, fun h => ?_⟩,
    fun s h => ?_, fun step code rs => ⟨fun i hi => bringParts_failed hi, fun hn => bringParts_good hn⟩,
    fun s => ⟨becomeReady_ready s, becomeReady_step s⟩⟩
  · rw [exec_tokbudWrite, execTokbudWrite, if_pos hm]
  · rw [exec_tshiftDecay, execTshiftDecay]
    dsimp only
    rw [hc]
    dsimp only
    rw [if_neg ht]
    exact if_neg (Nat.not_lt.2 hd)
  · rw [exec_thermalTrip, execThermalTrip, if_neg (Nat.not_lt.2 ht)]
  · rw [exec_powerGood, execPowerGood, h]
    rfl
  · rw [exec_powerGood, execPowerGood, h]
    rfl
  · rw [exec_powerGood, execPowerGood, h]
    rfl
  · rw [exec_opticalTrainTimeout, execOpticalTrainTimeout, if_pos h]

/-! ## SPDM and registers -/

theorem registerWrite_dead {p : Port} {r : RegAddr} {v : DWord} {s : State} (hp : portUp s p = false) :
    exec (.registerWrite p r v) s = .next s := by
  rw [exec_registerWrite, execRegisterWrite, if_neg (by simp [portReady, hp]), if_pos (by simp [hp])]

theorem registerWrite_notReady {p : Port} {r : RegAddr} {v : DWord} {s : State} (hm : moduleReady s = false)
    (hr : regOf p r ≠ .devrdy) : exec (.registerWrite p r v) s = .next s := by
  rw [exec_registerWrite, execRegisterWrite, if_neg (by simp [portReady, hm])]
  split
  · rfl
  · split
    · next h => exact absurd h hr
    · rfl

/-- DEVRDY is written alike before the module is READY and after. -/
theorem registerWrite_devrdy {p : Port} {r : RegAddr} {v : DWord} {s : State} (hp : portUp s p = true)
    (hr : regOf p r = .devrdy) : exec (.registerWrite p r v) s = .next (writeDevrdy s v) := by
  rw [exec_registerWrite, execRegisterWrite]
  split
  · rw [writeReg, hr]
  · rw [if_neg (by simp [hp]), hr]

theorem registerWrite_ready {p : Port} {r : RegAddr} {v : DWord} {s : State} (hp : portReady s p = true) :
    exec (.registerWrite p r v) s = writeReg s p r v := by
  rw [exec_registerWrite, execRegisterWrite, if_pos hp]

theorem mem_measurements {s : State} {k : Nat} {f : FwImage} (hk : k < 3) (hf : s.images[k]? = some f) :
    (k + 1, Config.sha384 f.bytes) ∈ measurements s := by
  refine List.mem_append_left _ (List.mem_filterMap.2 ⟨k, List.mem_range.2 hk, ?_⟩)
  rw [hf]
  rfl

theorem measurement_index {s : State} {e : Nat × List Byte} (he : e ∈ measurements s) : 1 ≤ e.1 ∧ e.1 ≤ 4 := by
  obtain he | he := List.mem_append.1 he
  · obtain ⟨i, hi, hx⟩ := List.mem_filterMap.1 he
    obtain ⟨f, -, rfl⟩ := Option.map_eq_some_iff.1 hx
    have := List.mem_range.1 hi
    exact ⟨by omega, by dsimp only; omega⟩
  · rw [List.mem_singleton.1 he]
    exact ⟨by decide, by decide⟩

/-- Settles O36: each request is answered at its port, and each write reaches the register at its offset. -/
theorem managementEventsComplete : Obligations.ManagementEventsComplete := by
  refine ⟨fun x s => ⟨rfl, rfl, rfl, rfl, rfl, rfl, measurements s, rfl, fun k hk f hf => mem_measurements hk hf,
      List.mem_append_right _ (List.mem_singleton.2 rfl), fun e he => measurement_index he⟩,
    fun p r v s => noInstructionStops.2.1 _ s rfl (by simp [beyondMemory]), fun p r v s hm hr =>
      registerWrite_notReady hm hr,
    fun p r v s hp hr => registerWrite_devrdy hp hr, fun p r v s hp => registerWrite_dead hp, fun p r v s hp => ?_⟩
  obtain ⟨t, ht, -⟩ := ends_writeReg (p := p) (a := r) (v := v) (keeps_noClaim (s := s))
  exact ⟨t, ht, (registerWrite_ready hp).trans ht⟩

end Sys2Proof
end

section
/-! # Results of the integer and logic words (O37) -/
namespace Sys2Proof
open Machine
set_option Elab.async false

theorem lanesGive_int {i : Instr} {x : IntOp} {f : Int → Int → Int} (he : ∀ s, exec i s = issueWord i s (intBody x f)) :
    lanesGive i (shape x.g x.d (intRegs x.ty) [x.a, x.b]) fun _ _ vs =>
      saturated x.ty x.sat (f (val x.ty vs 0) (val x.ty vs 1)) := by
  refine lanesGive_of he fun h => ?_
  unfold intBody
  simp only [satWrap_eq]
  rfl

theorem lanesGive_imulhi (x : IntOp) : lanesGive (.imulhi x) (shape x.g x.d (intRegs x.ty) [x.a, x.b]) fun _ _ vs =>
    saturated x.ty x.sat (val x.ty vs 0 * val x.ty vs 1 / 2 ^ tyBits x.ty) := by
  have := lanesGive_int (x := x) fun _ => exec_imulhi
  simp only [fdiv_pow] at this
  exact this

theorem lanesMeet_logic {i : Instr} {x : LogicOp} {f : Nat → Nat → Nat} {P : List Nat → Nat → Prop}
    (he : ∀ s, exec i s = issueWord i s (logicBody x f)) (hP : ∀ vs, P vs (f (arg vs 0) (arg vs 1))) :
    lanesMeet i (shape x.g x.d (widthRegs x.w64) [x.a, x.b]) P :=
  lanesMeet_of _ hP (lanesGive_of he fun h => by unfold logicBody; rfl)

/-- The places of a shift or rotation. -/
def shiftShape (x : LogicOp) : LaneShape := ⟨x.g, x.d, widthRegs x.w64, [(x.a, widthRegs x.w64), (x.b, 1)]⟩

theorem lanesGive_shift {i : Instr} {x : LogicOp} {f : Nat → Nat → Nat → Nat}
    (he : ∀ s, exec i s = issueWord i s (shiftBody x f)) : lanesGive i (shiftShape x) fun _ _ vs =>
      (f (logicBits x) (arg vs 0) (arg vs 1 % logicBits x), 0) :=
  lanesGive_of he fun h => by unfold shiftBody; rfl

theorem wrapTo_eq (w : Nat) (z : Int) : wrapTo w z = patOf w z := rfl

theorem sarNat_eq (w a n : Nat) : sarNat w a n = patOf w (intOf true w a / 2 ^ n) := by
  rw [sarNat, fdiv_pow]
  rfl

theorem logicBits_pos (x : LogicOp) : 0 < logicBits x := by
  unfold logicBits
  split <;> decide

theorem lanesMeet_rotl (x : LogicOp) : lanesMeet (.rotl x) (shiftShape x) fun vs v => arg vs 0 < 2 ^ logicBits x →
    v < 2 ^ logicBits x ∧ ∀ k < logicBits x, nbit v ((k + arg vs 1) % logicBits x) = nbit (arg vs 0) k :=
  lanesMeet_of (fun vs => rotlNat (logicBits x) (arg vs 0) (arg vs 1 % logicBits x))
    (fun vs ha => rotl_bits (logicBits x) (arg vs 0) (arg vs 1) (logicBits_pos x) ha) (lanesGive_shift fun _ => exec_rotl)

/-- Settles O37: each word is `runLanes` over its shape; the saturation, the bits and the shifts are those of the laws of
numbers. -/
theorem integerResults : Obligations.IntegerResults := by
  refine ⟨fun x => ⟨lanesGive_int fun _ => exec_iadd, lanesGive_int fun _ => exec_isub, lanesGive_int fun _ => exec_imul,
      lanesGive_imulhi x, lanesGive_int fun _ => exec_imin, lanesGive_int fun _ => exec_imax⟩,
    fun x => ⟨lanesGive_of (fun _ => by rw [exec_imad, execImad]) fun h => ?_,
      lanesGive_of (fun _ => by rw [exec_imadw, execImadw]) fun h => ?_⟩,
    fun x => lanesGive_of (fun _ => by rw [exec_iabs, execIabs]) fun h => ?_,
    fun x => ⟨lanesMeet_logic (fun _ => exec_and) fun vs k => nbit_and _ _ k,
      lanesMeet_logic (fun _ => exec_or) fun vs k => nbit_or _ _ k,
      lanesMeet_logic (fun _ => exec_xor) fun vs k => nbit_xor _ _ k,
      lanesMeet_logic (fun _ => exec_andn) fun vs k hk => ?_, lanesMeet_logic (fun _ => exec_orn) fun vs k hk => ?_⟩,
    fun x => ⟨lanesGive_shift (f := shlNat) fun _ => exec_shl, lanesGive_shift (f := shrNat) fun _ => exec_shr, ?_,
      lanesMeet_rotl x⟩,
    fun x => lanesGive_of (fun _ => by rw [exec_fshf, execFshf]) fun h => ?_⟩
  · simp only [wrapTo_eq]
    rfl
  · simp only [wrapTo_eq]
    rfl
  · simp only [satWrap_eq, Int.natCast_natAbs]
    rfl
  · rw [nbit_and, nbit_not (w := logicBits x) hk]
  · rw [nbit_or, nbit_not (w := logicBits x) hk]
  · have := lanesGive_shift (x := x) fun _ => exec_sar
    simp only [sarNat_eq] at this
    exact this
  · rfl

end Sys2Proof
end

section
/-! # Results of the bit-field words (O38) -/
namespace Sys2Proof
open Machine
set_option Elab.async false

/-! ## Extracts -/

/-- R151: the field of a source, as an integer. -/
def bfxField (sx : Bool) (a b : Nat) : Int :=
  (if sx then intOf true 32 a else (a % 2 ^ 32 : Nat)) / 2 ^ (b % 256) % 2 ^ min (b / 256 % 256) 32

theorem bfxField_nonneg (sx : Bool) (a b : Nat) : 0 ≤ bfxField sx a b := Int.emod_nonneg _ (by positivity)

theorem bfxField_lt (sx : Bool) (a b : Nat) : bfxField sx a b < 2 ^ min (b / 256 % 256) 32 :=
  Int.emod_lt_of_pos _ (by positivity)

theorem intOf_unsigned (w a : Nat) : intOf false w a = (a % 2 ^ w : Nat) := by
  simp [intOf]

theorem intOf_field (sx : Bool) (a : Nat) : intOf sx 32 a = if sx then intOf true 32 a else (a % 2 ^ 32 : Nat) := by
  cases sx
  · exact intOf_unsigned 32 a
  · rfl

/-- The field as the model takes it, a natural number. -/
theorem bfxNat_eq (sx : Bool) (a b : Nat) : bfxNat sx a b =
    if min (b / 256 % 256) 32 = 0 then 0
    else if sx && (bfxField sx a b).toNat / 2 ^ (min (b / 256 % 256) 32 - 1) % 2 == 1 then
      wrapTo 32 (((bfxField sx a b).toNat : Int) - 2 ^ min (b / 256 % 256) 32)
    else (bfxField sx a b).toNat := by
  rw [bfxNat, fdiv_pow, intOf_field]
  rfl

/-- The highest of `n` bits is set exactly in the upper half of the range. -/
theorem topBit_iff {f n : Nat} (hn : n ≠ 0) (hf : f < 2 ^ n) : f / 2 ^ (n - 1) % 2 = 1 ↔ 2 ^ (n - 1) ≤ f := by
  obtain ⟨k, rfl⟩ := Nat.exists_eq_succ_of_ne_zero hn
  rw [Nat.succ_sub_one]
  rw [pow_succ] at hf
  have hq : f / 2 ^ k < 2 := Nat.div_lt_of_lt_mul hf
  rw [Nat.mod_eq_of_lt hq, ← Nat.div_pos_iff.trans (and_iff_right (by positivity))]
  omega

theorem bfx_top {sx : Bool} {a b : Nat} (hl : min (b / 256 % 256) 32 ≠ 0) :
    (bfxField sx a b).toNat / 2 ^ (min (b / 256 % 256) 32 - 1) % 2 = 1 ↔
      2 ^ (min (b / 256 % 256) 32 - 1) ≤ bfxField sx a b := by
  have h0 := bfxField_nonneg sx a b
  have h1 := bfxField_lt sx a b
  have hf : (bfxField sx a b).toNat < 2 ^ min (b / 256 % 256) 32 := by
    rw [Int.toNat_lt h0]
    exact_mod_cast h1
  rw [topBit_iff hl hf, ← Int.ofNat_le, Int.toNat_of_nonneg h0]
  push_cast
  rfl

theorem wrapTo_cast (w : Nat) (z : Int) : (wrapTo w z : Int) = z % 2 ^ w :=
  Int.toNat_of_nonneg (Int.emod_nonneg _ (by positivity))

theorem bfx_signed {a b : Nat} (hl : min (b / 256 % 256) 32 ≠ 0)
    (hf : 2 ^ (min (b / 256 % 256) 32 - 1) ≤ bfxField true a b) :
    (bfxNat true a b : Int) = (bfxField true a b - 2 ^ min (b / 256 % 256) 32) % 2 ^ 32 := by
  rw [bfxNat_eq, if_neg hl, if_pos (by simp [(bfx_top hl).2 hf]), wrapTo_cast, Int.toNat_of_nonneg (bfxField_nonneg ..)]

theorem bfx_plain {sx : Bool} {a b : Nat} (hl : min (b / 256 % 256) 32 ≠ 0)
    (hf : sx = false ∨ bfxField sx a b < 2 ^ (min (b / 256 % 256) 32 - 1)) : (bfxNat sx a b : Int) = bfxField sx a b := by
  have hn : ¬ (sx && (bfxField sx a b).toNat / 2 ^ (min (b / 256 % 256) 32 - 1) % 2 == 1) = true := by
    rintro h
    obtain ⟨hs, ht⟩ := Bool.and_eq_true_iff.1 h
    obtain hf | hf := hf
    · exact absurd hs (by simp [hf])
    · exact absurd ((bfx_top hl).1 (by simpa using ht)) (not_le.2 hf)
  rw [bfxNat_eq, if_neg hl, if_neg hn, Int.toNat_of_nonneg (bfxField_nonneg ..)]

/-! ## Inserts and permutes -/

theorem bit_weight (x k j : Nat) : x / 2 ^ k % 2 * 2 ^ j = if nbit x k then 2 ^ j else 0 := by
  unfold nbit
  obtain h | h : x / 2 ^ k % 2 = 0 ∨ x / 2 ^ k % 2 = 1 := by omega
  all_goals simp [h]

/-- R152: the bit of a `BFI`. -/
def bfiBit (a b c j : Nat) : Bool :=
  if b % 256 ≤ j ∧ j < min (b % 256 + min (b / 256 % 256) 32) 32 then nbit a (j - b % 256) else nbit c j

theorem bfiNat_eq (a b c : Nat) :
    bfiNat a b c = (List.range 32).foldl (fun r j => r + if bfiBit a b c j then 2 ^ j else 0) 0 := by
  unfold bfiNat bfiBit fieldPos fieldLen
  dsimp only
  congr 1
  funext r j
  split <;> simp only [bit_weight]

theorem bfi_bits (a b c : Nat) : bfiNat a b c < 2 ^ 32 ∧ ∀ j < 32, nbit (bfiNat a b c) j = bfiBit a b c j := by
  obtain ⟨hlt, hbit⟩ := bitsum (bfiBit a b c) 32
  rw [← bfiNat_eq] at hlt hbit
  exact ⟨hlt, fun j hj => by rw [nbit_test, hbit j hj]⟩

theorem brev_bits (a : Nat) : brevNat a < 2 ^ 32 ∧ ∀ j < 32, nbit (brevNat a) j = nbit a (31 - j) := by
  obtain ⟨hlt, hbit⟩ := bitsum (fun k => nbit a (31 - k)) 32
  exact ⟨hlt, fun j hj => by rw [nbit_test]; exact hbit j hj⟩

/-- R153: the byte that a selector names of the two sources. -/
theorem prmt_pool {a c s : Nat} (ha : a < 2 ^ 32) : (a + c * 2 ^ 32) / 2 ^ (8 * (s % 8)) % 256 =
    (if s % 8 < 4 then a else c) / 2 ^ (8 * (s % 4)) % 256 := by
  have h4 : s % 4 = s % 8 % 4 := by omega
  have h8 : s % 8 < 8 := Nat.mod_lt _ (by decide)
  rw [h4]
  generalize s % 8 = n at h8
  interval_cases n <;> norm_num <;> omega

theorem prmtByte_lt (p s : Nat) : prmtByte p s < 256 := by
  unfold prmtByte
  dsimp only
  split
  · split <;> decide
  · exact Nat.mod_lt _ (by decide)

theorem prmtByte_eq {p s : Nat} (hs : s < 16) : prmtByte p s =
    if 8 ≤ s then (if 128 ≤ p / 2 ^ (8 * (s % 8)) % 256 then 255 else 0) else p / 2 ^ (8 * (s % 8)) % 256 := by
  have hy : p / 2 ^ (8 * (s % 8)) % 256 < 256 := Nat.mod_lt _ (by decide)
  unfold prmtByte
  dsimp only
  generalize p / 2 ^ (8 * (s % 8)) % 256 = y at hy
  have h8 : s / 8 % 2 = 1 ↔ 8 ≤ s := by omega
  have h128 : y / 128 = 1 ↔ 128 ≤ y := by omega
  simp only [h8, h128]

theorem foldl_four (g : Nat → Nat) : (List.range 4).foldl (fun r k => r + g k) 0 = g 0 + g 1 + g 2 + g 3 := by
  simp [List.range_succ]

/-- Four bytes in a row, and each of them. -/
theorem fourBytes (f : Nat → Nat) (hf : ∀ k, f k < 256) :
    (List.range 4).foldl (fun r k => r + f k * 2 ^ (8 * k)) 0 < 2 ^ 32 ∧
    ∀ k < 4, (List.range 4).foldl (fun r k => r + f k * 2 ^ (8 * k)) 0 / 2 ^ (8 * k) % 256 = f k := by
  have h0 := hf 0
  have h1 := hf 1
  have h2 := hf 2
  have h3 := hf 3
  have he : (List.range 4).foldl (fun r k => r + f k * 2 ^ (8 * k)) 0 =
      f 0 + f 1 * 256 + f 2 * 65536 + f 3 * 16777216 := by
    rw [foldl_four fun k => f k * 2 ^ (8 * k)]
    omega
  rw [he]
  refine ⟨by omega, fun k hk => ?_⟩
  interval_cases k <;> norm_num <;> omega

theorem prmt_bytes (a b c : Nat) : prmtNat a b c < 2 ^ 32 ∧ ∀ k < 4,
    prmtNat a b c / 2 ^ (8 * k) % 256 = prmtByte (a + c * 2 ^ 32) (b / 2 ^ (4 * k) % 16) :=
  fourBytes (fun k => prmtByte (a + c * 2 ^ 32) (b / 2 ^ (4 * k) % 16)) fun _ => prmtByte_lt _ _

/-! ## Counts -/

theorem clz_bits {a : Nat} (ha : a < 2 ^ 32) : (a = 0 → clzNat a = 32) ∧
    (a ≠ 0 → clzNat a < 32 ∧ nbit a (31 - clzNat a) = true ∧ ∀ k, 31 - clzNat a < k → nbit a k = false) := by
  refine ⟨fun h => if_pos h, fun h => ?_⟩
  have hl : Nat.log2 a < 32 := (Nat.log2_lt h).2 ha
  have he : 31 - clzNat a = Nat.log2 a := by
    rw [clzNat, if_neg h]
    omega
  refine ⟨by rw [clzNat, if_neg h]; omega, ?_, fun k hk => ?_⟩
  · rw [he, nbit_test]
    exact Nat.testBit_log2 h
  · rw [he] at hk
    rw [nbit_test]
    exact Nat.testBit_lt_two_pow ((Nat.log2_lt h).1 hk)

theorem nbit_exists {a : Nat} (h : a ≠ 0) (ha : a < 2 ^ 32) : ∃ k < 32, nbit a k = true :=
  ⟨Nat.log2 a, (Nat.log2_lt h).2 ha, by rw [nbit_test]; exact Nat.testBit_log2 h⟩

theorem ctz_bits {a : Nat} (ha : a < 2 ^ 32) : (a = 0 → ctzNat a = 32) ∧
    (a ≠ 0 → ctzNat a < 32 ∧ nbit a (ctzNat a) = true ∧ ∀ k < ctzNat a, nbit a k = false) := by
  refine ⟨fun h => ?_, fun h => ?_⟩
  · subst h
    decide
  · obtain ⟨k, hk, hb⟩ := nbit_exists h ha
    cases hf : (List.range 32).find? fun k => nbit a k with
    | none => exact absurd hb (by simpa using List.find?_eq_none.1 hf k (List.mem_range.2 hk))
    | some n =>
      have hn : ctzNat a = n := by rw [ctzNat, hf]; rfl
      rw [List.find?_range_eq_some] at hf
      obtain ⟨hbit, hmem, hlow⟩ := hf
      rw [hn]
      exact ⟨List.mem_range.1 hmem, hbit, fun j hj => by simpa using hlow j hj⟩

/-! ## The words -/

theorem lanesMeet_one {i : Instr} {x : Op1} {f : Nat → Nat} {P : List Nat → Nat → Prop}
    (he : ∀ s, exec i s = issueWord i s (oneBody x f)) (hP : ∀ vs, P vs (f (arg vs 0))) :
    lanesMeet i (shape x.g x.d 1 [x.a]) P :=
  lanesMeet_of (fun vs => f (arg vs 0)) hP (lanesGive_of he fun h => by unfold oneBody; rfl)

theorem bfx_meets (x : BfxOp) : lanesGive (.bfx x) (shape x.g x.d 1 [x.a, x.b]) fun _ _ vs =>
    (bfxNat x.sx (arg vs 0) (arg vs 1), 0) := by
  refine lanesGive_of (fun _ => by rw [exec_bfx, execBfx]) fun h => ?_
  rfl

theorem bfi_meets (x : Op3) : lanesGive (.bfi x) (shape x.g x.d 1 [x.a, x.b, x.c]) fun _ _ vs =>
    (bfiNat (arg vs 0) (arg vs 1) (arg vs 2), 0) := by
  refine lanesGive_of (fun _ => by rw [exec_bfi, execBfi]) fun h => ?_
  rfl

theorem prmt_meets (x : Op3) : lanesGive (.prmt x) ⟨x.g, x.d, 1, [(x.a, 1), (x.b, 1)] ++ if isImm x.b then [] else [(x.c, 1)]⟩
    fun _ _ vs => (prmtNat (arg vs 0) (arg vs 1) (arg vs 2), 0) := by
  refine lanesGive_of (fun _ => by rw [exec_prmt, execPrmt]) fun h => ?_
  rfl

theorem leaNat_eq (x : LeaOp) (a b : Nat) : leaNat x a b =
    if x.w64 then patOf 64 (a + (if x.zx then ((b % 2 ^ 32 : Nat) : Int) else intOf true 32 b) * 2 ^ x.sh.val)
    else (a + b * 2 ^ x.sh.val) % 2 ^ 32 := by
  rw [leaNat]
  cases hz : x.zx
  · rfl
  · simp only [Bool.not_true, intOf_unsigned, if_true]
    rfl

theorem movNat_eq (x : Op1F) (a : Nat) :
    movNat x a = if x.flag = true ∧ isImm x.a = true then patOf 64 (intOf true 32 a) else a := by
  rw [movNat]
  simp only [Bool.and_eq_true]
  rfl

/-- Settles O38: each word is `runLanes` over its shape; what it computes is the bits, bytes and fields above. -/
theorem bitFieldResults : Obligations.BitFieldResults := by
  refine ⟨fun x => lanesMeet_of _ (fun vs => ⟨fun h0 => ?_, fun hl hs hf => ?_, fun hl hf => bfx_plain hl hf⟩) (bfx_meets x),
    fun x => lanesMeet_of _ (fun vs => bfi_bits _ _ _) (bfi_meets x),
    fun x => lanesMeet_of _ (fun vs => ⟨(prmt_bytes _ _ _).1, fun k hk ha => ?_⟩) (prmt_meets x),
    fun x => ⟨lanesMeet_one (fun _ => exec_popc) fun vs => rfl, lanesMeet_one (fun _ => exec_clz) fun vs ha => clz_bits ha,
      lanesMeet_one (fun _ => exec_ctz) fun vs ha => ctz_bits ha, lanesMeet_one (fun _ => exec_brev) fun vs => brev_bits _⟩,
    fun x => lanesGive_of (fun _ => by rw [exec_lea, execLea]) fun h => ?_,
    fun x => lanesGive_of (fun _ => by rw [exec_sel, execSel]) fun h => ?_,
    fun x => lanesGive_of (fun _ => by rw [exec_mov, execMov]) fun h => ?_⟩
  · rw [bfxNat_eq, if_pos h0]
  · rw [hs]
    rw [hs] at hf
    exact bfx_signed hl hf
  · rw [(prmt_bytes _ _ _).2 k hk, prmtByte_eq (Nat.mod_lt _ (by decide)), prmt_pool ha]
  · simp only [leaNat_eq]
    rfl
  · rfl
  · simp only [movNat_eq]
    rfl

end Sys2Proof
end

section
/-! # The one rounding (O42) -/
namespace Sys2Proof
open Machine
set_option Elab.async false

/-! ## Integers nearest to a value -/

/-- `m` is the integer nearest to `y`, of two as near the even one. -/
def RoundsEven (y : ℝ) (m : Nat) : Prop := |y - m| ≤ 1 / 2 ∧ (|y - m| = 1 / 2 → m % 2 = 0)

/-- Another integer is as far away or farther, and as far only from the middle of two. -/
theorem RoundsEven.nearest {y : ℝ} {m : Nat} (h : RoundsEven y m) (j : Nat) :
    |(m : ℝ) - y| ≤ |(j : ℝ) - y| ∧ (j ≠ m → |(m : ℝ) - y| = |(j : ℝ) - y| → m % 2 = 0) := by
  obtain ⟨hle, htie⟩ := h
  by_cases hj : j = m
  · exact ⟨by rw [hj], fun hn => absurd hj hn⟩
  · have hfar : (1 : ℝ) ≤ |(j : ℝ) - m| := by
      have : (1 : ℤ) ≤ |(j : ℤ) - m| := Int.one_le_abs (by omega)
      exact_mod_cast this
    have htri : |(j : ℝ) - m| ≤ |(j : ℝ) - y| + |y - m| := abs_sub_le _ _ _
    rw [abs_sub_comm (m : ℝ) y]
    exact ⟨by linarith, fun _ he => htie (by linarith)⟩

/-- In halves of `d`, `rneDiv n d` is nearest to `n / d`, of two as near the even one. -/
theorem rneDiv_halves {n d : Nat} (hd : 0 < d) :
    2 * n ≤ (2 * rneDiv n d + 1) * d ∧ 2 * rneDiv n d * d ≤ 2 * n + d ∧
      (2 * n = (2 * rneDiv n d + 1) * d ∨ 2 * rneDiv n d * d = 2 * n + d → rneDiv n d % 2 = 0) := by
  have hn : n = d * (n / d) + n % d := (Nat.div_add_mod n d).symm
  have hr : n % d < d := Nat.mod_lt _ hd
  unfold rneDiv
  dsimp only
  generalize n / d = q at *
  generalize n % d = r at *
  subst hn
  split_ifs with h1 h2 h3
  · exact ⟨by nlinarith, by nlinarith, by rintro (h | h) <;> nlinarith⟩
  · exact ⟨by nlinarith, by nlinarith, by rintro (h | h) <;> nlinarith⟩
  · exact ⟨by nlinarith, by nlinarith, fun _ => h3⟩
  · exact ⟨by nlinarith, by nlinarith, fun _ => by omega⟩

theorem rneDiv_rounds {n d : Nat} (hd : 0 < d) : RoundsEven ((n : ℝ) / d) (rneDiv n d) := by
  obtain ⟨h1, h2, h3⟩ := rneDiv_halves (n := n) hd
  have hd' : (0 : ℝ) < d := by exact_mod_cast hd
  have h1' : 2 * (n : ℝ) ≤ (2 * rneDiv n d + 1) * d := by exact_mod_cast h1
  have h2' : 2 * (rneDiv n d : ℝ) * d ≤ 2 * n + d := by exact_mod_cast h2
  have hx : (n : ℝ) / d * d = n := div_mul_cancel₀ _ hd'.ne'
  generalize (n : ℝ) / d = x at hx
  refine ⟨abs_le.2 ⟨?_, ?_⟩, fun he => h3 ?_⟩
  · nlinarith
  · nlinarith
  · obtain he | he := (abs_eq (by norm_num)).1 he
    · left
      have : 2 * (n : ℝ) = (2 * rneDiv n d + 1) * d := by
        rw [← hx, show x = rneDiv n d + 1 / 2 by linarith]
        ring
      exact_mod_cast this
    · right
      have : 2 * (rneDiv n d : ℝ) * d = 2 * n + d := by
        rw [← hx, show x = rneDiv n d - 1 / 2 by linarith]
        ring
      exact_mod_cast this

/-! ## Exponents and quanta -/

theorem zpow_toNat {z : ℤ} (hz : 0 ≤ z) : (2 : ℝ) ^ z.toNat = (2 : ℝ) ^ z := by
  rw [← zpow_natCast, Int.toNat_of_nonneg hz]

theorem log2_bounds {n : Nat} (hn : 0 < n) : (2 : ℝ) ^ Nat.log2 n ≤ n ∧ (n : ℝ) < 2 ^ (Nat.log2 n + 1) := by
  have h1 : 2 ^ Nat.log2 n ≤ n := (Nat.le_log2 hn.ne').1 le_rfl
  have h2 : n < 2 ^ (Nat.log2 n + 1) := (Nat.log2_lt hn.ne').1 (Nat.lt_succ_self _)
  exact ⟨by exact_mod_cast h1, by exact_mod_cast h2⟩

/-- The quotient of two numbers lies within a factor 2 of that of their leading bits. -/
theorem div_log2_bounds {n d : Nat} (hn : 0 < n) (hd : 0 < d) :
    (2 : ℝ) ^ ((Nat.log2 n : ℤ) - Nat.log2 d - 1) ≤ (n : ℝ) / d ∧ (n : ℝ) / d < 2 ^ ((Nat.log2 n : ℤ) - Nat.log2 d + 1) := by
  obtain ⟨hn1, hn2⟩ := log2_bounds hn
  obtain ⟨hd1, hd2⟩ := log2_bounds hd
  have hd0 : (0 : ℝ) < d := by exact_mod_cast hd
  rw [le_div_iff₀ hd0, div_lt_iff₀ hd0]
  constructor
  · calc (2 : ℝ) ^ ((Nat.log2 n : ℤ) - Nat.log2 d - 1) * d
        ≤ (2 : ℝ) ^ ((Nat.log2 n : ℤ) - Nat.log2 d - 1) * 2 ^ (Nat.log2 d + 1) := by gcongr
      _ = 2 ^ Nat.log2 n := by
        rw [← zpow_natCast, ← zpow_natCast, ← zpow_add₀ two_ne_zero]
        congr 1
        push_cast
        ring
      _ ≤ n := hn1
  · calc (n : ℝ) < 2 ^ (Nat.log2 n + 1) := hn2
      _ = (2 : ℝ) ^ ((Nat.log2 n : ℤ) - Nat.log2 d + 1) * 2 ^ Nat.log2 d := by
        rw [← zpow_natCast, ← zpow_natCast, ← zpow_add₀ two_ne_zero]
        congr 1
        push_cast
        ring
      _ ≤ _ := by gcongr

/-- The comparison that `leadExp` makes: the quotient is at least 2^k. -/
theorem leadExp_cond {n d : Nat} (hd : 0 < d) (k : ℤ) :
    (if 0 ≤ k then (if d * 2 ^ k.toNat ≤ n then k else k - 1) else (if d ≤ n * 2 ^ (-k).toNat then k else k - 1)) =
      if (2 : ℝ) ^ k ≤ (n : ℝ) / d then k else k - 1 := by
  have hd0 : (0 : ℝ) < d := by exact_mod_cast hd
  have hp : (0 : ℝ) < 2 ^ k := by positivity
  have hup : 0 ≤ k → (d * 2 ^ k.toNat ≤ n ↔ (2 : ℝ) ^ k ≤ (n : ℝ) / d) := fun h0 => by
    rw [le_div_iff₀ hd0, mul_comm (2 ^ k : ℝ), ← zpow_toNat h0]
    exact_mod_cast Iff.rfl
  have hdown : ¬ 0 ≤ k → (d ≤ n * 2 ^ (-k).toNat ↔ (2 : ℝ) ^ k ≤ (n : ℝ) / d) := fun h0 => by
    rw [le_div_iff₀ hd0, mul_comm (2 ^ k : ℝ), ← le_div_iff₀ hp, div_eq_mul_inv, ← zpow_neg, ← zpow_toNat (by omega : 0 ≤ -k)]
    exact_mod_cast Iff.rfl
  split
  · next h0 => simp only [hup h0]
  · next h0 => simp only [hdown h0]

theorem leadExp_bounds {n d : Nat} (hn : 0 < n) (hd : 0 < d) :
    (2 : ℝ) ^ leadExp n d ≤ (n : ℝ) / d ∧ (n : ℝ) / d < 2 ^ (leadExp n d + 1) := by
  obtain ⟨hlo, hhi⟩ := div_log2_bounds hn hd
  unfold leadExp
  dsimp only
  rw [leadExp_cond hd]
  split_ifs with h
  · exact ⟨h, hhi⟩
  · exact ⟨hlo, by rw [sub_add_cancel]; exact not_le.1 h⟩

/-- The exact value as a real number. -/
noncomputable def realRatio (n d : Nat) (e : Int) : ℝ := (n : ℝ) / d * 2 ^ e

theorem ratio_cast (n d : Nat) (e : Int) : ((ratio n d e : ℚ) : ℝ) = realRatio n d e := by
  unfold ratio realRatio
  push_cast
  rfl

theorem quantise_rounds {n d : Nat} (hd : 0 < d) (e q : Int) : RoundsEven (realRatio n d e / 2 ^ q) (quantise n d e q) := by
  have hp : (0 : ℝ) < 2 ^ q := by positivity
  have hd0 : (d : ℝ) ≠ 0 := by exact_mod_cast hd.ne'
  have hx : realRatio n d e / 2 ^ q = (n : ℝ) / d * 2 ^ (e - q) := by
    rw [realRatio, mul_div_assoc, ← zpow_sub₀ two_ne_zero]
  unfold quantise
  rw [hx]
  split_ifs with h
  · have := rneDiv_rounds (n := n * 2 ^ (e - q).toNat) hd
    push_cast at this
    rwa [zpow_toNat (by omega), mul_div_right_comm] at this
  · have := rneDiv_rounds (n := n) (d := d * 2 ^ (q - e).toNat) (by positivity)
    push_cast at this
    rwa [zpow_toNat (by omega), ← div_div, ← neg_sub e q, zpow_neg, div_inv_eq_mul, neg_sub] at this

/-! ## Patterns -/

/-- `m` quanta of 2^(least + a) are what `x` rounds to in the format's precision: the quantum is the least, or `x` has all
the bits of a mantissa in it. -/
def RoundsAt (f : FF) (x : ℝ) (a m : Nat) : Prop :=
  RoundsEven (x / 2 ^ (ffMin f + a)) m ∧ (a = 0 ∨ (2 : ℝ) ^ f.mb ≤ x / 2 ^ (ffMin f + a)) ∧
    x / 2 ^ (ffMin f + a) < 2 ^ (f.mb + 1)

theorem roundPat_roundsAt (f : FF) {n d : Nat} (hn : 0 < n) (hd : 0 < d) (e : Int) :
    ∃ a m, roundPat f n d e = a * 2 ^ f.mb + m ∧ RoundsAt f (realRatio n d e) a m ∧
      (a : Int) = max (leadExp n d + e - f.mb) (ffMin f) - ffMin f := by
  obtain ⟨hlo, hhi⟩ := leadExp_bounds hn hd
  have hqm : ffMin f ≤ max (leadExp n d + e - f.mb) (ffMin f) := le_max_right _ _
  have ha : ((max (leadExp n d + e - f.mb) (ffMin f) - ffMin f).toNat : Int) =
      max (leadExp n d + e - f.mb) (ffMin f) - ffMin f := Int.toNat_of_nonneg (by omega)
  refine ⟨_, _, by rw [roundPat, if_neg hn.ne'], ⟨?_, ?_, ?_⟩, ha⟩
  · rw [ha, add_sub_cancel]
    exact quantise_rounds hd e _
  · rcases le_total (leadExp n d + e - f.mb) (ffMin f) with h | h
    · left
      rw [max_eq_right h]
      simp
    · right
      rw [ha, add_sub_cancel, max_eq_left h, realRatio, mul_div_assoc, ← zpow_sub₀ two_ne_zero]
      calc (2 : ℝ) ^ f.mb = 2 ^ leadExp n d * 2 ^ (e - (leadExp n d + e - f.mb)) := by
            rw [← zpow_add₀ two_ne_zero, ← zpow_natCast]
            congr 1
            ring
        _ ≤ _ := by gcongr
  · rw [ha, add_sub_cancel, realRatio, mul_div_assoc, ← zpow_sub₀ two_ne_zero]
    have hq : leadExp n d + e - f.mb ≤ max (leadExp n d + e - f.mb) (ffMin f) := le_max_left _ _
    generalize max (leadExp n d + e - f.mb) (ffMin f) = q at hq
    calc (n : ℝ) / d * 2 ^ (e - q) < 2 ^ (leadExp n d + 1) * 2 ^ (e - q) := by gcongr
      _ = 2 ^ (leadExp n d + 1 + (e - q)) := (zpow_add₀ two_ne_zero _ _).symm
      _ ≤ (2 : ℝ) ^ ((f.mb + 1 : Nat) : ℤ) := zpow_le_zpow_right₀ (by norm_num) (by push_cast; omega)
      _ = 2 ^ (f.mb + 1) := zpow_natCast _ _

theorem RoundsAt.le {f : FF} {x : ℝ} {a m : Nat} (h : RoundsAt f x a m) : m ≤ 2 ^ (f.mb + 1) := by
  obtain ⟨⟨hr, -⟩, -, hlt⟩ := h
  have h1 := (abs_le.1 hr).1
  have : (m : ℝ) < 2 ^ (f.mb + 1) + 1 := by linarith
  have : m < 2 ^ (f.mb + 1) + 1 := by exact_mod_cast this
  omega

theorem RoundsAt.full {f : FF} {x : ℝ} {a m : Nat} (h : RoundsAt f x a m) : a = 0 ∨ 2 ^ f.mb ≤ m := by
  obtain ⟨⟨hr, -⟩, hlo, -⟩ := h
  refine hlo.imp id fun hlo => ?_
  have h1 := (abs_le.1 hr).2
  have : (2 : ℝ) ^ f.mb < m + 1 := by linarith
  have : 2 ^ f.mb < m + 1 := by exact_mod_cast this
  omega

/-- The value of a pattern in real numbers. -/
noncomputable def realVal (f : FF) (p : Nat) : ℝ := (patVal f p : ℚ)

/-- The pattern of `m` quanta of 2^(least + a): `m` may reach the next power of 2. -/
theorem realVal_quanta (f : FF) {a m : Nat} (hf : a = 0 ∨ 2 ^ f.mb ≤ m) (hm : m ≤ 2 ^ (f.mb + 1)) :
    realVal f (a * 2 ^ f.mb + m) = m * 2 ^ (ffMin f + a) := by
  have hp : 0 < 2 ^ f.mb := by positivity
  rw [pow_succ] at hm
  rw [realVal, patVal, Nat.add_comm, Nat.add_mul_div_right _ _ hp, Nat.add_mul_mod_self_right]
  obtain hsmall | hbig := lt_or_ge m (2 ^ f.mb)
  · have ha : a = 0 := hf.resolve_right (by omega)
    subst ha
    rw [Nat.div_eq_of_lt hsmall, if_pos rfl]
    push_cast
    simp
  · rw [if_neg (by have := Nat.div_pos hbig hp; omega)]
    obtain hlt | heq := lt_or_eq_of_le hm
    · have hdiv : m / 2 ^ f.mb = 1 := Nat.div_eq_of_lt_le (by omega) (by omega)
      have hmod : 2 ^ f.mb + m % 2 ^ f.mb = m := by
        have := Nat.div_add_mod m (2 ^ f.mb)
        rw [hdiv] at this
        omega
      rw [hmod, hdiv]
      push_cast
      congr 2
      ring
    · rw [heq, Nat.mul_div_cancel_left _ hp, Nat.mul_mod_right]
      push_cast
      rw [add_zero, mul_assoc, ← zpow_one_add₀ two_ne_zero]
      congr 2
      ring

/-- Every pattern is some quanta. -/
theorem pattern_quanta (f : FF) (q : Nat) :
    ∃ a m, q = a * 2 ^ f.mb + m ∧ (a = 0 ∨ 2 ^ f.mb ≤ m) ∧ m < 2 ^ (f.mb + 1) := by
  have hp : 0 < 2 ^ f.mb := by positivity
  have hmod : q % 2 ^ f.mb < 2 ^ f.mb := Nat.mod_lt _ hp
  have hdm := Nat.div_add_mod q (2 ^ f.mb)
  rw [mul_comm] at hdm
  cases h : q / 2 ^ f.mb with
  | zero =>
    rw [h] at hdm
    exact ⟨0, q, by omega, .inl rfl, by rw [pow_succ]; omega⟩
  | succ a =>
    rw [h, Nat.succ_mul] at hdm
    exact ⟨a, 2 ^ f.mb + q % 2 ^ f.mb, by omega, .inr (by omega), by rw [pow_succ]; omega⟩

/-- Where the quantum of `q` is no smaller, its value is a whole number of quanta of `x`. -/
theorem realVal_multiple (f : FF) {a a' m' : Nat} (h : a ≤ a') :
    (m' : ℝ) * 2 ^ (ffMin f + a') = ((m' * 2 ^ (a' - a) : Nat) : ℝ) * 2 ^ (ffMin f + a) := by
  push_cast
  rw [mul_assoc, ← zpow_natCast, ← zpow_add₀ two_ne_zero]
  congr 2
  omega

/-- R112: what a value rounds to is nearest to it of all patterns, of two as near the even one. -/
theorem RoundsAt.nearest {f : FF} (hM : 1 ≤ f.mb) {x : ℝ} {a m : Nat} (h : RoundsAt f x a m) (q : Nat) :
    |realVal f (a * 2 ^ f.mb + m) - x| ≤ |realVal f q - x| ∧
      (q ≠ a * 2 ^ f.mb + m → |realVal f (a * 2 ^ f.mb + m) - x| = |realVal f q - x| → (a * 2 ^ f.mb + m) % 2 = 0) := by
  obtain ⟨a', m', rfl, hf', hlt'⟩ := pattern_quanta f q
  have hfull := h.full
  rw [realVal_quanta f hfull h.le, realVal_quanta f hf' hlt'.le]
  obtain ⟨hr, hlo, -⟩ := h
  have hQ : (0 : ℝ) < 2 ^ (ffMin f + a) := by positivity
  have hx : x = x / 2 ^ (ffMin f + a) * 2 ^ (ffMin f + a) := (div_mul_cancel₀ _ hQ.ne').symm
  have hscale : ∀ j : Nat, |(j : ℝ) * 2 ^ (ffMin f + a) - x| = |(j : ℝ) - x / 2 ^ (ffMin f + a)| * 2 ^ (ffMin f + a) := by
    intro j
    rw [← abs_of_pos hQ, ← abs_mul, abs_of_pos hQ, sub_mul, ← hx]
  have heven : (a * 2 ^ f.mb + m) % 2 = m % 2 := by
    obtain ⟨k, hk⟩ := Nat.exists_eq_succ_of_ne_zero (by omega : f.mb ≠ 0)
    rw [hk, Nat.pow_succ, ← mul_assoc]
    omega
  rw [hscale m, heven]
  obtain hle | hgt := le_or_gt a a'
  · obtain ⟨hn, ht⟩ := hr.nearest (m' * 2 ^ (a' - a))
    rw [realVal_multiple f hle, hscale]
    refine ⟨by gcongr, fun hne he => ?_⟩
    by_cases hj : m' * 2 ^ (a' - a) = m
    · obtain rfl | hlt := eq_or_lt_of_le hle
      · rw [Nat.sub_self, pow_zero, mul_one] at hj
        exact absurd (by rw [hj]) hne
      · obtain ⟨k, hk⟩ := Nat.exists_eq_succ_of_ne_zero (by omega : a' - a ≠ 0)
        rw [← hj, hk, pow_succ, ← mul_assoc]
        exact Nat.mul_mod_left _ _
    · exact ht hj (mul_right_cancel₀ hQ.ne' he)
  · have hlo : (2 : ℝ) ^ f.mb ≤ x / 2 ^ (ffMin f + a) := hlo.resolve_left (by omega)
    have hclose : |(m : ℝ) - x / 2 ^ (ffMin f + a)| ≤ |((2 ^ f.mb : Nat) : ℝ) - x / 2 ^ (ffMin f + a)| := (hr.nearest _).1
    have hbelow : (m' : ℝ) * 2 ^ (ffMin f + a') < 2 ^ f.mb * 2 ^ (ffMin f + a) := by
      calc (m' : ℝ) * 2 ^ (ffMin f + a') < 2 ^ (f.mb + 1) * 2 ^ (ffMin f + a') := by
            have : (m' : ℝ) < 2 ^ (f.mb + 1) := by exact_mod_cast hlt'
            gcongr
        _ = 2 ^ f.mb * 2 ^ (ffMin f + a' + 1) := by
            rw [pow_succ, zpow_add_one₀ two_ne_zero]
            ring
        _ ≤ _ := by
            have : (2 : ℝ) ^ (ffMin f + a' + 1) ≤ 2 ^ (ffMin f + a) := zpow_le_zpow_right₀ (by norm_num) (by omega)
            gcongr
    have hfar : |((2 ^ f.mb : Nat) : ℝ) - x / 2 ^ (ffMin f + a)| * 2 ^ (ffMin f + a) <
        |(m' : ℝ) * 2 ^ (ffMin f + a') - x| := by
      have hxge : 2 ^ f.mb * 2 ^ (ffMin f + a) ≤ x := (le_div_iff₀ hQ).1 hlo
      rw [← hscale, abs_of_nonpos (by push_cast; linarith), abs_of_neg (by linarith)]
      push_cast
      linarith
    have hlt : |(m : ℝ) - x / 2 ^ (ffMin f + a)| * 2 ^ (ffMin f + a) < |(m' : ℝ) * 2 ^ (ffMin f + a') - x| :=
      lt_of_le_of_lt (by gcongr) hfar
    exact ⟨hlt.le, fun _ he => absurd he hlt.ne⟩

/-! ## The rounding of the model -/

theorem roundPat_nearest {f : FF} (hM : 1 ≤ f.mb) {n d : Nat} (hd : 0 < d) (e : Int) (q : Nat) :
    |realVal f (roundPat f n d e) - realRatio n d e| ≤ |realVal f q - realRatio n d e| ∧
      (q ≠ roundPat f n d e → |realVal f (roundPat f n d e) - realRatio n d e| = |realVal f q - realRatio n d e| →
        roundPat f n d e % 2 = 0) := by
  obtain rfl | hn := Nat.eq_zero_or_pos n
  · have h0 : roundPat f 0 d e = 0 := by rw [roundPat, if_pos rfl]
    have hv : realVal f 0 = 0 := by simp [realVal, patVal]
    have hr : realRatio 0 d e = 0 := by simp [realRatio]
    rw [h0, hv, hr]
    exact ⟨by simp, fun _ _ => rfl⟩
  · obtain ⟨a, m, hp, hr, -⟩ := roundPat_roundsAt f hn hd e
    rw [hp]
    exact hr.nearest hM q

/-- Settles O42: the quanta that the rounding takes are the nearest whole number of them, and every other pattern lies on
the same lattice or below the value's own power of 2. -/
theorem roundsToNearest : Obligations.RoundsToNearest := by
  intro f hf n d e p q hd hp
  have hM : 1 ≤ f.mb := by
    simp only [List.mem_cons, List.not_mem_nil, or_false] at hf
    rcases hf with rfl | rfl | rfl | rfl | rfl | rfl <;> decide
  subst hp
  have := roundPat_nearest (n := n) hM hd e q
  rw [realVal, realVal, ← ratio_cast] at this
  exact_mod_cast this

end Sys2Proof
end

section
/-! # Results of the floating-point words (O39) -/
namespace Sys2Proof
open Machine
set_option Elab.async false

/-! ## Integer roots -/

theorem isqrtN_spec (n k r : Nat) (hr : r * r ≤ n) (hk : n < (r + 2 ^ k) * (r + 2 ^ k)) :
    isqrtN n k r * isqrtN n k r ≤ n ∧ n < (isqrtN n k r + 1) * (isqrtN n k r + 1) := by
  induction k generalizing r with
  | zero => exact ⟨hr, hk⟩
  | succ k ih =>
    rw [isqrtN]
    split
    · next h =>
      refine ih _ h ?_
      rwa [add_assoc, ← two_mul, ← pow_succ']
    · next h => exact ih _ hr (not_le.1 h)

theorem isqrt_spec (n : Nat) : isqrt n * isqrt n ≤ n ∧ n < (isqrt n + 1) * (isqrt n + 1) := by
  refine isqrtN_spec n _ 0 (Nat.zero_le _) ?_
  rw [zero_add, ← pow_add]
  obtain rfl | hn := Nat.eq_zero_or_pos n
  · exact Nat.two_pow_pos _
  · calc n < 2 ^ (Nat.log2 n + 1) := (Nat.log2_lt hn.ne').1 (Nat.lt_succ_self _)
      _ ≤ _ := Nat.pow_le_pow_right (by decide) (by omega)

theorem isqrt_le_sqrt (n : Nat) : (isqrt n : ℝ) ≤ √n ∧ √n < isqrt n + 1 := by
  obtain ⟨h1, h2⟩ := isqrt_spec n
  have h1' : (isqrt n : ℝ) * isqrt n ≤ n := by exact_mod_cast h1
  have h2' : (n : ℝ) < (isqrt n + 1) * (isqrt n + 1) := by exact_mod_cast h2
  exact ⟨Real.le_sqrt_of_sq_le (by rw [sq]; exact h1'), (Real.sqrt_lt' (by positivity)).2 (by rw [sq]; exact h2')⟩

/-! ## A sticky bit -/

/-- `n` stands for `y`: it is `y`, or odd and the only integer nearer to `y` than 1 on both sides. -/
def Sticky (y : ℝ) (n : Nat) : Prop := y = n ∨ (n % 2 = 1 ∧ (n : ℝ) - 1 < y ∧ y < n + 1)

section
variable {y : ℝ} {n b : Nat}

theorem Sticky.le (h : Sticky y n) (hb : b % 2 = 0) (hn : n ≤ b) : y ≤ b := by
  obtain rfl | ⟨hodd, -, hlt⟩ := h
  · exact_mod_cast hn
  · have : (n : ℝ) + 1 ≤ b := by exact_mod_cast (by omega : n + 1 ≤ b)
    linarith

theorem Sticky.ge (h : Sticky y n) (hb : b % 2 = 0) (hn : b ≤ n) : (b : ℝ) ≤ y := by
  obtain rfl | ⟨hodd, hlt, -⟩ := h
  · exact_mod_cast hn
  · have : (b : ℝ) + 1 ≤ n := by exact_mod_cast (by omega : b + 1 ≤ n)
    linarith

theorem Sticky.lt (h : Sticky y n) (hb : b % 2 = 0) (hn : n < b) : y < b := by
  obtain rfl | ⟨hodd, -, hlt⟩ := h
  · exact_mod_cast hn
  · have : (n : ℝ) + 1 ≤ b := by exact_mod_cast (by omega : n + 1 ≤ b)
    linarith

/-- A value equal to an even integer is stood for by that integer alone. -/
theorem Sticky.eq (h : Sticky y n) (hb : b % 2 = 0) (he : y = b) : n = b := by
  obtain rfl | ⟨hodd, hlo, hhi⟩ := h
  · exact_mod_cast he
  · rw [he] at hlo hhi
    have h1 : n < b + 1 := by exact_mod_cast (by linarith : (n : ℝ) < b + 1)
    have h2 : b < n + 1 := by exact_mod_cast hhi
    omega

end

/-- A rounding in halves of a quantum of 2c. -/
theorem roundsEven_halves {z c : ℝ} (hc : 0 < c) (m : Nat) : RoundsEven (z / (2 * c)) m ↔
    z ≤ (2 * m + 1) * c ∧ 2 * m * c ≤ z + c ∧ (z = (2 * m + 1) * c ∨ 2 * m * c = z + c → m % 2 = 0) := by
  obtain ⟨x, rfl⟩ : ∃ x, z = x * (2 * c) := ⟨z / (2 * c), (div_mul_cancel₀ _ (by positivity)).symm⟩
  rw [mul_div_cancel_right₀ _ (by positivity), RoundsEven, abs_le, abs_eq (by norm_num)]
  have h1 : x * (2 * c) ≤ (2 * m + 1) * c ↔ x - m ≤ 1 / 2 :=
    ⟨fun h => by nlinarith, fun h => by nlinarith⟩
  have h2 : 2 * m * c ≤ x * (2 * c) + c ↔ -(1 / 2) ≤ x - m :=
    ⟨fun h => by nlinarith, fun h => by nlinarith⟩
  have h3 : x * (2 * c) = (2 * m + 1) * c ↔ x - m = 1 / 2 :=
    ⟨fun h => mul_right_cancel₀ hc.ne' (by linarith), fun h => by rw [show x = m + 1 / 2 by linarith]; ring⟩
  have h4 : 2 * m * c = x * (2 * c) + c ↔ x - m = -(1 / 2) :=
    ⟨fun h => mul_right_cancel₀ hc.ne' (by linarith), fun h => by rw [show x = m - 1 / 2 by linarith]; ring⟩
  rw [h1, h2, h3, h4, and_assoc]
  exact and_left_comm

theorem Sticky.nonneg {y : ℝ} {n : Nat} (h : Sticky y n) : 0 ≤ y := by
  exact_mod_cast h.ge (b := 0) rfl (Nat.zero_le _)

/-- A rounding at quanta of 4 or more does not tell a value from the integer that stands for it. -/
theorem Sticky.roundsEven {y : ℝ} {n c m : Nat} (h : Sticky y n) (hc : 0 < c) (heven : c % 2 = 0)
    (hr : RoundsEven ((n : ℝ) / (2 * c)) m) : RoundsEven (y / (2 * c)) m := by
  have hc' : (0 : ℝ) < c := by exact_mod_cast hc
  have hmul : ∀ k, k * c % 2 = 0 := fun k => by rw [Nat.mul_mod, heven]; simp
  rw [roundsEven_halves hc'] at hr ⊢
  obtain ⟨hup, hlo, htie⟩ := hr
  have hup' : n ≤ (2 * m + 1) * c := by exact_mod_cast hup
  have hlo' : 2 * m * c ≤ n + c := by exact_mod_cast hlo
  have hb : (2 * m - 1) * c + c = 2 * m * c ∨ m = 0 := by
    obtain rfl | hm := Nat.eq_zero_or_pos m
    · exact .inr rfl
    · exact .inl (by rw [← Nat.succ_mul]; congr 1; omega)
  refine ⟨by exact_mod_cast h.le (hmul _) hup', ?_, fun he => htie ?_⟩
  · obtain hb | rfl := hb
    · have := h.ge (hmul (2 * m - 1)) (by omega)
      have hb' : (((2 * m - 1) * c : Nat) : ℝ) + c = 2 * m * c := by exact_mod_cast hb
      linarith
    · have := h.nonneg
      push_cast
      linarith
  · obtain he | he := he
    · left
      exact_mod_cast h.eq (hmul (2 * m + 1)) (by push_cast; exact he)
    · right
      obtain hb | rfl := hb
      · have hb' : (((2 * m - 1) * c : Nat) : ℝ) + c = 2 * m * c := by exact_mod_cast hb
        have := h.eq (hmul (2 * m - 1)) (by linarith)
        rw [this]
        exact hb'.symm
      · have := h.nonneg
        push_cast at he
        linarith

/-- The patterns alike: a value times 2^e rounds as what stands for it does, at quanta of 4 or more. -/
theorem Sticky.roundsAt {f : FF} {y : ℝ} {n a m : Nat} {e : Int} (h : Sticky y n) (hs : e + 2 ≤ ffMin f + a)
    (hr : RoundsAt f (n * 2 ^ e) a m) : RoundsAt f (y * 2 ^ e) a m := by
  obtain ⟨s, hs⟩ : ∃ s : Nat, ffMin f + a = e + (s + 2 : Nat) := ⟨(ffMin f + a - e - 2).toNat, by omega⟩
  have he : (2 : ℝ) ^ e ≠ 0 := by positivity
  have hq : ∀ z : ℝ, z * 2 ^ e / 2 ^ (ffMin f + a) = z / (2 * (2 ^ (s + 1) : Nat)) := fun z => by
    rw [hs, zpow_add₀ two_ne_zero, mul_comm, mul_div_mul_left _ _ he, zpow_natCast, pow_succ' 2 (s + 1)]
    push_cast
    rfl
  have hc : 0 < 2 ^ (s + 1) := by positivity
  have heven : 2 ^ (s + 1) % 2 = 0 := by rw [pow_succ]; exact Nat.mul_mod_left _ _
  have hmul : ∀ k, k * 2 ^ (s + 1) % 2 = 0 := fun k => by rw [Nat.mul_mod, heven]; simp
  obtain ⟨hr1, hr2, hr3⟩ := hr
  rw [hq] at hr1 hr2 hr3
  have hp : (0 : ℝ) < 2 * (2 ^ (s + 1) : Nat) := by positivity
  refine ⟨by rw [hq]; exact h.roundsEven hc heven hr1, hr2.imp_right fun hlo => ?_, ?_⟩
  · rw [hq, le_div_iff₀ hp]
    rw [le_div_iff₀ hp, ← mul_assoc] at hlo
    rw [← mul_assoc]
    exact_mod_cast h.ge (hmul (2 ^ f.mb * 2)) (by exact_mod_cast hlo)
  · rw [hq, div_lt_iff₀ hp]
    rw [div_lt_iff₀ hp, ← mul_assoc] at hr3
    rw [← mul_assoc]
    exact_mod_cast h.lt (hmul (2 ^ (f.mb + 1) * 2)) (by exact_mod_cast hr3)

/-! ## The values of FP32 patterns -/

/-- The ranges of a finite value's integer and exponent. -/
theorem fvOf_fin {x m : Nat} {neg : Bool} {e : Int} (h : fvOf ffF32 x = .fin neg m e) : m < 2 ^ 24 ∧ -149 ≤ e ∧ e ≤ 104 := by
  have hmin : ffMin ffF32 = -149 := by decide
  have hman : x % ffSign ffF32 % 2 ^ ffF32.mb < 2 ^ 23 := Nat.mod_lt _ (by decide)
  unfold fvOf at h
  dsimp only at h
  rw [hmin] at h
  split_ifs at h with hmax hex
  · cases h
    exact ⟨by omega, by decide, by decide⟩
  · have hex' : x % ffSign ffF32 / 2 ^ ffF32.mb ≤ 254 := by
      have : x % ffSign ffF32 ≤ 0x7F7FFFFF := hmax
      exact Nat.lt_succ_iff.1 (Nat.div_lt_of_lt_mul (lt_of_le_of_lt this (by decide)))
    generalize x % ffSign ffF32 / 2 ^ ffF32.mb = ex at *
    cases h
    exact ⟨lt_of_lt_of_le (Nat.add_lt_add_left hman (2 ^ 23)) (by decide), by omega, by omega⟩

/-! ## Square roots -/

theorem evenExp_root {m m1 : Nat} {e h : Int} (he : evenExp m e = (m1, h)) : √(realRatio m 1 e) = √m1 * 2 ^ h := by
  have h4 : (0 : ℝ) ≤ 2 ^ h := by positivity
  have hval : realRatio m 1 e = m1 * (2 ^ h * 2 ^ h) := by
    unfold evenExp at he
    rw [realRatio, Nat.cast_one, div_one, ← zpow_add₀ two_ne_zero]
    split_ifs at he with hpar
    · cases he
      rw [show e / 2 + e / 2 = e by omega]
    · obtain ⟨j, rfl⟩ : ∃ j, e = 1 + (j + j) := ⟨(e - 1) / 2, by omega⟩
      rw [show (1 + (j + j) - 1) / 2 = j by omega] at he
      cases he
      rw [zpow_add₀ two_ne_zero 1, zpow_one]
      push_cast
      ring
  rw [hval, Real.sqrt_mul (by positivity), Real.sqrt_mul_self h4]

theorem evenExp_bounds {m m1 : Nat} {e h : Int} (he : evenExp m e = (m1, h)) (hm : 0 < m) (hm24 : m < 2 ^ 24) (hlo : -149 ≤ e)
    (hhi : e ≤ 104) : 0 < m1 ∧ m1 < 2 ^ 25 ∧ -75 ≤ h ∧ h ≤ 52 := by
  unfold evenExp at he
  split_ifs at he with hpar <;> cases he <;> exact ⟨by omega, by omega, by omega, by omega⟩

/-- The root with a sticky bit below: twice it, and 1 where it is not whole. -/
def stickyRoot (t : Nat) : Nat := 2 * isqrt t + if isqrt t * isqrt t = t then 0 else 1

theorem stickyRoot_sticky (t : Nat) : Sticky (2 * √t) (stickyRoot t) := by
  obtain ⟨hlo, hhi⟩ := isqrt_le_sqrt t
  unfold stickyRoot
  split
  · next h =>
    left
    have : √(t : ℝ) = isqrt t := by
      conv_lhs => rw [← h]
      push_cast
      exact Real.sqrt_mul_self (Nat.cast_nonneg _)
    rw [this]
    push_cast
    ring
  · next h =>
    right
    have hne : (isqrt t : ℝ) ≠ √t := fun he => h (by
      have := Real.mul_self_sqrt (Nat.cast_nonneg (α := ℝ) t)
      rw [← he] at this
      exact_mod_cast this)
    have hlt : (isqrt t : ℝ) < √t := lt_of_le_of_ne hlo hne
    refine ⟨by omega, ?_, ?_⟩
    · push_cast
      linarith
    · push_cast
      linarith

theorem leadExp_lt {n k : Nat} (hn : 0 < n) (h : n < 2 ^ k) : leadExp n 1 < k := by
  obtain ⟨hlo, -⟩ := leadExp_bounds hn one_pos
  rw [Nat.cast_one, div_one] at hlo
  have : (2 : ℝ) ^ leadExp n 1 < 2 ^ (k : Int) := by
    rw [zpow_natCast]
    exact lt_of_le_of_lt hlo (by exact_mod_cast h)
  exact (zpow_lt_zpow_iff_right₀ (by norm_num)).1 this

theorem le_leadExp {n k : Nat} (h : 2 ^ k ≤ n) : (k : Int) ≤ leadExp n 1 := by
  obtain ⟨-, hhi⟩ := leadExp_bounds (lt_of_lt_of_le (Nat.two_pow_pos k) h) one_pos
  rw [Nat.cast_one, div_one] at hhi
  have : (2 : ℝ) ^ (k : Int) < 2 ^ (leadExp n 1 + 1) := by
    rw [zpow_natCast]
    exact lt_of_le_of_lt (by exact_mod_cast h) hhi
  have := (zpow_lt_zpow_iff_right₀ (by norm_num)).1 this
  omega

/-- The root of a finite value, its exponent even, with 64 bits below its leading one. -/
theorem stickyRoot_bounds {m1 : Nat} (h0 : 0 < m1) (h25 : m1 < 2 ^ 25) :
    2 ^ 64 ≤ stickyRoot (m1 * 2 ^ 128) ∧ stickyRoot (m1 * 2 ^ 128) < 2 ^ 78 := by
  obtain ⟨h1, h2⟩ := isqrt_spec (m1 * 2 ^ 128)
  unfold stickyRoot
  generalize isqrt (m1 * 2 ^ 128) = r at *
  have hlo : 2 ^ 64 ≤ r := by
    by_contra hc
    have : (r + 1) * (r + 1) ≤ 2 ^ 64 * 2 ^ 64 := Nat.mul_le_mul (by omega) (by omega)
    omega
  have hhi : r < 2 ^ 77 := by
    by_contra hc
    have : 2 ^ 77 * 2 ^ 77 ≤ r * r := Nat.mul_le_mul (by omega) (by omega)
    omega
  split <;> exact ⟨by omega, by omega⟩

/-- R162: what the model rounds in the root's place rounds as the root itself does, below the greatest finite value. -/
theorem sqrt_rounds {m m1 : Nat} {e h : Int} (he : evenExp m e = (m1, h)) (hm : 0 < m) (hm24 : m < 2 ^ 24) (hlo : -149 ≤ e)
    (hhi : e ≤ 104) : ∃ a k, roundPat ffF32 (stickyRoot (m1 * 2 ^ 128)) 1 (h - 65) = a * 2 ^ 23 + k ∧
      RoundsAt ffF32 √(realRatio m 1 e) a k ∧ a * 2 ^ 23 + k ≤ ffF32.maxPat := by
  obtain ⟨h0, h25, h75, h52⟩ := evenExp_bounds he hm hm24 hlo hhi
  obtain ⟨hn64, hn78⟩ := stickyRoot_bounds h0 h25
  have hst := stickyRoot_sticky (m1 * 2 ^ 128)
  generalize stickyRoot (m1 * 2 ^ 128) = n at *
  have hn : 0 < n := lt_of_lt_of_le (Nat.two_pow_pos 64) hn64
  have hmin : ffMin ffF32 = -149 := by decide
  have hmb : ffF32.mb = 23 := rfl
  obtain ⟨a, k, hp, hr, ha⟩ := roundPat_roundsAt ffF32 hn one_pos (h - 65)
  have hl := leadExp_lt hn hn78
  have hg := le_leadExp hn64
  rw [hmin, hmb] at ha
  push_cast at hl hg ha
  have hroot : √(realRatio m 1 e) = 2 * √((m1 * 2 ^ 128 : Nat) : ℝ) * 2 ^ (h - 65) := by
    rw [evenExp_root he, Nat.cast_mul, Real.sqrt_mul (by positivity), show ((2 ^ 128 : Nat) : ℝ) = 2 ^ 64 * 2 ^ 64 by norm_num,
      Real.sqrt_mul_self (by positivity), zpow_sub₀ two_ne_zero]
    have : (2 : ℝ) ^ (65 : Int) = 2 * 2 ^ 64 := by norm_num
    rw [this]
    field_simp
  have hreal : realRatio n 1 (h - 65) = n * 2 ^ (h - 65) := by rw [realRatio, Nat.cast_one, div_one]
  rw [hreal] at hr
  refine ⟨a, k, hp, by rw [hroot]; exact hst.roundsAt (by rw [hmin]; omega) hr, ?_⟩
  have hk : k ≤ 2 ^ 24 := hr.le
  have ha' : a ≤ 190 := by omega
  calc a * 2 ^ 23 + k ≤ 190 * 2 ^ 23 + 2 ^ 24 := by omega
    _ ≤ ffF32.maxPat := by decide

theorem sfuSqrt_finite {x m m1 : Nat} {e h : Int} (hx : fvOf ffF32 x = .fin false m e) (hm : m ≠ 0)
    (he : evenExp m e = (m1, h)) : sfuSqrt x = roundArith ffF32 false (stickyRoot (m1 * 2 ^ 128)) 1 (h - 65) := by
  rw [sfuSqrt, hx]
  dsimp only
  rw [if_neg hm, if_neg (by decide), he]
  rfl

/-- R162: `FSQRT`. -/
theorem sfuSqrt_spec (x : Nat) : match fvOf ffF32 x with
    | .nan => sfuSqrt x = (0x7FC00000, 0)
    | .inf n => sfuSqrt x = if n then (0x7FC00000, flagInv) else (0x7F800000, 0)
    | .fin n m e => if m = 0 then sfuSqrt x = (signPat ffF32 n 0, 0) else if n then sfuSqrt x = (0x7FC00000, flagInv)
      else (sfuSqrt x).2 = 0 ∧ (sfuSqrt x).1 ≤ ffF32.maxPat ∧ ∀ q : Nat,
        |(patVal ffF32 (sfuSqrt x).1 : ℝ) - √(ratio m 1 e)| ≤ |(patVal ffF32 q : ℝ) - √(ratio m 1 e)| ∧
        (q ≠ (sfuSqrt x).1 → |(patVal ffF32 (sfuSqrt x).1 : ℝ) - √(ratio m 1 e)| = |(patVal ffF32 q : ℝ) - √(ratio m 1 e)| →
          (sfuSqrt x).1 % 2 = 0) := by
  cases hx : fvOf ffF32 x with
  | nan => rw [sfuSqrt, hx]; rfl
  | inf n => rw [sfuSqrt, hx]; rfl
  | fin n m e =>
    dsimp only
    split_ifs with hm hn
    · rw [sfuSqrt, hx]
      exact if_pos hm
    · rw [sfuSqrt, hx]
      dsimp only
      rw [if_neg hm, if_pos hn]
      rfl
    · obtain rfl : n = false := by simpa using hn
      obtain ⟨hm24, hlo, hhi⟩ := fvOf_fin hx
      cases he : evenExp m e with
      | mk m1 h =>
        obtain ⟨a, k, hp, hr, hmax⟩ := sqrt_rounds he (Nat.pos_of_ne_zero hm) hm24 hlo hhi
        have hres : sfuSqrt x = (a * 2 ^ 23 + k, 0) := by
          rw [sfuSqrt_finite hx hm he, roundArith, hp]
          exact if_pos hmax
        rw [hres, ratio_cast]
        exact ⟨rfl, hmax, fun q => hr.nearest (by decide) q⟩

/-! ## The words -/

theorem lanesGive_fp {i : Instr} {x : FpOp} {o : FOp} (he : ∀ s, exec i s = issueWord i s (fpBody x o)) :
    lanesGive i (shape x.g x.d 1 [x.a, x.b]) fun _ _ vs =>
      fpBin ffF32 o (modA ffF32 x.m (arg vs 0)) (modB ffF32 x.m (arg vs 1)) :=
  lanesGive_of he fun h => by unfold fpBody; rfl

theorem lanesGive_sfu {i : Instr} {x : SfuOp} {f : Nat → Nat × FlagSet} (he : ∀ s, exec i s = issueWord i s (sfuBody x f)) :
    lanesGive i (shape x.g x.d 1 [x.a]) fun _ _ vs => f (fmodPat ffF32 x.na x.aa (arg vs 0)) :=
  lanesGive_of he fun h => by unfold sfuBody; rfl

theorem lanesGive_half {i : Instr} {x : HOp} {o : FOp} (he : ∀ s, exec i s = issueWord i s (hBody x o)) :
    lanesGive i (shape x.g x.d 1 [x.a, x.b]) fun _ _ vs => packed2 fun k =>
      fpBin (ffHalf x.bf) o (modA (ffHalf x.bf) x.m (element 16 k (arg vs 0))) (modB (ffHalf x.bf) x.m (element 16 k (arg vs 1))) :=
  lanesGive_of he fun h => by unfold hBody; rfl

theorem sfuRcp_eq (x : Nat) : sfuRcp x = match fvOf ffF32 x with
    | .nan => (0x7FC00000, 0)
    | .inf n => (signPat ffF32 n 0, 0)
    | .fin n m e => if m = 0 then (signPat ffF32 n 0x7F800000, 0) else roundArith ffF32 n 1 m (-e) := by
  rw [sfuRcp]
  cases fvOf ffF32 x <;> rfl

theorem lanesGive_congr {i : Instr} {w : LaneShape} {f g : Crew → Nat → List Nat → Nat × FlagSet} (h : lanesGive i w f)
    (hfg : ∀ y l vs, f y l vs = g y l vs) : lanesGive i w g := by
  obtain rfl : f = g := funext fun y => funext fun l => funext fun vs => hfg y l vs
  exact h

theorem lanesGive_ffma (x : Fp3Op) : lanesGive (.ffma x) (shape x.g x.d 1 [x.a, x.b, x.c]) fun _ _ vs =>
    fpFma ffF32 (modA ffF32 x.m (arg vs 0)) (modB ffF32 x.m (arg vs 1)) (modC ffF32 x.m (arg vs 2)) := by
  refine lanesGive_of (fun _ => by rw [exec_ffma, execFfma]) fun h => ?_
  rfl

theorem lanesGive_hfma2 (x : H3Op) : lanesGive (.hfma2 x) (shape x.g x.d 1 [x.a, x.b, x.c]) fun _ _ vs => packed2 fun k =>
    fpFma (ffHalf x.bf) (modA (ffHalf x.bf) x.m (element 16 k (arg vs 0))) (modB (ffHalf x.bf) x.m (element 16 k (arg vs 1)))
      (modC (ffHalf x.bf) x.m (element 16 k (arg vs 2))) := by
  refine lanesGive_of (fun _ => by rw [exec_hfma2, execHfma2]) fun h => ?_
  rfl

theorem lanesGive_hmnmx2 (x : HmOp) : lanesGive (.hmnmx2 x) (shape x.g x.d 1 [x.a, x.b]) fun _ _ vs => packed2 fun k =>
    fpMinMax (ffHalf x.bf) x.max (modA (ffHalf x.bf) x.m (element 16 k (arg vs 0)))
      (modB (ffHalf x.bf) x.m (element 16 k (arg vs 1))) := by
  refine lanesGive_of (fun _ => by rw [exec_hmnmx2, execHmnmx2]) fun h => ?_
  rfl

/-- Settles O39: the words apply the operations of the numbers; a root rounds by its sticky bit as itself. -/
theorem floatResults : Obligations.FloatResults := by
  refine ⟨fun x => ⟨lanesGive_fp (o := .add) fun _ => exec_fadd, lanesGive_fp (o := .sub) fun _ => exec_fsub,
      lanesGive_fp (o := .mul) fun _ => exec_fmul,
      lanesGive_fp (o := .min) fun _ => exec_fmin, lanesGive_fp (o := .max) fun _ => exec_fmax⟩,
    fun x => lanesGive_ffma x,
    fun x => ⟨lanesGive_congr (lanesGive_sfu (f := sfuRcp) fun _ => exec_frcp) fun _ _ vs => sfuRcp_eq _,
      _, fun vs => sfuSqrt_spec _, lanesGive_sfu (f := sfuSqrt) fun _ => exec_fsqrt⟩,
    fun x => lanesGive_of (fun _ => exec_fclass) fun h => by unfold oneBody; rfl,
    fun x => ⟨lanesGive_half (o := .add) fun _ => exec_hadd2, lanesGive_half (o := .mul) fun _ => exec_hmul2⟩,
    fun x => lanesGive_hmnmx2 x, fun x => lanesGive_hfma2 x⟩

end Sys2Proof
end

section
/-! # Results of the approximating functions (O40) -/
namespace Sys2Proof
open Machine
set_option Elab.async false

/-! ## Signed dyadic numbers -/

theorem pow_toNat_mul {z e : ℤ} (h : e ≤ z) : (2 : ℚ) ^ (z - e).toNat * 2 ^ e = 2 ^ z := by
  rw [← zpow_natCast, Int.toNat_of_nonneg (by omega), ← zpow_add₀ two_ne_zero, sub_add_cancel]

theorem dyVal_add (a b : Dy) : dyVal (dyAdd a b) = dyVal a + dyVal b := by
  unfold dyAdd dyVal
  split
  · next h =>
    push_cast
    rw [add_mul, mul_assoc, pow_toNat_mul h]
  · next h =>
    push_cast
    rw [add_mul, mul_assoc, pow_toNat_mul (by omega)]

theorem dyVal_sub (a b : Dy) : dyVal (dySub a b) = dyVal a - dyVal b := by
  rw [dySub, dyVal_add, sub_eq_add_neg]
  unfold dyVal
  push_cast
  ring

theorem dyLt_iff (a b : Dy) : dyLt a b = true ↔ dyVal a < dyVal b := by
  rw [dyLt, decide_eq_true_iff, ← sub_neg (a := dyVal a), ← dyVal_sub, dyVal, mul_neg_iff]
  have hp : (0 : ℚ) < 2 ^ (dySub a b).e := by positivity
  constructor
  · exact fun h => .inr ⟨by exact_mod_cast h, hp⟩
  · rintro (⟨-, h⟩ | ⟨h, -⟩)
    · exact absurd h hp.le.not_gt
    · exact_mod_cast h

theorem notDyLt_iff (a b : Dy) : (!dyLt a b) = true ↔ dyVal b ≤ dyVal a := by
  rw [Bool.not_eq_true', ← Bool.not_eq_true, dyLt_iff, not_lt]

theorem near_iff (v t bd : Dy) : near v t bd = true ↔ |dyVal v - dyVal t| ≤ dyVal bd := by
  rw [near, Bool.and_eq_true, notDyLt_iff, notDyLt_iff, dyVal_sub, dyVal_sub, abs_le]
  constructor
  · exact fun ⟨h1, h2⟩ => ⟨by linarith, h1⟩
  · exact fun ⟨h1, h2⟩ => ⟨h2, by linarith⟩

theorem keeps_iff (t : Dy) (bd : Int → Dy) (v : Dy) (e : Int) :
    keeps t bd v e = true ↔ |dyVal v - dyVal t| ≤ dyVal (bd e) + 2 ^ (e - 1) + dyVal (slack t) := by
  have h1 : dyVal ⟨1, e - 1⟩ = 2 ^ (e - 1) := by simp [dyVal]
  rw [keeps, near_iff, dyVal_add, dyVal_add, h1]

theorem slack_nonneg (t : Dy) : 0 ≤ dyVal (slack t) := by
  unfold slack dyVal
  positivity

theorem dyVal_signed (neg : Bool) (m : Nat) (e : Int) :
    dyVal (dyOf neg m e) = if neg then -((m : ℚ) * 2 ^ e) else (m : ℚ) * 2 ^ e := by
  unfold dyVal dyOf
  cases neg <;> simp

/-! ## Finite patterns and infinities -/

theorem fvOf_signPat {p : Nat} (hp : p ≤ ffF32.maxPat) (neg : Bool) :
    ∃ m e, fvOf ffF32 (signPat ffF32 neg p) = .fin neg m e ∧ (m : ℚ) * 2 ^ e = patVal ffF32 p ∧
      ffMin ffF32 + (p / 2 ^ ffF32.mb : Nat) - 1 ≤ e ∧ ffMin ffF32 ≤ e := by
  have hp31 : p < 2 ^ 31 := lt_of_le_of_lt hp (by decide)
  have hsign : (signPat ffF32 neg p / ffSign ffF32 % 2 == 1) = neg := by
    have h31 : ffSign ffF32 = 2 ^ 31 := by decide
    rw [signPat, h31]
    cases neg
    · rw [if_neg (by decide), Nat.div_eq_of_lt hp31]
      rfl
    · simp only [if_true]
      rw [Nat.add_comm, Nat.add_div_right _ (by decide), Nat.div_eq_of_lt hp31]
      rfl
  have hpat : signPat ffF32 neg p % ffSign ffF32 = p := by
    have h31 : ffSign ffF32 = 2 ^ 31 := by decide
    rw [signPat, h31]
    cases neg
    · exact Nat.mod_eq_of_lt hp31
    · simp only [if_true]
      rw [Nat.add_mod_left, Nat.mod_eq_of_lt hp31]
  unfold fvOf
  dsimp only
  rw [hsign, hpat, if_pos hp]
  unfold patVal
  by_cases hex : p / 2 ^ ffF32.mb = 0
  · rw [if_pos hex, if_pos hex]
    have : p % 2 ^ ffF32.mb = p := Nat.mod_eq_of_lt ((Nat.div_eq_zero_iff_lt (by decide)).1 hex)
    exact ⟨_, _, rfl, by rw [this], by omega, le_rfl⟩
  · rw [if_neg hex, if_neg hex]
    exact ⟨_, _, rfl, rfl, le_rfl, by
      have : 1 ≤ p / 2 ^ ffF32.mb := Nat.one_le_iff_ne_zero.2 hex
      omega⟩

theorem fvOf_inf (neg : Bool) : fvOf ffF32 (signPat ffF32 neg inf32) = .inf neg := by
  cases neg <;> decide

/-- Beyond the greatest finite pattern a value lies within half of its last place of 2^128. -/
theorem RoundsAt.beyond {x : ℝ} {a k : Nat} (h : RoundsAt ffF32 x a k) (hp : ffF32.maxPat < a * 2 ^ 23 + k) :
    (2 : ℝ) ^ (128 : Int) ≤ x + 2 ^ (103 : Int) := by
  have hk : k ≤ 2 ^ 24 := h.le
  have hp' : 255 * 2 ^ 23 ≤ a * 2 ^ 23 + k := hp
  have ha : 253 ≤ a := by omega
  obtain ⟨⟨hr, -⟩, hlo, -⟩ := h
  have hmin : ffMin ffF32 = -149 := by decide
  have hQ : (0 : ℝ) < 2 ^ (ffMin ffF32 + a) := by positivity
  obtain rfl | ha := eq_or_lt_of_le ha
  · have hk' : k = 2 ^ 24 := by omega
    have h1 := (abs_le.1 hr).1
    rw [hk', hmin] at h1
    have h2 : (2 : ℝ) ^ 24 - 1 / 2 ≤ x / 2 ^ (-149 + (253 : Nat) : Int) := by
      push_cast at h1
      linarith
    rw [le_div_iff₀ (by positivity)] at h2
    norm_num at h2 ⊢
    linarith
  · have hlo := hlo.resolve_left (by omega)
    rw [le_div_iff₀ hQ, hmin] at hlo
    have h2 : (2 : ℝ) ^ (105 : Int) ≤ 2 ^ (-149 + (a : Int)) := zpow_le_zpow_right₀ (by norm_num) (by omega)
    have h3 : (2 : ℝ) ^ ffF32.mb * 2 ^ (105 : Int) ≤ 2 ^ ffF32.mb * 2 ^ (-149 + (a : Int)) := by gcongr
    have h4 : (2 : ℝ) ^ ffF32.mb * 2 ^ (105 : Int) = 2 ^ (128 : Int) := by
      change (2 : ℝ) ^ 23 * _ = _
      norm_num
    have h5 : (0 : ℝ) ≤ 2 ^ (103 : Int) := by positivity
    linarith

/-- What a value rounds to lies within half a quantum. -/
theorem RoundsAt.half {f : FF} {x : ℝ} {a k : Nat} (h : RoundsAt f x a k) :
    |realVal f (a * 2 ^ f.mb + k) - x| ≤ 2 ^ (ffMin f + a - 1) := by
  have hQ : (0 : ℝ) < 2 ^ (ffMin f + a) := by positivity
  rw [realVal_quanta f h.full h.le]
  obtain ⟨⟨hr, -⟩, -, -⟩ := h
  have hx : x = x / 2 ^ (ffMin f + a) * 2 ^ (ffMin f + a) := (div_mul_cancel₀ _ hQ.ne').symm
  rw [zpow_sub_one₀ two_ne_zero, abs_sub_comm]
  conv_lhs => rw [hx]
  rw [← sub_mul, abs_mul, abs_of_pos hQ, mul_comm]
  gcongr
  linarith

/-! ## Functions held to a bound -/

/-- The exponent of the pattern that a value rounds to is no less than the quantum's. -/
theorem quantum_le {a k : Nat} {e : Int} (hf : a = 0 ∨ 2 ^ ffF32.mb ≤ k) (hle : ffMin ffF32 ≤ e)
    (he : ffMin ffF32 + ((a * 2 ^ ffF32.mb + k) / 2 ^ ffF32.mb : Nat) - 1 ≤ e) : ffMin ffF32 + a ≤ e := by
  obtain rfl | hk := hf
  · simpa using hle
  · have : a + 1 ≤ (a * 2 ^ ffF32.mb + k) / 2 ^ ffF32.mb := by
      rw [Nat.le_div_iff_mul_le (by positivity), Nat.succ_mul]
      omega
    omega

theorem dyVal_natAbs (t : Dy) :
    dyVal t = if decide (t.m < 0) then -ratio t.m.natAbs 1 t.e else ratio t.m.natAbs 1 t.e := by
  unfold dyVal ratio
  rw [Nat.cast_one, div_one]
  by_cases h : t.m < 0
  · rw [if_pos (by simpa using h), Nat.cast_natAbs, abs_of_neg h]
    push_cast
    ring
  · rw [if_neg (by simpa using h), Nat.cast_natAbs, abs_of_nonneg (not_lt.1 h)]

theorem abs_signed_sub (neg : Bool) (a b : ℚ) : |(if neg then -a else a) - if neg then -b else b| = |a - b| := by
  cases neg
  · rfl
  · simp only [if_true]
    rw [neg_sub_neg, abs_sub_comm]

/-- A true value, rounded, lies within half a unit of its last place, or is an infinity beyond every finite value. -/
theorem roundDy_approximates (t : Dy) {bd : Int → Dy} (hbd : ∀ e, 0 ≤ dyVal (bd e)) : approximates t bd (roundDy t) := by
  unfold roundDy
  split
  · next h0 =>
    have hv : dyVal t = 0 := by simp [dyVal, h0]
    have hz : fvOf ffF32 0 = .fin false 0 (-149) := by decide
    rw [approximates, hz]
    dsimp only
    have h0' : dyVal (dyOf false 0 (-149)) = 0 := by simp [dyVal, dyOf]
    rw [hv, h0', sub_zero, abs_zero]
    have h1 := hbd (-149)
    have h2 := slack_nonneg t
    exact ⟨rfl, by positivity⟩
  · next h0 =>
    obtain ⟨a, k, hp, hr, -⟩ := roundPat_roundsAt ffF32 (Int.natAbs_pos.2 h0) one_pos t.e
    rw [roundArith, hp]
    split
    · next hmax =>
      obtain ⟨m, e, hfv, hval, hexp, hmin⟩ := fvOf_signPat hmax (decide (t.m < 0))
      have hhalf := hr.half
      rw [realVal, ← ratio_cast] at hhalf
      have hhalf : |patVal ffF32 (a * 2 ^ ffF32.mb + k) - ratio t.m.natAbs 1 t.e| ≤ 2 ^ (ffMin ffF32 + a - 1) := by
        rw [← Rat.cast_le (K := ℝ)]
        push_cast
        exact hhalf
      have hq : (2 : ℚ) ^ (ffMin ffF32 + a - 1) ≤ 2 ^ (e - 1) :=
        zpow_le_zpow_right₀ (by norm_num) (by have := quantum_le hr.full hmin hexp; omega)
      rw [approximates, hfv]
      dsimp only
      rw [dyVal_signed, hval, dyVal_natAbs t, abs_signed_sub]
      have h1 := hbd e
      have h2 := slack_nonneg t
      exact ⟨rfl, by linarith⟩
    · next hmax =>
      have hbeyond := hr.beyond (not_le.1 hmax)
      rw [← ratio_cast] at hbeyond
      have hbeyond : (2 : ℚ) ^ (128 : Int) ≤ ratio t.m.natAbs 1 t.e + 2 ^ (103 : Int) := by exact_mod_cast hbeyond
      have hinf : fvOf ffF32 (signPat ffF32 (decide (t.m < 0)) (ffF32.infPat.getD ffF32.maxPat)) = .inf (decide (t.m < 0)) :=
        fvOf_inf _
      have habs : |dyVal t| = ratio t.m.natAbs 1 t.e := by
        have : 0 ≤ ratio t.m.natAbs 1 t.e := by unfold ratio; positivity
        rw [dyVal_natAbs]
        cases decide (t.m < 0)
        · exact abs_of_nonneg this
        · simp only [if_true]
          rw [abs_neg, abs_of_nonneg this]
      rw [approximates, hinf]
      dsimp only
      rw [habs]
      have h1 := hbd 104
      have h2 := slack_nonneg t
      exact ⟨rfl, by linarith⟩

/-- A pattern held to a bound lies within it: itself, or the true value in its place. -/
theorem heldTo_approximates (t : Dy) {bd : Int → Dy} (hbd : ∀ e, 0 ≤ dyVal (bd e)) (x : Word) :
    approximates t bd (heldTo t bd x) := by
  unfold heldTo
  cases hx : fvOf ffF32 x.toNat with
  | nan => exact roundDy_approximates t hbd
  | inf n =>
    dsimp only
    split
    · next h =>
      rw [keeps_iff, dyVal_signed] at h
      have h128 : ((2 ^ 24 : Nat) : ℚ) * 2 ^ (104 : Int) = 2 ^ (128 : Int) := by norm_num
      have h103 : (2 : ℚ) ^ ((104 : Int) - 1) = 2 ^ (103 : Int) := by norm_num
      rw [h128, h103] at h
      rw [approximates, fvOf_inf]
      dsimp only
      have habs : |if n = true then -(2 : ℚ) ^ (128 : Int) else 2 ^ (128 : Int)| = 2 ^ (128 : Int) := by
        cases n
        · exact abs_of_nonneg (by positivity)
        · simp only [if_true]
          rw [abs_neg, abs_of_nonneg (by positivity)]
      have htri := abs_sub_abs_le_abs_sub (if n = true then -(2 : ℚ) ^ (128 : Int) else 2 ^ (128 : Int)) (dyVal t)
      rw [habs] at htri
      exact ⟨rfl, by linarith⟩
    · exact roundDy_approximates t hbd
  | fin n m e =>
    dsimp only
    split
    · next h =>
      rw [keeps_iff] at h
      rw [approximates, hx]
      exact ⟨rfl, h⟩
    · exact roundDy_approximates t hbd

theorem ulps_nonneg {k : Int} (hk : 0 ≤ k) (e : Int) : 0 ≤ dyVal (ulps k e) := by
  have : (0 : ℚ) ≤ k := by exact_mod_cast hk
  unfold ulps dyVal
  positivity

theorem absErr_nonneg (k : Nat) (e : Int) : 0 ≤ dyVal (absErr k e) := by
  unfold absErr dyVal
  positivity

/-! ## The functions -/

theorem dyVal_ratio (m : Nat) (e : Int) : dyVal ⟨m, e⟩ = ratio m 1 e := by
  unfold dyVal ratio
  push_cast
  rw [div_one]

theorem nearOne_iff (m : Nat) (e : Int) : nearOne m e = true ↔ 1 / 2 ≤ ratio m 1 e ∧ ratio m 1 e ≤ 2 := by
  have h1 : dyVal ⟨1, -1⟩ = 1 / 2 := by simp [dyVal]
  have h2 : dyVal ⟨1, 1⟩ = 2 := by simp [dyVal]
  rw [nearOne, Bool.and_eq_true, notDyLt_iff, notDyLt_iff, dyVal_ratio, h1, h2]

/-- The whole part of a value. -/
theorem floorV_spec (n : Bool) (m : Nat) (e : Int) :
    (floorV n m e : ℚ) ≤ dyVal (dyOf n m e) ∧ dyVal (dyOf n m e) < floorV n m e + 1 := by
  unfold floorV
  dsimp only
  have he : (dyOf n m e).e = e := rfl
  rw [dyVal, he]
  generalize (dyOf n m e).m = a
  split
  · next h0 =>
    have : (2 : ℚ) ^ e = 2 ^ e.toNat := by rw [← zpow_natCast, Int.toNat_of_nonneg h0]
    rw [this]
    push_cast
    exact ⟨le_rfl, by linarith⟩
  · next h0 =>
    have hp : (0 : ℚ) < 2 ^ (-e).toNat := by positivity
    have : (2 : ℚ) ^ e = (2 ^ (-e).toNat)⁻¹ := by
      rw [← zpow_natCast, Int.toNat_of_nonneg (by omega), zpow_neg, inv_inv]
    rw [this, fdiv_pow, ← div_eq_mul_inv, le_div_iff₀ hp, div_lt_iff₀ hp]
    have hlo := Int.ediv_mul_le a (by positivity : (2 : Int) ^ (-e).toNat ≠ 0)
    have hhi := Int.lt_ediv_add_one_mul_self a (by positivity : (0 : Int) < 2 ^ (-e).toNat)
    exact ⟨by exact_mod_cast hlo, by exact_mod_cast hhi⟩

theorem sfuRsq_spec (x : Nat) : match fvOf ffF32 x with
    | .nan => sfuRsq x = (0x7FC00000, 0)
    | .inf n => sfuRsq x = if n then (0x7FC00000, flagInv) else (0, 0)
    | .fin n m e => if m = 0 then sfuRsq x = (signPat ffF32 n 0x7F800000, 0) else if n then sfuRsq x = (0x7FC00000, flagInv)
      else approximates (rsqTrue m e) (ulps 1) (sfuRsq x) := by
  rw [sfuRsq]
  cases fvOf ffF32 x with
  | nan => rfl
  | inf n => rfl
  | fin n m e =>
    dsimp only
    split_ifs
    · rfl
    · rfl
    · exact heldTo_approximates _ (ulps_nonneg (by decide)) _

theorem sfuEx2_spec (x : Nat) : match fvOf ffF32 x with
    | .nan => sfuEx2 x = (0x7FC00000, 0)
    | .inf n => sfuEx2 x = if n then (0, 0) else (0x7F800000, 0)
    | .fin n m e => if m = 0 then sfuEx2 x = (0x3F800000, 0)
      else if (128 : ℚ) ≤ dyVal (dyOf n m e) then sfuEx2 x = (0x7F800000, flagOvf)
      else ∃ k : Int, (k : ℚ) ≤ dyVal (dyOf n m e) ∧ dyVal (dyOf n m e) < k + 1 ∧
        approximates (ex2True n m e k) (ulps 2) (sfuEx2 x) := by
  rw [sfuEx2]
  cases fvOf ffF32 x with
  | nan => rfl
  | inf n => rfl
  | fin n m e =>
    obtain ⟨hlo, hhi⟩ := floorV_spec n m e
    have h128 : 128 ≤ floorV n m e ↔ (128 : ℚ) ≤ dyVal (dyOf n m e) := by
      constructor
      · intro h
        have : (128 : ℚ) ≤ floorV n m e := by exact_mod_cast h
        linarith
      · intro h
        have : (128 : ℚ) < floorV n m e + 1 := by linarith
        have : (128 : Int) < floorV n m e + 1 := by exact_mod_cast this
        omega
    dsimp only
    split_ifs with h0 h1 h2 h2
    · rfl
    · rfl
    · exact absurd (h128.2 h1) h2
    · exact absurd (h128.1 h2) h1
    · exact ⟨floorV n m e, hlo, hhi, heldTo_approximates _ (ulps_nonneg (by decide)) _⟩

theorem sfuLg2_spec (x : Nat) : match fvOf ffF32 x with
    | .nan => sfuLg2 x = (0x7FC00000, 0)
    | .inf n => sfuLg2 x = if n then (0x7FC00000, flagInv) else (0x7F800000, 0)
    | .fin n m e => if m = 0 then sfuLg2 x = (0xFF800000, 0) else if n then sfuLg2 x = (0x7FC00000, flagInv)
      else approximates (lg2True m e) (if 1 / 2 ≤ ratio m 1 e ∧ ratio m 1 e ≤ 2 then absErr 22 else ulps 2) (sfuLg2 x) := by
  rw [sfuLg2]
  cases fvOf ffF32 x with
  | nan => rfl
  | inf n => rfl
  | fin n m e =>
    have hbd : ∀ p : Prop, [Decidable p] → ∀ k, 0 ≤ dyVal ((if p then absErr 22 else ulps 2) k) := fun p _ k => by
      split
      · exact absErr_nonneg 22 k
      · exact ulps_nonneg (by decide) k
    dsimp only
    simp only [← nearOne_iff]
    split_ifs
    · rfl
    · rfl
    · exact heldTo_approximates _ (absErr_nonneg 22) _
    · exact heldTo_approximates _ (ulps_nonneg (by decide)) _

theorem sfuSin_spec (x : Nat) : match fvOf ffF32 x with
    | .fin n m e => if m = 0 then sfuSin x = (signPat ffF32 n 0, 0) else approximates (sinTrue n m e) (absErr 21) (sfuSin x)
    | _ => sfuSin x = (0x7FC00000, 0) := by
  rw [sfuSin]
  cases fvOf ffF32 x with
  | nan => rfl
  | inf n => rfl
  | fin n m e =>
    dsimp only
    split_ifs
    · rfl
    · exact heldTo_approximates _ (absErr_nonneg 21) _

theorem sfuCos_spec (x : Nat) : match fvOf ffF32 x with
    | .fin _ m e => if m = 0 then sfuCos x = (0x3F800000, 0) else approximates (cosTrue m e) (absErr 21) (sfuCos x)
    | _ => sfuCos x = (0x7FC00000, 0) := by
  rw [sfuCos]
  cases fvOf ffF32 x with
  | nan => rfl
  | inf n => rfl
  | fin n m e =>
    dsimp only
    split_ifs
    · rfl
    · exact heldTo_approximates _ (absErr_nonneg 21) _

theorem sfuTanh_spec (x : Nat) : match fvOf ffF32 x with
    | .nan => sfuTanh x = (0x7FC00000, 0)
    | .inf n => sfuTanh x = (signPat ffF32 n 0x3F800000, 0)
    | .fin n m e => if m = 0 then sfuTanh x = (signPat ffF32 n 0, 0)
      else approximates (tanhTrue n m e) (ulps 2) (sfuTanh x) := by
  rw [sfuTanh]
  cases fvOf ffF32 x with
  | nan => rfl
  | inf n => rfl
  | fin n m e =>
    dsimp only
    split_ifs
    · rfl
    · exact heldTo_approximates _ (ulps_nonneg (by decide)) _

/-! ## The true value of 1 / √x -/

/-- The whole root of a whole part is less than 1 below the root. -/
theorem isqrt_floor {y : ℝ} {k : Nat} (hlo : (k : ℝ) ≤ y) (hhi : y < k + 1) : |(isqrt k : ℝ) - √y| ≤ 1 := by
  obtain ⟨h1, -⟩ := isqrt_le_sqrt k
  obtain ⟨-, h2⟩ := isqrt_spec k
  have hle : (isqrt k : ℝ) ≤ √y := h1.trans (Real.sqrt_le_sqrt hlo)
  have hlt : √y < isqrt k + 1 := by
    rw [Real.sqrt_lt' (by positivity), sq]
    have : (k : ℝ) + 1 ≤ (isqrt k + 1) * (isqrt k + 1) := by exact_mod_cast h2
    linarith
  rw [abs_le]
  exact ⟨by linarith, by linarith⟩

theorem rsqTrue_error {m : Nat} {e : Int} (hm : 0 < m) :
    |(dyVal (rsqTrue m e) : ℝ) - 1 / √(ratio m 1 e)| ≤ dyVal (slack (rsqTrue m e)) := by
  rw [ratio_cast]
  unfold rsqTrue
  cases he : evenExp m e with
  | mk m1 h =>
    have hm1 : 0 < m1 := by
      unfold evenExp at he
      split_ifs at he <;> cases he <;> omega
    have hm1' : (0 : ℝ) < m1 := by exact_mod_cast hm1
    dsimp only
    rw [evenExp_root he]
    have hq : |(isqrt (2 ^ 256 / m1) : ℝ) - √(2 ^ 256 / m1)| ≤ 1 := by
      refine isqrt_floor ?_ ?_
      · rw [le_div_iff₀ hm1']
        exact_mod_cast Nat.div_mul_le_self (2 ^ 256) m1
      · rw [div_lt_iff₀ hm1']
        rw [mul_comm]
        exact_mod_cast Nat.lt_mul_div_succ (2 ^ 256) hm1
    have hroot : √((2 : ℝ) ^ 256 / m1) = 2 ^ 128 / √m1 := by
      rw [Real.sqrt_div (by positivity), show (2 : ℝ) ^ 256 = (2 ^ 128) ^ 2 by norm_num, Real.sqrt_sq (by positivity)]
    have hscale : (2 : ℝ) ^ (-128 - h) * 2 ^ 128 = (2 ^ h)⁻¹ := by
      rw [← zpow_natCast 2 128, ← zpow_add₀ two_ne_zero, ← zpow_neg]
      congr 1
      push_cast
      ring
    have hval : 1 / (√(m1 : ℝ) * 2 ^ h) = 2 ^ (-128 - h) * (2 ^ 128 / √m1) := by
      rw [← mul_div_assoc, hscale]
      field_simp
    have hp : (0 : ℝ) < 2 ^ (-128 - h) := by positivity
    rw [hroot] at hq
    rw [hval, dyVal, slack, dyVal]
    generalize isqrt (2 ^ 256 / m1) = r at hq ⊢
    push_cast
    rw [mul_comm (r : ℝ), ← mul_sub, abs_mul, abs_of_pos hp, mul_comm]
    gcongr
    linarith

/-- Settles O40: each function takes its special operands apart and holds every other pattern to its bound. -/
theorem approximateResults : Obligations.ApproximateResults :=
  ⟨fun _ => ⟨⟨_, fun _ => sfuRsq_spec _, lanesGive_sfu (f := sfuRsq) fun _ => exec_frsq⟩,
      ⟨_, fun _ => sfuEx2_spec _, lanesGive_sfu (f := sfuEx2) fun _ => exec_fex2⟩,
      ⟨_, fun _ => sfuLg2_spec _, lanesGive_sfu (f := sfuLg2) fun _ => exec_flg2⟩,
      ⟨_, fun _ => sfuSin_spec _, lanesGive_sfu (f := sfuSin) fun _ => exec_fsin⟩,
      ⟨_, fun _ => sfuCos_spec _, lanesGive_sfu (f := sfuCos) fun _ => exec_fcos⟩,
      ⟨_, fun _ => sfuTanh_spec _, lanesGive_sfu (f := sfuTanh) fun _ => exec_ftanh⟩⟩,
    fun _ _ hm _ => rsqTrue_error hm⟩

end Sys2Proof
end

section
/-! # Conversions (the first part of O41) -/
namespace Sys2Proof
open Machine
set_option Elab.async false

/-! ## To integers -/

theorem clamped_eq (signed : Bool) (w : Nat) (z : Int) :
    (wrapTo w (clampTo signed w z).1, (clampTo signed w z).2) = clamped signed w z := by
  unfold clampTo clamped intMin intMax
  dsimp only
  split_ifs <;> rfl

theorem RoundsEven.roundsTo {x : ℚ} {k : Nat} (h : RoundsEven (x : ℝ) k) : roundsTo false x k := by
  obtain ⟨h1, h2⟩ := h
  have hc : |(x : ℝ) - k| = ((|x - k| : ℚ) : ℝ) := by push_cast; rfl
  rw [hc] at h1 h2
  have hhalf : ((1 / 2 : ℚ) : ℝ) = 1 / 2 := by push_cast; rfl
  rw [← hhalf] at h1 h2
  unfold Sys2Proof.roundsTo
  rw [if_neg (by decide)]
  exact ⟨by exact_mod_cast h1, fun he => h2 (by rw [he])⟩

theorem floor_roundsTo {n d : Nat} (hd : 0 < d) : roundsTo true ((n : ℚ) / d) (n / d) := by
  have hd' : (0 : ℚ) < d := by exact_mod_cast hd
  unfold Sys2Proof.roundsTo
  rw [if_pos rfl, le_div_iff₀ hd', div_lt_iff₀ hd']
  refine ⟨by exact_mod_cast Nat.div_mul_le_self n d, ?_⟩
  rw [mul_comm]
  exact_mod_cast Nat.lt_mul_div_succ n hd

theorem rneDiv_roundsTo {n d : Nat} (hd : 0 < d) : roundsTo false ((n : ℚ) / d) (rneDiv n d) := by
  have := rneDiv_rounds (n := n) hd
  refine RoundsEven.roundsTo ?_
  push_cast
  exact this

theorem ratio_fraction (m : Nat) (e : Int) : ratio m 1 e =
    ((if 0 ≤ e then m * 2 ^ e.toNat else m : Nat) : ℚ) / (if 0 ≤ e then 1 else 1 * 2 ^ (-e).toNat : Nat) := by
  unfold ratio
  split
  · next h =>
    have : (2 : ℚ) ^ e = 2 ^ e.toNat := by rw [← zpow_natCast, Int.toNat_of_nonneg h]
    rw [this]
    push_cast
    ring
  · next h =>
    have : (2 : ℚ) ^ e = (2 ^ (-e).toNat)⁻¹ := by
      rw [← zpow_natCast, Int.toNat_of_nonneg (by omega), zpow_neg, inv_inv]
    rw [this]
    push_cast
    rw [div_one, one_mul, div_eq_mul_inv]

theorem toIntMag_roundsTo (rz : Bool) (m : Nat) (e : Int) : roundsTo rz (ratio m 1 e) (toIntMag rz m 1 e) := by
  have hd : 0 < (if 0 ≤ e then 1 else 1 * 2 ^ (-e).toNat) := by split <;> positivity
  rw [ratio_fraction, toIntMag]
  cases rz
  · exact rneDiv_roundsTo hd
  · exact floor_roundsTo hd

/-! ## Between formats -/

/-- R112, R113: an infinity lies beyond every integer format. -/
theorem clamped_inf (dst : Fmt) (n : Bool) : clamped (fmtSigned dst) (fmtBits dst) (if n then -(2 ^ 80) else 2 ^ 80) =
    (wrapTo (fmtBits dst) (if n then intMin (fmtSigned dst) (fmtBits dst) else intMax (fmtSigned dst) (fmtBits dst)), flagSat) := by
  cases dst <;> cases n <;> decide

theorem convertTo_converts (src dst : Fmt) (rz : Bool) (v : FV) : convertsTo src dst rz v (convertTo src dst rz v) := by
  unfold convertsTo convertTo
  cases hd : fmtFloat dst with
  | true =>
    cases v with
    | nan =>
      dsimp only [cvtNarrow, if_true]
      cases (ffOf dst).nanPat <;> rfl
    | inf n =>
      rw [if_pos rfl]
      dsimp only
      rw [if_pos rfl]
      split <;> rfl
    | fin n m e => rfl
  | false =>
    cases v with
    | nan =>
      have : wrapTo (fmtBits dst) 0 = 0 := by simp [wrapTo]
      simp only [Bool.false_eq_true, if_false, cvtInt, this]
    | inf n =>
      simp only [Bool.false_eq_true, if_false, cvtInt, clamped_inf]
    | fin n m e =>
      exact ⟨toIntMag rz m 1 e, toIntMag_roundsTo rz m e, clamped_eq _ _ _⟩

theorem intOf_mod (signed : Bool) (w x : Nat) : intOf signed w (x % 2 ^ w) = intOf signed w x := by
  unfold intOf
  rw [Nat.mod_mod]

theorem valueIn_mod (f : Fmt) (x : Nat) : valueIn f (x % 2 ^ fmtBits f) = valueIn f x := by
  unfold valueIn
  rw [Nat.mod_mod, intOf_mod]

theorem cvtElement_value (x : CvtOp) (a : Nat) : valueIn x.sf (cvtElement x a) =
    valueIn x.sf (part (fmtBits x.sf) (if fmtBits x.sf < 32 then x.esel.val else 0) a) := by
  unfold cvtElement part element
  split
  · rfl
  · rw [Nat.mul_zero, pow_zero, Nat.div_one, valueIn_mod]

theorem extendFmt_eq (f : Fmt) (p : Nat) :
    extendFmt f p = if fmtSigned f = true ∧ fmtBits f < 32 then patOf 32 (intOf true (fmtBits f) p) else p := by
  unfold extendFmt
  simp only [Bool.and_eq_true, decide_eq_true_eq]
  rfl

/-- What `CVT` gives. -/
def cvtResult (x : CvtOp) (a : Nat) : Nat × FlagSet :=
  (extendFmt x.df (convertTo x.sf x.df x.rz (valueIn x.sf (cvtElement x a))).1,
    (convertTo x.sf x.df x.rz (valueIn x.sf (cvtElement x a))).2)

theorem lanesGive_cvt (x : CvtOp) : lanesGive (.cvt x) ⟨x.g, x.d, fmtRegs x.df, [(x.a, fmtRegs x.sf)]⟩ fun _ _ vs =>
    cvtResult x (arg vs 0) := by
  refine lanesGive_of (fun _ => by rw [exec_cvt, execCvt]) fun h => ?_
  rfl

theorem cvt_holds (x : CvtOp) : lanesHold (.cvt x) ⟨x.g, x.d, fmtRegs x.df, [(x.a, fmtRegs x.sf)]⟩ fun vs r =>
    ∃ p, convertsTo x.sf x.df x.rz
        (valueIn x.sf (part (fmtBits x.sf) (if fmtBits x.sf < 32 then x.esel.val else 0) (arg vs 0))) (p, r.2) ∧
      r.1 = if fmtSigned x.df = true ∧ fmtBits x.df < 32 then patOf 32 (intOf true (fmtBits x.df) p) else p := by
  refine ⟨fun vs => cvtResult x (arg vs 0), fun vs => ⟨_, ?_, extendFmt_eq _ _⟩, lanesGive_cvt x⟩
  rw [← cvtElement_value]
  exact convertTo_converts ..

/-! ## Blocks -/

theorem foldl_sum_four {w : Nat} (f : Nat → Nat) : (List.range 4).foldl (fun r k => r + f k * 2 ^ (w * k)) 0 =
    f 0 + f 1 * 2 ^ w + f 2 * 2 ^ (2 * w) + f 3 * 2 ^ (3 * w) := by
  rw [foldl_four fun k => f k * 2 ^ (w * k), mul_zero, pow_zero, mul_one, mul_one, mul_comm w 2, mul_comm w 3]

theorem packBlock_four (q : QFmt) (p0 p1 p2 p3 sc : Nat) : packBlock q [p0, p1, p2, p3] sc =
    p0 + p1 * 2 ^ fmtBits (qElem q) + p2 * 2 ^ (2 * fmtBits (qElem q)) + p3 * 2 ^ (3 * fmtBits (qElem q)) +
      sc * 2 ^ (4 * fmtBits (qElem q)) := by
  unfold packBlock qScaleBit
  dsimp only
  rw [foldl_sum_four fun k => [p0, p1, p2, p3].getD k 0]
  rfl

theorem packBlock_empty (q : QFmt) (sc : Nat) : packBlock q [] sc =
    0 + 0 * 2 ^ fmtBits (qElem q) + 0 * 2 ^ (2 * fmtBits (qElem q)) + 0 * 2 ^ (3 * fmtBits (qElem q)) +
      sc * 2 ^ (4 * fmtBits (qElem q)) := by
  unfold packBlock qScaleBit
  dsimp only
  rw [foldl_sum_four fun k => ([] : List Nat).getD k 0]
  rfl

theorem absNum_ratio (v : FV) : magnitude v = ratio (absNum v).1 1 (absNum v).2 := by
  cases v with
  | nan => simp [magnitude, absNum, ratio]
  | inf n => rfl
  | fin n m e => rfl

theorem magnitude_nonneg (v : FV) : 0 ≤ magnitude v := by
  rw [absNum_ratio]
  unfold ratio
  positivity

theorem ratio_eq_zero {m : Nat} {e : Int} : ratio m 1 e = 0 ↔ m = 0 := by
  have : (2 : ℚ) ^ e ≠ 0 := by positivity
  unfold ratio
  rw [Nat.cast_one, div_one, mul_eq_zero, or_iff_left this, Nat.cast_eq_zero]

theorem log_ratio {m : Nat} (hm : 0 < m) (e : Int) : Int.log 2 (ratio m 1 e) = (Nat.log2 m : Int) + e := by
  have hpos : 0 < ratio m 1 e := by
    have : (0 : ℚ) < m := by exact_mod_cast hm
    unfold ratio
    positivity
  have h1 : ((2 ^ Nat.log2 m : Nat) : ℚ) ≤ m := by exact_mod_cast (Nat.le_log2 hm.ne').1 le_rfl
  have h2 : (m : ℚ) < ((2 ^ (Nat.log2 m + 1) : Nat) : ℚ) := by
    exact_mod_cast (Nat.log2_lt hm.ne').1 (Nat.lt_succ_self (Nat.log2 m))
  have hp : (0 : ℚ) < 2 ^ e := by positivity
  refine le_antisymm (Int.lt_add_one_iff.1 ((Int.lt_zpow_iff_log_lt one_lt_two hpos).1 ?_))
    ((Int.zpow_le_iff_le_log one_lt_two hpos).1 ?_)
  · push_cast at h2 ⊢
    rw [show (Nat.log2 m : Int) + e + 1 = ((Nat.log2 m + 1 : Nat) : Int) + e by push_cast; ring, zpow_add₀ two_ne_zero,
      zpow_natCast, ratio, Nat.cast_one, div_one]
    gcongr
  · push_cast at h1 ⊢
    rw [zpow_add₀ two_ne_zero, zpow_natCast, ratio, Nat.cast_one, div_one]
    gcongr

/-- The exponent of a greatest magnitude, none of zero. -/
noncomputable def topLog (t : ℚ) : Option Int := if t = 0 then none else some (Int.log 2 t)

/-- One step of `maxLog`. -/
theorem topLog_max {t : ℚ} (ht : 0 ≤ t) (v : FV) : topLog (max t (magnitude v)) =
    if (absNum v).1 = 0 then topLog t
    else match topLog t with
      | none => some ((Nat.log2 (absNum v).1 : Int) + (absNum v).2)
      | some j => some (max j ((Nat.log2 (absNum v).1 : Int) + (absNum v).2)) := by
  split
  · next h0 =>
    rw [absNum_ratio, ratio_eq_zero.2 h0, max_eq_left ht]
  · next h0 =>
    have hlog := log_ratio (Nat.pos_of_ne_zero h0) (absNum v).2
    rw [← absNum_ratio] at hlog
    have hv : magnitude v ≠ 0 := by rwa [absNum_ratio, Ne, ratio_eq_zero]
    have hv0 : 0 < magnitude v := lt_of_le_of_ne (magnitude_nonneg v) hv.symm
    have hmax : max t (magnitude v) ≠ 0 := (lt_max_of_lt_right hv0).ne'
    rw [← hlog, topLog, if_neg hmax, topLog]
    by_cases h : t = 0
    · rw [if_pos h, h, max_eq_right hv0.le]
    · have ht0 : 0 < t := lt_of_le_of_ne ht (Ne.symm h)
      rw [if_neg h]
      dsimp only
      congr 1
      rcases le_total t (magnitude v) with hle | hle
      · rw [max_eq_right hle, max_eq_right (Int.log_mono_right ht0 hle)]
      · rw [max_eq_left hle, max_eq_left (Int.log_mono_right hv0 hle)]

theorem maxLog_four (v0 v1 v2 v3 : FV) : maxLog [v0, v1, v2, v3] =
    topLog (max (max (magnitude v0) (magnitude v1)) (max (magnitude v2) (magnitude v3))) := by
  have h0 := magnitude_nonneg v0
  have hz : topLog 0 = none := if_pos rfl
  rw [← max_assoc, ← max_eq_right h0, topLog_max (by positivity), topLog_max (by positivity), topLog_max (by positivity),
    topLog_max le_rfl, hz]
  rfl

end Sys2Proof
end

section
/-! # Blocks, packs, codebooks and dot products (O41) -/
namespace Sys2Proof
open Machine
set_option Elab.async false

/-! ## Blocks from four values -/

section
variable (x : CvtqOp) (vs : List Nat)

/-- The values that a block is made of. -/
def quad (k : Nat) : FV := fvOf ffF32 (part 32 k (arg vs 0))

/-- One of them is NaN. -/
def quadNan : Prop := quad vs 0 = .nan ∨ quad vs 1 = .nan ∨ quad vs 2 = .nan ∨ quad vs 3 = .nan

/-- The greatest magnitude. -/
def quadTop : ℚ := max (max (magnitude (quad vs 0)) (magnitude (quad vs 1))) (max (magnitude (quad vs 2)) (magnitude (quad vs 3)))

/-- The scale of a block. -/
def quadScale : Nat :=
  if [quad vs 0, quad vs 1, quad vs 2, quad vs 3].any isNanV then 255
  else match x.fix.map fun _ => arg vs 1 with
    | some k => k % 256
    | none => chooseScale x.qf [quad vs 0, quad vs 1, quad vs 2, quad vs 3]

/-- Its elements. -/
def quadElement (k : Nat) : Nat × FlagSet :=
  if quadScale x vs = 255 then (0, 0)
  else convertTo .f32 (qElem x.qf) false (scaleV (quad vs k) (127 - (quadScale x vs : Int)))

/-- The block that `CVTQ` gives. -/
def cvtqResult : Nat × FlagSet :=
  cvtqBlock x.qf (x.fix.map fun _ => arg vs 1) ((List.range 4).map fun i => groupReg (arg vs 0) i)

theorem cvtqResult_eq : cvtqResult x vs =
    ((quadElement x vs 0).1 + (quadElement x vs 1).1 * 2 ^ fmtBits (qElem x.qf) +
        (quadElement x vs 2).1 * 2 ^ (2 * fmtBits (qElem x.qf)) + (quadElement x vs 3).1 * 2 ^ (3 * fmtBits (qElem x.qf)) +
        quadScale x vs * 2 ^ (4 * fmtBits (qElem x.qf)),
      (quadElement x vs 0).2 ||| (quadElement x vs 1).2 ||| (quadElement x vs 2).2 ||| (quadElement x vs 3).2) := by
  have hmodel : cvtqResult x vs = if quadScale x vs = 255 then (packBlock x.qf [] 255, flagNone)
      else
        let rs := [quad vs 0, quad vs 1, quad vs 2, quad vs 3].map fun v =>
          convertTo .f32 (qElem x.qf) false (scaleV v (127 - (quadScale x vs : Int)))
        (packBlock x.qf (rs.map (·.1)) (quadScale x vs), rs.foldl (fun a r => flagOr a r.2) flagNone) := rfl
  rw [hmodel]
  unfold quadElement
  split
  · next h =>
    rw [packBlock_empty, h]
    rfl
  · next h =>
    simp only [List.map_cons, List.map_nil, List.foldl_cons, List.foldl_nil, packBlock_four, flagOr, flagNone, Nat.zero_or]

theorem anyNan_iff : [quad vs 0, quad vs 1, quad vs 2, quad vs 3].any isNanV = true ↔ quadNan vs := by
  simp [isNanV, quadNan]

theorem quadScale_nan (h : quadNan vs) : quadScale x vs = 255 := if_pos ((anyNan_iff vs).2 h)

theorem quadScale_fix (h : ¬ quadNan vs) (hf : x.fix.isSome = true) : quadScale x vs = arg vs 1 % 256 := by
  obtain ⟨b, hb⟩ := Option.isSome_iff_exists.1 hf
  rw [quadScale, if_neg (fun hn => h ((anyNan_iff vs).1 hn)), hb]
  rfl

theorem quadScale_chosen (h : ¬ quadNan vs) (hf : x.fix = none) : (quadTop vs = 0 → quadScale x vs = 127) ∧
    (quadTop vs ≠ 0 → (quadScale x vs : Int) = max 0 (min 254 (Int.log 2 (quadTop vs) - qEmax x.qf + 127))) := by
  have hs : quadScale x vs = match topLog (quadTop vs) with
      | none => 127
      | some k => (max 0 (min 254 (k - qEmax x.qf + 127))).toNat := by
    rw [quadScale, if_neg (fun hn => h ((anyNan_iff vs).1 hn)), hf, quadTop, ← maxLog_four]
    rfl
  rw [hs]
  constructor
  · intro ht
    rw [topLog, if_pos ht]
  · intro ht
    rw [topLog, if_neg ht]
    exact Int.toNat_of_nonneg (le_max_left _ _)

end

theorem lanesGive_cvtq (x : CvtqOp) :
    lanesGive (.cvtq x) ⟨x.g, x.d, qRegs x.qf, [(x.a, 4)] ++ (x.fix.map fun b => (b, 1)).toList⟩ fun _ _ vs => cvtqResult x vs := by
  obtain ⟨g, d, a, fix, qf⟩ := x
  refine lanesGive_of (fun _ => by rw [exec_cvtq, execCvtq]) fun h => ?_
  cases fix <;> rfl

/-! ## Values from a block -/

theorem fvOf_notInf {f : FF} (hf : f.infPat = none) (x : Nat) (n : Bool) : fvOf f x ≠ .inf n := by
  unfold fvOf
  dsimp only
  rw [hf]
  split_ifs <;> simp_all

/-- No element of a block is an infinity. -/
theorem qElem_notInf (q : QFmt) (x : Nat) (n : Bool) : valueIn (qElem q) x ≠ .inf n := by
  unfold valueIn
  cases q
  · exact fvOf_notInf (by decide) _ n
  · simp [qElem, fmtFloat]
  · exact fvOf_notInf (by decide) _ n

/-- A value that is no infinity narrows alike from every format. -/
theorem cvtNarrow_converts {src dst : Fmt} (hd : fmtFloat dst = true) {v : FV} (hv : ∀ n, v ≠ .inf n) :
    convertsTo src dst false v (cvtNarrow (ffOf dst) v) := by
  have := convertTo_converts src dst false v
  unfold convertTo at this
  rw [if_pos hd] at this
  cases v with
  | nan => exact this
  | inf n => exact absurd rfl (hv n)
  | fin n m e => exact this

/-- Element `k` of a block, converted. -/
def blockElement (x : CvtdqOp) (b k : Nat) : Nat × FlagSet := cvtNarrow (ffOf (dqFmt x.dq)) (blockValue x.qf b k)

theorem blockElement_converts (x : CvtdqOp) (b k : Nat) : convertsTo (qElem x.qf) (dqFmt x.dq) false
    (if b / 2 ^ (4 * fmtBits (qElem x.qf)) % 256 = 255 then .nan
      else scaleV (valueIn (qElem x.qf) (part (fmtBits (qElem x.qf)) k b))
        ((b / 2 ^ (4 * fmtBits (qElem x.qf)) % 256 : Nat) - 127 : Int))
    (blockElement x b k) := by
  have hd : fmtFloat (dqFmt x.dq) = true := by cases x.dq <;> rfl
  refine cvtNarrow_converts hd fun n => ?_
  split
  · simp
  · have := qElem_notInf x.qf (part (fmtBits (qElem x.qf)) k b)
    cases hv : valueIn (qElem x.qf) (part (fmtBits (qElem x.qf)) k b) with
    | nan => simp [scaleV]
    | inf m => exact absurd hv (this m)
    | fin m a e => simp [scaleV]

theorem packBits_four (w p0 p1 p2 p3 : Nat) :
    packBits w [p0, p1, p2, p3] = p0 + p1 * 2 ^ w + p2 * 2 ^ (2 * w) + p3 * 2 ^ (3 * w) := by
  simp only [packBits]
  rw [show 2 * w = w + w by ring, show 3 * w = w + w + w by ring, pow_add, pow_add]
  ring

/-- What `CVTDQ` gives. -/
def cvtdqResult (x : CvtdqOp) (b : Nat) : Nat × FlagSet :=
  (packBits (fmtBits (dqFmt x.dq)) ((cvtdqValues x.qf x.dq b).map (·.1)),
    (cvtdqValues x.qf x.dq b).foldl (fun a r => flagOr a r.2) flagNone)

theorem cvtdqResult_eq (x : CvtdqOp) (b : Nat) : cvtdqResult x b =
    ((blockElement x b 0).1 + (blockElement x b 1).1 * 2 ^ fmtBits (dqFmt x.dq) +
        (blockElement x b 2).1 * 2 ^ (2 * fmtBits (dqFmt x.dq)) + (blockElement x b 3).1 * 2 ^ (3 * fmtBits (dqFmt x.dq)),
      (blockElement x b 0).2 ||| (blockElement x b 1).2 ||| (blockElement x b 2).2 ||| (blockElement x b 3).2) := by
  have hv : cvtdqValues x.qf x.dq b = [blockElement x b 0, blockElement x b 1, blockElement x b 2, blockElement x b 3] := rfl
  rw [cvtdqResult, hv]
  simp only [List.map_cons, List.map_nil, List.foldl_cons, List.foldl_nil, packBits_four, flagOr, flagNone, Nat.zero_or]

theorem lanesGive_cvtdq (x : CvtdqOp) :
    lanesGive (.cvtdq x) ⟨x.g, x.d, if x.dq = .f32 then 4 else 2, [(x.a, qRegs x.qf)]⟩ fun _ _ vs => cvtdqResult x (arg vs 0) := by
  refine lanesGive_of (fun _ => by rw [exec_cvtdq, execCvtdq]) fun h => ?_
  rfl

/-! ## Packed elements -/

theorem packNarrow_eq (w : Nat) (sm : SatMode) (a : Nat) : packNarrow w sm a = match sm with
    | .trunc => (a % 2 ^ w, 0)
    | .sats => clamped true w (intOf true 32 a)
    | .satn => clamped false w (intOf true 32 a) := by
  cases sm
  · rfl
  · exact clamped_eq true w _
  · exact clamped_eq false w _

theorem packNarrow_lt (w : Nat) (sm : SatMode) (a : Nat) : (packNarrow w sm a).1 < 2 ^ w := by
  have hwrap : ∀ z, wrapTo w z < 2 ^ w := fun z => by
    have : (wrapTo w z : Int) < 2 ^ w := by
      rw [wrapTo_cast]
      exact Int.emod_lt_of_pos _ (by positivity)
    exact_mod_cast this
  cases sm
  · exact Nat.mod_lt _ (by positivity)
  · exact hwrap _
  · exact hwrap _

/-- A pattern taken apart at element `k`. -/
theorem setElement_split {w k b x : Nat} : ∃ hi lo, lo < 2 ^ (w * k) ∧
    b = hi * 2 ^ (w * k + w) + element w k b * 2 ^ (w * k) + lo ∧
    setElement w k b x = hi * 2 ^ (w * k + w) + x * 2 ^ (w * k) + lo := by
  have h1 := Nat.div_add_mod b (2 ^ (w * k))
  have h2 := Nat.div_add_mod (b / 2 ^ (w * k)) (2 ^ w)
  have he : element w k b = b / 2 ^ (w * k) % 2 ^ w := rfl
  have hb : b = b / 2 ^ (w * k) / 2 ^ w * 2 ^ (w * k + w) + element w k b * 2 ^ (w * k) + b % 2 ^ (w * k) := by
    rw [he, pow_add]
    conv_lhs => rw [← h1, ← h2]
    ring
  refine ⟨_, _, Nat.mod_lt _ (by positivity), hb, ?_⟩
  rw [setElement]
  generalize element w k b * 2 ^ (w * k) = p at hb ⊢
  generalize b / 2 ^ (w * k) / 2 ^ w * 2 ^ (w * k + w) = q at hb ⊢
  omega

/-- The field of a pattern lies in its low bits alone. -/
theorem part_mod {w j d n : Nat} (h : w * j + w ≤ d) : part w j (n % 2 ^ d) = part w j n := by
  refine Nat.eq_of_testBit_eq fun i => ?_
  simp only [part, Nat.testBit_mod_two_pow, Nat.testBit_div_two_pow]
  by_cases hi : i < w
  · have : i + w * j < d := by omega
    simp [this]
  · simp [hi]

/-- The field of a pattern lies in its high bits alone. -/
theorem part_div {w j d n : Nat} (h : d ≤ w * j) : part w j n = n / 2 ^ d / 2 ^ (w * j - d) % 2 ^ w := by
  rw [part, Nat.div_div_eq_div_mul, ← pow_add, Nat.add_sub_cancel' h]

/-- An element replaced is the new one; every other is as it was, and nothing lies beyond the place's 32 bits. -/
theorem setElement_parts {w k b x : Nat} (hx : x < 2 ^ w) (hb : b < 2 ^ 32) (hk : w * k + w ≤ 32) :
    setElement w k b x < 2 ^ 32 ∧ ∀ j, part w j (setElement w k b x) = if j = k then x else part w j b := by
  obtain ⟨hi, lo, hlo, hsplit, hset⟩ := setElement_split (w := w) (k := k) (b := b) (x := x)
  have hq : element w k b < 2 ^ w := Nat.mod_lt _ (by positivity)
  generalize element w k b = y at hq hsplit
  have hmid : ∀ y, y < 2 ^ w → y * 2 ^ (w * k) + lo < 2 ^ (w * k + w) := fun y hy => by
    rw [pow_add, mul_comm (2 ^ (w * k))]
    calc y * 2 ^ (w * k) + lo < y * 2 ^ (w * k) + 2 ^ (w * k) := by omega
      _ = (y + 1) * 2 ^ (w * k) := by ring
      _ ≤ _ := Nat.mul_le_mul_right _ hy
  have hdiv : ∀ y, y < 2 ^ w → (hi * 2 ^ (w * k + w) + y * 2 ^ (w * k) + lo) / 2 ^ (w * k + w) = hi := fun y hy => by
    rw [add_assoc, mul_comm, Nat.mul_add_div (by positivity), Nat.div_eq_of_lt (hmid y hy), add_zero]
  have hlow : ∀ y, hi * 2 ^ (w * k + w) + y * 2 ^ (w * k) + lo = 2 ^ (w * k) * (2 ^ w * hi + y) + lo := fun y => by
    rw [pow_add]
    ring
  have hmod : ∀ y, (hi * 2 ^ (w * k + w) + y * 2 ^ (w * k) + lo) % 2 ^ (w * k) = lo := fun y => by
    rw [hlow, Nat.mul_add_mod, Nat.mod_eq_of_lt hlo]
  have hbdiv : b / 2 ^ (w * k + w) = hi := by rw [hsplit, hdiv y hq]
  have hbmod : b % 2 ^ (w * k) = lo := by rw [hsplit, hmod]
  rw [hset]
  refine ⟨?_, fun j => ?_⟩
  · have h32 : (2 : Nat) ^ 32 = 2 ^ (32 - (w * k + w)) * 2 ^ (w * k + w) := by rw [← pow_add, Nat.sub_add_cancel hk]
    rw [h32] at hb ⊢
    refine Nat.lt_mul_of_div_lt ?_ (by positivity)
    rw [hdiv x hx, ← hbdiv]
    exact Nat.div_lt_of_lt_mul (by rwa [mul_comm])
  · rcases lt_trichotomy j k with hj | rfl | hj
    · have hle : w * j + w ≤ w * k := by
        rw [← Nat.mul_succ]
        exact Nat.mul_le_mul_left w hj
      rw [if_neg hj.ne, ← part_mod hle, hmod, ← hbmod, part_mod hle]
    · rw [if_pos rfl, part, hlow, Nat.mul_add_div (by positivity), Nat.div_eq_of_lt hlo, add_zero, Nat.mul_add_mod,
        Nat.mod_eq_of_lt hx]
    · have hle : w * k + w ≤ w * j := by
        rw [← Nat.mul_succ]
        exact Nat.mul_le_mul_left w hj
      rw [if_neg hj.ne', part_div hle, hdiv x hx, part_div hle, hbdiv]

/-- What `PACK` gives. -/
def packResult (x : PackOp) (a b : Nat) : Nat × FlagSet :=
  (setElement (elBits x.w) x.el.val b (packNarrow (elBits x.w) x.sm a).1, (packNarrow (elBits x.w) x.sm a).2)

theorem lanesGive_pack (x : PackOp) : lanesGive (.pack x) (shape x.g x.d 1 [x.a, x.b]) fun _ _ vs =>
    packResult x (arg vs 0) (arg vs 1) := by
  refine lanesGive_of (fun _ => by rw [exec_pack, execPack]) fun h => ?_
  rfl

theorem element_fits (x : PackOp) (h : x.el.val < 32 / elBits x.w) : elBits x.w * x.el.val + elBits x.w ≤ 32 := by
  have : elBits x.w * (x.el.val + 1) ≤ 32 := (Nat.mul_le_mul_left _ h).trans (Nat.mul_div_le 32 _)
  rwa [Nat.mul_succ] at this

/-! ## Codebooks -/

/-- A format's patterns rise with their values, so no two have one value. -/
theorem realVal_lt_of_quanta {f : FF} {a a' m m' : Nat} (hm : m < 2 ^ (f.mb + 1)) (hm' : 2 ^ f.mb ≤ m') (h : a < a') :
    (m : ℝ) * 2 ^ (ffMin f + a) < m' * 2 ^ (ffMin f + a') := by
  have h1 : (m : ℝ) < 2 ^ (f.mb + 1) := by exact_mod_cast hm
  have h2 : (2 : ℝ) ^ f.mb ≤ m' := by exact_mod_cast hm'
  have h3 : (2 : ℝ) ^ (ffMin f + a + 1) ≤ 2 ^ (ffMin f + a') := zpow_le_zpow_right₀ (by norm_num) (by omega)
  calc (m : ℝ) * 2 ^ (ffMin f + a) < 2 ^ (f.mb + 1) * 2 ^ (ffMin f + a) := by gcongr
    _ = 2 ^ f.mb * 2 ^ (ffMin f + a + 1) := by
      rw [pow_succ, zpow_add_one₀ two_ne_zero]
      ring
    _ ≤ _ := by gcongr

theorem realVal_injective {f : FF} {p q : Nat} (h : realVal f p = realVal f q) : p = q := by
  obtain ⟨a, m, rfl, hf, hm⟩ := pattern_quanta f p
  obtain ⟨a', m', rfl, hf', hm'⟩ := pattern_quanta f q
  rw [realVal_quanta f hf hm.le, realVal_quanta f hf' hm'.le] at h
  rcases lt_trichotomy a a' with ha | rfl | ha
  · exact absurd h (realVal_lt_of_quanta hm (hf'.resolve_left (by omega)) ha).ne
  · have hp : (2 : ℝ) ^ (ffMin f + a) ≠ 0 := by positivity
    have : (m : ℝ) = m' := mul_right_cancel₀ hp h
    rw [show m = m' by exact_mod_cast this]
  · exact absurd h.symm (realVal_lt_of_quanta hm' (hf.resolve_left (by omega)) ha).ne

/-- A value that the format has is rounded to itself. -/
theorem roundPat_exact {f : FF} (hM : 1 ≤ f.mb) {n : Nat} {e : Int} {q : Nat} (h : patVal f q = ratio n 1 e) :
    roundPat f n 1 e = q := by
  have hr : realVal f q = realRatio n 1 e := by rw [← ratio_cast, ← h]; rfl
  have := (roundPat_nearest (n := n) hM one_pos e q).1
  rw [hr, sub_self, abs_zero] at this
  have := abs_nonpos_iff.1 this
  exact realVal_injective (by rw [hr]; linarith)

/-- A BF16 magnitude has the value of its pattern 16 places higher in FP32. -/
theorem bf16_value (p : Nat) : patVal ffF32 (p * 2 ^ 16) = patVal ffBf16 p := by
  have hdiv : p * 2 ^ 16 / 2 ^ 23 = p / 2 ^ 7 := by omega
  have hmod : p * 2 ^ 16 % 2 ^ 23 = p % 2 ^ 7 * 2 ^ 16 := by omega
  have h32 : ffMin ffF32 = -149 := by decide
  have h16 : ffMin ffBf16 = -133 := by decide
  unfold patVal
  change (if p * 2 ^ 16 / 2 ^ 23 = 0 then _ else ((2 ^ 23 + p * 2 ^ 16 % 2 ^ 23 : Nat) : ℚ) *
    2 ^ (ffMin ffF32 + (p * 2 ^ 16 / 2 ^ 23 : Nat) - 1)) = if p / 2 ^ 7 = 0 then _ else
      ((2 ^ 7 + p % 2 ^ 7 : Nat) : ℚ) * 2 ^ (ffMin ffBf16 + (p / 2 ^ 7 : Nat) - 1)
  have hz : (2 : ℚ) ^ (-133 : Int) = 2 ^ 16 * 2 ^ (-149 : Int) := by norm_num
  rw [hdiv, hmod, h32, h16]
  split
  · rw [hz]
    push_cast
    ring
  · rw [add_sub_assoc, add_sub_assoc, zpow_add₀ two_ne_zero (-133), zpow_add₀ two_ne_zero (-149), hz]
    push_cast
    ring

theorem narrow_bf16 (neg : Bool) {p m : Nat} {e : Int} (hp : p ≤ 0x7F7F) (hv : patVal ffBf16 p = ratio m 1 e) :
    narrowFin ffF32 neg m 1 e = (signPat ffF32 neg (p * 2 ^ 16), flagNone) := by
  have he : roundPat ffF32 m 1 e = p * 2 ^ 16 := roundPat_exact (by decide) (by rw [bf16_value, hv])
  have hmax : p * 2 ^ 16 ≤ ffF32.maxPat := le_trans (Nat.mul_le_mul_right _ hp) (by decide)
  rw [narrowFin, he]
  exact if_pos hmax

/-- The sign of a 16-bit pattern, 16 places higher. -/
theorem signPat_shift (x : Nat) (hx : x < 2 ^ 16) :
    signPat ffF32 (x / ffSign ffBf16 % 2 == 1) (x % ffSign ffBf16 * 2 ^ 16) = x * 2 ^ 16 := by
  have hs : ffSign ffBf16 = 2 ^ 15 := by decide
  have hS : ffSign ffF32 = 2 ^ 31 := by decide
  rw [signPat, hs, hS]
  obtain h | h : x / 2 ^ 15 = 0 ∨ x / 2 ^ 15 = 1 := by omega
  all_goals
    rw [h]
    norm_num
    omega

/-- The value of a pattern, of its fields. -/
theorem patVal_eq (f : FF) (p : Nat) : patVal f p = if p / 2 ^ f.mb = 0 then ratio (p % 2 ^ f.mb) 1 (ffMin f)
    else ratio (2 ^ f.mb + p % 2 ^ f.mb) 1 (ffMin f + (p / 2 ^ f.mb : Nat) - 1) := by
  unfold patVal ratio
  split
  · next h =>
    rw [Nat.mod_eq_of_lt ((Nat.div_eq_zero_iff_lt (by positivity)).1 h), Nat.cast_one, div_one]
  · rw [Nat.cast_one, div_one]

/-- R111: a BF16 pattern widened. -/
theorem widenBf16_eq (x : Nat) (hx : x < 2 ^ 16) :
    widenBf16 x = if 0x7F80 < x % 2 ^ 15 then 0x7FC00000 else x * 2 ^ 16 := by
  have hs : ffSign ffBf16 = 2 ^ 15 := by decide
  have hin : valueIn .bf16 x = fvOf ffBf16 x := by
    change fvOf ffBf16 (x % 2 ^ 16) = _
    rw [Nat.mod_eq_of_lt hx]
  have hshift := signPat_shift x hx
  have hmax : ffBf16.maxPat = 0x7F7F := rfl
  have hinf : ffBf16.infPat = some 0x7F80 := rfl
  rw [widenBf16, hin, fvOf, ← hs, hmax, hinf]
  generalize (x / ffSign ffBf16 % 2 == 1) = neg at hshift ⊢
  generalize x % ffSign ffBf16 = p at hshift ⊢
  by_cases h1 : p ≤ 0x7F7F
  · have hv := patVal_eq ffBf16 p
    rw [if_pos h1, if_neg (show ¬ 0x7F80 < p by omega), ← hshift]
    by_cases h0 : p / 2 ^ ffBf16.mb = 0
    · rw [if_pos h0] at hv ⊢
      change (narrowFin ffF32 neg _ 1 _).1 = _
      rw [narrow_bf16 neg h1 hv]
    · rw [if_neg h0] at hv ⊢
      change (narrowFin ffF32 neg _ 1 _).1 = _
      rw [narrow_bf16 neg h1 hv]
  · rw [if_neg h1]
    by_cases h2 : p = 0x7F80
    · rw [if_pos (by rw [h2]), if_neg (by omega), ← hshift, h2]
      rfl
    · rw [if_neg (by simpa using Ne.symm h2), if_pos (by omega)]
      rfl

/-- Entry `k` of the codebook that `LUTX` looks up. -/
def lutxEntry (y : Crew) (x : LutxOp) (a k : Nat) : Nat :=
  let c := part 4 ((if x.hi then 4 else 0) + k) a
  part 16 (c % 2) (readS y (x.sb + c / 2)).toNat

theorem lutxEntry_lt (y : Crew) (x : LutxOp) (a k : Nat) : lutxEntry y x a k < 2 ^ 16 := Nat.mod_lt _ (by decide)

/-- The value that `LUTX` writes for it. -/
def lutxValue (y : Crew) (x : LutxOp) (a k : Nat) : Nat :=
  if x.f32 then (if 0x7F80 < lutxEntry y x a k % 2 ^ 15 then 0x7FC00000 else lutxEntry y x a k * 2 ^ 16) else lutxEntry y x a k

theorem lutxNat_eq (y : Crew) (x : LutxOp) (a : Nat) : lutxNat y x a =
    lutxValue y x a 0 + lutxValue y x a 1 * 2 ^ (if x.f32 then 32 else 16) +
      lutxValue y x a 2 * 2 ^ (2 * (if x.f32 then 32 else 16)) + lutxValue y x a 3 * 2 ^ (3 * (if x.f32 then 32 else 16)) := by
  have hes : lutxNat y x a =
      if x.f32 then
        packBits 32 ([lutxEntry y x a 0, lutxEntry y x a 1, lutxEntry y x a 2, lutxEntry y x a 3].map widenBf16)
      else packBits 16 [lutxEntry y x a 0, lutxEntry y x a 1, lutxEntry y x a 2, lutxEntry y x a 3] := rfl
  have hv : ∀ k, lutxValue y x a k = if x.f32 then widenBf16 (lutxEntry y x a k) else lutxEntry y x a k := fun k => by
    rw [lutxValue, widenBf16_eq _ (lutxEntry_lt y x a k)]
  rw [hes]
  simp only [hv]
  split
  · simp only [List.map_cons, List.map_nil, packBits_four]
  · rw [packBits_four]

theorem lanesGive_lutx (x : LutxOp) : lanesGive (.lutx x) ⟨x.g, x.d, if x.f32 then 4 else 2, [(x.a, 1)]⟩ fun y _ vs =>
    (lutxNat y x (arg vs 0), 0) := by
  refine lanesGive_of (fun _ => by rw [exec_lutx, execLutx]) fun h => ?_
  rfl

/-! ## Dot products -/

theorem foldl_add_sum (g : Nat → Int) (c : Int) (n : Nat) :
    (List.range n).foldl (fun r k => r + g k) c = c + ∑ k ∈ Finset.range n, g k := by
  induction n with
  | zero => simp
  | succ n ih => rw [List.range_succ, List.foldl_append, ih, Finset.sum_range_succ, List.foldl_cons, List.foldl_nil, add_assoc]

theorem idpNat_eq (w n : Nat) (x : IdpOp) (a b c : Nat) : idpNat w n x a b c = saturated .i32 x.sat (intOf true 32 c +
    ∑ k ∈ Finset.range n, intOf (!x.ua) w (part w k a) * intOf (!x.ub) w (part w k b)) := by
  rw [idpNat, satWrap_eq, foldl_add_sum fun k => intOf (!x.ua) w (element w k a) * intOf (!x.ub) w (element w k b)]
  rfl

theorem lanesGive_idp {i : Instr} {x : IdpOp} {w n : Nat} (he : ∀ s, exec i s = issueWord i s (idpBody w n x)) :
    lanesGive i (shape x.g x.d 1 [x.a, x.b, x.c]) fun _ _ vs => saturated .i32 x.sat (intOf true 32 (arg vs 2) +
      ∑ k ∈ Finset.range n, intOf (!x.ua) w (part w k (arg vs 0)) * intOf (!x.ub) w (part w k (arg vs 1))) := by
  refine lanesGive_congr (lanesGive_of he fun h => ?_) fun _ _ vs => idpNat_eq w n x (arg vs 0) (arg vs 1) (arg vs 2)
  unfold idpBody
  rfl

/-- Settles O41: what each word gives, taken apart above, is what its rule says. -/
theorem conversionResults : Obligations.ConversionResults := by
  refine ⟨fun x => cvt_holds x,
    fun x => ⟨cvtqResult x, fun vs => ⟨quadScale x vs, quadElement x vs, cvtqResult_eq x vs, quadScale_nan x vs,
      quadScale_fix x vs, quadScale_chosen x vs, fun h k _ => if_pos h, fun h k _ => ?_⟩, lanesGive_cvtq x⟩,
    fun x => ⟨fun vs => cvtdqResult x (arg vs 0), fun vs => ⟨blockElement x (arg vs 0), cvtdqResult_eq x (arg vs 0),
      fun k _ => blockElement_converts x (arg vs 0) k⟩, lanesGive_cvtdq x⟩,
    fun x => ⟨fun vs => packResult x (arg vs 0) (arg vs 1), fun vs => ?_, lanesGive_pack x⟩,
    fun x => lanesGive_of (fun _ => by rw [exec_unpk, execUnpk]) fun h => ?_,
    fun x => lanesGive_congr (lanesGive_lutx x) fun y _ vs => by rw [lutxNat_eq]; rfl,
    fun x => ⟨lanesGive_idp fun _ => exec_idp4, lanesGive_idp fun _ => exec_idp8⟩,
    fun x => lanesGive_of (fun _ => by rw [exec_fdp4, execFdp4]) fun h => ?_,
    fun x => lanesGive_of (fun _ => by rw [exec_fdp2, execFdp2]) fun h => ?_⟩
  · rw [quadElement, if_neg h]
    exact convertTo_converts ..
  · have hn := packNarrow_eq (elBits x.w) x.sm (arg vs 0)
    have hf : (packResult x (arg vs 0) (arg vs 1)).2 = (packNarrow (elBits x.w) x.sm (arg vs 0)).2 := rfl
    refine ⟨hf.trans (congrArg Prod.snd hn), fun hb hel => ?_⟩
    obtain ⟨hlt, hparts⟩ := setElement_parts (packNarrow_lt (elBits x.w) x.sm (arg vs 0)) hb (element_fits x hel)
    exact ⟨hlt, fun k _ => (hparts k).trans (by rw [hn] <;> rfl)⟩
  · rfl
  · rfl
  · rfl

end Sys2Proof
end

section
/-! # The checks of a fetch (O48) -/
namespace Sys2Proof
open Machine
set_option Elab.async false

/-- R122: outside the global window nothing is fetched. -/
theorem routeOf_of_notGlobal {pc : DWord} (h8 : pc.toNat % 8 = 0) (hg : notGlobal pc.toNat) : routeOf pc.toNat 8 ≠ .global := by
  rw [Ne, routeOf_global _ h8 pc.isLt, windowOf_global]
  unfold notGlobal at hg
  omega

/-- What a fetch that reads no word does to the slot. -/
theorem stepSlot_of_fetch {s : State} {r : SlotRef} {h : Here} (hh : here (issuing s r) = some h) (hdue : (hSlot h).due = [])
    {f : Fetched} (hf : fetchWord (issuing s r) h = f) (hw : ∀ w, f ≠ .word w) :
    stepSlot s r = .next (fetchStop (issuing s r) h f) := by
  rw [stepSlot_of_no_word hh hdue fun w => hf ▸ hw w, hf]

section
variable {s : State} {h : Here}

theorem fetchWord_misaligned (h8 : (hPc h).toNat % 8 ≠ 0) : fetchWord s h = .misaligned := by
  simp only [fetchWord, if_pos h8]

theorem fetchWord_outside (h8 : (hPc h).toNat % 8 = 0) (hg : routeOf (hPc h).toNat 8 ≠ .global) :
    fetchWord s h = .fault ⟨.addrf, 0, (hPc h).toNat⟩ := by
  rw [fetchWord, if_neg (not_not.2 h8)]
  split
  · next hr => exact absurd hr hg
  · rfl

theorem fetchWord_noEx (h8 : (hPc h).toNat % 8 = 0) (hg : ¬ notGlobal (hPc h).toNat) {t : Tlb}
    (hf : tlbFind s h.blk.core (ctxOf s h.blk) (hPc h).toNat = some t) (hx : t.attr.ex = false) :
    fetchWord s h = .fault ⟨.accf, 7, (hPc h).toNat⟩ := by
  simp only [fetchWord, h8, routeOf_of_global h8 hg, hf, rightFault, hx, ne_eq, not_true_eq_false, Bool.false_eq_true, if_false]

end

/-- A fault of the fetch is taken at the PC. -/
theorem fetchStop_at_pc (s : State) (h : Here) (c : Cause) (code : Nat) :
    fetchStop s h (.fault ⟨c, code, (hPc h).toNat⟩) = takeFault s h c code (hPc h) 3 := by
  simp only [fetchStop, BitVec.ofNat_toNat, BitVec.setWidth_eq]

/-- Settles O48: the alignment is looked at first, then the window, then the page. -/
theorem fetchIsChecked : Obligations.FetchIsChecked := by
  intro s r h hh hdue
  refine ⟨fun h8 => ?_, fun h8 hg => ?_, fun t h8 hg hf hx => ?_⟩
  · exact stepSlot_of_fetch hh hdue (fetchWord_misaligned h8) (by simp)
  · rw [stepSlot_of_fetch hh hdue (fetchWord_outside h8 (routeOf_of_notGlobal h8 hg)) (by simp), fetchStop_at_pc]
  · rw [stepSlot_of_fetch hh hdue (fetchWord_noEx h8 hg hf hx) (by simp), fetchStop_at_pc]

end Sys2Proof
end

section
/-! # Precise faults (O50) -/
namespace Sys2Proof
open Machine
set_option Elab.async false

/-! ## The saves that a fault begins -/

theorem mem_of_find {α : Type} {t : Table α} {k : Nat} {a : α} (h : t.find k = some a) : (k, a) ∈ t := by
  induction t with
  | nil => exact nomatch h
  | cons e r ih =>
    rw [Table.find] at h
    split at h
    · next hk =>
      obtain rfl := Option.some.inj h
      exact hk ▸ List.mem_cons_self
    · exact List.mem_cons_of_mem _ (ih h)

theorem mem_put_of_ne {α : Type} {t : Table α} {k l : Nat} {a b : α} (h : (l, b) ∈ t) (hl : l ≠ k) : (l, b) ∈ t.put k a := by
  induction t with
  | nil => cases h
  | cons e r ih =>
    unfold Table.put
    split
    · next hk =>
      rcases List.mem_cons.1 h with rfl | hr
      · exact absurd hk.symm hl
      · exact List.mem_cons_of_mem _ hr
    · split
      · exact List.mem_cons_of_mem _ h
      · rcases List.mem_cons.1 h with rfl | hr
        · exact List.mem_cons_self
        · exact List.mem_cons_of_mem _ (ih hr)

/-- What becomes of a block while saves begin: its crews stay, its records too when it is not halting, and a running one
may begin to be saved. -/
structure SavedAs (z z' : Block) : Prop where
  crews : z'.crews = z.crews
  halting : z'.halting = z.halting
  recs : z.halting = none → z'.recs = z.recs
  running : z.st = .running → z'.st = .running ∨ z'.st = .saving
  saving : z.st = .saving → z'.st = .saving

theorem SavedAs.refl (z : Block) : SavedAs z z := ⟨rfl, rfl, fun _ => rfl, .inl, id⟩

theorem SavedAs.trans {x y z : Block} (h : SavedAs x y) (h' : SavedAs y z) : SavedAs x z where
  crews := h'.crews.trans h.crews
  halting := h'.halting.trans h.halting
  recs hn := (h'.recs (h.halting.trans hn)).trans (h.recs hn)
  running hr := (h.running hr).elim h'.running fun hs => .inr (h'.saving hs)
  saving hs := h'.saving (h.saving hs)

/-- Every block of `s` is in `t`, as it was or being saved, and no byte has changed. -/
def SavesBegun (s t : State) : Prop :=
  t.mem = s.mem ∧ ∀ b z, s.blocks.find b = some z → ∃ z', t.blocks.find b = some z' ∧ SavedAs z z'

theorem SavesBegun.refl (s : State) : SavesBegun s s := ⟨rfl, fun _ z hz => ⟨z, hz, .refl z⟩⟩

theorem SavesBegun.trans {s t u : State} (h : SavesBegun s t) (h' : SavesBegun t u) : SavesBegun s u := by
  refine ⟨h'.1.trans h.1, fun b z hz => ?_⟩
  obtain ⟨y, hy, hzy⟩ := h.2 b z hz
  obtain ⟨x, hx, hyx⟩ := h'.2 b y hy
  exact ⟨x, hx, hzy.trans hyx⟩

theorem SavesBegun.setBlock {s : State} {b : Nat} {x x' : Block} (hb : s.blocks.find b = some x) (hx : SavedAs x x') :
    SavesBegun s (setBlock s b x') := by
  refine ⟨rfl, fun c z hz => ?_⟩
  unfold Machine.setBlock
  rw [Table.find_put]
  split
  · next hc =>
    rw [hc, hb, Option.some.injEq] at hz
    exact ⟨x', rfl, hz ▸ hx⟩
  · exact ⟨z, hz, .refl z⟩

/-- What `beginSaveOne` notes in a block leaves its records as they are unless it is halting. -/
theorem savedAs_noted (s : State) (x : Block) (causes : Nat) (ts : List Nat) :
    SavedAs x { x with causes := causes, recs := x.recs ++ haltedRecs s x, tokens := ts } := by
  refine ⟨rfl, rfl, fun hn => ?_, .inl, id⟩
  simp only [haltedRecs, hn, List.append_nil]

theorem savesBegun_beginSaveOne (s : State) (b cause : Nat) : SavesBegun s (beginSaveOne s b cause) ∧
    ∀ x, s.blocks.find b = some x → x.st = .running ∨ x.st = .saving →
      ∃ x', (beginSaveOne s b cause).blocks.find b = some x' ∧ x'.st = .saving := by
  unfold beginSaveOne
  split
  · next hb => exact ⟨.refl s, fun x hx => by rw [hb] at hx; cases hx⟩
  · next x hb =>
    have hnoted := savedAs_noted s x (x.causes ||| cause) (x.tokens ++ haltTokens s b x)
    dsimp only
    split
    · next hst =>
      have hbegun := SavesBegun.setBlock hb (x' := { x with
        causes := x.causes ||| cause, recs := x.recs ++ haltedRecs s x
        tokens := x.tokens ++ haltTokens s b x, st := .saving, chkptTill := none })
        ⟨rfl, rfl, hnoted.recs, fun _ => .inr rfl, fun _ => rfl⟩
      exact ⟨⟨rfl, hbegun.2⟩, fun _ _ _ => ⟨_, find_setBlock .., rfl⟩⟩
    · next hst =>
      refine ⟨SavesBegun.setBlock hb hnoted, fun y hy hs => ?_⟩
      obtain rfl : x = y := Option.some.inj (hb.symm.trans hy)
      exact ⟨_, find_setBlock .., hs.resolve_left fun hr => hst (.inl hr)⟩

theorem savesBegun_joinSave (s : State) (b cause : Nat) : SavesBegun s (joinSave s b cause) ∧
    ∀ x, s.blocks.find b = some x → x.st = .running ∨ x.st = .saving →
      ∃ x', (joinSave s b cause).blocks.find b = some x' ∧ x'.st = .saving := by
  unfold joinSave
  split
  · next hb => exact ⟨.refl s, fun x hx => by rw [hb] at hx; cases hx⟩
  · next x hb =>
    split
    · next hst =>
      refine ⟨SavesBegun.setBlock hb ⟨rfl, rfl, fun _ => rfl, .inl, id⟩, fun y hy hs => ?_⟩
      obtain rfl : x = y := Option.some.inj (hb.symm.trans hy)
      rw [hst] at hs
      simp at hs
    · exact savesBegun_beginSaveOne s b cause

/-- The saves of a list of blocks: each of them that runs is being saved afterwards. -/
theorem savesBegun_fold (k cause : Nat) (bs : List Nat) : ∀ s,
    let t := bs.foldl (fun s b => if b = k then beginSaveOne s b cause else joinSave s b cause) s
    SavesBegun s t ∧ ∀ b ∈ bs, ∀ z, s.blocks.find b = some z → z.st = .running ∨ z.st = .saving →
      ∃ z', t.blocks.find b = some z' ∧ z'.st = .saving := by
  induction bs with
  | nil => exact fun s => ⟨.refl s, fun _ h => nomatch h⟩
  | cons c bs ih =>
    intro s
    have hone : SavesBegun s (if c = k then beginSaveOne s c cause else joinSave s c cause) ∧
        ∀ x, s.blocks.find c = some x → x.st = .running ∨ x.st = .saving →
          ∃ x', (if c = k then beginSaveOne s c cause else joinSave s c cause).blocks.find c = some x' ∧ x'.st = .saving := by
      split
      · exact savesBegun_beginSaveOne s c cause
      · exact savesBegun_joinSave s c cause
    obtain ⟨hrest, hall⟩ := ih (if c = k then beginSaveOne s c cause else joinSave s c cause)
    refine ⟨hone.1.trans hrest, fun b hb z hz hst => ?_⟩
    rcases List.mem_cons.1 hb with rfl | hb
    · obtain ⟨x, hx, hs⟩ := hone.2 z hz hst
      obtain ⟨x', hx', has⟩ := hrest.2 b x hx
      exact ⟨x', hx', has.saving hs⟩
    · obtain ⟨x, hx, has⟩ := hone.1.2 b z hz
      exact hall b hb x hx (hst.elim has.running fun hs => .inr (has.saving hs))

theorem mem_fleetOf {s : State} {launch fleet b : Nat} : b ∈ fleetOf s launch fleet ↔
    ∃ z, (b, z) ∈ s.blocks ∧ z.launch = launch ∧ z.fleet = fleet ∧ z.st ≠ .retired := by
  simp [fleetOf, and_assoc]

/-- R229: a precise fault keeps its record for the block's save and begins the saves of the running blocks of its fleet. -/
theorem takeFault_saves {s : State} {h : Here} {cause : Cause} {code : Nat} {addr : DWord} {kind : Nat}
    (hb : s.blocks.find h.b = some h.blk) (hr : h.blk.st = .running) (hh : h.blk.halting = none) :
    let t := takeFault s h cause code addr kind
    ∃ y rec, sameBytes s t ∧ t.blocks.find h.b = some y ∧ y.st = .saving ∧
      y.crews = h.blk.crews ∧ y.recs = h.blk.recs ++ [rec] ∧ rec.cause = cause ∧ rec.code = code ∧
      rec.flags = 2 + 16 + 32 ∧ rec.addr = addr ∧ rec.pc = hPc h ∧ rec.mask = h.act ∧ rec.info / 2 % 8 = kind % 8 ∧
      ∀ b z, b ≠ h.b → s.blocks.find b = some z → b ∈ fleetOf s h.blk.launch h.blk.fleet →
        ∃ z', t.blocks.find b = some z' ∧ z'.crews = z.crews ∧ (z.st = .running → z'.st = .saving) := by
  set r := blockRec s h.blk cause (2 + 16 + 32) (hPc h) addr h.act h.c (infoOf h.k kind (inCapsule h.crew (hMask h))) code 0
    (if inCapsule h.crew (hMask h) then (capRecord h.crew (hMask h)).getD 0 else 0) with hrec
  set x : Block := { h.blk with recs := h.blk.recs ++ [r] } with hx
  set s1 := setBlock s h.b x with hs1
  have hfind : s1.blocks.find h.b = some x := find_setBlock ..
  have ht : takeFault s h cause code addr kind = (fleetOf s1 x.launch x.fleet).foldl
      (fun s b => if b = h.b then beginSaveOne s b 8 else joinSave s b 8) s1 := by
    have hupd : updBlock s h.b (fun x => { x with recs := x.recs ++ [r] }) = s1 := by rw [updBlock, hb]
    unfold takeFault
    dsimp only
    rw [← hrec, hupd, beginSave, hfind]
  intro t
  obtain ⟨hall, hsaved⟩ := savesBegun_fold h.b 8 (fleetOf s1 x.launch x.fleet) s1
  rw [← ht] at hall hsaved
  have hown : h.b ∈ fleetOf s1 x.launch x.fleet :=
    mem_fleetOf.2 ⟨x, mem_of_find hfind, rfl, rfl, by rw [hx]; dsimp only; rw [hr]; decide⟩
  obtain ⟨y, hy, hyx⟩ := hall.2 h.b x hfind
  obtain ⟨y', hy', hsaving⟩ := hsaved h.b hown x hfind (.inl hr)
  obtain rfl : y' = y := Option.some.inj (hy'.symm.trans hy)
  refine ⟨y', r, fun p => by unfold byteAt; rw [show t.mem = s.mem from hall.1], hy, hsaving, hyx.crews, hyx.recs hh, rfl, rfl,
    rfl, rfl, rfl, rfl, ?_, fun b z hne hz hmem => ?_⟩
  · change infoOf h.k kind (inCapsule h.crew (hMask h)) / 2 % 8 = kind % 8
    unfold infoOf
    split <;> omega
  · obtain ⟨e, he, hl, hf, hst⟩ := mem_fleetOf.1 hmem
    have hz1 : s1.blocks.find b = some z := (Table.find_put_other _ _ hne).trans hz
    have hmem1 : b ∈ fleetOf s1 x.launch x.fleet := mem_fleetOf.2 ⟨e, mem_put_of_ne he hne, hl, hf, hst⟩
    obtain ⟨z', hz', has⟩ := hall.2 b z hz1
    refine ⟨z', hz', has.crews, fun hrun => ?_⟩
    obtain ⟨w, hw, hws⟩ := hsaved b hmem1 z hz1 (.inl hrun)
    rw [Option.some.inj (hz'.symm.trans hw), hws]

/-! ## The words that take one -/

/-- A word with lanes active whose effects stop. -/
theorem issue_on_stops {i : Instr} {s t : State} {h : Here} {body : Here → Exec Unit} {m : Mask} {e : Exec Unit}
    (hp : passes i s h) (hb : body h = if m = 0 then nextE h else e) (hm : m ≠ 0) (he : e.run s = .error t) :
    issueWord i s body = .next t :=
  issueWord_stops hp (by rw [hb, if_neg hm, he])

/-- Lanes are looked at in order: where the first stops, they stop. -/
theorem mapM_stops {α β : Type} {f : α → Exec β} {a : α} {r : List α} {s t : State} (hf : (f a).run s = .error t) :
    ((a :: r).mapM f).run s = .error t := by
  rw [List.mapM_cons, run_bind_error hf]

theorem mapM_runs {α β : Type} {f : α → Exec β} {g : α → β} {s : State} (hf : ∀ a, (f a).run s = .ok (g a, s)) (l : List α) :
    (l.mapM f).run s = .ok (l.map g, s) := by
  induction l with
  | nil => rfl
  | cons a l ih =>
    rw [List.mapM_cons, run_bind_ok (hf a), run_bind_ok ih]
    rfl

/-- R186: without a buffer record the lanes' addresses are their own. -/
theorem loadVasE_plain (h : Here) (x : MemOp) (m : Mask) (s : State) :
    (loadVasE h x none m).run s = .ok ((accessLanes x.d m).map fun l => (l, rawVa s h x l), s) := by
  unfold loadVasE
  rw [run_bind_ok (mapM_runs (g := fun l => some (l, rawVa s h x l)) (fun _ => rfl) _)]
  rw [run_pure, List.filterMap_map]
  exact congrArg (fun vs => Except.ok (vs, s)) (congrFun List.filterMap_eq_map' _)

section
variable {x : MemOp} {s : State} {h : Here} {l : Nat} {r : List Nat} (hl : accessLanes x.d (activeMask h x.g) = l :: r)
include hl

/-- R47: the first lane's bytes lie in no window. -/
theorem gatherE_bad {md : LoadMode} {later : List Piece → Exec Bool}
    (hbad : routeOf (rawVa s h x l) (sizeBytes x.sz) = .bad) : (gatherE h x none md (activeMask h x.g) later).run s =
      .error (takeFault s h .addrf 0 (BitVec.ofNat 64 (rawVa s h x l)) 0) := by
  have hsplit : (splitLaneE h x.d (activeMask h x.g) md l (rawVa s h x l) (accBytes x none)).run s =
      .error (takeFault s h .addrf 0 (BitVec.ofNat 64 (rawVa s h x l)) 0) := by
    unfold splitLaneE accBytes
    rw [hbad]
    rfl
  unfold gatherE
  rw [run_bind_ok (loadVasE_plain ..), hl, List.map_cons]
  exact run_bind_error (mapM_stops hsplit)

/-- R187: the first lane's bytes lie beyond the block's stash. -/
theorem gatherStashE_beyond (hbad : h.blk.kern.stash < localOff s h x l + sizeBytes x.sz) :
    (gatherStashE h x (activeMask h x.g)).run s =
      .error (takeFault s h .accf 2 (BitVec.ofNat 64 (localOff s h x l)) 0) := by
  unfold gatherStashE
  dsimp only
  rw [run_bind_ok (run_getE s), hl]
  refine run_bind_error (mapM_stops (run_bind_error ?_))
  unfold stashE
  dsimp only
  rw [if_pos hbad]
  rfl

end

section
variable {s : State} {h : Here} {va n : Nat} (hbad : routeOf va n = .bad)
include hbad

theorem atomToE_bad : (atomToE h va n).run s = .error (takeFault s h .addrf 0 (BitVec.ofNat 64 va) 2) := by
  unfold atomToE
  rw [run_bind_ok (run_getE s), hbad]
  rfl

theorem atomReadyE_bad (m : Mask) : (atomReadyE h m va n).run s = .error (takeFault s h .addrf 0 (BitVec.ofNat 64 va) 2) := by
  unfold atomReadyE
  exact run_bind_error (atomToE_bad hbad)

theorem loadBytesE_bad (m : Mask) (md : LoadMode) :
    (loadBytesE h m va n md).run s = .error (takeFault s h .addrf 0 (BitVec.ofNat 64 va) 0) := by
  unfold loadBytesE
  rw [hbad]
  rfl

end

/-- R192: the first lane's place lies in no window. -/
theorem atomLanesE_bad {s : State} {h : Here} {n : Nat} {sem : AtomSem} {p : AtomLane} {ps : List AtomLane}
    (hbad : routeOf p.va n = .bad) :
    (atomLanesE h n sem (p :: ps)).run s = .error (takeFault s h .addrf 0 (BitVec.ofNat 64 p.va) 2) := by
  unfold atomLanesE
  exact run_bind_error (mapM_stops (run_bind_error (atomReadyE_bad hbad p.lanes)))

/-- R195: the range is no range of the global window. -/
theorem rangeE_bad {h : Here} {a b : Opnd} {f : Nat → Nat → RangeLine → Exec Unit} {s : State} (h0 : srcNum s h b 1 0 ≠ 0)
    (hg : globalRange (srcNum s h a 2 0) (srcNum s h b 1 0) = false) :
    (rangeE h a b f).run s = .error (takeFault s h .addrf 0 (BitVec.ofNat 64 (srcNum s h a 2 0)) 0) := by
  unfold rangeE
  rw [run_bind_ok (run_getE s)]
  dsimp only
  rw [if_neg h0, if_pos (by rw [hg]; rfl)]
  rfl

theorem bufRecE_none {h : Here} {x : MemOp} {wr : Bool} (hb : x.buf = 0) (s : State) :
    (bufRecE h x wr).run s = .ok (none, s) := by
  unfold bufRecE
  rw [hb]
  rfl

theorem bufPairE_none (h : Here) (x : MemOp) (s : State) : (bufPairE h x none).run s = .ok ((), s) := rfl

theorem loadBody_bad {x : MemOp} {md : LoadMode} {s : State} {h : Here} {l : Nat} {r : List Nat}
    (hm : activeMask h x.g ≠ 0) (hb : x.buf = 0) (hl : accessLanes x.d (activeMask h x.g) = l :: r)
    (hbad : routeOf (rawVa s h x l) (sizeBytes x.sz) = .bad) :
    (loadBody x md h).run s = .error (takeFault s h .addrf 0 (BitVec.ofNat 64 (rawVa s h x l)) 0) := by
  unfold loadBody
  dsimp only
  rw [if_neg hm, run_bind_ok (bufRecE_none hb s), run_bind_ok (bufPairE_none h x s), run_bind_error (gatherE_bad hl hbad)]

/-- Settles O50: the fault begins the saves of its fleet; each word comes to it before anything of it is performed. -/
theorem preciseFaultSavesBlock : Obligations.PreciseFaultSavesBlock := by
  refine ⟨fun s h cause code addr kind hb hr hh => takeFault_saves hb hr hh, fun x s h l r hp hm hl hbad => ?lds,
    fun x s h l r hm hb hl hbad => ⟨fun hp => ?ld, fun hp => ?ldro, fun ac hp hac => ?ldsp⟩,
    fun x s h l r hp hm hd hl hbad => ?atom, fun x s h l r hp hm hd hl hbad => ?red, fun d a s h hp hal hbad => ?moor,
    fun a b sc s h h0 hg => ⟨fun hp => ?cwb, fun hp => ?cinv⟩⟩
  case lds =>
    rw [exec_lds]
    refine issue_on_stops hp rfl hm ?_
    rw [run_bind_error (gatherStashE_beyond hl hbad)]
  case ld =>
    rw [exec_ld]
    exact issueWord_stops hp (loadBody_bad hm hb hl hbad)
  case ldro =>
    rw [exec_ldro]
    exact issueWord_stops hp (loadBody_bad hm hb hl hbad)
  case ldsp =>
    rw [exec_ldsp]
    refine issue_on_stops hp rfl hm ?_
    rw [if_neg (Nat.not_le.2 hac), run_bind_ok (bufRecE_none hb s), run_bind_ok (bufPairE_none h x s),
      run_bind_error (gatherE_bad hl hbad)]
  case atom =>
    rw [exec_atom]
    refine issue_on_stops hp rfl hm ?_
    refine (run_ite_before (drain_if_runs hd)).trans ?_
    rw [run_bind_ok (run_getE s), hl]
    exact run_bind_error (atomLanesE_bad hbad)
  case red =>
    obtain ⟨late, u, hu, hlate⟩ := anyTimeE_runs (l := lanesOf (activeMask h x.g)) (s := s)
    have hsrc : srcNum u h x.a 2 l = srcNum s h x.a 2 l := by rw [hu]; rfl
    refine ⟨u, hu, ?_⟩
    rw [exec_red]
    refine issue_on_stops hp rfl hm ?_
    refine (run_ite_before (drain_if_runs hd)).trans ?_
    rw [run_bind_ok (run_getE s), run_bind_ok hlate, hl]
    cases late with
    | true =>
      rw [if_pos rfl]
      refine run_bind_error (mapM_stops ?_)
      unfold redPieceE
      rw [run_bind_ok (run_getE u), hsrc]
      exact run_bind_error (atomToE_bad hbad)
    | false =>
      rw [if_neg Bool.false_ne_true]
      exact run_bind_error (atomLanesE_bad hbad)
  case moor =>
    rw [exec_moor]
    refine issueWord_stops hp ?_
    rw [run_bind_ok (run_getE s)]
    dsimp only
    rw [if_neg (not_not.2 hal), run_bind_error (loadBytesE_bad hbad _ _)]
  case cwb =>
    rw [exec_cwb]
    exact issueWord_stops hp (run_bind_error (rangeE_bad h0 hg))
  case cinv =>
    rw [exec_cinv]
    exact issueWord_stops hp (run_bind_error (rangeE_bad h0 hg))

end Sys2Proof
end

section
/-! # Crews that a step changes, and grids that end with error (O45, O46) -/
namespace Sys2Proof
open Machine
set_option Elab.async false

/-! ## The crew after a change -/

theorem crewOf_eq_some {s : State} {b c : Nat} {y : Crew} :
    crewOf s b c = some y ↔ ∃ x, s.blocks.find b = some x ∧ x.crews.find c = some y := by
  simp only [crewOf, Option.bind_eq_some_iff]

theorem crewOf_setCrew {s : State} {b c : Nat} {x : Block} (y : Crew) (hb : s.blocks.find b = some x) :
    crewOf (setCrew s b c y) b c = some y := by
  rw [setCrew_eq y hb]
  exact crewOf_eq_some.2 ⟨_, find_setBlock .., Table.find_put_same ..⟩

theorem crewOf_updCrew {s : State} {b c : Nat} {y : Crew} (f : Crew → Crew) (hy : crewOf s b c = some y) :
    crewOf (updCrew s b c f) b c = some (f y) := by
  obtain ⟨x, hb, hc⟩ := crewOf_eq_some.1 hy
  rw [updCrew_eq f hb hc]
  exact crewOf_eq_some.2 ⟨_, find_setBlock .., Table.find_put_same ..⟩

theorem crewOf_putCrew {s : State} {b c : Nat} {y0 : Crew} (y : Crew) (hy : crewOf s b c = some y0) :
    crewOf (putCrew s b c y) b c = some (settle y) := by
  obtain ⟨x, hb, -⟩ := crewOf_eq_some.1 hy
  have hset := crewOf_setCrew (s := s) (c := c) (settle y) hb
  unfold putCrew popLater
  rw [hset]
  dsimp only
  split
  · exact hset
  · exact hset

theorem slotOf_setSlot (y : Crew) (k : Nat) (t : Slot) : slotOf (setSlot y k t) k = t := by
  unfold slotOf setSlot
  split <;> rfl

/-- The merge of paths changes the slots and the points of a crew, and nothing else of it. -/
def SameButPaths (y z : Crew) : Prop := z = { y with slot0 := z.slot0, slot1 := z.slot1, joins := z.joins }

theorem SameButPaths.refl (y : Crew) : SameButPaths y y := rfl

theorem SameButPaths.trans {x y z : Crew} (h : SameButPaths x y) (h' : SameButPaths y z) : SameButPaths x z := by
  unfold SameButPaths at *
  rw [h', h]

theorem sameButPaths_setSlot (y : Crew) (k : Nat) (t : Slot) : SameButPaths y (setSlot y k t) := by
  unfold SameButPaths setSlot
  split <;> rfl

theorem sameButPaths_settleN (n : Nat) (y : Crew) : SameButPaths y (settleN n y) := by
  induction n generalizing y with
  | zero => rfl
  | succ n ih =>
    unfold settleN
    split
    · rfl
    · next j r hj =>
      have hmerge : SameButPaths y (if atPoint y.slot0 j && atPoint y.slot1 j then mergeSlots y else y) := by
        split <;> rfl
      dsimp only
      generalize (if atPoint y.slot0 j && atPoint y.slot1 j then mergeSlots y else y) = y1 at hmerge ⊢
      refine hmerge.trans ?_
      split
      · next k _ =>
        have hpop : SameButPaths y1 { setSlot y1 k { slotOf y1 k with
            st := .ready, due := (slotOf y1 k).due ++ j.recs } with joins := r } :=
          (sameButPaths_setSlot y1 k _).trans rfl
        exact hpop.trans (ih _)
      · split
        · exact SameButPaths.trans (y := { y1 with joins := r }) rfl (ih _)
        · rfl

theorem sameButPaths_settle (y : Crew) : SameButPaths y (settle y) := by
  unfold settle
  split
  · rfl
  · exact sameButPaths_settleN _ y

/-! ## The records that the end of a grid posts -/

/-- No record of the block waits for its save. -/
def NoRecs (s : State) (b : Nat) : Prop := ∀ x, s.blocks.find b = some x → x.recs = []

/-- From `s` to `t` the launches stay, no block gets records, and every die waits for more records at most, all with ENDED
set: for none where no block of `bs` keeps any. -/
structure PostsEnded (bs : List Nat) (s t : State) : Prop where
  launches : t.launches = s.launches
  recs : ∀ b, NoRecs s b → NoRecs t b
  waiting : ∀ die, ∃ more, waitingRecs t die = waitingRecs s die ++ more ∧ (∀ q ∈ more, nbit q.flags 6 = true) ∧
    ((∀ b ∈ bs, NoRecs s b) → more = [])

theorem PostsEnded.refl {bs : List Nat} (s : State) : PostsEnded bs s s :=
  ⟨rfl, fun _ h => h, fun _ => ⟨[], (List.append_nil _).symm, fun _ h => (nomatch h), fun _ => rfl⟩⟩

theorem PostsEnded.trans {bs : List Nat} {s t u : State} (h : PostsEnded bs s t) (h' : PostsEnded bs t u) :
    PostsEnded bs s u := by
  refine ⟨h'.launches.trans h.launches, fun b hb => h'.recs b (h.recs b hb), fun die => ?_⟩
  obtain ⟨m, hm, hf, hn⟩ := h.waiting die
  obtain ⟨m', hm', hf', hn'⟩ := h'.waiting die
  refine ⟨m ++ m', by rw [hm', hm, List.append_assoc], fun q hq => (List.mem_append.1 hq).elim (hf q) (hf' q), fun hb => ?_⟩
  rw [hn hb, hn' fun b hbs => h.recs b (hb b hbs)]
  rfl

theorem PostsEnded.fold {bs : List Nat} {α : Type} {f : State → α → State} (l : List α)
    (hf : ∀ a ∈ l, ∀ s, PostsEnded bs s (f s a)) (s : State) : PostsEnded bs s (l.foldl f s) := by
  induction l generalizing s with
  | nil => exact .refl s
  | cons a l ih => exact (hf a List.mem_cons_self s).trans (ih (fun b hb => hf b (List.mem_cons_of_mem _ hb)) _)

/-- Nothing that the records turn on has changed. -/
theorem PostsEnded.of_same {bs : List Nat} {s t : State} (hl : t.launches = s.launches) (hd : t.dies = s.dies)
    (hb : ∀ b, NoRecs s b → NoRecs t b) : PostsEnded bs s t :=
  ⟨hl, hb, fun die => ⟨[], by unfold waitingRecs dieOf; rw [hd, List.append_nil], fun _ h => (nomatch h), fun _ => rfl⟩⟩

theorem noRecs_setBlock {s : State} {b c : Nat} {x : Block} (hx : c = b → x.recs = []) (hs : NoRecs s c) :
    NoRecs (setBlock s b x) c := by
  intro y hy
  unfold setBlock at hy
  rw [Table.find_put] at hy
  split at hy
  · next hc => exact Option.some.inj hy ▸ hx hc
  · exact hs y hy

theorem noRecs_setCrew {s : State} {b c d : Nat} {y : Crew} (hs : NoRecs s d) : NoRecs (setCrew s b c y) d := by
  unfold setCrew updBlock
  split
  · next x hx => exact noRecs_setBlock (fun hd => hs x (hd ▸ hx)) hs
  · exact hs

theorem noRecs_parkCrew {s : State} {b c d : Nat} (hs : NoRecs s d) : NoRecs (parkCrew s b c) d := by
  unfold parkCrew
  split
  · exact hs
  · split
    · exact hs
    · split
      · exact hs
      · exact noRecs_setCrew (s := (sendCap s _ b c _ .park).2) hs

theorem parkCrew_launches (s : State) (b c : Nat) : (parkCrew s b c).launches = s.launches := by
  unfold parkCrew
  split
  · rfl
  · split
    · rfl
    · split
      · rfl
      · exact setCrew_launches (sendCap s _ b c _ .park).2 ..

theorem parkCrew_dies (s : State) (b c : Nat) : (parkCrew s b c).dies = s.dies := by
  unfold parkCrew
  split
  · rfl
  · split
    · rfl
    · split
      · rfl
      · exact setCrew_dies (sendCap s _ b c _ .park).2 ..

theorem postsEnded_parkCrew {bs : List Nat} (s : State) (b c : Nat) : PostsEnded bs s (parkCrew s b c) :=
  .of_same (parkCrew_launches s b c) (parkCrew_dies s b c) fun _ => noRecs_parkCrew

theorem postsEnded_parkBlock {bs : List Nat} (s : State) (b : Nat) : PostsEnded bs s (parkBlock s b) := by
  unfold parkBlock
  split
  · exact .refl s
  · exact .fold _ (fun c _ s => postsEnded_parkCrew s b c) s

theorem openCode_dies (s : State) (c : Cause) (code : Nat) : (openCode s c code).2.dies = s.dies := by
  unfold openCode
  split <;> rfl

theorem openCode_blocks (s : State) (c : Cause) (code : Nat) : (openCode s c code).2.blocks = s.blocks := by
  unfold openCode
  split <;> rfl

theorem openCode_launches (s : State) (c : Cause) (code : Nat) : (openCode s c code).2.launches = s.launches := by
  unfold openCode
  split <;> rfl

theorem openCode_stated {s : State} {c : Cause} {code : Nat} (h : codeStated c = true ∨ code = 0xFFFF) :
    openCode s c code = (code, s) := by
  unfold openCode
  rw [if_pos (by simpa using h)]

/-- R232: a posted record waits at its die, with its code. -/
theorem waitingRecs_postRec (s : State) (d die : Nat) (r : FRec) : waitingRecs (postRec s d r) die =
    if die = d then waitingRecs s die ++ [{ r with code := (openCode s r.cause r.code).1 }] else waitingRecs s die := by
  have hput : waitingRecs (postRec s d r) die = ((openCode s r.cause r.code).2.dies.put d
      { dieOf (openCode s r.cause r.code).2 d with waiting := (dieOf (openCode s r.cause r.code).2 d).waiting ++
        [{ r with code := (openCode s r.cause r.code).1 }] } |>.getD die Die.reset).waiting := rfl
  rw [hput]
  unfold waitingRecs dieOf
  rw [openCode_dies]
  split
  · next h => rw [h, Table.getD_put_same]
  · next h => rw [Table.getD_put_other _ _ _ h]

theorem postRec_blocks (s : State) (d : Nat) (r : FRec) : (postRec s d r).blocks = s.blocks :=
  openCode_blocks s r.cause r.code

theorem postRec_launches (s : State) (d : Nat) (r : FRec) : (postRec s d r).launches = s.launches :=
  openCode_launches s r.cause r.code

theorem nbit_endedRec (r : FRec) : nbit (endedRec r).flags 6 = true := by
  have h : (endedRec r).flags = r.flags % 16 + 64 := rfl
  unfold nbit
  rw [h, beq_iff_eq]
  omega

/-- The records of one block, posted where it keeps any. -/
theorem postsEnded_postEnded {bs : List Nat} (s : State) {b : Nat} (hb : b ∈ bs) : PostsEnded bs s (postEnded s b) := by
  unfold postEnded
  split
  · exact .refl s
  · next x hx =>
    have hclear : ∀ c, NoRecs s c → NoRecs (setBlock s b { x with recs := [] }) c := fun c => noRecs_setBlock fun _ => rfl
    by_cases hnone : x.recs = []
    · rw [hnone]
      exact .of_same rfl rfl hclear
    · have hkept : ¬ ∀ b ∈ bs, NoRecs s b := fun hall => hnone (hall b hb x hx)
      have hposted : ∀ (rs : List FRec) (t : State),
          let u := rs.foldl (fun s r => postRec s (dieOfCore x.core) (endedRec r)) t
          u.launches = t.launches ∧ u.blocks = t.blocks ∧ ∀ die, ∃ more, waitingRecs u die = waitingRecs t die ++ more ∧
            ∀ q ∈ more, nbit q.flags 6 = true := by
        intro rs
        induction rs with
        | nil => exact fun t => ⟨rfl, rfl, fun die => ⟨[], (List.append_nil _).symm, fun _ h => (nomatch h)⟩⟩
        | cons r rs ih =>
          intro t
          obtain ⟨hl, hbl, hw⟩ := ih (postRec t (dieOfCore x.core) (endedRec r))
          refine ⟨hl.trans (postRec_launches ..), hbl.trans (postRec_blocks ..), fun die => ?_⟩
          obtain ⟨m, hm, hf⟩ := hw die
          rw [waitingRecs_postRec] at hm
          split at hm
          · rw [List.append_assoc] at hm
            refine ⟨_, hm, fun q hq => ?_⟩
            rcases List.mem_append.1 hq with hq | hq
            · rw [List.mem_singleton.1 hq]
              exact nbit_endedRec r
            · exact hf q hq
          · exact ⟨m, hm, hf⟩
      obtain ⟨hl, hbl, hw⟩ := hposted x.recs (setBlock s b { x with recs := [] })
      refine ⟨hl, fun c hc => ?_, fun die => ?_⟩
      · unfold NoRecs
        rw [hbl]
        exact hclear c hc
      · obtain ⟨m, hm, hf⟩ := hw die
        exact ⟨m, hm, hf, fun hall => absurd hall hkept⟩

theorem postsEnded_stopBlock {bs : List Nat} (s : State) {b : Nat} (hb : b ∈ bs) : PostsEnded bs s (stopBlock s b) :=
  ((postsEnded_postEnded s hb).trans (postsEnded_parkBlock _ b)).trans (.of_same rfl rfl fun _ h => h)

theorem postsEnded_endCopies {bs : List Nat} (s : State) (launch : Nat) : PostsEnded bs s (endCopies s launch) := by
  unfold endCopies
  refine PostsEnded.trans ?_ (.fold (f := fun s (e : Nat × Copy) => later s (.copyLineLand e.1 0))
    (s.copies.filter fun e => copyOfLaunch s launch e.2) (fun e _ t => ?_) _)
  · exact .of_same rfl rfl fun _ h => h
  · exact .of_same rfl rfl fun _ h => h

/-- R239: the grid ends with error; beside it only records that its blocks kept are posted. -/
theorem endGrid_ends (s : State) (launch : Nat) :
    (∀ l, s.launches.find launch = some l → ∃ l', (endGrid s launch).launches.find launch = some l' ∧ l'.error = true) ∧
    ∀ die, ∃ more, waitingRecs (endGrid s launch) die = waitingRecs s die ++ more ∧ (∀ q ∈ more, nbit q.flags 6 = true) ∧
      ((∀ b ∈ blocksOfLaunch s launch, NoRecs s b) → more = []) := by
  have hnone : ∀ die, ∃ more, waitingRecs s die = waitingRecs s die ++ more ∧ (∀ q ∈ more, nbit q.flags 6 = true) ∧
      ((∀ b ∈ blocksOfLaunch s launch, NoRecs s b) → more = []) :=
    fun _ => ⟨[], (List.append_nil _).symm, fun _ h => (nomatch h), fun _ => rfl⟩
  unfold endGrid
  split
  · next hl => exact ⟨fun l h => (nomatch hl.symm.trans h), hnone⟩
  · next l0 hl =>
    split
    · next he =>
      exact ⟨fun l h => ⟨l, h, by rw [← Option.some.inj (hl.symm.trans h)]; exact he⟩, hnone⟩
    · have hends := (postsEnded_endCopies (bs := blocksOfLaunch s launch)
        { s with launches := s.launches.put launch { l0 with error := true } } launch).trans
        (.fold (blocksOfLaunch s launch) (fun b hb t => postsEnded_stopBlock t hb) _)
      refine ⟨fun l h => ⟨{ l0 with error := true }, ?_, rfl⟩, hends.waiting⟩
      exact (congrArg (fun ls : Table Launch => ls.find launch) hends.launches).trans (Table.find_put_same ..)

theorem mem_put {α : Type} {t : Table α} {k l : Nat} {a b : α} (h : (l, b) ∈ t.put k a) : (l = k ∧ b = a) ∨ (l, b) ∈ t := by
  induction t with
  | nil =>
    cases List.mem_singleton.1 h
    exact .inl ⟨rfl, rfl⟩
  | cons e r ih =>
    unfold Table.put at h
    split at h
    · rcases List.mem_cons.1 h with he | hr
      · cases he
        exact .inl ⟨rfl, rfl⟩
      · exact .inr (List.mem_cons_of_mem _ hr)
    · split at h
      · rcases List.mem_cons.1 h with he | hr
        · cases he
          exact .inl ⟨rfl, rfl⟩
        · exact .inr hr
      · rcases List.mem_cons.1 h with he | hr
        · exact .inr (he ▸ List.mem_cons_self)
        · exact (ih hr).imp_right (List.mem_cons_of_mem _)

theorem mem_blocksOfLaunch {s : State} {launch b : Nat} : b ∈ blocksOfLaunch s launch ↔
    ∃ z, (b, z) ∈ s.blocks ∧ z.launch = launch ∧ z.st ≠ .retired := by
  simp [blocksOfLaunch]

/-- A block whose crew changes stays a block of its launch, and no other becomes one. -/
theorem blocksOfLaunch_setCrew {s : State} {b c launch k : Nat} {y : Crew} (h : k ∈ blocksOfLaunch (setCrew s b c y) launch) :
    k ∈ blocksOfLaunch s launch := by
  unfold setCrew updBlock at h
  split at h
  · next x hx =>
    obtain ⟨z, hz, hl, hst⟩ := mem_blocksOfLaunch.1 h
    rcases mem_put hz with ⟨rfl, rfl⟩ | hz
    · exact mem_blocksOfLaunch.2 ⟨x, mem_of_find hx, hl, hst⟩
    · exact mem_blocksOfLaunch.2 ⟨z, hz, hl, hst⟩
  · exact h

theorem blocksOfLaunch_parkCrew {s : State} {b c launch k : Nat} (h : k ∈ blocksOfLaunch (parkCrew s b c) launch) :
    k ∈ blocksOfLaunch s launch := by
  unfold parkCrew at h
  split at h
  · exact h
  · split at h
    · exact h
    · split at h
      · exact h
      · exact blocksOfLaunch_setCrew (s := (sendCap s _ b c _ .park).2) h

section
variable (s : State) (h : Here)

theorem trapCapsule_dies : (trapCapsule s h).dies = s.dies := by
  unfold trapCapsule
  split
  · exact parkCrew_dies ..
  · rfl

theorem trapCapsule_launches : (trapCapsule s h).launches = s.launches := by
  unfold trapCapsule
  split
  · exact parkCrew_launches ..
  · rfl

variable {s h}

theorem noRecs_trapCapsule {b : Nat} (hs : NoRecs s b) : NoRecs (trapCapsule s h) b := by
  unfold trapCapsule
  split
  · exact noRecs_parkCrew hs
  · exact hs

theorem blocksOfLaunch_trapCapsule {launch k : Nat} (hk : k ∈ blocksOfLaunch (trapCapsule s h) launch) :
    k ∈ blocksOfLaunch s launch := by
  unfold trapCapsule at hk
  split at hk
  · exact blocksOfLaunch_parkCrew hk
  · exact hk

/-- R237, R238: a trap that ends its grid posts its record, with ENDED, and the records its blocks kept after it. -/
theorem gridEnded_endWithRecord (cause : Cause) (code : Nat) (m : Mask) (at10 : DWord) :
    gridEnded s (endWithRecord (trapCapsule s h) h cause code m at10) h fun r => r.cause = cause ∧ r.pc = hPc h ∧ r.mask = m ∧
      r.addr = at10 ∧ r.info / 2 % 8 = 0 ∧ (codeStated cause = true ∨ code = 0xFFFF → r.code = code) := by
  unfold endWithRecord
  dsimp only
  generalize hr : blockRec (trapCapsule s h) h.blk cause (2 + 64) (hPc h) at10 m h.c
    (h.k % 2 + if inCapsule h.crew (hMask h) then 16 else 0) code
    (if inCapsule h.crew (hMask h) then (capRecord h.crew (hMask h)).getD 0 else 0) 0 = r
  set s2 := postRec (trapCapsule s h) (dieOfCore h.blk.core) r with hs2
  have hlaunches : s2.launches = s.launches := (postRec_launches ..).trans (trapCapsule_launches s h)
  have hwaiting : ∀ die, waitingRecs s2 die = if die = dieOfCore h.blk.core then
      waitingRecs s die ++ [{ r with code := (openCode (trapCapsule s h) r.cause r.code).1 }] else waitingRecs s die := by
    intro die
    rw [hs2, waitingRecs_postRec]
    unfold waitingRecs dieOf
    rw [trapCapsule_dies]
  have hkept : ¬ keepsRecs s h.blk.launch → ∀ b ∈ blocksOfLaunch s2 h.blk.launch, NoRecs s2 b := by
    intro hno b hb
    have hblocks : s2.blocks = (trapCapsule s h).blocks := postRec_blocks ..
    have hnorecs : NoRecs s b := fun x hx => by
      by_contra hne
      refine hno ⟨b, blocksOfLaunch_trapCapsule (h := h) ?_, x, hx, hne⟩
      unfold blocksOfLaunch at hb ⊢
      rwa [hblocks] at hb
    unfold NoRecs
    rw [hblocks]
    exact noRecs_trapCapsule hnorecs
  obtain ⟨herror, hmore⟩ := endGrid_ends s2 h.blk.launch
  refine ⟨fun l hl => herror l (by rw [hlaunches]; exact hl), fun die hdie => ?_, ?_⟩
  · obtain ⟨more, hw, hf, hn⟩ := hmore die
    rw [hwaiting, if_neg hdie] at hw
    exact ⟨more, hw, hf, fun hno => hn (hkept hno)⟩
  · obtain ⟨more, hw, hf, hn⟩ := hmore (dieOfCore h.blk.core)
    rw [hwaiting, if_pos rfl, List.append_assoc] at hw
    refine ⟨_, more, hw, hf, fun hno => hn (hkept hno), ?_, ?_⟩
    · rw [← hr]
      exact (by decide : nbit (2 + 64) 6 = true)
    · rw [← hr]
      refine ⟨rfl, rfl, rfl, rfl, ?_, fun hc => ?_⟩
      · change (h.k % 2 + if inCapsule h.crew (hMask h) then 16 else 0) / 2 % 8 = 0
        split <;> omega
      · exact congrArg Prod.fst (openCode_stated hc)

end

/-! ## What a trap does, by the crew's mode and the launch's flag -/

section
variable {s : State} {h : Here} (cause : Cause) (code : Nat) (at10 : DWord) (m : Mask)

/-- What offset 0x10 of a frame holds. -/
def trapAddr (h : Here) (at10 : DWord) (m : Mask) : DWord := if inCapsule h.crew m then (capRecord h.crew m).getD 0 else at10

theorem takeTrapMask_serving {hd : Handler} (hh : h.crew.handler = some hd) :
    takeTrapMask s h cause code at10 m = endWithRecord (trapCapsule s h) h hd.cause 0xFFFF m (trapAddr h at10 m) := by
  unfold takeTrapMask
  rw [hh]
  rfl

theorem takeTrapMask_ends (hh : h.crew.handler = none) (hf : nbit (flagsOf s h.blk) 3 = false) :
    takeTrapMask s h cause code at10 m = endWithRecord (trapCapsule s h) h cause code m (trapAddr h at10 m) := by
  unfold takeTrapMask
  rw [hh, hf]
  rfl

theorem takeTrapMask_enters (hh : h.crew.handler = none) (hf : nbit (flagsOf s h.blk) 3 = true) :
    takeTrapMask s h cause code at10 m = if spillsOver h m then handlerTrap (trapCapsule s h) h .divovf 0 0 (hMask h)
      else handlerTrap (trapCapsule s h) h cause code (trapAddr h at10 m) m := by
  unfold takeTrapMask
  rw [hh, hf]
  rfl

end

/-- R238: a trap in handler mode ends the grid. -/
theorem gridEnded_serving {s : State} {h : Here} {hd : Handler} (hh : h.crew.handler = some hd) (cause : Cause) (code : Nat)
    (at10 : DWord) (m : Mask) : gridEnded s (takeTrapMask s h cause code at10 m) h fun r =>
      r.cause = hd.cause ∧ r.code = 0xFFFF ∧ r.pc = hPc h ∧ r.mask = m := by
  rw [takeTrapMask_serving cause code at10 m hh]
  obtain ⟨herror, hother, r, more, hw, hf, hn, hb, hcause, hpc, hmask, -, -, hcode⟩ :=
    gridEnded_endWithRecord (s := s) (h := h) hd.cause 0xFFFF m (trapAddr h at10 m)
  exact ⟨herror, hother, r, more, hw, hf, hn, hb, hcause, hcode (.inr rfl), hpc, hmask⟩

end Sys2Proof
end

section
/-! # Where traps lead (O45, O46) -/
namespace Sys2Proof
open Machine
set_option Elab.async false

/-! ## Lanes with one target -/

theorem lowLane_mem {m : Mask} (hm : m ≠ 0) : m.getLsbD (lowLane m) = true ∧ lowLane m < 32 := by
  have hex : ∃ l, l ∈ lanesOf m := by
    by_contra hno
    refine hm (BitVec.eq_of_getLsbD_eq fun l hl => ?_)
    rw [show (0 : Mask).getLsbD l = false from BitVec.getLsbD_zero]
    by_contra hb
    exact hno ⟨l, List.mem_filter.2 ⟨List.mem_range.2 hl, by simpa using hb⟩⟩
  have hhead : lowLane m ∈ lanesOf m := by
    obtain ⟨l, hl⟩ := hex
    unfold lowLane
    cases hls : lanesOf m with
    | nil => rw [hls] at hl; exact (nomatch hl)
    | cons a r => exact List.mem_cons_self
  obtain ⟨hr, hb⟩ := List.mem_filter.1 hhead
  exact ⟨hb, List.mem_range.1 hr⟩

/-- The number whose bits are those of `f` below `n`: within `n` bits, and at least each of its bits. -/
theorem maskNum_bounds (f : Nat → Bool) (n : Nat) :
    (List.range n).foldl (fun a l => if f l then a + 2 ^ l else a) 0 < 2 ^ n ∧
    ∀ l < n, f l = true → 2 ^ l ≤ (List.range n).foldl (fun a l => if f l then a + 2 ^ l else a) 0 := by
  induction n with
  | zero => exact ⟨Nat.one_pos, fun l hl => absurd hl (Nat.not_lt_zero l)⟩
  | succ n ih =>
    obtain ⟨hlt, hge⟩ := ih
    rw [List.range_succ, List.foldl_append, List.foldl_cons, List.foldl_nil]
    refine ⟨by split <;> omega, fun l hl hf => ?_⟩
    by_cases hln : l = n
    · rw [if_pos (hln ▸ hf), hln]
      omega
    · have := hge l (by omega) hf
      split <;> omega

theorem maskOf_ne_zero {f : Nat → Bool} {l : Nat} (hl : l < 32) (hf : f l = true) : maskOf f ≠ 0 := by
  obtain ⟨hlt, hge⟩ := maskNum_bounds f 32
  intro h0
  have hnum := congrArg BitVec.toNat h0
  rw [maskOf, BitVec.toNat_ofNat, Nat.mod_eq_of_lt hlt, show (0 : Mask).toNat = 0 from rfl] at hnum
  have := hge l hl hf
  have := Nat.two_pow_pos l
  omega

/-- R173: with a lane active the lanes that go with the lowest one are not none. -/
theorem sameTarget_ne_zero {t : Mask} (ht : t ≠ 0) (f : Nat → DWord) : sameTarget t f ≠ 0 := by
  obtain ⟨hb, hl⟩ := lowLane_mem ht
  exact maskOf_ne_zero hl (by rw [hb]; simp)

/-! ## A crew that enters its handler -/

/-- What parking its capsule changes of a crew is what it holds. -/
theorem crewOf_trapCapsule {s : State} {h : Here} (hy : crewOf s h.b h.c = some h.crew) :
    ∃ k, crewOf (trapCapsule s h) h.b h.c = some { h.crew with holding := k } := by
  unfold trapCapsule
  split
  · unfold parkCrew
    rw [hy]
    dsimp only
    split
    · exact ⟨_, hy⟩
    · next k _ =>
      split
      · exact ⟨_, hy⟩
      · obtain ⟨x, hb, hc⟩ := crewOf_eq_some.1 hy
        exact ⟨_, crewOf_setCrew (s := (sendCap s _ h.b h.c k .park).2) _ hb⟩
  · exact ⟨_, hy⟩

/-- The crew once it has entered its handler. -/
def enteredCrew (s : State) (h : Here) (cause : Cause) (m : Mask) (y : Crew) : Crew :=
  let t := hSlot h
  let rest := t.mask &&& ~~~m
  { setSlot y h.k { movedSlot s t h.blk.kern.handler with mask := m, region := none, due := [] } with
    handler := some ⟨h.k, cause, m, inCapsule h.crew m, (h.crew.holding.map (·.cont)).getD 0,
      (h.crew.holding.map (·.dreg)).getD 0, t.region, if rest = 0 then t.due else []⟩
    spills := if rest = 0 then y.spills else spillPath y t rest :: y.spills }

/-- Where the frame of the crew lies. -/
def framePlace (h : Here) : Place := .stash h.blk.core (h.blk.base + frameOff h.blk h.c)

/-- Memory once the frame is written, and the entry of the lanes that did not trap. -/
def enteredMem (h : Here) (m : Mask) (frame : List Byte) (mem : Memory) : Memory :=
  let rest := hMask h &&& ~~~m
  let mem1 := Memory_write mem (placeKey (framePlace h)) frame
  if rest = 0 then mem1
  else Memory_write mem1 (placeKey (.stash h.blk.core (h.blk.base + h.blk.kern.stash + 512 * h.c + 16 * h.crew.spills.length)))
    (spillBytes (spillPath h.crew (hSlot h) rest))

theorem enterHandler_eq (s : State) (h : Here) (cause : Cause) (m : Mask) : enterHandler s h cause m =
    updCrew (if hMask h &&& ~~~m = 0 then s else
      storeSpill s h.blk h.c h.crew.spills.length (spillPath h.crew (hSlot h) (hMask h &&& ~~~m))) h.b h.c
      (enteredCrew s h cause m) := by
  unfold enterHandler enteredCrew
  cases h.crew.holding <;> rfl

section
variable {s : State} {h : Here} (cause : Cause) (code : Nat) (at10 : DWord) (m : Mask)

theorem handlerTrap_eq : handlerTrap s h cause code at10 m =
    enterHandler (writePlace (openCode s cause code).2 (framePlace h)
      (frameBytes cause h.k (inCapsule h.crew m) (openCode s cause code).1 m (hPc h) at10 h.crew)) h cause m := rfl

theorem handlerTrap_mem : (handlerTrap s h cause code at10 m).mem =
    enteredMem h m (frameBytes cause h.k (inCapsule h.crew m) (openCode s cause code).1 m (hPc h) at10 h.crew) s.mem := by
  have hopen : (openCode s cause code).2.mem = s.mem := by
    unfold openCode
    split <;> rfl
  rw [handlerTrap_eq, enterHandler_eq, updCrew_mem]
  unfold enteredMem
  dsimp only
  split
  · rw [writePlace_mem, hopen]
  · unfold storeSpill
    rw [writePlace_mem, writePlace_mem, hopen]

theorem crewOf_of_blocks {s t : State} (ht : t.blocks = s.blocks) (b c : Nat) : crewOf t b c = crewOf s b c := by
  unfold crewOf
  rw [ht]

theorem handlerTrap_dies : (handlerTrap s h cause code at10 m).dies = s.dies := by
  rw [handlerTrap_eq, enterHandler_eq, updCrew_dies]
  split
  · rw [writePlace_dies, openCode_dies]
  · rw [storeSpill, writePlace_dies, writePlace_dies, openCode_dies]

/-- What a crew holds does not matter to where it goes. -/
theorem crewOf_handlerTrap {y : Crew} (hy : crewOf s h.b h.c = some y) :
    ∃ u : State, crewOf (handlerTrap s h cause code at10 m) h.b h.c = some (enteredCrew u h cause m y) := by
  rw [handlerTrap_eq, enterHandler_eq]
  refine ⟨_, crewOf_updCrew _ ?_⟩
  refine (crewOf_of_blocks ?_ h.b h.c).trans hy
  split
  · rw [writePlace_blocks, openCode_blocks]
  · rw [storeSpill, writePlace_blocks, writePlace_blocks, openCode_blocks]

end

/-- R28, R237: where a trap enters the handler, it is the slot's lanes that trapped, or all of them where the stack is
full. -/
theorem takeTrapMask_entered {s : State} {h : Here} {cause : Cause} {code : Nat} {at10 : DWord} {m : Mask}
    (hb : s.blocks.find h.b = some h.blk) (hc : h.blk.crews.find h.c = some h.crew) (hh : h.crew.handler = none)
    (hf : nbit (flagsOf s h.blk) 3 = true) :
    (∀ die, waitingRecs (takeTrapMask s h cause code at10 m) die = waitingRecs s die) ∧
      ∃ y hd, crewOf (takeTrapMask s h cause code at10 m) h.b h.c = some y ∧ y.handler = some hd ∧ hd.slot = h.k ∧
        hd.cause = (if spillsOver h m then .divovf else cause) ∧
        (slotOf y h.k).pc = h.blk.kern.handler ∧ (slotOf y h.k).mask = (if spillsOver h m then hMask h else m) ∧
        (slotOf y h.k).st = .ready := by
  have hin : ∀ (c : Cause) (n : Nat) (a : DWord) (q : Mask),
      (∀ die, waitingRecs (handlerTrap (trapCapsule s h) h c n a q) die = waitingRecs s die) ∧
      ∃ y hd, crewOf (handlerTrap (trapCapsule s h) h c n a q) h.b h.c = some y ∧ y.handler = some hd ∧ hd.slot = h.k ∧
        hd.cause = c ∧ (slotOf y h.k).pc = h.blk.kern.handler ∧ (slotOf y h.k).mask = q ∧ (slotOf y h.k).st = .ready := by
    intro c n a q
    obtain ⟨k, hk⟩ := crewOf_trapCapsule (crewOf_of_finds hb hc)
    obtain ⟨u, hy⟩ := crewOf_handlerTrap c n a q hk
    refine ⟨fun die => ?_, _, _, hy, rfl, rfl, rfl, ?_, ?_, ?_⟩
    · unfold waitingRecs dieOf
      rw [handlerTrap_dies, trapCapsule_dies]
    all_goals exact congrArg _ (slotOf_setSlot _ h.k _)
  rw [takeTrapMask_enters cause code at10 m hh hf]
  split
  · exact hin .divovf 0 0 (hMask h)
  · exact hin cause code _ m

/-- Settles O45: with the flag the lanes enter the handler, and without it the grid ends. -/
theorem trapIsTaken : Obligations.TrapIsTaken := by
  refine ⟨fun s h cause code at10 m hb hc hh => ⟨takeTrapMask_entered hb hc hh, fun hf => ?_⟩, fun g code s h hp => ?_,
    fun g off s h hp h0 hall hh ho haw hfull => ?_⟩
  · rw [takeTrapMask_ends cause code at10 m hh hf]
    obtain ⟨herror, hother, r, more, hw, hfl, hn, hbit, hcause, hpc, hmask, haddr, hinfo, hcode⟩ :=
      gridEnded_endWithRecord (s := s) (h := h) cause code m (trapAddr h at10 m)
    exact ⟨herror, hother, r, more, hw, hfl, hn, hbit, hcause, hpc, hmask, haddr, hinfo, fun hs => hcode (.inl hs)⟩
  · rw [exec_trap]
    split
    · next h0 => exact issueWord_runs hp (by dsimp only; rw [if_pos h0]; rfl)
    · next h0 => exact issueWord_stops hp (by dsimp only; rw [if_neg h0]; rfl)
  · rw [exec_bra]
    refine issueWord_stops hp (run_bind_error ?_)
    unfold transferReadyE
    dsimp only
    rw [if_pos ⟨h0, hall⟩, hh, haw, if_pos (show _ ∧ _ from ⟨ho, hfull⟩)]
    simp

/-! ## What handler mode does not allow -/

section
variable {s : State} {h : Here} {hd : Handler} (hh : h.crew.handler = some hd)
include hh

theorem notInHandlerE_stops : (notInHandlerE h).run s = .error (takeTrap s h .illop 0 0) := by
  unfold notInHandlerE
  rw [hh]
  rfl

theorem waitBody_stops (pd : Fin 8) (c : Option Opnd) (obj : Here → Exec WaitObj) :
    (waitBody pd c obj h).run s = .error (takeTrap s h .barmis 0 0) := by
  unfold waitBody
  rw [hh]
  rfl

theorem transferReadyE_stops {t : Mask} (h0 : t ≠ 0) (hall : t ≠ hMask h) :
    (transferReadyE h t).run s = .error (takeTrap s h .illop 0 0) := by
  unfold transferReadyE
  dsimp only
  rw [if_pos ⟨h0, hall⟩, hh]
  rfl

/-- The same of the lanes that go with the lowest one. -/
theorem transferReadyE_stops_first {t : Mask} (h0 : t ≠ 0) (f : Nat → DWord) (hall : sameTarget t f ≠ hMask h)
    {α : Type} {k : Unit → Exec α} : (transferReadyE h (sameTarget t f) >>= k).run s = .error (takeTrap s h .illop 0 0) :=
  run_bind_error (transferReadyE_stops hh (sameTarget_ne_zero h0 f) hall)

/-- A word that traps in handler mode ends the grid, with the trap that the handler serves. -/
theorem gridEnded_of_trap {i : Instr} {cause : Cause} (he : exec i s = .next (takeTrap s h cause 0 0)) :
    ∃ t, exec i s = .next t ∧ gridEnded s t h fun r => r.cause = hd.cause ∧ r.code = 0xFFFF ∧ r.pc = hPc h := by
  obtain ⟨herror, hother, r, more, hw, hf, hn, hb, hcause, hcode, hpc, -⟩ := gridEnded_serving (s := s) hh cause 0 0 h.act
  exact ⟨_, he, herror, hother, r, more, hw, hf, hn, hb, hcause, hcode, hpc⟩

end

/-- Settles O46: in handler mode every trap ends the grid, and each of these words takes one. -/
theorem handlerErrorsEndGrid : Obligations.HandlerErrorsEndGrid := by
  refine ⟨fun s h hd cause code at10 m _ _ hh => gridEnded_serving hh cause code at10 m, fun i s h hd hp hh hi => ?_⟩
  rcases hi with ⟨off, rfl⟩ | rfl | ⟨pd, a, b, c, rfl⟩ | ⟨pd, a, b, c, rfl⟩ | ⟨pd, n, c, rfl⟩ | ⟨pd, a, b, c, rfl⟩ |
    ⟨g, off, rfl, h0, hall⟩ | ⟨g, d, off, rfl, h0, hall⟩ | ⟨g, a, rfl, h0, hall⟩ | ⟨g, d, a, rfl, h0, hall⟩ |
    ⟨g, a, rfl, h0, hall⟩
  · exact gridEnded_of_trap hh (by rw [exec_join]; exact issueWord_stops hp (run_bind_error (notInHandlerE_stops hh)))
  · exact gridEnded_of_trap hh (by rw [exec_lser]; exact issueWord_stops hp (run_bind_error (notInHandlerE_stops hh)))
  · exact gridEnded_of_trap hh (by rw [exec_waitBar]; exact issueWord_stops hp (waitBody_stops hh pd c _))
  · exact gridEnded_of_trap hh (by rw [exec_waitBmp]; exact issueWord_stops hp (waitBody_stops hh pd c _))
  · exact gridEnded_of_trap hh (by rw [exec_waitAc]; exact issueWord_stops hp (waitBody_stops hh pd c _))
  · exact gridEnded_of_trap hh (by rw [exec_waitTl]; exact issueWord_stops hp (waitBody_stops hh pd c _))
  · exact gridEnded_of_trap hh (by rw [exec_bra]; exact issueWord_stops hp (run_bind_error (transferReadyE_stops hh h0 hall)))
  · exact gridEnded_of_trap hh (by rw [exec_call]; exact issueWord_stops hp (run_bind_error (transferReadyE_stops hh h0 hall)))
  · exact gridEnded_of_trap hh (by
      rw [exec_brx]
      exact issueWord_stops hp ((run_bind_ok (run_getE s)).trans (transferReadyE_stops_first hh h0 _ hall)))
  · exact gridEnded_of_trap hh (by
      rw [exec_callx]
      exact issueWord_stops hp ((run_bind_ok (run_getE s)).trans (transferReadyE_stops_first hh h0 _ hall)))
  · exact gridEnded_of_trap hh (by
      rw [exec_ret]
      exact issueWord_stops hp ((run_bind_ok (run_getE s)).trans (transferReadyE_stops_first hh h0 _ hall)))

end Sys2Proof
end

section
/-! # The trap frame, and the end of handler mode (O47) -/
namespace Sys2Proof
open Machine
set_option Elab.async false

/-! ## Bytes that memory holds -/

/-- From `k` on, memory holds the bytes `bs`. -/
def Holds (m : Memory) (k : Nat) (bs : List Byte) : Prop := ∀ i < bs.length, Memory_get m (k + i) = bs.getD i 0

theorem Holds.read {m : Memory} {k : Nat} {bs : List Byte} (h : Holds m k bs) : Memory_read m k bs.length = bs := by
  induction bs generalizing k with
  | nil => rfl
  | cons b r ih =>
    have h0 : Memory_get m k = b := h 0 (Nat.succ_pos _)
    have hr : Holds m (k + 1) r := fun i hi => by
      have hi' := h (i + 1) (Nat.succ_lt_succ hi)
      rwa [show k + (i + 1) = k + 1 + i by omega, List.getD_cons_succ] at hi'
    rw [List.length_cons, Memory_read, h0, ih hr]

theorem Holds.right {m : Memory} {k : Nat} {as bs : List Byte} (h : Holds m k (as ++ bs)) : Holds m (k + as.length) bs := by
  intro i hi
  have hi' := h (as.length + i) (by rw [List.length_append]; omega)
  rwa [← Nat.add_assoc, List.getD_append_right _ _ _ _ (Nat.le_add_right ..), Nat.add_sub_cancel_left] at hi'

theorem Holds.left {m : Memory} {k : Nat} {as bs : List Byte} (h : Holds m k (as ++ bs)) : Holds m k as := by
  intro i hi
  have hi' := h i (by rw [List.length_append]; omega)
  rwa [List.getD_append _ _ _ _ hi] at hi'

/-- R4: a number that memory holds is read. -/
theorem Holds.num {m : Memory} {k n x : Nat} (h : Holds m k (leBytes n x)) : leNat (Memory_read m k n) = x % 256 ^ n := by
  have hr := h.read
  rw [leBytes_length] at hr
  rw [hr, leNat_leBytes]

theorem holds_write {m : Memory} {k : Nat} {bs : List Byte} (h : Memory.wf m = true) : Holds (Memory_write m k bs) k bs :=
  fun i hi => Memory_get_write m k bs i h hi

theorem Holds.write_other {m : Memory} {k l : Nat} {bs cs : List Byte} (hw : Memory.wf m = true) (h : Holds m k bs)
    (hkl : k + bs.length ≤ l) : Holds (Memory_write m l cs) k bs := fun i hi => by
  rw [Memory_get_write_other m l cs (k + i) hw (.inl (by omega))]
  exact h i hi

/-! ## The frame -/

theorem frameBytes_length (cause : Cause) (slot : Nat) (cap : Bool) (code : Nat) (mask : Mask) (pc at10 : DWord) (y : Crew) :
    (frameBytes cause slot cap code mask pc at10 y).length = 128 := by
  simp [frameBytes]

theorem spillBytes_length (p : Spill) : (spillBytes p).length = 16 := by
  simp [spillBytes]

/-- R237: the fields of a frame, as memory holds them. -/
theorem frame_fields {m : Memory} {k : Nat} {cause : Cause} {slot : Nat} {cap : Bool} {code : Nat} {mask : Mask}
    {pc at10 : DWord} {y : Crew} (h : Holds m k (frameBytes cause slot cap code mask pc at10 y)) :
    Holds m (k + 0) (leBytes 1 (causeCode cause)) ∧ Holds m (k + 1) (leBytes 1 (slot + if cap then 16 else 0)) ∧
    Holds m (k + 2) (leBytes 2 code) ∧ Holds m (k + 4) (leBytes 4 mask.toNat) ∧ Holds m (k + 8) (leBytes 8 pc.toNat) ∧
    Holds m (k + 16) (leBytes 8 at10.toNat) ∧ Holds m (k + 24) (leBytes 40 0) := by
  have h7 : Holds m k _ := h.left
  have h6 : Holds m k _ := h7.left
  have h5 : Holds m k _ := h6.left
  have h4 : Holds m k _ := h5.left
  have h3 : Holds m k _ := h4.left
  have h2 : Holds m k _ := h3.left
  exact ⟨h2.left, h2.right, h3.right, h4.right, h5.right, h6.right, h7.right⟩

section
variable {s : State} {h : Here}

/-- Where the stack of the crew has its next entry. -/
def entryPlace (h : Here) : Place := .stash h.blk.core (h.blk.base + h.blk.kern.stash + 512 * h.c + 16 * h.crew.spills.length)

/-- The frame lies below the stacks. -/
theorem frame_below_entry (hc : h.c < h.blk.kern.crews) (hs : 128 * h.blk.kern.crews ≤ h.blk.kern.stash) :
    placeKey (framePlace h) + 128 ≤ placeKey (entryPlace h) := by
  simp only [framePlace, entryPlace, frameOff, placeKey]
  omega

/-- R28, R237: what memory holds on entry to the handler, and what it keeps. -/
theorem enteredMem_holds {m : Mask} {frame : List Byte} {mem : Memory} (hw : Memory.wf mem = true) (hl : frame.length = 128)
    (hc : h.c < h.blk.kern.crews) (hs : 128 * h.blk.kern.crews ≤ h.blk.kern.stash) :
    Holds (enteredMem h m frame mem) (placeKey (framePlace h)) frame ∧
    ∀ k, (k < placeKey (framePlace h) ∨ placeKey (framePlace h) + 128 ≤ k) →
      (hMask h &&& ~~~m = 0 ∨ k < placeKey (entryPlace h) ∨ placeKey (entryPlace h) + 16 ≤ k) →
      Memory_get (enteredMem h m frame mem) k = Memory_get mem k := by
  have hbelow := frame_below_entry hc hs
  have hframe := holds_write (k := placeKey (framePlace h)) (bs := frame) hw
  have hwf := Memory_wf_write mem (placeKey (framePlace h)) frame hw
  unfold enteredMem
  dsimp only
  split
  · exact ⟨hframe, fun k hk _ => Memory_get_write_other mem _ _ k hw (by rwa [hl])⟩
  · next hrest =>
    refine ⟨hframe.write_other hwf (by rw [hl]; exact hbelow), fun k hk he => ?_⟩
    have hout := Memory_get_write_other _ (placeKey (entryPlace h)) (spillBytes (spillPath h.crew (hSlot h) (hMask h &&& ~~~m)))
      k hwf (by rw [spillBytes_length]; exact he.resolve_left hrest)
    exact hout.trans (Memory_get_write_other mem _ _ k hw (by rwa [hl]))

theorem trapCapsule_mem : (trapCapsule s h).mem = s.mem := by
  unfold trapCapsule parkCrew
  split
  · split
    · rfl
    · split
      · rfl
      · split
        · rfl
        · exact setCrew_mem (sendCap s _ h.b h.c _ .park).2 ..
  · rfl

/-- R238: what handler mode holds of the crew that enters it. -/
theorem enteredCrew_keeps (u : State) (cause : Cause) (m : Mask) (q : Option Holding) (hk : h.k < 2) :
    let y := enteredCrew u h cause m { h.crew with holding := q }
    y.handler.bind (fun hd => hd.region) = (hSlot h).region ∧ slotOf y (1 - h.k) = slotOf h.crew (1 - h.k) ∧
      y.joins = h.crew.joins ∧ sameRegs h.crew y ∧
      y.spills = (if hMask h &&& ~~~m = 0 then h.crew.spills else
        spillPath h.crew (hSlot h) (hMask h &&& ~~~m) :: h.crew.spills) := by
  rcases Nat.lt_succ_iff_lt_or_eq.1 hk with h0 | h1
  · obtain h0 : h.k = 0 := by omega
    unfold enteredCrew
    rw [h0]
    exact ⟨rfl, rfl, rfl, ⟨rfl, rfl, rfl, rfl, rfl⟩, rfl⟩
  · unfold enteredCrew
    rw [h1]
    exact ⟨rfl, rfl, rfl, ⟨rfl, rfl, rfl, rfl, rfl⟩, rfl⟩

end

/-- A field of the frame, read. -/
theorem numAt_frame {t : State} {h : Here} {o n x : Nat} (hf : Holds t.mem (placeKey (framePlace h) + o) (leBytes n x))
    (hx : x < 256 ^ n) :
    numAt t (.stash h.blk.core (h.blk.base + (h.blk.kern.stash - 128 * (h.blk.kern.crews - h.c)) + o)) n = x := by
  have hkey : placeKey (.stash h.blk.core (h.blk.base + (h.blk.kern.stash - 128 * (h.blk.kern.crews - h.c)) + o)) =
      placeKey (framePlace h) + o := by
    simp only [framePlace, frameOff, placeKey, Nat.add_assoc]
  unfold numAt readPlace
  rw [hkey, hf.num, Nat.mod_eq_of_lt hx]

theorem causeCode_lt (c : Cause) : causeCode c < 256 := by
  cases c <;> decide

/-! ## The return -/

theorem sameButPaths_regs {y z : Crew} (h : SameButPaths y z) : sameRegs y z ∧ z.handler = y.handler := by
  rw [h]
  exact ⟨⟨rfl, rfl, rfl, rfl, rfl⟩, rfl⟩

theorem sameRegs.trans {x y z : Crew} (h : sameRegs x y) (h' : sameRegs y z) : sameRegs x z := by
  obtain ⟨hv, hs, hk, hp, hf⟩ := h
  obtain ⟨hv', hs', hk', hp', hf'⟩ := h'
  exact ⟨hv'.trans hv, hs'.trans hs, hk'.trans hk, hp'.trans hp, hf'.trans hf⟩

theorem sameRegs_setSlot (y : Crew) (k : Nat) (t : Slot) : sameRegs y (setSlot y k t) :=
  (sameButPaths_regs (sameButPaths_setSlot y k t)).1

/-- The end of handler mode: the paths merge again, and the registers stay. -/
theorem crewOf_endHandler {s : State} {b c : Nat} {y : Crew} (hy : crewOf s b c = some y) :
    ∃ z, crewOf (endHandler s b c) b c = some z ∧ z.handler = none ∧ sameRegs y z := by
  unfold endHandler
  rw [hy]
  obtain ⟨hregs, hhandler⟩ := sameButPaths_regs (sameButPaths_settle { y with handler := none })
  exact ⟨_, crewOf_putCrew _ hy, hhandler, hregs⟩

/-- R238: a return of all the handler's lanes ends handler mode. -/
theorem crewOf_returnFromHandler {s : State} {h : Here} {y : Crew} (hd : Handler) (target : DWord)
    (hy : crewOf s h.b h.c = some y) : ∃ z, crewOf (returnFromHandler s h hd target) h.b h.c = some z ∧ z.handler = none ∧
      (hd.cap = false → sameRegs y z) := by
  unfold returnFromHandler
  dsimp only
  by_cases hcap : hd.cap
  · rw [if_pos hcap]
    obtain ⟨z, hz, hn, -⟩ := crewOf_endHandler (crewOf_updCrew _ (crewOf_updCrew _ hy))
    exact ⟨z, hz, hn, fun hf => absurd hcap (by rw [hf]; decide)⟩
  · rw [if_neg hcap]
    obtain ⟨z, hz, hn, hregs⟩ := crewOf_endHandler (crewOf_updCrew _ (crewOf_updCrew _ hy))
    exact ⟨z, hz, hn, fun _ => ((sameRegs_setSlot y ..).trans (sameRegs_setSlot ..)).trans hregs⟩

/-- Counting a capsule's word changes what the crew holds, and nothing else of it. -/
theorem crewOf_counted {s : State} {h : Here} {y : Crew} (hy : crewOf s h.b h.c = some y) :
    ∃ z, crewOf (counted h s) h.b h.c = some z ∧ z = { y with holding := z.holding } := by
  unfold counted
  split
  · refine ⟨_, crewOf_updCrew _ hy, ?_⟩
    cases y.holding <;> rfl
  · exact ⟨y, hy, rfl⟩

/-- Settles O47: the frame and the entry stand apart in memory, and only the slot and what the crew holds have changed. -/
theorem handlerEntryAndReturn : Obligations.HandlerEntryAndReturn := by
  refine ⟨fun s h cause code at10 m hb hc hh hk hf hst hcode hw hcrew hstash hover => ?_, fun g a s h hd hp hh h0 hall => ?_⟩
  · have ht : takeTrapMask s h cause code at10 m = handlerTrap (trapCapsule s h) h cause code (trapAddr h at10 m) m := by
      rw [takeTrapMask_enters cause code at10 m hh hf, hover, if_neg Bool.false_ne_true]
    obtain ⟨q, hq⟩ := crewOf_trapCapsule (crewOf_of_finds hb hc)
    obtain ⟨u, hy⟩ := crewOf_handlerTrap cause code (trapAddr h at10 m) m hq
    have hmem := handlerTrap_mem (s := trapCapsule s h) (h := h) cause code (trapAddr h at10 m) m
    rw [openCode_stated (.inl hst), trapCapsule_mem] at hmem
    obtain ⟨hframe, hother⟩ := enteredMem_holds (m := m) hw
      (frameBytes_length cause h.k (inCapsule h.crew m) code m (hPc h) (trapAddr h at10 m) h.crew) hcrew hstash
    rw [← hmem, ← ht] at hframe hother
    rw [← ht] at hy
    obtain ⟨f0, f1, f2, f4, f8, f16, f24⟩ := frame_fields hframe
    have hslot : h.k + (if inCapsule h.crew m then 16 else 0) < 256 := by split <;> omega
    refine ⟨numAt_frame f0 (causeCode_lt cause), numAt_frame f1 hslot, numAt_frame f2 hcode,
      numAt_frame f4 (m.isLt.trans_eq (by norm_num)), numAt_frame f8 ((hPc h).isLt.trans_eq (by norm_num)),
      numAt_frame f16 ((trapAddr h at10 m).isLt.trans_eq (by norm_num)), numAt_frame f24 (by positivity),
      fun p hp he => hother (placeKey p) hp he, _, hy, enteredCrew_keeps u cause m q hk⟩
  · obtain ⟨y, hy, hn, hregs⟩ := crewOf_returnFromHandler hd
      (BitVec.ofNat 64 (srcNum s h a 2 (lowLane (activeMask h g)))) (crewOf_of_finds (issuesAt_finds hp.1).1 (issuesAt_finds hp.1).2)
    obtain ⟨z, hz, hzy⟩ := crewOf_counted hy
    refine ⟨_, z, ?_, hz, by rw [hzy]; exact hn, fun hcap => by rw [hzy]; exact hregs hcap⟩
    rw [exec_ret]
    refine issueWord_runs hp ?_
    rw [run_bind_ok (run_getE s)]
    dsimp only
    rw [hall, run_bind_ok (transferReady_runs (.inr (.inl rfl))), hh]
    dsimp only
    rw [if_pos rfl]
    rfl

end Sys2Proof
end

section
/-! # What a word that computes lane by lane leaves unchanged (O43) -/
namespace Sys2Proof
open Machine
set_option Elab.async false

/-! ## Steps of one crew -/

/-- From `s` to `t` only crew `c` of block `b` changes, and what is still to come. -/
def OneCrew (b c : Nat) (s t : State) : Prop := sameButBlocks s t ∧ sameOtherCrews s t b c

section
variable {b c : Nat} {s t u : State}

theorem OneCrew.refl (s : State) : OneCrew b c s s := ⟨rfl, fun _ _ => rfl, fun x hx => ⟨x, hx, rfl, fun _ _ => rfl⟩⟩

theorem OneCrew.trans (h : OneCrew b c s t) (h' : OneCrew b c t u) : OneCrew b c s u := by
  obtain ⟨hst, hblocks, hcrews⟩ := h
  obtain ⟨htu, hblocks', hcrews'⟩ := h'
  refine ⟨?_, fun b' hb => (hblocks' b' hb).trans (hblocks b' hb), fun x hx => ?_⟩
  · unfold sameButBlocks at *
    rw [htu, hst]
  · obtain ⟨x', hx', he, hc⟩ := hcrews x hx
    obtain ⟨x'', hx'', he', hc'⟩ := hcrews' x' hx'
    exact ⟨x'', hx'', by rw [he', he], fun c' hne => (hc' c' hne).trans (hc c' hne)⟩

theorem OneCrew.mem (h : OneCrew b c s t) : t.mem = s.mem := by
  rw [h.1]

theorem oneCrew_later (e : Instr) : OneCrew b c s (later s e) := ⟨rfl, fun _ _ => rfl, fun x hx => ⟨x, hx, rfl, fun _ _ => rfl⟩⟩

theorem oneCrew_setBlock {x : Block} (hb : s.blocks.find b = some x) (y : Crew) :
    OneCrew b c s (setBlock s b { x with crews := x.crews.put c y }) := by
  refine ⟨rfl, fun b' hne => Table.find_put_other _ _ hne, fun x' hx' => ?_⟩
  obtain rfl := Option.some.inj (hb.symm.trans hx')
  exact ⟨_, find_setBlock .., rfl, fun c' hne => Table.find_put_other _ _ hne⟩

theorem oneCrew_setCrew (y : Crew) : OneCrew b c s (setCrew s b c y) := by
  cases hb : s.blocks.find b with
  | some x =>
    rw [setCrew_eq y hb]
    exact oneCrew_setBlock hb y
  | none =>
    rw [setCrew, updBlock, hb]
    exact .refl s

theorem oneCrew_updCrew (f : Crew → Crew) : OneCrew b c s (updCrew s b c f) := by
  cases hb : s.blocks.find b with
  | some x =>
    cases hc : x.crews.find c with
    | some y =>
      rw [updCrew_eq f hb hc]
      exact oneCrew_setBlock hb (f y)
    | none =>
      have hsame : updCrew s b c f = setBlock s b x := by simp [updCrew, updBlock, hb, hc]
      rw [hsame]
      refine ⟨rfl, fun b' hne => Table.find_put_other _ _ hne, fun x' hx' => ?_⟩
      obtain rfl := Option.some.inj (hb.symm.trans hx')
      exact ⟨_, find_setBlock .., rfl, fun _ _ => rfl⟩
  | none =>
    rw [updCrew, updBlock, hb]
    exact .refl s

theorem oneCrew_putCrew (y : Crew) : OneCrew b c s (putCrew s b c y) := by
  refine (oneCrew_setCrew (settle y)).trans ?_
  unfold putCrew popLater
  split
  · exact .refl _
  · split
    · exact oneCrew_later _
    · exact .refl _

theorem oneCrew_nextWord (s : State) (h : Here) : OneCrew h.b h.c s (nextWord s h) := by
  unfold nextWord jumpTo
  split
  · exact .refl s
  · exact oneCrew_putCrew _

theorem oneCrew_counted (s : State) (h : Here) : OneCrew h.b h.c s (counted h s) := by
  unfold counted
  split
  · exact oneCrew_updCrew _
  · exact .refl s

theorem oneCrew_wordDone (s : State) (h : Here) (f : Crew → Crew) : OneCrew h.b h.c s (wordDone s h f) :=
  ((oneCrew_updCrew f).trans (oneCrew_nextWord _ h)).trans (oneCrew_counted _ h)

end

/-- A crew that goes on: only its paths and the number of words that its capsule has run differ. -/
def GoesOn (y z : Crew) : Prop :=
  ∃ q, q.map (fun k : Holding => { k with count := 0 }) = y.holding.map (fun k => { k with count := 0 }) ∧
    z = { y with slot0 := z.slot0, slot1 := z.slot1, joins := z.joins, holding := q }

theorem crewOf_nextWord {s : State} {h : Here} {y : Crew} (hy : crewOf s h.b h.c = some y) :
    ∃ z, crewOf (nextWord s h) h.b h.c = some z ∧ SameButPaths y z := by
  unfold nextWord jumpTo
  rw [hy]
  exact ⟨_, crewOf_putCrew _ hy, (sameButPaths_setSlot y h.k _).trans (sameButPaths_settle _)⟩

theorem crewOf_wordDone {s : State} {h : Here} {f : Crew → Crew} {y : Crew} (hy : crewOf s h.b h.c = some y) :
    ∃ z, crewOf (wordDone s h f) h.b h.c = some z ∧ GoesOn (f y) z := by
  obtain ⟨x, hx, hpaths⟩ := crewOf_nextWord (crewOf_updCrew f hy)
  have hholding : x.holding = (f y).holding := by rw [hpaths]
  unfold wordDone counted
  split
  · refine ⟨_, crewOf_updCrew _ hx, ?_⟩
    cases hq : x.holding with
    | none =>
      refine ⟨x.holding, by rw [hholding], ?_⟩
      rw [hholding]
      exact hpaths
    | some k =>
      refine ⟨some { k with count := k.count + 1 }, by rw [← hholding, hq]; rfl, ?_⟩
      dsimp only
      rw [hpaths]
  · refine ⟨x, hx, x.holding, by rw [hholding], ?_⟩
    rw [hholding]
    exact hpaths

/-! ## What a result writes -/

/-- Only what a word can have as a destination, and FSTAT, differ. -/
def SameButDst (y z : Crew) : Prop := z = { y with v := z.v, s := z.s, k := z.k, chans := z.chans, fstat := z.fstat }

theorem SameButDst.trans {x y z : Crew} (h : SameButDst x y) (h' : SameButDst y z) : SameButDst x z := by
  unfold SameButDst at *
  rw [h', h]

theorem foldl_keeps {α β : Type} {P : α → Prop} {f : α → β → α} (l : List β) (hf : ∀ b ∈ l, ∀ a, P a → P (f a b)) :
    ∀ a, P a → P (l.foldl f a) := by
  induction l with
  | nil => exact fun _ h => h
  | cons b l ih =>
    exact fun a h => ih (fun c hc => hf c (List.mem_cons_of_mem _ hc)) _ (hf b List.mem_cons_self a h)

section
variable {y : Crew} {n : Nat}

/-- What writing the registers of one lane leaves as it was. -/
theorem putV_keeps (k l x : Nat) : (∃ v, putV y k n l x = { y with v := v }) ∧
    ∀ r q, q < 32 → l < 32 → ¬ (k ≤ r ∧ r < k + n ∧ q = l) → readV (putV y k n l x) r q = readV y r q := by
  unfold putV
  refine foldl_keeps (P := fun z => (∃ v, z = { y with v := v }) ∧
    ∀ r q, q < 32 → l < 32 → ¬ (k ≤ r ∧ r < k + n ∧ q = l) → readV z r q = readV y r q) (List.range n) ?_ y
    ⟨⟨y.v, rfl⟩, fun _ _ _ _ _ => rfl⟩
  rintro i hi z ⟨⟨v, rfl⟩, hr⟩
  refine ⟨⟨_, rfl⟩, fun r q hq hl hno => ?_⟩
  have hne : vKey r q ≠ vKey (k + i) l := by
    have := List.mem_range.1 hi
    unfold vKey
    omega
  exact (Table.getD_put_other _ _ _ hne).trans (hr r q hq hl hno)

theorem putS_keeps (k x : Nat) : (∃ v, putS y k n x = { y with s := v }) ∧
    ∀ r, ¬ (k ≤ r ∧ r < k + n) → readS (putS y k n x) r = readS y r := by
  unfold putS
  refine foldl_keeps (P := fun z => (∃ v, z = { y with s := v }) ∧ ∀ r, ¬ (k ≤ r ∧ r < k + n) → readS z r = readS y r)
    (List.range n) ?_ y ⟨⟨y.s, rfl⟩, fun _ _ => rfl⟩
  rintro i hi z ⟨⟨v, rfl⟩, hr⟩
  refine ⟨⟨_, rfl⟩, fun r hno => ?_⟩
  have := List.mem_range.1 hi
  exact (Table.getD_put_other _ _ _ (by omega : r ≠ k + i)).trans (hr r hno)

theorem putK_keeps (k x : Nat) : (∃ v, putK y k n x = { y with k := v }) ∧
    ∀ r, ¬ (k ≤ r ∧ r < k + n) → readK (putK y k n x) r = readK y r := by
  unfold putK
  refine foldl_keeps (P := fun z => (∃ v, z = { y with k := v }) ∧ ∀ r, ¬ (k ≤ r ∧ r < k + n) → readK z r = readK y r)
    (List.range n) ?_ y ⟨⟨y.k, rfl⟩, fun _ _ => rfl⟩
  rintro i hi z ⟨⟨v, rfl⟩, hr⟩
  refine ⟨⟨_, rfl⟩, fun r hno => ?_⟩
  have := List.mem_range.1 hi
  exact (Table.getD_put_other _ _ _ (by omega : r ≠ k + i)).trans (hr r hno)

/-- The registers of the lanes of `m`. -/
theorem putLanes_keeps (k : Nat) (m : Mask) (v : Nat → Nat) :
    (∃ w, (lanesOf m).foldl (fun y l => putV y k n l (v l)) y = { y with v := w }) ∧
    ∀ r q, q < 32 → ¬ (k ≤ r ∧ r < k + n ∧ m.getLsbD q = true) →
      readV ((lanesOf m).foldl (fun y l => putV y k n l (v l)) y) r q = readV y r q := by
  refine foldl_keeps (P := fun z => (∃ w, z = { y with v := w }) ∧
    ∀ r q, q < 32 → ¬ (k ≤ r ∧ r < k + n ∧ m.getLsbD q = true) → readV z r q = readV y r q) (lanesOf m) ?_ y
    ⟨⟨y.v, rfl⟩, fun _ _ _ _ => rfl⟩
  rintro l hl z ⟨⟨w, rfl⟩, hr⟩
  obtain ⟨hrange, hbit⟩ := List.mem_filter.1 hl
  obtain ⟨⟨w', hw'⟩, hkeep⟩ := putV_keeps (y := { y with v := w }) (n := n) k l (v l)
  refine ⟨⟨w', hw'⟩, fun r q hq hno => (hkeep r q hq (List.mem_range.1 hrange) ?_).trans (hr r q hq hno)⟩
  rintro ⟨h1, h2, rfl⟩
  exact hno ⟨h1, h2, hbit⟩

end

/-- What the result of a word leaves of a crew. -/
structure DstFrame (h : Here) (w : LaneShape) (y z : Crew) : Prop where
  rest : SameButDst y z
  readV : ∀ k l, (¬ writesV h w k l ∨ inCapsule h.crew (hMask h) = true) → l < 32 → Machine.readV z k l = Machine.readV y k l
  readS : ∀ k, ¬ writesK .s w k → Machine.readS z k = Machine.readS y k
  readK : ∀ k, (¬ writesK .v w k ∨ inCapsule h.crew (hMask h) = false) → Machine.readK z k = Machine.readK y k
  fstat : z.fstat = y.fstat
  chans : ∀ c, (∀ pk, w.d ≠ .chan c pk) → chanOf z c = chanOf y c

/-- R123, R141: the registers. -/
theorem dstFrame_putDst (h : Here) (w : LaneShape) (v : Nat → Nat) (y : Crew) :
    DstFrame h w y (putDst y (inCapsule h.crew (hMask h)) w.d w.n (laneMask h w) v) := by
  unfold putDst
  split
  · next k hd =>
    split
    · next hcap =>
      obtain ⟨⟨t, ht⟩, hr⟩ := putK_keeps (y := y) (n := w.n) k (v (lowLane (laneMask h w)))
      refine ⟨by rw [ht]; rfl, fun _ _ _ _ => by rw [ht]; rfl, fun _ _ => by rw [ht]; rfl, fun r hno => hr r fun hin => ?_,
        by rw [ht], fun _ _ => by rw [ht]; rfl⟩
      exact hno.elim (fun hw => hw ⟨k, hd, hin⟩) fun hf => absurd hcap (by rw [hf]; decide)
    · next hcap =>
      obtain ⟨⟨t, ht⟩, hr⟩ := putLanes_keeps (y := y) (n := w.n) k (laneMask h w) v
      refine ⟨by rw [ht]; rfl, fun r q hno hq => hr r q hq fun hin => ?_, fun _ _ => by rw [ht]; rfl,
        fun _ _ => by rw [ht]; rfl, by rw [ht], fun _ _ => by rw [ht]; rfl⟩
      exact hno.elim (fun hw => hw ⟨k, hd, hin⟩) hcap
  · next k hd =>
    obtain ⟨⟨t, ht⟩, hr⟩ := putS_keeps (y := y) (n := w.n) k (v (lowLane (laneMask h w)))
    exact ⟨by rw [ht]; rfl, fun _ _ _ _ => by rw [ht]; rfl, fun r hno => hr r fun hin => hno ⟨k, hd, hin⟩,
      fun _ _ => by rw [ht]; rfl, by rw [ht], fun _ _ => by rw [ht]; rfl⟩
  · exact ⟨rfl, fun _ _ _ _ => rfl, fun _ _ => rfl, fun _ _ => rfl, rfl, fun _ _ => rfl⟩

/-- R125, R208: the destination channel. -/
theorem DstFrame.pushChan {h : Here} {w : LaneShape} {y z : Crew} (hf : DstFrame h w y z) (m : Mask) (v : Nat → Nat) :
    DstFrame h w y (pushChan z w.d m v) := by
  unfold Machine.pushChan
  split
  · next c pk hd =>
    refine ⟨hf.rest.trans rfl, hf.readV, hf.readS, hf.readK, hf.fstat, fun c' hc' => ?_⟩
    have hne : c' ≠ c := fun he => hc' pk (by rw [he]; exact hd)
    exact (Table.getD_put_other _ _ _ hne).trans (hf.chans c' hc')
  · exact hf

/-- R139: no special register but FSTAT. -/
theorem sameSpecial_of_rest {y r z : Crew} {fl : FlagSet} (hr : SameButDst y r) (hz : GoesOn (setFstat r fl) z) :
    sameSpecial y z := by
  obtain ⟨q, hq, hz⟩ := hz
  have hholding : r.holding = y.holding := by rw [hr]
  have hspecial : sameSpecial y { r with holding := y.holding } := by
    rw [hr]
    exact ⟨rfl, rfl, rfl, rfl, rfl, rfl, rfl, rfl, rfl, rfl⟩
  obtain ⟨hp, htst, htctl, hacs, hpending, htape, hcopies, hbatches, hhandler, -⟩ := hspecial
  rw [hz]
  exact ⟨hp, htst, htctl, hacs, hpending, htape, hcopies, hbatches, hhandler, hq.trans (by rw [← hholding]; rfl)⟩

/-- Settles O43: the result touches its destination and FSTAT, and what follows only the crew's paths. -/
theorem laneWordFrame : Obligations.LaneWordFrame := by
  intro i w s t u h vs hw hp hm hsrcs hu
  obtain ⟨v, fl, hexec⟩ := (laneWordsComplete i w s h hw hp).2 vs t hm hsrcs
  have hdone : u = wordDone t h (laneResult h w v fl) := by
    injection hu.symm.trans hexec
  have hone := oneCrew_wordDone t h (laneResult h w v fl)
  rw [← hdone] at hone
  refine ⟨fun hplain => ?_, hone.1, hone.2, fun p => by unfold byteAt; rw [hone.mem], fun y z hy hz => ?_⟩
  · unfold runs at hsrcs
    rw [readSrcsE_plain _ _ _ _ hplain] at hsrcs
    injection hsrcs with hpair
    exact (congrArg Prod.snd hpair).symm
  · obtain ⟨z', hz', q, hq, hgoes⟩ := crewOf_wordDone (f := laneResult h w v fl) hy
    rw [← hdone, hz] at hz'
    obtain rfl := Option.some.inj hz'
    have hframe := (dstFrame_putDst h w v y).pushChan (laneMask h w) v
    have hresult : laneResult h w v fl y = setFstat (pushChan (putDst y (inCapsule h.crew (hMask h)) w.d w.n (laneMask h w) v)
      w.d (laneMask h w) v) fl := rfl
    generalize pushChan (putDst y (inCapsule h.crew (hMask h)) w.d w.n (laneMask h w) v) w.d (laneMask h w) v = r
      at hframe hresult
    rw [hresult] at hgoes hq
    have hfstat : z.fstat = y.fstat ||| BitVec.ofNat 32 (fl % 16) := by
      rw [hgoes, ← hframe.fstat]
      rfl
    refine ⟨fun k l hk hl => ?_, fun k hk => ?_, fun k hk => ?_, fun k hk => ?_, fun k hk => ?_, fun c hc => ?_, ?_⟩
    · rw [← hframe.readV k l hk hl, hgoes]
      rfl
    · rw [← hframe.readS k hk, hgoes]
      rfl
    · rw [← hframe.readK k hk, hgoes]
      rfl
    · rw [hfstat, BitVec.getLsbD_or, hk, Bool.true_or]
    · have hlow : (fl % 16).testBit k = false :=
        Nat.testBit_lt_two_pow (Nat.lt_of_lt_of_le (Nat.mod_lt _ (by decide)) (Nat.pow_le_pow_right (by decide) hk : 2 ^ 4 ≤ 2 ^ k))
      rw [hfstat, BitVec.getLsbD_or, BitVec.getLsbD_ofNat, hlow, Bool.and_false, Bool.or_false]
    · rw [← hframe.chans c hc, hgoes]
      rfl
    · exact sameSpecial_of_rest hframe.rest ⟨q, hq, hgoes⟩

end Sys2Proof
end
